-- ==== Sys2Proof/Word.lean ====
section
/-! DEFINITION. The words of the OZ-1 (R5, R25, R56): 64-bit scalar words, bytes, register numbers, and the plainest
arithmetic on them. Addresses and counts that the manual never masks are natural numbers. -/

namespace Sys2Proof

/-- A scalar register's contents, an instruction word or a doubleword of memory. -/
abbrev Word := BitVec 64
/-- One byte of memory (R5). -/
abbrev Byte := BitVec 8
/-- A 6-bit scalar register field: s0 to s63 (R28). -/
abbrev Reg := BitVec 6
/-- A 5-bit register field of class V (R29). -/
abbrev VReg := BitVec 5

/-- A finite map kept as a list of key and value pairs; the operations of `Machine/Assoc.lean` keep keys rising. -/
abbrev KMap (α : Type) := List (Nat × α)

end Sys2Proof
end

