-- ==== Sys2Proof/Syntax.lean ====
section
/-! DEFINITION. The instructions of the OZ-1 as syntax: one constructor of `Instr` for each row of the table of operations
and events. The first rows are instruction words (classes S, D, V and L of R25); the rest are the steps of the part's
engines, of its management core, of the host and of the operator, which find what they are given in the state's message. -/

namespace Sys2Proof

/-- The seven scopes of Table 2.3 (R31, R79). -/
inductive Scope where
  | t | c | p | d | k | h | w
  deriving DecidableEq, Repr

/-- The order codes of Table 2.3 (R31). -/
inductive Order where
  | plain | acq | rel | ar
  deriving DecidableEq, Repr

/-- The residency hints of Table 2.3 (R31, R278). -/
inductive Hint where
  | none | ef | keep
  deriving DecidableEq, Repr

/-- The scalar floating formats of the ft field (R30). -/
inductive SFmt where
  | f32 | f16 | bf16
  deriving DecidableEq, Repr

/-- The memory operand of format SM: segment, base register, displacement, and order, scope and hint (R30, R31). -/
structure MemRef where
  seg : BitVec 3
  a : Reg
  disp : BitVec 12
  order : Order
  scope : Scope
  hint : Hint
  deriving DecidableEq, Repr

/-- The memory operand of format SA, with the size bit (R30, R31, R145). -/
structure AmoRef where
  seg : BitVec 3
  a : Reg
  order : Order
  scope : Scope
  wide : Bool
  deriving DecidableEq, Repr

/-- The two sides of a copy and its operand group (format SC, R251). -/
structure CopyRef where
  dseg : BitVec 3
  aseg : BitVec 3
  d : Reg
  a : Reg
  b : Reg
  deriving DecidableEq, Repr

/-- The handle of a copy: a tag, or a stage barrier when `barrier` (R30, R251). -/
structure Handle where
  n : BitVec 6
  barrier : Bool
  deriving DecidableEq, Repr

/-- The immediate half-operations of Table 2.4. -/
inductive HImm where
  | addi | andi | ori | xori | slli | srli | srai | li | cmplti
  deriving DecidableEq, Repr

/-- The load half-operations of Table 2.4. -/
inductive HLoad where
  | d | w | wn
  deriving DecidableEq, Repr

/-- The branch half-operations of Table 2.4. -/
inductive HBranch where
  | beq | bne | blt | bge | bltn | bgen
  deriving DecidableEq, Repr

/-- One half of a class D word (R32). A register half holds the class S opcode in `fn`. -/
inductive Half where
  | nop
  | reg (fn : BitVec 7) (d a b : Reg)
  | imm (k : HImm) (d : Reg) (v : BitVec 13)
  | load (k : HLoad) (d a : Reg) (seg : BitVec 3) (disp : BitVec 10)
  | store (wide : Bool) (d a : Reg) (seg : BitVec 3) (disp : BitVec 10)
  | branch (k : HBranch) (d a : Reg) (off : BitVec 13)
  deriving DecidableEq, Repr

/-- The fields of a class V word below its opcode, as R35 lays them out. Which of them an instruction uses is in
`Instr.wf`. -/
structure VFields where
  vd : VReg
  va : VReg
  vb : VReg
  vc : VReg
  ca : Bool
  cb : Bool
  cc : Bool
  guard : BitVec 3
  pol : Bool
  fmt : BitVec 5
  rnd : BitVec 3
  s : Reg
  ext : BitVec 11
  deriving DecidableEq, Repr

/-- A party that issues instruction words: a barrel thread by its thread number (R178) or a Retriever by its number
(R11). -/
inductive Agent where
  | thread (t : Nat)
  | ret (n : Nat)
  deriving DecidableEq, Repr

/-- One record of the resource map (Table 13.2), without its CHANGED doubleword. -/
structure MapRec where
  kind : Nat
  state : Nat
  value : Nat
  auxA : Nat
  auxB : Nat
  changed : Nat
  deriving DecidableEq, Repr

/-- What a MAP request asks for (Table 13.7, R269): the pages of [cva, cva + len), their sort (0 zero-fill, 1 host-backed,
2 code), ordering kind, rights, read-ahead, and the host address of a host-backed mapping. -/
structure MapReq where
  cva : Nat
  len : Nat
  sort : Nat
  kind : BitVec 2
  r : Bool
  w : Bool
  ahead : Nat
  host : Nat
  deriving DecidableEq, Repr

/-- What a REGION request asks for: the fields of Table 10.6 but ROWBASE and CHOFF, and the views' page kind (R283). -/
structure RegionReq where
  rows : Nat
  cols : Nat
  fmt : BitVec 5
  native : BitVec 2
  decode : Bool
  scaled : Bool
  scale : Nat
  kind : BitVec 2
  deriving DecidableEq, Repr

/-- A firmware image as the boot ROM sees it (R359). -/
structure FwImage where
  rootKey : List Byte
  secVersion : Nat
  body : List Byte
  sig : List Byte
  raiseTo : Option Nat
  deriving DecidableEq, Repr

/-- What a step of an engine, of the keeper, of the host or of the operator is given: each row's comment says which of
these fields it reads. -/
structure Msg where
  a : Nat
  b : Nat
  c : Nat
  d : Nat
  e : Nat
  flag : Bool
  agent : Agent
  bytes : List Byte
  bytes2 : List Byte
  words : List Word
  nats : List Nat
  recs : List (Nat × MapRec)
  map : MapReq
  region : RegionReq
  fw : FwImage
  deriving DecidableEq, Repr

/-- A message with nothing in it. -/
def Msg.empty : Msg :=
  { a := 0, b := 0, c := 0, d := 0, e := 0, flag := false, agent := .thread 0, bytes := [], bytes2 := [], words := []
    nats := [], recs := []
    map := { cva := 0, len := 0, sort := 0, kind := 0, r := false, w := false, ahead := 0, host := 0 }
    region := { rows := 0, cols := 0, fmt := 0, native := 0, decode := false, scaled := false, scale := 0, kind := 0 }
    fw := { rootKey := [], secVersion := 0, body := [], sig := [], raiseTo := none } }

/-- The operations and events of the part, one constructor for each row of the table. An instruction word carries its
operands; a step of an engine, of the keeper, of the host or of the operator reads its message from the state (`msg`).
Lean compiles at most 244 constructors that carry anything, so HINT, whose other bits mean nothing (R44), carries none, and
VSEED and the nine sampling words with operands read their fields from the word at issue (`State.ir`). -/
inductive Instr where
  /-- ADD (R137): Writes the 64-bit wrapping sum of two scalar registers. -/
  | add (d a b : Reg)
  /-- SUB (R137): Writes the 64-bit wrapping difference of two scalar registers. -/
  | sub (d a b : Reg)
  /-- MUL (R137): Writes the low 64 bits of the product of two scalar registers. -/
  | mul (d a b : Reg)
  /-- MULH (R137): Writes bits 127:64 of the signed product. -/
  | mulh (d a b : Reg)
  /-- MULHN (R137): Writes bits 127:64 of the natural product. -/
  | mulhn (d a b : Reg)
  /-- DIV (R137): Writes the signed quotient under the division rules of R57. -/
  | div (d a b : Reg)
  /-- DIVN (R137): Writes the natural quotient under R57. -/
  | divn (d a b : Reg)
  /-- REM (R137): Writes the signed remainder under R57. -/
  | rem (d a b : Reg)
  /-- REMN (R137): Writes the natural remainder under R57. -/
  | remn (d a b : Reg)
  /-- AND (R137): Writes the bitwise and of two registers. -/
  | and (d a b : Reg)
  /-- OR (R137): Writes the bitwise or of two registers. -/
  | or (d a b : Reg)
  /-- XOR (R137): Writes the bitwise xor of two registers. -/
  | xor (d a b : Reg)
  /-- ANDN (R137): Writes a and not b. -/
  | andn (d a b : Reg)
  /-- SLL (R137): Shifts left by the low six bits of b. -/
  | sll (d a b : Reg)
  /-- SRL (R137): Shifts right logically by the low six bits of b. -/
  | srl (d a b : Reg)
  /-- SRA (R137): Shifts right arithmetically by the low six bits of b. -/
  | sra (d a b : Reg)
  /-- ROL (R137): Rotates left by the low six bits of b. -/
  | rol (d a b : Reg)
  /-- ROR (R137): Rotates right by the low six bits of b. -/
  | ror (d a b : Reg)
  /-- MIN (R137): Writes the smaller operand as i64. -/
  | min (d a b : Reg)
  /-- MAX (R137): Writes the larger operand as i64. -/
  | max (d a b : Reg)
  /-- MINN (R137): Writes the smaller operand as n64. -/
  | minn (d a b : Reg)
  /-- MAXN (R137): Writes the larger operand as n64. -/
  | maxn (d a b : Reg)
  /-- CMPEQ (R137): Writes 1 if the operands are equal, else 0. -/
  | cmpeq (d a b : Reg)
  /-- CMPNE (R137): Writes 1 if the operands differ, else 0. -/
  | cmpne (d a b : Reg)
  /-- CMPLT (R137): Writes 1 if a is below b as i64. -/
  | cmplt (d a b : Reg)
  /-- CMPLTN (R137): Writes 1 if a is below b as n64. -/
  | cmpltn (d a b : Reg)
  /-- CSEL (R137): Writes a if b is nonzero, else c. -/
  | csel (d a b c : Reg)
  /-- CLZ (R137): Counts the leading zeros of a. -/
  | clz (d a : Reg)
  /-- CTZ (R137): Counts the trailing zeros of a. -/
  | ctz (d a : Reg)
  /-- POPC (R137): Counts the one bits of a. -/
  | popc (d a : Reg)
  /-- BSWAP (R137): Reverses the eight bytes of a. -/
  | bswap (d a : Reg)
  /-- BEXT (R137): Extracts a bit field of a at position b and length c. -/
  | bext (d a b c : Reg)
  /-- BDEP (R137): Deposits the low bits of a into d at position b and length c. -/
  | bdep (d a b c : Reg)
  /-- ADDI (R138): Adds a sign-extended 12-bit immediate. -/
  | addi (d a : Reg) (imm : BitVec 12)
  /-- MULI (R138): Multiplies by a sign-extended immediate. -/
  | muli (d a : Reg) (imm : BitVec 12)
  /-- ANDI (R138): Ands with a sign-extended immediate. -/
  | andi (d a : Reg) (imm : BitVec 12)
  /-- ORI (R138): Ors with a sign-extended immediate. -/
  | ori (d a : Reg) (imm : BitVec 12)
  /-- XORI (R138): Xors with a sign-extended immediate. -/
  | xori (d a : Reg) (imm : BitVec 12)
  /-- SLLI (R138): Shifts left by an immediate amount. -/
  | slli (d a : Reg) (sh : BitVec 6)
  /-- SRLI (R138): Shifts right logically by an immediate amount. -/
  | srli (d a : Reg) (sh : BitVec 6)
  /-- SRAI (R138): Shifts right arithmetically by an immediate amount. -/
  | srai (d a : Reg) (sh : BitVec 6)
  /-- ROLI (R138): Rotates left by an immediate amount. -/
  | roli (d a : Reg) (sh : BitVec 6)
  /-- CMPEQI (R138): Writes 1 if a equals the immediate. -/
  | cmpeqi (d a : Reg) (imm : BitVec 12)
  /-- CMPLTI (R138): Writes 1 if a is below the immediate as i64. -/
  | cmplti (d a : Reg) (imm : BitVec 12)
  /-- CMPLTNI (R138): Writes 1 if a is below the sign-extended immediate as n64. -/
  | cmpltni (d a : Reg) (imm : BitVec 12)
  /-- MINI (R138): Writes the smaller of a and the immediate as i64. -/
  | mini (d a : Reg) (imm : BitVec 12)
  /-- MAXI (R138): Writes the larger of a and the immediate as i64. -/
  | maxi (d a : Reg) (imm : BitVec 12)
  /-- LIH (R139): Loads a 20-bit immediate shifted left by 12 and sign-extended. -/
  | lih (d : Reg) (imm : BitVec 20)
  /-- LIPC (R139): Adds a shifted 20-bit immediate to the PC. -/
  | lipc (d : Reg) (imm : BitVec 20)
  /-- LDI32 (R139): Loads a sign-extended 32-bit immediate. -/
  | ldi32 (d : Reg) (imm : BitVec 32)
  /-- LDI32_N (R139): Loads a zero-extended 32-bit immediate. -/
  | ldi32N (d : Reg) (imm : BitVec 32)
  /-- FADD (R140): Scalar floating addition, rounded once. -/
  | fadd (d a b : Reg) (ft : SFmt) (rnd : BitVec 3)
  /-- FSUB (R140): Scalar floating subtraction, rounded once. -/
  | fsub (d a b : Reg) (ft : SFmt) (rnd : BitVec 3)
  /-- FMUL (R140): Scalar floating multiplication, rounded once. -/
  | fmul (d a b : Reg) (ft : SFmt) (rnd : BitVec 3)
  /-- FDIV (R140): Scalar floating division, rounded once. -/
  | fdiv (d a b : Reg) (ft : SFmt) (rnd : BitVec 3)
  /-- FSQRT (R140): Scalar floating square root, rounded once. -/
  | fsqrt (d a : Reg) (ft : SFmt) (rnd : BitVec 3)
  /-- FMADD (R140): Fused multiply-add with one rounding. -/
  | fmadd (d a b c : Reg) (ft : SFmt) (rnd : BitVec 3)
  /-- FMSUB (R140): Fused multiply-subtract with one rounding. -/
  | fmsub (d a b c : Reg) (ft : SFmt) (rnd : BitVec 3)
  /-- FMIN (R140): Floating minimum under R61. -/
  | fmin (d a b : Reg) (ft : SFmt)
  /-- FMAX (R140): Floating maximum under R61. -/
  | fmax (d a b : Reg) (ft : SFmt)
  /-- FCMPEQ (R140): Writes 1 if two floating values are equal. -/
  | fcmpeq (d a b : Reg) (ft : SFmt)
  /-- FCMPLT (R140): Writes 1 if a is below b. -/
  | fcmplt (d a b : Reg) (ft : SFmt)
  /-- FCMPLE (R140): Writes 1 if a is at most b. -/
  | fcmple (d a b : Reg) (ft : SFmt)
  /-- FCLASS (R140): Writes a one-hot class mask of the input. -/
  | fclass (d a : Reg) (ft : SFmt)
  /-- FCVTFI (R140): Converts a floating value to i64. -/
  | fcvtfi (d a : Reg) (ft : SFmt) (rnd : BitVec 3)
  /-- FCVTFN (R140): Converts a floating value to n64. -/
  | fcvtfn (d a : Reg) (ft : SFmt) (rnd : BitVec 3)
  /-- FCVTIF (R140): Converts an i64 to a floating format. -/
  | fcvtif (d a : Reg) (g : SFmt) (rnd : BitVec 3)
  /-- FCVTNF (R140): Converts an n64 to a floating format. -/
  | fcvtnf (d a : Reg) (g : SFmt) (rnd : BitVec 3)
  /-- FCVTFF (R140): Converts between floating formats. -/
  | fcvtff (d a : Reg) (ft g : SFmt) (rnd : BitVec 3)
  /-- BEQ (R141): Branches if d equals a. -/
  | beq (d a : Reg) (off : BitVec 20)
  /-- BNE (R141): Branches if d differs from a. -/
  | bne (d a : Reg) (off : BitVec 20)
  /-- BLT (R141): Branches if d is below a as i64. -/
  | blt (d a : Reg) (off : BitVec 20)
  /-- BGE (R141): Branches if d is at least a as i64. -/
  | bge (d a : Reg) (off : BitVec 20)
  /-- BLTN (R141): Branches if d is below a as n64. -/
  | bltn (d a : Reg) (off : BitVec 20)
  /-- BGEN (R141): Branches if d is at least a as n64. -/
  | bgen (d a : Reg) (off : BitVec 20)
  /-- JMP (R142): Jumps by a 32-bit word offset. -/
  | jmp (off : BitVec 32)
  /-- CALL (R142): Writes PC+8 to the link register and jumps by a word offset. -/
  | call (d : Reg) (off : BitVec 32)
  /-- CALLR (R142): Writes the link and jumps to an aligned register target. -/
  | callr (d a : Reg)
  /-- RET (R142): Jumps to an aligned register target. -/
  | ret (a : Reg)
  /-- JMPR (R142): Jumps to an aligned register target, as RET. -/
  | jmpr (a : Reg)
  /-- LD_B (R143): Loads a sign-extended byte through a segment. -/
  | ldB (d : Reg) (m : MemRef)
  /-- LD_H (R143): Loads a sign-extended halfword. -/
  | ldH (d : Reg) (m : MemRef)
  /-- LD_W (R143): Loads a sign-extended word, optionally as an acquire. -/
  | ldW (d : Reg) (m : MemRef)
  /-- LD_D (R143): Loads a doubleword, optionally as an acquire. -/
  | ldD (d : Reg) (m : MemRef)
  /-- LD_B_N (R143): Loads a zero-extended byte. -/
  | ldBN (d : Reg) (m : MemRef)
  /-- LD_H_N (R143): Loads a zero-extended halfword. -/
  | ldHN (d : Reg) (m : MemRef)
  /-- LD_W_N (R143): Loads a zero-extended word. -/
  | ldWN (d : Reg) (m : MemRef)
  /-- ST_B (R143): Stores a byte. -/
  | stB (d : Reg) (m : MemRef)
  /-- ST_H (R143): Stores a halfword. -/
  | stH (d : Reg) (m : MemRef)
  /-- ST_W (R143): Stores a word, optionally as a release. -/
  | stW (d : Reg) (m : MemRef)
  /-- ST_D (R143): Stores a doubleword, optionally as a release. -/
  | stD (d : Reg) (m : MemRef)
  /-- PREF (R144): Asks the caches for a line, dropping it silently on any fault. -/
  | pref (m : MemRef)
  /-- AMOADD (R145): Atomically adds at the home and returns the old value. -/
  | amoadd (d b : Reg) (m : AmoRef)
  /-- AMOAND (R145): Atomic and at the home. -/
  | amoand (d b : Reg) (m : AmoRef)
  /-- AMOOR (R145): Atomic or at the home. -/
  | amoor (d b : Reg) (m : AmoRef)
  /-- AMOXOR (R145): Atomic xor at the home. -/
  | amoxor (d b : Reg) (m : AmoRef)
  /-- AMOMIN (R145): Atomic signed minimum. -/
  | amomin (d b : Reg) (m : AmoRef)
  /-- AMOMAX (R145): Atomic signed maximum. -/
  | amomax (d b : Reg) (m : AmoRef)
  /-- AMOMINN (R145): Atomic natural minimum. -/
  | amominn (d b : Reg) (m : AmoRef)
  /-- AMOMAXN (R145): Atomic natural maximum. -/
  | amomaxn (d b : Reg) (m : AmoRef)
  /-- AMOSWAP (R145): Atomic swap. -/
  | amoswap (d b : Reg) (m : AmoRef)
  /-- CAS (R145): Compare-and-swap at the home, returning the old value. -/
  | cas (d b : Reg) (m : AmoRef)
  /-- FENCE (R86): Waits until every earlier access of the agent is performed at the named scope. -/
  | fence (sc : Scope)
  /-- TRAP (R131): Takes ECALL with the code if the register is nonzero. -/
  | trap (a : Reg) (code : BitVec 12)
  /-- ECALL (R131): Takes the precise ECALL trap with a code. -/
  | ecall (code : BitVec 12)
  /-- BRK (R131): Takes the precise BRK trap with a code. -/
  | brk (code : BitVec 12)
  /-- CSRR (R126): Reads a CSR into a register. -/
  | csrr (d : Reg) (csr : BitVec 12)
  /-- CSRW (R126): Writes a CSR from a register. -/
  | csrw (csr : BitVec 12) (a : Reg)
  /-- CSRS (R126): Sets CSR bits from a register. -/
  | csrs (csr : BitVec 12) (a : Reg)
  /-- CSRC (R126): Clears CSR bits from a register. -/
  | csrc (csr : BitVec 12) (a : Reg)
  /-- TIME (R146): Reads the package timestamp. -/
  | time (d : Reg)
  /-- REPART (R113): Changes the core's partition when quiescent. -/
  | repart (d a : Reg)
  /-- RMVER (R146): Reads the current resource-map version. -/
  | rmver (d : Reg)
  /-- RMACK (R148): Acknowledges a resource-map version for the context. -/
  | rmack (d a : Reg)
  /-- RMREAD (R146): Reads one doubleword of a resource-map record. -/
  | rmread (d a b : Reg)
  /-- TRACEMARK (R146): Appends a mark entry to the core's trace ring. -/
  | tracemark (a : Reg) (code : BitVec 12)
  /-- SEGLD (R117): Loads and checks a 16-byte segment descriptor into a segment register. -/
  | segld (g : BitVec 3) (m : MemRef)
  /-- SEGST (R117): Stores a segment descriptor to memory. -/
  | segst (g : BitVec 3) (m : MemRef)
  /-- PGINV (R149): Invalidates translations of a range and waits until every agent has stopped using them. -/
  | pginv (a b : Reg)
  /-- CFLUSH (R290): Writes back and invalidates a line in the caches of the scope. -/
  | cflush (m : MemRef)
  /-- CINV (R290): Invalidates a line in the caches of the scope. -/
  | cinv (m : MemRef)
  /-- CCLEAN (R290): Writes back a line's dirty data, keeping clean copies. -/
  | cclean (m : MemRef)
  /-- RETAIN (R291): Sets a retention register reserving L2 ways for a range. -/
  | retain (d a b c : Reg)
  /-- UNPIN (R292): Releases a retention register. -/
  | unpin (d a : Reg)
  /-- VIEWADDR (R293): Computes the view offset of a region element. -/
  | viewaddr (d a b : Reg) (g : BitVec 3)
  /-- REGINFO (R293): Reads region register information through a view aperture. -/
  | reginfo (d a b : Reg) (g : BitVec 3)
  /-- ATOMLOG (R294): Reads a matching entry of the outcome log. -/
  | atomlog (d a b : Reg)
  /-- ARRLOG (R295): Reads a doubleword of a home's arrival log. -/
  | arrlog (d a b : Reg)
  /-- RLOAD (R249): Loads a Retriever program into the loader or storer and takes ownership. -/
  | rload (d a b : Reg)
  /-- RSTART (R249): Starts an owned Retriever at an offset with a register argument. -/
  | rstart (d a b c : Reg)
  /-- RSTOP (R249): Stops an owned Retriever at its next command boundary. -/
  | rstop (d a : Reg)
  /-- RSTAT (R249): Reads a doubleword of a Retriever's status. -/
  | rstat (d a b : Reg)
  /-- CPY (R251): Hands a linear copy to the copy engine. -/
  | cpy (o : CopyRef) (h : Handle)
  /-- CPY2 (R251): Hands a two-dimensional strided copy to the copy engine. -/
  | cpy2 (o : CopyRef) (h : Handle)
  /-- CPYT (R252): Hands a region-window copy to the copy engine. -/
  | cpyt (o : CopyRef) (h : Handle)
  /-- CPYG (R251): Hands a gather copy through an index list to the copy engine. -/
  | cpyg (o : CopyRef) (h : Handle)
  /-- CPYRES (R257): Restarts a faulted copy from its recorded chunk. -/
  | cpyres (h : Handle)
  /-- WAITANY (R259): Waits until any named tag is set or none is in flight. -/
  | waitany (d a : Reg)
  /-- WAITALL (R259): Waits until no named tag is in flight. -/
  | waitall (d a : Reg)
  /-- FFREADY (R259): Reads the named tag bits without waiting. -/
  | ffready (d a : Reg)
  /-- TAGCLR (R259): Clears tag bits and idles their finished records. -/
  | tagclr (a : Reg)
  /-- TAGSTAT (R259): Reads a doubleword of a progress record. -/
  | tagstat (d a b : Reg)
  /-- SBINIT (R263): Initialises a stage barrier with a consumer count. -/
  | sbinit (a b : Reg)
  /-- SBEXP (R263): Raises a barrier's pending bytes and arms its phase. -/
  | sbexp (a b : Reg)
  /-- SBWAIT (R263): Waits for a barrier half's phase to flip, then acquires. -/
  | sbwait (d a b : Reg)
  /-- SBREL (R263): Releases and counts a consumer release on the empty half. -/
  | sbrel (a : Reg)
  /-- SBSTAT (R263): Reads a doubleword of a stage barrier's state. -/
  | sbstat (d a b : Reg)
  /-- SPAWN (R310): Writes a frame, pushes the continuation and enters the child. -/
  | spawn (d a b c : Reg)
  /-- RETJ (R310): Returns from a child, resuming the continuation locally or ending the strand. -/
  | retj (a : Reg)
  /-- JOIN (R310): Waits until a frame's COUNT is zero, then acquires. -/
  | join (d a : Reg)
  /-- JOINQ (R310): Reads a frame's COUNT without waiting, acquiring when zero. -/
  | joinq (d a : Reg)
  /-- GLAUNCH (R317): Starts a gang from a launch record in memory. -/
  | glaunch (d a : Reg) (g : BitVec 3)
  /-- GBAR (R314): Arrives at and waits on the gang barrier. -/
  | gbar (d : Reg)
  /-- DEPINIT (R313): Initialises a dependence counter. -/
  | depinit (d a : Reg) (g : BitVec 3)
  /-- DEPARM (R313): Adds the expected count to a counter and arms it. -/
  | deparm (d a b : Reg) (g : BitVec 3)
  /-- DEPSIG (R313): Decrements a dependence counter, possibly firing its successor. -/
  | depsig (d a : Reg) (g : BitVec 3)
  /-- TASKID (R316): Reads the task's tile, gang extent or strand information. -/
  | taskid (d a : Reg)
  /-- SLOTINFO (R316): Reads a doubleword of the binding slot-table entry. -/
  | slotinfo (d a : Reg)
  /-- WDSET (R315): Sets the gang watchdog time and restarts the count. -/
  | wdset (d a : Reg)
  /-- DUAL_WORD (R34): Performs two restricted half-operations in one issue slot. -/
  | dualWord (hi lo : Half)
  /-- SMLOOP (R203): Closes a strip-mined loop: counts down, advances streams, passes a grant point and branches. -/
  | smloop (c : Reg) (mask : BitVec 8) (off : BitVec 32)
  /-- VREQ (R196): Sets the thread's vector ceiling and allocates its spill area. -/
  | vreq (f : VFields)
  /-- VSETL (R197): Passes a grant point and sets the strip length. -/
  | vsetl (f : VFields)
  /-- VYIELD (R198): Changes the standing request and passes a grant point. -/
  | vyield (f : VFields)
  /-- QSET (R200): Writes a stream register. -/
  | qset (f : VFields)
  /-- CARRYR (R202): Reads CARRY into a scalar register. -/
  | carryr (f : VFields)
  /-- CARRYW (R202): Writes CARRY from a scalar register. -/
  | carryw (f : VFields)
  /-- VLD (R206): Unit-stride vector load. -/
  | vld (f : VFields)
  /-- VLDS (R206): Strided vector load. -/
  | vlds (f : VFields)
  /-- VLDX (R206): Indexed vector load. -/
  | vldx (f : VFields)
  /-- VLDQ (R206): Vector load through a stream register. -/
  | vldq (f : VFields)
  /-- VLDL (R207): Loads register slots from the LSP window. -/
  | vldl (f : VFields)
  /-- VST (R206): Unit-stride vector store. -/
  | vst (f : VFields)
  /-- VSTS (R206): Strided vector store. -/
  | vsts (f : VFields)
  /-- VSTX (R206): Indexed vector store. -/
  | vstx (f : VFields)
  /-- VSTQ (R206): Vector store through a stream register. -/
  | vstq (f : VFields)
  /-- VSTL (R207): Stores register slots to the LSP window. -/
  | vstl (f : VFields)
  /-- VLDSX (R208): Loads whole SX blocks into a vector and a scale register. -/
  | vldsx (f : VFields)
  /-- VSTSX (R208): Stores whole SX blocks from a vector and a scale register. -/
  | vstsx (f : VFields)
  /-- VAMO (R209): Performs one atomic per active element and returns the old values. -/
  | vamo (f : VFields)
  /-- VFADD (R210): Element-wise floating addition. -/
  | vfadd (f : VFields)
  /-- VFSUB (R210): Element-wise floating subtraction. -/
  | vfsub (f : VFields)
  /-- VFMUL (R210): Element-wise floating multiplication. -/
  | vfmul (f : VFields)
  /-- VFDIV (R210): Element-wise floating division. -/
  | vfdiv (f : VFields)
  /-- VFSQRT (R210): Element-wise floating square root. -/
  | vfsqrt (f : VFields)
  /-- VFMA (R210): Element-wise fused multiply-add. -/
  | vfma (f : VFields)
  /-- VFMS (R210): Element-wise fused multiply-subtract. -/
  | vfms (f : VFields)
  /-- VFMIN (R210): Element-wise floating minimum. -/
  | vfmin (f : VFields)
  /-- VFMAX (R210): Element-wise floating maximum. -/
  | vfmax (f : VFields)
  /-- VFCMPEQ (R210): Element-wise floating equality compare into a mask. -/
  | vfcmpeq (f : VFields)
  /-- VFCMPLT (R210): Element-wise floating less-than compare into a mask. -/
  | vfcmplt (f : VFields)
  /-- VFCMPLE (R210): Element-wise floating less-or-equal compare into a mask. -/
  | vfcmple (f : VFields)
  /-- VADD (R212): Element-wise wrapping integer addition. -/
  | vadd (f : VFields)
  /-- VSUB (R212): Element-wise wrapping integer subtraction. -/
  | vsub (f : VFields)
  /-- VMUL (R212): Element-wise wrapping integer multiplication. -/
  | vmul (f : VFields)
  /-- VMULH (R212): Element-wise high half of the integer product. -/
  | vmulh (f : VFields)
  /-- VDIV (R212): Element-wise integer division. -/
  | vdiv (f : VFields)
  /-- VREM (R212): Element-wise integer remainder. -/
  | vrem (f : VFields)
  /-- VAND (R212): Element-wise bitwise and. -/
  | vand (f : VFields)
  /-- VOR (R212): Element-wise bitwise or. -/
  | vor (f : VFields)
  /-- VXOR (R212): Element-wise bitwise xor. -/
  | vxor (f : VFields)
  /-- VSLL (R212): Element-wise left shift. -/
  | vsll (f : VFields)
  /-- VSRL (R212): Element-wise logical right shift. -/
  | vsrl (f : VFields)
  /-- VSRA (R212): Element-wise arithmetic right shift. -/
  | vsra (f : VFields)
  /-- VMIN (R212): Element-wise integer minimum. -/
  | vmin (f : VFields)
  /-- VMAX (R212): Element-wise integer maximum. -/
  | vmax (f : VFields)
  /-- VCMPEQ (R212): Element-wise integer equality compare into a mask. -/
  | vcmpeq (f : VFields)
  /-- VCMPLT (R212): Element-wise integer less-than compare into a mask. -/
  | vcmplt (f : VFields)
  /-- VADDS (R212): Element-wise saturating addition. -/
  | vadds (f : VFields)
  /-- VSUBS (R212): Element-wise saturating subtraction. -/
  | vsubs (f : VFields)
  /-- VCVT (R213): Converts each element between formats. -/
  | vcvt (f : VFields)
  /-- VPERM (R214): Permutes elements by an index vector. -/
  | vperm (f : VFields)
  /-- VSLIDEUP (R214): Slides elements up by a scalar count. -/
  | vslideup (f : VFields)
  /-- VSLIDEDN (R214): Slides elements down by a scalar count. -/
  | vslidedn (f : VFields)
  /-- VCOMPRESS (R214): Packs active elements to the bottom and counts them. -/
  | vcompress (f : VFields)
  /-- VBCAST (R214): Broadcasts a scalar, optionally as a stepped sequence. -/
  | vbcast (f : VFields)
  /-- VEXT (R214): Extracts one element into a scalar register. -/
  | vext (f : VFields)
  /-- VREDSUM (R215): Integer sum reduction by the fixed tree. -/
  | vredsum (f : VFields)
  /-- VREDMIN (R215): Integer minimum reduction. -/
  | vredmin (f : VFields)
  /-- VREDMAX (R215): Integer maximum reduction. -/
  | vredmax (f : VFields)
  /-- VFREDSUM (R215): FP32 sum reduction by the fixed pairwise tree. -/
  | vfredsum (f : VFields)
  /-- VFREDMIN (R215): FP32 minimum reduction. -/
  | vfredmin (f : VFields)
  /-- VFREDMAX (R215): FP32 maximum reduction. -/
  | vfredmax (f : VFields)
  /-- VRECUR (R216): Runs a sequential recurrence through CARRY. -/
  | vrecur (f : VFields)
  /-- MAND (R217): Bytewise and of two masks. -/
  | mand (f : VFields)
  /-- MOR (R217): Bytewise or of two masks. -/
  | mor (f : VFields)
  /-- MXOR (R217): Bytewise xor of two masks. -/
  | mxor (f : VFields)
  /-- MNOT (R217): Bytewise not of a mask. -/
  | mnot (f : VFields)
  /-- MPOPC (R217): Counts set mask bits of active range elements. -/
  | mpopc (f : VFields)
  /-- MFIRST (R217): Finds the lowest set mask element. -/
  | mfirst (f : VFields)
  /-- MMODE (R225): Requests a matrix gang at a grant point. -/
  | mmode (f : VFields)
  /-- TSHAPE (R226): Fits the gang to a tile and grants its shape. -/
  | tshape (f : VFields)
  /-- MZERO (R231): Zeroes an accumulator. -/
  | mzero (f : VFields)
  /-- MOPA (R229): Adds an outer product into an accumulator. -/
  | mopa (f : VFields)
  /-- MOPA8 (R229): Adds a K-step sum of outer products into an accumulator. -/
  | mopa8 (f : VFields)
  /-- MOPS (R229): Subtracts an outer product from an accumulator. -/
  | mops (f : VFields)
  /-- MVACC (R231): Moves an accumulator row to a vector register. -/
  | mvacc (f : VFields)
  /-- MVCOL (R231): Moves an accumulator column to a vector register. -/
  | mvcol (f : VFields)
  /-- MLDACC (R231): Loads an accumulator row from a vector register. -/
  | mldacc (f : VFields)
  /-- MSPILL (R233): Writes a whole accumulator to the LSP window. -/
  | mspill (f : VFields)
  /-- MFILL (R233): Reads a whole accumulator from the LSP window. -/
  | mfill (f : VFields)
  /-- VMAXEXP (R242): Chooses block exponents and quad shifts into a scale register. -/
  | vmaxexp (f : VFields)
  /-- VQUANT (R243): Quantises elements to an SX format under a scale register. -/
  | vquant (f : VFields)
  /-- VDEQ (R244): Converts SX elements back to a floating format. -/
  | vdeq (f : VFields)
  /-- ERET (R130): Returns from a handler to EPC at U level. -/
  | eret
  /-- YIELD (R146): Forgoes the thread's next eligible turn in the rotation. -/
  | yield
  /-- TEND (R147): Ends the task's strand after copies, Retrievers and lanes are released. -/
  | tend
  /-- WDKICK (R315): Restarts the gang watchdog count. -/
  | wdkick
  /-- HINT (R44): Retires as a NOP whatever its other bits hold. -/
  | hint
  /-- VREL (R199): Ends the thread's vector state and frees its lanes. -/
  | vrel
  /-- MEXIT (R227): Leaves the gang, keeping its lanes as an ordinary grant. -/
  | mexit
  /-- VSEED (R201): Loads the RST state of every element slot. Its fields are those of the word at issue. -/
  | vseed
  /-- SAACQ (R327): Tries to take the die's sampling array without waiting. Its fields are those of the word at issue. -/
  | saacq
  /-- SAREL (R328): Waits for the queue, then resets and frees the array. -/
  | sarel
  /-- SALOAD (R329): Checks a load descriptor and queues a model load. Its fields are those of the word at issue. -/
  | saload
  /-- SASEED (R329): Queues a reseed of every cell's generator and a mode choice. Its fields are those of the word at issue. -/
  | saseed
  /-- SABETA (R329): Queues a change of the inverse temperature. Its fields are those of the word at issue. -/
  | sabeta
  /-- SACLAMP (R331): Clamps or unclamps cells from two vector registers. Its fields are those of the word at issue. -/
  | saclamp
  /-- SASWEEP (R329): Queues n sweeps. Its fields are those of the word at issue. -/
  | sasweep
  /-- SAREAD (R331): Reads cell states into a vector register. Its fields are those of the word at issue. -/
  | saread
  /-- SACOUNT (R331): Reads, and optionally clears, cell counts into a vector register. Its fields are those of the word at issue. -/
  | sacount
  /-- SAWAIT (R332): Waits for the queue to empty and reads the array status. Its fields are those of the word at issue. -/
  | sawait
  /-- SALOAD_RUN (R330): The array loads cells from memory, recording a fault if one occurs. Message: `a` die. -/
  | saloadRun
  /-- SASEED_RUN (R329): The array reseeds its generators and sets its mode. Message: `a` die. -/
  | saseedRun
  /-- SABETA_RUN (R329): The array sets BETA. Message: `a` die. -/
  | sabetaRun
  /-- SWEEP (R321): The array runs one sweep over colours 0 to 7 and updates counts. Message: `a` die, `flag` healthy. -/
  | sweep
  /-- SA_REGISTER_RETURN (R331): A register word completes in the array and its registers return to the thread. Message: `a` t. -/
  | saRegisterReturn
  /-- ENTROPY_RETEST (R322): The management core retests a failed entropy source each second. Message: `a` die, `flag` pass. -/
  | entropyRetest
  /-- LAUNCH_RECORD (R297): A 64-byte write to a launch port is checked and enqueued or refused. Message: `a` tenant, `b` port, `words` record. -/
  | launchRecord
  /-- PORT_WRITE_OTHER (R296): A write to a register offset with no row of its own is ignored or dropped. Message: `a` tenant, `b` port, `c` off, `d` len. -/
  | portWriteOther
  /-- GANG_START (R300): A waiting successor or port queue head enters a free gang-table entry. Message: `a` ctx. -/
  | gangStart
  /-- TILE_DRAW (R304): A pool draws the next tile of the oldest gang into its ready list. Message: `a` pool, `b` ctx. -/
  | tileDraw
  /-- DISPATCH (R305): A free hardware context takes a task from the ready list by age and probe hit. Message: `a` pool, `b` ctx. -/
  | dispatch
  /-- TASK_START (R306): After its footprint fetch the task starts with its scratch run and registers set. Message: `a` t. -/
  | taskStart
  /-- STEAL (R309): A free hardware context takes the oldest continuation from another deque. Message: `a` thief. -/
  | steal
  /-- GANG_END (R301): After the last task retires the gang table does DONE, IRQ and SIG. Message: `a` ctx. -/
  | gangEnd
  /-- WDOG (R315): The gang watchdog reaches WDT times 1,024 and the context takes a fatal trap. Message: `a` ctx, `b` gid. -/
  | wdog
  /-- QUANTUM_EXPIRY (R303): A slot-table entry's quantum passes and its expiry is reported to firmware. Message: `a` pool, `b` entry. -/
  | quantumExpiry
  /-- SLOT_TABLE_WRITE (R302): The management core writes a slot-table entry, binding or unbinding contexts. Message: `a` pool, `b` entry, `words` dws. -/
  | slotTableWrite
  /-- UNBIND (R134): A context is unbound from a core and its threads stop, spill and checkpoint. Message: `a` core, `b` ctx. -/
  | unbind
  /-- UNBIND_COMPLETE (R134): All six unbind steps are done and completion is reported to firmware. Message: `a` core, `b` ctx. -/
  | unbindComplete
  /-- RESUME (R135): A pre-empted thread resumes on a qualifying core with its state restored. Message: `a` the number the saved thread is kept by, `b` core, `c` hw. -/
  | resume
  /-- LSCFG_WRITE (R275): The management core changes a core's cache and scratch split. Message: `a` core, `words` v. -/
  | lscfgWrite
  /-- VICT_WRITE (R276): The management core changes a core's victim pooling. Message: `a` core, `words` v. -/
  | victWrite
  /-- LOAD_RESPONSE (R121): The value of an accepted scalar load arrives and the thread may issue again. Message: `agent` a. -/
  | loadResponse
  /-- ATOMIC_RESPONSE (R103): An atomic's response arrives, or is lost and ATOMLOST is taken. Message: `agent` a, `flag` lost. -/
  | atomicResponse
  /-- VECTOR_LOAD_ARRIVAL (R184): Elements of an accepted vector load are written as they arrive. Message: `a` t. -/
  | vectorLoadArrival
  /-- MATRIX_WORD_COMPLETE (R235): The gang commits a matrix word and returns registers or frees a queue entry. Message: `a` t. -/
  | matrixWordComplete
  /-- CHUNK_DONE (R254): A copy chunk is performed, lowering barrier counts and possibly completing the copy. Message: `a` pool, `b` id, `c` chunk. -/
  | chunkDone
  /-- CHUNK_FAULT (R255): A copy chunk faults and the copy's record takes state fault. Message: `a` pool, `b` id, `c` chunk, `flag` an uncorrectable data error of its source. -/
  | chunkFault
  /-- PAGE_REPORT (R269): The pager takes up a page-not-present report and brings the page in. Message: `a` ctx, `b` page, `flag` an
  uncorrectable error of the image store. -/
  | pageReport
  /-- WAKE_MESSAGE (R122): The pager's wake reaches parked threads and delayed agents. Message: `a` ctx, `b` page, `c` result. -/
  | wakeMessage
  /-- SCOPE_MISS_MESSAGE (R133): The service context takes a scope-miss message and repairs or starts the handler. Message: `a` core. -/
  | scopeMissMessage
  /-- ACQUIRE_REISSUE (R93): A held acquire is reissued once its mark is replaced, cleared or widened. Message: `agent` a. -/
  | acquireReissue
  /-- GRANT_WAKE (R176): The Kennel wakes a thread parked at a grant point when a lane is free. Message: `a` t. -/
  | grantWake
  /-- SLICE_MOVE (R177): The Kennel moves a parked thread's slices to other lanes through the LSP. Message: `a` t, `nats` lanes. -/
  | sliceMove
  /-- LANE_LOST (R186): A data lane's uncorrectable error stops its words, rebuilds its slices and replays. Message: `a` pool,
  `b` lane, `nats` the other lanes of its group lost before the rebuild completes, `flag` the spill area of context `c` fails. -/
  | laneLost
  /-- SLICE_PLACED (R187): A freed lane receives an owed rebuilt slice or gang block and the thread resumes. Message: `a` t. -/
  | slicePlaced
  /-- UNIT_ERROR (R342): A unit reports an error, counted and, at the third within a second, lasting. Message: `a` the unit's record,
  `b` its part (a lane, 32 the parity lane; 1 a whole slice, an entropy source, a core that cannot be read out), `flag`
  uncorrectable, `nats` the address of the data hit. -/
  | unitError
  /-- MAP_CHANGE (R341): The management core increments the version, writes records and raises RMEVENT. Message: `recs` the records. -/
  | mapChange
  /-- ACK_DEADLINE (R344): A context still in arrears 10 ms after an increment is suspended. Message: `a` ctx. -/
  | ackDeadline
  /-- DUMP_BUILD (R354): Once the context has stopped, the Bloodhound writes its image and seals it. Message: `a` ctx. -/
  | dumpBuild
  /-- HOST_WRITE_QUEUE_DRAIN (R274): A write leaves a die's host or Packlink write queue and is ordered on the link. Message: `a` die, `flag` peer. -/
  | hostWriteQueueDrain
  /-- HOST_WRITE (R367): The host writes device memory at the granule's home, or the write is dropped. Message: `a` ctx, `b` cva, `bytes` data. -/
  | hostWrite
  /-- HOST_READ (R367): The host reads device memory, or the read is aborted. Message: `a` ctx, `b` cva, `c` len. -/
  | hostRead
  /-- PEER_ACCESS (R352): A Packlink peer accesses an exported window of this part. Message: `a` peer, `b` window, `c` off, `flag` write, `bytes` data. -/
  | peerAccess
  /-- CTXNEW (R349): Creates a context, binds a launch port and reports its addresses. Message: `a` tenant, `b` tag, `c` heap,
  `d` TVEC, `e` SMVEC. -/
  | ctxnew
  /-- CTXDEL (R350): Destroys a context after its dump is sealed, scrubbing its resources. Message: `a` tenant, `b` tag, `c` ctx. -/
  | ctxdel
  /-- LOAD (R157): Loads a code object into the context's code heap. Message: `a` tenant, `b` tag, `c` ctx, `d` host, `e` size. -/
  | load
  /-- MAP (R268): The pager maps a range of the context. Message: `a` tenant, `b` tag, `c` ctx, `map` the mapping. -/
  | map
  /-- UNMAP (R268): The pager unmaps a range of the context. Message: `a` tenant, `b` tag, `c` ctx, `d` cva, `e` len. -/
  | unmap
  /-- REGION (R283): Sets up a tensor region and maps its views. Message: `a` tenant, `b` tag, `c` ctx, `region` the fields. -/
  | region
  /-- REGFREE (R283): Tears a tensor region down and scrubs its store. Message: `a` tenant, `b` tag, `c` ctx, `d` region. -/
  | regfree
  /-- MAILBOX_RMACK (R343): The driver acknowledges a map version, resuming a suspended context. Message: `a` tenant, `b` tag, `c` ctx, `d` version. -/
  | mailboxRmack
  /-- MAPREAD (R349): Returns a doubleword of a resource-map record. Message: `a` tenant, `b` tag, `c` record, `d` dw. -/
  | mapread
  /-- LOGCTL (R98): Switches the tenant's arrival logging on or off. Message: `a` tenant, `b` tag, `flag` on. -/
  | logctl
  /-- DUMPFREE (R356): Frees a sealed dump image. Message: `a` tenant, `b` tag, `c` off. -/
  | dumpfree
  /-- TRACE (R358): Copies a context's trace entries to host memory. Message: `a` tenant, `b` tag, `c` ctx, `d` host. -/
  | trace
  /-- ERRS (R353): Returns the context's error counts. Message: `a` tenant, `b` tag, `c` ctx. -/
  | errs
  /-- ATTEST (R361): Writes a signed attestation report to host memory. Message: `a` tenant, `b` tag, `c` host, `bytes` nonce. -/
  | attest
  /-- MAILBOX_OVERFLOW (R349): A request arriving with 16 pending, or a partial write, is dropped. Message: `a` tenant, `b` len. -/
  | mailboxOverflow
  /-- TENANT_ENABLE (R351): The operator enables or disables a tenant's virtual function. Message: `a` tenant, `flag` on. -/
  | tenantEnable
  /-- DUMP_WINDOW_SIZE (R356): The operator sets a tenant's dump window size. Message: `a` tenant, `b` size. -/
  | dumpWindowSize
  /-- ALLOWANCE_SET (R351): The operator sets retention and quota allowances. Message: `a` ctx, `b` die, `c` regs, `d` ways. -/
  | allowanceSet
  /-- FIRMWARE_UPDATE (R359): Writes a new firmware image to the inactive slot. Message: `fw` the image. -/
  | firmwareUpdate
  /-- OPERATOR_KEY (R351): Provisions the operator's P-256 public key. Message: `bytes` key. -/
  | operatorKey
  /-- SIGNED_STATE_READ (R351): An operator request to read tenant state, honoured only with a valid signature. Message: `a` tenant, `b` off, `c` len, `bytes` nonce, `bytes2` sig. -/
  | signedStateRead
  /-- POWER_GOOD (R362): Bring-up runs boot checks, training, self-test and builds the map. Message: `recs` the units that failed. -/
  | powerGood
  /-- CLOCK_STEP (R363): Firmware lowers or restores a die's core clock by 100 MHz. Message: `a` die, `flag` up. -/
  | clockStep
  /-- POWER_SAMPLE (R364): Firmware samples module power every 1 ms and lowers clocks near the limit. Message: `a` watts, `b` die. -/
  | powerSample
  /-- TEMPERATURE_REFRESH (R365): Each die's temperature is refreshed every 1 ms and thermal steps applied. Message: `nats` temps. -/
  | temperatureRefresh
  /-- THERMAL_SHUTDOWN (R365): At 110 °C on any die the hub cuts power to the module. Message: `a` die, `b` temp. -/
  | thermalShutdown
  /-- LINK_RETRAIN (R352): A die-to-die or Packlink link retrains at fewer lanes or goes down. Message: `a` record, `b` lanes. -/
  | linkRetrain
  /-- STORE_ACKNOWLEDGED (R272): An accepted store is performed and acknowledged once the home has granted ownership after collecting every invalidation acknowledgement. Message: `agent` a, `a` k. -/
  | storeAcknowledged
  /-- PGINV_COMPLETE (R149): The invalidation of a PGINV completes across every translation cache and agent, and the waiting thread returns to the rotation. Message: `a` t. -/
  | pginvComplete
  /-- PACKLINK_LINK_UP (R352): A Packlink port trains and its peer joins and is numbered, which changes the port's record. Message:
  `a` port, `b` peer, `c` lanes, `nats` the windows exported to the peer, base and size in turn. -/
  | packlinkLinkUp
  deriving DecidableEq, Repr

end Sys2Proof
end

