-- ==== Sys2Proof/WellFormed.lean ====
section
/-! DEFINITION. Which instructions are well formed: the values a word's fields may hold (R28 to R41, R47), as far as they
depend on the word alone. What depends on the thread (its register count, its level, FCSR's mode) is judged when the word
issues. -/

namespace Sys2Proof

/-! ### Class S and D -/

/-- A rounding code that is not reserved (R39). -/
def rndCode (r : BitVec 3) : Bool := r != 5 && r != 6
/-- A rounding code of an instruction that is no narrowing conversion (R39). -/
def rndOk (r : BitVec 3) : Bool := rndCode r && r != 4

/-- The order, scope and hint of an SM form that admits the orders given (R31). -/
def MemRef.wf (m : MemRef) (orders : List Order) : Bool :=
  orders.contains m.order && (m.order != .plain || m.scope == .t)
/-- The order and scope of an atomic (R31). -/
def AmoRef.wf (m : AmoRef) : Bool := m.order != .plain || m.scope == .t

/-- Whether a half is legal on its own (R32). -/
def Half.wf : Half → Bool
  | .nop => true
  | .reg fn _ _ b => decide (1 ≤ fn.toNat ∧ fn.toNat ≤ 0x1F) && (fn == 0x1B || b == 0)
  | .imm k _ v => match k with
    | .slli | .srli | .srai => v.extractLsb' 6 7 == 0
    | _ => true
  | _ => true

/-- The registers a half reads (R33). -/
def Half.reads : Half → List Reg
  | .nop => []
  | .reg fn d a b => if fn = 0x1B then [d, a, b] else [d, a]
  | .imm k d _ => match k with | .li => [] | _ => [d]
  | .load _ _ a _ _ => [a]
  | .store _ d a _ _ => [d, a]
  | .branch _ d a _ => [d, a]

/-- The register a half writes (R33). -/
def Half.writes : Half → Option Reg
  | .reg _ d _ _ => some d
  | .imm _ d _ => some d
  | .load _ d _ _ _ => some d
  | _ => none

/-- Whether a half branches. -/
def Half.isBranch : Half → Bool
  | .branch _ _ _ _ => true
  | _ => false

/-- Whether a half accesses memory. -/
def Half.isMem : Half → Bool
  | .load _ _ _ _ _ => true
  | .store _ _ _ _ _ => true
  | _ => false

/-- R33's rules on a pair of halves. -/
def dualOk (hi lo : Half) : Bool :=
  let reads := ((hi.reads ++ lo.reads).filter (· != 0)).dedup
  hi.wf && lo.wf && !hi.isBranch && !(hi.isMem && lo.isMem) &&
    (match hi.writes, lo.writes with
      | some x, some y => x == 0 || y == 0 || x.getLsbD 0 != y.getLsbD 0
      | _, _ => true) &&
    decide ((reads.filter (·.getLsbD 0)).length ≤ 2) && decide ((reads.filter (fun r => !r.getLsbD 0)).length ≤ 2)

/-! ### Class V -/

/-- The values that a class V instruction's fields admit: how many register numbers each register field admits (1: the field
is zero), which chain bits, whether a guard, which formats, which rounding codes, whether `s` is used, and which `ext`. -/
structure VSpec where
  vd : Nat
  va : Nat
  vb : Nat
  vc : Nat
  ca : Bool
  cb : Bool
  cc : Bool
  guard : Bool
  fmts : List Nat
  rnd : VFields → Bool
  s : Bool
  ext : VFields → Bool

/-- Only rounding code 000. -/
def rne (f : VFields) : Bool := f.rnd == 0
/-- Any legal code but RST (R39). -/
def rndLegal (f : VFields) : Bool := rndOk f.rnd
/-- Any legal code, RST among them (R69). -/
def rndStatic (f : VFields) : Bool := rndCode f.rnd
/-- 000 for an integer format, any legal code but RST otherwise: the words' own rules (R194, R229), where R39 speaks of rounding words in
general (DEDUCED, log 25). -/
def rndFloatOnly (f : VFields) : Bool := if f.fmt.toNat < 8 then f.rnd == 0 else rndOk f.rnd

/-- A word that uses no field. -/
def vPlain : VSpec :=
  { vd := 1, va := 1, vb := 1, vc := 1, ca := false, cb := false, cc := false, guard := false, fmts := [0], rnd := rne
    s := false, ext := fun f => f.ext == 0 }

/-- The formats 0x01 to 0x0C (Table 2.5). -/
def fmtData : List Nat := [1, 2, 3, 5, 6, 7, 8, 9, 10, 11, 12]
/-- The SX formats. -/
def fmtSX : List Nat := [13, 14, 15]
/-- Every format. -/
def fmtAny : List Nat := fmtData ++ fmtSX
/-- The integer formats. -/
def fmtI : List Nat := [1, 2, 3, 5, 6, 7]
/-- f32, f16, bf16. -/
def fmtF : List Nat := [8, 9, 10]
/-- i32, n32, f32. -/
def fmtWord : List Nat := [3, 7, 8]
/-- The formats of MOPA (Table 8.4). -/
def fmtM : List Nat := [1, 5, 8, 9, 10, 11, 12, 13, 14, 15]

/-- ext holds a scalar register in [5:0] and zero above. -/
def regExt (f : VFields) : Bool := f.ext.extractLsb' 6 5 == 0
/-- ext of a memory form without a stride (R40). -/
def memExt (f : VFields) : Bool := f.ext.extractLsb' 6 2 != 3 && f.ext.extractLsb' 0 6 == 0
/-- ext of a memory form with a stride register (R40). -/
def strideExt (f : VFields) : Bool := f.ext.extractLsb' 6 2 != 3
/-- ext of an arithmetic form: the scalar form clears vb and its chain bit, the vector form clears s (R211). -/
def scalarExt (f : VFields) : Bool := f.ext == 0 && f.s == 0 || f.ext == 1 && f.vb == 0 && !f.cb
/-- Fraction bits of a floating format; 0 for others. -/
def fracBits (f : Nat) : Nat := match f with | 8 => 23 | 9 => 10 | 10 => 7 | 11 => 3 | 12 => 2 | _ => 0
/-- VCVT's ext: the source format, and sat only between integer formats (R213). -/
def cvtExt (f : VFields) : Bool :=
  let src := (f.ext.extractLsb' 0 5).toNat
  fmtData.contains src && f.ext.extractLsb' 6 5 == 0 &&
    (!f.ext.getLsbD 5 || fmtI.contains src && fmtI.contains f.fmt.toNat)
/-- VCVT's rounding codes: RST where the pair narrows the fraction (R69). -/
def rndCvt (f : VFields) : Bool :=
  rndCode f.rnd && (f.rnd != 4 || 8 ≤ f.fmt.toNat && fracBits f.fmt.toNat < fracBits (f.ext.extractLsb' 0 5).toNat)
/-- VRECUR's ext (R216). -/
def recurExt (f : VFields) : Bool :=
  decide (f.ext.toNat ≤ 4) && (f.ext == 3 || f.vb == 0 && !f.cb) && (f.ext != 4 || f.fmt != 8)
/-- The scale registers of MOPA, MOPS and MOPA8 (R229). -/
def scaleExt (f : VFields) : Bool := if 13 ≤ f.fmt.toNat then f.ext.extractLsb' 4 7 == 0 else f.ext == 0

/-- What each class V instruction admits (Tables 7.4, 8.4, 12.8 and the descriptions of chapters 7, 8 and 12). -/
def vspec : Instr → Option (VSpec × VFields)
  | .vreq f => some ({ vPlain with s := true, ext := regExt }, f)
  | .vsetl f => some ({ vPlain with s := true, ext := regExt }, f)
  | .vyield f => some ({ vPlain with s := true, ext := regExt }, f)
  | .qset f => some ({ vPlain with vd := 8, fmts := fmtData, s := true, ext := fun f => f.ext.extractLsb' 6 2 == 0 }, f)
  | .carryr f => some ({ vPlain with s := true }, f)
  | .carryw f => some ({ vPlain with s := true }, f)
  | .vld f => some ({ vPlain with vd := 32, guard := true, fmts := fmtData, s := true, ext := memExt }, f)
  | .vlds f => some ({ vPlain with vd := 32, guard := true, fmts := fmtData, s := true, ext := strideExt }, f)
  | .vldx f => some ({ vPlain with vd := 32, vb := 32, cb := true, guard := true, fmts := fmtWord, s := true, ext := memExt }, f)
  | .vldq f => some ({ vPlain with vd := 32, va := 8, guard := true, fmts := fmtData, ext := memExt }, f)
  | .vldl f => some ({ vPlain with vd := 32, s := true }, f)
  | .vst f => some ({ vPlain with vc := 32, cc := true, guard := true, fmts := fmtData, s := true, ext := memExt }, f)
  | .vsts f => some ({ vPlain with vc := 32, cc := true, guard := true, fmts := fmtData, s := true, ext := strideExt }, f)
  | .vstx f => some ({ vPlain with vb := 32, vc := 32, cb := true, cc := true, guard := true, fmts := fmtWord, s := true, ext := memExt }, f)
  | .vstq f => some ({ vPlain with va := 8, vc := 32, cc := true, guard := true, fmts := fmtData, ext := memExt }, f)
  | .vstl f => some ({ vPlain with vc := 32, cc := true, s := true }, f)
  | .vldsx f => some ({ vPlain with vd := 32, va := 4, fmts := fmtSX, s := true, ext := memExt }, f)
  | .vstsx f => some ({ vPlain with va := 4, vc := 32, cc := true, fmts := fmtSX, s := true, ext := memExt }, f)
  | .vamo f => some ({ vPlain with vd := 32, va := 7, vb := 32, vc := 32, cb := true, cc := true, guard := true, fmts := [3, 7], s := true, ext := memExt }, f)
  | .vfadd f => some ({ vPlain with vd := 32, va := 32, vb := 32, ca := true, cb := true, guard := true, fmts := fmtF, rnd := rndLegal, s := true, ext := scalarExt }, f)
  | .vfsub f => some ({ vPlain with vd := 32, va := 32, vb := 32, ca := true, cb := true, guard := true, fmts := fmtF, rnd := rndLegal, s := true, ext := scalarExt }, f)
  | .vfmul f => some ({ vPlain with vd := 32, va := 32, vb := 32, ca := true, cb := true, guard := true, fmts := fmtF, rnd := rndLegal, s := true, ext := scalarExt }, f)
  | .vfdiv f => some ({ vPlain with vd := 32, va := 32, vb := 32, ca := true, cb := true, guard := true, fmts := fmtF, rnd := rndLegal, s := true, ext := scalarExt }, f)
  | .vfsqrt f => some ({ vPlain with vd := 32, va := 32, ca := true, guard := true, fmts := fmtF, rnd := rndLegal }, f)
  | .vfma f => some ({ vPlain with vd := 32, va := 32, vb := 32, vc := 32, ca := true, cb := true, cc := true, guard := true, fmts := fmtF, rnd := rndLegal, s := true, ext := scalarExt }, f)
  | .vfms f => some ({ vPlain with vd := 32, va := 32, vb := 32, vc := 32, ca := true, cb := true, cc := true, guard := true, fmts := fmtF, rnd := rndLegal, s := true, ext := scalarExt }, f)
  | .vfmin f => some ({ vPlain with vd := 32, va := 32, vb := 32, ca := true, cb := true, guard := true, fmts := fmtF, s := true, ext := scalarExt }, f)
  | .vfmax f => some ({ vPlain with vd := 32, va := 32, vb := 32, ca := true, cb := true, guard := true, fmts := fmtF, s := true, ext := scalarExt }, f)
  | .vfcmpeq f => some ({ vPlain with vd := 8, va := 32, vb := 32, ca := true, cb := true, guard := true, fmts := fmtF, s := true, ext := scalarExt }, f)
  | .vfcmplt f => some ({ vPlain with vd := 8, va := 32, vb := 32, ca := true, cb := true, guard := true, fmts := fmtF, s := true, ext := scalarExt }, f)
  | .vfcmple f => some ({ vPlain with vd := 8, va := 32, vb := 32, ca := true, cb := true, guard := true, fmts := fmtF, s := true, ext := scalarExt }, f)
  | .vadd f => some ({ vPlain with vd := 32, va := 32, vb := 32, ca := true, cb := true, guard := true, fmts := fmtI, s := true, ext := scalarExt }, f)
  | .vsub f => some ({ vPlain with vd := 32, va := 32, vb := 32, ca := true, cb := true, guard := true, fmts := fmtI, s := true, ext := scalarExt }, f)
  | .vmul f => some ({ vPlain with vd := 32, va := 32, vb := 32, ca := true, cb := true, guard := true, fmts := fmtI, s := true, ext := scalarExt }, f)
  | .vmulh f => some ({ vPlain with vd := 32, va := 32, vb := 32, ca := true, cb := true, guard := true, fmts := fmtI, s := true, ext := scalarExt }, f)
  | .vdiv f => some ({ vPlain with vd := 32, va := 32, vb := 32, ca := true, cb := true, guard := true, fmts := fmtI, s := true, ext := scalarExt }, f)
  | .vrem f => some ({ vPlain with vd := 32, va := 32, vb := 32, ca := true, cb := true, guard := true, fmts := fmtI, s := true, ext := scalarExt }, f)
  | .vand f => some ({ vPlain with vd := 32, va := 32, vb := 32, ca := true, cb := true, guard := true, fmts := fmtI, s := true, ext := scalarExt }, f)
  | .vor f => some ({ vPlain with vd := 32, va := 32, vb := 32, ca := true, cb := true, guard := true, fmts := fmtI, s := true, ext := scalarExt }, f)
  | .vxor f => some ({ vPlain with vd := 32, va := 32, vb := 32, ca := true, cb := true, guard := true, fmts := fmtI, s := true, ext := scalarExt }, f)
  | .vsll f => some ({ vPlain with vd := 32, va := 32, vb := 32, ca := true, cb := true, guard := true, fmts := fmtI, s := true, ext := scalarExt }, f)
  | .vsrl f => some ({ vPlain with vd := 32, va := 32, vb := 32, ca := true, cb := true, guard := true, fmts := fmtI, s := true, ext := scalarExt }, f)
  | .vsra f => some ({ vPlain with vd := 32, va := 32, vb := 32, ca := true, cb := true, guard := true, fmts := fmtI, s := true, ext := scalarExt }, f)
  | .vmin f => some ({ vPlain with vd := 32, va := 32, vb := 32, ca := true, cb := true, guard := true, fmts := fmtI, s := true, ext := scalarExt }, f)
  | .vmax f => some ({ vPlain with vd := 32, va := 32, vb := 32, ca := true, cb := true, guard := true, fmts := fmtI, s := true, ext := scalarExt }, f)
  | .vcmpeq f => some ({ vPlain with vd := 8, va := 32, vb := 32, ca := true, cb := true, guard := true, fmts := fmtI, s := true, ext := scalarExt }, f)
  | .vcmplt f => some ({ vPlain with vd := 8, va := 32, vb := 32, ca := true, cb := true, guard := true, fmts := fmtI, s := true, ext := scalarExt }, f)
  | .vadds f => some ({ vPlain with vd := 32, va := 32, vb := 32, ca := true, cb := true, guard := true, fmts := fmtI, s := true, ext := scalarExt }, f)
  | .vsubs f => some ({ vPlain with vd := 32, va := 32, vb := 32, ca := true, cb := true, guard := true, fmts := fmtI, s := true, ext := scalarExt }, f)
  | .vcvt f => some ({ vPlain with vd := 32, va := 32, ca := true, guard := true, fmts := fmtData, rnd := rndCvt, ext := cvtExt }, f)
  | .vperm f => some ({ vPlain with vd := 32, va := 32, vb := 32, ca := true, cb := true, guard := true, fmts := fmtWord }, f)
  | .vslideup f => some ({ vPlain with vd := 32, va := 32, ca := true, guard := true, fmts := fmtAny, s := true }, f)
  | .vslidedn f => some ({ vPlain with vd := 32, va := 32, ca := true, guard := true, fmts := fmtAny, s := true }, f)
  | .vcompress f => some ({ vPlain with vd := 32, va := 32, ca := true, guard := true, fmts := fmtAny, s := true }, f)
  | .vbcast f => some ({ vPlain with vd := 32, guard := true, fmts := fmtAny, s := true, ext := fun f => f.ext == 0 || fmtI.contains f.fmt.toNat }, f)
  | .vext f => some ({ vPlain with va := 32, ca := true, fmts := fmtAny, s := true, ext := regExt }, f)
  | .vredsum f => some ({ vPlain with vd := 32, va := 32, vb := 32, ca := true, cb := true, guard := true, fmts := [3, 7] }, f)
  | .vredmin f => some ({ vPlain with vd := 32, va := 32, vb := 32, ca := true, cb := true, guard := true, fmts := [3, 7] }, f)
  | .vredmax f => some ({ vPlain with vd := 32, va := 32, vb := 32, ca := true, cb := true, guard := true, fmts := [3, 7] }, f)
  | .vfredsum f => some ({ vPlain with vd := 32, va := 32, vb := 32, ca := true, cb := true, guard := true, fmts := [8], rnd := rndLegal }, f)
  | .vfredmin f => some ({ vPlain with vd := 32, va := 32, vb := 32, ca := true, cb := true, guard := true, fmts := [8] }, f)
  | .vfredmax f => some ({ vPlain with vd := 32, va := 32, vb := 32, ca := true, cb := true, guard := true, fmts := [8] }, f)
  | .vrecur f => some ({ vPlain with vd := 32, va := 32, vb := 32, ca := true, cb := true, guard := true, fmts := fmtWord, rnd := rndFloatOnly, ext := recurExt }, f)
  | .mand f => some ({ vPlain with vd := 8, va := 8, vb := 8 }, f)
  | .mor f => some ({ vPlain with vd := 8, va := 8, vb := 8 }, f)
  | .mxor f => some ({ vPlain with vd := 8, va := 8, vb := 8 }, f)
  | .mnot f => some ({ vPlain with vd := 8, va := 8 }, f)
  | .mpopc f => some ({ vPlain with va := 8, fmts := fmtAny, s := true }, f)
  | .mfirst f => some ({ vPlain with va := 8, fmts := fmtAny, s := true }, f)
  | .mmode f => some ({ vPlain with s := true, ext := regExt }, f)
  | .tshape f => some ({ vPlain with fmts := fmtM, s := true, ext := regExt }, f)
  | .mzero f => some ({ vPlain with vd := 2 }, f)
  | .mopa f => some ({ vPlain with vd := 2, va := 32, vb := 32, ca := true, cb := true, fmts := fmtM, rnd := rndFloatOnly, ext := scaleExt }, f)
  | .mopa8 f => some ({ vPlain with vd := 2, va := 25, vb := 25, ca := true, cb := true, fmts := fmtM, rnd := rndFloatOnly, ext := scaleExt }, f)
  | .mops f => some ({ vPlain with vd := 2, va := 32, vb := 32, ca := true, cb := true, fmts := fmtM, rnd := rndFloatOnly, ext := scaleExt }, f)
  | .mvacc f => some ({ vPlain with vd := 32, va := 2, guard := true, fmts := fmtWord, s := true }, f)
  | .mvcol f => some ({ vPlain with vd := 32, va := 2, guard := true, fmts := fmtWord, s := true }, f)
  | .mldacc f => some ({ vPlain with vd := 2, va := 32, ca := true, guard := true, fmts := fmtWord, s := true }, f)
  | .mspill f => some ({ vPlain with va := 2, s := true }, f)
  | .mfill f => some ({ vPlain with vd := 2, s := true }, f)
  | .vmaxexp f => some ({ vPlain with vd := 4, va := 32, ca := true, guard := true, fmts := fmtF }, f)
  | .vquant f => some ({ vPlain with vd := 32, va := 32, vb := 4, ca := true, guard := true, fmts := fmtSX, rnd := rndStatic, ext := fun f => fmtF.contains f.ext.toNat }, f)
  | .vdeq f => some ({ vPlain with vd := 32, va := 32, vb := 4, ca := true, guard := true, fmts := fmtF, rnd := rndLegal, ext := fun f => fmtSX.contains f.ext.toNat }, f)
  | _ => none

/-- What VSEED and the nine sampling words with operands admit (R326, Table 12.8). -/
def saSpec : Instr → Option VSpec
  | .vseed => some { vPlain with s := true }
  | .saacq => some { vPlain with s := true }
  | .saload => some { vPlain with s := true, ext := fun f => f.ext.extractLsb' 0 8 == 0 }
  | .saseed => some { vPlain with s := true, ext := regExt }
  | .sabeta => some { vPlain with s := true }
  | .saclamp => some { vPlain with va := 32, vb := 32, ca := true, cb := true, s := true }
  | .sasweep => some { vPlain with s := true }
  | .saread => some { vPlain with vd := 32, s := true }
  | .sacount => some { vPlain with vd := 32, fmts := [6], s := true, ext := regExt }
  | .sawait => some { vPlain with s := true, ext := regExt }
  | _ => none

/-- R35 to R38 on the fields of a class V word. -/
def VSpec.admits (k : VSpec) (f : VFields) : Bool :=
  decide (f.vd.toNat < k.vd ∧ f.va.toNat < k.va ∧ f.vb.toNat < k.vb ∧ f.vc.toNat < k.vc) &&
    (k.ca || !f.ca) && (k.cb || !f.cb) && (k.cc || !f.cc) &&
    (if f.guard == 0 then !f.pol else k.guard) &&
    k.fmts.contains f.fmt.toNat && k.rnd f && (k.s || f.s == 0) && k.ext f

/-- Whether the fields of an instruction hold values that it admits (R47). -/
def Instr.wf (i : Instr) : Bool :=
  match vspec i with
  | some (k, f) => k.admits f
  | none =>
  match i with
  | .fadd _ _ _ _ r => rndOk r
  | .fsub _ _ _ _ r => rndOk r
  | .fmul _ _ _ _ r => rndOk r
  | .fdiv _ _ _ _ r => rndOk r
  | .fsqrt _ _ _ r => rndOk r
  | .fmadd _ _ _ _ _ r => rndOk r
  | .fmsub _ _ _ _ _ r => rndOk r
  | .fcvtfi _ _ _ r => rndOk r
  | .fcvtfn _ _ _ r => rndOk r
  | .fcvtif _ _ _ r => rndOk r
  | .fcvtnf _ _ _ r => rndOk r
  | .fcvtff _ _ _ _ r => rndOk r
  | .ldB _ m | .ldH _ m | .ldW _ m | .ldD _ m | .ldBN _ m | .ldHN _ m | .ldWN _ m => m.wf [.plain, .acq]
  | .stB _ m | .stH _ m | .stW _ m | .stD _ m => m.wf [.plain, .rel]
  | .pref m | .segld _ m | .segst _ m => m.wf [.plain]
  | .amoadd _ _ m | .amoand _ _ m | .amoor _ _ m | .amoxor _ _ m | .amomin _ _ m | .amomax _ _ m | .amominn _ _ m
  | .amomaxn _ _ m | .amoswap _ _ m | .cas _ _ m => m.wf
  | .cflush m | .cinv m | .cclean m => m.order == .plain && m.hint == .none
  | .smloop _ mask _ => decide ((((List.range 8).filter mask.getLsbD).length) ≤ 4)
  | .dualWord hi lo => dualOk hi lo
  | _ => true

end Sys2Proof
end

