-- ==== Sys2Proof/Decode.lean ====
section
/-! DEFINITION. Decoding and encoding of instruction words (R25, R30, R32, R35, R41, R42, R45, Tables 2.2 to 2.8). The
decoder reads the fields of the class and opcode, and accepts the word only if the instruction read is well formed and
its encoding is the word itself: a field that must be zero and is not gives another encoding, and is rejected (R47). -/

namespace Sys2Proof

/-- Why a word is an illegal encoding (R47). -/
inductive DecodeError where
  /-- its class and opcode, or a half's hop or fn, name no instruction, or a code field holds a reserved code -/
  | noInstruction
  /-- a field that must be zero is not -/
  | fieldNotZero
  /-- a field holds a value that its instruction does not admit, or a D word breaks R33 -/
  | notAdmitted
  deriving DecidableEq, Repr

/-! ### Field codes (Table 2.3, R30) -/

/-- The code of a scope. -/
def Scope.code : Scope → BitVec 3
  | .t => 0 | .c => 1 | .p => 2 | .d => 3 | .k => 4 | .h => 5 | .w => 6
/-- The scope of a code. -/
def Scope.ofCode (c : BitVec 3) : Option Scope :=
  match c.toNat with
  | 0 => some .t | 1 => some .c | 2 => some .p | 3 => some .d | 4 => some .k | 5 => some .h | 6 => some .w | _ => none
/-- The code of an order. -/
def Order.code : Order → BitVec 2
  | .plain => 0 | .acq => 1 | .rel => 2 | .ar => 3
/-- The order of a code. -/
def Order.ofCode (c : BitVec 2) : Order :=
  match c.toNat with
  | 0 => .plain | 1 => .acq | 2 => .rel | _ => .ar
/-- The code of a hint. -/
def Hint.code : Hint → BitVec 2
  | .none => 0 | .ef => 1 | .keep => 2
/-- The hint of a code. -/
def Hint.ofCode (c : BitVec 2) : Option Hint :=
  match c.toNat with
  | 0 => some .none | 1 => some .ef | 2 => some .keep | _ => none
/-- The code of a scalar floating format. -/
def SFmt.code : SFmt → BitVec 2
  | .f32 => 0 | .f16 => 1 | .bf16 => 2
/-- The scalar floating format of a code. -/
def SFmt.ofCode (c : BitVec 2) : Option SFmt :=
  match c.toNat with
  | 0 => some .f32 | 1 => some .f16 | 2 => some .bf16 | _ => none

/-! ### Words from fields -/

/-- A class S word (R30). -/
def wS (op : BitVec 10) (d a b : BitVec 6) (low : BitVec 34) : Word := 0#2 ++ op ++ d ++ a ++ b ++ low
/-- SR's low bits. -/
def lowC (c : BitVec 6) : BitVec 34 := c ++ 0#28
/-- SF's low bits. -/
def lowF (c : BitVec 6) (ft : BitVec 2) (rnd : BitVec 3) : BitVec 34 := c ++ ft ++ rnd ++ 0#23
/-- SI's low bits. -/
def lowI (v : BitVec 12) : BitVec 34 := v ++ 0#22
/-- SU's and SB's low bits. -/
def lowU (v : BitVec 20) : BitVec 34 := v ++ 0#14
/-- SA's low bits. -/
def lowA (seg scope : BitVec 3) (order : BitVec 2) (size : BitVec 1) : BitVec 34 := seg ++ scope ++ order ++ size ++ 0#25
/-- SC's low bits. -/
def lowK (dseg aseg : BitVec 3) (h : Handle) : BitVec 34 := dseg ++ aseg ++ h.n ++ BitVec.ofBool h.barrier ++ 0#21
/-- SM's low bits. -/
def MemRef.low (m : MemRef) : BitVec 34 := m.seg ++ m.scope.code ++ m.order.code ++ m.hint.code ++ m.disp ++ 0#12
/-- SA's low bits of an atomic. -/
def AmoRef.low (m : AmoRef) : BitVec 34 := lowA m.seg m.scope.code m.order.code (BitVec.ofBool m.wide)
/-- A class V word (R35). -/
def wV (op : BitVec 10) (f : VFields) : Word :=
  2#2 ++ op ++ f.vd ++ f.va ++ f.vb ++ f.vc ++ BitVec.ofBool f.ca ++ BitVec.ofBool f.cb ++ BitVec.ofBool f.cc ++
    f.guard ++ BitVec.ofBool f.pol ++ f.fmt ++ f.rnd ++ f.s ++ f.ext
/-- Fields all zero. -/
def VFields.zero : VFields :=
  { vd := 0, va := 0, vb := 0, vc := 0, ca := false, cb := false, cc := false, guard := 0, pol := false, fmt := 0
    rnd := 0, s := 0, ext := 0 }
/-- A class L word (R41). -/
def wL (op d a : BitVec 6) (ext : BitVec 12) (imm : BitVec 32) : Word := 3#2 ++ op ++ d ++ a ++ ext ++ imm
/-- A half of a class D word (R32). -/
def wH (hop d a : BitVec 6) (low : BitVec 13) : BitVec 31 := hop ++ d ++ a ++ low

/-- The hop of an immediate half (Table 2.4). -/
def HImm.hop : HImm → BitVec 6
  | .addi => 2 | .andi => 3 | .ori => 4 | .xori => 5 | .slli => 6 | .srli => 7 | .srai => 8 | .li => 9 | .cmplti => 10
/-- The hop of a load half. -/
def HLoad.hop : HLoad → BitVec 6
  | .d => 0x10 | .w => 0x11 | .wn => 0x12
/-- The hop of a branch half. -/
def HBranch.hop : HBranch → BitVec 6
  | .beq => 0x18 | .bne => 0x19 | .blt => 0x1A | .bge => 0x1B | .bltn => 0x1C | .bgen => 0x1D

/-- The bits of a half (Table 2.4). -/
def Half.bits : Half → BitVec 31
  | .nop => 0
  | .reg fn d a b => wH 1 d a (b ++ fn)
  | .imm k d v => wH k.hop d 0 v
  | .load k d a g disp => wH k.hop d a (g ++ disp)
  | .store wide d a g disp => wH (if wide then 0x13 else 0x14) d a (g ++ disp)
  | .branch k d a off => wH k.hop d a off

/-- The half that 31 bits name (Table 2.4). -/
def Half.read (h : BitVec 31) : Option Half :=
  let d : Reg := h.extractLsb' 19 6
  let a : Reg := h.extractLsb' 13 6
  let v : BitVec 13 := h.extractLsb' 0 13
  let g : BitVec 3 := h.extractLsb' 10 3
  let disp : BitVec 10 := h.extractLsb' 0 10
  match (h.extractLsb' 25 6).toNat with
  | 0 => some .nop
  | 1 => some (.reg (h.extractLsb' 0 7) d a (h.extractLsb' 7 6))
  | 2 => some (.imm .addi d v)
  | 3 => some (.imm .andi d v)
  | 4 => some (.imm .ori d v)
  | 5 => some (.imm .xori d v)
  | 6 => some (.imm .slli d v)
  | 7 => some (.imm .srli d v)
  | 8 => some (.imm .srai d v)
  | 9 => some (.imm .li d v)
  | 10 => some (.imm .cmplti d v)
  | 0x10 => some (.load .d d a g disp)
  | 0x11 => some (.load .w d a g disp)
  | 0x12 => some (.load .wn d a g disp)
  | 0x13 => some (.store true d a g disp)
  | 0x14 => some (.store false d a g disp)
  | 0x18 => some (.branch .beq d a v)
  | 0x19 => some (.branch .bne d a v)
  | 0x1A => some (.branch .blt d a v)
  | 0x1B => some (.branch .bge d a v)
  | 0x1C => some (.branch .bltn d a v)
  | 0x1D => some (.branch .bgen d a v)
  | _ => none

/-! ### Fields of words -/

/-- imm12 of format SI. -/
def imm12 (w : Word) : BitVec 12 := w.extractLsb' 22 12
/-- imm20 and offset20 of formats SU and SB. -/
def imm20 (w : Word) : BitVec 20 := w.extractLsb' 14 20
/-- ft of format SF. -/
def ftOf (w : Word) : BitVec 2 := w.extractLsb' 26 2
/-- rnd of format SF. -/
def rndS (w : Word) : BitVec 3 := w.extractLsb' 23 3
/-- scope of formats SM and SA. -/
def scopeOf (w : Word) : BitVec 3 := w.extractLsb' 28 3
/-- The memory operand of format SM. -/
def memRef (w : Word) : Option MemRef :=
  (Scope.ofCode (scopeOf w)).bind (fun sc => (Hint.ofCode (w.extractLsb' 24 2)).map (fun h =>
    { seg := w.extractLsb' 31 3, a := w.extractLsb' 40 6, disp := w.extractLsb' 12 12
      order := Order.ofCode (w.extractLsb' 26 2), scope := sc, hint := h }))
/-- The memory operand of format SA. -/
def amoRef (w : Word) : Option AmoRef :=
  (Scope.ofCode (scopeOf w)).map (fun sc =>
    { seg := w.extractLsb' 31 3, a := w.extractLsb' 40 6, order := Order.ofCode (w.extractLsb' 26 2), scope := sc
      wide := w.getLsbD 25 })
/-- The sides of a copy (format SC). -/
def copyRef (w : Word) : CopyRef :=
  { dseg := w.extractLsb' 31 3, aseg := w.extractLsb' 28 3, d := w.extractLsb' 46 6, a := w.extractLsb' 40 6
    b := w.extractLsb' 34 6 }
/-- The handle of a copy (format SC). -/
def handleOf (w : Word) : Handle := { n := w.extractLsb' 22 6, barrier := w.getLsbD 21 }
/-- The fields of a class V word (R35). -/
def vFields (w : Word) : VFields :=
  { vd := w.extractLsb' 47 5, va := w.extractLsb' 42 5, vb := w.extractLsb' 37 5, vc := w.extractLsb' 32 5
    ca := w.getLsbD 31, cb := w.getLsbD 30, cc := w.getLsbD 29, guard := w.extractLsb' 26 3, pol := w.getLsbD 25
    fmt := w.extractLsb' 20 5, rnd := w.extractLsb' 17 3, s := w.extractLsb' 11 6, ext := w.extractLsb' 0 11 }

/-- The integer forms, constants (R137 to R139) by opcode. -/
def readInt (w : Word) : Option Instr :=
  let d : Reg := w.extractLsb' 46 6
  let a : Reg := w.extractLsb' 40 6
  let b : Reg := w.extractLsb' 34 6
  let c : BitVec 6 := w.extractLsb' 28 6
  match (w.extractLsb' 52 10).toNat with
  | 0x1 => some (.add d a b)
  | 0x2 => some (.sub d a b)
  | 0x3 => some (.mul d a b)
  | 0x4 => some (.mulh d a b)
  | 0x5 => some (.mulhn d a b)
  | 0x6 => some (.div d a b)
  | 0x7 => some (.divn d a b)
  | 0x8 => some (.rem d a b)
  | 0x9 => some (.remn d a b)
  | 0xa => some (.and d a b)
  | 0xb => some (.or d a b)
  | 0xc => some (.xor d a b)
  | 0xd => some (.andn d a b)
  | 0xe => some (.sll d a b)
  | 0xf => some (.srl d a b)
  | 0x10 => some (.sra d a b)
  | 0x11 => some (.rol d a b)
  | 0x12 => some (.ror d a b)
  | 0x13 => some (.min d a b)
  | 0x14 => some (.max d a b)
  | 0x15 => some (.minn d a b)
  | 0x16 => some (.maxn d a b)
  | 0x17 => some (.cmpeq d a b)
  | 0x18 => some (.cmpne d a b)
  | 0x19 => some (.cmplt d a b)
  | 0x1a => some (.cmpltn d a b)
  | 0x1b => some (.csel d a b c)
  | 0x1c => some (.clz d a)
  | 0x1d => some (.ctz d a)
  | 0x1e => some (.popc d a)
  | 0x1f => some (.bswap d a)
  | 0x20 => some (.bext d a b c)
  | 0x21 => some (.bdep d a b c)
  | 0x40 => some (.addi d a (imm12 w))
  | 0x41 => some (.muli d a (imm12 w))
  | 0x42 => some (.andi d a (imm12 w))
  | 0x43 => some (.ori d a (imm12 w))
  | 0x44 => some (.xori d a (imm12 w))
  | 0x45 => some (.slli d a ((imm12 w).truncate 6))
  | 0x46 => some (.srli d a ((imm12 w).truncate 6))
  | 0x47 => some (.srai d a ((imm12 w).truncate 6))
  | 0x48 => some (.roli d a ((imm12 w).truncate 6))
  | 0x49 => some (.cmpeqi d a (imm12 w))
  | 0x4a => some (.cmplti d a (imm12 w))
  | 0x4b => some (.cmpltni d a (imm12 w))
  | 0x4c => some (.mini d a (imm12 w))
  | 0x4d => some (.maxi d a (imm12 w))
  | 0x4e => some (.lih d (imm20 w))
  | 0x4f => some (.lipc d (imm20 w))
  | _ => none

/-- The scalar floating forms (R140) by opcode. -/
def readFloat (w : Word) : Option Instr :=
  let d : Reg := w.extractLsb' 46 6
  let a : Reg := w.extractLsb' 40 6
  let b : Reg := w.extractLsb' 34 6
  let c : BitVec 6 := w.extractLsb' 28 6
  match (w.extractLsb' 52 10).toNat with
  | 0x80 => (SFmt.ofCode (ftOf w)).map (fun t => .fadd d a b t (rndS w))
  | 0x81 => (SFmt.ofCode (ftOf w)).map (fun t => .fsub d a b t (rndS w))
  | 0x82 => (SFmt.ofCode (ftOf w)).map (fun t => .fmul d a b t (rndS w))
  | 0x83 => (SFmt.ofCode (ftOf w)).map (fun t => .fdiv d a b t (rndS w))
  | 0x84 => (SFmt.ofCode (ftOf w)).map (fun t => .fsqrt d a t (rndS w))
  | 0x85 => (SFmt.ofCode (ftOf w)).map (fun t => .fmadd d a b c t (rndS w))
  | 0x86 => (SFmt.ofCode (ftOf w)).map (fun t => .fmsub d a b c t (rndS w))
  | 0x87 => (SFmt.ofCode (ftOf w)).map (fun t => .fmin d a b t)
  | 0x88 => (SFmt.ofCode (ftOf w)).map (fun t => .fmax d a b t)
  | 0x89 => (SFmt.ofCode (ftOf w)).map (fun t => .fcmpeq d a b t)
  | 0x8a => (SFmt.ofCode (ftOf w)).map (fun t => .fcmplt d a b t)
  | 0x8b => (SFmt.ofCode (ftOf w)).map (fun t => .fcmple d a b t)
  | 0x8c => (SFmt.ofCode (ftOf w)).map (fun t => .fclass d a t)
  | 0x8d => (SFmt.ofCode (ftOf w)).map (fun t => .fcvtfi d a t (rndS w))
  | 0x8e => (SFmt.ofCode (ftOf w)).map (fun t => .fcvtfn d a t (rndS w))
  | 0x8f => (SFmt.ofCode (c.truncate 2)).map (fun g => .fcvtif d a g (rndS w))
  | 0x90 => (SFmt.ofCode (c.truncate 2)).map (fun g => .fcvtnf d a g (rndS w))
  | 0x91 => (SFmt.ofCode (ftOf w)).bind (fun t => (SFmt.ofCode (c.truncate 2)).map (fun g => .fcvtff d a t g (rndS w)))
  | _ => none

/-- The branches, calls, loads, stores, atomics, FENCE (R141 to R145, R86) by opcode. -/
def readFlow (w : Word) : Option Instr :=
  let d : Reg := w.extractLsb' 46 6
  let a : Reg := w.extractLsb' 40 6
  let b : Reg := w.extractLsb' 34 6
  match (w.extractLsb' 52 10).toNat with
  | 0xc0 => some (.beq d a (imm20 w))
  | 0xc1 => some (.bne d a (imm20 w))
  | 0xc2 => some (.blt d a (imm20 w))
  | 0xc3 => some (.bge d a (imm20 w))
  | 0xc4 => some (.bltn d a (imm20 w))
  | 0xc5 => some (.bgen d a (imm20 w))
  | 0xc6 => some (.callr d a)
  | 0xc7 => some (.ret a)
  | 0xc8 => some (.jmpr a)
  | 0xe0 => (memRef w).map (fun m => .ldB d m)
  | 0xe1 => (memRef w).map (fun m => .ldH d m)
  | 0xe2 => (memRef w).map (fun m => .ldW d m)
  | 0xe3 => (memRef w).map (fun m => .ldD d m)
  | 0xe4 => (memRef w).map (fun m => .ldBN d m)
  | 0xe5 => (memRef w).map (fun m => .ldHN d m)
  | 0xe6 => (memRef w).map (fun m => .ldWN d m)
  | 0xe7 => (memRef w).map (fun m => .stB d m)
  | 0xe8 => (memRef w).map (fun m => .stH d m)
  | 0xe9 => (memRef w).map (fun m => .stW d m)
  | 0xea => (memRef w).map (fun m => .stD d m)
  | 0xeb => (memRef w).map .pref
  | 0x100 => (amoRef w).map (fun m => .amoadd d b m)
  | 0x101 => (amoRef w).map (fun m => .amoand d b m)
  | 0x102 => (amoRef w).map (fun m => .amoor d b m)
  | 0x103 => (amoRef w).map (fun m => .amoxor d b m)
  | 0x104 => (amoRef w).map (fun m => .amomin d b m)
  | 0x105 => (amoRef w).map (fun m => .amomax d b m)
  | 0x106 => (amoRef w).map (fun m => .amominn d b m)
  | 0x107 => (amoRef w).map (fun m => .amomaxn d b m)
  | 0x108 => (amoRef w).map (fun m => .amoswap d b m)
  | 0x109 => (amoRef w).map (fun m => .cas d b m)
  | 0x10a => (Scope.ofCode (scopeOf w)).map .fence
  | _ => none

/-- The system, segment, cache, retention, view and log words (R126 to R149, R290 to R295) by opcode. -/
def readSys (w : Word) : Option Instr :=
  let d : Reg := w.extractLsb' 46 6
  let a : Reg := w.extractLsb' 40 6
  let b : Reg := w.extractLsb' 34 6
  let c : BitVec 6 := w.extractLsb' 28 6
  match (w.extractLsb' 52 10).toNat with
  | 0x140 => some (.trap a (imm12 w))
  | 0x141 => some (.ecall (imm12 w))
  | 0x142 => some .eret
  | 0x143 => some (.brk (imm12 w))
  | 0x144 => some (.csrr d (imm12 w))
  | 0x145 => some (.csrw (imm12 w) a)
  | 0x146 => some (.csrs (imm12 w) a)
  | 0x147 => some (.csrc (imm12 w) a)
  | 0x148 => some (.time d)
  | 0x149 => some .yield
  | 0x14a => some .tend
  | 0x14b => some (.repart d a)
  | 0x14c => some (.rmver d)
  | 0x14d => some (.rmack d a)
  | 0x14e => some (.rmread d a b)
  | 0x14f => some (.tracemark a (imm12 w))
  | 0x150 => (memRef w).map (fun m => .segld (d.truncate 3) m)
  | 0x151 => (memRef w).map (fun m => .segst (d.truncate 3) m)
  | 0x152 => some (.pginv a b)
  | 0x180 => (memRef w).map .cflush
  | 0x181 => (memRef w).map .cinv
  | 0x182 => (memRef w).map .cclean
  | 0x183 => some (.retain d a b c)
  | 0x184 => some (.unpin d a)
  | 0x185 => some (.viewaddr d a b (c.truncate 3))
  | 0x186 => some (.reginfo d a b (c.truncate 3))
  | 0x187 => some (.atomlog d a b)
  | 0x188 => some (.arrlog d a b)
  | _ => none

/-- The Retriever, copy, tag, barrier and task words (R249 to R263, R310 to R317) by opcode. -/
def readEngine (w : Word) : Option Instr :=
  let d : Reg := w.extractLsb' 46 6
  let a : Reg := w.extractLsb' 40 6
  let b : Reg := w.extractLsb' 34 6
  let c : BitVec 6 := w.extractLsb' 28 6
  match (w.extractLsb' 52 10).toNat with
  | 0x1c0 => some (.rload d a b)
  | 0x1c1 => some (.rstart d a b c)
  | 0x1c2 => some (.rstop d a)
  | 0x1c3 => some (.rstat d a b)
  | 0x1c4 => some (.cpy (copyRef w) (handleOf w))
  | 0x1c5 => some (.cpy2 (copyRef w) (handleOf w))
  | 0x1c6 => some (.cpyt (copyRef w) (handleOf w))
  | 0x1c7 => some (.cpyg (copyRef w) (handleOf w))
  | 0x1c8 => some (.cpyres (handleOf w))
  | 0x1c9 => some (.waitany d a)
  | 0x1ca => some (.waitall d a)
  | 0x1cb => some (.ffready d a)
  | 0x1cc => some (.tagclr a)
  | 0x1cd => some (.tagstat d a b)
  | 0x1ce => some (.sbinit a b)
  | 0x1cf => some (.sbexp a b)
  | 0x1d0 => some (.sbwait d a b)
  | 0x1d1 => some (.sbrel a)
  | 0x1d2 => some (.sbstat d a b)
  | 0x200 => some (.spawn d a b c)
  | 0x201 => some (.retj a)
  | 0x202 => some (.join d a)
  | 0x203 => some (.glaunch d a (c.truncate 3))
  | 0x204 => some (.gbar d)
  | 0x205 => some (.depinit d a (c.truncate 3))
  | 0x206 => some (.deparm d a b (c.truncate 3))
  | 0x207 => some (.depsig d a (c.truncate 3))
  | 0x208 => some (.taskid d a)
  | 0x209 => some .wdkick
  | 0x20a => some (.slotinfo d a)
  | 0x20b => some (.wdset d a)
  | 0x20c => some (.joinq d a)
  | _ => none

/-- A class S word read by its opcode's group (Table 2.7, R44). -/
def readS (w : Word) : Option Instr :=
  let op := (w.extractLsb' 52 10).toNat
  if 0x3C0 ≤ op then some .hint
  else if op < 0x80 then readInt w
  else if op < 0xC0 then readFloat w
  else if op < 0x140 then readFlow w
  else if op < 0x1C0 then readSys w
  else readEngine w

/-- The class V instruction of an opcode (Table 2.8). -/
def ofVOp (op : Nat) (f : VFields) : Option Instr :=
  match op with
  | 0x1 => some (.vreq f)
  | 0x2 => some (.vsetl f)
  | 0x3 => some (.vyield f)
  | 0x4 => some .vrel
  | 0x5 => some (.qset f)
  | 0x6 => some .vseed
  | 0x7 => some (.carryr f)
  | 0x8 => some (.carryw f)
  | 0x10 => some (.vld f)
  | 0x11 => some (.vlds f)
  | 0x12 => some (.vldx f)
  | 0x13 => some (.vldq f)
  | 0x14 => some (.vldl f)
  | 0x15 => some (.vst f)
  | 0x16 => some (.vsts f)
  | 0x17 => some (.vstx f)
  | 0x18 => some (.vstq f)
  | 0x19 => some (.vstl f)
  | 0x1a => some (.vldsx f)
  | 0x1b => some (.vstsx f)
  | 0x1c => some (.vamo f)
  | 0x20 => some (.vfadd f)
  | 0x21 => some (.vfsub f)
  | 0x22 => some (.vfmul f)
  | 0x23 => some (.vfdiv f)
  | 0x24 => some (.vfsqrt f)
  | 0x25 => some (.vfma f)
  | 0x26 => some (.vfms f)
  | 0x27 => some (.vfmin f)
  | 0x28 => some (.vfmax f)
  | 0x29 => some (.vfcmpeq f)
  | 0x2a => some (.vfcmplt f)
  | 0x2b => some (.vfcmple f)
  | 0x30 => some (.vadd f)
  | 0x31 => some (.vsub f)
  | 0x32 => some (.vmul f)
  | 0x33 => some (.vmulh f)
  | 0x34 => some (.vdiv f)
  | 0x35 => some (.vrem f)
  | 0x36 => some (.vand f)
  | 0x37 => some (.vor f)
  | 0x38 => some (.vxor f)
  | 0x39 => some (.vsll f)
  | 0x3a => some (.vsrl f)
  | 0x3b => some (.vsra f)
  | 0x3c => some (.vmin f)
  | 0x3d => some (.vmax f)
  | 0x3e => some (.vcmpeq f)
  | 0x3f => some (.vcmplt f)
  | 0x40 => some (.vadds f)
  | 0x41 => some (.vsubs f)
  | 0x48 => some (.vcvt f)
  | 0x50 => some (.vperm f)
  | 0x51 => some (.vslideup f)
  | 0x52 => some (.vslidedn f)
  | 0x53 => some (.vcompress f)
  | 0x54 => some (.vbcast f)
  | 0x55 => some (.vext f)
  | 0x58 => some (.vredsum f)
  | 0x59 => some (.vredmin f)
  | 0x5a => some (.vredmax f)
  | 0x5b => some (.vfredsum f)
  | 0x5c => some (.vfredmin f)
  | 0x5d => some (.vfredmax f)
  | 0x60 => some (.vrecur f)
  | 0x68 => some (.mand f)
  | 0x69 => some (.mor f)
  | 0x6a => some (.mxor f)
  | 0x6b => some (.mnot f)
  | 0x6c => some (.mpopc f)
  | 0x6d => some (.mfirst f)
  | 0x100 => some (.mmode f)
  | 0x101 => some .mexit
  | 0x102 => some (.tshape f)
  | 0x103 => some (.mzero f)
  | 0x104 => some (.mopa f)
  | 0x105 => some (.mopa8 f)
  | 0x106 => some (.mops f)
  | 0x107 => some (.mvacc f)
  | 0x108 => some (.mvcol f)
  | 0x109 => some (.mldacc f)
  | 0x10a => some (.mspill f)
  | 0x10b => some (.mfill f)
  | 0x10c => some (.vmaxexp f)
  | 0x10d => some (.vquant f)
  | 0x10e => some (.vdeq f)
  | 0x180 => some .saacq
  | 0x181 => some .sarel
  | 0x182 => some .saload
  | 0x183 => some .saseed
  | 0x184 => some .sabeta
  | 0x185 => some .saclamp
  | 0x186 => some .sasweep
  | 0x187 => some .saread
  | 0x188 => some .sacount
  | 0x189 => some .sawait
  | _ => none

/-- A class L word read by its opcode (Table 2.6). -/
def readL (w : Word) : Option Instr :=
  let d : Reg := w.extractLsb' 50 6
  let v : BitVec 32 := w.extractLsb' 0 32
  match (w.extractLsb' 56 6).toNat with
  | 1 => some (.jmp v)
  | 2 => some (.call d v)
  | 3 => some (if w.getLsbD 32 then .ldi32N d v else .ldi32 d v)
  | 4 => some (.smloop d (w.extractLsb' 36 8) v)
  | _ => none

/-- The instruction that a word's class, opcode and fields name, before any check. -/
def readWord (w : Word) : Option Instr :=
  match (w.extractLsb' 62 2).toNat with
  | 0 => readS w
  | 1 => (Half.read (w.extractLsb' 31 31)).bind (fun hi => (Half.read (w.extractLsb' 0 31)).map (fun lo => .dualWord hi lo))
  | 2 => ofVOp (w.extractLsb' 52 10).toNat (vFields w)
  | _ => readL w

/-- The word of an instruction (R25, R30, R32, R35, R41), the canonical NOP for a hint (R44). A step of an engine has none,
and VSEED's and a sampling word's fields are not in the instruction: `encodeWith` takes them. -/
def encode : Instr → Option Word
  | .add d a b => some (wS 0x1 d a b 0)
  | .sub d a b => some (wS 0x2 d a b 0)
  | .mul d a b => some (wS 0x3 d a b 0)
  | .mulh d a b => some (wS 0x4 d a b 0)
  | .mulhn d a b => some (wS 0x5 d a b 0)
  | .div d a b => some (wS 0x6 d a b 0)
  | .divn d a b => some (wS 0x7 d a b 0)
  | .rem d a b => some (wS 0x8 d a b 0)
  | .remn d a b => some (wS 0x9 d a b 0)
  | .and d a b => some (wS 0xa d a b 0)
  | .or d a b => some (wS 0xb d a b 0)
  | .xor d a b => some (wS 0xc d a b 0)
  | .andn d a b => some (wS 0xd d a b 0)
  | .sll d a b => some (wS 0xe d a b 0)
  | .srl d a b => some (wS 0xf d a b 0)
  | .sra d a b => some (wS 0x10 d a b 0)
  | .rol d a b => some (wS 0x11 d a b 0)
  | .ror d a b => some (wS 0x12 d a b 0)
  | .min d a b => some (wS 0x13 d a b 0)
  | .max d a b => some (wS 0x14 d a b 0)
  | .minn d a b => some (wS 0x15 d a b 0)
  | .maxn d a b => some (wS 0x16 d a b 0)
  | .cmpeq d a b => some (wS 0x17 d a b 0)
  | .cmpne d a b => some (wS 0x18 d a b 0)
  | .cmplt d a b => some (wS 0x19 d a b 0)
  | .cmpltn d a b => some (wS 0x1a d a b 0)
  | .csel d a b c => some (wS 0x1b d a b (lowC c))
  | .clz d a => some (wS 0x1c d a 0 0)
  | .ctz d a => some (wS 0x1d d a 0 0)
  | .popc d a => some (wS 0x1e d a 0 0)
  | .bswap d a => some (wS 0x1f d a 0 0)
  | .bext d a b c => some (wS 0x20 d a b (lowC c))
  | .bdep d a b c => some (wS 0x21 d a b (lowC c))
  | .addi d a v => some (wS 0x40 d a 0 (lowI v))
  | .muli d a v => some (wS 0x41 d a 0 (lowI v))
  | .andi d a v => some (wS 0x42 d a 0 (lowI v))
  | .ori d a v => some (wS 0x43 d a 0 (lowI v))
  | .xori d a v => some (wS 0x44 d a 0 (lowI v))
  | .slli d a v => some (wS 0x45 d a 0 (lowI (v.zeroExtend 12)))
  | .srli d a v => some (wS 0x46 d a 0 (lowI (v.zeroExtend 12)))
  | .srai d a v => some (wS 0x47 d a 0 (lowI (v.zeroExtend 12)))
  | .roli d a v => some (wS 0x48 d a 0 (lowI (v.zeroExtend 12)))
  | .cmpeqi d a v => some (wS 0x49 d a 0 (lowI v))
  | .cmplti d a v => some (wS 0x4a d a 0 (lowI v))
  | .cmpltni d a v => some (wS 0x4b d a 0 (lowI v))
  | .mini d a v => some (wS 0x4c d a 0 (lowI v))
  | .maxi d a v => some (wS 0x4d d a 0 (lowI v))
  | .lih d v => some (wS 0x4e d 0 0 (lowU v))
  | .lipc d v => some (wS 0x4f d 0 0 (lowU v))
  | .ldi32 d v => some (wL 3 d 0 0 v)
  | .ldi32N d v => some (wL 3 d 0 1 v)
  | .fadd d a b t r => some (wS 0x80 d a b (lowF 0 t.code r))
  | .fsub d a b t r => some (wS 0x81 d a b (lowF 0 t.code r))
  | .fmul d a b t r => some (wS 0x82 d a b (lowF 0 t.code r))
  | .fdiv d a b t r => some (wS 0x83 d a b (lowF 0 t.code r))
  | .fsqrt d a t r => some (wS 0x84 d a 0 (lowF 0 t.code r))
  | .fmadd d a b c t r => some (wS 0x85 d a b (lowF c t.code r))
  | .fmsub d a b c t r => some (wS 0x86 d a b (lowF c t.code r))
  | .fmin d a b t => some (wS 0x87 d a b (lowF 0 t.code 0))
  | .fmax d a b t => some (wS 0x88 d a b (lowF 0 t.code 0))
  | .fcmpeq d a b t => some (wS 0x89 d a b (lowF 0 t.code 0))
  | .fcmplt d a b t => some (wS 0x8a d a b (lowF 0 t.code 0))
  | .fcmple d a b t => some (wS 0x8b d a b (lowF 0 t.code 0))
  | .fclass d a t => some (wS 0x8c d a 0 (lowF 0 t.code 0))
  | .fcvtfi d a t r => some (wS 0x8d d a 0 (lowF 0 t.code r))
  | .fcvtfn d a t r => some (wS 0x8e d a 0 (lowF 0 t.code r))
  | .fcvtif d a g r => some (wS 0x8f d a 0 (lowF (g.code.zeroExtend 6) 0 r))
  | .fcvtnf d a g r => some (wS 0x90 d a 0 (lowF (g.code.zeroExtend 6) 0 r))
  | .fcvtff d a t g r => some (wS 0x91 d a 0 (lowF (g.code.zeroExtend 6) t.code r))
  | .beq d a v => some (wS 0xc0 d a 0 (lowU v))
  | .bne d a v => some (wS 0xc1 d a 0 (lowU v))
  | .blt d a v => some (wS 0xc2 d a 0 (lowU v))
  | .bge d a v => some (wS 0xc3 d a 0 (lowU v))
  | .bltn d a v => some (wS 0xc4 d a 0 (lowU v))
  | .bgen d a v => some (wS 0xc5 d a 0 (lowU v))
  | .jmp v => some (wL 1 0 0 0 v)
  | .call d v => some (wL 2 d 0 0 v)
  | .callr d a => some (wS 0xc6 d a 0 0)
  | .ret a => some (wS 0xc7 0 a 0 0)
  | .jmpr a => some (wS 0xc8 0 a 0 0)
  | .ldB d m => some (wS 0xe0 d m.a 0 m.low)
  | .ldH d m => some (wS 0xe1 d m.a 0 m.low)
  | .ldW d m => some (wS 0xe2 d m.a 0 m.low)
  | .ldD d m => some (wS 0xe3 d m.a 0 m.low)
  | .ldBN d m => some (wS 0xe4 d m.a 0 m.low)
  | .ldHN d m => some (wS 0xe5 d m.a 0 m.low)
  | .ldWN d m => some (wS 0xe6 d m.a 0 m.low)
  | .stB d m => some (wS 0xe7 d m.a 0 m.low)
  | .stH d m => some (wS 0xe8 d m.a 0 m.low)
  | .stW d m => some (wS 0xe9 d m.a 0 m.low)
  | .stD d m => some (wS 0xea d m.a 0 m.low)
  | .pref m => some (wS 0xeb 0 m.a 0 m.low)
  | .amoadd d b m => some (wS 0x100 d m.a b m.low)
  | .amoand d b m => some (wS 0x101 d m.a b m.low)
  | .amoor d b m => some (wS 0x102 d m.a b m.low)
  | .amoxor d b m => some (wS 0x103 d m.a b m.low)
  | .amomin d b m => some (wS 0x104 d m.a b m.low)
  | .amomax d b m => some (wS 0x105 d m.a b m.low)
  | .amominn d b m => some (wS 0x106 d m.a b m.low)
  | .amomaxn d b m => some (wS 0x107 d m.a b m.low)
  | .amoswap d b m => some (wS 0x108 d m.a b m.low)
  | .cas d b m => some (wS 0x109 d m.a b m.low)
  | .fence sc => some (wS 0x10a 0 0 0 (lowA 0 sc.code 0 0))
  | .trap a v => some (wS 0x140 0 a 0 (lowI v))
  | .ecall v => some (wS 0x141 0 0 0 (lowI v))
  | .brk v => some (wS 0x143 0 0 0 (lowI v))
  | .csrr d v => some (wS 0x144 d 0 0 (lowI v))
  | .csrw v a => some (wS 0x145 0 a 0 (lowI v))
  | .csrs v a => some (wS 0x146 0 a 0 (lowI v))
  | .csrc v a => some (wS 0x147 0 a 0 (lowI v))
  | .time d => some (wS 0x148 d 0 0 0)
  | .repart d a => some (wS 0x14b d a 0 0)
  | .rmver d => some (wS 0x14c d 0 0 0)
  | .rmack d a => some (wS 0x14d d a 0 0)
  | .rmread d a b => some (wS 0x14e d a b 0)
  | .tracemark a v => some (wS 0x14f 0 a 0 (lowI v))
  | .segld g m => some (wS 0x150 (g.zeroExtend 6) m.a 0 m.low)
  | .segst g m => some (wS 0x151 (g.zeroExtend 6) m.a 0 m.low)
  | .pginv a b => some (wS 0x152 0 a b 0)
  | .cflush m => some (wS 0x180 0 m.a 0 m.low)
  | .cinv m => some (wS 0x181 0 m.a 0 m.low)
  | .cclean m => some (wS 0x182 0 m.a 0 m.low)
  | .retain d a b c => some (wS 0x183 d a b (lowC c))
  | .unpin d a => some (wS 0x184 d a 0 0)
  | .viewaddr d a b g => some (wS 0x185 d a b (lowC (g.zeroExtend 6)))
  | .reginfo d a b g => some (wS 0x186 d a b (lowC (g.zeroExtend 6)))
  | .atomlog d a b => some (wS 0x187 d a b 0)
  | .arrlog d a b => some (wS 0x188 d a b 0)
  | .rload d a b => some (wS 0x1c0 d a b 0)
  | .rstart d a b c => some (wS 0x1c1 d a b (lowC c))
  | .rstop d a => some (wS 0x1c2 d a 0 0)
  | .rstat d a b => some (wS 0x1c3 d a b 0)
  | .cpy o h => some (wS 0x1c4 o.d o.a o.b (lowK o.dseg o.aseg h))
  | .cpy2 o h => some (wS 0x1c5 o.d o.a o.b (lowK o.dseg o.aseg h))
  | .cpyt o h => some (wS 0x1c6 o.d o.a o.b (lowK o.dseg o.aseg h))
  | .cpyg o h => some (wS 0x1c7 o.d o.a o.b (lowK o.dseg o.aseg h))
  | .cpyres h => some (wS 0x1c8 0 0 0 (lowK 0 0 h))
  | .waitany d a => some (wS 0x1c9 d a 0 0)
  | .waitall d a => some (wS 0x1ca d a 0 0)
  | .ffready d a => some (wS 0x1cb d a 0 0)
  | .tagclr a => some (wS 0x1cc 0 a 0 0)
  | .tagstat d a b => some (wS 0x1cd d a b 0)
  | .sbinit a b => some (wS 0x1ce 0 a b 0)
  | .sbexp a b => some (wS 0x1cf 0 a b 0)
  | .sbwait d a b => some (wS 0x1d0 d a b 0)
  | .sbrel a => some (wS 0x1d1 0 a 0 0)
  | .sbstat d a b => some (wS 0x1d2 d a b 0)
  | .spawn d a b c => some (wS 0x200 d a b (lowC c))
  | .retj a => some (wS 0x201 0 a 0 0)
  | .join d a => some (wS 0x202 d a 0 0)
  | .joinq d a => some (wS 0x20c d a 0 0)
  | .glaunch d a g => some (wS 0x203 d a 0 (lowC (g.zeroExtend 6)))
  | .gbar d => some (wS 0x204 d 0 0 0)
  | .depinit d a g => some (wS 0x205 d a 0 (lowC (g.zeroExtend 6)))
  | .deparm d a b g => some (wS 0x206 d a b (lowC (g.zeroExtend 6)))
  | .depsig d a g => some (wS 0x207 d a 0 (lowC (g.zeroExtend 6)))
  | .taskid d a => some (wS 0x208 d a 0 0)
  | .slotinfo d a => some (wS 0x20a d a 0 0)
  | .wdset d a => some (wS 0x20b d a 0 0)
  | .dualWord hi lo => some (1#2 ++ hi.bits ++ lo.bits)
  | .smloop c m v => some (wL 4 c 0 (m ++ 0#4) v)
  | .vreq f => some (wV 0x1 f)
  | .vsetl f => some (wV 0x2 f)
  | .vyield f => some (wV 0x3 f)
  | .qset f => some (wV 0x5 f)
  | .carryr f => some (wV 0x7 f)
  | .carryw f => some (wV 0x8 f)
  | .vld f => some (wV 0x10 f)
  | .vlds f => some (wV 0x11 f)
  | .vldx f => some (wV 0x12 f)
  | .vldq f => some (wV 0x13 f)
  | .vldl f => some (wV 0x14 f)
  | .vst f => some (wV 0x15 f)
  | .vsts f => some (wV 0x16 f)
  | .vstx f => some (wV 0x17 f)
  | .vstq f => some (wV 0x18 f)
  | .vstl f => some (wV 0x19 f)
  | .vldsx f => some (wV 0x1a f)
  | .vstsx f => some (wV 0x1b f)
  | .vamo f => some (wV 0x1c f)
  | .vfadd f => some (wV 0x20 f)
  | .vfsub f => some (wV 0x21 f)
  | .vfmul f => some (wV 0x22 f)
  | .vfdiv f => some (wV 0x23 f)
  | .vfsqrt f => some (wV 0x24 f)
  | .vfma f => some (wV 0x25 f)
  | .vfms f => some (wV 0x26 f)
  | .vfmin f => some (wV 0x27 f)
  | .vfmax f => some (wV 0x28 f)
  | .vfcmpeq f => some (wV 0x29 f)
  | .vfcmplt f => some (wV 0x2a f)
  | .vfcmple f => some (wV 0x2b f)
  | .vadd f => some (wV 0x30 f)
  | .vsub f => some (wV 0x31 f)
  | .vmul f => some (wV 0x32 f)
  | .vmulh f => some (wV 0x33 f)
  | .vdiv f => some (wV 0x34 f)
  | .vrem f => some (wV 0x35 f)
  | .vand f => some (wV 0x36 f)
  | .vor f => some (wV 0x37 f)
  | .vxor f => some (wV 0x38 f)
  | .vsll f => some (wV 0x39 f)
  | .vsrl f => some (wV 0x3a f)
  | .vsra f => some (wV 0x3b f)
  | .vmin f => some (wV 0x3c f)
  | .vmax f => some (wV 0x3d f)
  | .vcmpeq f => some (wV 0x3e f)
  | .vcmplt f => some (wV 0x3f f)
  | .vadds f => some (wV 0x40 f)
  | .vsubs f => some (wV 0x41 f)
  | .vcvt f => some (wV 0x48 f)
  | .vperm f => some (wV 0x50 f)
  | .vslideup f => some (wV 0x51 f)
  | .vslidedn f => some (wV 0x52 f)
  | .vcompress f => some (wV 0x53 f)
  | .vbcast f => some (wV 0x54 f)
  | .vext f => some (wV 0x55 f)
  | .vredsum f => some (wV 0x58 f)
  | .vredmin f => some (wV 0x59 f)
  | .vredmax f => some (wV 0x5a f)
  | .vfredsum f => some (wV 0x5b f)
  | .vfredmin f => some (wV 0x5c f)
  | .vfredmax f => some (wV 0x5d f)
  | .vrecur f => some (wV 0x60 f)
  | .mand f => some (wV 0x68 f)
  | .mor f => some (wV 0x69 f)
  | .mxor f => some (wV 0x6a f)
  | .mnot f => some (wV 0x6b f)
  | .mpopc f => some (wV 0x6c f)
  | .mfirst f => some (wV 0x6d f)
  | .mmode f => some (wV 0x100 f)
  | .tshape f => some (wV 0x102 f)
  | .mzero f => some (wV 0x103 f)
  | .mopa f => some (wV 0x104 f)
  | .mopa8 f => some (wV 0x105 f)
  | .mops f => some (wV 0x106 f)
  | .mvacc f => some (wV 0x107 f)
  | .mvcol f => some (wV 0x108 f)
  | .mldacc f => some (wV 0x109 f)
  | .mspill f => some (wV 0x10a f)
  | .mfill f => some (wV 0x10b f)
  | .vmaxexp f => some (wV 0x10c f)
  | .vquant f => some (wV 0x10d f)
  | .vdeq f => some (wV 0x10e f)
  | .eret => some (wS 0x142 0 0 0 0)
  | .yield => some (wS 0x149 0 0 0 0)
  | .tend => some (wS 0x14a 0 0 0 0)
  | .wdkick => some (wS 0x209 0 0 0 0)
  | .hint => some 0x3C00000000000000
  | .vrel => some (wV 0x4 VFields.zero)
  | .mexit => some (wV 0x101 VFields.zero)
  | .vseed => none
  | .saacq => none
  | .sarel => some (wV 0x181 VFields.zero)
  | .saload => none
  | .saseed => none
  | .sabeta => none
  | .saclamp => none
  | .sasweep => none
  | .saread => none
  | .sacount => none
  | .sawait => none
  | .saloadRun => none
  | .saseedRun => none
  | .sabetaRun => none
  | .sweep => none
  | .saRegisterReturn => none
  | .entropyRetest => none
  | .launchRecord => none
  | .portWriteOther => none
  | .gangStart => none
  | .tileDraw => none
  | .dispatch => none
  | .taskStart => none
  | .steal => none
  | .gangEnd => none
  | .wdog => none
  | .quantumExpiry => none
  | .slotTableWrite => none
  | .unbind => none
  | .unbindComplete => none
  | .resume => none
  | .lscfgWrite => none
  | .victWrite => none
  | .loadResponse => none
  | .atomicResponse => none
  | .vectorLoadArrival => none
  | .matrixWordComplete => none
  | .chunkDone => none
  | .chunkFault => none
  | .pageReport => none
  | .wakeMessage => none
  | .scopeMissMessage => none
  | .acquireReissue => none
  | .grantWake => none
  | .sliceMove => none
  | .laneLost => none
  | .slicePlaced => none
  | .unitError => none
  | .mapChange => none
  | .ackDeadline => none
  | .dumpBuild => none
  | .hostWriteQueueDrain => none
  | .hostWrite => none
  | .hostRead => none
  | .peerAccess => none
  | .ctxnew => none
  | .ctxdel => none
  | .load => none
  | .map => none
  | .unmap => none
  | .region => none
  | .regfree => none
  | .mailboxRmack => none
  | .mapread => none
  | .logctl => none
  | .dumpfree => none
  | .trace => none
  | .errs => none
  | .attest => none
  | .mailboxOverflow => none
  | .tenantEnable => none
  | .dumpWindowSize => none
  | .allowanceSet => none
  | .firmwareUpdate => none
  | .operatorKey => none
  | .signedStateRead => none
  | .powerGood => none
  | .clockStep => none
  | .powerSample => none
  | .temperatureRefresh => none
  | .thermalShutdown => none
  | .linkRetrain => none
  | .storeAcknowledged => none
  | .pginvComplete => none
  | .packlinkLinkUp => none
/-- The opcode of VSEED and of a sampling word with operands (Table 2.8). -/
def saOpcode : Instr → Option (BitVec 10)
  | .vseed => some 0x6
  | .saacq => some 0x180
  | .saload => some 0x182
  | .saseed => some 0x183
  | .sabeta => some 0x184
  | .saclamp => some 0x185
  | .sasweep => some 0x186
  | .saread => some 0x187
  | .sacount => some 0x188
  | .sawait => some 0x189
  | _ => none

/-- The word of an instruction, with the fields given for VSEED and a sampling word. -/
def encodeWith (i : Instr) (f : VFields) : Option Word :=
  match saOpcode i with
  | some op => some (wV op f)
  | none => encode i

/-- Whether the fields of VSEED or a sampling word hold values that it admits (R326). -/
def saOk (i : Instr) (f : VFields) : Bool := match saSpec i with | some k => k.admits f | none => true

/-- Decoding of a word: total, and rejecting by name (R47). A hint is legal whatever its other bits (R44). -/
def decode (w : Word) : Except DecodeError Instr :=
  match readWord w with
  | none => .error .noInstruction
  | some i =>
    if i = .hint then .ok i
    else if encodeWith i (vFields w) ≠ some w then .error .fieldNotZero
    else if i.wf && saOk i (vFields w) then .ok i
    else .error .notAdmitted

/-- Decoding of the bytes of a word, the lowest address first (R25). -/
def decodeBytes (l : List Byte) : Except DecodeError Instr :=
  decode (l.foldr (fun b w => (w <<< 8) ||| b.zeroExtend 64) 0)

/-- The instruction whose bits are `w`, numbered as the opcode table numbers them; every bit above `nbits` is 0. -/
def decodeTableWord (nbits w : Nat) : Option Instr :=
  match decodeBytes ((List.range 8).map (fun i => BitVec.ofNat 8 (w % 2 ^ nbits / 256 ^ i))) with
  | .ok i => some i
  | .error _ => none

end Sys2Proof
end

