-- ==== Sys2Proof/Machine/Float.lean ====
section
/-! DEFINITION. The floating formats and their arithmetic (R58 to R62, R67 to R73): values are decoded to exact dyadic
numbers, computed on exactly, and rounded once into the destination format, with the flags of R70 in FCSR's order
(NV 16, DZ 8, OF 4, UF 2, NX 1). -/

namespace Sys2Proof.Machine

/-- A floating format (Table 3.1): exponent and fraction bits, bias, whether subnormals are flushed, and whether the top
binade is E4M3's (no infinity, one NaN fraction). -/
structure Fmt where
  eb : Nat
  fb : Nat
  bias : Nat
  flush : Bool
  e4m3 : Bool
  deriving DecidableEq, Repr

/-- FP32. -/
def fmtF32 : Fmt := { eb := 8, fb := 23, bias := 127, flush := false, e4m3 := false }
/-- FP16. -/
def fmtF16 : Fmt := { eb := 5, fb := 10, bias := 15, flush := false, e4m3 := false }
/-- BF16. -/
def fmtBF16 : Fmt := { eb := 8, fb := 7, bias := 127, flush := true, e4m3 := false }
/-- FP8 E4M3. -/
def fmtE4M3 : Fmt := { eb := 4, fb := 3, bias := 7, flush := true, e4m3 := true }
/-- FP8 E5M2. -/
def fmtE5M2 : Fmt := { eb := 5, fb := 2, bias := 15, flush := true, e4m3 := false }

/-- The width of a format. -/
def Fmt.width (f : Fmt) : Nat := 1 + f.eb + f.fb

/-- A rounding mode (R67): RNE, RTZ, RDN, RUP, and RST with the draw of R69. -/
inductive RMode where
  | rne | rtz | rdn | rup
  | rst (g : Nat)
  deriving DecidableEq, Repr

/-- A decoded value: a NaN and whether it is signalling, an infinity, or ±m·2^e. -/
inductive FVal where
  | nan (sig : Bool)
  | inf (neg : Bool)
  | fin (neg : Bool) (m : Nat) (e : Int)
  deriving DecidableEq, Repr

/-- The flags of R70, as bits [4:0] of FCSR. -/
abbrev Flags := Nat
/-- Invalid operation. -/
def flNV : Flags := 16
/-- Division by zero. -/
def flDZ : Flags := 8
/-- Overflow. -/
def flOF : Flags := 4
/-- Underflow. -/
def flUF : Flags := 2
/-- Inexact. -/
def flNX : Flags := 1

/-- 2 to an integer power, over a common denominator: `n·2^e` as a fraction. -/
def scale2 (n : Nat) (e : Int) : Nat × Nat := (n * 2 ^ e.toNat, 2 ^ (-e).toNat)

/-- A value read from its encoding; formats that flush read an exponent field of zero as a zero of its own sign (R58,
R59). -/
def fdecode (f : Fmt) (b : Nat) : FVal :=
  let neg := b.testBit (f.eb + f.fb)
  let e := b / 2 ^ f.fb % 2 ^ f.eb
  let m := b % 2 ^ f.fb
  if e = 0 then
    if f.flush then .fin neg 0 0 else .fin neg m (1 - f.bias - f.fb)
  else if f.e4m3 then
    if e = 15 ∧ m = 7 then .nan false else .fin neg (2 ^ f.fb + m) ((e : Int) - f.bias - f.fb)
  else if e = 2 ^ f.eb - 1 then
    if m = 0 then .inf neg else .nan (!m.testBit (f.fb - 1))
  else .fin neg (2 ^ f.fb + m) ((e : Int) - f.bias - f.fb)

/-- The sign bit in place. -/
def fsign (f : Fmt) (neg : Bool) : Nat := if neg then 2 ^ (f.eb + f.fb) else 0

/-- The canonical NaN (Table 3.1). -/
def fnan (f : Fmt) : Nat :=
  if f.e4m3 then 0x7F else (2 ^ f.eb - 1) * 2 ^ f.fb + 2 ^ (f.fb - 1)

/-- The largest finite value of a sign (Table 3.1). -/
def fmax (f : Fmt) (neg : Bool) : Nat :=
  fsign f neg + (if f.e4m3 then 0x7E else (2 ^ f.eb - 1) * 2 ^ f.fb - 1)

/-- The infinity of a sign; E4M3 has none and gives ±448 (R60, R68). -/
def finf (f : Fmt) (neg : Bool) : Nat :=
  if f.e4m3 then fmax f neg else fsign f neg + (2 ^ f.eb - 1) * 2 ^ f.fb

/-- Whether an inexact magnitude lo + rem/den goes up to lo + 1 (R67, R69). -/
def goesUp (mode : RMode) (neg : Bool) (lo rem den : Nat) : Bool :=
  match mode with
  | .rne => decide (den < 2 * rem) || (decide (den = 2 * rem) && lo % 2 == 1)
  | .rtz => false
  | .rdn => neg
  | .rup => !neg
  | .rst g => decide (g < 65536 * rem / den)

/-- The magnitude n/d·2^(e−q) rounded to an integer, and whether that was inexact. -/
def roundInt (mode : RMode) (neg : Bool) (n d : Nat) (e : Int) : Nat × Bool :=
  let num := n * 2 ^ e.toNat
  let den := d * 2 ^ (-e).toNat
  let lo := num / den
  let rem := num % den
  if rem = 0 then (lo, false) else (if goesUp mode neg lo rem den then lo + 1 else lo, true)

/-- floor(log2 (n/d)), for n and d above 0. -/
def floorLog (n d : Nat) : Int :=
  let k : Int := (Nat.log2 n : Int) - Nat.log2 d
  if n * 2 ^ (-k).toNat < d * 2 ^ k.toNat then k - 1 else k

/-- Whether m·2^q is above the largest finite magnitude of the format. -/
def overMax (f : Fmt) (m : Nat) (q : Int) : Bool :=
  let top : Int := if f.e4m3 then 8 else 2 ^ f.eb - 2 - f.bias
  let maxm : Nat := if f.e4m3 then 14 else 2 ^ (f.fb + 1) - 1
  let (a, da) := scale2 m q
  let (b, db) := scale2 maxm (top - f.fb)
  decide (b * da < a * db)

/-- Whether m·2^q is below the smallest normal magnitude. -/
def underMin (f : Fmt) (m : Nat) (q : Int) : Bool :=
  let (a, da) := scale2 m q
  let (b, db) := scale2 1 (1 - f.bias)
  decide (a * db < b * da)

/-- What an overflow gives (R68). -/
def foverflow (f : Fmt) (mode : RMode) (neg : Bool) : Nat :=
  if f.e4m3 then fmax f neg else
  match mode with
  | .rne | .rst _ => finf f neg
  | .rtz => fmax f neg
  | .rdn => if neg then finf f neg else fmax f neg
  | .rup => if neg then fmax f neg else finf f neg

/-- A magnitude m·2^q that fits the format, encoded. -/
def fpack (f : Fmt) (neg : Bool) (m : Nat) (q : Int) : Nat :=
  if m = 0 then fsign f neg
  else if m < 2 ^ f.fb then fsign f neg + m
  else
    let (m, q) := if m = 2 ^ (f.fb + 1) then (2 ^ f.fb, q + 1) else (m, q)
    fsign f neg + (q + f.fb + f.bias).toNat * 2 ^ f.fb + (m - 2 ^ f.fb)

/-- The exact value ±n/d·2^e, n above 0, rounded into a format, with the flags it raises: overflow under R68, tininess
after rounding, flushing under R59. R69's |lo| and |hi| for a result below FP16's smallest normal are taken on FP16's grid of
subnormals, the values that the result can hold, and tininess is judged by the same draw at full precision: the manual's "adjacent
representable values" names no grid there (DESIGN CHOICE, log 34). -/
def fround (f : Fmt) (mode : RMode) (neg : Bool) (n d : Nat) (e : Int) : Nat × Flags :=
  if n = 0 then (fsign f neg, 0) else
  let top := floorLog n d + e
  let qU := top - f.fb
  let q := if f.flush then qU else max qU (1 - f.bias - f.fb)
  let (mU, _) := roundInt mode neg n d (e - qU)
  let (m, inexact) := roundInt mode neg n d (e - q)
  if overMax f m q then (foverflow f mode neg, flOF + flNX)
  else if underMin f mU qU then
    if f.flush then (fsign f neg, flUF + flNX)
    else (fpack f neg m q, if inexact then flUF + flNX else 0)
  else (fpack f neg m q, if inexact then flNX else 0)

/-- Flags of a result together with those of its inputs. -/
def flOr (a b : Flags) : Flags := a ||| b

/-- Whether a value is a signalling NaN. -/
def isSNaN : FVal → Bool
  | .nan s => s
  | _ => false

/-- Whether a value is a NaN. -/
def isNaN : FVal → Bool
  | .nan _ => true
  | _ => false

/-- Whether a value is an infinity. -/
def isInf : FVal → Bool
  | .inf _ => true
  | _ => false

/-- The sign of a value. -/
def fneg : FVal → Bool
  | .nan _ => false
  | .inf n => n
  | .fin n _ _ => n

/-- The value with its sign inverted. -/
def fnegate : FVal → FVal
  | .nan s => .nan s
  | .inf n => .inf (!n)
  | .fin n m e => .fin (!n) m e

/-- A product as an exact term; 0 × ∞ is an invalid NaN (R60, R73). -/
def fprod (a b : FVal) : FVal × Bool :=
  match a, b with
  | .nan s, .nan t => (.nan (s || t), false)
  | .nan s, _ => (.nan s, false)
  | _, .nan s => (.nan s, false)
  | .inf n, .inf k => (.inf (n != k), false)
  | .inf n, .fin k m _ => if m = 0 then (.nan false, true) else (.inf (n != k), false)
  | .fin k m _, .inf n => if m = 0 then (.nan false, true) else (.inf (n != k), false)
  | .fin n m e, .fin k l g => (.fin (n != k) (m * l) (e + g), false)

/-- The least exponent of the finite terms. -/
def leastExp : List FVal → Int
  | [] => 0
  | [.fin _ _ e] => e
  | .fin _ _ e :: r => min e (leastExp r)
  | _ :: r => leastExp r

/-- The exact sum of the finite terms, at exponent `e`. -/
def exactSum (e : Int) : List FVal → Int
  | [] => 0
  | .fin n m g :: r => (if n then -1 else 1) * (m * 2 ^ (g - e).toNat : Nat) + exactSum e r
  | _ :: r => exactSum e r

/-- The sum of terms, formed exactly and rounded once, with the sign rule of R73 for an exact zero. `inv` is set when a
product of the terms was 0 × ∞. A sum of a quiet NaN and of infinities of both signs sets no NV: R60 does not say whether it holds an
addition of unlike infinities (DESIGN CHOICE, log 34). -/
def fsum (f : Fmt) (mode : RMode) (inv : Bool) (ts : List FVal) : Nat × Flags :=
  let snan := ts.any isSNaN
  let infs := ts.filter isInf
  let mixed := infs.any fneg && infs.any (fun x => !fneg x)
  let nv := if inv || snan || (mixed && !ts.any isNaN) then flNV else 0
  if inv || ts.any isNaN || mixed then (fnan f, nv)
  else match infs with
    | x :: _ =>
      if f.e4m3 then (finf f (fneg x), flOr nv (flOF + flNX)) else (finf f (fneg x), nv)
    | [] =>
      let e := leastExp ts
      let x := exactSum e ts
      if x = 0 then
        let allZero := ts.all (fun t => match t with | .fin _ m _ => m == 0 | _ => false)
        let neg :=
          if allZero && ts.all fneg then true
          else if allZero && !ts.any fneg then false
          else decide (mode = .rdn)
        (fsign f neg, nv)
      else
        let (b, fl) := fround f mode (decide (x < 0)) x.natAbs 1 e
        (b, flOr nv fl)

/-- a + b (R60, R73). -/
def fadd (f : Fmt) (mode : RMode) (a b : FVal) : Nat × Flags := fsum f mode false [a, b]

/-- a − b: the second term is negated, a NaN stays. -/
def fsub (f : Fmt) (mode : RMode) (a b : FVal) : Nat × Flags := fsum f mode false [a, fnegate b]

/-- a × b. A signalling input raises NV beside 0 × ∞. -/
def fmul (f : Fmt) (mode : RMode) (a b : FVal) : Nat × Flags :=
  let (p, inv) := fprod a b
  fsum f mode inv [p]

/-- a × b ± c, one rounding (R73). -/
def ffma (f : Fmt) (mode : RMode) (a b c : FVal) (sub : Bool) : Nat × Flags :=
  let (p, inv) := fprod a b
  fsum f mode inv [p, if sub then fnegate c else c]

/-- a / b (R60). -/
def fdiv (f : Fmt) (mode : RMode) (a b : FVal) : Nat × Flags :=
  let nv := if isSNaN a || isSNaN b then flNV else 0
  match a, b with
  | .nan _, _ => (fnan f, nv)
  | _, .nan _ => (fnan f, nv)
  | .inf _, .inf _ => (fnan f, flNV)
  | .inf n, .fin k _ _ => (finf f (n != k), 0)
  | .fin n _ _, .inf k => (fsign f (n != k), 0)
  | .fin n m e, .fin k l g =>
    if l = 0 then
      if m = 0 then (fnan f, flNV) else (finf f (n != k), flDZ)
    else fround f mode (n != k) m l (e - g)

/-- One bit of an integer square root after another, from bit `k` down. -/
def isqrtGo (n : Nat) : Nat → Nat → Nat
  | 0, r => if (r + 1) * (r + 1) ≤ n then r + 1 else r
  | k + 1, r =>
    let c := r + 2 ^ (k + 1)
    isqrtGo n k (if c * c ≤ n then c else r)

/-- floor of the square root. -/
def isqrt (n : Nat) : Nat := isqrtGo n (Nat.log2 n / 2 + 1) 0

/-- The square root (R60). The root is taken to many more bits than any format holds, and a last bit marks what is left
over, so one rounding of it is the rounding of the exact root. -/
def fsqrt (f : Fmt) (mode : RMode) (a : FVal) : Nat × Flags :=
  match a with
  | .nan s => (fnan f, if s then flNV else 0)
  | .inf n => if n then (fnan f, flNV) else (finf f false, 0)
  | .fin n m e =>
    if m = 0 then (fsign f n, 0)
    else if n then (fnan f, flNV)
    else
      let (m, e) := if e % 2 = 0 then (m, e) else (2 * m, e - 1)
      let big := m * 2 ^ 80
      let r := isqrt big
      let odd := if r * r = big then 0 else 1
      fround f mode false (2 * r + odd) 1 ((e - 80) / 2 - 1)

/-- −1, 0 or 1 as a is below, equal to or above b; neither is a NaN. −0 equals +0. -/
def fcompare (a b : FVal) : Int :=
  match a, b with
  | .inf n, .inf k => if n = k then 0 else if n then -1 else 1
  | .inf n, _ => if n then -1 else 1
  | _, .inf k => if k then 1 else -1
  | .fin n m e, .fin k l g =>
    let low := min e g
    let x := exactSum low [.fin n m e]
    let y := exactSum low [.fin k l g]
    if x < y then -1 else if x = y then 0 else 1
  | _, _ => 0

/-- A value that is not a NaN, encoded in its own format: a flushed input has become a zero (R59). -/
def fencode (f : Fmt) : FVal → Nat
  | .nan _ => fnan f
  | .inf n => finf f n
  | .fin n m e => (fround f .rtz n m 1 e).1

/-- Minimum, or maximum (R61): −0 below +0, a NaN gives way to the other operand. -/
def fminmax (f : Fmt) (isMax : Bool) (a b : FVal) : Nat × Flags :=
  let nv := if isSNaN a || isSNaN b then flNV else 0
  match a, b with
  | .nan _, .nan _ => (fnan f, nv)
  | .nan _, x => (fencode f x, nv)
  | x, .nan _ => (fencode f x, nv)
  | a, b =>
    let c := fcompare a b
    let aBelow := decide (c < 0) || (decide (c = 0) && fneg a)
    (fencode f (if aBelow != isMax then a else b), nv)

/-- The compares of R61: equality is quiet, less and less-or-equal raise NV on any NaN. -/
def fcmp (k : Nat) (a b : FVal) : Bool × Flags :=
  if isNaN a || isNaN b then
    (false, if k ≠ 0 || isSNaN a || isSNaN b then flNV else 0)
  else
    let c := fcompare a b
    (if k = 0 then decide (c = 0) else if k = 1 then decide (c < 0) else decide (c ≤ 0), 0)

/-- Conversion between floating formats (R59, R60, R68). -/
def fcvt (f : Fmt) (mode : RMode) (a : FVal) : Nat × Flags :=
  match a with
  | .nan s => (fnan f, if s then flNV else 0)
  | .inf n => (finf f n, if f.e4m3 then flOF + flNX else 0)
  | .fin n m e => fround f mode n m 1 e

/-- Conversion to an integer of `w` bits, signed or natural: the nearest end and NV outside the range, 0 and NV for a NaN
(R68). -/
def fcvtInt (w : Nat) (signed : Bool) (mode : RMode) (a : FVal) : Int × Flags :=
  let lo : Int := if signed then -(2 ^ (w - 1) : Nat) else 0
  let hi : Int := if signed then (2 ^ (w - 1) : Nat) - 1 else (2 ^ w : Nat) - 1
  match a with
  | .nan _ => (0, flNV)
  | .inf n => (if n then lo else hi, flNV)
  | .fin n m e =>
    let (r, inexact) := roundInt mode n m 1 e
    let x : Int := if n then -(r : Int) else r
    if x < lo then (lo, flNV) else if hi < x then (hi, flNV) else (x, if inexact then flNX else 0)

/-- Conversion of an integer to a floating format (R75). -/
def fcvtFromInt (f : Fmt) (mode : RMode) (x : Int) : Nat × Flags :=
  fround f mode (decide (x < 0)) x.natAbs 1 0

/-- The class of an encoding, read without flushing (R140): one bit of ten. -/
def fclassOf (f : Fmt) (b : Nat) : Nat :=
  let neg := b.testBit (f.eb + f.fb)
  match fdecode { f with flush := false } b with
  | .nan s => if s then 2 ^ 8 else 2 ^ 9
  | .inf _ => if neg then 1 else 2 ^ 7
  | .fin _ m _ =>
    if m = 0 then (if neg then 2 ^ 3 else 2 ^ 4)
    else if b / 2 ^ f.fb % 2 ^ f.eb = 0 then (if neg then 2 ^ 2 else 2 ^ 5)
    else (if neg then 2 else 2 ^ 6)

/-- One step of the generator of R69. -/
def rstStep (g : BitVec 16) : BitVec 16 :=
  let g := if g = 0 then 1 else g
  let g := g ^^^ (g <<< 7)
  let g := g ^^^ (g >>> 9)
  g ^^^ (g <<< 8)

end Sys2Proof.Machine
end

