-- ==== Sys2Proof/Config.lean ====
section
/-! DEFINITION. What an implementation fixes and the free values: constants with no body, of which nothing can be proved
but that they are functions. -/

namespace Sys2Proof.Config

/-- The 16-bit values of a die's entropy source, numbered by the state's counter of free values (R322; log 5). -/
opaque entropy (n : Nat) : BitVec 16

/-- Whether a byte of a faulting chunk was written before the fault (R255 lets it be either; log 9). -/
opaque mixed (n : Nat) : Bool

/-- ECDSA P-256 verification of a signature over the SHA-256 digest of a message (R351, R359; log 6). -/
opaque verify (key message sig : List Byte) : Bool

/-- ECDSA P-256 signature, r then s, under the device identity key (R355, R361; log 6). -/
opaque sign (message : List Byte) : List Byte

/-- The public half of the device identity key, uncompressed (R360; log 6). -/
opaque deviceKey : List Byte

/-- The certificate of the device identity key, signed by Rosurn (R360; log 6). -/
opaque certificate : List Byte

/-- The part's serial number (R361; log 6). -/
opaque serial : Nat

/-- The nonces the management core gives operator requests (R351; log 6). -/
opaque nonce (n : Nat) : List Byte

/-- Whether a joined peer admits an access to its memory at an offset: what its own operator has exported (R352; log 10). -/
opaque peerAdmits (peer off : Nat) : Bool

/-- The lane count at bring-up of the die-to-die link with a record number (Table 13.3; log 12). -/
opaque linkLanes (n : Nat) : BitVec 8

/-- The nominal clock of a memory die in MHz (Table 13.3; log 12). -/
opaque memoryClock (n : Nat) : BitVec 16

/-- A result that the manual does not state, numbered by the state's counter of free values (log 13). -/
opaque openWord (n : Nat) : BitVec 64

end Sys2Proof.Config
end

