-- ==== Sys2Proof/Machine/State.lean ====
section
/-! DEFINITION. The state of the part as plain data: what the manual gives each agent, engine and die to hold, the keeper's
own records, and the few fields of the model that say which agent or engine moves next. `State.reset` is the part at
reset, before bring-up (R359, R362). -/

namespace Sys2Proof.Machine

/-- Why the machine stops. -/
inductive Fault where
  /-- Raised by `step` alone, on a module whose power the hub has cut (R365), while nothing in the schedule restores it. Safe: the
  manual gives such a module nothing to do. -/
  | unpowered
  deriving DecidableEq, Repr

/-- Why an instruction is turned away. -/
inductive Refusal where
  /-- Raised by no meaning: the word for an instruction that has none yet. Safe. -/
  | notModelled (mnemonic : String)
  deriving DecidableEq, Repr

/-- Physical memory as (address, byte) pairs, addresses strictly rising and no pair equal to what an unlisted address
reads as. Keys are locations: physical addresses (Table 10.1), and for a tensor region's element the store location
that all its views share (R104). -/
structure Memory where
  cells : List Host.Cell
  deriving DecidableEq, Repr

/-- A segment descriptor (Table 5.2). -/
structure Seg where
  base : BitVec 48
  limit : BitVec 48
  r : Bool
  w : Bool
  x : Bool
  v : Bool
  deriving DecidableEq, Repr

/-- The empty descriptor of g3 to g7 at task start (Table 5.1). -/
def Seg.empty : Seg := { base := 0, limit := 0, r := false, w := false, x := false, v := false }

/-- A stream register (Table 5.3). -/
structure Stream where
  offset : Word
  stride : BitVec 32
  seg : BitVec 3
  esize : BitVec 2
  deriving DecidableEq, Repr

/-- What barrel threads and Retrievers have in common: PC, scalar registers and segment registers (R111, R246). -/
structure Hart where
  pc : Word
  regs : Vector Word 64
  segs : Vector Seg 8
  deriving DecidableEq, Repr

/-- A slice: everything kept for one element slot, its 32 bits of v0 to v31, its mask byte of m0 to m7 and its RST state
(R174, Table 7.1). -/
structure Slice where
  v : Vector (BitVec 32) 32
  m : Vector Byte 8
  rst : BitVec 16
  deriving DecidableEq, Repr

/-- The progress watch (R204). -/
structure Watch where
  pc : Word
  count : Nat
  strike : Bool
  deriving DecidableEq, Repr

/-- A progress record (Table 9.4). -/
structure Progress where
  state : Nat
  op : Nat
  fkind : Nat
  fside : Bool
  byRet : Bool
  chunk : Nat
  faddr : Nat
  dseg : BitVec 3
  doff : Word
  aseg : BitVec 3
  aoff : Word
  ops : List Word
  deriving DecidableEq, Repr

/-- The operation of a matrix word that waits in a gang's queue or runs as a long word (R228 to R235), its operands as
they were read at issue. -/
inductive MatOp where
  | zero (acc : Nat)
  | outer (acc : Nat) (neg : Bool) (fmt rnd : Nat) (a b : List (List (BitVec 32))) (sa sb : KMap (BitVec 16))
  | moveRow (acc vd row : Nat) (act : List Nat)
  | moveCol (acc vd col : Nat) (act : List Nat)
  | loadRow (acc row : Nat) (vals : List (Nat × Nat))
  | spill (acc off : Nat)
  | fill (acc off : Nat)
  deriving DecidableEq, Repr

/-- A matrix word accepted by the gang: short, or long (R235), with its PC for a trap (R72). -/
structure MatWord where
  op : MatOp
  long : Bool
  pc : Word
  deriving DecidableEq, Repr

/-- A vector load accepted and not yet arrived (R184): where each active element lies, and what it writes. -/
structure VLoad where
  vd : Nat
  fmt : Nat
  elems : List (Nat × Nat)
  deriving DecidableEq, Repr

/-- The response that an accepted scalar access still owes its agent (R121, R103): `cva` its first byte, `pas` the physical
address of each byte, `acq` whether it acquires, `join` the queued writes that an atomic's acquire would cover (R88). -/
inductive Await where
  | load (d : Reg) (sg cva : Nat) (pas : List Nat) (sext acq : Bool)
  | segld (g : BitVec 3) (sg : Nat) (off : Word) (cva : Nat) (pas : List Nat)
  | atomic (d : Reg) (res old : Word) (cas wide : Bool) (tval time : Nat) (join : List Nat)
  | vamo (vd : Nat) (fmt : Nat) (olds : List (Nat × Nat × BitVec 32)) (time : Nat)
  | pginv (lo n : Nat)
  deriving DecidableEq, Repr

/-- The condition of a bound thread or of a Retriever (R19). -/
inductive Cond where
  /-- ready to issue -/
  | ready
  /-- waiting at its word for an event; the word issues again at its turn (R19) -/
  | waiting
  /-- parked on the page of an address (R122) -/
  | parkedPage (cva : Nat)
  /-- parked at a grant point for want of a lane (R176) -/
  | parkedGrant
  /-- its acquire is held by a scope miss on the granule (R93) -/
  | heldAcquire (granule : Nat)
  /-- an accepted access owes it a response (R121) -/
  | awaiting (w : Await)
  /-- the dispatcher has chosen it, and its footprint regions are being fetched (R265, R306) -/
  | fetching
  /-- it has handed its registers to the gang or to the array for the word kept here (R235, R331) -/
  | inEngine (w : Word)
  deriving DecidableEq, Repr

/-- A thread: a bound hardware context that holds a task (Tables 5.1, 7.1, 8.1), or a running scope-miss handler. `window`:
the pool whose stage barriers it has used (R264). `array`: while it is unbound, the owner number under which its sampling
array waits for it (R335). `noPage`: the page that its wake told it
has no mapping (R122). `thief`: the core whose steal attempt on its deque was served last (R20). `placing`: its
slots are being placed as it resumes, each in a lane of its own (R191). `dead`: slices of it have lost their state (R189). -/
structure Thread where
  hart : Hart
  ctx : Nat
  task : Nat
  cond : Cond
  streams : Vector Stream 8
  status : Word
  epc : Word
  cause : Word
  tval : Word
  sscratch : Word
  fcsr : Word
  tags : Word
  instret : Word
  vceil : Nat
  gvl : Nat
  vl : Nat
  rq : Nat
  ent : Nat
  debt : Option Nat
  slots : List Slice
  lanes : List Nat
  lost : List Nat
  carry : BitVec 32
  watch : Option Watch
  vloads : List VLoad
  mvl : Nat
  mm : Nat
  mn : Nat
  mkk : Nat
  acc0 : List (BitVec 32)
  acc1 : List (BitVec 32)
  sc : Vector (KMap (BitVec 16)) 4
  mqueue : List MatWord
  progress : KMap Progress
  window : Option Nat
  deque : List Nat
  arrival : Option Nat
  rmsusp : Bool
  pendTrap : Option (Nat × Nat × Nat)
  started : Nat
  fatalCode : Nat
  array : Option Nat
  noPage : Option Nat
  thief : Option Nat
  placing : Bool
  dead : Bool
  deriving DecidableEq, Repr

/-- A Retriever core (R245, R246, Table 9.2). `state`: 0 empty, 1 loaded, 2 running, 3 stopped. `noPage`: the page that its
wake told it has no mapping (R122). `stop`: RSTOP has been issued and it stops at its next command boundary (R249). -/
structure Retriever where
  hart : Hart
  owner : Option Nat
  state : Nat
  code : Nat
  tval : Word
  program : List Word
  cond : Cond
  noPage : Option Nat
  stop : Bool
  deriving DecidableEq, Repr

/-- A scope-miss message (R93, R94). -/
structure ScopeMsg where
  granule : Nat
  cva : Nat
  ctx : Nat
  needed : Nat
  markScope : Nat
  deriving DecidableEq, Repr

/-- A trace-ring entry (Table 13.12). -/
structure TraceEntry where
  time : Nat
  kind : Nat
  code : Nat
  ctx : Nat
  hw : Nat
  pc : Word
  data : Word
  deriving DecidableEq, Repr

/-- A barrel core (R110, R119, R275, R276, R357): partition, LSCFG, VICT, the members of the rotation
that forgo a turn (R146), the scope-miss queue with the message its handler serves, the trace ring, the number in the core
of the member of its rotation that issued last (a hardware context, or 16 the service context, R18, R119), and for
each hardware context and group of victims the thread it tried last for a steal (R309, keyed by 4 × context + group). -/
structure Core where
  part : Nat
  lscfg : Word
  vict : Word
  forgo : List Nat
  smq : List ScopeMsg
  serving : Option ScopeMsg
  trace : List TraceEntry
  last : Option Nat
  tried : KMap Nat
  deriving DecidableEq, Repr

/-- A stage barrier (Table 9.6). -/
structure Barrier where
  pend : BitVec 48
  fault : Bool
  armed : Bool
  xph : Bool
  fph : Bool
  valid : Bool
  ncons : BitVec 16
  rcnt : BitVec 16
  deriving DecidableEq, Repr

/-- A region register (Table 10.6). -/
structure Region where
  ctx : Nat
  choff : Nat
  scaled : Bool
  scale : Nat
  decode : Bool
  native : Nat
  fmt : Nat
  rows : Nat
  cols : Nat
  rowbase : Nat
  cva : Nat
  deriving DecidableEq, Repr

/-- A copy in a pool's copy engine (R251 to R258). `dest`: where its issuer's record and handle stand; `next`: the next
chunk to start; `live`: chunks in flight; `wrote`: those of them whose bytes wait in a write queue,
each with the number of its writes and how many bytes; `bad`: faulted chunks
with FKIND, FSIDE, FADDR; `closing`: it starts no further chunk (R258); `geom`: the view and the region that a CPYT learned from
its aperture at issue (R252); `ret`: RET of its record, whether a Retriever issued the copy, which CPYRES restarts for whoever asks
(R256, R257). -/
structure Copy where
  id : Nat
  ctx : Nat
  thread : Nat
  byRet : Option Nat
  handle : Handle
  op : Nat
  dsegv : Seg
  asegv : Seg
  dseg : BitVec 3
  aseg : BitVec 3
  doff : Word
  aoff : Word
  ops : List Word
  len : Nat
  next : Nat
  live : List Nat
  wrote : List (Nat × Nat × Nat)
  bad : List (Nat × Nat × Bool × Nat)
  closing : Bool
  geom : Option (Nat × Region)
  ret : Bool := false
  deriving DecidableEq, Repr

/-- A task in a pool's ready list (R304), and its bypass count. -/
structure ReadyTask where
  ctx : Nat
  gid : Nat
  tile : Nat
  bypass : Nat
  deriving DecidableEq, Repr

/-- A slot-table entry as its four doublewords (Table 11.4), with the time counted against its quantum,
in thousandths of its die's cycles (R303). -/
structure SlotEntry where
  dw0 : Word
  dw1 : Word
  dw2 : Word
  dw3 : Word
  cycles : Nat
  deriving DecidableEq, Repr

/-- A pool (R12): slot table, ready lists, stage barriers, the copy engine's copies, and the barrier windows saved from
contexts unbound from it (R264). -/
structure Pool where
  slots : KMap SlotEntry
  ready : List ReadyTask
  barriers : KMap Barrier
  copies : List Copy
  deriving DecidableEq, Repr

/-- A task (R16, R306, R311): its gang and tile, its kernel, its scratch run (offset in the context's share of the core, size
and physical address), and its live strands. `cvaCore` and `share`: the core under whose addresses it sees its share, and the
share's bytes, which stay as they were at its start when the share moves (R307, R368). -/
structure Task where
  ctx : Nat
  gid : Nat
  x : Nat
  y : Nat
  z : Nat
  kernel : Nat
  core : Nat
  runOff : Nat
  runSize : Nat
  runPa : Nat
  strands : Nat
  started : Nat
  cvaCore : Nat
  share : Nat
  deriving DecidableEq, Repr

/-- A way of a cache set that holds a line: the line's location, its residency marks, whether it is dirty, and a number that
rises with each fill of the set (R278, R279). A set's list holds its ways most recently used first. -/
structure Way where
  way : Nat
  line : Nat
  ef : Bool
  keep : Bool
  dirty : Bool
  filled : Nat
  deriving DecidableEq, Repr

/-- A retention register (Table 10.5). -/
structure RetReg where
  ctx : Nat
  base : Nat
  limit : Nat
  way0 : Nat
  ways : Nat
  deriving DecidableEq, Repr

/-- A write in a write queue of a die (R274), or a write of a UO page that only its die's agents see yet (R91): the number of
its instruction, its context and the page of its address, whether it is strongly ordered, its writer (none for a copy), and the
agents whose later releases cover it (R85). -/
structure QWrite where
  op : Nat
  ctx : Nat
  page : Nat
  so : Bool
  writer : Option Agent
  agents : List Agent
  locs : List (Nat × Byte)
  deriving DecidableEq, Repr

/-- A cell of a sampling array (Table 12.1). `state` is true for +1. -/
structure Cell where
  state : Bool
  en : Bool
  bias : BitVec 16
  colour : Nat
  coup : List (BitVec 8 × Nat)
  clamp : Bool
  count : Nat
  gen : BitVec 16
  deriving DecidableEq, Repr

/-- A command in the sampling array's queue (R329). A sweep command holds its sweeps still to run and the colour that comes next
(R321). -/
inductive SaCmd where
  | load (first count roff toff nent : Nat) (seg : Seg) (ctx : Nat)
  | seed (seed : BitVec 16) (phys : Bool)
  | beta (b : BitVec 16)
  | sweep (n k : Nat)
  deriving DecidableEq, Repr

/-- A sampling array (Tables 12.2, 12.7): the cells that differ from the generator seed's default, the seed that gives
the GEN of the others, owner (a thread number, or a number from 2^32 on for a thread that is unbound, R335) and its
context, BETA, MODE, status and queue. -/
structure SArray where
  cells : KMap Cell
  seed : BitVec 16
  owner : Option Nat
  ctx : Nat
  beta : BitVec 16
  mode : Bool
  sweeps : Nat
  fault : Bool
  fkind : Nat
  fcell : Nat
  faddr : Nat
  queue : List SaCmd
  frozen : Option Nat
  dropped : Nat
  deriving DecidableEq, Repr

/-- A compute die: its L2 sets that hold a line (slice × 128 + set), retention registers, host and Packlink write queues, the
writes of UO pages that are visible within the die alone so far (R91), and sampling array. -/
structure Die where
  l2 : KMap (List Way)
  retain : KMap RetReg
  hostq : List QWrite
  peerq : List QWrite
  uoq : List QWrite
  sa : SArray
  deriving DecidableEq, Repr

/-- A release mark on a granule (R92), with the cluster virtual address of its doubleword (R94). -/
structure Mark where
  scope : Nat
  core : Nat
  ctx : Nat
  dw : Nat
  cva : Nat
  deriving DecidableEq, Repr

/-- A store accepted and not yet performed (R121): its agent, the number of its instruction, whether it is a copy engine's, the
bytes by location, its page's kind, and for a release the scope it names; the address of its first byte, its hint, and whether
it goes through a non-native view. -/
structure PStore where
  agent : Agent
  op : Nat
  copy : Bool
  locs : List (Nat × Byte)
  kind : BitVec 2
  rel : Option Nat
  cva : Nat
  hint : Hint
  view : Bool
  deriving DecidableEq, Repr

/-- A mapping of the pager (R269). -/
structure Mapping where
  cva : Nat
  len : Nat
  sort : Nat
  kind : BitVec 2
  r : Bool
  w : Bool
  ahead : Nat
  host : Nat
  deriving DecidableEq, Repr

/-- A page of a context's image store (R157, R159): its bytes as the file holds them, its digest, its object, the fields
to patch (offset in the heap, first bit, bits, value), and whether its check has failed. -/
structure Image where
  bytes : List Byte
  digest : List Byte
  obj : Nat
  patches : List (Nat × Nat × Nat × Nat)
  bad : Bool
  deriving DecidableEq, Repr

/-- A kernel table entry (Table 6.3): KIND, the heap offset of its first word, SIZE, LANES, LENDEP, TAGS, its footprints
(SEG, OFFSET, BYTES), and its object. -/
structure Kernel where
  ret : Bool
  entry : Nat
  size : Nat
  lanes : Nat
  lendep : Bool
  tags : Word
  foot : List (Nat × Nat × Nat)
  obj : Nat
  deriving DecidableEq, Repr

/-- A gang (R300, R301, R314, R315): its launch record, the port it came from, the next tile not taken, live and retired
tasks, its barrier's GEN and arrivals, its watchdog count and its WDT, and its order of starting. -/
structure Gang where
  record : List Word
  port : Option Nat
  next : Nat
  live : Nat
  retired : Nat
  gen : Nat
  arrivals : Nat
  wdCount : Nat
  wdt : Nat
  seq : Nat
  deriving DecidableEq, Repr

/-- A gang that has ended and the actions the gang table still owes it (R301): 1 DONE, 2 IRQ, 3 SIG. -/
structure EndedGang where
  gid : Nat
  record : List Word
  port : Option Nat
  phase : Nat
  deriving DecidableEq, Repr

/-- A fatal trap as its dump records it, its number in the order of freezes, and what was lost of what the dump would hold: sampling
arrays (die and owner, R336), and pools whose spill area failed (R189, R354). -/
structure Fatal where
  time : Nat
  mapver : Nat
  cause : Word
  tval : Word
  epc : Word
  thread : Nat
  nfatal : Nat
  seq : Nat := 0
  arrays : List (Nat × Nat) := []
  lsp : List Nat := []
  deriving DecidableEq, Repr

/-- A context (R16, R112): its tenant, code heap, vectors, translation root, pager's mappings, image store, kernels,
global symbols, gang table, acknowledged version, counts and allowances. `wanted`: the lanes, pools and scratch that CTXNEW
asked for (Table 13.7). `tainted`: the objects with a page that failed its check (R161). -/
structure Ctx where
  tenant : Nat
  wanted : List Nat
  heap : Seg
  tvec : Word
  smvec : Word
  root : Nat
  aper : Nat
  port : Nat
  maps : List Mapping
  images : KMap Image
  heapUsed : List (Nat × Nat)
  kernels : List Kernel
  symbols : List (List Byte × Nat)
  objects : Nat
  tainted : List Nat
  data : List (Nat × Nat)
  gangs : KMap Gang
  gangSeq : Nat
  succs : List (List Word)
  ended : List EndedGang
  acked : Nat
  arrears : Option Nat
  suspended : Bool
  frozen : Option Fatal
  sealed : Bool
  errs : Vector Nat 10
  allow : KMap (Nat × Nat)
  reports : List Nat
  saved : KMap Thread
  savedRets : List (Nat × Nat × Retriever)
  savedCopies : List Copy
  savedBarriers : KMap (KMap Barrier)
  unbinding : List Nat
  deriving DecidableEq, Repr

/-- A launch port (Table 11.1). -/
structure Port where
  ctx : Option Nat
  queue : List (List Word)
  accepted : Word
  started : Word
  refused : Word
  lastcode : Nat
  deriving DecidableEq, Repr

/-- An arrival-log entry (Table 10.8), and whether ARRLOG has read it. -/
structure ArrEntry where
  time : Nat
  kind : Nat
  len : Nat
  off : Nat
  ctx : Nat
  byRet : Bool
  source : Nat
  gran : Nat
  seq : Nat
  seen : Bool
  deriving DecidableEq, Repr

/-- An outcome-log entry (R289). -/
structure OutEntry where
  source : Nat
  byRet : Bool
  owner : Nat
  task : Nat
  cva : Nat
  cas : Bool
  vamo : Bool
  wide : Bool
  time : Nat
  old : Word
  deriving DecidableEq, Repr

/-- A sealed dump image in a tenant's window or header slot (R354 to R356). -/
structure Dump where
  off : Nat
  bytes : List Byte
  ctx : Nat
  deriving DecidableEq, Repr

/-- A tenant: its virtual function's ports and mailbox (R296, R349), logs (R98, R289), dump window (R356), the lane quota that the
operator allows it in a pool (R351), and counts: `arrGone` the arrival-log entries ever lost (Table 13.8), while `arrLost` counts by
home from the moment logging was last switched on (Table 10.8). -/
structure Tenant where
  enabled : Bool
  ports : KMap Port
  resp : List Word
  posted : Word
  done : Word
  logging : Bool
  arr : KMap (List ArrEntry)
  arrSeq : KMap Nat
  arrLost : KMap Nat
  arrGone : Nat
  out : KMap (List OutEntry)
  window : Nat
  dumps : List Dump
  slot : Option Dump
  quota : Nat
  refused : Nat
  dumpsLost : Nat
  deriving DecidableEq, Repr

/-- Peer n of Packlink as this part knows it: the windows the operator has exported to it, as (base PA, bytes). -/
structure Peer where
  windows : List (Nat × Nat)
  deriving DecidableEq, Repr

/-- The management core and the hub (R339 to R365): power and firmware (the slot that runs and the one tried first), the resource map, unit error counts and recent
errors, the compute dies whose clocks heat governs (whether it lowers them, and when the last step came, R365), fused values
and keys, interrupts raised, peers, the frames given to contexts and the tables made, and the bytes of the last completion
of a read from outside the part. `failed`: the physical function reports that no firmware slot passed its checks (R359).
`waiting`: lasting faults reported and not yet in the map, each a record number and its part (R341). `retested`: when each
die's entropy source failed or was last tested again (R322). `freezes`: how many contexts have frozen (R354). -/
structure Keeper where
  on : Bool
  booted : Bool
  failed : Bool
  version : Nat
  map : KMap MapRec
  errC : KMap Nat
  errU : KMap Nat
  recent : KMap (List Nat)
  rootDigest : List Byte
  fusedVersion : Nat
  slots : List FwImage
  active : Nat
  first : Nat
  opKey : List Byte
  nonces : List (List Byte)
  opDenied : Nat
  irqs : List (Nat × Nat)
  quanta : List (Nat × Nat)
  reports : List (Nat × Nat)
  aborts : Nat
  watts : Nat
  peers : KMap Peer
  frames : KMap Nat
  table : Nat
  hot : KMap (Bool × Nat)
  waiting : List (Nat × Nat)
  retested : KMap Nat
  freezes : Nat
  reply : List Byte
  deriving DecidableEq, Repr

/-- What moves next (the model's own): an agent issues its next word, with or without its accesses' responses left
outstanding; a step of an engine, the keeper, the host or the operator; time
passes, in timestamp cycles (R1); or the lanes that the Kennels take first from now on are named (R370). -/
inductive Turn where
  | word (a : Agent) (defer : Bool)
  | event (e : Instr) (m : Msg)
  | elapse (n : Nat)
  | prefer (lanes : List Nat)
  deriving DecidableEq, Repr

/-- The whole part. The first nine fields are the model's: `schedule` and `owed` say what moves next, `msg` is what
a step that is not a word was given, `cur` issues, `defer` leaves responses outstanding, `ir` is the word at issue, `free` numbers the free values drawn, `nextId`
numbers tasks, copies and stores, and `prefer` lists the lanes that the Kennels take first (R370). `peerHeld`: the
acquires of Packlink peers that a scope miss holds, by granule (R93); `covers`: at a location that a
release wrote, the queued writes that the release covers (R85, R89); `llc`: the lines of each memory die's last-level cache, the
most recently used first (R278). -/
structure State where
  schedule : List Turn
  owed : List (Instr × Msg)
  msg : Msg
  cur : Agent
  defer : Bool
  ir : Word
  free : Nat
  nextId : Nat
  prefer : List Nat
  time : Nat
  mem : Memory
  pt : KMap Word
  poison : KMap (List Nat)
  threads : KMap Thread
  rets : KMap Retriever
  tasks : KMap Task
  cores : KMap Core
  pools : KMap Pool
  dies : KMap Die
  local1 : KMap (List Way)
  ctxs : KMap Ctx
  tenants : KMap Tenant
  marks : KMap Mark
  peerHeld : List (Nat × Msg)
  covers : KMap (List Nat)
  llc : KMap (List Nat)
  router : List (Nat × ScopeMsg)
  stores : List PStore
  regions : KMap Region
  keeper : Keeper
  deriving DecidableEq, Repr

/-- A hart with every register zero and every segment empty (Table 5.1). -/
def Hart.zero : Hart :=
  { pc := 0, regs := Vector.replicate 64 0, segs := Vector.replicate 8 Seg.empty }

/-- A stream register at task start (Table 5.3). -/
def Stream.zero : Stream := { offset := 0, stride := 0, seg := 0, esize := 0 }

/-- A slice of zeros (R196). -/
def Slice.zero : Slice :=
  { v := Vector.replicate 32 0, m := Vector.replicate 8 0, rst := 0 }

/-- Every item of Tables 5.1, 7.1 and 8.1 at its value at task start. -/
def Thread.start : Thread :=
  { hart := Hart.zero, ctx := 0, task := 0, cond := .ready, streams := Vector.replicate 8 Stream.zero
    status := 0, epc := 0, cause := 0, tval := 0, sscratch := 0, fcsr := 0, tags := 0, instret := 0
    vceil := 0, gvl := 0, vl := 0, rq := 0, ent := 0, debt := none, slots := [], lanes := [], lost := []
    carry := 0, watch := none, vloads := [], mvl := 0, mm := 0, mn := 0, mkk := 0
    acc0 := [], acc1 := [], sc := Vector.replicate 4 [], mqueue := [], progress := [], window := none
    deque := [], arrival := none, rmsusp := false, pendTrap := none, started := 0, fatalCode := 0, array := none, noPage := none
    thief := none, placing := false, dead := false }

/-- An empty Retriever (R245). -/
def Retriever.empty : Retriever :=
  { hart := Hart.zero, owner := none, state := 0, code := 0, tval := 0, program := [], cond := .ready, noPage := none, stop := false }

/-- A core before anything is bound to it: LSCFG at its reset value 4 (Table 10.3), VICT 0 (Table 10.4). -/
def Core.reset : Core :=
  { part := 16, lscfg := 4, vict := 0, forgo := [], smq := [], serving := none, trace := [], last := none, tried := [] }

/-- A barrier that is not VALID with every field zero (Table 9.6). -/
def Barrier.zero : Barrier :=
  { pend := 0, fault := false, armed := false, xph := false, fph := false, valid := false, ncons := 0, rcnt := 0 }

/-- A pool with an empty slot table (Table 11.4). -/
def Pool.reset : Pool := { slots := [], ready := [], barriers := [], copies := [] }

/-- A sampling array in the reset state (Tables 12.1, 12.2). -/
def SArray.reset : SArray :=
  { cells := [], seed := 0, owner := none, ctx := 0, beta := 0, mode := false, sweeps := 0, fault := false, fkind := 0
    fcell := 0, faddr := 0, queue := [], frozen := none, dropped := 0 }

/-- A compute die with empty caches and queues. -/
def Die.reset : Die := { l2 := [], retain := [], hostq := [], peerq := [], uoq := [], sa := SArray.reset }

/-- A launch port bound to no context (Table 11.1). -/
def Port.reset : Port := { ctx := none, queue := [], accepted := 0, started := 0, refused := 0, lastcode := 0 }

/-- A tenant before the operator enables it (R362): an empty window of size 0 (R356). -/
def Tenant.reset : Tenant :=
  { enabled := false, ports := [], resp := List.replicate 8 0, posted := 0, done := 0, logging := false, arr := []
    arrSeq := [], arrLost := [], arrGone := 0, out := [], window := 0, dumps := [], slot := none, quota := 1024, refused := 0, dumpsLost := 0 }

/-- The keeper at reset: powered, not yet booted, no map built (R359, R362). The fused digest, security version and
firmware slots are manufacturing data that the manual does not give. -/
def Keeper.reset : Keeper :=
  { on := true, booted := false, failed := false, version := 0, map := [], errC := [], errU := [], recent := [], rootDigest := []
    fusedVersion := 0, slots := [], active := 0, first := 0, opKey := [], nonces := [], opDenied := 0, irqs := [], quanta := []
    reports := [], aborts := 0, watts := 0, peers := [], frames := [], table := 0, hot := [], waiting := [], retested := [], freezes := 0, reply := [] }

/-- The part at reset (R359, R362): TIME 0, no context, no thread, nothing in memory or in any queue. -/
def State.reset : State :=
  { schedule := [], owed := [], msg := Msg.empty, cur := .thread 0, defer := false, ir := 0, free := 0, nextId := 0, prefer := [], time := 0
    mem := { cells := [] }, pt := [], poison := [], threads := [], rets := [], tasks := [], cores := [], pools := []
    dies := [], local1 := [], ctxs := [], tenants := [], marks := [], peerHeld := [], covers := [], llc := [], router := [], stores := [], regions := []
    keeper := Keeper.reset }

end Sys2Proof.Machine
end

