-- ==== Sys2Proof/Machine/Assoc.lean ====
section
/-! DEFINITION. Finite maps as lists with rising keys, and the bytes of memory over the same list form (R5): reading,
writing and clearing. Memory keeps its canonical form: a zero byte is never listed. -/

namespace Sys2Proof.Machine

/-- The value at a key. -/
def kfind {α : Type} : KMap α → Nat → Option α
  | [], _ => none
  | (i, v) :: r, k => if i = k then some v else kfind r k

/-- The map with the key's value replaced or added, keys rising. -/
def kset {α : Type} : KMap α → Nat → α → KMap α
  | [], k, v => [(k, v)]
  | (i, w) :: r, k, v =>
    if k < i then (k, v) :: (i, w) :: r else if k = i then (k, v) :: r else (i, w) :: kset r k v

/-- The map without the key. -/
def kdel {α : Type} (m : KMap α) (k : Nat) : KMap α := m.filter (fun p => p.1 ≠ k)

/-- The value at a key, or a default. -/
def kget {α : Type} (m : KMap α) (k : Nat) (d : α) : α := (kfind m k).getD d

/-- The values in key order. -/
def kvals {α : Type} (m : KMap α) : List α := m.map (·.2)

/-- The keys are strictly rising. -/
def krising {α : Type} : KMap α → Bool
  | [] => true
  | [_] => true
  | (i, _) :: (j, w) :: r => decide (i < j) && krising ((j, w) :: r)

/-- One byte of memory: an unlisted address reads as 0 (DESIGN CHOICE, log 1; the manual gives no contents of HBM that
nothing has written). -/
def Memory.get (m : Memory) (a : Nat) : Byte := kget m.cells a 0

/-- One byte written; writing the value an unlisted address reads as removes the entry. -/
def Memory.set (m : Memory) (a : Nat) (b : Byte) : Memory :=
  { cells := if b = 0 then kdel m.cells a else kset m.cells a b }

/-- Bytes written in list order: where two go to one location, the later stays (R78). -/
def Memory.setAll (m : Memory) (l : List (Nat × Byte)) : Memory := l.foldl (fun m p => m.set p.1 p.2) m

/-- Every byte of [lo, lo + n) made zero. -/
def Memory.zero (m : Memory) (lo n : Nat) : Memory :=
  { cells := m.cells.filter (fun p => p.1 < lo || lo + n ≤ p.1) }

/-- The canonical form of memory: addresses strictly rising and no entry equal to what an unlisted address reads as. -/
def Memory.wf (m : Memory) : Bool := krising m.cells && m.cells.all (fun p => p.2 ≠ 0)

/-- `n` consecutive addresses from `a`. -/
def span (a n : Nat) : List Nat := (List.range n).map (a + ·)

/-- The number whose little-endian bytes these are (R5). -/
def leNat : List Byte → Nat
  | [] => 0
  | b :: r => b.toNat + 256 * leNat r

/-- The `n` little-endian bytes of a number (R5). -/
def leBytes : Nat → Nat → List Byte
  | 0, _ => []
  | n + 1, x => BitVec.ofNat 8 x :: leBytes n (x / 256)

/-- A list cut into runs of `n`, with `fuel` at least its length. -/
def chunksOf {α : Type} (n : Nat) : Nat → List α → List (List α)
  | 0, _ => []
  | _, [] => []
  | fuel + 1, l => l.take n :: chunksOf n fuel (l.drop n)

/-- The element of a list at an index replaced. -/
def lset {α : Type} (l : List α) (i : Nat) (x : α) : List α := l.set i x

end Sys2Proof.Machine
end

