-- ==== Sys2Proof/Machine/Ops.lean ====
section
/-! DEFINITION. The named operations over agents, registers, traps and the trace rings: reading and writing the issuing
agent's registers (R28, R114), retiring a word, taking a precise or a fatal trap (R128, R132, R248) and returning from
one (R130). -/

namespace Sys2Proof.Machine

/-- What a meaning answers. -/
abbrev Out := Host.Outcome State Fault Refusal

/-! ### Parts of the state by number -/

/-- Thread number t (R178), or the task-start thread where none is held. -/
def thr (s : State) (t : Nat) : Thread := kget s.threads t Thread.start
/-- Thread t replaced. -/
def setThr (s : State) (t : Nat) (x : Thread) : State := { s with threads := kset s.threads t x }
/-- Thread t changed. -/
def modThr (s : State) (t : Nat) (f : Thread → Thread) : State := setThr s t (f (thr s t))
/-- Whether thread number t is a thread. -/
def hasThr (s : State) (t : Nat) : Bool := (kfind s.threads t).isSome
/-- The thread ends: its hardware context holds no task. -/
def dropThr (s : State) (t : Nat) : State := { s with threads := kdel s.threads t }
/-- Retriever n (R11). -/
def ret (s : State) (n : Nat) : Retriever := kget s.rets n Retriever.empty
/-- Retriever n changed. -/
def modRet (s : State) (n : Nat) (f : Retriever → Retriever) : State :=
  { s with rets := kset s.rets n (f (ret s n)) }
/-- Core c. -/
def core (s : State) (c : Nat) : Core := kget s.cores c Core.reset
/-- Core c changed. -/
def modCore (s : State) (c : Nat) (f : Core → Core) : State := { s with cores := kset s.cores c (f (core s c)) }
/-- Pool p. -/
def pool (s : State) (p : Nat) : Pool := kget s.pools p Pool.reset
/-- Pool p changed. -/
def modPool (s : State) (p : Nat) (f : Pool → Pool) : State := { s with pools := kset s.pools p (f (pool s p)) }
/-- Compute die d. -/
def die (s : State) (d : Nat) : Die := kget s.dies d Die.reset
/-- Compute die d changed. -/
def modDie (s : State) (d : Nat) (f : Die → Die) : State := { s with dies := kset s.dies d (f (die s d)) }
/-- Context c, where it exists. -/
def ctx? (s : State) (c : Nat) : Option Ctx := kfind s.ctxs c
/-- Context c changed, where it exists. -/
def modCtx (s : State) (c : Nat) (f : Ctx → Ctx) : State :=
  match kfind s.ctxs c with
  | none => s
  | some x => { s with ctxs := kset s.ctxs c (f x) }
/-- Tenant n. -/
def tenant (s : State) (n : Nat) : Tenant := kget s.tenants n Tenant.reset
/-- Tenant n changed. -/
def modTenant (s : State) (n : Nat) (f : Tenant → Tenant) : State :=
  { s with tenants := kset s.tenants n (f (tenant s n)) }
/-- The keeper changed. -/
def modKeeper (s : State) (f : Keeper → Keeper) : State := { s with keeper := f s.keeper }
/-- The tenant of a context. -/
def tenantOf (s : State) (c : Nat) : Nat := match ctx? s c with | some x => x.tenant | none => 0

/-! ### Numbering (R11, R178) -/

/-- The core of a thread number. -/
def coreOf (t : Nat) : Nat := t / 17
/-- The hardware context of a thread number. -/
def hwOf (t : Nat) : Nat := t % 17
/-- The pool of a core. -/
def poolOfCore (c : Nat) : Nat := c / 16
/-- The compute die of a core. -/
def dieOfCore (c : Nat) : Nat := c / 384
/-- The pool of a thread. -/
def poolOf (t : Nat) : Nat := poolOfCore (coreOf t)
/-- The compute die of a thread. -/
def dieOf (t : Nat) : Nat := dieOfCore (coreOf t)

/-! ### The issuing agent -/

/-- The thread that issues, or on whose behalf a Retriever issues: its owner (R247). -/
def me (s : State) : Nat :=
  match s.cur with
  | .thread t => t
  | .ret n => (ret s n).owner.getD 0
/-- The core of the issuing agent. -/
def myCore (s : State) : Nat :=
  match s.cur with
  | .thread t => coreOf t
  | .ret n => n / 2
/-- The pool of the issuing agent. -/
def myPool (s : State) : Nat := poolOfCore (myCore s)
/-- The compute die of the issuing agent. -/
def myDie (s : State) : Nat := dieOfCore (myCore s)
/-- Whether a Retriever issues. -/
def onRet (s : State) : Bool := match s.cur with | .thread _ => false | .ret _ => true
/-- Whether the service context issues. -/
def inSvc (s : State) : Bool := match s.cur with | .thread t => hwOf t == 16 | .ret _ => false
/-- The issuing thread's record, its owner's for a Retriever. -/
def my (s : State) : Thread := thr s (me s)
/-- That record changed. -/
def modMy (s : State) (f : Thread → Thread) : State := modThr s (me s) f
/-- The context of the issuing agent. -/
def myCtx (s : State) : Nat := (my s).ctx
/-- The hart of the issuing agent. -/
def hart (s : State) : Hart :=
  match s.cur with
  | .thread t => (thr s t).hart
  | .ret n => (ret s n).hart
/-- The hart of the issuing agent changed. -/
def modHart (s : State) (f : Hart → Hart) : State :=
  match s.cur with
  | .thread t => modThr s t (fun x => { x with hart := f x.hart })
  | .ret n => modRet s n (fun x => { x with hart := f x.hart })
/-- The condition of the issuing agent set. -/
def setCond (s : State) (c : Cond) : State :=
  match s.cur with
  | .thread t => modThr s t (fun x => { x with cond := c })
  | .ret n => modRet s n (fun x => { x with cond := c })

/-- A scalar register of a hart: s0 reads as zero (R28). -/
def Hart.get (h : Hart) (r : Reg) : Word := if r = 0 then 0 else h.regs[r.toNat]
/-- A scalar register written: a write to s0 is discarded (R28, R114). -/
def Hart.set (h : Hart) (r : Reg) (v : Word) : Hart :=
  if r = 0 then h else { h with regs := h.regs.set r.toNat v }
/-- A scalar register of the issuing agent. -/
def reg (s : State) (r : Reg) : Word := (hart s).get r
/-- A scalar register of the issuing agent written. -/
def setReg (s : State) (r : Reg) (v : Word) : State := modHart s (·.set r v)
/-- A segment register of the issuing agent. -/
def seg (s : State) (g : BitVec 3) : Seg := (hart s).segs[g.toNat]
/-- The PC of the issuing agent. -/
def pcOf (s : State) : Word := (hart s).pc
/-- The PC of the issuing agent set. -/
def setPc (s : State) (v : Word) : State := modHart s (fun h => { h with pc := v })

/-- How many scalar registers the issuing agent may name (R28, R110, R246). -/
def regCount (s : State) : Nat :=
  match s.cur with
  | .ret _ => 32
  | .thread t => if hwOf t = 16 then 32 else if (core s (coreOf t)).part = 16 then 32 else 64

/-- Whether the word may issue here: its register fields name registers the agent has (R28), and a Retriever issues only
words marked for it (R47). -/
def admits (s : State) (ret : Bool) (rs : List Reg) : Bool :=
  rs.all (fun r => decide (r.toNat < regCount s)) && (ret || !onRet s)

/-! ### Engine work owed, interrupts, the trace rings -/

/-- Work that an engine now owes, after what is owed already. -/
def owe (s : State) (l : List (Instr × Msg)) : State := { s with owed := s.owed ++ l }

/-- A step with up to three numbers in its message. -/
def ev (i : Instr) (a : Nat := 0) (b : Nat := 0) (c : Nat := 0) : Instr × Msg :=
  (i, { Msg.empty with a := a, b := b, c := c })

/-- A step about an agent. -/
def evA (i : Instr) (a : Agent) : Instr × Msg := (i, { Msg.empty with agent := a })

/-- An MSI-X vector raised on a virtual function, or on the physical one as function 16 (R342, R348). -/
def raiseIrq (s : State) (fn vec : Nat) : State := modKeeper s (fun k => { k with irqs := k.irqs ++ [(fn, vec)] })

/-- An entry into a core's trace ring of 256, newest first (R357). -/
def pushTrace (s : State) (c : Nat) (e : TraceEntry) : State :=
  modCore s c (fun x => { x with trace := (e :: x.trace).take 256 })

/-- An entry about the issuing agent's word at its PC. -/
def trace (s : State) (kind code : Nat) (data : Word) : State :=
  pushTrace s (myCore s)
    { time := s.time, kind := kind, code := code, ctx := myCtx s, hw := hwOf (me s), pc := pcOf s, data := data }

/-- One of the context's error counts raised (Table 13.8, in its order from 0). -/
def countErr (s : State) (c : Nat) (i : Nat) : State :=
  modCtx s c (fun x => { x with errs := x.errs.set! i (x.errs.getD i 0 + 1) })

/-! ### Retiring -/

/-- The word retires: INSTRET counts it (R125) and the agent is ready. -/
def retire (s : State) : State :=
  match s.cur with
  | .thread t => modThr s t (fun x => { x with instret := x.instret + 1, cond := .ready })
  | .ret n => modRet s n (fun x => { x with cond := .ready })

/-- The word retires and the agent goes on at the next word. -/
def advance (s : State) : State := retire (setPc s (pcOf s + 8))

/-- The word retires and the agent goes on at a target; a barrel thread's ring records a next PC other than PC + 8
(R357, kind 1). -/
def jump (s : State) (target : Word) : State :=
  let s' := if target = pcOf s + 8 || onRet s then s else trace s 1 0 target
  retire (setPc s' target)

/-- A result that the manual does not state: a free value, the next one drawn (log 13). -/
def drawWord (s : State) : Word × State := (Config.openWord s.free, { s with free := s.free + 1 })

/-- The word waits: it has no effect and issues again at the agent's turn (R19). -/
def waitHere (s : State) : State := setCond s .waiting


/-- STATUS.PRIV of a thread (Table 5.6). -/
def privOf (x : Thread) : Bool := x.status.getLsbD 0
/-- STATUS.SVC (Table 5.6). -/
def svcOf (x : Thread) : Bool := x.status.getLsbD 1
/-- STATUS.SS (Table 5.6). -/
def ssOf (x : Thread) : Bool := x.status.getLsbD 7
/-- Whether the issuing agent is at S: a Retriever runs at U (R246). -/
def atS (s : State) : Bool := !onRet s && privOf (my s)

/-! ### Release marks, as freezes and unbinds change them (R96) -/

/-- The agents whose acquire is held on a granule. -/
def heldOn (s : State) (g : Nat) : List Agent :=
  (s.threads.filter (fun p => p.2.cond = .heldAcquire g)).map (fun p => .thread p.1) ++
    (s.rets.filter (fun p => p.2.cond = .heldAcquire g)).map (fun p => .ret p.1)

/-- Whether an acquire, of an agent or of a Packlink peer, is held on a granule. -/
def anyHeld (s : State) (g : Nat) : Bool := !(heldOn s g).isEmpty || s.peerHeld.any (fun p => p.1 == g)

/-- The mark of a granule replaced, or cleared; acquires held on it are reissued (R93). -/
def putMark (s : State) (g : Nat) (m : Option Mark) : State :=
  let marks := match m with | some x => kset s.marks g x | none => kdel s.marks g
  let peers := s.peerHeld.filter (fun p => p.1 == g)
  owe { s with marks := marks, peerHeld := s.peerHeld.filter (fun p => p.1 != g) }
    ((heldOn s g).map (evA .acquireReissue) ++ peers.map (fun p => (.peerAccess, p.2)))

/-- Marks of a context cleared and its messages and handlers dropped (R96, R132): the cores that held any go on with the next
message (R133). -/
def clearMarksOf (s : State) (c : Nat) : State :=
  let gone := (s.marks.filter (fun p => p.2.ctx = c)).map (·.1)
  let s := gone.foldl (fun s g => putMark s g none) s
  let next := s.cores.filter (fun p => p.2.smq.any (fun m => m.ctx == c) ||
    match p.2.serving with | some m => m.ctx == c | none => false)
  let s := owe s (next.map (fun p => ev .scopeMissMessage p.1))
  { s with
    router := s.router.filter (fun p => p.2.ctx ≠ c)
    cores := s.cores.map (fun p => (p.1, { p.2 with
      smq := p.2.smq.filter (fun m => m.ctx ≠ c)
      serving := match p.2.serving with
        | some m => if m.ctx = c then none else some m
        | none => none }))
    threads := s.threads.filter (fun p => !(hwOf p.1 == 16 && p.2.ctx == c)) }

/-! ### Traps -/

/-- A Retriever as it is saved: at a command boundary, its word issued again (R250). -/
def savedRet (r : Retriever) : Retriever := { r with owner := none, cond := .ready, noPage := none, stop := false }

/-- Whether a Retriever is owned by a thread of a context. -/
def retOfCtx (s : State) (c : Nat) (r : Retriever) : Bool :=
  match r.owner with | some t => hasThr s t && (thr s t).ctx == c | none => false

/-- The Retrievers of a frozen context that have come to a command boundary with nothing outstanding are owned no longer, and are
empty (R245); what they held is kept for the dump (R354), under their owner's number and their role. -/
def releaseRets (s : State) (c : Nat) : State :=
  let busy (n : Nat) (r : Retriever) : Bool :=
    (match r.cond with | .awaiting _ => true | _ => false) || s.stores.any (fun p => p.agent == .ret n)
  let mine := s.rets.filter (fun r => !busy r.1 r.2 && retOfCtx s c r.2)
  let s := modCtx s c (fun x => { x with
    savedRets := x.savedRets ++ mine.map (fun r => (r.2.owner.getD 0, r.1 % 2, savedRet r.2)) })
  { s with rets := s.rets.filter (fun r => !mine.any (fun q => q.1 == r.1)) }

/-- An acquire that waits for a scope miss is withdrawn: its word is to issue again (R132, R134, Table 5.10). -/
def unheld : Cond → Cond
  | .heldAcquire _ => .waiting
  | c => c

/-- A thread or Retriever where an unbind or a suspension stops it (R134, R136, Table 5.10): a held acquire, a parked word and a wait on
PGINV are withdrawn, the pending wake being discarded, and the word issues again when the agent goes on. -/
def withdrawn : Cond → Cond
  | .heldAcquire _ => .ready
  | .parkedPage _ => .ready
  | .parkedGrant => .ready
  | .awaiting (.pginv _ _) => .ready
  | c => c

/-- Whether a thread's long matrix word waits for a gang block (R239). -/
def awaitsBlock (x : Thread) : Bool := !x.lost.isEmpty && x.mqueue.any (·.long)

/-- A thread that a long matrix word stopped for want of a gang block stands before the word again (Table 8.3). -/
def beforeLong (x : Thread) : Thread := if awaitsBlock x then { x with mqueue := [], cond := .ready } else x

/-- The words of some threads, and of their Retrievers, that wait so are withdrawn. -/
def withdraw (s : State) (f : Nat → Bool) : State :=
  { s with
    threads := s.threads.map (fun p => (p.1, if f p.1 then
      beforeLong { p.2 with cond := withdrawn p.2.cond, noPage := none } else p.2))
    rets := s.rets.map (fun p => (p.1, if (p.2.owner.map f).getD false then
      { p.2 with cond := withdrawn p.2.cond, noPage := none } else p.2)) }

/-- A context freezes by a fatal trap (R132): its marks are cleared, its held acquires, also of its Retrievers, withdrawn, its handlers and messages dropped,
its Retrievers given up (R245), its copies start no further chunk (R258), its arrays stop with their queues dropped (R337), its queued matrix words are
completed, and its dump is owed (R354). A further fatal trap before the dump is sealed is counted in it (R355). -/
def freeze (s : State) (c : Nat) (f : Fatal) : State :=
  match ctx? s c with
  | none => s
  | some x =>
    match x.frozen with
    | some g =>
      if x.sealed then s else modCtx s c (fun x => { x with frozen := some { g with nfatal := g.nfatal + 1 } })
    | none =>
      let queued := (s.threads.filter (fun p => p.2.ctx = c)).flatMap
        (fun p => p.2.mqueue.map (fun _ => ev .matrixWordComplete p.1))
      let n := s.keeper.freezes
      let s := modCtx s c (fun x => { x with frozen := some { f with seq := n }, suspended := false, arrears := none })
      let s := modKeeper (releaseRets (clearMarksOf s c) c) (fun k => { k with freezes := n + 1 })
      let s := { s with
        threads := s.threads.map (fun p => (p.1, if p.2.ctx = c then { p.2 with cond := unheld p.2.cond, noPage := none } else p.2))
        rets := s.rets.map (fun p => (p.1, if retOfCtx s c p.2 then { p.2 with cond := unheld p.2.cond, noPage := none } else p.2))
        pools := s.pools.map (fun p => (p.1, { p.2 with
          copies := p.2.copies.map (fun y => if y.ctx = c then { y with closing := true } else y) }))
        dies := s.dies.map (fun p => (p.1, { p.2 with
          sa := if p.2.sa.owner.isSome && p.2.sa.ctx == c then
              { p.2.sa with frozen := some c, dropped := p.2.sa.queue.length, queue := [] } else p.2.sa })) }
      owe s (queued ++ [ev .dumpBuild c])

/-- CAUSE as Table 5.8 lays it out. -/
def causeWord (code info : Nat) : Word := BitVec.ofNat 64 (info * 2 ^ 32 + code)

/-- A fatal trap of a thread (R127, R132). -/
def fatalTrap (s : State) (t code info : Nat) (tval : Word) : State :=
  let x := thr s t
  let s := modThr s t (fun x => { x with fatalCode := code })
  freeze s x.ctx { time := s.time, mapver := s.keeper.version, cause := causeWord code info, tval := tval
                   epc := x.hart.pc, thread := t, nfatal := 1 }

/-- The entry of R128: EPC, CAUSE and TVAL written, PRIV set, PC at TVEC; no other register changes. EPC's low three bits read as 0,
also where the PC is misaligned (Table 5.5). The progress watch is cleared (R204). -/
def enterTrap (x : Thread) (tvec : Word) (code info : Nat) (tval : Word) : Thread :=
  { x with epc := x.hart.pc &&& ~~~7, cause := causeWord code info, tval := tval, status := x.status ||| 1
           hart := { x.hart with pc := tvec }, watch := none, cond := .ready }

/-- A trap of thread t at its PC: entered at U where the context has a handler; otherwise fatal with the same code
(R128). INTEG and WDOG are fatal always (Table 5.9). -/
def trapThread (s : State) (t code info : Nat) (tval : Word) : State :=
  let x := thr s t
  let tvec := match ctx? s x.ctx with | some c => c.tvec | none => 0
  let s := pushTrace s (coreOf t)
    { time := s.time, kind := 2, code := code, ctx := x.ctx, hw := hwOf t, pc := x.hart.pc, data := tval }
  if code = 5 || code = 7 || tvec = 0 || privOf x || svcOf x then fatalTrap s t code info tval
  else setThr s t (enterTrap x tvec code info tval)

/-- A Retriever stops with a cause at its word (R248). -/
def stopRet (s : State) (n code : Nat) (tval : Word) : State :=
  modRet s n (fun r => { r with state := 3, code := code, tval := tval, cond := .ready, noPage := none, stop := false })

/-- The issuing agent's word takes a trap: precise or fatal on a thread, a fault stop on a Retriever. -/
def takeTrap (s : State) (code info : Nat) (tval : Word) : State :=
  match s.cur with
  | .thread t => trapThread s t code info tval
  | .ret n => stopRet s n code tval

/-- ILL, with TVAL the instruction word (R48, Table 5.9). -/
def takeIll (s : State) : State := takeTrap s 1 0 s.ir

/-- A word that issues legally has its effect; an illegal one takes ILL (R48). -/
def issue (s : State) (ok : Bool) (f : State → State) : Out := .next (if ok then f s else takeIll s)

/-- Return from a handler (R130): PC := EPC, PRIV := 0; EPC is unchanged. -/
def returnU (x : Thread) : Thread :=
  { x with hart := { x.hart with pc := x.epc }, status := x.status &&& ~~~(1 : Word) }

/-- The single-step BRK (R128, R129): a word of the current thread that retired at U with SS set is followed by a trap whose
EPC is the next word. `before` is the state the word issued in. -/
def singleStep (before s : State) : State :=
  match s.cur with
  | .ret _ => s
  | .thread t =>
    let x := thr before t
    if ssOf x && !privOf x && hasThr s t && (thr s t).instret ≠ x.instret then trapThread s t 8 (2 ^ 31) 0 else s

/-- What is done on behalf of an agent that does not issue now. -/
def asAgent (s : State) (a : Agent) (f : State → State) : State :=
  { f { s with cur := a } with cur := s.cur }

/-- A Retriever that RSTOP has told to stop is at its next command boundary: it stops (R249). -/
def stopTold (s : State) : State :=
  match s.cur with
  | .thread _ => s
  | .ret n => if (ret s n).stop && (ret s n).state == 2 then stopRet s n 0 0 else s

/-- A response that reaches an agent completes its word, which may be followed by the step trap (R129), or by the stop that a
Retriever has been told of (R249). -/
def respond (s : State) (a : Agent) (f : State → State) : State :=
  asAgent s a (fun s => stopTold (singleStep s (f s)))

/-- SEGV's INFO (Table 5.9): sub-kind, segment number, access. -/
def segvInfo (sub sg acc : Nat) : Nat := sub + sg * 16 + acc * 128

/-! ### Slot tables (R302) -/

/-- A field [lo + n − 1 : lo] of a doubleword, as a number. -/
def field (w : Word) (lo n : Nat) : Nat := w.toNat / 2 ^ lo % 2 ^ n

/-- An entry with every field zero. -/
def SlotEntry.zero : SlotEntry := { dw0 := 0, dw1 := 0, dw2 := 0, dw3 := 0, cycles := 0 }
/-- VALID. -/
def SlotEntry.valid (e : SlotEntry) : Bool := e.dw0.getLsbD 63
/-- CONTEXT. -/
def SlotEntry.ctx (e : SlotEntry) : Nat := field e.dw0 48 8
/-- QUOTA. -/
def SlotEntry.quota (e : SlotEntry) : Nat := field e.dw0 0 11
/-- SCRSZ in bytes. -/
def SlotEntry.scratch (e : SlotEntry) : Nat := field e.dw3 0 7 * 4096

/-- A unit's state in the resource map: 0 absent, 1 live, 2 degraded, 3 retired (Table 13.2); live where no record differs. -/
def mapState (s : State) (n : Nat) : Nat := match kfind s.keeper.map n with | some r => r.state | none => 1

/-- Whether a record shows its unit as live, degraded or not (Table 13.2). -/
def recLive (r : MapRec) : Bool := r.state == 1 || r.state == 2

/-- Whether the map shows a unit as live, degraded or not: only then does it receive a hand-off (R23). -/
def unitLive (s : State) (n : Nat) : Bool := mapState s n == 1 || mapState s n == 2

/-- Whether the issuing agent's pool is live, so that its Kennel and its copy engine receive a hand-off (R23). -/
def poolLive (s : State) : Bool := unitLive s (16 + myPool s)

/-- The entries of a pool, in entry order. -/
def entries (s : State) (p : Nat) : List (Nat × SlotEntry) := (pool s p).slots

/-- The number of the slot-table entry that binds hardware context h of core c (R302): the lowest that is VALID and has
both bits, while h is below the partition and the core and its pool are live (R23). -/
def bindingEntry (s : State) (c h : Nat) : Option (Nat × SlotEntry) :=
  if (core s c).part ≤ h || !unitLive s (128 + c) || !unitLive s (16 + poolOfCore c) then none
  else (entries s (poolOfCore c)).find?
    (fun e => e.2.valid && e.2.dw0.getLsbD (32 + c % 16) && e.2.dw0.getLsbD (16 + h))

/-- The entry of a pool that serves a context: the lowest valid one that names it. -/
def entryOf (s : State) (p c : Nat) : Option SlotEntry :=
  ((entries s p).find? (fun e => e.2.valid && e.2.ctx == c)).map (·.2)

/-- The context's lane quota in a pool (R178). -/
def quotaOf (s : State) (p c : Nat) : Nat := match entryOf s p c with | some e => e.quota | none => 0

/-- Whether a context is frozen, or gone. -/
def frozenCtx (s : State) (c : Nat) : Bool :=
  match ctx? s c with | some x => x.frozen.isSome | none => true
/-- Whether a context is suspended on the resource map (R344). -/
def suspendedCtx (s : State) (c : Nat) : Bool :=
  match ctx? s c with | some x => x.suspended | none => false

end Sys2Proof.Machine
end

