-- ==== Sys2Proof/Machine/Region.lean ====
section
/-! DEFINITION. Physical addresses (R266), tensor regions and their views (R283 to R288), the homes and slices that the
two hashes choose (R270, R271), and shared-exponent blocks in memory (R63, R64). -/

namespace Sys2Proof.Machine

/-- Container bits of a format code (Table 2.5). -/
def cbits (fmt : Nat) : Nat :=
  if fmt = 0x0D then 4
  else if fmt = 0x01 || fmt = 0x05 || fmt = 0x0B || fmt = 0x0C || fmt = 0x0E || fmt = 0x0F then 8
  else if fmt = 0x02 || fmt = 0x06 || fmt = 0x09 || fmt = 0x0A then 16
  else 32

/-- Elements per slot of a format (R66); a word without a format acts on slots. -/
def perSlot (fmt : Nat) : Nat := 32 / cbits fmt

/-- Magnitude width m of an SX code (Table 3.2). -/
def sxM (fmt : Nat) : Nat := if fmt = 0x0D then 2 else if fmt = 0x0E then 4 else 7

/-- Bytes of an SX block in memory (Table 3.2). -/
def sxBytes (fmt : Nat) : Nat := if fmt = 0x0D then 8 else if fmt = 0x0E then 12 else 18

/-- The exact value of an SX element of `bits` under exponent E and shift byte (R63); `i` is its place in the block. -/
def sxVal (fmt : Nat) (e shift : Nat) (i bits : Nat) : FVal :=
  let m := sxM fmt
  let mag := bits % 2 ^ m
  let sigma := shift / 2 ^ (2 * (i / 4 % 4)) % 4
  if e = 0xFF then .nan false
  else if e = 0 || mag = 0 then .fin false 0 0
  else .fin (bits.testBit m) mag ((e : Int) - 127 - sigma - (m - 1))

/-- The element size of a region through its views (R284). -/
def Region.e (r : Region) : Nat := if r.decode then 2 else cbits r.fmt / 8
/-- Rows of a tile (R284). -/
def Region.tr (r : Region) : Nat := if r.native = 0 then 16 else if r.native = 1 then 128 / r.e else 32
/-- Columns of a tile (R284). -/
def Region.tc (r : Region) : Nat := if r.native = 0 then 128 / r.e else if r.native = 1 then 16 else 64 / r.e
/-- Tiles across (R284, R288). -/
def Region.across (r : Region) : Nat := (r.cols + r.tc - 1) / r.tc
/-- Tiles in all (R284, R288). -/
def Region.tiles (r : Region) : Nat := (r.rows + r.tr - 1) / r.tr * r.across
/-- The tile of element (i, j). -/
def Region.tile (r : Region) (i j : Nat) : Nat := i / r.tr * r.across + j / r.tc
/-- The in-tile offset of element (i, j) (R284). -/
def Region.inTile (r : Region) (i j : Nat) : Nat :=
  if r.native = 1 then ((j % r.tc) * r.tr + i % r.tr) * r.e else ((i % r.tr) * r.tc + j % r.tc) * r.e
/-- The element at an in-tile offset of a tile. -/
def Region.elemAt (r : Region) (t off : Nat) : Nat × Nat :=
  let k := off / r.e
  let (a, b) := if r.native = 1 then (k % r.tr, k / r.tr) else (k / r.tc, k % r.tc)
  (t / r.across * r.tr + a, t % r.across * r.tc + b)

/-- The offset of element (i, j) in a view (R286): 0 row-major, 1 column-major, 2 tiled, 3 store (its block). -/
def Region.viewOff (r : Region) (view i j : Nat) : Nat :=
  match view with
  | 0 => (i * r.cols + j) * r.e
  | 1 => (j * r.rows + i) * r.e
  | 2 => r.tile i j * 2048 + r.inTile i j
  | _ => r.tile i j * 2048 + r.inTile i j / 2 / 16 * sxBytes r.fmt

/-- The size of a view (R266, R288). -/
def Region.viewSize (r : Region) (view : Nat) : Nat :=
  if view < 2 then r.rows * r.cols * r.e else r.tiles * 2048

/-- The element at an offset of a row-major, column-major or tiled view. -/
def Region.elemOf (r : Region) (view off : Nat) : Nat × Nat :=
  let k := off / r.e
  match view with
  | 0 => (k / r.cols, k % r.cols)
  | 1 => (k % r.rows, k / r.rows)
  | _ => r.elemAt (off / 2048) (off % 2048)

/-- The channel of a tile (R285). -/
def Region.channel (r : Region) (t : Nat) : Nat :=
  ((t % 256 ^^^ t / 256 % 256 ^^^ t / 65536 % 256 ^^^ t / 16777216 % 256) + r.choff) % 256

/-- The DRAM row of a tile (R285). -/
def Region.row (r : Region) (t : Nat) : Nat := r.rowbase + t / 256
/-- The DRAM rows that a region takes in every channel (R285). -/
def Region.rowsTaken (r : Region) : Nat := (r.tiles + 255) / 256

/-- The view a region calls native: the store view for a decode region (R286, R287). -/
def Region.nativeView (r : Region) : Nat := if r.decode then 3 else r.native

/-- The location of a byte of a region's store. -/
def storeLoc (n off : Nat) : Nat := 2 ^ 48 + n * 2 ^ 38 + off

/-- What a physical address names. -/
inductive Place where
  /-- a byte with a location of its own -/
  | byte (loc : Nat)
  /-- byte `b` of an element as a decode view presents it (R287) -/
  | decoded (n i j b : Nat)
  /-- a byte of a store that lies outside its scale region's rows and columns: it reads as zero (R288) -/
  | pad
  /-- a byte of a joined peer's memory that the peer does not admit (R352) -/
  | refused
  /-- nothing (R266) -/
  | unmapped
  deriving DecidableEq, Repr

/-- The HBM channel of an ordinary physical address (R270). -/
def channelOf (pa : Nat) : Nat :=
  pa / 2 ^ 8 % 256 ^^^ pa / 2 ^ 16 % 256 ^^^ pa / 2 ^ 24 % 256 ^^^ pa / 2 ^ 32 % 256 ^^^ pa / 2 ^ 40 % 256

/-- The local offset of an ordinary physical address in its channel (R270). -/
def channelOffset (pa : Nat) : Nat := pa / 2 ^ 16 % 2 ^ 23 * 256 + pa % 2 ^ 8

/-- The DRAM row of an ordinary physical address in its channel: a row is 2 KiB (R285). -/
def rowOf (pa : Nat) : Nat := channelOffset pa / 2048

/-- Whether a row of every channel is lent to a region's store (R285). -/
def rowLent (s : State) (n : Nat) : Bool :=
  s.regions.any (fun q => decide (q.2.row 0 ≤ n ∧ n < q.2.row 0 + q.2.rowsTaken))

/-- Whether an HBM channel is not there: it, or its stack, is absent or retired in the resource map (R266, R346). -/
def channelRetired (s : State) (n : Nat) : Bool :=
  let gone (k : Nat) : Bool := mapState s k == 3 || mapState s k == 0
  gone (12320 + n) || gone (12288 + n / 32)

/-- Whether a region's store still has the tile of a byte: its channel is there (R285, R346). -/
def tileThere (s : State) (r : Region) (off : Nat) : Bool := !channelRetired s (r.channel (off / 2048))

/-- What a physical address names (R266, Table 10.1); a region's tile on a channel that has been retired is lost (R346), and so is the
SRAM of a pool or core that is not there. -/
def place (s : State) (pa : Nat) : Place :=
  if 2 ^ 48 ≤ pa then .unmapped else
  match pa / 2 ^ 46 with
  | 0 => if pa < 2 ^ 39 && !rowLent s (rowOf pa) && !channelRetired s (channelOf pa) then .byte pa else .unmapped
  | 1 =>
    let n := pa / 2 ^ 40 % 64
    if n = 0 then .byte pa
    else if (kfind s.keeper.peers n).isNone then .unmapped
    else if Config.peerAdmits n (pa % 2 ^ 40) then .byte pa else .refused
  | 2 =>
    let view := pa / 2 ^ 44 % 4
    let n := pa / 2 ^ 38 % 64
    let off := pa % 2 ^ 38
    match kfind s.regions n with
    | none => .unmapped
    | some r =>
      if r.viewSize view ≤ off then .unmapped
      else if view = 3 then (if r.decode && tileThere s r off then .byte (storeLoc n off) else .unmapped)
      else
        let (i, j) := r.elemOf view off
        if !tileThere s r (r.tile i j * 2048) then .unmapped
        else if r.decode then .decoded n i j (off % 2)
        else if view = 2 then (if i < r.rows && j < r.cols then .byte (storeLoc n off) else .pad)
        else .byte (storeLoc n (r.tile i j * 2048 + r.inTile i j + off % r.e))
  | _ =>
    let p := pa / 2 ^ 39 % 128
    let off := pa % 2 ^ 23
    if 96 ≤ p || pa / 2 ^ 23 % 2 ^ 16 ≠ 0 || !unitLive s (16 + p) then .unmapped
    else if off < 2 ^ 21 then .byte pa
    else if off < 2 ^ 22 then .unmapped
    else
      let k := (off - 2 ^ 22) / 2 ^ 18
      if !unitLive s (128 + p * 16 + k) then .unmapped else
      let steps := min 8 (field (core s (p * 16 + k)).lscfg 0 4)
      if off % 2 ^ 18 < 2 ^ 18 - 2 ^ 15 * steps then .byte pa else .unmapped

/-- Whether a physical address is in region-aperture space (R116). -/
def inRegions (pa : Nat) : Bool := pa / 2 ^ 46 == 2
/-- Whether a physical address is in a pool aperture. -/
def inPools (pa : Nat) : Bool := pa / 2 ^ 46 == 3
/-- Whether a location is host or peer memory. -/
def offPart (loc : Nat) : Bool := loc % 2 ^ 50 / 2 ^ 46 == 1
/-- The location of a byte of host memory for a function: each function's accesses carry its requester ID, by which the host keeps
the functions' memory apart (R347; log 28). -/
def hostLoc (fn off : Nat) : Nat := fn * 2 ^ 50 + 2 ^ 46 + off
/-- What a place is for a function's accesses: host memory is the function's own (R347). -/
def Place.forFn (fn : Nat) : Place → Place
  | .byte l => if l / 2 ^ 40 = 2 ^ 6 then .byte (hostLoc fn (l % 2 ^ 40)) else .byte l
  | p => p
/-- Whether an address is in a non-native view of a region (R286). -/
def nonNative (s : State) (pa : Nat) : Bool :=
  inRegions pa && match kfind s.regions (pa / 2 ^ 38 % 64) with
    | some r => r.nativeView != pa / 2 ^ 44 % 4
    | none => false

/-- The physical address of a location in its region's native view; an ordinary location is its own (R92, R285). -/
def nativePa (s : State) (loc : Nat) : Nat :=
  if loc % 2 ^ 50 < 2 ^ 48 then loc % 2 ^ 50 else
  let n := (loc - 2 ^ 48) / 2 ^ 38
  let off := loc % 2 ^ 38
  match kfind s.regions n with
  | none => loc
  | some r =>
    let v := r.nativeView
    if v = 3 || v = 2 then 2 * 2 ^ 46 + v * 2 ^ 44 + n * 2 ^ 38 + off
    else
      let (i, j) := r.elemAt (off / 2048) (off % 2048)
      2 * 2 ^ 46 + v * 2 ^ 44 + n * 2 ^ 38 + r.viewOff v i j + off % r.e

/-- The granule of a location: 256 bytes of its native view (R92, R270). -/
def granule (s : State) (loc : Nat) : Nat := nativePa s loc / 256

/-- The channel that holds a location: the hash, or its tile's channel (R270, R285). -/
def homeChannel (s : State) (loc : Nat) : Nat :=
  if loc % 2 ^ 50 < 2 ^ 48 then channelOf (loc % 2 ^ 50) else
  match kfind s.regions ((loc - 2 ^ 48) / 2 ^ 38) with
  | some r => r.channel (loc % 2 ^ 38 / 2048)
  | none => 0

/-- The home memory die of a location (R270). -/
def homeOf (s : State) (loc : Nat) : Nat := homeChannel s loc / 32

/-- The x of R271. -/
def hashX (pa : Nat) : Nat := pa / 2 ^ 7 % 2 ^ 16 ^^^ pa / 2 ^ 23 % 2 ^ 16 ^^^ pa / 2 ^ 39 % 2 ^ 9

/-- The L2 slice and set of a physical address, as one number (R271). -/
def l2Set (pa : Nat) : Nat := hashX pa * 384 / 2 ^ 16 * 128 + pa / 2 ^ 7 % 128

/-- The locations of the block that holds element (i, j) of a decode region (R287, R105). -/
def blockLocs (n : Nat) (r : Region) (i j : Nat) : List Nat := span (storeLoc n (r.viewOff 3 i j)) (sxBytes r.fmt)

/-- The locations of the scale element of element (i, j), where a scale region applies (R287, R288). -/
def scaleLocs (s : State) (r : Region) (i j : Nat) : List Nat :=
  if !r.scaled then [] else
  match kfind s.regions r.scale with
  | none => []
  | some q =>
    let a := i / r.tr
    let b := j / r.tc
    span (storeLoc r.scale (q.tile a b * 2048 + q.inTile a b)) 4

/-- The element (i, j) of a decode region as FP16 (R287), given how a byte of the store reads. -/
def decodeElem (s : State) (get : Nat → Byte) (n i j : Nat) : Nat :=
  match kfind s.regions n with
  | none => 0
  | some r =>
    let bytes := (blockLocs n r i j).map get
    let e := (bytes.getD 0 0).toNat
    let sh := (bytes.getD 1 0).toNat
    let w := sxM r.fmt + 1
    let k := r.inTile i j / 2 % 16
    let v := sxVal r.fmt e sh k (leNat (bytes.drop 2) / 2 ^ (k * w) % 2 ^ w)
    let v := match scaleLocs s r i j with
      | [] => v
      | l => (fprod v (fdecode fmtF32 (leNat (l.map get)))).1
    (fcvt fmtF16 .rne v).1

/-- The locations that what a place reads as depends on: its own, or its block's and its scale element's (R105, R288). -/
def Place.under (s : State) : Place → List Nat
  | .byte l => [l]
  | .decoded n i j _ => match kfind s.regions n with
    | some r => blockLocs n r i j ++ scaleLocs s r i j
    | none => []
  | _ => []

end Sys2Proof.Machine
end

