-- ==== Sys2Proof/Machine/Cache.lean ====
section
/-! DEFINITION. Which lines the caches hold: the L2 sets of each die with retention (R271, R278 to R281), the local
caches and the victim cache of a pool (R273, R275, R276), and what invalidates them (R272, R273, R290). Caches change no
value that an agent reads; what they hold decides dispatch probes (R304) and residency. -/

namespace Sys2Proof.Machine

/-- A way's marks after an access with a hint (R278). -/
def markWay (h : Hint) (x : Way) : Way :=
  match h with
  | .none => x
  | .ef => { x with ef := true, keep := false }
  | .keep => { x with ef := false, keep := true }

/-- The line of a list filled earliest. -/
def earliest : List Way → Option Way
  | [] => none
  | x :: r => match earliest r with
    | none => some x
    | some y => if x.filled ≤ y.filled then some x else some y

/-- The way that a fill takes among the ways it may use (R279); a set's list holds its lines most recently used first. -/
def victimWay (allowed : List Nat) (ways : List Way) : Option Nat :=
  match allowed.find? (fun w => ways.all (fun x => x.way ≠ w)) with
  | some w => some w
  | none =>
    let c := ways.filter (fun x => allowed.contains x.way)
    match earliest (c.filter (·.ef)) with
    | some x => some x.way
    | none => match (c.filter (fun x => !x.keep)).getLast? with
      | some x => some x.way
      | none => c.getLast?.map (·.way)

/-- A line filled into a way of a set; the line that way held is evicted. -/
def fillWay (w : Nat) (h : Hint) (dirty : Bool) (line : Nat) (ways : List Way) : List Way × Option Way :=
  let n := ways.foldl (fun n x => max n (x.filled + 1)) 0
  (markWay h { way := w, line := line, ef := false, keep := false, dirty := dirty, filled := n } ::
    ways.filter (fun x => x.way ≠ w), ways.find? (fun x => x.way = w))

/-- A hit: the line becomes the most recently used and takes the hint's marks. -/
def hitWay (h : Hint) (dirty : Bool) (x : Way) (ways : List Way) : List Way :=
  { markWay h x with dirty := x.dirty || dirty } :: ways.filter (fun y => y.way ≠ x.way)

/-- The line of a set, where it is held. -/
def inSet (line : Nat) (ways : List Way) : Option Way := ways.find? (fun x => x.line = line)

/-- The retention register that tags an access (R281). -/
def retentionTag (s : State) (d c cva : Nat) : Option RetReg :=
  (kvals (die s d).retain).find? (fun r => r.ctx = c && decide (r.base ≤ cva ∧ cva < r.base + r.limit))

/-- Ways of the L2 that a slice still has: none where the map does not show it live (R23, R340). -/
def liveWays (s : State) (d slice : Nat) : Nat :=
  match kfind s.keeper.map (10240 + d * 384 + slice) with
  | some r => if r.state = 1 || r.state = 2 then min 16 r.value else 0
  | none => 16

/-- Copies of a line dropped from the local caches of the cores that `f` picks (R273). -/
def dropLocal (s : State) (f : Nat → Bool) (line : Nat) : State :=
  { s with local1 := s.local1.map (fun p => (p.1, if f (p.1 / 1024) then p.2.filter (fun x => x.line ≠ line) else p.2)) }

/-- A line dropped from the L2 of the dies that `f` picks. -/
def dropL2 (s : State) (f : Nat → Bool) (line : Nat) : State :=
  { s with dies := s.dies.map (fun p => (p.1,
      if f p.1 then { p.2 with l2 := p.2.l2.map (fun q => (q.1, q.2.filter (fun x => x.line ≠ line))) } else p.2)) }

/-- Dirty copies of a line written back, the copies staying clean (R290, cclean; R272, a recall). -/
def cleanL2 (s : State) (f : Nat → Bool) (line : Nat) : State :=
  { s with dies := s.dies.map (fun p => (p.1,
      if f p.1 then { p.2 with l2 := p.2.l2.map (fun q =>
        (q.1, q.2.map (fun x => if x.line = line then { x with dirty := false } else x))) } else p.2)) }

/-- The memory die that is home to the line of a physical address (R270, R285). -/
def lineHome (s : State) (pa : Nat) : Nat := match place s pa with | .byte l => homeOf s l | _ => homeOf s pa

/-- Lines that a memory die's last-level cache slice holds at most: its live MiB (Tables 0.2, 13.2). -/
def llcLines (s : State) (m : Nat) : Nat :=
  match kfind s.keeper.map (12296 + m) with
  | some r => if recLive r then r.value * 8192 else 0
  | none => 64 * 8192

/-- The home last-level cache slice serves a line (R272, R278): it becomes the most recently used there, or the least where
`.ef` brings it in. The manual gives the slice no sets: it is one list of lines here (DESIGN CHOICE, log 11). -/
def llcTouch (s : State) (pa : Nat) (h : Hint) : State :=
  let m := lineHome s pa
  let line := pa / 128
  let l := kget s.llc m []
  let n := llcLines s m
  let l' := if l.contains line then line :: l.filter (· != line)
    else if h = .ef then l.take (n - 1) ++ [line] else line :: l
  { s with llc := kset s.llc m (l'.take n) }

/-- A line dropped from the home last-level cache slices (R290). -/
def llcDrop (s : State) (f : Nat → Bool) : State :=
  { s with llc := s.llc.map (fun p => (p.1, p.2.filter (fun n => !f n))) }

/-- An access of die d's L2 to a line (R279, R281): a hit; or a fill from the home, which first recalls the line from a die that
holds it dirty (R272), and whose victim's local copies are dropped (R273). `tag` is the access's retention register. -/
def l2Access (s : State) (d : Nat) (tag : Option RetReg) (pa : Nat) (h : Hint) (dirty : Bool) : State :=
  let line := pa / 128
  let key := l2Set pa
  let ways := kget (die s d).l2 key []
  match inSet line ways with
  | some x => modDie s d (fun y => { y with l2 := kset y.l2 key (hitWay h dirty x ways) })
  | none =>
    let live := List.range (liveWays s d (key / 128))
    let reserved := (kvals (die s d).retain).flatMap (fun r => span r.way0 r.ways)
    let mine := match tag with
      | some r => (span r.way0 r.ways).find? (fun w => live.contains w && ways.all (fun x => x.way ≠ w))
      | none => none
    let pick := match mine with
      | some w => some w
      | none => victimWay (live.filter (fun w => !reserved.contains w)) ways
    let s := llcTouch (cleanL2 s (· != d) line) pa h
    match pick with
    | none => s
    | some w =>
      let (l, out) := fillWay w h dirty line ways
      let s := modDie s d (fun y => { y with l2 := kset y.l2 key l })
      match out with
      | some o => dropLocal s (fun k => dieOfCore k == d) o.line
      | none => s

/-- Sets of a core's local cache (R275). -/
def localSets (s : State) (k : Nat) : Nat := 32 * min 8 (field (core s k).lscfg 0 4)
/-- Ways a core lends, 0 unless it takes part in its pool's victim cache (R276). -/
def lentWays (s : State) (k : Nat) : Nat :=
  let v := (core s k).vict
  if v.getLsbD 0 && localSets s k != 0 then min 7 (field v 4 4) else 0
/-- The enabled core of a pool that keeps a line's victim copy (R276). -/
def victimCore (s : State) (p pa : Nat) : Option Nat :=
  let on := (span (p * 16) 16).filter (fun k => lentWays s k != 0)
  on[hashX pa % on.length]?
/-- The key of a core's set for a line. The manual does not say which line goes to which set (PRESUMED, log 11). -/
def localKey (s : State) (k pa : Nat) : Nat := k * 1024 + pa / 128 % localSets s k

/-- A line put into the ways `lo` to `hi − 1` of a core's cache set, and the line it evicts. -/
def localPut (s : State) (k pa lo hi : Nat) (h : Hint) : State × Option Way :=
  let key := localKey s k pa
  let ways := kget s.local1 key []
  match victimWay (span lo (hi - lo)) ways with
  | none => (s, none)
  | some w =>
    let (l, out) := fillWay w h false (pa / 128) ways
    ({ s with local1 := kset s.local1 key l }, out)

/-- A line taken out of the lent ways of a core's cache set (R276). -/
def dropVictim (s : State) (j pa : Nat) : State :=
  let key := localKey s j pa
  let ways := (kget s.local1 key []).filter (fun x => x.line != pa / 128 || decide (x.way < 8 - lentWays s j))
  { s with local1 := kset s.local1 key ways }

/-- The enabled core of a core's pool whose lent ways hold a line that the core may take from there (R276). -/
def victimHit (s : State) (k pa : Nat) : Option Nat :=
  if lentWays s k = 0 then none else
  (victimCore s (poolOfCore k) pa).filter (fun j =>
    (kget s.local1 (localKey s j pa) []).any (fun x => x.line == pa / 128 && decide (8 - lentWays s j ≤ x.way)))

/-- A core's own copy of a line: one in the ways that it does not lend (R276). -/
def ownCopy (s : State) (k pa : Nat) : Option Way :=
  if localSets s k = 0 then none else
  (kget s.local1 (localKey s k pa) []).find? (fun x => x.line == pa / 128 && decide (x.way < 8 - lentWays s k))

/-- A core's own copy of a line found by an access: the most recently used, with the hint's marks (R278, R279). -/
def ownHit (s : State) (k pa : Nat) (h : Hint) (x : Way) : State :=
  let key := localKey s k pa
  { s with local1 := kset s.local1 key (hitWay h false x (kget s.local1 key [])) }

/-- A load of core k through its local cache, the victim cache and the L2 (R276, R278). -/
def cachedLoad (s : State) (k : Nat) (tag : Option RetReg) (pa : Nat) (h : Hint) : State :=
  if localSets s k = 0 then l2Access s (dieOfCore k) tag pa h false else
  match ownCopy s k pa with
  | some x => ownHit s k pa h x
  | none =>
    let s := match victimHit s k pa with
      | some j => dropVictim s j pa
      | none => l2Access s (dieOfCore k) tag pa h false
    let (s, out) := localPut s k pa 0 (8 - lentWays s k) h
    match out with
    | none => s
    | some o =>
      if lentWays s k = 0 then s else
      match victimCore s (poolOfCore k) (o.line * 128) with
      | some j => (localPut s j (o.line * 128) (8 - lentWays s j) 8 .none).1
      | none => s

/-- A store of core k: its die's L2 gains the line as owner, and every other die's and pool's copy is dropped (R272, R273);
the core's own copy is updated with it (R273, R278, R279). -/
def cachedStore (s : State) (k : Nat) (tag : Option RetReg) (pa : Nat) (h : Hint) : State :=
  let d := dieOfCore k
  let s := dropL2 s (· != d) (pa / 128)
  let s := dropLocal s (fun j => poolOfCore j != poolOfCore k) (pa / 128)
  let s := l2Access s d tag pa h true
  match ownCopy s k pa with
  | some x => ownHit s k pa h x
  | none => s

/-- A line served at its home: what it does before an atomic, or before a host, peer or non-native write (R272, R105): every
copy of it is dropped. -/
def dropAll (s : State) (pa : Nat) : State :=
  llcTouch (dropLocal (dropL2 s (fun _ => true) (pa / 128)) (fun _ => true) (pa / 128)) pa .none

/-- A line served at its home for a read of the host, a peer or a non-native view: a dirty copy of it is recalled first
(R272, R105). -/
def recallLine (s : State) (pa : Nat) : State := llcTouch (cleanL2 s (fun _ => true) (pa / 128)) pa .none

/-- Whether a tag probe of die d finds the line of a physical address (R304). -/
def l2Hit (s : State) (d pa : Nat) : Bool := (inSet (pa / 128) (kget (die s d).l2 (l2Set pa) [])).isSome

/-- Whether die d's L2 owns the line: it holds it dirty (R272, log 11). -/
def l2Owns (s : State) (d pa : Nat) : Bool :=
  match inSet (pa / 128) (kget (die s d).l2 (l2Set pa) []) with
  | some x => x.dirty
  | none => false

end Sys2Proof.Machine
end

