-- ==== Sys2Proof/Machine/Mem.lean ====
section
/-! DEFINITION. The memory path: segment checks (R116), translation and the causes of one access in their order (R129,
R267), parking (R122), values as an agent sees them (R87, R274), stores and when they may be performed (R80 to R87), what a
store or an atomic does at its home (R92, R98, R105, R272), acquires held by a scope miss (R93), and fetching a word. -/

namespace Sys2Proof.Machine

/-! ### Agents and scopes -/

/-- The core of an agent. -/
def agentCore : Agent → Nat
  | .thread t => coreOf t
  | .ret n => n / 2
/-- The thread an agent is, or its owner. -/
def agentThread (s : State) : Agent → Nat
  | .thread t => t
  | .ret n => (ret s n).owner.getD 0
/-- The context of an agent. -/
def agentCtx (s : State) (a : Agent) : Nat := (thr s (agentThread s a)).ctx
/-- Whether an agent is a Retriever. -/
def agentRet : Agent → Bool
  | .thread _ => false
  | .ret _ => true
/-- The number of an agent in logs (R98). -/
def agentNum : Agent → Nat
  | .thread t => t
  | .ret n => n

/-- The code of a scope (Table 4.1). -/
def scopeNum : Scope → Nat
  | .t => 0 | .c => 1 | .p => 2 | .d => 3 | .k => 4 | .h => 5 | .w => 6

/-- Whether core `j` lies within scope `sc` of core `k` (Table 4.1). -/
def scopeHas (sc k j : Nat) : Bool :=
  match sc with
  | 0 => false
  | 1 => k == j
  | 2 => poolOfCore k == poolOfCore j
  | 3 => dieOfCore k == dieOfCore j
  | _ => true

/-- The narrowest scope of core `k` that contains core `j`. -/
def narrowest (k j : Nat) : Nat :=
  if k = j then 1 else if poolOfCore k = poolOfCore j then 2 else if dieOfCore k = dieOfCore j then 3 else 4

/-! ### Translation and causes -/

/-- What translation finds for one address (R267): no mapping, and whether a malformed entry was met; a page that is not
present; a code page whose check failed (R160); or a page. -/
inductive Xlate where
  | none (bad : Bool)
  | absent
  | integ
  | page (pa : Nat) (kind : BitVec 2) (code w r : Bool)
  deriving DecidableEq, Repr

/-- The walk of R267 over the levels still to go, each given by its shift. -/
def walk (s : State) (cva : Nat) : List Nat → Nat → Xlate
  | [], _ => .none false
  | sh :: rest, table =>
    let e := kget s.pt (table * 4096 + cva / 2 ^ sh % 512 * 8) 0
    let leaf := sh == 21 && e.getLsbD 58
    if !e.getLsbD 0 then .none false
    else if field e 62 2 == 3 || field e 48 10 != 0 || field e 2 10 != 0 || (leaf && field e 12 9 != 0) then .none true
    else if !e.getLsbD 1 then .absent
    else if leaf || rest.isEmpty then
      .page (field e 12 36 * 4096 + cva % 2 ^ sh) (BitVec.ofNat 2 (field e 62 2)) (e.getLsbD 61) (e.getLsbD 60)
        (e.getLsbD 59)
    else walk s cva rest (field e 12 36)

/-- Translation of an address in a context (R267, R160). -/
def xlate (s : State) (c cva : Nat) : Xlate :=
  match ctx? s c with
  | none => .none false
  | some x =>
    if 2 ^ 48 ≤ cva then .none false else
    match walk s cva [39, 30, 21, 12] x.root with
    | .absent =>
      let lo := x.heap.base.toNat
      if lo ≤ cva ∧ cva < lo + x.heap.limit.toNat then
        match kfind x.images ((cva - lo) / 4096) with
        | some i => if i.bad then .integ else .absent
        | none => .absent
      else .absent
    | r => r

/-- Why an access does not go on: a trap, or parking on a page (R122). `bad` marks a malformed table entry. -/
inductive Cause where
  | trap (code info : Nat) (tval : Word) (bad : Bool)
  | park (cva : Nat)
  deriving DecidableEq, Repr

/-- Who asks: context, segment number, access (0 read, 1 write, 2 atomic, 3 fetch), right V, segment base, whether it
is a frame access, which R310 checks against no segment and admits to apertures, and the page that the agent's wake told it has
no mapping (R122). -/
structure Chk where
  c : Nat
  sg : Nat
  acc : Nat
  v : Bool
  base : Nat
  frame : Bool
  lost : Option Nat
  deriving DecidableEq, Repr

/-- Whether a page denies an access, or has nothing at that address (R266, R267, R287, R352). -/
def denied (s : State) (acc : Nat) : Xlate → Bool
  | .page pa _ code w r =>
    let rights := match acc with | 0 => r | 1 => w | 2 => r && w | _ => code
    !rights || match place s pa with
      | .byte _ => false
      | .decoded _ _ _ _ => acc != 0
      | .pad => false
      | .refused => acc != 1
      | .unmapped => true
  | _ => false

/-- The physical address of a page's answer. -/
def Xlate.pa : Xlate → Nat
  | .page pa _ _ _ _ => pa
  | _ => 2 ^ 48

/-- Step 4 of R129 over the bytes of an access in order, each cause judged for all bytes before the next (R205). TVAL is the first byte
that meets the cause, also where an SX block straddles two pages and only its later bytes do (DESIGN CHOICE, log 38). -/
def judge (s : State) (k : Chk) (l : List Nat) : Option Cause :=
  let xs := l.map (fun a => (a, xlate s k.c a))
  let cvaTrap (sub a : Nat) (bad : Bool) := some (Cause.trap 2 (segvInfo sub k.sg k.acc) (BitVec.ofNat 64 a) bad)
  match xs.find? (fun p => k.lost == some (p.1 / 4096) || match p.2 with | .none _ => true | _ => false) with
  | some (a, x) => cvaTrap 2 a (x == .none true)
  | none =>
  match xs.find? (fun p => p.2 == .integ) with
  | some _ => some (.trap 5 0 0 false)
  | none =>
  match xs.find? (fun p => p.2 == .absent) with
  | some (a, _) => some (.park a)
  | none =>
  match xs.find? (fun p => !k.v && inRegions p.2.pa) with
  | some (a, _) => some (.trap 2 (segvInfo 1 k.sg k.acc) (BitVec.ofNat 64 (a - k.base)) false)
  | none =>
  match xs.find? (fun p => denied s k.acc p.2) with
  | some (a, _) => cvaTrap 3 a false
  | none =>
  match xs.find? (fun p => k.acc == 2 && !k.frame && (inPools p.2.pa || nonNative s p.2.pa)) with
  | some (a, _) => cvaTrap 5 a false
  | none => none

/-- The core's checks of R116 on `n` bytes at an offset. -/
def segCheck (g : Seg) (sg off n acc : Nat) : Option Cause :=
  let ok := match acc with | 0 => g.r | 1 => g.w | 2 => g.r && g.w | _ => g.x
  if !ok then some (.trap 2 (segvInfo 1 sg acc) (BitVec.ofNat 64 off) false)
  else if g.limit.toNat < off + n then some (.trap 2 (segvInfo 0 sg acc) (BitVec.ofNat 64 off) false)
  else none

/-- ALIGN at an offset (Table 5.9). -/
def alignCause (acc : Nat) (off : Word) : Cause := .trap 3 (acc * 128) off false

/-- The page that the issuing agent's wake told it has no mapping (R122). -/
def lostPage (s : State) : Option Nat :=
  match s.cur with
  | .thread t => (thr s t).noPage
  | .ret n => (ret s n).noPage

/-- The request of the issuing agent through segment register `sg`. -/
def chkOf (s : State) (sg : BitVec 3) (acc : Nat) : Chk :=
  { c := myCtx s, sg := sg.toNat, acc := acc, v := (seg s sg).v, base := (seg s sg).base.toNat, frame := false
    lost := lostPage s }

/-- The cause that stops a scalar access of `n` bytes at an offset, which must be a multiple of `al` (R121, R129). -/
def scalarCause (s : State) (sg : BitVec 3) (off : Word) (n acc al : Nat) : Option Cause :=
  let g := seg s sg
  match segCheck g sg.toNat off.toNat n acc with
  | some c => some c
  | none =>
    if (g.base.toNat + off.toNat) % al ≠ 0 then some (alignCause acc off)
    else judge s (chkOf s sg acc) (span (g.base.toNat + off.toNat) n)

/-- A page-not-present report filed for a context's page, once (R122, R269). -/
def fileReport (s : State) (c page : Nat) : State :=
  match ctx? s c with
  | none => s
  | some x =>
    if x.reports.contains page then s
    else owe (modCtx s c (fun x => { x with reports := x.reports ++ [page] })) [ev .pageReport c page]

/-- The issuing agent parks on the page of an address (R122). -/
def parkHere (s : State) (cva : Nat) : State :=
  let s := if onRet s then s else trace s 3 0 (BitVec.ofNat 64 cva)
  fileReport (setCond s (.parkedPage cva)) (myCtx s) (cva / 4096)

/-- The issuing agent meets a cause: its word traps or parks. -/
def takeCause (s : State) : Cause → State
  | .trap code info tval bad => takeTrap (if bad then countErr s (myCtx s) 4 else s) code info tval
  | .park cva => parkHere s cva

/-! ### Values -/

/-- A byte of an access once translated: its address, physical address, page kind, and what is there. -/
structure ByteRef where
  cva : Nat
  pa : Nat
  kind : BitVec 2
  at_ : Place
  deriving DecidableEq, Repr

/-- The byte at an address of a context, as translation gives it. -/
def byteRef (s : State) (c cva : Nat) : ByteRef :=
  match xlate s c cva with
  | .page pa kind _ _ _ => { cva := cva, pa := pa, kind := kind, at_ := (place s pa).forFn (tenantOf s c) }
  | _ => { cva := cva, pa := 2 ^ 48, kind := 0, at_ := .unmapped }

/-- The location of a byte, 0 where it has none of its own. -/
def ByteRef.loc (b : ByteRef) : Nat := match b.at_ with | .byte l => l | _ => 0
/-- Whether a byte has a location of its own. -/
def ByteRef.has (b : ByteRef) : Bool := match b.at_ with | .byte _ => true | _ => false

/-- The last byte that a list of writes gives a location. -/
def lastWrite (l : List (Nat × Byte)) (loc : Nat) : Option Byte :=
  (l.reverse.find? (fun p => p.1 = loc)).map (·.2)

/-- The writes of a die that stand between its agents and a location: its write queue for host and peer memory (R274), or its
writes of UO pages that no other die's agents see yet (R91). -/
def dieQueue (s : State) (d loc : Nat) : List QWrite :=
  let x := die s d
  if offPart loc then (if loc / 2 ^ 40 % 64 = 0 then x.hostq else x.peerq) else x.uoq

/-- A location as every agent of die `d` may read it: what the die's queued writes give it, or memory. -/
def sharedLoc (s : State) (d loc : Nat) : Byte :=
  ((dieQueue s d loc).reverse.findSome? (fun w => lastWrite w.locs loc)).getD (s.mem.get loc)

/-- A location as an agent of die `d` reads it: its own pending write first (R87). -/
def getLoc (s : State) (a : Agent) (d loc : Nat) : Byte :=
  match (s.stores.reverse.filter (fun p => p.agent = a)).findSome? (fun p => lastWrite p.locs loc) with
  | some b => b
  | none => sharedLoc s d loc

/-- A byte as an engine of die `d` reads it (R99). -/
def readShared (s : State) (d : Nat) (b : ByteRef) : Byte :=
  match b.at_ with
  | .byte loc => sharedLoc s d loc
  | .decoded n i j k => BitVec.ofNat 8 (decodeElem s (sharedLoc s d) n i j / 256 ^ k)
  | _ => 0

/-- A byte as an agent reads it; a decode view gives its element's byte (R287). -/
def readRef (s : State) (a : Agent) (d : Nat) (b : ByteRef) : Byte :=
  match b.at_ with
  | .byte loc => getLoc s a d loc
  | .decoded n i j k => BitVec.ofNat 8 (decodeElem s (getLoc s a d) n i j / 256 ^ k)
  | _ => 0

/-- The bytes of an access of a context that was translated earlier, given its first address: what their places are now. -/
def latchedRefs (s : State) (c cva : Nat) (kind : BitVec 2) (pas : List Nat) : List ByteRef :=
  pas.zipIdx.map (fun p => { cva := cva + p.2, pa := p.1, kind := kind, at_ := (place s p.1).forFn (tenantOf s c) })

/-- Whether a write of a location still waits in a write queue of die `d`, or within the die (R91). -/
def inQueue (s : State) (d : Nat) (locs : List Nat) : Bool :=
  ((die s d).hostq ++ (die s d).peerq ++ (die s d).uoq).any (fun w => w.locs.any (fun p => locs.contains p.1))

/-- The agent has read bytes that wait in its die's queue, or that its die alone sees yet: a later release of it covers queued
ones (R85), and it reads none of them older elsewhere (R90, R106). -/
def noteReads (s : State) (a : Agent) (locs : List Nat) : State :=
  let mark (q : List QWrite) := q.map (fun w =>
    if w.locs.any (fun p => locs.contains p.1) && !w.agents.contains a then { w with agents := w.agents ++ [a] } else w)
  if inQueue s (dieOfCore (agentCore a)) locs then
    modDie s (dieOfCore (agentCore a)) (fun x => { x with hostq := mark x.hostq, peerq := mark x.peerq, uoq := mark x.uoq })
  else s

/-- The locations that the bytes of an access depend on: through a decode view, the whole block and its scale (R105, R288). -/
def underRefs (s : State) (l : List ByteRef) : List Nat := l.flatMap (fun b => b.at_.under s)

/-- An agent that acquires at locations is covered by the releases that wrote them: its own later releases cover the queued
writes that those covered (R85, R89). -/
def joinOps (s : State) (a : Agent) (ops : List Nat) : State :=
  let mark (q : List QWrite) := q.map (fun w =>
    if ops.contains w.op && !w.agents.contains a then { w with agents := w.agents ++ [a] } else w)
  if ops.isEmpty then s
  else modDie s (dieOfCore (agentCore a)) (fun x => { x with hostq := mark x.hostq, peerq := mark x.peerq })

/-- The queued writes that the releases which wrote some locations cover. -/
def coversAt (s : State) (locs : List Nat) : List Nat := (locs.flatMap (fun l => kget s.covers l [])).dedup

/-- The queued writes that a release of an agent covers: its own, those it has read, and those it has acquired (R85). -/
def queuedOps (s : State) (a : Agent) : List Nat :=
  let x := die s (dieOfCore (agentCore a))
  (((x.hostq ++ x.peerq).filter (fun w => w.agents.contains a)).map (·.op)).dedup

/-- What a write does to the covers of its locations (R85, R88): a release leaves what it covers there, a plain write of an
agent ends them, and an atomic, which is part of a release sequence, keeps them. -/
def putCovers (s : State) (locs ops : List Nat) (seq : Bool) : State :=
  if s.covers.isEmpty && ops.isEmpty then s
  else { s with covers := locs.foldl (fun m l =>
      let n := ((if seq then kget m l [] else []) ++ ops).dedup
      if n.isEmpty then kdel m l else kset m l n) s.covers }

/-- Whether some die's queue still holds a write of an instruction. -/
def opQueued (s : State) (op : Nat) : Bool :=
  s.dies.any (fun d => (d.2.hostq ++ d.2.peerq).any (fun w => w.op == op))

/-- A queued write that has left its queue covers nothing any more. -/
def endCover (s : State) (op : Nat) : State :=
  if opQueued s op then s
  else { s with covers := (s.covers.map (fun p => (p.1, p.2.filter (· != op)))).filter (fun p => !p.2.isEmpty) }

/-- Whether a location lies in a poisoned granule (R282). -/
def poisoned (s : State) (loc : Nat) : Bool := (kfind s.poison (granule s loc)).isSome

/-- A written location clears its part of a poison mark; the mark goes once the whole granule has been written (R282). -/
def unpoison (s : State) (loc : Nat) : State :=
  let g := granule s loc
  match kfind s.poison g with
  | none => s
  | some l =>
    let o := nativePa s loc % 256
    let l := if l.contains o then l else o :: l
    { s with poison := if l.length = 256 then kdel s.poison g else kset s.poison g l }

/-! ### Logs -/

/-- A further entry makes the log lose its 4,096th, and the operator had not read it (R289). -/
def lostUnread (log : List ArrEntry) : Bool :=
  match log[4095]? with
  | some x => !x.seen
  | none => false

/-- An event serialised at the home of a location, in the tenant's arrival log while logging is on (R98). `src` is the
source with its context, or none for the host and peers; `gran` is as Table 10.8 gives it. -/
def logArrival (s : State) (tn kind loc gran off len : Nat) (src : Option (Nat × Bool × Nat)) : State :=
  let t := tenant s tn
  if !t.logging then s else
  let h := homeOf s loc
  let seq := kget t.arrSeq h 0
  let old := kget t.arr h []
  let gone := lostUnread old
  let e : ArrEntry :=
    { time := s.time, kind := kind, len := len - 1, off := off
      ctx := match src with | some x => x.1 | none => 0
      byRet := match src with | some x => x.2.1 | none => false
      source := match src with | some x => x.2.2 | none => 0
      gran := gran, seq := seq, seen := false }
  modTenant s tn (fun t => { t with
    arr := kset t.arr h ((e :: old).take 4096)
    arrSeq := kset t.arrSeq h (seq + 1)
    arrLost := if gone then kset t.arrLost h (kget t.arrLost h 0 + 1) else t.arrLost
    arrGone := if gone then t.arrGone + 1 else t.arrGone })

/-- An arrival caused by an agent. -/
def logAgent (s : State) (a : Agent) (kind loc cva len : Nat) : State :=
  let c := agentCtx s a
  logArrival s (tenantOf s c) kind loc (cva / 256) (nativePa s loc % 256) len (some (c, agentRet a, agentNum a))

/-- An atomic whose effect was applied and whose response failed, in the tenant's outcome log (R289). -/
def logOutcome (s : State) (a : Agent) (loc cva : Nat) (cas vamo wide : Bool) (time : Nat) (old : Word) : State :=
  let x := thr s (agentThread s a)
  let e : OutEntry := { source := agentNum a, byRet := agentRet a, owner := agentThread s a, task := x.task, cva := cva
                        cas := cas, vamo := vamo, wide := wide, time := time, old := old }
  let h := homeOf s loc
  modTenant s (tenantOf s x.ctx) (fun t => { t with out := kset t.out h ((e :: kget t.out h []).take 256) })

/-! ### Release marks and scope misses -/

/-- The CVA of the aligned doubleword of a location: in its native view's aperture for a region (R94). -/
def markCva (s : State) (loc cva : Nat) : Nat :=
  if loc < 2 ^ 48 then cva / 8 * 8 else
  let pa := nativePa s loc
  match kfind s.regions (pa / 2 ^ 38 % 64) with
  | some r => r.cva + pa / 2 ^ 44 % 4 * 2 ^ 38 + pa % 2 ^ 38 / 8 * 8
  | none => cva / 8 * 8

/-- What a release of a scope does to the mark of its granule (R92): scopes .c to .h set it, .t and .w clear it; releases
to host or peer memory leave none (R366). -/
def releaseMark (s : State) (a : Agent) (sc loc cva : Nat) : State :=
  if offPart loc then s
  else if sc = 0 || sc = 6 then
    if (kfind s.marks (granule s loc)).isSome then putMark s (granule s loc) none else s
  else putMark s (granule s loc) (some { scope := sc, core := agentCore a, ctx := agentCtx s a
                                         dw := nativePa s loc % 256 / 8, cva := markCva s loc cva })

/-- Whether a scope-miss message names a granule: at a router, queued, or being served (R93). -/
def missOut (s : State) (g : Nat) : Bool :=
  s.router.any (fun p => p.2.granule == g) ||
    s.cores.any (fun p => p.2.smq.any (fun m => m.granule == g) ||
      match p.2.serving with | some m => m.granule == g | none => false)

/-- A scope-miss message sent to the marked core: into its queue of 16, or held at its router (R94). The scope that is needed takes
in every acquirer held on the granule, and is .w where a peer is one (R93). -/
def sendMiss (s : State) (g : Nat) (m : Mark) : State :=
  let needed := (heldOn s g).foldl (fun n a => max n (narrowest m.core (agentCore a)))
    (if s.peerHeld.any (fun p => p.1 == g) then 6 else 0)
  let msg : ScopeMsg := { granule := g, cva := m.cva, ctx := m.ctx, needed := needed, markScope := m.scope }
  let s := if (core s m.core).smq.length < 16 then modCore s m.core (fun x => { x with smq := x.smq ++ [msg] })
    else { s with router := s.router ++ [(m.core, msg)] }
  owe s [ev .scopeMissMessage m.core]

/-- The granule and mark that hold an acquire of locations by an agent (R93). -/
def missOf (s : State) (a : Agent) (locs : List Nat) : Option (Nat × Mark) :=
  locs.findSome? (fun l => match kfind s.marks (granule s l) with
    | some m => if scopeHas m.scope m.core (agentCore a) then none else some (granule s l, m)
    | none => none)

/-- The issuing agent's acquire is held on a granule (R93). -/
def holdAcquire (s : State) (g : Nat) (m : Mark) : State :=
  let s := setCond s (.heldAcquire g)
  if missOut s g then s else sendMiss s g m

/-! ### Stores and atomics -/

/-- Whether an agent's own or observed writes still stand in a write queue of its die (R274, R85). -/
def queued (s : State) (a : Agent) : Bool :=
  let x := die s (dieOfCore (agentCore a))
  (x.hostq ++ x.peerq).any (fun w => w.agents.contains a)

/-- Whether an access must wait for its agent's own SO writes that still stand in a write queue, since agents of other dies do
not see them yet (R80). A write that goes wholly to the same queue follows them there. -/
def soQueued (s : State) (a : Agent) (write : Bool) (locs : List Nat) : Bool :=
  let x := die s (dieOfCore (agentCore a))
  let so (q : List QWrite) : Bool := q.any (fun w => w.so && w.writer == some a)
  let goes (peer : Bool) : Bool := write && locs.all (fun l => offPart l && (l / 2 ^ 40 % 64 != 0) == peer)
  (so x.hostq && !goes false) || (so x.peerq && !goes true)

/-- Whether an access of an agent must wait for earlier stores of its own (R80, R84 to R87): one of the same location, an
SO store before an SO access, and before a release all on SO and RC pages, and at .k or wider the queued writes it covers. -/
def mustWait (s : State) (a : Agent) (earlier : List PStore) (kind : BitVec 2) (write : Bool) (locs : List Nat)
    (rel : Option Nat) : Bool :=
  let frees := match rel with | some sc => sc != 0 && kind != 2 | none => false
  earlier.any (fun p => p.agent == a &&
      ((write && p.locs.any (fun q => locs.contains q.1)) || (kind == 0 && p.kind == 0) || (frees && p.kind != 2))) ||
    (frees && (match rel with | some sc => decide (4 ≤ sc) | none => false) && queued s a) ||
    (kind == 0 && soQueued s a write locs)

/-- The scope at which a release is performed, by where its first byte lies (R366). -/
def relScope (sc loc : Nat) : Nat :=
  if offPart loc then (if loc / 2 ^ 40 % 64 = 0 then max sc 5 else 6) else sc

/-- Bytes put into memory, and what that does to poison marks (R282). -/
def putBytes (s : State) (l : List (Nat × Byte)) : State :=
  let s := { s with mem := s.mem.setAll l }
  if s.poison.isEmpty then s else l.foldl (fun s p => unpoison s p.1) s

/-- Whether a location lies in a granule of some others. -/
def sharesGranule (s : State) (locs : List Nat) (loc : Nat) : Bool := (locs.map (granule s)).contains (granule s loc)

/-- What dies that `f` picks hold for themselves of the granules of some locations comes home: ownership moves through the home, and
an access that is served there recalls an owner first (R97, R272). No single-copy atomic piece reaches beyond one granule (R78), so
none is torn. -/
def recallUo (s : State) (f : Nat → Bool) (locs : List Nat) : State :=
  let hits (q : Nat × Byte) : Bool := sharesGranule s locs q.1 && !offPart q.1
  let l := ((s.dies.map (·.1)).dedup.filter f).flatMap (fun d => (die s d).uoq.flatMap (fun w => w.locs.filter hits))
  if l.isEmpty then s
  else putBytes { s with dies := s.dies.map (fun p => (p.1, if f p.1 then
      { p.2 with uoq := p.2.uoq.map (fun w => { w with locs := w.locs.filter (fun q => !hits q) }) } else p.2)) } l

/-- Bytes land at their homes. What dies held for themselves of their granules comes before them in coherence order (R90, R91,
R97). -/
def landBytes (s : State) (l : List (Nat × Byte)) : State := putBytes (recallUo s (fun _ => true) (l.map (·.1))) l

/-- The cached lines that hold some locations: apertures are not cached (R273). -/
def linesOf (s : State) (locs : List Nat) : List Nat :=
  ((locs.map (nativePa s)).filter (fun pa => !inPools pa)).map (· / 128) |>.dedup

/-- The lines that a store's bytes touch: the first location in each, the address of that byte, and how many bytes. -/
def lineRuns (s : State) (cva : Nat) (locs : List Nat) : List (Nat × Nat × Nat) :=
  let ix := locs.zipIdx.map (fun p => (nativePa s p.1 / 128, p.1, cva + p.2))
  ((ix.map (·.1)).dedup).filterMap (fun n =>
    let m := ix.filter (fun x => x.1 == n)
    m.head?.map (fun x => (x.2.1, x.2.2, m.length)))

/-- What a write does to the caches: its die's L2 gains the lines, each under the retention tag of its own address, or, served at
the home, every copy of them is dropped (R272, R281); apertures, host and peer memory are not cached (R273, R274). A copy engine's writes carry no retention tag. -/
def ownLines (s : State) (a : Agent) (copy : Bool) (locs : List Nat) (cva : Nat) (h : Hint) (home : Bool) : State :=
  let k := agentCore a
  let d := dieOfCore k
  let c := agentCtx s a
  ((lineRuns s cva locs).filter (fun r => !inPools (nativePa s r.1) && !offPart r.1)).foldl (fun s r =>
    let line := nativePa s r.1 / 128 * 128
    if home then dropAll s line
    else cachedStore s k (if copy then none else retentionTag s d c r.2.1) line h) s

/-- A plain, release or atomic write of locations applied at the home: bytes, poison marks and caches (R272, R282). -/
def writeHome (s : State) (a : Agent) (l : List (Nat × Byte)) (cva : Nat) (h : Hint) (home : Bool) : State :=
  ownLines (landBytes s l) a false (l.map (·.1)) cva h home

/-- The arrivals that a store's bytes with a home in the package cause (R98): one for a write through a non-native view, and an
ownership grant for each line that the writing die's L2 does not own. -/
def logStore (s : State) (p : PStore) (locs : List Nat) : State :=
  match locs with
  | [] => s
  | q :: _ =>
    if p.view then logAgent s p.agent 3 q p.cva locs.length
    else if inPools q then s
    else ((lineRuns s p.cva locs).filter (fun r => !l2Owns s (dieOfCore (agentCore p.agent)) (nativePa s r.1))).foldl
      (fun s r => logAgent s p.agent 0 r.1 r.2.1 r.2.2) s

/-- The entry of a store in a queue. -/
def PStore.entry (s : State) (p : PStore) (l : List (Nat × Byte)) : QWrite :=
  { op := p.op, ctx := agentCtx s p.agent, page := p.cva / 4096, so := p.kind == 0
    writer := if p.copy then none else some p.agent, agents := if p.copy then [] else [p.agent], locs := l }

/-- Host and peer bytes of a store enter the queues of its die (R274). -/
def enqueue (s : State) (p : PStore) (off : List (Nat × Byte)) : State :=
  let d := dieOfCore (agentCore p.agent)
  let add (peer : Bool) (q : List QWrite) :=
    match off.filter (fun w => (w.1 / 2 ^ 40 % 64 != 0) == peer) with
    | [] => q
    | l => q ++ [p.entry s l]
  if off.isEmpty then s else
    let s' := modDie s d (fun x => { x with hostq := add false x.hostq, peerq := add true x.peerq })
    owe s' ((if (die s' d).hostq.length = (die s d).hostq.length then [] else [ev .hostWriteQueueDrain d]) ++
      (if (die s' d).peerq.length = (die s d).peerq.length then [] else
        [(.hostWriteQueueDrain, { Msg.empty with a := d, flag := true })]))

/-- A store performed: host and peer bytes enter the die's queue (R274), the rest go to their homes; a release then sets
its mark (R92). -/
def performStore (s : State) (p : PStore) : State :=
  let off := p.locs.filter (fun q => offPart q.1)
  let here := p.locs.filter (fun q => !offPart q.1)
  let locs := here.map (·.1)
  let ops := match p.rel with | some sc => if sc = 0 || p.kind = 2 then [] else queuedOps s p.agent | none => []
  let s := ownLines (landBytes (logStore s p locs) here) p.agent p.copy locs p.cva p.hint p.view
  let s := putCovers (enqueue s p off) locs ops false
  match p.rel with
  | some sc => if p.kind = 2 then s else releaseMark s p.agent sc ((p.locs.map (·.1)).headD 0) p.cva
  | none => s

/-- Whether a store may show to the agents of its die before those of others: a plain store of a UO page to a cached place
(R91). -/
def staysInDie (p : PStore) : Bool :=
  p.kind == 2 && p.rel.isNone && !p.view && !p.copy && !p.locs.isEmpty && p.locs.all (fun q => !offPart q.1 && !inPools q.1)

/-- Such a store performed within its die: its lines are the die's, which other dies give up, its bytes are seen there, and no
other agent sees them yet (R91, R97). -/
def performInDie (s : State) (p : PStore) : State :=
  let locs := p.locs.map (·.1)
  let d := dieOfCore (agentCore p.agent)
  let s := recallUo s (· != d) locs
  let s := ownLines (logStore s p locs) p.agent false locs p.cva p.hint false
  let s := modDie (putCovers s locs [] false) d (fun x => { x with uoq := x.uoq ++ [{ p.entry s p.locs with agents := [] }] })
  owe s [(.storeAcknowledged, { Msg.empty with a := d, flag := true })]

/-- Whether entry `i` of a die's writes that stay within it may go on to the home: no earlier one there has a location of
it (R90). -/
def mayLeave (s : State) (d i : Nat) : Bool :=
  match (die s d).uoq[i]? with
  | none => false
  | some w => !((die s d).uoq.take i).any (fun v => v.locs.any (fun p => (w.locs.map (·.1)).contains p.1))

/-- Entry `i` of those writes performed at its home: every agent sees it. -/
def leaveDie (s : State) (d i : Nat) : State :=
  match (die s d).uoq[i]? with
  | none => s
  | some w =>
    putBytes (modDie s d (fun x => { x with uoq := x.uoq.eraseIdx i })) w.locs

/-- Whether writes of an agent are seen within its die alone (R91): a FENCE of .k or wider waits for them (R86). -/
def inDieOnly (s : State) (a : Agent) : Bool :=
  (die s (dieOfCore (agentCore a))).uoq.any (fun w => w.writer == some a)

/-- Whether an agent has read writes that its die alone sees yet (R91). -/
def readInDie (s : State) (a : Agent) : Bool :=
  (die s (dieOfCore (agentCore a))).uoq.any (fun w => w.agents.contains a)

/-- Whether writes of an agent's own still wait in a write queue of its die (R274), or are seen within its die alone (R91). -/
def ownQueued (s : State) (a : Agent) : Bool :=
  let x := die s (dieOfCore (agentCore a))
  (x.hostq ++ x.peerq ++ x.uoq).any (fun w => w.writer == some a)

/-- Whether entry `i` of the pending stores may be performed now (R80 to R87). The pieces of one instruction are unordered among
themselves, but for those that write one location (R78). -/
def mayPerform (s : State) (i : Nat) : Bool :=
  match s.stores[i]? with
  | none => false
  | some p =>
    let locs := p.locs.map (·.1)
    !mustWait s p.agent ((s.stores.take i).filter (fun q => q.op != p.op)) p.kind true locs
        (p.rel.map (fun sc => relScope sc (locs.headD 0))) &&
      !(s.stores.take i).any (fun q => q.agent == p.agent && q.locs.any (fun r => locs.contains r.1))

/-- Entry `i` of the pending stores performed and removed. -/
def performAt (s : State) (i : Nat) : State :=
  match s.stores[i]? with
  | none => s
  | some p => performStore { s with stores := s.stores.eraseIdx i } p

/-- How many stores of an agent pend. -/
def pendingOf (s : State) (a : Agent) : Nat := (s.stores.filter (fun p => p.agent = a)).length

/-- An agent's pending stores performed while one may be, `fuel` times at most. -/
def drainStores (a : Agent) : Nat → State → State
  | 0, s => s
  | n + 1, s =>
    match (List.range s.stores.length).find? (fun i =>
        (match s.stores[i]? with | some p => p.agent == a | none => false) && mayPerform s i) with
    | some i => drainStores a n (performAt s i)
    | none => s

/-- Bytes of a store cut wherever two neighbours do not join. -/
def cutWhere (joins : ByteRef → ByteRef → Bool) : List (ByteRef × Byte) → List (List (ByteRef × Byte))
  | [] => []
  | x :: r => match cutWhere joins r with
    | (y :: l) :: m => if joins x.1 y.1 then (x :: y :: l) :: m else [x] :: (y :: l) :: m
    | m => [x] :: m

/-- Whether a byte begins an element of a non-native view, which is a piece of its own (R77). -/
def startsElem (s : State) (r : ByteRef) : Bool :=
  nonNative s r.pa && match kfind s.regions (r.pa / 2 ^ 38 % 64) with
    | some g => r.pa % 2 ^ 38 % g.e == 0
    | none => false

/-- The pieces of a scalar store (R77, R83): one, cut at a page boundary; a misaligned one is atomic only by the byte, and through
a non-native view each element is a piece. -/
def scalarPieces (s : State) (aligned : Bool) (l : List (ByteRef × Byte)) : List (List (ByteRef × Byte)) :=
  cutWhere (fun x y => x.cva / 4096 == y.cva / 4096 && !startsElem s y && (aligned || nonNative s x.pa)) l

/-- The pieces of a vector store or of a copy's chunk (R77). -/
def vectorPieces (s : State) (l : List (ByteRef × Byte)) : List (List (ByteRef × Byte)) :=
  (cutWhere (fun x y => y.cva == x.cva + 1 && x.cva / 256 == y.cva / 256 && !startsElem s y) l).flatMap
    (fun r => chunksOf 128 r.length r)

/-- A piece as a store of an agent, one of the instruction that `nextId` numbers. -/
def pieceStore (s : State) (a : Agent) (rel : Option Nat) (h : Hint) (l : List (ByteRef × Byte)) : PStore :=
  let r := match l with | x :: _ => x.1 | [] => byteRef s 0 (2 ^ 48)
  { agent := a, op := s.nextId, copy := false, locs := l.map (fun p => (p.1.loc, p.2)), kind := r.kind, rel := rel, cva := r.cva
    hint := h, view := nonNative s r.pa }

/-- Pieces of a store accepted (R121): they pend, and are performed at once unless responses are left outstanding. -/
def acceptPieces (s : State) (a : Agent) (ps : List PStore) : State :=
  let before := pendingOf s a
  let s := { s with stores := s.stores ++ ps, nextId := s.nextId + 1 }
  let s := if s.defer then s else drainStores a s.stores.length s
  owe s (List.replicate (pendingOf s a - before) (evA .storeAcknowledged a))

/-- Bytes that a peer does not admit are counted and dropped (R352). -/
def countRefused (s : State) (c : Nat) (bytes : List (ByteRef × Byte)) : State :=
  if bytes.any (fun p => p.1.at_ == .refused) then countErr s c 5 else s

/-- A scalar store accepted (R121). -/
def acceptStore (s : State) (a : Agent) (bytes : List (ByteRef × Byte)) (rel : Option Nat) (h : Hint) : State :=
  let first := match bytes with | p :: _ => p.1.cva | [] => 0
  let ps := (scalarPieces s (first % bytes.length == 0) (bytes.filter (fun p => p.1.has))).map (pieceStore s a rel h)
  acceptPieces (countRefused s (agentCtx s a) bytes) a ps

/-- An atomic's locations, its old value given, at the home (R103, R145), or at the bank of an aperture (R308): logged, unless its
memory has no home in the package (R366), applied, its release part taken. `new` is none where nothing is written (a failed CAS): the
line is recalled, and its copies stay (R272). -/
def performAtomic (s : State) (a : Agent) (refs : List ByteRef) (new : Option (List Byte)) (rel : Option Nat) : State :=
  match refs with
  | [] => s
  | r :: _ =>
    let s := if offPart r.loc || inPools r.loc then s else logAgent s a 2 r.loc r.cva refs.length
    let ops := match rel with | some sc => if sc = 0 || r.kind = 2 then [] else queuedOps s a | none => []
    match new with
    | none => if inPools (nativePa s r.loc) || offPart r.loc then s else recallLine s (nativePa s r.loc / 128 * 128)
    | some l =>
      let locs := refs.map (·.loc)
      let s := putCovers (writeHome s a (locs.zip l) r.cva .none true) locs ops true
      match rel with
      | some sc => if r.kind = 2 then s else releaseMark s a sc r.loc r.cva
      | none => s

/-- What reads of some bytes bring home: an access through a non-native view is served at the home, which first recalls the dirty
native data that it depends on (R105, R272). -/
def served (s : State) (refs : List ByteRef) : State :=
  recallUo s (fun _ => true) (underRefs s (refs.filter (fun b => nonNative s b.pa)))

/-- What a read that an engine of die `d` makes does to the caches: lines of ordinary memory and native views go through the die's L2
without a retention tag (R281), and those that it depends on under a non-native view are recalled and served at the home (R105,
R272). -/
def touchEngine (s : State) (d : Nat) (refs : List ByteRef) : State :=
  let native := refs.filter (fun b => b.has && !inPools b.pa && !offPart b.pa && !nonNative s b.pa)
  let views := linesOf s (underRefs s (refs.filter (fun b => nonNative s b.pa)))
  let s := ((native.map (fun b => b.pa / 128)).dedup).foldl (fun s n => l2Access s d none (n * 128) .none false) s
  views.foldl (fun s n => recallLine s (n * 128)) s

/-- What a load does to the caches (R276, R278): lines of ordinary memory and native views go through them; those that an access
through a non-native view depends on are recalled, and served at the home (R105, R288). -/
def touchLoad (s : State) (a : Agent) (refs : List ByteRef) (h : Hint) : State :=
  let k := agentCore a
  let ok := refs.filter (fun b => b.has && !inPools b.pa && !offPart b.pa && !nonNative s b.pa)
  let lines := (ok.map (fun b => b.pa / 128)).dedup
  let s' := lines.foldl (fun s n =>
    let cva := match ok.find? (fun b => b.pa / 128 = n) with | some b => b.cva | none => 0
    cachedLoad s k (retentionTag s (dieOfCore k) (agentCtx s a) cva) (n * 128) h) s
  (linesOf s (underRefs s (refs.filter (fun b => nonNative s b.pa)))).foldl (fun s n => recallLine s (n * 128)) s'

/-! ### Scalar loads and fetches -/

/-- What an acquire of bytes needs to know of them: the locations that can form an edge (R83). -/
def acqLocs (s : State) (refs : List ByteRef) : List Nat := underRefs s (refs.filter (fun r => r.kind != 2))

/-- The bytes of a load as its agent reads them now, all at one instant, also where its pieces are atomic only by the byte or lie in
two pages (R77; log 2): an acquire is held by a scope miss (R93), a poisoned byte takes INTEG (R282),
and an acquire that completes covers what the releases it reads cover (R85). -/
def readBytes (s : State) (acq : Bool) (refs : List ByteRef) (fin : State → List Byte → State) : State :=
  let locs := underRefs s refs
  match (if acq then missOf s s.cur (acqLocs s refs) else none) with
  | some (g, m) => holdAcquire s g m
  | none =>
    if locs.any (poisoned s) then takeTrap s 5 0 0
    else
      let s := served s refs
      let bytes := refs.map (readRef s s.cur (myDie s))
      let s := noteReads s s.cur locs
      fin (if acq then joinOps s s.cur (coversAt s (acqLocs s refs)) else s) bytes

/-- A scalar load's path (R121): its causes and waits; else the value's bytes go to `fin`, at once or, where its response stays
outstanding, when that arrives (`wait`, given the first byte's address, the bytes' physical addresses, and whether it acquires,
which a piece on a UO page does not, R83). -/
def loadPath (s : State) (sg : BitVec 3) (off : Word) (n al : Nat) (acq : Bool) (h : Hint) (wait : Nat → List Nat → Bool → Await)
    (fin : State → List Byte → State) : State :=
  match scalarCause s sg off n 0 al with
  | some c => takeCause s c
  | none =>
    let cva := (seg s sg).base.toNat + off.toNat
    let refs := (span cva n).map (byteRef s (myCtx s))
    if refs.any (fun r => mustWait s s.cur s.stores r.kind false [] none) then waitHere s
    else
      if s.defer then
        owe (setCond (touchLoad s s.cur refs h) (.awaiting (wait cva (refs.map (·.pa)) (acq && refs.any (fun r => r.kind != 2)))))
          [evA .loadResponse s.cur]
      else readBytes s acq refs (fun u bytes => fin (touchLoad u u.cur refs h) bytes)

/-- The word at the issuing agent's PC: through g0 for a thread (R116, R142), from the instruction store for a Retriever
(R246). A fetch touches no cache that the model holds (DESIGN CHOICE, log 11). -/
def fetch (s : State) : Except Cause Word :=
  match s.cur with
  | .ret n => .ok ((ret s n).program.getD ((pcOf s).toNat / 8) 0)
  | .thread _ =>
    let pc := (pcOf s).toNat
    let g := seg s 0
    match segCheck g 0 pc 8 3 with
    | some c => .error c
    | none =>
      if pc % 8 ≠ 0 then .error (alignCause 3 (pcOf s)) else
      let cvas := span (g.base.toNat + pc) 8
      match judge s (chkOf s 0 3) cvas with
      | some c => .error c
      | none =>
        let refs := cvas.map (byteRef s (myCtx s))
        if (underRefs s refs).any (poisoned s) then .error (.trap 5 0 0 false)
        else .ok (BitVec.ofNat 64 (leNat (refs.map (readRef (served s refs) s.cur (myDie s)))))

end Sys2Proof.Machine
end

