-- ==== Sys2Proof/Machine/Map.lean ====
section
/-! DEFINITION. The resource map (R339 to R345): its records, the change of a map in one increment, and acknowledgement. -/

namespace Sys2Proof.Machine

/-- A record at bring-up with every unit live (Tables 13.1, 13.3), at version 1. -/
def liveRec (kind value auxA auxB : Nat) : MapRec :=
  { kind := kind, state := 1, value := value, auxA := auxA, auxB := auxB, changed := 1 }

/-- The bandwidth of a die-to-die link in GB/s (R10, R347), by its index in Table 13.1. -/
def linkRate (k : Nat) : Nat := if k < 38 then 4000 else if k < 42 then 1000 else 64

/-- The record of a number, every unit of Table 0.2 live (Table 13.1). -/
def defaultRec (n : Nat) : Option MapRec :=
  if n = 0 then some (liveRec 0 12960 (2 ^ 39) 0)
  else if 1 ≤ n ∧ n ≤ 4 then some (liveRec 1 (n - 1) 0 0)
  else if 5 ≤ n ∧ n ≤ 12 then some (liveRec 1 (2 ^ 28 + (n - 5)) 0 0)
  else if n = 13 then some (liveRec 1 (2 * 2 ^ 28) 0 0)
  else if 16 ≤ n ∧ n < 112 then some (liveRec 2 1024 (2 ^ 16 - 1) 0)
  else if 128 ≤ n ∧ n < 1664 then some (liveRec 3 16 0 0)
  else if 2048 ≤ n ∧ n < 5120 then some (liveRec 4 (n % 2) 0 0)
  else if 6144 ≤ n ∧ n < 9216 then some (liveRec 5 32 (2 ^ 33 - 1) 0)
  else if 10240 ≤ n ∧ n < 11776 then some (liveRec 6 16 0 0)
  else if 12288 ≤ n ∧ n < 12296 then some (liveRec 7 32 (2 ^ 32 - 1) (2 ^ 36))
  else if 12296 ≤ n ∧ n < 12304 then some (liveRec 8 64 0 0)
  else if 12304 ≤ n ∧ n < 12312 then some (liveRec 9 0 0 0)
  else if 12320 ≤ n ∧ n < 12576 then some (liveRec 10 10000 0 0)
  else if 12800 ≤ n ∧ n < 12850 then
    let l := (Config.linkLanes n).toNat
    some (liveRec 11 (linkRate (n - 12800)) (l * 257) 0)
  else if 12864 ≤ n ∧ n < 12880 then some (liveRec 12 0 0 0)
  else if 12896 ≤ n ∧ n < 12900 then some (liveRec 13 65536 1 0)
  else if 12928 ≤ n ∧ n < 12941 then
    let f := if n < 12932 || n = 12940 then 1000 else (Config.memoryClock n).toNat
    some (liveRec 14 f f 0)
  else if n = 12960 then some (liveRec 15 64 16 0)
  else none

/-- A record of the map: as last changed, or as at bring-up. -/
def mapRec (s : State) (n : Nat) : Option MapRec :=
  match kfind s.keeper.map n with
  | some r => some r
  | none => defaultRec n

/-- Whether a record stays within the figures of Table 0.2: a part holds no more than they say (R2, Table 13.3). -/
def figuresOk (n : Nat) (r : MapRec) : Bool :=
  match defaultRec n with
  | none => false
  | some d =>
    r.kind == d.kind && decide (r.state ≤ 3) && match r.kind with
      | 0x00 => r.value == d.value && decide (r.auxA + r.auxB ≤ 2 ^ 39)
      | 0x01 => r.value == d.value
      | 0x02 => decide (r.value ≤ 1024 ∧ r.auxA < 2 ^ 16)
      | 0x04 => r.value == d.value
      | 0x05 => decide (r.value ≤ 32 ∧ r.auxA < 2 ^ 33)
      | 0x07 => decide (r.value ≤ 32 ∧ r.auxA < 2 ^ 32 ∧ r.auxB ≤ 2 ^ 36)
      | 0x0B => decide (r.value ≤ d.value ∧ r.auxA % 256 ≤ r.auxA / 256 % 256) && r.auxA / 256 == d.auxA / 256
      | 0x0C => decide (r.value ≤ 112 ∧ r.auxA % 8 ≤ 4 ∧ r.auxA < 2 ^ 17)
      | 0x0D => decide (r.value ≤ d.value ∧ r.auxA ≤ 1)
      | 0x0E => decide (r.value ≤ d.value) && r.auxA == d.auxA
      | 0x0F => decide (r.value ≤ d.value ∧ r.auxA ≤ 16)
      | _ => decide (r.value ≤ d.value)

/-- A doubleword of a record (Table 13.2), all ones where either index is out of range (R339, R146). -/
def mapDword (s : State) (n d : Nat) : Word :=
  match mapRec s n with
  | none => BitVec.allOnes 64
  | some r => match d with
    | 0 => BitVec.ofNat 64 (r.kind * 2 ^ 56 + r.state * 2 ^ 52 + r.value % 2 ^ 32)
    | 1 => BitVec.ofNat 64 r.changed
    | 2 => BitVec.ofNat 64 r.auxA
    | 3 => BitVec.ofNat 64 r.auxB
    | _ => BitVec.allOnes 64

/-- A record but for CHANGED. -/
def recContent (r : MapRec) : MapRec := { r with changed := 0 }

/-- RMEVENT (R342): vector 4 of every virtual function with a live context, and the physical function's map vector. -/
def rmEvent (s : State) : State :=
  let tns := (List.range 16).filter (fun n => s.ctxs.any (fun p => p.2.tenant == n))
  raiseIrq (tns.foldl (fun s n => raiseIrq s n 4) s) 16 0

/-- One increment of the map (R341): the records whose content changes are written with the new version, RMEVENT is raised,
and contexts that fall into arrears take their deadline from now (R343, R344). -/
def changeMap (s : State) (recs : List (Nat × MapRec)) : State :=
  let real := recs.filter (fun p => match mapRec s p.1 with
    | some r => recContent r != recContent p.2
    | none => false)
  if real.isEmpty then s else
  let v := s.keeper.version + 1
  let s := modKeeper s (fun k => { k with
    version := v
    map := real.foldl (fun m p => kset m p.1 { p.2 with changed := v }) k.map })
  let s := rmEvent s
  { s with ctxs := s.ctxs.map (fun p => (p.1,
      if p.2.frozen.isNone && p.2.arrears.isNone then { p.2 with arrears := some s.time } else p.2)) }

/-- The threads of a context take RMSUSP at resumption (R136): at once where they stopped at U, at their first word at U
otherwise, which a trap that is already due for the word comes before. -/
def rmsusp (s : State) (c : Nat) : State :=
  match ctx? s c with
  | none => s
  | some x =>
    if x.tvec = 0 then s else
    let hit (y : Thread) : Thread :=
      if y.ctx ≠ c || svcOf y then y
      else if privOf y then { y with rmsusp := true }
      else match y.pendTrap with
        | some (code, _, _) =>
          if code = 0xB then { y with pendTrap := some (0xB, 0, s.keeper.version) } else { y with rmsusp := true }
        | none => { y with pendTrap := some (0xB, 0, s.keeper.version) }
    modCtx { s with threads := s.threads.map (fun p => (p.1, hit p.2)) } c (fun x => { x with
      saved := x.saved.map (fun p => (p.1, hit p.2)) })

/-- An acknowledgement of a version for a context (R148, R343): 0 recorded, 1 older, 2 newer; a suspended context resumes
where its driver acknowledges (R344). -/
def ackVersion (s : State) (c v : Nat) (driver : Bool) : State × Nat :=
  if v < s.keeper.version then (s, 1)
  else if s.keeper.version < v then (s, 2)
  else
    let sus := driver && suspendedCtx s c
    let s := modCtx s c (fun x => { x with acked := v, arrears := none, suspended := x.suspended && !driver })
    if sus then
      let msgs := (s.cores.filter (fun p => p.2.smq.any (fun m => m.ctx = c))).map (fun p => ev .scopeMissMessage p.1)
      (owe (rmsusp s c) msgs, 0)
    else (s, 0)

end Sys2Proof.Machine
end

