-- ==== Sys2Proof/Machine/Flags.lean ====
section
/-! DEFINITION. FCSR and the flags (R70 to R72): the rounding mode a word names (R39, R67, R69), setting flags, and the FPE
trap. -/

namespace Sys2Proof.Machine

/-- FCSR.FRM (Table 3.3). -/
def frmOf (x : Thread) : Nat := field x.fcsr 13 3
/-- The enable bits NVE to NXE as flags (Table 3.3). -/
def enabledOf (x : Thread) : Flags := field x.fcsr 8 5

/-- The mode of a rounding code (R39); RST is given its draw where it is used. -/
def modeOf (code : Nat) : RMode :=
  match code with
  | 1 => .rtz
  | 2 => .rdn
  | 3 => .rup
  | 4 => .rst 0
  | _ => .rne

/-- The rounding code in force: the word's, or FRM for .dyn (R39). -/
def rndOf (x : Thread) (rnd : BitVec 3) : Nat := if rnd = 7 then frmOf x else rnd.toNat

/-- Whether a word that is no narrowing conversion may round: .dyn with RST in FCSR takes ILL (R39). -/
def rndAdmits (x : Thread) (rnd : BitVec 3) : Bool := !(rnd == 7 && frmOf x == 4)

/-- Flags set in FCSR; they stay set (R71). -/
def addFlags (x : Thread) (fl : Flags) : Thread := { x with fcsr := x.fcsr ||| BitVec.ofNat 64 (fl % 32) }

/-- The end of a floating word: its flags are set, then FPE is taken if one of them is enabled (R72), else its result is
written. -/
def floatEnd (s : State) (fl : Flags) (f : State → State) : State :=
  let s := modMy s (addFlags · fl)
  if enabledOf (my s) &&& fl ≠ 0 then takeTrap s 0xA fl 0 else f s

/-- What a CSR write leaves in FCSR: reserved bits zero, FRM unchanged for a reserved code (R70, R126). -/
def writeFcsr (old v : Word) : Word :=
  let frm := if field v 13 3 < 5 then v &&& 0xE000 else old &&& 0xE000
  frm ||| (v &&& 0x1F1F)

end Sys2Proof.Machine
end

