-- ==== Sys2Proof/Machine/Operands.lean ====
section
/-! DEFINITION. The operands of vector words: element slots and containers (R66, R168), masks and active elements (R36,
R169), scale registers (R223), and what every vector word checks before its own effect (R193). -/

namespace Sys2Proof.Machine

/-- A register field of class V inside ext. -/
def extReg (f : VFields) : Reg := f.ext.truncate 6
/-- The segment of a vector memory form (R40). -/
def extSeg (f : VFields) : BitVec 3 := f.ext.extractLsb' 8 3
/-- The hint of a vector memory form (R40). -/
def extHint (f : VFields) : Hint :=
  match (f.ext.extractLsb' 6 2).toNat with | 1 => .ef | 2 => .keep | _ => .none

/-- Element `e` of a list of slots' words in a format (R66). -/
def elemIn (l : List (BitVec 32)) (fmt e : Nat) : Nat :=
  let n := perSlot fmt
  (l.getD (e / n) 0).toNat / 2 ^ (e % n * cbits fmt) % 2 ^ cbits fmt

/-- The bits of a container that an element of a format uses: an SX element leaves those above bit w − 1 (R65). -/
def valueBits (fmt : Nat) : Nat := if 13 ≤ fmt then sxM fmt + 1 else cbits fmt

/-- The words of a vector register, slot by slot. -/
def vreg (x : Thread) (r : VReg) : List (BitVec 32) := x.slots.map (fun sl => sl.v[r.toNat])

/-- Element `e` of a vector register in a format (R66). -/
def elem (x : Thread) (r : VReg) (fmt e : Nat) : Nat :=
  let n := perSlot fmt
  match x.slots[e / n]? with
  | some sl => sl.v[r.toNat].toNat / 2 ^ (e % n * cbits fmt) % 2 ^ cbits fmt
  | none => 0

/-- Element `e` of a vector register as a value: the bits that its format does not use are ignored (R65). -/
def elemVal (x : Thread) (r : VReg) (fmt e : Nat) : Nat := elem x r fmt e % 2 ^ valueBits fmt

/-- A field of `c` bits at element place `k` of a slot's word replaced. -/
def putField (w : BitVec 32) (c k v : Nat) : BitVec 32 :=
  let m : BitVec 32 := BitVec.ofNat 32 ((2 ^ c - 1) * 2 ^ (k * c))
  (w &&& ~~~m) ||| BitVec.ofNat 32 (v % 2 ^ c * 2 ^ (k * c))

/-- A slice changed at slot `j`. -/
def modSlot (x : Thread) (j : Nat) (f : Slice → Slice) : Thread := { x with slots := x.slots.modify j f }

/-- Element `e` of a vector register written; the rest of its slot stays (R170). -/
def putElem (fmt : Nat) (r : VReg) (x : Thread) (p : Nat × Nat) : Thread :=
  let n := perSlot fmt
  modSlot x (p.1 / n) (fun sl => { sl with v := sl.v.set r.toNat (putField sl.v[r.toNat] (cbits fmt) (p.1 % n) p.2) })

/-- Elements of a vector register written. -/
def putElems (fmt : Nat) (r : VReg) (x : Thread) (l : List (Nat × Nat)) : Thread := l.foldl (putElem fmt r) x

/-- NE of a format (R168). -/
def numElems (x : Thread) (fmt : Nat) : Nat := x.vl * perSlot fmt

/-- The mask bit of element `e` in a format (R169). -/
def mbit (x : Thread) (m fmt e : Nat) : Bool :=
  let n := perSlot fmt
  match x.slots[e / n]? with
  | some sl => (sl.m.toList.getD m 0).getLsbD (e % n)
  | none => false

/-- A mask bit written. -/
def putBit (fmt m : Nat) (x : Thread) (p : Nat × Bool) : Thread :=
  let n := perSlot fmt
  modSlot x (p.1 / n) (fun sl =>
    let b := sl.m.toList.getD m 0
    let bit : Byte := BitVec.ofNat 8 (2 ^ (p.1 % n))
    { sl with m := sl.m.set! m (if p.2 then b ||| bit else b &&& ~~~bit) })

/-- Whether the guard lets element `e` act; `e` is below NE (R36, R169). -/
def guarded (x : Thread) (f : VFields) (fmt e : Nat) : Bool :=
  f.guard == 0 || (mbit x f.guard.toNat fmt e != f.pol)

/-- The active elements of a word among the first `ne`, in ascending order, its guard read in format `fmt` (R169). -/
def activeIn (x : Thread) (f : VFields) (fmt ne : Nat) : List Nat := (List.range ne).filter (guarded x f fmt)

/-- The active elements of a word in its own format. -/
def actives (x : Thread) (f : VFields) : List Nat := activeIn x f f.fmt.toNat (numElems x f.fmt.toNat)

/-- An entry of a scale register (Table 8.2). -/
def scEntry (x : Thread) (k b : Nat) : BitVec 16 := kget (x.sc.toList.getD k []) b 0
/-- An entry of a scale register written; an entry of zero is not listed. -/
def putSc (x : Thread) (k b : Nat) (v : BitVec 16) : Thread :=
  let l := x.sc.toList.getD k []
  { x with sc := x.sc.set! k (if v = 0 then kdel l b else kset l b v) }

/-- The floating format of a code (Tables 2.5, 3.1). -/
def fmtOf (code : Nat) : Fmt :=
  match code with
  | 9 => fmtF16
  | 10 => fmtBF16
  | 11 => fmtE4M3
  | 12 => fmtE5M2
  | _ => fmtF32

/-- Whether a format code is a signed integer format. -/
def isSigned (fmt : Nat) : Bool := fmt == 1 || fmt == 2 || fmt == 3
/-- Whether a format code is an integer format. -/
def isInt (fmt : Nat) : Bool := isSigned fmt || fmt == 5 || fmt == 6 || fmt == 7

/-- `c` bits read as the format's integer (R56). -/
def intOf (fmt v : Nat) : Int :=
  let c := cbits fmt
  if isSigned fmt && v.testBit (c - 1) then (v : Int) - (2 ^ c : Nat) else v

/-- The low `c` bits of an integer. -/
def wrap (c : Nat) (x : Int) : Nat := (x % (2 ^ c : Nat)).toNat

/-- An integer clamped to a format's range (R57). -/
def clampTo (fmt : Nat) (x : Int) : Int :=
  let c := cbits fmt
  let lo : Int := if isSigned fmt then -(2 ^ (c - 1) : Nat) else 0
  let hi : Int := if isSigned fmt then (2 ^ (c - 1) : Nat) - 1 else (2 ^ c : Nat) - 1
  if x < lo then lo else if hi < x then hi else x

/-- Whether every vector load of the thread that is still in flight leaves these registers alone (R184). -/
def landed (x : Thread) (rs : List VReg) : Bool :=
  x.vloads.all (fun l => rs.all (fun r => r.toNat != l.vd)) &&
    x.mqueue.all (fun w => match w.op with
      | .moveRow _ vd _ _ => rs.all (fun r => r.toNat != vd)
      | .moveCol _ vd _ _ => rs.all (fun r => r.toNat != vd)
      | _ => true)

/-- A class V word: legal only outside Retrievers and the service context (R45, R133), with its scalar registers in range
(R28), and, where `held`, only while VCEIL is not 0 (R193); it waits for the registers its earlier words have still to
write (R184). -/
def issueV (s : State) (held : Bool) (rs : List Reg) (vs : List VReg) (f : State → State) : Out :=
  issue s (admits s false rs && !inSvc s && (!held || (my s).vceil != 0))
    (fun s => if landed (my s) vs then f s else waitHere s)

end Sys2Proof.Machine
end

