-- ==== Sys2Proof/Machine/Kennel.lean ====
section
/-! DEFINITION. The Kennel of each pool: who holds which lanes (R171, R370), entitlements (R178), grant points (R174, R176),
gang blocks (R218 to R220), and the lanes owed to lost or resumed slices (R187, R191, R239, R240). -/

namespace Sys2Proof.Machine

/-! ### Holders and entitlements -/

/-- The holders of a context in a pool (R178): its threads there whose VCEIL is not 0, by thread number. -/
def holders (s : State) (p c : Nat) : List (Nat × Thread) :=
  s.threads.filter (fun q => poolOf q.1 == p && q.2.ctx == c && q.2.vceil != 0)

/-- The lanes that threads of a context hold in a pool (R174). -/
def lanesHeld (s : State) (p c : Nat) : Nat := ((holders s p c).map (·.2.gvl)).sum

/-- The sum of the entitlements of a context's holders in a pool. -/
def entSum (s : State) (p c : Nat) : Nat := ((holders s p c).map (·.2.ent)).sum

/-- An entitlement set, and the debt time that follows from it (R178). -/
def setEnt (time e : Nat) (x : Thread) : Thread :=
  { x with ent := e, debt := if e < x.rq then some (x.debt.getD time) else none }

/-- Of some holders, the one with the largest entitlement, the higher number on a tie. -/
def richest : List (Nat × Thread) → Option (Nat × Thread)
  | [] => none
  | x :: r => match richest r with
    | none => some x
    | some y => if x.2.ent ≤ y.2.ent then some y else some x

/-- Of some holders, the one with the earliest debt time, the lower number on a tie. -/
def oldestDebt : List (Nat × Thread) → Option (Nat × Thread)
  | [] => none
  | x :: r => match oldestDebt r with
    | none => some x
    | some y => if x.2.debt.getD 0 ≤ y.2.debt.getD 0 then some x else some y

/-- Other holders give lanes up until the entitlements fit the quota (R178), `fuel` times at most. -/
def takeFrom (p c h : Nat) : Nat → State → State
  | 0, s => s
  | n + 1, s =>
    let q := quotaOf s p c
    match richest ((holders s p c).filter (fun g => g.1 != h && decide (1 < g.2.ent))) with
    | some (g, x) =>
      if entSum s p c ≤ q then s
      else takeFrom p c h n (modThr s g (setEnt s.time (max 1 (x.ent - (entSum s p c - q)))))
    | none => s

/-- Holders below their requests regain lanes, oldest debt first (R178), `fuel` times at most. -/
def giveBack (p c : Nat) : Nat → State → State
  | 0, s => s
  | n + 1, s =>
    let q := quotaOf s p c
    match oldestDebt ((holders s p c).filter (fun g => decide (g.2.ent < g.2.rq))) with
    | some (g, x) =>
      if q ≤ entSum s p c then s
      else giveBack p c n (modThr s g (setEnt s.time (min x.rq (x.ent + (q - entSum s p c)))))
    | none => s

/-- Entitlements recomputed after holder `t` joins or sets its request (R178). -/
def joinEnt (s : State) (t : Nat) : State :=
  let x := thr s t
  let hs := holders s (poolOf t) x.ctx
  let s := modThr s t (setEnt s.time (max 1 (min x.rq (quotaOf s (poolOf t) x.ctx - (hs.length - 1)))))
  takeFrom (poolOf t) x.ctx t hs.length s

/-- Entitlements recomputed after a holder leaves or lowers its request (R178). -/
def leaveEnt (s : State) (p c : Nat) : State := giveBack p c (holders s p c).length s

/-- Holder `t` sets its standing request, and entitlements follow (R178, R198). -/
def setRequest (s : State) (t rq : Nat) : State :=
  let x := thr s t
  let s' := joinEnt (setThr s t { x with rq := rq }) t
  if rq < x.rq then leaveEnt s' (poolOf t) x.ctx else s'

/-! ### Lanes -/

/-- Whether a lane of a pool is live in the resource map: its bit, in a group that the map shows as live (R23, Table 13.3). -/
def laneLive (s : State) (p l : Nat) : Bool :=
  match mapRec s (6144 + p * 32 + l / 32) with
  | some r => recLive r && r.auxA.testBit (l % 32)
  | none => false

/-- The lanes a thread's slots sit in: none for a slot that is owed one. -/
def lanesOf (x : Thread) : List Nat :=
  ((List.range x.lanes.length).filter (fun j => !x.lost.contains j)).map (fun j => x.lanes.getD j 0)

/-- How many of a lane's four context slots are held. -/
def usersOf (s : State) (p l : Nat) : Nat :=
  ((s.threads.filter (fun q => poolOf q.1 == p)).map (fun q => ((lanesOf q.2).filter (· == l)).length)).foldl (· + ·) 0

/-- Whether a lane may be given to thread `t`: live, with one of its four context slots free, and not yet the thread's
(R174, R370). -/
def laneFree (s : State) (t l : Nat) : Bool :=
  laneLive s (poolOf t) l && decide (usersOf s (poolOf t) l < 4) && !(lanesOf (thr s t)).contains l

/-- The lanes of a pool in the order in which its Kennel takes them: first those that the schedule names, then from the
highest-numbered down (R370; log 8). -/
def laneOrder (s : State) : List Nat :=
  (s.prefer.filter (· < 1024)).dedup ++ ((List.range 1024).reverse.filter (fun l => !s.prefer.contains l))

/-- The first `n` lanes of an order that may be given to a thread. -/
def pickLanes (s : State) (t : Nat) : List Nat → Nat → List Nat
  | _, 0 => []
  | [], _ => []
  | l :: r, n + 1 => if laneFree s t l then l :: pickLanes s t r n else pickLanes s t r (n + 1)

/-- Up to `n` lanes for thread `t`. -/
def freeLanes (s : State) (t n : Nat) : List Nat := pickLanes s t (laneOrder s) n

/-- Up to `n` context slots for rebuilt slices of thread `t`: of lanes it does not hold where there are any, then of any lane
of the pool (R186 step 3). -/
def rebuildLanes (s : State) (t n : Nat) : List Nat :=
  let new := freeLanes s t n
  let p := poolOf t
  let more (l : Nat) : List Nat :=
    if laneLive s p l then List.replicate (4 - usersOf s p l - (if new.contains l then 1 else 0)) l else []
  if n ≤ new.length then new else new ++ ((laneOrder s).flatMap more).take (n - new.length)

/-- What step 3 of R174 lets a thread's grant grow by, beyond nothing, and the lanes for it, at most `want`. -/
def growth (s : State) (t want : Nat) : List Nat :=
  let c := (thr s t).ctx
  freeLanes s t (min want (quotaOf s (poolOf t) c - lanesHeld s (poolOf t) c))

/-! ### Second context slots -/

/-- The lanes of one thread whose second context slots it is lent, given those already lent in its pool: at partition 4, for its
slots from GVL to the lesser of 2 × GVL and VCEIL less 1, where the lane has a context slot that no grant holds (R171). -/
def lentTo (s : State) (p : Nat) (taken : List Nat) (x : Thread) : List Nat :=
  ((x.lanes.take (x.vceil - x.gvl)).zipIdx.filter (fun l => !x.lost.contains l.2 && laneLive s p l.1 &&
    decide (usersOf s p l.1 + taken.count l.1 < 4))).map (·.1)

/-- The second context slots lent in a pool, by thread. They are what its grants leave, so a request that needs a context slot
takes them back first; which thread has them where two could is the model's choice, the lower number (R171; log 29). -/
def lentSlots (s : State) (p : Nat) : List (Nat × List Nat) :=
  (s.threads.filter (fun q => poolOf q.1 == p && (core s (coreOf q.1)).part == 4)).foldl (fun l q =>
    l ++ [(q.1, lentTo s p (l.flatMap (·.2)) q.2)]) []

/-- Where an element slot of a thread is kept. -/
inductive SlotAt where
  /-- in a lane of the grant, or owed one (R187) -/
  | lane (l : Option Nat)
  /-- in the second context slot of a lane of the grant -/
  | second (l : Nat)
  /-- in the thread's spill area in the pool's LSP -/
  | spill
  deriving DecidableEq, Repr

/-- Where element slot `j` of thread `t` is kept (R171). -/
def slotAt (s : State) (t j : Nat) : SlotAt :=
  let x := thr s t
  if j < x.gvl then .lane (if x.lost.contains j then none else x.lanes[j]?)
  else match (kget (lentSlots s (poolOf t)) t [])[j - x.gvl]? with
    | some l => .second l
    | none => .spill

/-! ### Gang blocks -/

/-- The lanes of the block of an edge at an origin (R218), in slot order (R219). -/
def blockLanes (g row col : Nat) : List Nat :=
  (List.range (g * g)).map (fun j => (row + j / g) * 32 + col + j % g)

/-- Origins of blocks of an edge in origin order (R218). -/
def origins (g : Nat) : List (Nat × Nat) :=
  (List.range ((32 / g) * (32 / g))).map (fun k => (k / (32 / g) * g, k % (32 / g) * g))

/-- Whether a block's lane is open to thread `t` (R220). -/
def blockLaneFree (s : State) (t l : Nat) : Bool :=
  laneLive s (poolOf t) l &&
    !s.threads.any (fun q => q.1 != t && poolOf q.1 == poolOf t && q.2.mvl != 0 && (lanesOf q.2).contains l) &&
    ((lanesOf (thr s t)).contains l || decide (usersOf s (poolOf t) l < 4))

/-- The first free block of an edge for thread `t`, in origin order (R220). -/
def firstBlock (s : State) (t g : Nat) : Option (List Nat) :=
  ((origins g).map (fun o => blockLanes g o.1 o.2)).find? (fun b => b.all (blockLaneFree s t))

/-- Whether a gang of an edge fits thread `t` (R220). -/
def gangFits (s : State) (t g : Nat) : Bool :=
  let x := thr s t
  decide (g * g ≤ x.vceil) &&
    decide (lanesHeld s (poolOf t) x.ctx - x.gvl + g * g ≤ quotaOf s (poolOf t) x.ctx)

/-! ### Owed lanes and wakes -/

/-- Whether a thread parked at a grant point would now find a lane (R176). -/
def wakesAtGrant (s : State) (t : Nat) : Bool := !(growth s t 1).isEmpty

/-- Lanes or quota have come free in a pool: owed slices are placed first, then the threads parked at grant points that
would find a lane are woken, by core and hardware context (R176, R180, R187). -/
def wakePool (s : State) (p : Nat) : State :=
  let ts := s.threads.filter (fun q => poolOf q.1 == p)
  owe s ((ts.filter (fun q => !q.2.lost.isEmpty)).map (fun q => ev .slicePlaced q.1) ++
    (ts.filter (fun q => q.2.cond == .parkedGrant && wakesAtGrant s q.1)).map (fun q => ev .grantWake q.1))

/-- Thread `t`'s slots that are owed lanes placed where lanes are free: a gang in a whole block, the one it leaves
being free for others, the rest slot by slot, on resumption each in a lane that holds no other of its slots, since GVL counts lanes
(R167, R191). A frozen context's slices stay as they are for its dump (R187, R239, R240, R355). -/
def placeOwed (s : State) (t : Nat) : State :=
  let x := thr s t
  if x.lost.isEmpty || frozenCtx s x.ctx then s
  else if x.mvl ≠ 0 then
    match firstBlock s t (x.mvl / 8) with
    | some b => wakePool (setThr s t { x with lanes := b, lost := [], placing := false }) (poolOf t)
    | none => s
  else
    let ls := if x.placing then freeLanes s t x.lost.length else rebuildLanes s t x.lost.length
    let placed := x.lost.zip ls
    setThr s t { x with
      lanes := placed.foldl (fun l p => l.set p.1 p.2) x.lanes, lost := x.lost.drop ls.length
      placing := x.placing && decide (ls.length < x.lost.length) }

/-! ### Grant points -/

/-- Steps 1 and 2 of R174, and R237: earlier vector loads have landed and the matrix queue is empty. -/
def settled (x : Thread) : Bool := x.vloads.isEmpty && x.mqueue.isEmpty

/-- The owed slices of a pool placed, ahead of any growth (R187, R239). -/
def settlePool (s : State) (p : Nat) : State :=
  (s.threads.filter (fun q => poolOf q.1 == p && !q.2.lost.isEmpty)).foldl (fun s q => placeOwed s q.1) s

/-- The trace entry of a grant point that changed GVL (R357, kind 6). -/
def traceGrant (before s : State) : State :=
  let old := (my before).gvl
  let new := (my s).gvl
  if old = new then s else trace s 6 0 (BitVec.ofNat 64 (old * 2 ^ 16 + new))

/-- Steps 3 and 4 of R174 for the issuing thread; none where it parks. The other slots stay in their lanes, though the Kennel may move
them (DESIGN CHOICE, log 8). -/
def regrant (s : State) : Option State :=
  let t := me s
  let s := settlePool s (poolOf t)
  let x := thr s t
  let target := min x.ent x.vceil
  if target ≤ x.gvl then
    if target = 0 then none
    else if target = x.gvl then some s
    else some (wakePool (traceGrant s (setThr s t { x with gvl := target, lanes := x.lanes.take target })) (poolOf t))
  else
    let ls := growth s t (target - x.gvl)
    let g := x.gvl + ls.length
    if g = 0 then none
    else some (traceGrant s (setThr s t { x with gvl := g, lanes := x.lanes ++ ls }))

/-- A grant point (R174, R176, R224): it waits for what is in flight, and for a Kennel that is live (R23; log 36); `pre` is what the word does before it, undone where
the word parks; `fin` is the word's remaining effect. A gang keeps its lanes. -/
def grantPoint (s : State) (pre fin : State → State) : State :=
  if !settled (my s) || !poolLive s then waitHere s
  else
    let s' := pre s
    if (my s').mvl ≠ 0 then fin s'
    else match regrant s' with
      | none => setCond s .parkedGrant
      | some s'' => fin s''

/-- A gang is left (R227): the accumulators are discarded, the lanes stay as an ordinary grant. -/
def leaveGang (x : Thread) : Thread :=
  { x with mvl := 0, mm := 0, mn := 0, mkk := 0, acc0 := [], acc1 := [] }

/-- Thread `t`'s vector state ends (R199): its lanes and spill area are freed, it leaves the holders, and others are woken.
CARRY is kept. -/
def releaseVec (s : State) (t : Nat) : State :=
  let x := thr s t
  if x.vceil = 0 then s
  else
    let s := setThr s t { leaveGang x with vceil := 0, gvl := 0, vl := 0, rq := 0, ent := 0, debt := none, watch := none
                                           slots := [], lanes := [], lost := [] }
    wakePool (leaveEnt s (poolOf t) x.ctx) (poolOf t)

/-- The bytes left in a context's spill region of a pool, at 144 to a slot (R196, R303). -/
def spillRoom (s : State) (p c : Nat) : Nat :=
  let size := match entryOf s p c with | some e => field e.dw1 10 10 * 4096 | none => 0
  size - 144 * ((holders s p c).map (·.2.vceil)).sum

end Sys2Proof.Machine
end

