-- ==== Sys2Proof/Machine/ScalarInt.lean ====
section
/-! DEFINITION. The integer forms (R57, R137, R138), constants (R139) and the hint (R44). -/

namespace Sys2Proof.Machine

/-- The quotient as i64 (R57). -/
def divS (x y : Word) : Word := if y = 0 then BitVec.allOnes 64 else x.sdiv y
/-- The quotient as n64 (R57). -/
def divN (x y : Word) : Word := if y = 0 then BitVec.allOnes 64 else x / y
/-- The remainder as i64, with the dividend's sign (R57). -/
def remS (x y : Word) : Word := if y = 0 then x else x.srem y
/-- The remainder as n64 (R57). -/
def remN (x y : Word) : Word := if y = 0 then x else x % y
/-- Bits [127:64] of the product as i64. -/
def mulHi (x y : Word) : Word := BitVec.ofInt 64 (x.toInt * y.toInt / 2 ^ 64)
/-- Bits [127:64] of the product as n64. -/
def mulHiN (x y : Word) : Word := BitVec.ofNat 64 (x.toNat * y.toNat / 2 ^ 64)
/-- A shift's amount: the low six bits. -/
def shamt (y : Word) : Nat := y.toNat % 64
/-- 1 or 0. -/
def bit (b : Bool) : Word := if b then 1 else 0
/-- Leading zeros, 64 for 0. -/
def clz (x : Word) : Word := if x = 0 then 64 else BitVec.ofNat 64 (63 - Nat.log2 x.toNat)
/-- Trailing zeros, 64 for 0. -/
def ctz (x : Word) : Word := BitVec.ofNat 64 (((List.range 64).find? x.getLsbD).getD 64)
/-- One bits. -/
def popc (x : Word) : Word := BitVec.ofNat 64 ((List.range 64).filter x.getLsbD).length
/-- The eight bytes in reverse order. -/
def bswap (x : Word) : Word := BitVec.ofNat 64 (leNat (leBytes 8 x.toNat).reverse)

/-- The two-operand forms of opcodes 0x001 to 0x01A (Table 5.11), as register forms and D word halves use them. -/
def binOp (fn : Nat) (x y : Word) : Word :=
  match fn with
  | 0x1 => x + y
  | 0x2 => x - y
  | 0x3 => x * y
  | 0x4 => mulHi x y
  | 0x5 => mulHiN x y
  | 0x6 => divS x y
  | 0x7 => divN x y
  | 0x8 => remS x y
  | 0x9 => remN x y
  | 0xa => x &&& y
  | 0xb => x ||| y
  | 0xc => x ^^^ y
  | 0xd => x &&& ~~~y
  | 0xe => x <<< shamt y
  | 0xf => x >>> shamt y
  | 0x10 => x.sshiftRight (shamt y)
  | 0x11 => x.rotateLeft (shamt y)
  | 0x12 => x.rotateRight (shamt y)
  | 0x13 => if x.slt y then x else y
  | 0x14 => if x.slt y then y else x
  | 0x15 => if x < y then x else y
  | 0x16 => if x < y then y else x
  | 0x17 => bit (x == y)
  | 0x18 => bit (x != y)
  | 0x19 => bit (x.slt y)
  | 0x1a => bit (decide (x < y))
  | _ => 0

/-- The one-operand forms of opcodes 0x01C to 0x01F (Table 5.11). -/
def unOp (fn : Nat) (x : Word) : Word :=
  match fn with
  | 0x1c => clz x
  | 0x1d => ctz x
  | 0x1e => popc x
  | 0x1f => bswap x
  | _ => 0

/-- BEXT (R137): the field of `x` at a position, of `len` bits, 64 at most. -/
def bextOp (x y z : Word) : Word :=
  (x >>> shamt y) &&& BitVec.ofNat 64 (2 ^ min z.toNat 64 - 1)
/-- BDEP (R137): the low bits of `x` put into `old`; bits beyond 63 are dropped. -/
def bdepOp (old x y z : Word) : Word :=
  let m := BitVec.ofNat 64 (2 ^ min z.toNat 64 - 1) <<< shamt y
  (old &&& ~~~m) ||| ((x <<< shamt y) &&& m)

/-- A register form of two operands (R137). -/
def aluR (fn : Nat) (d a b : Reg) (s : State) : Out :=
  issue s (admits s true [d, a, b]) (fun s => advance (setReg s d (binOp fn (reg s a) (reg s b))))
/-- A register form of one operand (R137). -/
def aluU (fn : Nat) (d a : Reg) (s : State) : Out :=
  issue s (admits s true [d, a]) (fun s => advance (setReg s d (unOp fn (reg s a))))
/-- An immediate form: the register form with the sign-extended immediate as its second operand (R138). -/
def aluI (fn : Nat) (d a : Reg) (v : BitVec 12) (s : State) : Out :=
  issue s (admits s true [d, a]) (fun s => advance (setReg s d (binOp fn (reg s a) (v.signExtend 64))))
/-- A shift or rotate by an immediate amount (R138). -/
def aluSh (fn : Nat) (d a : Reg) (sh : BitVec 6) (s : State) : Out :=
  issue s (admits s true [d, a]) (fun s => advance (setReg s d (binOp fn (reg s a) (sh.zeroExtend 64))))
/-- The value of a 20-bit immediate: shifted left by 12 and sign-extended from bit 31 (R30). -/
def immHi (v : BitVec 20) : Word := (v ++ (0 : BitVec 12)).signExtend 64

/-- ADD (Table 5.11). -/
def execAdd (d a b : Reg) (s : State) : Out := aluR 0x1 d a b s
/-- SUB (Table 5.11). -/
def execSub (d a b : Reg) (s : State) : Out := aluR 0x2 d a b s
/-- MUL (Table 5.11). -/
def execMul (d a b : Reg) (s : State) : Out := aluR 0x3 d a b s
/-- MULH (Table 5.11). -/
def execMulh (d a b : Reg) (s : State) : Out := aluR 0x4 d a b s
/-- MULHN (Table 5.11). -/
def execMulhn (d a b : Reg) (s : State) : Out := aluR 0x5 d a b s
/-- DIV (Table 5.11). -/
def execDiv (d a b : Reg) (s : State) : Out := aluR 0x6 d a b s
/-- DIVN (Table 5.11). -/
def execDivn (d a b : Reg) (s : State) : Out := aluR 0x7 d a b s
/-- REM (Table 5.11). -/
def execRem (d a b : Reg) (s : State) : Out := aluR 0x8 d a b s
/-- REMN (Table 5.11). -/
def execRemn (d a b : Reg) (s : State) : Out := aluR 0x9 d a b s
/-- AND (Table 5.11). -/
def execAnd (d a b : Reg) (s : State) : Out := aluR 0xa d a b s
/-- OR (Table 5.11). -/
def execOr (d a b : Reg) (s : State) : Out := aluR 0xb d a b s
/-- XOR (Table 5.11). -/
def execXor (d a b : Reg) (s : State) : Out := aluR 0xc d a b s
/-- ANDN (Table 5.11). -/
def execAndn (d a b : Reg) (s : State) : Out := aluR 0xd d a b s
/-- SLL (Table 5.11). -/
def execSll (d a b : Reg) (s : State) : Out := aluR 0xe d a b s
/-- SRL (Table 5.11). -/
def execSrl (d a b : Reg) (s : State) : Out := aluR 0xf d a b s
/-- SRA (Table 5.11). -/
def execSra (d a b : Reg) (s : State) : Out := aluR 0x10 d a b s
/-- ROL (Table 5.11). -/
def execRol (d a b : Reg) (s : State) : Out := aluR 0x11 d a b s
/-- ROR (Table 5.11). -/
def execRor (d a b : Reg) (s : State) : Out := aluR 0x12 d a b s
/-- MIN (Table 5.11). -/
def execMin (d a b : Reg) (s : State) : Out := aluR 0x13 d a b s
/-- MAX (Table 5.11). -/
def execMax (d a b : Reg) (s : State) : Out := aluR 0x14 d a b s
/-- MINN (Table 5.11). -/
def execMinn (d a b : Reg) (s : State) : Out := aluR 0x15 d a b s
/-- MAXN (Table 5.11). -/
def execMaxn (d a b : Reg) (s : State) : Out := aluR 0x16 d a b s
/-- CMPEQ (Table 5.11). -/
def execCmpeq (d a b : Reg) (s : State) : Out := aluR 0x17 d a b s
/-- CMPNE (Table 5.11). -/
def execCmpne (d a b : Reg) (s : State) : Out := aluR 0x18 d a b s
/-- CMPLT (Table 5.11). -/
def execCmplt (d a b : Reg) (s : State) : Out := aluR 0x19 d a b s
/-- CMPLTN (Table 5.11). -/
def execCmpltn (d a b : Reg) (s : State) : Out := aluR 0x1a d a b s
/-- CSEL (Table 5.11). -/
def execCsel (d a b c : Reg) (s : State) : Out := 
  issue s (admits s true [d, a, b, c]) (fun s => advance (setReg s d (if reg s b ≠ 0 then reg s a else reg s c)))
/-- CLZ (Table 5.11). -/
def execClz (d a : Reg) (s : State) : Out := aluU 0x1c d a s
/-- CTZ (Table 5.11). -/
def execCtz (d a : Reg) (s : State) : Out := aluU 0x1d d a s
/-- POPC (Table 5.11). -/
def execPopc (d a : Reg) (s : State) : Out := aluU 0x1e d a s
/-- BSWAP (Table 5.11). -/
def execBswap (d a : Reg) (s : State) : Out := aluU 0x1f d a s
/-- BEXT (R137). -/
def execBext (d a b c : Reg) (s : State) : Out := 
  issue s (admits s true [d, a, b, c]) (fun s => advance (setReg s d (bextOp (reg s a) (reg s b) (reg s c))))
/-- BDEP (R137); it also reads d. -/
def execBdep (d a b c : Reg) (s : State) : Out := 
  issue s (admits s true [d, a, b, c]) (fun s =>
    advance (setReg s d (bdepOp (reg s d) (reg s a) (reg s b) (reg s c))))
/-- ADDI (R138). -/
def execAddi (d a : Reg) (v : BitVec 12) (s : State) : Out := aluI 0x1 d a v s
/-- MULI (R138). -/
def execMuli (d a : Reg) (v : BitVec 12) (s : State) : Out := aluI 0x3 d a v s
/-- ANDI (R138). -/
def execAndi (d a : Reg) (v : BitVec 12) (s : State) : Out := aluI 0xa d a v s
/-- ORI (R138). -/
def execOri (d a : Reg) (v : BitVec 12) (s : State) : Out := aluI 0xb d a v s
/-- XORI (R138). -/
def execXori (d a : Reg) (v : BitVec 12) (s : State) : Out := aluI 0xc d a v s
/-- CMPEQI (R138). -/
def execCmpeqi (d a : Reg) (v : BitVec 12) (s : State) : Out := aluI 0x17 d a v s
/-- CMPLTI (R138). -/
def execCmplti (d a : Reg) (v : BitVec 12) (s : State) : Out := aluI 0x19 d a v s
/-- CMPLTNI (R138). -/
def execCmpltni (d a : Reg) (v : BitVec 12) (s : State) : Out := aluI 0x1a d a v s
/-- MINI (R138). -/
def execMini (d a : Reg) (v : BitVec 12) (s : State) : Out := aluI 0x13 d a v s
/-- MAXI (R138). -/
def execMaxi (d a : Reg) (v : BitVec 12) (s : State) : Out := aluI 0x14 d a v s
/-- SLLI (R138). -/
def execSlli (d a : Reg) (sh : BitVec 6) (s : State) : Out := aluSh 0xe d a sh s
/-- SRLI (R138). -/
def execSrli (d a : Reg) (sh : BitVec 6) (s : State) : Out := aluSh 0xf d a sh s
/-- SRAI (R138). -/
def execSrai (d a : Reg) (sh : BitVec 6) (s : State) : Out := aluSh 0x10 d a sh s
/-- ROLI (R138). -/
def execRoli (d a : Reg) (sh : BitVec 6) (s : State) : Out := aluSh 0x11 d a sh s
/-- LIH (R139). -/
def execLih (d : Reg) (v : BitVec 20) (s : State) : Out := 
  issue s (admits s true [d]) (fun s => advance (setReg s d (immHi v)))
/-- LIPC (R139). -/
def execLipc (d : Reg) (v : BitVec 20) (s : State) : Out := 
  issue s (admits s true [d]) (fun s => advance (setReg s d (pcOf s + immHi v)))
/-- LDI32 (R139); class L, not for Retrievers (R246). -/
def execLdi32 (d : Reg) (v : BitVec 32) (s : State) : Out := 
  issue s (admits s false [d]) (fun s => advance (setReg s d (v.signExtend 64)))
/-- LDI32.N (R139); class L, not for Retrievers (R246). -/
def execLdi32N (d : Reg) (v : BitVec 32) (s : State) : Out := 
  issue s (admits s false [d]) (fun s => advance (setReg s d (v.zeroExtend 64)))
/-- HINT (R44): a NOP whatever its other bits hold. -/
def execHint  (s : State) : Out := 
  issue s true advance

end Sys2Proof.Machine
end

