-- ==== Sys2Proof/Machine/LoadStore.lean ====
section
/-! DEFINITION. Scalar loads, stores and prefetch (R143, R144), and the loading and storing of segment registers (R117). -/

namespace Sys2Proof.Machine

/-- The segment offset of a memory operand (R143). -/
def offOf (s : State) (m : MemRef) : Word := reg s m.a + m.disp.signExtend 64

/-- The value of loaded bytes, sign- or zero-extended. -/
def loadValue (sext : Bool) (bytes : List Byte) : Word :=
  let n := leNat bytes
  if sext && decide (2 ^ (8 * bytes.length - 1) ≤ n) then BitVec.ofInt 64 ((n : Int) - (2 ^ (8 * bytes.length) : Nat))
  else BitVec.ofNat 64 n

/-- A load's value arrives: the register is written and the word retires (R121). -/
def loadDone (d : Reg) (sext : Bool) (s : State) (bytes : List Byte) : State :=
  advance (setReg s d (loadValue sext bytes))

/-- A scalar load of `n` bytes (R143): an acquire must be aligned. -/
def load (n : Nat) (sext : Bool) (d : Reg) (m : MemRef) (s : State) : Out :=
  issue s (admits s true [d, m.a]) (fun s =>
    loadPath s m.seg (offOf s m) n (if m.order = .plain then 1 else n) (m.order == .acq) m.hint
      (fun cva pas acq => .load d m.seg.toNat cva pas sext acq) (loadDone d sext))

/-- A store of the bytes given, through a segment at an offset (R121, R143): accepted, then performed as its page allows. -/
def storePath (s : State) (sg : BitVec 3) (off : Word) (al : Nat) (bytes : List Byte) (rel : Option Nat) (h : Hint)
    (fin : State → State) : State :=
  match scalarCause s sg off bytes.length 1 al with
  | some c => takeCause s c
  | none =>
    let refs := (span ((seg s sg).base.toNat + off.toNat) bytes.length).map (byteRef s (myCtx s))
    fin (acceptStore s s.cur (refs.zip bytes) rel h)

/-- The scope that a release names. -/
def relOf (o : Order) (sc : Scope) : Option Nat :=
  match o with
  | .rel | .ar => some (scopeNum sc)
  | _ => none

/-- A scalar store of `n` bytes (R143): a release must be aligned. -/
def store (n : Nat) (d : Reg) (m : MemRef) (s : State) : Out :=
  issue s (admits s true [d, m.a]) (fun s =>
    storePath s m.seg (offOf s m) (if m.order = .plain then 1 else n) (leBytes n (reg s d).toNat)
      (relOf m.order m.scope) m.hint advance)

/-- The descriptor of two doublewords (Table 5.2), or nothing where SEGLD refuses it (R117): a reserved bit set, a base that
is not a multiple of 8, or an end beyond 2^48. -/
def segOfWords (w0 w1 : Word) : Option Seg :=
  let base := w0.extractLsb' 0 48
  let limit := w1.extractLsb' 0 48
  if field w0 56 8 ≠ 0 || field w0 48 4 ≠ 0 || field w1 48 16 ≠ 0 || base.extractLsb' 0 3 ≠ 0 ||
      decide (2 ^ 48 < base.toNat + limit.toNat) then none
  else some { base := base, limit := limit, r := w0.getLsbD 52, w := w0.getLsbD 53, x := w0.getLsbD 54, v := w0.getLsbD 55 }

/-- The two doublewords of a descriptor (Table 5.2). -/
def wordsOfSeg (g : Seg) : Word × Word :=
  let b (x : Bool) (n : Nat) : Nat := if x then 2 ^ n else 0
  (BitVec.ofNat 64 (g.base.toNat + b g.r 52 + b g.w 53 + b g.x 54 + b g.v 55), BitVec.ofNat 64 g.limit.toNat)

/-- SEGLD's descriptor arrives (R117): checked, then loaded; one that fails takes SEGV kind 4. -/
def segldDone (g : BitVec 3) (sg : Nat) (off : Word) (s : State) (bytes : List Byte) : State :=
  match segOfWords (BitVec.ofNat 64 (leNat (bytes.take 8))) (BitVec.ofNat 64 (leNat (bytes.drop 8))) with
  | none => takeTrap s 2 (segvInfo 4 sg 0) off
  | some x => advance (modHart s (fun h => { h with segs := h.segs.set g.toNat x }))

/-- LD.B (R143). -/
def execLdB (d : Reg) (m : MemRef) (s : State) : Out := load 1 true d m s
/-- LD.H (R143). -/
def execLdH (d : Reg) (m : MemRef) (s : State) : Out := load 2 true d m s
/-- LD.W (R143). -/
def execLdW (d : Reg) (m : MemRef) (s : State) : Out := load 4 true d m s
/-- LD.D (R143). -/
def execLdD (d : Reg) (m : MemRef) (s : State) : Out := load 8 false d m s
/-- LD.B.N (R143). -/
def execLdBN (d : Reg) (m : MemRef) (s : State) : Out := load 1 false d m s
/-- LD.H.N (R143). -/
def execLdHN (d : Reg) (m : MemRef) (s : State) : Out := load 2 false d m s
/-- LD.W.N (R143). -/
def execLdWN (d : Reg) (m : MemRef) (s : State) : Out := load 4 false d m s
/-- ST.B (R143). -/
def execStB (d : Reg) (m : MemRef) (s : State) : Out := store 1 d m s
/-- ST.H (R143). -/
def execStH (d : Reg) (m : MemRef) (s : State) : Out := store 2 d m s
/-- ST.W (R143). -/
def execStW (d : Reg) (m : MemRef) (s : State) : Out := store 4 d m s
/-- ST.D (R143). -/
def execStD (d : Reg) (m : MemRef) (s : State) : Out := store 8 d m s

/-- PREF (R144): the line that holds the address is asked for; where that would trap, park or reach an aperture, or the
granule is poisoned, it is dropped and counted. It always retires. The manual gives its segment check no extent: it is of the one
byte addressed here (DESIGN CHOICE, log 26). -/
def execPref (m : MemRef) (s : State) : Out :=
  issue s (admits s true [m.a]) (fun s =>
    let off := offOf s m
    let r := byteRef s (myCtx s) ((seg s m.seg).base.toNat + off.toNat)
    if (scalarCause s m.seg off 1 0 1).isSome || 2 ≤ r.pa / 2 ^ 46 || (r.at_.under s).any (poisoned s) then
      advance (countErr s (myCtx s) 1)
    else advance (touchLoad s s.cur [r] m.hint))

/-- SEGLD (R117). -/
def execSegld (g : BitVec 3) (m : MemRef) (s : State) : Out :=
  issue s (admits s false [m.a]) (fun s =>
    let off := offOf s m
    loadPath s m.seg off 16 16 false m.hint (fun cva pas _ => .segld g m.seg.toNat off cva pas) (segldDone g m.seg.toNat off))

/-- SEGST (R117). -/
def execSegst (g : BitVec 3) (m : MemRef) (s : State) : Out :=
  issue s (admits s false [m.a]) (fun s =>
    let (w0, w1) := wordsOfSeg (seg s g)
    storePath s m.seg (offOf s m) 16 (leBytes 8 w0.toNat ++ leBytes 8 w1.toNat) none m.hint advance)

end Sys2Proof.Machine
end

