-- ==== Sys2Proof/Machine/Copy.lean ====
section
/-! DEFINITION. Copies (R251 to R258): how they are checked and accepted, the stream and its chunks, what a chunk does when
it is performed or faults, stage-barrier arrivals (R261, R262) and progress records (R256). -/

namespace Sys2Proof.Machine

/-! ### Handles -/

/-- The key of a handle's progress record: tags 0 to 63, then barriers (R256). -/
def handleKey (h : Handle) : Nat := h.n.toNat + (if h.barrier then 64 else 0)

/-- The stage-barrier window of a context in a pool: base and count (R260, Table 11.4), of the lowest valid entry that names the
context where several do (DESIGN CHOICE, log 38). -/
def sbWindow (s : State) (p c : Nat) : Nat × Nat :=
  match entryOf s p c with
  | some e => (field e.dw2 7 6, field e.dw2 0 7)
  | none => (0, 0)

/-- The pool's number of a barrier of the context's window; none at or above the count (R260). -/
def sbAbs (s : State) (p c n : Nat) : Option Nat :=
  let w := sbWindow s p c
  if n < w.2 then some (w.1 + n) else none

/-- Barrier `n` of a context's window in a pool, bound there or saved at its unbind (R264). -/
def winBarrier (s : State) (p c n : Nat) : Option Barrier :=
  match sbAbs s p c n with
  | some k => some (kget (pool s p).barriers k Barrier.zero)
  | none => match ctx? s c with
    | some x => kfind (kget x.savedBarriers p []) n
    | none => none
/-- That barrier changed. -/
def modWinBarrier (s : State) (p c n : Nat) (f : Barrier → Barrier) : State :=
  match winBarrier s p c n with
  | none => s
  | some b => match sbAbs s p c n with
    | some k => modPool s p (fun x => { x with barriers := kset x.barriers k (f b) })
    | none => modCtx s c (fun x => { x with savedBarriers := kset x.savedBarriers p (kset (kget x.savedBarriers p []) n (f b)) })

/-- A stage barrier of a pool. -/
def barrier (s : State) (p k : Nat) : Barrier := kget (pool s p).barriers k Barrier.zero
/-- A stage barrier replaced. -/
def setBarrier (s : State) (p k : Nat) (b : Barrier) : State :=
  modPool s p (fun x => { x with barriers := kset x.barriers k b })

/-- PEND as the signed number it counts (Table 9.6). -/
def pendInt (b : Barrier) : Int := b.pend.toInt

/-- The full half's phase flips once armed with nothing pending (R261). -/
def flipFull (b : Barrier) : Barrier :=
  if b.armed && decide (pendInt b ≤ 0) then { b with fph := !b.fph, armed := false } else b

/-- An empty progress record (Table 9.4). -/
def Progress.idle : Progress :=
  { state := 0, op := 0, fkind := 0, fside := false, byRet := false, chunk := 0, faddr := 0, dseg := 0, doff := 0
    aseg := 0, aoff := 0, ops := [] }

/-- A progress record of a thread. -/
def progressOf (x : Thread) (k : Nat) : Progress := kget x.progress k Progress.idle
/-- A progress record written. -/
def putProgress (x : Thread) (k : Nat) (p : Progress) : Thread := { x with progress := kset x.progress k p }

/-! ### Streams -/

/-- The number of operand registers of a shape (Table 9.3). -/
def opCount (op : Nat) : Nat := match op with | 0 => 1 | 3 => 3 | _ => 4

/-- Operand `i` of a copy as a natural number. -/
def Copy.opN (c : Copy) (i : Nat) : Nat := (c.ops.getD i 0).toNat
/-- Operand `i` of a copy as a signed number. -/
def Copy.opI (c : Copy) (i : Nat) : Int := (c.ops.getD i 0).toInt

/-- Whether a CPYT copies from the region to linear memory (Table 9.3). -/
def Copy.fromRegion (c : Copy) : Bool := c.opN 0 == 0
/-- The region side's segment and offset of a CPYT. -/
def Copy.regSide (c : Copy) : Seg × Word := if c.fromRegion then (c.asegv, c.aoff) else (c.dsegv, c.doff)

/-- The view and region that a CPYT's aperture names now, as the device learns them at issue (R252). -/
def Copy.region (s : State) (c : Copy) : Option (Nat × Region) :=
  let (g, off) := c.regSide
  match xlate s c.ctx (g.base.toNat + off.toNat) with
  | .page pa _ _ _ _ =>
    if inRegions pa then (kfind s.regions (pa / 2 ^ 38 % 64)).map (fun r => (pa / 2 ^ 44 % 4, r)) else none
  | _ => none

/-- First row and column of a CPYT's window, and its rows and columns (Table 9.3). -/
def Copy.window (c : Copy) : Nat × Nat × Nat × Nat :=
  (c.opN 1 % 2 ^ 32, c.opN 1 / 2 ^ 32, c.opN 2 % 2 ^ 32, c.opN 2 / 2 ^ 32)

/-- The pairs (outer, inner) of a window of `n` by `m` elements whose pitch in elements is smaller than a run, by ascending
linear offset (R252); of elements that share an offset, those of the lower outer index first, which the manual leaves open (DESIGN
CHOICE, log 35). -/
def overlaid (p : Int) (n m : Nat) : List (Nat × Nat) :=
  let lo : Int := min 0 (p * (n - 1 : Nat))
  let count := (max 0 (p * (n - 1 : Nat)) - lo).toNat + m
  (List.range count).flatMap (fun q =>
    (List.range n).filterMap (fun (o : Nat) =>
      let i : Int := lo + (q : Nat) - p * (o : Nat)
      if 0 ≤ i ∧ i < m then some (o, i.toNat) else none))

/-- Element `k` of a window's stream as (outer, inner) (R252). -/
def streamPair (p : Int) (n m k : Nat) : Nat × Nat :=
  if (m : Int) ≤ p ∨ n ≤ 1 then (k / m, k % m)
  else if p ≤ -(m : Int) then (n - 1 - k / m, k % m)
  else (overlaid p n m).getD k (0, 0)

/-- Window element and linear offset of element `k` of a CPYT's stream (R252). -/
def Copy.winElem (c : Copy) (view : Nat) (r : Region) (k : Nat) : Nat × Nat × Int :=
  let (_, _, rows, cols) := c.window
  let e := r.e
  let p := c.opI 3
  match view with
  | 0 => let (i, j) := streamPair (p / e) rows cols k; (i, j, i * p + j * e)
  | 1 => let (j, i) := streamPair (p / e) cols rows k; (i, j, j * p + i * e)
  | _ =>
    let w := k * e / 2048
    let across := cols / r.tc
    let (a, b) := r.elemAt 0 (k * e % 2048)
    (w / across * r.tr + a, w % across * r.tc + b % r.tc, k * e)

/-- An offset taken mod 2^64 (R251). -/
def off64 (x : Int) : Nat := (x % (2 ^ 64 : Nat)).toNat

/-- A byte of a copy's stream: both sides resolved; delayed by a page that is not present; or faulting, with FSIDE, FKIND and
FADDR (R255). -/
inductive StreamByte where
  | ok (dst src : ByteRef)
  | delay (cva : Nat)
  | bad (side : Bool) (kind cva : Nat)
  deriving DecidableEq, Repr

/-- One byte of a side, judged as R255 does. A CPY, CPY2 or CPYG whose byte lies in a region aperture through a segment without right V
faults so, with FKIND 1: R253 names V at issue for CPYT alone (DESIGN CHOICE, log 35). -/
def sideByte (s : State) (c : Copy) (dst : Bool) (g : Seg) (off : Nat) : Sum StreamByte ByteRef :=
  let cva := g.base.toNat + off
  match xlate s c.ctx cva with
  | .none _ => .inl (.bad dst 2 cva)
  | .integ => .inl (.bad dst 5 cva)
  | .absent => .inl (.delay cva)
  | .page pa k code w r =>
    if inRegions pa && !g.v then .inl (.bad dst 1 cva)
    else if denied s (if dst then 1 else 0) (.page pa k code w r) then .inl (.bad dst 3 cva)
    else
      let b := byteRef s c.ctx cva
      if !dst && (b.at_.under s).any (poisoned s) then .inl (.bad false 7 cva) else .inr b

/-- Both sides of one stream byte at offsets; where both fault, the source's fault is reported (DESIGN CHOICE, log 35). -/
def bothSides (s : State) (c : Copy) (doff aoff : Nat) : StreamByte :=
  match sideByte s c false c.asegv aoff with
  | .inl x => x
  | .inr a => match sideByte s c true c.dsegv doff with
    | .inl x => x
    | .inr d => .ok d a

/-- The bytes of a CPYG's index list that give the sources of some stream bytes (R251). -/
def Copy.indexRefs (s : State) (c : Copy) (ts : List Nat) : List ByteRef :=
  if c.op ≠ 3 then [] else
  ((ts.map (fun t : Nat => t / 2 ^ c.opN 1)).dedup.flatMap
    (fun i : Nat => span (off64 ((c.opN 2 + 4 * i : Nat) : Int)) 4)).map (fun o => byteRef s c.ctx (c.asegv.base.toNat + o))

/-- A stream byte of a CPYG: its index entry, then its source element, checked one by one (R251, R253, R255). -/
def gatherByte (s : State) (c : Copy) (t : Nat) : StreamByte :=
  let es : Nat := 2 ^ c.opN 1
  let idx := (span (off64 (c.opN 2 + 4 * (t / es))) 4).map (sideByte s c false c.asegv)
  match idx.find? (fun x => match x with | .inl _ => true | .inr _ => false) with
  | some (.inl x) => x
  | _ =>
    let d := dieOfCore (c.thread / 17)
    let n := leNat (idx.map (fun x => match x with | .inr b => readShared s d b | .inl _ => 0))
    let src : Nat := off64 (c.aoff.toNat + (n : Nat))
    let g := c.asegv
    let cva := g.base.toNat + src
    if !g.r then .bad false 1 cva
    else if g.limit.toNat < src + es then .bad false 4 cva
    else bothSides s c (off64 (c.doff.toNat + t)) (src + t % es : Nat)

/-- Whether the region rejects a CPYT's window (FKIND 8): one of the store view, one of the tiled view that is not whole tiles with
P = 0, or one without a region. The manual names no consequence at issue (DESIGN CHOICE, log 35). -/
def Copy.rejected (c : Copy) : Bool :=
  match c.geom with
  | none => true
  | some (view, r) =>
    let (row0, col0, rows, cols) := c.window
    let whole := row0 % r.tr == 0 && col0 % r.tc == 0 && rows % r.tr == 0 && cols % r.tc == 0 && c.opN 3 == 0
    view == 3 || (view == 2 && !whole)

/-- The offsets of stream byte `t` of a CPYT on its region side and on its linear side, by the view and region learned at issue; the
bytes of a rejected window are counted row by row (DESIGN CHOICE, log 35). -/
def Copy.windowOffs (c : Copy) (t : Nat) : Nat × Nat :=
  let (_, off) := c.regSide
  let lin := if c.fromRegion then c.doff else c.aoff
  match c.geom with
  | none => (off.toNat, lin.toNat)
  | some (view, r) =>
    let (row0, col0, _, cols) := c.window
    let b : Nat := t % r.e
    let k : Nat := t / r.e
    let (i, j, l) := if c.rejected then (k / cols, k % cols, ((k * r.e : Nat) : Int)) else c.winElem view r k
    (off64 ((off.toNat + r.viewOff view (row0 + i) (col0 + j) + b : Nat) : Int), off64 ((lin.toNat : Int) + l + (b : Int)))

/-- The offsets of stream byte `t` of a copy on its destination and its source side (Table 9.3, R252); a CPYG's is
the byte's entry of the index list (R251). -/
def Copy.offs (c : Copy) (t : Nat) : Nat × Nat :=
  match c.op with
  | 0 => (off64 (c.doff.toNat + t), off64 (c.aoff.toNat + t))
  | 1 =>
    let r := t / c.opN 0
    let b := t % c.opN 0
    (off64 (c.doff.toNat + r * c.opI 3 + b), off64 (c.aoff.toNat + r * c.opI 2 + b))
  | 2 => let (g, l) := c.windowOffs t; if c.fromRegion then (l, g) else (g, l)
  | _ => (off64 (c.doff.toNat + t), off64 (c.opN 2 + 4 * (t / 2 ^ c.opN 1 : Nat)))

/-- Stream byte `t` of a copy (Table 9.3, R251, R252). -/
def streamByte (s : State) (c : Copy) (t : Nat) : StreamByte :=
  if c.op = 3 then gatherByte s c t
  else if c.op = 2 && c.rejected then .bad (!c.fromRegion) 8 (c.regSide.1.base.toNat + (c.windowOffs t).1)
  else bothSides s c (c.offs t).1 (c.offs t).2

/-- The chunks of a copy (R254). -/
def Copy.chunks (c : Copy) : Nat := (c.len + 4095) / 4096
/-- The stream bytes of chunk `k`. -/
def Copy.chunkBytes (c : Copy) (k : Nat) : List Nat := span (4096 * k) (min 4096 (c.len - 4096 * k))

/-! ### Running -/

/-- A copy of a pool by its id. -/
def findCopy (s : State) (p id : Nat) : Option Copy := (pool s p).copies.find? (fun c => c.id = id)
/-- A copy of a pool changed. -/
def modCopy (s : State) (p id : Nat) (f : Copy → Copy) : State :=
  modPool s p (fun x => { x with copies := x.copies.map (fun c => if c.id = id then f c else c) })

/-- The chunks that may start now: at most 16 in flight, none after a fault or at a checkpoint (R254, R255, R258). -/
def Copy.startable (c : Copy) : List Nat :=
  if !c.bad.isEmpty || c.closing then [] else
  let low := c.live.foldl min c.next
  (List.range 16).map (c.next + ·) |>.filter (fun k => decide (k < c.chunks ∧ k < low + 16))

/-- The pool's engine starts the chunks it may, of its first 32 copies in acceptance order (R254). -/
def pump (s : State) (p : Nat) : State :=
  let started := ((pool s p).copies.take 32).flatMap (fun c => c.startable.map (fun k => (c.id, k)))
  let s := modPool s p (fun x => { x with
    copies := (x.copies.take 32).map (fun c =>
      { c with next := c.next + c.startable.length, live := c.live ++ c.startable }) ++ x.copies.drop 32 })
  owe s (started.map (fun q => ev .chunkDone p q.1 q.2))

/-- The record of a copy as accepted (R253 step 5). -/
def Copy.record (c : Copy) : Progress :=
  { state := 1, op := c.op, fkind := 0, fside := false, byRet := c.ret, chunk := 0, faddr := 0
    dseg := c.dseg, doff := c.doff, aseg := c.aseg, aoff := c.aoff, ops := c.ops }

/-- A tag's bit. -/
def tagBit (n : Nat) : Word := BitVec.ofNat 64 (2 ^ n)

/-- A handle completes with a record (R99, R259, R262). -/
def completeHandle (s : State) (p : Nat) (c : Copy) (r : Progress) : State :=
  let s := modThr s c.thread (fun x =>
    let x := putProgress x (handleKey c.handle) r
    if c.handle.barrier then x else { x with tags := x.tags ||| tagBit c.handle.n.toNat })
  if c.handle.barrier && r.state == 3 then modWinBarrier s p c.ctx c.handle.n.toNat (fun b => { b with fault := true }) else s

/-- Whether another copy of the same handle is in flight. -/
def sharesHandle (s : State) (p : Nat) (c : Copy) : Bool :=
  (pool s p).copies.any (fun y => y.id != c.id && y.thread == c.thread && y.handle == c.handle)

/-- The lowest fault of a copy. -/
def Copy.firstBad (c : Copy) : Option (Nat × Nat × Bool × Nat) :=
  c.bad.foldl (fun b x => match b with
    | some y => if x.1 < y.1 then some x else b
    | none => some x) none

/-- A copy with nothing in flight that starts no more chunks leaves the engine: done, at fault, or checkpointed with CHUNK
the lowest chunk not performed (R254, R255, R258). Copies in flight that name one barrier share its record: it is done with the last of
them, and each fault or checkpoint writes it as it comes (DESIGN CHOICE, log 35). -/
def settleCopy (s : State) (p id : Nat) : State :=
  match findCopy s p id with
  | none => s
  | some c =>
    if !c.live.isEmpty then s else
    let gone := modPool s p (fun x => { x with copies := x.copies.filter (fun y => y.id ≠ id) })
    match c.firstBad with
    | some (k, kind, side, addr) =>
      completeHandle gone p c { c.record with state := 3, chunk := k, fkind := kind, fside := side, faddr := addr }
    | none =>
      if c.chunks ≤ c.next then
        if sharesHandle s p c then gone
        else completeHandle gone p c { progressOf (thr s c.thread) (handleKey c.handle) with state := 2 }
      else if c.closing then
        let s := modThr gone c.thread (fun x => putProgress x (handleKey c.handle)
          { progressOf x (handleKey c.handle) with chunk := c.next })
        modCtx s c.ctx (fun x => { x with savedCopies := x.savedCopies ++ [c] })
      else s

/-- Bytes of a copy performed at package scope lower its barrier's PEND (R99, R261). -/
def arriveBytes (s : State) (p : Nat) (c : Copy) (n : Nat) : State :=
  if !c.handle.barrier || n == 0 then s else
  modWinBarrier s p c.ctx c.handle.n.toNat (fun b => flipFull { b with pend := b.pend - BitVec.ofNat 48 n })

/-- Who issued a copy, as logs and queues name it (R98). -/
def Copy.issuer (c : Copy) : Agent := match c.byRet with | some n => .ret n | none => .thread c.thread

/-- The chunks above `k` that have been performed (R254). -/
def Copy.doneAbove (c : Copy) (k : Nat) : List Nat :=
  (span (k + 1) (c.next - (k + 1))).filter (fun j =>
    (!c.live.contains j || c.wrote.any (fun w => w.1 == j)) && !c.bad.any (fun b => b.1 == j))

/-- The bytes of chunk `k` of a copy, its index entries read once what any die holds of them for itself has come home (R105). -/
def chunkStream (s : State) (c : Copy) (k : Nat) : List StreamByte :=
  (c.chunkBytes k).map (streamByte (served s (c.indexRefs s (c.chunkBytes k))) c)

/-- The destination locations of a chunk. -/
def chunkDests (s : State) (c : Copy) (k : Nat) : List Nat :=
  (chunkStream s c k).filterMap (fun x => match x with
    | .ok d _ => if d.has then some d.loc else none
    | _ => none)

/-- The bytes of chunk `k` that are to be written: where a chunk above it has been performed already and wrote the same location,
the byte of the higher stream index stands (R254). -/
def standing (s : State) (c : Copy) (k : Nat) (l : List (ByteRef × ByteRef)) : List (ByteRef × ByteRef) :=
  let above := (c.doneAbove k).flatMap (chunkDests s c)
  if above.isEmpty then l else l.filter (fun x => !(x.1.has && above.contains x.1.loc))

/-- Bytes of a chunk written, source first (R254), as writes of one number; lines it reads go through its die's L2 without a
retention tag (R281), and those under a non-native view are recalled (R105). -/
def writeStream (s : State) (p : Nat) (c : Copy) (l : List (ByteRef × ByteRef)) : State :=
  let d := p / 24
  let s := served s (l.map (·.2))
  let bytes := l.map (fun x => (x.1, readShared s d x.2))
  let s := touchEngine s d (l.map (·.2))
  let s := countRefused s c.ctx bytes
  let s' := (vectorPieces s (bytes.filter (fun x => x.1.has))).foldl
    (fun t l => performStore t { pieceStore s c.issuer none .none l with copy := true }) s
  { s' with nextId := s'.nextId + 1 }

/-- Chunk `k` of a copy written: its index entries are read, then its bytes (R251, R254). -/
def writeChunk (s : State) (p : Nat) (c : Copy) (k : Nat) (l : List (ByteRef × ByteRef)) : State :=
  let idx := c.indexRefs s (c.chunkBytes k)
  writeStream (touchEngine (served s idx) (p / 24) idx) p c (standing s c k l)

/-- A chunk is over: it leaves the engine, which goes on to the next. -/
def endChunk (s : State) (p id k : Nat) : State :=
  let s := modCopy s p id (fun c => { c with live := c.live.filter (· ≠ k), wrote := c.wrote.filter (fun w => w.1 ≠ k) })
  settleCopy (pump s p) p id

/-- A chunk whose bytes have been written: over, once none of them waits in a die's write queue (R99, R261, R274). `op` numbers its
writes, of which there are `n` bytes. -/
def chunkWritten (s : State) (p id k op n : Nat) (c : Copy) : State :=
  if opQueued s op then
    owe (modCopy s p id (fun c => if c.wrote.any (fun w => w.1 == k) then c else { c with wrote := c.wrote ++ [(k, op, n)] }))
      [ev .chunkDone p id k]
  else endChunk (arriveBytes s p c n) p id k

/-- A chunk's bytes once resolved: delayed on the first page that is not present, faulting at the lowest faulting byte, or
all resolved. -/
inductive ChunkState where
  | delay (cva : Nat)
  | bad (side : Bool) (kind cva : Nat)
  | ok (l : List (ByteRef × ByteRef))
  deriving DecidableEq, Repr

/-- What becomes of a chunk now (R254, R255). -/
def judgeChunk (s : State) (c : Copy) (k : Nat) : ChunkState :=
  let l := chunkStream s c k
  match l.findSome? (fun x => match x with | .delay a => some a | _ => none) with
  | some a => .delay a
  | none => match l.findSome? (fun x => match x with | .bad a b d => some (a, b, d) | _ => none) with
    | some (a, b, d) => .bad a b d
    | none => .ok (l.filterMap (fun x => match x with | .ok d a => some (d, a) | _ => none))

/-- CHUNK_DONE (R254): a chunk in flight is performed. A page that is not present delays it while the pager brings it in;
bytes that entered a die's write queue are performed at package scope once they leave it (R99, R274). -/
def execChunkDone (s : State) : Out :=
  let p := s.msg.a
  let id := s.msg.b
  let k := s.msg.c
  match findCopy s p id with
  | none => .next s
  | some c =>
    if !c.live.contains k then .next s
    else match c.wrote.find? (fun w => w.1 == k) with
    | some (_, op, n) => .next (chunkWritten s p id k op n c)
    | none => match judgeChunk s c k with
      | .delay a => .next (fileReport (owe s [ev .chunkDone p id k]) c.ctx (a / 4096))
      | .bad _ _ _ => .next (owe s [ev .chunkFault p id k])
      | .ok l => .next (chunkWritten (writeChunk s p c k l) p id k s.nextId (c.chunkBytes k).length c)

/-- CHUNK_FAULT (R255): a chunk in flight faults, by its own bytes or, where the message says so, by an uncorrectable data
error of its source; one whose bytes no longer fault goes on as CHUNK_DONE has it. Each of a faulting chunk's other bytes may or may
not have been written (log 9); it is over once those that were are performed at package scope (R99). -/
def execChunkFault (s : State) : Out :=
  let p := s.msg.a
  let id := s.msg.b
  let k := s.msg.c
  match findCopy s p id with
  | none => .next s
  | some c =>
    if !c.live.contains k || c.wrote.any (fun w => w.1 == k) then .next s else
    let l := chunkStream s c k
    let oks := l.filterMap (fun x => match x with | .ok d a => some (d, a) | _ => none)
    let fault := match judgeChunk s c k with
      | .bad side kind a => some (kind, side, a)
      | .ok ((_, a) :: _) => if s.msg.flag then some (7, false, a.cva) else none
      | _ => none
    match fault with
    | none => .next (if s.msg.flag then s else owe s [ev .chunkDone p id k])
    | some (kind, side, a) =>
      let part := (oks.zipIdx.filter (fun x => Config.mixed (s.free + x.2))).map (·.1)
      let t := writeChunk { s with free := s.free + oks.length } p c k part
      let t := modCopy t p id (fun c => { c with bad := c.bad ++ [(k, kind, side, a)] })
      .next (chunkWritten t p id k s.nextId part.length c)

/-! ### Issue -/

/-- Whether a handle may be named: a barrier must lie in the window and be VALID (R253 step 1). -/
def handleOk (s : State) (h : Handle) : Bool :=
  !h.barrier || match sbAbs s (myPool s) (myCtx s) h.n.toNat with
    | some k => (barrier s (myPool s) k).valid
    | none => false

/-- Whether the operands of a shape lie in the ranges of Table 9.3. -/
def opsOk (op : Nat) (ops : List Word) : Bool :=
  let n (i : Nat) := (ops.getD i 0).toNat
  match op with
  | 2 => decide (n 0 ≤ 1)
  | 3 => decide (n 1 ≤ 12)
  | _ => true

/-- The check of R116 on the exact extent [lo, hi) of a side. -/
def extentCheck (g : Seg) (sg : Nat) (lo hi : Int) (acc : Nat) : Option Cause :=
  segCheck g sg (off64 lo) (hi - lo).toNat acc

/-- The lowest and highest+1 offsets of runs of `n` bytes at a stride (R253). -/
def extent (base : Nat) (n rows : Nat) (stride : Int) : Int × Int :=
  if n = 0 ∨ rows = 0 then (base, base)
  else
    let far := stride * (rows - 1 : Nat)
    (base + min 0 far, base + max 0 far + n)

/-- CPYT's checks on its region side (R253 step 2): the core's check of R116 over the whole extent, right V, the window and a write
through a decode view (R129). The manual names no cause for a register that names no region aperture: it is
SEGV of sub-kind 0, and of sub-kind 2 where the address has no mapping (DESIGN CHOICE, log 35). -/
def regionCheck (s : State) (c : Copy) : Option Cause :=
  let (g, off) := c.regSide
  let sg := (if c.fromRegion then c.aseg else c.dseg).toNat
  let acc := if c.fromRegion then 0 else 1
  let cva := g.base.toNat + off.toNat
  match c.region s with
  | none =>
    (segCheck g sg off.toNat 1 acc).or (match xlate s c.ctx cva with
      | .none bad => some (.trap 2 (segvInfo 2 sg acc) (BitVec.ofNat 64 cva) bad)
      | _ => some (.trap 2 (segvInfo 0 sg acc) off false))
  | some (view, r) =>
    let (row0, col0, rows, cols) := c.window
    let last := (off.toNat : Int) +
      (if rows = 0 ∨ cols = 0 then 0 else r.viewOff view (row0 + rows - 1) (col0 + cols - 1) + r.e : Nat)
    (extentCheck g sg off.toNat last acc).or
      (if !g.v then some (.trap 2 (segvInfo 1 sg acc) off false)
      else if r.rows < row0 + rows || r.cols < col0 + cols then some (.trap 2 (segvInfo 0 sg acc) off false)
      else if acc == 1 && r.decode && view != 3 then some (.trap 2 (segvInfo 3 sg acc) (BitVec.ofNat 64 cva) false)
      else none)

/-- The linear side of a CPYT: its segment, register number, offset and access. -/
def Copy.linSide (c : Copy) : Seg × Nat × Nat × Nat :=
  if c.fromRegion then (c.dsegv, c.dseg.toNat, c.doff.toNat, 1) else (c.asegv, c.aseg.toNat, c.aoff.toNat, 0)

/-- The extent of a CPYT's linear side (R252, R253). -/
def linExtent (s : State) (c : Copy) : Int × Int :=
  let (_, _, off, _) := c.linSide
  let (_, _, rows, cols) := c.window
  match c.region s with
  | none => (off, off)
  | some (view, r) =>
    match view with
    | 0 => extent off (cols * r.e) rows (c.opI 3)
    | 1 => extent off (rows * r.e) cols (c.opI 3)
    | _ => extent off (rows * cols * r.e) 1 0

/-- Step 2 of R253: both sides over whole extents. Where both fail, the destination's cause is taken: the manual orders the causes of
one access and not the two sides (DESIGN CHOICE, log 35). -/
def copySegs (s : State) (c : Copy) : Option Cause :=
  let d (e : Int × Int) := extentCheck c.dsegv c.dseg.toNat e.1 e.2 1
  let a (e : Int × Int) := extentCheck c.asegv c.aseg.toNat e.1 e.2 0
  let dn := c.doff.toNat
  let an := c.aoff.toNat
  match c.op with
  | 0 => (d (extent dn c.len 1 0)).or (a (extent an c.len 1 0))
  | 1 => (d (extent dn (c.opN 0) (c.opN 1) (c.opI 3))).or (a (extent an (c.opN 0) (c.opN 1) (c.opI 2)))
  | 2 =>
    let (g, sg, _, acc) := c.linSide
    let lin := linExtent s c
    let l := extentCheck g sg lin.1 lin.2 acc
    if c.fromRegion then l.or (regionCheck s c) else (regionCheck s c).or l
  | _ => (d (extent dn c.len 1 0)).or (a (extent (c.opN 2) (4 * c.opN 0) 1 0))

/-- Step 3 of R253: ALIGN. For a pitch P its TVAL is P (DESIGN CHOICE, log 35). -/
def copyAlign (s : State) (c : Copy) : Option Cause :=
  match c.op with
  | 2 => match c.region s with
    | some (_, r) =>
      let (_, _, off, acc) := c.linSide
      if off % r.e ≠ 0 then some (alignCause acc (BitVec.ofNat 64 off))
      else if c.opN 3 % r.e ≠ 0 then some (alignCause acc (c.ops.getD 3 0))
      else none
    | none => none
  | 3 => if c.opN 2 % 4 ≠ 0 then some (alignCause 0 (c.ops.getD 2 0)) else none
  | _ => none

/-- The stream's length. -/
def copyLen (s : State) (c : Copy) : Nat :=
  match c.op with
  | 0 => c.opN 0
  | 1 => c.opN 0 * c.opN 1
  | 2 =>
    let (_, _, rows, cols) := c.window
    match c.region s with
    | some (_, r) => rows * cols * r.e
    | none => 0
  | _ => c.opN 0 * 2 ^ c.opN 1

/-- A checkpointed copy set up again for its issuer, whose g registers its sides now take (R257, R258). -/
def Copy.again (s : State) (c : Copy) : Copy :=
  let c := { c with dsegv := seg s c.dseg, asegv := seg s c.aseg, live := [], wrote := [], bad := [], closing := false }
  { c with len := copyLen s c, geom := c.region s }

/-- The FKIND that a failed check of R253 stands for: 4 a limit, 1 rights, 2 no mapping, 3 a page or region that refuses
(R255). -/
def Cause.fkind : Cause → Nat
  | .trap _ info _ _ => match info % 16 with | 0 => 4 | k => k
  | .park _ => 2

/-- Whether a cause lies on a destination side: its access is a write. -/
def Cause.onDest : Cause → Bool
  | .trap _ info _ _ => info / 128 == 1
  | .park _ => false

/-- FADDR of a check of R253 that fails on one side (R256): the lowest byte of chunk CHUNK that lies outside the side's limit, or the
chunk's first byte where none does. -/
def Copy.failAddr (c : Copy) (dst : Bool) : Nat :=
  let g := if dst then c.dsegv else c.asegv
  let l := (c.chunkBytes c.next).map (fun t => if dst then (c.offs t).1 else (c.offs t).2)
  g.base.toNat + ((l.find? (fun o => decide (g.limit.toNat ≤ o))).getD (l.headD (if dst then c.doff else c.aoff).toNat))

/-- A copy that was checkpointed at its unbind restarts at its CHUNK as its thread resumes (R258): the segment check of R253 is
made again, as CPYRES makes it (R257). The manual does not say what becomes of one that fails it: it completes at fault, with the
FKIND of the check and the FADDR that Table 9.4 gives chunk CHUNK (DESIGN CHOICE, log 27). -/
def resumeCopy (s : State) (p : Nat) (c : Copy) : State :=
  let s := { s with nextId := s.nextId + 1 }
  let c := c.again s
  match copySegs s c with
  | none => modPool s p (fun q => { q with copies := q.copies ++ [c] })
  | some x =>
    completeHandle s p c { progressOf (thr s c.thread) (handleKey c.handle) with
      state := 3, chunk := c.next, fkind := x.fkind, fside := x.onDest, faddr := c.failAddr x.onDest }

/-- Whether a copy of a thread must wait for its engine (R253 step 4): its tag is in flight, or the queue of 256 is full, the copies
that run counted in (DESIGN CHOICE, log 35). -/
def engineFull (s : State) (t : Nat) (h : Handle) : Bool :=
  (!h.barrier && (progressOf (thr s t) (handleKey h)).state == 1) || decide (256 ≤ (pool s (poolOf t)).copies.length)

/-- Whether a copy must wait before it is accepted: for its engine, which must be live (R23; log 36), or for an earlier store of its
issuer that is not yet performed for every agent (R253 step 4, R99). -/
def copyWaits (s : State) (h : Handle) : Bool :=
  !poolLive s || engineFull s (me s) h || pendingOf s s.cur != 0 || ownQueued s s.cur

/-- A copy handed to the engine with a record (R253 step 5, R257), from chunk `c.next`; one with nothing left completes at
once. -/
def acceptCopy (s : State) (c : Copy) (r : Progress) : State :=
  let p := myPool s
  let s := modMy s (fun x =>
    let x := putProgress { x with window := if c.handle.barrier then some p else x.window } (handleKey c.handle) r
    if c.handle.barrier then x else { x with tags := x.tags &&& ~~~tagBit c.handle.n.toNat })
  let s := modPool { s with nextId := s.nextId + 1 } p (fun x => { x with copies := x.copies ++ [c] })
  advance (settleCopy (pump s p) p c.id)

/-- A copy instruction (R251, R253). -/
def copyWord (op : Nat) (o : CopyRef) (h : Handle) (s : State) : Out :=
  let n := opCount op
  let regs := (List.range n).map (fun i => reg s (o.b + BitVec.ofNat 6 i))
  issue s (admits s true [o.d, o.a, o.b] && decide (o.b.toNat + n ≤ regCount s) && opsOk op regs && handleOk s h)
    (fun s =>
      let c : Copy :=
        { id := s.nextId, ctx := myCtx s, thread := me s
          byRet := match s.cur with | .ret n => some n | .thread _ => none
          handle := h, op := op, dsegv := seg s o.dseg, asegv := seg s o.aseg, dseg := o.dseg, aseg := o.aseg
          doff := reg s o.d, aoff := reg s o.a, ops := regs ++ List.replicate (4 - n) 0, len := 0, next := 0
          live := [], wrote := [], bad := [], closing := false, geom := none, ret := onRet s }
      let c := { c with len := copyLen s c, geom := c.region s }
      match (copySegs s c).or (copyAlign s c) with
      | some x => takeCause s x
      | none => if copyWaits s h then waitHere s
        else acceptCopy (trace s 5 (handleKey h) (BitVec.ofNat 64 c.len)) c c.record)

/-- CPY (R251). -/
def execCpy (o : CopyRef) (h : Handle) (s : State) : Out := copyWord 0 o h s
/-- CPY2 (R251). -/
def execCpy2 (o : CopyRef) (h : Handle) (s : State) : Out := copyWord 1 o h s
/-- CPYT (R252). -/
def execCpyt (o : CopyRef) (h : Handle) (s : State) : Out := copyWord 2 o h s
/-- CPYG (R251). -/
def execCpyg (o : CopyRef) (h : Handle) (s : State) : Out := copyWord 3 o h s

/-- CPYRES (R257): a copy at fault starts again at its recorded chunk; otherwise nothing. -/
def execCpyres (h : Handle) (s : State) : Out :=
  issue s (admits s true [] && handleOk s h) (fun s =>
    let r := progressOf (my s) (handleKey h)
    if r.state ≠ 3 then advance s else
    let c : Copy :=
      { id := s.nextId, ctx := myCtx s, thread := me s
        byRet := match s.cur with | .ret n => some n | .thread _ => none
        handle := h, op := r.op, dsegv := seg s r.dseg, asegv := seg s r.aseg, dseg := r.dseg, aseg := r.aseg
        doff := r.doff, aoff := r.aoff, ops := r.ops, len := 0, next := r.chunk
        live := [], wrote := [], bad := [], closing := false, geom := none, ret := r.byRet }
    let c := { c with len := copyLen s c, geom := c.region s }
    match copySegs s c with
    | some x => takeCause s x
    | none =>
      if copyWaits s h then waitHere s
      else
        let s := match (if h.barrier then sbAbs s (myPool s) (myCtx s) h.n.toNat else none) with
          | some k => setBarrier s (myPool s) k { barrier s (myPool s) k with fault := false }
          | none => s
        acceptCopy s c { r with state := 1, fkind := 0, fside := false, faddr := 0 })

end Sys2Proof.Machine
end

