-- ==== Sys2Proof/Machine/Tags.lean ====
section
/-! DEFINITION. Tag instructions (R259) and stage barriers (R260 to R264). -/

namespace Sys2Proof.Machine

/-! ### Tags -/

/-- Whether a tag of a mask is in flight. -/
def tagsInFlight (x : Thread) (m : Word) : Bool :=
  (List.range 64).any (fun n => m.getLsbD n && (progressOf x n).state == 1)

/-- A wait on tags that ends with TAGS and the mask in d (R259). -/
def tagWait (ready : Thread → Word → Bool) (d a : Reg) (s : State) : Out :=
  issue s (admits s true [d, a]) (fun s =>
    let m := reg s a
    if ready (my s) m then advance (setReg s d ((my s).tags &&& m)) else waitHere s)

/-- WAITANY (R259). -/
def execWaitany (d a : Reg) (s : State) : Out :=
  tagWait (fun x m => x.tags &&& m != 0 || !tagsInFlight x m) d a s
/-- WAITALL (R259). -/
def execWaitall (d a : Reg) (s : State) : Out := tagWait (fun x m => !tagsInFlight x m) d a s
/-- FFREADY (R259). -/
def execFfready (d a : Reg) (s : State) : Out := tagWait (fun _ _ => true) d a s

/-- Tags of a mask cleared, but for those in flight; records done or at fault become idle (R259). -/
def clearTags (x : Thread) (m : Word) : Thread :=
  (List.range 64).foldl (fun x n =>
    let r := progressOf x n
    if !m.getLsbD n || r.state == 1 then x
    else
      let x := { x with tags := x.tags &&& ~~~tagBit n }
      if r.state = 2 || r.state = 3 then putProgress x n { r with state := 0 } else x) x

/-- TAGCLR (R259). -/
def execTagclr (a : Reg) (s : State) : Out :=
  issue s (admits s true [a]) (fun s =>
    let m := reg s a
    advance (modMy s (fun x => clearTags x m)))

/-- A doubleword of a progress record (Table 9.4). -/
def progressDword (r : Progress) (i : Nat) : Word :=
  let b (x : Bool) (n : Nat) : Nat := if x then 2 ^ n else 0
  match i with
  | 0 => BitVec.ofNat 64 (r.chunk * 2 ^ 32 + b r.byRet 13 + b r.fside 12 + r.fkind * 2 ^ 8 + r.op * 2 ^ 4 + r.state)
  | 1 => BitVec.ofNat 64 r.faddr
  | 2 => BitVec.ofNat 64 (r.dseg.toNat * 2 ^ 61 + r.doff.toNat % 2 ^ 61)
  | 3 => BitVec.ofNat 64 (r.aseg.toNat * 2 ^ 61 + r.aoff.toNat % 2 ^ 61)
  | n => r.ops.getD (n - 4) 0

/-- TAGSTAT (R259). -/
def execTagstat (d a b : Reg) (s : State) : Out :=
  let n := field (reg s a) 0 6
  let kind := (reg s a).getLsbD 6
  issue s (admits s true [d, a, b] && decide ((reg s b).toNat ≤ 7) &&
      (!kind || (sbAbs s (myPool s) (myCtx s) n).isSome)) (fun s =>
    advance (setReg s d (progressDword (progressOf (my s) (n + (if kind then 64 else 0))) (reg s b).toNat)))

/-! ### Stage barriers -/

/-- The pool's number of the barrier that s[A] names, where the window holds it. -/
def sbOf (s : State) (a : Reg) : Option Nat := sbAbs s (myPool s) (myCtx s) (field (reg s a) 0 6)

/-- An instruction on a barrier of the window, VALID where `valid` (R263); the thread has used a stage barrier (R264). -/
def sbWord (ok valid : Bool) (rs : List Reg) (a : Reg) (f : State → Nat → Barrier → State) (s : State) : Out :=
  match sbOf s a with
  | none => issue s false advance
  | some k => issue s (admits s true rs && ok && (!valid || (barrier s (myPool s) k).valid)) (fun s =>
      f (modMy s (fun x => { x with window := some (myPool s) })) k (barrier s (myPool s) k))

/-- SBINIT (R263). -/
def execSbinit (a b : Reg) (s : State) : Out :=
  let n := (reg s b).toNat
  sbWord (decide (1 ≤ n ∧ n ≤ 65535)) false [a, b] a (fun s k _ =>
    advance (setBarrier s (myPool s) k { Barrier.zero with ncons := BitVec.ofNat 16 n, valid := true })) s

/-- SBEXP (R263). -/
def execSbexp (a b : Reg) (s : State) : Out :=
  let n := (reg s b).toNat
  sbWord (decide (1 ≤ n ∧ n ≤ 2 ^ 46)) true [a, b] a (fun s k x =>
    advance (setBarrier s (myPool s) k (flipFull { x with pend := x.pend + BitVec.ofNat 48 n, armed := true }))) s

/-- A doubleword of a barrier's state (Table 9.6). -/
def sbDword (x : Barrier) (i : Nat) : Word :=
  let b (x : Bool) (n : Nat) : Nat := if x then 2 ^ n else 0
  if i = 0 then
    BitVec.ofNat 64 (x.pend.toNat * 2 ^ 16 + b x.fault 4 + b x.armed 3 + b x.xph 2 + b x.fph 1 + b x.valid 0)
  else BitVec.ofNat 64 (x.ncons.toNat * 2 ^ 16 + x.rcnt.toNat)

/-- Where the covers of the releases on a barrier's empty half are kept (R85, R263). -/
def sbKey (p k : Nat) : Nat := 2 ^ 60 + p * 64 + k

/-- SBWAIT (R263): waits for a half's phase to differ from the parity, or on the full half for FAULT; on the empty half it
synchronises with the releases counted there. -/
def execSbwait (d a b : Reg) (s : State) : Out :=
  let v := reg s b
  sbWord true true [d, a, b] a (fun s k x =>
    let phase := if v.getLsbD 1 then x.xph else x.fph
    if phase != v.getLsbD 0 || (!v.getLsbD 1 && x.fault) then
      advance (setReg (joinOps s s.cur (coversAt s [sbKey (myPool s) k])) d (sbDword x 0))
    else waitHere s) s

/-- Whether a release by the issuing agent must wait: an earlier store of its own on an SO or RC page is not performed, or,
from package scope on, a write of its own or one it has read stands in a write queue (R85, R274). -/
def releaseWaits (s : State) (sc : Nat) : Bool := mustWait s s.cur s.stores 1 false [] (some sc)

/-- A consumer release counted on the empty half (R263). -/
def countRelease (x : Barrier) : Barrier :=
  if x.rcnt + 1 = x.ncons then { x with xph := !x.xph, rcnt := 0 } else { x with rcnt := x.rcnt + 1 }

/-- SBREL (R263): a release at scope .p, then the count. -/
def execSbrel (a : Reg) (s : State) : Out :=
  sbWord true true [a] a (fun s k x =>
    if releaseWaits s 2 then waitHere s
    else advance (putCovers (setBarrier s (myPool s) k (countRelease x)) [sbKey (myPool s) k] (queuedOps s s.cur) true)) s

/-- SBSTAT (R263). -/
def execSbstat (d a b : Reg) (s : State) : Out :=
  let i := (reg s b).toNat
  sbWord (decide (i ≤ 1)) true [d, a, b] a (fun s _ x => advance (setReg s d (sbDword x i))) s

end Sys2Proof.Machine
end

