-- ==== Sys2Proof/Machine/Gangs.lean ====
section
/-! DEFINITION. Launch records and their checks (R298, R299), launch ports (R296, R297), the gang table (R300, R301), gang
barriers and watchdogs (R314, R315), identity (R316), GLAUNCH (R317), and the end of strands and tasks (R311). -/

namespace Sys2Proof.Machine

/-! ### Launch records (Table 11.2) -/

/-- Doubleword `i` of a record. -/
def recW (r : List Word) (i : Nat) : Word := r.getD i 0
/-- KENTRY. -/
def recEntry (r : List Word) : Nat := field (recW r 0) 0 48
/-- The extent in x, y and z. -/
def recDims (r : List Word) : Nat × Nat × Nat :=
  (field (recW r 1) 0 16 + 1, field (recW r 1) 16 16 + 1, field (recW r 1) 32 16 + 1)
/-- The number of tiles. -/
def recTiles (r : List Word) : Nat := let (x, y, z) := recDims r; x * y * z
/-- ARGSEG, where SEGLD would take it. -/
def recSeg (r : List Word) : Option Seg := segOfWords (recW r 2) (recW r 3)
/-- SCRATCH. -/
def recScratch (r : List Word) : Nat := field (recW r 5) 0 32
/-- WDT. -/
def recWdt (r : List Word) : Nat := field (recW r 5) 32 32
/-- IRQ. -/
def recIrq (r : List Word) : Bool := (recW r 6).getLsbD 63
/-- DONE. -/
def recDone (r : List Word) : Nat := field (recW r 6) 0 48
/-- SIG. -/
def recSig (r : List Word) : Nat := field (recW r 7) 0 48

/-- The record's form (code 1): VER 1 and every reserved field zero. -/
def recFormOk (r : List Word) : Bool :=
  field (recW r 0) 56 8 == 1 && field (recW r 0) 48 8 == 0 && field (recW r 1) 48 16 == 0 &&
    field (recW r 6) 48 15 == 0 && field (recW r 7) 48 16 == 0

/-- The kernel that a record names (KIND 0). -/
def recKernel (x : Ctx) (r : List Word) : Option Kernel :=
  x.kernels.find? (fun k => !k.ret && k.entry == recEntry r)

/-- Whether some slot-table entry of a context has a share of `n` bytes. -/
def shareFits (s : State) (c n : Nat) : Bool :=
  s.pools.any (fun p => p.2.slots.any (fun e => e.2.valid && e.2.ctx == c && decide (n ≤ e.2.scratch)))

/-- The codes 9 and 1 to 5 of Table 11.3, in the order of R299. -/
def launchCode (s : State) (c : Nat) (r : List Word) : Nat :=
  match ctx? s c with
  | none => 9
  | some x =>
    if x.frozen.isSome then 9
    else if !recFormOk r then 1
    else match recKernel x r with
    | none => 2
    | some k =>
      if x.tainted.contains k.obj then 3
      else if recScratch r % 128 ≠ 0 || 262144 < recScratch r || (recScratch r ≠ 0 && !shareFits s c (recScratch r)) then 4
      else if (recSeg r).isNone then 5
      else 0

/-! ### The gang table -/

/-- A gang that starts (R300, R314, R315). -/
def Gang.start (r : List Word) (port : Option Nat) (seq : Nat) : Gang :=
  { record := r, port := port, next := 0, live := 0, retired := 0, gen := 0, arrivals := 0, wdCount := 0
    wdt := recWdt r, seq := seq }

/-- A gang of a context, or an empty one. -/
def gang (s : State) (c g : Nat) : Gang :=
  match ctx? s c with | some x => kget x.gangs g (Gang.start [] none 0) | none => Gang.start [] none 0
/-- A gang that the table holds, changed. -/
def modGang (s : State) (c g : Nat) (f : Gang → Gang) : State :=
  modCtx s c (fun x => match kfind x.gangs g with
    | some y => { x with gangs := kset x.gangs g (f y) }
    | none => x)

/-- The pools whose slot tables bind a context. -/
def poolsOf (s : State) (c : Nat) : List Nat :=
  (s.pools.filter (fun p => p.2.slots.any (fun e => e.2.valid && e.2.ctx == c))).map (·.1)

/-- The draws that a context's pools now owe (R304). -/
def oweDraws (s : State) (c : Nat) : State := owe s ((poolsOf s c).map (fun p => ev .tileDraw p c))

/-- The lowest free entry of a gang table of 64. -/
def freeGid (x : Ctx) : Option Nat := (List.range 64).find? (fun g => (kfind x.gangs g).isNone)

/-- A launch port of a tenant. -/
def port (s : State) (n k : Nat) : Port := kget (tenant s n).ports k Port.reset
/-- A launch port changed. -/
def modPort (s : State) (n k : Nat) (f : Port → Port) : State :=
  modTenant s n (fun t => { t with ports := kset t.ports k (f (kget t.ports k Port.reset)) })

/-- A gang enters an entry of the table and is started; a port's STARTED counts it (R300). -/
def enterGang (s : State) (c g : Nat) (r : List Word) (p : Option Nat) : State :=
  let s := modCtx s c (fun x => { x with gangs := kset x.gangs g (Gang.start r p x.gangSeq), gangSeq := x.gangSeq + 1 })
  let s := match p with
    | some k => modPort s (tenantOf s c) k (fun q => { q with started := q.started + 1 })
    | none => s
  oweDraws s c

/-- Waiting successors enter while entries are free, in the order in which they fired (R300). -/
def placeSuccs (c : Nat) : Nat → State → State
  | 0, s => s
  | n + 1, s =>
    match ctx? s c with
    | some x => match x.succs, freeGid x with
      | r :: rest, some g => placeSuccs c n (enterGang (modCtx s c (fun x => { x with succs := rest })) c g r none)
      | _, _ => s
    | none => s

/-- GANG_START (R300): waiting successors first, then the head record of the context's port. -/
def execGangStart (s : State) : Out :=
  let c := s.msg.a
  if frozenCtx s c then .next s else
  let s := placeSuccs c 64 s
  match ctx? s c with
  | none => .next s
  | some x =>
    let q := port s x.tenant x.port
    match q.queue, freeGid x with
    | r :: rest, some g =>
      if q.ctx ≠ some c then .next s else
      let s := enterGang (modPort s x.tenant x.port (fun q => { q with queue := rest })) c g r (some x.port)
      .next (if rest.isEmpty then s else owe s [ev .gangStart c])
    | _, _ => .next s

/-! ### Launch ports -/

/-- A record refused at a port (R297). -/
def refusePort (s : State) (n k code : Nat) : State :=
  modPort s n k (fun q => { q with refused := q.refused + 1, lastcode := code })

/-- The code for a write to RECORD (R299): 9, then 8 where it is not one whole record, then 1 to 5 and 7. -/
def portCode (s : State) (q : Port) (r : List Word) : Nat :=
  match q.ctx with
  | none => 9
  | some c =>
    let code := launchCode s c r
    if code = 9 then 9
    else if r.length ≠ 8 then 8
    else if code ≠ 0 then code
    else if 256 ≤ q.queue.length then 7 else 0

/-- LAUNCH_RECORD (R297): a write to a launch port's RECORD. A function that is not enabled has no port. -/
def execLaunchRecord (s : State) : Out :=
  let n := s.msg.a
  let k := s.msg.b
  if !(tenant s n).enabled || 4 ≤ k then .next s else
  let q := port s n k
  let code := portCode s q s.msg.words
  if code ≠ 0 then .next (refusePort s n k code)
  else
    let s := modPort s n k (fun q => { q with queue := q.queue ++ [s.msg.words], accepted := q.accepted + 1 })
    .next (owe s [ev .gangStart (q.ctx.getD 0)])

/-- PORT_WRITE_OTHER (R296, R297): a write that reaches into RECORD without being a whole record is refused with code 8; any
other is ignored. -/
def execPortWriteOther (s : State) : Out :=
  let n := s.msg.a
  let k := s.msg.b
  if !(tenant s n).enabled || 4 ≤ k || 64 ≤ s.msg.c || s.msg.d == 0 then .next s
  else .next (refusePort s n k (portCode s (port s n k) []))

/-! ### Tasks and strands -/

/-- A task that is in no table: one strand, nothing else. -/
def Task.none : Task :=
  { ctx := 0, gid := 0, x := 0, y := 0, z := 0, kernel := 0, core := 0, runOff := 0, runSize := 0, runPa := 0, strands := 1
    started := 0, cvaCore := 0, share := 0 }
/-- A task by its number. -/
def task (s : State) (k : Nat) : Task := kget s.tasks k Task.none
/-- The issuing thread's task. -/
def myTask (s : State) : Task := task s (my s).task
/-- The issuing thread's gang. -/
def myGang (s : State) : Gang := gang s (myCtx s) (myTask s).gid

/-- Tile coordinates as the trace and TASKID give them. -/
def tileWord (k : Task) : Word := BitVec.ofNat 64 (k.z * 2 ^ 32 + k.y * 2 ^ 16 + k.x)

/-- The gang barrier completes whenever arrivals and retired tasks make up the gang (R314). -/
def completeBarrier (g : Gang) : Gang :=
  if g.arrivals ≠ 0 && recTiles g.record ≤ g.arrivals + g.retired then { g with gen := g.gen + 1, arrivals := 0 } else g

/-- A task retires (R301, R311): its run is scrubbed, its outcome-log entries are withdrawn, its gang counts it, and a gang
of which every task has retired ends. -/
def retireTask (s : State) (k : Nat) : State :=
  let x := task s k
  let s := { s with
    tasks := kdel s.tasks k
    mem := if x.runSize = 0 then s.mem else s.mem.zero x.runPa x.runSize
    tenants := s.tenants.map (fun p => (p.1, { p.2 with
      out := p.2.out.map (fun q => (q.1, q.2.filter (fun e => e.task != k))) })) }
  let s := modGang s x.ctx x.gid (fun g =>
    completeBarrier { g with live := g.live - 1, retired := g.retired + 1, wdCount := 0 })
  let g := gang s x.ctx x.gid
  if recTiles g.record ≤ g.retired then
    let e : EndedGang := { gid := x.gid, record := g.record, port := g.port, phase := 1 }
    let s := modCtx s x.ctx (fun y => { y with gangs := kdel y.gangs x.gid, ended := y.ended ++ [e] })
    owe s [ev .gangEnd x.ctx, ev .gangStart x.ctx]
  else s

/-- Thread t's strand ends (R311): its Retrievers become empty (R250), its hardware context is free, and the task retires
with its last strand. -/
def endStrand (s : State) (t : Nat) : State :=
  let x := thr s t
  let k := task s x.task
  let s := pushTrace s (coreOf t)
    { time := s.time, kind := 9, code := 1, ctx := x.ctx, hw := hwOf t, pc := x.hart.pc, data := tileWord k }
  let s := dropThr { s with rets := s.rets.filter (fun r => r.2.owner != some t) } t
  let s := modCore s (coreOf t) (fun c => { c with forgo := c.forgo.filter (· != hwOf t) })
  let s := if k.strands ≤ 1 then retireTask s x.task
    else { s with tasks := kset s.tasks x.task { k with strands := k.strands - 1 } }
  owe s [ev .tileDraw (poolOf t) x.ctx, ev .dispatch (poolOf t) x.ctx]

/-! ### Barrier, watchdog and identity words -/

/-- Whether a task word may issue: by a barrel thread outside the service context. -/
def taskWordOk (s : State) (rs : List Reg) : Bool := admits s false rs && !inSvc s

/-- GBAR once its arrival is counted at generation `p`: it waits for a later one (R314). -/
def gbarWait (s : State) (d : Reg) (p : Nat) : State :=
  let n := (myGang s).gen
  if p < n then advance (setReg (modMy s (fun x => { x with arrival := none })) d (BitVec.ofNat 64 n)) else waitHere s

/-- GBAR (R314). The task's strands are counted before the arrival; one that has arrived only waits. -/
def execGbar (d : Reg) (s : State) : Out :=
  issue s (taskWordOk s [d] && ((my s).arrival.isSome || decide ((myTask s).strands ≤ 1))) (fun s =>
    match (my s).arrival with
    | some p => gbarWait s d p
    | none =>
      if releaseWaits s 4 then waitHere s
      else
        let p := (myGang s).gen
        let s := modMy s (fun x => { x with arrival := some p })
        gbarWait (modGang s (myCtx s) (myTask s).gid (fun g => completeBarrier { g with arrivals := g.arrivals + 1 })) d p)

/-- WDKICK (R315). -/
def execWdkick (s : State) : Out :=
  issue s (taskWordOk s []) (fun s => advance (modGang s (myCtx s) (myTask s).gid (fun g => { g with wdCount := 0 })))

/-- WDSET (R315). -/
def execWdset (d a : Reg) (s : State) : Out :=
  issue s (taskWordOk s [d, a]) (fun s =>
    let old := (myGang s).wdt
    let n := field (reg s a) 0 32
    advance (setReg (modGang s (myCtx s) (myTask s).gid (fun g => { g with wdCount := 0, wdt := n })) d
      (BitVec.ofNat 64 old)))

/-- TASKID's selectors (R316). A count of live strands above 255, which does not fit [15:8], runs on into bits 16 and up (DESIGN CHOICE,
log 38). -/
def taskidOf (s : State) (n : Nat) : Word :=
  if inSvc s then BitVec.allOnes 64 else
  match n with
  | 0 => tileWord (myTask s)
  | 1 => recW (myGang s).record 1
  | 2 => BitVec.ofNat 64 ((myTask s).strands * 2 ^ 8 + (myTask s).gid)
  | _ => BitVec.allOnes 64

/-- TASKID (R316). -/
def execTaskid (d a : Reg) (s : State) : Out :=
  issue s (admits s false [d, a]) (fun s => advance (setReg s d (taskidOf s (reg s a).toNat)))

/-- SLOTINFO's doublewords (R316): of the entry that binds the thread's context in its pool: the one that binds its hardware
context, or, in the service context and where no entry binds that (R113), the first that serves its context. -/
def slotinfoOf (s : State) (n : Nat) : Word :=
  let mine := if inSvc s then none
    else ((bindingEntry s (myCore s) (hwOf (me s))).map (·.2)).filter (fun e => e.ctx == myCtx s)
  match mine.or (entryOf s (myPool s) (myCtx s)) with
  | none => BitVec.allOnes 64
  | some e => match n with
    | 0 => e.dw0 | 1 => e.dw1 | 2 => e.dw2 | 3 => e.dw3
    | _ => BitVec.allOnes 64

/-- SLOTINFO (R316). -/
def execSlotinfo (d a : Reg) (s : State) : Out :=
  issue s (admits s false [d, a]) (fun s => advance (setReg s d (slotinfoOf s (reg s a).toNat)))

/-- A device launch of a checked record (R317): the gang enters ahead of any port record, after waiting successors; the
result is its id or a code. -/
def deviceLaunch (s : State) (c : Nat) (r : List Word) : State × Nat :=
  let code := launchCode s c r
  if code ≠ 0 then (s, code) else
  let s := placeSuccs c 64 s
  match (ctx? s c).bind freeGid with
  | none => (s, 6)
  | some g => (enterGang s c g r none, g * 2 ^ 8)

/-- GLAUNCH (R317). -/
def execGlaunch (d a : Reg) (g : BitVec 3) (s : State) : Out :=
  issue s (taskWordOk s [d, a]) (fun s =>
    let off := reg s a
    match scalarCause s g off 64 0 64 with
    | some c => takeCause s c
    | none =>
      let refs := (span ((seg s g).base.toNat + off.toNat) 64).map (byteRef s (myCtx s))
      if releaseWaits s 4 || refs.any (fun r => mustWait s s.cur s.stores r.kind false [] none) then waitHere s
      else if (underRefs s refs).any (poisoned s) then takeTrap s 5 0 0
      else
        let s := noteReads (touchLoad (served s refs) s.cur refs .none) s.cur (underRefs s refs)
        let l := refs.map (readRef s s.cur (myDie s))
        let r := (chunksOf 8 64 l).map (fun b => BitVec.ofNat 64 (leNat b))
        let (s, v) := deviceLaunch s (myCtx s) r
        advance (setReg s d (BitVec.ofNat 64 v)))

end Sys2Proof.Machine
end

