-- ==== Sys2Proof/Machine/Bars.lean ====
section
/-! DEFINITION. What the host reads through the functions' BARs (R296, R348, R349, R356), and through the physical function
(R359, R360). -/

namespace Sys2Proof.Machine

/-- Byte `i` of a doubleword. -/
def wordByte (w : Word) (i : Nat) : Byte := BitVec.ofNat 8 (w.toNat / 256 ^ i)

/-- A doubleword of a launch port's page (Table 11.1): RECORD is written only, and what the table does not name reads as zero. -/
def portDword (q : Port) (off : Nat) : Word :=
  match off with
  | 0x40 => q.accepted
  | 0x48 => q.started
  | 0x50 => q.refused
  | 0x58 => BitVec.ofNat 64 (q.lastcode % 256)
  | _ => 0

/-- A doubleword of the mailbox page (R349): REQ is written only. -/
def mailboxDword (t : Tenant) (off : Nat) : Word :=
  if 0x40 ≤ off ∧ off < 0x80 then t.resp.getD ((off - 0x40) / 8) 0
  else if off = 0x80 then t.posted
  else if off = 0x88 then t.done
  else 0

/-- The size of a tenant's BAR 4 (Table 13.6), with `fuel` doublings from 4 KiB. -/
def barSize : Nat → Nat → Nat → Nat
  | 0, _, n => n
  | k + 1, need, n => if need ≤ n then n else barSize k need (2 * n)

/-- The offset of a tenant's header slot: the last 4 KiB of its BAR 4 (R356). -/
def slotOff (t : Tenant) : Nat := barSize 64 (t.window + 4096) 4096 - 4096

/-- A byte of a tenant's BAR 4 (R356). -/
def barByte (t : Tenant) (off : Nat) : Byte :=
  let at_ (base : Nat) (d : Dump) : Option Byte := if base ≤ off ∧ off < base + d.bytes.length then d.bytes[off - base]? else none
  match t.dumps.findSome? (fun d => at_ d.off d) with
  | some b => b
  | none => match t.slot with
    | some d => (at_ (slotOff t) d).getD 0
    | none => 0

/-- Whether the load record of an object of a tenant's context shows it tainted (R161). -/
def taintedObj (s : State) (n c k : Nat) : Bool :=
  match ctx? s c with | some x => x.tenant == n && x.tainted.contains k | none => false

/-- A byte that a read of a tenant's BAR gives (Table 13.6). The manual does not place the load records: they are read here as a BAR
of their own, number 6, a byte for each object at 2^32 × its context + its number (DESIGN CHOICE, log 30). -/
def functionByte (s : State) (n bar off : Nat) : Byte :=
  let t := tenant s n
  match bar with
  | 0 => if off < 4096 then wordByte (mailboxDword t (off / 8 * 8)) (off % 8) else 0
  | 2 => if off < 16384 then wordByte (portDword (port s n (off / 4096)) (off % 4096 / 8 * 8)) (off % 8) else 0
  | 4 => barByte t off
  | 6 => if taintedObj s n (off / 2 ^ 32) (off % 2 ^ 32) then 1 else 0
  | _ => 0

/-- The two error counts of the unit with a record number, correctable and then uncorrectable (R353). -/
def unitCounts (s : State) (n : Nat) : List Byte := leBytes 4 (kget s.keeper.errC n 0) ++ leBytes 4 (kget s.keeper.errU n 0)

/-- A byte that a read of the physical function gives: at offset 0 whether neither firmware slot passed its checks (R359), the
device identity key's certificate from offset 4,096 on (R360), and from offset 2^32 on eight bytes for each record of the map, the
unit's error counts (R353). The manual does not place them (DESIGN CHOICE, log 30). -/
def physicalByte (s : State) (off : Nat) : Byte :=
  if off = 0 then (if s.keeper.failed then 1 else 0)
  else if 2 ^ 32 ≤ off then (unitCounts s ((off - 2 ^ 32) / 8)).getD (off % 8) 0
  else if 4096 ≤ off then Config.certificate.getD (off - 4096) 0
  else 0

/-- A read of a function's BAR, the physical function being number 16. -/
def barRead (s : State) (n bar off len : Nat) : List Byte :=
  if n = 16 then (span off len).map (physicalByte s)
  else if n < 16 && (tenant s n).enabled then (span off len).map (functionByte s n bar)
  else List.replicate len 0

/-- Whether a step is a read of the physical function, which answers of a part that neither firmware slot could start (R359). -/
def readsPhysical (k : Keeper) (e : Instr) (m : Msg) : Bool := k.failed && e == .hostRead && m.flag && m.a == 16

end Sys2Proof.Machine
end

