-- ==== Sys2Proof/Machine/Schedule.lean ====
section
/-! DEFINITION. Which agent issues next (R18, R19, R119, R136), and what the step does around the word it issues. -/

namespace Sys2Proof.Machine

/-- The rows of the table that are steps of an engine, of the keeper, of the host or of the operator. -/
def events : List Instr :=
  [.saloadRun, .saseedRun, .sabetaRun, .sweep, .saRegisterReturn, .entropyRetest, .launchRecord, .portWriteOther,
   .gangStart, .tileDraw, .dispatch, .taskStart, .steal, .gangEnd, .wdog, .quantumExpiry, .slotTableWrite, .unbind,
   .unbindComplete, .resume, .lscfgWrite, .victWrite, .loadResponse, .atomicResponse, .vectorLoadArrival,
   .matrixWordComplete, .chunkDone, .chunkFault, .pageReport, .wakeMessage, .scopeMissMessage, .acquireReissue,
   .grantWake, .sliceMove, .laneLost, .slicePlaced, .unitError, .mapChange, .ackDeadline, .dumpBuild,
   .hostWriteQueueDrain, .hostWrite, .hostRead, .peerAccess, .ctxnew, .ctxdel, .load, .map, .unmap, .region,
   .regfree, .mailboxRmack, .mapread, .logctl, .dumpfree, .trace, .errs, .attest, .mailboxOverflow, .tenantEnable,
   .dumpWindowSize, .allowanceSet, .firmwareUpdate, .operatorKey, .signedStateRead, .powerGood, .clockStep,
   .powerSample, .temperatureRefresh, .thermalShutdown, .linkRetrain, .storeAcknowledged, .pginvComplete,
   .packlinkLinkUp]

/-- Whether a context's threads run: it exists and is neither frozen nor suspended (R132, R136). -/
def ctxRuns (s : State) (c : Nat) : Bool := !frozenCtx s c && !suspendedCtx s c

/-- Whether a thread keeps its hardware context: it is bound to its context, or no unbind of that context from the core is
under way (R110, R134, R302), since REPART moves a thread to a hardware context that no entry need bind (R113). The
service context always serves the message it runs (R133). -/
def boundHere (s : State) (t : Nat) : Bool :=
  if hwOf t = 16 then true else
  (match bindingEntry s (coreOf t) (hwOf t) with
  | some e => e.2.ctx == (thr s t).ctx
  | none => false) ||
  (match ctx? s (thr s t).ctx with
  | some x => !x.unbinding.contains (coreOf t)
  | none => false)

/-- Whether an agent may issue a word (R18, R19): a thread or running Retriever that neither waits for an engine nor is
parked, all of whose granted slots have lanes (R187, R191); a Retriever that has been told to stop issues no further word (R249), nor
does one that is not live (R23). -/
def runnable (s : State) (a : Agent) : Bool :=
  match a with
  | .thread t =>
    match kfind s.threads t with
    | none => false
    | some x => (x.cond == .ready || x.cond == .waiting) && x.lost.isEmpty && ctxRuns s x.ctx && boundHere s t
  | .ret n =>
    match kfind s.rets n with
    | none => false
    | some r => r.state == 2 && (r.cond == .ready || r.cond == .waiting) && !r.stop && unitLive s (2048 + n) &&
      match r.owner with
      | some t => hasThr s t && ctxRuns s (thr s t).ctx && boundHere s t
      | none => false

/-- Every agent, threads first, each in ascending number. -/
def agents (s : State) : List Agent :=
  s.threads.map (fun p => .thread p.1) ++ s.rets.map (fun p => .ret p.1)

/-- Whether a thread forgoes its turn (R146). -/
def forgoes (s : State) (a : Agent) : Bool :=
  match a with
  | .thread t => (core s (coreOf t)).forgo.contains (hwOf t)
  | .ret _ => false

/-- The turn an agent forwent is past. -/
def forgone (s : State) (a : Agent) : State :=
  match a with
  | .thread t => modCore s (coreOf t) (fun c => { c with forgo := c.forgo.filter (· != hwOf t) })
  | .ret _ => s

/-- The first agent that takes its turn, the turns forgone before it being past. -/
def firstTurn (s : State) : List Agent → Option (Agent × State)
  | [] => none
  | a :: r =>
    if !runnable s a then firstTurn s r
    else if forgoes s a then firstTurn (forgone s a) r
    else some (a, s)

/-- What issues words of its own accord: a barrel core, whose threads share it, or a Retriever (R18, R246). -/
def unitOf : Agent → Nat
  | .thread t => 3 * coreOf t
  | .ret n => 3 * (n / 2) + 1 + n % 2

/-- The number of an agent in its core's rotation: the hardware contexts from 0, and the service context 16. A Retriever is no member
of a rotation (R119). -/
def memberNo : Agent → Nat
  | .thread t => hwOf t
  | .ret _ => 0

/-- The agents in the order of their turns: the units that issue in turn, from the one after the unit that issued last, and in each
barrel core its members in rotation, starting after the one that issued last there (R18, R119). -/
def rotation (s : State) : List Agent :=
  let l := agents s
  let us := (l.map unitOf).eraseDups
  let u0 := unitOf s.cur
  (us.filter (u0 < ·) ++ us.filter (· ≤ u0)).flatMap (fun u =>
    let m := l.filter (fun a => unitOf a == u)
    match (core s (u / 3)).last with
    | none => m
    | some n => m.filter (n < memberNo ·) ++ m.filter (memberNo · ≤ n))

/-- The agent that issues next where no turn is scheduled. -/
def nextAgent (s : State) : Option (Agent × State) := firstTurn s (rotation s ++ rotation s)

/-- The word that a thread issues next, as it is fetched and decoded. -/
def wordAt (s : State) (t : Nat) : Option (Word × Instr) :=
  match fetch { s with cur := .thread t } with
  | .error _ => none
  | .ok w => match decode w with
    | .ok i => some (w, i)
    | .error _ => none

/-- Whether a thread that waits at register word `w` of the sampling array is in it, its checks passed (R326, R331): `rs` and `vs` are
its registers, and `mult` divides its first cell. -/
def inRegisterWord (s : State) (t : Nat) (w : Word) (rs : List Reg) (vs : List VReg) (mult : Nat) : Bool :=
  let u := { s with cur := .thread t }
  let c := (reg u (vFields w).s).toNat
  (die s (dieOf t)).sa.owner == some t && admits u false rs && !inSvc u && (thr s t).vceil != 0 && landed (thr s t) vs &&
    decide (c < 65536) && c % mult == 0

/-- The word at which a thread waits and which it completes before it stops: one that reads or writes FCSR (R236, Table 5.10), or a
register word of the sampling array (R331, Table 12.11). -/
def lateWord (s : State) (t : Nat) : Option (Word × Instr) :=
  if (thr s t).cond != .waiting then none else
  (wordAt s t).filter (fun p =>
    let f := vFields p.1
    match p.2 with
    | .csrr _ c => c == 1
    | .csrw c _ => c == 1
    | .csrs c _ => c == 1
    | .csrc c _ => c == 1
    | .saclamp => inRegisterWord s t p.1 [f.s] [f.va, f.vb] 32
    | .saread => inRegisterWord s t p.1 [f.s] [f.vd] 32
    | .sacount => inRegisterWord s t p.1 [f.s, extReg f] [f.vd] 1
    | _ => false)

/-- The trap that is due before the issuing thread's next word: one pending from its start or resumption (R265, R308), or RMSUSP,
which a thread takes at U alone: at the word it stopped before, which is not one that it completes first, or else at its first word
at U after its ERET (R136). -/
def dueTrap (s : State) : Option (State × Nat × Nat × Word) :=
  match s.cur with
  | .ret _ => none
  | .thread t =>
    let x := thr s t
    match x.pendTrap with
    | some (code, info, tval) =>
      if code = 0xB && (privOf x || (lateWord s t).isSome) then none
      else some (setThr s t { x with pendTrap := none }, code, info, BitVec.ofNat 64 tval)
    | none =>
      if x.rmsusp && !privOf x && !svcOf x && (lateWord s t).isNone then
        some (setThr s t { x with rmsusp := false }, 0xB, 0, BitVec.ofNat 64 s.keeper.version)
      else none

/-- An agent takes the issue slot, and the rotation of a thread's core goes on after it (R119); the response of an access it makes
stays outstanding where `d` says so. -/
def takeSlot (s : State) (a : Agent) (d : Bool) : State :=
  let s := match a with
    | .thread t => modCore s (coreOf t) (fun c => { c with last := some (hwOf t) })
    | .ret _ => s
  { s with cur := a, defer := d }

/-- A trap that is due for a thread at an instruction boundary is taken there (R135). -/
def takeDue (s : State) (t : Nat) : State :=
  asAgent s (.thread t) (fun s => match dueTrap s with
    | some (s, code, info, tval) => takeTrap s code info tval
    | none => s)

/-- What a wake told an agent of a page holds for the word it issues then, and for that word while it waits (R122). -/
def forgetPage (s : State) (a : Agent) : State :=
  match a with
  | .thread t => if (thr s t).noPage.isSome && (thr s t).cond != .waiting then modThr s t (fun x => { x with noPage := none }) else s
  | .ret n => if (ret s n).noPage.isSome && (ret s n).cond != .waiting then modRet s n (fun r => { r with noPage := none }) else s

end Sys2Proof.Machine
end

