-- ==== Sys2Proof/Machine/RetControl.lean ====
section
/-! DEFINITION. The Retriever control instructions (R249, R250). -/

namespace Sys2Proof.Machine

/-- The Retriever that a role names on the issuing thread's core (R11, R249). -/
def retOf (s : State) (a : Reg) : Nat := 2 * myCore s + field (reg s a) 0 1

/-- Whether a Retriever control word may issue: at U, by a thread of a task (R249, R133). -/
def retCtlOk (s : State) (rs : List Reg) : Bool := admits s false rs && !atS s && !inSvc s

/-- A doubleword of a Retriever's status (Table 9.2). -/
def retDword (r : Retriever) (i : Nat) : Word :=
  if i = 0 then BitVec.ofNat 64 (r.hart.pc.toNat % 2 ^ 32 * 2 ^ 32 + r.code * 2 ^ 8 + r.state) else r.tval

/-- Whether the issuing thread owns a Retriever. -/
def owns (s : State) (n : Nat) : Bool := (ret s n).owner == some (me s)

/-- What a read of `n` bytes of the code heap at an offset meets (R122, R160, R282), or its bytes. Like a fetch, it touches no cache that
the model holds (DESIGN CHOICE, log 11). -/
def readHeap (s : State) (off n : Nat) : Except Cause (List Byte) :=
  match ctx? s (myCtx s) with
  | none => .ok []
  | some x =>
    let base := x.heap.base.toNat
    let k : Chk := { c := myCtx s, sg := 0, acc := 3, v := false, base := base, frame := false, lost := lostPage s }
    match judge s k (span (base + off) n) with
    | some c => .error c
    | none =>
      let refs := (span (base + off) n).map (byteRef s (myCtx s))
      if (underRefs s refs).any (poisoned s) then .error (.trap 5 0 0 false)
      else .ok (refs.map (readRef s s.cur (myDie s)))

/-- The words of a program's bytes. -/
def programWords (l : List Byte) : List Word := (chunksOf 8 l.length l).map (fun b => BitVec.ofNat 64 (leNat b))

/-- Whether an RLOAD that parked on a page of its program issues again because the page has failed its check (R160): it takes INTEG,
and does not find its object tainted. -/
def reissuedBad (s : State) (r : Except Cause (List Byte)) : Bool :=
  (my s).cond == .waiting && match r with | .error (.trap 5 _ _ _) => true | _ => false

/-- RLOAD (R249): 1 owned elsewhere or running, 2 no such program, 3 tainted, 4 retired, else loaded and owned. -/
def execRload (d a b : Reg) (s : State) : Out :=
  issue s (retCtlOk s [d, a, b]) (fun s =>
    let n := retOf s a
    let r := ret s n
    let ks := match ctx? s (myCtx s) with | some x => x.kernels | none => []
    let tainted (o : Nat) := match ctx? s (myCtx s) with | some x => x.tainted.contains o | none => false
    let other := match r.owner with | some t => t != me s | none => false
    if other || r.state == 2 then advance (setReg s d 1)
    else match ks.find? (fun k => k.ret && k.entry == (reg s b).toNat) with
    | none => advance (setReg s d 2)
    | some k =>
      let heap := readHeap s k.entry k.size
      if reissuedBad s heap then takeTrap s 5 0 0
      else if tainted k.obj then advance (setReg s d 3)
      else if !unitLive s (2048 + n) then advance (setReg s d 4)
      else match heap with
        | .error c => takeCause s c
        | .ok l => advance (setReg (modRet s n (fun _ =>
            { Retriever.empty with owner := some (me s), state := 1, program := programWords l })) d 0))

/-- A Retriever started by its owner (R249): its registers, its PC and its state; what the owner's releases cover, its own will
cover (R85, R100). -/
def startRet (s : State) (n : Nat) (pc arg : Word) : State :=
  let h : Hart := { (Hart.zero.set 1 arg) with segs := (hart s).segs, pc := pc }
  joinOps (modRet s n (fun r => { r with hart := h, state := 2, code := 0, tval := 0, cond := .ready, noPage := none, stop := false }))
    (.ret n) (queuedOps s s.cur)

/-- RSTART (R249): 2 not owned or empty, 1 running, 3 a bad offset, else started. A Retriever that the map does not show as live
receives no hand-off (R23): it stays stopped, and the result, which the manual does not state, is a free value (log 13). -/
def execRstart (d a b c : Reg) (s : State) : Out :=
  issue s (retCtlOk s [d, a, b, c]) (fun s =>
    let n := retOf s a
    let r := ret s n
    let off := (reg s b).toNat
    if !owns s n || r.program.isEmpty then advance (setReg s d 2)
    else if r.state = 2 then advance (setReg s d 1)
    else if off % 8 ≠ 0 || 8 * r.program.length ≤ off then advance (setReg s d 3)
    else if !unitLive s (2048 + n) then let (v, s) := drawWord s; advance (setReg s d v)
    else if releaseWaits s 1 then waitHere s
    else advance (setReg (startRet s n (reg s b) (reg s c)) d 0))

/-- RSTOP (R249): a running Retriever stops at its next command boundary; one that awaits a response holds the thread, and stops
once that has come. -/
def execRstop (d a : Reg) (s : State) : Out :=
  issue s (retCtlOk s [d, a]) (fun s =>
    let n := retOf s a
    let r := ret s n
    if !owns s n then advance (setReg s d (BitVec.allOnes 64))
    else if r.state ≠ 2 then advance (setReg s d (retDword r 0))
    else match r.cond with
      | .awaiting _ => waitHere (modRet s n (fun r => { r with stop := true }))
      | _ =>
        let s := stopRet s n 0 0
        advance (setReg s d (retDword (ret s n) 0)))

/-- RSTAT (R249). A thread that reads state 3 has acquired all that the Retriever performed (R100): the word waits for the stores
that the Retriever left outstanding, and covers what its releases covered (R85). -/
def execRstat (d a b : Reg) (s : State) : Out :=
  issue s (retCtlOk s [d, a, b]) (fun s =>
    let n := retOf s a
    let i := (reg s b).toNat
    if !owns s n || decide (1 < i) then advance (setReg s d (BitVec.allOnes 64))
    else
      let stopped := (ret s n).state == 3
      if stopped && pendingOf s (.ret n) != 0 then waitHere s
      else advance (setReg (joinOps s s.cur (if stopped then queuedOps s (.ret n) else [])) d (retDword (ret s n) i)))

end Sys2Proof.Machine
end

