-- ==== Sys2Proof/Machine/Atomic.lean ====
section
/-! DEFINITION. Atomics at the home (R103, R145) and FENCE (R86). -/

namespace Sys2Proof.Machine

/-- The new value of an atomic of `c` bits, by opcode from 0x100 (R145), 0x108 a swap. -/
def amoOp (k c old b : Nat) : Nat :=
  let i (x : Nat) : Int := if x.testBit (c - 1) then (x : Int) - (2 ^ c : Nat) else x
  match k with
  | 0 => (old + b) % 2 ^ c
  | 1 => old &&& b
  | 2 => old ||| b
  | 3 => old ^^^ b
  | 4 => if i b < i old then b else old
  | 5 => if i old < i b then b else old
  | 6 => min old b
  | 7 => max old b
  | _ => b

/-- Whether the atomic unit of a location's home receives hand-offs: the map shows it as live (R23). Locations without a home in the
package, or in a pool aperture, have none. -/
def atomicUnitLive (s : State) (loc : Nat) : Bool := offPart loc || inPools loc || unitLive s (12304 + homeOf s loc)

/-- Whether an atomic must wait for the agent's earlier stores, or for a queued write of its location (R80 to R87), or for a home
atomic unit that is not live (DESIGN CHOICE, log 36). -/
def atomicWaits (s : State) (kind : BitVec 2) (locs : List Nat) (rel : Option Nat) : Bool :=
  !locs.all (atomicUnitLive s) || mustWait s s.cur s.stores kind true locs rel || inQueue s (myDie s) locs || (kind == 0 && soQueued s s.cur false [])

/-- An atomic (R103, R145): it reads the value just before its own write in coherence order (R90), so what any die holds of its
location for itself is recalled first (R272). `new` gives, from the old value, what is written; nothing for a CAS that fails. -/
def atomicPath (s : State) (d : Reg) (m : AmoRef) (cas : Bool) (new : Nat → Option Nat) : State :=
  let n := if m.wide then 8 else 4
  let off := reg s m.a
  match scalarCause s m.seg off n 2 n with
  | some c => takeCause s c
  | none =>
    let cva := (seg s m.seg).base.toNat + off.toNat
    let refs := (span cva n).map (byteRef s (myCtx s))
    let r := byteRef s (myCtx s) cva
    let locs := refs.map (·.loc)
    let rel := (relOf m.order m.scope).map (fun sc => relScope sc r.loc)
    let acq := m.order == .acq || m.order == .ar
    if atomicWaits s r.kind locs rel then waitHere s
    else match (if acq && r.kind != 2 then missOf s s.cur locs else none) with
    | some (g, mk) => holdAcquire s g mk
    | none =>
      if locs.any (poisoned s) then takeTrap s 5 0 0
      else
        let s := recallUo s (fun _ => true) locs
        let bytes := refs.map (readRef s s.cur (myDie s))
        let old := leNat bytes
        let join := if acq && r.kind != 2 then coversAt s locs else []
        let s := noteReads (performAtomic s s.cur refs ((new old).map (leBytes n)) rel) s.cur locs
        if s.defer then
          owe (setCond s (.awaiting (.atomic d (loadValue true bytes) (loadValue true bytes) cas m.wide cva s.time join)))
            [evA .atomicResponse s.cur]
        else advance (setReg (joinOps s s.cur join) d (loadValue true bytes))

/-- An atomic of the plain kinds. -/
def amo (k : Nat) (d b : Reg) (m : AmoRef) (s : State) : Out :=
  issue s (admits s true [d, b, m.a]) (fun s =>
    let c := if m.wide then 64 else 32
    atomicPath s d m false (fun old => some (amoOp k c old ((reg s b).toNat % 2 ^ c))))

/-- AMOADD (R145). -/
def execAmoadd (d b : Reg) (m : AmoRef) (s : State) : Out := amo 0 d b m s
/-- AMOAND (R145). -/
def execAmoand (d b : Reg) (m : AmoRef) (s : State) : Out := amo 1 d b m s
/-- AMOOR (R145). -/
def execAmoor (d b : Reg) (m : AmoRef) (s : State) : Out := amo 2 d b m s
/-- AMOXOR (R145). -/
def execAmoxor (d b : Reg) (m : AmoRef) (s : State) : Out := amo 3 d b m s
/-- AMOMIN (R145). -/
def execAmomin (d b : Reg) (m : AmoRef) (s : State) : Out := amo 4 d b m s
/-- AMOMAX (R145). -/
def execAmomax (d b : Reg) (m : AmoRef) (s : State) : Out := amo 5 d b m s
/-- AMOMINN (R145). -/
def execAmominn (d b : Reg) (m : AmoRef) (s : State) : Out := amo 6 d b m s
/-- AMOMAXN (R145). -/
def execAmomaxn (d b : Reg) (m : AmoRef) (s : State) : Out := amo 7 d b m s
/-- AMOSWAP (R145). -/
def execAmoswap (d b : Reg) (m : AmoRef) (s : State) : Out := amo 8 d b m s
/-- CAS (R145): d holds the expected value and takes the old one. -/
def execCas (d b : Reg) (m : AmoRef) (s : State) : Out :=
  issue s (admits s true [d, b, m.a]) (fun s =>
    let c := if m.wide then 64 else 32
    atomicPath s d m true
      (fun old => if old = (reg s d).toNat % 2 ^ c then some ((reg s b).toNat % 2 ^ c) else none))

/-- FENCE (R86): waits for the agent's stores to be performed, and at .k, .h and .w for its writes to have left the die's
write queues (R274) and to be seen outside its die (R91). -/
def execFence (sc : Scope) (s : State) : Out :=
  issue s (admits s true []) (fun s =>
    if sc == .t then advance s
    else if pendingOf s s.cur ≠ 0 || (decide (4 ≤ scopeNum sc) && (queued s s.cur || inDieOnly s s.cur)) then waitHere s
    else advance s)

end Sys2Proof.Machine
end

