-- ==== Sys2Proof/Machine/VecState.lean ====
section
/-! DEFINITION. Holding lanes (R196 to R202) and strip-mined loops (R203, R204). -/

namespace Sys2Proof.Machine

/-- VREL once earlier loads and matrix words are done (R199). -/
def vrelThen (s : State) (fin : State → State) : State :=
  if !settled (my s) then waitHere s else fin (releaseVec s (me s))

/-- The ceiling that VREQ gives a request (R196): as asked, or the largest multiple of 16 below it that fits. -/
def ceilingFor (room r : Nat) : Nat :=
  let k := min r 1024
  if 144 * k ≤ room then k else min (room / 144) (k - 1) / 16 * 16

/-- VREQ (R196). A request waits for a Kennel that is live (R23; log 36). -/
def execVreq (f : VFields) (s : State) : Out :=
  issueV s false [f.s, extReg f] [] (fun s =>
    let r := (reg s (extReg f)).toNat
    if r = 0 then vrelThen s (fun s => advance (setReg s f.s 0))
    else if (my s).vceil ≠ 0 then advance (setReg s f.s 0)
    else if !poolLive s then waitHere s
    else
      let k := ceilingFor (spillRoom s (myPool s) (myCtx s)) r
      let s := if k = 0 then s else
        joinEnt (modMy s (fun x => { x with vceil := k, gvl := 0, vl := 0, rq := k, slots := List.replicate k Slice.zero
                                            lanes := [], lost := [], debt := none })) (me s)
      advance (setReg s f.s (BitVec.ofNat 64 k)))

/-- VSETL (R197). -/
def execVsetl (f : VFields) (s : State) : Out :=
  issueV s true [f.s, extReg f] [] (fun s =>
    let n := (reg s (extReg f)).toNat
    grantPoint s id (fun s =>
      let vl := min n (my s).gvl
      advance (setReg (modMy s (fun x => { x with vl := vl })) f.s (BitVec.ofNat 64 vl))))

/-- VYIELD (R198). -/
def execVyield (f : VFields) (s : State) : Out :=
  issueV s true [f.s, extReg f] [] (fun s =>
    let n := (reg s (extReg f)).toNat
    grantPoint s (fun s => setRequest s (me s) (min (max n 1) (my s).vceil)) (fun s =>
      advance (setReg (modMy s (fun x => { x with vl := min x.vl x.gvl })) f.s (BitVec.ofNat 64 (my s).gvl))))

/-- VREL (R199). -/
def execVrel (s : State) : Out :=
  issueV s false [] [] (fun s => if (my s).vceil = 0 then advance s else vrelThen s advance)

/-- QSET (R200). -/
def execQset (f : VFields) (s : State) : Out :=
  issueV s false [f.s, extReg f] [] (fun s =>
    let size : BitVec 2 := match cbits f.fmt.toNat with | 8 => 0 | 16 => 1 | _ => 2
    let q : Stream := { offset := reg s f.s, stride := (reg s (extReg f)).extractLsb' 0 32, seg := extSeg f, esize := size }
    advance (modMy s (fun x => { x with streams := x.streams.set! f.vd.toNat q })))

/-- VSEED (R201): the RST state of every slot of the ceiling. -/
def execVseed (s : State) : Out :=
  let f := vFields s.ir
  issueV s true [f.s] [] (fun s =>
    let g := (reg s f.s).extractLsb' 0 16
    advance (modMy s (fun x => { x with slots := x.slots.mapIdx (fun j sl => { sl with rst := g ^^^ BitVec.ofNat 16 j }) })))

/-- CARRYR (R202). -/
def execCarryr (f : VFields) (s : State) : Out :=
  issueV s false [f.s] [] (fun s => advance (setReg s f.s ((my s).carry.setWidth 64)))

/-- CARRYW (R202). -/
def execCarryw (f : VFields) (s : State) : Out :=
  issueV s false [f.s] [] (fun s => advance (modMy s (fun x => { x with carry := (reg s f.s).extractLsb' 0 32 })))

/-- A stream register advanced by a strip of VL slots of its own element size (R203). -/
def Stream.strip (vl : Nat) (q : Stream) : Stream :=
  let e := 2 ^ q.esize.toNat
  { q with offset := q.offset + BitVec.ofNat 64 (vl * (4 / e) * e) * q.stride.signExtend 64 }

/-- The selected stream registers advanced (R203). -/
def advanceStreams (mask : BitVec 8) (x : Thread) : Thread :=
  { x with streams := x.streams.mapFinIdx (fun k q _ => if mask.getLsbD k then q.strip x.vl else q) }

/-- Whether a pass of the SMLOOP at `pc` with a new count does not lower the count (R204). -/
def stalls (w : Option Watch) (pc : Word) (new : Nat) : Bool :=
  match w with
  | some w => w.pc == pc && decide (w.count ≤ new)
  | none => false

/-- SMLOOP (R203, R204). -/
def execSmloop (c : Reg) (mask : BitVec 8) (off : BitVec 32) (s : State) : Out :=
  issueV s true [c] [] (fun s =>
    let x := my s
    let new := (reg s c).toNat - x.vl
    let pc := pcOf s
    let stall := stalls x.watch pc new
    if stall && (match x.watch with | some w => w.strike | none => false) then takeTrap s 4 x.gvl (reg s c)
    else
      grantPoint s (fun s => modMy s (advanceStreams mask)) (fun s =>
        let w : Option Watch := if new = 0 then none else some { pc := pc, count := new, strike := stall }
        let s := setReg (modMy s (fun x => { x with watch := w, vl := min new x.gvl })) c (BitVec.ofNat 64 new)
        if new = 0 then advance s else jump s (pc + off.signExtend 64 * 8)))

end Sys2Proof.Machine
end

