-- ==== Sys2Proof/Machine/VecMem.lean ====
section
/-! DEFINITION. The vector memory forms (R205 to R209) and the context's window of the LSP (R207). -/

namespace Sys2Proof.Machine

/-- The cause that stops a vector access whose elements lie at offsets `offs`, `n` bytes each (R205): the segment lowest
element first, then ALIGN where the form has it, then the causes of step 4 of R129 over all elements. -/
def vecCause (s : State) (sg : BitVec 3) (acc n : Nat) (aligned : Bool) (offs : List Nat) : Option Cause :=
  let g := seg s sg
  match offs.findSome? (fun o => segCheck g sg.toNat o n acc) with
  | some c => some c
  | none =>
    match (if aligned then offs.find? (fun o => o % n ≠ 0) else none) with
    | some o => some (alignCause acc (BitVec.ofNat 64 o))
    | none => judge s (chkOf s sg acc) (offs.flatMap (fun o => span (g.base.toNat + o) n))

/-- The bytes of an element at an offset. -/
def elemRefs (s : State) (sg : BitVec 3) (n off : Nat) : List ByteRef :=
  (span ((seg s sg).base.toNat + off) n).map (byteRef s (myCtx s))

/-- A vector load (R184, R205) of `n` bytes at each offset; `put` makes the elements' values of the bytes, and `side` is
what is written with them at acceptance. -/
def vecLoad (s : State) (sg : BitVec 3) (n : Nat) (aligned : Bool) (h : Hint) (vd : VReg) (fmt : Nat) (offs : List Nat)
    (put : List (List Byte) → List (Nat × Nat)) (side : List (List Byte) → Thread → Thread) : State :=
  match vecCause s sg 0 n aligned offs with
  | some c => takeCause s c
  | none =>
    let refs := offs.map (elemRefs s sg n)
    let all := refs.flatten
    let locs := underRefs s all
    if all.any (fun r => mustWait s s.cur s.stores r.kind false [] none) then waitHere s
    else if locs.any (poisoned s) then takeTrap s 5 0 0
    else
      let s := served s all
      let bytes := refs.map (fun l => l.map (readRef s s.cur (myDie s)))
      let s := noteReads (touchLoad s s.cur all h) s.cur locs
      let s := modMy s (side bytes)
      let l := put bytes
      if s.defer && !l.isEmpty then
        owe (advance (modMy s (fun x => { x with vloads := x.vloads ++ [{ vd := vd.toNat, fmt := fmt, elems := l }] })))
          [ev .vectorLoadArrival (me s)]
      else advance (modMy s (fun x => putElems fmt vd x l))

/-- A vector store (R205) of the bytes given at each offset, read at issue (R175). -/
def vecStore (s : State) (sg : BitVec 3) (n : Nat) (aligned : Bool) (h : Hint) (items : List (Nat × List Byte)) : State :=
  match vecCause s sg 1 n aligned (items.map (·.1)) with
  | some c => takeCause s c
  | none =>
    let bytes := items.flatMap (fun p => (elemRefs s sg n p.1).zip p.2)
    let ps := (vectorPieces s (bytes.filter (fun p => p.1.has))).map (pieceStore s s.cur none h)
    advance (acceptPieces (countRefused s (myCtx s) bytes) s.cur ps)

/-- An offset as it wraps (R205). -/
def wrapOff (x : Int) : Nat := wrap 64 x

/-- The offsets of the unit-stride and strided forms (Table 7.5). -/
def strideOff (s : State) (f : VFields) (stride : Int) (e : Nat) : Nat := wrapOff ((reg s f.s).toNat + e * stride)
/-- The offset of an indexed form (Table 7.5). -/
def indexOff (s : State) (f : VFields) (e : Nat) : Nat := wrapOff ((reg s f.s).toNat + elem (my s) f.vb f.fmt.toNat e)
/-- The stream register of a stream form (Table 7.5). -/
def streamOf (s : State) (f : VFields) : Stream := ((my s).streams.toList.getD f.va.toNat Stream.zero)
/-- The offset of a stream form (Table 7.5). -/
def streamOff (s : State) (f : VFields) (w e : Nat) : Nat :=
  let q := streamOf s f
  wrapOff (q.offset.toNat + e * q.stride.toInt * w)
/-- Whether a stream form names its stream's segment and element size (R206). -/
def streamOk (s : State) (f : VFields) : Bool :=
  let q := streamOf s f
  extSeg f == q.seg && cbits f.fmt.toNat == 8 * 2 ^ q.esize.toNat

/-- An element-wise load: `off` gives each element's offset. -/
def loadForm (f : VFields) (rs : List Reg) (vs : List VReg) (ok : State → Bool) (off : State → Nat → Nat → Nat)
    (s : State) : Out :=
  issueV s true rs (f.vd :: vs) (fun s =>
    if !ok s then takeIll s else
    let fmt := f.fmt.toNat
    let w := cbits fmt / 8
    let es := actives (my s) f
    vecLoad s (extSeg f) w true (extHint f) f.vd fmt (es.map (off s w)) (fun bs => es.zip (bs.map leNat)) (fun _ => id))

/-- An element-wise store. -/
def storeForm (f : VFields) (rs : List Reg) (vs : List VReg) (ok : State → Bool) (off : State → Nat → Nat → Nat)
    (s : State) : Out :=
  issueV s true rs (f.vc :: vs) (fun s =>
    if !ok s then takeIll s else
    let fmt := f.fmt.toNat
    let w := cbits fmt / 8
    let x := my s
    vecStore s (extSeg f) w true (extHint f) ((actives x f).map (fun e => (off s w e, leBytes w (elem x f.vc fmt e)))))

/-- VLD (R206). -/
def execVld (f : VFields) (s : State) : Out :=
  loadForm f [f.s] [] (fun _ => true) (fun s w e => strideOff s f w e) s
/-- VLDS (R206). -/
def execVlds (f : VFields) (s : State) : Out :=
  loadForm f [f.s, extReg f] [] (fun _ => true) (fun s _ e => strideOff s f (reg s (extReg f)).toInt e) s
/-- VLDX (R206). -/
def execVldx (f : VFields) (s : State) : Out :=
  loadForm f [f.s] [f.vb] (fun _ => true) (fun s _ e => indexOff s f e) s
/-- VLDQ (R206). -/
def execVldq (f : VFields) (s : State) : Out :=
  loadForm f [] [] (fun s => streamOk s f) (fun s w e => streamOff s f w e) s
/-- VST (R206). -/
def execVst (f : VFields) (s : State) : Out :=
  storeForm f [f.s] [] (fun _ => true) (fun s w e => strideOff s f w e) s
/-- VSTS (R206). -/
def execVsts (f : VFields) (s : State) : Out :=
  storeForm f [f.s, extReg f] [] (fun _ => true) (fun s _ e => strideOff s f (reg s (extReg f)).toInt e) s
/-- VSTX (R206). -/
def execVstx (f : VFields) (s : State) : Out :=
  storeForm f [f.s] [f.vb] (fun _ => true) (fun s _ e => indexOff s f e) s
/-- VSTQ (R206). -/
def execVstq (f : VFields) (s : State) : Out :=
  storeForm f [] [] (fun s => streamOk s f) (fun s w e => streamOff s f w e) s

/-! ### The window of the LSP -/

/-- The base location and the size of the issuing context's LSP window in its pool (R207, Table 11.4). -/
def lspWindow (s : State) : Nat × Nat :=
  match entryOf s (myPool s) (myCtx s) with
  | some e => (3 * 2 ^ 46 + myPool s * 2 ^ 39 + field e.dw2 32 9 * 4096, field e.dw2 22 10 * 4096)
  | none => (3 * 2 ^ 46 + myPool s * 2 ^ 39, 0)

/-- The cause that stops a window access of `n` bytes at an offset that must be a multiple of `al` (R207, R233). -/
def windowCause (s : State) (off : Word) (n al acc : Nat) : Option Cause :=
  if (lspWindow s).2 < off.toNat + n then some (.trap 2 (segvInfo 0 0 acc) off false)
  else if off.toNat % al ≠ 0 then some (alignCause acc off)
  else none

/-- `n` 32-bit words of the window from an offset. -/
def readWindow (s : State) (off n : Nat) : List Nat :=
  let lo := (lspWindow s).1 + off
  (List.range n).map (fun j => leNat ((span (lo + 4 * j) 4).map (getLoc s s.cur (myDie s))))

/-- 32-bit words stored into the window: a store of the thread's own (R87, R101), in the pieces of R77. -/
def writeWindow (s : State) (off : Nat) (ws : List Nat) : State :=
  let lo := (lspWindow s).1 + off
  let bytes := ws.flatMap (leBytes 4)
  let refs := (span lo bytes.length).map (fun pa => { cva := pa, pa := pa, kind := 2, at_ := .byte pa : ByteRef })
  acceptPieces s s.cur ((vectorPieces s (refs.zip bytes)).map (pieceStore s s.cur none .none))

/-- VLDL (R207). -/
def execVldl (f : VFields) (s : State) : Out :=
  issueV s true [f.s] [f.vd] (fun s =>
    let off := reg s f.s
    let vl := (my s).vl
    if vl = 0 then advance s else
    match windowCause s off (4 * vl) 4 0 with
    | some c => takeCause s c
    | none =>
      let l := (List.range vl).zip (readWindow s off.toNat vl)
      advance (modMy s (fun x => putElems 0 f.vd x l)))

/-- VSTL (R207). -/
def execVstl (f : VFields) (s : State) : Out :=
  issueV s true [f.s] [f.vc] (fun s =>
    let off := reg s f.s
    let x := my s
    if x.vl = 0 then advance s else
    match windowCause s off (4 * x.vl) 4 1 with
    | some c => takeCause s c
    | none => advance (writeWindow s off.toNat ((List.range x.vl).map (elem x f.vc 0))))

/-! ### Blocks in memory -/

/-- The whole blocks of an SX format in a strip (R208). -/
def sxBlocks (x : Thread) (fmt : Nat) : List Nat := List.range (numElems x fmt / 16)

/-- The elements of a block's bytes (R64): those of block `b`, each with its number. -/
def sxElems (fmt b : Nat) (bytes : List Byte) : List (Nat × Nat) :=
  let w := sxM fmt + 1
  let bits := leNat (bytes.drop 2)
  (List.range 16).map (fun i => (16 * b + i, bits / 2 ^ (i * w) % 2 ^ w))

/-- The scale entry of a block's bytes (R64, Table 8.2). -/
def sxScale (bytes : List Byte) : BitVec 16 := bytes.getD 1 0 ++ bytes.getD 0 0

/-- The bytes of a block (R64). -/
def sxPack (fmt : Nat) (ent : BitVec 16) (els : List Nat) : List Byte :=
  let w := sxM fmt + 1
  let bits := ((List.range 16).map (fun i => els.getD i 0 % 2 ^ w * 2 ^ (i * w))).sum
  ent.extractLsb' 0 8 :: ent.extractLsb' 8 8 :: leBytes (2 * w) bits

/-- VLDSX (R208). -/
def execVldsx (f : VFields) (s : State) : Out :=
  issueV s true [f.s] [f.vd] (fun s =>
    let fmt := f.fmt.toNat
    let bs := sxBlocks (my s) fmt
    vecLoad s (extSeg f) (sxBytes fmt) false (extHint f) f.vd fmt (bs.map (strideOff s f (sxBytes fmt)))
      (fun l => (bs.zip l).flatMap (fun p => sxElems fmt p.1 p.2))
      (fun l x => (bs.zip l).foldl (fun x p => putSc x f.va.toNat p.1 (sxScale p.2)) x))

/-- VSTSX (R208). -/
def execVstsx (f : VFields) (s : State) : Out :=
  issueV s true [f.s] [f.vc] (fun s =>
    let fmt := f.fmt.toNat
    let x := my s
    vecStore s (extSeg f) (sxBytes fmt) false (extHint f) ((sxBlocks x fmt).map (fun b =>
      (strideOff s f (sxBytes fmt) b,
        sxPack fmt (scEntry x f.va.toNat b) ((span (16 * b) 16).map (elem x f.vc fmt))))))

/-! ### Vector atomics -/

/-- The operation of a VAMO as R145 numbers it, by its op and format (R209). -/
def vamoOp (op fmt : Nat) : Nat :=
  match op with
  | 4 => if fmt = 7 then 6 else 4
  | 5 => if fmt = 7 then 7 else 5
  | 6 => 8
  | k => k

/-- One element of a VAMO at its home (R209), which recalls what a die holds of it for itself (R272): its old value, and the state
after it. -/
def vamoElem (k : Nat) (s : State) (cva b : Nat) : Nat × State :=
  let refs := (span cva 4).map (byteRef s (myCtx s))
  let s := recallUo s (fun _ => true) (refs.map (·.loc))
  let old := leNat (refs.map (readRef s s.cur (myDie s)))
  (old, noteReads (performAtomic s s.cur refs (some (leBytes 4 (amoOp k 32 old b))) none) s.cur (refs.map (·.loc)))

/-- The elements of a VAMO in ascending order: (element, address, operand) to (element, address, old value). -/
def vamoAll (k : Nat) : List (Nat × Nat × Nat) → State → List (Nat × Nat × BitVec 32) × State
  | [], s => ([], s)
  | (e, cva, b) :: r, s =>
    let (old, s) := vamoElem k s cva b
    let (l, s) := vamoAll k r s
    ((e, cva, BitVec.ofNat 32 old) :: l, s)

/-- The old values of a VAMO arrive (R209). -/
def vamoDone (vd fmt : Nat) (olds : List (Nat × Nat × BitVec 32)) (s : State) : State :=
  advance (modMy s (fun x => putElems fmt (BitVec.ofNat 5 vd) x (olds.map (fun p => (p.1, p.2.2.toNat)))))

/-- VAMO (R209). -/
def execVamo (f : VFields) (s : State) : Out :=
  issueV s true [f.s] [f.vd, f.vb, f.vc] (fun s =>
    let fmt := f.fmt.toNat
    let x := my s
    let es := actives x f
    let offs := es.map (indexOff s f)
    if es.isEmpty then advance s else
    match vecCause s (extSeg f) 2 4 true offs with
    | some c => takeCause s c
    | none =>
      let refs := offs.flatMap (elemRefs s (extSeg f) 4)
      let locs := underRefs s refs
      if refs.any (fun r => atomicWaits s r.kind [r.loc] none) then waitHere s
      else if locs.any (poisoned s) then takeTrap s 5 0 0
      else
        let base := (seg s (extSeg f)).base.toNat
        let items := (es.zip offs).map (fun p => (p.1, base + p.2, elem x f.vc fmt p.1))
        let (olds, s) := vamoAll (vamoOp f.va.toNat fmt) items s
        if s.defer then owe (setCond s (.awaiting (.vamo f.vd.toNat fmt olds s.time))) [evA .atomicResponse s.cur]
        else vamoDone f.vd.toNat fmt olds s)

end Sys2Proof.Machine
end

