-- ==== Sys2Proof/Machine/Sampling.lean ====
section
/-! DEFINITION. The sampling array of a compute die: its cells and update (R319 to R323), the model in memory (R324, R325,
R330), its ten instructions (R326 to R332), and the steps by which it runs its queue. -/

namespace Sys2Proof.Machine

/-! ### Cells -/

/-- The generator state that a seed gives a cell (R329, Table 12.1). -/
def genOf (seed : BitVec 16) (i : Nat) : BitVec 16 :=
  let g := seed ^^^ BitVec.ofNat 16 i
  if g = 0 then 1 else g

/-- A cell of an array (Table 12.1). -/
def SArray.cell (a : SArray) (i : Nat) : Cell :=
  kget a.cells i { state := false, en := false, bias := 0, colour := 0, coup := [], clamp := false, count := 0
                   gen := genOf a.seed i }
/-- A cell replaced. -/
def SArray.put (a : SArray) (i : Nat) (c : Cell) : SArray := { a with cells := kset a.cells i c }

/-- The array of a die changed. -/
def modSa (s : State) (d : Nat) (f : SArray → SArray) : State := modDie s d (fun x => { x with sa := f x.sa })

/-- SIG (R323, Table 12.3). -/
def sigF (x : Nat) : Nat :=
  if x < 16 then 32768 + 1024 * x else if x < 32 then 40960 + 512 * x else if x < 64 then 53248 + 128 * x
  else 57344 + 64 * x
/-- SIG[x + 128] for x from −128 to 127. -/
def sig (x : Int) : Nat := if 0 ≤ x then sigF x.toNat else 65536 - sigF (-x).toNat

/-- ±1 as a state counts in a sum. -/
def spin (b : Bool) : Int := if b then 1 else -1

/-- The field of a cell as the states stand (R321). -/
def fieldOf (a : SArray) (c : Cell) : Int :=
  c.bias.toInt + (c.coup.map (fun p => p.1.toInt * spin (a.cell p.2).state)).sum

/-- p of a cell (R321). -/
def probOf (a : SArray) (c : Cell) : Nat :=
  sig (max (-128) (min 127 (a.beta.toNat * fieldOf a c / 256)))

/-- One colour of a sweep (R321): every field is taken from `a0`, the array as the colour begins. `n` numbers the entropy
drawn in physical mode. -/
def sweepCells (a0 : SArray) (n : Nat) : List (Nat × Cell) → SArray → SArray × Nat
  | [], a => (a, n)
  | (i, c) :: r, a =>
    let (u, c, n) := if a0.mode then (Config.entropy n, c, n + 1) else (rstStep c.gen, { c with gen := rstStep c.gen }, n)
    let c := if c.clamp then c else { c with state := decide (u.toNat < probOf a0 c) }
    sweepCells a0 n r (a.put i c)

/-- Some colours of a sweep, in order (R321). -/
def sweepColours : List Nat → SArray → Nat → SArray × Nat
  | [], a, n => (a, n)
  | k :: r, a, n =>
    let (a, n) := sweepCells a n (a.cells.filter (fun p => p.2.en && p.2.colour == k)) a
    sweepColours r a n

/-- The end of a sweep (R321): the counts of the enabled cells at +1, and SWEEPS. -/
def sweepCounts (a : SArray) : SArray :=
  { a with
    cells := a.cells.map (fun p => (p.1, if p.2.en && p.2.state && decide (p.2.count < 65535) then
      { p.2 with count := p.2.count + 1 } else p.2))
    sweeps := (a.sweeps + 1) % 2 ^ 32 }

/-- One sweep (R321): the array, and the counter of free values. -/
def sweepOnce (a : SArray) (n : Nat) : SArray × Nat :=
  let (a, n) := sweepColours (List.range 8) a n
  (sweepCounts a, n)

/-! ### The record and the status -/

/-- The resource-map record of a die's array (Table 13.1). -/
def saRec (d : Nat) : Nat := 12896 + d
/-- AUXA[0] of the array's record: the entropy source passes its health test (R322). -/
def entropyOk (s : State) (d : Nat) : Bool := match mapRec s (saRec d) with | some r => r.auxA.testBit 0 | none => false

/-- A fault recorded in the status (Table 12.7). -/
def SArray.fail (a : SArray) (kind cell addr : Nat) : SArray :=
  { a with fault := true, fkind := kind, fcell := cell, faddr := addr }

/-- A doubleword of the status (Table 12.7). -/
def SArray.status (a : SArray) (i : Nat) : Word :=
  if i = 0 then BitVec.ofNat 64 (a.sweeps * 2 ^ 32 + a.fcell * 2 ^ 16 + a.fkind * 2 ^ 12 +
    (if a.fault then 128 else 0) + (if a.mode then 64 else 0))
  else if i = 1 then BitVec.ofNat 64 a.faddr
  else BitVec.allOnes 64

/-! ### Running the queue -/

/-- The step that runs a command. -/
def SaCmd.event : SaCmd → Instr
  | .load _ _ _ _ _ _ _ => .saloadRun
  | .seed _ _ => .saseedRun
  | .beta _ => .sabetaRun
  | .sweep _ _ => .sweep

/-- The command at the head of a die's queue is owed its step, a sweep of a source that passes its test (R322, R329). -/
def oweHead (s : State) (d : Nat) : State :=
  match (die s d).sa.queue with
  | [] => s
  | c :: _ => owe s [(c.event, { Msg.empty with a := d, flag := true })]

/-- The first command of a die's queue is done, or discarded; the next comes to the head (R329). -/
def popCmd (s : State) (d : Nat) : State := oweHead (modSa s d (fun a => { a with queue := a.queue.drop 1 })) d

/-- What is known of a byte that a load reads: its value, that its page is not present, or FKIND with its address (R330). -/
inductive SaByte where
  | ok (b : Byte)
  | delay (cva : Nat)
  | bad (kind cva : Nat)
  deriving DecidableEq, Repr

/-- A byte of a load (R330). -/
def saByte (s : State) (d c : Nat) (v : Bool) (cva : Nat) : SaByte :=
  match xlate s c cva with
  | .none _ => .bad 2 cva
  | .integ => .bad 5 cva
  | .absent => .delay cva
  | x =>
    let b := byteRef s c cva
    if (inRegions b.pa && !v) || denied s 0 x then .bad 3 cva
    else if (b.at_.under s).any (poisoned s) then .bad 7 cva
    else .ok (readShared s d b)

/-- The bytes that cell number `i` of a load may read (R325): its record, and the entries that the record names. -/
def cellRefs (s : State) (d c : Nat) (g : Seg) (roff toff : Nat) : List ByteRef :=
  let ref (cva : Nat) := byteRef s c cva
  let rec_ := (span (g.base.toNat + roff) 8).map ref
  let w := BitVec.ofNat 64 (leNat (rec_.map (readShared s d)))
  rec_ ++ (span (g.base.toNat + toff + 4 * field w 0 32) (4 * field w 38 6)).map ref

/-- What is known of a run of bytes: the first that is not read, or their number. -/
def saBytes (s : State) (d c : Nat) (v : Bool) (lo n : Nat) : Except SaByte Nat :=
  let l := (span lo n).map (saByte s d c v)
  match l.find? (fun x => match x with | .ok _ => false | _ => true) with
  | some x => .error x
  | none => .ok (leNat (l.map (fun x => match x with | .ok b => b | _ => 0)))

/-- A cell loaded from its record and entries (R325). -/
def loadedCell (old : Cell) (r : Nat) (entries : Nat) : Cell :=
  let w := BitVec.ofNat 64 r
  { old with
    state := w.getLsbD 37, en := w.getLsbD 44, bias := w.extractLsb' 48 16, colour := field w 45 3, clamp := false, count := 0
    coup := (List.range (field w 38 6)).map (fun k =>
      let e := entries / 2 ^ (32 * k)
      (BitVec.ofNat 8 (e / 2 ^ 16), e % 2 ^ 16)) }

/-- The next cell of a load: loaded, or why not (R330). -/
def loadCell (s : State) (d i roff toff nent : Nat) (g : Seg) (c : Nat) : Except SaByte Cell :=
  let base := g.base.toNat
  match saBytes s d c g.v (base + roff) 8 with
  | .error x => .error x
  | .ok r =>
    let w := BitVec.ofNat 64 r
    let n := field w 38 6
    let idx := field w 0 32
    if field w 32 5 ≠ 0 || decide (32 < n) || decide (nent < idx + n) then .error (.bad 8 (base + roff))
    else match saBytes s d c g.v (base + toff + 4 * idx) (4 * n) with
    | .error x => .error x
    | .ok e => .ok (loadedCell ((die s d).sa.cell i) r e)

/-- What a view's dies hold of cell number `i` for themselves comes home before it is read: of its record, and then of the entries that
the record names (R105). -/
def cellServed (s : State) (d c : Nat) (g : Seg) (roff toff : Nat) : State :=
  let s := served s (cellRefs s d c g roff toff)
  served s (cellRefs s d c g roff toff)

/-- Up to `n` cells of a load in ascending order, read through the die's L2, or from the home under a view (R105, R272); what stopped it, with the cells left (R325, R330). -/
def loadCells (d : Nat) (g : Seg) (c toff nent : Nat) : Nat → Nat → Nat → State → State × Option (SaByte × Nat × Nat)
  | 0, _, _, s => (s, none)
  | n + 1, i, roff, s =>
    let s := cellServed s d c g roff toff
    match loadCell s d i roff toff nent g c with
    | .ok x => loadCells d g c toff nent n (i + 1) (roff + 8)
        (modSa (touchEngine s d (cellRefs s d c g roff toff)) d (·.put i x))
    | .error e => (s, some (e, i, roff))

/-- SALOAD_RUN (R330): the load at the head of a die's queue. -/
def execSaloadRun (s : State) : Out :=
  let d := s.msg.a
  let a := (die s d).sa
  match a.queue with
  | .load first count roff toff nent g c :: rest =>
    if a.fault then .next (popCmd s d) else
    match loadCells d g c toff nent count first roff s with
    | (s, none) => .next (popCmd s d)
    | (s, some (.delay cva, i, off)) =>
      let s := modSa s d (fun a => { a with queue := .load i (first + count - i) off toff nent g c :: rest })
      .next (owe (fileReport s c (cva / 4096)) [ev .saloadRun d])
    | (s, some (.bad k cva, i, _)) => .next (modSa (popCmd s d) d (·.fail k i cva))
    | (s, some (.ok _, _, _)) => .next (popCmd s d)
  | _ => .next s

/-- SASEED_RUN (R329). -/
def execSaseedRun (s : State) : Out :=
  let d := s.msg.a
  let a := (die s d).sa
  match a.queue with
  | .seed g phys :: _ =>
    let s := popCmd s d
    if a.fault then .next s else
    .next (modSa s d (fun a =>
      let a := { a with seed := g, mode := phys, cells := a.cells.map (fun p => (p.1, { p.2 with gen := genOf g p.1 })) }
      if phys && !entropyOk s d then { a.fail 9 0 0 with mode := false } else a))
  | _ => .next s

/-- SABETA_RUN (R329). -/
def execSabetaRun (s : State) : Out :=
  let d := s.msg.a
  let a := (die s d).sa
  match a.queue with
  | .beta b :: _ =>
    let s := popCmd s d
    .next (if a.fault then s else modSa s d (fun a => { a with beta := b }))
  | _ => .next s

/-- SWEEP (R321, R322): one sweep of the command at the head of a die's queue, or as many of its colours as the message names,
since a freeze stops the array at a colour boundary (R337). In physical mode a source that fails its test before a sweep runs no
sweep: the command fails with FKIND 9, and the failure counts as an error of the source. -/
def execSweep (s : State) : Out :=
  let d := s.msg.a
  let a := (die s d).sa
  match a.queue with
  | .sweep n k :: rest =>
    if a.fault || n == 0 then .next (popCmd s d)
    else if k == 0 && a.mode && !s.msg.flag then
      .next (owe (modSa (popCmd s d) d (·.fail 9 0 0)) [ev .unitError (saRec d) 1])
    else
      let j := if s.msg.b = 0 then 8 - k else min s.msg.b (8 - k)
      let (b, f) := sweepColours (span k j) a s.free
      let put (b : SArray) : State := { modSa s d (fun _ => b) with free := f }
      if k + j < 8 then .next (oweHead (put { b with queue := .sweep n (k + j) :: rest }) d)
      else if n = 1 then .next (popCmd (put (sweepCounts b)) d)
      else .next (oweHead (put { sweepCounts b with queue := .sweep (n - 1) 0 :: rest }) d)
  | _ => .next s

/-! ### The instructions -/

/-- Whether the issuing thread owns its die's array. -/
def ownsSa (s : State) : Bool := (die s (myDie s)).sa.owner == some (me s) && (die s (myDie s)).sa.frozen.isNone
/-- The array of the issuing thread's die. -/
def mySa (s : State) : SArray := (die s (myDie s)).sa

/-- A sampling word of the owner (R326). -/
def issueSa (s : State) (held : Bool) (rs : List Reg) (vs : List VReg) (f : State → State) : Out :=
  issueV s held rs vs (fun s => if ownsSa s then f s else takeIll s)

/-- A command enters the queue of eight, and is run at once where the queue was empty (R329). -/
def pushCmd (s : State) (c : SaCmd) : State :=
  if 8 ≤ (mySa s).queue.length then waitHere s
  else
    let first := (mySa s).queue.isEmpty
    let d := myDie s
    let s := advance (modSa s d (fun a => { a with queue := a.queue ++ [c] }))
    if first then oweHead s d else s

/-- A die's array returns to the reset state and is free (R320). -/
def freeSa (s : State) (d : Nat) : State := modSa s d (fun _ => SArray.reset)

/-- SAACQ (R327): 0 owned, 2 retired, 1 taken or frozen. An array that the map records absent answers as a retired one (DEDUCED, log
25; R23). -/
def execSaacq (s : State) : Out :=
  let f := vFields s.ir
  issueV s false [f.s] [] (fun s =>
    let d := myDie s
    if ownsSa s then advance (setReg s f.s 0)
    else if !unitLive s (saRec d) then advance (setReg s f.s 2)
    else if (mySa s).owner.isSome || (mySa s).frozen.isSome then advance (setReg s f.s 1)
    else advance (setReg (modSa s d (fun _ => { SArray.reset with owner := some (me s), ctx := myCtx s })) f.s 0))

/-- SAREL (R328). -/
def execSarel (s : State) : Out :=
  issueV s false [] [] (fun s =>
    if !ownsSa s then advance s
    else if !(mySa s).queue.isEmpty then waitHere s
    else advance (freeSa s (myDie s)))

/-- SALOAD's checks on its descriptor (R329). -/
def saDescriptorOk (w0 w1 w2 : Word) : Bool :=
  field w0 49 15 == 0 && field w0 16 16 == 0 && decide (field w0 32 17 ≤ 65536) &&
    decide (field w0 0 16 + field w0 32 17 ≤ 65536) && w1.toNat % 8 == 0 && w2.toNat % 4 == 0

/-- SALOAD (R329): the descriptor is read as a load, after every earlier access, the thread's own writes being performed for every
agent (R101). -/
def execSaload (s : State) : Out :=
  let f := vFields s.ir
  issueSa s false [f.s] [] (fun s =>
    let g := extSeg f
    if 8 ≤ (mySa s).queue.length || pendingOf s s.cur ≠ 0 || ownQueued s s.cur then waitHere s
    else loadPath { s with defer := false } g (reg s f.s) 32 8 false .none (fun _ _ _ => .pginv 0 0) (fun s bytes =>
      let w (i : Nat) : Word := BitVec.ofNat 64 (leNat ((bytes.drop (8 * i)).take 8))
      if !saDescriptorOk (w 0) (w 1) (w 2) then takeIll s else
      let count := field (w 0) 32 17
      let sg := seg s g
      match (segCheck sg g.toNat (w 1).toNat (8 * count) 0).or (segCheck sg g.toNat (w 2).toNat (4 * (w 3).toNat) 0) with
      | some c => takeCause s c
      | none => pushCmd s (.load (field (w 0) 0 16) count (w 1).toNat (w 2).toNat (w 3).toNat sg (myCtx s))))

/-- SASEED (R329). -/
def execSaseed (s : State) : Out :=
  let f := vFields s.ir
  issueSa s false [f.s, extReg f] [] (fun s =>
    pushCmd s (.seed ((reg s f.s).extractLsb' 0 16) ((reg s (extReg f)).getLsbD 0)))

/-- SABETA (R329). -/
def execSabeta (s : State) : Out :=
  let f := vFields s.ir
  issueSa s false [f.s] [] (fun s => pushCmd s (.beta ((reg s f.s).extractLsb' 0 16)))

/-- SASWEEP (R329). -/
def execSasweep (s : State) : Out :=
  let f := vFields s.ir
  issueSa s false [f.s] [] (fun s =>
    let n := (reg s f.s).toNat
    if 2 ^ 32 ≤ n then takeIll s else pushCmd s (.sweep n 0))

/-- SAWAIT (R332): reading doubleword 0 clears the fault. -/
def execSawait (s : State) : Out :=
  let f := vFields s.ir
  issueSa s false [f.s, extReg f] [] (fun s =>
    if !(mySa s).queue.isEmpty then waitHere s
    else
      let i := (reg s (extReg f)).toNat
      let v := (mySa s).status i
      let s := if i = 0 then modSa s (myDie s) (fun a => { a with fault := false, fkind := 0, fcell := 0, faddr := 0 }) else s
      advance (setReg s f.s v))

/-- SACLAMP on one cell (R331). -/
def clampCell (clamp state : Bool) (c : Cell) : Cell :=
  if clamp then { c with clamp := true, state := state } else { c with clamp := false }

/-- The first cell that a register word names (R331). -/
def saFirst (s : State) (f : VFields) : Nat := (reg s f.s).toNat

/-- SACLAMP's effect. -/
def clampAct (s : State) (f : VFields) : State :=
  let c := saFirst s f
  let x := my s
  let l := ((List.range x.vl).flatMap (fun j => (List.range 32).map (fun k => (j, k)))).filter
    (fun p => c + 32 * p.1 + p.2 < 65536)
  modSa s (myDie s) (fun a => l.foldl (fun a p =>
    let i := c + 32 * p.1 + p.2
    a.put i (clampCell ((elem x f.va 0 p.1).testBit p.2) ((elem x f.vb 0 p.1).testBit p.2) (a.cell i))) a)

/-- SAREAD's effect. -/
def readAct (s : State) (f : VFields) : State :=
  let c := saFirst s f
  let a := mySa s
  let word (j : Nat) : Nat := ((List.range 32).map (fun k =>
    let i := c + 32 * j + k
    if i < 65536 && (a.cell i).state then 2 ^ k else 0)).sum
  modMy s (fun x => putElems 0 f.vd x ((List.range x.vl).map (fun j => (j, word j))))

/-- SACOUNT's effect. -/
def countAct (s : State) (f : VFields) : State :=
  let c := saFirst s f
  let a := mySa s
  let n := 2 * (my s).vl
  let clear := (reg s (extReg f)).getLsbD 0
  let count (e : Nat) : Nat := if c + e < 65536 then (a.cell (c + e)).count else 0
  let s := modMy s (fun x => putElems 6 f.vd x ((List.range n).map (fun e => (e, count e))))
  if !clear then s
  else modSa s (myDie s) (fun a =>
    { a with cells := a.cells.map (fun p => (p.1, if c ≤ p.1 && p.1 < c + n then { p.2 with count := 0 } else p.2)) })

/-- What the register word `w` does in the array, and its registers return (R331). -/
def saAct (w : Word) (s : State) : State :=
  let f := vFields w
  advance (match field w 52 10 with
    | 0x185 => clampAct s f
    | 0x187 => readAct s f
    | _ => countAct s f)

/-- A register word (R331): it waits for the queue, then its thread hands its operands to the array. -/
def registerWord (s : State) (rs : List Reg) (vs : List VReg) (mult : Nat) : Out :=
  let f := vFields s.ir
  issueSa s true rs vs (fun s =>
    let c := saFirst s f
    if 65536 ≤ c || c % mult ≠ 0 then takeIll s
    else if !(mySa s).queue.isEmpty then waitHere s
    else if s.defer then owe (setCond s (.inEngine s.ir)) [ev .saRegisterReturn (me s)]
    else saAct s.ir s)

/-- SACLAMP (R331). -/
def execSaclamp (s : State) : Out :=
  let f := vFields s.ir
  registerWord s [f.s] [f.va, f.vb] 32
/-- SAREAD (R331). -/
def execSaread (s : State) : Out :=
  let f := vFields s.ir
  registerWord s [f.s] [f.vd] 32
/-- SACOUNT (R331). -/
def execSacount (s : State) : Out :=
  let f := vFields s.ir
  registerWord s [f.s, extReg f] [f.vd] 1

/-- SA_REGISTER_RETURN (R331): thread t's register word completes in the array. -/
def execSaRegisterReturn (s : State) : Out :=
  let t := s.msg.a
  match (thr s t).cond with
  | .inEngine w =>
    if hasThr s t && (thr s t).mqueue.isEmpty then .next (respond s (.thread t) (saAct w)) else .next s
  | _ => .next s

end Sys2Proof.Machine
end

