-- ==== Sys2Proof/Machine/System.lean ====
section
/-! DEFINITION. Traps by instruction (R131), return from a handler (R130), control and status registers (R125, R126), and
the system instructions (R113, R146 to R149). -/

namespace Sys2Proof.Machine

/-- TRAP (R131). -/
def execTrap (a : Reg) (code : BitVec 12) (s : State) : Out :=
  issue s (admits s true [a]) (fun s =>
    if reg s a = 0 then advance s else takeTrap s 9 (code.toNat + 2 ^ 31) (reg s a))
/-- ECALL (R131). -/
def execEcall (code : BitVec 12) (s : State) : Out :=
  issue s (admits s false []) (fun s => takeTrap s 9 code.toNat 0)
/-- BRK (R131). -/
def execBrk (code : BitVec 12) (s : State) : Out :=
  issue s (admits s true []) (fun s => takeTrap s 8 code.toNat 0)
/-- ERET (R130): illegal at U and in the service context. -/
def execEret (s : State) : Out :=
  issue s (admits s false [] && atS s && !inSvc s) (fun s =>
    let t := me s
    let s := if (my s).epc = pcOf s + 8 then s else trace s 1 0 (my s).epc
    modThr (retire s) t returnU)

/-- CTXID (Table 5.7). -/
def ctxidOf (s : State) : Word :=
  BitVec.ofNat 64 (tenantOf s (myCtx s) * 2 ^ 20 + myCtx s * 2 ^ 12 + hwOf (me s))

/-- A CSR as the issuing thread reads it, with whether it may write it (Table 5.5); none where its level denies it. -/
def readCsr (s : State) (n : Nat) : Option (Word × Bool) :=
  let x := my s
  let nat (v : Nat) : Option (Word × Bool) := some (BitVec.ofNat 64 v, false)
  let sup (r : Option (Word × Bool)) : Option (Word × Bool) := if atS s then r else none
  match n with
  | 0x001 => some (x.fcsr, true)
  | 0x010 => nat x.vl
  | 0x011 => nat x.gvl
  | 0x012 => nat x.vceil
  | 0x013 => nat x.mvl
  | 0x018 => some (x.tags, false)
  | 0x020 => some (ctxidOf s, false)
  | 0x021 => nat (myCore s)
  | 0x022 => some (x.instret, false)
  | 0x030 => some ((core s (myCore s)).lscfg, false)
  | 0x031 => some ((core s (myCore s)).vict, false)
  | 0x100 => sup (some (x.status, true))
  | 0x101 => sup (some ((match ctx? s x.ctx with | some c => c.tvec | none => 0), false))
  | 0x102 => sup (some (x.epc, true))
  | 0x103 => sup (some (x.cause, true))
  | 0x104 => sup (some (x.tval, true))
  | 0x105 => sup (some (x.sscratch, true))
  | 0x106 => sup (some ((match ctx? s x.ctx with | some c => c.smvec | none => 0), false))
  | _ => none

/-- A CSR of a thread written: reserved and read-only fields stay (R126, Tables 5.6, 5.8). -/
def writeCsr (n : Nat) (v : Word) (x : Thread) : Thread :=
  match n with
  | 0x001 => { x with fcsr := writeFcsr x.fcsr v }
  | 0x100 => { x with status := (x.status &&& ~~~0x80#64) ||| (v &&& 0x80#64) }
  | 0x102 => { x with epc := v &&& ~~~7#64 }
  | 0x103 => { x with cause := v &&& 0xFFFFFFFF000000FF#64 }
  | 0x104 => { x with tval := v }
  | 0x105 => { x with sscratch := v }
  | _ => x

/-- A word that reads or writes FCSR waits until the thread's matrix queue is empty (R236). -/
def csrWaits (s : State) (n : Nat) : Bool := n == 1 && !(my s).mqueue.isEmpty

/-- A CSR write of a value computed from the old one (R126). -/
def csrWrite (csr : BitVec 12) (a : Reg) (f : Word → Word → Word) (s : State) : Out :=
  match readCsr s csr.toNat with
  | some (old, true) => issue s (admits s false [a]) (fun s =>
      if csrWaits s csr.toNat then waitHere s
      else advance (modMy s (writeCsr csr.toNat (f old (reg s a)))))
  | _ => issue s false advance

/-- CSRR (R126). -/
def execCsrr (d : Reg) (csr : BitVec 12) (s : State) : Out :=
  match readCsr s csr.toNat with
  | some (v, _) => issue s (admits s false [d]) (fun s =>
      if csrWaits s csr.toNat then waitHere s else advance (setReg s d v))
  | none => issue s false advance
/-- CSRW (R126). -/
def execCsrw (csr : BitVec 12) (a : Reg) (s : State) : Out := csrWrite csr a (fun _ x => x) s
/-- CSRS (R126). -/
def execCsrs (csr : BitVec 12) (a : Reg) (s : State) : Out := csrWrite csr a (fun old x => old ||| x) s
/-- CSRC (R126). -/
def execCsrc (csr : BitVec 12) (a : Reg) (s : State) : Out := csrWrite csr a (fun old x => old &&& ~~~x) s

/-- TIME (R108, R146). -/
def execTime (d : Reg) (s : State) : Out :=
  issue s (admits s true [d]) (fun s => advance (setReg s d (BitVec.ofNat 64 s.time)))
/-- YIELD (R146): the thread forgoes its next eligible turn. -/
def execYield (s : State) : Out :=
  issue s (admits s false []) (fun s =>
    advance (modCore s (myCore s) (fun c =>
      { c with forgo := if c.forgo.contains (hwOf (me s)) then c.forgo else hwOf (me s) :: c.forgo })))
/-- RMVER (R146). -/
def execRmver (d : Reg) (s : State) : Out :=
  issue s (admits s false [d]) (fun s => advance (setReg s d (BitVec.ofNat 64 s.keeper.version)))
/-- RMACK (R148). -/
def execRmack (d a : Reg) (s : State) : Out :=
  issue s (admits s false [d, a]) (fun s =>
    let r := ackVersion s (myCtx s) (reg s a).toNat false
    advance (setReg r.1 d (BitVec.ofNat 64 r.2)))
/-- RMREAD (R146, R339). -/
def execRmread (d a b : Reg) (s : State) : Out :=
  issue s (admits s false [d, a, b]) (fun s => advance (setReg s d (mapDword s (reg s a).toNat (reg s b).toNat)))
/-- TRACEMARK (R146, R357 kind 8). -/
def execTracemark (a : Reg) (code : BitVec 12) (s : State) : Out :=
  issue s (admits s true [a]) (fun s => advance (trace s 8 code.toNat (reg s a)))

/-- Whether a range of addresses, taken to whole 2 MiB pages so that a large page that overlaps is covered, meets `n` bytes; the
length 0 takes in every address (R149). -/
def pginvHits (lo n a len : Nat) : Bool :=
  n == 0 || decide (lo / 2 ^ 21 ≤ (a + (len - 1)) / 2 ^ 21 ∧ a / 2 ^ 21 ≤ (lo + n - 1) / 2 ^ 21)

/-- Whether a read that was accepted over a range has still to be performed (R107). -/
def readOwed (lo n : Nat) : Cond → Bool
  | .awaiting (.load _ _ cva pas _ _) => pginvHits lo n cva pas.length
  | .awaiting (.segld _ _ _ cva pas) => pginvHits lo n cva pas.length
  | _ => false

/-- Whether accesses of a context over a range are still to be performed at package scope (R107, R149): accepted stores, writes in
a die's queues, reads that await their response, and chunks of copies. -/
def pginvBusy (s : State) (c : Nat) (lo n : Nat) : Bool :=
  s.stores.any (fun p => agentCtx s p.agent == c && pginvHits lo n p.cva p.locs.length) ||
    s.dies.any (fun d => (d.2.hostq ++ d.2.peerq ++ d.2.uoq).any (fun w => w.ctx == c && pginvHits lo n (w.page * 4096) 4096)) ||
    s.threads.any (fun q => q.2.ctx == c && readOwed lo n q.2.cond) ||
    s.rets.any (fun r => readOwed lo n r.2.cond && (match r.2.owner with | some t => (thr s t).ctx == c | none => false)) ||
    s.pools.any (fun p => p.2.copies.any (fun y => y.ctx == c && !y.live.isEmpty))

/-- PGINV (R149): translations are taken afresh at every access, so what is left to wait for is the accesses made under
the old mapping. -/
def execPginv (a b : Reg) (s : State) : Out :=
  issue s (admits s false [a, b] && atS s) (fun s =>
    if s.defer || pginvBusy s (myCtx s) (reg s a).toNat (reg s b).toNat then
      owe (setCond s (.awaiting (.pginv (reg s a).toNat (reg s b).toNat))) [ev .pginvComplete (me s)]
    else advance s)

/-! ### Copies of a thread -/

/-- Whether a pool's copy engine still holds a copy of a thread, or of its Retrievers. -/
def copiesOf (s : State) (t : Nat) : Bool := s.pools.any (fun p => p.2.copies.any (fun c => c.thread == t))

end Sys2Proof.Machine
end

