-- ==== Sys2Proof/Machine/Strands.lean ====
section
/-! DEFINITION. Frames, strands and the end of a task: SPAWN, RETJ, JOIN and JOINQ (R308 to R311), TEND (R147). -/

namespace Sys2Proof.Machine

/-! ### Frames -/

/-- A frame access (R310): an atomic access against no segment. -/
def frameChk (c : Nat) (lost : Option Nat) : Chk :=
  { c := c, sg := 0, acc := 2, v := true, base := 0, frame := true, lost := lost }

/-- The bytes of an address range of a context. -/
def refsOf (s : State) (c cva n : Nat) : List ByteRef := (span cva n).map (byteRef s c)

/-- The doublewords that an agent reads at a range of bytes. -/
def wordsAt (s : State) (refs : List ByteRef) : List Word :=
  (chunksOf 8 refs.length (refs.map (readRef s s.cur (myDie s)))).map (fun b => BitVec.ofNat 64 (leNat b))

/-- COUNT of a frame's doubleword 2. -/
def frameCount (w : Word) : Nat := field w 32 32
/-- STATE of a frame's doubleword 2. -/
def frameState (w : Word) : Nat := field w 0 2
/-- Doubleword 2 with COUNT and STATE replaced, its reserved bits kept. -/
def putFrame (w : Word) (count st : Nat) : Word :=
  BitVec.ofNat 64 (count % 2 ^ 32 * 2 ^ 32 + field w 2 30 * 4 + st % 4)

/-- Doubleword 2 of a frame updated at the frame's home (R308): the atomic unit, or the bank of an aperture. `rel` is the scope
of the release that SPAWN and RETJ make with it (R92, R102). Bytes that a peer does not admit are dropped (R352). -/
def writeFrame (s : State) (a : Agent) (refs : List ByteRef) (w : Word) (rel : Option Nat) : State :=
  if refs.any (fun r => !r.has) then s else performAtomic s a refs (some (leBytes 8 w.toNat)) rel

/-- The scope at which a frame's update is performed as a release (R102, R366). -/
def frameRel (refs : List ByteRef) : Option Nat := refs.head?.map (fun r => relScope 4 r.loc)

/-- The registers that a mask saves, in ascending order; bit 0 is ignored (Table 11.5). -/
def savedRegs (m : Word) : List Nat := ((List.range 63).map (· + 1)).filter (fun i => m.getLsbD i)

/-- The bytes of a frame with a mask (R308). -/
def frameSize (m : Word) : Nat := 144 + 8 * (savedRegs m).length

/-- The hart that resumes a frame (R309, R310), and the lowest of g1 to g7 whose descriptor SEGLD would refuse; such a
register is left empty. -/
def frameHart (g0 : Seg) (ws : List Word) (cva : Word) : Hart × Option Nat :=
  let w (i : Nat) : Word := ws.getD i 0
  let h0 : Hart := { Hart.zero with pc := w 0, segs := Hart.zero.segs.set 0 g0 }
  let h1 := (savedRegs (w 1)).zipIdx.foldl (fun (h : Hart) p => h.set (BitVec.ofNat 6 p.1) (w (18 + p.2))) h0
  let h2 := h1.set (BitVec.ofNat 6 (field (w 3) 0 6)) cva
  let ks := [1, 2, 3, 4, 5, 6, 7]
  let h3 := ks.foldl (fun (h : Hart) k =>
    { h with segs := h.segs.set! k ((segOfWords (w (2 + 2 * k)) (w (3 + 2 * k))).getD Seg.empty) }) h2
  (h3, ks.find? (fun k => (segOfWords (w (2 + 2 * k)) (w (3 + 2 * k))).isNone))

/-- The trap pending at a continuation's first word where a descriptor of its frame is refused (R308). The manual gives no
TVAL for a frame: it is a free value (log 13). -/
def badFrame (s : State) (t : Nat) (bad : Option Nat) : State :=
  match bad with
  | none => s
  | some k =>
    let (v, s) := drawWord s
    modThr s t (fun x => { x with pendTrap := some (2, segvInfo 4 k 0, v.toNat) })

/-- Whether a copy that the thread itself issued is still in the engine. -/
def ownCopies (s : State) (t : Nat) : Bool :=
  s.pools.any (fun p => p.2.copies.any (fun c => c.thread == t && c.byRet.isNone))

/-- Whether a task word's release and the writes it is about to make must wait: earlier stores on SO and RC pages, and those
of the same locations (R102, R80), or a queued write of them; or the atomic unit that is home to the frame's COUNT, which is not live
(R23; log 36). -/
def frameWaits (s : State) (refs : List ByteRef) : Bool :=
  let locs := (refs.filter (·.has)).map (·.loc)
  !((((refs.drop 16).take 1).filter (·.has)).all (fun r => atomicUnitLive s r.loc)) ||
    mustWait s s.cur s.stores 1 true locs (some 4) || inQueue s (myDie s) locs

/-- The frame a SPAWN writes (R310), but for doubleword 2, by offset in the frame. -/
def frameBytes (s : State) (m : Word) (d : Reg) : List (Nat × Byte) :=
  let at_ (i : Nat) (w : Word) : List (Nat × Byte) := (span (8 * i) 8).zip (leBytes 8 w.toNat)
  let segs := [1, 2, 3, 4, 5, 6, 7].flatMap (fun k =>
    let (a, b) := wordsOfSeg (seg s (BitVec.ofNat 3 k))
    at_ (2 + 2 * k) a ++ at_ (3 + 2 * k) b)
  let regs := (savedRegs m).zipIdx.flatMap (fun p => at_ (18 + p.2) (reg s (BitVec.ofNat 6 p.1)))
  at_ 0 (pcOf s + 8) ++ at_ 1 m ++ at_ 3 (d.setWidth 64) ++ segs ++ regs

/-- A piece of a frame's body as SPAWN performs it. Its release, which comes in the same step, covers the body (R102), so bytes of
host or peer memory do not stay in the die's write queue behind it. -/
def storeFrame (s : State) (a : Agent) (l : List (ByteRef × Byte)) : State :=
  let p := pieceStore s a none .none l
  if p.locs.any (fun q => offPart q.1) then putCovers (landBytes s p.locs) (p.locs.map (·.1)) [] false else performStore s p

/-- SPAWN once nothing stops it: the vector state ends, the frame is written, and the child is entered (R310). -/
def spawnInto (s : State) (refs : List ByteRef) (m : Word) (d : Reg) (cva : Nat) (e : Word) : State :=
  let bytes := frameBytes s m d
  let s := recallUo s (fun _ => true) ((((refs.drop 16).take 8).filter (·.has)).map (·.loc))
  let old := (wordsAt s ((refs.drop 16).take 8)).headD 0
  let s := releaseVec s (me s)
  let l := bytes.map (fun p => (refs.getD p.1 (byteRef s 0 (2 ^ 48)), p.2))
  let s := countRefused s (myCtx s) l
  let s := (vectorPieces s (l.filter (fun p => p.1.has))).foldl (fun s l => storeFrame s s.cur l) s
  let count := if frameState old = 0 then 1 else frameCount old + 1
  let dw2 := (refs.drop 16).take 8
  let s := writeFrame { s with nextId := s.nextId + 1 } s.cur dw2 (putFrame old count 1) (frameRel dw2)
  let s := modMy s (fun x => { x with deque := x.deque ++ [cva] })
  jump (setReg s d (BitVec.ofNat 64 cva)) e

/-- SPAWN (R310). -/
def execSpawn (d a b c : Reg) (s : State) : Out :=
  let m := reg s b
  issue s (taskWordOk s [d, a, b, c] && decide (m.toNat < 2 ^ regCount s)) (fun s =>
    let f := reg s a
    let e := reg s c
    let n := frameSize m
    let g := seg s 1
    let cva := g.base.toNat + f.toNat
    match segCheck g 1 f.toNat n 1 with
    | some x => takeCause s x
    | none =>
      if f.toNat % 16 ≠ 0 then takeCause s (alignCause 1 f)
      else if e.toNat % 8 ≠ 0 then takeCause s (alignCause 3 e)
      else if 32 ≤ (my s).deque.length then advance (setReg s d 0)
      else match judge s (chkOf s 1 1) (span cva n) with
      | some x => takeCause s x
      | none =>
        let refs := refsOf s (myCtx s) cva n
        if ownCopies s (me s) || !settled (my s) || frameWaits s refs then waitHere s
        else if ((refs.drop 16).take 8).any (fun r => r.has && poisoned s r.loc) then takeTrap s 5 0 0
        else spawnInto s refs m d cva e)

/-- What stops a frame access of `n` bytes (R310): ALIGN, or the memory port's causes, a SEGV's TVAL being the frame's CVA. -/
def frameCause (s : State) (cva : Word) (n : Nat) : Option Cause :=
  if cva.toNat % 16 ≠ 0 then some (alignCause 2 cva)
  else match judge s (frameChk (myCtx s) (lostPage s)) (span cva.toNat n) with
    | some (.trap code info tval bad) => some (.trap code info (if code = 2 then cva else tval) bad)
    | c => c

/-! ### The end of a strand -/

/-- Whether TEND must still wait (R147): for copies of the thread and its Retrievers, for a Retriever's response, for its
vector loads and matrix queue, for its array's queue, and for its release. -/
def endWaits (s : State) (t : Nat) : Bool :=
  copiesOf s t || !settled (thr s t) || releaseWaits s 4 ||
    s.rets.any (fun r => r.2.owner == some t && r.2.state == 2 &&
      match r.2.cond with | .awaiting _ => true | _ => false) ||
    ((die s (dieOf t)).sa.owner == some t && !(die s (dieOf t)).sa.queue.isEmpty)

/-- The pending stores of a thread and its Retrievers performed (R102: what is left is on UO pages). -/
def drainAll (s : State) (t : Nat) : State :=
  let rs := (s.rets.filter (fun r => r.2.owner == some t)).map (fun r => Agent.ret r.1)
  (Agent.thread t :: rs).foldl (fun s a => drainStores a s.stores.length s) s

/-- Steps 2 and 3 of TEND, and the strand's end (R147, R311): Retrievers stopped, lanes, gang and array released. -/
def finishStrand (s : State) (t : Nat) : State :=
  let s := releaseVec (drainAll s t) t
  let s := if (die s (dieOf t)).sa.owner = some t then freeSa s (dieOf t) else s
  endStrand s t

/-- The handler in a core's service context ends (R133): a miss that its repair left standing is sent again, and the core
goes on to its next message. -/
def endHandler (s : State) (t : Nat) : State :=
  let k := coreOf t
  let m := (core s k).serving
  let s := modCore (drainAll s t) k (fun c => { c with serving := none })
  let s := dropThr s t
  let s := match m with
    | none => s
    | some m => match kfind s.marks m.granule with
      | some mk => if !anyHeld s m.granule || missOut s m.granule then s else sendMiss s m.granule mk
      | none => s
  owe s [ev .scopeMissMessage k]

/-- TEND (R147): ends a strand, a handler, or a Retriever's program (R248). -/
def execTend (s : State) : Out :=
  issue s (admits s true []) (fun s =>
    match s.cur with
    | .ret n => stopRet s n 0 0
    | .thread t =>
      if hwOf t = 16 then (if releaseWaits s 4 then waitHere s else endHandler s t)
      else if endWaits s t then waitHere s else finishStrand s t)

/-! ### Joining -/

/-- RETJ where the near end of the deque holds the frame (R310): the continuation goes on in this thread. -/
def resumeLocal (s : State) (cva : Word) (ws : List Word) : State :=
  let t := me s
  let r := frameHart (seg s 0) ws cva
  let s := modMy s (fun x => { x with deque := x.deque.dropLast })
  let s := if r.1.pc = pcOf s + 8 then s else trace s 1 0 r.1.pc
  badFrame (retire (modHart s (fun _ => r.1))) t r.2

/-- RETJ (R310): step 1 of TEND, which waits for the copies of the thread and of its Retrievers, comes before it is known whether
the continuation resumes here (R147, R250). COUNT is read at the home, with what any die holds of it for itself. -/
def execRetj (a : Reg) (s : State) : Out :=
  issue s (taskWordOk s [a]) (fun s =>
    let cva := reg s a
    match frameCause s cva 24 with
    | some x => takeCause s x
    | none =>
      let head := refsOf s (myCtx s) cva.toNat 24
      let home := served (recallUo s (fun _ => true) (((head.drop 16).filter (·.has)).map (·.loc))) head
      let ws := wordsAt home head
      let here := (my s).deque.getLast? == some cva.toNat
      let n := if here then frameSize (ws.getD 1 0) else 24
      match frameCause s cva n with
      | some x => takeCause s x
      | none =>
        let refs := refsOf s (myCtx s) cva.toNat n
        let dw2 := ws.getD 2 0
        if refs.any (fun r => r.has && poisoned s r.loc) then takeTrap s 5 0 0
        else if frameCount dw2 = 0 then takeIll s
        else if copiesOf s (me s) || !settled (my s) || frameWaits s refs || (!here && endWaits s (me s)) then waitHere s
        else
          let s := touchLoad (served home refs) s.cur refs .none
          let all := wordsAt s refs
          let s := releaseVec s (me s)
          let count := frameCount dw2 - 1
          let at2 := (refs.drop 16).take 8
          let s := writeFrame s s.cur at2 (putFrame dw2 count (if count = 0 then 0 else frameState dw2)) (frameRel at2)
          if here then resumeLocal s cva all else finishStrand s (me s))

/-- JOIN and JOINQ (R310): the frame's COUNT, read after the agent's earlier stores on SO pages where the frame is on one (R80), and
acquired where it is zero. -/
def joinPath (s : State) (a : Reg) (fin : State → Nat → State) : State :=
  let cva := reg s a
  match frameCause s cva 24 with
  | some x => takeCause s x
  | none =>
    let refs := ((refsOf s (myCtx s) cva.toNat 24).drop 16)
    if refs.any (fun r => mustWait s s.cur s.stores r.kind false [] none) then waitHere s
    else if refs.any (fun r => r.has && poisoned s r.loc) then takeTrap s 5 0 0
    else
      let s := served s refs
      let n := frameCount ((wordsAt s refs).headD 0)
      match (if n = 0 then missOf s s.cur (acqLocs s refs) else none) with
      | some (g, m) => holdAcquire s g m
      | none =>
        let s := noteReads (touchLoad s s.cur refs .none) s.cur (underRefs s refs)
        fin (if n = 0 then joinOps s s.cur (coversAt s (acqLocs s refs)) else s) n

/-- JOIN (R310). -/
def execJoin (d a : Reg) (s : State) : Out :=
  issue s (taskWordOk s [d, a]) (fun s => joinPath s a (fun s n => if n = 0 then advance (setReg s d 0) else waitHere s))

/-- JOINQ (R310). -/
def execJoinq (d a : Reg) (s : State) : Out :=
  issue s (taskWordOk s [d, a]) (fun s => joinPath s a (fun s n => advance (setReg s d (BitVec.ofNat 64 n))))

end Sys2Proof.Machine
end

