-- ==== Sys2Proof/Machine/Dispatcher.lean ====
section
/-! DEFINITION. The dispatcher of each pool: drawing tiles (R304), choosing a task and a hardware context (R305), starting a
task after its footprint fetch (R265, R306), stealing (R309), and the gang watchdog's expiry (R315). -/

namespace Sys2Proof.Machine

/-! ### Free hardware contexts -/

/-- The hardware contexts of a pool that are bound to a context and hold no thread, as thread numbers, by core and hardware
context (R302, R304). -/
def freeHw (s : State) (p c : Nat) : List Nat :=
  (span (p * 16) 16).flatMap (fun k => (List.range 16).filterMap (fun h =>
    match bindingEntry s k h with
    | some e => if e.2.ctx == c && !hasThr s (k * 17 + h) then some (k * 17 + h) else none
    | none => none))

/-- Whether a context's tasks may start: neither suspended nor frozen (R304). -/
def ctxStarts (s : State) (c : Nat) : Bool := !frozenCtx s c && !suspendedCtx s c

/-- A context's tasks in a pool's ready list, oldest first. -/
def readyOf (s : State) (p c : Nat) : List ReadyTask := (pool s p).ready.filter (fun r => r.ctx == c)

/-! ### Drawing -/

/-- Of some gangs, the one that started first. -/
def oldestGang : List (Nat × Gang) → Option (Nat × Gang)
  | [] => none
  | x :: r => match oldestGang r with
    | none => some x
    | some y => if x.2.seq ≤ y.2.seq then some x else some y

/-- The gang that a context's next tile comes from (R301). -/
def drawable (s : State) (c : Nat) : Option (Nat × Gang) :=
  match ctx? s c with
  | some x => oldestGang (x.gangs.filter (fun g => decide (g.2.next < recTiles g.2.record)))
  | none => none

/-- TILE_DRAW (R304): the next tile of the oldest gang enters the ready list of a pool that the map shows as live (R23), while it
could start soon. -/
def execTileDraw (s : State) : Out :=
  let p := s.msg.a
  let c := s.msg.b
  let n := (readyOf s p c).length
  if !ctxStarts s c || !unitLive s (16 + p) || 16 ≤ n || (freeHw s p c).length ≤ n then .next s else
  match drawable s c with
  | none => .next s
  | some (g, x) =>
    let t : ReadyTask := { ctx := c, gid := g, tile := x.next, bypass := 0 }
    let s := modPool s p (fun q => { q with ready := q.ready ++ [t] })
    let s := modGang s c g (fun y => { y with next := y.next + 1, live := y.live + 1 })
    .next (owe s [ev .dispatch p c, ev .tileDraw p c])

/-! ### Choosing -/

/-- The kernel of a ready task. -/
def readyKernel (s : State) (r : ReadyTask) : Option Kernel :=
  (ctx? s r.ctx).bind (fun x => recKernel x (gang s r.ctx r.gid).record)

/-- A task's starting descriptor of a segment register other than g1 (Table 5.1). -/
def startSeg (s : State) (c : Nat) (r : List Word) (n : Nat) : Seg :=
  if n = 0 then (match ctx? s c with | some x => x.heap | none => Seg.empty)
  else if n = 2 then (recSeg r).getD Seg.empty else Seg.empty

/-- Whether a ready task's probe hits in the L2 of the pool's die (R304). -/
def probeHits (s : State) (p : Nat) (r : ReadyTask) : Bool :=
  match (readyKernel s r).bind (fun k => k.foot.head?) with
  | some (n, off, _) =>
    (n == 0 || n == 2) &&
      (match xlate s r.ctx ((startSeg s r.ctx (gang s r.ctx r.gid).record n).base.toNat + off) with
       | .page pa _ _ _ _ => l2Hit s (p / 24) pa
       | _ => false)
  | none => false

/-- The place in a context's list of the task that the dispatcher chooses (R305). -/
def chooseTask (s : State) (p : Nat) (l : List ReadyTask) : Option Nat :=
  match l with
  | [] => none
  | o :: _ =>
    if o.bypass = 8 then some 0
    else match l.findIdx? (probeHits s p) with
      | some i => some i
      | none => some 0

/-- The slot-table entry that gives a context its share of a core's scratch (Table 11.4). -/
def shareEntry (s : State) (k c : Nat) : Option SlotEntry :=
  ((entries s (poolOfCore k)).find? (fun e => e.2.valid && e.2.ctx == c && e.2.dw0.getLsbD (32 + k % 16))).map (·.2)

/-- The scratch runs that tasks of a context hold on a core. -/
def runsOn (s : State) (k c : Nat) : List (Nat × Nat) :=
  ((kvals s.tasks).filter (fun t => t.ctx == c && t.core == k && t.runSize != 0)).map (fun t => (t.runOff, t.runSize))

/-- The lowest free run of `n` bytes, at a multiple of 128, in a context's share of a core (R305, R306). -/
def findRun (s : State) (k c n : Nat) : Option Nat :=
  let size := match shareEntry s k c with | some e => e.scratch | none => 0
  let runs := runsOn s k c
  let at_ := 0 :: runs.map (fun r => (r.1 + r.2 + 127) / 128 * 128)
  let ok := at_.filter (fun o => decide (o + n ≤ size) && runs.all (fun r => decide (o + n ≤ r.1 ∨ r.1 + r.2 ≤ o)))
  ok.foldl (fun b o => match b with | none => some o | some m => some (min m o)) none

/-- Whether the loader of a core, whose copy port fetches footprints (R265), is live, so that it receives one (R23). -/
def loaderLive (s : State) (k : Nat) : Bool := unitLive s (2048 + 2 * k)

/-- Whether a core qualifies for a task of a context (R305), which has a footprint or has none: of R305's conditions, and a live loader
for a footprint, since no other receives the fetch (R23; log 36). -/
def qualifies (s : State) (k c scratch lanes : Nat) (foot : Bool) : Bool :=
  (!foot || loaderLive s k) && (scratch == 0 || (findRun s k c scratch).isSome) &&
    (lanes == 0 || decide (2 ^ lanes * 144 ≤ spillRoom s (poolOfCore k) c))

/-- The physical address of a byte of a core's scratch (Table 10.1). -/
def sramPa (k off : Nat) : Nat := 3 * 2 ^ 46 + poolOfCore k * 2 ^ 39 + 2 ^ 22 + k % 16 * 2 ^ 18 + off

/-- The address at which a context sees its share of a core (R368). -/
def shareCva (s : State) (k c : Nat) : Nat :=
  (match ctx? s c with | some x => x.aper | none => 0) + 192 * 2 ^ 20 + 2 ^ 18 * k

/-- Tile coordinates of a tile number (R301): x varies fastest, then y. -/
def tileOf (r : List Word) (n : Nat) : Nat × Nat × Nat :=
  let (x, y, _) := recDims r
  (n % x, n / x % y, n / x / y)

/-- The thread of a task as it starts (R306, Table 5.1). -/
def startThread (s : State) (c id k runOff : Nat) (r : List Word) (tile : Nat × Nat × Nat) (entry time : Nat) : Thread :=
  let n := recScratch r
  let g1 : Seg := if n = 0 then Seg.empty else
    { base := BitVec.ofNat 48 (shareCva s k c + runOff), limit := BitVec.ofNat 48 n, r := true, w := true, x := false, v := false }
  let regs := [(1, tile.1), (2, tile.2.1), (3, tile.2.2)].foldl
    (fun (h : Hart) p => h.set (BitVec.ofNat 6 p.1) (BitVec.ofNat 64 p.2)) Hart.zero
  let h := regs.set 4 (recW r 4)
  { Thread.start with
    hart := { h with pc := BitVec.ofNat 64 entry
                     segs := ((h.segs.set! 0 (startSeg s c r 0)).set! 1 g1).set! 2 (startSeg s c r 2) }
    ctx := c, task := id, cond := .fetching, started := time }

/-- The chosen task takes a free hardware context, its run is allocated and holds zeros, and its footprint fetch is owed
(R306). -/
def placeTask (s : State) (t : Nat) (r : ReadyTask) (k : Kernel) : State :=
  let c := r.ctx
  let rec_ := (gang s c r.gid).record
  let n := recScratch rec_
  let core := coreOf t
  let off := if n = 0 then 0 else (findRun s core c n).getD 0
  let base := match shareEntry s core c with | some e => field e.dw3 8 7 * 4096 | none => 0
  let tile := tileOf rec_ r.tile
  let id := s.nextId
  let x : Task := { ctx := c, gid := r.gid, x := tile.1, y := tile.2.1, z := tile.2.2, kernel := k.entry, core := core
                    runOff := off, runSize := n, runPa := sramPa core (base + off), strands := 1, started := s.time
                    cvaCore := core, share := match shareEntry s core c with | some e => e.scratch | none => 0 }
  let s := setThr s t (startThread s c id core off rec_ tile k.entry s.time)
  owe { s with tasks := kset s.tasks id x, nextId := id + 1
               mem := if n = 0 then s.mem else s.mem.zero x.runPa n } [ev .taskStart t]

/-- Whether some thread of a context has a continuation that may be stolen. -/
def stealable (s : State) (c : Nat) : Bool := s.threads.any (fun q => q.2.ctx == c && !q.2.deque.isEmpty)

/-- The ready list after the task at place `i` of a context's tasks is taken: every older one has been bypassed once more
(R305). -/
def takeReady (c : Nat) : Nat → List ReadyTask → List ReadyTask
  | _, [] => []
  | i, r :: rest =>
    if r.ctx ≠ c then r :: takeReady c i rest
    else match i with
      | 0 => rest
      | n + 1 => { r with bypass := r.bypass + 1 } :: takeReady c n rest

/-- DISPATCH (R305): a task of the context's ready list takes the first free hardware context that qualifies; with an empty
list, a free one tries to steal. A pool that the map does not show as live starts none (R23). -/
def execDispatch (s : State) : Out :=
  let p := s.msg.a
  let c := s.msg.b
  let l := readyOf s p c
  let free := freeHw s p c
  if !ctxStarts s c || !unitLive s (16 + p) then .next s else
  match chooseTask s p l with
  | none =>
    match free with
    | t :: _ => .next (if stealable s c then owe s [ev .steal t] else s)
    | [] => .next s
  | some i =>
    match l[i]? with
    | none => .next s
    | some r => match readyKernel s r with
      | none => .next s
      | some k =>
        let n := recScratch (gang s c r.gid).record
        match free.find? (fun t => qualifies s (coreOf t) c n k.lanes !k.foot.isEmpty) with
        | none => .next s
        | some t =>
          let s := placeTask s t r k
          let s := modPool s p (fun q => { q with ready := takeReady c i q.ready })
          .next (owe s [ev .dispatch p c, ev .tileDraw p c])

/-! ### Starting -/

/-- What the fetch of a footprint region meets (R265): all of its bytes with where they go, a page to wait for, or the trap that is
pending at the task's first word, as code, INFO and TVAL. -/
inductive Foot where
  | ok (l : List (ByteRef × ByteRef))
  | delay (page : Nat)
  | bad (code info tval : Nat)
  deriving DecidableEq, Repr

/-- A byte of a region's source, judged as a copy's side is (R255), with its FKIND. -/
def footByte (s : State) (c : Nat) (v : Bool) (cva : Nat) : Except (Nat × Nat) ByteRef :=
  match xlate s c cva with
  | .none _ => .error (2, cva)
  | .integ => .error (5, cva)
  | .absent => .error (0, cva)
  | x =>
    let b := byteRef s c cva
    if inRegions b.pa && !v then .error (1, cva)
    else if denied s 0 x then .error (3, cva)
    else if (b.at_.under s).any (poisoned s) then .error (7, cva) else .ok b

/-- The fetch of one region into a task's run at offset `f` (R265, R306). -/
def footRegion (s : State) (k : Task) (r : List Word) (reg : Nat × Nat × Nat) (f : Nat) : Foot :=
  let (n, off, bytes) := reg
  if bytes = 0 then .ok []
  else if recScratch r < f + bytes then .bad 2 (segvInfo 0 1 1) f
  else
    let g := if n = 1 then
        { base := BitVec.ofNat 48 (shareCva s k.core k.ctx + k.runOff), limit := BitVec.ofNat 48 k.runSize, r := true
          w := true, x := false, v := false : Seg }
      else startSeg s k.ctx r n
    match segCheck g n off bytes 0 with
    | some (.trap code info tval _) => .bad code info tval.toNat
    | some (.park _) => .ok []
    | none =>
      let l := (span (g.base.toNat + off) bytes).map (footByte s k.ctx g.v)
      match l.findSome? (fun x => match x with | .error (0, a) => some a | _ => none) with
      | some a => .delay (a / 4096)
      | none => match l.findSome? (fun x => match x with | .error e => some e | .ok _ => none) with
        | some (1, _) => .bad 2 (segvInfo 1 n 0) off
        | some (2, a) => .bad 2 (segvInfo 2 n 0) a
        | some (3, a) => .bad 2 (segvInfo 3 n 0) a
        | some _ => .bad 5 0 0
        | none =>
          let dst (i : Nat) : ByteRef :=
            { cva := shareCva s k.core k.ctx + k.runOff + f + i, pa := k.runPa + f + i, kind := 1
              at_ := .byte (k.runPa + f + i) }
          .ok ((l.filterMap (fun x => match x with | .ok b => some b | .error _ => none)).zipIdx.map (fun p => (dst p.2, p.1)))

/-- The regions of a kernel in order, the first at offset `f` (R265). -/
def footAll (s : State) (k : Task) (r : List Word) : List (Nat × Nat × Nat) → Nat → Foot
  | [], _ => .ok []
  | reg :: rest, f =>
    match footRegion s k r reg f with
    | .ok l => match footAll s k r rest (f + (reg.2.2 + 127) / 128 * 128) with
      | .ok m => .ok (l ++ m)
      | x => x
    | x => x

/-- The regions before the first that fails are fetched all the same: what lies before it in the run is written. -/
def footBefore (s : State) (k : Task) (r : List Word) : List (Nat × Nat × Nat) → Nat → List (ByteRef × ByteRef)
  | [], _ => []
  | reg :: rest, f =>
    match footRegion s k r reg f with
    | .ok l => l ++ footBefore s k r rest (f + (reg.2.2 + 127) / 128 * 128)
    | _ => []

/-- The fetched bytes written into the run, as the loader's copy port does it. -/
def fetchFoot (s : State) (t : Nat) (l : List (ByteRef × ByteRef)) : State :=
  let c : Copy := { id := 0, ctx := (thr s t).ctx, thread := t, byRet := none, handle := { n := 0, barrier := false }, op := 0
                    dsegv := Seg.empty, asegv := Seg.empty, dseg := 0, aseg := 0, doff := 0, aoff := 0, ops := [], len := 0
                    next := 0, live := [], wrote := [], bad := [], closing := false, geom := none }
  writeStream s (poolOf t) c l

/-- The thread stands at its first word, with a trap pending where the fetch failed; the core's ring records the start. -/
def beginTask (s : State) (t : Nat) (pend : Option (Nat × Nat × Nat)) : State :=
  let x := thr s t
  let s := setThr s t { x with cond := .ready, pendTrap := pend }
  pushTrace s (coreOf t) { time := s.time, kind := 9, code := 0, ctx := x.ctx, hw := hwOf t, pc := x.hart.pc
                           data := tileWord (task s x.task) }

/-- A task that has not started leaves its hardware context and its run: its context has frozen (R132, R318), or it starts elsewhere. -/
def dropStart (s : State) (t : Nat) : State :=
  let n := (thr s t).task
  let k := task s n
  dropThr { s with tasks := kdel s.tasks n, mem := if k.runSize = 0 then s.mem else s.mem.zero k.runPa k.runSize } t

/-- A chosen task whose footprint cannot be fetched on its core, the loader being live no more, goes back to the head of the pool's
ready list, and the dispatcher chooses again (R23; log 36). -/
def returnTask (s : State) (t : Nat) : State :=
  let c := (thr s t).ctx
  let k := task s (thr s t).task
  let (x, y, _) := recDims (gang s c k.gid).record
  let r : ReadyTask := { ctx := c, gid := k.gid, tile := k.x + x * (k.y + y * k.z), bypass := 0 }
  owe (modPool (dropStart s t) (poolOf t) (fun q => { q with ready := r :: q.ready })) [ev .dispatch (poolOf t) c]

/-- TASK_START (R306): the footprint regions are fetched and the thread starts. A page that is not present delays it, and so does
a suspension; of a frozen context no task starts (R318). -/
def execTaskStart (s : State) : Out :=
  let t := s.msg.a
  let x := thr s t
  if !hasThr s t || x.cond ≠ .fetching then .next s
  else if frozenCtx s x.ctx then .next (dropStart s t)
  else if suspendedCtx s x.ctx then .next (owe s [ev .taskStart t])
  else
  let k := task s x.task
  let r := (gang s x.ctx k.gid).record
  let foot := match (ctx? s x.ctx).bind (fun y => recKernel y r) with | some y => y.foot | none => []
  if !foot.isEmpty && !loaderLive s (coreOf t) then .next (returnTask s t) else
  match footAll s k r foot 0 with
  | .ok l => .next (beginTask (fetchFoot s t l) t none)
  | .delay a => .next (owe (fileReport s x.ctx a) [ev .taskStart t])
  | .bad code info tval => .next (beginTask (fetchFoot s t (footBefore s k r foot 0)) t (some (code, info, tval)))

/-! ### Stealing -/

/-- The group of a victim for a thief (R309): the other cores of its pool, the other pools of its die, the other dies. -/
def victimGroup (t v : Nat) : Nat := if poolOf t = poolOf v then 0 else if dieOf t = dieOf v then 1 else 2

/-- The key under which a thief's hardware context keeps the victim it tried last in a group (R309). -/
def triedKey (t v : Nat) : Nat := 4 * hwOf t + victimGroup t v

/-- The order in which a thief tries a victim's deque (R309): by group, and in each starting after the victim that its hardware
context tried last there; less is sooner. -/
def victimRank (s : State) (t v : Nat) : Nat :=
  let after := match kfind (core s (coreOf t)).tried (triedKey t v) with
    | some u => (v + 2 ^ 15 - u - 1) % 2 ^ 15
    | none => v
  victimGroup t v * 2 ^ 16 + after

/-- Of some threads, the one of the least rank. -/
def leastRank (rank : Nat → Nat) : List Nat → Option Nat
  | [] => none
  | t :: r => match leastRank rank r with
    | none => some t
    | some u => if rank t ≤ rank u then some t else some u

/-- The thread that a free hardware context steals from (R309): never from its own core, nor from a thread that is being
unbound. -/
def victimOf (s : State) (t : Nat) (c : Nat) : Option Nat :=
  leastRank (victimRank s t)
    ((s.threads.filter (fun q => q.2.ctx == c && !q.2.deque.isEmpty && coreOf q.1 != coreOf t && boundHere s q.1)).map (·.1))

/-- A continuation taken from the far end of a deque starts a strand on the thief (R309). -/
def stealFrame (s : State) (t v : Nat) (refs : List ByteRef) (cva : Nat) : State :=
  let x := thr s v
  let s := served (recallUo s (fun _ => true) (((refs.drop 16).take 8).map (·.loc))) refs
  let ws := wordsAt { s with cur := .thread t } refs
  let heap := match ctx? s x.ctx with | some y => y.heap | none => Seg.empty
  let r := frameHart heap ws (BitVec.ofNat 64 cva)
  let s := setThr s v { x with deque := x.deque.drop 1 }
  let dw2 := ws.getD 2 0
  let s := setThr s t { Thread.start with hart := r.1, ctx := x.ctx, task := x.task, started := s.time }
  let s := touchLoad s (.thread t) refs .none
  let s := writeFrame s (.thread t) ((refs.drop 16).take 8) (putFrame dw2 (frameCount dw2) 2) none
  let k := task s x.task
  badFrame { s with tasks := kset s.tasks x.task { k with strands := k.strands + 1 } } t r.2

/-- What a hardware context's attempt aims at: the context it would steal for, and the victim (R309). It must be free, bound to a
context whose ready list in its pool is empty and that may start tasks. -/
def stealAim (s : State) (t : Nat) : Option (Nat × Nat) :=
  match bindingEntry s (coreOf t) (hwOf t) with
  | none => none
  | some e =>
    let c := e.2.ctx
    if hasThr s t || !ctxStarts s c || !(readyOf s (poolOf t) c).isEmpty then none
    else (victimOf s t c).map (fun v => (c, v))

/-- The turn of a core at a victim's deque: the cores after the one served last there come first (R20). -/
def thiefRank (s : State) (v k : Nat) : Nat :=
  match (thr s v).thief with
  | some j => (k + 2 ^ 11 - j - 1) % 2 ^ 11
  | none => k

/-- Whether an attempt on a deque gives way to one of another core that is outstanding there, since the attempts of several cores
are served round-robin (R20, R309). -/
def givesWay (s : State) (t v : Nat) : Bool :=
  s.owed.any (fun p => p.1 == .steal && (match stealAim s p.2.a with | some x => x.2 == v | none => false) &&
    decide (thiefRank s v (coreOf p.2.a) < thiefRank s v (coreOf t)))

/-- An attempt is made at a victim's deque: the thief's hardware context goes on after it, and the deque's next turn is that of
another core. -/
def noteAttempt (s : State) (t v : Nat) : State :=
  let s := modCore s (coreOf t) (fun c => { c with tried := kset c.tried (triedKey t v) v })
  modThr s v (fun x => { x with thief := some (coreOf t) })

/-- STEAL (R309): a free hardware context bound to a context with nothing in its pool's ready list takes the oldest
continuation of the first deque that has one. A frame that cannot be read stays where it is. -/
def execSteal (s : State) : Out :=
  let t := s.msg.a
  match stealAim s t with
  | none => .next s
  | some (c, v) =>
    if givesWay s t v then .next (owe s [ev .steal t]) else
    let cva := (thr s v).deque.headD 0
    let s := noteAttempt s t v
    match judge s (frameChk c none) (span cva 24) with
    | some (.park a) => .next (owe (fileReport s c (a / 4096)) [ev .steal t])
    | some _ => .next s
    | none =>
      let mask := (wordsAt { s with cur := .thread t } (refsOf s c cva 24)).getD 1 0
      match judge s (frameChk c none) (span cva (frameSize mask)) with
      | some (.park a) => .next (owe (fileReport s c (a / 4096)) [ev .steal t])
      | some _ => .next s
      | none =>
        let refs := refsOf s c cva (frameSize mask)
        if refs.any (fun r => r.has && poisoned s r.loc) then .next s
        else .next (stealFrame s t v refs cva)

/-! ### The watchdog -/

/-- WDOG (R315, Table 5.9): a gang whose count has reached WDT × 1,024, with WDT not 0, freezes its context. No thread caused
it: THREAD is all ones and EPC 0. -/
def execWdog (s : State) : Out :=
  let c := s.msg.a
  let g := s.msg.b
  match (ctx? s c).bind (fun x => kfind x.gangs g) with
  | none => .next s
  | some x =>
    if x.wdt = 0 || x.wdCount < x.wdt * 1024 || frozenCtx s c then .next s
    else .next (freeze s c { time := s.time, mapver := s.keeper.version, cause := causeWord 7 g, tval := BitVec.ofNat 64 x.wdt
                             epc := 0, thread := 2 ^ 32 - 1, nfatal := 1 })

end Sys2Proof.Machine
end

