-- ==== Sys2Proof/Machine/PageTable.lean ====
section
/-! DEFINITION. What the pager writes: page-table entries (R267, Table 10.2), ranges of pages mapped and unmapped (R268), and
the frames it gives out (log 3). -/

namespace Sys2Proof.Machine

/-- A page-table entry (Table 10.2): a last-level entry, or a pointer to the next table. -/
def ptEntry (pa : Nat) (kind : BitVec 2) (code w r present : Bool) : Word :=
  let b (x : Bool) (n : Nat) : Nat := if x then 2 ^ n else 0
  BitVec.ofNat 64 (1 + b present 1 + pa + kind.toNat * 2 ^ 62 + b code 61 + b w 60 + b r 59)

/-- Whether no granule of a frame is homed on a channel that is not there (R346). -/
def frameLive (s : State) (f : Nat) : Bool :=
  (List.range 16).all (fun i => !channelRetired s (channelOf (f * 4096 + 256 * i)))

/-- Where the rows lent to a region end that take in a frame (R285): a row of every channel is 128 frames. -/
def lentEnd (s : State) (f : Nat) : Option Nat :=
  ((kvals s.regions).find? (fun q => decide (q.row 0 ≤ f / 128 ∧ f / 128 < q.row 0 + q.rowsTaken))).map (fun q =>
    q.row 0 + q.rowsTaken)

/-- The place from the top of HBM of the next table, from `n` on, looking at `fuel` frames at most. -/
def findTable (s : State) : Nat → Nat → Nat
  | 0, n => n
  | k + 1, n =>
    let f := 2 ^ 27 - 1 - n
    if frameLive s f && (lentEnd s f).isNone && (kfind s.keeper.frames f).isNone then n else findTable s k (n + 1)

/-- A new table of zeros: the highest frame of HBM that is live, not lent and not yet given (log 3). -/
def newTable (s : State) : Nat × State :=
  let n := findTable s 4096 s.keeper.table
  (2 ^ 27 - 1 - n, modKeeper s (fun k => { k with table := n + 1 }))

/-- The lowest frame from `f` on that may be given out: live, not lent, and no context's (R285, R346); `fuel` bounds the search. -/
def findFrame (s : State) : Nat → Nat → Option Nat
  | 0, _ => none
  | n + 1, f =>
    if 2 ^ 27 ≤ f + s.keeper.table then none
    else match lentEnd s f with
      | some r => findFrame s n (r * 128)
      | none => if (kfind s.keeper.frames f).isNone && frameLive s f then some f else findFrame s n (f + 1)

/-- A new frame of ordinary memory for a context, zeroed, which clears the poison marks in it (R282): the lowest free one (log 3). -/
def newFrame (s : State) (c : Nat) : Option (Nat × State) :=
  (findFrame s (64 * (s.keeper.frames.length + 64)) 0).map (fun f =>
    (f, { modKeeper s (fun k => { k with frames := kset k.frames f c }) with
      mem := s.mem.zero (f * 4096) 4096, poison := s.poison.filter (fun g => g.1 / 16 != f) }))

/-- Every cached line of a frame dropped: its scrubbing is a write at its homes (R272). -/
def dropFrameLines (s : State) (f : Nat) : State :=
  let keep (l : List Way) : List Way := l.filter (fun w => w.line / 32 != f)
  { llcDrop s (fun n => n / 32 == f) with
    local1 := s.local1.map (fun p => (p.1, keep p.2))
    dies := s.dies.map (fun p => (p.1, { p.2 with l2 := p.2.l2.map (fun q => (q.1, keep q.2)) })) }

/-- A frame scrubbed and given back. -/
def dropFrame (s : State) (f : Nat) : State :=
  let s := dropFrameLines s f
  let gone := (s.marks.filter (fun m => m.1 / 16 == f)).map (·.1)
  let s := gone.foldl (fun s g => putMark s g none) s
  { modKeeper s (fun k => { k with frames := kdel k.frames f }) with
    mem := s.mem.zero (f * 4096) 4096, poison := s.poison.filter (fun g => g.1 / 16 != f) }

/-- The key of the last-level entry of an address, through the levels still to go; missing tables are made. -/
def leafSlot (cva : Nat) : List Nat → Nat → State → Nat × State
  | [], table, s => (table * 4096 + cva / 2 ^ 12 % 512 * 8, s)
  | sh :: rest, table, s =>
    let slot := table * 4096 + cva / 2 ^ sh % 512 * 8
    let e := kget s.pt slot 0
    if e.getLsbD 0 then leafSlot cva rest (field e 12 36) s
    else
      let (f, s) := newTable s
      leafSlot cva rest f { s with pt := kset s.pt slot (ptEntry (f * 4096) 0 false false false true) }

/-- The last-level entry of an address written; the entry zero removes it. -/
def setLeaf (s : State) (root cva : Nat) (e : Word) : State :=
  let (slot, s) := leafSlot cva [39, 30, 21] root s
  { s with pt := if e = 0 then kdel s.pt slot else kset s.pt slot e }

/-- The last-level entry of an address as it stands, zero where there is none. -/
def leafOf (s : State) (cva : Nat) : List Nat → Nat → Word
  | [], table => kget s.pt (table * 4096 + cva / 2 ^ 12 % 512 * 8) 0
  | sh :: rest, table =>
    let e := kget s.pt (table * 4096 + cva / 2 ^ sh % 512 * 8) 0
    if e.getLsbD 0 then leafOf s cva rest (field e 12 36) else 0

/-- The translation root of a context. -/
def rootOf (s : State) (c : Nat) : Nat := match ctx? s c with | some x => x.root | none => 0

/-- The entry of a context's page. -/
def pageEntry (s : State) (c page : Nat) : Word := leafOf s (page * 4096) [39, 30, 21] (rootOf s c)

/-- `n` pages of a context from an address mapped to consecutive frames. -/
def mapPages (s : State) (c cva pa n : Nat) (kind : BitVec 2) (w r : Bool) : State :=
  (List.range n).foldl (fun s i =>
    setLeaf s (rootOf s c) (cva + 4096 * i) (ptEntry (pa + 4096 * i) kind false w r true)) s

/-- `n` pages of a context from an address mapped without a frame: each is brought in when it is touched (R269). -/
def mapAbsent (s : State) (c cva n : Nat) (kind : BitVec 2) (code w r : Bool) : State :=
  (List.range n).foldl (fun s i => setLeaf s (rootOf s c) (cva + 4096 * i) (ptEntry 0 kind code w r false)) s

/-- `n` pages of a context from an address unmapped (R268). -/
def unmapPages (s : State) (c cva n : Nat) : State :=
  (List.range n).foldl (fun s i => setLeaf s (rootOf s c) (cva + 4096 * i) 0) s

end Sys2Proof.Machine
end

