-- ==== Sys2Proof/Machine/SlotTables.lean ====
section
/-! DEFINITION. Slot tables as the management core writes them (R302, R303), unbinding and resuming (R134, R135, R190, R191,
R240, R250, R258, R264, R335), and LSCFG and VICT (R275, R276). -/

namespace Sys2Proof.Machine

/-! ### What a table must keep (R302) -/

/-- Whether two ranges, each a first unit and a length, meet. -/
def meets (x y : Nat × Nat) : Bool := x.2 != 0 && y.2 != 0 && decide (x.1 < y.1 + y.2 ∧ y.1 < x.1 + x.2)

/-- Whether no two elements of a list stand in a relation. -/
def noPair {α : Type} (f : α → α → Bool) : List α → Bool
  | [] => true
  | x :: r => r.all (fun y => !f x y) && noPair f r

/-- SPILLBASE and SPILLSZ. -/
def SlotEntry.spill (e : SlotEntry) : Nat × Nat := (field e.dw1 20 9, field e.dw1 10 10)
/-- WINBASE and WINSZ. -/
def SlotEntry.win (e : SlotEntry) : Nat × Nat := (field e.dw2 32 9, field e.dw2 22 10)
/-- SBBASE and SBCOUNT. -/
def SlotEntry.sb (e : SlotEntry) : Nat × Nat := (field e.dw2 7 6, field e.dw2 0 7)
/-- SCRBASE and SCRSZ. -/
def SlotEntry.share (e : SlotEntry) : Nat × Nat := (field e.dw3 8 7, field e.dw3 0 7)
/-- CORES. -/
def SlotEntry.cores (e : SlotEntry) : Nat := field e.dw0 32 16

/-- 4 KiB units of scratch that a core's LSCFG leaves (R275). -/
def scratchUnits (s : State) (k : Nat) : Nat := 64 - 8 * min 8 (field (core s k).lscfg 0 4)

/-- An entry as it is held: a write to a reserved field is ignored, and the field reads as zero (R6, Table 11.4). -/
def SlotEntry.written (e : SlotEntry) : SlotEntry :=
  { e with dw0 := e.dw0 &&& 0xFFFFFFFFFFFF07FF#64, dw1 := e.dw1 &&& 0xFFFFFFFF1FFFFC00#64
           dw2 := e.dw2 &&& 0x000001FFFFC01FFF#64, dw3 := e.dw3 &&& 0x0000000000007F7F#64 }

/-- Whether a valid entry of pool `p` is within its bounds (Table 11.4, R302). Its quota is at most what the operator allows the
tenant in a pool (R351). -/
def entryFits (s : State) (p : Nat) (e : SlotEntry) : Bool :=
  decide (e.quota ≤ min 1024 (tenant s (tenantOf s e.ctx)).quota) &&
    decide (e.spill.1 + e.spill.2 ≤ 512 ∧ e.win.1 + e.win.2 ≤ 512 ∧ e.sb.1 + e.sb.2 ≤ 64) &&
    (List.range 16).all (fun k => !e.cores.testBit k || e.share.2 == 0 ||
      decide (e.share.1 + e.share.2 ≤ scratchUnits s (p * 16 + k))) &&
    (match ctx? s e.ctx with | some x => x.tenant == field e.dw0 56 4 | none => false)

/-- Whether the valid entries of a pool keep their ranges disjoint (R302). -/
def tableFits (s : State) (p : Nat) (slots : KMap SlotEntry) : Bool :=
  let l := (kvals slots).filter (·.valid)
  l.all (entryFits s p) && noPair meets (l.flatMap (fun e => [e.spill, e.win])) && noPair meets (l.map (·.sb)) &&
    noPair (fun (x y : SlotEntry) => x.cores &&& y.cores != 0 && meets x.share y.share) l

/-! ### Windows and shares of a context -/

/-- The physical address of a byte of a pool's LSP (Table 10.1). -/
def lspPa (p off : Nat) : Nat := 3 * 2 ^ 46 + p * 2 ^ 39 + off

/-- The ranges of a context's map that a pool gives it (R277, R368): address, physical address, pages. -/
def apertures (s : State) (p c : Nat) : List (Nat × Nat × Nat) :=
  let a := match ctx? s c with | some x => x.aper | none => 0
  let win := match entryOf s p c with
    | some e => [(a + 2 ^ 21 * p, lspPa p (e.win.1 * 4096), e.win.2)]
    | none => []
  win ++ (span (p * 16) 16).filterMap (fun k => match shareEntry s k c with
    | some e => some (shareCva s k c, sramPa k (e.share.1 * 4096), e.share.2)
    | none => none)

/-- The LSP window of a context in a pool. -/
def winOf (s : State) (p c : Nat) : Nat × Nat := match entryOf s p c with | some e => e.win | none => (0, 0)

/-- The barriers of a context's window in a pool, by their numbers in the window. -/
def windowState (s : State) (p c : Nat) : KMap Barrier :=
  let w := sbWindow s p c
  (List.range w.2).map (fun n => (n, barrier s p (w.1 + n)))

/-- A barrier window bound to a context: not VALID with every field zero, or as it was saved when the context was unbound
from this pool, or from another (R264, R302). -/
def bindWindow (s : State) (p c : Nat) : State :=
  let w := sbWindow s p c
  let s := (List.range w.2).foldl (fun s n => setBarrier s p (w.1 + n) Barrier.zero) s
  match ctx? s c with
  | none => s
  | some x =>
    match (match kfind x.savedBarriers p with | some l => some (p, l) | none => x.savedBarriers.head?) with
    | none => s
    | some (q, l) =>
      let s := l.foldl (fun s b => if b.1 < w.2 then setBarrier s p (w.1 + b.1) b.2 else s) s
      let mv (y : Thread) : Thread := if y.ctx = c && y.window = some q then { y with window := some p } else y
      let s := modCtx s c (fun x => { x with
        savedBarriers := kdel x.savedBarriers q, saved := x.saved.map (fun y => (y.1, mv y.2)) })
      { s with threads := s.threads.map (fun y => (y.1, mv y.2)) }

/-- The ranges of addresses of a context that show a share which has moved to another core (R307). -/
def movedCvas (s : State) (c : Nat) : List Nat :=
  ((kvals s.tasks).filter (fun t => t.ctx == c && t.runSize != 0 && t.core != t.cvaCore)).map (fun t => shareCva s t.cvaCore c)

/-- What a context gains and loses in a pool as its table goes from that of `s` to that of `s'` (R264, R277, R302). Addresses that
show a share moved from a retired core stay (R307). -/
def rebindCtx (s s' : State) (p c : Nat) : State :=
  let moved := movedCvas s c
  let old := (apertures s p c).filter (fun r => !moved.contains r.1)
  let new := (apertures s' p c).filter (fun r => !moved.contains r.1)
  let t := if old = new then s' else
    new.foldl (fun t r => mapPages t c r.1 r.2.1 r.2.2 1 true true)
      (old.foldl (fun t r => unmapPages t c r.1 r.2.2) s')
  let w := winOf s' p c
  let t := if winOf s p c = w then t else { t with mem := t.mem.zero (lspPa p (w.1 * 4096)) (w.2 * 4096) }
  if sbWindow s p c = sbWindow s' p c then t
  else
    let keep := windowState s p c
    let t := if keep.isEmpty then t else modCtx t c (fun x => { x with savedBarriers := kset x.savedBarriers p keep })
    if (sbWindow s' p c).2 = 0 then t else bindWindow t p c

/-- The hardware contexts of a core that a table binds to a context. -/
def boundTo (s : State) (k c : Nat) : List Nat :=
  (List.range 16).filter (fun h => match bindingEntry s k h with | some e => e.2.ctx == c | none => false)

/-- The cores of a pool from which a context is unbound as its table changes, wholly or in part. -/
def lostCores (s s' : State) (p c : Nat) : List Nat :=
  (span (p * 16) 16).filter (fun k => (boundTo s k c).any (fun h => !(boundTo s' k c).contains h))

/-- A pool's new slot table in force: windows and shares follow, what lost its binding is to be unbound, and the pool draws,
dispatches and wakes (R134, R302, R304). -/
def putSlots (s : State) (p : Nat) (slots : KMap SlotEntry) : State :=
  let s' := modPool s p (fun x => { x with slots := slots })
  let cs := (((kvals (pool s p).slots) ++ kvals slots).filter (·.valid) |>.map (·.ctx)).dedup
  let t := cs.foldl (fun t c => rebindCtx { t with pools := s.pools } t p c) s'
  let gone := cs.flatMap (fun c => (lostCores s s' p c).map (fun k => (k, c)))
  let t := gone.foldl (fun t q => modCtx t q.2 (fun x => { x with unbinding := (q.1 :: x.unbinding).dedup })) t
  let t := owe t (gone.map (fun q => ev .unbind q.1 q.2))
  wakePool (owe t (cs.flatMap (fun c => [ev .tileDraw p c, ev .dispatch p c]))) p

/-- SLOT_TABLE_WRITE (R302): the management core writes an entry, within what R302 has it keep; a context is bound anew only once
its unbinding is complete (R134). The count of an entry's quantum begins again at every write of it (DESIGN CHOICE, log 38). -/
def execSlotTableWrite (s : State) : Out :=
  let p := s.msg.a
  let i := s.msg.b
  let w (n : Nat) : Word := s.msg.words.getD n 0
  let e : SlotEntry := SlotEntry.written { dw0 := w 0, dw1 := w 1, dw2 := w 2, dw3 := w 3, cycles := 0 }
  let slots := kset (pool s p).slots i e
  let busy := e.valid && (entryOf s p e.ctx).isNone &&
    (match ctx? s e.ctx with | some x => !x.unbinding.isEmpty | none => false)
  if 96 ≤ p || 16 ≤ i || s.msg.words.length ≠ 4 || busy || !tableFits s p slots then .next s else .next (putSlots s p slots)

/-! ### Unbinding -/

/-- The threads of a context on a core that have lost their binding. -/
def unboundOn (s : State) (k c : Nat) : List Nat :=
  (s.threads.filter (fun q => coreOf q.1 == k && hwOf q.1 != 16 && q.2.ctx == c && !boundHere s q.1)).map (·.1)

/-- Whether writes of an agent, or writes that its releases cover or that it has read, are still to be performed for some agent (R85,
R90, R106). -/
def writesLeft (s : State) (a : Agent) : Bool := pendingOf s a != 0 || queued s a || inDieOnly s a || readInDie s a

/-- A register word of the thread that owned its die's array when its context froze: it finds the queue dropped, and acts on the array
as it stopped (R331, R337; DEDUCED, log 25). -/
def whileThawed (f : State → Out) (s : State) : Out :=
  match (mySa s).frozen with
  | none => f s
  | some c => match f (modSa s (myDie s) (fun a => { a with frozen := none })) with
    | .next t => .next (modSa t (myDie s) (fun a => { a with frozen := some c }))
    | o => o

/-- The meaning of such a word, once it may go on. -/
def execLate (i : Instr) (s : State) : Out :=
  match i with
  | .csrr d c => execCsrr d c s
  | .csrw c a => execCsrw c a s
  | .csrs c a => execCsrs c a s
  | .csrc c a => execCsrc c a s
  | .saclamp => whileThawed execSaclamp s
  | .saread => whileThawed execSaread s
  | .sacount => whileThawed execSacount s
  | _ => .next s

/-- That word issued where what it waits for has come. -/
def finishWord (s : State) (t : Nat) : State :=
  match lateWord s t with
  | none => s
  | some (w, i) =>
    let u := respond { s with ir := w, defer := false } (.thread t) (fun s => match execLate i s with
      | .next s' => s'
      | _ => s)
    { u with ir := s.ir, defer := s.defer }

/-- Whether a thread that is being unbound must still wait for something accepted (R134 steps 2 to 6): a word that completes first, a
response, its vector loads, its matrix words, an engine, its Retrievers' responses, its copies, or its own stores and the writes
that its releases cover, which are performed for every agent before it is saved (R96, R106). -/
def stopsLater (s : State) (t : Nat) : Bool :=
  let x := thr s t
  let rets := s.rets.filter (fun r => r.2.owner == some t)
  let asks (c : Cond) : Bool := match c with | .awaiting (.pginv _ _) => false | .awaiting _ => true | _ => false
  (lateWord s t).isSome || asks x.cond || (match x.cond with | .inEngine _ => true | .fetching => true | _ => false) || !settled x ||
    rets.any (fun r => r.2.state == 2 && asks r.2.cond) || copiesOf s t ||
    (Agent.thread t :: rets.map (fun r => Agent.ret r.1)).any (fun a => writesLeft s a)

/-- A thread as its state is saved: it issues its stopping word again, a wake that has come being discarded, and every granted slot is
owed a lane of its own (R190, R191, Table 5.10). -/
def savedThread (key : Nat) (array : Bool) (x : Thread) : Thread :=
  { x with cond := .ready, noPage := none, placing := x.gvl != 0, lanes := List.replicate x.gvl 0, lost := List.range x.gvl
           array := if array then some key else none }

/-- An unbound thread's state goes to the save area, with its Retrievers and its copies' records; its array stays in place
under the number by which it is kept, whose low 32 bits are the thread's own (R134, R190, R250, R258, R335). -/
def saveThread (s : State) (t : Nat) : State :=
  let x := thr s t
  let key := (s.nextId + 1) * 2 ^ 32 + t
  let d := dieOf t
  let array := (die s d).sa.owner == some t
  let rets := s.rets.filter (fun r => r.2.owner == some t)
  let s := modCtx { s with nextId := s.nextId + 1 } x.ctx (fun c => { c with
    saved := kset c.saved key (savedThread key array x)
    savedRets := c.savedRets ++ rets.map (fun (r : Nat × Retriever) => (key, r.1 % 2, savedRet r.2))
    savedCopies := c.savedCopies.map (fun y => if y.thread = t then { y with thread := key, byRet := y.byRet.map (· % 2) } else y) })
  let s := if array then modSa s d (fun a => { a with owner := some key }) else s
  let s := dropThr { s with rets := s.rets.filter (fun r => r.2.owner != some t) } t
  let s := modCore s (coreOf t) (fun c => { c with forgo := c.forgo.filter (· != hwOf t) })
  if x.vceil = 0 then s else wakePool (leaveEnt s (poolOf t) x.ctx) (poolOf t)

/-- The marks that name a core and a context widened to .w, messages for them dropped, and a handler of the context there
ended (R96). -/
def widenMarks (s : State) (k c : Nat) : State :=
  let mine := s.marks.filter (fun p => p.2.ctx == c && p.2.core == k)
  let s := mine.foldl (fun (s : State) (p : Nat × Mark) => putMark s p.1 (some { p.2 with scope := 6 })) s
  let handler := match (core s k).serving with | some m => m.ctx == c | none => false
  let s := { s with router := s.router.filter (fun p => !(p.1 == k && p.2.ctx == c)) }
  let s := modCore s k (fun x => { x with
    smq := x.smq.filter (fun m => m.ctx != c), serving := if handler then none else x.serving })
  owe (if handler then dropThr s (k * 17 + 16) else s) [ev .scopeMissMessage k]

/-- The entries of a core's pool with the core taken from those of a context. -/
def withoutCore (s : State) (k c : Nat) : KMap SlotEntry :=
  (pool s (poolOfCore k)).slots.map (fun e => (e.1,
    if e.2.valid && e.2.ctx == c then { e.2 with dw0 := e.2.dw0 &&& ~~~(BitVec.ofNat 64 (2 ^ (32 + k % 16))) } else e.2))

/-- Copies that start no further chunk and have none in flight leave their engines (R258). -/
def settleClosing (s : State) : State :=
  let l : List (Nat × Nat) := s.pools.flatMap (fun p => (p.2.copies.filter (·.closing)).map (fun y => (p.1, y.id)))
  l.foldl (fun s q => settleCopy s q.1 q.2) s

/-- An unbind of a context from a core begins: the core is taken from its entries, and its threads there are to stop (R134). -/
def startUnbind (s : State) (k c : Nat) : State :=
  let s := if (boundTo s k c).isEmpty then s else putSlots s (poolOfCore k) (withoutCore s k c)
  match ctx? s c with
  | none => s
  | some x =>
    if x.unbinding.contains k then s
    else owe (modCtx s c (fun x => { x with unbinding := k :: x.unbinding })) [ev .unbind k c]

/-- UNBIND (R134): the threads of a context that have lost their binding on a core stop, and once nothing accepted is left
outstanding their state is saved, a trap that is due for one being entered first (R135). Where no unbind is under way there, it
begins. -/
def execUnbind (s : State) : Out :=
  let k := s.msg.a
  let c := s.msg.b
  let under := match ctx? s c with | some x => x.unbinding.contains k | none => false
  let here := s.threads.any (fun q => coreOf q.1 == k && hwOf q.1 != 16 && q.2.ctx == c) || !(boundTo s k c).isEmpty
  if 1536 ≤ k || (ctx? s c).isNone || frozenCtx s c then .next s
  else if !under then .next (if here then startUnbind s k c else s)
  else
    let ts := unboundOn s k c
    let s := ts.foldl finishWord (withdraw s (fun t => ts.contains t))
    let s := ts.foldl (fun s t => drainAll s t) s
    let s := { s with pools := s.pools.map (fun p => (p.1, { p.2 with
      copies := p.2.copies.map (fun y => if ts.contains y.thread then { y with closing := true } else y) })) }
    let s := settleClosing s
    let handles := match (core s k).serving with | some m => m.ctx == c | none => false
    if ts.any (stopsLater s) || (handles && writesLeft s (.thread (k * 17 + 16))) then .next (owe s [ev .unbind k c])
    else
      let s := ts.foldl (fun s t => if frozenCtx s c then s else takeDue s t) s
      if frozenCtx s c then .next s else
      let s := ts.foldl saveThread s
      let s := if (boundTo s k c).isEmpty then widenMarks s k c else s
      .next (owe s [ev .unbindComplete k c, ev .tileDraw (poolOfCore k) c, ev .dispatch (poolOfCore k) c])

/-- UNBIND_COMPLETE (R134): all steps done, the unbind is reported to the management core. -/
def execUnbindComplete (s : State) : Out :=
  let k := s.msg.a
  let c := s.msg.b
  match ctx? s c with
  | none => .next s
  | some x =>
    if !x.unbinding.contains k || !(unboundOn s k c).isEmpty then .next s
    else
      let s := modCtx s c (fun x => { x with unbinding := x.unbinding.filter (· != k) })
      .next (modKeeper s (fun y => { y with reports := y.reports ++ [(k, c)] }))

/-! ### Resuming -/

/-- The context that keeps a saved thread. -/
def savedIn (s : State) (key : Nat) : Option (Nat × Thread) :=
  s.ctxs.findSome? (fun c => (kfind c.2.saved key).map (fun x => (c.1, x)))

/-- The tasks of a context that hold a run on a core. -/
def runTasks (s : State) (c k : Nat) : KMap Task := s.tasks.filter (fun t => t.2.ctx == c && t.2.core == k && t.2.runSize != 0)

/-- The bytes of a context's share of a core, as the tasks that hold runs there have it. -/
def shareBytes (s : State) (c k : Nat) : Nat := (kvals (runTasks s c k)).foldl (fun n t => max n t.share) 0

/-- Whether a thread's task can reach its run from a core: it holds none, the run is there, or the run's core is retired and
its whole share can move there (R135, R307). -/
def runReaches (s : State) (k : Nat) (x : Thread) : Bool :=
  let j := task s x.task
  j.runSize == 0 || j.core == k || (!unitLive s (128 + j.core) && (runsOn s k x.ctx).isEmpty &&
    (match shareEntry s k x.ctx with | some e => decide (shareBytes s x.ctx j.core ≤ e.scratch) | none => false))

/-- Whether accesses of a context to its share of a core are still to be performed, under any of the addresses at which its tasks see
the share: before they are, the share's range is not remapped (R107, R268). -/
def shareBusy (s : State) (c src : Nat) : Bool :=
  (((runTasks s c src).map (·.2.cvaCore)).dedup).any (fun q => pginvBusy s c (shareCva s q c) (shareBytes s c src))

/-- Whether a saved thread may resume in a hardware context (R23, R135, R191, R250, R264, R335); where it takes its share with it, once
nothing is outstanding there (R307). -/
def mayResume (s : State) (c key : Nat) (x : Thread) (k h : Nat) : Bool :=
  let kept : List (Nat × Nat × Retriever) := match ctx? s c with | some y => y.savedRets | none => []
  let roles := (kept.filter (fun r => r.1 == key)).map (fun r => r.2.1)
  (match bindingEntry s k h with | some e => e.2.ctx == c | none => false) && !hasThr s (k * 17 + h) && !frozenCtx s c &&
    runReaches s k x && !((task s x.task).runSize != 0 && (task s x.task).core != k && shareBusy s c (task s x.task).core) &&
    (match x.window with | some p => p == poolOfCore k | none => true) &&
    roles.all (fun r => (ret s (2 * k + r)).owner.isNone && unitLive s (2048 + 2 * k + r)) &&
    (match x.array with | some a => (die s (dieOfCore k)).sa.owner == some a | none => true) &&
    decide (144 * x.vceil ≤ spillRoom s (poolOfCore k) c)

/-- `n` bytes of memory copied from one place to another, what stood there before being gone. -/
def Memory.copy (m : Memory) (src dst n : Nat) : Memory :=
  (m.zero dst n).setAll (((m.cells.filter (fun c => decide (src ≤ c.1 ∧ c.1 < src + n))).map (fun c => (c.1 - src + dst, c.2))))

/-- The share of a retired core moved to a live one: all of its bytes, and every range of addresses under which a task of the context
sees it, so that g1 stays as it is also where the share moves again (R307). -/
def moveShare (s : State) (c src dst : Nat) : State :=
  let runs := runTasks s c src
  let n := shareBytes s c src
  match shareEntry s dst c, runs with
  | some e, (_, t0) :: _ =>
    let base := sramPa dst (e.share.1 * 4096)
    let s := { s with
      mem := s.mem.copy (t0.runPa - t0.runOff) base n
      tasks := runs.foldl (fun m t => kset m t.1 { t.2 with core := dst, runPa := base + t.2.runOff : Task }) s.tasks }
    ((runs.map (·.2.cvaCore)).dedup).foldl (fun s q => mapPages s c (shareCva s q c) base (n / 4096) 1 true true) s
  | _, _ => s

/-- A saved thread takes up its state in a hardware context (R135, R191, R240, R250, R258, R335). -/
def resumeThread (s : State) (c key : Nat) (x : Thread) (k h : Nat) : State :=
  let t := k * 17 + h
  let j := task s x.task
  let s := if j.runSize ≠ 0 && j.core ≠ k then moveShare s c j.core k else s
  match ctx? s c with
  | none => s
  | some y =>
    let rets := y.savedRets.filter (fun r => r.1 == key)
    let copies := y.savedCopies.filter (fun z => z.thread == key)
    let s := modCtx s c (fun y => { y with
      saved := kdel y.saved key, savedRets := y.savedRets.filter (fun r => r.1 != key)
      savedCopies := y.savedCopies.filter (fun z => z.thread != key) })
    let s := setThr s t { x with array := none }
    let s := rets.foldl (fun s r => modRet s (2 * k + r.2.1) (fun _ => { r.2.2 with owner := some t })) s
    let s := if x.array.isSome then modSa s (dieOfCore k) (fun a => { a with owner := some t }) else s
    let p := poolOfCore k
    let s := copies.foldl (fun (s : State) (z : Copy) =>
      let z : Copy := { z with thread := t, byRet := z.byRet.map (2 * k + ·) }
      asAgent s (match z.byRet with | some n => .ret n | none => .thread t) (fun s => resumeCopy s p z)) s
    let s := pump s p
    let s := if x.vceil = 0 then s else joinEnt (modThr s t (fun y => { y with debt := none })) t
    owe s (if x.lost.isEmpty then [] else [ev .slicePlaced t])

/-- RESUME (R135): a saved thread resumes in a hardware context that qualifies. -/
def execResume (s : State) : Out :=
  match savedIn s s.msg.a with
  | none => .next s
  | some (c, x) =>
    if mayResume s c s.msg.a x s.msg.b s.msg.c then .next (resumeThread s c s.msg.a x s.msg.b s.msg.c) else .next s

/-! ### LSCFG and VICT -/

/-- LSCFG_WRITE (R275): only while no task of the core holds local scratch, and while its shares fit what is left; the local
cache is invalidated and the scratch scrubbed. -/
def execLscfgWrite (s : State) : Out :=
  let k := s.msg.a
  let v := s.msg.words.headD 0 &&& 0xF#64
  let s' := modCore s k (fun c => { c with lscfg := v })
  let p := poolOfCore k
  if 1536 ≤ k || (kvals s.tasks).any (fun t => t.core == k && t.runSize != 0) || !tableFits s' p (pool s p).slots then .next s
  else .next { s' with
    local1 := s'.local1.filter (fun q => q.1 / 1024 != k)
    mem := s'.mem.zero (sramPa k 0) (2 ^ 18) }

/-- VICT_WRITE (R276). -/
def execVictWrite (s : State) : Out :=
  if 1536 ≤ s.msg.a then .next s
  else .next (modCore s s.msg.a (fun c => { c with vict := s.msg.words.headD 0 &&& 0xF1#64 }))

end Sys2Proof.Machine
end

