-- ==== Sys2Proof/Machine/Clock.lean ====
section
/-! DEFINITION. The passing of time (R1, R108): TIME, the counts that run with it (R303, R315, R344, R363), and what becomes
due: watchdogs, quanta and acknowledgement deadlines. -/

namespace Sys2Proof.Machine

/-- A compute die's core clock in MHz (Table 13.3, R363). -/
def dieMhz (s : State) (d : Nat) : Nat := match mapRec s (12928 + d) with | some r => r.value | none => 0

/-- Whether a hardware context of a live core is bound to a context (R302). -/
def bindsCtx (s : State) (c : Nat) : Bool :=
  s.pools.any (fun p => p.2.slots.any (fun e => e.2.valid && e.2.ctx == c && (List.range 16).any (fun k =>
    e.2.dw0.getLsbD (32 + k) && (List.range 16).any (fun h => e.2.dw0.getLsbD (16 + h) &&
      match bindingEntry s (p.1 * 16 + k) h with | some b => b.2.ctx == c | none => false))))

/-- Whether time counts towards a context's watchdogs: it runs, and it is bound somewhere (R22, R302, R344). -/
def timeCounts (s : State) (c : Nat) : Bool := ctxRuns s c && bindsCtx s c

/-- Whether a task of a gang is in a trap handler, also where it is unbound in one, or parked on a page (R21). -/
def gangPaused (s : State) (c g : Nat) : Bool :=
  let holds (y : Thread) : Bool := (task s y.task).gid == g && (privOf y || match y.cond with | .parkedPage _ => true | _ => false)
  s.threads.any (fun t => hwOf t.1 != 16 && t.2.ctx == c && holds t.2) ||
    match ctx? s c with | some x => x.saved.any (fun t => holds t.2) | none => false

/-- The watchdog counts of a context's gangs after `n` timestamp cycles (R315). -/
def tickGangs (s : State) (n c : Nat) (x : Ctx) : KMap Gang :=
  x.gangs.map (fun g => (g.1, if timeCounts s c && !gangPaused s c g.1 then { g.2 with wdCount := g.2.wdCount + n } else g.2))

/-- Whether a gang's watchdog has run out (R315). -/
def wdDue (g : Gang) : Bool := g.wdt != 0 && decide (g.wdt * 1024 ≤ g.wdCount)

/-- QUANTUM of an entry, in thousandths of a die cycle (Table 11.4). -/
def SlotEntry.quantum (e : SlotEntry) : Nat := field e.dw1 32 32 * 1024 * 1000

/-- Whether an entry's time counts towards its quantum (R303). -/
def quantumCounts (s : State) (e : SlotEntry) : Bool := e.valid && e.quantum != 0 && ctxRuns s e.ctx

/-- The counts of a pool's entries after `n` timestamp cycles: the die's own cycles at its clock (R303, R363). -/
def tickSlots (s : State) (n p : Nat) (x : Pool) : KMap SlotEntry :=
  x.slots.map (fun e => (e.1, if quantumCounts s e.2 then { e.2 with cycles := e.2.cycles + n * dieMhz s (p / 24) } else e.2))

/-- The deadline of a context in arrears, where it is live and not yet suspended (R344). -/
def deadlineOf (x : Ctx) : Option Nat :=
  if x.suspended || x.frozen.isSome then none else x.arrears.map (· + 10 ^ 7)

/-- What is due and not yet owed. -/
def oweDue (s : State) (l : List (Instr × Msg)) : State := owe s (l.filter (fun p => !s.owed.contains p))

/-- When die d's entropy source is tested again (R322): a second after it failed, or was last tested. -/
def retestAt (s : State) (d : Nat) : Nat := kget s.keeper.retested d 0 + 10 ^ 9

/-- Whether the entropy source of die d's array, which is there, has failed its health tests, so that it is tested again every second (R322). -/
def sourceFailed (s : State) (d : Nat) : Bool :=
  match mapRec s (saRec d) with | some r => recLive r && !r.auxA.testBit 0 | none => false

/-- The test of an entropy source that time brings: whether it passes is a free value (log 13). -/
def retestMsg (d : Nat) : Instr × Msg := ev .entropyRetest d 1

/-- Watchdogs that have run out, quanta that have passed, deadlines reached, and tests of entropy sources. -/
def dueNow (s : State) : List (Instr × Msg) :=
  (s.ctxs.filter (fun c => c.2.frozen.isNone)).flatMap (fun c =>
      (c.2.gangs.filter (fun g => wdDue g.2)).map (fun g => ev .wdog c.1 g.1)) ++
    ((List.range 4).filter (fun d => sourceFailed s d && decide (retestAt s d ≤ s.time))).map retestMsg ++
    s.pools.flatMap (fun p => (p.2.slots.filter (fun e => quantumCounts s e.2 && decide (e.2.quantum ≤ e.2.cycles))).map
      (fun e => ev .quantumExpiry p.1 e.1)) ++
    (s.ctxs.filter (fun c => match deadlineOf c.2 with | some t => decide (t ≤ s.time) | none => false)).map
      (fun c => ev .ackDeadline c.1)

/-- `n` timestamp cycles pass. -/
def elapse (s : State) (n : Nat) : State :=
  let t := { s with
    time := s.time + n
    ctxs := s.ctxs.map (fun c => (c.1, { c.2 with gangs := tickGangs s n c.1 c.2 }))
    pools := s.pools.map (fun p => (p.1, { p.2 with slots := tickSlots s n p.1 p.2 })) }
  oweDue t (dueNow t)

/-- QUANTUM_EXPIRY (R303): a quantum that has passed is reported to the management core, and the count goes on. -/
def execQuantumExpiry (s : State) : Out :=
  let p := s.msg.a
  let i := s.msg.b
  match kfind (pool s p).slots i with
  | none => .next s
  | some e =>
    if !quantumCounts s e || e.cycles < e.quantum then .next s else
    let s := modPool s p (fun x => { x with slots := kset x.slots i { e with cycles := e.cycles - e.quantum } })
    let s := modKeeper s (fun k => { k with quanta := k.quanta ++ [(p, i)] })
    .next (if e.quantum ≤ e.cycles - e.quantum then owe s [ev .quantumExpiry p i] else s)

/-- Threads of a suspended context that wait at a word which they complete first go on with it, until none does (R136, Table 5.10). -/
def finishLate (s : State) (c : Nat) : State :=
  let ts := (s.threads.filter (fun t => t.2.ctx == c)).map (·.1)
  let s := ts.foldl finishWord s
  if ts.any (fun t => (lateWord s t).isSome) then owe s [ev .ackDeadline c] else s

/-- The threads and Retrievers of a context stop for its suspension. -/
def stopForSuspension (s : State) (c : Nat) : State := finishLate (withdraw s (fun t => (thr s t).ctx == c)) c

/-- ACK_DEADLINE (R344): a context still in arrears at its deadline is suspended, its threads stop, and its function's vector 7 is
raised. Of a context that is suspended, the words still to be completed go on. -/
def execAckDeadline (s : State) : Out :=
  let c := s.msg.a
  match ctx? s c with
  | none => .next s
  | some x =>
    match deadlineOf x with
    | some t =>
      if s.time < t then .next s
      else .next (raiseIrq (stopForSuspension (modCtx s c (fun x => { x with suspended := true })) c) x.tenant 7)
    | none => .next (if x.suspended && x.frozen.isNone then finishLate s c else s)

end Sys2Proof.Machine
end

