-- ==== Sys2Proof/Machine/Branch.lean ====
section
/-! DEFINITION. Branches (R141), jumps and calls (R142). -/

namespace Sys2Proof.Machine

/-- A target some words from the PC. -/
def relTarget (s : State) (words : Word) : Word := pcOf s + words * 8

/-- The conditions of the compare-and-branch forms (R141), numbered from BEQ. -/
def branchCond (k : Nat) (x y : Word) : Bool :=
  match k with
  | 0 => x == y
  | 1 => x != y
  | 2 => x.slt y
  | 3 => !x.slt y
  | 4 => decide (x < y)
  | _ => !decide (x < y)

/-- A compare-and-branch (R141). -/
def branch (k : Nat) (d a : Reg) (off : BitVec 20) (s : State) : Out :=
  issue s (admits s true [d, a]) (fun s =>
    if branchCond k (reg s d) (reg s a) then jump s (relTarget s (off.signExtend 64)) else advance s)

/-- A jump to a register's value, which must be a multiple of 8 (R26, R142); the link, where there is one, is written with
the address of the word after. -/
def jumpReg (s : State) (link : Option Reg) (a : Reg) : State :=
  let x := reg s a
  if x.extractLsb' 0 3 ≠ 0 then takeTrap s 3 (3 * 128) x
  else match link with
    | some d => let t := pcOf s + 8; jump (setReg s d t) x
    | none => jump s x

/-- BEQ (R141). -/
def execBeq (d a : Reg) (off : BitVec 20) (s : State) : Out := branch 0 d a off s
/-- BNE (R141). -/
def execBne (d a : Reg) (off : BitVec 20) (s : State) : Out := branch 1 d a off s
/-- BLT (R141). -/
def execBlt (d a : Reg) (off : BitVec 20) (s : State) : Out := branch 2 d a off s
/-- BGE (R141). -/
def execBge (d a : Reg) (off : BitVec 20) (s : State) : Out := branch 3 d a off s
/-- BLTN (R141). -/
def execBltn (d a : Reg) (off : BitVec 20) (s : State) : Out := branch 4 d a off s
/-- BGEN (R141). -/
def execBgen (d a : Reg) (off : BitVec 20) (s : State) : Out := branch 5 d a off s
/-- JMP (R142); class L, not for Retrievers (R246). -/
def execJmp (off : BitVec 32) (s : State) : Out :=
  issue s (admits s false []) (fun s => jump s (relTarget s (off.signExtend 64)))
/-- CALL (R142): the target is taken from the PC, the link written with the next word's offset. -/
def execCall (d : Reg) (off : BitVec 32) (s : State) : Out :=
  issue s (admits s false [d]) (fun s => jump (setReg s d (pcOf s + 8)) (relTarget s (off.signExtend 64)))
/-- CALLR (R142). -/
def execCallr (d a : Reg) (s : State) : Out := issue s (admits s true [d, a]) (fun s => jumpReg s (some d) a)
/-- RET (R142). -/
def execRet (a : Reg) (s : State) : Out := issue s (admits s true [a]) (fun s => jumpReg s none a)
/-- JMPR (R142). -/
def execJmpr (a : Reg) (s : State) : Out := issue s (admits s true [a]) (fun s => jumpReg s none a)

end Sys2Proof.Machine
end

