-- ==== Sys2Proof/Machine/CacheWords.lean ====
section
/-! DEFINITION. The memory instructions on caches, retention, views and logs (R290 to R295). -/

namespace Sys2Proof.Machine

/-! ### Cache maintenance -/

/-- The cores whose local caches a scope of core `k` names (R290). -/
def cacheScope (sc k j : Nat) : Bool :=
  match sc with
  | 0 | 1 => k == j
  | 2 | 3 => poolOfCore k == poolOfCore j
  | _ => true

/-- The L2s that a scope of core `k` names (R290). -/
def l2Scope (sc k d : Nat) : Bool := decide (4 ≤ sc) || (sc == 3 && dieOfCore k == d)

/-- The copies of a line in the caches of a scope dropped; an L2 that gives a line up drops its dies' local copies first
(R273), and from .k on its home's last-level cache slice drops it too (R290). -/
def dropScope (s : State) (sc k line : Nat) : State :=
  let s := dropLocal s (fun j => cacheScope sc k j || l2Scope sc k (dieOfCore j)) line
  let s := dropL2 s (l2Scope sc k) line
  if 4 ≤ sc then llcDrop s (· == line) else s

/-- CINV's action: a dirty copy passes to the first level outside its scope before it is dropped (R290). -/
def invalLine (s : State) (sc k line : Nat) : State :=
  let t := dropScope s sc k line
  if sc = 3 && l2Owns s (dieOfCore k) (line * 128) then llcTouch t (line * 128) .none else t

/-- What stops a cache instruction: its segment admits neither reads nor writes, or does not reach the byte (R290). -/
def lineCheck (s : State) (m : MemRef) : Option Cause :=
  let g := seg s m.seg
  let off := (offOf s m).toNat
  segCheck { g with r := g.r || g.w } m.seg.toNat off 1 0

/-- CFLUSH, CINV and CCLEAN (R290). On an aperture they retire with no effect, also on a region's through a segment without right V, of
which R116 speaks at the memory port (DESIGN CHOICE, log 38). -/
def lineOp (act : State → Nat → Nat → Nat → State) (m : MemRef) (s : State) : Out :=
  issue s (admits s true [m.a]) (fun s =>
    match lineCheck s m with
    | some c => takeCause s c
    | none =>
      let cva := (seg s m.seg).base.toNat + (offOf s m).toNat
      match xlate s (myCtx s) cva with
      | .none bad => takeCause s (.trap 2 (segvInfo 2 m.seg.toNat 0) (BitVec.ofNat 64 cva) bad)
      | .absent => advance s
      | .integ => advance s
      | .page pa _ _ _ _ =>
        if 2 ≤ pa / 2 ^ 46 then advance s
        else
          let sc := scopeNum m.scope
          let inLine (loc : Nat) : Bool := nativePa s loc / 128 == pa / 128
          let waits := s.stores.any (fun p => p.agent == s.cur && p.locs.any (fun q => inLine q.1)) ||
            (decide (4 ≤ sc) && ((die s (myDie s)).hostq ++ (die s (myDie s)).peerq ++ (die s (myDie s)).uoq).any (fun w =>
              (w.agents.contains s.cur || w.writer == some s.cur) && w.locs.any (fun q => inLine q.1)))
          if waits then waitHere s else advance (act s sc (myCore s) (pa / 128)))

/-- CCLEAN's action. -/
def cleanLine (s : State) (sc k line : Nat) : State := cleanL2 s (l2Scope sc k) line

/-- CFLUSH (R290). -/
def execCflush (m : MemRef) (s : State) : Out :=
  lineOp (fun s sc k line => dropScope (cleanLine s sc k line) sc k line) m s
/-- CINV (R290). -/
def execCinv (m : MemRef) (s : State) : Out := lineOp invalLine m s
/-- CCLEAN (R290). -/
def execCclean (m : MemRef) (s : State) : Out := lineOp cleanLine m s

/-! ### Retention -/

/-- The lowest run of `w` free ways (R291). -/
def freeRun (used : List Nat) (w : Nat) : Option Nat :=
  (List.range 16).find? (fun k => decide (k + w ≤ 16) && (span k w).all (fun i => !used.contains i))

/-- RETAIN's result and effect for a context on a die, given its rounded range (R291). -/
def retainRange (s : State) (d c lo hi w : Nat) : State × Nat :=
  let regs := (die s d).retain
  let mine := (kvals regs).filter (fun r => r.ctx = c)
  let allow := match ctx? s c with | some x => kget x.allow d (0, 0) | none => (0, 0)
  let used := (kvals regs).flatMap (fun r => span r.way0 r.ways)
  let myWays := (mine.map (·.ways)).sum
  match (List.range 8).find? (fun k => (kfind regs k).isNone) with
  | none => (s, 8)
  | some k =>
    if allow.1 ≤ mine.length then (s, 8)
    else if allow.2 < myWays + w then (s, 9)
    else match freeRun used w with
      | none => (s, 9)
      | some w0 =>
        (modDie s d (fun x => { x with
          retain := kset x.retain k { ctx := c, base := lo, limit := hi - lo, way0 := w0, ways := w } }), k)

/-- RETAIN (R291): a result, never a trap. -/
def execRetain (d a b c : Reg) (s : State) : Out :=
  issue s (admits s false [d, a, b, c]) (fun s =>
    let off := (reg s a).toNat
    let len := (reg s b).toNat
    let n := (reg s c).extractLsb' 0 3
    let w := field (reg s c) 4 4
    let g := seg s n
    if w < 1 || 12 < w || len = 0 || (segCheck g n.toNat off len 0).isSome then advance (setReg s d 10)
    else
      let lo := (g.base.toNat + off) / 128 * 128
      let hi := (g.base.toNat + off + len + 127) / 128 * 128
      let r := retainRange s (myDie s) (myCtx s) lo hi w
      advance (setReg r.1 d (BitVec.ofNat 64 r.2)))

/-- UNPIN (R292). -/
def execUnpin (d a : Reg) (s : State) : Out :=
  issue s (admits s false [d, a]) (fun s =>
    let k := (reg s a).toNat
    match (if k < 8 then kfind (die s (myDie s)).retain k else none) with
    | some r =>
      if r.ctx = myCtx s then
        advance (setReg (modDie s (myDie s) (fun x => { x with retain := kdel x.retain k })) d 0)
      else advance (setReg s d 1)
    | none => advance (setReg s d 1))

/-! ### Views -/

/-- The region number, view, offset in the view, and register that a view aperture's offset names (R293); none where the
instructions answer all ones. -/
def viewOf (s : State) (g : BitVec 3) (off : Nat) : Option (Nat × Nat × Nat × Region) :=
  let x := seg s g
  if x.limit.toNat ≤ off then none else
  match xlate s (myCtx s) (x.base.toNat + off) with
  | .page pa _ _ _ _ =>
    if !inRegions pa then none else
    match kfind s.regions (pa / 2 ^ 38 % 64) with
    | some r => if r.ctx = myCtx s then some (pa / 2 ^ 38 % 64, pa / 2 ^ 44 % 4, pa % 2 ^ 38, r) else none
    | none => none
  | _ => none

/-- VIEWADDR (R293). -/
def execViewaddr (d a b : Reg) (g : BitVec 3) (s : State) : Out :=
  issue s (admits s false [d, a, b]) (fun s =>
    let i := field (reg s b) 0 32
    let j := field (reg s b) 32 32
    let v := match viewOf s g (reg s a).toNat with
      | none => BitVec.allOnes 64
      | some (_, view, off, r) =>
        if r.rows ≤ i || r.cols ≤ j then BitVec.allOnes 64
        else reg s a - BitVec.ofNat 64 off + BitVec.ofNat 64 (r.viewOff view i j)
    advance (setReg s d v))

/-- Doubleword 0 of a region register (Table 10.6). -/
def regionDw0 (r : Region) : Word :=
  let b (x : Bool) (n : Nat) : Nat := if x then 2 ^ n else 0
  BitVec.ofNat 64 (2 ^ 63 + r.ctx * 2 ^ 48 + r.choff * 2 ^ 40 + b r.scaled 39 + r.scale * 2 ^ 33 + b r.decode 32 +
    r.native * 2 ^ 30 + r.fmt * 2 ^ 20)

/-- REGINFO (R293). -/
def execReginfo (d a b : Reg) (g : BitVec 3) (s : State) : Out :=
  issue s (admits s false [d, a, b]) (fun s =>
    let v := match viewOf s g (reg s a).toNat with
      | none => BitVec.allOnes 64
      | some (n, view, _, r) =>
        match (reg s b).toNat with
        | 0 => regionDw0 r
        | 1 => BitVec.ofNat 64 (r.cols * 2 ^ 32 + r.rows)
        | 2 => BitVec.ofNat 64 (n * 2 ^ 48 + r.tc * 2 ^ 32 + r.tr * 2 ^ 16 + r.e * 2 ^ 8 + view)
        | _ => BitVec.allOnes 64
    advance (setReg s d v))

/-! ### Logs -/

/-- The outcome-log entries that match an address for the issuing agent, newest first (R294). -/
def matching (s : State) (cva : Nat) : List OutEntry :=
  match xlate s (myCtx s) cva with
  | .page pa _ _ _ _ =>
    let r := byteRef s (myCtx s) cva
    let h := homeOf s (if r.has then r.loc else pa)
    (kget (tenant s (tenantOf s (myCtx s))).out h []).filter (fun e =>
      e.task == (my s).task && e.cva == cva &&
        (!e.byRet || (match s.cur with
          | .ret n => e.source == n
          | .thread t => e.owner == t)))
  | _ => []

/-- ATOMLOG (R294). -/
def execAtomlog (d a b : Reg) (s : State) : Out :=
  issue s (admits s true [d, a, b]) (fun s =>
    let l := matching s (reg s a).toNat
    let e := l[field (reg s b) 8 8]?
    let v := if (reg s b).getLsbD 0 then (match e with | some x => x.old | none => 0)
      else
        let n := min 255 l.length * 2 ^ 8
        match e with
        | some x =>
          let f (p : Bool) (k : Nat) : Nat := if p then 2 ^ k else 0
          BitVec.ofNat 64 (x.time % 2 ^ 32 * 2 ^ 32 + n + f x.vamo 2 + f x.cas 1 + 1)
        | none => BitVec.ofNat 64 n
    advance (setReg s d v))

/-- A doubleword of an arrival-log entry (Table 10.8); `newest` and `lost` are the ring's. -/
def arrDword (e : ArrEntry) (newest lost dw : Nat) : Option Word :=
  match dw with
  | 0 => some (BitVec.ofNat 64 e.time)
  | 1 => some (BitVec.ofNat 64 (e.kind * 2 ^ 56 + e.len * 2 ^ 48 + e.off * 2 ^ 40 + e.ctx * 2 ^ 32 +
      (if e.byRet then 2 ^ 15 else 0) + e.source % 2 ^ 15))
  | 2 => some (BitVec.ofNat 64 (e.gran * 2 ^ 8))
  | 3 => some (BitVec.ofNat 64 e.seq)
  | 4 => some (BitVec.ofNat 64 newest)
  | 5 => some (BitVec.ofNat 64 lost)
  | _ => none

/-- ARRLOG (R295). The manual gives no result for a doubleword above 5: it is a free value (log 13). -/
def execArrlog (d a b : Reg) (s : State) : Out :=
  issue s (admits s false [d, a, b]) (fun s =>
    let tn := tenantOf s (myCtx s)
    let t := tenant s tn
    let h := field (reg s a) 0 3
    let k := field (reg s a) 8 12
    let ring := kget t.arr h []
    let dw := (reg s b).toNat
    match (if t.logging then ring[k]? else none) with
    | none => advance (setReg s d (BitVec.allOnes 64))
    | some e =>
      let newest := match ring with | x :: _ => x.seq | [] => 0
      match arrDword e newest (kget t.arrLost h 0) dw with
      | some v =>
        let s := if dw < 4 then modTenant s tn (fun t => { t with
          arr := kset t.arr h (ring.set k { e with seen := true }) }) else s
        advance (setReg s d v)
      | none => let (v, s) := drawWord s; advance (setReg s d v))

end Sys2Proof.Machine
end

