-- ==== Sys2Proof/Machine/Deps.lean ====
section
/-! DEFINITION. Dependence counters (R312, R313), and what the gang table does when a gang ends (R301). -/

namespace Sys2Proof.Machine

/-! ### The counter -/

/-- An operation on a counter: DEPINIT, DEPARM of an expected count, DEPSIG. -/
inductive DepOp where
  | init
  | arm (x : Nat)
  | sig
  deriving DecidableEq, Repr

/-- Doubleword 0 of a counter with VALID, ARMED, FIRED and COUNT replaced, its reserved bits kept (Table 11.6). -/
def putDep (w : Word) (armed fired : Bool) (count : Nat) : Word :=
  BitVec.ofNat 64 (2 ^ 63 + (if armed then 2 ^ 62 else 0) + (if fired then 2 ^ 61 else 0) + field w 32 29 * 2 ^ 32 +
    count % 2 ^ 32)

/-- What an operation makes of a counter whose doubleword 0 is `w` (R313): the result in d but for its firing bit, the new
doubleword where it was applied, and whether it fires. `check` is the code of RECORD. -/
def depStep (op : DepOp) (w : Word) (check : Nat) : Nat × Option Word × Bool :=
  let valid := w.getLsbD 63
  let armed := w.getLsbD 62
  let fired := w.getLsbD 61
  let apply (armed : Bool) (count : Nat) : Nat × Option Word × Bool :=
    let fire := armed && !fired && count == 0
    (0, some (putDep w armed (fired || fire) count), fire)
  match op with
  | .init => (0, some (putDep w false false 0), false)
  | .arm x =>
    if !valid then (2, none, false)
    else if armed then (4, none, false)
    else if 2 ^ 31 ≤ x then (6, none, false)
    else if check ≠ 0 then (8 + check * 2 ^ 8, none, false)
    else apply true ((field w 0 32 + x) % 2 ^ 32)
  | .sig => if !valid then (2, none, false) else apply armed ((field w 0 32 + 2 ^ 32 - 1) % 2 ^ 32)

/-- A doubleword's bytes written at the home, for an agent or for the hub's gang table, logged where its memory has a home in the
package (R98, R312, R366). The hub's release, of package
scope and of no core, leaves no mark on an SO or RC page; one on a UO page leaves the mark as it is (R83, R92). -/
def homeWrite (s : State) (who : Option Agent) (c : Nat) (refs : List ByteRef) (new : Option (List Byte))
    (rel : Option Nat) : State :=
  match who with
  | some a => performAtomic s a refs new rel
  | none =>
    match refs with
    | [] => s
    | r :: _ =>
      let s := if offPart r.loc || inPools r.loc then s else
        logArrival s (tenantOf s c) 2 r.loc (r.cva / 256) (nativePa s r.loc % 256) refs.length (some (c, false, 0x7FFF))
      match new with
      | none => recallLine s (nativePa s r.loc / 128 * 128)
      | some l =>
        let s := writeHome s (.thread 0) ((refs.map (·.loc)).zip l) r.cva .none true
        if rel.isSome && r.kind != 2 && (kfind s.marks (granule s r.loc)).isSome then putMark s (granule s r.loc) none else s

/-- A fired counter's successor passes to its context's gang table; one that the table refuses is recorded (R313). -/
def fireSucc (s : State) (c : Nat) (refs : List ByteRef) (record : List Word) : State :=
  let code := launchCode s c record
  if code ≠ 0 then
    let r := refs.getD 8 (byteRef s c (2 ^ 48))
    countErr (writeHome s (.thread 0) [(r.loc, BitVec.ofNat 8 code)] r.cva .none true) c 3
  else owe (modCtx s c (fun x => { x with succs := x.succs ++ [record] })) [ev .gangStart c]

/-- An operation on the counter whose 128 bytes are `refs`, `words` being what they hold (R312, R313): the state, the result,
and COUNT before it. -/
def depApply (s : State) (who : Option Agent) (c : Nat) (refs : List ByteRef) (words : List Word) (op : DepOp) :
    State × Nat × Nat :=
  let w := words.getD 0 0
  let record := words.drop 8
  let r := depStep op w (launchCode s c record)
  let rel := match op, refs with
    | .init, _ => none
    | _, x :: _ => some (relScope 4 x.loc)
    | _, [] => none
  let s := homeWrite s who c (refs.take 8) (r.2.1.map (fun w => leBytes 8 w.toNat)) rel
  let s := match op, refs[8]? with
    | .init, some x => writeHome s (.thread 0) [(x.loc, 0)] x.cva .none true
    | _, _ => s
  let s := if r.2.2 then fireSucc s c refs record else s
  (s, r.1 + (if r.2.2 then 1 else 0), field w 0 32)

/-- A counter instruction (R313). -/
def depWord (op : State → DepOp) (d : Reg) (rs : List Reg) (a : Reg) (g : BitVec 3) (s : State) : Out :=
  issue s (admits s false (d :: a :: rs)) (fun s =>
    let off := reg s a
    let o := op s
    match scalarCause s g off 128 2 128 with
    | some c => takeCause s c
    | none =>
      let cva := (seg s g).base.toNat + off.toNat
      let refs := (span cva 128).map (byteRef s (myCtx s))
      let locs := refs.map (·.loc)
      let kind := (byteRef s (myCtx s) cva).kind
      let waits := match o with
        | .init => mustWait s s.cur s.stores kind true locs none
        | _ => releaseWaits s 4 || mustWait s s.cur s.stores kind true locs none
      if waits || inQueue s (myDie s) locs || !(locs.take 1).all (atomicUnitLive s) then waitHere s
      else if locs.any (poisoned s) then takeTrap s 5 0 0
      else
        let s := recallUo s (fun _ => true) locs
        let l := refs.map (readRef s s.cur (myDie s))
        let words := (chunksOf 8 128 l).map (fun b => BitVec.ofNat 64 (leNat b))
        let (s, v, old) := depApply s (some s.cur) (myCtx s) refs words o
        match o with
        | .init => advance (setReg s d 0)
        | _ =>
          if s.defer then
            owe (setCond s (.awaiting (.atomic d (BitVec.ofNat 64 v) (BitVec.ofNat 64 old) false false cva s.time [])))
              [evA .atomicResponse s.cur]
          else advance (setReg s d (BitVec.ofNat 64 v)))

/-- DEPINIT (R313). -/
def execDepinit (d a : Reg) (g : BitVec 3) (s : State) : Out := depWord (fun _ => .init) d [] a g s
/-- DEPARM (R313). -/
def execDeparm (d a b : Reg) (g : BitVec 3) (s : State) : Out := depWord (fun s => .arm (reg s b).toNat) d [b] a g s
/-- DEPSIG (R313). -/
def execDepsig (d a : Reg) (g : BitVec 3) (s : State) : Out := depWord (fun _ => .sig) d [] a g s

/-! ### The end of a gang -/

/-- What becomes of the gang table's access to `n` bytes at an address that must be a multiple of `al` (R301): performed,
delayed on a page, or failed. -/
inductive HubAccess where
  | ok (refs : List ByteRef)
  | delay (page : Nat)
  | fail
  deriving DecidableEq, Repr

/-- The gang table's access, checked as an atomic against no segment (R301). It fails where the home atomic unit is not live (R23;
DESIGN CHOICE, log 36). -/
def hubAccess (s : State) (c cva n al : Nat) : HubAccess :=
  if cva % al ≠ 0 then .fail else
  let k : Chk := { c := c, sg := 0, acc := 2, v := true, base := 0, frame := false, lost := none }
  match judge s k (span cva n) with
  | some (.park a) => .delay (a / 4096)
  | some (.trap _ _ _ _) => .fail
  | none =>
    let refs := (span cva n).map (byteRef s c)
    if refs.any (fun r => decide (2 ^ 47 ≤ r.pa) || !r.has || poisoned s r.loc) || !(refs.take 1).all (fun r => atomicUnitLive s r.loc)
    then .fail else .ok refs

/-- What the hub reads at a range, at the home: no die's queue answers it. -/
def hubWords (s : State) (refs : List ByteRef) : List Word :=
  (chunksOf 8 refs.length (refs.map (fun r => s.mem.get r.loc))).map (fun b => BitVec.ofNat 64 (leNat b))

/-- The next action of a gang that has ended; nothing where a page delays it (R301). -/
def gangAction (s : State) (c : Nat) (e : EndedGang) : Option State :=
  match e.phase with
  | 1 =>
    if recDone e.record = 0 then some s else
    match hubAccess s c (recDone e.record) 8 8 with
    | .delay _ => none
    | .fail => some (countErr s c 2)
    | .ok refs =>
      let s := recallUo s (fun _ => true) (refs.map (·.loc))
      let v := (hubWords s refs).headD 0 + 1
      some (homeWrite s none c refs (some (leBytes 8 v.toNat)) (some 5))
  | 2 => match e.port with
    | some k => some (if recIrq e.record then raiseIrq s (tenantOf s c) k else s)
    | none => some s
  | _ =>
    if recSig e.record = 0 then some s else
    match hubAccess s c (recSig e.record) 128 128 with
    | .delay _ => none
    | .fail => some (countErr s c 2)
    | .ok refs =>
      let s := recallUo s (fun _ => true) (refs.map (·.loc))
      some (depApply s none c refs (hubWords s refs) .sig).1

/-- GANG_END (R301): the next action of the first gang of a context that has ended: DONE, then IRQ, then SIG. An action that
a page delays waits while the pager brings it in, and other ended gangs go on. -/
def execGangEnd (s : State) : Out :=
  let c := s.msg.a
  match ctx? s c with
  | none => .next s
  | some x =>
    match x.ended with
    | [] => .next s
    | e :: rest =>
      let put (s : State) (l : List EndedGang) : State := modCtx s c (fun x => { x with ended := l })
      match gangAction s c e with
      | some s' =>
        let l := if 3 ≤ e.phase then rest else { e with phase := e.phase + 1 } :: rest
        .next (owe (put s' l) (if l.isEmpty then [] else [ev .gangEnd c]))
      | none =>
        let addr := if e.phase = 1 then recDone e.record else recSig e.record
        .next (owe (fileReport (put s (rest ++ [e])) c (addr / 4096)) [ev .gangEnd c])

end Sys2Proof.Machine
end

