-- ==== Sys2Proof/Machine/Dual.lean ====
section
/-! DEFINITION. The D word: two half-operations in one issue slot (R32 to R34). -/

namespace Sys2Proof.Machine

/-- The registers that a half names. -/
def halfRegs (h : Half) : List Reg := h.reads ++ h.writes.toList

/-- The result of a register or immediate half, from the registers as they stand before either half writes (Table 2.4). -/
def halfResult (s : State) : Half → Option (Reg × Word)
  | .reg fn d a b =>
    let n := fn.toNat
    some (d, if n = 0x1B then (if reg s b ≠ 0 then reg s a else reg s d)
      else if 0x1C ≤ n then unOp n (reg s a) else binOp n (reg s d) (reg s a))
  | .imm k d v =>
    let x := reg s d
    let i := v.signExtend 64
    some (d, match k with
      | .addi => x + i
      | .andi => x &&& i
      | .ori => x ||| i
      | .xori => x ^^^ i
      | .slli => x <<< shamt i
      | .srli => x >>> shamt i
      | .srai => x.sshiftRight (shamt i)
      | .li => i
      | .cmplti => bit (x.slt i))
  | _ => none

/-- The target of a branch half that is taken (Table 2.4). -/
def halfTarget (s : State) : Half → Option Word
  | .branch k d a off =>
    let n := match k with | .beq => 0 | .bne => 1 | .blt => 2 | .bge => 3 | .bltn => 4 | .bgen => 5
    if branchCond n (reg s d) (reg s a) then some (relTarget s (off.signExtend 64)) else none
  | _ => none

/-- The memory half of a D word, with what follows it once its value, if it loads one, is known; a word without one goes on
at once. The access is plain, without a hint. -/
def halfAccess (s : State) (fin : Option (Reg × Word) → State → State) : Half → State
  | .load k d a sg disp =>
    let n := match k with | .d => 8 | .w => 4 | .wn => 4
    loadPath { s with defer := false } sg (reg s a + disp.signExtend 64) n 1 false .none (fun cva pas acq => .load d sg.toNat cva pas false acq)
      (fun s bytes => fin (some (d, loadValue (k == .w) bytes)) s)
  | .store wide d a sg disp =>
    storePath s sg (reg s a + disp.signExtend 64) 1 (leBytes (if wide then 8 else 4) (reg s d).toNat) none .none (fin none)
  | _ => fin none s

/-- A half's result written. -/
def putHalf (s : State) : Option (Reg × Word) → State
  | some (d, v) => setReg s d v
  | none => s

/-- DUAL_WORD (R34), which a Retriever does not execute (R47, R246): both halves read before either writes; the memory half's trap or parking leaves the whole word to be
issued again. -/
def execDualWord (hi lo : Half) (s : State) : Out :=
  issue s (admits s false (halfRegs hi ++ halfRegs lo)) (fun s =>
    let rh := halfResult s hi
    let rl := halfResult s lo
    let target := halfTarget s lo
    let fin (m : Option (Reg × Word)) (s : State) : State :=
      let s := putHalf (putHalf (putHalf s m) rh) rl
      match target with
      | some t => jump s t
      | none => advance s
    if hi.isMem then halfAccess s fin hi else halfAccess s fin lo)

end Sys2Proof.Machine
end

