-- ==== Sys2Proof/Machine/Launch.lean ====
section
/-! DEFINITION. A context as the keeper makes it (R112, R350), and a machine with one context, one bound hardware context
and one word in its code heap: the load that stands before a program's first instruction (log 7). -/

namespace Sys2Proof.Machine

/-- The error counts of a context, all zero (Table 13.8). -/
def Ctx.noErrs : Vector Nat 10 := Vector.replicate 10 0

/-- A context with nothing in it (R349): its code heap descriptor holds X and R (Table 6.2), TVEC and SMVEC are 0. -/
def Ctx.fresh (tenant : Nat) (heap : Seg) (root aper port version : Nat) : Ctx :=
  { tenant := tenant, wanted := [], heap := heap, tvec := 0, smvec := 0, root := root, aper := aper, port := port, maps := []
    images := [], heapUsed := [], kernels := [], symbols := [], objects := 0, tainted := [], data := [], gangs := []
    gangSeq := 0, succs := [], ended := [], acked := version, arrears := none, suspended := false, frozen := none
    sealed := false, errs := Ctx.noErrs, allow := [], reports := [], saved := [], savedRets := [], savedCopies := []
    savedBarriers := [], unbinding := [] }

/-- The state with one context in place and the word at offset 0 of its code heap, page 16 of memory, through tables in
pages 1 to 4; the thread of core 0's hardware context 0, the one task of gang 0, stands at the word and is scheduled. -/
def placeWord (s : State) (w : Word) : State :=
  let heap : Seg := { base := 0, limit := 4096, r := true, w := false, x := true, v := false }
  let entry : SlotEntry := { SlotEntry.zero with dw0 := BitVec.ofNat 64 (2 ^ 63 + 2 ^ 32 + 2 ^ 16 + 64), dw3 := 1 }
  let x : Thread := { Thread.start with hart := { Hart.zero with segs := Hart.zero.segs.set 0 heap } }
  let record : List Word := [BitVec.ofNat 64 (2 ^ 56), 0, 0, 0, 0, 0, 0, 0]
  let table (n next : Nat) : Nat × Word := (n * 4096, ptEntry (next * 4096) 0 false false false true)
  { s with
    keeper := { s.keeper with on := true, booted := true, frames := kset s.keeper.frames 16 0 }
    schedule := [.word (.thread 0) false]
    mem := s.mem.setAll ((span (16 * 4096) 8).zip (leBytes 8 w.toNat))
    pt := [table 1 2, table 2 3, table 3 4, (4 * 4096, ptEntry (16 * 4096) 1 true false true true)].foldl
      (fun m p => kset m p.1 p.2) s.pt
    ctxs := kset s.ctxs 0 { Ctx.fresh 0 heap 1 0 0 s.keeper.version with
      gangs := [(0, { Gang.start record none 0 with next := 1, live := 1 })] }
    tasks := kset s.tasks 0 { Task.none with started := s.time }
    nextId := max 1 s.nextId
    pools := kset s.pools 0 { pool s 0 with slots := kset (pool s 0).slots 0 entry }
    threads := kset s.threads 0 x }

end Sys2Proof.Machine
end

