-- ==== Sys2Proof/Machine/VecArith.lean ====
section
/-! DEFINITION. The element-wise vector instructions: floating (R210), integer (R212) and conversions (R213), with the
scalar form of R211. -/

namespace Sys2Proof.Machine

/-- Whether a class V word's rounding code may issue with FCSR as it is; `narrow` for a narrowing conversion (R39). -/
def rndV (s : State) (f : VFields) (narrow : Bool) : Bool := narrow || rndAdmits (my s) f.rnd

/-- Operand b of an element-wise word (R211): the scalar in the scalar form, else the element of vB. -/
def operandB (s : State) (f : VFields) (e : Nat) : Nat :=
  if f.ext.getLsbD 0 then (reg s f.s).toNat % 2 ^ cbits f.fmt.toNat else elem (my s) f.vb f.fmt.toNat e

/-- Results of a compare written to a mask: active elements' bits, and zeros above bit n − 1 of the bytes of the strip
(R210). -/
def putCompare (fmt m : Nat) (l : List (Nat × Bool)) (x : Thread) : Thread :=
  let x := l.foldl (putBit fmt m) x
  { x with slots := x.slots.mapIdx (fun j sl =>
      if j < x.vl then { sl with m := sl.m.set! m (sl.m.toList.getD m 0 &&& BitVec.ofNat 8 (2 ^ perSlot fmt - 1)) } else sl) }

/-- Flags of a list of results. -/
def flagsOf {α : Type} (l : List (α × Flags)) : Flags := l.foldl (fun a p => a ||| p.2) 0

/-- An element-wise floating word (R210): `r` gives an element's result and flags. -/
def vecFloat (f : VFields) (vs : List VReg) (r : State → RMode → Nat → Nat × Flags)
    (put : Nat → List (Nat × Nat) → Thread → Thread) (s : State) : Out :=
  issueV s true [f.s] vs (fun s =>
    if !rndV s f false then takeIll s else
    let es := actives (my s) f
    let rs := es.map (r s (modeOf (rndOf (my s) f.rnd)))
    floatEnd s (flagsOf rs) (fun s => advance (modMy s (put f.fmt.toNat (es.zip (rs.map (·.1)))))))

/-- Elements written to vD. -/
def putVd (f : VFields) (fmt : Nat) (l : List (Nat × Nat)) (x : Thread) : Thread := putElems fmt f.vd x l
/-- Mask bits written to mD. -/
def putMd (f : VFields) (fmt : Nat) (l : List (Nat × Nat)) (x : Thread) : Thread :=
  putCompare fmt f.vd.toNat (l.map (fun p => (p.1, p.2 == 1))) x

/-- The value of element e of a register. -/
def fval (s : State) (f : VFields) (r : VReg) (e : Nat) : FVal :=
  fdecode (fmtOf f.fmt.toNat) (elem (my s) r f.fmt.toNat e)
/-- The value of operand b. -/
def fvalB (s : State) (f : VFields) (e : Nat) : FVal := fdecode (fmtOf f.fmt.toNat) (operandB s f e)

/-- A floating word of two operands. -/
def vecFloat2 (op : Fmt → RMode → FVal → FVal → Nat × Flags) (f : VFields) (s : State) : Out :=
  vecFloat f [f.vd, f.va, f.vb] (fun s m e => op (fmtOf f.fmt.toNat) m (fval s f f.va e) (fvalB s f e)) (putVd f) s

/-- A fused word (R73). -/
def vecFused (sub : Bool) (f : VFields) (s : State) : Out :=
  vecFloat f [f.vd, f.va, f.vb, f.vc]
    (fun s m e => ffma (fmtOf f.fmt.toNat) m (fval s f f.va e) (fvalB s f e) (fval s f f.vc e) sub) (putVd f) s

/-- A floating compare (R61). -/
def vecFcmp (k : Nat) (f : VFields) (s : State) : Out :=
  vecFloat f [f.va, f.vb] (fun s _ e =>
    let r := fcmp k (fval s f f.va e) (fvalB s f e)
    (if r.1 then 1 else 0, r.2)) (putMd f) s

/-- An integer word (R212): `r` gives the low bits of an element's result from a and b. -/
def vecInt (f : VFields) (vs : List VReg) (r : Nat → Nat → Nat → Nat)
    (put : Nat → List (Nat × Nat) → Thread → Thread) (s : State) : Out :=
  issueV s true [f.s] vs (fun s =>
    let fmt := f.fmt.toNat
    let l := (actives (my s) f).map (fun e => (e, r fmt (elem (my s) f.va fmt e) (operandB s f e)))
    advance (modMy s (put fmt l)))

/-- An integer word of vD. -/
def vecInt2 (r : Nat → Nat → Nat → Nat) (f : VFields) (s : State) : Out :=
  vecInt f [f.vd, f.va, f.vb] r (putVd f) s

/-- A result computed on the operands as the format's integers, wrapped (R57). -/
def onInts (op : Int → Int → Int) (fmt a b : Nat) : Nat := wrap (cbits fmt) (op (intOf fmt a) (intOf fmt b))
/-- A saturated result (R57). -/
def onIntsSat (op : Int → Int → Int) (fmt a b : Nat) : Nat :=
  wrap (cbits fmt) (clampTo fmt (op (intOf fmt a) (intOf fmt b)))
/-- A shift's amount: the low log2(N) bits (R57). -/
def shiftOf (fmt b : Nat) : Nat := b % cbits fmt
/-- The bits as a signed integer of the container's width. -/
def signedOf (c a : Nat) : Int := if a.testBit (c - 1) then (a : Int) - (2 ^ c : Nat) else a

/-- VFADD (R210). -/
def execVfadd (f : VFields) (s : State) : Out := vecFloat2 fadd f s

/-- VFSUB (R210). -/
def execVfsub (f : VFields) (s : State) : Out := vecFloat2 fsub f s

/-- VFMUL (R210). -/
def execVfmul (f : VFields) (s : State) : Out := vecFloat2 fmul f s

/-- VFDIV (R210). -/
def execVfdiv (f : VFields) (s : State) : Out := vecFloat2 fdiv f s

/-- VFSQRT (R210). -/
def execVfsqrt (f : VFields) (s : State) : Out :=
  vecFloat f [f.vd, f.va] (fun s m e => fsqrt (fmtOf f.fmt.toNat) m (fval s f f.va e)) (putVd f) s

/-- VFMA (R210). -/
def execVfma (f : VFields) (s : State) : Out := vecFused false f s

/-- VFMS (R210). -/
def execVfms (f : VFields) (s : State) : Out := vecFused true f s

/-- VFMIN (R61). -/
def execVfmin (f : VFields) (s : State) : Out := vecFloat2 (fun g _ => fminmax g false) f s

/-- VFMAX (R61). -/
def execVfmax (f : VFields) (s : State) : Out := vecFloat2 (fun g _ => fminmax g true) f s

/-- VFCMPEQ (R61). -/
def execVfcmpeq (f : VFields) (s : State) : Out := vecFcmp 0 f s

/-- VFCMPLT (R61). -/
def execVfcmplt (f : VFields) (s : State) : Out := vecFcmp 1 f s

/-- VFCMPLE (R61). -/
def execVfcmple (f : VFields) (s : State) : Out := vecFcmp 2 f s

/-- VADD (R212). -/
def execVadd (f : VFields) (s : State) : Out := vecInt2 (onInts (fun a b => a + b)) f s

/-- VSUB (R212). -/
def execVsub (f : VFields) (s : State) : Out := vecInt2 (onInts (fun a b => a - b)) f s

/-- VMUL (R212). -/
def execVmul (f : VFields) (s : State) : Out := vecInt2 (onInts (fun a b => a * b)) f s

/-- VMULH (R212): the high half of the exact product. -/
def execVmulh (f : VFields) (s : State) : Out :=
  vecInt2 (fun fmt a b => wrap (cbits fmt) (intOf fmt a * intOf fmt b / (2 ^ cbits fmt : Nat))) f s

/-- VDIV (R212): a quotient of every bit set on division by zero (R57). -/
def execVdiv (f : VFields) (s : State) : Out := vecInt2 (onInts (fun a b => if b = 0 then -1 else a.tdiv b)) f s

/-- VREM (R212): the dividend on division by zero (R57). -/
def execVrem (f : VFields) (s : State) : Out := vecInt2 (onInts (fun a b => if b = 0 then a else a.tmod b)) f s

/-- VAND (R212). -/
def execVand (f : VFields) (s : State) : Out := vecInt2 (fun _ a b => a &&& b) f s

/-- VOR (R212). -/
def execVor (f : VFields) (s : State) : Out := vecInt2 (fun _ a b => a ||| b) f s

/-- VXOR (R212). -/
def execVxor (f : VFields) (s : State) : Out := vecInt2 (fun _ a b => a ^^^ b) f s

/-- VSLL (R212). -/
def execVsll (f : VFields) (s : State) : Out := vecInt2 (fun fmt a b => a * 2 ^ shiftOf fmt b % 2 ^ cbits fmt) f s

/-- VSRL (R212). -/
def execVsrl (f : VFields) (s : State) : Out := vecInt2 (fun fmt a b => a / 2 ^ shiftOf fmt b) f s

/-- VSRA (R212): copies of bit N − 1 come in, in i and n formats alike. -/
def execVsra (f : VFields) (s : State) : Out := vecInt2 (fun fmt a b => wrap (cbits fmt) (signedOf (cbits fmt) a / (2 ^ shiftOf fmt b : Nat))) f s

/-- VMIN (R212). -/
def execVmin (f : VFields) (s : State) : Out := vecInt2 (onInts (fun a b => min a b)) f s

/-- VMAX (R212). -/
def execVmax (f : VFields) (s : State) : Out := vecInt2 (onInts (fun a b => max a b)) f s

/-- VCMPEQ (R212). -/
def execVcmpeq (f : VFields) (s : State) : Out :=
  vecInt f [f.va, f.vb] (fun _ a b => if a = b then 1 else 0) (putMd f) s

/-- VCMPLT (R212). -/
def execVcmplt (f : VFields) (s : State) : Out :=
  vecInt f [f.va, f.vb] (fun fmt a b => if intOf fmt a < intOf fmt b then 1 else 0) (putMd f) s

/-- VADDS (R212). -/
def execVadds (f : VFields) (s : State) : Out := vecInt2 (onIntsSat (fun a b => a + b)) f s

/-- VSUBS (R212). -/
def execVsubs (f : VFields) (s : State) : Out := vecInt2 (onIntsSat (fun a b => a - b)) f s

/-! ### Conversions -/

/-- One element converted (R213): `src` and `dst` are format codes. -/
def convert (src dst : Nat) (sat : Bool) (m : RMode) (v : Nat) : Nat × Flags :=
  let c := cbits dst
  if isInt src then
    if isInt dst then (wrap c (if sat then clampTo dst (intOf src v) else intOf src v), 0)
    else fcvtFromInt (fmtOf dst) m (intOf src v)
  else if isInt dst then
    let r := fcvtInt c (isSigned dst) m (fdecode (fmtOf src) v)
    (wrap c r.1, r.2)
  else fcvt (fmtOf dst) m (fdecode (fmtOf src) v)

/-- The generator of an element's destination slot stepped (R69): the draw, and the thread after it. -/
def drawRst (fmt e : Nat) (x : Thread) : Nat × Thread :=
  let j := e / perSlot fmt
  match x.slots[j]? with
  | some sl => ((rstStep sl.rst).toNat, modSlot x j (fun sl => { sl with rst := rstStep sl.rst }))
  | none => (0, x)

/-- Elements converted in ascending order: `conv` gives the result from the mode and the element, and under RST the
generator steps for each (R69). -/
def convertAll (rst : Bool) (m : RMode) (dst : Nat) (conv : RMode → Nat → Nat × Flags) :
    List Nat → Thread → List (Nat × Nat × Flags) × Thread
  | [], x => ([], x)
  | e :: r, x =>
    let (g, x) := if rst then drawRst dst e x else (0, x)
    let v := conv (if rst then .rst g else m) e
    let (l, x) := convertAll rst m dst conv r x
    ((e, v) :: l, x)

/-- Whether a pair narrows the fraction, so that RST is admitted (R69). -/
def narrows (src dst : Nat) : Bool := decide (8 ≤ dst) && decide (fracBits dst < fracBits src)

/-- VCVT (R213). -/
def execVcvt (f : VFields) (s : State) : Out :=
  issueV s true [] [f.vd, f.va] (fun s =>
    let dst := f.fmt.toNat
    let src := (f.ext.extractLsb' 0 5).toNat
    if !rndV s f (narrows src dst) then takeIll s else
    let x := my s
    let code := rndOf x f.rnd
    let es := activeIn x f dst (x.vl * min (perSlot dst) (perSlot src))
    let (l, x') := convertAll (code == 4) (modeOf code) dst
      (fun m e => convert src dst (f.ext.getLsbD 5) m (elem x f.va src e)) es x
    floatEnd s (flagsOf (l.map (·.2))) (fun s =>
      advance (modMy s (fun y => putElems dst f.vd { y with slots := x'.slots } (l.map (fun p => (p.1, p.2.1)))))))

end Sys2Proof.Machine
end

