-- ==== Sys2Proof/Machine/Matrix.lean ====
section
/-! DEFINITION. Matrix gangs: forming, shaping and leaving a gang (R224 to R227), the matrix words (R228 to R234), and how
the gang performs them (R235 to R237). -/

namespace Sys2Proof.Machine

/-! ### Performing a matrix word -/

/-- An accumulator of a thread (R221). -/
def accOf (x : Thread) (k : Nat) : List (BitVec 32) := if k = 0 then x.acc0 else x.acc1
/-- An accumulator replaced. -/
def setAcc (x : Thread) (k : Nat) (l : List (BitVec 32)) : Thread := if k = 0 then { x with acc0 := l } else { x with acc1 := l }

/-- The value of operand element `i` (R228, R230): SX elements under their block's entry. -/
def operandVal (fmt : Nat) (sc : KMap (BitVec 16)) (l : List (BitVec 32)) (i : Nat) : FVal :=
  let v := elemIn l fmt i
  if 13 ≤ fmt then
    let ent := kget sc (i / 16) 0
    sxVal fmt (ent.extractLsb' 0 8).toNat (ent.extractLsb' 8 8).toNat (i % 16) v
  else fdecode (fmtOf fmt) v

/-- One element of an outer product (R229): the accumulator's word with every K step's product added, rounded once. -/
def outerElem (neg : Bool) (fmt rnd : Nat) (sa sb : KMap (BitVec 16)) (abs : List (List (BitVec 32) × List (BitVec 32)))
    (old : BitVec 32) (i j : Nat) : BitVec 32 × Flags :=
  if isInt fmt then
    let p := (abs.map (fun ab => intOf fmt (elemIn ab.1 fmt i) * intOf fmt (elemIn ab.2 fmt j))).sum
    (BitVec.ofInt 32 (if neg then old.toInt - p else old.toInt + p), 0)
  else
    let ps := abs.map (fun ab => fprod (operandVal fmt sa ab.1 i) (operandVal fmt sb ab.2 j))
    let r := fsum fmtF32 (modeOf rnd) (ps.any (·.2))
      (fdecode fmtF32 old.toNat :: ps.map (fun p => if neg then fnegate p.1 else p.1))
    (BitVec.ofNat 32 r.1, r.2)

/-- An accumulator after an outer product, with the flags raised: rows from MM and columns from MN are undisturbed. -/
def outerAll (x : Thread) (k : Nat) (neg : Bool) (fmt rnd : Nat) (a b : List (List (BitVec 32)))
    (sa sb : KMap (BitVec 16)) : List (BitVec 32) × Flags :=
  let l := (accOf x k).mapIdx (fun n old =>
    if n / x.mvl < x.mm && n % x.mvl < x.mn && !a.isEmpty then
      outerElem neg fmt rnd sa sb (a.zip b) old (n / x.mvl) (n % x.mvl)
    else (old, 0))
  (l.map (·.1), flagsOf l)

/-- The word of an accumulator at (i, j). -/
def accAt (x : Thread) (k i j : Nat) : Nat := ((accOf x k).getD (i * x.mvl + j) 0).toNat

/-- Thread t performs a matrix word (R228 to R233): the state it commits, and the flags it raises. -/
def performMat (s : State) (t : Nat) (op : MatOp) : State × Flags :=
  let x := thr s t
  match op with
  | .zero k => (setThr s t (setAcc x k (List.replicate (x.mvl * x.mvl) 0)), 0)
  | .outer k neg fmt rnd a b sa sb =>
    let r := outerAll x k neg fmt rnd a b sa sb
    (setThr s t (setAcc x k r.1), r.2)
  | .moveRow k vd row act =>
    (setThr s t (putElems 0 (BitVec.ofNat 5 vd) x (act.map (fun j => (j, accAt x k row j)))), 0)
  | .moveCol k vd col act =>
    (setThr s t (putElems 0 (BitVec.ofNat 5 vd) x (act.map (fun i => (i, accAt x k i col)))), 0)
  | .loadRow k row vals =>
    (setThr s t (setAcc x k (vals.foldl (fun l p => l.set (row * x.mvl + p.1) (BitVec.ofNat 32 p.2)) (accOf x k))), 0)
  | .spill k off => (asAgent s (.thread t) (fun s => writeWindow s off ((accOf x k).map (·.toNat))), 0)
  | .fill k off =>
    let l := readWindow { s with cur := .thread t } off (x.mvl * x.mvl)
    (setThr s t (setAcc x k (l.map (BitVec.ofNat 32))), 0)

/-- The gang commits the first word of thread t's queue (R235, R236). A long word that raises an enabled flag commits
nothing and takes FPE as its registers return; otherwise its thread goes on. A word waits while a lane it needs is owed (R239). It
commits nothing where the lane's state is lost (R132, R189), nor where it is long and its context freezes before a block comes free
(Table 8.3). -/
def completeMat (s : State) (t : Nat) : State :=
  match (thr s t).mqueue with
  | [] => s
  | w :: rest =>
    let (s', fl) := performMat s t w.op
    let pop (s : State) : State := modThr s t (fun x => addFlags { x with mqueue := rest } fl)
    if (thr s t).dead || (w.long && !(thr s t).lost.isEmpty && frozenCtx s (thr s t).ctx) then modThr s t (fun x => { x with mqueue := rest, cond := if w.long then .waiting else x.cond })
    else if !(thr s t).lost.isEmpty && !frozenCtx s (thr s t).ctx then owe s [ev .matrixWordComplete t]
    else if !w.long then pop s'
    else if enabledOf (thr s t) &&& fl ≠ 0 then trapThread (pop s) t 0xA fl 0
    else asAgent (pop s') (.thread t) advance

/-- Up to `n` words of thread t's queue are performed. -/
def drainMat (t : Nat) : Nat → State → State
  | 0, s => s
  | n + 1, s => drainMat t n (completeMat s t)

/-! ### Issuing matrix words -/

/-- A matrix word that needs a gang (R234). -/
def issueM (s : State) (rs : List Reg) (vs : List VReg) (f : State → State) : Out :=
  issueV s true rs vs (fun s => if (my s).mvl = 0 then takeIll s else f s)

/-- A short word enters the matrix queue of four (R235). -/
def shortWord (op : MatOp) (s : State) : State :=
  let t := me s
  if 4 ≤ (my s).mqueue.length then waitHere s
  else
    let w : MatWord := { op := op, long := false, pc := pcOf s }
    let s := advance (modMy s (fun x => { x with mqueue := x.mqueue ++ [w] }))
    if s.defer then owe s [ev .matrixWordComplete t] else drainMat t (thr s t).mqueue.length s

/-- A long word waits for the queue to empty, then the gang has the thread's registers until it completes (R235). -/
def longWord (op : MatOp) (s : State) : State :=
  let t := me s
  if !(my s).mqueue.isEmpty then waitHere s
  else
    let w : MatWord := { op := op, long := true, pc := pcOf s }
    let s := setCond (modMy s (fun x => { x with mqueue := [w] })) (.inEngine s.ir)
    if s.defer then owe s [ev .matrixWordComplete t] else completeMat s t

/-- MOPA, MOPS and MOPA8 (R229): `k` registers of each operand. -/
def outer (f : VFields) (neg mopa8 : Bool) (s : State) : Out :=
  let k := if mopa8 then (my s).mkk else 1
  let run (r : VReg) : List VReg := (List.range k).map (fun i => r + BitVec.ofNat 5 i)
  issueM s [] (run f.va ++ run f.vb) (fun s =>
    if !rndV s f false then takeIll s else
    let x := my s
    let sc (lo : Nat) : KMap (BitVec 16) := if 13 ≤ f.fmt.toNat then x.sc.toList.getD (f.ext.extractLsb' lo 2).toNat [] else []
    let op : MatOp := .outer f.vd.toNat neg f.fmt.toNat (rndOf x f.rnd) ((run f.va).map (vreg x)) ((run f.vb).map (vreg x))
      (sc 0) (sc 2)
    if mopa8 || enabledOf x ≠ 0 then longWord op s else shortWord op s)

/-- MZERO (R231). -/
def execMzero (f : VFields) (s : State) : Out := issueM s [] [] (shortWord (.zero f.vd.toNat))
/-- MOPA (R229). -/
def execMopa (f : VFields) (s : State) : Out := outer f false false s
/-- MOPA8 (R229). -/
def execMopa8 (f : VFields) (s : State) : Out := outer f false true s
/-- MOPS (R229). -/
def execMops (f : VFields) (s : State) : Out := outer f true false s

/-- A move of a row or column; its index is below MVL (R231). -/
def accMove (f : VFields) (vs : List VReg) (op : Thread → Nat → MatOp) (s : State) : Out :=
  issueM s [f.s] vs (fun s =>
    let i := (reg s f.s).toNat
    if (my s).mvl ≤ i then takeIll s else shortWord (op (my s) i) s)

/-- MVACC (R231). -/
def execMvacc (f : VFields) (s : State) : Out :=
  accMove f [f.vd] (fun x i => .moveRow f.va.toNat f.vd.toNat i ((actives x f).filter (· < x.mn))) s
/-- MVCOL (R231). -/
def execMvcol (f : VFields) (s : State) : Out :=
  accMove f [f.vd] (fun x j => .moveCol f.va.toNat f.vd.toNat j ((actives x f).filter (· < x.mm))) s
/-- MLDACC (R231). -/
def execMldacc (f : VFields) (s : State) : Out :=
  accMove f [f.va] (fun x i => .loadRow f.vd.toNat i
    (((actives x f).filter (· < x.mn)).map (fun j => (j, elem x f.va f.fmt.toNat j)))) s

/-- A whole accumulator moved through the LSP window (R233). -/
def windowMove (f : VFields) (acc : Nat) (op : Nat → MatOp) (s : State) : Out :=
  issueM s [f.s] [] (fun s =>
    let off := reg s f.s
    match windowCause s off (4 * ((my s).mvl * (my s).mvl)) 128 acc with
    | some c => takeCause s c
    | none => longWord (op off.toNat) s)

/-- MSPILL (R233). -/
def execMspill (f : VFields) (s : State) : Out := windowMove f 1 (.spill f.va.toNat) s
/-- MFILL (R233). -/
def execMfill (f : VFields) (s : State) : Out := windowMove f 0 (.fill f.vd.toNat) s

/-! ### Forming, shaping and leaving a gang -/

/-- The thread holds a gang of edge `g` on these lanes: its accumulators start at zero (R225, R226, R232). -/
def formGang (g : Nat) (lanes : List Nat) (x : Thread) : Thread :=
  { x with gvl := g * g, lanes := lanes, mvl := 8 * g, vl := min x.vl (g * g), mm := 0, mn := 0, mkk := 0
           acc0 := List.replicate (64 * g * g) 0, acc1 := List.replicate (64 * g * g) 0 }

/-- The gang of a thread takes a block of another edge or place; lanes left are free for others. -/
def takeBlock (s : State) (g : Nat) (lanes : List Nat) : State :=
  wakePool (traceGrant s (modMy s (formGang g lanes))) (myPool s)

/-- The gang edges, from the largest. -/
def edges : List Nat := [32, 16, 8, 4, 2]

/-- The largest edge whose square is at most `n`. -/
def edgeCap (n : Nat) : Option Nat := edges.find? (fun g => decide (g * g ≤ n))

/-- The first edge of a list at which a gang fits thread `t` and a block is free (R220, R225). -/
def findGang (s : State) (t : Nat) (gs : List Nat) : Option (Nat × List Nat) :=
  gs.findSome? (fun g => if gangFits s t g then (firstBlock s t g).map (fun b => (g, b)) else none)

/-- MMODE (R225). VL stays at most GVL where it forms no gang and its grant point takes lanes away (R167). A gang is asked of a Kennel
that is live (R23; log 36), and so it is by TSHAPE. -/
def execMmode (f : VFields) (s : State) : Out :=
  issueV s true [f.s, extReg f] [] (fun s =>
    let t := me s
    if !settled (my s) then waitHere s
    else if (my s).mvl ≠ 0 then advance (setReg s f.s (BitVec.ofNat 64 ((my s).mvl / 8)))
    else if !poolLive s then waitHere s
    else
      let g := ((edges.find? (fun g => decide (g ≤ min (max (reg s (extReg f)).toNat 2) 32))).getD 2)
      let s' := settlePool (setRequest s t (min (max (my s).rq (g * g)) (my s).vceil)) (myPool s)
      let pick := match edgeCap (min (my s').ent (my s').vceil) with
        | some cap => findGang s' t (edges.filter (· ≤ min g cap))
        | none => none
      match pick with
      | some (g2, b) => advance (setReg (takeBlock s' g2 b) f.s (BitVec.ofNat 64 g2))
      | none => match regrant s' with
        | some s'' => advance (setReg (modMy s'' (fun x => { x with vl := min x.vl x.gvl })) f.s 0)
        | none => setCond s .parkedGrant)

/-- The smallest edge that a tile needs (R226). -/
def edgeNeed (fmt m : Nat) : Nat :=
  (edges.reverse.find? (fun h => decide (m ≤ 8 * h) && decide (m ≤ h * h * perSlot fmt))).getD 32

/-- The gang fitted to a tile (R226): smaller at the same corner, or larger where a block is found. -/
def reshape (s : State) (want : Nat) : State :=
  let x := my s
  let g := x.mvl / 8
  if want < g then
    takeBlock s want ((List.range (want * want)).map (fun j => x.lanes.getD (j / want * g + j % want) 0))
  else
    match findGang s (me s) (edges.filter (fun h => decide (2 * g ≤ h ∧ h ≤ want))) with
    | some (h, b) => takeBlock s h b
    | none => s

/-- TSHAPE (R226). -/
def execTshape (f : VFields) (s : State) : Out :=
  issueM s [f.s, extReg f] [] (fun s =>
    if !settled (my s) || !poolLive s then waitHere s
    else
      let v := reg s (extReg f)
      let m := field v 0 16
      let n := field v 16 16
      let k := field v 32 16
      let fmt := f.fmt.toNat
      let cap := (edgeCap (min (my s).ent (my s).vceil)).getD 2
      let s := reshape (settlePool s (myPool s)) (min (edgeNeed fmt (max m n)) cap)
      let x := my s
      let per := x.gvl * perSlot fmt
      let mm := min m (min x.mvl per)
      let mn := min n (min x.mvl per)
      let s := modMy s (fun x => { x with mm := mm, mn := mn, mkk := min k 8 })
      advance (setReg s f.s
        (BitVec.ofNat 64 (mm + mn * 2 ^ 16 + min k 8 * 2 ^ 32 + x.mvl / 8 * 2 ^ 48))))

/-- MEXIT (R227). The gang's lanes stay with the thread, and no longer block the gangs of others (R220), which are placed (R239,
R240). -/
def execMexit (s : State) : Out :=
  issueV s true [] [] (fun s =>
    if (my s).mvl = 0 then advance s
    else if !(my s).mqueue.isEmpty then waitHere s
    else advance (wakePool (modMy s leaveGang) (myPool s)))

end Sys2Proof.Machine
end

