-- ==== Sys2Proof/Machine/Responses.lean ====
section
/-! DEFINITION. Responses that reach agents after their words were accepted (R103, R121, R149, R184, R209, R235), stores
acknowledged (R272) and queued writes leaving a die (R274), and the service of scope misses (R93 to R95, R133). -/

namespace Sys2Proof.Machine

/-- The condition of an agent. -/
def condOf (s : State) : Agent → Cond
  | .thread t => (thr s t).cond
  | .ret n => (ret s n).cond
/-- Whether an agent is there. -/
def hasAgent (s : State) : Agent → Bool
  | .thread t => hasThr s t
  | .ret n => (kfind s.rets n).isSome

/-- The bytes of an accepted load as its response brings them (R121): an acquire is judged as they arrive (R93), and a byte of host
or peer memory that is refused or gone by then takes SEGV of sub-kind 3 (R352). -/
def loadArrives (s : State) (sg cva : Nat) (pas : List Nat) (acq : Bool) (fin : State → List Byte → State) : State :=
  let refs := latchedRefs s (myCtx s) cva (if acq then 1 else 2) pas
  match refs.find? (fun r => r.pa / 2 ^ 46 == 1 && !r.has) with
  | some r => takeTrap s 2 (segvInfo 3 sg 0) (BitVec.ofNat 64 r.cva)
  | none => readBytes s acq refs fin

/-- LOAD_RESPONSE (R121): the value of an accepted load or SEGLD arrives. -/
def execLoadResponse (s : State) : Out :=
  let a := s.msg.agent
  if !hasAgent s a then .next s else
  match condOf s a with
  | .awaiting (.load d sg cva pas sext acq) => .next (respond s a (fun s => loadArrives s sg cva pas acq (loadDone d sext)))
  | .awaiting (.segld g sg off cva pas) => .next (respond s a (fun s => loadArrives s sg cva pas false (segldDone g sg off)))
  | _ => .next s

/-- The address and old value of each element whose response is lost, the lowest element first (R209). -/
def lostElems (olds : List (Nat × Nat × BitVec 32)) (lost : List Nat) : List (Nat × BitVec 32) :=
  (olds.filter (fun p => lost.contains p.1)).map (·.2)

/-- ATOMIC_RESPONSE (R103, R209, R313): an atomic's response arrives; where it is lost, its effect stands, the outcome is
logged, and the issuer takes ATOMLOST. -/
def execAtomicResponse (s : State) : Out :=
  let a := s.msg.agent
  let lost := s.msg.flag
  let which := s.msg.nats
  if !hasAgent s a then .next s else
  match condOf s a with
  | .awaiting (.atomic d res old cas wide tval time join) =>
    .next (respond s a (fun s =>
      if lost then
        let r := byteRef s (myCtx s) tval
        takeTrap (logOutcome s a r.loc tval cas false wide time old) 6 0 (BitVec.ofNat 64 tval)
      else advance (setReg (joinOps s s.cur join) d res)))
  | .awaiting (.vamo vd fmt olds time) =>
    .next (respond s a (fun s =>
      match lostElems olds which with
      | [] => vamoDone vd fmt olds s
      | (cva, v) :: rest =>
        let s := ((cva, v) :: rest).foldl (fun (s : State) (p : Nat × BitVec 32) =>
          logOutcome s a (byteRef s (myCtx s) p.1).loc p.1 false true false time (p.2.signExtend 64)) s
        takeTrap s 6 0 (BitVec.ofNat 64 cva)))
  | _ => .next s

/-- VECTOR_LOAD_ARRIVAL (R184): the elements of a thread's oldest accepted vector load are written. -/
def execVectorLoadArrival (s : State) : Out :=
  let t := s.msg.a
  match (thr s t).vloads with
  | [] => .next s
  | l :: rest => .next (modThr s t (fun x => putElems l.fmt (BitVec.ofNat 5 l.vd) { x with vloads := rest } l.elems))

/-- MATRIX_WORD_COMPLETE (R235): the gang commits the first word of a thread's matrix queue. -/
def execMatrixWordComplete (s : State) : Out :=
  if hasThr s s.msg.a then .next (respond s (.thread s.msg.a) (fun s => completeMat s s.msg.a)) else .next s

/-- PGINV_COMPLETE (R149): the invalidation completes once every access made under the old mapping is performed. The thread of a
context that has frozen stays before the word, and so does one that is being unbound (Table 5.10). -/
def execPginvComplete (s : State) : Out :=
  let t := s.msg.a
  match (thr s t).cond with
  | .awaiting (.pginv lo n) =>
    if frozenCtx s (thr s t).ctx then .next s
    else if !boundHere s t || pginvBusy s (thr s t).ctx lo n then .next (owe s [ev .pginvComplete t])
    else .next (respond s (.thread t) advance)
  | _ => .next s

/-- The place in the pending stores of the k-th of an agent. -/
def kthStore (s : State) (a : Agent) (k : Nat) : Option Nat :=
  ((List.range s.stores.length).filter (fun i => match s.stores[i]? with | some p => p.agent == a | none => false))[k]?

/-- STORE_ACKNOWLEDGED (R272): an accepted store of an agent is performed, once the stores it must follow have been; a plain store
of a UO page may be performed within its die alone, and for every other agent later (R91). A message with its flag names a write
that stands within a die so. -/
def execStoreAcknowledged (s : State) : Out :=
  let a := s.msg.agent
  let m := s.msg
  if m.flag then
    if (die s m.a).uoq.isEmpty then .next s
    else if mayLeave s m.a m.b then .next (leaveDie s m.a m.b)
    else .next (owe s [(.storeAcknowledged, { Msg.empty with a := m.a, flag := true })])
  else match kthStore s a m.a with
  | none => .next s
  | some i =>
    if !mayPerform s i then .next (owe s [(.storeAcknowledged, { Msg.empty with agent := a, a := m.a })])
    else match s.stores[i]? with
    | some p => if m.b = 1 && staysInDie p then .next (performInDie { s with stores := s.stores.eraseIdx i } p) else .next (performAt s i)
    | none => .next s

/-- HOST_WRITE_QUEUE_DRAIN (R274): the first write of a die's host queue, or of its Packlink queue, is performed at its memory.
Bytes that their peer refuses by then, or of a peer that is gone, are dropped, and counted for the context (R352). -/
def execHostWriteQueueDrain (s : State) : Out :=
  let d := s.msg.a
  match (if s.msg.flag then (die s d).peerq else (die s d).hostq) with
  | [] => .next s
  | w :: rest =>
    let ok (p : Nat × Byte) : Bool := match place s (p.1 % 2 ^ 50) with | .byte _ => true | _ => false
    let s' := modDie s d (fun x => if s.msg.flag then { x with peerq := rest } else { x with hostq := rest })
    let s' := if w.locs.all ok then s' else countErr s' w.ctx 5
    .next (endCover { s' with mem := s'.mem.setAll (w.locs.filter ok) } w.op)

/-! ### Scope misses -/

/-- ACQUIRE_REISSUE (R93): an acquire that was held may issue again. -/
def execAcquireReissue (s : State) : Out :=
  let a := s.msg.agent
  match condOf s a with
  | .heldAcquire _ => .next (asAgent s a (fun s => setCond s .waiting))
  | _ => .next s

/-- A message that waited at its router enters a core's queue as an entry frees (R94). -/
def fromRouter (s : State) (k : Nat) : State :=
  if 16 ≤ (core s k).smq.length then s else
  match s.router.find? (fun p => p.1 == k) with
  | none => s
  | some p => { modCore s k (fun x => { x with smq := x.smq ++ [p.2] }) with router := s.router.erase p }

/-- The service context's thread as its handler starts (R94, R133). g7 covers the whole address space with a LIMIT of 2^48 − 1, the
most that 48 bits hold, so that its last byte lies outside (DESIGN CHOICE, log 31). -/
def handlerThread (x : Ctx) (c : Nat) (m : ScopeMsg) (time : Nat) : Thread :=
  let g7 : Seg := { base := 0, limit := BitVec.allOnes 48, r := true, w := true, x := false, v := true }
  let h : Hart := { Hart.zero with pc := x.smvec, segs := (Hart.zero.segs.set 0 x.heap).set 7 g7 }
  let h := ((h.set 1 (BitVec.ofNat 64 m.cva)).set 2 (BitVec.ofNat 64 m.needed)).set 3 (BitVec.ofNat 64 m.markScope)
  { Thread.start with hart := h, ctx := c, status := 3, started := time }

/-- What becomes of the repair of a miss by the core itself: it waits, a page delays it, or it is done. -/
inductive Repair where
  | wait
  | delay
  | done (s : State)
  deriving DecidableEq, Repr

/-- The core repairs a miss itself (R95, R133 step 2): the marked doubleword is written back as read, by a CAS of order .ar at
package scope, or at peer scope where a peer waits, once the queued writes that the release covers are performed. An access that the
handler could not make is fatal as the handler's would be (R128); its EPC, which no word has, is a free value (log 13). -/
def repairMiss (s : State) (k : Nat) (m : ScopeMsg) : Repair :=
  let chk : Chk := { c := m.ctx, sg := 7, acc := 2, v := true, base := 0, frame := false, lost := none }
  let cvas := span m.cva 8
  let die_ (s : State) (code info : Nat) (tval : Word) : State :=
    let (epc, s) := drawWord s
    freeze s m.ctx { time := s.time, mapver := s.keeper.version, cause := causeWord code info, tval := tval, epc := epc
                     thread := k * 17 + 16, nfatal := 1 }
  match judge s chk cvas with
  | some (.park _) => .delay
  | some (.trap code info tval _) => .done (die_ s code info tval)
  | none =>
    let refs := cvas.map (byteRef s m.ctx)
    let r := byteRef s m.ctx m.cva
    if refs.any (fun r => poisoned s r.loc) then .done (die_ s 5 0 0)
    else if (coversAt s (refs.map (·.loc))).any (opQueued s) || !atomicUnitLive s r.loc then .wait
    else
      let s := recallUo s (fun _ => true) (refs.map (·.loc))
      let s := if inPools r.loc then s else
        logArrival s (tenantOf s m.ctx) 2 r.loc (r.cva / 256) (nativePa s r.loc % 256) 8 (some (m.ctx, false, k * 17 + 16))
      let s := writeHome s (.thread (k * 17 + 16)) (refs.map (fun r => (r.loc, s.mem.get r.loc))) r.cva .none true
      .done (putMark s (granule s r.loc) (if m.needed < 5 then
        some { scope := 4, core := k, ctx := m.ctx, dw := nativePa s r.loc % 256 / 8, cva := m.cva } else none))

/-- The first message of a core's queue that may be served: those of suspended contexts are passed over (R133 step 1). -/
def nextMiss (s : State) (k : Nat) : Option ScopeMsg := (core s k).smq.find? (fun m => !suspendedCtx s m.ctx)

/-- SCOPE_MISS_MESSAGE (R133): an idle service context takes its next message: dropped where its context is not bound to the
core or no longer lives, repaired where there is no handler, else handed to the handler. -/
def execScopeMissMessage (s : State) : Out :=
  let k := s.msg.a
  if (core s k).serving.isSome then .next s else
  let s := fromRouter s k
  match nextMiss s k with
  | none => .next s
  | some m =>
    let taken := fromRouter (modCore s k (fun x => { x with smq := x.smq.erase m })) k
    let more := [ev .scopeMissMessage k]
    match ctx? s m.ctx with
    | none => .next (owe taken more)
    | some x =>
      if x.frozen.isSome || (boundTo s k m.ctx).isEmpty then .next (owe taken more)
      else if x.smvec = 0 then
        match repairMiss taken k m with
        | .done s' => .next (owe s' more)
        | .delay => .next (owe (fileReport s m.ctx (m.cva / 4096)) more)
        | .wait => .next (owe s more)
      else
        let t := k * 17 + 16
        let s := modCore taken k (fun c => { c with serving := some m })
        let s := setThr s t (handlerThread x m.ctx m s.time)
        .next (pushTrace s k { time := s.time, kind := 7, code := m.needed, ctx := m.ctx, hw := 16, pc := x.smvec
                               data := BitVec.ofNat 64 m.cva })

/-! ### Wakes -/

/-- WAKE_MESSAGE (R122, R269): the threads and Retrievers of a context that are parked on a page issue their words again. A wake
that carries a failure, since the address has no mapping, is kept for the word that each issues then. -/
def execWakeMessage (s : State) : Out :=
  let c := s.msg.a
  let page := s.msg.b
  let code := s.msg.c
  if frozenCtx s c then .next s else
  let on (x : Cond) : Option Nat := match x with
    | .parkedPage cva => if cva / 4096 = page then some cva else none
    | _ => none
  let ts := s.threads.filterMap (fun p => if p.2.ctx = c then (on p.2.cond).map (fun cva => (p.1, cva)) else none)
  let rs := s.rets.filter (fun r => (on r.2.cond).isSome &&
    match r.2.owner with | some t => (thr s t).ctx == c | none => false)
  let lost := if code = 2 then some page else none
  let s := ts.foldl (fun (s : State) (p : Nat × Nat) =>
    let x := thr s p.1
    pushTrace (setThr s p.1 { x with cond := .waiting, noPage := lost }) (coreOf p.1)
      { time := s.time, kind := 4, code := code, ctx := c, hw := hwOf p.1, pc := x.hart.pc, data := BitVec.ofNat 64 p.2 }) s
  .next (rs.foldl (fun (s : State) (r : Nat × Retriever) => modRet s r.1 (fun x => { x with cond := .waiting, noPage := lost })) s)

/-! ### Lanes -/

/-- GRANT_WAKE (R176): a thread parked at a grant point that would now find a lane issues its word again. -/
def execGrantWake (s : State) : Out :=
  let t := s.msg.a
  if hasThr s t && (thr s t).cond == .parkedGrant && !frozenCtx s (thr s t).ctx && wakesAtGrant s t then
    .next (modThr s t (fun x => { x with cond := .waiting }))
  else .next s

/-- Whether a word that a thread waits at waits for tags, a barrier, a JOIN or an engine, and not for what its own earlier words bring
(R19, R177). -/
def waitsOutside (s : State) (t : Nat) (i : Instr) : Bool :=
  let x := thr s t
  let full := decide (4 ≤ x.mqueue.length)
  let exact_ := enabledOf x != 0 && !x.mqueue.isEmpty
  let array := !(die s (dieOf t)).sa.queue.isEmpty
  match i with
  | .waitany _ _ => true
  | .waitall _ _ => true
  | .sbwait _ _ _ => true
  | .join _ _ => true
  | .gbar _ => x.arrival.isSome
  | .cpy _ h => engineFull s t h
  | .cpy2 _ h => engineFull s t h
  | .cpyt _ h => engineFull s t h
  | .cpyg _ h => engineFull s t h
  | .cpyres h => engineFull s t h
  | .mzero _ => full
  | .mopa _ => full || exact_
  | .mops _ => full || exact_
  | .mvacc _ => full
  | .mvcol _ => full
  | .mldacc _ => full
  | .mopa8 _ => !x.mqueue.isEmpty
  | .mspill _ => !x.mqueue.isEmpty
  | .mfill _ => !x.mqueue.isEmpty
  | .sarel => array
  | .saload => array
  | .saseed => array
  | .sabeta => array
  | .sasweep => array
  | .saclamp => array
  | .saread => array
  | .sacount => array
  | .sawait => array
  | _ => false

/-- Whether a thread is where the Kennel may move its slices: parked on a page or an engine, or waiting on tags, a stage barrier, a
JOIN or a gang barrier (R177). -/
def movable (s : State) (t : Nat) : Bool :=
  match (thr s t).cond with
  | .parkedPage _ => true
  | .inEngine _ => true
  | .awaiting (.pginv _ _) => true
  | .waiting => match wordAt s t with
    | some (_, i) => waitsOutside s t i
    | none => false
  | _ => false

/-- Whether a list of lanes may take all of a thread's slots (R174, R177, R218). -/
def movesTo (s : State) (t : Nat) (ls : List Nat) : Bool :=
  let x := thr s t
  let free (l : Nat) : Bool := decide (l < 1024) && laneLive s (poolOf t) l &&
    ((lanesOf x).contains l || decide (usersOf s (poolOf t) l < 4))
  ls.length == x.gvl && ls.Nodup && ls.all free &&
    (x.mvl == 0 || (((origins (x.mvl / 8)).map (fun o => blockLanes (x.mvl / 8) o.1 o.2)).contains ls &&
      ls.all (blockLaneFree s t)))

/-- SLICE_MOVE (R177): a parked thread's slices move to other lanes, its accepted loads having landed; GVL and every value
stay. -/
def execSliceMove (s : State) : Out :=
  let t := s.msg.a
  let x := thr s t
  if !hasThr s t || !movable s t || !x.vloads.isEmpty || !x.lost.isEmpty || !movesTo s t s.msg.nats then .next s
  else .next (wakePool (setThr s t { x with lanes := s.msg.nats }) (poolOf t))

/-- SLICE_PLACED (R187, R191, R239, R240): lanes that have come free go to the slots that a thread is owed. -/
def execSlicePlaced (s : State) : Out := if hasThr s s.msg.a then .next (placeOwed s s.msg.a) else .next s

end Sys2Proof.Machine
end

