-- ==== Sys2Proof/Machine/Pager.lean ====
section
/-! DEFINITION. The pager (R268, R269): where a context's ranges lie (R368), bringing pages in, checked and patched where they
are code (R160); and the accesses of the host and of peers to device memory (R352, R367). -/

namespace Sys2Proof.Machine

/-! ### The ranges of a context -/

/-- The ranges of addresses that a context has in use apart from what its driver mapped: first address and length. -/
def fixedRanges (s : State) (c : Nat) : List (Nat × Nat) :=
  match ctx? s c with
  | none => []
  | some x =>
    [(x.heap.base.toNat, x.heap.limit.toNat), (x.aper, 576 * 2 ^ 20)] ++ x.data ++
      (s.regions.filter (fun r => r.2.ctx == c)).map (fun r => (r.2.cva, 2 ^ 40))

/-- All the ranges of addresses that a context has in use. -/
def ctxRanges (s : State) (c : Nat) : List (Nat × Nat) :=
  fixedRanges s c ++ (match ctx? s c with | some x => x.maps.map (fun m => (m.cva, m.len)) | none => [])

/-- A number rounded up to a multiple of `a`. -/
def roundUp (n a : Nat) : Nat := (n + a - 1) / a * a

/-- The lowest free page-aligned place for `n` bytes of a context from an address on (R368; log 3). -/
def placeCva (s : State) (c n start : Nat) : Option Nat :=
  let rs := ctxRanges s c
  let at_ := start :: (rs.map (fun r => roundUp (r.1 + r.2) 4096)).filter (fun a => decide (start ≤ a))
  let ok := at_.filter (fun a => decide (a + n ≤ 2 ^ 48) && rs.all (fun r => !meets (a, n) r))
  ok.foldl (fun b a => match b with | none => some a | some m => some (min a m)) none

/-! ### Bringing pages in -/

/-- A doubleword of a page's bytes with a field replaced. -/
def patchBytes (l : List Byte) (off lo n v : Nat) : List Byte :=
  let w := leNat ((l.drop off).take 8)
  let w := w - w / 2 ^ lo % 2 ^ n * 2 ^ lo + v % 2 ^ n * 2 ^ lo
  l.take off ++ leBytes 8 w ++ l.drop (off + 8)

/-- A page of a code object once it has passed its check, relocated (R160 step 2): records are applied in their order, so that of two
which patch one field the later one's value stands (DESIGN CHOICE, log 32). -/
def patchedPage (i : Image) (page : Nat) : List Byte :=
  i.patches.foldl (fun l p => if p.1 / 4096 = page then patchBytes l (p.1 % 4096) p.2.1 p.2.2.1 p.2.2.2 else l) i.bytes

/-- Whether a page matches its digest (R159). -/
def imageOk (i : Image) : Bool := sha256 i.bytes == i.digest

/-- A page's entry with its frame, present. -/
def presentEntry (e : Word) (f : Nat) : Word :=
  (e &&& ~~~0x0000FFFFFFFFF000#64) ||| BitVec.ofNat 64 (f * 4096 + 2)

/-- A page given a frame that holds bytes; none where no frame is left. -/
def fillPage (s : State) (c page : Nat) (bytes : List Byte) : Option State :=
  (newFrame s c).map (fun r =>
    let s := { r.2 with mem := r.2.mem.setAll ((span (r.1 * 4096) bytes.length).zip bytes) }
    setLeaf s (rootOf s c) (page * 4096) (presentEntry (pageEntry s c page) r.1))

/-- The mapping that covers a page of a context. -/
def mappingOf (x : Ctx) (page : Nat) : Option Mapping :=
  x.maps.find? (fun m => decide (m.cva ≤ page * 4096 ∧ page * 4096 < m.cva + m.len))

/-- An object's page has failed its check: it stays unmapped, and the object is tainted (R160 step 3). -/
def failPage (s : State) (c k : Nat) (i : Image) : State :=
  modCtx s c (fun x => { x with images := kset x.images k { i with bad := true }
                                tainted := if x.tainted.contains i.obj then x.tainted else i.obj :: x.tainted })

/-- A page that is not present brought in (R269), with its result: 0, 2 no mapping, 5 integrity; none where no frame is left.
`err` is an uncorrectable error of the image store. -/
def bringPage (s : State) (c page : Nat) (err : Bool) : Option (State × Nat) :=
  match ctx? s c with
  | none => some (s, 2)
  | some x =>
    let lo := x.heap.base.toNat
    if lo ≤ page * 4096 ∧ page * 4096 < lo + x.heap.limit.toNat then
      let k := page - lo / 4096
      match kfind x.images k with
      | none => some (s, 2)
      | some i =>
        if i.bad then some (s, 5)
        else if err || !imageOk i then some (failPage s c k i, 5)
        else (fillPage s c page (patchedPage i k)).map (fun s => (s, 0))
    else match mappingOf x page with
    | none => some (s, 2)
    | some m =>
      let bytes := if m.sort = 1 then (span (hostLoc x.tenant (m.host + (page * 4096 - m.cva))) 4096).map s.mem.get else []
      (fillPage s c page bytes).map (fun s => (s, 0))

/-- Up to `n` pages after a page of the same mapping brought ahead, where they are not present (R269). -/
def bringAhead (c : Nat) : Nat → Nat → State → State
  | 0, _, s => s
  | n + 1, page, s =>
    let e := pageEntry s c page
    let s := if e.getLsbD 0 && !e.getLsbD 1 then (match bringPage s c page false with | some r => r.1 | none => s) else s
    bringAhead c n (page + 1) s

/-- How many pages follow a page in its mapping, at most its read-ahead; the loader gives code none (log 3). -/
def aheadOf (s : State) (c page : Nat) : Nat :=
  match (ctx? s c).bind (fun x => mappingOf x page) with
  | some m => min m.ahead ((m.cva + m.len) / 4096 - (page + 1))
  | none => 0

/-- PAGE_REPORT (R160, R269): the pager brings a reported page in, with its mapping's read-ahead, and wakes every waiter. While no
frame is left, the report waits (log 3). -/
def execPageReport (s : State) : Out :=
  let c := s.msg.a
  let page := s.msg.b
  let filed := match ctx? s c with | some x => x.reports.contains page | none => false
  if !filed then .next s else
  let e := pageEntry s c page
  let r := if !e.getLsbD 0 then some (s, 2) else if e.getLsbD 1 then some (s, 0) else bringPage s c page s.msg.flag
  match r with
  | none => .next (owe s [ev .pageReport c page])
  | some (s, code) =>
    let s := if code = 0 then bringAhead c (aheadOf s c page) (page + 1) s else s
    let s := modCtx s c (fun x => { x with reports := x.reports.filter (· != page) })
    .next (owe s [ev .wakeMessage c page code])

/-! ### The host and peers -/

/-- What a host access of a byte meets (R367): the byte, a page to be brought in, or nothing it may reach. -/
inductive HostByte where
  | ok (r : ByteRef)
  | absent (page : Nat)
  | denied
  deriving DecidableEq, Repr

/-- What the host's access of a byte meets. A byte beyond a scale region's rows and columns reads as zero and keeps nothing. -/
def hostByte (s : State) (c acc cva : Nat) : HostByte :=
  match xlate s c cva with
  | .absent => .absent (cva / 4096)
  | .page pa k code w r =>
    if denied s acc (.page pa k code w r) then .denied
    else
      let b := byteRef s c cva
      if b.at_ == .refused then .denied else .ok b
  | _ => .denied

/-- The pages to be brought in for a host access, reported once each (R367). -/
def hostReports (s : State) (c : Nat) (l : List HostByte) : State :=
  (l.filterMap (fun x => match x with | .absent p => some p | _ => none)).dedup.foldl (fun s p => fileReport s c p) s

/-- The bytes of a list grouped by the granule of their locations, in order. -/
def byGranule (s : State) (l : List (ByteRef × Byte)) : List (List (ByteRef × Byte)) :=
  cutWhere (fun x y => granule s x.loc == granule s y.loc) l

/-- Bytes from outside the part written at their homes, each granule logged with its PA (Table 10.8). They pass through no compute
die (the four are numbered from 0), and what a release left at their locations is covered no longer. -/
def outsideWrite (s : State) (tn kind : Nat) (l : List (ByteRef × Byte)) : State :=
  (byGranule s (l.filter (fun p => p.1.has))).foldl (fun (s : State) (g : List (ByteRef × Byte)) =>
    match g with
    | [] => s
    | (r, _) :: _ =>
      let pa := nativePa s r.loc
      let locs := g.map (fun p => p.1.loc)
      let s := if offPart r.loc || inPools r.loc then s else logArrival s tn kind r.loc (pa / 256) (pa % 256) g.length none
      let s := landBytes s (g.map (fun p => (p.1.loc, p.2)))
      putCovers (ownLines s (.thread 0) false locs r.cva .none true) locs [] false) s

/-- Bytes read from outside the part, as their homes hold them, every dirty copy recalled first (R272), and with it what a die holds
for itself (R91, R301). -/
def outsideRead (s : State) (refs : List ByteRef) : State :=
  let s := recallUo s (fun _ => true) (underRefs s refs)
  let s := (linesOf s ((underRefs s refs).filter (fun l => !offPart l))).foldl (fun s n => recallLine s (n * 128)) s
  modKeeper s (fun k => { k with reply := refs.map (readShared s 4) })

/-- HOST_WRITE (R367): the bytes of pages that are present and may be written reach their homes; others are dropped and the
access counted, and a page that is not present is reported. -/
def execHostWrite (s : State) : Out :=
  let c := s.msg.a
  if (ctx? s c).isNone then .next s else
  let l := (span s.msg.b s.msg.bytes.length).map (hostByte s c 1)
  let ok := (l.zip s.msg.bytes).filterMap (fun p => match p.1 with | .ok r => some (r, p.2) | _ => none)
  let lost := l.any (fun x => match x with | .ok _ => false | _ => true)
  let s := outsideWrite s (tenantOf s c) 4 ok
  .next (if lost then hostReports (countErr s c 9) c l else s)

/-- HOST_READ (R367): the bytes as their homes hold them, dirty copies recalled; or Completer Abort, counted. With its flag, a read
of a function's BAR (Table 13.6). -/
def execHostRead (s : State) : Out :=
  let c := s.msg.a
  if s.msg.flag then .next (modKeeper s (fun k => { k with reply := barRead s s.msg.a s.msg.b s.msg.c s.msg.d })) else
  if (ctx? s c).isNone then .next s else
  let l := (span s.msg.b s.msg.c).map (hostByte s c 0)
  if l.any (fun x => match x with | .ok _ => false | _ => true) then
    .next (hostReports (countErr (modKeeper s (fun k => { k with aborts := k.aborts + 1 })) c 9) c l)
  else .next (outsideRead s (l.filterMap (fun x => match x with | .ok r => some r | _ => none)))

/-- The context that a physical address belongs to. -/
def ownerOf (s : State) (pa : Nat) : Option Nat :=
  match pa / 2 ^ 46 with
  | 0 => kfind s.keeper.frames (pa / 4096)
  | 2 => (kfind s.regions (pa / 2 ^ 38 % 64)).map (·.ctx)
  | 3 =>
    let p := pa / 2 ^ 39 % 128
    let off := pa % 2 ^ 23
    let inside (r : Nat × Nat) (u : Nat) : Bool := decide (r.1 ≤ u ∧ u < r.1 + r.2)
    ((kvals (pool s p).slots).find? (fun e => e.valid &&
      if off < 2 ^ 21 then inside e.win (off / 4096)
      else e.cores.testBit ((off - 2 ^ 22) / 2 ^ 18) && inside e.share (off % 2 ^ 18 / 4096))).map (·.ctx)
  | _ => none

/-- The granule and mark that hold a peer's acquire of locations: a peer lies within scope .w alone (R93, Table 4.1). -/
def peerMiss (s : State) (locs : List Nat) : Option (Nat × Mark) :=
  locs.findSome? (fun l => match kfind s.marks (granule s l) with
    | some m => if m.scope < 6 then some (granule s l, m) else none
    | none => none)

/-- A peer's acquire is held on a granule (R93). -/
def holdPeer (s : State) (g : Nat) (m : Mark) : State :=
  let s := { s with peerHeld := s.peerHeld ++ [(g, s.msg)] }
  if missOut s g then s else sendMiss s g m

/-- PEER_ACCESS (R352): a peer's access inside a window that the operator has exported to it; outside one, nothing is reached.
A read takes as many bytes as the message holds, and is an acquire where its field `e` is 1 (R93). -/
def execPeerAccess (s : State) : Out :=
  let n := s.msg.bytes.length
  match (kfind s.keeper.peers s.msg.a).bind (fun p => if s.msg.b < 16 then p.windows[s.msg.b]? else none) with
  | none => .next s
  | some (base, size) =>
    if size < s.msg.c + n then .next s else
    let refs := (span (base + s.msg.c) n).map (fun pa => { cva := pa, pa := pa, kind := 0, at_ := place s pa : ByteRef })
    if refs.any (fun r => !r.has) then .next s
    else if s.msg.flag then
      let tn := match refs with
        | r :: _ => (match ownerOf s r.pa with | some c => tenantOf s c | none => 16)
        | [] => 16
      .next (outsideWrite s tn 5 (refs.zip s.msg.bytes))
    else match (if s.msg.e = 1 then peerMiss s (refs.map (·.loc)) else none) with
    | some (g, m) => .next (holdPeer s g m)
    | none => .next (outsideRead s refs)

end Sys2Proof.Machine
end

