-- ==== Sys2Proof/Machine/Loader.lean ====
section
/-! DEFINITION. The loader (R150 to R161, R166): an OZO file read and checked, its symbols resolved, its relocations computed,
and its sections placed in a context's code heap and image store. -/

namespace Sys2Proof.Machine

/-! ### The file -/

/-- `n` little-endian bytes of a file at an offset. -/
def le (l : List Byte) (off n : Nat) : Nat := leNat ((l.drop off).take n)

/-- A section table entry (R151). -/
structure Sect where
  type : Nat
  flags : Nat
  foff : Nat
  size : Nat
  place : Nat
  deriving DecidableEq, Repr

/-- A symbol record (R152). -/
structure Sym where
  name : List Byte
  sect : Nat
  global : Bool
  value : Nat
  deriving DecidableEq, Repr

/-- A relocation record (R154). -/
structure Reloc where
  off : Nat
  type : Nat
  sect : Nat
  sym : Nat
  addend : Int
  anchor : Nat
  deriving DecidableEq, Repr

/-- Why a load fails (Table 6.7), with the record for a relocation failure. -/
structure LoadFail where
  status : Nat
  record : Option Nat
  deriving DecidableEq, Repr

/-- A failure without a record. -/
def failWith (n : Nat) : LoadFail := { status := n, record := none }

/-- Whether a header is as Table 6.1 has it and the section table lies in the file (R150). For a PREFBASE that is no multiple of
4,096, an ALIGN or NSECT outside its range, and a SECTOFF that is no multiple of 8 the manual gives no status: they fail this check
(BADHDR; DESIGN CHOICE, log 32). -/
def headerOk (l : List Byte) : Bool :=
  decide (64 ≤ l.length) && le l 0 4 == 0x314F5A4F && le l 4 2 == 1 && le l 6 2 / 4 == 0 && le l 8 8 % 4096 == 0 &&
    decide (12 ≤ le l 16 4 ∧ le l 16 4 ≤ 30 ∧ 1 ≤ le l 20 4 ∧ le l 20 4 ≤ 64) && le l 24 8 % 8 == 0 &&
    ((l.drop 32).take 32).all (· == 0) && decide (le l 24 8 + 32 * le l 20 4 ≤ l.length)

/-- The section table. -/
def sectsOf (l : List Byte) : List Sect :=
  (List.range (le l 20 4)).map (fun i =>
    let o := le l 24 8 + 32 * i
    { type := le l o 4, flags := le l (o + 4) 4, foff := le l (o + 8) 8, size := le l (o + 16) 8, place := le l (o + 24) 8 })

/-- The section of a type, with its index. -/
def sectOf (ss : List Sect) (ty : Nat) : Option (Nat × Sect) :=
  (ss.zipIdx.find? (fun p => p.1.type == ty)).map (fun p => (p.2, p.1))

/-- The bytes of a section of a type; none where there is none. -/
def sectBytes (l : List Byte) (ss : List Sect) (ty : Nat) : List Byte :=
  match sectOf ss ty with | some (_, x) => (l.drop x.foff).take x.size | none => []

/-- Whether a type is placed in the code heap (Table 6.2). -/
def placed (ty : Nat) : Bool := ty == 1 || ty == 2 || ty == 4

/-- The placed sections in the order text, const, GOT. -/
def placedSects (ss : List Sect) : List Sect :=
  [1, 2, 4].filterMap (fun ty => (sectOf ss ty).map (·.2))

/-- Whether sections follow each other without overlap (R151). -/
def inOrder : List Sect → Bool
  | x :: y :: r => decide (x.place + x.size ≤ y.place) && inOrder (y :: r)
  | _ => true

/-- E: the end of the last placed section rounded up to 4,096 (R157). -/
def extentOf (ss : List Sect) : Nat := roundUp ((placedSects ss).foldl (fun n x => max n (x.place + x.size)) 0) 4096

/-- The offsets from the load base of the pages of placed sections, rising (R159). -/
def pagesOf (ss : List Sect) : List Nat :=
  (placedSects ss).flatMap (fun x => (List.range ((x.size + 4095) / 4096)).map (fun i => x.place + 4096 * i))

/-- The size of a section's records, 1 where it has none (Table 6.2). -/
def recordSize (ty : Nat) : Nat :=
  match ty with
  | 1 => 8 | 4 => 8 | 5 => 32 | 6 => 32 | 8 => 24 | 10 => 128
  | _ => 1

/-- Whether the section table keeps R151 and Table 6.2. For contents past the end of the file, and a SIZE that is no multiple of the
section's record size, the manual gives no status: they fail this check (BADSECT; DESIGN CHOICE, log 32). -/
def sectsOk (l : List Byte) (ss : List Sect) : Bool :=
  ss.all (fun x => decide (1 ≤ x.type ∧ x.type ≤ 10) && x.flags == 0 && decide (x.foff + x.size ≤ l.length) &&
      x.size % recordSize x.type == 0 && (if placed x.type then x.place % 4096 == 0 else x.place == 0)) &&
    (ss.map (·.type)).Nodup && (sectOf ss 1).isSome && inOrder (placedSects ss) &&
    (sectBytes l ss 6).length == 32 * (pagesOf ss).length

/-- A NUL-terminated name of the strings section; none where it does not end there. -/
def nameAt (strs : List Byte) (off : Nat) : Option (List Byte) :=
  let l := strs.drop off
  if l.contains 0 then some (l.takeWhile (· != 0)) else none

/-- Record `i` of a symbols section; none where a field is outside its range: its name outside the strings, BIND above 1, its reserved
halfword not zero, or a SECT that names a section of another kind. The manual gives no status for those: BADSECT (DESIGN CHOICE,
log 32). -/
def symAt (l strs : List Byte) (ss : List Sect) (i : Nat) : Option Sym :=
  let o := 24 * i
  let sect := le l (o + 4) 1
  match nameAt strs (le l o 4) with
  | none => none
  | some nm =>
    let ty := match ss[sect]? with | some x => x.type | none => 0
    if le l (o + 6) 2 ≠ 0 || 1 < le l (o + 5) 1 || !(sect == 0xFF || placed ty || ty == 3) then none
    else some { name := nm, sect := sect, global := le l (o + 5) 1 == 1, value := le l (o + 8) 8 }

/-- A kernel table entry, its ENTRY still an offset in text; none where a field is outside its range (R153). -/
def kernelAt (l strs : List Byte) (text i obj : Nat) : Option Kernel :=
  let o := 128 * i
  let kind := le l (o + 4) 1
  let nfoot := le l (o + 5) 1
  let lanes := le l (o + 6) 1
  let entry := le l (o + 8) 8
  let size := le l (o + 16) 8
  let f (k : Nat) : Nat × Nat × Nat := (le l (o + 32 + 24 * k) 1, le l (o + 40 + 24 * k) 8, le l (o + 48 + 24 * k) 8)
  let fOk (k : Nat) : Bool :=
    ((l.drop (o + 33 + 24 * k)).take 7).all (· == 0) &&
      (if k < nfoot then decide ((f k).1 ≤ 7) else f k == (0, 0, 0))
  if (nameAt strs (le l o 4)).isNone || 1 < kind || (if kind = 1 then 0 else 4) < nfoot || 11 < lanes ||
      (lanes != 0 && decide (lanes < 4)) || 1 < le l (o + 7) 1 || entry % 8 ≠ 0 || text < entry + size ||
      (kind == 1 && decide (16384 < size)) || !(List.range 4).all fOk then none
  else some { ret := kind == 1, entry := entry, size := size, lanes := lanes, lendep := le l (o + 7) 1 == 1
              tags := BitVec.ofNat 64 (le l (o + 24) 8), foot := (List.range nfoot).map f, obj := obj }

/-- Record `i` of a relocations section. Its reserved halfword is not read: the manual gives no status for one that is not zero
(DESIGN CHOICE, log 32). -/
def relocAt (l : List Byte) (i : Nat) : Reloc :=
  let o := 32 * i
  { off := le l o 8, type := le l (o + 8) 1, sect := le l (o + 9) 1, sym := le l (o + 12) 4
    addend := (BitVec.ofNat 64 (le l (o + 16) 8)).toInt, anchor := le l (o + 24) 8 }

/-- Every element of a list through a partial function, or nothing. -/
def allSome {α β : Type} (f : α → Option β) : List α → Option (List β)
  | [] => some []
  | x :: r => match f x, allSome f r with
    | some y, some l => some (y :: l)
    | _, _ => none

/-! ### Symbols and relocations -/

/-- The value of a global symbol of a context. -/
def globalOf (x : Ctx) (nm : List Byte) : Option Nat := (x.symbols.find? (fun p => p.1 == nm)).map (·.2)

/-- Step 2 of R157: the first symbol that is undefined (3) or already defined (4) in the context. Where a file has both, the one that
stands first in the file gives the status (DESIGN CHOICE, log 32). Of two global symbols of one name in
one object the manual says nothing: both are entered, and the first is found (DESIGN CHOICE, log 32). -/
def symbolFail (x : Ctx) (syms : List Sym) : Option Nat :=
  syms.findSome? (fun y =>
    if y.sect = 0xFF then (if (globalOf x y.name).isNone then some 3 else none)
    else if y.global && (globalOf x y.name).isSome then some 4 else none)

/-- S of a symbol at load base B with the data block at D (R152). -/
def symValue (x : Ctx) (ss : List Sect) (b d : Nat) (y : Sym) : Nat :=
  if y.sect = 0xFF then (globalOf x y.name).getD 0
  else match ss[y.sect]? with
    | some z => if z.type = 3 then d + y.value else b + z.place + y.value
    | none => 0

/-- What a word of text is for Table 6.4: its class and opcode. -/
def wordKind (w : Word) : Nat × Nat :=
  (field w 62 2, if field w 62 2 = 3 then field w 56 6 else field w 52 10)

/-- The field that a relocation type patches in a word: first bit and bits; none where the word is not of its kind. -/
def relocField (ty : Nat) (k : Nat × Nat) : Option (Nat × Nat) :=
  match ty with
  | 1 => some (0, 64)
  | 2 => if k = (0, 0x4E) || k = (0, 0x4F) then some (14, 20) else none
  | 3 => if k = (0, 0x40) then some (22, 12) else if k.1 = 0 && decide (0xE0 ≤ k.2 ∧ k.2 ≤ 0xEA) then some (12, 12) else none
  | 4 => if k = (3, 1) || k = (3, 2) || k = (3, 4) then some (0, 32) else none
  | 5 => if k = (3, 3) then some (0, 32) else none
  | _ => none

/-- An object as the loader has read it. -/
structure ObjFile where
  sects : List Sect
  text : List Byte
  const : List Byte
  data : List Byte
  got : List Byte
  syms : List Sym
  relocs : List Reloc
  kernels : List Kernel
  hashes : List Byte
  deriving DecidableEq, Repr

/-- The bytes of a section by its type, as the file holds them. -/
def ObjFile.bytes (f : ObjFile) (ty : Nat) : List Byte :=
  match ty with | 1 => f.text | 2 => f.const | 3 => f.data | 4 => f.got | _ => []
/-- PLACE of a section by its type. -/
def ObjFile.placeOf (f : ObjFile) (ty : Nat) : Nat := match sectOf f.sects ty with | some (_, x) => x.place | none => 0
/-- The symbol indices of the GOT's entries. -/
def ObjFile.gotSyms (f : ObjFile) : List Nat := (List.range (f.got.length / 8)).map (fun i => le f.got (8 * i) 8)
/-- The word of text at an offset. -/
def ObjFile.word (f : ObjFile) (off : Nat) : Word := BitVec.ofNat 64 (le f.text off 8)

/-- x of a HI20 record (Table 6.4): relative to the word for LIPC. -/
def hiX (f : ObjFile) (s : Sym → Nat) (b : Nat) (r : Reloc) : Int :=
  let sv : Nat := match f.syms[r.sym]? with | some y => s y | none => 0
  let p : Nat := b + f.placeOf 1 + r.off
  (sv : Int) + r.addend - (if (wordKind (f.word r.off)).2 = 0x4F then (p : Int) else 0)

/-- hi of x (Table 6.4). -/
def hiOf (x : Int) : Int := (x + 0x800) / 4096

/-- The HI20 record that a LO12 record's ANCHOR names (R156). -/
def anchorOf (f : ObjFile) (r : Reloc) : Option Reloc :=
  f.relocs.find? (fun h => h.type == 2 && h.off == r.anchor && h.sym == r.sym && h.addend == r.addend &&
    (match f.sects[h.sect]? with | some z => z.type == 1 | none => false) &&
    (relocField 2 (wordKind (f.word h.off))).isSome)

/-- The value that a record writes and whether it fits (Table 6.4), or the status of its failure. -/
def relocValue (f : ObjFile) (s : Sym → Nat) (b : Nat) (r : Reloc) (y : Sym) : Except Nat (Int × Bool) :=
  let sv : Nat := s y
  let x : Int := (sv : Int) + r.addend
  let p : Nat := b + f.placeOf 1 + r.off
  match r.type with
  | 1 => .ok (x, decide (0 ≤ x ∧ x < 2 ^ 48))
  | 2 =>
    let hi := hiOf (hiX f s b r)
    .ok (hi, decide (-(2 ^ 19) ≤ hi ∧ hi < 2 ^ 19))
  | 3 => match anchorOf f r with
    | none => .error 6
    | some h =>
      let hx := hiX f s b h
      .ok (hx - hiOf hx * 4096, true)
  | 4 =>
    let q := x - (p : Int)
    .ok (q / 8, decide (q % 8 = 0 ∧ -(2 ^ 31) ≤ q / 8 ∧ q / 8 < 2 ^ 31))
  | _ => match f.gotSyms.findIdx? (· == r.sym) with
    | none => .error 3
    | some i =>
      let v : Nat := b + f.placeOf 4 + 8 * i
      .ok (v, decide (v < if (f.word r.off).getLsbD 32 then 2 ^ 32 else 2 ^ 31))

/-- A record's patch: section type, offset, first bit, bits and value (R154, R155). A GOT record whose SYM no GOT entry can name fails
with UNDEF (R155); for any other record with a SYM outside the symbol table the manual gives no status: MISFIT (DESIGN CHOICE,
log 32). -/
def relocPatch (f : ObjFile) (s : Sym → Nat) (b : Nat) (r : Reloc) : Except Nat (Nat × Nat × Nat × Nat × Nat) :=
  let ty := match f.sects[r.sect]? with | some z => z.type | none => 0
  let bytes := f.bytes ty
  let admitted := if r.type = 1 then ty == 2 || ty == 3 || ty == 4 else ty == 1
  if !admitted || r.off % 8 ≠ 0 || bytes.length < r.off + 8 then .error 6
  else match relocField r.type (wordKind (BitVec.ofNat 64 (le bytes r.off 8))) with
    | none => .error 6
    | some (lo, n) =>
      if le bytes r.off 8 / 2 ^ lo % 2 ^ n ≠ 0 then .error 6
      else match f.syms[r.sym]? with
        | none => .error (if r.type = 5 then 3 else 6)
        | some y => match relocValue f s b r y with
          | .error e => .error e
          | .ok (v, fits) => if fits then .ok (ty, r.off, lo, n, (v % (2 ^ n : Nat)).toNat) else .error 5

/-- The patches of records in file order, or the first that fails. -/
def relocAll (f : ObjFile) (s : Sym → Nat) (b : Nat) : List (Reloc × Nat) → Except LoadFail (List (Nat × Nat × Nat × Nat × Nat))
  | [] => .ok []
  | (r, i) :: rest => match relocPatch f s b r with
    | .error e => .error { status := e, record := some i }
    | .ok p => match relocAll f s b rest with
      | .ok l => .ok (p :: l)
      | .error e => .error e

/-! ### Loading -/

/-- Step 1 of R157: the object, its kernels numbered as of object `obj`, or the status of its failure. -/
def readObject (l : List Byte) (obj : Nat) : Except LoadFail ObjFile :=
  if !headerOk l then .error (failWith 1) else
  let ss := sectsOf l
  if !sectsOk l ss then .error (failWith 2) else
  let strs := sectBytes l ss 9
  let syms := sectBytes l ss 8
  let kt := sectBytes l ss 10
  let rel := sectBytes l ss 5
  let text := sectBytes l ss 1
  match allSome (symAt syms strs ss) (List.range (syms.length / 24)),
      allSome (fun i => kernelAt kt strs text.length i obj) (List.range (kt.length / 128)) with
  | some ys, some ks =>
    .ok { sects := ss, text := text, const := sectBytes l ss 2, data := sectBytes l ss 3, got := sectBytes l ss 4
          syms := ys, relocs := (List.range (rel.length / 32)).map (relocAt rel), kernels := ks, hashes := sectBytes l ss 6 }
  | _, _ => .error (failWith 2)

/-- Whether an extent of the code heap is free: no byte of it lies in a used one, and it ends within LIMIT (R157 step 3). -/
def heapFree (x : Ctx) (b n : Nat) : Bool :=
  decide (b + n ≤ x.heap.limit.toNat) && x.heapUsed.all (fun r => decide (n = 0 ∨ r.2 = 0 ∨ b + n ≤ r.1 ∨ r.1 + r.2 ≤ b))

/-- The load base (R157 step 3). -/
def loadBase (x : Ctx) (pref align n : Nat) : Option Nat :=
  if heapFree x pref n then some pref
  else
    let at_ := (0 :: x.heapUsed.map (fun r => roundUp (r.1 + r.2) (2 ^ align))).filter (fun b => heapFree x b n)
    at_.foldl (fun m b => match m with | none => some b | some y => some (min y b)) none

/-- A page of the image at an offset from the load base: each section's bytes, zero beyond its SIZE (R159). -/
def imagePage (f : ObjFile) (off : Nat) : List Byte :=
  (List.range 4096).map (fun i =>
    match ([1, 2, 4].find? (fun ty =>
      decide (f.placeOf ty ≤ off + i ∧ off + i < f.placeOf ty + (f.bytes ty).length))) with
    | some ty => (f.bytes ty).getD (off + i - f.placeOf ty) 0
    | none => 0)

/-- The data block made and filled (R157 step 5): RC pages with rights R and W; none where no frame is left. -/
def putData (c d : Nat) : List (List Byte) → Nat → State → Option State
  | [], _, s => some s
  | b :: rest, i, s =>
    let cva := d + 4096 * i
    match fillPage (mapAbsent s c cva 1 1 false true true) c (cva / 4096) b with
    | some s => putData c d rest (i + 1) s
    | none => none

/-- A load (R157): the state with the object in place, with B and D; or why it failed, with nothing changed. A GOT entry that names no
symbol fails it with UNDEF (Table 6.7); the D of an object without a data section is the place a block of no bytes would have (DESIGN
CHOICE, log 32); an ABS64 record's value stands over the GOT entry's own (R155; log 32), and of two records that patch one field the later one's stands
(DESIGN CHOICE, log 32). For want of a
place of addresses or of a frame for the data block Table 6.7 has no status: HEAPFULL (DESIGN CHOICE, log 32). -/
def loadObject (s : State) (c : Nat) (l : List Byte) : Except LoadFail (State × Nat × Nat) :=
  match ctx? s c with
  | none => .error (failWith 1)
  | some x =>
  match readObject l x.objects with
  | .error e => .error e
  | .ok f =>
  match symbolFail x f.syms with
  | some e => .error (failWith e)
  | none =>
  let n := extentOf f.sects
  match loadBase x (le l 8 8) (le l 16 4) n, placeCva s c (roundUp f.data.length 4096) (2 ^ 34) with
  | some b, some d =>
    let val := symValue x f.sects b d
    match relocAll f val b f.relocs.zipIdx with
    | .error e => .error e
    | .ok ps =>
      if f.gotSyms.any (fun k => decide (f.syms.length ≤ k)) then .error (failWith 3) else
      let gots := f.gotSyms.zipIdx.map (fun p =>
        (4, 8 * p.2, 0, 64, match f.syms[p.1]? with | some y => val y | none => 0))
      let data := ps.foldl (fun l p => if p.1 = 3 then patchBytes l p.2.1 p.2.2.1 p.2.2.2.1 p.2.2.2.2 else l) f.data
      let heapP := (gots ++ ps.filter (fun p => p.1 != 3)).map (fun p =>
        (b + f.placeOf p.1 + p.2.1, p.2.2.1, p.2.2.2.1, p.2.2.2.2))
      match putData c d (chunksOf 4096 data.length data) 0 s with
      | none => .error (failWith 7)
      | some s =>
        let pages := pagesOf f.sects
        let imgs := pages.zipIdx.map (fun p =>
          ((b + p.1) / 4096, ({ bytes := imagePage f p.1, digest := (f.hashes.drop (32 * p.2)).take 32, obj := x.objects
                                patches := heapP.filter (fun q => q.1 / 4096 == (b + p.1) / 4096), bad := false } : Image)))
        let s := pages.foldl (fun s p => mapAbsent s c (x.heap.base.toNat + b + p) 1 1 true false true) s
        let s := modCtx s c (fun x => { x with
          images := imgs.foldl (fun m p => kset m p.1 p.2) x.images
          heapUsed := x.heapUsed ++ [(b, n)]
          data := if f.data.isEmpty then x.data else x.data ++ [(d, roundUp f.data.length 4096)]
          kernels := x.kernels ++ f.kernels.map (fun k => { k with entry := b + f.placeOf 1 + k.entry })
          symbols := x.symbols ++ (f.syms.filter (fun y => y.global && y.sect != 0xFF)).map (fun y => (y.name, val y))
          objects := x.objects + 1 })
        .ok (s, b, d)
  | _, _ => .error (failWith 7)

end Sys2Proof.Machine
end

