-- ==== Sys2Proof/Machine/Errors.lean ====
section
/-! DEFINITION. Errors of units (R342, R353), the lasting faults and what they change in the resource map (Table 13.4), and
what the engines then do (R24, R186 to R189, R239, R250, R282, R336, R346). -/

namespace Sys2Proof.Machine

/-! ### Counts -/

/-- An error of the unit with a record number counted, saturating at 32 bits (R353). -/
def countUnit (s : State) (n : Nat) (unc : Bool) : State :=
  let up (m : KMap Nat) : KMap Nat := kset m n (min (2 ^ 32 - 1) (kget m n 0 + 1))
  modKeeper s (fun k => if unc then { k with errU := up k.errU } else { k with errC := up k.errC })

/-- The number under which the recent errors of a part of a unit are kept. -/
def errKey (n sub : Nat) : Nat := n * 64 + sub % 64

/-- An error noted at the time, and whether it is the third, or a later one, within one second of TIME (R342). The times of the two
errors before it say so. -/
def noteError (s : State) (key : Nat) : State × Bool :=
  let l := (kget s.keeper.recent key []).filter (fun t => decide (s.time < t + 10 ^ 9))
  (modKeeper s (fun k => { k with recent := kset k.recent key ((s.time :: l).take 2) }), decide (2 ≤ l.length))

/-- A context takes the fatal INTEG trap without a thread that caused it (Table 5.9). -/
def integCtx (s : State) (c : Nat) : State :=
  freeze s c { time := s.time, mapver := s.keeper.version, cause := causeWord 5 0, tval := 0, epc := 0
               thread := 2 ^ 32 - 1, nfatal := 1 }

/-! ### What a lasting fault changes in the map (Table 13.4) -/

/-- A record changed where it exists and its unit is there. -/
def editRec (s : State) (n : Nat) (f : MapRec → MapRec) : List (Nat × MapRec) :=
  match mapRec s n with
  | some r => if recLive r then [(n, f r)] else []
  | none => []

/-- A bit of a field cleared. -/
def clearBit (v k : Nat) : Nat := if v.testBit k then v - 2 ^ k else v

/-- The records that the retirement of data lanes of one group changes: the group's, and its pool's VALUE and STATE (R341). -/
def laneRecs (s : State) (p : Nat) (ls : List Nat) : List (Nat × MapRec) :=
  let live := ls.filter (laneLive s p)
  match live with
  | [] => []
  | l :: _ =>
    editRec s (6144 + p * 32 + l / 32) (fun r => { r with
      state := 2, value := r.value - live.length, auxA := live.foldl (fun v l => clearBit v (l % 32)) r.auxA }) ++
    editRec s (16 + p) (fun r => { r with state := 2, value := r.value - live.length })

/-- A die-to-die link at a number of lanes; bandwidth falls with the lanes (Table 13.3). -/
def linkAt (n lanes : Nat) (r : MapRec) : MapRec :=
  let full := r.auxA / 256 % 256
  { r with
    state := if lanes = full then 1 else if lanes = 0 then 3 else 2
    value := linkRate (n - 12800) * lanes / full, auxA := full * 256 + lanes }

/-- A Packlink port at a number of lanes, 112 GB/s at four (R352); with none it is down. -/
def portAt (lanes : Nat) (r : MapRec) : MapRec :=
  let peer := r.auxA / 256 % 64
  { r with
    state := if lanes = 4 then 1 else 2, value := 28 * lanes
    auxA := lanes + peer * 256 + (if lanes = 0 then 0 else 2 ^ 16) }

/-- Whether frames of the sixteen channels that share the upper four bits of their numbers have been withdrawn: a frame's sixteen
granules lie on sixteen such channels (R270, R346). -/
def groupGone (s : State) (n : Nat) : Bool := (span (n / 16 * 16) 16).any (channelRetired s)

/-- The bytes of HBM that the loss of a channel withdraws, all of one stack (R346). -/
def channelBytes (s : State) (n : Nat) : Nat := if groupGone s n then 0 else 2 ^ 35

/-- The bytes of rows lent to region stores in sixteen channels (R285). -/
def lentIn16 (s : State) : Nat := ((kvals s.regions).map (fun r => r.rowsTaken * 2 ^ 15)).sum

/-- The bytes of ordinary memory that the loss of a channel withdraws: those of its frames, which rows lent to stores are not (R285,
R346). -/
def ordinaryBytes (s : State) (n : Nat) : Nat := if groupGone s n then 0 else 2 ^ 35 - lentIn16 s

/-- The records that a lasting fault of a part of a unit changes (Table 13.4). -/
def lastingRecs (s : State) (n sub : Nat) : List (Nat × MapRec) :=
  match mapRec s n with
  | none => []
  | some r =>
    if !recLive r then [] else
    match r.kind with
    | 0x03 => (n, { r with state := 3 }) :: editRec s (16 + (n - 128) / 16) (fun q => { q with state := 2, auxA := clearBit q.auxA ((n - 128) % 16) })
    | 0x04 => [(n, { r with state := 3 })]
    | 0x05 =>
      if sub < 32 then laneRecs s ((n - 6144) / 32) [(n - 6144) % 32 * 32 + sub]
      else [(n, { r with state := 2, auxA := clearBit r.auxA 32 })]
    | 0x06 =>
      let v := if sub = 0 then r.value - 1 else 0
      [(n, { r with state := if v = 0 then 3 else 2, value := v })]
    | 0x0A =>
      let ch := n - 12320
      (n, { r with state := 3 }) ::
        (editRec s (12288 + ch / 32) (fun q => { q with
          state := 2, value := q.value - 1, auxA := clearBit q.auxA (ch % 32), auxB := q.auxB - channelBytes s ch }) ++
        editRec s 0 (fun q => { q with auxA := q.auxA - ordinaryBytes s ch }))
    | 0x0B => [(n, linkAt n (r.auxA % 256 - 1) r)]
    | 0x0C => if r.auxA.testBit 16 then [(n, portAt (r.auxA % 8 - 1) r)] else []
    | 0x0D =>
      if sub = 0 then [(n, { r with state := 3 })] else [(n, { r with state := 2, auxA := clearBit r.auxA 0 })]
    | _ => []

/-- Records put into the map as they are composed. -/
def putRecs (s : State) (recs : List (Nat × MapRec)) : State :=
  modKeeper s (fun k => { k with map := recs.foldl (fun m p => kset m p.1 p.2) k.map })

/-- The records that one increment changes: those given, and then what the reported faults of parts of units change, each fault
as the faults before it leave the map (R341). -/
def composeRecs (s : State) (recs : List (Nat × MapRec)) (faults : List (Nat × Nat)) : List (Nat × MapRec) :=
  let r := faults.foldl (fun (r : State × List (Nat × MapRec)) f =>
    let l := lastingRecs r.1 f.1 f.2
    (putRecs r.1 l, r.2 ++ l)) (putRecs s recs, recs)
  (r.2.map (·.1)).eraseDups.filterMap (fun n => (kfind r.1.keeper.map n).map (fun x => (n, x)))

/-! ### Lanes -/

/-- The slots of a thread that sit in some lanes of its pool. -/
def slotsIn (x : Thread) (ls : List Nat) : List Nat :=
  (List.range x.lanes.length).filter (fun j => !x.lost.contains j && ls.contains (x.lanes.getD j 0))

/-- Short words that wait in a gang's queue are completed (R237); a long word goes on as its engine has it. -/
def emptyQueue (s : State) (t : Nat) : State :=
  if (thr s t).mqueue.any (·.long) then s else drainMat t (thr s t).mqueue.length s

/-- Lanes of one group of a pool lost together (R186, R187, R189, R239): a gang's queue of matrix words empties first (R237). Their
slices are rebuilt, which `prot` allows where it is one lane, and are owed lanes, which they take at once where some are free; a
gang whose lanes are all still live stays on its block. Where they cannot be rebuilt, their state is lost, and every context with a
slice there takes INTEG. -/
def loseLanes (s : State) (p : Nat) (ls : List Nat) (prot : Bool) : State :=
  let rebuilt := prot && decide (ls.length ≤ 1)
  let on (s : State) := s.threads.filter (fun q => poolOf q.1 == p && !(slotsIn q.2 ls).isEmpty)
  let s := if rebuilt then (on s).foldl (fun s q => emptyQueue s q.1) s else s
  let hit := on s
  let s := hit.foldl (fun (s : State) (q : Nat × Thread) =>
    let out := slotsIn q.2 ls
    if rebuilt && q.2.mvl ≠ 0 && out.all (fun j => laneLive s p (q.2.lanes.getD j 0)) then s
    else setThr s q.1 { q.2 with lost := q.2.lost ++ out, dead := q.2.dead || !rebuilt }) s
  let s := if rebuilt then s
    else ((hit.map (·.2.ctx)).dedup).foldl integCtx s
  settlePool s p

/-- Whether a lane group has its parity lane. -/
def groupProtected (s : State) (p l : Nat) : Bool :=
  match mapRec s (6144 + p * 32 + l / 32) with
  | some r => r.auxA.testBit 32
  | none => false

/-! ### What engines do once the map has changed (R24) -/

/-- A core that is not there any more (R24): the threads on it are pre-empted; where it cannot be read out, every context with a
thread there takes a fatal trap instead. -/
def retireCore (s : State) (k : Nat) (dead : Bool) : State :=
  let cs := ((s.threads.filter (fun q => coreOf q.1 == k && hwOf q.1 != 16)).map (·.2.ctx)).dedup
  let bound := ((entries s (poolOfCore k)).filter (fun e => e.2.valid && e.2.cores.testBit (k % 16))).map (·.2.ctx)
  let s := if dead then cs.foldl integCtx s else s
  let all := (cs ++ bound).dedup
  let s := all.foldl (fun s c => modCtx s c (fun x => { x with unbinding := (k :: x.unbinding).dedup })) s
  owe s (all.map (fun c => ev .unbind k c))

/-- Lines in ways that a slice no longer has leave it: the copies of them in the die's local caches and victim portions first
(R273). -/
def dropWays (s : State) (n live : Nat) : State :=
  let d := (n - 10240) / 384
  let slice := (n - 10240) % 384
  let out := ((die s d).l2.filter (fun q => q.1 / 128 == slice)).flatMap (fun q =>
    (q.2.filter (fun w => decide (live ≤ w.way))).map (·.line))
  let s := out.foldl (fun s l => dropLocal s (fun k => dieOfCore k == d) l) s
  modDie s d (fun x => { x with l2 := x.l2.map (fun q => (q.1,
    if q.1 / 128 = slice then q.2.filter (fun w => decide (w.way < live)) else q.2)) })

/-- The contexts that the loss of a channel reaches: those with a frame that holds one of its granules, and those with a region
that has a tile there (R346). -/
def channelCtxs (s : State) (ch : Nat) : List Nat :=
  let fr := (s.keeper.frames.filter (fun f =>
    (List.range 16).any (fun i => channelOf (f.1 * 4096 + 256 * i) == ch))).map (·.2)
  let rg := ((kvals s.regions).filter (fun r => (List.range (min 256 r.tiles)).any (fun t => r.channel t == ch))).map (·.ctx)
  (fr ++ rg).dedup

/-- A loss noted in the dump that a frozen context still owes (R354). -/
def noteLoss (s : State) (c : Nat) (g : Fatal → Fatal) : State :=
  modCtx s c (fun x => if x.sealed then x else { x with frozen := x.frozen.map g })

/-- An array that loses its state: the owner's context takes INTEG, and the array is reset (R336). -/
def loseArray (s : State) (d : Nat) : State :=
  let a := (die s d).sa
  let s := match a.owner with
    | some o => noteLoss (integCtx s a.ctx) a.ctx (fun f => { f with arrays := f.arrays ++ [(d, o)] })
    | none => s
  modSa s d (fun _ => SArray.reset)

/-- Peers that no port reaches any longer leave the route table (R352). -/
def dropPeers (s : State) : State :=
  let up (n : Nat) : Bool := (span 12864 16).any (fun k => match mapRec s k with
    | some r => r.auxA.testBit 16 && r.auxA / 256 % 64 == n
    | none => false)
  modKeeper s (fun k => { k with peers := k.peers.filter (fun q => up q.1) })

/-- A Retriever that is not there any more, and runs, stops at its last command boundary: at once, or when the response that it awaits arrives (R23,
R24, R250). -/
def retireRet (s : State) (n : Nat) : State :=
  if (ret s n).state ≠ 2 then s
  else match (ret s n).cond with
    | .awaiting _ => modRet s n (fun r => { r with stop := true })
    | _ => stopRet s n 0 0

/-- What the engines do about one record that changed from `old` to `new`. `faults`: the faults that the increment took, a core
that could not be read out being part 1 of its record; `mine`: the lanes whose slices the caller handles. A pool that is not there
any more binds no hardware context, and the threads on its cores are pre-empted as those of retired cores are (log 36). -/
def engineAct (faults mine : List (Nat × Nat)) (s : State) (n : Nat) (old new : MapRec) : State :=
  let retired := recLive old && !recLive new
  match new.kind with
  | 0x02 => if retired then (span ((n - 16) * 16) 16).foldl (fun s k => retireCore s k false) s else s
  | 0x03 => if retired then retireCore s (n - 128) (faults.contains (n, 1)) else s
  | 0x04 => if retired then retireRet s (n - 2048) else s
  | 0x05 =>
    let g := n - 6144
    let lives (r : MapRec) (k : Nat) : Bool := recLive r && r.auxA.testBit k
    let gone := (List.range 32).filter (fun k => lives old k && !lives new k && !mine.contains (n, k))
    if gone.isEmpty then wakePool s (g / 32)
    else loseLanes s (g / 32) (gone.map (fun k => g % 32 * 32 + k)) (old.auxA.testBit 32)
  | 0x06 => dropWays s n (if recLive new then new.value else 0)
  | 0x0A => if retired then (channelCtxs s (n - 12320)).foldl integCtx s else s
  | 0x0C => dropPeers s
  | 0x0D =>
    let d := n - 12896
    if retired then loseArray s d
    else if new.auxA.testBit 0 then s
    else modSa (modKeeper s (fun k => { k with retested := kset k.retested d s.time })) d (fun a => { a with mode := false })
  | _ => s

/-- One increment of the map, which takes together all the reports that wait, and then what the engines do about it (R24, R341). -/
def applyMapBut (mine : List (Nat × Nat)) (s : State) (recs : List (Nat × MapRec)) : State :=
  let faults := s.keeper.waiting
  let all := composeRecs s recs faults
  let t := changeMap (modKeeper s (fun k => { k with waiting := [] })) all
  all.foldl (fun (t : State) (p : Nat × MapRec) =>
    match mapRec s p.1 with
    | some old => if recContent old != recContent p.2 then engineAct faults mine t p.1 old p.2 else t
    | none => t) t

/-- One increment of the map, and then what the engines do about it. -/
def applyMap (s : State) (recs : List (Nat × MapRec)) : State := applyMapBut [] s recs

/-- Lasting faults of parts of units reported to the management core (R341): they wait for its next increment, which it begins at
once unless `wait` says so. -/
def reportFaults (mine : List (Nat × Nat)) (s : State) (faults : List (Nat × Nat)) (wait : Bool) : State :=
  let s := modKeeper s (fun k => { k with waiting := k.waiting ++ faults })
  if wait || faults.isEmpty then s else applyMapBut mine s []

/-- MAP_CHANGE (R341): the management core applies a change, with the reports that wait. No record exceeds the figures of Table 0.2
(R2). -/
def execMapChange (s : State) : Out := .next (applyMap s (s.msg.recs.filter (fun p => figuresOk p.1 p.2)))

/-! ### Errors of lanes -/

/-- Data lanes of one group raise uncorrectable errors together: counted, and those at their third within a second reported, to be
retired (R188), before their slices are handled. -/
def laneErrors (s : State) (p : Nat) (ls : List Nat) (wait : Bool) : State :=
  let ls := ls.filter (laneLive s p)
  match ls with
  | [] => s
  | l :: _ =>
    let n := 6144 + p * 32 + l / 32
    let prot := groupProtected s p l
    let r := ls.foldl (fun (r : State × List Nat) (l : Nat) =>
      let q := noteError (countUnit r.1 n true) (errKey n (l % 32))
      (q.1, if q.2 then r.2 ++ [l] else r.2)) (s, [])
    loseLanes (reportFaults (ls.map (fun l => (n, l % 32))) r.1 (r.2.map (fun l => (n, l % 32))) wait) p ls prot

/-- LANE_LOST (R186 to R189). Its field `d` is 1 where the lanes' retirement waits for the management core's next increment. With its
flag, the spill area of context `c` in the pool has returned an uncorrectable LSP error (R189): no other row of the table tells of one,
so it comes with a lane of the pool (DESIGN CHOICE, log 37). -/
def execLaneLost (s : State) : Out :=
  let p := s.msg.a
  let l := s.msg.b
  if 96 ≤ p || 1024 ≤ l then .next s else
  let others := s.msg.nats.filter (fun k => k != l && k / 32 == l / 32)
  let t := laneErrors s p (l :: others).dedup (s.msg.d == 1)
  let c := s.msg.c
  .next (if s.msg.flag && !(holders s p c).isEmpty then noteLoss (integCtx t c) c (fun f => { f with lsp := f.lsp ++ [p] }) else t)

/-! ### Errors of units -/

/-- Data that an uncorrectable error has hit (R282): a granule of HBM or of a last-level cache slice is poisoned, and so is that
of a dirty line of an L2 slice; a clean line is dropped and fetched again. -/
def hitData (s : State) (n kind pa : Nat) : State :=
  match place s pa with
  | .byte loc =>
    let mark (s : State) : State := { s with poison := kset s.poison (granule s loc) [] }
    let d := (n - 10240) / 384
    if kind = 0x0A || kind = 0x08 then mark s
    else if kind = 0x06 then
      let t := dropL2 (dropLocal s (fun k => dieOfCore k == d) (pa / 128)) (· == d) (pa / 128)
      if l2Owns s d pa then mark t else t
    else s
  | _ => s

/-- An uncorrectable error of a core's instruction cache on a word of one of its threads (R162): with `sub` 2, the second on a
word about to issue, the thread takes INTEG; with 3 the word was only fetched ahead, and the error is counted for its context
(Table 13.8). -/
def fetchError (s : State) (n sub : Nat) (a : Agent) : State :=
  match a with
  | .ret _ => s
  | .thread t =>
    let x := thr s t
    if !hasThr s t || coreOf t + 128 != n || frozenCtx s x.ctx || suspendedCtx s x.ctx then s
    else if sub = 2 && (x.cond == .ready || x.cond == .waiting) then trapThread s t 5 0 0
    else if sub = 3 then countErr s x.ctx 0
    else s

/-- UNIT_ERROR (R336, R342, R353): an error is counted and noted, and the third of one unit within a second is lasting: of a data lane,
the third uncorrectable one (R188). Its field `c` is 1 where a lasting fault waits for the management core's next increment. -/
def execUnitError (s : State) : Out :=
  let n := s.msg.a
  let sub := s.msg.b
  let wait := s.msg.c == 1
  match mapRec s n with
  | none => .next s
  | some r =>
    let unc := s.msg.flag || (r.kind == 0x0D && sub == 1)
    if r.kind = 0x05 && sub < 32 then
      .next (if unc then laneErrors s ((n - 6144) / 32) [(n - 6144) % 32 * 32 + sub] wait else countUnit s n false)
    else
      let part := if r.kind = 0x05 then 32 else if r.kind = 0x0D then sub else 0
      let (t, lasting) := noteError (countUnit s n unc) (errKey n part)
      let t := if unc then s.msg.nats.foldl (fun t pa => hitData t n r.kind pa) t else t
      let t := if unc && r.kind = 0x03 then fetchError t n sub s.msg.agent else t
      let t := if lasting then reportFaults [] t [(n, sub)] wait else t
      .next (if unc && r.kind = 0x0D && sub = 0 && (wait || !lasting) then loseArray t (n - 12896) else t)

/-- ENTROPY_RETEST (R322): the source of an array that is there, with its bit clear, is tested again, once every second. A pass, which the message's flag says or a
free value where its field `b` is 1 (log 13), sets AUXA[0] and restores STATE live. -/
def execEntropyRetest (s : State) : Out :=
  let d := s.msg.a
  let n := saRec d
  match mapRec s n with
  | some r =>
    if 4 ≤ d || !recLive r || r.auxA.testBit 0 || s.time < kget s.keeper.retested d 0 + 10 ^ 9 then .next s
    else
      let (v, t) := if s.msg.b = 1 then drawWord s else (BitVec.ofNat 64 s.msg.flag.toNat, s)
      let t := modKeeper t (fun k => { k with retested := kset k.retested d s.time })
      .next (if v.getLsbD 0 then applyMap t [(n, { r with state := 1, auxA := r.auxA + 1 })] else t)
  | none => .next s

/-! ### Links -/

/-- LINK_RETRAIN (R342, R352): a die-to-die link or a joined Packlink port trains at a number of lanes; a port with none goes down. -/
def execLinkRetrain (s : State) : Out :=
  let n := s.msg.a
  let lanes := s.msg.b
  match mapRec s n with
  | none => .next s
  | some r =>
    if r.kind = 0x0B then
      if lanes = 0 || r.auxA / 256 % 256 < lanes then .next s else .next (applyMap s [(n, linkAt n lanes r)])
    else if r.kind = 0x0C then
      if 4 < lanes || !r.auxA.testBit 16 then .next s else .next (applyMap s [(n, portAt lanes r)])
    else .next s

/-- A list cut into pairs. -/
def pairs : List Nat → List (Nat × Nat)
  | x :: y :: r => (x, y) :: pairs r
  | _ => []

/-- PACKLINK_LINK_UP (R352): a port trains, its peer joins under its number, and the windows exported to it are in force, at
most 16. -/
def execPacklinkLinkUp (s : State) : Out :=
  let n := 12864 + s.msg.a
  let peer := s.msg.b
  let lanes := s.msg.c
  match mapRec s n with
  | none => .next s
  | some r =>
    if 16 ≤ s.msg.a || peer < 1 || 63 < peer || lanes < 1 || 4 < lanes || r.auxA.testBit 16 then .next s
    else
      let s := modKeeper s (fun k => { k with peers := kset k.peers peer { windows := (pairs s.msg.nats).take 16 } })
      .next (applyMap s [(n, portAt lanes { r with auxA := peer * 256 })])

end Sys2Proof.Machine
end

