-- ==== Sys2Proof/Machine/Power.lean ====
section
/-! DEFINITION. Trust and bring-up (R359, R362), clocks (R363), power (R364) and cooling (R365), and the operator's firmware and
key requests (R351). -/

namespace Sys2Proof.Machine

/-! ### Clocks, power and heat -/

/-- The records as a compute die's clock is set: its clock record, and its die record, degraded below nominal (R340, R363). -/
def clockRecs (s : State) (d mhz : Nat) : List (Nat × MapRec) :=
  let st (r : MapRec) : MapRec := { r with state := if mhz < 1000 then 2 else 1 }
  editRec s (12928 + d) (fun r => st { r with value := mhz }) ++ editRec s (1 + d) st

/-- The records as a compute die's clock moves one step of 100 MHz, within 500 to 1,000, where the clock is there (R363). -/
def stepRecs (s : State) (d : Nat) (up : Bool) : List (Nat × MapRec) :=
  match mapRec s (12928 + d) with
  | none => []
  | some r =>
    if 4 ≤ d || !recLive r then []
    else if up then (if 1000 ≤ r.value then [] else clockRecs s d (r.value + 100))
    else if r.value ≤ 500 then [] else clockRecs s d (r.value - 100)

/-- Clocks changed, where any is, in one increment (R341). -/
def applyClocks (s : State) (recs : List (Nat × MapRec)) : State := if recs.isEmpty then s else applyMap s recs

/-- A compute die's clock moved one step. -/
def stepClock (s : State) (d : Nat) (up : Bool) : State := applyClocks s (stepRecs s d up)

/-- CLOCK_STEP (R363). -/
def execClockStep (s : State) : Out := .next (stepClock s s.msg.a s.msg.flag)

/-- POWER_SAMPLE (R364): over the limit, firmware lowers a die's clock. -/
def execPowerSample (s : State) : Out :=
  let t := modKeeper s (fun k => { k with watts := s.msg.a })
  .next (if 3200 < s.msg.a then stepClock t s.msg.b false else t)

/-- A die's temperature in its record, outside the versioned content (R341). -/
def setTemp (s : State) (d temp : Nat) : State :=
  match mapRec s (1 + d) with
  | some r => if 13 ≤ d then s else modKeeper s (fun k => { k with map := kset k.map (1 + d) { r with auxA := temp } })
  | none => s

/-- What heat does to a compute die's clock (R365): from 100 °C one step down every 10 ms until below 95 °C, and then one step
up every 100 ms: what governs the clock from then on, with the time of the last step, and the step made, up or down. -/
def heatStep (s : State) (d temp : Nat) : Option (Bool × Nat) × Option Bool :=
  match kfind s.keeper.hot d with
  | none => if 100 ≤ temp then (some (true, s.time), some false) else (none, none)
  | some (true, t) =>
    if temp < 95 then (some (false, s.time), none)
    else if t + 10 ^ 7 ≤ s.time then (some (true, s.time), some false) else (some (true, t), none)
  | some (false, t) =>
    if 100 ≤ temp then (some (true, s.time), some false)
    else if t + 10 ^ 8 ≤ s.time then
      (if (match mapRec s (12928 + d) with | some r => decide (900 ≤ r.value) | none => true) then none else some (false, s.time),
        some true)
    else (some (false, t), none)

/-- What heat governs of a compute die's clock, noted. -/
def putHot (s : State) (d : Nat) (x : Option (Bool × Nat)) : State := modKeeper s (fun k => { k with
  hot := match x with | some y => kset k.hot d y | none => kdel k.hot d })

/-- TEMPERATURE_REFRESH (R341, R365): each die's temperature, the thermal steps of all of them in one increment, and the cut at
110 °C. -/
def execTemperatureRefresh (s : State) : Out :=
  let ts := s.msg.nats.zipIdx.filter (fun p => p.2 < 13)
  let s := ts.foldl (fun (s : State) (p : Nat × Nat) => setTemp s p.2 p.1) s
  let steps := (ts.filter (fun p => p.2 < 4)).map (fun p => (p.2, heatStep s p.2 p.1))
  let recs := steps.flatMap (fun p => match p.2.2 with | some up => stepRecs s p.1 up | none => [])
  let s := applyClocks (steps.foldl (fun s p => putHot s p.1 p.2.1) s) recs
  .next (owe s ((ts.filter (fun p => 110 ≤ p.1)).map (fun p => ev .thermalShutdown p.2 p.1)))

/-- What outlasts the loss of power: the fuses, the flash, the operator key and the nonces used. -/
def coldKeeper (k : Keeper) : Keeper :=
  { Keeper.reset with
    rootDigest := k.rootDigest, fusedVersion := k.fusedVersion, slots := k.slots, active := k.active, first := k.first
    opKey := k.opKey, nonces := k.nonces }

/-- The part without power: nothing volatile of its own is left; the memory of the host and of peers stays (R365). -/
def powerOff (s : State) : State :=
  { State.reset with
    schedule := s.schedule, free := s.free, nextId := s.nextId, prefer := s.prefer
    mem := { cells := s.mem.cells.filter (fun c => offPart c.1) }
    keeper := { coldKeeper s.keeper with on := false } }

/-- THERMAL_SHUTDOWN (R365): at 110 °C on any die the hub cuts power; every context is lost without a dump. -/
def execThermalShutdown (s : State) : Out := if 13 ≤ s.msg.a || s.msg.b < 110 then .next s else .next (powerOff s)

/-! ### Firmware -/

/-- The bytes of a firmware image that its signature covers (log 6). -/
def fwBytes (f : FwImage) : List Byte :=
  leBytes 4 f.secVersion ++ (match f.raiseTo with | some v => 1 :: leBytes 4 v | none => [0]) ++ f.body

/-- The boot ROM's checks of an image (R359). -/
def fwOk (k : Keeper) (f : FwImage) : Bool :=
  sha256 f.rootKey == k.rootDigest && Config.verify f.rootKey (fwBytes f) f.sig && decide (k.fusedVersion ≤ f.secVersion)

/-- The slot that the boot ROM starts: the one tried first, or else the other (R359). -/
def bootSlot (k : Keeper) : Option (Nat × FwImage) :=
  [k.first, 1 - k.first].findSome? (fun i => match k.slots[i]? with
    | some f => if fwOk k f then some (i, f) else none
    | none => none)

/-- What the failure of a memory die's stack changes: it is retired with its channels, and the bytes of every frame that has a
granule there are not present (R270, R340). -/
def stackRecs (s : State) (m : Nat) : List (Nat × MapRec) :=
  editRec s (12288 + m) (fun r => { r with state := 3, value := 0, auxA := 0, auxB := 0 }) ++
    (span (12320 + 32 * m) 32).flatMap (fun n => editRec s n (fun r => { r with state := 3 })) ++
    editRec s 0 (fun h => { h with auxA := h.auxA - channelBytes s (32 * m) - channelBytes s (32 * m + 16) })

/-- The records of a unit, or of a part of one, that failed its self-test: what a lasting fault of it changes (Table 13.4), or,
where that table has none, the unit retired. -/
def failRecs (s : State) (n sub : Nat) : List (Nat × MapRec) :=
  if 12288 ≤ n ∧ n < 12296 then stackRecs s (n - 12288)
  else match lastingRecs s n sub with
    | [] => editRec s n (fun r => { r with state := 3 })
    | l => l

/-- A unit, or a part of one, that failed its self-test recorded so as the map is built (R362 step 5). -/
def failUnit (k : Keeper) (n sub : Nat) : Keeper :=
  let recs := failRecs { State.reset with keeper := k } n sub
  { k with map := recs.foldl (fun m p => kset m p.1 { p.2 with changed := 1 }) k.map }

/-- POWER_GOOD (R359, R362): the boot checks; then clocks, training, self-test and the map at version 1. The units that failed
are given by their record numbers, each with its part as VALUE. Where no slot passes, the part stays in reset, with power, and
the physical function reports the failure. -/
def execPowerGood (s : State) : Out :=
  let t := powerOff s
  match bootSlot t.keeper with
  | none => .next { t with keeper := { t.keeper with on := true, failed := true } }
  | some (i, f) =>
    let k := { t.keeper with
      on := true, booted := true, version := 1, active := i, first := i
      fusedVersion := match f.raiseTo with | some v => max t.keeper.fusedVersion v | none => t.keeper.fusedVersion }
    .next { t with keeper := s.msg.recs.foldl (fun k p => failUnit k p.1 p.2.value) k }

/-- An image written to a slot of the two. -/
def putFw (l : List FwImage) (i : Nat) (f : FwImage) : List FwImage :=
  (l ++ List.replicate (2 - l.length) Msg.empty.fw).set i f

/-- FIRMWARE_UPDATE (R351, R359): the inactive slot is written, and is tried first at the next reset. -/
def execFirmwareUpdate (s : State) : Out :=
  if !s.keeper.booted then .next s
  else .next (modKeeper s (fun k => { k with slots := putFw k.slots (1 - k.active) s.msg.fw, first := 1 - k.active }))

/-- OPERATOR_KEY (R351): the operator's P-256 public key is provisioned. -/
def execOperatorKey (s : State) : Out :=
  if !s.keeper.booted then .next s else .next (modKeeper s (fun k => { k with opKey := s.msg.bytes }))

end Sys2Proof.Machine
end

