-- ==== Sys2Proof/Machine/Regions.lean ====
section
/-! DEFINITION. Setting tensor regions up and tearing them down (R283 to R288), and destroying a context (R350). -/

namespace Sys2Proof.Machine

/-! ### Tensor regions -/

/-- The bytes that a region takes from ordinary memory (R285). -/
def Region.lent (r : Region) : Nat := r.rowsTaken * 512 * 1024
/-- The views of a region: the store view only for a decode region (R283). -/
def Region.views (r : Region) : List Nat := if r.decode then [0, 1, 2, 3] else [0, 1, 2]
/-- The address of a view of a region, given its first. -/
def Region.viewCva (r : Region) (v : Nat) : Nat := r.cva + v * 2 ^ 38
/-- The pages of a view (R283). -/
def Region.viewPages (r : Region) (v : Nat) : Nat := (r.viewSize v + 4095) / 4096

/-- Whether a region is such as may scale another (R288). -/
def Region.scales (r : Region) : Bool := r.fmt == 8 && r.native == 0 && !r.decode

/-- Whether a region's shape is one that R283, R284 and Table 10.6 admit. -/
def regionShapeOk (r : Region) : Bool :=
  decide (1 ≤ r.rows ∧ r.rows < 2 ^ 32 ∧ 1 ≤ r.cols ∧ r.cols < 2 ^ 32 ∧ r.native ≤ 2) &&
    (if r.decode then decide (0x0D ≤ r.fmt ∧ r.fmt ≤ 0x0F) else decide (1 ≤ r.fmt ∧ r.fmt ≤ 0x0C ∧ r.fmt ≠ 4)) &&
    (r.scales || (r.rows % r.tr == 0 && r.cols % r.tc == 0)) && decide (r.tiles ≤ 2 ^ 25)

/-- Whether the region that scales another keeps R288. -/
def scaleOk (s : State) (r : Region) : Bool :=
  !r.scaled || (r.decode && match kfind s.regions r.scale with
    | some q => q.ctx == r.ctx && q.scales && q.rows == r.rows / r.tr && q.cols == r.cols / r.tc
    | none => false)

/-- Whether no tile of a region lies on a retired channel. -/
def tilesLive (s : State) (r : Region) : Bool :=
  (List.range (min 256 r.tiles)).all (fun t => !channelRetired s (r.channel t))

/-- The channel offset: four times the region's number, or the next that keeps its tiles off retired channels (log 3). -/
def chooseChoff (s : State) (n : Nat) (r : Region) : Option Nat :=
  ((List.range 256).map (fun i => (4 * n + i) % 256)).find? (fun k => tilesLive s { r with choff := k })

/-- The runs of rows in use: those lent to regions, the rows of the frames given to contexts, and those of the tables at the top of
HBM (R285). -/
def usedRows (s : State) : List (Nat × Nat) :=
  (kvals s.regions).map (fun q => (q.rowbase, q.rowsTaken)) ++ ((s.keeper.frames.map (fun f => f.1 / 128)).eraseDups).map (fun r => (r, 1)) ++
    (if s.keeper.table = 0 then [] else [((2 ^ 27 - s.keeper.table) / 128, (s.keeper.table + 127) / 128 + 1)])

/-- The lowest free run of rows for a region, of the 2^20 rows of a channel (log 3). -/
def chooseRow (s : State) (r : Region) : Option Nat :=
  let used := usedRows s
  let at_ := (0 :: used.map (fun q => q.1 + q.2)).filter (fun b =>
    decide (b + r.rowsTaken ≤ 2 ^ 20) && used.all (fun q => !meets (b, r.rowsTaken) q))
  at_.foldl (fun m b => match m with | none => some b | some y => some (min y b)) none

/-- The bytes that a region store takes from ordinary memory, or gives back to it: its rows but for those of channels whose frames have
been withdrawn (R285, R346). -/
def lentOrdinary (s : State) (r : Region) : Nat := ((List.range 16).filter (fun i => !groupGone s (16 * i))).length * (r.rowsTaken * 2 ^ 15)

/-- The header record as bytes are lent to region stores, or come back (R285). -/
def lendRecs (s : State) (rs : List Region) (back : Bool) : List (Nat × MapRec) :=
  editRec s 0 (fun h => rs.foldl (fun h r =>
    if back then { h with auxA := h.auxA + lentOrdinary s r, auxB := h.auxB - r.lent }
    else { h with auxA := h.auxA - lentOrdinary s r, auxB := h.auxB + r.lent }) h)

/-- Whether ordinary memory can spare a region's store. -/
def canLend (s : State) (r : Region) : Bool :=
  match mapRec s 0 with
  | some h => decide (lentOrdinary s r + (s.keeper.frames.length + s.keeper.table) * 4096 ≤ h.auxA)
  | none => false

/-- A region set up under a number (R283): its register, its zeroed store, its views mapped. -/
def putRegion (s : State) (n : Nat) (r : Region) (kind : BitVec 2) : State :=
  let s := applyMap s (lendRecs s [r] false)
  let s := { s with regions := kset s.regions n r, mem := s.mem.zero (storeLoc n 0) (2 ^ 38) }
  r.views.foldl (fun s v => mapPages s r.ctx (r.viewCva v) (2 * 2 ^ 46 + v * 2 ^ 44 + n * 2 ^ 38) (r.viewPages v) kind
    (!r.decode || v == 3) true) s

/-- Whether a granule number lies in a region's apertures. -/
def granuleIn (n g : Nat) : Bool := g / 2 ^ 38 == 2 && g / 2 ^ 30 % 64 == n

/-- A region torn down (R283): its views are unmapped, its store is scrubbed, its rows return. -/
def tearRegion (s : State) (n : Nat) (r : Region) : State :=
  let s := r.views.foldl (fun s v => unmapPages s r.ctx (r.viewCva v) (r.viewPages v)) s
  let gone := (s.marks.filter (fun m => granuleIn n m.1)).map (·.1)
  let s := gone.foldl (fun s g => putMark s g none) s
  let keep (l : List Way) : List Way := l.filter (fun w => !granuleIn n (w.line / 2))
  { llcDrop s (fun l => granuleIn n (l / 2)) with
    regions := kdel s.regions n
    mem := s.mem.zero (storeLoc n 0) (2 ^ 38)
    poison := s.poison.filter (fun g => !granuleIn n g.1)
    local1 := s.local1.map (fun p => (p.1, keep p.2))
    dies := s.dies.map (fun p => (p.1, { p.2 with l2 := p.2.l2.map (fun q => (q.1, keep q.2)) })) }

/-- Regions torn down together: the header tells of all of them in one increment (R341). -/
def freeRegions (s : State) (l : KMap Region) : State :=
  if l.isEmpty then s else
  let s := l.foldl (fun (s : State) (r : Nat × Region) => tearRegion s r.1 r.2) s
  applyMap s (lendRecs s (kvals l) true)

/-! ### Destroying a context -/

/-- The tables that the entries of some tables point to. -/
def tablesBelow (s : State) (ts : List Nat) : List Nat :=
  (s.pt.filter (fun e => ts.contains (e.1 / 4096) && e.2.getLsbD 0)).map (fun e => field e.2 12 36)

/-- The page tables of a context given up. -/
def dropTables (s : State) (root : Nat) : State :=
  let t1 := tablesBelow s [root]
  let t2 := tablesBelow s t1
  let all := root :: (t1 ++ t2 ++ tablesBelow s t2)
  { s with pt := s.pt.filter (fun e => !all.contains (e.1 / 4096)) }

/-- The agents and engine work of a context gone: threads, Retrievers, stores, tasks, copies and arrays, its marks and messages, and
its trace entries, which the number's next holder is never given (R350, R358). -/
def dropAgents (s : State) (c : Nat) : State :=
  let mine (a : Agent) : Bool := agentCtx s a == c && (match a with | .thread t => hasThr s t | .ret n => (kfind s.rets n).isSome)
  let ts := (s.threads.filter (fun t => t.2.ctx == c)).map (·.1)
  let stores := s.stores.filter (fun p => !mine p.agent)
  let s := clearMarksOf s c
  let runs := (kvals s.tasks).filter (fun t => t.ctx == c && t.runSize != 0)
  let gone := (s.tasks.filter (fun t => t.2.ctx == c)).map (·.1)
  { s with
    stores := stores
    rets := s.rets.filter (fun r => match r.2.owner with | some t => !ts.contains t | none => true)
    threads := s.threads.filter (fun t => t.2.ctx != c)
    tasks := s.tasks.filter (fun t => t.2.ctx != c)
    mem := runs.foldl (fun m t => m.zero t.runPa t.runSize) s.mem
    cores := s.cores.map (fun k => (k.1, { k.2 with
      forgo := k.2.forgo.filter (fun h => !ts.contains (k.1 * 17 + h)), trace := k.2.trace.filter (fun e => e.ctx != c) }))
    pools := s.pools.map (fun p => (p.1, { p.2 with
      ready := p.2.ready.filter (fun t => t.ctx != c), copies := p.2.copies.filter (fun y => y.ctx != c) }))
    dies := s.dies.map (fun d => (d.1, { d.2 with
      retain := d.2.retain.filter (fun r => r.2.ctx != c)
      sa := if d.2.sa.owner.isSome && d.2.sa.ctx == c then SArray.reset else d.2.sa }))
    tenants := s.tenants.map (fun n => (n.1, { n.2 with
      out := n.2.out.map (fun o => (o.1, o.2.filter (fun e => !gone.contains e.task))) })) }

/-- The ranges of a pool that an entry gives its context scrubbed: window, spill region and shares. -/
def scrubEntry (s : State) (p : Nat) (e : SlotEntry) : State :=
  let m := (s.mem.zero (lspPa p (e.win.1 * 4096)) (e.win.2 * 4096)).zero (lspPa p (e.spill.1 * 4096)) (e.spill.2 * 4096)
  { s with mem := (List.range 16).foldl (fun m k =>
      if e.cores.testBit k then m.zero (sramPa (p * 16 + k) (e.share.1 * 4096)) (e.share.2 * 4096) else m) m }

/-- A context's entries of a pool taken away, their ranges scrubbed. -/
def dropEntries (s : State) (c p : Nat) : State :=
  let mine := (kvals (pool s p).slots).filter (fun e => e.valid && e.ctx == c)
  if mine.isEmpty then s
  else
    let s := mine.foldl (fun s e => scrubEntry s p e) s
    pump (putSlots s p ((pool s p).slots.filter (fun e => !(e.2.valid && e.2.ctx == c)))) p

/-- A context destroyed (R350): everything it held is scrubbed and released, its port is free, and its sealed images stay. -/
def destroyCtx (s : State) (c : Nat) : State :=
  match ctx? s c with
  | none => s
  | some x =>
    let s := dropAgents s c
    let s := s.pools.foldl (fun (s : State) (p : Nat × Pool) => dropEntries s c p.1) s
    let s := freeRegions s (s.regions.filter (fun r => r.2.ctx == c))
    let s := (s.keeper.frames.filter (fun f => f.2 == c)).foldl (fun (s : State) (f : Nat × Nat) => dropFrame s f.1) s
    let s := dropTables s x.root
    let s := modPort s x.tenant x.port (fun q => { q with ctx := none, queue := [] })
    { s with ctxs := kdel s.ctxs c }

end Sys2Proof.Machine
end

