-- ==== Sys2Proof/Machine/Mailbox.lean ====
section
/-! DEFINITION. The mailbox of a tenant's function and its requests (R349, R350, Table 13.7). -/

namespace Sys2Proof.Machine

/-! ### Arrival and response -/

/-- What the management core makes of a request: it goes on waiting, or it answers with a result of R349 and its data. -/
inductive Reply where
  | wait (s : State)
  | done (s : State) (result : Nat) (data : List Word)
  deriving DecidableEq, Repr

/-- A result without data. -/
def Reply.plain (s : State) (result : Nat) : Reply := .done s result []

/-- The request code of a row (Table 13.7). -/
def requestCode : Instr → Nat
  | .ctxnew => 1 | .ctxdel => 2 | .load => 3 | .map => 4 | .unmap => 5 | .region => 6 | .regfree => 7 | .mailboxRmack => 8
  | .mapread => 9 | .logctl => 10 | .dumpfree => 11 | .trace => 12 | .errs => 13 | .attest => 14
  | _ => 0

/-- The host tag of a request's doubleword 0 (R349). -/
def requestTag (w : Nat) : Nat := w / 2 ^ 32 % 2 ^ 32

/-- A response (R349): RESP, DONE and vector 5. -/
def answer (s : State) (tn tag result : Nat) (data : List Word) : State :=
  let w : Word := BitVec.ofNat 64 (tag % 2 ^ 32 * 2 ^ 32 + result)
  raiseIrq (modTenant s tn (fun t => { t with resp := ((w :: data) ++ List.replicate 7 0).take 8, done := t.done + 1 })) tn 5

/-- A request that has been posted as the `n`-th of its function is served in order of arrival, or goes on waiting (R349). -/
def servePosted (i : Instr) (serve : State → Reply) (s : State) (m : Msg) (n : Nat) : State :=
  let t := tenant s m.a
  let again (s : State) : State := owe s [(i, { m with nats := [n] })]
  if n ≤ t.done.toNat || t.posted.toNat < n then s
  else if t.done.toNat + 1 < n then again s
  else match serve s with
    | .wait s => again s
    | .done s result data => answer s m.a (requestTag m.b) result data

/-- A request that reaches a mailbox (R349): dropped where 16 are pending or the function is not enabled, else posted. Field `b` of the
message is doubleword 0 of REQ: one whose code is that of another row is no step of this row, and a code that Table 13.7 does not list
is answered with BADARG (DESIGN CHOICE, log 33). A message with a number in it is one posted before. -/
def request (i : Instr) (serve : State → Reply) (s : State) : Out :=
  let m := s.msg
  let code := m.b % 256
  let serve : State → Reply := if code = requestCode i then serve else fun s => .plain s 2
  if 1 ≤ code ∧ code ≤ 14 ∧ code ≠ requestCode i then .next s else
  match m.nats with
  | n :: _ => .next (servePosted i serve s m n)
  | [] =>
    let t := tenant s m.a
    if 16 ≤ m.a || !t.enabled || 16 ≤ (t.posted - t.done).toNat then .next s
    else .next (servePosted i serve (modTenant s m.a (fun t => { t with posted := t.posted + 1 })) m (t.posted + 1).toNat)

/-- A request refused with DENIED, and counted (R350). -/
def denyRequest (s : State) (tn : Nat) : Reply :=
  .plain (modTenant s tn (fun t => { t with refused := t.refused + 1 })) 1

/-- A request about a context of the requester's tenant (R350). -/
def onCtx (serve : State → Nat → Ctx → Reply) (s : State) : Reply :=
  match ctx? s s.msg.c with
  | some x => if x.tenant = s.msg.a then serve s s.msg.c x else denyRequest s s.msg.a
  | none => denyRequest s s.msg.a

/-- A number as a doubleword of data. -/
def dataWord (n : Nat) : Word := BitVec.ofNat 64 n

/-! ### Contexts -/

/-- The lowest free context of the package, and the tenant's lowest free port (R296). -/
def freeCtx (s : State) : Option Nat := (List.range 256).find? (fun c => (ctx? s c).isNone)
/-- The lowest launch port of a tenant that no context holds (R296). -/
def freePort (s : State) (tn : Nat) : Option Nat := (List.range 4).find? (fun k => (port s tn k).ctx.isNone)

/-- A context made (R296, R349, R368): its code heap at 2^32, its aperture base at 2^33 (log 3). What the keeper grants is not
stated: a free value (log 13). The lanes, pools and scratch wanted are kept for the keeper's choice. Table 13.7 lists no argument
that gives TVEC and SMVEC (R112): they come with the request, in fields `d` and `e` of its message, and one that is no multiple of 8
is taken as it is, so that the fetch of the handler's first word takes ALIGN (R26; DESIGN CHOICE, log 33). A heap size
of 0, one that is no multiple of 4,096 and one above R158's 4 GiB are BADARG (DESIGN CHOICE, log 33). -/
def newCtx (s : State) : Reply :=
  let m := s.msg
  if m.c = 0 || m.c % 4096 ≠ 0 || 2 ^ 32 < m.c then .plain s 2
  else match freeCtx s, freePort s m.a with
  | some c, some k =>
    let heap : Seg := { base := BitVec.ofNat 48 (2 ^ 32), limit := BitVec.ofNat 48 m.c, r := true, w := false, x := true, v := false }
    let (root, s) := newTable s
    let (grant, s) := drawWord s
    let x : Ctx := { Ctx.fresh m.a heap root (2 ^ 33) k s.keeper.version with
      wanted := (m.words.take 3).map (·.toNat), tvec := BitVec.ofNat 64 m.d, smvec := BitVec.ofNat 64 m.e }
    let s := modPort { s with ctxs := kset s.ctxs c x } m.a k (fun q => { q with ctx := some c })
    .done s 0 [dataWord c, dataWord k, dataWord (2 ^ 32), dataWord (2 ^ 33), grant]
  | _, _ => .plain s 4

/-- CTXNEW (R349). -/
def execCtxnew (s : State) : Out := request .ctxnew newCtx s

/-- A context destroyed at request (R350): a frozen one only once its dump is sealed, the request waiting for that; accesses it has
made are performed first (R107). -/
def delCtx (s : State) (c : Nat) (x : Ctx) : Reply :=
  if x.frozen.isSome && !x.sealed then .wait s
  else if pginvBusy s c 0 0 then
    .wait (settleClosing { s with pools := s.pools.map (fun p => (p.1, { p.2 with
      copies := p.2.copies.map (fun y => if y.ctx = c then { y with closing := true } else y) })) })
  else .plain (destroyCtx s c) 0

/-- CTXDEL (R350). -/
def execCtxdel (s : State) : Out := request .ctxdel (onCtx delCtx) s

/-! ### Loading and mapping -/

/-- A load (R157, R166): the file is read from the tenant's host memory; the data are the status with B and D, or with the index
of the failing record. -/
def serveLoad (s : State) (c : Nat) (_x : Ctx) : Reply :=
  let m := s.msg
  if 2 ^ 40 < m.d + m.e then .plain s 2
  else match loadObject s c ((span (hostLoc m.a m.d) m.e).map s.mem.get) with
    | .ok (s, b, d) => .done s 0 [0, dataWord b, dataWord d]
    | .error e => .done s 0 [dataWord e.status, dataWord (e.record.getD 0)]

/-- LOAD (R157). -/
def execLoad (s : State) : Out := request .load (onCtx serveLoad) s

/-- Whether a range is one of whole pages below 2^48. -/
def pageRange (cva len : Nat) : Bool := cva % 4096 == 0 && len % 4096 == 0 && len != 0 && decide (cva + len ≤ 2 ^ 48)

/-- What is left of a mapping outside a range. -/
def cutMapping (lo n : Nat) (m : Mapping) : List Mapping :=
  let hi := lo + n
  let top := m.cva + m.len
  if !meets (lo, n) (m.cva, m.len) then [m]
  else
    (if m.cva < lo then [{ m with len := lo - m.cva }] else []) ++
      (if hi < top then [{ m with cva := hi, len := top - hi, host := m.host + (hi - m.cva) }] else [])

/-- Whether the driver has mapped every page of a range. -/
def allMapped (x : Ctx) (lo n : Nat) : Bool :=
  decide (n ≤ ((x.maps.map (fun m => (min (lo + n) (m.cva + m.len)) - max lo m.cva)).sum))

/-- The mapping that a request asks for. -/
def askedMapping (q : MapReq) : Mapping :=
  { cva := q.cva, len := q.len, sort := q.sort, kind := q.kind, r := q.r, w := q.w, ahead := q.ahead, host := q.host }

/-- The kind and rights of pages changed, each with its frame where it is present. -/
def rekindPages (s : State) (c : Nat) (q : MapReq) : State :=
  (List.range (q.len / 4096)).foldl (fun s i =>
    let page := q.cva / 4096 + i
    let e := pageEntry s c page
    setLeaf s (rootOf s c) (page * 4096) (ptEntry (field e 12 36 * 4096) q.kind false q.w q.r (e.getLsbD 1))) s

/-- MAP's service (R268, R269): a new mapping of pages brought in when they are touched, or a change of kind, rights and
read-ahead over pages mapped already, once every access under the old mapping is performed. -/
def serveMap (s : State) (c : Nat) (x : Ctx) : Reply :=
  let q := s.msg.map
  if !pageRange q.cva q.len || 1 < q.sort || q.kind = 3 || 15 < q.ahead || q.host % 4096 ≠ 0 || 2 ^ 40 < q.host + q.len ||
      (fixedRanges s c).any (fun r => meets (q.cva, q.len) r) then .plain s 2
  else if x.maps.all (fun m => !meets (q.cva, q.len) (m.cva, m.len)) then
    .plain (modCtx (mapAbsent s c q.cva (q.len / 4096) q.kind false q.w q.r) c (fun x => { x with
      maps := x.maps ++ [askedMapping q] })) 0
  else if !allMapped x q.cva q.len then .plain s 2
  else if pginvBusy s c q.cva q.len then .wait s
  else .plain (modCtx (rekindPages s c q) c (fun x => { x with
    maps := x.maps.flatMap (cutMapping q.cva q.len) ++ [askedMapping q] })) 0

/-- MAP (R268). -/
def execMap (s : State) : Out := request .map (onCtx serveMap) s

/-- The frames of a range's present pages given back. -/
def dropRange (s : State) (c cva n : Nat) : State :=
  (List.range n).foldl (fun s i =>
    let e := pageEntry s c (cva / 4096 + i)
    if e.getLsbD 0 && e.getLsbD 1 then dropFrame s (field e 12 36) else s) s

/-- UNMAP's service (R268): pages that the driver mapped, once every access under the old mapping is performed. -/
def serveUnmap (s : State) (c : Nat) (x : Ctx) : Reply :=
  let cva := s.msg.d
  let len := s.msg.e
  if !pageRange cva len || !allMapped x cva len then .plain s 2
  else if pginvBusy s c cva len then .wait s
  else .plain (modCtx (unmapPages (dropRange s c cva (len / 4096)) c cva (len / 4096)) c (fun x => { x with
    maps := x.maps.flatMap (cutMapping cva len) })) 0

/-- UNMAP (R268). -/
def execUnmap (s : State) : Out := request .unmap (onCtx serveUnmap) s

/-! ### Regions -/

/-- The region that a request asks for, its place not yet chosen. -/
def askedRegion (c : Nat) (q : RegionReq) : Region :=
  { ctx := c, choff := 0, scaled := q.scaled, scale := q.scale, decode := q.decode, native := q.native.toNat
    fmt := q.fmt.toNat, rows := q.rows, cols := q.cols, rowbase := 0, cva := 0 }

/-- Whether a region number belongs to a tenant. -/
def regionOf (s : State) (tn n : Nat) : Bool :=
  match kfind s.regions n with | some r => tenantOf s r.ctx == tn | none => false

/-- REGION's service (R283): the data are the region's number and the address of each view mapped. -/
def serveRegion (s : State) (c : Nat) (_x : Ctx) : Reply :=
  let q := s.msg.region
  let r := askedRegion c q
  if q.scaled && !regionOf s s.msg.a q.scale then denyRequest s s.msg.a
  else if !regionShapeOk r || !scaleOk s r || q.kind = 3 then .plain s 2
  else match (List.range 64).find? (fun n => (kfind s.regions n).isNone), chooseRow s r, placeCva s c (2 ^ 40) (2 ^ 40) with
    | some n, some row, some cva =>
      match chooseChoff s n r with
      | none => .plain s 4
      | some k =>
        if !canLend s r then .plain s 4
        else
          let r := { r with choff := k, rowbase := row, cva := cva }
          .done (putRegion s n r q.kind) 0 (dataWord n :: r.views.map (fun v => dataWord (r.viewCva v)))
    | _, _, _ => .plain s 4

/-- REGION (R283). -/
def execRegion (s : State) : Out := request .region (onCtx serveRegion) s

/-- REGFREE's service (R283): a region that still scales another is busy (log 3). -/
def serveRegfree (s : State) (c : Nat) (_x : Ctx) : Reply :=
  let n := s.msg.d
  if !regionOf s s.msg.a n then denyRequest s s.msg.a
  else match kfind s.regions n with
    | none => denyRequest s s.msg.a
    | some r =>
      if r.ctx ≠ c then .plain s 2
      else if (kvals s.regions).any (fun q => q.scaled && q.scale == n) then .plain s 3
      else if pginvBusy s c 0 0 then .wait s
      else .plain (freeRegions s [(n, r)]) 0

/-- REGFREE (R283). -/
def execRegfree (s : State) : Out := request .regfree (onCtx serveRegfree) s

/-! ### The map, logs and counts -/

/-- RMACK from the driver (R343). -/
def execMailboxRmack (s : State) : Out :=
  request .mailboxRmack (onCtx (fun s c _ =>
    let r := ackVersion s c s.msg.d true
    .done r.1 0 [dataWord r.2])) s

/-- MAPREAD (R349). -/
def execMapread (s : State) : Out := request .mapread (fun s => .done s 0 [mapDword s s.msg.c s.msg.d]) s

/-- LOGCTL (R98): sequence numbers count from the moment logging is switched on (Table 10.8). -/
def execLogctl (s : State) : Out :=
  request .logctl (fun s =>
    .plain (modTenant s s.msg.a (fun t =>
      if s.msg.flag && !t.logging then { t with logging := true, arr := [], arrSeq := [], arrLost := [] }
      else { t with logging := s.msg.flag })) 0) s

/-- DUMPFREE (R356): an image is freed by its offset in BAR 4. Every image that stands there is sealed, since it is built and
sealed in one step. An offset where no image stands is BADARG (DESIGN CHOICE, log 33). -/
def execDumpfree (s : State) : Out :=
  request .dumpfree (fun s =>
    let t := tenant s s.msg.a
    if t.slot.isSome && s.msg.c == slotOff t then .plain (modTenant s s.msg.a (fun t => { t with slot := none })) 0
    else if t.dumps.any (fun d => d.off == s.msg.c) then
      .plain (modTenant s s.msg.a (fun t => { t with dumps := t.dumps.filter (fun d => d.off != s.msg.c) })) 0
    else .plain s 2) s

/-- The 32 bytes of a trace entry (Table 13.12). -/
def traceBytes (e : TraceEntry) : List Byte :=
  leBytes 8 e.time ++
    leBytes 8 (e.kind % 16 * 2 ^ 60 + e.code % 4096 * 2 ^ 48 + e.ctx * 2 ^ 40 + e.hw * 2 ^ 35) ++
    leBytes 8 e.pc.toNat ++ leBytes 8 e.data.toNat

/-- An entry put where TIME, then the order of arrival, has it. -/
def insertEntry (e : TraceEntry) : List TraceEntry → List TraceEntry
  | [] => [e]
  | x :: r => if x.time ≤ e.time then x :: insertEntry e r else e :: x :: r

/-- A context's entries of every ring: by TIME, then core, then ring order (R358, Table 13.14). -/
def ctxTrace (s : State) (c : Nat) : List TraceEntry :=
  (s.cores.flatMap (fun k => (k.2.trace.filter (fun e => e.ctx == c)).reverse)).foldl (fun l e => insertEntry e l) []

/-- Bytes written to host memory for a function (R347). -/
def hostPut (s : State) (fn addr : Nat) (l : List Byte) : State :=
  { s with mem := s.mem.setAll ((span (hostLoc fn addr) l.length).zip l) }

/-- TRACE (R358): the entries of the named context copied to host memory, oldest first, with their number. -/
def serveTrace (s : State) (c : Nat) (_x : Ctx) : Reply :=
  let l := ctxTrace s c
  if 2 ^ 40 < s.msg.d + 32 * l.length then .plain s 2
  else .done (hostPut s s.msg.a s.msg.d (l.flatMap traceBytes)) 0 [dataWord l.length]

/-- TRACE (R358). -/
def execTrace (s : State) : Out := request .trace (onCtx serveTrace) s

/-- The counts of Table 13.8 for a context, those kept per tenant among them. -/
def errCounts (s : State) (x : Ctx) : List Nat :=
  let t := tenant s x.tenant
  (List.range 10).map (fun i => match i with
    | 6 => t.refused
    | 7 => t.arrGone
    | 8 => t.dumpsLost
    | _ => x.errs.toList.getD i 0)

/-- Two counts to a doubleword, each held at 32 bits: seven doublewords must carry ten (log 14). -/
def packCounts : List Nat → List Word
  | x :: y :: r => dataWord (min y (2 ^ 32 - 1) * 2 ^ 32 + min x (2 ^ 32 - 1)) :: packCounts r
  | [x] => [dataWord (min x (2 ^ 32 - 1))]
  | [] => []

/-- ERRS (R353). -/
def execErrs (s : State) : Out := request .errs (onCtx (fun s _ x => .done s 0 (packCounts (errCounts s x)))) s

/-! ### Attestation -/

/-- The bytes of the resource map: 32 to a record, zero where there is none. -/
def mapBytes (s : State) : List Byte :=
  (List.range 12961).flatMap (fun n => match mapRec s n with
    | some _ => (List.range 4).flatMap (fun d => leBytes 8 (mapDword s n d).toNat)
    | none => List.replicate 32 0)

/-- The running firmware image. -/
def runningFw (k : Keeper) : FwImage := k.slots.getD k.active Msg.empty.fw

/-- The fields of an attestation report, in the order of R361 (log 14 for their widths). -/
def attestFields (s : State) (tn : Nat) (nonce : List Byte) : List Byte :=
  leBytes 4 0x54535441 ++ leBytes 8 Config.serial ++ leBytes 4 s.keeper.fusedVersion ++
    sha256 (fwBytes (runningFw s.keeper)) ++ leBytes 8 s.keeper.version ++ sha256 (mapBytes s) ++ leBytes 4 tn ++
    leBytes 4 (s.ctxs.filter (fun p => p.2.tenant == tn)).length ++ nonce ++ leBytes 8 s.time

/-- The 64 bytes of a signature under the device identity key: r, then s (R355). -/
def sigBytes (l : List Byte) : List Byte := (Config.sign l ++ List.replicate 64 0).take 64

/-- ATTEST (R361): the report and its signature written to host memory, with their length. A nonce that is not of 32 bytes and a place of which 4,096
bytes would pass the end of host memory are BADARG (DESIGN CHOICE, log 33). -/
def execAttest (s : State) : Out :=
  request .attest (fun s =>
    if s.msg.bytes.length ≠ 32 || 2 ^ 40 < s.msg.c + 4096 then .plain s 2
    else
      let f := attestFields s s.msg.a s.msg.bytes
      let l := f ++ sigBytes f
      .done (hostPut s s.msg.a s.msg.c l) 0 [dataWord l.length]) s

/-- MAILBOX_OVERFLOW (R349): a request that arrives while 16 are pending, or a write that is not one whole request, is dropped,
and POSTED does not count it. -/
def execMailboxOverflow (s : State) : Out := .next s

end Sys2Proof.Machine
end

