-- ==== Sys2Proof/Machine/Dump.lean ====
section
/-! DEFINITION. Bloodhound dumps (R354 to R356, R369): the sections of an image, its header and seal, where it is written, and
what is scrubbed and freed once it is sealed. -/

namespace Sys2Proof.Machine

/-! ### Bytes of a section -/

/-- Zero bytes up to a multiple of eight. -/
def pad8 (l : List Byte) : List Byte := l ++ List.replicate ((8 - l.length % 8) % 8) 0
/-- `n` zero bytes. -/
def zeros (n : Nat) : List Byte := List.replicate n 0
/-- The bytes of a doubleword. -/
def wordBytes (w : Word) : List Byte := leBytes 8 w.toNat
/-- A section: LENGTH, which counts the whole section, its head, and its records, each at a multiple of eight (R369). -/
def section_ (head : List Byte) (recs : List (List Byte)) : List Byte :=
  let body := pad8 head ++ recs.flatMap pad8
  leBytes 8 (8 + body.length) ++ body

/-- The bytes of a descriptor (Table 5.2). -/
def segBytes (g : Seg) : List Byte := wordBytes (wordsOfSeg g).1 ++ wordBytes (wordsOfSeg g).2
/-- The bytes of a stream register (Table 5.3). -/
def streamBytes (q : Stream) : List Byte :=
  wordBytes q.offset ++ leBytes 8 (q.stride.toNat * 2 ^ 32 + q.seg.toNat * 4 + q.esize.toNat)

/-! ### Threads -/

/-- An element put before the first whose key is larger. -/
def insertBy {α : Type} (key : α → Nat) (x : α) : List α → List α
  | [] => [x]
  | y :: r => if key x < key y then x :: y :: r else y :: insertBy key x r

/-- A list by rising key. -/
def sortBy {α : Type} (key : α → Nat) (l : List α) : List α := l.foldl (fun l x => insertBy key x l) []

/-- The threads of a context by thread number, from the cores or from saved state (R354); a saved thread's number is the low
part of the one it is kept by. -/
def ctxThreads (s : State) (c : Nat) : List (Nat × Thread) :=
  let saved := match ctx? s c with | some x => x.saved.map (fun p => (p.1 % 2 ^ 32, p.2)) | none => []
  sortBy (fun p => p.1) (s.threads.filter (fun p => hwOf p.1 != 16 && p.2.ctx == c) ++ saved)

/-- The state code of Table 13.11. -/
def stateCode (x : Thread) : Nat :=
  match x.cond with
  | .ready => if privOf x then 5 else 0
  | .waiting => if privOf x then 5 else 1
  | .parkedPage _ => 2
  | .parkedGrant => 3
  | .heldAcquire _ => 1
  | .awaiting _ => 1
  | .fetching => 4
  | .inEngine _ => 4

/-- The scalar registers of a thread record: zero for those that the partition of its core does not give (Table 13.11). -/
def recordRegs (s : State) (t : Nat) (h : Hart) : List Word :=
  (List.range 64).map (fun i => if 32 ≤ i && (core s (coreOf t)).part == 16 then 0 else h.get (BitVec.ofNat 6 i))

/-- A thread record (Table 13.11). -/
def threadRecord (s : State) (p : Nat × Thread) : List Byte :=
  let x := p.2
  let h := x.hart
  let w : Watch := x.watch.getD { pc := 0, count := 0, strike := false }
  leBytes 4 p.1 ++ leBytes 4 (x.fatalCode % 256 * 256 + stateCode x) ++ wordBytes h.pc ++
    (recordRegs s p.1 h).flatMap wordBytes ++ h.segs.toList.flatMap segBytes ++
    x.streams.toList.flatMap streamBytes ++
    [x.status, x.epc, x.cause, x.tval, x.sscratch, x.fcsr, x.tags, x.instret].flatMap wordBytes ++
    [x.vceil, x.gvl, x.vl, x.rq].flatMap (leBytes 2) ++ leBytes 4 x.carry.toNat ++
    leBytes 4 ((if x.watch.isSome then 1 else 0) + (if w.strike then 2 else 0)) ++ wordBytes w.pc ++ leBytes 8 w.count ++
    leBytes 8 (x.arrival.getD 0) ++ leBytes 4 (if x.arrival.isSome then 1 else 0) ++ leBytes 4 (task s x.task).strands ++
    (List.range 32).flatMap (fun i => leBytes 8 (x.deque.getD i 0))

/-- A slice of a spill image: 144 bytes. -/
def sliceBytes (x : Slice) : List Byte :=
  x.v.toList.flatMap (fun w => leBytes 4 w.toNat) ++ x.m.toList ++ leBytes 2 x.rst.toNat ++ zeros 6

/-- A record of section 2. -/
def vectorRecord (p : Nat × Thread) : List Byte :=
  leBytes 4 p.1 ++ leBytes 2 p.2.vceil ++ zeros 2 ++ p.2.slots.flatMap sliceBytes

/-- A record of section 3. -/
def matrixRecord (p : Nat × Thread) : List Byte :=
  let x := p.2
  let acc (l : List (BitVec 32)) : List Byte := l.flatMap (fun w => leBytes 4 w.toNat)
  leBytes 4 p.1 ++ [x.mvl, x.mm, x.mn].flatMap (leBytes 2) ++ [BitVec.ofNat 8 x.mkk, BitVec.ofNat 8 (x.mvl / 8)] ++ zeros 4 ++
    (List.range 4).flatMap (fun k => (List.range 512).flatMap (fun b => leBytes 2 (scEntry x k b).toNat)) ++ acc x.acc0 ++
    acc x.acc1

/-- The 128 progress records of a thread (Table 9.4). -/
def progressBytes (x : Thread) : List Byte :=
  (List.range 128).flatMap (fun k => (List.range 8).flatMap (fun i => wordBytes (progressDword (progressOf x k) i)))

/-! ### Memory, barriers and gangs -/

/-- The runs of a context's live tasks, by core, then offset. -/
def ctxScratch (s : State) (c : Nat) : List Task :=
  sortBy (fun t => t.core * 2 ^ 32 + t.runOff) ((kvals s.tasks).filter (fun t => t.ctx == c && t.runSize != 0))

/-- A record of section 4. -/
def runRecord (s : State) (t : Task) : List Byte :=
  leBytes 4 t.core ++ zeros 4 ++ leBytes 8 t.runOff ++ leBytes 8 t.runSize ++ [BitVec.ofNat 8 t.gid] ++ zeros 7 ++
    [t.x, t.y, t.z].flatMap (leBytes 2) ++ zeros 2 ++ (span t.runPa t.runSize).map s.mem.get

/-- `n` bytes that the manual does not give, from a number of the counter of free values on (log 13). -/
def openBytes (k n : Nat) : List Byte := (List.range n).map (fun i => (Config.openWord (k + i)).setWidth 8)

/-- The records of section 5 for a pool: the window as it stands; the spill region, whose layout the manual does not give. -/
def lspRecords (s : State) (c p : Nat) : List (List Byte) :=
  match entryOf s p c with
  | none => []
  | some e =>
    let head (kind n : Nat) : List Byte := leBytes 4 p ++ leBytes 4 kind ++ leBytes 8 n
    let win := e.win.2 * 4096
    let spill := e.spill.2 * 4096
    (if win = 0 then [] else [head 0 win ++ (span (lspPa p (e.win.1 * 4096)) win).map s.mem.get]) ++
      (if spill = 0 then [] else [head 1 spill ++ openBytes (s.free + p * 2 ^ 21) spill])

/-- A record of a pool's barrier window in section 6; none where the context has none there. -/
def windowRecord (s : State) (c p : Nat) : Option (List Byte) :=
  let w := sbWindow s p c
  if w.2 = 0 then none
  else some (leBytes 4 p ++ [BitVec.ofNat 8 w.1, BitVec.ofNat 8 w.2] ++ zeros 2 ++
    (List.range w.2).flatMap (fun n => [0, 1].flatMap (fun i => wordBytes (sbDword (barrier s p (w.1 + n)) i))))

/-- A record of section 7. -/
def gangRecord (x : Ctx) (g : Nat) : List Byte :=
  match kfind x.gangs g with
  | none => BitVec.ofNat 8 g :: zeros 111
  | some y =>
    let t := tileOf y.record y.next
    [BitVec.ofNat 8 g, 1] ++ zeros 6 ++ (List.range 8).flatMap (fun i => wordBytes (recW y.record i)) ++
      [t.1, t.2.1, t.2.2].flatMap (leBytes 2) ++ zeros 2 ++ leBytes 4 y.live ++ leBytes 4 y.retired ++ leBytes 8 y.gen ++
      leBytes 4 y.arrivals ++ zeros 4 ++ leBytes 8 y.wdCount

/-! ### Retrievers, arrays and logs -/

/-- The Retrievers that threads of a context own: number, owner's thread number, and state (R354). -/
def ctxRets (s : State) (c : Nat) : List (Nat × Nat × Retriever) :=
  let live := s.rets.filterMap (fun r => match r.2.owner with
    | some t => if (thr s t).ctx = c && hasThr s t then some (r.1, t, r.2) else none
    | none => none)
  let saved := match ctx? s c with
    | some x => x.savedRets.map (fun (r : Nat × Nat × Retriever) =>
        (2 * coreOf (r.1 % 2 ^ 32) + r.2.1, r.1 % 2 ^ 32, r.2.2))
    | none => []
  sortBy (fun r => r.1) (live ++ saved)

/-- A record of section 8. -/
def retRecord (r : Nat × Nat × Retriever) : List Byte :=
  let h := r.2.2.hart
  leBytes 4 r.1 ++ leBytes 4 r.2.1 ++ [0, 1].flatMap (fun i => wordBytes (retDword r.2.2 i)) ++
    (List.range 32).flatMap (fun i => wordBytes (h.get (BitVec.ofNat 6 i))) ++ h.segs.toList.flatMap segBytes ++
    (List.range 2048).flatMap (fun i => wordBytes (r.2.2.program.getD i 0))

/-- A cell record of section 9. -/
def cellRecord (c : Cell) : List Byte :=
  let b (x : Bool) (n : Nat) : Nat := if x then 2 ^ n else 0
  leBytes 2 (b c.state 0 + b c.en 1 + b c.clamp 2 + c.colour * 8 + c.coup.length * 64) ++ leBytes 2 c.bias.toNat ++
    leBytes 2 c.count ++ leBytes 2 c.gen.toNat ++
    (List.range 32).flatMap (fun k => match c.coup[k]? with
      | some (w, n) => leBytes 4 (w.toNat * 2 ^ 16 + n)
      | none => zeros 4)

/-- The arrays of a context that lost their state, as they would stand in its dump. -/
def lostArrays (x : Ctx) : List (Nat × SArray) :=
  match x.frozen with
  | some f => f.arrays.map (fun p => (p.1, { SArray.reset with owner := some p.2 }))
  | none => []

/-- The arrays that threads of a context own, by die, those that lost their state among them (R354). -/
def ctxArrays (s : State) (c : Nat) (x : Ctx) : List (Nat × SArray) :=
  sortBy (fun p => p.1) ((s.dies.filter (fun d => d.2.sa.owner.isSome && d.2.sa.ctx == c)).map (fun d => (d.1, d.2.sa)) ++ lostArrays x)

/-- A record of section 9. -/
def arrayRecord (p : Nat × SArray) : List Byte :=
  let a := p.2
  leBytes 4 p.1 ++ leBytes 4 (a.owner.getD 0) ++ leBytes 2 a.beta.toNat ++
    [if a.mode then 1 else 0, BitVec.ofNat 8 a.dropped] ++ zeros 4 ++ [0, 1].flatMap (fun i => wordBytes (a.status i)) ++
    (List.range 65536).flatMap (fun i => cellRecord (a.cell i))

/-- A tenant's outcome-log entries, oldest first. -/
def outEntries (t : Tenant) : List OutEntry := sortBy (fun e => e.time) ((kvals t.out).flatMap List.reverse)

/-- An outcome entry of section 11. -/
def outRecord (s : State) (e : OutEntry) : List Byte :=
  let b (x : Bool) (n : Nat) : Nat := if x then 2 ^ n else 0
  leBytes 4 e.source ++ [BitVec.ofNat 8 (b e.byRet 0 + b e.cas 1 + b e.vamo 2)] ++ zeros 3 ++
    leBytes 8 (task s e.task).started ++ leBytes 8 e.cva ++ leBytes 8 e.time ++ wordBytes e.old

/-! ### The image -/

/-- A section of a context's image (Table 13.10). -/
def dumpSection (s : State) (c : Nat) (x : Ctx) (ty : Nat) : List Byte :=
  let ts := ctxThreads s c
  match ty with
  | 1 => section_ [] (ts.map (threadRecord s))
  | 2 => section_ [] (ts.map vectorRecord)
  | 3 => section_ [] ((ts.filter (fun p => p.2.mvl != 0)).map matrixRecord)
  | 4 => section_ [] ((ctxScratch s c).map (runRecord s))
  | 5 => section_ [] ((poolsOf s c).flatMap (lspRecords s c))
  | 6 =>
    let ws := (poolsOf s c).filterMap (windowRecord s c)
    section_ (leBytes 4 ts.length ++ leBytes 4 ws.length)
      (ts.map (fun p => leBytes 4 p.1 ++ zeros 4 ++ progressBytes p.2) ++ ws)
  | 7 => section_ [] ((List.range 64).map (gangRecord x))
  | 8 => section_ [] ((ctxRets s c).map retRecord)
  | 9 => section_ [] ((ctxArrays s c x).map arrayRecord)
  | 10 => section_ [] ((ctxTrace s c).map traceBytes)
  | _ =>
    let es := outEntries (tenant s x.tenant)
    section_ ((errCounts s x).flatMap (leBytes 8) ++ leBytes 4 es.length ++ zeros 4) (es.map (outRecord s))

/-- Whether a core that still holds a thread of the context is not there any more: its state was lost. -/
def coreLost (s : State) (c : Nat) : Bool :=
  s.threads.any (fun p => p.2.ctx == c && !unitLive s (128 + coreOf p.1))

/-- Whether a section's unit was retired or lost (R354): section 2 where slices of a thread have lost their state, before the freeze or
after it, in a lane or in a spill area (R189), and section 3 where they are those of a gang. -/
def sectionLost (s : State) (c : Nat) (f : Fatal) (ty : Nat) : Bool :=
  match ty with
  | 1 => coreLost s c
  | 2 => !f.lsp.isEmpty || s.threads.any (fun p => p.2.ctx == c && p.2.dead)
  | 3 => s.threads.any (fun p => p.2.ctx == c && p.2.dead && p.2.mvl != 0)
  | 4 => (ctxScratch s c).any (fun t => !unitLive s (128 + t.core))
  | 5 => !f.lsp.isEmpty || (poolsOf s c).any (fun p => !unitLive s (16 + p))
  | 6 => coreLost s c
  | 9 => !f.arrays.isEmpty
  | 8 => (ctxRets s c).any (fun r => !unitLive s (2048 + r.1))
  | 10 => s.cores.any (fun k => !unitLive s (128 + k.1) && k.2.trace.any (fun e => e.ctx == c))
  | _ => false

/-- The sections of an image with their LOST flags; a lost one has its length and bytes that the manual does not give. -/
def dumpSections (s : State) (c : Nat) (x : Ctx) (f : Fatal) : List (Nat × Bool × List Byte) :=
  (span 1 11).map (fun ty =>
    let l := dumpSection s c x ty
    if sectionLost s c f ty then (ty, true, l.take 8 ++ openBytes (s.free + ty * 2 ^ 32) (l.length - 8)) else (ty, false, l))

/-- The bytes of an image before its signature block, with `n` of its sections (Table 13.9). -/
def imageBytes (c : Nat) (x : Ctx) (f : Fatal) (ss : List (Nat × Bool × List Byte)) (trunc : Bool) : List Byte :=
  let start := 80 + 16 * ss.length
  let offs := (List.range ss.length).map (fun i => start + ((ss.take i).map (fun y => y.2.2.length)).sum)
  let len := start + (ss.map (fun y => y.2.2.length)).sum
  leBytes 4 0x504D5544 ++ leBytes 2 1 ++ leBytes 2 ((if trunc then 1 else 0) + 2) ++ leBytes 8 len ++ leBytes 4 c ++
    leBytes 4 x.tenant ++ leBytes 8 f.time ++ leBytes 8 f.mapver ++ wordBytes f.cause ++ wordBytes f.tval ++
    wordBytes f.epc ++ leBytes 4 f.thread ++ leBytes 4 f.nfatal ++ leBytes 4 ss.length ++ zeros 4 ++
    (ss.zip offs).flatMap (fun p => leBytes 4 p.1.1 ++ leBytes 4 (if p.1.2.1 then 1 else 0) ++ leBytes 8 p.2) ++
    ss.flatMap (fun y => y.2.2)

/-- An image with its signature block (R355). -/
def sealImage (l : List Byte) : List Byte := l ++ (sha256 Config.deviceKey).take 8 ++ sigBytes l

/-- The lowest free 4,096-byte place of a tenant's window, with the bytes free from there on (R354); none where it is full. -/
def dumpPlace (t : Tenant) : Option (Nat × Nat) :=
  let used := t.dumps.map (fun d => (d.off, d.bytes.length))
  let free (a : Nat) : Bool := decide (a < t.window) && used.all (fun r => !meets (a, 1) r)
  let at_ := (0 :: used.map (fun r => roundUp (r.1 + r.2) 4096)).filter free
  (at_.foldl (fun (m : Option Nat) a => match m with | none => some a | some b => some (min a b)) none).map (fun a =>
    (a, ((used.map (·.1)).filter (fun o => decide (a < o))).foldl min t.window - a))

/-- The image with as many sections as fit in `room` bytes with the signature block, trying `n` of them and fewer (R354). -/
def fitImage (c : Nat) (x : Ctx) (f : Fatal) (ss : List (Nat × Bool × List Byte)) (room : Nat) : Nat → List Byte
  | 0 => imageBytes c x f [] true
  | n + 1 =>
    let l := imageBytes c x f (ss.take (n + 1)) (decide (n + 1 < ss.length))
    if l.length + 72 ≤ room then l else fitImage c x f ss room n

/-- An image written: in the window, else in the header slot, else lost and counted (R356). -/
def putDump (s : State) (c : Nat) (x : Ctx) (f : Fatal) : State :=
  let t := tenant s x.tenant
  match dumpPlace t with
  | some (off, room) =>
    let d : Dump := { off := off, bytes := sealImage (fitImage c x f (dumpSections s c x f) room 11), ctx := c }
    raiseIrq (modTenant s x.tenant (fun t => { t with dumps := t.dumps ++ [d] })) x.tenant 6
  | none =>
    if t.slot.isSome then modTenant s x.tenant (fun t => { t with dumpsLost := t.dumpsLost + 1 })
    else
      let d : Dump := { off := slotOff t, bytes := sealImage (imageBytes c x f [] true), ctx := c }
      raiseIrq (modTenant s x.tenant (fun t => { t with slot := some d })) x.tenant 6

/-! ### Sealing -/

/-- What a frozen context held scrubbed and freed: lanes, gangs, accumulators, arrays, and its outcome-log entries (R289, R355). -/
def freeFrozen (s : State) (c : Nat) : State :=
  let mine := (s.tasks.filter (fun t => t.2.ctx == c)).map (·.1)
  let s := modCtx s c (fun x => { x with
    sealed := true
    saved := x.saved.map (fun p => (p.1, { leaveGang p.2 with
      vceil := 0, gvl := 0, vl := 0, rq := 0, ent := 0, slots := [], lanes := [], lost := [] })) })
  let s : State := { s with
    dies := s.dies.map (fun d => (d.1, { d.2 with
      sa := if d.2.sa.owner.isSome && d.2.sa.ctx == c then SArray.reset else d.2.sa }))
    tenants := s.tenants.map (fun n => (n.1, { n.2 with
      out := n.2.out.map (fun o => (o.1, o.2.filter (fun e => !mine.contains e.task))) })) }
  (s.threads.filter (fun t => t.2.ctx == c)).foldl (fun (s : State) (t : Nat × Thread) => releaseVec s t.1) s

/-- Whether a Retriever is still owned by a thread of a context. -/
def ownsRet (s : State) (c : Nat) : Bool :=
  s.rets.any (fun r => match r.2.owner with | some t => hasThr s t && (thr s t).ctx == c | none => false)

/-- Whether some context froze before one and its dump is still to be built. -/
def dumpsBefore (s : State) (f : Fatal) : Bool :=
  s.ctxs.any (fun p => !p.2.sealed && match p.2.frozen with
    | some g => decide (g.seq < f.seq)
    | none => false)

/-- DUMP_BUILD (R354, R355): once every thread and Retriever of a frozen context has stopped, where Table 5.10 has it (R132), and earlier
freezes have been served, its image is written and sealed, and what it held is freed. -/
def execDumpBuild (s : State) : Out :=
  let c := s.msg.a
  match ctx? s c with
  | none => .next s
  | some x =>
    match x.frozen with
    | none => .next s
    | some f =>
      if x.sealed then .next s else
      let s := releaseRets (settleClosing s) c
      let s := ((s.threads.filter (fun t => t.2.ctx == c)).map (·.1)).foldl finishWord s
      let x := (ctx? s c).getD x
      if (s.threads.filter (fun t => t.2.ctx == c)).any (fun t => stopsLater s t.1) || ownsRet s c || dumpsBefore s f then
        .next (owe s [ev .dumpBuild c])
      else .next (freeFrozen (putDump s c x f) c)

/-! ### The operator's requests about tenants (R351) -/

/-- TENANT_ENABLE (R351, R362): the operator enables or disables a tenant's function. -/
def execTenantEnable (s : State) : Out :=
  if !s.keeper.booted || 16 ≤ s.msg.a then .next s
  else .next (modTenant s s.msg.a (fun t => { t with enabled := s.msg.flag }))

/-- DUMP_WINDOW_SIZE (R356): 0 to 64 GiB in steps of 2 MiB, while every image that stands in the window still fits. -/
def execDumpWindowSize (s : State) : Out :=
  let n := s.msg.b
  let t := tenant s s.msg.a
  if !s.keeper.booted || 16 ≤ s.msg.a || n % 2 ^ 21 ≠ 0 || 2 ^ 36 < n ||
      t.dumps.any (fun d => decide (n < d.off + d.bytes.length)) then .next s
  else .next (modTenant s s.msg.a (fun t => { t with window := n }))

/-- ALLOWANCE_SET (R280, R351): a context's retention registers and ways on a die, while the die's totals stay within 8 and 12; or,
with the message's flag, the lane quota that a tenant is allowed in a pool. -/
def execAllowanceSet (s : State) : Out :=
  let c := s.msg.a
  let d := s.msg.b
  if s.msg.flag then
    .next (if !s.keeper.booted || 16 ≤ c || 1024 < s.msg.c then s else modTenant s c (fun t => { t with quota := s.msg.c }))
  else
  let others := (s.ctxs.filter (fun p => p.1 != c)).map (fun p => kget p.2.allow d (0, 0))
  if (ctx? s c).isNone || 4 ≤ d || 8 < s.msg.c + (others.map (·.1)).sum || 12 < s.msg.d + (others.map (·.2)).sum then .next s
  else .next (modCtx s c (fun x => { x with allow := kset x.allow d (s.msg.c, s.msg.d) }))

/-- SIGNED_STATE_READ (R351): a read of a tenant's window or slot, honoured once for a nonce that the management core has given
and the operator key has signed; otherwise refused and counted. -/
def execSignedStateRead (s : State) : Out :=
  let k := s.keeper
  if k.booted && !k.opKey.isEmpty && s.msg.bytes == Config.nonce k.nonces.length && Config.verify k.opKey s.msg.bytes s.msg.bytes2
  then
    let t := tenant s s.msg.a
    .next (modKeeper s (fun k => { k with
      nonces := k.nonces ++ [s.msg.bytes], reply := (span s.msg.b s.msg.c).map (barByte t) }))
  else .next (modKeeper s (fun k => { k with opDenied := k.opDenied + 1 }))

end Sys2Proof.Machine
end

