-- ==== Sys2Proof/Machine/Quant.lean ====
section
/-! DEFINITION. Block scales and quantisation (R242 to R244). -/

namespace Sys2Proof.Machine

/-- floor(log2) of a magnitude m·2^e above 0. -/
def logOf (m : Nat) (e : Int) : Int := (Nat.log2 m : Int) + e

/-- floor(log2) of the largest finite magnitude of some values, none where all are zero. -/
def maxLog (l : List FVal) : Option Int :=
  l.foldl (fun a v => match v with
    | .fin _ m e => if m = 0 then a else some (match a with | some k => max k (logOf m e) | none => logOf m e)
    | _ => a) none

/-- The shift of a quad (R242): the largest σ of 0 to 3 under which its largest magnitude stays below 2^(EXP − 126 − σ). -/
def quadShift (ex : Nat) (p : List FVal) : Nat :=
  if p.isEmpty || p.any isInf then 0
  else match maxLog p with
    | none => 3
    | some k => (([3, 2, 1] : List Nat).find? (fun (sg : Nat) => decide (k < (ex : Int) - 126 - (sg : Int)))).getD 0

/-- The entry that VMAXEXP gives a block from its active elements, each with its place in the block (R242). -/
def blockEntry (l : List (Nat × FVal)) : BitVec 16 :=
  let vs := l.map (·.2)
  if vs.any isNaN then 0x00FF
  else match maxLog vs with
    | none => if vs.any isInf then 0x00FE else 0
    | some k =>
      let ex := (max (k + 127) 1).toNat
      let sh (q : Nat) : Nat := quadShift ex ((l.filter (fun p => p.1 / 4 == q)).map (·.2))
      BitVec.ofNat 16 ((sh 0 + sh 1 * 4 + sh 2 * 16 + sh 3 * 64) * 256 + ex)

/-- VMAXEXP (R242). -/
def execVmaxexp (f : VFields) (s : State) : Out :=
  issueV s true [] [f.va] (fun s =>
    let fmt := f.fmt.toNat
    let x := my s
    let ne := numElems x fmt
    let es := actives x f
    let entry (b : Nat) : BitVec 16 := blockEntry ((es.filter (fun e => e / 16 == b)).map (fun e =>
      (e % 16, fdecode (fmtOf fmt) (elem x f.va fmt e))))
    advance (modMy s (fun x => (List.range ((ne + 15) / 16)).foldl (fun x b => putSc x f.vd.toNat b (entry b)) x)))

/-- A finite or infinite value quantised under a block's entry (R243): the element's bits, and the flags. -/
def quantize (fmt : Nat) (ent : BitVec 16) (i : Nat) (mode : RMode) (v : FVal) : Nat × Flags :=
  let m := sxM fmt
  let ex := (ent.extractLsb' 0 8).toNat
  let top := 2 ^ m - 1
  let sg (neg : Bool) (mag : Nat) : Nat := if mag = 0 then 0 else if neg then 2 ^ m + mag else mag
  if ex = 0 || ex = 0xFF then (0, 0)
  else
    match v with
    | .nan _ => (0, 0)
    | .inf neg => (sg neg top, flOF + flNX)
    | .fin neg n e =>
      let sigma := (ent.extractLsb' 8 8).toNat / 2 ^ (2 * (i / 4)) % 4
      let (mag, inexact) := roundInt mode neg n 1 (e - ((ex : Int) - 127 - sigma - (m - 1)))
      if top < mag then (sg neg top, flOF + flNX) else (sg neg mag, if inexact then flNX else 0)

/-- VQUANT's elements in ascending order (R243): a NaN makes its block the NaN block, and the generator steps for every
element under RST. `old` gives the scale register as it stood before the word (R7). Results, flags, and the thread with its scale
register and generators stepped. -/
def quantAll (f : VFields) (k : Nat) (rst : Bool) (m : RMode) (old : Thread) :
    List Nat → Thread → List (Nat × Nat) × Flags × Thread
  | [], x => ([], 0, x)
  | e :: r, x =>
    let dst := f.fmt.toNat
    let src := f.ext.toNat
    let (g, x) := if rst then drawRst dst e x else (0, x)
    let ent := scEntry old k (e / 16)
    let v := fdecode (fmtOf src) (elem x f.va src e)
    let (res, fl, x) := match v with
      | .nan sig => (0, if sig then flNV else 0, putSc x k (e / 16) (ent ||| 0x00FF))
      | v =>
        let q := quantize dst ent (e % 16) (if rst then .rst g else m) v
        (q.1, q.2, x)
    let (l, fl', x) := quantAll f k rst m old r x
    ((e, res) :: l, fl ||| fl', x)

/-- VQUANT (R243). -/
def execVquant (f : VFields) (s : State) : Out :=
  issueV s true [] [f.vd, f.va] (fun s =>
    let x := my s
    let dst := f.fmt.toNat
    let code := rndOf x f.rnd
    let es := activeIn x f dst (x.vl * min (perSlot dst) (perSlot f.ext.toNat))
    let (l, fl, x') := quantAll f f.vb.toNat (code == 4) (modeOf code) x es x
    floatEnd s fl (fun s =>
      advance (modMy s (fun y => putElems dst f.vd { y with slots := x'.slots, sc := x'.sc } l))))

/-- VDEQ (R244). -/
def execVdeq (f : VFields) (s : State) : Out :=
  issueV s true [] [f.vd, f.va] (fun s =>
    if !rndV s f false then takeIll s else
    let x := my s
    let dst := f.fmt.toNat
    let src := f.ext.toNat
    let es := activeIn x f dst (x.vl * min (perSlot dst) (perSlot src))
    let rs := es.map (fun e =>
      let ent := scEntry x f.vb.toNat (e / 16)
      fcvt (fmtOf dst) (modeOf (rndOf x f.rnd))
        (sxVal src (ent.extractLsb' 0 8).toNat (ent.extractLsb' 8 8).toNat (e % 16) (elem x f.va src e)))
    floatEnd s (flagsOf rs) (fun s => advance (modMy s (putElems dst f.vd · (es.zip (rs.map (·.1)))))))

end Sys2Proof.Machine
end

