-- ==== Sys2Proof/Machine/Repart.lean ====
section
/-! DEFINITION. REPART, which changes the partition of the issuing thread's core (R113). -/

namespace Sys2Proof.Machine

/-- Whether the core is quiescent for the issuing thread (R113). -/
def quiescent (s : State) : Bool :=
  let t := me s
  let c := myCore s
  let x := thr s t
  let k := core s c
  (List.range 16).all (fun h => h == hwOf t || (!hasThr s (c * 17 + h) &&
      (match bindingEntry s c h with | some e => e.2.ctx == x.ctx | none => true))) &&
    !hasThr s (c * 17 + 16) && k.serving.isNone && k.smq.isEmpty && x.gvl == 0 && x.vceil == 0 &&
    !(kvals s.rets).any (fun r => r.owner == some t && r.state == 2) && !copiesOf s t

/-- A thread's number changed, wherever it stands. -/
def renumber (s : State) (t u : Nat) : State :=
  let fa (a : Agent) : Agent := if a = .thread t then .thread u else a
  let x := thr s t
  let s := setThr (dropThr s t) u x
  let q (w : QWrite) : QWrite := { w with agents := w.agents.map fa, writer := w.writer.map fa }
  { s with
    cur := fa s.cur
    owed := s.owed.map (fun p => (p.1, { p.2 with agent := fa p.2.agent }))
    rets := s.rets.map (fun p => (p.1, if p.2.owner = some t then { p.2 with owner := some u } else p.2))
    stores := s.stores.map (fun p => { p with agent := fa p.agent })
    dies := s.dies.map (fun p => (p.1, { p.2 with
      hostq := p.2.hostq.map q, peerq := p.2.peerq.map q, uoq := p.2.uoq.map q
      sa := if p.2.sa.owner = some t then { p.2.sa with owner := some u } else p.2.sa })) }

/-- s32 to s63 of a hart made zero. -/
def clearHigh (h : Hart) : Hart :=
  { h with regs := (List.range 32).foldl (fun r i => r.set! (i + 32) 0) h.regs }

/-- The core takes partition `n`, its thread in hardware context h mod n (R113): a change of the map, which takes the reports that
wait with it (R341). -/
def repartition (s : State) (n : Nat) : State :=
  let c := myCore s
  let old := (core s c).part
  if n = old then s else
  let s := if n = 16 || old = 16 then modHart s clearHigh else s
  let s := modCore s c (fun k => { k with part := n, forgo := [] })
  let t := me s
  let s := if hwOf t < n then s else renumber s t (c * 17 + hwOf t % n)
  match mapRec s (128 + c) with
  | some r => applyMap s [(128 + c, { r with value := n })]
  | none => s

/-- REPART (R113): 2 for a bad count, 1 where the core is not quiescent, 0 where it is done. -/
def execRepart (d a : Reg) (s : State) : Out :=
  issue s (admits s false [d, a] && atS s) (fun s =>
    let n := (reg s a).toNat
    if !(n == 4 || n == 8 || n == 16) then advance (setReg s d 2)
    else if !quiescent s then advance (setReg s d 1)
    else advance (setReg (repartition s n) d 0))

end Sys2Proof.Machine
end

