-- ==== Sys2Proof/Machine/ScalarFloat.lean ====
section
/-! DEFINITION. The scalar floating instructions (R140, with R58 to R62 and R67 to R73). -/

namespace Sys2Proof.Machine

/-- The layout of a scalar format. -/
def SFmt.layout : SFmt → Fmt
  | .f32 => fmtF32
  | .f16 => fmtF16
  | .bf16 => fmtBF16

/-- A scalar's low bits as a value of a format (R62). -/
def sval (t : SFmt) (x : Word) : FVal := fdecode (SFmt.layout t) (x.toNat % 2 ^ (SFmt.layout t).width)

/-- A scalar floating word that writes one result with its flags (R71, R72), zero-extended (R62). -/
def fpu (d : Reg) (rs : List Reg) (rnd : BitVec 3) (op : State → RMode → Nat × Flags) (s : State) : Out :=
  issue s (admits s false (d :: rs) && rndAdmits (my s) rnd) (fun s =>
    let r := op s (modeOf (rndOf (my s) rnd))
    floatEnd s r.2 (fun s => advance (setReg s d (BitVec.ofNat 64 r.1))))

/-- A result of one format from two operands. -/
def fpu2 (op : Fmt → RMode → FVal → FVal → Nat × Flags) (d a b : Reg) (t : SFmt) (rnd : BitVec 3) (s : State) : Out :=
  fpu d [a, b] rnd (fun s m => op (SFmt.layout t) m (sval t (reg s a)) (sval t (reg s b))) s

/-- A fused operation (R73). -/
def fpu3 (sub : Bool) (d a b c : Reg) (t : SFmt) (rnd : BitVec 3) (s : State) : Out :=
  fpu d [a, b, c] rnd
    (fun s m => ffma (SFmt.layout t) m (sval t (reg s a)) (sval t (reg s b)) (sval t (reg s c)) sub) s

/-- A compare (R61). -/
def fpuCmp (k : Nat) (d a b : Reg) (t : SFmt) (s : State) : Out :=
  fpu d [a, b] 0 (fun s _ =>
    let r := fcmp k (sval t (reg s a)) (sval t (reg s b))
    (if r.1 then 1 else 0, r.2)) s

/-- A conversion to a 64-bit integer (R68). -/
def fpuToInt (signed : Bool) (d a : Reg) (t : SFmt) (rnd : BitVec 3) (s : State) : Out :=
  fpu d [a] rnd (fun s m =>
    let r := fcvtInt 64 signed m (sval t (reg s a))
    (wrap 64 r.1, r.2)) s

/-- A conversion from a 64-bit integer (R75). -/
def fpuOfInt (x : Word → Int) (d a : Reg) (g : SFmt) (rnd : BitVec 3) (s : State) : Out :=
  fpu d [a] rnd (fun s m => fcvtFromInt (SFmt.layout g) m (x (reg s a))) s

/-- FADD (R140). -/
def execFadd (d a b : Reg) (t : SFmt) (rnd : BitVec 3) (s : State) : Out := fpu2 fadd d a b t rnd s
/-- FSUB (R140). -/
def execFsub (d a b : Reg) (t : SFmt) (rnd : BitVec 3) (s : State) : Out := fpu2 fsub d a b t rnd s
/-- FMUL (R140). -/
def execFmul (d a b : Reg) (t : SFmt) (rnd : BitVec 3) (s : State) : Out := fpu2 fmul d a b t rnd s
/-- FDIV (R140). -/
def execFdiv (d a b : Reg) (t : SFmt) (rnd : BitVec 3) (s : State) : Out := fpu2 fdiv d a b t rnd s
/-- FSQRT (R140). -/
def execFsqrt (d a : Reg) (t : SFmt) (rnd : BitVec 3) (s : State) : Out := 
  fpu d [a] rnd (fun s m => fsqrt (SFmt.layout t) m (sval t (reg s a))) s
/-- FMADD (R140). -/
def execFmadd (d a b c : Reg) (t : SFmt) (rnd : BitVec 3) (s : State) : Out := fpu3 false d a b c t rnd s
/-- FMSUB (R140). -/
def execFmsub (d a b c : Reg) (t : SFmt) (rnd : BitVec 3) (s : State) : Out := fpu3 true d a b c t rnd s
/-- FMIN (R61). -/
def execFmin (d a b : Reg) (t : SFmt) (s : State) : Out := 
  fpu2 (fun f _ => fminmax f false) d a b t 0 s
/-- FMAX (R61). -/
def execFmax (d a b : Reg) (t : SFmt) (s : State) : Out := 
  fpu2 (fun f _ => fminmax f true) d a b t 0 s
/-- FCMPEQ (R61). -/
def execFcmpeq (d a b : Reg) (t : SFmt) (s : State) : Out := fpuCmp 0 d a b t s
/-- FCMPLT (R61). -/
def execFcmplt (d a b : Reg) (t : SFmt) (s : State) : Out := fpuCmp 1 d a b t s
/-- FCMPLE (R61). -/
def execFcmple (d a b : Reg) (t : SFmt) (s : State) : Out := fpuCmp 2 d a b t s
/-- FCLASS (R140): the input as it is encoded, no flag. -/
def execFclass (d a : Reg) (t : SFmt) (s : State) : Out := 
  fpu d [a] 0 (fun s _ => (fclassOf (SFmt.layout t) ((reg s a).toNat % 2 ^ (SFmt.layout t).width), 0)) s
/-- FCVTFI (R140). -/
def execFcvtfi (d a : Reg) (t : SFmt) (rnd : BitVec 3) (s : State) : Out := fpuToInt true d a t rnd s
/-- FCVTFN (R140). -/
def execFcvtfn (d a : Reg) (t : SFmt) (rnd : BitVec 3) (s : State) : Out := fpuToInt false d a t rnd s
/-- FCVTIF (R140). -/
def execFcvtif (d a : Reg) (g : SFmt) (rnd : BitVec 3) (s : State) : Out := fpuOfInt BitVec.toInt d a g rnd s
/-- FCVTNF (R140). -/
def execFcvtnf (d a : Reg) (g : SFmt) (rnd : BitVec 3) (s : State) : Out := 
  fpuOfInt (fun x => (x.toNat : Int)) d a g rnd s
/-- FCVTFF (R140). -/
def execFcvtff (d a : Reg) (t g : SFmt) (rnd : BitVec 3) (s : State) : Out := 
  fpu d [a] rnd (fun s m => fcvt (SFmt.layout g) m (sval t (reg s a))) s

end Sys2Proof.Machine
end

