-- ==== Sys2Proof/Machine/VecMove.lean ====
section
/-! DEFINITION. The permutes (R214), reductions (R74, R215), the recurrence (R216) and mask logic (R217). -/

namespace Sys2Proof.Machine

/-- A word that writes elements of vD computed from the whole of its sources (R7, R214). -/
def permute (f : VFields) (vs : List VReg) (r : State → Nat → Option Nat) (s : State) : Out :=
  issueV s true [f.s] (f.vd :: vs) (fun s =>
    let l := (actives (my s) f).filterMap (fun e => (r s e).map (fun v => (e, v)))
    advance (modMy s (putElems f.fmt.toNat f.vd · l)))

/-- VPERM (R214). -/
def execVperm (f : VFields) (s : State) : Out :=
  permute f [f.va, f.vb] (fun s e =>
    let x := my s
    let i := elem x f.vb f.fmt.toNat e
    some (if i < numElems x f.fmt.toNat then elemVal x f.va f.fmt.toNat i else 0)) s

/-- VSLIDEUP (R214): elements below k are undisturbed. -/
def execVslideup (f : VFields) (s : State) : Out :=
  permute f [f.va] (fun s e =>
    let k := (reg s f.s).toNat
    if k ≤ e then some (elemVal (my s) f.va f.fmt.toNat (e - k)) else none) s

/-- VSLIDEDN (R214). -/
def execVslidedn (f : VFields) (s : State) : Out :=
  permute f [f.va] (fun s e =>
    let k := (reg s f.s).toNat
    some (if e + k < numElems (my s) f.fmt.toNat then elemVal (my s) f.va f.fmt.toNat (e + k) else 0)) s

/-- VBCAST (R214): the container's bits of the register; an SX format takes all of them, those above the element too, which a read of
the element ignores (DEDUCED, log 25). -/
def execVbcast (f : VFields) (s : State) : Out :=
  permute f [] (fun s e => some (wrap (cbits f.fmt.toNat) ((reg s f.s).toNat + e * f.ext.toInt))) s

/-- VCOMPRESS (R214): the active elements packed to the bottom, and their count to s. -/
def execVcompress (f : VFields) (s : State) : Out :=
  issueV s true [f.s] [f.vd, f.va] (fun s =>
    let vals := (actives (my s) f).map (elemVal (my s) f.va f.fmt.toNat)
    let s := modMy s (putElems f.fmt.toNat f.vd · ((List.range vals.length).zip vals))
    advance (setReg s f.s (BitVec.ofNat 64 vals.length)))

/-- VEXT (R214): any element of the ceiling. -/
def execVext (f : VFields) (s : State) : Out :=
  issueV s true [f.s, extReg f] [f.va] (fun s =>
    let fmt := f.fmt.toNat
    let i := (reg s (extReg f)).toNat
    let v := if i < (my s).vceil * perSlot fmt then BitVec.ofInt 64 (intOf fmt (elemVal (my s) f.va fmt i)) else 0
    advance (setReg s f.s v))

/-! ### Reductions -/

/-- One level of the tree of R74: neighbours combined, a node without a neighbour passed on. An absent node is none. -/
def treeLevel (comb : Nat → Nat → Nat × Flags) : List (Option Nat) → List (Option Nat) × Flags
  | a :: b :: r =>
    let (l, fl) := treeLevel comb r
    match a, b with
    | some x, some y => (some (comb x y).1 :: l, (comb x y).2 ||| fl)
    | some x, none => (some x :: l, fl)
    | none, y => (y :: l, fl)
  | l => (l, 0)

/-- The tree of R74 over at most 2^fuel elements: its root, and the flags of the nodes formed. -/
def tree (comb : Nat → Nat → Nat × Flags) : Nat → List (Option Nat) → Option Nat × Flags
  | 0, l => (l.headD none, 0)
  | n + 1, l =>
    let (l, fl) := treeLevel comb l
    let (t, fl') := tree comb n l
    (t, fl ||| fl')

/-- A reduction (R215): the start operand vB[0] combined with the root, into element 0 of vD. -/
def reduce (f : VFields) (comb : RMode → Nat → Nat → Nat × Flags) (s : State) : Out :=
  issueV s true [] [f.vd, f.va, f.vb] (fun s =>
    if !rndV s f false then takeIll s else
    let fmt := f.fmt.toNat
    let x := my s
    let comb := comb (modeOf (rndOf x f.rnd))
    let start := elem x f.vb fmt 0
    let (t, fl) := tree comb 10 ((List.range (numElems x fmt)).map (fun e =>
      if guarded x f fmt e then some (elem x f.va fmt e) else none))
    let (v, fl) := match t with
      | some y => ((comb start y).1, fl ||| (comb start y).2)
      | none => (start, fl)
    floatEnd s fl (fun s => advance (modMy s (putElems fmt f.vd · [(0, v)]))))

/-- An integer reduction (R57). -/
def reduceInt (op : Int → Int → Int) (f : VFields) (s : State) : Out :=
  reduce f (fun _ a b => (onInts op f.fmt.toNat a b, 0)) s

/-- VREDSUM (R215). -/
def execVredsum (f : VFields) (s : State) : Out := reduceInt (fun a b => a + b) f s
/-- VREDMIN (R215). -/
def execVredmin (f : VFields) (s : State) : Out := reduceInt (fun a b => min a b) f s
/-- VREDMAX (R215). -/
def execVredmax (f : VFields) (s : State) : Out := reduceInt (fun a b => max a b) f s
/-- VFREDSUM (R215): each node rounded by rnd. -/
def execVfredsum (f : VFields) (s : State) : Out :=
  reduce f (fun m a b => fadd fmtF32 m (fdecode fmtF32 a) (fdecode fmtF32 b)) s
/-- VFREDMIN (R215). -/
def execVfredmin (f : VFields) (s : State) : Out :=
  reduce f (fun _ a b => fminmax fmtF32 false (fdecode fmtF32 a) (fdecode fmtF32 b)) s
/-- VFREDMAX (R215). -/
def execVfredmax (f : VFields) (s : State) : Out :=
  reduce f (fun _ a b => fminmax fmtF32 true (fdecode fmtF32 a) (fdecode fmtF32 b)) s

/-! ### The recurrence -/

/-- One step of VRECUR (R216): the new p from p, a and b. -/
def recurStep (fmt op : Nat) (m : RMode) (p a b : Nat) : Nat × Flags :=
  let v (x : Nat) : FVal := fdecode fmtF32 x
  if fmt = 8 then
    match op with
    | 0 => fadd fmtF32 m (v p) (v a)
    | 1 => fminmax fmtF32 false (v p) (v a)
    | 2 => fminmax fmtF32 true (v p) (v a)
    | _ => ffma fmtF32 m (v b) (v p) (v a) false
  else
    match op with
    | 0 => (onInts (fun x y => x + y) fmt p a, 0)
    | 1 => (onInts (fun x y => min x y) fmt p a, 0)
    | 2 => (onInts (fun x y => max x y) fmt p a, 0)
    | 3 => (wrap 32 (intOf fmt a + intOf fmt b * intOf fmt p), 0)
    | _ => (p ^^^ a, 0)

/-- VRECUR's elements in order (R216): each with its result, the last p, and the flags. -/
def recurAll (step : Nat → Nat → Nat × Flags) : List Nat → Nat → List (Nat × Nat) × Nat × Flags
  | [], p => ([], p, 0)
  | e :: r, p =>
    let (q, fl) := step e p
    let (l, last, fl') := recurAll step r q
    ((e, q) :: l, last, fl ||| fl')

/-- VRECUR (R216). -/
def execVrecur (f : VFields) (s : State) : Out :=
  issueV s true [] [f.vd, f.va, f.vb] (fun s =>
    if !rndV s f false then takeIll s else
    let fmt := f.fmt.toNat
    let x := my s
    let (l, p, fl) := recurAll
      (fun e p => recurStep fmt f.ext.toNat (modeOf (rndOf x f.rnd)) p (elem x f.va fmt e) (elem x f.vb fmt e))
      (actives x f) x.carry.toNat
    floatEnd s fl (fun s => advance (modMy s (fun x => { putElems fmt f.vd x l with carry := BitVec.ofNat 32 p }))))

/-! ### Masks -/

/-- A mask word (R217): byte by byte over the strip. -/
def maskLogic (f : VFields) (op : Byte → Byte → Byte) (s : State) : Out :=
  issueV s true [] [] (fun s =>
    let m (sl : Slice) (r : VReg) : Byte := sl.m.toList.getD r.toNat 0
    advance (modMy s (fun x => { x with slots := x.slots.mapIdx (fun j sl =>
      if j < x.vl then { sl with m := sl.m.set! f.vd.toNat (op (m sl f.va) (m sl f.vb)) } else sl) })))

/-- The elements of a mask that are set, in the word's format. -/
def maskSet (s : State) (f : VFields) : List Nat :=
  (List.range (numElems (my s) f.fmt.toNat)).filter (mbit (my s) f.va.toNat f.fmt.toNat)

/-- MAND (R217). -/
def execMand (f : VFields) (s : State) : Out := maskLogic f (fun a b => a &&& b) s
/-- MOR (R217). -/
def execMor (f : VFields) (s : State) : Out := maskLogic f (fun a b => a ||| b) s
/-- MXOR (R217). -/
def execMxor (f : VFields) (s : State) : Out := maskLogic f (fun a b => a ^^^ b) s
/-- MNOT (R217). -/
def execMnot (f : VFields) (s : State) : Out := maskLogic f (fun a _ => ~~~a) s
/-- MPOPC (R217). -/
def execMpopc (f : VFields) (s : State) : Out :=
  issueV s true [f.s] [] (fun s => advance (setReg s f.s (BitVec.ofNat 64 (maskSet s f).length)))
/-- MFIRST (R217). -/
def execMfirst (f : VFields) (s : State) : Out :=
  issueV s true [f.s] [] (fun s => advance (setReg s f.s
    (match maskSet s f with | e :: _ => BitVec.ofNat 64 e | [] => BitVec.allOnes 64)))

end Sys2Proof.Machine
end

