-- ==== Sys2Proof/Machine/Dispatch.lean ====
section
/-! DEFINITION. Which meaning each instruction has. -/

namespace Sys2Proof.Machine

/-- An operation or event of the table carried out. -/
def exec (i : Instr) (s : State) : Host.Outcome State Fault Refusal :=
  match i with
  | .add d a b => Sys2Proof.Machine.execAdd d a b s
  | .sub d a b => Sys2Proof.Machine.execSub d a b s
  | .mul d a b => Sys2Proof.Machine.execMul d a b s
  | .mulh d a b => Sys2Proof.Machine.execMulh d a b s
  | .mulhn d a b => Sys2Proof.Machine.execMulhn d a b s
  | .div d a b => Sys2Proof.Machine.execDiv d a b s
  | .divn d a b => Sys2Proof.Machine.execDivn d a b s
  | .rem d a b => Sys2Proof.Machine.execRem d a b s
  | .remn d a b => Sys2Proof.Machine.execRemn d a b s
  | .and d a b => Sys2Proof.Machine.execAnd d a b s
  | .or d a b => Sys2Proof.Machine.execOr d a b s
  | .xor d a b => Sys2Proof.Machine.execXor d a b s
  | .andn d a b => Sys2Proof.Machine.execAndn d a b s
  | .sll d a b => Sys2Proof.Machine.execSll d a b s
  | .srl d a b => Sys2Proof.Machine.execSrl d a b s
  | .sra d a b => Sys2Proof.Machine.execSra d a b s
  | .rol d a b => Sys2Proof.Machine.execRol d a b s
  | .ror d a b => Sys2Proof.Machine.execRor d a b s
  | .min d a b => Sys2Proof.Machine.execMin d a b s
  | .max d a b => Sys2Proof.Machine.execMax d a b s
  | .minn d a b => Sys2Proof.Machine.execMinn d a b s
  | .maxn d a b => Sys2Proof.Machine.execMaxn d a b s
  | .cmpeq d a b => Sys2Proof.Machine.execCmpeq d a b s
  | .cmpne d a b => Sys2Proof.Machine.execCmpne d a b s
  | .cmplt d a b => Sys2Proof.Machine.execCmplt d a b s
  | .cmpltn d a b => Sys2Proof.Machine.execCmpltn d a b s
  | .csel d a b c => Sys2Proof.Machine.execCsel d a b c s
  | .clz d a => Sys2Proof.Machine.execClz d a s
  | .ctz d a => Sys2Proof.Machine.execCtz d a s
  | .popc d a => Sys2Proof.Machine.execPopc d a s
  | .bswap d a => Sys2Proof.Machine.execBswap d a s
  | .bext d a b c => Sys2Proof.Machine.execBext d a b c s
  | .bdep d a b c => Sys2Proof.Machine.execBdep d a b c s
  | .addi d a imm => Sys2Proof.Machine.execAddi d a imm s
  | .muli d a imm => Sys2Proof.Machine.execMuli d a imm s
  | .andi d a imm => Sys2Proof.Machine.execAndi d a imm s
  | .ori d a imm => Sys2Proof.Machine.execOri d a imm s
  | .xori d a imm => Sys2Proof.Machine.execXori d a imm s
  | .slli d a sh => Sys2Proof.Machine.execSlli d a sh s
  | .srli d a sh => Sys2Proof.Machine.execSrli d a sh s
  | .srai d a sh => Sys2Proof.Machine.execSrai d a sh s
  | .roli d a sh => Sys2Proof.Machine.execRoli d a sh s
  | .cmpeqi d a imm => Sys2Proof.Machine.execCmpeqi d a imm s
  | .cmplti d a imm => Sys2Proof.Machine.execCmplti d a imm s
  | .cmpltni d a imm => Sys2Proof.Machine.execCmpltni d a imm s
  | .mini d a imm => Sys2Proof.Machine.execMini d a imm s
  | .maxi d a imm => Sys2Proof.Machine.execMaxi d a imm s
  | .lih d imm => Sys2Proof.Machine.execLih d imm s
  | .lipc d imm => Sys2Proof.Machine.execLipc d imm s
  | .ldi32 d imm => Sys2Proof.Machine.execLdi32 d imm s
  | .ldi32N d imm => Sys2Proof.Machine.execLdi32N d imm s
  | .fadd d a b ft rnd => Sys2Proof.Machine.execFadd d a b ft rnd s
  | .fsub d a b ft rnd => Sys2Proof.Machine.execFsub d a b ft rnd s
  | .fmul d a b ft rnd => Sys2Proof.Machine.execFmul d a b ft rnd s
  | .fdiv d a b ft rnd => Sys2Proof.Machine.execFdiv d a b ft rnd s
  | .fsqrt d a ft rnd => Sys2Proof.Machine.execFsqrt d a ft rnd s
  | .fmadd d a b c ft rnd => Sys2Proof.Machine.execFmadd d a b c ft rnd s
  | .fmsub d a b c ft rnd => Sys2Proof.Machine.execFmsub d a b c ft rnd s
  | .fmin d a b ft => Sys2Proof.Machine.execFmin d a b ft s
  | .fmax d a b ft => Sys2Proof.Machine.execFmax d a b ft s
  | .fcmpeq d a b ft => Sys2Proof.Machine.execFcmpeq d a b ft s
  | .fcmplt d a b ft => Sys2Proof.Machine.execFcmplt d a b ft s
  | .fcmple d a b ft => Sys2Proof.Machine.execFcmple d a b ft s
  | .fclass d a ft => Sys2Proof.Machine.execFclass d a ft s
  | .fcvtfi d a ft rnd => Sys2Proof.Machine.execFcvtfi d a ft rnd s
  | .fcvtfn d a ft rnd => Sys2Proof.Machine.execFcvtfn d a ft rnd s
  | .fcvtif d a g rnd => Sys2Proof.Machine.execFcvtif d a g rnd s
  | .fcvtnf d a g rnd => Sys2Proof.Machine.execFcvtnf d a g rnd s
  | .fcvtff d a ft g rnd => Sys2Proof.Machine.execFcvtff d a ft g rnd s
  | .beq d a off => Sys2Proof.Machine.execBeq d a off s
  | .bne d a off => Sys2Proof.Machine.execBne d a off s
  | .blt d a off => Sys2Proof.Machine.execBlt d a off s
  | .bge d a off => Sys2Proof.Machine.execBge d a off s
  | .bltn d a off => Sys2Proof.Machine.execBltn d a off s
  | .bgen d a off => Sys2Proof.Machine.execBgen d a off s
  | .jmp off => Sys2Proof.Machine.execJmp off s
  | .call d off => Sys2Proof.Machine.execCall d off s
  | .callr d a => Sys2Proof.Machine.execCallr d a s
  | .ret a => Sys2Proof.Machine.execRet a s
  | .jmpr a => Sys2Proof.Machine.execJmpr a s
  | .ldB d m => Sys2Proof.Machine.execLdB d m s
  | .ldH d m => Sys2Proof.Machine.execLdH d m s
  | .ldW d m => Sys2Proof.Machine.execLdW d m s
  | .ldD d m => Sys2Proof.Machine.execLdD d m s
  | .ldBN d m => Sys2Proof.Machine.execLdBN d m s
  | .ldHN d m => Sys2Proof.Machine.execLdHN d m s
  | .ldWN d m => Sys2Proof.Machine.execLdWN d m s
  | .stB d m => Sys2Proof.Machine.execStB d m s
  | .stH d m => Sys2Proof.Machine.execStH d m s
  | .stW d m => Sys2Proof.Machine.execStW d m s
  | .stD d m => Sys2Proof.Machine.execStD d m s
  | .pref m => Sys2Proof.Machine.execPref m s
  | .amoadd d b m => Sys2Proof.Machine.execAmoadd d b m s
  | .amoand d b m => Sys2Proof.Machine.execAmoand d b m s
  | .amoor d b m => Sys2Proof.Machine.execAmoor d b m s
  | .amoxor d b m => Sys2Proof.Machine.execAmoxor d b m s
  | .amomin d b m => Sys2Proof.Machine.execAmomin d b m s
  | .amomax d b m => Sys2Proof.Machine.execAmomax d b m s
  | .amominn d b m => Sys2Proof.Machine.execAmominn d b m s
  | .amomaxn d b m => Sys2Proof.Machine.execAmomaxn d b m s
  | .amoswap d b m => Sys2Proof.Machine.execAmoswap d b m s
  | .cas d b m => Sys2Proof.Machine.execCas d b m s
  | .fence sc => Sys2Proof.Machine.execFence sc s
  | .trap a code => Sys2Proof.Machine.execTrap a code s
  | .ecall code => Sys2Proof.Machine.execEcall code s
  | .brk code => Sys2Proof.Machine.execBrk code s
  | .csrr d csr => Sys2Proof.Machine.execCsrr d csr s
  | .csrw csr a => Sys2Proof.Machine.execCsrw csr a s
  | .csrs csr a => Sys2Proof.Machine.execCsrs csr a s
  | .csrc csr a => Sys2Proof.Machine.execCsrc csr a s
  | .time d => Sys2Proof.Machine.execTime d s
  | .repart d a => Sys2Proof.Machine.execRepart d a s
  | .rmver d => Sys2Proof.Machine.execRmver d s
  | .rmack d a => Sys2Proof.Machine.execRmack d a s
  | .rmread d a b => Sys2Proof.Machine.execRmread d a b s
  | .tracemark a code => Sys2Proof.Machine.execTracemark a code s
  | .segld g m => Sys2Proof.Machine.execSegld g m s
  | .segst g m => Sys2Proof.Machine.execSegst g m s
  | .pginv a b => Sys2Proof.Machine.execPginv a b s
  | .cflush m => Sys2Proof.Machine.execCflush m s
  | .cinv m => Sys2Proof.Machine.execCinv m s
  | .cclean m => Sys2Proof.Machine.execCclean m s
  | .retain d a b c => Sys2Proof.Machine.execRetain d a b c s
  | .unpin d a => Sys2Proof.Machine.execUnpin d a s
  | .viewaddr d a b g => Sys2Proof.Machine.execViewaddr d a b g s
  | .reginfo d a b g => Sys2Proof.Machine.execReginfo d a b g s
  | .atomlog d a b => Sys2Proof.Machine.execAtomlog d a b s
  | .arrlog d a b => Sys2Proof.Machine.execArrlog d a b s
  | .rload d a b => Sys2Proof.Machine.execRload d a b s
  | .rstart d a b c => Sys2Proof.Machine.execRstart d a b c s
  | .rstop d a => Sys2Proof.Machine.execRstop d a s
  | .rstat d a b => Sys2Proof.Machine.execRstat d a b s
  | .cpy o h => Sys2Proof.Machine.execCpy o h s
  | .cpy2 o h => Sys2Proof.Machine.execCpy2 o h s
  | .cpyt o h => Sys2Proof.Machine.execCpyt o h s
  | .cpyg o h => Sys2Proof.Machine.execCpyg o h s
  | .cpyres h => Sys2Proof.Machine.execCpyres h s
  | .waitany d a => Sys2Proof.Machine.execWaitany d a s
  | .waitall d a => Sys2Proof.Machine.execWaitall d a s
  | .ffready d a => Sys2Proof.Machine.execFfready d a s
  | .tagclr a => Sys2Proof.Machine.execTagclr a s
  | .tagstat d a b => Sys2Proof.Machine.execTagstat d a b s
  | .sbinit a b => Sys2Proof.Machine.execSbinit a b s
  | .sbexp a b => Sys2Proof.Machine.execSbexp a b s
  | .sbwait d a b => Sys2Proof.Machine.execSbwait d a b s
  | .sbrel a => Sys2Proof.Machine.execSbrel a s
  | .sbstat d a b => Sys2Proof.Machine.execSbstat d a b s
  | .spawn d a b c => Sys2Proof.Machine.execSpawn d a b c s
  | .retj a => Sys2Proof.Machine.execRetj a s
  | .join d a => Sys2Proof.Machine.execJoin d a s
  | .joinq d a => Sys2Proof.Machine.execJoinq d a s
  | .glaunch d a g => Sys2Proof.Machine.execGlaunch d a g s
  | .gbar d => Sys2Proof.Machine.execGbar d s
  | .depinit d a g => Sys2Proof.Machine.execDepinit d a g s
  | .deparm d a b g => Sys2Proof.Machine.execDeparm d a b g s
  | .depsig d a g => Sys2Proof.Machine.execDepsig d a g s
  | .taskid d a => Sys2Proof.Machine.execTaskid d a s
  | .slotinfo d a => Sys2Proof.Machine.execSlotinfo d a s
  | .wdset d a => Sys2Proof.Machine.execWdset d a s
  | .dualWord hi lo => Sys2Proof.Machine.execDualWord hi lo s
  | .smloop c mask off => Sys2Proof.Machine.execSmloop c mask off s
  | .vreq f => Sys2Proof.Machine.execVreq f s
  | .vsetl f => Sys2Proof.Machine.execVsetl f s
  | .vyield f => Sys2Proof.Machine.execVyield f s
  | .qset f => Sys2Proof.Machine.execQset f s
  | .carryr f => Sys2Proof.Machine.execCarryr f s
  | .carryw f => Sys2Proof.Machine.execCarryw f s
  | .vld f => Sys2Proof.Machine.execVld f s
  | .vlds f => Sys2Proof.Machine.execVlds f s
  | .vldx f => Sys2Proof.Machine.execVldx f s
  | .vldq f => Sys2Proof.Machine.execVldq f s
  | .vldl f => Sys2Proof.Machine.execVldl f s
  | .vst f => Sys2Proof.Machine.execVst f s
  | .vsts f => Sys2Proof.Machine.execVsts f s
  | .vstx f => Sys2Proof.Machine.execVstx f s
  | .vstq f => Sys2Proof.Machine.execVstq f s
  | .vstl f => Sys2Proof.Machine.execVstl f s
  | .vldsx f => Sys2Proof.Machine.execVldsx f s
  | .vstsx f => Sys2Proof.Machine.execVstsx f s
  | .vamo f => Sys2Proof.Machine.execVamo f s
  | .vfadd f => Sys2Proof.Machine.execVfadd f s
  | .vfsub f => Sys2Proof.Machine.execVfsub f s
  | .vfmul f => Sys2Proof.Machine.execVfmul f s
  | .vfdiv f => Sys2Proof.Machine.execVfdiv f s
  | .vfsqrt f => Sys2Proof.Machine.execVfsqrt f s
  | .vfma f => Sys2Proof.Machine.execVfma f s
  | .vfms f => Sys2Proof.Machine.execVfms f s
  | .vfmin f => Sys2Proof.Machine.execVfmin f s
  | .vfmax f => Sys2Proof.Machine.execVfmax f s
  | .vfcmpeq f => Sys2Proof.Machine.execVfcmpeq f s
  | .vfcmplt f => Sys2Proof.Machine.execVfcmplt f s
  | .vfcmple f => Sys2Proof.Machine.execVfcmple f s
  | .vadd f => Sys2Proof.Machine.execVadd f s
  | .vsub f => Sys2Proof.Machine.execVsub f s
  | .vmul f => Sys2Proof.Machine.execVmul f s
  | .vmulh f => Sys2Proof.Machine.execVmulh f s
  | .vdiv f => Sys2Proof.Machine.execVdiv f s
  | .vrem f => Sys2Proof.Machine.execVrem f s
  | .vand f => Sys2Proof.Machine.execVand f s
  | .vor f => Sys2Proof.Machine.execVor f s
  | .vxor f => Sys2Proof.Machine.execVxor f s
  | .vsll f => Sys2Proof.Machine.execVsll f s
  | .vsrl f => Sys2Proof.Machine.execVsrl f s
  | .vsra f => Sys2Proof.Machine.execVsra f s
  | .vmin f => Sys2Proof.Machine.execVmin f s
  | .vmax f => Sys2Proof.Machine.execVmax f s
  | .vcmpeq f => Sys2Proof.Machine.execVcmpeq f s
  | .vcmplt f => Sys2Proof.Machine.execVcmplt f s
  | .vadds f => Sys2Proof.Machine.execVadds f s
  | .vsubs f => Sys2Proof.Machine.execVsubs f s
  | .vcvt f => Sys2Proof.Machine.execVcvt f s
  | .vperm f => Sys2Proof.Machine.execVperm f s
  | .vslideup f => Sys2Proof.Machine.execVslideup f s
  | .vslidedn f => Sys2Proof.Machine.execVslidedn f s
  | .vcompress f => Sys2Proof.Machine.execVcompress f s
  | .vbcast f => Sys2Proof.Machine.execVbcast f s
  | .vext f => Sys2Proof.Machine.execVext f s
  | .vredsum f => Sys2Proof.Machine.execVredsum f s
  | .vredmin f => Sys2Proof.Machine.execVredmin f s
  | .vredmax f => Sys2Proof.Machine.execVredmax f s
  | .vfredsum f => Sys2Proof.Machine.execVfredsum f s
  | .vfredmin f => Sys2Proof.Machine.execVfredmin f s
  | .vfredmax f => Sys2Proof.Machine.execVfredmax f s
  | .vrecur f => Sys2Proof.Machine.execVrecur f s
  | .mand f => Sys2Proof.Machine.execMand f s
  | .mor f => Sys2Proof.Machine.execMor f s
  | .mxor f => Sys2Proof.Machine.execMxor f s
  | .mnot f => Sys2Proof.Machine.execMnot f s
  | .mpopc f => Sys2Proof.Machine.execMpopc f s
  | .mfirst f => Sys2Proof.Machine.execMfirst f s
  | .mmode f => Sys2Proof.Machine.execMmode f s
  | .tshape f => Sys2Proof.Machine.execTshape f s
  | .mzero f => Sys2Proof.Machine.execMzero f s
  | .mopa f => Sys2Proof.Machine.execMopa f s
  | .mopa8 f => Sys2Proof.Machine.execMopa8 f s
  | .mops f => Sys2Proof.Machine.execMops f s
  | .mvacc f => Sys2Proof.Machine.execMvacc f s
  | .mvcol f => Sys2Proof.Machine.execMvcol f s
  | .mldacc f => Sys2Proof.Machine.execMldacc f s
  | .mspill f => Sys2Proof.Machine.execMspill f s
  | .mfill f => Sys2Proof.Machine.execMfill f s
  | .vmaxexp f => Sys2Proof.Machine.execVmaxexp f s
  | .vquant f => Sys2Proof.Machine.execVquant f s
  | .vdeq f => Sys2Proof.Machine.execVdeq f s
  | .eret => Sys2Proof.Machine.execEret s
  | .yield => Sys2Proof.Machine.execYield s
  | .tend => Sys2Proof.Machine.execTend s
  | .wdkick => Sys2Proof.Machine.execWdkick s
  | .hint => Sys2Proof.Machine.execHint s
  | .vrel => Sys2Proof.Machine.execVrel s
  | .mexit => Sys2Proof.Machine.execMexit s
  | .vseed => Sys2Proof.Machine.execVseed s
  | .saacq => Sys2Proof.Machine.execSaacq s
  | .sarel => Sys2Proof.Machine.execSarel s
  | .saload => Sys2Proof.Machine.execSaload s
  | .saseed => Sys2Proof.Machine.execSaseed s
  | .sabeta => Sys2Proof.Machine.execSabeta s
  | .saclamp => Sys2Proof.Machine.execSaclamp s
  | .sasweep => Sys2Proof.Machine.execSasweep s
  | .saread => Sys2Proof.Machine.execSaread s
  | .sacount => Sys2Proof.Machine.execSacount s
  | .sawait => Sys2Proof.Machine.execSawait s
  | .saloadRun => Sys2Proof.Machine.execSaloadRun s
  | .saseedRun => Sys2Proof.Machine.execSaseedRun s
  | .sabetaRun => Sys2Proof.Machine.execSabetaRun s
  | .sweep => Sys2Proof.Machine.execSweep s
  | .saRegisterReturn => Sys2Proof.Machine.execSaRegisterReturn s
  | .entropyRetest => Sys2Proof.Machine.execEntropyRetest s
  | .launchRecord => Sys2Proof.Machine.execLaunchRecord s
  | .portWriteOther => Sys2Proof.Machine.execPortWriteOther s
  | .gangStart => Sys2Proof.Machine.execGangStart s
  | .tileDraw => Sys2Proof.Machine.execTileDraw s
  | .dispatch => Sys2Proof.Machine.execDispatch s
  | .taskStart => Sys2Proof.Machine.execTaskStart s
  | .steal => Sys2Proof.Machine.execSteal s
  | .gangEnd => Sys2Proof.Machine.execGangEnd s
  | .wdog => Sys2Proof.Machine.execWdog s
  | .quantumExpiry => Sys2Proof.Machine.execQuantumExpiry s
  | .slotTableWrite => Sys2Proof.Machine.execSlotTableWrite s
  | .unbind => Sys2Proof.Machine.execUnbind s
  | .unbindComplete => Sys2Proof.Machine.execUnbindComplete s
  | .resume => Sys2Proof.Machine.execResume s
  | .lscfgWrite => Sys2Proof.Machine.execLscfgWrite s
  | .victWrite => Sys2Proof.Machine.execVictWrite s
  | .loadResponse => Sys2Proof.Machine.execLoadResponse s
  | .atomicResponse => Sys2Proof.Machine.execAtomicResponse s
  | .vectorLoadArrival => Sys2Proof.Machine.execVectorLoadArrival s
  | .matrixWordComplete => Sys2Proof.Machine.execMatrixWordComplete s
  | .chunkDone => Sys2Proof.Machine.execChunkDone s
  | .chunkFault => Sys2Proof.Machine.execChunkFault s
  | .pageReport => Sys2Proof.Machine.execPageReport s
  | .wakeMessage => Sys2Proof.Machine.execWakeMessage s
  | .scopeMissMessage => Sys2Proof.Machine.execScopeMissMessage s
  | .acquireReissue => Sys2Proof.Machine.execAcquireReissue s
  | .grantWake => Sys2Proof.Machine.execGrantWake s
  | .sliceMove => Sys2Proof.Machine.execSliceMove s
  | .laneLost => Sys2Proof.Machine.execLaneLost s
  | .slicePlaced => Sys2Proof.Machine.execSlicePlaced s
  | .unitError => Sys2Proof.Machine.execUnitError s
  | .mapChange => Sys2Proof.Machine.execMapChange s
  | .ackDeadline => Sys2Proof.Machine.execAckDeadline s
  | .dumpBuild => Sys2Proof.Machine.execDumpBuild s
  | .hostWriteQueueDrain => Sys2Proof.Machine.execHostWriteQueueDrain s
  | .hostWrite => Sys2Proof.Machine.execHostWrite s
  | .hostRead => Sys2Proof.Machine.execHostRead s
  | .peerAccess => Sys2Proof.Machine.execPeerAccess s
  | .ctxnew => Sys2Proof.Machine.execCtxnew s
  | .ctxdel => Sys2Proof.Machine.execCtxdel s
  | .load => Sys2Proof.Machine.execLoad s
  | .map => Sys2Proof.Machine.execMap s
  | .unmap => Sys2Proof.Machine.execUnmap s
  | .region => Sys2Proof.Machine.execRegion s
  | .regfree => Sys2Proof.Machine.execRegfree s
  | .mailboxRmack => Sys2Proof.Machine.execMailboxRmack s
  | .mapread => Sys2Proof.Machine.execMapread s
  | .logctl => Sys2Proof.Machine.execLogctl s
  | .dumpfree => Sys2Proof.Machine.execDumpfree s
  | .trace => Sys2Proof.Machine.execTrace s
  | .errs => Sys2Proof.Machine.execErrs s
  | .attest => Sys2Proof.Machine.execAttest s
  | .mailboxOverflow => Sys2Proof.Machine.execMailboxOverflow s
  | .tenantEnable => Sys2Proof.Machine.execTenantEnable s
  | .dumpWindowSize => Sys2Proof.Machine.execDumpWindowSize s
  | .allowanceSet => Sys2Proof.Machine.execAllowanceSet s
  | .firmwareUpdate => Sys2Proof.Machine.execFirmwareUpdate s
  | .operatorKey => Sys2Proof.Machine.execOperatorKey s
  | .signedStateRead => Sys2Proof.Machine.execSignedStateRead s
  | .powerGood => Sys2Proof.Machine.execPowerGood s
  | .clockStep => Sys2Proof.Machine.execClockStep s
  | .powerSample => Sys2Proof.Machine.execPowerSample s
  | .temperatureRefresh => Sys2Proof.Machine.execTemperatureRefresh s
  | .thermalShutdown => Sys2Proof.Machine.execThermalShutdown s
  | .linkRetrain => Sys2Proof.Machine.execLinkRetrain s
  | .storeAcknowledged => Sys2Proof.Machine.execStoreAcknowledged s
  | .pginvComplete => Sys2Proof.Machine.execPginvComplete s
  | .packlinkLinkUp => Sys2Proof.Machine.execPacklinkLinkUp s

end Sys2Proof.Machine
end

