-- ==== Sys2Proof/Machine/Step.lean ====
section
/-! DEFINITION. One step of the part: what the schedule says moves next, then what engines owe, then the next agent of the
rotation. -/

namespace Sys2Proof.Machine

/-- The word at the current agent's PC, fetched, decoded and carried out; a word retired at U under SS is followed by the
step trap (R129). -/
def runWord (s : State) : Host.Outcome State Fault Refusal :=
  match fetch s with
  | .error c => .next (takeCause s c)
  | .ok w =>
    let s := { s with ir := w }
    match decode w with
    | .error _ => .next (takeIll s)
    | .ok i =>
      match exec i s with
      | .next s' => .next (singleStep s s')
      | .fault f => .fault f
      | .refused r => .refused r

/-- An agent's turn: a trap that is due is taken in place of the word. -/
def issueWord (s : State) (a : Agent) (d : Bool) : Host.Outcome State Fault Refusal :=
  let s := takeSlot s a d
  match dueTrap s with
  | some (s, code, info, tval) => .next (forgetPage (takeTrap s code info tval) a)
  | none => match runWord s with
    | .next s' => .next (forgetPage s' a)
    | .fault f => .fault f
    | .refused r => .refused r

/-- A scheduled turn of an agent: nothing where it may not issue, or forgoes the turn. -/
def wordTurn (s : State) (a : Agent) (d : Bool) : Host.Outcome State Fault Refusal :=
  if !runnable s a then .next s else if forgoes s a then .next (forgone s a) else issueWord s a d

/-- A step of an engine, the keeper, the host or the operator. -/
def eventTurn (s : State) (e : Instr) (m : Msg) : Host.Outcome State Fault Refusal :=
  if events.contains e then exec e { s with msg := m } else .next s

/-- One step. A module without power stops until power comes back (R365). One that has power and has not been brought up, or that
neither firmware slot could start, stays in reset: nothing moves but POWER_GOOD, and the physical function's report of the failure (R359, R362). -/
def step (s : State) : Host.Outcome State Fault Refusal :=
  let k := s.keeper
  match s.schedule with
  | .event e m :: rest =>
    if e = .powerGood then eventTurn { s with schedule := rest } e m
    else if !k.on then .fault .unpowered
    else if !k.booted && !readsPhysical k e m then .next { s with schedule := rest }
    else eventTurn { s with schedule := rest } e m
  | .word a d :: rest =>
    if !k.on then .fault .unpowered
    else if !k.booted then .next { s with schedule := rest }
    else wordTurn { s with schedule := rest } a d
  | .elapse n :: rest =>
    if !k.on then .fault .unpowered
    else if !k.booted then .next { s with schedule := rest }
    else .next (elapse { s with schedule := rest } n)
  | .prefer l :: rest =>
    if !k.on then .fault .unpowered else .next { s with schedule := rest, prefer := l }
  | [] =>
    if !k.on then .fault .unpowered
    else if !k.booted then .next s
    else match s.owed with
    | (e, m) :: rest => eventTurn { s with owed := rest } e m
    | [] => match nextAgent s with
      | some (a, s) => issueWord s a false
      | none => .next s

/-- The state with an instruction placed where `step` fetches next: a page of a context's code heap holds it, the page is
mapped, hardware context 0 of core 0 is bound to the context and holds a thread at the word, and that thread is scheduled
(log 7). -/
def State.withFetchWord (s : State) (nbits w : Nat) : State := placeWord s (BitVec.ofNat 64 (w % 2 ^ nbits))

end Sys2Proof.Machine
end

