-- ==== Sys2Proof/Safety.lean ====
section
/-! DEFINITION. What counts as a safe run, and the terms in which claims speak of one step: what a retired word has changed,
what stays as it was, and the forms of the instruction families with the result that the manual gives each. -/

namespace Sys2Proof.Machine

/-! ### Safe runs -/

/-- A step answers a next state. -/
def goesOn (s : State) : Prop := ∃ t, step s = .next t

/-- What every step keeps: memory has its canonical form. -/
def Inv (s : State) : Prop := s.mem.wf = true

/-! ### What a word has changed -/

/-- What a retired word does to its own agent: the scalar register and the segment register it writes, the next PC, and what
else becomes of the thread's record. -/
structure Effect where
  reg : Option (Reg × Word)
  seg : Option (BitVec 3 × Seg)
  pc : Word
  thread : Thread → Thread

/-- The word goes on at the next word and writes nothing. -/
def Effect.next (s : State) : Effect := { reg := none, seg := none, pc := pcOf s + 8, thread := id }
/-- The word goes on at the next word and writes a scalar register. -/
def Effect.write (s : State) (d : Reg) (v : Word) : Effect :=
  { reg := some (d, v), seg := none, pc := pcOf s + 8, thread := id }
/-- The word goes on at the next word and changes the thread's record. -/
def Effect.own (s : State) (f : Thread → Thread) : Effect := { reg := none, seg := none, pc := pcOf s + 8, thread := f }

/-- The word that `s` issues has retired in `t` with an effect on its own agent. Everything that belongs to no thread and to
no Retriever is as in `u`; every other thread and Retriever, every register and segment that the effect does not name, and
every other part of the thread's record is as in `s`. A write to s0 is discarded (R28). -/
structure Retired (s u t : State) (e : Effect) : Prop where
  rest : t = { u with threads := t.threads, rets := t.rets }
  threads : ∀ n, n ≠ me s → kfind t.threads n = kfind s.threads n
  rets : ∀ n, s.cur ≠ .ret n → kfind t.rets n = kfind s.rets n
  mine : my t = match s.cur with
    | .thread _ => { e.thread (my s) with hart := hart t, instret := (my s).instret + 1, cond := .ready }
    | .ret _ => e.thread (my s)
  ret : ∀ n, s.cur = .ret n → ret t n = { ret s n with hart := hart t, cond := .ready }
  regs : ∀ r, reg t r = match e.reg with
    | some (d, v) => if r = d ∧ d ≠ 0 then v else reg s r
    | none => reg s r
  segs : ∀ g, seg t g = match e.seg with
    | some (k, x) => if g = k then x else seg s g
    | none => seg s g
  pc : pcOf t = e.pc

/-- Every agent reads at every location what it read before. -/
def BytesKept (s t : State) : Prop := ∀ a d loc, getLoc t a d loc = getLoc s a d loc

/-- The word wrote one scalar register and nothing else. -/
def Wrote (s t : State) (d : Reg) (v : Word) : Prop := Retired s s t (.write s d v) ∧ BytesKept s t

/-- The word changed the thread's record and nothing else. -/
def ChangedOwn (s t : State) (f : Thread → Thread) : Prop := Retired s s t (.own s f) ∧ BytesKept s t

/-- The word went on at a target, its link register written; a barrel thread's trace ring has recorded a target other than
the next word (R357). -/
def Jumped (s t : State) (link : Option (Reg × Word)) (target : Word) : Prop :=
  Retired s (if target = pcOf s + 8 ∨ onRet s = true then s else trace s 1 0 target) t
    { reg := link, seg := none, pc := target, thread := id } ∧ BytesKept s t

/-- The word waits: its agent is marked so, and nothing else has changed (R19). -/
def Waits (s t : State) : Prop := t = setCond s .waiting ∧ BytesKept s t ∧ pcOf t = pcOf s ∧ ∀ r, reg t r = reg s r

/-- Queued writes but for the agents that have read them. -/
def unread (q : List QWrite) : List QWrite := q.map (fun w => { w with agents := [] })

/-- Two states differ at most in what caches hold and in which agents have read the writes queued at a die. -/
structure CachesOnly (s u : State) : Prop where
  rest : u = { s with local1 := u.local1, dies := u.dies, llc := u.llc }
  dies : ∀ d, (die u d).retain = (die s d).retain ∧ (die u d).sa = (die s d).sa ∧ unread (die u d).uoq = unread (die s d).uoq ∧
    unread (die u d).hostq = unread (die s d).hostq ∧ unread (die u d).peerq = unread (die s d).peerq

/-- Two states differ at most in memory and in what its homes, caches, queues and logs hold. -/
def HomesOnly (s u : State) : Prop :=
  u = { s with mem := u.mem, poison := u.poison, local1 := u.local1, dies := u.dies, tenants := u.tenants, marks := u.marks
               ctxs := u.ctxs, stores := u.stores, owed := u.owed, covers := u.covers, llc := u.llc, nextId := u.nextId
               peerHeld := u.peerHeld }

/-- What a die's writes that stay within it give a location (R91). -/
def uoqRead (s : State) (d loc : Nat) : Option Byte := (die s d).uoq.reverse.findSome? (fun w => lastWrite w.locs loc)

/-- A location that an access to some others, where it is served at the home, brings home: one of their granules, of which a die holds
a write for itself (R91, R97, R272). -/
def BroughtHome (s : State) (locs : List Nat) (loc : Nat) : Prop :=
  sharesGranule s locs loc = true ∧ offPart loc = false ∧ ∃ d, uoqRead s d loc ≠ none

/-- Neither a store of some locations nor an earlier one of its agent, which may be performed with it, brings a location home. -/
def StoreSpares (s : State) (a : Agent) (put : List Nat) (loc : Nat) : Prop :=
  ¬BroughtHome s put loc ∧ ∀ p ∈ s.stores, p.agent = a → ¬BroughtHome s (p.locs.map (·.1)) loc

/-- The agent that issues has taken a condition; every other thread and Retriever is as it was. -/
structure CondSet (s t : State) (c : Cond) : Prop where
  threads : ∀ n, s.cur ≠ .thread n → kfind t.threads n = kfind s.threads n
  rets : ∀ n, s.cur ≠ .ret n → kfind t.rets n = kfind s.rets n
  thread : ∀ n, s.cur = .thread n → kfind t.threads n = some { thr s n with cond := c }
  ret : ∀ n, s.cur = .ret n → kfind t.rets n = some { ret s n with cond := c }

/-- The word that `s` issues has been accepted, as `u` has it, and its agent waits for the response, which the step `e` of the
agent brings (R121). -/
def Awaits (s u t : State) (w : Await) (e : Instr) : Prop :=
  CondSet s t (.awaiting w) ∧ t = { u with threads := t.threads, rets := t.rets, owed := u.owed ++ [evA e s.cur] }

/-- The acquire that `s` issues is held by a scope miss on a granule with a mark (R93, R94): its agent waits for the granule. Where no
message names the granule yet, one goes to the marked core, into its queue of 16 or held at its router: it names the granule, the
marked doubleword's address, the releasing context, the mark's scope, and the narrowest scope that takes in every acquirer held on the
granule, .w where a peer is one. -/
def Held (s t : State) (g : Nat) (m : Mark) : Prop :=
  CondSet s t (.heldAcquire g) ∧
    t = { s with threads := t.threads, rets := t.rets, cores := t.cores, router := t.router, owed := t.owed } ∧
    (missOut s g = true → t.cores = s.cores ∧ t.router = s.router ∧ t.owed = s.owed) ∧
    (missOut s g = false → ∃ msg : ScopeMsg,
      msg.granule = g ∧ msg.cva = m.cva ∧ msg.ctx = m.ctx ∧ msg.markScope = m.scope ∧
      (∀ a ∈ heldOn t g, narrowest m.core (agentCore a) ≤ msg.needed) ∧
      (msg.needed = 6 ∨ ∃ a ∈ heldOn t g, msg.needed = narrowest m.core (agentCore a)) ∧
      ((∃ p ∈ s.peerHeld, p.1 = g) → msg.needed = 6) ∧
      t.owed = s.owed ++ [ev .scopeMissMessage m.core] ∧
      ((core s m.core).smq.length < 16 →
        t.cores = kset s.cores m.core { core s m.core with smq := (core s m.core).smq ++ [msg] } ∧ t.router = s.router) ∧
      (16 ≤ (core s m.core).smq.length → t.cores = s.cores ∧ t.router = s.router ++ [(m.core, msg)]))

/-- A precise trap entered at U (R128): EPC, whose low three bits read as 0 (R125), CAUSE, TVAL, PRIV and PC are written, the trace
ring records it, and nothing else changes but the progress watch (R204). -/
structure Entered (s t : State) (tvec : Word) (code info : Nat) (tval : Word) : Prop where
  rest : t = { trace s 2 code tval with threads := t.threads }
  threads : ∀ n, n ≠ me s → kfind t.threads n = kfind s.threads n
  mine : my t = { my s with
    epc := pcOf s &&& ~~~(7 : Word), cause := BitVec.ofNat 64 (info * 2 ^ 32 + code), tval := tval, status := (my s).status ||| 1
    hart := hart t, watch := none, cond := .ready }
  regs : ∀ r, reg t r = reg s r
  segs : ∀ g, seg t g = seg s g
  pc : pcOf t = tvec
  bytes : BytesKept s t

/-- A barrel thread at U outside the service context, whose context has a trap handler (R128). -/
def HandledAtU (s : State) (tvec : Word) : Prop :=
  onRet s = false ∧ privOf (my s) = false ∧ svcOf (my s) = false ∧ tvec ≠ 0 ∧ ∃ c, ctx? s (myCtx s) = some c ∧ c.tvec = tvec

/-- An agent has taken its turn: the rotation of a thread's core goes on after it, while a Retriever is a member of none (R18, R119);
the response of an access that it makes stays outstanding where `d` says so. -/
def turnOf (s : State) (a : Agent) (d : Bool) : State :=
  { (match a with
      | .thread n => modCore s (coreOf n) (fun c => { c with last := some (hwOf n) })
      | .ret _ => s) with cur := a, defer := d }

/-- It is the turn of agent `a`, `s0` being the state without that turn: the schedule gives it one and it may issue and forgoes
none, or nothing is scheduled or owed and the rotation comes to it (R18, R119). -/
def TakesTurn (s s0 : State) (a : Agent) (d : Bool) : Prop :=
  s.keeper.on = true ∧ s.keeper.booted = true ∧
    ((∃ rest, s.schedule = .word a d :: rest ∧ s0 = { s with schedule := rest } ∧ runnable s0 a = true ∧ forgoes s0 a = false) ∨
      (s.schedule = [] ∧ s.owed = [] ∧ d = false ∧ nextAgent s = some (a, s0)))

/-- What a thread of context `c` holds of the RMSUSP that it takes at resumption, at version `v` of the map (R136): the trap is
pending where the thread stopped at U, and is taken at its first word at U where it stopped at S, or behind a trap that is already
pending; the service context takes none. -/
def toldOfMap (c v : Nat) (y : Thread) : Thread :=
  if y.ctx ≠ c ∨ svcOf y = true then y
  else if privOf y = true then { y with rmsusp := true }
  else match y.pendTrap with
    | none => { y with pendTrap := some (0xB, 0, v) }
    | some p => if p.1 = 0xB then { y with pendTrap := some (0xB, 0, v) } else { y with rmsusp := true }

/-! ### Scalar forms -/

/-- The two-operand register forms, with what each writes (Table 5.11, R57). -/
def registerForms (d a b : Reg) : List (Instr × (State → Word)) :=
  [(.add d a b, fun s => BitVec.ofInt 64 ((reg s a).toInt + (reg s b).toInt)),
   (.sub d a b, fun s => BitVec.ofInt 64 ((reg s a).toInt - (reg s b).toInt)),
   (.mul d a b, fun s => BitVec.ofInt 64 ((reg s a).toInt * (reg s b).toInt)),
   (.mulh d a b, fun s => BitVec.ofInt 64 ((reg s a).toInt * (reg s b).toInt / 2 ^ 64)),
   (.mulhn d a b, fun s => BitVec.ofNat 64 ((reg s a).toNat * (reg s b).toNat / 2 ^ 64)),
   (.div d a b, fun s => if reg s b = 0 then BitVec.allOnes 64 else BitVec.ofInt 64 ((reg s a).toInt.tdiv (reg s b).toInt)),
   (.divn d a b, fun s => if reg s b = 0 then BitVec.allOnes 64 else BitVec.ofNat 64 ((reg s a).toNat / (reg s b).toNat)),
   (.rem d a b, fun s => if reg s b = 0 then reg s a else BitVec.ofInt 64 ((reg s a).toInt.tmod (reg s b).toInt)),
   (.remn d a b, fun s => if reg s b = 0 then reg s a else BitVec.ofNat 64 ((reg s a).toNat % (reg s b).toNat)),
   (.and d a b, fun s => reg s a &&& reg s b),
   (.or d a b, fun s => reg s a ||| reg s b),
   (.xor d a b, fun s => reg s a ^^^ reg s b),
   (.andn d a b, fun s => reg s a &&& ~~~reg s b),
   (.sll d a b, fun s => BitVec.ofNat 64 ((reg s a).toNat * 2 ^ ((reg s b).toNat % 64))),
   (.srl d a b, fun s => BitVec.ofNat 64 ((reg s a).toNat / 2 ^ ((reg s b).toNat % 64))),
   (.sra d a b, fun s => BitVec.ofInt 64 ((reg s a).toInt / 2 ^ ((reg s b).toNat % 64))),
   (.rol d a b, fun s => (reg s a).rotateLeft ((reg s b).toNat % 64)),
   (.ror d a b, fun s => (reg s a).rotateRight ((reg s b).toNat % 64)),
   (.min d a b, fun s => BitVec.ofInt 64 (min (reg s a).toInt (reg s b).toInt)),
   (.max d a b, fun s => BitVec.ofInt 64 (max (reg s a).toInt (reg s b).toInt)),
   (.minn d a b, fun s => BitVec.ofNat 64 (min (reg s a).toNat (reg s b).toNat)),
   (.maxn d a b, fun s => BitVec.ofNat 64 (max (reg s a).toNat (reg s b).toNat)),
   (.cmpeq d a b, fun s => if reg s a = reg s b then 1 else 0),
   (.cmpne d a b, fun s => if reg s a = reg s b then 0 else 1),
   (.cmplt d a b, fun s => if (reg s a).toInt < (reg s b).toInt then 1 else 0),
   (.cmpltn d a b, fun s => if (reg s a).toNat < (reg s b).toNat then 1 else 0)]

/-- The one-operand register forms (Table 5.11). -/
def unaryForms (d a : Reg) : List (Instr × (State → Word)) :=
  [(.clz d a, fun s => if reg s a = 0 then 64 else BitVec.ofNat 64 (63 - (reg s a).toNat.log2)),
   (.ctz d a, fun s => BitVec.ofNat 64 (((List.range 64).find? (reg s a).getLsbD).getD 64)),
   (.popc d a, fun s => BitVec.ofNat 64 ((List.range 64).filter (reg s a).getLsbD).length),
   (.bswap d a, fun s => BitVec.ofNat 64 (leNat (leBytes 8 (reg s a).toNat).reverse))]

/-- A mask of `n` low bits, 64 at most. -/
def lowMask (n : Word) : Word := BitVec.ofNat 64 (2 ^ min n.toNat 64 - 1)

/-- The register forms of three and four operands (R137). -/
def wideForms (d a b c : Reg) : List (Instr × (State → Word)) :=
  [(.csel d a b c, fun s => if reg s b = 0 then reg s c else reg s a),
   (.bext d a b c, fun s => (reg s a >>> ((reg s b).toNat % 64)) &&& lowMask (reg s c)),
   (.bdep d a b c, fun s =>
      (reg s d &&& ~~~(lowMask (reg s c) <<< ((reg s b).toNat % 64))) |||
        ((reg s a &&& lowMask (reg s c)) <<< ((reg s b).toNat % 64)))]

/-- The immediate forms: the immediate is sign-extended (R138). -/
def immediateForms (d a : Reg) (v : BitVec 12) : List (Instr × (State → Word)) :=
  [(.addi d a v, fun s => BitVec.ofInt 64 ((reg s a).toInt + v.toInt)),
   (.muli d a v, fun s => BitVec.ofInt 64 ((reg s a).toInt * v.toInt)),
   (.andi d a v, fun s => reg s a &&& v.signExtend 64),
   (.ori d a v, fun s => reg s a ||| v.signExtend 64),
   (.xori d a v, fun s => reg s a ^^^ v.signExtend 64),
   (.cmpeqi d a v, fun s => if (reg s a).toInt = v.toInt then 1 else 0),
   (.cmplti d a v, fun s => if (reg s a).toInt < v.toInt then 1 else 0),
   (.cmpltni d a v, fun s => if (reg s a).toNat < (v.signExtend 64).toNat then 1 else 0),
   (.mini d a v, fun s => BitVec.ofInt 64 (min (reg s a).toInt v.toInt)),
   (.maxi d a v, fun s => BitVec.ofInt 64 (max (reg s a).toInt v.toInt))]

/-- The shifts and rotates by an immediate amount (R138). -/
def shiftForms (d a : Reg) (n : BitVec 6) : List (Instr × (State → Word)) :=
  [(.slli d a n, fun s => BitVec.ofNat 64 ((reg s a).toNat * 2 ^ n.toNat)),
   (.srli d a n, fun s => BitVec.ofNat 64 ((reg s a).toNat / 2 ^ n.toNat)),
   (.srai d a n, fun s => BitVec.ofInt 64 ((reg s a).toInt / 2 ^ n.toNat)),
   (.roli d a n, fun s => (reg s a).rotateLeft n.toNat)]

/-- Constants, TIME and RMVER: whether a Retriever may issue the word, and what it writes (R139, R146). -/
def constantForms (d : Reg) (v20 : BitVec 20) (v32 : BitVec 32) : List (Instr × Bool × (State → Word)) :=
  [(.lih d v20, true, fun _ => BitVec.ofInt 64 (v20.toInt * 2 ^ 12)),
   (.lipc d v20, true, fun s => BitVec.ofInt 64 ((pcOf s).toNat + v20.toInt * 2 ^ 12)),
   (.ldi32 d v32, false, fun _ => BitVec.ofInt 64 v32.toInt),
   (.ldi32N d v32, false, fun _ => BitVec.ofNat 64 v32.toNat),
   (.time d, true, fun s => BitVec.ofNat 64 s.time),
   (.rmver d, false, fun s => BitVec.ofNat 64 s.keeper.version)]

/-- The words that report something and change nothing else: whether a Retriever may issue them, and what each writes
(R146, R293, R294, R316). -/
def reportForms (d a b : Reg) (g : BitVec 3) : List (Instr × Bool × List Reg × (State → Word)) :=
  [(.rmread d a b, false, [d, a, b], fun s => mapDword s (reg s a).toNat (reg s b).toNat),
   (.taskid d a, false, [d, a], fun s => taskidOf s (reg s a).toNat),
   (.slotinfo d a, false, [d, a], fun s => slotinfoOf s (reg s a).toNat),
   (.viewaddr d a b g, false, [d, a, b], fun s =>
      match viewOf s g (reg s a).toNat with
      | none => BitVec.allOnes 64
      | some (_, view, off, r) =>
        if r.rows ≤ field (reg s b) 0 32 ∨ r.cols ≤ field (reg s b) 32 32 then BitVec.allOnes 64
        else reg s a - BitVec.ofNat 64 off + BitVec.ofNat 64 (r.viewOff view (field (reg s b) 0 32) (field (reg s b) 32 32))),
   (.reginfo d a b g, false, [d, a, b], fun s =>
      match viewOf s g (reg s a).toNat with
      | none => BitVec.allOnes 64
      | some (n, view, _, r) =>
        if reg s b = 0 then regionDw0 r
        else if reg s b = 1 then BitVec.ofNat 64 (r.cols * 2 ^ 32 + r.rows)
        else if reg s b = 2 then BitVec.ofNat 64 (n * 2 ^ 48 + r.tc * 2 ^ 32 + r.tr * 2 ^ 16 + r.e * 2 ^ 8 + view)
        else BitVec.allOnes 64),
   (.atomlog d a b, true, [d, a, b], fun s =>
      let l := matching s (reg s a).toNat
      match l[field (reg s b) 8 8]?, (reg s b).getLsbD 0 with
      | some e, true => e.old
      | none, true => 0
      | some e, false => BitVec.ofNat 64 (e.time % 2 ^ 32 * 2 ^ 32 + min 255 l.length * 2 ^ 8 +
          (if e.vamo then 4 else 0) + (if e.cas then 2 else 0) + 1)
      | none, false => BitVec.ofNat 64 (min 255 l.length * 2 ^ 8))]

/-- The scalar floating forms: the registers a word names, its rounding code, and its result with the flags it raises
(R61, R68, R73, R75, R140). -/
def floatForms (d a b c : Reg) (t g : SFmt) (rnd : BitVec 3) :
    List (Instr × List Reg × BitVec 3 × (State → RMode → Nat × Flags)) :=
  let x (s : State) (r : Reg) : FVal := sval t (reg s r)
  let f := SFmt.layout t
  [(.fadd d a b t rnd, [d, a, b], rnd, fun s m => fadd f m (x s a) (x s b)),
   (.fsub d a b t rnd, [d, a, b], rnd, fun s m => fsub f m (x s a) (x s b)),
   (.fmul d a b t rnd, [d, a, b], rnd, fun s m => fmul f m (x s a) (x s b)),
   (.fdiv d a b t rnd, [d, a, b], rnd, fun s m => fdiv f m (x s a) (x s b)),
   (.fsqrt d a t rnd, [d, a], rnd, fun s m => fsqrt f m (x s a)),
   (.fmadd d a b c t rnd, [d, a, b, c], rnd, fun s m => ffma f m (x s a) (x s b) (x s c) false),
   (.fmsub d a b c t rnd, [d, a, b, c], rnd, fun s m => ffma f m (x s a) (x s b) (x s c) true),
   (.fmin d a b t, [d, a, b], 0, fun s _ => fminmax f false (x s a) (x s b)),
   (.fmax d a b t, [d, a, b], 0, fun s _ => fminmax f true (x s a) (x s b)),
   (.fcmpeq d a b t, [d, a, b], 0, fun s _ => (if (fcmp 0 (x s a) (x s b)).1 then 1 else 0, (fcmp 0 (x s a) (x s b)).2)),
   (.fcmplt d a b t, [d, a, b], 0, fun s _ => (if (fcmp 1 (x s a) (x s b)).1 then 1 else 0, (fcmp 1 (x s a) (x s b)).2)),
   (.fcmple d a b t, [d, a, b], 0, fun s _ => (if (fcmp 2 (x s a) (x s b)).1 then 1 else 0, (fcmp 2 (x s a) (x s b)).2)),
   (.fclass d a t, [d, a], 0, fun s _ => (fclassOf f ((reg s a).toNat % 2 ^ f.width), 0)),
   (.fcvtfi d a t rnd, [d, a], rnd, fun s m => (wrap 64 (fcvtInt 64 true m (x s a)).1, (fcvtInt 64 true m (x s a)).2)),
   (.fcvtfn d a t rnd, [d, a], rnd, fun s m => (wrap 64 (fcvtInt 64 false m (x s a)).1, (fcvtInt 64 false m (x s a)).2)),
   (.fcvtif d a g rnd, [d, a], rnd, fun s m => fcvtFromInt (SFmt.layout g) m (reg s a).toInt),
   (.fcvtnf d a g rnd, [d, a], rnd, fun s m => fcvtFromInt (SFmt.layout g) m (reg s a).toNat),
   (.fcvtff d a t g rnd, [d, a], rnd, fun s m => fcvt (SFmt.layout g) m (x s a))]

/-- The compare-and-branch forms with their conditions (R141). -/
def branchForms (d a : Reg) (off : BitVec 20) : List (Instr × (State → Bool)) :=
  [(.beq d a off, fun s => decide (reg s d = reg s a)), (.bne d a off, fun s => decide (reg s d ≠ reg s a)),
   (.blt d a off, fun s => decide ((reg s d).toInt < (reg s a).toInt)),
   (.bge d a off, fun s => decide ((reg s a).toInt ≤ (reg s d).toInt)),
   (.bltn d a off, fun s => decide ((reg s d).toNat < (reg s a).toNat)),
   (.bgen d a off, fun s => decide ((reg s a).toNat ≤ (reg s d).toNat))]

/-! ### Memory forms -/

/-- The bytes that a scalar access of `n` bytes through a segment at an offset names. -/
def accessRefs (s : State) (sg : BitVec 3) (off : Word) (n : Nat) : List ByteRef :=
  (span ((seg s sg).base.toNat + off.toNat) n).map (byteRef s (myCtx s))

/-- The locations of the bytes that have one. -/
def refLocs (l : List ByteRef) : List Nat := (l.filter (·.has)).map (·.loc)

/-- No cause stops a scalar load and no earlier store must be performed before it (R84, R87, R129). -/
structure LoadReady (s : State) (sg : BitVec 3) (off : Word) (n al : Nat) : Prop where
  cause : scalarCause s sg off n 0 al = none
  order : (accessRefs s sg off n).any (fun r => mustWait s s.cur s.stores r.kind false [] none) = false

/-- Nothing stops a scalar load and its value comes at once: no cause, no earlier store to wait for, no scope miss, no poison
(R84, R93, R129, R282). -/
structure LoadGoes (s : State) (sg : BitVec 3) (off : Word) (n al : Nat) (acq : Bool) : Prop extends LoadReady s sg off n al where
  mark : acq = true → missOf s s.cur (acqLocs s (accessRefs s sg off n)) = none
  clean : (underRefs s (accessRefs s sg off n)).any (poisoned s) = false
  answered : s.defer = false

/-- The bytes of an access as the issuing agent reads them. -/
def bytesOf (s : State) (l : List ByteRef) : List Byte := l.map (readRef s s.cur (myDie s))

/-- The scalar loads: bytes, and whether the value is sign-extended (R143). -/
def loadForms (d : Reg) (m : MemRef) : List (Instr × Nat × Bool) :=
  [(.ldB d m, 1, true), (.ldH d m, 2, true), (.ldW d m, 4, true), (.ldD d m, 8, false), (.ldBN d m, 1, false),
   (.ldHN d m, 2, false), (.ldWN d m, 4, false)]

/-- A loaded value of `n` bytes, extended to a register (R143). -/
def extended (n : Nat) (sext : Bool) (l : List Byte) : Word :=
  if sext then (BitVec.ofNat (8 * n) (leNat l)).signExtend 64 else (BitVec.ofNat (8 * n) (leNat l)).zeroExtend 64

/-- The scalar stores and SEGST: whether a Retriever may issue them, their registers, their alignment, the bytes stored and
the scope of a release (R117, R143). -/
def storeForms (d : Reg) (g : BitVec 3) (m : MemRef) :
    List (Instr × Bool × List Reg × (Nat → Nat) × (State → List Byte) × Option Nat) :=
  let al (n : Nat) : Nat := if m.order = .plain then 1 else n
  let rel : Option Nat := if m.order = .rel ∨ m.order = .ar then some (scopeNum m.scope) else none
  [(.stB d m, true, [d, m.a], al, fun s => leBytes 1 (reg s d).toNat, rel),
   (.stH d m, true, [d, m.a], al, fun s => leBytes 2 (reg s d).toNat, rel),
   (.stW d m, true, [d, m.a], al, fun s => leBytes 4 (reg s d).toNat, rel),
   (.stD d m, true, [d, m.a], al, fun s => leBytes 8 (reg s d).toNat, rel),
   (.segst g m, false, [m.a], fun _ => 16, fun s =>
      leBytes 8 (wordsOfSeg (seg s g)).1.toNat ++ leBytes 8 (wordsOfSeg (seg s g)).2.toNat, none)]

/-- The bytes that a scalar store gives locations, in order. -/
def storedBytes (s : State) (sg : BitVec 3) (off : Word) (bytes : List Byte) : List (Nat × Byte) :=
  (((accessRefs s sg off bytes.length).zip bytes).filter (fun p => p.1.has)).map (fun p => (p.1.loc, p.2))

/-- The atomics with the new value that each gives `c` bits, from the old and the operand (R145). -/
def amoForms (d b : Reg) (m : AmoRef) : List (Instr × (Nat → Nat → Nat → Nat)) :=
  let i (c x : Nat) : Int := (BitVec.ofNat c x).toInt
  [(.amoadd d b m, fun c old x => (old + x) % 2 ^ c), (.amoand d b m, fun _ old x => old &&& x),
   (.amoor d b m, fun _ old x => old ||| x), (.amoxor d b m, fun _ old x => old ^^^ x),
   (.amomin d b m, fun c old x => if i c x < i c old then x else old),
   (.amomax d b m, fun c old x => if i c old < i c x then x else old),
   (.amominn d b m, fun _ old x => min old x), (.amomaxn d b m, fun _ old x => max old x),
   (.amoswap d b m, fun _ _ x => x)]

/-- The release scope of an atomic at its location, and whether it acquires (R79, R366). -/
def amoRel (m : AmoRef) (loc : Nat) : Option Nat :=
  if m.order = .rel ∨ m.order = .ar then some (relScope (scopeNum m.scope) loc) else none
/-- Whether an atomic acquires. -/
def amoAcq (m : AmoRef) : Bool := m.order == .acq || m.order == .ar
/-- The bytes of an atomic. -/
def amoSize (m : AmoRef) : Nat := if m.wide then 8 else 4

/-- No cause stops an atomic, no earlier store must be performed before it, no scope miss holds it and its bytes are not poisoned
(R103, R129, R145, R282). -/
structure AtomicReady (s : State) (m : AmoRef) : Prop where
  cause : scalarCause s m.seg (reg s m.a) (amoSize m) 2 (amoSize m) = none
  order : atomicWaits s (byteRef s (myCtx s) ((seg s m.seg).base.toNat + (reg s m.a).toNat)).kind
    ((accessRefs s m.seg (reg s m.a) (amoSize m)).map (·.loc))
    (amoRel m (byteRef s (myCtx s) ((seg s m.seg).base.toNat + (reg s m.a).toNat)).loc) = false
  mark : amoAcq m = true → (byteRef s (myCtx s) ((seg s m.seg).base.toNat + (reg s m.a).toNat)).kind ≠ 2 →
    missOf s s.cur ((accessRefs s m.seg (reg s m.a) (amoSize m)).map (·.loc)) = none
  clean : ((accessRefs s m.seg (reg s m.a) (amoSize m)).map (·.loc)).any (poisoned s) = false

/-- Nothing stops an atomic and its response comes at once. -/
structure AtomicGoes (s : State) (m : AmoRef) : Prop extends AtomicReady s m where
  answered : s.defer = false

/-- What any die holds for itself of the granules of some locations stands at its home: an access that is served there recalls an owner first (R97,
R272). -/
def recalled (s : State) (locs : List Nat) : State := recallUo s (fun _ => true) locs

/-- What an atomic that writes `new`, where it writes, has done to memory: its bytes take the new value, or what they hold for
everyone, and no other byte changes but those that it brings home. -/
def AtomicApplied (s t : State) (m : AmoRef) (new : Option Nat) : Prop :=
  (∀ a k loc, loc ∉ (accessRefs s m.seg (reg s m.a) (amoSize m)).map (·.loc) →
      ¬BroughtHome s ((accessRefs s m.seg (reg s m.a) (amoSize m)).map (·.loc)) loc → getLoc t a k loc = getLoc s a k loc) ∧
    (((accessRefs s m.seg (reg s m.a) (amoSize m)).map (·.loc)).Nodup →
      match new with
      | some v => ((accessRefs s m.seg (reg s m.a) (amoSize m)).map (·.loc)).map t.mem.get = leBytes (amoSize m) v
      | none => t.mem = (recalled s ((accessRefs s m.seg (reg s m.a) (amoSize m)).map (·.loc))).mem)

/-- What an atomic that read `old` and writes `new`, where it writes, has done (R103, R145): the register takes the old
value, its bytes take the new one, and no other byte changes. -/
def AtomicDone (s t : State) (d : Reg) (m : AmoRef) (old : Nat) (new : Option Nat) : Prop :=
  ∃ u, HomesOnly s u ∧ Retired s u t (.write s d (extended (amoSize m) true (leBytes (amoSize m) old))) ∧
    AtomicApplied s t m new

/-- An atomic applied whose response is outstanding (R103, R121): its agent waits for the old value, and what an acquire would
then join is kept with it (R88). -/
def AtomicSent (s t : State) (d : Reg) (m : AmoRef) (cas : Bool) (old : Nat) (new : Option Nat) : Prop :=
  let v := extended (amoSize m) true (leBytes (amoSize m) old)
  let b := byteRef s (myCtx s) ((seg s m.seg).base.toNat + (reg s m.a).toNat)
  ∃ u, HomesOnly s u ∧ AtomicApplied s t m new ∧
    Awaits s u t (.atomic d v v cas m.wide ((seg s m.seg).base.toNat + (reg s m.a).toNat) s.time
      (if amoAcq m = true ∧ b.kind ≠ 2 then coversAt s ((accessRefs s m.seg (reg s m.a) (amoSize m)).map (·.loc)) else []))
      .atomicResponse

/-! ### Vector forms -/

/-- The last value that a list of (element, value) pairs gives an element. -/
def lastElem (l : List (Nat × Nat)) (e : Nat) : Option Nat := (l.reverse.find? (fun p => p.1 = e)).map (·.2)

/-- Elements of vector register `vd` written in a format, in the slots `x` has: every other element of the register, every
other register, every mask and every generator is as it was in `y` (R170). -/
structure ElemsSet (y x : Thread) (vd : VReg) (fmt : Nat) (l : List (Nat × Nat)) : Prop where
  slots : x.slots.length = y.slots.length
  elems : ∀ e, e / perSlot fmt < y.slots.length →
    elem x vd fmt e = match lastElem l e with | some v => v % 2 ^ cbits fmt | none => elem y vd fmt e
  others : ∀ r, r ≠ vd → vreg x r = vreg y r
  masks : x.slots.map (·.m) = y.slots.map (·.m)
  draws : x.slots.map (·.rst) = y.slots.map (·.rst)

/-- A vector word retired having written elements of `vd`, and otherwise only what `f` does to the thread: every agent reads what it
reads in `u`. -/
def VecWrote (s u t : State) (vd : VReg) (fmt : Nat) (l : List (Nat × Nat)) (f : Thread → Thread) : Prop :=
  Retired s u t (.own s (fun x => { f x with slots := (my t).slots })) ∧ ElemsSet (f (my s)) (my t) vd fmt l ∧ BytesKept u t

/-- Mask `m` of a thread as `y` has it, its bits written for the elements given and the bits above those that the format uses
made zero in the bytes of the strip: every other mask, the vector registers and the generators stay (R210). -/
structure MaskSet (y x : Thread) (m : VReg) (fmt : Nat) (l : List (Nat × Bool)) : Prop where
  slots : x.slots.length = y.slots.length
  regs : x.slots.map (·.v) = y.slots.map (·.v)
  draws : x.slots.map (·.rst) = y.slots.map (·.rst)
  others : ∀ k, k ≠ m.toNat → x.slots.map (fun sl => sl.m.toList.getD k 0) = y.slots.map (fun sl => sl.m.toList.getD k 0)
  bits : ∀ e, e / perSlot fmt < y.slots.length →
    mbit x m.toNat fmt e = (((l.reverse.find? (fun p => p.1 = e)).map (·.2)).getD (mbit y m.toNat fmt e))
  above : ∀ (j : Nat) (sl : Slice) (b : Nat), j < y.vl → x.slots[j]? = some sl → perSlot fmt ≤ b →
    (sl.m.toList.getD m.toNat 0).getLsbD b = false

/-- A vector word retired having written a mask, and otherwise only what `f` does to the thread. -/
def MaskWrote (s t : State) (m : VReg) (fmt : Nat) (l : List (Nat × Bool)) (f : Thread → Thread) : Prop :=
  Retired s s t (.own s (fun x => { f x with slots := (my t).slots })) ∧ MaskSet (f (my s)) (my t) m fmt l ∧ BytesKept s t

/-- A class V word may have its effect here: no Retriever and no handler issues it, its scalar registers are in range, VCEIL
is not 0 where it must not be, and the vector registers it names have landed (R28, R45, R133, R184, R193). -/
structure VecGoes (s : State) (held : Bool) (rs : List Reg) (vs : List VReg) : Prop where
  regs : admits s false rs = true
  task : inSvc s = false
  held : held = true → (my s).vceil ≠ 0
  landed : landed (my s) vs = true

/-- A class V word is illegal here: it takes ILL (R28, R45, R133, R193). -/
def vecIllegal (s : State) (held : Bool) (rs : List Reg) : Prop :=
  admits s false rs = false ∨ inSvc s = true ∨ (held = true ∧ (my s).vceil = 0)

/-- The element-wise integer forms with what each makes of a and b, both below 2^c (R57, R212). -/
def vecIntForms (f : VFields) : List (Instr × (Nat → Nat → Nat)) :=
  let fmt := f.fmt.toNat
  let c := cbits fmt
  let i := intOf fmt
  [(.vadd f, fun a b => (a + b) % 2 ^ c), (.vsub f, fun a b => (a + (2 ^ c - b)) % 2 ^ c), (.vmul f, fun a b => a * b % 2 ^ c),
   (.vmulh f, fun a b => wrap c (i a * i b / (2 ^ c : Nat))),
   (.vdiv f, fun a b => if b = 0 then 2 ^ c - 1 else wrap c ((i a).tdiv (i b))),
   (.vrem f, fun a b => if b = 0 then a else wrap c ((i a).tmod (i b))),
   (.vand f, fun a b => a &&& b), (.vor f, fun a b => a ||| b), (.vxor f, fun a b => a ^^^ b),
   (.vsll f, fun a b => a * 2 ^ (b % c) % 2 ^ c), (.vsrl f, fun a b => a / 2 ^ (b % c)),
   (.vsra f, fun a b => wrap c (signedOf c a / (2 ^ (b % c) : Nat))),
   (.vmin f, fun a b => if i b < i a then b else a), (.vmax f, fun a b => if i a < i b then b else a),
   (.vadds f, fun a b => wrap c (clampTo fmt (i a + i b))), (.vsubs f, fun a b => wrap c (clampTo fmt (i a - i b)))]

/-- The integer compares, which write a mask (R212). -/
def vecIntCompares (f : VFields) : List (Instr × (Nat → Nat → Bool)) :=
  [(.vcmpeq f, fun a b => decide (a = b)), (.vcmplt f, fun a b => decide (intOf f.fmt.toNat a < intOf f.fmt.toNat b))]

/-- The element-wise floating forms: the vector registers each reads and writes, and an element's result with its flags
(R61, R68, R73, R210). -/
def vecFloatForms (f : VFields) : List (Instr × List VReg × (State → RMode → Nat → Nat × Flags)) :=
  let g := fmtOf f.fmt.toNat
  let x (s : State) (r : VReg) (e : Nat) : FVal := fdecode g (elem (my s) r f.fmt.toNat e)
  let y (s : State) (e : Nat) : FVal := fdecode g (operandB s f e)
  [(.vfadd f, [f.vd, f.va, f.vb], fun s m e => fadd g m (x s f.va e) (y s e)),
   (.vfsub f, [f.vd, f.va, f.vb], fun s m e => fsub g m (x s f.va e) (y s e)),
   (.vfmul f, [f.vd, f.va, f.vb], fun s m e => fmul g m (x s f.va e) (y s e)),
   (.vfdiv f, [f.vd, f.va, f.vb], fun s m e => fdiv g m (x s f.va e) (y s e)),
   (.vfsqrt f, [f.vd, f.va], fun s m e => fsqrt g m (x s f.va e)),
   (.vfma f, [f.vd, f.va, f.vb, f.vc], fun s m e => ffma g m (x s f.va e) (y s e) (x s f.vc e) false),
   (.vfms f, [f.vd, f.va, f.vb, f.vc], fun s m e => ffma g m (x s f.va e) (y s e) (x s f.vc e) true),
   (.vfmin f, [f.vd, f.va, f.vb], fun s _ e => fminmax g false (x s f.va e) (y s e)),
   (.vfmax f, [f.vd, f.va, f.vb], fun s _ e => fminmax g true (x s f.va e) (y s e))]

/-- The floating compares, which write a mask (R61). -/
def vecFloatCompares (f : VFields) : List (Instr × (State → Nat → Bool × Flags)) :=
  let g := fmtOf f.fmt.toNat
  let r (k : Nat) (s : State) (e : Nat) : Bool × Flags :=
    fcmp k (fdecode g (elem (my s) f.va f.fmt.toNat e)) (fdecode g (operandB s f e))
  [(.vfcmpeq f, r 0), (.vfcmplt f, r 1), (.vfcmple f, r 2)]

/-- The unit-stride, strided, indexed and stream forms: the load, the store, their scalar registers and index registers, what
they need beside, and the offset of each element of `w` bytes (R205, R206, Table 7.5). -/
def vecMemForms (f : VFields) :
    List (Instr × Instr × List Reg × List VReg × (State → Bool) × (State → Nat → Nat → Nat)) :=
  let at_ (s : State) (k : Int) : Nat := (((reg s f.s).toNat + k) % (2 ^ 64 : Nat)).toNat
  let q (s : State) : Stream := (my s).streams.toList.getD f.va.toNat Stream.zero
  [(.vld f, .vst f, [f.s], [], fun _ => true, fun s w e => at_ s ((e : Int) * w)),
   (.vlds f, .vsts f, [f.s, extReg f], [], fun _ => true, fun s _ e => at_ s ((e : Int) * (reg s (extReg f)).toInt)),
   (.vldx f, .vstx f, [f.s], [f.vb], fun _ => true, fun s _ e => at_ s (elem (my s) f.vb f.fmt.toNat e)),
   (.vldq f, .vstq f, [], [], fun s => extSeg f == (q s).seg && cbits f.fmt.toNat == 8 * 2 ^ (q s).esize.toNat,
      fun s w e => (((q s).offset.toNat + (e : Int) * (q s).stride.toInt * w) % (2 ^ 64 : Nat)).toNat)]

/-- Nothing stops a vector load: no cause, no earlier store to wait for, no poison (R184, R205, R282). -/
structure VecLoadReady (s : State) (sg : BitVec 3) (n : Nat) (al : Bool) (offs : List Nat) : Prop where
  cause : vecCause s sg 0 n al offs = none
  order : ((offs.map (elemRefs s sg n)).flatten).any (fun r => mustWait s s.cur s.stores r.kind false [] none) = false
  clean : (underRefs s (offs.map (elemRefs s sg n)).flatten).any (poisoned s) = false

/-- Nothing stops a vector load and its values come at once. -/
structure VecLoadGoes (s : State) (sg : BitVec 3) (n : Nat) (al : Bool) (offs : List Nat) : Prop
    extends VecLoadReady s sg n al offs where
  answered : s.defer = false

/-- A store by the issuing agent has been accepted (R87, R121): its agent reads the bytes given, in order, and everything else
as before; no other agent's view changes but at those bytes and at the agent's own earlier stores. What these bring home apart, which
everyone may read then. -/
def StoreAccepted (s u t : State) (put : List (Nat × Byte)) : Prop :=
  Retired s u t (.next s) ∧ HomesOnly s u ∧
    (∀ loc, loc ∈ put.map (·.1) ∨ StoreSpares s s.cur (put.map (·.1)) loc →
      getLoc t s.cur (myDie s) loc = (lastWrite put loc).getD (getLoc s s.cur (myDie s) loc)) ∧
    (∀ a k loc, a ≠ s.cur → loc ∉ put.map (·.1) → StoreSpares s s.cur (put.map (·.1)) loc →
      (∀ x ∈ s.stores, x.agent = s.cur → loc ∉ x.locs.map (·.1)) → getLoc t a k loc = getLoc s a k loc)

/-- The permutes that write vD: the vector registers they read, and the value of an active element, where it is written
(R65, R214). -/
def permuteForms (f : VFields) : List (Instr × List VReg × (State → Nat → Option Nat)) :=
  let fmt := f.fmt.toNat
  let k (s : State) : Nat := (reg s f.s).toNat
  let v (s : State) (i : Nat) : Nat := elem (my s) f.va fmt i % 2 ^ valueBits fmt
  let src (s : State) (i : Nat) : Nat := if i < numElems (my s) fmt then v s i else 0
  [(.vperm f, [f.va, f.vb], fun s e => some (src s (elem (my s) f.vb fmt e))),
   (.vslideup f, [f.va], fun s e => if k s ≤ e then some (v s (e - k s)) else none),
   (.vslidedn f, [f.va], fun s e => some (src s (e + k s))),
   (.vbcast f, [], fun s e => some (((k s + (e : Int) * f.ext.toInt) % (2 ^ cbits fmt : Nat)).toNat))]

/-- The mask words (R217). -/
def maskForms (f : VFields) : List (Instr × (Byte → Byte → Byte)) :=
  [(.mand f, fun a b => a &&& b), (.mor f, fun a b => a ||| b), (.mxor f, fun a b => a ^^^ b), (.mnot f, fun a _ => ~~~a)]

/-- The mask byte `m` of slot `j`. -/
def maskByte (x : Thread) (m : VReg) (j : Nat) : Byte :=
  match x.slots[j]? with | some sl => sl.m.toList.getD m.toNat 0 | none => 0

/-- A grant point lets the word of `s` go on in `u` (R174): a gang keeps its lanes, any other grant is refitted. -/
def grantsTo (s u : State) : Prop := (my s).mvl ≠ 0 ∧ u = s ∨ (my s).mvl = 0 ∧ regrant s = some u

/-- A matrix word may go to its thread's gang (R234, R235). -/
structure GangReady (s : State) (rs : List Reg) (vs : List VReg) : Prop where
  goes : VecGoes s true rs vs
  gang : (my s).mvl ≠ 0

/-- A matrix word may have its effect at once: its gang's queue is empty, no lane of the gang is owed (R239) nor has lost its state
(R189), and the gang's answer is not left outstanding. -/
structure GangGoes (s : State) (rs : List Reg) (vs : List VReg) : Prop extends GangReady s rs vs where
  idle : (my s).mqueue = []
  whole : (my s).lost = []
  alive : (my s).dead = false
  answered : s.defer = false

/-- A short matrix word `i`, left outstanding, enters the queue of four and retires, or waits while the queue is full (R235). -/
def ShortSent (s : State) (i : Instr) (op : MatOp) : Prop :=
  (4 ≤ (my s).mqueue.length → exec i s = .next (waitHere s)) ∧
  ((my s).mqueue.length < 4 → s.defer = true → ∃ t, exec i s = .next t ∧ BytesKept s t ∧
    Retired s { s with owed := s.owed ++ [ev .matrixWordComplete (me s)] } t (.own s (fun x => { x with
      mqueue := x.mqueue ++ [{ op := op, long := false, pc := pcOf s }] })))

/-- A long matrix word `i`, left outstanding, waits for the queue to empty, and then its thread waits for the gang (R235). -/
def LongSent (s : State) (i : Instr) (op : MatOp) : Prop :=
  ((my s).mqueue ≠ [] → exec i s = .next (waitHere s)) ∧
  ((my s).mqueue = [] → s.defer = true → ∃ t, exec i s = .next t ∧
    t = { s with threads := t.threads, owed := s.owed ++ [ev .matrixWordComplete (me s)] } ∧
    (∀ n, n ≠ me s → kfind t.threads n = kfind s.threads n) ∧
    my t = { my s with mqueue := [{ op := op, long := true, pc := pcOf s }], cond := .inEngine s.ir })

/-! ### Control and status registers -/

/-- The registers of Table 5.5: whether only S may name one, and its value. -/
def csrForms (s : State) : List (BitVec 12 × Bool × Word) :=
  let n (v : Nat) : Word := BitVec.ofNat 64 v
  let c (f : Ctx → Word) : Word := match ctx? s (myCtx s) with | some x => f x | none => 0
  [(0x001, false, (my s).fcsr), (0x010, false, n (my s).vl), (0x011, false, n (my s).gvl), (0x012, false, n (my s).vceil),
   (0x013, false, n (my s).mvl), (0x018, false, (my s).tags),
   (0x020, false, n (tenantOf s (myCtx s) * 2 ^ 20 + myCtx s * 2 ^ 12 + hwOf (me s))), (0x021, false, n (myCore s)),
   (0x022, false, (my s).instret), (0x030, false, (core s (myCore s)).lscfg), (0x031, false, (core s (myCore s)).vict),
   (0x100, true, (my s).status), (0x101, true, c (·.tvec)), (0x102, true, (my s).epc), (0x103, true, (my s).cause),
   (0x104, true, (my s).tval), (0x105, true, (my s).sscratch), (0x106, true, c (·.smvec))]

/-- The registers that may be written: whether only S may, the value, and what a write of a value does (R126, Tables 5.6, 5.8, 3.3). -/
def csrWrites (s : State) : List (BitVec 12 × Bool × Word × (Word → Thread → Thread)) :=
  [(0x001, false, (my s).fcsr, fun v x => { x with
      fcsr := ((if (v.extractLsb' 13 3).toNat < 5 then v else x.fcsr) &&& 0xE000) ||| (v &&& 0x1F1F) }),
   (0x100, true, (my s).status, fun v x => { x with status := (x.status &&& ~~~(0x80 : Word)) ||| (v &&& 0x80) }),
   (0x102, true, (my s).epc, fun v x => { x with epc := v &&& ~~~(7 : Word) }),
   (0x103, true, (my s).cause, fun v x => { x with cause := v &&& 0xFFFFFFFF000000FF }),
   (0x104, true, (my s).tval, fun v x => { x with tval := v }),
   (0x105, true, (my s).sscratch, fun v x => { x with sscratch := v })]

/-! ### Loads of the array -/

/-- What a load of cells (R325) has brought home (R105, R272) before it reads its cell `n`: what it needs of cells 0 to `n`. -/
def cellsServed (s : State) (d c : Nat) (g : Seg) (roff toff : Nat) : Nat → State
  | 0 => s
  | n + 1 => cellServed (cellsServed s d c g roff toff n) d c g (roff + 8 * n) toff

/-! ### Frames and strands -/

/-- Doubleword 2 of a frame has been written at its home (R308, R310): its agent reads the new doubleword there, where the eight
bytes have locations of their own, and every other location reads as before but for those that it brings home. -/
def FrameWritten (s u : State) (l : List ByteRef) (w : Word) : Prop :=
  (l.all (·.has) = true → (l.map (·.loc)).Nodup → l.length = 8 →
    l.map (fun r => getLoc u s.cur (myDie s) r.loc) = leBytes 8 w.toNat) ∧
  ∀ a k loc, loc ∉ (l.filter (·.has)).map (·.loc) → ¬BroughtHome s ((l.filter (·.has)).map (·.loc)) loc →
    getLoc u a k loc = getLoc s a k loc

/-- Two states whose threads differ, thread `n` aside, at most in their entitlements (R178). -/
def ThreadsKept (s t : State) (n : Nat) : Prop :=
  ∀ j, j ≠ n → (kfind t.threads j).map (fun x => { x with ent := 0, debt := none }) =
    (kfind s.threads j).map (fun x => { x with ent := 0, debt := none })

/-- The strand of thread `n` has ended (R147, R250, R311): its hardware context is free, its Retrievers are empty and its array is
released; its task counts one strand less, and with the last of them it retires: its run reads as zero, its gang counts it, and the
gang ends with its last task. New tiles may be drawn. -/
structure StrandEnded (s t : State) (n : Nat) : Prop where
  gone : kfind t.threads n = none
  threads : ThreadsKept s t n
  rets : t.rets = s.rets.filter (fun r => r.2.owner != some n)
  array : ∀ d, (die t d).sa = if d = dieOf n ∧ (die s d).sa.owner = some n then SArray.reset else (die s d).sa
  others : ∀ j, j ≠ (thr s n).task → kfind t.tasks j = kfind s.tasks j
  more : 1 < (task s (thr s n).task).strands → kfind t.tasks (thr s n).task =
    some { task s (thr s n).task with strands := (task s (thr s n).task).strands - 1 }
  last : (task s (thr s n).task).strands ≤ 1 → kfind t.tasks (thr s n).task = none ∧
    (∀ i, i < (task s (thr s n).task).runSize → t.mem.get ((task s (thr s n).task).runPa + i) = 0) ∧
    ∀ x g, ctx? s (task s (thr s n).task).ctx = some x → kfind x.gangs (task s (thr s n).task).gid = some g →
      ∃ y, ctx? t (task s (thr s n).task).ctx = some y ∧
        (g.retired + 1 < recTiles g.record → ∃ h, kfind y.gangs (task s (thr s n).task).gid = some h ∧
          h.retired = g.retired + 1 ∧ h.live = g.live - 1 ∧ h.wdCount = 0 ∧ h.record = g.record) ∧
        (recTiles g.record ≤ g.retired + 1 → kfind y.gangs (task s (thr s n).task).gid = none ∧
          y.ended = x.ended ++ [{ gid := (task s (thr s n).task).gid, record := g.record, port := g.port, phase := 1 }])
  owed : ∃ l, t.owed = l ++ [ev .tileDraw (poolOf n) (thr s n).ctx, ev .dispatch (poolOf n) (thr s n).ctx]

/-! ### The mailbox -/

/-- A request reaches an enabled function's mailbox with nothing pending there (R349). -/
def mailFree (s : State) : Prop :=
  s.msg.nats = [] ∧ s.msg.a < 16 ∧ (tenant s s.msg.a).enabled = true ∧ (tenant s s.msg.a).posted = (tenant s s.msg.a).done ∧
    (tenant s s.msg.a).posted.toNat + 1 < 2 ^ 64

/-- The request counted in POSTED. -/
def posted (s : State) : State := modTenant s s.msg.a (fun t => { t with posted := t.posted + 1 })

/-- A compute die's clock has been set in one increment of the map (R341, R363): its record holds the rate, and both its record and
its die's, where that is live, are degraded below nominal. No other record has changed. -/
structure ClockSet (s t : State) (d mhz : Nat) : Prop where
  version : t.keeper.version = s.keeper.version + 1
  clock : ∀ r, mapRec s (12928 + d) = some r → mapRec t (12928 + d) =
    some { r with value := mhz, state := if mhz < 1000 then 2 else 1, changed := s.keeper.version + 1 }
  die : ∀ q, mapRec s (1 + d) = some q → mapRec t (1 + d) =
    some (if recLive q = true ∧ q.state ≠ (if mhz < 1000 then 2 else 1) then
      { q with state := if mhz < 1000 then 2 else 1, changed := s.keeper.version + 1 } else q)
  others : ∀ n, n ≠ 12928 + d → n ≠ 1 + d → mapRec t n = mapRec s n
  told : (16, 0) ∈ t.keeper.irqs

/-- A context has been destroyed (R350): its agents, tasks, copies, retention registers, arrays, regions, frames, slot-table entries and
page table are gone, its port is free, what it held reads as zero, and the images in the dump window stay. -/
structure Destroyed (s u : State) (c : Nat) (x : Ctx) : Prop where
  ctx : ctx? u c = none
  others : ∀ j, j ≠ c → (ctx? u j).isSome = (ctx? s j).isSome
  threads : ∀ p ∈ u.threads, p.2.ctx ≠ c
  rets : ∀ p ∈ u.rets, ∀ t y, p.2.owner = some t → kfind s.threads t = some y → y.ctx ≠ c
  stores : ∀ p ∈ u.stores, ∀ t y, p.agent = .thread t → kfind s.threads t = some y → y.ctx ≠ c
  tasks : ∀ p ∈ u.tasks, p.2.ctx ≠ c
  pools : ∀ p ∈ u.pools, (∀ y ∈ p.2.copies, y.ctx ≠ c) ∧ ∀ y ∈ p.2.ready, y.ctx ≠ c
  slots : ∀ p k e, kfind (pool u p).slots k = some e → e.valid = true → e.ctx ≠ c
  dies : ∀ d ∈ u.dies, (∀ r ∈ d.2.retain, r.2.ctx ≠ c) ∧ (d.2.sa.owner ≠ none → d.2.sa.ctx ≠ c)
  marks : ∀ m ∈ u.marks, m.2.ctx ≠ c
  rings : ∀ k ∈ u.cores, ∀ e ∈ k.2.trace, e.ctx ≠ c
  regions : ∀ r ∈ u.regions, r.2.ctx ≠ c
  frames : ∀ f ∈ u.keeper.frames, f.2 ≠ c
  root : ∀ e ∈ u.pt, e.1 / 4096 ≠ x.root
  port : (port u x.tenant x.port).ctx = none ∧ (port u x.tenant x.port).queue = []
  images : (tenant u x.tenant).dumps = (tenant s x.tenant).dumps ∧ (tenant u x.tenant).slot = (tenant s x.tenant).slot
  bytes : ∀ a, u.mem.get a = 0 ∨ u.mem.get a = s.mem.get a
  stored : ∀ n r, (n, r) ∈ s.regions → r.ctx = c → ∀ i, i < 2 ^ 38 → u.mem.get (storeLoc n i) = 0
  paged : ∀ f, (f, c) ∈ s.keeper.frames → ∀ i, i < 4096 → u.mem.get (f * 4096 + i) = 0
  runs : ∀ p ∈ s.tasks, p.2.ctx = c → p.2.runSize ≠ 0 → ∀ i, i < p.2.runSize → u.mem.get (p.2.runPa + i) = 0
  windows : ∀ p ∈ s.pools, ∀ k e, kfind (pool s p.1).slots k = some e → e.valid = true → e.ctx = c →
    (∀ i, i < e.win.2 * 4096 → u.mem.get (lspPa p.1 (e.win.1 * 4096) + i) = 0) ∧
    (∀ i, i < e.spill.2 * 4096 → u.mem.get (lspPa p.1 (e.spill.1 * 4096) + i) = 0) ∧
    ∀ j, j < 16 → e.cores.testBit j = true → ∀ i, i < e.share.2 * 4096 →
      u.mem.get (sramPa (p.1 * 16 + j) (e.share.1 * 4096) + i) = 0

/-- The request is answered (R349): RESP holds the tag and result and the data, DONE counts it, vector 5 is raised. -/
def Answered (m : Msg) (u t : State) (result : Nat) (data : List Word) : Prop :=
  t = { u with tenants := t.tenants, keeper := { u.keeper with irqs := u.keeper.irqs ++ [(m.a, 5)] } } ∧
    (∀ n, n ≠ m.a → kfind t.tenants n = kfind u.tenants n) ∧
    tenant t m.a = { tenant u m.a with
      done := (tenant u m.a).done + 1
      resp := ((BitVec.ofNat 64 (requestTag m.b * 2 ^ 32 + result) :: data) ++ List.replicate 7 0).take 8 }

end Sys2Proof.Machine
end

