-- ==== Sys2Proof/Certificates/Slice0/Obligations.lean ====
section
/-! DEFINITION. The statements for the provers. Each says what the manual's rules make of one instruction, of a group of
instructions of one shape, of a step of an engine, or of the whole machine. -/

open Sys2Proof Sys2Proof.Machine

/-! ### Encoding -/

/-- Decoding the word of a well-formed instruction gives the instruction back, whatever its operands (R25 to R47).

The same for VSEED and the nine sampling words with operands, whose fields stand beside the instruction: no bit of a field
is dropped (R35, R326). -/
def Obligations.DecodeEncode : Prop :=
  (∀ (i : Instr) (w : Word), i.wf = true → encode i = some w → decode w = .ok i) ∧
  (∀ (i : Instr) (f : VFields) (w : Word), (saOpcode i).isSome = true → saOk i f = true → encodeWith i f = some w →
      decode w = .ok i ∧ vFields w = f)

/-- A word that decodes, and is no hint, is the encoding of what it decodes to, and its fields hold values that the
instruction admits: a reserved field that is not zero is refused (R47). -/
def Obligations.DecodedWordIsEncoding : Prop :=
  ∀ (w : Word) (i : Instr), decode w = .ok i → i ≠ .hint →
    encodeWith i (vFields w) = some w ∧ i.wf = true ∧ saOk i (vFields w) = true

/-- Words written out in the manual's tables, of each class, decode to what they stand for, and a reserved field that is not
zero is refused (Tables 2.10, 5.13, 7.7, 9.8, 10.9, 12.14; R47). -/
def Obligations.WordsDecode : Prop :=
  decode 0x0011461C00000000 = .ok (.add 5 6 7) ∧
    decode 0x0E224601C4010000 = .ok (.ldW 9 { seg := 3, a := 6, disp := 16, order := .acq, scope := .k, hint := .none }) ∧
    decode 0x420800042028CC10 = .ok (.dualWord (.imm .addi 2 8) (.load .d 5 6 3 16)) ∧
    decode 0xC41C0030FFFFFFFD = .ok (.smloop 7 3 (-3)) ∧
    decode 0x3C00000000000000 = .ok .hint ∧
    decode 0x10A0000060000000 = .ok (.fence .w) ∧
    decode 0x0C114403FFFF0000 = .ok (.bne 5 4 (-4)) ∧
    decode 0x1C420211B0200000 = .ok (.cpy { dseg := 3, aseg := 3, d := 8, a := 2, b := 4 } { n := 0, barrier := true }) ∧
    decode 0x18430A0000000000 = .ok (.unpin 12 10) ∧
    decode 0x9860000000005000 = .ok .sasweep ∧
    decode 0x0011461C00000001 = .error .fieldNotZero

/-! ### Steps -/

/-- The turn of an agent to whom no trap is due carries out the word at its PC: its core's rotation goes on after it, the step is
`exec` of the decoded instruction, followed by the single-step trap where STATUS.SS asks for one (R18, R119, R128, R129), and what a
wake told the agent of a page it has no mapping for is then forgotten unless the word waits (R122). The turn is scheduled, or the
rotation's where nothing is scheduled and no engine owes anything (R119). A scheduled turn of an agent that may not issue, or that
forgoes it (R146), issues nothing.

Where a trap is due it is taken in place of the word: the one pending from the thread's start or resumption (R265, R306, R308), and
RMSUSP, at U alone (R136). A context that resumes gives each of its threads RMSUSP where its TVEC is not 0, at the word where the
thread stopped if that was at U, and else at its first word at U, with the version of the map as TVAL; the service context takes none
(R136). A thread that waits at a word which it completes before it stops, one that names FCSR or a register word of its array whose
checks have passed, takes it after that word (Tables 5.10 and 12.11). -/
def Obligations.StepRunsDecoded : Prop :=
  (∀ (s s0 : State) (a : Agent) (d : Bool), TakesTurn s s0 a d →
    let s1 := turnOf s0 a d
    (∀ w i t, dueTrap s1 = none → fetch s1 = .ok w → decode w = .ok i → exec i { s1 with ir := w } = .next t →
      step s = .next (forgetPage (singleStep { s1 with ir := w } t) a)) ∧
    (∀ u code info tval, dueTrap s1 = some (u, code, info, tval) →
      step s = .next (forgetPage (takeTrap u code info tval) a))) ∧
  (∀ (s : State) (a : Agent) (d : Bool) (rest : List Turn),
    s.keeper.on = true → s.keeper.booted = true → s.schedule = .word a d :: rest →
    let s0 : State := { s with schedule := rest }
    (runnable s0 a = false → step s = .next s0) ∧
    (∀ n, a = .thread n → runnable s0 a = true → hwOf n ∈ (core s0 (coreOf n)).forgo →
      step s = .next (modCore s0 (coreOf n) (fun c => { c with forgo := c.forgo.filter (· != hwOf n) })))) ∧
  (∀ (s : State) (a : Agent),
    ((match a with | .thread n => (thr s n).noPage | .ret n => (ret s n).noPage) = none → forgetPage s a = s) ∧
    (match a with
      | .thread n => (thr s n).cond ≠ .waiting → (thr (forgetPage s a) n) = { thr s n with noPage := none }
      | .ret n => (ret s n).cond ≠ .waiting → (ret (forgetPage s a) n) = { ret s n with noPage := none })) ∧
  (∀ (s : State) (n : Nat),
    (s.cur = .ret n → dueTrap s = none) ∧
    (s.cur = .thread n →
      let x := thr s n
      let suspended := x.rmsusp = true ∧ privOf x = false ∧ svcOf x = false ∧ lateWord s n = none
      (∀ code info tval, x.pendTrap = some (code, info, tval) →
        (code = 0xB → privOf x = true ∨ lateWord s n ≠ none → dueTrap s = none) ∧
        (code ≠ 0xB ∨ (privOf x = false ∧ lateWord s n = none) →
          dueTrap s = some (setThr s n { x with pendTrap := none }, code, info, BitVec.ofNat 64 tval))) ∧
      (x.pendTrap = none →
        (suspended → dueTrap s =
          some (setThr s n { x with rmsusp := false }, 0xB, 0, BitVec.ofNat 64 s.keeper.version)) ∧
        (¬suspended → dueTrap s = none)))) ∧
  (∀ (s : State) (n : Nat) (w : Word) (i : Instr),
    let u : State := { s with cur := .thread n }
    let f := vFields w
    let first := (reg u f.s).toNat
    let inArray (rs : List Reg) (vs : List VReg) (m : Nat) : Prop :=
      (die s (dieOf n)).sa.owner = some n ∧ admits u false rs = true ∧ inSvc u = false ∧ (thr s n).vceil ≠ 0 ∧
        landed (thr s n) vs = true ∧ first < 65536 ∧ first % m = 0
    lateWord s n = some (w, i) ↔ (thr s n).cond = .waiting ∧ fetch u = .ok w ∧ decode w = .ok i ∧
      ((∃ r, i = .csrr r 1 ∨ i = .csrw 1 r ∨ i = .csrs 1 r ∨ i = .csrc 1 r) ∨
        (i = .saclamp ∧ inArray [f.s] [f.va, f.vb] 32) ∨ (i = .saread ∧ inArray [f.s] [f.vd] 32) ∨
        (i = .sacount ∧ inArray [f.s, extReg f] [f.vd] 1))) ∧
  ∀ (s : State) (c : Nat) (x : Ctx), ctx? s c = some x →
    let told := toldOfMap c s.keeper.version
    let u := rmsusp s c
    (x.tvec = 0 → u = s) ∧
    (x.tvec ≠ 0 → u = { s with threads := u.threads, ctxs := u.ctxs } ∧
      (∀ n, kfind u.threads n = (kfind s.threads n).map told) ∧ (∀ k, k ≠ c → ctx? u k = ctx? s k) ∧
      ctx? u c = some { x with saved := x.saved.map (fun p => (p.1, told p.2)) }) ∧
    (x.suspended = true → ∃ l, (∀ p ∈ l, ∃ k, p = ev .scopeMissMessage k) ∧ ackVersion s c s.keeper.version true =
      (owe (rmsusp (modCtx s c (fun x => { x with acked := s.keeper.version, arrears := none, suspended := false })) c) l, 0)) ∧
    (x.suspended = false → ackVersion s c s.keeper.version true =
      (modCtx s c (fun x => { x with acked := s.keeper.version, arrears := none, suspended := false }), 0))

/-- A word that decodes to nothing takes ILL with the word in TVAL (R48), and a fetch that meets a cause takes it in place of
the word (R129): on a scheduled turn and on the rotation's (R119).

The word that a barrel thread fetches is the eight bytes at its PC in g0, the lowest address first, where g0 admits the
fetch, the PC is a multiple of 8, no page stops it and no byte is poisoned (R25, R26, R116, R267, R282). A Retriever fetches from its
instruction store at its PC, whatever its segments and the pages are (R246). -/
def Obligations.FetchAndItsCauses : Prop :=
  (∀ (s s0 : State) (a : Agent) (d : Bool), TakesTurn s s0 a d →
      let s1 := turnOf s0 a d
      dueTrap s1 = none →
      (∀ w e, fetch s1 = .ok w → decode w = .error e → step s = .next (forgetPage (takeIll { s1 with ir := w }) a)) ∧
        (∀ c, fetch s1 = .error c → step s = .next (forgetPage (takeCause s1 c) a))) ∧
  (∀ (s : State) (n : Nat), s.cur = .thread n →
      let refs := accessRefs s 0 (pcOf s) 8
      (∀ c, segCheck (seg s 0) 0 (pcOf s).toNat 8 3 = some c → fetch s = .error c) ∧
      (segCheck (seg s 0) 0 (pcOf s).toNat 8 3 = none →
        ((pcOf s).toNat % 8 ≠ 0 → fetch s = .error (.trap 3 (3 * 128) (pcOf s) false)) ∧
        ((pcOf s).toNat % 8 = 0 →
          let stop := judge s (chkOf s 0 3) (span ((seg s 0).base.toNat + (pcOf s).toNat) 8)
          (∀ c, stop = some c → fetch s = .error c) ∧
          (stop = none → (underRefs s refs).any (poisoned s) = false →
            fetch s = .ok (BitVec.ofNat 64 (leNat (bytesOf (served s refs) refs)))) ∧
          (stop = none → (underRefs s refs).any (poisoned s) = true → fetch s = .error (.trap 5 0 0 false))))) ∧
  (∀ (s : State) (n : Nat) (w : Word), s.cur = .ret n → (ret s n).program[(pcOf s).toNat / 8]? = some w → fetch s = .ok w)

/-- A turn of an engine, the keeper, the host or the operator carries out its row with its message, whether scheduled or owed,
on a module that has power and is up; time passes as scheduled; and a module without power stops whatever else comes next, until
POWER_GOOD (R365).

As `n` cycles of the timestamp pass, TIME rises by `n` (R1, R108). They count on the watchdog of a gang whose context runs and is bound
somewhere, unless a task of it is in a trap handler or parked on a page (R21, R22, R315), and at the clock of its die on the quantum of
an entry whose context runs (R303, R363). What is then due and not yet owed becomes owed: a watchdog that has run out, a quantum that
has passed, an acknowledgement deadline that is reached (R344), and the test of the entropy source of a live array that failed a
second ago (R322). Nothing else changes. How far a turn lets time go is the schedule's (log 2).

A module that has power and is not up stays in reset (R359, R362): nothing is carried out but POWER_GOOD and a read of the physical
function. -/
def Obligations.StepRunsEngines : Prop :=
  (∀ (s : State) (e : Instr) (m : Msg) (rest : List Turn) (owed : List (Instr × Msg)) (n : Nat), events.contains e = true →
    (s.schedule = .event e m :: rest → (s.keeper.on = true ∧ s.keeper.booted = true ∨ e = .powerGood) →
      step s = exec e { s with schedule := rest, msg := m }) ∧
    (s.keeper.on = true → s.keeper.booted = true → s.schedule = [] → s.owed = (e, m) :: owed →
      step s = exec e { s with owed := owed, msg := m }) ∧
    (s.keeper.on = true → s.keeper.booted = true → s.schedule = .elapse n :: rest →
      step s = .next (elapse { s with schedule := rest } n))) ∧
  (∀ (s : State) (n : Nat),
    let t := elapse s n
    let runs (c : Nat) : Prop := frozenCtx s c = false ∧ suspendedCtx s c = false
    let bound (c : Nat) : Prop := ∃ k h e, h < 16 ∧ bindingEntry s k h = some e ∧ e.2.ctx = c
    let holds (g : Nat) (y : Thread) : Prop := (task s y.task).gid = g ∧ (privOf y = true ∨ ∃ cva, y.cond = .parkedPage cva)
    let paused (c g : Nat) : Prop := (∃ q ∈ s.threads, hwOf q.1 ≠ 16 ∧ q.2.ctx = c ∧ holds g q.2) ∨
      ∃ x, ctx? s c = some x ∧ ∃ q ∈ x.saved, holds g q.2
    let counts (e : SlotEntry) : Prop := e.valid = true ∧ e.quantum ≠ 0 ∧ runs e.ctx
    let due (p : Instr × Msg) : Prop :=
      (∃ c ∈ t.ctxs, c.2.frozen = none ∧ ∃ g ∈ c.2.gangs, g.2.wdt ≠ 0 ∧ g.2.wdt * 1024 ≤ g.2.wdCount ∧ p = ev .wdog c.1 g.1) ∨
      (∃ q ∈ t.pools, ∃ e ∈ q.2.slots, counts e.2 ∧ e.2.quantum ≤ e.2.cycles ∧ p = ev .quantumExpiry q.1 e.1) ∨
      (∃ c ∈ t.ctxs, c.2.suspended = false ∧ c.2.frozen = none ∧ (∃ a, c.2.arrears = some a ∧ a + 10 ^ 7 ≤ t.time) ∧
        p = ev .ackDeadline c.1) ∨
      (∃ d r, d < 4 ∧ mapRec s (saRec d) = some r ∧ recLive r = true ∧ r.auxA.testBit 0 = false ∧
        kget s.keeper.retested d 0 + 10 ^ 9 ≤ t.time ∧ p = ev .entropyRetest d 1)
    t = { s with time := s.time + n, ctxs := t.ctxs, pools := t.pools, owed := t.owed } ∧
    (∀ c, ctx? t c = (ctx? s c).map (fun x => { x with gangs := ((ctx? t c).map (·.gangs)).getD [] })) ∧
    (∀ c x g y, ctx? s c = some x → kfind x.gangs g = some y → ∃ z y', ctx? t c = some z ∧ kfind z.gangs g = some y' ∧
      (runs c → bound c → ¬paused c g → y' = { y with wdCount := y.wdCount + n }) ∧
      (¬(runs c ∧ bound c ∧ ¬paused c g) → y' = y)) ∧
    (∀ p, pool t p = { pool s p with slots := (pool t p).slots }) ∧
    (∀ p i e, kfind (pool s p).slots i = some e → ∃ e', kfind (pool t p).slots i = some e' ∧
      (counts e → ∀ r, mapRec s (12928 + p / 24) = some r → e' = { e with cycles := e.cycles + n * r.value }) ∧
      (¬counts e → e' = e)) ∧
    ∃ l, t.owed = s.owed ++ l ∧ ∀ p, p ∈ l ↔ due p ∧ p ∉ s.owed) ∧
  (∀ s : State, s.keeper.on = false → (∀ m rest, s.schedule ≠ .event .powerGood m :: rest) → step s = .fault .unpowered) ∧
  (∀ s : State, s.keeper.on = true → s.keeper.booted = false →
    (s.schedule = [] → step s = .next s) ∧
    (∀ t rest, s.schedule = t :: rest →
      (∀ e m, t = .event e m → e ≠ .powerGood ∧ readsPhysical s.keeper e m = false) → (∀ l, t ≠ .prefer l) →
      step s = .next { s with schedule := rest }))

/-- No instruction word and no step of an engine stops the machine: the manual gives each an effect in every state. -/
def Obligations.ExecGoesOn : Prop := ∀ (i : Instr) (s : State), ∃ t, exec i s = .next t

/-- Memory keeps its canonical form at every step, from every state that has it: addresses strictly rising, and no entry that
equals what an unlisted address reads as. -/
def Obligations.StepKeepsMemoryForm : Prop := ∀ (s t : State), Inv s → step s = .next t → Inv t

/-- What reset leaves: TIME 0, no context, thread, task or Retriever's program, no work of an engine, nothing in any queue, memory in
its canonical form, LSCFG 4 and VICT 0 on every core, every region register and slot-table entry 0, every array in the reset state
(R275, R276, R283, R302, R319, R362). -/
def Obligations.ResetState : Prop :=
  Inv State.reset ∧ State.reset.time = 0 ∧ State.reset.threads = [] ∧ State.reset.ctxs = [] ∧ State.reset.stores = [] ∧
    State.reset.schedule = [] ∧ State.reset.owed = [] ∧ State.reset.tasks = [] ∧ State.reset.rets = [] ∧
    State.reset.router = [] ∧ State.reset.marks = [] ∧ State.reset.peerHeld = [] ∧
    State.reset.regions = [] ∧ (∀ k, (core State.reset k).lscfg = 4 ∧ (core State.reset k).vict = 0 ∧
      (core State.reset k).smq = [] ∧ (core State.reset k).serving = none) ∧
    (∀ p, (pool State.reset p).slots = [] ∧ (pool State.reset p).copies = [] ∧ (pool State.reset p).ready = []) ∧
    (∀ d, (die State.reset d).sa = SArray.reset ∧ (die State.reset d).hostq = [] ∧ (die State.reset d).peerq = [] ∧
      (die State.reset d).uoq = [])

/-! ### Shared operations -/

/-- s0 reads as zero and a write to it is discarded; every other register reads as it was last written (R28, R114).

Which registers an agent may name: s0 to s31 on a Retriever, in the service context, and at 16 contexts per core; all 64
at 8 and at 4 contexts (R28, R110, R246). -/
def Obligations.ScalarRegisters : Prop :=
  (∀ (s : State) (r d : Reg) (v : Word),
      reg s 0 = 0 ∧ hart (setReg s 0 v) = hart s ∧ (d ≠ 0 → reg (setReg s d v) d = v) ∧
        (r ≠ d → reg (setReg s d v) r = reg s r)) ∧
  (∀ (s : State) (r : Reg),
      (∀ n, s.cur = .ret n → (admits s true [r] = true ↔ r.toNat < 32)) ∧
      (∀ n, s.cur = .thread n → hwOf n = 16 → (admits s true [r] = true ↔ r.toNat < 32)) ∧
      (∀ n, s.cur = .thread n → hwOf n ≠ 16 →
        ((core s (coreOf n)).part = 16 → (admits s true [r] = true ↔ r.toNat < 32)) ∧
        ((core s (coreOf n)).part ≠ 16 → admits s true [r] = true)) ∧
      (onRet s = true → admits s false [r] = false))

/-! ### Scalar words -/

/-- The two-operand register forms (R57, R137): the register takes the result and nothing else changes; a word that names a
register beyond the agent's takes ILL (R28, R48).

The one-operand, three-operand and four-operand register forms (R137).

The immediate forms (R138). -/
def Obligations.RegisterForms : Prop :=
  (∀ (s : State) (d a b : Reg), ∀ p ∈ registerForms d a b,
      (admits s true [d, a, b] = true → ∃ t, exec p.1 s = .next t ∧ Wrote s t d (p.2 s)) ∧
        (admits s true [d, a, b] = false → exec p.1 s = .next (takeIll s))) ∧
  (∀ (s : State) (d a b c : Reg),
      (∀ p ∈ unaryForms d a, (admits s true [d, a] = true → ∃ t, exec p.1 s = .next t ∧ Wrote s t d (p.2 s)) ∧
        (admits s true [d, a] = false → exec p.1 s = .next (takeIll s))) ∧
      (∀ p ∈ wideForms d a b c, (admits s true [d, a, b, c] = true → ∃ t, exec p.1 s = .next t ∧ Wrote s t d (p.2 s)) ∧
        (admits s true [d, a, b, c] = false → exec p.1 s = .next (takeIll s)))) ∧
  (∀ (s : State) (d a : Reg) (v : BitVec 12) (n : BitVec 6), ∀ p ∈ immediateForms d a v ++ shiftForms d a n,
      (admits s true [d, a] = true → ∃ t, exec p.1 s = .next t ∧ Wrote s t d (p.2 s)) ∧
        (admits s true [d, a] = false → exec p.1 s = .next (takeIll s)))

/-- Constants, TIME and RMVER (R139, R146).

The words that report on the map, the task, the slot table, a view, or the outcome log change nothing but their
register (R146, R293, R294, R316). -/
def Obligations.ConstantAndReportForms : Prop :=
  (∀ (s : State) (d : Reg) (v20 : BitVec 20) (v32 : BitVec 32), ∀ p ∈ constantForms d v20 v32,
      (admits s p.2.1 [d] = true → ∃ t, exec p.1 s = .next t ∧ Wrote s t d (p.2.2 s)) ∧
        (admits s p.2.1 [d] = false → exec p.1 s = .next (takeIll s))) ∧
  (∀ (s : State) (d a b : Reg) (g : BitVec 3), ∀ p ∈ reportForms d a b g,
      (admits s p.2.1 p.2.2.1 = true → ∃ t, exec p.1 s = .next t ∧ Wrote s t d (p.2.2.2 s)) ∧
        (admits s p.2.1 p.2.2.1 = false → exec p.1 s = .next (takeIll s)))

/-- A hint is a NOP whatever its other bits hold, for every agent, and never traps (R44). -/
def Obligations.HintIsNop : Prop :=
  (∀ w : Word, w.extractLsb' 62 2 = 0 → 0x3C0 ≤ (w.extractLsb' 52 10).toNat → decode w = .ok .hint) ∧
    encode .hint = some 0x3C00000000000000 ∧
    ∀ s : State, ∃ t, exec .hint s = .next t ∧ Retired s s t (.next s) ∧ BytesKept s t

/-- The scalar floating forms (R58 to R62, R67 to R73, R140): the flags of the operation are set in FCSR; where one of them
is enabled the word takes FPE with the flags in INFO and writes no result, and otherwise the register takes the result,
zero-extended. A word that rounds by .dyn while FCSR names RST takes ILL (R39). That a fused form whose sum holds a quiet NaN
and infinities of both signs raises no NV is the model's choice (log 34). -/
def Obligations.FloatForms : Prop :=
  ∀ (s : State) (d a b c : Reg) (t g : SFmt) (rnd : BitVec 3), ∀ p ∈ floatForms d a b c t g rnd,
    let ok := admits s false p.2.1 && rndAdmits (my s) p.2.2.1
    let r := p.2.2.2 s (modeOf (rndOf (my s) p.2.2.1))
    (ok = true → enabledOf (my s) &&& r.2 = 0 → ∃ u, exec p.1 s = .next u ∧ BytesKept s u ∧
      Retired s s u { reg := some (d, BitVec.ofNat 64 r.1), seg := none, pc := pcOf s + 8, thread := (addFlags · r.2) }) ∧
    (ok = true → enabledOf (my s) &&& r.2 ≠ 0 → exec p.1 s = .next (takeTrap (modMy s (addFlags · r.2)) 0xA r.2 0)) ∧
    (ok = false → exec p.1 s = .next (takeIll s))

/-! ### Control flow -/

/-- The compare-and-branch forms (R141).

Jumps and calls (R142): the link register takes the address of the next word, and a target in a register that is no
multiple of 8 takes ALIGN at the jump, with nothing written. CALLR with d = a jumps to the old value.

One that names a register beyond its agent's, and a JMP or CALL of a Retriever, takes ILL (R28, R48, R246). -/
def Obligations.BranchesAndJumps : Prop :=
  (∀ (s : State) (d a : Reg) (off : BitVec 20), ∀ p ∈ branchForms d a off,
      (admits s true [d, a] = true → ∃ t, exec p.1 s = .next t ∧
        if p.2 s then Jumped s t none (pcOf s + BitVec.ofInt 64 (off.toInt * 8))
        else Retired s s t (.next s) ∧ BytesKept s t) ∧
      (admits s true [d, a] = false → exec p.1 s = .next (takeIll s))) ∧
  (∀ (s : State) (d a : Reg) (off : BitVec 32),
      (admits s false [] = true → ∃ t, exec (.jmp off) s = .next t ∧
        Jumped s t none (pcOf s + BitVec.ofInt 64 (off.toInt * 8))) ∧
      (admits s false [d] = true → ∃ t, exec (.call d off) s = .next t ∧
        Jumped s t (some (d, pcOf s + 8)) (pcOf s + BitVec.ofInt 64 (off.toInt * 8))) ∧
      (admits s true [d, a] = true → (reg s a).toNat % 8 = 0 →
        ∃ t, exec (.callr d a) s = .next t ∧ Jumped s t (some (d, pcOf s + 8)) (reg s a)) ∧
      (admits s true [a] = true → (reg s a).toNat % 8 = 0 →
        (∃ t, exec (.ret a) s = .next t ∧ Jumped s t none (reg s a)) ∧
          ∃ t, exec (.jmpr a) s = .next t ∧ Jumped s t none (reg s a)) ∧
      (admits s true [d, a] = true → (reg s a).toNat % 8 ≠ 0 → exec (.callr d a) s = .next (takeTrap s 3 (3 * 128) (reg s a))) ∧
      (admits s true [a] = true → (reg s a).toNat % 8 ≠ 0 →
        exec (.ret a) s = .next (takeTrap s 3 (3 * 128) (reg s a)) ∧
          exec (.jmpr a) s = .next (takeTrap s 3 (3 * 128) (reg s a))) ∧
      (admits s false [] = false → exec (.jmp off) s = .next (takeIll s)) ∧
      (admits s false [d] = false → exec (.call d off) s = .next (takeIll s)) ∧
      (admits s true [d, a] = false → exec (.callr d a) s = .next (takeIll s)) ∧
      (admits s true [a] = false → exec (.ret a) s = .next (takeIll s) ∧ exec (.jmpr a) s = .next (takeIll s)))

/-! ### Memory words -/

/-- Scalar loads (R121, R129, R143): the register takes the little-endian value, extended; no byte of memory changes, nor
anything else but caches and the record of who has read queued writes. A cause stops the load, and it waits for an earlier store that
must be performed first (R84).

A load whose response stays outstanding is accepted and its agent awaits it (R121). An acquire whose granule is marked for another
scope is held (R93); otherwise a poisoned byte takes INTEG (R282). A load that names a register beyond its agent's takes ILL (R28, R48).

A load through a non-native view reads what the line's owner held: that is brought home first (R105, R272), and a load of native bytes
brings nothing home. That a misaligned load, or one across a page, reads all its bytes at one instant is the model's choice (R77; log
2). -/
def Obligations.Loads : Prop :=
  (∀ (s : State) (d : Reg) (m : MemRef), ∀ p ∈ loadForms d m,
    (admits s true [d, m.a] = false → exec p.1 s = .next (takeIll s)) ∧
    (admits s true [d, m.a] = true →
    let off := reg s m.a + m.disp.signExtend 64
    let al := if m.order = .plain then 1 else p.2.1
    let acq := m.order == .acq
    let refs := accessRefs s m.seg off p.2.1
    let b := served s refs
    (LoadGoes s m.seg off p.2.1 al acq → ∃ u t, exec p.1 s = .next t ∧ CachesOnly b u ∧
      Retired s u t (.write s d (extended p.2.1 p.2.2 (bytesOf b refs))) ∧ BytesKept b t) ∧
    (∀ c, scalarCause s m.seg off p.2.1 0 al = some c → exec p.1 s = .next (takeCause s c)) ∧
    (scalarCause s m.seg off p.2.1 0 al = none →
      refs.any (fun r => mustWait s s.cur s.stores r.kind false [] none) = true → exec p.1 s = .next (waitHere s)) ∧
    (LoadReady s m.seg off p.2.1 al → s.defer = true → ∃ u t, exec p.1 s = .next t ∧ CachesOnly s u ∧ BytesKept s t ∧
      Awaits s u t (.load d m.seg.toNat ((seg s m.seg).base.toNat + off.toNat) (refs.map (·.pa)) p.2.2
        (acq && refs.any (fun r => r.kind != 2))) .loadResponse) ∧
    (LoadReady s m.seg off p.2.1 al → s.defer = false → ∀ g mk, acq = true → missOf s s.cur (acqLocs s refs) = some (g, mk) →
      ∃ t, exec p.1 s = .next t ∧ Held s t g mk) ∧
    (LoadReady s m.seg off p.2.1 al → s.defer = false → (acq = true → missOf s s.cur (acqLocs s refs) = none) →
      (underRefs s refs).any (poisoned s) = true → exec p.1 s = .next (takeTrap s 5 0 0)))) ∧
  ∀ (s : State) (refs : List ByteRef),
    served s refs = recalled s (underRefs s (refs.filter (fun r => nonNative s r.pa))) ∧
      ((∀ r ∈ refs, nonNative s r.pa = false) → served s refs = s)

/-- Scalar stores and SEGST (R87, R117, R121, R143): the storing agent reads the stored bytes at once and every other byte as
before; no other agent's view changes but at the stored bytes and at the agent's own earlier stores, which may be performed
with this one; no register changes. Where a die held for itself writes of the granules stored to, they come to stand at their homes
first (R97, R272). A cause stops the store, and one that names a register beyond its agent's, or a SEGST of a Retriever, takes ILL (R28,
R48, R246). -/
def Obligations.Stores : Prop :=
  ∀ (s : State) (d : Reg) (g : BitVec 3) (m : MemRef), ∀ p ∈ storeForms d g m,
    (admits s p.2.1 p.2.2.1 = false → exec p.1 s = .next (takeIll s)) ∧
    (admits s p.2.1 p.2.2.1 = true →
    let off := reg s m.a + m.disp.signExtend 64
    let bytes := p.2.2.2.2.1 s
    let put := storedBytes s m.seg off bytes
    (scalarCause s m.seg off bytes.length 1 (p.2.2.2.1 bytes.length) = none →
      ∃ t, exec p.1 s = .next t ∧
        StoreAccepted s (acceptStore s s.cur ((accessRefs s m.seg off bytes.length).zip bytes) p.2.2.2.2.2 m.hint) t put) ∧
    (∀ c, scalarCause s m.seg off bytes.length 1 (p.2.2.2.1 bytes.length) = some c → exec p.1 s = .next (takeCause s c)))

/-- SEGLD (R117): a segment register takes a descriptor that Table 5.2 admits; any other takes SEGV kind 4. A cause stops it, a
poisoned byte takes INTEG (R282), and one whose response stays outstanding is accepted and its thread awaits it (R121). Where its agent
lacks the register, or is a Retriever, SEGLD takes ILL, and PREF where it lacks the register (R28, R48, R246).

PREF always retires and changes no value (R144): the caches may take the line, or the context counts a prefetch
dropped. The extent of its segment check is the model's choice (log 26). -/
def Obligations.SegmentLoadsAndPrefetch : Prop :=
  (∀ (s : State) (g : BitVec 3) (m : MemRef),
      (admits s false [m.a] = false → exec (.segld g m) s = .next (takeIll s)) ∧
        (admits s true [m.a] = false → exec (.pref m) s = .next (takeIll s))) ∧
  (∀ (s : State) (g : BitVec 3) (m : MemRef), admits s false [m.a] = true →
      let off := reg s m.a + m.disp.signExtend 64
      let refs := accessRefs s m.seg off 16
      let b := served s refs
      let l := bytesOf b refs
      (LoadGoes s m.seg off 16 16 false →
        (∀ x, segOfWords (BitVec.ofNat 64 (leNat (l.take 8))) (BitVec.ofNat 64 (leNat (l.drop 8))) = some x →
          ∃ u t, exec (.segld g m) s = .next t ∧ CachesOnly b u ∧ BytesKept b t ∧
            Retired s u t { reg := none, seg := some (g, x), pc := pcOf s + 8, thread := id }) ∧
        (segOfWords (BitVec.ofNat 64 (leNat (l.take 8))) (BitVec.ofNat 64 (leNat (l.drop 8))) = none →
          ∃ u, CachesOnly b u ∧ exec (.segld g m) s = .next (takeTrap u 2 (segvInfo 4 m.seg.toNat 0) off))) ∧
      (∀ c, scalarCause s m.seg off 16 0 16 = some c → exec (.segld g m) s = .next (takeCause s c)) ∧
      (LoadReady s m.seg off 16 16 → s.defer = true → ∃ u t, exec (.segld g m) s = .next t ∧ CachesOnly s u ∧ BytesKept s t ∧
        Awaits s u t (.segld g m.seg.toNat off ((seg s m.seg).base.toNat + off.toNat) (refs.map (·.pa))) .loadResponse) ∧
      (LoadReady s m.seg off 16 16 → s.defer = false → (underRefs s refs).any (poisoned s) = true →
        exec (.segld g m) s = .next (takeTrap s 5 0 0))) ∧
  (∀ (s : State) (m : MemRef), admits s true [m.a] = true →
      let off := reg s m.a + m.disp.signExtend 64
      let r := byteRef s (myCtx s) ((seg s m.seg).base.toNat + off.toNat)
      ∃ u t, exec (.pref m) s = .next t ∧ Retired s u t (.next s) ∧ BytesKept s t ∧
        if (scalarCause s m.seg off 1 0 1).isSome ∨ 2 ^ 47 ≤ r.pa ∨ (r.at_.under s).any (poisoned s) = true then
          u = countErr s (myCtx s) 1
        else CachesOnly s u)

/-- The atomics (R103, R145): the old value, sign-extended, to the register; the new value to the location; CAS writes only
where the old value is the expected one. A cause stops the word, and it waits for earlier stores and queued writes that must be
performed first. An acquire whose granule is marked for another scope is held (R93); otherwise a poisoned byte takes INTEG (R282).
One whose response stays outstanding has its effect at once and its agent awaits the old value (R103, R121). What a die holds for itself
of the location's granule stands at the home first: the old value is the one just before the atomic's own write in coherence order
(R90, R97), no piece of a write is torn (R78), and everyone reads there what the die held. A word whose home atomic unit is not live
waits, which is the model's choice (R23; log 36). One that names a register beyond its agent's takes ILL (R28, R48).

FENCE (R86, R274): it retires once none of its agent's stores is pending and, at .k, .h and .w, none of the writes its
agent has made or read stands in its die's queues and none of its own is seen within its die alone (R91); before that it waits. At
.t it orders nothing. -/
def Obligations.AtomicsAndFences : Prop :=
  (∀ (s : State) (d b : Reg) (m : AmoRef), admits s true [d, b, m.a] = false →
      (∀ p ∈ amoForms d b m, exec p.1 s = .next (takeIll s)) ∧ exec (.cas d b m) s = .next (takeIll s)) ∧
  (∀ (s : State) (d b : Reg) (m : AmoRef), admits s true [d, b, m.a] = true →
      let refs := accessRefs s m.seg (reg s m.a) (amoSize m)
      let old := leNat (bytesOf (recalled s (refs.map (·.loc))) refs)
      let x := (reg s b).toNat % 2 ^ (8 * amoSize m)
      let want := (reg s d).toNat % 2 ^ (8 * amoSize m)
      let first := byteRef s (myCtx s) ((seg s m.seg).base.toNat + (reg s m.a).toNat)
      let all (r : Out) : Prop := (∀ p ∈ amoForms d b m, exec p.1 s = r) ∧ exec (.cas d b m) s = r
      (AtomicGoes s m →
        (∀ p ∈ amoForms d b m, ∃ t, exec p.1 s = .next t ∧ AtomicDone s t d m old (some (p.2 (8 * amoSize m) old x))) ∧
        ∃ t, exec (.cas d b m) s = .next t ∧ AtomicDone s t d m old (if old = want then some x else none)) ∧
      (AtomicReady s m → s.defer = true →
        (∀ p ∈ amoForms d b m, ∃ t, exec p.1 s = .next t ∧ AtomicSent s t d m false old (some (p.2 (8 * amoSize m) old x))) ∧
        ∃ t, exec (.cas d b m) s = .next t ∧ AtomicSent s t d m true old (if old = want then some x else none)) ∧
      (∀ c, scalarCause s m.seg (reg s m.a) (amoSize m) 2 (amoSize m) = some c → all (.next (takeCause s c))) ∧
      (scalarCause s m.seg (reg s m.a) (amoSize m) 2 (amoSize m) = none →
        (atomicWaits s first.kind (refs.map (·.loc)) (amoRel m first.loc) = true → all (.next (waitHere s))) ∧
        (atomicWaits s first.kind (refs.map (·.loc)) (amoRel m first.loc) = false →
          (∀ g mk, amoAcq m = true → first.kind ≠ 2 → missOf s s.cur (refs.map (·.loc)) = some (g, mk) →
            ∃ t, Held s t g mk ∧ all (.next t)) ∧
          ((amoAcq m = true → first.kind ≠ 2 → missOf s s.cur (refs.map (·.loc)) = none) →
            (refs.map (·.loc)).any (poisoned s) = true → all (.next (takeTrap s 5 0 0)))))) ∧
  (∀ (s : State) (locs : List Nat),
      HomesOnly s (recalled s locs) ∧ (recalled s locs).stores = s.stores ∧
      (∀ loc, ¬BroughtHome s locs loc → (recalled s locs).mem.get loc = s.mem.get loc ∧
        ∀ a d, getLoc (recalled s locs) a d loc = getLoc s a d loc) ∧
      (∀ d loc, sharesGranule s locs loc = true → offPart loc = false → uoqRead (recalled s locs) d loc = none) ∧
      ∀ loc d, sharesGranule s locs loc = true → offPart loc = false → (∀ k, k ≠ d → uoqRead s k loc = none) →
        (recalled s locs).mem.get loc = (uoqRead s d loc).getD (s.mem.get loc)) ∧
  (∀ (s : State) (m : AmoRef),
      let loc := (byteRef s (myCtx s) ((seg s m.seg).base.toNat + (reg s m.a).toNat)).loc
      offPart loc = false → inPools loc = false → unitLive s (12304 + homeOf s loc) = false →
      atomicWaits s (byteRef s (myCtx s) ((seg s m.seg).base.toNat + (reg s m.a).toNat)).kind
        ((accessRefs s m.seg (reg s m.a) (amoSize m)).map (·.loc)) (amoRel m loc) = true) ∧
  (∀ (s : State) (sc : Scope),
      ((sc = .t ∨ pendingOf s s.cur = 0 ∧
          (sc = .k ∨ sc = .h ∨ sc = .w → queued s s.cur = false ∧ inDieOnly s s.cur = false)) →
        ∃ t, exec (.fence sc) s = .next t ∧ Retired s s t (.next s) ∧ BytesKept s t) ∧
      (sc ≠ .t → (pendingOf s s.cur ≠ 0 ∨ (sc = .k ∨ sc = .h ∨ sc = .w) ∧ (queued s s.cur = true ∨ inDieOnly s s.cur = true)) →
        exec (.fence sc) s = .next (waitHere s)))

/-! ### Traps and the system -/

/-- TRAP, ECALL and BRK enter the context's handler at U (R128, R131); TRAP of a register that is 0 has no effect.

Any other trap at U that a handler takes enters it so too (R127, R128).

A trap that no handler takes (R127, R128, R132): at S, in the service context, with TVEC 0, or of a code that is always
fatal, it freezes the context. The first fatal trap is recorded as it was, the dump is owed, no agent of the context runs
again, and no byte changes. RMSUSP is left out of it: with TVEC 0 it is not taken at all (R128), for no thread is ever told of it, and
at S it waits (R136), which is where dueTrap keeps it out. On a Retriever a trap is a fault stop (R248). A TRAP that names a register
beyond its agent's, and an ECALL of a Retriever, takes ILL (R28, R48, R246). -/
def Obligations.Traps : Prop :=
  (∀ (s : State) (a : Reg) (code : BitVec 12),
      (admits s true [a] = false → exec (.trap a code) s = .next (takeIll s)) ∧
      (admits s false [] = false → exec (.ecall code) s = .next (takeIll s))) ∧
  (∀ (s : State) (a : Reg) (code : BitVec 12) (tvec : Word), HandledAtU s tvec →
      (admits s true [a] = true → reg s a ≠ 0 →
        ∃ t, exec (.trap a code) s = .next t ∧ Entered s t tvec 9 (code.toNat + 2 ^ 31) (reg s a)) ∧
      (admits s true [a] = true → reg s a = 0 →
        ∃ t, exec (.trap a code) s = .next t ∧ Retired s s t (.next s) ∧ BytesKept s t) ∧
      (∃ t, exec (.ecall code) s = .next t ∧ Entered s t tvec 9 code.toNat 0) ∧
      (∃ t, exec (.brk code) s = .next t ∧ Entered s t tvec 8 code.toNat 0)) ∧
  (∀ (s : State) (tvec : Word) (code info : Nat) (tval : Word), HandledAtU s tvec → code ≠ 5 → code ≠ 7 →
      Entered s (takeTrap s code info tval) tvec code info tval) ∧
  (∀ (s : State) (code info : Nat) (tval : Word),
      (∀ n x, s.cur = .thread n → code ≠ 0x0B → ctx? s (myCtx s) = some x → x.frozen = none →
        (code = 5 ∨ code = 7 ∨ x.tvec = 0 ∨ privOf (my s) = true ∨ svcOf (my s) = true) →
        let t := takeTrap s code info tval
        (∃ y, ctx? t (myCtx s) = some y ∧ y.frozen = some
          { time := s.time, mapver := s.keeper.version, cause := BitVec.ofNat 64 (info * 2 ^ 32 + code), tval := tval
            epc := pcOf s, thread := n, nfatal := 1, seq := s.keeper.freezes }) ∧
        ev .dumpBuild (myCtx s) ∈ t.owed ∧ (∀ a, agentCtx s a = myCtx s → runnable t a = false) ∧
        (∀ c, c ≠ myCtx s → ctx? t c = ctx? s c) ∧ BytesKept s t) ∧
      (∀ n, s.cur = .ret n →
        takeTrap s code info tval = { s with rets := (takeTrap s code info tval).rets } ∧
        (∀ k, k ≠ n → kfind (takeTrap s code info tval).rets k = kfind s.rets k) ∧
        ret (takeTrap s code info tval) n =
          { ret s n with state := 3, code := code, tval := tval, cond := .ready, noPage := none, stop := false }))

/-- ERET (R130): PC takes EPC and STATUS.PRIV becomes 0; EPC is unchanged. At U, in the service context and on a Retriever it takes ILL. -/
def Obligations.Eret : Prop :=
  ∀ s : State,
    (admits s false [] = true → atS s = true → inSvc s = false → ∃ t, exec .eret s = .next t ∧ BytesKept s t ∧
      Retired s (if (my s).epc = pcOf s + 8 then s else trace s 1 0 (my s).epc) t
        { reg := none, seg := none, pc := (my s).epc, thread := fun x => { x with status := x.status &&& ~~~(1 : Word) } } ∧
      pcOf t = (my s).epc ∧ privOf (my t) = false ∧ (my t).epc = (my s).epc) ∧
    (admits s false [] = false ∨ atS s = false ∨ inSvc s = true → exec .eret s = .next (takeIll s)) ∧
    (∀ n x, s.cur = .thread n → svcOf (my s) = true → ctx? s (myCtx s) = some x → x.frozen = none →
      ∃ y, ctx? (takeIll s) (myCtx s) = some y ∧ y.frozen ≠ none)

/-- Reads of control and status registers (R125, R126, Table 5.5): one that only S may name takes ILL at U, and so does a
number that names none.

Writes of control and status registers (R70, R126): CSRW writes the register's value, CSRS sets its bits, CSRC clears
them; reserved fields stay. Every other number is illegal to write.

An access of FCSR waits while the thread's matrix queue holds a word (R236). One that names a register beyond its agent's takes ILL (R28,
R48). -/
def Obligations.ControlRegisters : Prop :=
  (∀ (s : State) (d : Reg) (csr : BitVec 12),
      (admits s false [d] = false → exec (.csrr d csr) s = .next (takeIll s) ∧ exec (.csrw csr d) s = .next (takeIll s) ∧
        exec (.csrs csr d) s = .next (takeIll s) ∧ exec (.csrc csr d) s = .next (takeIll s)) ∧
      (admits s false [d] = true → (my s).mqueue ≠ [] →
        exec (.csrr d 1) s = .next (waitHere s) ∧ exec (.csrw 1 d) s = .next (waitHere s) ∧
          exec (.csrs 1 d) s = .next (waitHere s) ∧ exec (.csrc 1 d) s = .next (waitHere s))) ∧
  (∀ (s : State) (d : Reg) (csr : BitVec 12), admits s false [d] = true →
      (∀ p ∈ csrForms s, (p.2.1 = true → atS s = true) → (p.1 = 1 → (my s).mqueue = []) →
        ∃ t, exec (.csrr d p.1) s = .next t ∧ Wrote s t d p.2.2) ∧
      (∀ p ∈ csrForms s, p.2.1 = true → atS s = false → exec (.csrr d p.1) s = .next (takeIll s)) ∧
      (csr ∉ (csrForms s).map (·.1) → exec (.csrr d csr) s = .next (takeIll s))) ∧
  (∀ (s : State) (a : Reg) (csr : BitVec 12), admits s false [a] = true →
      (∀ p ∈ csrWrites s, (p.2.1 = true → atS s = true) → (p.1 = 1 → (my s).mqueue = []) →
        (∃ t, exec (.csrw p.1 a) s = .next t ∧ ChangedOwn s t (p.2.2.2 (reg s a))) ∧
        (∃ t, exec (.csrs p.1 a) s = .next t ∧ ChangedOwn s t (p.2.2.2 (p.2.2.1 ||| reg s a))) ∧
        (∃ t, exec (.csrc p.1 a) s = .next t ∧ ChangedOwn s t (p.2.2.2 (p.2.2.1 &&& ~~~reg s a)))) ∧
      ((∀ p ∈ csrWrites s, p.1 = csr → p.2.1 = true ∧ atS s = false) →
        exec (.csrw csr a) s = .next (takeIll s) ∧ exec (.csrs csr a) s = .next (takeIll s) ∧
          exec (.csrc csr a) s = .next (takeIll s)))

/-- YIELD, RMACK, TRACEMARK, PGINV and REPART (R113, R146, R148, R149, R357).

A repartition to another count clears s32 to s63 of the thread where either count is 16, gives its core the count, puts the thread in
hardware context h mod n, and writes the core's record in an increment of the map, which takes the reports that wait with it (R113,
R341). That s32 to s63 then read as zero, and that the turns forgone there are forgotten, is the model's choice (log 19). -/
def Obligations.SystemWords : Prop :=
  ∀ (s : State) (d a b : Reg) (code : BitVec 12),
    (admits s false [] = true → ∃ t, exec .yield s = .next t ∧ BytesKept s t ∧
      Retired s { s with cores := t.cores } t (.next s) ∧ (∀ k, k ≠ myCore s → kfind t.cores k = kfind s.cores k) ∧
      core t (myCore s) = { core s (myCore s) with forgo := (core t (myCore s)).forgo } ∧
      (∀ h, h ∈ (core t (myCore s)).forgo ↔ h = hwOf (me s) ∨ h ∈ (core s (myCore s)).forgo)) ∧
    (admits s false [d, a] = true →
      ((reg s a).toNat < s.keeper.version → ∃ t, exec (.rmack d a) s = .next t ∧ Wrote s t d 1) ∧
      (s.keeper.version < (reg s a).toNat → ∃ t, exec (.rmack d a) s = .next t ∧ Wrote s t d 2) ∧
      ((reg s a).toNat = s.keeper.version → ∃ t, exec (.rmack d a) s = .next t ∧ BytesKept s t ∧
        Retired s (modCtx s (myCtx s) (fun x => { x with acked := s.keeper.version, arrears := none })) t (.write s d 0))) ∧
    (admits s true [a] = true → ∃ t, exec (.tracemark a code) s = .next t ∧ BytesKept s t ∧
      Retired s (trace s 8 code.toNat (reg s a)) t (.next s)) ∧
    (admits s false [a, b] = true → atS s = true →
      (s.defer = false → pginvBusy s (myCtx s) (reg s a).toNat (reg s b).toNat = false →
        ∃ t, exec (.pginv a b) s = .next t ∧ Retired s s t (.next s) ∧ BytesKept s t) ∧
      (s.defer = true ∨ pginvBusy s (myCtx s) (reg s a).toNat (reg s b).toNat = true →
        exec (.pginv a b) s =
          .next (owe (setCond s (.awaiting (.pginv (reg s a).toNat (reg s b).toNat))) [ev .pginvComplete (me s)]))) ∧
    (admits s false [d, a] = true → atS s = true →
      ((reg s a).toNat ≠ 4 → (reg s a).toNat ≠ 8 → (reg s a).toNat ≠ 16 →
        ∃ t, exec (.repart d a) s = .next t ∧ Wrote s t d 2) ∧
      (((reg s a).toNat = 4 ∨ (reg s a).toNat = 8 ∨ (reg s a).toNat = 16) → quiescent s = false →
        ∃ t, exec (.repart d a) s = .next t ∧ Wrote s t d 1) ∧
      (((reg s a).toNat = 4 ∨ (reg s a).toNat = 8 ∨ (reg s a).toNat = 16) → quiescent s = true →
        let n := (reg s a).toNat
        let old := (core s (myCore s)).part
        (n = old → ∃ t, exec (.repart d a) s = .next t ∧ Wrote s t d 0) ∧
        (n ≠ old → ∃ u, u.keeper = s.keeper ∧ pcOf u = pcOf s ∧
          ((∀ p ∈ s.stores, p.agent ≠ s.cur → p.agent ≠ u.cur) → ∀ a d loc, a = s.cur ∨ a ≠ u.cur →
            getLoc u (if a = s.cur then u.cur else a) d loc = getLoc s a d loc) ∧ (∀ g, seg u g = seg s g) ∧
          u.cur = .thread (myCore s * 17 + if hwOf (me s) < n then hwOf (me s) else hwOf (me s) % n) ∧
          core u (myCore s) = { core s (myCore s) with part := n, forgo := [] } ∧
          (∀ k, k ≠ myCore s → core u k = core s k) ∧
          (∀ r, reg u r = if 32 ≤ r.toNat ∧ (n = 16 ∨ old = 16) then 0 else reg s r) ∧
          (mapRec s (128 + myCore s) = none → exec (.repart d a) s = .next (advance (setReg u d 0))) ∧
          ∀ x, mapRec s (128 + myCore s) = some x →
            let change : Nat × MapRec := (128 + myCore s, { x with value := n })
            exec (.repart d a) s = .next (advance (setReg (applyMap u [change]) d 0)) ∧
            (s.keeper.waiting = [] → x.kind = 0x03 → applyMap u [change] = changeMap u [change])))) ∧
    (atS s = false → exec (.pginv a b) s = .next (takeIll s) ∧ exec (.repart d a) s = .next (takeIll s)) ∧
    (admits s false [] = false → exec .yield s = .next (takeIll s)) ∧
    (admits s false [d, a] = false → exec (.rmack d a) s = .next (takeIll s) ∧ exec (.repart d a) s = .next (takeIll s)) ∧
    (admits s true [a] = false → exec (.tracemark a code) s = .next (takeIll s)) ∧
    (admits s false [a, b] = false → exec (.pginv a b) s = .next (takeIll s))

/-! ### Caches, retention and logs -/

/-- CFLUSH, CINV and CCLEAN (R290): no byte that anyone reads changes. CFLUSH and CINV leave no copy of the line in the caches
that the scope names, from .k on in the last-level cache slices too; CFLUSH and CCLEAN leave no dirty copy in the L2s that it names.

A cause of the segment stops the word, and so does an address with no mapping; a page that is not present, or an aperture, has nothing
to act on. The word waits while a write of its own to the line is pending, or from .k on stands in a queue of its die. One that names
a register beyond its agent's takes ILL (R28, R48). That an aperture reached through a segment without right V has nothing to act on
too is the model's choice (log 38). -/
def Obligations.CacheWords : Prop :=
  ∀ (s : State) (m : MemRef),
    (admits s true [m.a] = false → ∀ i ∈ [Instr.cflush m, .cinv m, .cclean m], exec i s = .next (takeIll s)) ∧
    (admits s true [m.a] = true →
    let cva := (seg s m.seg).base.toNat + (reg s m.a + m.disp.signExtend 64).toNat
    let k := myCore s
    let sc := scopeNum m.scope
    let forms := [Instr.cflush m, .cinv m, .cclean m]
    (∀ c, lineCheck s m = some c → ∀ i ∈ forms, exec i s = .next (takeCause s c)) ∧
    (lineCheck s m = none →
      (∀ bad, xlate s (myCtx s) cva = .none bad → ∀ i ∈ forms,
        exec i s = .next (takeCause s (.trap 2 (segvInfo 2 m.seg.toNat 0) (BitVec.ofNat 64 cva) bad))) ∧
      ((xlate s (myCtx s) cva = .absent ∨ xlate s (myCtx s) cva = .integ ∨
          ∃ pa kind code w r, xlate s (myCtx s) cva = .page pa kind code w r ∧ 2 ^ 47 ≤ pa) →
        ∀ i ∈ forms, ∃ t, exec i s = .next t ∧ Retired s s t (.next s) ∧ BytesKept s t) ∧
      (∀ pa kind code w r, xlate s (myCtx s) cva = .page pa kind code w r → pa < 2 ^ 47 →
        let ofLine (l : List (Nat × Byte)) : Prop := ∃ q ∈ l, nativePa s q.1 / 128 = pa / 128
        let busy : Prop := (∃ p ∈ s.stores, p.agent = s.cur ∧ ofLine p.locs) ∨
          4 ≤ sc ∧ ∃ p ∈ (die s (myDie s)).hostq ++ (die s (myDie s)).peerq ++ (die s (myDie s)).uoq,
            (s.cur ∈ p.agents ∨ p.writer = some s.cur) ∧ ofLine p.locs
        let gone (t : State) : Prop :=
          (∀ p ∈ t.local1, cacheScope sc k (p.1 / 1024) = true → ∀ x ∈ p.2, x.line ≠ pa / 128) ∧
            (∀ p ∈ t.dies, l2Scope sc k p.1 = true → ∀ q ∈ p.2.l2, ∀ x ∈ q.2, x.line ≠ pa / 128) ∧
            (4 ≤ sc → ∀ p ∈ t.llc, pa / 128 ∉ p.2)
        (busy → ∀ i ∈ forms, exec i s = .next (waitHere s)) ∧
        (¬busy →
          (∃ u t, exec (.cflush m) s = .next t ∧ CachesOnly s u ∧ Retired s u t (.next s) ∧ BytesKept s t ∧ gone t) ∧
          (∃ u t, exec (.cinv m) s = .next t ∧ CachesOnly s u ∧ Retired s u t (.next s) ∧ BytesKept s t ∧ gone t) ∧
          (∃ u t, exec (.cclean m) s = .next t ∧ CachesOnly s u ∧ Retired s u t (.next s) ∧ BytesKept s t ∧
            ∀ p ∈ t.dies, l2Scope sc k p.1 = true → ∀ q ∈ p.2.l2, ∀ x ∈ q.2, x.line = pa / 128 → x.dirty = false)))))

/-- RETAIN and UNPIN (R280, R291, R292). RETAIN takes the die's lowest free retention register, with the lowest run of ways that no
register of the die has, for the range rounded to whole lines. It answers 8 where no register is free or the context's allowance of
registers is used up, 9 where its allowance of ways or the free ways do not suffice, and 10 where its operands are bad; it succeeds in
every other case. UNPIN gives a register of the context's own back. A word that names a register beyond its agent's, or that a Retriever
issues, takes ILL (R28, R48, R246).

ARRLOG (R295, Table 10.8): a doubleword of an entry of the tenant's ring, newest first; all ones where there is no such
entry or logging is off. A doubleword above 5, of which the manual states no result, is a free value (log 13). -/
def Obligations.RetentionAndArrivalLog : Prop :=
  (∀ (s : State) (d a b c : Reg),
      (admits s false [d, a, b, c] = false → exec (.retain d a b c) s = .next (takeIll s)) ∧
      (admits s false [d, a] = false → exec (.unpin d a) s = .next (takeIll s)) ∧
      (admits s false [d, a, b] = false → exec (.arrlog d a b) s = .next (takeIll s))) ∧
  (∀ (s : State) (d a b c : Reg),
      (admits s false [d, a, b, c] = true →
        let off := (reg s a).toNat
        let len := (reg s b).toNat
        let n := (reg s c).extractLsb' 0 3
        let w := ((reg s c).extractLsb' 4 4).toNat
        let bad := w < 1 ∨ 12 < w ∨ len = 0 ∨ segCheck (seg s n) n.toNat off len 0 ≠ none
        let lo := ((seg s n).base.toNat + off) / 128 * 128
        let hi := ((seg s n).base.toNat + off + len + 127) / 128 * 128
        let regs := (die s (myDie s)).retain
        let mine := (kvals regs).filter (fun r => r.ctx = myCtx s)
        let allow := match ctx? s (myCtx s) with | some x => kget x.allow (myDie s) (0, 0) | none => (0, 0)
        let isFree (w0 : Nat) : Prop := w0 + w ≤ 16 ∧ ∀ r ∈ kvals regs, r.way0 + r.ways ≤ w0 ∨ w0 + w ≤ r.way0 ∨ r.ways = 0
        (bad → ∃ t, exec (.retain d a b c) s = .next t ∧ Wrote s t d 10) ∧
        (¬bad →
          ((∀ k, k < 8 → (kfind regs k).isSome) ∨ allow.1 ≤ mine.length →
            ∃ t, exec (.retain d a b c) s = .next t ∧ Wrote s t d 8) ∧
          (∀ k, k < 8 → kfind regs k = none → (∀ j, j < k → (kfind regs j).isSome) → mine.length < allow.1 →
            (allow.2 < (mine.map (·.ways)).sum + w ∨ (∀ w0, ¬isFree w0) →
              ∃ t, exec (.retain d a b c) s = .next t ∧ Wrote s t d 9) ∧
            (∀ w0, (mine.map (·.ways)).sum + w ≤ allow.2 → isFree w0 → (∀ j, j < w0 → ¬isFree j) →
              ∃ t, exec (.retain d a b c) s = .next t ∧ BytesKept s t ∧
                Retired s (modDie s (myDie s) (fun x => { x with
                  retain := kset x.retain k { ctx := myCtx s, base := lo, limit := hi - lo, way0 := w0, ways := w } }))
                  t (.write s d (BitVec.ofNat 64 k)))))) ∧
      (admits s false [d, a] = true →
        (∀ r, (reg s a).toNat < 8 → kfind (die s (myDie s)).retain (reg s a).toNat = some r → r.ctx = myCtx s →
          ∃ t, exec (.unpin d a) s = .next t ∧ BytesKept s t ∧
            Retired s (modDie s (myDie s) (fun x => { x with retain := kdel x.retain (reg s a).toNat })) t (.write s d 0)) ∧
        ((∀ r, (reg s a).toNat < 8 → kfind (die s (myDie s)).retain (reg s a).toNat = some r → r.ctx ≠ myCtx s) →
          ∃ t, exec (.unpin d a) s = .next t ∧ Wrote s t d 1))) ∧
  (∀ (s : State) (d a b : Reg), admits s false [d, a, b] = true →
      let tn := tenantOf s (myCtx s)
      let h := ((reg s a).extractLsb' 0 3).toNat
      let k := ((reg s a).extractLsb' 8 12).toNat
      let ring := kget (tenant s tn).arr h []
      ((tenant s tn).logging = false ∨ ring[k]? = none →
        ∃ t, exec (.arrlog d a b) s = .next t ∧ Wrote s t d (BitVec.allOnes 64)) ∧
      (∀ e, (tenant s tn).logging = true → ring[k]? = some e →
        (∀ v, arrDword e ((ring.headD e).seq) (kget (tenant s tn).arrLost h 0) (reg s b).toNat = some v →
          ∃ u t, exec (.arrlog d a b) s = .next t ∧ Retired s u t (.write s d v) ∧ BytesKept s t ∧
            u = if (reg s b).toNat < 4 then
                modTenant s tn (fun x => { x with arr := kset x.arr h (ring.set k { e with seen := true }) }) else s) ∧
        (6 ≤ (reg s b).toNat → ∃ t, exec (.arrlog d a b) s = .next t ∧ BytesKept s t ∧
          Retired s { s with free := s.free + 1 } t (.write s d (Config.openWord s.free)))))

/-! ### Retrievers, copies, tags and barriers -/

/-- RLOAD, RSTART, RSTOP and RSTAT, in the order of their results (R249, Table 9.2). A Retriever started covers what its owner's
releases covered, and a thread that reads state 3 covers what the Retriever's covered, once its stores are performed (R85, R100).
RSTART of a Retriever that is not live hands nothing to it (R23); its result there, which the manual does not state, is a free value
(log 13). An RLOAD that parked on a page whose check has failed takes INTEG as it issues again (R160), and a page that is not present
parks it. A word that names a register beyond its agent's, or that is issued at S, in the service context or by a Retriever, takes ILL
(R28, R48, R246, R249). -/
def Obligations.RetrieverWords : Prop :=
  (∀ (s : State) (d a b c : Reg),
    (retCtlOk s [d, a, b, c] = false → exec (.rstart d a b c) s = .next (takeIll s)) ∧
    (retCtlOk s [d, a, b] = false → exec (.rload d a b) s = .next (takeIll s) ∧ exec (.rstat d a b) s = .next (takeIll s)) ∧
    (retCtlOk s [d, a] = false → exec (.rstop d a) s = .next (takeIll s))) ∧
  ∀ (s : State) (d a b c : Reg) (x : Ctx), retCtlOk s [d, a, b, c] = true → ctx? s (myCtx s) = some x →
    let n := 2 * myCore s + ((reg s a).extractLsb' 0 1).toNat
    let r := ret s n
    let mine := r.owner = some (me s)
    ((∃ t, r.owner = some t ∧ t ≠ me s) ∨ r.state = 2 → ∃ t, exec (.rload d a b) s = .next t ∧ Wrote s t d 1) ∧
    ((∀ t, r.owner = some t → t = me s) → r.state ≠ 2 →
      ((∀ k ∈ x.kernels, k.ret = true → k.entry ≠ (reg s b).toNat) →
        ∃ t, exec (.rload d a b) s = .next t ∧ Wrote s t d 2) ∧
      (∀ k, x.kernels.find? (fun k => k.ret && k.entry == (reg s b).toNat) = some k →
        let heap := readHeap s k.entry k.size
        let failed : Prop := (my s).cond = .waiting ∧ ∃ info tval bad, heap = .error (.trap 5 info tval bad)
        (failed → exec (.rload d a b) s = .next (takeTrap s 5 0 0)) ∧
        (¬failed → k.obj ∈ x.tainted → ∃ t, exec (.rload d a b) s = .next t ∧ Wrote s t d 3) ∧
        (¬failed → k.obj ∉ x.tainted → unitLive s (2048 + n) = false →
          ∃ t, exec (.rload d a b) s = .next t ∧ Wrote s t d 4) ∧
        (∀ y, ¬failed → k.obj ∉ x.tainted → unitLive s (2048 + n) = true → heap = .error y →
          exec (.rload d a b) s = .next (takeCause s y)) ∧
        (∀ l, k.obj ∉ x.tainted → unitLive s (2048 + n) = true → heap = .ok l →
          exec (.rload d a b) s = .next (advance (setReg (modRet s n (fun _ =>
            { Retriever.empty with owner := some (me s), state := 1, program := programWords l })) d 0))))) ∧
    (¬mine ∨ r.program = [] → ∃ t, exec (.rstart d a b c) s = .next t ∧ Wrote s t d 2) ∧
    (mine → r.program ≠ [] → r.state = 2 → ∃ t, exec (.rstart d a b c) s = .next t ∧ Wrote s t d 1) ∧
    (mine → r.program ≠ [] → r.state ≠ 2 → ((reg s b).toNat % 8 ≠ 0 ∨ 8 * r.program.length ≤ (reg s b).toNat) →
      ∃ t, exec (.rstart d a b c) s = .next t ∧ Wrote s t d 3) ∧
    (mine → r.program ≠ [] → r.state ≠ 2 → (reg s b).toNat % 8 = 0 → (reg s b).toNat < 8 * r.program.length →
      (unitLive s (2048 + n) = false → ∃ t, exec (.rstart d a b c) s = .next t ∧ BytesKept s t ∧
        Retired s { s with free := s.free + 1 } t (.write s d (Config.openWord s.free))) ∧
      (unitLive s (2048 + n) = true → releaseWaits s 1 = true → exec (.rstart d a b c) s = .next (waitHere s)) ∧
      (unitLive s (2048 + n) = true → releaseWaits s 1 = false → ∃ u,
        CachesOnly (modRet s n (fun r => { r with
          hart := { (Hart.zero.set 1 (reg s c)) with segs := (hart s).segs, pc := reg s b }
          state := 2, code := 0, tval := 0, cond := .ready, noPage := none, stop := false })) u ∧
        (∀ w ∈ (die u (myDie s)).hostq ++ (die u (myDie s)).peerq, w.op ∈ queuedOps s s.cur → .ret n ∈ w.agents) ∧
        exec (.rstart d a b c) s = .next (advance (setReg u d 0)))) ∧
    (¬mine → ∃ t, exec (.rstop d a) s = .next t ∧ Wrote s t d (BitVec.allOnes 64)) ∧
    (mine → r.state ≠ 2 → ∃ t, exec (.rstop d a) s = .next t ∧ Wrote s t d (retDword r 0)) ∧
    (mine → r.state = 2 → (∀ w, r.cond ≠ .awaiting w) →
      exec (.rstop d a) s = .next (advance (setReg (modRet s n (fun r => { r with
        state := 3, code := 0, tval := 0, cond := .ready, noPage := none, stop := false })) d
          (retDword { r with state := 3, code := 0 } 0)))) ∧
    (mine → r.state = 2 → ∀ w, r.cond = .awaiting w →
      exec (.rstop d a) s = .next (waitHere (modRet s n (fun r => { r with stop := true })))) ∧
    (¬mine ∨ 1 < (reg s b).toNat → ∃ t, exec (.rstat d a b) s = .next t ∧ Wrote s t d (BitVec.allOnes 64)) ∧
    (mine → (reg s b).toNat ≤ 1 →
      (r.state = 3 → pendingOf s (.ret n) ≠ 0 → exec (.rstat d a b) s = .next (waitHere s)) ∧
      ((r.state = 3 → pendingOf s (.ret n) = 0) → ∃ u t, exec (.rstat d a b) s = .next t ∧ CachesOnly s u ∧
        Retired s u t (.write s d (retDword r (reg s b).toNat)) ∧ BytesKept s t ∧
        (r.state = 3 → ∀ w ∈ (die u (myDie s)).hostq ++ (die u (myDie s)).peerq, w.op ∈ queuedOps s (.ret n) →
          s.cur ∈ w.agents)))

/-- CPY, CPY2, CPYT, CPYG and CPYRES (R251 to R257): a copy that passes its checks is accepted with its operands as they are
read, and goes on with its word; CPYRES starts a copy at fault again at its recorded chunk, and does nothing otherwise. That an
accepted copy makes a trace entry of kind 5, and CPYRES none, is the model's choice (log 16), and so are some bounds of a copy's checks
and queue that the manual leaves open (log 35), and that a copy waits while its pool is not live (R23; log 36).

A word takes ILL where it names a register beyond its agent's (R28, R48), a shape outside the ranges of Table 9.3, or a stage barrier
that the window lacks or that is not VALID (R253). CPYRES keeps RET as the record has it, and clears FAULT of a barrier (R257). -/
def Obligations.Copies : Prop :=
  (∀ (s : State) (o : CopyRef) (h : Handle) (l : List Word),
    (∀ p ∈ [(Instr.cpy o h, 0), (.cpy2 o h, 1), (.cpyt o h, 2), (.cpyg o h, 3)],
      let n := opCount p.2
      let regs := (List.range n).map (fun i => reg s (o.b + BitVec.ofNat 6 i))
      admits s true [o.d, o.a, o.b] = false ∨ regCount s < o.b.toNat + n ∨ opsOk p.2 regs = false ∨ handleOk s h = false →
        exec p.1 s = .next (takeIll s)) ∧
    (handleOk s h = false → exec (.cpyres h) s = .next (takeIll s)) ∧
    (h.barrier = false → handleOk s h = true) ∧
    (h.barrier = true → (handleOk s h = true ↔
      ∃ k, sbAbs s (myPool s) (myCtx s) h.n.toNat = some k ∧ (barrier s (myPool s) k).valid = true)) ∧
    opsOk 0 l = true ∧ opsOk 1 l = true ∧ (opsOk 2 l = true ↔ (l.getD 0 0).toNat ≤ 1) ∧
    (opsOk 3 l = true ↔ (l.getD 1 0).toNat ≤ 12) ∧
    (copyWaits s h = true ↔ unitLive s (16 + myPool s) = false ∨ engineFull s (me s) h = true ∨ pendingOf s s.cur ≠ 0 ∨
      ownQueued s s.cur = true)) ∧
  ∀ (s : State) (o : CopyRef) (h : Handle),
    (∀ p ∈ [(Instr.cpy o h, 0), (.cpy2 o h, 1), (.cpyt o h, 2), (.cpyg o h, 3)],
      let n := opCount p.2
      let regs := (List.range n).map (fun i => reg s (o.b + BitVec.ofNat 6 i))
      admits s true [o.d, o.a, o.b] = true → o.b.toNat + n ≤ regCount s → opsOk p.2 regs = true → handleOk s h = true →
      let c0 : Copy :=
        { id := s.nextId, ctx := myCtx s, thread := me s
          byRet := match s.cur with | .ret n => some n | .thread _ => none
          handle := h, op := p.2, dsegv := seg s o.dseg, asegv := seg s o.aseg, dseg := o.dseg, aseg := o.aseg
          doff := reg s o.d, aoff := reg s o.a, ops := regs ++ List.replicate (4 - n) 0, len := 0, next := 0
          live := [], wrote := [], bad := [], closing := false, geom := none, ret := onRet s }
      let c : Copy := { c0 with len := copyLen s c0, geom := c0.region s }
      (copySegs s c = none → copyAlign s c = none → copyWaits s h = false →
        exec p.1 s = .next (acceptCopy (trace s 5 (handleKey h) (BitVec.ofNat 64 c.len)) c c.record)) ∧
      (copySegs s c = none → copyAlign s c = none → copyWaits s h = true → exec p.1 s = .next (waitHere s)) ∧
      (∀ x, copySegs s c = some x → exec p.1 s = .next (takeCause s x)) ∧
      (∀ x, copySegs s c = none → copyAlign s c = some x → exec p.1 s = .next (takeCause s x))) ∧
    (admits s true [] = true → handleOk s h = true →
      let r := progressOf (my s) (handleKey h)
      (r.state ≠ 3 → ∃ t, exec (.cpyres h) s = .next t ∧ Retired s s t (.next s) ∧ BytesKept s t) ∧
      (r.state = 3 →
        let c0 : Copy :=
          { id := s.nextId, ctx := myCtx s, thread := me s
            byRet := match s.cur with | .ret n => some n | .thread _ => none
            handle := h, op := r.op, dsegv := seg s r.dseg, asegv := seg s r.aseg, dseg := r.dseg, aseg := r.aseg
            doff := r.doff, aoff := r.aoff, ops := r.ops, len := 0, next := r.chunk
            live := [], wrote := [], bad := [], closing := false, geom := none, ret := r.byRet }
        let c : Copy := { c0 with len := copyLen s c0, geom := c0.region s }
        let next : Progress := { r with state := 1, fkind := 0, fside := false, faddr := 0 }
        (∀ x, copySegs s c = some x → exec (.cpyres h) s = .next (takeCause s x)) ∧
        (copySegs s c = none → copyWaits s h = true → exec (.cpyres h) s = .next (waitHere s)) ∧
        (copySegs s c = none → copyWaits s h = false →
          (h.barrier = false → exec (.cpyres h) s = .next (acceptCopy s c next)) ∧
          (h.barrier = true → ∀ k, sbAbs s (myPool s) (myCtx s) h.n.toNat = some k →
            exec (.cpyres h) s = .next (acceptCopy
              (setBarrier s (myPool s) k { barrier s (myPool s) k with fault := false }) c next)))))

/-- WAITANY, WAITALL, FFREADY, TAGCLR and TAGSTAT (R259): what each waits for, and TAGS and the records after it. One that names a
register beyond its agent's, and a TAGSTAT of a doubleword above 7 or of a barrier outside the window, takes ILL (R28, R48). -/
def Obligations.Tags : Prop :=
  ∀ (s : State) (d a b : Reg),
    let busy (m : Word) : Prop := ∃ n, n < 64 ∧ m.getLsbD n = true ∧ (progressOf (my s) n).state = 1
    (admits s true [d, a] = true →
      let m := reg s a
      ((my s).tags &&& m ≠ 0 ∨ ¬busy m → ∃ t, exec (.waitany d a) s = .next t ∧ Wrote s t d ((my s).tags &&& m)) ∧
      ((my s).tags &&& m = 0 → busy m → exec (.waitany d a) s = .next (waitHere s)) ∧
      (¬busy m → ∃ t, exec (.waitall d a) s = .next t ∧ Wrote s t d ((my s).tags &&& m)) ∧
      (busy m → exec (.waitall d a) s = .next (waitHere s)) ∧
      ∃ t, exec (.ffready d a) s = .next t ∧ Wrote s t d ((my s).tags &&& m)) ∧
    (admits s true [a] = true → ∃ t, exec (.tagclr a) s = .next t ∧
      ChangedOwn s t (fun x => { x with tags := (my t).tags, progress := (my t).progress }) ∧
      (∀ n, n < 64 → (my t).tags.getLsbD n =
        ((my s).tags.getLsbD n && !((reg s a).getLsbD n && (progressOf (my s) n).state != 1))) ∧
      (∀ n, progressOf (my t) n =
        if n < 64 ∧ (reg s a).getLsbD n = true ∧ ((progressOf (my s) n).state = 2 ∨ (progressOf (my s) n).state = 3) then
          { progressOf (my s) n with state := 0 } else progressOf (my s) n)) ∧
    (admits s true [d, a, b] = true → (reg s b).toNat ≤ 7 →
      let n := ((reg s a).extractLsb' 0 6).toNat
      ((reg s a).getLsbD 6 = false →
        ∃ t, exec (.tagstat d a b) s = .next t ∧ Wrote s t d (progressDword (progressOf (my s) n) (reg s b).toNat)) ∧
      ((reg s a).getLsbD 6 = true → n < (sbWindow s (myPool s) (myCtx s)).2 →
        ∃ t, exec (.tagstat d a b) s = .next t ∧ Wrote s t d (progressDword (progressOf (my s) (n + 64)) (reg s b).toNat))) ∧
    (admits s true [d, a] = false → ∀ i ∈ [Instr.waitany d a, .waitall d a, .ffready d a], exec i s = .next (takeIll s)) ∧
    (admits s true [a] = false → exec (.tagclr a) s = .next (takeIll s)) ∧
    (admits s true [d, a, b] = false ∨ 7 < (reg s b).toNat ∨ ((reg s a).getLsbD 6 = true ∧
        (sbWindow s (myPool s) (myCtx s)).2 ≤ ((reg s a).extractLsb' 0 6).toNat) →
      exec (.tagstat d a b) s = .next (takeIll s))

/-- SBINIT, SBEXP, SBWAIT, SBREL and SBSTAT on a barrier of the context's window (R260 to R264, Table 9.6). SBREL leaves on the empty
half what its agent's releases cover, and the SBWAIT that goes on covers it too (R85, R263).

A word takes ILL where it names a register beyond its agent's (R28, R48), a barrier outside the window, or one that is not VALID (but
for SBINIT), and where its operand is out of range (R263). -/
def Obligations.StageBarriers : Prop :=
  (∀ (s : State) (d a b : Reg),
    let forms := [(Instr.sbinit a b, [a, b]), (.sbexp a b, [a, b]), (.sbwait d a b, [d, a, b]), (.sbrel a, [a]),
      (.sbstat d a b, [d, a, b])]
    ∀ p ∈ forms, admits s true p.2 = false ∨ (sbWindow s (myPool s) (myCtx s)).2 ≤ ((reg s a).extractLsb' 0 6).toNat →
      exec p.1 s = .next (takeIll s)) ∧
  ∀ (s : State) (d a b : Reg) (k : Nat), admits s true [d, a, b] = true →
    sbAbs s (myPool s) (myCtx s) ((reg s a).extractLsb' 0 6).toNat = some k →
    let x := barrier s (myPool s) k
    let u := modMy s (fun y => { y with window := some (myPool s) })
    let n := (reg s b).toNat
    (1 ≤ n → n ≤ 65535 → exec (.sbinit a b) s = .next (advance (setBarrier u (myPool s) k
      { pend := 0, fault := false, armed := false, xph := false, fph := false, valid := true, ncons := BitVec.ofNat 16 n
        rcnt := 0 }))) ∧
    ((n < 1 ∨ 65535 < n) → exec (.sbinit a b) s = .next (takeIll s)) ∧
    ((n < 1 ∨ 2 ^ 46 < n) → exec (.sbexp a b) s = .next (takeIll s)) ∧
    (1 < n → exec (.sbstat d a b) s = .next (takeIll s)) ∧
    (x.valid = true →
      (1 ≤ n → n ≤ 2 ^ 46 →
        let y : Barrier := { x with pend := x.pend + BitVec.ofNat 48 n, armed := true }
        exec (.sbexp a b) s = .next (advance (setBarrier u (myPool s) k
          (if y.pend.toInt ≤ 0 then { y with fph := !y.fph, armed := false } else y)))) ∧
      (let ph := if (reg s b).getLsbD 1 then x.xph else x.fph
       let go := ph ≠ (reg s b).getLsbD 0 ∨ ((reg s b).getLsbD 1 = false ∧ x.fault = true)
       (go → ∃ v, CachesOnly u v ∧ exec (.sbwait d a b) s = .next (advance (setReg v d (sbDword x 0))) ∧
           ∀ w ∈ (die v (myDie s)).hostq ++ (die v (myDie s)).peerq, w.op ∈ coversAt s [sbKey (myPool s) k] → s.cur ∈ w.agents) ∧
         (¬go → exec (.sbwait d a b) s = .next (waitHere u))) ∧
      (releaseWaits s 2 = true → exec (.sbrel a) s = .next (waitHere u)) ∧
      (releaseWaits s 2 = false → ∃ v,
        v = { setBarrier u (myPool s) k
          (if x.rcnt + 1 = x.ncons then { x with xph := !x.xph, rcnt := 0 } else { x with rcnt := x.rcnt + 1 }) with
          covers := v.covers } ∧ (∀ o ∈ queuedOps s s.cur, o ∈ kget v.covers (sbKey (myPool s) k) []) ∧
        exec (.sbrel a) s = .next (advance v)) ∧
      (n ≤ 1 → exec (.sbstat d a b) s = .next (advance (setReg u d (sbDword x n))))) ∧
    (x.valid = false → exec (.sbexp a b) s = .next (takeIll s) ∧ exec (.sbwait d a b) s = .next (takeIll s) ∧
      exec (.sbrel a) s = .next (takeIll s) ∧ exec (.sbstat d a b) s = .next (takeIll s))

/-! ### Strands and gangs -/

/-- SPAWN, RETJ, JOIN, JOINQ and TEND where nothing holds them (R147, R248, R308 to R311). SPAWN ends the vector state, writes the
frame (resume PC, mask, result register, g1 to g7 and the registers of the mask), counts the child in it, and enters the child with
its frame in d; RETJ lowers the frame's COUNT and resumes the continuation where it is the newest of its own deque, and ends the
strand otherwise; JOIN goes on once COUNT is 0, and JOINQ gives COUNT. COUNT is updated at its home, where what a die holds of it for
itself stands first (R97, R272), and SPAWN's frame is there with the release that it makes (R102). The TVAL of a continuation whose
frame holds a descriptor that SEGLD refuses is a free value: the manual gives none (R308; log 13).

An acquire by JOIN or JOINQ whose granule is marked for another scope is held (R93), and both read a frame on an SO page after the
thread's earlier SO stores (R80).

SPAWN takes ILL where it names a register beyond its agent's or its mask one beyond the partition, is issued by a Retriever or in the
service context (R28, R48, R310), and traps on the segment check of its frame through g1, on a frame that is no multiple of 16, on a
target that is no multiple of 8, and on what the frame's pages meet. RETJ, JOIN and JOINQ trap on a frame that is no multiple of 16 and
on what its pages meet, with the frame's address in TVAL of a SEGV, and RETJ of a frame whose COUNT is 0 takes ILL (R310). A poisoned
byte takes INTEG (R282), and each word waits for what its release must follow (R102). -/
def Obligations.Strands : Prop :=
  (∀ (s : State) (cva : Word) (n : Nat),
    (cva.toNat % 16 ≠ 0 → frameCause s cva n = some (.trap 3 (2 * 128) cva false)) ∧
    (cva.toNat % 16 = 0 →
      let stop := judge s (frameChk (myCtx s) (lostPage s)) (span cva.toNat n)
      (stop = none → frameCause s cva n = none) ∧ (∀ a, stop = some (.park a) → frameCause s cva n = some (.park a)) ∧
      ∀ code info tval bad, stop = some (.trap code info tval bad) →
        frameCause s cva n = some (.trap code info (if code = 2 then cva else tval) bad))) ∧
  (∀ (s : State) (d a b c : Reg),
    let f := (reg s a).toNat
    let n := frameSize (reg s b)
    let cva := (seg s 1).base.toNat + f
    let refs := refsOf s (myCtx s) cva n
    let poison (l : List ByteRef) : Prop := l.any (fun r => r.has && poisoned s r.loc) = true
    (taskWordOk s [d, a, b, c] = false ∨ 2 ^ regCount s ≤ (reg s b).toNat → exec (.spawn d a b c) s = .next (takeIll s)) ∧
    (taskWordOk s [d, a, b, c] = true → (reg s b).toNat < 2 ^ regCount s →
      (∀ x, segCheck (seg s 1) 1 f n 1 = some x → exec (.spawn d a b c) s = .next (takeCause s x)) ∧
      (segCheck (seg s 1) 1 f n 1 = none →
        (f % 16 ≠ 0 → exec (.spawn d a b c) s = .next (takeTrap s 3 128 (reg s a))) ∧
        (f % 16 = 0 → (reg s c).toNat % 8 ≠ 0 → exec (.spawn d a b c) s = .next (takeTrap s 3 (3 * 128) (reg s c))) ∧
        (f % 16 = 0 → (reg s c).toNat % 8 = 0 → (my s).deque.length < 32 →
          (∀ x, judge s (chkOf s 1 1) (span cva n) = some x → exec (.spawn d a b c) s = .next (takeCause s x)) ∧
          (judge s (chkOf s 1 1) (span cva n) = none →
            (ownCopies s (me s) = true ∨ settled (my s) = false ∨ frameWaits s refs = true →
              exec (.spawn d a b c) s = .next (waitHere s)) ∧
            (ownCopies s (me s) = false → settled (my s) = true → frameWaits s refs = false → poison ((refs.drop 16).take 8) →
              exec (.spawn d a b c) s = .next (takeTrap s 5 0 0)))))) ∧
    (taskWordOk s [a] = false → exec (.retj a) s = .next (takeIll s)) ∧
    (taskWordOk s [d, a] = false → exec (.join d a) s = .next (takeIll s) ∧ exec (.joinq d a) s = .next (takeIll s)) ∧
    (∀ x, frameCause s (reg s a) 24 = some x → (taskWordOk s [a] = true → exec (.retj a) s = .next (takeCause s x)) ∧
      (taskWordOk s [d, a] = true → exec (.join d a) s = .next (takeCause s x) ∧ exec (.joinq d a) s = .next (takeCause s x))) ∧
    (frameCause s (reg s a) 24 = none →
      let head := refsOf s (myCtx s) f 24
      let home := served (recalled s (refLocs (head.drop 16))) head
      let here := (my s).deque.getLast? = some f
      let size := if here then frameSize ((wordsAt home head).getD 1 0) else 24
      let all := refsOf s (myCtx s) f size
      let dw2 := (wordsAt home head).getD 2 0
      (taskWordOk s [a] = true →
        (∀ x, frameCause s (reg s a) size = some x → exec (.retj a) s = .next (takeCause s x)) ∧
        (frameCause s (reg s a) size = none →
          (poison all → exec (.retj a) s = .next (takeTrap s 5 0 0)) ∧
          (¬poison all → frameCount dw2 = 0 → exec (.retj a) s = .next (takeIll s)) ∧
          (¬poison all → frameCount dw2 ≠ 0 → copiesOf s (me s) = true ∨ settled (my s) = false ∨ frameWaits s all = true ∨
              (¬here ∧ endWaits s (me s) = true) → exec (.retj a) s = .next (waitHere s)))) ∧
      (taskWordOk s [d, a] = true → (head.drop 16).any (fun r => mustWait s s.cur s.stores r.kind false [] none) = false →
        poison (head.drop 16) →
        exec (.join d a) s = .next (takeTrap s 5 0 0) ∧ exec (.joinq d a) s = .next (takeTrap s 5 0 0)))) ∧
  (∀ (s : State) (d a b c : Reg),
    let cva := (seg s 1).base.toNat + (reg s a).toNat
    let n := frameSize (reg s b)
    let f := (reg s a).toNat
    let head := refsOf s (myCtx s) f 24
    let home := served (recalled s (refLocs (head.drop 16))) head
    let ws := wordsAt home head
    let clean (l : List ByteRef) : Prop := l.any (fun r => r.has && poisoned s r.loc) = false
    (taskWordOk s [d, a, b, c] = true → (reg s b).toNat < 2 ^ regCount s → segCheck (seg s 1) 1 f n 1 = none →
      f % 16 = 0 → (reg s c).toNat % 8 = 0 → (my s).deque.length < 32 →
      judge s (chkOf s 1 1) (span cva n) = none → ownCopies s (me s) = false → settled (my s) = true →
      frameWaits s (refsOf s (myCtx s) cva n) = false → clean (((refsOf s (myCtx s) cva n).drop 16).take 8) →
      let refs := refsOf s (myCtx s) cva n
      let old := (wordsAt (recalled s (refLocs ((refs.drop 16).take 8))) ((refs.drop 16).take 8)).headD 0
      let count := if frameState old = 0 then 1 else frameCount old + 1
      ∃ t, exec (.spawn d a b c) s = .next t ∧ pcOf t = reg s c ∧ (d ≠ 0 → reg t d = BitVec.ofNat 64 cva) ∧
        (∀ r, r ≠ d → reg t r = reg s r) ∧ (∀ g, seg t g = seg s g) ∧ (my t).deque = (my s).deque ++ [cva] ∧
        (my t).vceil = 0 ∧ (my t).instret = (my s).instret + 1 ∧ (my t).cond = .ready ∧ ThreadsKept s t (me s) ∧
        (refs.all (·.has) = true → (refs.map (·.loc)).Nodup →
          (∀ p ∈ frameBytes s (reg s b) d, ∀ r, refs[p.1]? = some r → getLoc t s.cur (myDie s) r.loc = p.2) ∧
          ((refs.drop 16).take 8).map (fun r => getLoc t s.cur (myDie s) r.loc) = leBytes 8 (putFrame old count 1).toNat) ∧
        ∀ x k loc, loc ∉ refLocs refs → ¬BroughtHome s (refLocs refs) loc → getLoc t x k loc = getLoc s x k loc) ∧
    (taskWordOk s [d, a, b, c] = true → (reg s b).toNat < 2 ^ regCount s → segCheck (seg s 1) 1 f n 1 = none →
      f % 16 = 0 → (reg s c).toNat % 8 = 0 → 32 ≤ (my s).deque.length →
      ∃ t, exec (.spawn d a b c) s = .next t ∧ Wrote s t d 0) ∧
    (taskWordOk s [a] = true → frameCause s (reg s a) 24 = none →
      let here := (my s).deque.getLast? = some f
      let size := if here then frameSize (ws.getD 1 0) else 24
      let refs := refsOf s (myCtx s) f size
      let dw2 := ws.getD 2 0
      let count := frameCount dw2 - 1
      let w := putFrame dw2 count (if count = 0 then 0 else frameState dw2)
      frameCause s (reg s a) size = none → clean refs → frameCount dw2 ≠ 0 → copiesOf s (me s) = false →
      settled (my s) = true → frameWaits s refs = false →
      let b := served home refs
      (here → ∃ u t, HomesOnly (releaseVec s (me s)) u ∧ FrameWritten b u ((refs.drop 16).take 8) w ∧
        exec (.retj a) s = .next t ∧ BytesKept u t ∧
        (∀ j, j ≠ me s → kfind t.threads j = kfind u.threads j) ∧ t.rets = u.rets ∧
        let h := frameHart (seg s 0) (wordsAt b refs) (reg s a)
        hart t = h.1 ∧ (my t).deque = (my s).deque.dropLast ∧ (my t).instret = (my s).instret + 1 ∧ (my t).cond = .ready ∧
          (my t).vceil = 0 ∧ (h.2 = none → (my t).pendTrap = (my s).pendTrap) ∧
          (∀ k, h.2 = some k → ∃ n, (my t).pendTrap = some (2, segvInfo 4 k 0, (Config.openWord n).toNat))) ∧
        (¬here → endWaits s (me s) = false → ∃ u t, HomesOnly (releaseVec s (me s)) u ∧
          FrameWritten b u ((refs.drop 16).take 8) w ∧ exec (.retj a) s = .next t ∧ StrandEnded u t (me s))) ∧
    (taskWordOk s [d, a] = true → frameCause s (reg s a) 24 = none →
      (head.drop 16).any (fun r => mustWait s s.cur s.stores r.kind false [] none) = true →
      exec (.join d a) s = .next (waitHere s) ∧ exec (.joinq d a) s = .next (waitHere s)) ∧
    (taskWordOk s [d, a] = true → frameCause s (reg s a) 24 = none →
      (head.drop 16).any (fun r => mustWait s s.cur s.stores r.kind false [] none) = false → clean (head.drop 16) →
      let b := served s (head.drop 16)
      let count := frameCount ((wordsAt b (head.drop 16)).headD 0)
      let miss := missOf b s.cur (acqLocs s (head.drop 16))
      (count = 0 → miss = none →
        (∃ u t, CachesOnly b u ∧ exec (.join d a) s = .next t ∧ Retired s u t (.write s d 0) ∧ BytesKept b t) ∧
          ∃ u t, CachesOnly b u ∧ exec (.joinq d a) s = .next t ∧ Retired s u t (.write s d 0) ∧ BytesKept b t) ∧
      (count = 0 → ∀ g mk, miss = some (g, mk) →
        ∃ t, Held b t g mk ∧ exec (.join d a) s = .next t ∧ exec (.joinq d a) s = .next t) ∧
      (count ≠ 0 →
        (∃ u, CachesOnly b u ∧ exec (.join d a) s = .next (waitHere u)) ∧
        ∃ u t, CachesOnly b u ∧ exec (.joinq d a) s = .next t ∧ Retired s u t (.write s d (BitVec.ofNat 64 count)) ∧
          BytesKept b t)) ∧
    (∀ n, s.cur = .thread n → hwOf n ≠ 16 → endWaits s n = true → exec .tend s = .next (waitHere s)) ∧
    (∀ n, s.cur = .thread n → hwOf n ≠ 16 → endWaits s n = false → ∃ t, exec .tend s = .next t ∧ StrandEnded s t n) ∧
    (∀ n, s.cur = .thread n → hwOf n = 16 → releaseWaits s 4 = false → (∀ p ∈ s.rets, p.2.owner ≠ some n) →
      (∀ g, (my s).cond ≠ .heldAcquire g) → ∃ t, exec .tend s = .next t ∧
      kfind t.threads n = none ∧ (∀ j, j ≠ n → kfind t.threads j = kfind s.threads j) ∧
      (core t (coreOf n)).serving = none ∧ t.marks = s.marks ∧
      (∀ m mk, (core s (coreOf n)).serving = some m → kfind s.marks m.granule = some mk → anyHeld s m.granule = true →
        missOut t m.granule = true) ∧
      ∃ l, t.owed = l ++ [ev .scopeMissMessage (coreOf n)]) ∧
    (∀ n, s.cur = .ret n → exec .tend s = .next (stopRet s n 0 0))) ∧
  (∀ (g0 : Seg) (ws : List Word) (cva : Word),
    let h := (frameHart g0 ws cva).1
    let mask := ws.getD 1 0
    let d : Reg := (ws.getD 3 0).extractLsb' 0 6
    h.pc = ws.getD 0 0 ∧ h.segs[0] = g0 ∧
    (∀ r : Reg, h.get r = if r = 0 then 0 else if r = d then cva else if mask.getLsbD r.toNat then
      ws.getD (18 + ((List.range r.toNat).filter (fun i => decide (1 ≤ i) && mask.getLsbD i)).length) 0 else 0) ∧
    (∀ k : Fin 8, k.val ≠ 0 → h.segs[k] =
      (segOfWords (ws.getD (2 + 2 * k.val) 0) (ws.getD (3 + 2 * k.val) 0)).getD Seg.empty))

/-- GLAUNCH, GBAR, WDKICK, WDSET and the counter words (R299, R312 to R315, R317) where nothing holds them. DEPARM and DEPSIG act at
once at the home where their response stays outstanding, and their thread awaits it (R103); what a die holds of the counter for itself
stands there first (R97, R272). A cause of the access stops GLAUNCH and the counter words; they wait for what their release must follow,
and a poisoned byte takes INTEG (R282). GBAR of a task with another live strand takes ILL where it has not arrived (R314), and so does
a word that names a register beyond its agent's, or that a Retriever issues (R28, R48); all but the counter words do so in the service
context too.

GLAUNCH's record enters the gang table under its lowest free entry, after the successors that wait, and gives the gang's number shifted
by 8, or the code of Table 11.3 without 7 and 8 (R317); that the entry is the lowest free one is the model's choice (log 3).

What an operation makes of a dependence counter (R313, Table 11.6): COUNT, the bits VALID, ARMED and FIRED, the result but
for its firing bit, and whether it fires. A reserved bit stays. At the home, doubleword 0 takes what the operation makes of it and no
other byte changes but REFUSE, which DEPINIT clears and a successor that the gang table refuses writes; a successor that it takes is
queued behind those that wait (R313). -/
def Obligations.GangAndCounterWords : Prop :=
  (∀ (s : State) (d a b : Reg) (g : BitVec 3),
      let l := accessRefs s g (reg s a) 64
      let refs := accessRefs s g (reg s a) 128
      let locs := refs.map (·.loc)
      let kind := (byteRef s (myCtx s) ((seg s g).base.toNat + (reg s a).toNat)).kind
      let forms := [(Instr.depinit d a g, false, [d, a]), (.deparm d a b g, true, [d, a, b]), (.depsig d a g, true, [d, a])]
      (taskWordOk s [d, a] = false → exec (.glaunch d a g) s = .next (takeIll s) ∧ exec (.wdset d a) s = .next (takeIll s)) ∧
      (taskWordOk s [] = false → exec .wdkick s = .next (takeIll s)) ∧
      (taskWordOk s [d] = false ∨ ((my s).arrival = none ∧ 1 < (myTask s).strands) → exec (.gbar d) s = .next (takeIll s)) ∧
      (taskWordOk s [d, a] = true →
        (∀ x, scalarCause s g (reg s a) 64 0 64 = some x → exec (.glaunch d a g) s = .next (takeCause s x)) ∧
        (scalarCause s g (reg s a) 64 0 64 = none →
          let waits := releaseWaits s 4 = true ∨ l.any (fun r => mustWait s s.cur s.stores r.kind false [] none) = true
          (waits → exec (.glaunch d a g) s = .next (waitHere s)) ∧
          (¬waits → (underRefs s l).any (poisoned s) = true → exec (.glaunch d a g) s = .next (takeTrap s 5 0 0)))) ∧
      ∀ p ∈ forms,
        (admits s false p.2.2 = false → exec p.1 s = .next (takeIll s)) ∧
        (admits s false p.2.2 = true →
          (∀ x, scalarCause s g (reg s a) 128 2 128 = some x → exec p.1 s = .next (takeCause s x)) ∧
          (scalarCause s g (reg s a) 128 2 128 = none →
            let waits := (p.2.1 = true ∧ releaseWaits s 4 = true) ∨ mustWait s s.cur s.stores kind true locs none = true ∨
              inQueue s (myDie s) locs = true ∨ (l.take 1).all (fun r => atomicUnitLive s r.loc) = false
            (waits → exec p.1 s = .next (waitHere s)) ∧
            (¬waits → locs.any (poisoned s) = true → exec p.1 s = .next (takeTrap s 5 0 0))))) ∧
  (∀ (s : State) (c : Nat) (r : List Word) (x : Ctx), ctx? s c = some x → x.succs = [] →
      (launchCode s c r ≠ 0 → deviceLaunch s c r = (s, launchCode s c r)) ∧
      (launchCode s c r = 0 → ((∀ g, g < 64 → (kfind x.gangs g).isSome) → deviceLaunch s c r = (s, 6)) ∧
        ∀ g, g < 64 → kfind x.gangs g = none → (∀ j, j < g → (kfind x.gangs j).isSome) →
          ∃ t y, deviceLaunch s c r = (t, g * 2 ^ 8) ∧ t = { s with ctxs := t.ctxs, owed := t.owed } ∧
            (∀ j, j ≠ c → ctx? t j = ctx? s j) ∧ ctx? t c = some { x with gangs := kset x.gangs g y, gangSeq := x.gangSeq + 1 } ∧
            y = { record := r, port := none, next := 0, live := 0, retired := 0, gen := 0, arrivals := 0, wdCount := 0
                  wdt := recWdt r, seq := x.gangSeq } ∧
            ∃ o, t.owed = s.owed ++ o ∧ ∀ p, (∃ e ∈ (pool s p).slots, e.2.valid = true ∧ e.2.ctx = c) → ev .tileDraw p c ∈ o)) ∧
  (∀ (s : State) (who : Option Agent) (c : Nat) (refs : List ByteRef) (words : List Word) (op : DepOp) (x : Ctx),
      refs.length = 128 → (refs.map (·.loc)).Nodup → (∀ r ∈ refs, r.has = true) → ctx? s c = some x →
      let code := launchCode s c (words.drop 8)
      let r := depStep op (words.getD 0 0) code
      let t := (depApply s who c refs words op).1
      let refuse : Option Nat := if op = .init then some 0 else if r.2.2 = true ∧ code ≠ 0 then some code else none
      let locs := (refs.take 9).map (·.loc)
      (depApply s who c refs words op).2 = (r.1 + (if r.2.2 then 1 else 0), ((words.getD 0 0).extractLsb' 0 32).toNat) ∧
      (∀ y, r.2.1 = some y → (refs.take 8).map (fun b => t.mem.get b.loc) = leBytes 8 y.toNat) ∧
      (∀ n b, refuse = some n → refs[8]? = some b → t.mem.get b.loc = BitVec.ofNat 8 n) ∧
      (∀ loc, ¬BroughtHome s locs loc → (r.2.1 = none ∨ loc ∉ (refs.take 8).map (·.loc)) →
        (refuse = none ∨ ∀ b, refs[8]? = some b → loc ≠ b.loc) → t.mem.get loc = s.mem.get loc) ∧
      (r.2.2 = true → code = 0 → ev .gangStart c ∈ t.owed ∧ ctx? t c = some { x with succs := x.succs ++ [words.drop 8] }) ∧
      (r.2.2 = false → ctx? t c = some x)) ∧
  (∀ (s : State) (d a b : Reg) (g : BitVec 3),
      let touched (l : List ByteRef) : State :=
        noteReads (touchLoad (served s l) s.cur l .none) s.cur (underRefs s l)
      let words (u : State) (l : List ByteRef) : List Word :=
        (chunksOf 8 l.length (bytesOf u l)).map (fun x => BitVec.ofNat 64 (leNat x))
      (taskWordOk s [d, a] = true → scalarCause s g (reg s a) 64 0 64 = none → releaseWaits s 4 = false →
        let l := accessRefs s g (reg s a) 64
        l.any (fun r => mustWait s s.cur s.stores r.kind false [] none) = false → (underRefs s l).any (poisoned s) = false →
        let r := deviceLaunch (touched l) (myCtx s) (words (served s l) l)
        exec (.glaunch d a g) s = .next (advance (setReg r.1 d (BitVec.ofNat 64 r.2)))) ∧
      (taskWordOk s [d] = true → (my s).arrival ≠ none ∨ (myTask s).strands ≤ 1 →
        (∀ p, (my s).arrival = some p → p < (myGang s).gen → ∃ t, exec (.gbar d) s = .next t ∧ BytesKept s t ∧
          Retired s s t { reg := some (d, BitVec.ofNat 64 (myGang s).gen), seg := none, pc := pcOf s + 8
                          thread := fun x => { x with arrival := none } }) ∧
        (∀ p, (my s).arrival = some p → (myGang s).gen ≤ p → exec (.gbar d) s = .next (waitHere s)) ∧
        ((my s).arrival = none → releaseWaits s 4 = false → exec (.gbar d) s = .next (gbarWait
          (modGang (modMy s (fun x => { x with arrival := some (myGang s).gen })) (myCtx s) (myTask s).gid
            (fun y => completeBarrier { y with arrivals := y.arrivals + 1 })) d (myGang s).gen)) ∧
        ((my s).arrival = none → releaseWaits s 4 = true → exec (.gbar d) s = .next (waitHere s))) ∧
      (taskWordOk s [] = true → ∃ t, exec .wdkick s = .next t ∧ BytesKept s t ∧
        Retired s (modGang s (myCtx s) (myTask s).gid (fun y => { y with wdCount := 0 })) t (.next s)) ∧
      (taskWordOk s [d, a] = true → ∃ t, exec (.wdset d a) s = .next t ∧ BytesKept s t ∧
        Retired s (modGang s (myCtx s) (myTask s).gid (fun y => { y with
          wdCount := 0, wdt := ((reg s a).extractLsb' 0 32).toNat })) t (.write s d (BitVec.ofNat 64 (myGang s).wdt))) ∧
      (admits s false [d, a, b] = true → scalarCause s g (reg s a) 128 2 128 = none →
        let l := accessRefs s g (reg s a) 128
        let kind := (byteRef s (myCtx s) ((seg s g).base.toNat + (reg s a).toNat)).kind
        mustWait s s.cur s.stores kind true (l.map (·.loc)) none = false → inQueue s (myDie s) (l.map (·.loc)) = false →
        (l.take 1).all (fun r => atomicUnitLive s r.loc) = true → (l.map (·.loc)).any (poisoned s) = false →
        let u := recalled s (l.map (·.loc))
        (exec (.depinit d a g) s =
          .next (advance (setReg (depApply u (some s.cur) (myCtx s) l (words u l) .init).1 d 0))) ∧
        (releaseWaits s 4 = false →
          let arm := depApply u (some s.cur) (myCtx s) l (words u l) (.arm (reg s b).toNat)
          let sig := depApply u (some s.cur) (myCtx s) l (words u l) .sig
          let sent (r : State × Nat × Nat) : State := owe (setCond r.1 (.awaiting (.atomic d (BitVec.ofNat 64 r.2.1)
            (BitVec.ofNat 64 r.2.2) false false ((seg s g).base.toNat + (reg s a).toNat) r.1.time []))) [evA .atomicResponse s.cur]
          (s.defer = false → exec (.deparm d a b g) s = .next (advance (setReg arm.1 d (BitVec.ofNat 64 arm.2.1))) ∧
            exec (.depsig d a g) s = .next (advance (setReg sig.1 d (BitVec.ofNat 64 sig.2.1)))) ∧
          (s.defer = true → exec (.deparm d a b g) s = .next (sent arm) ∧ exec (.depsig d a g) s = .next (sent sig))))) ∧
  (∀ (w : Word) (x check : Nat),
      let count := (w.extractLsb' 0 32).toNat
      let set (v armed fired : Bool) (n : Nat) (y : Word) : Prop :=
        y.getLsbD 63 = v ∧ y.getLsbD 62 = armed ∧ y.getLsbD 61 = fired ∧ (y.extractLsb' 0 32).toNat = n ∧
          y.extractLsb' 32 29 = w.extractLsb' 32 29
      (∃ y, depStep .init w check = (0, some y, false) ∧ set true false false 0 y) ∧
      (w.getLsbD 63 = false → depStep .sig w check = (2, none, false) ∧ depStep (.arm x) w check = (2, none, false)) ∧
      (w.getLsbD 63 = true → ∃ y, depStep .sig w check =
          (0, some y, w.getLsbD 62 && !w.getLsbD 61 && decide ((count + 2 ^ 32 - 1) % 2 ^ 32 = 0)) ∧
        set true (w.getLsbD 62) (w.getLsbD 61 || (w.getLsbD 62 && decide ((count + 2 ^ 32 - 1) % 2 ^ 32 = 0)))
          ((count + 2 ^ 32 - 1) % 2 ^ 32) y) ∧
      (w.getLsbD 63 = true → w.getLsbD 62 = true → depStep (.arm x) w check = (4, none, false)) ∧
      (w.getLsbD 63 = true → w.getLsbD 62 = false →
        (2 ^ 31 ≤ x → depStep (.arm x) w check = (6, none, false)) ∧
        (x < 2 ^ 31 → check ≠ 0 → depStep (.arm x) w check = (8 + check * 2 ^ 8, none, false)) ∧
        (x < 2 ^ 31 → check = 0 → ∃ y, depStep (.arm x) w check =
            (0, some y, !w.getLsbD 61 && decide ((count + x) % 2 ^ 32 = 0)) ∧
          set true true (w.getLsbD 61 || decide ((count + x) % 2 ^ 32 = 0)) ((count + x) % 2 ^ 32) y)))

/-- A D word without a memory half (R32 to R34): both halves read before either writes, both results are written, and a branch
half that is taken sends the agent to its target.

A D word with a load or a store in either half (R33, R34): the access is plain and forms its address before either half writes; the
other half's result or branch takes effect with it; a cause or poison stops the whole word, and so does a store that must come first.
No other thread, no Retriever and no other agent's view changes but at the bytes stored. That a load across a page reads all its bytes
at one instant is the model's choice (R77; log 2).

A word that names a register its agent lacks, and any D word of a Retriever, takes ILL (R28, R47, R246). -/
def Obligations.DualWords : Prop :=
  (∀ (s : State) (hi lo : Half), admits s false (halfRegs hi ++ halfRegs lo) = true → (Instr.dualWord hi lo).wf = true →
      hi.isMem = false → lo.isMem = false →
      let target := (halfTarget s lo).getD (pcOf s + 8)
      let u := if target = pcOf s + 8 ∨ onRet s = true then s else trace s 1 0 target
      ∃ t, exec (.dualWord hi lo) s = .next t ∧ BytesKept s t ∧ t = { u with threads := t.threads, rets := t.rets } ∧
        (∀ r, reg t r = match halfResult s hi, halfResult s lo with
          | some (x, v), some (y, w) => if r = y ∧ y ≠ 0 then w else if r = x ∧ x ≠ 0 then v else reg s r
          | some (x, v), none => if r = x ∧ x ≠ 0 then v else reg s r
          | none, some (y, w) => if r = y ∧ y ≠ 0 then w else reg s r
          | none, none => reg s r) ∧
        (∀ g, seg t g = seg s g) ∧ pcOf t = target ∧
        (∀ n, n ≠ me s → kfind t.threads n = kfind s.threads n) ∧
        (∀ n, s.cur ≠ .ret n → kfind t.rets n = kfind s.rets n) ∧
        (onRet s = false → my t = { my s with hart := hart t, instret := (my s).instret + 1, cond := .ready })) ∧
  (∀ (s : State) (up : Bool) (other : Half) (k : HLoad) (wide : Bool) (d a : Reg) (sg : BitVec 3) (disp : BitVec 10),
      let word (m : Half) : Instr := if up then .dualWord m other else .dualWord other m
      let s0 : State := { s with defer := false }
      let off := reg s a + disp.signExtend 64
      let n := if k = .d then 8 else 4
      let refs := accessRefs s sg off n
      let b := served s0 refs
      let v := extended n (k == .w) (bytesOf b refs)
      let bytes := leBytes (if wide then 8 else 4) (reg s d).toNat
      let target := (halfTarget s other).getD (pcOf s + 8)
      let rest (x : Reg → Word) (t : State) : Prop :=
        pcOf t = target ∧ (∀ g, seg t g = seg s g) ∧
        (∀ n, n ≠ me s → kfind t.threads n = kfind s.threads n) ∧ t.rets = s.rets ∧
        my t = { my s with hart := hart t, instret := (my s).instret + 1, cond := .ready } ∧
        t.cores = (if target = pcOf s + 8 then s else trace s 1 0 target).cores ∧
        ∀ r, reg t r = match halfResult s other with
          | some (y, w) => if r = y ∧ y ≠ 0 then w else x r
          | none => x r
      ((word (.load k d a sg disp)).wf = true → admits s false (halfRegs other ++ halfRegs (.load k d a sg disp)) = true →
        (LoadGoes s0 sg off n 1 false → ∃ t, exec (word (.load k d a sg disp)) s = .next t ∧ BytesKept b t ∧
          rest (fun r => if r = d ∧ d ≠ 0 then v else reg s r) t) ∧
        (∀ c, scalarCause s sg off n 0 1 = some c → exec (word (.load k d a sg disp)) s = .next (takeCause s0 c)) ∧
        (scalarCause s sg off n 0 1 = none → refs.any (fun r => mustWait s s.cur s.stores r.kind false [] none) = true →
          exec (word (.load k d a sg disp)) s = .next (waitHere s0)) ∧
        (LoadReady s sg off n 1 → (underRefs s refs).any (poisoned s) = true →
          exec (word (.load k d a sg disp)) s = .next (takeTrap s0 5 0 0))) ∧
      ((word (.store wide d a sg disp)).wf = true → admits s false (halfRegs other ++ halfRegs (.store wide d a sg disp)) = true →
        (scalarCause s sg off bytes.length 1 1 = none → ∃ t, exec (word (.store wide d a sg disp)) s = .next t ∧
          rest (reg s) t ∧
          let put := storedBytes s sg off bytes
          (∀ loc, loc ∈ put.map (·.1) ∨ StoreSpares s s.cur (put.map (·.1)) loc →
            getLoc t s.cur (myDie s) loc = (lastWrite put loc).getD (getLoc s s.cur (myDie s) loc)) ∧
          ∀ x k loc, x ≠ s.cur → loc ∉ put.map (·.1) → StoreSpares s s.cur (put.map (·.1)) loc →
            (∀ y ∈ s.stores, y.agent = s.cur → loc ∉ y.locs.map (·.1)) → getLoc t x k loc = getLoc s x k loc) ∧
        (∀ c, scalarCause s sg off bytes.length 1 1 = some c →
          exec (word (.store wide d a sg disp)) s = .next (takeCause s c)))) ∧
  (∀ (s : State) (hi lo : Half), admits s false (halfRegs hi ++ halfRegs lo) = false →
      exec (.dualWord hi lo) s = .next (takeIll s))

/-! ### Vector state -/

/-- VREQ, VREL, QSET, VSEED, CARRYR and CARRYW (R196, R199 to R202). VREL, and VREQ of 0, wait while the thread's vector loads or its
matrix queue are under way. That a VREQ waits while its pool is not live is the model's choice (R23; log 36).

The ceiling that VREQ gives a request of `r` slots where `room` bytes of the spill region are left (R196): the request, 1,024
at most, where 144 bytes a slot fit; otherwise the largest multiple of 16 below it that fits.

The entitlements (R178). A holder that joins or sets its request takes the lesser of its request and what the quota leaves beside one
lane for every other holder, at least 1; the others give lanes up, the largest first and the higher number on a tie, down to one lane
each, until the quota fits. Once a holder leaves or lowers its request, those below their requests regain lanes, the earliest debt first
and the lower number on a tie, as far as the quota goes. A debt time is set as an entitlement falls below its request, is kept while it
stays below, and is cleared as it reaches it. -/
def Obligations.VectorState : Prop :=
  (∀ (s : State) (t rq : Nat) (x : Thread), krising s.threads = true → kfind s.threads t = some x → x.vceil ≠ 0 →
    let p := poolOf t
    let c := x.ctx
    let q := quotaOf s p c
    let hs := holders s p c
    let same (u : State) : Prop := u = { s with threads := u.threads } ∧ ∀ n, (kfind u.threads n).map (fun y =>
      { y with ent := 0, debt := none }) = (kfind s.threads n).map (fun y => { y with ent := 0, debt := none })
    let debts (u : State) (g : Nat) (y : Thread) : Prop := (thr u g).debt =
      if (thr u g).ent < y.rq then some (y.debt.getD s.time) else none
    (let u := joinEnt s t
     same u ∧ (∀ n, (∀ y, (n, y) ∉ hs) → kfind u.threads n = kfind s.threads n) ∧
     (thr u t).ent = max 1 (min x.rq (q - (hs.length - 1))) ∧ debts u t x ∧
     (entSum u p c ≤ q ∨ ∀ y ∈ hs, y.1 ≠ t → (thr u y.1).ent ≤ 1) ∧
     ∀ y ∈ hs, y.1 ≠ t → (thr u y.1).ent = y.2.ent ∧ (thr u y.1).debt = y.2.debt ∨
       (thr u y.1).ent < y.2.ent ∧ debts u y.1 y.2 ∧ 1 ≤ (thr u y.1).ent ∧ ((thr u y.1).ent = 1 ∨ entSum u p c = q) ∧
         ∀ z ∈ hs, z.1 ≠ t → y.2.ent < z.2.ent ∨ (y.2.ent = z.2.ent ∧ y.1 < z.1) → (thr u z.1).ent = 1) ∧
    (let u := leaveEnt s p c
     same u ∧ (∀ n, (∀ y, (n, y) ∉ hs) → kfind u.threads n = kfind s.threads n) ∧
     (q ≤ entSum u p c ∨ ∀ y ∈ hs, y.2.rq ≤ (thr u y.1).ent) ∧
     ∀ y ∈ hs, (thr u y.1).ent = y.2.ent ∧ (thr u y.1).debt = y.2.debt ∨
       y.2.ent < (thr u y.1).ent ∧ debts u y.1 y.2 ∧ ((thr u y.1).ent = y.2.rq ∨ entSum u p c = q) ∧
         ∀ z ∈ hs, z.2.ent < z.2.rq → z.2.debt.getD 0 < y.2.debt.getD 0 ∨ (z.2.debt.getD 0 = y.2.debt.getD 0 ∧ z.1 < y.1) →
           (thr u z.1).ent = z.2.rq) ∧
    (let v := joinEnt (setThr s t { x with rq := rq }) t
     setRequest s t rq = if rq < x.rq then leaveEnt v p c else v)) ∧
  (∀ (s : State) (f : VFields),
      let r := (reg s (extReg f)).toNat
      let k := ceilingFor (spillRoom s (myPool s) (myCtx s)) r
      (VecGoes s false [f.s, extReg f] [] →
        let live := unitLive s (16 + myPool s)
        (r = 0 → settled (my s) = true → exec (.vreq f) s = .next (advance (setReg (releaseVec s (me s)) f.s 0))) ∧
        (r = 0 → settled (my s) = false → exec (.vreq f) s = .next (waitHere s)) ∧
        (r ≠ 0 → (my s).vceil ≠ 0 ∨ (live = true ∧ k = 0) → ∃ t, exec (.vreq f) s = .next t ∧ Wrote s t f.s 0) ∧
        (r ≠ 0 → (my s).vceil = 0 → live = false → exec (.vreq f) s = .next (waitHere s)) ∧
        (r ≠ 0 → (my s).vceil = 0 → live = true → k ≠ 0 → exec (.vreq f) s = .next (advance (setReg (joinEnt (modMy s (fun x => { x with
          vceil := k, gvl := 0, vl := 0, rq := k, slots := List.replicate k Slice.zero, lanes := [], lost := []
          debt := none })) (me s)) f.s (BitVec.ofNat 64 k)))) ∧
        (f.vd.toNat < 8 → ∃ t, exec (.qset f) s = .next t ∧ ChangedOwn s t (fun x => { x with
          streams := x.streams.set! f.vd.toNat
            { offset := reg s f.s, stride := (reg s (extReg f)).extractLsb' 0 32, seg := extSeg f
              esize := if cbits f.fmt.toNat = 8 then 0 else if cbits f.fmt.toNat = 16 then 1 else 2 } }))) ∧
      (VecGoes s false [] [] →
        ((my s).vceil = 0 → ∃ t, exec .vrel s = .next t ∧ Retired s s t (.next s) ∧ BytesKept s t) ∧
        ((my s).vceil ≠ 0 → settled (my s) = true → exec .vrel s = .next (advance (releaseVec s (me s)))) ∧
        ((my s).vceil ≠ 0 → settled (my s) = false → exec .vrel s = .next (waitHere s))) ∧
      (VecGoes s true [(vFields s.ir).s] [] → ∃ t, exec .vseed s = .next t ∧ ChangedOwn s t (fun x => { x with
        slots := x.slots.mapIdx (fun j sl => { sl with
          rst := (reg s (vFields s.ir).s).extractLsb' 0 16 ^^^ BitVec.ofNat 16 j }) })) ∧
      (VecGoes s false [f.s] [] →
        (∃ t, exec (.carryr f) s = .next t ∧ Wrote s t f.s ((my s).carry.setWidth 64)) ∧
        ∃ t, exec (.carryw f) s = .next t ∧ ChangedOwn s t (fun x => { x with carry := (reg s f.s).extractLsb' 0 32 }))) ∧
  (∀ (room r : Nat),
      let k := ceilingFor room r
      let want := min r 1024
      (144 * want ≤ room → k = want) ∧
        (room < 144 * want → k % 16 = 0 ∧ 144 * k ≤ room ∧ k < want ∧ ∀ j, j % 16 = 0 → j < want → 144 * j ≤ room → j ≤ k))

/-- VSETL, VYIELD and SMLOOP (R174, R176, R197, R198, R203, R204): each is a grant point, at which the thread goes on with its
grant refitted, or parks, and at which it first waits for its vector loads and its matrix queue (R174). That it waits while its pool is
not live is the model's choice (R23; log 36).

What the refitting makes of the grant (R174 steps 3 and 4, R176, R178): once slots that are owed lanes have been placed where lanes
are free (R187), GVL becomes the lesser of the entitlement and VCEIL, as far as the quota and the lanes that have a free context slot
and are not the thread's let it grow, and with 0 the thread parks. Slots given up are the highest, and each new slot takes a lane of
its own; no element, mask or generator changes, nor any other thread. That the other slots keep their lanes is the model's choice
(log 8). -/
def Obligations.GrantPoints : Prop :=
  (∀ s : State,
    let t := me s
    let u := settlePool s (poolOf t)
    let x := my u
    let free := (List.range 1024).filter (laneFree u t)
    let avail := min (quotaOf u (poolOf t) x.ctx - lanesHeld u (poolOf t) x.ctx) free.length
    let new := min (min x.ent x.vceil) (x.gvl + avail)
    u = { s with threads := u.threads, owed := u.owed } ∧
    (∀ j, kfind u.threads j = (kfind s.threads j).map (fun y =>
      { y with lanes := (thr u j).lanes, lost := (thr u j).lost, placing := (thr u j).placing })) ∧
    (new = 0 → regrant s = none) ∧
    (new ≠ 0 → ∃ v, regrant s = some v ∧ v = { u with threads := v.threads, cores := v.cores, owed := v.owed } ∧
      (∀ k, core v k = { core u k with trace := (core v k).trace }) ∧ (∀ j, j ≠ t → kfind v.threads j = kfind u.threads j) ∧
      my v = { x with gvl := new, lanes := (my v).lanes } ∧
      (new < x.gvl → (my v).lanes = x.lanes.take new) ∧
      (x.gvl ≤ new → ∃ l, (my v).lanes = x.lanes ++ l ∧ l.length = new - x.gvl ∧ l.Nodup ∧ ∀ k ∈ l, k ∈ free))) ∧
  ∀ (s u : State) (f : VFields) (c : Reg) (mask : BitVec 8) (off : BitVec 32),
    let ready := settled (my s) && unitLive s (16 + myPool s)
    (VecGoes s true [f.s, extReg f] [] → ready = false →
      exec (.vsetl f) s = .next (waitHere s) ∧ exec (.vyield f) s = .next (waitHere s)) ∧
    (ready = true → VecGoes s true [f.s, extReg f] [] →
      let n := (reg s (extReg f)).toNat
      let asked := setRequest s (me s) (min (max n 1) (my s).vceil)
      (grantsTo s u → exec (.vsetl f) s = .next (advance (setReg (modMy u (fun x => { x with vl := min n (my u).gvl })) f.s
        (BitVec.ofNat 64 (min n (my u).gvl))))) ∧
      ((my s).mvl = 0 → regrant s = none → exec (.vsetl f) s = .next (setCond s .parkedGrant)) ∧
      (grantsTo asked u → exec (.vyield f) s = .next (advance (setReg (modMy u (fun x => { x with vl := min x.vl x.gvl })) f.s
        (BitVec.ofNat 64 (my u).gvl)))) ∧
      ((my asked).mvl = 0 → regrant asked = none → exec (.vyield f) s = .next (setCond s .parkedGrant))) ∧
    (VecGoes s true [c] [] →
      let new := (reg s c).toNat - (my s).vl
      let stall := match (my s).watch with | some w => decide (w.pc = pcOf s ∧ w.count ≤ new) | none => false
      let struck := match (my s).watch with | some w => w.strike | none => false
      let stepped := modMy s (fun x => { x with
        streams := x.streams.mapFinIdx (fun k q _ => if mask.getLsbD k then q.strip x.vl else q) })
      ((stall && struck) = true → exec (.smloop c mask off) s = .next (takeTrap s 4 (my s).gvl (reg s c))) ∧
      ((stall && struck) = false → ready = false → exec (.smloop c mask off) s = .next (waitHere s)) ∧
      ((stall && struck) = false → ready = true → (my stepped).mvl = 0 → regrant stepped = none →
        exec (.smloop c mask off) s = .next (setCond s .parkedGrant)) ∧
      ((stall && struck) = false → ready = true → grantsTo stepped u →
        (new = 0 → exec (.smloop c mask off) s = .next (advance (setReg (modMy u (fun x => { x with
          watch := none, vl := 0 })) c 0))) ∧
        (new ≠ 0 → exec (.smloop c mask off) s = .next (jump (setReg (modMy u (fun x => { x with
          watch := some { pc := pcOf s, count := new, strike := stall }, vl := min new x.gvl })) c (BitVec.ofNat 64 new))
          (pcOf s + off.signExtend 64 * 8)))))

/-! ### Vector words -/

/-- The element-wise loads (R169, R170, R205, R206): each active element takes its little-endian value, and nothing else
changes but caches and the record of who has read queued writes. A cause stops the word, it waits for an earlier store that must be
performed first, and a poisoned byte takes INTEG (R84, R282). What a load through a non-native view needs of a line's owner is brought
home first (R105, R272).

A load whose response stays outstanding retires, and its elements are written when it arrives (R184). That it takes their values as
it is accepted is the model's choice (log 2). A form that is illegal where it stands, or whose stream does not fit, takes ILL (R28,
R45, R133, R193, R206). -/
def Obligations.VectorLoads : Prop :=
  ∀ (s : State) (f : VFields), ∀ p ∈ vecMemForms f,
    (vecIllegal s true p.2.2.1 → exec p.1 s = .next (takeIll s)) ∧
    (VecGoes s true p.2.2.1 (f.vd :: p.2.2.2.1) →
      let w := cbits f.fmt.toNat / 8
      let es := actives (my s) f
      let offs := es.map (p.2.2.2.2.2 s w)
      let all := (offs.map (elemRefs s (extSeg f) w)).flatten
      let b := served s all
      let l := es.zip (offs.map (fun o => leNat (bytesOf b (elemRefs s (extSeg f) w o))))
      (p.2.2.2.2.1 s = false → exec p.1 s = .next (takeIll s)) ∧
      (p.2.2.2.2.1 s = true →
        (VecLoadGoes s (extSeg f) w true offs → ∃ u t, exec p.1 s = .next t ∧ CachesOnly b u ∧
          VecWrote s u t f.vd f.fmt.toNat l id) ∧
        (VecLoadReady s (extSeg f) w true offs → s.defer = true → es ≠ [] → ∃ u t, exec p.1 s = .next t ∧ CachesOnly b u ∧
          BytesKept b t ∧ Retired s { u with owed := u.owed ++ [ev .vectorLoadArrival (me s)] } t
            (.own s (fun x => { x with vloads := x.vloads ++ [{ vd := f.vd.toNat, fmt := f.fmt.toNat, elems := l }] }))) ∧
        (∀ c, vecCause s (extSeg f) 0 w true offs = some c → exec p.1 s = .next (takeCause s c)) ∧
        (vecCause s (extSeg f) 0 w true offs = none →
          all.any (fun r => mustWait s s.cur s.stores r.kind false [] none) = true → exec p.1 s = .next (waitHere s)) ∧
        (vecCause s (extSeg f) 0 w true offs = none →
          all.any (fun r => mustWait s s.cur s.stores r.kind false [] none) = false →
          (underRefs s all).any (poisoned s) = true → exec p.1 s = .next (takeTrap s 5 0 0))))

/-- The element-wise stores (R78, R175, R205, R206): the bytes of each active element are stored at its address, in ascending
element order; no register changes. A cause stops the word, and a form that is illegal takes ILL. -/
def Obligations.VectorStores : Prop :=
  ∀ (s : State) (f : VFields), ∀ p ∈ vecMemForms f,
    (vecIllegal s true p.2.2.1 → exec p.2.1 s = .next (takeIll s)) ∧
    (VecGoes s true p.2.2.1 (f.vc :: p.2.2.2.1) →
      let w := cbits f.fmt.toNat / 8
      let es := actives (my s) f
      let off (e : Nat) : Nat := p.2.2.2.2.2 s w e
      let bytes := es.flatMap (fun e => (elemRefs s (extSeg f) w (off e)).zip (leBytes w (elem (my s) f.vc f.fmt.toNat e)))
      let put := (bytes.filter (fun x => x.1.has)).map (fun x => (x.1.loc, x.2))
      (p.2.2.2.2.1 s = true → vecCause s (extSeg f) 1 w true (es.map off) = none →
        ∃ u t, exec p.2.1 s = .next t ∧ StoreAccepted s u t put) ∧
      (∀ c, p.2.2.2.2.1 s = true → vecCause s (extSeg f) 1 w true (es.map off) = some c →
        exec p.2.1 s = .next (takeCause s c)) ∧
      (p.2.2.2.2.1 s = false → exec p.2.1 s = .next (takeIll s)))

/-- VLDL and VSTL (R207): slots 0 to VL − 1 and consecutive words of the context's window of the LSP.

VLDSX and VSTSX (R64, R208): whole blocks, each its entry and sixteen elements packed as Table 3.2 has them. A word that is illegal where
it stands takes ILL. With VL = 0 each of the four retires and moves nothing.

A VLDSX waits for an earlier store that must be performed first, and a poisoned byte takes INTEG (R84, R282); one whose response stays
outstanding retires, its entries written, and its elements are written when it arrives (R184). That the entries are written as it is
accepted is the model's choice (log 2), and so is that TVAL of a block across two pages is the first byte that meets the cause (log
38). -/
def Obligations.WindowAndBlockWords : Prop :=
  (∀ (s : State) (f : VFields), vecIllegal s true [f.s] →
      ∀ i ∈ [Instr.vldl f, .vstl f, .vldsx f, .vstsx f], exec i s = .next (takeIll s)) ∧
  (∀ (s : State) (f : VFields),
      let vl := (my s).vl
      let off := reg s f.s
      let lo := (lspWindow s).1 + off.toNat
      let fits := off.toNat + 4 * vl ≤ (lspWindow s).2
      let ws := (List.range vl).map (fun j => leNat ((span (lo + 4 * j) 4).map (getLoc s s.cur (myDie s))))
      let bytes := (List.range vl).flatMap (fun j => leBytes 4 (elem (my s) f.vc 0 j))
      (VecGoes s true [f.s] [f.vd] → vl = 0 → ∃ t, exec (.vldl f) s = .next t ∧ Retired s s t (.next s) ∧ BytesKept s t) ∧
      (VecGoes s true [f.s] [f.vc] → vl = 0 → ∃ t, exec (.vstl f) s = .next t ∧ Retired s s t (.next s) ∧ BytesKept s t) ∧
      (VecGoes s true [f.s] [f.vd] → vl ≠ 0 →
        (fits → off.toNat % 4 = 0 →
          ∃ t, exec (.vldl f) s = .next t ∧ VecWrote s s t f.vd 0 ((List.range vl).zip ws) id) ∧
        (fits → off.toNat % 4 ≠ 0 → exec (.vldl f) s = .next (takeTrap s 3 0 off)) ∧
        (¬fits → exec (.vldl f) s = .next (takeTrap s 2 0 off))) ∧
      (VecGoes s true [f.s] [f.vc] → vl ≠ 0 →
        (fits → off.toNat % 4 = 0 →
          ∃ u t, exec (.vstl f) s = .next t ∧ StoreAccepted s u t ((span lo bytes.length).zip bytes)) ∧
        (fits → off.toNat % 4 ≠ 0 → exec (.vstl f) s = .next (takeTrap s 3 128 off)) ∧
        (¬fits → exec (.vstl f) s = .next (takeTrap s 2 128 off)))) ∧
  (∀ (s : State) (f : VFields),
      let fmt := f.fmt.toNat
      let w := sxM fmt + 1
      let n := sxBytes fmt
      let bs := List.range (numElems (my s) fmt / 16)
      let offs := bs.map (fun (b : Nat) => (((reg s f.s).toNat + b * n) % 2 ^ 64 : Nat))
      let all := (offs.map (elemRefs s (extSeg f) n)).flatten
      let b := served s all
      let read (o : Nat) : List Byte := bytesOf b (elemRefs s (extSeg f) n o)
      let l := (bs.zip (offs.map read)).flatMap (fun p => (List.range 16).map (fun i =>
        (16 * p.1 + i, leNat (p.2.drop 2) / 2 ^ (i * w) % 2 ^ w)))
      let ent (k b : Nat) (x : Thread) : BitVec 16 := scEntry x k b
      (VecGoes s true [f.s] [f.vd] → VecLoadGoes s (extSeg f) n false offs → f.va.toNat < 4 →
        ∃ u t, exec (.vldsx f) s = .next t ∧ CachesOnly b u ∧
          VecWrote s u t f.vd fmt l (fun x => { x with sc := (my t).sc }) ∧
          (∀ k b, k < 4 → ent k b (my t) = if k = f.va.toNat ∧ b ∈ bs then
              BitVec.ofNat 16 (leNat ((read (((reg s f.s).toNat + b * n) % 2 ^ 64)).take 2)) else ent k b (my s))) ∧
      (VecGoes s true [f.s] [f.vd] → VecLoadReady s (extSeg f) n false offs → f.va.toNat < 4 → s.defer = true → bs ≠ [] →
        ∃ u t, exec (.vldsx f) s = .next t ∧ CachesOnly b u ∧ BytesKept b t ∧
          Retired s { u with owed := u.owed ++ [ev .vectorLoadArrival (me s)] } t (.own s (fun x => { x with
            sc := (my t).sc, vloads := x.vloads ++ [{ vd := f.vd.toNat, fmt := fmt, elems := l }] })) ∧
          (∀ k b, k < 4 → ent k b (my t) = if k = f.va.toNat ∧ b ∈ bs then
              BitVec.ofNat 16 (leNat ((read (((reg s f.s).toNat + b * n) % 2 ^ 64)).take 2)) else ent k b (my s))) ∧
      (VecGoes s true [f.s] [f.vd] → vecCause s (extSeg f) 0 n false offs = none →
        (all.any (fun r => mustWait s s.cur s.stores r.kind false [] none) = true → exec (.vldsx f) s = .next (waitHere s)) ∧
        (all.any (fun r => mustWait s s.cur s.stores r.kind false [] none) = false → (underRefs s all).any (poisoned s) = true →
          exec (.vldsx f) s = .next (takeTrap s 5 0 0))) ∧
      (VecGoes s true [f.s] [f.vd] → (my s).vl = 0 → f.va.toNat < 4 →
        ∃ u t, exec (.vldsx f) s = .next t ∧ CachesOnly s u ∧ Retired s u t (.next s) ∧ BytesKept s t) ∧
      (VecGoes s true [f.s] [f.vc] → (my s).vl = 0 →
        ∃ t, exec (.vstsx f) s = .next t ∧ StoreAccepted s (acceptPieces s s.cur []) t []) ∧
      (VecGoes s true [f.s] [f.vd] → ∀ c, vecCause s (extSeg f) 0 n false offs = some c →
        exec (.vldsx f) s = .next (takeCause s c)) ∧
      (VecGoes s true [f.s] [f.vc] → ∀ c, vecCause s (extSeg f) 1 n false offs = some c →
        exec (.vstsx f) s = .next (takeCause s c)) ∧
      (VecGoes s true [f.s] [f.vc] → vecCause s (extSeg f) 1 n false offs = none →
        let block (b : Nat) : List Byte := leBytes 2 (ent f.va.toNat b (my s)).toNat ++
          leBytes (2 * w) (((List.range 16).map (fun i => elem (my s) f.vc fmt (16 * b + i) % 2 ^ w * 2 ^ (i * w))).sum)
        let bytes := (bs.zip offs).flatMap (fun p => (elemRefs s (extSeg f) n p.2).zip (block p.1))
        ∃ u t, exec (.vstsx f) s = .next t ∧
          StoreAccepted s u t ((bytes.filter (fun x => x.1.has)).map (fun x => (x.1.loc, x.2)))))

/-- VAMO (R209): an atomic per active element, in ascending order, each seeing those before it; vD takes the old values. A cause stops
it, it waits for earlier writes that must be performed first, a poisoned byte takes INTEG (R282), and an illegal one takes ILL. One
whose response stays outstanding has its effect at once, and its thread awaits the old values (R103, R121). That it waits where the
atomic unit at its home is not live is the model's choice (R23; log 36). -/
def Obligations.VectorAtomics : Prop :=
  ∀ (s : State) (f : VFields),
    (vecIllegal s true [f.s] → exec (.vamo f) s = .next (takeIll s)) ∧
    (VecGoes s true [f.s] [f.vd, f.vb, f.vc] →
      let es := actives (my s) f
      let offs := es.map (fun e => (((reg s f.s).toNat + elem (my s) f.vb f.fmt.toNat e) % 2 ^ 64 : Nat))
      let refs := offs.flatMap (elemRefs s (extSeg f) 4)
      let k := match f.va.toNat with
        | 4 => if f.fmt = 7 then 6 else 4
        | 5 => if f.fmt = 7 then 7 else 5
        | 6 => 8
        | j => j
      (es = [] → ∃ t, exec (.vamo f) s = .next t ∧ Retired s s t (.next s) ∧ BytesKept s t) ∧
      (es ≠ [] → (∀ c, vecCause s (extSeg f) 2 4 true offs = some c → exec (.vamo f) s = .next (takeCause s c)) ∧
        (vecCause s (extSeg f) 2 4 true offs = none →
          (refs.any (fun r => atomicWaits s r.kind [r.loc] none) = true → exec (.vamo f) s = .next (waitHere s)) ∧
          (refs.any (fun r => atomicWaits s r.kind [r.loc] none) = false →
            ((underRefs s refs).any (poisoned s) = true → exec (.vamo f) s = .next (takeTrap s 5 0 0)) ∧
            ((underRefs s refs).any (poisoned s) = false →
              let r := vamoAll k ((es.zip offs).map (fun p =>
                (p.1, (seg s (extSeg f)).base.toNat + p.2, elem (my s) f.vc f.fmt.toNat p.1))) s
              (s.defer = false → exec (.vamo f) s = .next (advance (modMy r.2 (fun x =>
                putElems f.fmt.toNat f.vd x (r.1.map (fun p => (p.1, p.2.2.toNat))))))) ∧
              (s.defer = true → exec (.vamo f) s = .next (owe (setCond r.2
                (.awaiting (.vamo f.vd.toNat f.fmt.toNat r.1 r.2.time))) [evA .atomicResponse s.cur])))))))

/-- The element-wise integer words and compares (R57, R210 to R212): active elements take the result, inactive ones stay, and
nothing else changes. -/
def Obligations.VectorInteger : Prop :=
  ∀ (s : State) (f : VFields),
    let a (e : Nat) : Nat := elem (my s) f.va f.fmt.toNat e
    let b (e : Nat) : Nat := operandB s f e
    (VecGoes s true [f.s] [f.vd, f.va, f.vb] → ∀ p ∈ vecIntForms f, ∃ t, exec p.1 s = .next t ∧
      VecWrote s s t f.vd f.fmt.toNat ((actives (my s) f).map (fun e => (e, p.2 (a e) (b e)))) id) ∧
    (VecGoes s true [f.s] [f.va, f.vb] → f.vd.toNat < 8 → ∀ p ∈ vecIntCompares f, ∃ t, exec p.1 s = .next t ∧
      MaskWrote s t f.vd f.fmt.toNat ((actives (my s) f).map (fun e => (e, p.2 (a e) (b e)))) id) ∧
    (vecIllegal s true [f.s] → (∀ p ∈ vecIntForms f, exec p.1 s = .next (takeIll s)) ∧
      ∀ p ∈ vecIntCompares f, exec p.1 s = .next (takeIll s))

/-- The element-wise floating words and compares (R61, R70 to R73, R210): the flags of the active elements are set together;
where one is enabled the word takes FPE and writes no element. A word that is illegal where it stands, or that rounds by .dyn while
FCSR names RST (R39), takes ILL. That a fused form whose sum holds a quiet NaN and infinities of both signs raises no NV is
the model's choice (log 34). -/
def Obligations.VectorFloat : Prop :=
  (∀ (s : State) (f : VFields),
    (vecIllegal s true [f.s] → (∀ p ∈ vecFloatForms f, exec p.1 s = .next (takeIll s)) ∧
      ∀ p ∈ vecFloatCompares f, exec p.1 s = .next (takeIll s)) ∧
    (rndAdmits (my s) f.rnd = false →
      (∀ p ∈ vecFloatForms f, VecGoes s true [f.s] p.2.1 → exec p.1 s = .next (takeIll s)) ∧
      ∀ p ∈ vecFloatCompares f, VecGoes s true [f.s] [f.va, f.vb] → exec p.1 s = .next (takeIll s))) ∧
  ∀ (s : State) (f : VFields), rndAdmits (my s) f.rnd = true →
    let m := modeOf (rndOf (my s) f.rnd)
    let es := actives (my s) f
    (∀ p ∈ vecFloatForms f, VecGoes s true [f.s] p.2.1 →
      let rs := es.map (p.2.2 s m)
      let fl := flagsOf rs
      (enabledOf (my s) &&& fl = 0 → ∃ t, exec p.1 s = .next t ∧
        VecWrote s s t f.vd f.fmt.toNat (es.zip (rs.map (·.1))) (addFlags · fl)) ∧
      (enabledOf (my s) &&& fl ≠ 0 → exec p.1 s = .next (takeTrap (modMy s (addFlags · fl)) 0xA fl 0))) ∧
    (∀ p ∈ vecFloatCompares f, VecGoes s true [f.s] [f.va, f.vb] → f.vd.toNat < 8 →
      let rs := es.map (p.2 s)
      let fl := flagsOf rs
      (enabledOf (my s) &&& fl = 0 → ∃ t, exec p.1 s = .next t ∧
        MaskWrote s t f.vd f.fmt.toNat (es.zip (rs.map (·.1))) (addFlags · fl)) ∧
      (enabledOf (my s) &&& fl ≠ 0 → exec p.1 s = .next (takeTrap (modMy s (addFlags · fl)) 0xA fl 0)))

/-- VCVT, VQUANT, VDEQ and VMAXEXP (R69, R213, R242 to R244): under RST the generator of each active element's slot steps once, in
ascending order, and no other does. Where one is raised they take FPE and write nothing, and where they are illegal they take ILL.
What RST gives below FP16's smallest normal is the model's choice (log 34). -/
def Obligations.VectorConversions : Prop :=
  (∀ (s : State) (f : VFields),
    (vecIllegal s true [] → ∀ i ∈ [Instr.vcvt f, .vquant f, .vdeq f, .vmaxexp f], exec i s = .next (takeIll s)) ∧
    (VecGoes s true [] [f.vd, f.va] → rndAdmits (my s) f.rnd = false →
      exec (.vdeq f) s = .next (takeIll s) ∧
        (narrows (f.ext.extractLsb' 0 5).toNat f.fmt.toNat = false → exec (.vcvt f) s = .next (takeIll s)))) ∧
  ∀ (s : State) (f : VFields),
    let dst := f.fmt.toNat
    let code := rndOf (my s) f.rnd
    let vl := (my s).vl
    (VecGoes s true [] [f.vd, f.va] →
      (let src := (f.ext.extractLsb' 0 5).toNat
       let es := activeIn (my s) f dst (vl * min (perSlot dst) (perSlot src))
       let r := convertAll (code == 4) (modeOf code) dst
         (fun m e => convert src dst (f.ext.getLsbD 5) m (elem (my s) f.va src e)) es (my s)
       let fl := flagsOf (r.1.map (·.2))
       (narrows src dst = true ∨ rndAdmits (my s) f.rnd = true) →
         (enabledOf (my s) &&& fl = 0 → ∃ t, exec (.vcvt f) s = .next t ∧
           VecWrote s s t f.vd dst (r.1.map (fun p => (p.1, p.2.1))) (fun x => { addFlags x fl with slots := r.2.slots })) ∧
         (enabledOf (my s) &&& fl ≠ 0 → exec (.vcvt f) s = .next (takeTrap (modMy s (addFlags · fl)) 0xA fl 0))) ∧
      (let src := f.ext.toNat
       let es := activeIn (my s) f dst (vl * min (perSlot dst) (perSlot src))
       let r := quantAll f f.vb.toNat (code == 4) (modeOf code) (my s) es (my s)
       (enabledOf (my s) &&& r.2.1 = 0 → ∃ t, exec (.vquant f) s = .next t ∧ VecWrote s s t f.vd dst r.1
         (fun x => { addFlags x r.2.1 with slots := r.2.2.slots, sc := r.2.2.sc })) ∧
       (enabledOf (my s) &&& r.2.1 ≠ 0 → exec (.vquant f) s = .next (takeTrap (modMy s (addFlags · r.2.1)) 0xA r.2.1 0))) ∧
      (let src := f.ext.toNat
       let es := activeIn (my s) f dst (vl * min (perSlot dst) (perSlot src))
       let rs := es.map (fun e =>
         let ent := scEntry (my s) f.vb.toNat (e / 16)
         fcvt (fmtOf dst) (modeOf code)
           (sxVal src (ent.extractLsb' 0 8).toNat (ent.extractLsb' 8 8).toNat (e % 16) (elem (my s) f.va src e)))
       rndAdmits (my s) f.rnd = true →
         (enabledOf (my s) &&& flagsOf rs = 0 → ∃ t, exec (.vdeq f) s = .next t ∧
           VecWrote s s t f.vd dst (es.zip (rs.map (·.1))) (addFlags · (flagsOf rs))) ∧
         (enabledOf (my s) &&& flagsOf rs ≠ 0 →
           exec (.vdeq f) s = .next (takeTrap (modMy s (addFlags · (flagsOf rs))) 0xA (flagsOf rs) 0)))) ∧
    (VecGoes s true [] [f.va] → f.vd.toNat < 4 → ∃ t, exec (.vmaxexp f) s = .next t ∧
      ChangedOwn s t (fun x => { x with sc := (my t).sc }) ∧
      ∀ k b, k < 4 → scEntry (my t) k b =
        if k = f.vd.toNat ∧ b < (numElems (my s) dst + 15) / 16 then
          blockEntry (((actives (my s) f).filter (fun e => e / 16 == b)).map (fun e =>
            (e % 16, fdecode (fmtOf dst) (elem (my s) f.va dst e)))) else scEntry (my s) k b)

/-- The permutes (R7, R65, R214): each is computed from its sources as they stood, each element as wide as its format's values:
where VBCAST takes more bits from its register than an SX element has, those above are written as zero (R65), which is the model's reading (log 25).

The mask words (R217): byte by byte over the strip, the bytes of slots VL and above undisturbed; the count of the bits
set, and the lowest. A word that is illegal where it stands takes ILL. -/
def Obligations.PermutesAndMasks : Prop :=
  (∀ (s : State) (f : VFields),
      (vecIllegal s true [f.s] → (∀ p ∈ permuteForms f, exec p.1 s = .next (takeIll s)) ∧
        ∀ i ∈ [Instr.vcompress f, .mpopc f, .mfirst f], exec i s = .next (takeIll s)) ∧
      (vecIllegal s true [f.s, extReg f] → exec (.vext f) s = .next (takeIll s)) ∧
      (vecIllegal s true [] → ∀ p ∈ maskForms f, exec p.1 s = .next (takeIll s))) ∧
  (∀ (s : State) (f : VFields),
      (∀ p ∈ permuteForms f, VecGoes s true [f.s] (f.vd :: p.2.1) → ∃ t, exec p.1 s = .next t ∧
        VecWrote s s t f.vd f.fmt.toNat ((actives (my s) f).filterMap (fun e => (p.2.2 s e).map (fun v => (e, v)))) id) ∧
      (VecGoes s true [f.s] [f.vd, f.va] →
        let vals := (actives (my s) f).map (fun e => elem (my s) f.va f.fmt.toNat e % 2 ^ valueBits f.fmt.toNat)
        ∃ t, exec (.vcompress f) s = .next t ∧ BytesKept s t ∧
          ElemsSet (my s) (my t) f.vd f.fmt.toNat ((List.range vals.length).zip vals) ∧
          Retired s s t { reg := some (f.s, BitVec.ofNat 64 vals.length), seg := none, pc := pcOf s + 8
                          thread := fun x => { x with slots := (my t).slots } }) ∧
      (VecGoes s true [f.s, extReg f] [f.va] →
        let i := (reg s (extReg f)).toNat
        ∃ t, exec (.vext f) s = .next t ∧ Wrote s t f.s (if i < (my s).vceil * perSlot f.fmt.toNat then
          BitVec.ofInt 64 (intOf f.fmt.toNat (elem (my s) f.va f.fmt.toNat i % 2 ^ valueBits f.fmt.toNat)) else 0))) ∧
  (∀ (s : State) (f : VFields), VecGoes s true [f.s] [] →
      (∀ p ∈ maskForms f, f.vd.toNat < 8 → f.va.toNat < 8 → f.vb.toNat < 8 → ∃ t, exec p.1 s = .next t ∧
        ChangedOwn s t (fun x => { x with slots := (my t).slots }) ∧
        (my t).slots.map (·.v) = (my s).slots.map (·.v) ∧ (my t).slots.map (·.rst) = (my s).slots.map (·.rst) ∧
        ∀ (k : VReg) (j : Nat), j < (my s).slots.length → k.toNat < 8 → maskByte (my t) k j =
          if k = f.vd ∧ j < (my s).vl then p.2 (maskByte (my s) f.va j) (maskByte (my s) f.vb j) else maskByte (my s) k j) ∧
      (let l := (List.range (numElems (my s) f.fmt.toNat)).filter (mbit (my s) f.va.toNat f.fmt.toNat)
       (∃ t, exec (.mpopc f) s = .next t ∧ Wrote s t f.s (BitVec.ofNat 64 l.length)) ∧
         ∃ t, exec (.mfirst f) s = .next t ∧ Wrote s t f.s (l.head?.elim (BitVec.allOnes 64) (BitVec.ofNat 64))))

/-- The reductions and the recurrence (R74, R215, R216). The sum of 32-bit integers is the start operand and every active
element added modulo 2^32; the others combine by the tree of R74. An enabled flag raised takes FPE with nothing written, and a
word that is illegal where it stands, or rounds by .dyn while FCSR names RST (R39), takes ILL. -/
def Obligations.Reductions : Prop :=
  (∀ (s : State) (f : VFields),
    vecIllegal s true [] ∨ (VecGoes s true [] [f.vd, f.va, f.vb] ∧ rndAdmits (my s) f.rnd = false) →
      ∀ i ∈ [Instr.vredsum f, .vredmin f, .vredmax f, .vfredsum f, .vfredmin f, .vfredmax f, .vrecur f],
        exec i s = .next (takeIll s)) ∧
  ∀ (s : State) (f : VFields), VecGoes s true [] [f.vd, f.va, f.vb] → rndAdmits (my s) f.rnd = true →
    let fmt := f.fmt.toNat
    let x := my s
    let m := modeOf (rndOf x f.rnd)
    let start := elem x f.vb fmt 0
    let one (v : Nat) (fl : Flags) (i : Instr) : Prop :=
      (enabledOf x &&& fl = 0 → ∃ t, exec i s = .next t ∧ VecWrote s s t f.vd fmt [(0, v)] (addFlags · fl)) ∧
      (enabledOf x &&& fl ≠ 0 → exec i s = .next (takeTrap (modMy s (addFlags · fl)) 0xA fl 0))
    let r (comb : Nat → Nat → Nat × Flags) : Nat × Flags :=
      match tree comb 10 ((List.range (numElems x fmt)).map (fun e =>
          if guarded x f fmt e then some (elem x f.va fmt e) else none)) with
      | (some y, fl) => ((comb start y).1, fl ||| (comb start y).2)
      | (none, fl) => (start, fl)
    let v (y : Nat) : FVal := fdecode fmtF32 y
    let red (i : Instr) (comb : Nat → Nat → Nat × Flags) : Prop := one (r comb).1 (r comb).2 i
    (cbits fmt = 32 → x.vl ≤ 1024 →
      one ((start + ((actives x f).map (elem x f.va fmt)).sum) % 2 ^ 32) 0 (.vredsum f)) ∧
    red (.vredmin f) (fun a b => (wrap (cbits fmt) (min (intOf fmt a) (intOf fmt b)), 0)) ∧
    red (.vredmax f) (fun a b => (wrap (cbits fmt) (max (intOf fmt a) (intOf fmt b)), 0)) ∧
    red (.vfredsum f) (fun a b => fadd fmtF32 m (v a) (v b)) ∧
    red (.vfredmin f) (fun a b => fminmax fmtF32 false (v a) (v b)) ∧
    red (.vfredmax f) (fun a b => fminmax fmtF32 true (v a) (v b)) ∧
    (let q := recurAll (fun e p => recurStep fmt f.ext.toNat m p (elem x f.va fmt e) (elem x f.vb fmt e)) (actives x f)
       x.carry.toNat
     (enabledOf x &&& q.2.2 = 0 → ∃ t, exec (.vrecur f) s = .next t ∧ VecWrote s s t f.vd fmt q.1
       (fun x => { addFlags x q.2.2 with carry := BitVec.ofNat 32 q.2.1 })) ∧
     (enabledOf x &&& q.2.2 ≠ 0 → exec (.vrecur f) s = .next (takeTrap (modMy s (addFlags · q.2.2)) 0xA q.2.2 0)))

/-! ### Matrix gangs -/

/-- MMODE, TSHAPE and MEXIT (R220, R225 to R227). VL never exceeds GVL (R167), and threads of the pool that are owed lanes are looked at
again once a gang is left (R239, R240). Each waits for what is in flight (R237), and takes ILL where it is illegal. That MMODE of a
thread without a gang, and TSHAPE, wait while their pool is not live is the model's choice (R23; log 36).

The words that move an accumulator (R231 to R233): zeroed, a row or column to or from a vector register, and the whole of
it to and from the window of the LSP. A word that the gang has not yet performed stands in the matrix queue: a short word has
retired, while a long word's thread waits for the gang (R235). Without a gang each takes ILL (R234). -/
def Obligations.GangsAndAccumulators : Prop :=
  (∀ (s : State) (f : VFields),
      let row := (actives (my s) f).filter (· < (my s).mn)
      let i := (reg s f.s).toNat
      (VecGoes s true [f.s, extReg f] [] → settled (my s) = false ∨ ((my s).mvl = 0 ∧ unitLive s (16 + myPool s) = false) →
        exec (.mmode f) s = .next (waitHere s)) ∧
      (VecGoes s true [] [] → (my s).mvl ≠ 0 → (my s).mqueue ≠ [] → exec .mexit s = .next (waitHere s)) ∧
      (vecIllegal s true [f.s, extReg f] → exec (.mmode f) s = .next (takeIll s) ∧ exec (.tshape f) s = .next (takeIll s)) ∧
      (vecIllegal s true [] → exec .mexit s = .next (takeIll s)) ∧
      (vecIllegal s true [] ∨ (VecGoes s true [] [] ∧ (my s).mvl = 0) → exec (.mzero f) s = .next (takeIll s)) ∧
      (vecIllegal s true [f.s] ∨ (VecGoes s true [f.s] [f.vd, f.va] ∧ (my s).mvl = 0) →
        ∀ w ∈ [Instr.mvacc f, .mvcol f, .mldacc f, .mspill f, .mfill f], exec w s = .next (takeIll s)) ∧
      (GangReady s [f.s, extReg f] [] → settled (my s) = false ∨ unitLive s (16 + myPool s) = false →
        exec (.tshape f) s = .next (waitHere s)) ∧
      (GangReady s [] [] → ShortSent s (.mzero f) (.zero f.vd.toNat)) ∧
      (GangReady s [f.s] [f.vd] → i < (my s).mvl →
        ShortSent s (.mvacc f) (.moveRow f.va.toNat f.vd.toNat i row) ∧
        ShortSent s (.mvcol f) (.moveCol f.va.toNat f.vd.toNat i ((actives (my s) f).filter (· < (my s).mm)))) ∧
      (GangReady s [f.s] [f.va] → i < (my s).mvl → ShortSent s (.mldacc f)
        (.loadRow f.vd.toNat i (row.map (fun j => (j, elem (my s) f.va f.fmt.toNat j))))) ∧
      (GangReady s [f.s] [] → i + 4 * ((my s).mvl * (my s).mvl) ≤ (lspWindow s).2 → i % 128 = 0 →
        LongSent s (.mspill f) (.spill f.va.toNat i) ∧ LongSent s (.mfill f) (.fill f.vd.toNat i))) ∧
  (∀ (s : State) (f : VFields), settled (my s) = true →
      (VecGoes s true [f.s, extReg f] [] →
        ((my s).mvl ≠ 0 → ∃ t, exec (.mmode f) s = .next t ∧ Wrote s t f.s (BitVec.ofNat 64 ((my s).mvl / 8))) ∧
        ((my s).mvl = 0 → unitLive s (16 + myPool s) = true →
          let want := min (max (reg s (extReg f)).toNat 2) 32
          let g := (([32, 16, 8, 4, 2] : List Nat).find? (· ≤ want)).getD 2
          let u := settlePool (setRequest s (me s) (min (max (my s).rq (g * g)) (my s).vceil)) (myPool s)
          let pick := (edgeCap (min (my u).ent (my u).vceil)).bind (fun cap =>
            findGang u (me s) (edges.filter (fun e => decide (e ≤ min g cap))))
          (∀ e b, pick = some (e, b) → exec (.mmode f) s = .next (advance (setReg (takeBlock u e b) f.s (BitVec.ofNat 64 e)))) ∧
          (∀ v, pick = none → regrant u = some v → exec (.mmode f) s =
            .next (advance (setReg (modMy v (fun x => { x with vl := min x.vl x.gvl })) f.s 0))) ∧
          (pick = none → regrant u = none → exec (.mmode f) s = .next (setCond s .parkedGrant))) ∧
        ((my s).mvl ≠ 0 → unitLive s (16 + myPool s) = true →
          let dim (i : Nat) : Nat := ((reg s (extReg f)).extractLsb' (16 * i) 16).toNat
          let per (x : Thread) : Nat := min x.mvl (x.gvl * perSlot f.fmt.toNat)
          let cap := (edgeCap (min (my s).ent (my s).vceil)).getD 2
          let u := reshape (settlePool s (myPool s)) (min (edgeNeed f.fmt.toNat (max (dim 0) (dim 1))) cap)
          let mm := min (dim 0) (per (my u))
          let mn := min (dim 1) (per (my u))
          let mk := min (dim 2) 8
          exec (.tshape f) s = .next (advance (setReg (modMy u (fun x => { x with mm := mm, mn := mn, mkk := mk })) f.s
            (BitVec.ofNat 64 (mm + mn * 2 ^ 16 + mk * 2 ^ 32 + (my u).mvl / 8 * 2 ^ 48))))) ∧
        ((my s).mvl = 0 → exec (.tshape f) s = .next (takeIll s))) ∧
      (VecGoes s true [] [] →
        ((my s).mvl = 0 → ∃ t, exec .mexit s = .next t ∧ Retired s s t (.next s) ∧ BytesKept s t) ∧
        ((my s).mvl ≠ 0 → ∃ t, exec .mexit s = .next t ∧ BytesKept s t ∧
          Retired s { s with owed := t.owed } t (.own s (fun x => { x with
            mvl := 0, mm := 0, mn := 0, mkk := 0, acc0 := [], acc1 := [] })) ∧
          (∃ l, t.owed = s.owed ++ l) ∧
          ∀ n x, kfind s.threads n = some x → poolOf n = myPool s → x.lost ≠ [] → ev .slicePlaced n ∈ t.owed))) ∧
  (∀ (s : State) (f : VFields),
      let x := my s
      let i := (reg s f.s).toNat
      let word (k r c : Nat) : Nat := ((accOf x k).getD (r * x.mvl + c) 0).toNat
      let off := reg s f.s
      let bytes := 4 * (x.mvl * x.mvl)
      let fits := off.toNat + bytes ≤ (lspWindow s).2
      (GangGoes s [] [] → ∃ t, exec (.mzero f) s = .next t ∧
        ChangedOwn s t (fun x => setAcc x f.vd.toNat (List.replicate (x.mvl * x.mvl) 0))) ∧
      (GangGoes s [f.s] [f.vd] → i < x.mvl →
        (∃ t, exec (.mvacc f) s = .next t ∧
          VecWrote s s t f.vd 0 (((actives x f).filter (· < x.mn)).map (fun j => (j, word f.va.toNat i j))) id) ∧
        ∃ t, exec (.mvcol f) s = .next t ∧
          VecWrote s s t f.vd 0 (((actives x f).filter (· < x.mm)).map (fun r => (r, word f.va.toNat r i))) id) ∧
      (GangGoes s [f.s] [f.va] → i < x.mvl → ∃ t, exec (.mldacc f) s = .next t ∧
        ChangedOwn s t (fun y => setAcc y f.vd.toNat (((actives x f).filter (· < x.mn)).foldl
          (fun l j => l.set (i * x.mvl + j) (BitVec.ofNat 32 (elem x f.va f.fmt.toNat j))) (accOf y f.vd.toNat)))) ∧
      (GangGoes s [f.s] [f.vd] → x.mvl ≤ i → exec (.mvacc f) s = .next (takeIll s) ∧ exec (.mvcol f) s = .next (takeIll s)) ∧
      (GangGoes s [f.s] [] → fits → off.toNat % 128 = 0 →
        (let l := (accOf x f.va.toNat).flatMap (fun w => leBytes 4 w.toNat)
         ∃ u t, exec (.mspill f) s = .next t ∧
           StoreAccepted s u t ((span ((lspWindow s).1 + off.toNat) l.length).zip l)) ∧
        ∃ t, exec (.mfill f) s = .next t ∧ ChangedOwn s t (fun y => setAcc y f.vd.toNat ((List.range (x.mvl * x.mvl)).map (fun q =>
          BitVec.ofNat 32 (leNat ((span ((lspWindow s).1 + off.toNat + 4 * q) 4).map (getLoc s s.cur (myDie s)))))))) ∧
      (GangGoes s [f.s] [] → fits → off.toNat % 128 ≠ 0 → exec (.mspill f) s = .next (takeTrap s 3 128 off) ∧
        exec (.mfill f) s = .next (takeTrap s 3 0 off)) ∧
      (GangGoes s [f.s] [] → ¬fits → exec (.mspill f) s = .next (takeTrap s 2 128 off) ∧
        exec (.mfill f) s = .next (takeTrap s 2 0 off)))

/-- The outer products (R228 to R230, R235, R236): every element of rows below MM and columns below MN is updated, no other is, and the
flags are set; a word with an enabled flag raised takes FPE and commits nothing. MOPA8, and every outer product while a flag is
enabled, is a long word; the others are short. A word that is illegal where it stands, without a gang, or that rounds by .dyn while
FCSR names RST (R39), takes ILL. The flags of a sum that holds a quiet NaN and infinities of both signs are the model's choice (log
34). -/
def Obligations.OuterProducts : Prop :=
  (∀ (s : State) (f : VFields), vecIllegal s true [] →
    ∀ i ∈ [Instr.mopa f, .mops f, .mopa8 f], exec i s = .next (takeIll s)) ∧
  ∀ (s : State) (f : VFields),
    let run (n : Nat) (r : VReg) : List VReg := (List.range n).map (fun i => r + BitVec.ofNat 5 i)
    let sc (lo : Nat) : KMap (BitVec 16) :=
      if 13 ≤ f.fmt.toNat then (my s).sc.toList.getD (f.ext.extractLsb' lo 2).toNat [] else []
    ∀ p ∈ [(Instr.mopa f, 1, false), (.mops f, 1, true), (.mopa8 f, (my s).mkk, false)],
      let n := p.2.1
      let a := (run n f.va).map (vreg (my s))
      let b := (run n f.vb).map (vreg (my s))
      let at_ (i j : Nat) (old : BitVec 32) : BitVec 32 × Flags :=
        if i < (my s).mm ∧ j < (my s).mn ∧ n ≠ 0 then
          outerElem p.2.2 f.fmt.toNat (rndOf (my s) f.rnd) (sc 0) (sc 2) (a.zip b) old i j else (old, 0)
      let l := (accOf (my s) f.vd.toNat).mapIdx (fun q old => at_ (q / (my s).mvl) (q % (my s).mvl) old)
      let op : MatOp := .outer f.vd.toNat p.2.2 f.fmt.toNat (rndOf (my s) f.rnd) a b (sc 0) (sc 2)
      let vs := run n f.va ++ run n f.vb
      (VecGoes s true [] vs → (my s).mvl = 0 → exec p.1 s = .next (takeIll s)) ∧
      (GangReady s [] vs → rndAdmits (my s) f.rnd = false → exec p.1 s = .next (takeIll s)) ∧
      (GangReady s [] vs → rndAdmits (my s) f.rnd = true →
        if p.1 = .mopa8 f ∨ enabledOf (my s) ≠ 0 then LongSent s p.1 op else ShortSent s p.1 op) ∧
      (GangGoes s [] vs → rndAdmits (my s) f.rnd = true →
      (enabledOf (my s) &&& flagsOf l = 0 → ∃ t, exec p.1 s = .next t ∧
        ChangedOwn s t (fun x => addFlags (setAcc x f.vd.toNat (l.map (·.1))) (flagsOf l))) ∧
      (enabledOf (my s) &&& flagsOf l ≠ 0 → exec p.1 s =
        .next (trapThread (setCond (modMy s (addFlags · (flagsOf l))) (.inEngine s.ir)) (me s) 0xA (flagsOf l) 0)))

/-! ### The sampling array -/

/-- SAACQ and SAREL (R320, R327, R328): who owns the array of the die, and its state on a change of hands.

The commands of the array's queue (R329, R332): each enters the queue of eight and its word retires; a full queue holds it.
SAWAIT waits for an empty queue and reads the status, which doubleword 0 clears. A thread that does not own the array takes
ILL (R326). The step that runs a command is owed where the queue was empty. SALOAD reads after every earlier access of its thread
(R101): it waits until the thread's own writes are performed for every agent. SAACQ answers 2 for an array that is retired, and for one
that the map records absent, which is the model's choice (R23; log 25). -/
def Obligations.SamplingCommands : Prop :=
  (∀ (s : State),
      let d := myDie s
      let r := (vFields s.ir).s
      let mine := (mySa s).owner = some (me s) ∧ (mySa s).frozen = none
      (VecGoes s false [r] [] →
        (mine → ∃ t, exec .saacq s = .next t ∧ Wrote s t r 0) ∧
        (¬mine → unitLive s (saRec d) = false → ∃ t, exec .saacq s = .next t ∧ Wrote s t r 2) ∧
        (¬mine → unitLive s (saRec d) = true → ((mySa s).owner ≠ none ∨ (mySa s).frozen ≠ none) →
          ∃ t, exec .saacq s = .next t ∧ Wrote s t r 1) ∧
        (unitLive s (saRec d) = true → (mySa s).owner = none → (mySa s).frozen = none →
          ∃ t, exec .saacq s = .next t ∧ BytesKept s t ∧
            Retired s (modSa s d (fun _ => { SArray.reset with owner := some (me s), ctx := myCtx s })) t (.write s r 0))) ∧
      (VecGoes s false [] [] →
        (¬mine → ∃ t, exec .sarel s = .next t ∧ Retired s s t (.next s) ∧ BytesKept s t) ∧
        (mine → (mySa s).queue ≠ [] → exec .sarel s = .next (waitHere s)) ∧
        (mine → (mySa s).queue = [] → ∃ t, exec .sarel s = .next t ∧ BytesKept s t ∧
          Retired s (modSa s d (fun _ => SArray.reset)) t (.next s)))) ∧
  (∀ (s : State),
      let f := vFields s.ir
      let d := myDie s
      let a := mySa s
      let mine := a.owner = some (me s) ∧ a.frozen = none
      let queued (s : State) (c : SaCmd) (e : Instr) : State :=
        let u := modSa s d (fun a => { a with queue := a.queue ++ [c] })
        if a.queue = [] then owe u [(e, { Msg.empty with a := d, flag := true })] else u
      let commands : List (Instr × List Reg × SaCmd × Instr) :=
        [(.saseed, [f.s, extReg f], .seed ((reg s f.s).extractLsb' 0 16) ((reg s (extReg f)).getLsbD 0), .saseedRun),
         (.sabeta, [f.s], .beta ((reg s f.s).extractLsb' 0 16), .sabetaRun)] ++
        (if (reg s f.s).toNat < 2 ^ 32 then [(.sasweep, [f.s], .sweep (reg s f.s).toNat 0, .sweep)] else [])
      (∀ p ∈ commands, VecGoes s false p.2.1 [] → mine →
        (a.queue.length < 8 → ∃ t, exec p.1 s = .next t ∧ Retired s (queued s p.2.2.1 p.2.2.2) t (.next s) ∧ BytesKept s t) ∧
        (8 ≤ a.queue.length → exec p.1 s = .next (waitHere s))) ∧
      (VecGoes s false [f.s] [] → mine → 2 ^ 32 ≤ (reg s f.s).toNat → exec .sasweep s = .next (takeIll s)) ∧
      (VecGoes s false [f.s] [] → mine → (8 ≤ a.queue.length ∨ pendingOf s s.cur ≠ 0 ∨ ownQueued s s.cur = true) →
        exec .saload s = .next (waitHere s)) ∧
      (VecGoes s false [f.s] [] → mine → a.queue.length < 8 → pendingOf s s.cur = 0 → ownQueued s s.cur = false →
        let s0 : State := { s with defer := false }
        let refs := accessRefs s (extSeg f) (reg s f.s) 32
        let b := served s0 refs
        let l := bytesOf b refs
        let w (i : Nat) : Word := BitVec.ofNat 64 (leNat ((l.drop (8 * i)).take 8))
        let count := field (w 0) 32 17
        (∀ c, scalarCause s (extSeg f) (reg s f.s) 32 0 8 = some c → exec .saload s = .next (takeCause s0 c)) ∧
        (LoadReady s (extSeg f) (reg s f.s) 32 8 → (underRefs s refs).any (poisoned s) = true →
          exec .saload s = .next (takeTrap s0 5 0 0)) ∧
        (LoadGoes s0 (extSeg f) (reg s f.s) 32 8 false →
        (saDescriptorOk (w 0) (w 1) (w 2) = true →
          segCheck (seg s (extSeg f)) (extSeg f).toNat (w 1).toNat (8 * count) 0 = none →
          segCheck (seg s (extSeg f)) (extSeg f).toNat (w 2).toNat (4 * (w 3).toNat) 0 = none →
          ∃ u t, exec .saload s = .next t ∧ CachesOnly b u ∧ BytesKept b t ∧
            Retired s (queued u (.load (field (w 0) 0 16) count (w 1).toNat (w 2).toNat (w 3).toNat (seg s (extSeg f)) (myCtx s))
              .saloadRun) t (.next s)) ∧
        (saDescriptorOk (w 0) (w 1) (w 2) = true → ∀ c,
          ((segCheck (seg s (extSeg f)) (extSeg f).toNat (w 1).toNat (8 * count) 0).or
            (segCheck (seg s (extSeg f)) (extSeg f).toNat (w 2).toNat (4 * (w 3).toNat) 0)) = some c →
          ∃ u, CachesOnly b u ∧ exec .saload s = .next (takeCause u c)) ∧
        (saDescriptorOk (w 0) (w 1) (w 2) = false → ∃ u, CachesOnly b u ∧ exec .saload s = .next (takeIll u)))) ∧
      (VecGoes s false [f.s, extReg f] [] → mine →
        (a.queue ≠ [] → exec .sawait s = .next (waitHere s)) ∧
        (a.queue = [] → ∃ t, exec .sawait s = .next t ∧ BytesKept s t ∧
          Retired s (if (reg s (extReg f)).toNat = 0 then
              modSa s d (fun a => { a with fault := false, fkind := 0, fcell := 0, faddr := 0 }) else s) t
            (.write s f.s (a.status (reg s (extReg f)).toNat)))) ∧
      (∀ p ∈ [(Instr.saload, false, [f.s], []), (.saseed, false, [f.s, extReg f], []), (.sabeta, false, [f.s], []),
          (.sasweep, false, [f.s], []), (.sawait, false, [f.s, extReg f], []), (.saclamp, true, [f.s], [f.va, f.vb]),
          (.saread, true, [f.s], [f.vd]), (.sacount, true, [f.s, extReg f], [f.vd])],
        (VecGoes s p.2.1 p.2.2.1 p.2.2.2 → ¬mine → exec p.1 s = .next (takeIll s)) ∧
          (vecIllegal s p.2.1 p.2.2.1 → exec p.1 s = .next (takeIll s))) ∧
      (vecIllegal s false [f.s] → exec .saacq s = .next (takeIll s)) ∧
      (vecIllegal s false [] → exec .sarel s = .next (takeIll s)))

/-- SACLAMP, SAREAD and SACOUNT (R331) once the queue is empty: 32 cells to an element, or one count to an element, from the
first cell named; a cell beyond the array is neither clamped nor read. SA_REGISTER_RETURN completes a word left outstanding. -/
def Obligations.SamplingRegisters : Prop :=
  ∀ (s : State),
    let f := vFields s.ir
    let d := myDie s
    let c := (reg s f.s).toNat
    let vl := (my s).vl
    let go := (mySa s).owner = some (me s) ∧ (mySa s).frozen = none ∧ (mySa s).queue = []
    let here (t : State) : SArray := (die t d).sa
    (go → s.defer = false → c < 65536 →
      (VecGoes s true [f.s] [f.va, f.vb] → c % 32 = 0 → ∃ t, exec .saclamp s = .next t ∧ BytesKept s t ∧
        Retired s (modSa s d (fun _ => here t)) t (.next s) ∧ here t = { mySa s with cells := (here t).cells } ∧
        ∀ i, (here t).cell i = if c ≤ i ∧ i < c + 32 * vl ∧ i < 65536 then
            (if (elem (my s) f.va 0 ((i - c) / 32)).testBit ((i - c) % 32) = true then
              { (mySa s).cell i with clamp := true, state := (elem (my s) f.vb 0 ((i - c) / 32)).testBit ((i - c) % 32) }
             else { (mySa s).cell i with clamp := false })
          else (mySa s).cell i) ∧
      (VecGoes s true [f.s] [f.vd] → c % 32 = 0 → ∃ t, exec .saread s = .next t ∧
        VecWrote s s t f.vd 0 ((List.range vl).map (fun j => (j, ((List.range 32).map (fun k =>
          if c + 32 * j + k < 65536 ∧ ((mySa s).cell (c + 32 * j + k)).state = true then 2 ^ k else 0)).sum))) id) ∧
      (VecGoes s true [f.s, extReg f] [f.vd] → ∃ t, exec .sacount s = .next t ∧
        VecWrote s (if (reg s (extReg f)).getLsbD 0 = true then modSa s d (fun _ => here t) else s) t f.vd 6 ((List.range (2 * vl)).map (fun e =>
          (e, if c + e < 65536 then ((mySa s).cell (c + e)).count else 0))) id ∧
        let clear (p : Nat × Cell) : Nat × Cell := (p.1, if c ≤ p.1 ∧ p.1 < c + 2 * vl then { p.2 with count := 0 } else p.2)
        here t = { mySa s with
          cells := if (reg s (extReg f)).getLsbD 0 = true then (mySa s).cells.map clear else (mySa s).cells })) ∧
    (∀ p ∈ [(Instr.saclamp, [f.s], [f.va, f.vb], 32), (.saread, [f.s], [f.vd], 32),
        (.sacount, [f.s, extReg f], [f.vd], 1)],
      VecGoes s true p.2.1 p.2.2.1 → (mySa s).owner = some (me s) → (mySa s).frozen = none →
      (65536 ≤ c ∨ c % p.2.2.2 ≠ 0 → exec p.1 s = .next (takeIll s)) ∧
      (c < 65536 → c % p.2.2.2 = 0 → (mySa s).queue ≠ [] → exec p.1 s = .next (waitHere s)) ∧
      (c < 65536 → c % p.2.2.2 = 0 → (mySa s).queue = [] → s.defer = true →
        exec p.1 s = .next (owe (setCond s (.inEngine s.ir)) [ev .saRegisterReturn (me s)]))) ∧
    (∀ w, hasThr s s.msg.a = true → (thr s s.msg.a).cond = .inEngine w → (thr s s.msg.a).mqueue = [] →
      exec .saRegisterReturn s = .next (respond s (.thread s.msg.a) (saAct w)))

/-- A sweep may be run colour by colour: its colours in two parts, the second from where the first leaves the array, make the same sweep
(R321, R337).

One sweep where every enabled cell is of one colour, in pseudo-random mode (R321, R323): each enabled cell steps its
generator and, unless it is clamped, takes +1 where the generator's value is below p of its field as the sweep began; the
counts of the cells then at +1 rise, to 65,535 at most; no other cell changes. SIG rises and mirrors about 32,768 (Table 12.3). -/
def Obligations.SweepCells : Prop :=
  (∀ x : Int, 0 < x → x ≤ 127 → sig x + sig (-x) = 65536 ∧ sig (x - 1) < sig x) ∧ sig 0 = 32768 ∧ sig (-128) = 0 ∧
  (∀ (a : SArray) (n k : Nat), k ≤ 8 →
    let r := sweepColours (List.range k) a n
    let q := sweepColours (span k (8 - k)) r.1 r.2
    sweepOnce a n = (sweepCounts q.1, q.2)) ∧
  ∀ (a : SArray) (n k : Nat), krising a.cells = true → a.mode = false → k < 8 →
    (∀ p ∈ a.cells, p.2.en = true → p.2.colour = k) →
    let h (c : Cell) : Int := c.bias.toInt + (c.coup.map (fun p => p.1.toInt * (if (a.cell p.2).state then 1 else -1))).sum
    let p (c : Cell) : Nat := sig (max (-128) (min 127 (a.beta.toNat * h c / 256)))
    ∃ b, sweepOnce a n = (b, n) ∧ b = { a with cells := b.cells, sweeps := (a.sweeps + 1) % 2 ^ 32 } ∧
      ∀ i, kfind b.cells i = (kfind a.cells i).map (fun c =>
        let st := if c.clamp then c.state else decide ((rstStep c.gen).toNat < p c)
        if c.en then { c with gen := rstStep c.gen, state := st
                              count := if st = true ∧ c.count < 65535 then c.count + 1 else c.count } else c)

/-- The steps by which an array runs its queue (R321, R322, R325, R329, R330): the command at its head is run, or discarded while a fault
stands, and the command behind it is then owed its step. A sweep runs as many of its colours as its message names, and goes on from
there (R337). A load that meets a page that is not present goes on from the cell it has come to, and one that fails leaves the cells
below the failing one loaded, and that one and those above it unchanged (R330). What its reads through a non-native view need of a
line's owner is brought home first (R105, R272). That a load makes all its reads in the step that runs it is the model's choice (log
2). -/
def Obligations.SamplingEvents : Prop :=
  ∀ (s : State),
    let d := s.msg.a
    let a := (die s d).sa
    let run (c : SaCmd) : Instr × Msg :=
      (match c with | .load .. => .saloadRun | .seed .. => .saseedRun | .beta _ => .sabetaRun | .sweep .. => .sweep,
        { Msg.empty with a := d, flag := true })
    let next (u : State) (rest : List SaCmd) : State := match rest with | [] => u | c :: _ => owe u [run c]
    let becomes (e : Instr) (b : SArray) : Prop := exec e s = .next (next (modSa s d (fun _ => b)) b.queue)
    (∀ c rest, a.queue = c :: rest → a.fault = true → becomes (run c).1 { a with queue := rest }) ∧
    (∀ b rest, a.queue = .beta b :: rest → a.fault = false → becomes .sabetaRun { a with queue := rest, beta := b }) ∧
    (∀ g phys rest, a.queue = .seed g phys :: rest → a.fault = false →
      let b : SArray := { a with queue := rest, seed := g, cells := a.cells.map (fun p => (p.1, { p.2 with gen := genOf g p.1 })) }
      ((phys = false ∨ entropyOk s d = true) → becomes .saseedRun { b with mode := phys }) ∧
        (phys = true → entropyOk s d = false →
          becomes .saseedRun { b with mode := false, fault := true, fkind := 9, fcell := 0, faddr := 0 })) ∧
    (∀ n k rest, a.queue = .sweep n k :: rest → a.fault = false →
      (n = 0 → becomes .sweep { a with queue := rest }) ∧
      (n ≠ 0 → k = 0 → a.mode = true → s.msg.flag = false →
        exec .sweep s = .next (owe (next (modSa s d (fun _ => { a with
          queue := rest, fault := true, fkind := 9, fcell := 0, faddr := 0 })) rest) [ev .unitError (saRec d) 1])) ∧
      (n ≠ 0 → (k ≠ 0 ∨ a.mode = false ∨ s.msg.flag = true) →
        let j := if s.msg.b = 0 then 8 - k else min s.msg.b (8 - k)
        let r := sweepColours (span k j) a s.free
        let put (b : SArray) (rest : List SaCmd) : State :=
          next { modSa s d (fun _ => { b with queue := rest }) with free := r.2 } rest
        (k + j < 8 → exec .sweep s = .next (put r.1 (.sweep n (k + j) :: rest))) ∧
        (8 ≤ k + j → n = 1 → exec .sweep s = .next (put (sweepCounts r.1) rest)) ∧
        (8 ≤ k + j → n ≠ 1 → exec .sweep s = .next (put (sweepCounts r.1) (.sweep (n - 1) 0 :: rest))))) ∧
    (∀ first count roff toff nent g c rest, a.queue = .load first count roff toff nent g c :: rest → a.fault = false →
      let home (n : Nat) : State := cellsServed s d c g roff toff n
      let cellAt (j : Nat) : Except SaByte Cell := loadCell (home (j + 1)) d (first + j) (roff + 8 * j) toff nent g c
      let loaded (n : Nat) (b : SArray) : Prop := ∀ i, b.cell i =
        if first ≤ i ∧ i < first + n then (match cellAt (i - first) with | .ok x => x | .error _ => a.cell i) else a.cell i
      ((∀ j, j < count → ∃ x, cellAt j = .ok x) → ∃ u b, CachesOnly (home count) u ∧ loaded count b ∧
        b = { a with queue := rest, cells := b.cells } ∧
        exec .saloadRun s = .next (next (modSa u d (fun _ => b)) rest)) ∧
      ∀ n, n < count → (∀ j, j < n → ∃ x, cellAt j = .ok x) →
        (∀ cva, cellAt n = .error (.delay cva) → ∃ u b, CachesOnly (home (n + 1)) u ∧ loaded n b ∧
          b = { a with queue := .load (first + n) (count - n) (roff + 8 * n) toff nent g c :: rest, cells := b.cells } ∧
          exec .saloadRun s = .next (owe (fileReport (modSa u d (fun _ => b)) c (cva / 4096)) [ev .saloadRun d])) ∧
        (∀ k cva, cellAt n = .error (.bad k cva) → ∃ u b, CachesOnly (home (n + 1)) u ∧ loaded n b ∧
          b = { a with queue := rest, cells := b.cells, fault := true, fkind := k, fcell := first + n, faddr := cva } ∧
          exec .saloadRun s = .next (next (modSa u d (fun _ => b)) rest)))

/-! ### Launches, tasks and the dispatcher -/

/-- A launch port (R297, R299): a whole record that passes its checks enters the queue and is counted; any other is refused
with the first code that applies; a write that does not reach into RECORD is ignored.

The codes of a launch record in the order of R299 (Table 11.3). -/
def Obligations.Launches : Prop :=
  (∀ (s : State),
      let n := s.msg.a
      let k := s.msg.b
      let q := port s n k
      let put (x : Port) : State := modTenant s n (fun t => { t with ports := kset t.ports k x })
      let refused (code : Nat) : State := put { q with refused := q.refused + 1, lastcode := code }
      (tenant s n).enabled = true → k < 4 →
      (∀ c, q.ctx = some c → s.msg.words.length = 8 → launchCode s c s.msg.words = 0 → q.queue.length < 256 →
        exec .launchRecord s = .next (owe (put { q with queue := q.queue ++ [s.msg.words], accepted := q.accepted + 1 })
          [ev .gangStart c])) ∧
      (q.ctx = none → exec .launchRecord s = .next (refused 9)) ∧
      (∀ c, q.ctx = some c → frozenCtx s c = true → exec .launchRecord s = .next (refused 9)) ∧
      (∀ c, q.ctx = some c → frozenCtx s c = false → s.msg.words.length ≠ 8 → exec .launchRecord s = .next (refused 8)) ∧
      (∀ c, q.ctx = some c → s.msg.words.length = 8 → launchCode s c s.msg.words ≠ 0 →
        exec .launchRecord s = .next (refused (launchCode s c s.msg.words))) ∧
      (∀ c, q.ctx = some c → s.msg.words.length = 8 → launchCode s c s.msg.words = 0 → 256 ≤ q.queue.length →
        exec .launchRecord s = .next (refused 7)) ∧
      (64 ≤ s.msg.c ∨ s.msg.d = 0 → exec .portWriteOther s = .next s) ∧
      (s.msg.c < 64 → s.msg.d ≠ 0 →
        (∀ c, q.ctx = some c → frozenCtx s c = false → exec .portWriteOther s = .next (refused 8)) ∧
          (q.ctx = none → exec .portWriteOther s = .next (refused 9)))) ∧
  (∀ (s : State) (c : Nat) (r : List Word) (x : Ctx),
      (ctx? s c = none → launchCode s c r = 9) ∧
      (ctx? s c = some x → x.frozen ≠ none → launchCode s c r = 9) ∧
      (ctx? s c = some x → x.frozen = none →
        (recFormOk r = false → launchCode s c r = 1) ∧
        (recFormOk r = true →
          ((∀ k ∈ x.kernels, k.ret = true ∨ k.entry ≠ recEntry r) → launchCode s c r = 2) ∧
          (∀ k, recKernel x r = some k →
            (k.obj ∈ x.tainted → launchCode s c r = 3) ∧
            (k.obj ∉ x.tainted →
              let bad := recScratch r % 128 ≠ 0 ∨ 262144 < recScratch r ∨ recScratch r ≠ 0 ∧ shareFits s c (recScratch r) = false
              (bad → launchCode s c r = 4) ∧ (¬bad → recSeg r = none → launchCode s c r = 5) ∧
                (¬bad → recSeg r ≠ none → launchCode s c r = 0))))))

/-- The gang table and the dispatcher (R300, R304, R305, R309): a gang enters the lowest free entry, a tile is drawn, a task
takes a hardware context, a continuation is stolen. An attempt on a deque gives way to that of a core whose turn there comes first
(R20), and is remembered at the thief and at the deque.

That a gang takes the lowest free entry is the model's choice (log 3), and so is the order of the engine steps that are owed after
each (log 2). A task's lowest free hardware context and the lowest place for its run are R305's and R306's. A pool that is absent or
retired draws and dispatches nothing (R23).

A steal (R309): the thief's thread resumes the frame that the deque's oldest entry names, in the task of the victim, whose deque loses
it; the frame is marked taken at its home, and what dies held for themselves of it stands there first (R97, R272, R308). The TVAL of a
continuation whose frame holds a descriptor that SEGLD refuses is a free value (log 13).

What a task's thread holds as the dispatcher places it (R306, Table 5.1): its tile in s1 to s3, ARG in s4, its descriptors in
g0 to g2, the PC at the kernel's entry, every other register zero and every other descriptor empty. Its run holds zeros, and no other
byte of memory changes. -/
def Obligations.TaskEvents : Prop :=
  (∀ (s : State),
      let c := s.msg.a
      (∀ x g r rest, frozenCtx s c = false → ctx? s c = some x → x.succs = [] → freeGid x = some g →
        (port s x.tenant x.port).ctx = some c → (port s x.tenant x.port).queue = r :: rest →
        let u := enterGang (modPort s x.tenant x.port (fun q => { q with queue := rest })) c g r (some x.port)
        exec .gangStart s = .next (if rest = [] then u else owe u [ev .gangStart c])) ∧
      (∀ x g r, frozenCtx s c = false → ctx? s c = some x → x.succs = [r] → freeGid x = some g →
        (port s x.tenant x.port).queue = [] →
        exec .gangStart s = .next (enterGang (modCtx s c (fun x => { x with succs := [] })) c g r none)) ∧
      (let p := s.msg.a
       let k := s.msg.b
       let n := (readyOf s p k).length
       (unitLive s (16 + p) = false → exec .tileDraw s = .next s ∧ exec .dispatch s = .next s) ∧
       (ctxStarts s k = true → unitLive s (16 + p) = true →
       (n < 16 → n < (freeHw s p k).length → ∀ g x, drawable s k = some (g, x) →
        exec .tileDraw s = .next (owe
          (modGang (modPool s p (fun q => { q with ready := q.ready ++ [{ ctx := k, gid := g, tile := x.next, bypass := 0 }] })) k g
            (fun y => { y with next := y.next + 1, live := y.live + 1 })) [ev .dispatch p k, ev .tileDraw p k])) ∧
       (∀ i r f t, chooseTask s p (readyOf s p k) = some i → (readyOf s p k)[i]? = some r → readyKernel s r = some f →
        (freeHw s p k).find? (fun t => qualifies s (coreOf t) k (recScratch (gang s k r.gid).record) f.lanes !f.foot.isEmpty) = some t →
        exec .dispatch s = .next (owe (modPool (placeTask s t r f) p (fun q => { q with ready := takeReady k i q.ready }))
          [ev .dispatch p k, ev .tileDraw p k])) ∧
       (∀ t rest, readyOf s p k = [] → freeHw s p k = t :: rest → stealable s k = true →
        exec .dispatch s = .next (owe s [ev .steal t])))) ∧
      (let t := s.msg.a
       ∀ e v, bindingEntry s (coreOf t) (hwOf t) = some e → hasThr s t = false → ctxStarts s e.2.ctx = true →
        readyOf s (poolOf t) e.2.ctx = [] → victimOf s t e.2.ctx = some v →
        let cva := (thr s v).deque.headD 0
        let k := e.2.ctx
        let group := if poolOf t = poolOf v then 0 else if dieOf t = dieOf v then 1 else 2
        let u := modThr (modCore s (coreOf t) (fun c => { c with tried := kset c.tried (4 * hwOf t + group) v })) v
          (fun x => { x with thief := some (coreOf t) })
        let n := frameSize ((wordsAt { u with cur := .thread t } (refsOf u k cva 24)).getD 1 0)
        let refs := refsOf u k cva n
        let dw2 := (refs.drop 16).take 8
        let b := served (recalled u (dw2.map (·.loc))) refs
        let ws := wordsAt { b with cur := .thread t } refs
        let h := frameHart (match ctx? s (thr s v).ctx with | some y => y.heap | none => Seg.empty) ws (BitVec.ofNat 64 cva)
        (givesWay s t v = true → exec .steal s = .next (owe s [ev .steal t])) ∧
        (givesWay s t v = false → judge u (frameChk k none) (span cva 24) = none →
          judge u (frameChk k none) (span cva n) = none →
          (∀ r ∈ refs, r.has = true → poisoned u r.loc = false) →
          ∃ z, exec .steal s = .next z ∧ (thr z t).hart = h.1 ∧ (thr z t).ctx = (thr s v).ctx ∧ (thr z t).task = (thr s v).task ∧
            (thr z t).cond = .ready ∧ (thr z t).deque = [] ∧ (thr z t).vceil = 0 ∧
            (h.2 = none → (thr z t).pendTrap = none) ∧
            (∀ i, h.2 = some i → ∃ j, (thr z t).pendTrap = some (2, segvInfo 4 i 0, (Config.openWord j).toNat)) ∧
            (thr z v).deque = (thr s v).deque.drop 1 ∧ (∀ j, j ≠ t → j ≠ v → kfind z.threads j = kfind s.threads j) ∧
            (task z (thr s v).task).strands = (task s (thr s v).task).strands + 1 ∧
            (∀ j, j ≠ (thr s v).task → kfind z.tasks j = kfind s.tasks j) ∧
            (refs.all (·.has) = true → (refs.map (·.loc)).Nodup → dw2.map (fun r => z.mem.get r.loc) =
              leBytes 8 (putFrame (ws.getD 2 0) (frameCount (ws.getD 2 0)) 2).toNat) ∧
            ∀ a d loc, loc ∉ dw2.map (·.loc) → getLoc z a d loc = getLoc b a d loc))) ∧
  (∀ (s : State) (t : Nat) (r : ReadyTask) (k : Kernel),
      let rec_ := (gang s r.ctx r.gid).record
      let tile := tileOf rec_ r.tile
      let u := placeTask s t r k
      let x := thr u t
      let n := recScratch rec_
      x.hart.pc = BitVec.ofNat 64 k.entry ∧ x.cond = .fetching ∧ x.ctx = r.ctx ∧ x.task = s.nextId ∧
        x.started = s.time ∧
        x = { Thread.start with hart := x.hart, ctx := r.ctx, task := s.nextId, cond := .fetching, started := s.time } ∧
        (∀ d : Reg, x.hart.get d =
          if d = 1 then BitVec.ofNat 64 tile.1 else if d = 2 then BitVec.ofNat 64 tile.2.1
          else if d = 3 then BitVec.ofNat 64 tile.2.2 else if d = 4 then recW rec_ 4 else 0) ∧
        (∀ g : BitVec 3, x.hart.segs[g.toNat] =
          if g = 0 then startSeg s r.ctx rec_ 0
          else if g = 1 then (if n = 0 then Seg.empty else
            { base := BitVec.ofNat 48 (shareCva s (coreOf t) r.ctx + (findRun s (coreOf t) r.ctx n).getD 0)
              limit := BitVec.ofNat 48 n, r := true, w := true, x := false, v := false })
          else if g = 2 then startSeg s r.ctx rec_ 2 else Seg.empty) ∧
        (task u s.nextId).ctx = r.ctx ∧ (task u s.nextId).gid = r.gid ∧ (task u s.nextId).strands = 1 ∧
        (task u s.nextId).core = coreOf t ∧ (task u s.nextId).runSize = n ∧
        (∀ i, i < n → u.mem.get ((task u s.nextId).runPa + i) = 0) ∧
        ∀ a, (∀ i, i < n → a ≠ (task u s.nextId).runPa + i) → u.mem.get a = s.mem.get a)

/-- A task starts once its footprint regions are fetched, or with the failed region's trap pending; a page that is not present
delays it, and so does a suspension of its context (R265, R306). No task of a frozen context starts: it is given up, and its run is
zeroed (R318). A gang that has ended does its DONE, IRQ and SIG in order (R301). A watchdog that has run out
freezes its context (R315), and a quantum that has passed is reported and counted on (R303). What a footprint that overruns its run
takes, and that the regions before the failing one are fetched all the same, is the model's choice (log 22).

A task with a footprint whose core's loader is not live goes back to the head of its pool's ready list, since that loader receives no
fetch (R23); that it goes back there is the model's choice (log 36). The fetched bytes stand in the run, each region at its offset
(R265, R306).

The three actions (R301): DONE is an atomic that adds 1, at the home, to the doubleword there; IRQ raises the vector of the gang's port,
where it has one; SIG signals the counter. A page that is not present delays its action. Where the access fails, also at an atomic
unit that is not live, which is the model's choice (log 36), the context's error count of it rises and the next action follows. -/
def Obligations.GangAndTimeEvents : Prop :=
  ∀ (s : State),
    (let t := s.msg.a
     let x := thr s t
     let k := task s x.task
     let r := (gang s x.ctx k.gid).record
     let foot := match (ctx? s x.ctx).bind (fun y => recKernel y r) with | some y => y.foot | none => []
     hasThr s t = true → x.cond = .fetching →
      (frozenCtx s x.ctx = true → ∃ u, exec .taskStart s = .next u ∧ kfind u.threads t = none ∧
        (∀ n, n ≠ t → kfind u.threads n = kfind s.threads n) ∧ kfind u.tasks x.task = none ∧
        (∀ n, n ≠ x.task → kfind u.tasks n = kfind s.tasks n) ∧ ∀ i, i < k.runSize → u.mem.get (k.runPa + i) = 0) ∧
      (frozenCtx s x.ctx = false → suspendedCtx s x.ctx = true → exec .taskStart s = .next (owe s [ev .taskStart t])) ∧
      (frozenCtx s x.ctx = false → suspendedCtx s x.ctx = false → foot ≠ [] → loaderLive s (coreOf t) = false →
        ∃ u, exec .taskStart s = .next u ∧ kfind u.threads t = none ∧ (∀ n, n ≠ t → kfind u.threads n = kfind s.threads n) ∧
        kfind u.tasks x.task = none ∧ (∀ n, n ≠ x.task → kfind u.tasks n = kfind s.tasks n) ∧
        (∀ i, i < k.runSize → u.mem.get (k.runPa + i) = 0) ∧ ev .dispatch (poolOf t) x.ctx ∈ u.owed ∧
        (pool u (poolOf t)).ready = { ctx := x.ctx, gid := k.gid, bypass := 0, tile := k.x + (recDims r).1 * (k.y + (recDims r).2.1 * k.z) }
          :: (pool s (poolOf t)).ready) ∧
      (frozenCtx s x.ctx = false → suspendedCtx s x.ctx = false → foot = [] ∨ loaderLive s (coreOf t) = true →
      (∀ l, footAll s k r foot 0 = .ok l → exec .taskStart s = .next (beginTask (fetchFoot s t l) t none) ∧
        (inPools k.runPa = true → inPools (k.runPa + recScratch r) = true → ∀ i q j, foot[i]? = some q → j < q.2.2 →
          let at_ := ((foot.take i).map (fun q => (q.2.2 + 127) / 128 * 128)).sum
          let base := if q.1 = 1 then (BitVec.ofNat 48 (shareCva s k.core k.ctx + k.runOff)).toNat
            else (startSeg s k.ctx r q.1).base.toNat
          (fetchFoot s t l).mem.get (k.runPa + at_ + j) =
            readShared (served s (l.map (·.2))) (poolOf t / 24) (byteRef s k.ctx (base + q.2.1 + j)))) ∧
      (∀ a, footAll s k r foot 0 = .delay a →
        exec .taskStart s = .next (owe (fileReport s x.ctx a) [ev .taskStart t])) ∧
      (∀ code info tval, footAll s k r foot 0 = .bad code info tval →
        exec .taskStart s = .next (beginTask (fetchFoot s t (footBefore s k r foot 0)) t (some (code, info, tval))))) ∧
      ∀ u pend, let z := beginTask u t pend
        thr z t = { thr u t with cond := .ready, pendTrap := pend } ∧ (∀ n, n ≠ t → kfind z.threads n = kfind u.threads n) ∧
          z = { u with threads := z.threads, cores := z.cores }) ∧
    (∀ x e rest u, ctx? s s.msg.a = some x → x.ended = e :: rest → gangAction s s.msg.a e = some u →
      let l := if 3 ≤ e.phase then rest else { e with phase := e.phase + 1 } :: rest
      exec .gangEnd s = .next (owe (modCtx u s.msg.a (fun x => { x with ended := l }))
        (if l = [] then [] else [ev .gangEnd s.msg.a]))) ∧
    (∀ (c : Nat) (e : EndedGang) (x : Ctx), ctx? s c = some x →
      let refs (a n : Nat) : List ByteRef := (span a n).map (byteRef s c)
      let stop (a n : Nat) : Option Cause :=
        judge s { c := c, sg := 0, acc := 2, v := true, base := 0, frame := false, lost := none } (span a n)
      let ok (a n al : Nat) : Prop := a % al = 0 ∧ stop a n = none ∧
        (∀ r ∈ refs a n, r.pa < 2 ^ 47 ∧ r.has = true ∧ poisoned s r.loc = false) ∧
        ∀ r ∈ (refs a n).take 1, atomicUnitLive s r.loc = true
      let delayed (a n al : Nat) : Prop := a % al = 0 ∧ ∃ p, stop a n = some (.park p)
      let failed : State := modCtx s c (fun x => { x with errs := x.errs.set! 2 (x.errs.getD 2 0 + 1) })
      let done := recDone e.record
      let sig := recSig e.record
      (e.phase = 1 →
        (done = 0 → gangAction s c e = some s) ∧
        (done ≠ 0 → delayed done 8 8 → gangAction s c e = none) ∧
        (done ≠ 0 → ¬ok done 8 8 → ¬delayed done 8 8 → gangAction s c e = some failed) ∧
        (done ≠ 0 → ok done 8 8 → ((refs done 8).map (·.loc)).Nodup →
          let locs := (refs done 8).map (·.loc)
          ∃ u, gangAction s c e = some u ∧ HomesOnly s u ∧
            locs.map u.mem.get = leBytes 8 ((leNat (locs.map (recalled s locs).mem.get) + 1) % 2 ^ 64) ∧
            ∀ a d loc, loc ∉ locs → ¬BroughtHome s locs loc → getLoc u a d loc = getLoc s a d loc)) ∧
      (e.phase = 2 →
        (∀ k, e.port = some k → recIrq e.record = true →
          gangAction s c e = some { s with keeper := { s.keeper with irqs := s.keeper.irqs ++ [(tenantOf s c, k)] } }) ∧
        (e.port = none ∨ recIrq e.record = false → gangAction s c e = some s)) ∧
      (e.phase = 3 →
        (sig = 0 → gangAction s c e = some s) ∧
        (sig ≠ 0 → delayed sig 128 128 → gangAction s c e = none) ∧
        (sig ≠ 0 → ¬ok sig 128 128 → ¬delayed sig 128 128 → gangAction s c e = some failed) ∧
        (sig ≠ 0 → ok sig 128 128 →
          let b := recalled s ((refs sig 128).map (·.loc))
          gangAction s c e = some (depApply b none c (refs sig 128)
            ((chunksOf 8 128 ((refs sig 128).map (fun r => b.mem.get r.loc))).map (fun l => BitVec.ofNat 64 (leNat l))) .sig).1)) ∧
      ∀ y rest, ctx? s s.msg.a = some y → y.ended = e :: rest → gangAction s s.msg.a e = none →
        exec .gangEnd s = .next (owe (fileReport (modCtx s s.msg.a (fun x => { x with ended := rest ++ [e] })) s.msg.a
          ((if e.phase = 1 then done else sig) / 4096)) [ev .gangEnd s.msg.a])) ∧
    (∀ x g, ctx? s s.msg.a = some x → kfind x.gangs s.msg.b = some g → g.wdt ≠ 0 → g.wdt * 1024 ≤ g.wdCount →
      (x.frozen = none → ∃ u y, exec .wdog s = .next u ∧ ctx? u s.msg.a = some y ∧ y.frozen = some
        { time := s.time, mapver := s.keeper.version, cause := causeWord 7 s.msg.b, tval := BitVec.ofNat 64 g.wdt, epc := 0
          thread := 2 ^ 32 - 1, nfatal := 1, seq := s.keeper.freezes } ∧ ev .dumpBuild s.msg.a ∈ u.owed ∧
        (∀ a, agentCtx s a = s.msg.a → runnable u a = false) ∧ (∀ c, c ≠ s.msg.a → ctx? u c = ctx? s c) ∧ BytesKept s u) ∧
      (x.frozen ≠ none → exec .wdog s = .next s)) ∧
    (∀ e, kfind (pool s s.msg.a).slots s.msg.b = some e → quantumCounts s e = true → e.quantum ≤ e.cycles →
      let u := modKeeper (modPool s s.msg.a (fun x => { x with
        slots := kset x.slots s.msg.b { e with cycles := e.cycles - e.quantum } }))
        (fun k => { k with quanta := k.quanta ++ [(s.msg.a, s.msg.b)] })
      exec .quantumExpiry s = .next (if e.quantum ≤ e.cycles - e.quantum then owe u [ev .quantumExpiry s.msg.a s.msg.b] else u))

/-! ### Slot tables, unbinding and core configuration -/

/-- The management core's writes (R134, R135, R275, R276, R302): an entry in force where the table keeps R302, its reserved fields
reading as zero (R6); an unbind that waits for what its threads have outstanding, saves them and is reported; a saved thread
resumed; LSCFG and VICT. That a write which breaks R302 or an unbinding under way has no effect is the model's choice (log 23).

What R302 has the table keep: each valid entry's tenant is that of its context, its quota within the operator's (R351), its ranges within
the LSP, the barriers, and the scratch that LSCFG leaves each of its cores (R275); the spill regions and windows of the LSP disjoint,
and so the barrier windows, and the shares of a core. A barrier window newly bound holds barriers that are not VALID, every field zero
(R302), or what was saved as the context was unbound (R264).

Where a thread stops (R134, R135, Table 5.10, Table 12.11): a word that is held, parked or waits on PGINV is withdrawn, and so is a long matrix word
that waits for a block of its gang (Table 8.3); one that reads FCSR, and a register word of the array, completes; a trap that is due
is entered, and the thread is then saved in its handler.

A table in force (R134, R302): a context that loses a hardware context is to be unbound from its core, and the window of the LSP
that a context gains holds zeros. A thread saved (R134, R190, R250): all of its state goes to the save area under a number of its
own, its slots owed lanes, with its Retrievers; its array stays under that number. A thread resumed (R135, R191, R250, R335) has all
of it again. -/
def Obligations.SlotEvents : Prop :=
  (∀ (s : State) (p : Nat) (slots : KMap SlotEntry),
    let t := putSlots s p slots
    (pool t p).slots = slots ∧ (∀ q, q ≠ p → pool t q = pool s q) ∧ t.cores = s.cores ∧ t.rets = s.rets ∧
      (∀ n, (kfind t.threads n).map (fun x => { x with window := none }) =
        (kfind s.threads n).map (fun x => { x with window := none })) ∧
      (∀ k h e c x, poolOfCore k = p → h < 16 → bindingEntry s k h = some e → e.2.ctx = c → ctx? s c = some x →
        (∀ e', bindingEntry t k h = some e' → e'.2.ctx ≠ c) →
        (∃ y, ctx? t c = some y ∧ k ∈ y.unbinding) ∧ ev .unbind k c ∈ t.owed) ∧
      (∀ e ∈ kvals slots, e.valid = true → ev .tileDraw p e.ctx ∈ t.owed ∧ ev .dispatch p e.ctx ∈ t.owed ∧
        (winOf s p e.ctx ≠ winOf t p e.ctx → ∀ i, i < 4096 * (winOf t p e.ctx).2 →
          t.mem.get (lspPa p ((winOf t p e.ctx).1 * 4096 + i)) = 0)) ∧
      ∀ c x, tableFits s p slots = true → (∃ e ∈ kvals slots, e.valid = true ∧ e.ctx = c) → ctx? s c = some x →
        let w := sbWindow t p c
        (sbWindow s p c).2 = 0 → ∀ n, n < w.2 →
          (x.savedBarriers = [] → barrier t p (w.1 + n) =
            { pend := 0, fault := false, armed := false, xph := false, fph := false, valid := false, ncons := 0, rcnt := 0 }) ∧
          ∀ l b, kfind x.savedBarriers p = some l → krising l = true → kfind l n = some b → barrier t p (w.1 + n) = b) ∧
  (∀ (s : State) (p : Nat) (slots : KMap SlotEntry),
    let f (w : Word) (lo n : Nat) : Nat := (w.extractLsb' lo n).toNat
    let l := (kvals slots).filter (fun e => e.dw0.getLsbD 63)
    let spill (e : SlotEntry) : Nat × Nat := (f e.dw1 20 9, f e.dw1 10 10)
    let win (e : SlotEntry) : Nat × Nat := (f e.dw2 32 9, f e.dw2 22 10)
    let bars (e : SlotEntry) : Nat × Nat := (f e.dw2 7 6, f e.dw2 0 7)
    let share (e : SlotEntry) : Nat × Nat := (f e.dw3 8 7, f e.dw3 0 7)
    let apart (x y : Nat × Nat) : Prop := x.2 = 0 ∨ y.2 = 0 ∨ x.1 + x.2 ≤ y.1 ∨ y.1 + y.2 ≤ x.1
    tableFits s p slots = true ↔
      (∀ e ∈ l, (∃ x, ctx? s (f e.dw0 48 8) = some x ∧ x.tenant = f e.dw0 56 4) ∧
        f e.dw0 0 11 ≤ 1024 ∧ f e.dw0 0 11 ≤ (tenant s (tenantOf s (f e.dw0 48 8))).quota ∧
        (spill e).1 + (spill e).2 ≤ 512 ∧ (win e).1 + (win e).2 ≤ 512 ∧ (bars e).1 + (bars e).2 ≤ 64 ∧
        ∀ k, k < 16 → e.dw0.getLsbD (32 + k) = true → (share e).2 = 0 ∨
          (share e).1 + (share e).2 ≤ 64 - 8 * min 8 (f (core s (p * 16 + k)).lscfg 0 4)) ∧
      (l.flatMap (fun e => [spill e, win e])).Pairwise apart ∧ (l.map bars).Pairwise apart ∧
      l.Pairwise (fun x y => f x.dw0 32 16 &&& f y.dw0 32 16 = 0 ∨ apart (share x) (share y))) ∧
  (∀ (s : State) (n : Nat) (x : Thread) (y : Ctx), kfind s.threads n = some x → ctx? s x.ctx = some y →
    let t := saveThread s n
    let key := (s.nextId + 1) * 2 ^ 32 + n
    let array := (die s (dieOf n)).sa.owner = some n
    kfind t.threads n = none ∧ ThreadsKept s t n ∧ t.rets = s.rets.filter (fun r => r.2.owner != some n) ∧
      t.nextId = s.nextId + 1 ∧ t.mem = s.mem ∧ t.stores = s.stores ∧ (∀ c, c ≠ x.ctx → ctx? t c = ctx? s c) ∧
      (die t (dieOf n)).sa = (if array then { (die s (dieOf n)).sa with owner := some key } else (die s (dieOf n)).sa) ∧
      ∃ z, ctx? t x.ctx = some z ∧ (∀ j, j ≠ key → kfind z.saved j = kfind y.saved j) ∧
        kfind z.saved key = some { x with cond := .ready, noPage := none, placing := x.gvl != 0
                                          lanes := List.replicate x.gvl 0, lost := List.range x.gvl
                                          array := if array then some key else none } ∧
        z.savedRets = y.savedRets ++ (s.rets.filter (fun r => r.2.owner == some n)).map (fun r =>
          (key, r.1 % 2, { r.2 with owner := none, cond := .ready, noPage := none, stop := false }))) ∧
  (∀ (s : State) (c key : Nat) (x : Thread) (y : Ctx) (k h : Nat), ctx? s c = some y → mayResume s c key x k h = true →
    let t := k * 17 + h
    let u := resumeThread s c key x k h
    let kept := y.savedRets.filter (fun r => r.1 == key)
    ThreadsKept s u t ∧
      (∃ v, kfind u.threads t = some v ∧
        v = { x with array := none, tags := v.tags, progress := v.progress, ent := v.ent, debt := v.debt }) ∧
      (∃ z, ctx? u c = some z ∧ kfind z.saved key = none ∧ (∀ r ∈ z.savedRets, r.1 ≠ key) ∧
        (∀ r ∈ z.savedCopies, r.thread ≠ key) ∧ ∀ j, j ≠ key → kfind z.saved j = kfind y.saved j) ∧
      (∀ r ∈ kept, (∀ q ∈ kept, q.2.1 = r.2.1 → q = r) → ret u (2 * k + r.2.1) = { r.2.2 with owner := some t }) ∧
      (∀ n, (∀ r ∈ kept, n ≠ 2 * k + r.2.1) → kfind u.rets n = kfind s.rets n) ∧
      (x.array.isSome = true → (die u (dieOfCore k)).sa = { (die s (dieOfCore k)).sa with owner := some t }) ∧
      (x.lost ≠ [] → ev .slicePlaced t ∈ u.owed) ∧
      (∀ j, kfind s.tasks x.task = some j → j.ctx = c → x.ctx = c → j.runSize ≠ 0 → (task u x.task).core = k)) ∧
  (∀ (s : State) (f : Nat → Bool),
    let stops (y : Cond) : Cond := match y with
      | .heldAcquire _ => .ready
      | .parkedPage _ => .ready
      | .parkedGrant => .ready
      | .awaiting (.pginv _ _) => .ready
      | y => y
    let t := withdraw s f
    t = { s with threads := t.threads, rets := t.rets } ∧
      (∀ n, kfind t.threads n = (kfind s.threads n).map (fun y =>
        if f n then
          if y.lost ≠ [] ∧ y.mqueue.any (·.long) = true then { y with cond := .ready, noPage := none, mqueue := [] }
          else { y with cond := stops y.cond, noPage := none }
        else y)) ∧
      ∀ n, kfind t.rets n = (kfind s.rets n).map (fun r =>
        if ∃ o ∈ r.owner, f o = true then { r with cond := stops r.cond, noPage := none } else r)) ∧
  ∀ (s : State),
    let p := s.msg.a
    let k := s.msg.a
    let c := s.msg.b
    (let w (n : Nat) : Word := s.msg.words.getD n 0
     let e : SlotEntry := { dw0 := w 0 &&& 0xFFFFFFFFFFFF07FF, dw1 := w 1 &&& 0xFFFFFFFF1FFFFC00
                            dw2 := w 2 &&& 0x000001FFFFC01FFF, dw3 := w 3 &&& 0x0000000000007F7F, cycles := 0 }
     let slots := kset (pool s p).slots s.msg.b e
     let busy := e.valid = true ∧ entryOf s p e.ctx = none ∧ ∃ x, ctx? s e.ctx = some x ∧ x.unbinding ≠ []
     (p < 96 → s.msg.b < 16 → s.msg.words.length = 4 → tableFits s p slots = true → ¬busy →
       exec .slotTableWrite s = .next (putSlots s p slots)) ∧
     (96 ≤ p ∨ 16 ≤ s.msg.b ∨ s.msg.words.length ≠ 4 ∨ tableFits s p slots = false ∨ busy →
       exec .slotTableWrite s = .next s)) ∧
    (∀ x, k < 1536 → ctx? s c = some x → x.frozen = none →
      ((k ∉ x.unbinding → boundTo s k c ≠ [] → ∃ t y, exec .unbind s = .next t ∧ ctx? t c = some y ∧ k ∈ y.unbinding ∧
          ev .unbind k c ∈ t.owed ∧ boundTo t k c = [] ∧ (∀ q, q ≠ poolOfCore k → pool t q = pool s q) ∧
          (pool t (poolOfCore k)).slots = (pool s (poolOfCore k)).slots.map (fun e => (e.1,
            if e.2.valid = true ∧ e.2.ctx = c then
              { e.2 with dw0 := e.2.dw0 &&& ~~~(BitVec.ofNat 64 (2 ^ (32 + k % 16))) } else e.2))) ∧
       (k ∈ x.unbinding →
        let ts := unboundOn s k c
        let a := ts.foldl finishWord (withdraw s (fun t => ts.contains t))
        let u := ts.foldl (fun s t => drainAll s t) a
        let v := settleClosing { u with pools := u.pools.map (fun p => (p.1, { p.2 with
          copies := p.2.copies.map (fun y => if ts.contains y.thread then { y with closing := true } else y) })) }
        let w := ts.foldl (fun s t => if frozenCtx s c then s else takeDue s t) v
        let z := ts.foldl saveThread w
        let serves := (∃ m, (core v k).serving = some m ∧ m.ctx = c) ∧ writesLeft v (.thread (k * 17 + 16)) = true
        ((∃ t ∈ ts, stopsLater v t = true) ∨ serves → exec .unbind s = .next (owe v [ev .unbind k c])) ∧
          ((∀ t ∈ ts, stopsLater v t = false) → ¬serves → (frozenCtx w c = true → exec .unbind s = .next w) ∧
            (frozenCtx w c = false → exec .unbind s = .next (owe (if boundTo z k c = [] then widenMarks z k c else z)
              [ev .unbindComplete k c, ev .tileDraw (poolOfCore k) c, ev .dispatch (poolOfCore k) c])))) ∧
       (k ∈ x.unbinding → unboundOn s k c = [] →
        exec .unbindComplete s = .next (modKeeper (modCtx s c (fun x => { x with unbinding := x.unbinding.filter (· != k) }))
          (fun y => { y with reports := y.reports ++ [(k, c)] }))))) ∧
    (∀ n x, savedIn s s.msg.a = some (n, x) →
      (mayResume s n s.msg.a x s.msg.b s.msg.c = true →
        exec .resume s = .next (resumeThread s n s.msg.a x s.msg.b s.msg.c)) ∧
      (mayResume s n s.msg.a x s.msg.b s.msg.c = false → exec .resume s = .next s)) ∧
    (k < 1536 →
      (∀ q ∈ s.tasks, q.2.core = k → q.2.runSize = 0) →
      (let v := s.msg.words.headD 0 &&& 0xF
       let s' := modCore s k (fun c => { c with lscfg := v })
       tableFits s' (poolOfCore k) (pool s (poolOfCore k)).slots = true →
        ∃ t, exec .lscfgWrite s = .next t ∧ (core t k).lscfg = v ∧
          (∀ a, sramPa k 0 ≤ a → a < sramPa k 0 + 2 ^ 18 → t.mem.get a = 0) ∧
          (∀ a, (a < sramPa k 0 ∨ sramPa k 0 + 2 ^ 18 ≤ a) → t.mem.get a = s.mem.get a) ∧
          (∀ q ∈ t.local1, q.1 / 1024 ≠ k) ∧ t = { s' with local1 := t.local1, mem := t.mem })) ∧
    (k < 1536 → exec .victWrite s = .next (modCore s k (fun c => { c with vict := s.msg.words.headD 0 &&& 0xF1 })))

/-! ### Responses -/

/-- Responses that reach an agent after its word was accepted (R103, R121, R149, R184, R209, R235, R272, R274). A poisoned
granule takes INTEG in place of the value; an atomic whose response is lost is logged and takes ATOMLOST, its effect
standing. A load's byte that its peer or its host no longer gives takes SEGV of sub-kind 3, and an acquire is held by a scope miss as
its bytes arrive (R93, R352).

A load through a non-native view reads what the line's owner held, which is brought home first (R105, R272). That a load's bytes come
all at one instant is the model's choice (R77; log 2).

A store acknowledged is performed: its bytes stand at their homes, and those of host or peer memory at the tail of its die's queue (R272,
R274). A plain store to a UO page may first be seen within its die alone, and leaves it later (R91): the line comes through its home,
where what another die holds of its granules for itself lands first (R97). A queued
write is performed at its memory but for the bytes refused there, which are counted (R352).

That a vector load has held its values since it was accepted is the model's choice (log 2). A matrix word waits while a lane of its
gang is owed (R239) and commits nothing where the gang's state is lost (R132, R189; log 17). -/
def Obligations.Responses : Prop :=
  ∀ (s : State),
    let a := s.msg.agent
    let as (a : Agent) (f : State → State) : State :=
      { stopTold (singleStep { s with cur := a } (f { s with cur := a })) with cur := s.cur }
    let sa : State := { s with cur := a }
    let arrives (sg cva : Nat) (pas : List Nat) (acq : Bool) (fin : State → List Byte → State) : Prop :=
      let refs := latchedRefs sa (myCtx sa) cva (if acq then 1 else 2) pas
      let gone := refs.find? (fun r => r.pa / 2 ^ 46 == 1 && !r.has)
      let miss := if acq then missOf sa a (acqLocs sa refs) else none
      let locs := underRefs sa refs
      (∀ r, gone = some r →
        exec .loadResponse s = .next (as a (takeTrap · 2 (segvInfo 3 sg 0) (BitVec.ofNat 64 r.cva)))) ∧
      (gone = none → ∀ g m, miss = some (g, m) → ∃ t, Held sa t g m ∧ exec .loadResponse s = .next (as a (fun _ => t))) ∧
      (gone = none → miss = none → locs.any (poisoned sa) = true → exec .loadResponse s = .next (as a (takeTrap · 5 0 0))) ∧
      let b := served sa refs
      (gone = none → miss = none → locs.any (poisoned sa) = false → exec .loadResponse s = .next (as a (fun _ =>
        fin (if acq then joinOps (noteReads b a locs) a (coversAt sa (acqLocs sa refs)) else noteReads b a locs) (bytesOf b refs))))
    (hasAgent s a = true →
      (∀ d sg cva pas sext acq, condOf s a = .awaiting (.load d sg cva pas sext acq) →
        arrives sg cva pas acq (loadDone d sext)) ∧
      (∀ g sg off cva pas, condOf s a = .awaiting (.segld g sg off cva pas) → arrives sg cva pas false (segldDone g sg off)) ∧
      (∀ d v old cas wide tval time join, condOf s a = .awaiting (.atomic d v old cas wide tval time join) →
        (s.msg.flag = false → exec .atomicResponse s = .next (as a (fun u => advance (setReg (joinOps u a join) d v)))) ∧
        (s.msg.flag = true → exec .atomicResponse s = .next (as a (fun u =>
          takeTrap (logOutcome u a (byteRef u (myCtx u) tval).loc tval cas false wide time old) 6 0 (BitVec.ofNat 64 tval))))) ∧
      (∀ vd fmt olds time, condOf s a = .awaiting (.vamo vd fmt olds time) →
        ((∀ p ∈ olds, p.1 ∉ s.msg.nats) → exec .atomicResponse s = .next (as a (fun u =>
          advance (modMy u (fun x => putElems fmt (BitVec.ofNat 5 vd) x (olds.map (fun p => (p.1, p.2.2.toNat)))))))) ∧
        (∀ cva v rest, (olds.filter (fun p => s.msg.nats.contains p.1)).map (·.2) = (cva, v) :: rest →
          exec .atomicResponse s = .next (as a (fun u => takeTrap (((cva, v) :: rest).foldl (fun (u : State) (p : Nat × BitVec 32) =>
            logOutcome u a (byteRef u (myCtx u) p.1).loc p.1 false true false time (p.2.signExtend 64)) u) 6 0
              (BitVec.ofNat 64 cva)))))) ∧
    (∀ l rest, (thr s s.msg.a).vloads = l :: rest → exec .vectorLoadArrival s =
      .next (modThr s s.msg.a (fun x => putElems l.fmt (BitVec.ofNat 5 l.vd) { x with vloads := rest } l.elems))) ∧
    (hasThr s s.msg.a = true →
      let x := thr s s.msg.a
      exec .matrixWordComplete s = .next (as (.thread s.msg.a) (completeMat · s.msg.a)) ∧
      (∀ w rest, x.mqueue = w :: rest →
        (x.dead = false → x.lost ≠ [] → frozenCtx s x.ctx = false →
          exec .matrixWordComplete s = .next (as (.thread s.msg.a) (fun u => owe u [ev .matrixWordComplete s.msg.a]))) ∧
        (x.dead = true →
          exec .matrixWordComplete s = .next (as (.thread s.msg.a) (fun u => modThr u s.msg.a (fun x => { x with
            mqueue := rest, cond := if w.long then .waiting else x.cond })))))) ∧
    (∀ lo n, (thr s s.msg.a).cond = .awaiting (.pginv lo n) →
      (frozenCtx s (thr s s.msg.a).ctx = true → exec .pginvComplete s = .next s) ∧
      (frozenCtx s (thr s s.msg.a).ctx = false →
        (boundHere s s.msg.a = true → pginvBusy s (thr s s.msg.a).ctx lo n = false →
          exec .pginvComplete s = .next (as (.thread s.msg.a) advance)) ∧
        (boundHere s s.msg.a = false ∨ pginvBusy s (thr s s.msg.a).ctx lo n = true →
          exec .pginvComplete s = .next (owe s [ev .pginvComplete s.msg.a])))) ∧
    (∀ i p, s.msg.flag = false → kthStore s a s.msg.a = some i → s.stores[i]? = some p →
      let d := dieOfCore (agentCore p.agent)
      (mayPerform s i = false →
        exec .storeAcknowledged s = .next (owe s [(.storeAcknowledged, { Msg.empty with agent := a, a := s.msg.a })])) ∧
      (mayPerform s i = true → ¬(s.msg.b = 1 ∧ staysInDie p = true) → exec .storeAcknowledged s = .next (performAt s i) ∧
        let u := performAt s i
        let here := p.locs.filter (fun q => !offPart q.1)
        let tail (peer : Bool) : List (List (Nat × Byte)) :=
          match p.locs.filter (fun q => offPart q.1 && (q.1 / 2 ^ 40 % 64 != 0) == peer) with | [] => [] | l => [l]
        u.stores = s.stores.eraseIdx i ∧ (∀ loc b, lastWrite here loc = some b → u.mem.get loc = b ∧ ∀ k, sharedLoc u k loc = b) ∧
          (∀ loc, lastWrite here loc = none → ¬BroughtHome s (here.map (·.1)) loc → u.mem.get loc = s.mem.get loc) ∧
          (die u d).hostq.map (·.locs) = (die s d).hostq.map (·.locs) ++ tail false ∧
          (die u d).peerq.map (·.locs) = (die s d).peerq.map (·.locs) ++ tail true ∧
          ∀ k, k ≠ d → (die u k).hostq = (die s k).hostq ∧ (die u k).peerq = (die s k).peerq) ∧
      (mayPerform s i = true → s.msg.b = 1 → staysInDie p = true → ∃ u w, exec .storeAcknowledged s = .next u ∧
        let r := recallUo s (· != d) (p.locs.map (·.1))
        u.mem = r.mem ∧ u.stores = s.stores.eraseIdx i ∧ (die u d).uoq = (die r d).uoq ++ [w] ∧ w.locs = p.locs ∧
        w.writer = some p.agent ∧ (∀ k, k ≠ d → (die u k).uoq = (die r k).uoq) ∧
        (.storeAcknowledged, { Msg.empty with a := d, flag := true }) ∈ u.owed)) ∧
    (∀ w, s.msg.flag = true → (die s s.msg.a).uoq[s.msg.b]? = some w →
      (mayLeave s s.msg.a s.msg.b = true → ∃ u, exec .storeAcknowledged s = .next u ∧ u.mem = s.mem.setAll w.locs ∧
        (die u s.msg.a).uoq = (die s s.msg.a).uoq.eraseIdx s.msg.b ∧
        u = { s with mem := u.mem, dies := u.dies, poison := u.poison }) ∧
      (mayLeave s s.msg.a s.msg.b = false → exec .storeAcknowledged s =
        .next (owe s [(.storeAcknowledged, { Msg.empty with a := s.msg.a, flag := true })]))) ∧
    (∀ w rest, (if s.msg.flag then (die s s.msg.a).peerq else (die s s.msg.a).hostq) = w :: rest →
      let here (p : Nat × Byte) : Bool := match place s (p.1 % 2 ^ 50) with | .byte _ => true | _ => false
      let u := modDie s s.msg.a (fun x => if s.msg.flag then { x with peerq := rest } else { x with hostq := rest })
      exec .hostWriteQueueDrain s = .next (endCover { (if w.locs.all here then u else countErr u w.ctx 5) with
        mem := s.mem.setAll (w.locs.filter here) } w.op))

/-- The service of scope misses (R93, R94, R95, R133): a message whose context is gone, frozen or not bound to the core is dropped; one
without a handler is repaired, once the page is there and the queued writes that the release covers are performed; any other starts
the handler, with its arguments in s1 to s3 and all of the context's addresses in g7, whose LIMIT of 2^48 − 1 is the model's choice
(log 31), as the dropping is (log 23). A held acquire issues again. -/
def Obligations.ScopeMisses : Prop :=
  ∀ (s : State),
    let k := s.msg.a
    let u := fromRouter s k
    (∀ g, condOf s s.msg.agent = .heldAcquire g →
      exec .acquireReissue s = .next { setCond { s with cur := s.msg.agent } .waiting with cur := s.cur }) ∧
    (∀ m, (core s k).serving = none → nextMiss u k = some m →
      let taken := fromRouter (modCore u k (fun x => { x with smq := x.smq.erase m })) k
      (ctx? u m.ctx = none → exec .scopeMissMessage s = .next (owe taken [ev .scopeMissMessage k])) ∧
      (∀ x, ctx? u m.ctx = some x →
        ((x.frozen ≠ none ∨ boundTo u k m.ctx = []) →
          exec .scopeMissMessage s = .next (owe taken [ev .scopeMissMessage k])) ∧
        (x.frozen = none → boundTo u k m.ctx ≠ [] → x.smvec = 0 →
          (∀ v, repairMiss taken k m = .done v → exec .scopeMissMessage s = .next (owe v [ev .scopeMissMessage k])) ∧
          (repairMiss taken k m = .delay →
            exec .scopeMissMessage s = .next (owe (fileReport u m.ctx (m.cva / 4096)) [ev .scopeMissMessage k])) ∧
          (repairMiss taken k m = .wait → exec .scopeMissMessage s = .next (owe u [ev .scopeMissMessage k]))) ∧
        (x.frozen = none → boundTo u k m.ctx ≠ [] → x.smvec ≠ 0 →
          ∃ t y, exec .scopeMissMessage s = .next t ∧ (core t k).serving = some m ∧ kfind t.threads (k * 17 + 16) = some y ∧
            y = { Thread.start with hart := y.hart, ctx := m.ctx, status := 3, started := s.time } ∧
            y.hart.pc = x.smvec ∧ y.hart.get 1 = BitVec.ofNat 64 m.cva ∧ y.hart.get 2 = BitVec.ofNat 64 m.needed ∧
            y.hart.get 3 = BitVec.ofNat 64 m.markScope ∧ y.hart.segs[0] = x.heap ∧
            y.hart.segs[7] = { base := 0, limit := BitVec.allOnes 48, r := true, w := true, x := false, v := true } ∧
            ∀ n, n ≠ k * 17 + 16 → kfind t.threads n = kfind s.threads n)))

/-- The copy engine and the pager (R160, R254, R255, R269): a chunk in flight is performed, delayed or faults, and is over once none of
its bytes waits in a write queue (R99); a page is brought in, and every thread and Retriever of the context that waits on it issues its
word again, with the failure where there is one (R122).

Code pages (R160): a page whose digest does not match stays unmapped and its object is tainted; a page that matches
enters memory with its relocations applied.

A chunk that has met no fault moves its bytes (R251, R252, R254): byte t of the stream reaches destination byte t, where several
reach one location the highest stands, also one of a chunk above that was performed before, and no other byte changes. What dies held for
themselves of what it reads through a non-native view, and of what it writes, comes home first (R97, R105, R272).

That a report waits while no frame is left for its page, and that pages ahead are brought in by rising addresses, is the model's choice
(log 3); that each byte which a faulting chunk has read may be written or not is a free truth value (log 9). -/
def Obligations.CopyEngineAndPager : Prop :=
  (∀ (s : State),
      let p := s.msg.a
      let id := s.msg.b
      let k := s.msg.c
      (findCopy s p id = none → exec .chunkDone s = .next s ∧ exec .chunkFault s = .next s) ∧
      (∀ c, findCopy s p id = some c → k ∉ c.live → exec .chunkDone s = .next s ∧ exec .chunkFault s = .next s) ∧
      (∀ c, findCopy s p id = some c → k ∈ c.live →
        let home := served s (c.indexRefs s (c.chunkBytes k))
        let ends (t : State) (op n : Nat) : State :=
          if opQueued t op = true then
            owe (modCopy t p id (fun y => if ∃ w ∈ y.wrote, w.1 = k then y else { y with wrote := y.wrote ++ [(k, op, n)] }))
              [ev .chunkDone p id k]
          else endChunk (arriveBytes t p c n) p id k
        (∀ op n, c.wrote.find? (fun w => w.1 == k) = some (k, op, n) →
          exec .chunkDone s = .next (ends s op n) ∧ exec .chunkFault s = .next s) ∧
        ((∀ w ∈ c.wrote, w.1 ≠ k) →
          (∀ l, judgeChunk s c k = .ok l →
            exec .chunkDone s = .next (ends (writeChunk s p c k l) s.nextId (c.chunkBytes k).length)) ∧
          (∀ a, judgeChunk s c k = .delay a →
            exec .chunkDone s = .next (fileReport (owe s [ev .chunkDone p id k]) c.ctx (a / 4096))) ∧
          (∀ side kind a, judgeChunk s c k = .bad side kind a → exec .chunkDone s = .next (owe s [ev .chunkFault p id k])) ∧
          (∀ side kind a, (judgeChunk s c k = .bad side kind a ∨ s.msg.flag = true ∧ kind = 7 ∧ side = false ∧
              ∃ d x l, judgeChunk s c k = .ok ((d, x) :: l) ∧ a = x.cva) →
            ∃ part, (∀ x ∈ part, ∃ t ∈ c.chunkBytes k, streamByte home c t = .ok x.1 x.2) ∧
              let read := (c.chunkBytes k).filter (fun t => match streamByte home c t with | .ok _ _ => true | _ => false)
              exec .chunkFault s = .next (ends (modCopy (writeChunk { s with free := s.free + read.length } p c k part)
                p id (fun c => { c with bad := c.bad ++ [(k, kind, side, a)] })) s.nextId part.length)) ∧
          ((∀ side kind a, judgeChunk s c k ≠ .bad side kind a) →
            (s.msg.flag = false → exec .chunkFault s = .next (owe s [ev .chunkDone p id k])) ∧
            (s.msg.flag = true → (judgeChunk s c k = .ok [] ∨ ∃ a, judgeChunk s c k = .delay a) → exec .chunkFault s = .next s)))) ∧
      (let c := s.msg.a
       let page := s.msg.b
       let finish (u : State) (code : Nat) : State := owe
         (modCtx u c (fun x => { x with reports := x.reports.filter (· != page) })) [ev .wakeMessage c page code]
       let ahead (u : State) : State := bringAhead c (aheadOf u c page) (page + 1) u
       ((∀ x, ctx? s c = some x → page ∉ x.reports) → exec .pageReport s = .next s) ∧
       ∀ x, ctx? s c = some x → page ∈ x.reports →
        ((pageEntry s c page).getLsbD 0 = false → exec .pageReport s = .next (finish s 2)) ∧
        ((pageEntry s c page).getLsbD 0 = true → (pageEntry s c page).getLsbD 1 = true →
          exec .pageReport s = .next (finish (ahead s) 0)) ∧
        ((pageEntry s c page).getLsbD 0 = true → (pageEntry s c page).getLsbD 1 = false →
          (∀ u code, bringPage s c page s.msg.flag = some (u, code) →
            exec .pageReport s = .next (finish (if code = 0 then ahead u else u) code)) ∧
          (bringPage s c page s.msg.flag = none → exec .pageReport s = .next (owe s [ev .pageReport c page])))) ∧
      (let c := s.msg.a
       let page := s.msg.b
       let parked (x : Cond) : Prop := ∃ cva, x = .parkedPage cva ∧ cva / 4096 = page
       let lost : Option Nat := if s.msg.c = 2 then some page else none
       (frozenCtx s c = true → exec .wakeMessage s = .next s) ∧
       (frozenCtx s c = false → ∃ t, exec .wakeMessage s = .next t ∧
        t = { s with threads := t.threads, rets := t.rets, cores := t.cores } ∧
        (krising s.threads = true →
          (∀ n, kfind s.threads n = none → kfind t.threads n = none) ∧
          (∀ n x, kfind s.threads n = some x →
            (x.ctx = c ∧ parked x.cond → kfind t.threads n = some { x with cond := .waiting, noPage := lost } ∧
              ∃ e ∈ (core t (coreOf n)).trace, e.kind = 4 ∧ e.code = s.msg.c ∧ e.hw = hwOf n ∧ e.pc = x.hart.pc) ∧
            (¬(x.ctx = c ∧ parked x.cond) → kfind t.threads n = some x)) ∧
          (∀ k, core t k = { core s k with trace := (core t k).trace }) ∧
          (∀ k, (∀ n x, kfind s.threads n = some x → coreOf n = k → ¬(x.ctx = c ∧ parked x.cond)) → core t k = core s k)) ∧
        (krising s.rets = true →
          (∀ n, kfind s.rets n = none → kfind t.rets n = none) ∧
          (∀ n r, kfind s.rets n = some r →
            let mine : Prop := parked r.cond ∧ ∃ o, r.owner = some o ∧ (thr s o).ctx = c
            (mine → kfind t.rets n = some { r with cond := .waiting, noPage := lost }) ∧
              (¬mine → kfind t.rets n = some r)))))) ∧
  (∀ (s : State) (c k : Nat) (x : Ctx) (i : Image), ctx? s c = some x → kfind x.images k = some i → i.bad = false →
      x.heap.base.toNat % 4096 = 0 → k * 4096 < x.heap.limit.toNat →
      let page := x.heap.base.toNat / 4096 + k
      (∀ err, (err = true ∨ sha256 i.bytes ≠ i.digest) → ∃ t, bringPage s c page err = some (t, 5) ∧ t.pt = s.pt ∧
        ∃ y, ctx? t c = some y ∧ i.obj ∈ y.tainted ∧ (∀ o ∈ x.tainted, o ∈ y.tainted) ∧
          kfind y.images k = some { i with bad := true }) ∧
      (sha256 i.bytes = i.digest →
        bringPage s c page false = (fillPage s c page (patchedPage i k)).map (fun t => (t, 0)))) ∧
  (∀ (s : State) (p : Nat) (c : Copy) (k : Nat) (l : List (ByteRef × ByteRef)), judgeChunk s c k = .ok l →
    let idx := c.indexRefs s (c.chunkBytes k)
    let home := served s idx
    let w := standing s c k l
    let b := served home (w.map (·.2))
    let u := writeChunk s p c k l
    let dests := (w.filter (·.1.has)).map (·.1.loc)
    let near := underRefs s ((idx ++ w.map (·.2)).filter (fun r => nonNative s r.pa)) ++ dests
    l.length = min 4096 (c.len - 4096 * k) ∧
    (∀ j x, l[j]? = some x → streamByte home c (4096 * k + j) = .ok x.1 x.2) ∧
    w.Sublist l ∧ (∀ x ∈ l, x ∈ w ∨ (x.1.has = true ∧ ∃ j ∈ c.doneAbove k, x.1.loc ∈ chunkDests s c j)) ∧
    (∀ (j : Nat) (x : ByteRef × ByteRef), w[j]? = some x → x.1.has = true →
      (∀ (i : Nat) (y : ByteRef × ByteRef), j < i → w[i]? = some y → y.1.has = true → y.1.loc ≠ x.1.loc) →
      let v := readShared b (p / 24) x.2
      (offPart x.1.loc = false → u.mem.get x.1.loc = v ∧ ∀ e, sharedLoc u e x.1.loc = v) ∧
        (offPart x.1.loc = true → sharedLoc u (dieOfCore (agentCore c.issuer)) x.1.loc = v)) ∧
    ∀ loc, loc ∉ dests → ¬BroughtHome s near loc → u.mem.get loc = s.mem.get loc ∧ ∀ e, sharedLoc u e loc = sharedLoc s e loc) ∧
  ∀ (s : State) (c : Copy) (t : Nat) (x : ByteRef × ByteRef), streamByte s c t = .ok x.1 x.2 →
    let n (i : Nat) : Nat := (c.ops.getD i 0).toNat
    let z (i : Nat) : Int := (c.ops.getD i 0).toInt
    let goes (doff aoff : Int) : Prop :=
      x.1 = byteRef s c.ctx (c.dsegv.base.toNat + (doff % (2 ^ 64 : Nat)).toNat) ∧
        x.2 = byteRef s c.ctx (c.asegv.base.toNat + (aoff % (2 ^ 64 : Nat)).toNat)
    (c.op = 0 → goes (c.doff.toNat + t) (c.aoff.toNat + t)) ∧
    (c.op = 1 → goes (c.doff.toNat + (t / n 0 : Nat) * z 3 + (t % n 0 : Nat)) (c.aoff.toNat + (t / n 0 : Nat) * z 2 + (t % n 0 : Nat))) ∧
    (c.op = 2 → ∀ r, c.geom = some (0, r) →
      let cols := c.window.2.2.2
      let i := t / r.e / cols
      let j := t / r.e % cols
      (cols : Int) ≤ z 3 / r.e →
        let g : Int := (c.regSide.2.toNat + r.viewOff 0 (c.window.1 + i) (c.window.2.1 + j) + t % r.e : Nat)
        let lin (off : Word) : Int := off.toNat + i * z 3 + (j * r.e + t % r.e : Nat)
        (c.fromRegion = true → goes (lin c.doff) g) ∧ (c.fromRegion = false → goes g (lin c.aoff))) ∧
    (c.op = 3 →
      let entry := (span ((n 2 + 4 * (t / 2 ^ n 1)) % 2 ^ 64) 4).map (fun o => byteRef s c.ctx (c.asegv.base.toNat + o))
      let index := leNat (entry.map (readShared s (dieOfCore (c.thread / 17))))
      x.1 = byteRef s c.ctx (c.dsegv.base.toNat + (c.doff.toNat + t) % 2 ^ 64) ∧
        x.2 = byteRef s c.ctx (c.asegv.base.toNat + ((c.aoff.toNat + index) % 2 ^ 64 + t % 2 ^ n 1)))

/-! ### Units, lanes and the map -/

/-- Lanes and the resource map: parked threads woken and moved, errors counted and the third of a unit within a second
lasting, an instruction-cache error (R162), the map's increments (R341), deadlines, links, an
entropy source tested again: whether it then passes, where time brings the test, is a free truth
value (log 13).

What an increment makes of the engines (R2, R24, R250, R336): no record exceeds its figure; the contexts on a core that is retired are to
be unbound from it; a running Retriever that is retired stops at its command boundary; an array that is retired is reset; lost ways hold
nothing; every context with a frame or a tile on a retired channel takes INTEG, and a channel's lasting fault withdraws its memory in the
same version (R346). A unit recorded absent is retired (R2), such a pool's cores pre-empted (log 36). RMEVENT is
vector 4 of each function with a live context, and the physical function's (R342). Waiting reports share it. That a core
which cannot be read out is told by a part number is the model's choice (log 21).

Slots that are owed lanes (R187, R191, R239): a gang takes a whole free block, any other thread lanes slot by slot, and no value changes.
Lanes that err (R186 to R189): the third error within a second retires; slices are rebuilt with every value where parity allows it, and
otherwise every context with a slice there takes INTEG. Logs 8, 17, 21, 24 and 37 name the model's choices: lanes taken first, errors that count,
an INTEG of no thread, a port that is down, an error of a spill area.

The dump of a frozen context (R354 to R356): its image, with as many of its sections in order as fit, goes to the lowest free place of
its tenant's window, else its header goes to the header slot, else it is lost and counted; what the context held is freed. A word that
an unbind would let complete completes first (R132). Its open bytes are free values (log 13), places not stated the
model's choice (log 3). -/
def Obligations.UnitsAndMap : Prop :=
  (∀ (s : State),
      (let t := s.msg.a
       let x := thr s t
       hasThr s t = true →
        (x.cond = .parkedGrant → frozenCtx s x.ctx = false → wakesAtGrant s t = true →
          exec .grantWake s = .next (modThr s t (fun x => { x with cond := .waiting }))) ∧
        (frozenCtx s x.ctx = true → exec .grantWake s = .next s) ∧
        (movable s t = true → x.vloads = [] → x.lost = [] → movesTo s t s.msg.nats = true →
          exec .sliceMove s = .next (wakePool (setThr s t { x with lanes := s.msg.nats }) (poolOf t))) ∧
        exec .slicePlaced s = .next (placeOwed s t)) ∧
      (let p := s.msg.a
       let l := s.msg.b
       let u := laneErrors s p (l :: s.msg.nats.filter (fun k => k != l && k / 32 == l / 32)).dedup (s.msg.d == 1)
       ((96 ≤ p ∨ 1024 ≤ l) → exec .laneLost s = .next s) ∧
       (p < 96 → l < 1024 → (s.msg.flag = false ∨ holders s p s.msg.c = []) → exec .laneLost s = .next u) ∧
       (p < 96 → l < 1024 → s.msg.flag = true → holders s p s.msg.c ≠ [] →
        exec .laneLost s = .next (noteLoss (integCtx u s.msg.c) s.msg.c (fun f => { f with lsp := f.lsp ++ [p] })))) ∧
      exec .mapChange s = .next (applyMap s (s.msg.recs.filter (fun p => figuresOk p.1 p.2))) ∧
      (let c := s.msg.a
       let ts := (s.threads.filter (fun q => q.2.ctx == c)).map (·.1)
       let goOn (u : State) : State :=
         let w := ts.foldl finishWord u
         if ts.any (fun n => (lateWord w n).isSome) then owe w [ev .ackDeadline c] else w
       (∀ x, ctx? s c = some x → x.suspended = true → x.frozen = none → exec .ackDeadline s = .next (goOn s)) ∧
       ∀ x t, ctx? s c = some x → x.suspended = false → x.frozen = none → x.arrears = some t →
        let v := withdraw (modCtx s c (fun x => { x with suspended := true })) (fun n => (thr s n).ctx == c)
        (s.time < t + 10 ^ 7 → exec .ackDeadline s = .next s) ∧
        (t + 10 ^ 7 ≤ s.time → exec .ackDeadline s = .next
          { goOn v with keeper := { (goOn v).keeper with irqs := (goOn v).keeper.irqs ++ [(x.tenant, 7)] } }) ∧
        (t + 10 ^ 7 ≤ s.time → (∀ n ∈ ts, lateWord v n = none) → ∃ u, exec .ackDeadline s = .next u ∧ BytesKept s u ∧
          ctx? u c = some { x with suspended := true } ∧ u.keeper.irqs = s.keeper.irqs ++ [(x.tenant, 7)] ∧
          u = { s with ctxs := u.ctxs, keeper := u.keeper, threads := u.threads, rets := u.rets } ∧
          let stopped (y : Cond) : Cond := match y with
            | .heldAcquire _ => .ready
            | .parkedPage _ => .ready
            | .parkedGrant => .ready
            | .awaiting (.pginv _ _) => .ready
            | y => y
          (∀ n, kfind u.threads n = (kfind s.threads n).map (fun y =>
            if y.ctx ≠ c then y
            else if y.lost ≠ [] ∧ y.mqueue.any (·.long) = true then { y with cond := .ready, noPage := none, mqueue := [] }
            else { y with cond := stopped y.cond, noPage := none })) ∧
          ∀ n, kfind u.rets n = (kfind s.rets n).map (fun r =>
            if ∃ o ∈ r.owner, (thr s o).ctx = c then { r with cond := stopped r.cond, noPage := none } else r))) ∧
      (let n := s.msg.a
       let sub := s.msg.b
       let wait := s.msg.c == 1
       (mapRec s n = none → exec .unitError s = .next s) ∧
       ∀ r, mapRec s n = some r →
        let unc := s.msg.flag || (r.kind == 0x0D && sub == 1)
        (s.msg.flag = false → r.kind = 0x05 → sub < 32 → exec .unitError s = .next (countUnit s n false)) ∧
        (s.msg.flag = true → r.kind = 0x05 → sub < 32 →
          exec .unitError s = .next (laneErrors s ((n - 6144) / 32) [(n - 6144) % 32 * 32 + sub] wait)) ∧
        (¬(r.kind = 0x05 ∧ sub < 32) →
          let q := noteError (countUnit s n unc) (errKey n (if r.kind = 0x05 then 32 else if r.kind = 0x0D then sub else 0))
          let u := if unc then s.msg.nats.foldl (fun t pa => hitData t n r.kind pa) q.1 else q.1
          let report (u : State) : State := if q.2 then reportFaults [] u [(n, sub)] wait else u
          ((unc = false ∨ r.kind ≠ 0x03 ∨ sub < 2) → exec .unitError s = .next
            (if unc = true ∧ r.kind = 0x0D ∧ sub = 0 ∧ (wait = true ∨ q.2 = false) then loseArray (report u) (n - 12896) else report u)) ∧
          (∀ t, unc = true → r.kind = 0x03 → s.msg.nats = [] → s.msg.agent = .thread t → coreOf t + 128 = n →
            hasThr s t = true → frozenCtx s (thr s t).ctx = false → suspendedCtx s (thr s t).ctx = false →
            (sub = 2 → ((thr s t).cond = .ready ∨ (thr s t).cond = .waiting) →
              exec .unitError s = .next (report (trapThread q.1 t 5 0 0))) ∧
            (sub = 3 → exec .unitError s = .next (report (countErr q.1 (thr s t).ctx 0))))) ∧
        (r.kind = 0x0B → s.msg.b ≠ 0 → s.msg.b ≤ r.auxA / 256 % 256 →
          exec .linkRetrain s = .next (applyMap s [(n, linkAt n s.msg.b r)])) ∧
        (r.kind = 0x0C → s.msg.b ≤ 4 → r.auxA.testBit 16 = true →
          exec .linkRetrain s = .next (applyMap s [(n, portAt s.msg.b r)]))) ∧
      (∀ r, s.msg.a < 16 → mapRec s (12864 + s.msg.a) = some r → 1 ≤ s.msg.b → s.msg.b ≤ 63 → 1 ≤ s.msg.c → s.msg.c ≤ 4 →
        r.auxA.testBit 16 = false → exec .packlinkLinkUp s = .next (applyMap
          (modKeeper s (fun k => { k with peers := kset k.peers s.msg.b { windows := (pairs s.msg.nats).take 16 } }))
          [(12864 + s.msg.a, portAt s.msg.c { r with auxA := s.msg.b * 256 })])) ∧
      (let d := s.msg.a
       let tested (u : State) : State := modKeeper u (fun k => { k with retested := kset k.retested d s.time })
       ∀ r, mapRec s (saRec d) = some r →
        (4 ≤ d ∨ recLive r = false ∨ r.auxA.testBit 0 = true ∨ s.time < kget s.keeper.retested d 0 + 10 ^ 9 →
          exec .entropyRetest s = .next s) ∧
        (d < 4 → recLive r = true → r.auxA.testBit 0 = false → kget s.keeper.retested d 0 + 10 ^ 9 ≤ s.time →
          let passes := if s.msg.b = 1 then (Config.openWord s.free).getLsbD 0 else s.msg.flag
          let u : State := if s.msg.b = 1 then { s with free := s.free + 1 } else s
          (passes = true → exec .entropyRetest s =
            .next (applyMap (tested u) [(saRec d, { r with state := 1, auxA := r.auxA + 1 })])) ∧
          (passes = false → exec .entropyRetest s = .next (tested u)))) ∧
      (∀ x f, ctx? s s.msg.a = some x → x.frozen = some f → x.sealed = false →
        let c := s.msg.a
        let u := ((s.threads.filter (fun t => t.2.ctx == c)).map (·.1)).foldl finishWord (releaseRets (settleClosing s) c)
        let busy := (∃ q ∈ u.threads, q.2.ctx = c ∧ stopsLater u q.1 = true) ∨ ownsRet u c = true ∨ dumpsBefore u f = true
        (busy → exec .dumpBuild s = .next (owe u [ev .dumpBuild c])) ∧
        (¬busy → ∃ t y z, exec .dumpBuild s = .next t ∧ ctx? u c = some y ∧ ctx? t c = some z ∧ z.sealed = true ∧
          (∀ n v, kfind t.threads n = some v → v.ctx = c → v.vceil = 0) ∧
          (∀ d, (die u d).sa.owner.isSome = true → (die u d).sa.ctx = c → (die t d).sa = SArray.reset) ∧
          let old := tenant u y.tenant
          let new := tenant t y.tenant
          (∀ off room, dumpPlace old = some (off, room) → ∃ b, new.dumps = old.dumps ++ [{ off := off, bytes := sealImage b, ctx := c }] ∧
            (y.tenant, 6) ∈ t.keeper.irqs ∧ ∃ n, n ≤ 11 ∧
              b = imageBytes c y f ((dumpSections u c y f).take n) (decide (n < (dumpSections u c y f).length)) ∧
              (b.length + 72 ≤ room ∨ n = 0) ∧ ∀ m, n < m → m ≤ 11 →
                room < (imageBytes c y f ((dumpSections u c y f).take m) (decide (m < (dumpSections u c y f).length))).length + 72) ∧
          (dumpPlace old = none → old.slot = none → new.dumps = old.dumps ∧ (y.tenant, 6) ∈ t.keeper.irqs ∧
            new.slot = some { off := slotOff old, bytes := sealImage (imageBytes c y f [] true), ctx := c }) ∧
          (dumpPlace old = none → old.slot ≠ none →
            new.dumps = old.dumps ∧ new.slot = old.slot ∧ new.dumpsLost = old.dumpsLost + 1)))) ∧
  (∀ (s : State) (key : Nat),
      let near := (kget s.keeper.recent key []).filter (fun t => decide (s.time < t + 10 ^ 9))
      ((noteError s key).2 = true ↔ 2 ≤ near.length) ∧
        (noteError s key).1 = { s with keeper := { s.keeper with recent := kset s.keeper.recent key ((s.time :: near).take 2) } }) ∧
  (∀ (s : State) (n : Nat),
      let x := thr s n
      let t := placeOwed s n
      t = { s with threads := t.threads, owed := t.owed } ∧ (∀ j, j ≠ n → kfind t.threads j = kfind s.threads j) ∧
        thr t n = { x with lanes := (thr t n).lanes, lost := (thr t n).lost, placing := (thr t n).placing } ∧
        ((x.lost = [] ∨ frozenCtx s x.ctx = true) → t = s) ∧
        (x.lost ≠ [] → frozenCtx s x.ctx = false →
          (x.mvl ≠ 0 → firstBlock s n (x.mvl / 8) = none → t = s) ∧
          (x.mvl ≠ 0 → ∀ b, firstBlock s n (x.mvl / 8) = some b → (thr t n).lanes = b ∧ (thr t n).lost = []) ∧
          (x.mvl = 0 →
            let ls : List Nat := if x.placing then freeLanes s n x.lost.length else rebuildLanes s n x.lost.length
            ((thr t n).placing = true ↔ x.placing = true ∧ ls.length < x.lost.length) ∧
            (thr t n).lost = x.lost.drop ls.length ∧
            (∀ j, j ∉ x.lost → (thr t n).lanes[j]? = x.lanes[j]?) ∧
            (x.lost.Nodup → ∀ (i j l : Nat), x.lost[i]? = some j → ls[i]? = some l → j < x.lanes.length →
              (thr t n).lanes[j]? = some l)))) ∧
  (∀ (s : State) (p l : Nat) (wait : Bool), (∀ q ∈ s.threads, q.2.mqueue = []) → s.keeper.waiting = [] →
      let t := laneErrors s p [l] wait
      let n := 6144 + p * 32 + l / 32
      let near := (kget s.keeper.recent (errKey n (l % 32)) []).filter (fun t => decide (s.time < t + 10 ^ 9))
      (∀ r, mapRec s n = some r → r.kind = 0x05) →
      (laneLive s p l = false → t = s) ∧
      (laneLive s p l = true →
        kget t.keeper.errU n 0 = min (2 ^ 32 - 1) (kget s.keeper.errU n 0 + 1) ∧
        (∀ j, groupProtected s p l = true → kfind t.threads j = (kfind s.threads j).map (fun x => { x with
          lanes := (thr t j).lanes, lost := (thr t j).lost, placing := (thr t j).placing })) ∧
        (∀ j, hwOf j ≠ 16 → kfind t.threads j = (kfind s.threads j).map (fun x => { x with
          lanes := (thr t j).lanes, lost := (thr t j).lost, placing := (thr t j).placing, dead := (thr t j).dead
          cond := (thr t j).cond, noPage := (thr t j).noPage })) ∧
        (groupProtected s p l = true → ∀ c, (ctx? t c).map (·.frozen) = (ctx? s c).map (·.frozen)) ∧
        (groupProtected s p l = false → ∀ j x y, kfind s.threads j = some x → poolOf j = p → slotsIn x [l] ≠ [] →
          ctx? s x.ctx = some y → y.frozen = none → ∃ z f, ctx? t x.ctx = some z ∧ z.frozen = some f ∧ f.cause = causeWord 5 0) ∧
        (near.length < 2 → t.keeper.version = s.keeper.version ∧ t.keeper.map = s.keeper.map ∧ t.keeper.waiting = []) ∧
        (2 ≤ near.length → wait = true → t.keeper.waiting = [(n, l % 32)] ∧ t.keeper.map = s.keeper.map) ∧
        (∀ r, 2 ≤ near.length → wait = false → mapRec s n = some r → r.kind = 0x05 → recLive r = true → l < 1024 →
          t.keeper.version = s.keeper.version + 1 ∧
          ∃ r', mapRec t n = some r' ∧ r'.state = 2 ∧ r'.value = r.value - 1 ∧ r'.auxA.testBit (l % 32) = false ∧
            ∀ k, k ≠ l % 32 → r'.auxA.testBit k = r.auxA.testBit k))) ∧
  (∀ (s : State) (recs : List (Nat × MapRec)), (recs.map (·.1)).Nodup → (∀ q ∈ s.threads, q.2.mqueue = []) →
      let t := applyMap s recs
      let changes (n : Nat) (r : MapRec) : Prop := (n, r) ∈ recs ∧ ∃ old, mapRec s n = some old ∧ recContent old ≠ recContent r
      t.keeper.waiting = [] ∧ t.keeper.version ≤ s.keeper.version + 1 ∧
      (s.keeper.waiting = [] →
        (∀ n r, changes n r → t.keeper.version = s.keeper.version + 1 ∧ (16, 0) ∈ t.keeper.irqs ∧
          mapRec t n = some { r with changed := s.keeper.version + 1 }) ∧
        (∀ n, (∀ r, ¬changes n r) → mapRec t n = mapRec s n) ∧
        ((∀ n r, mapRec s n = some r → figuresOk n r = true) → (∀ p ∈ recs, figuresOk p.1 p.2 = true) →
          ∀ n r, mapRec t n = some r → figuresOk n r = true) ∧
        ∀ n r old, recs = [(n, r)] → mapRec s n = some old → r.kind = old.kind →
          (r.kind = 0x03 → recLive old = true → recLive r = false → ∀ c x j y, ctx? s c = some x → kfind s.threads j = some y → y.ctx = c →
            coreOf j = n - 128 → hwOf j ≠ 16 → (∃ z, ctx? t c = some z ∧ n - 128 ∈ z.unbinding) ∧ ev .unbind (n - 128) c ∈ t.owed) ∧
          (r.kind = 0x02 → recLive old = true → recLive r = false → ∀ c x j y, ctx? s c = some x → kfind s.threads j = some y →
            y.ctx = c → poolOf j = n - 16 → 16 ≤ n → hwOf j ≠ 16 →
            (∃ z, ctx? t c = some z ∧ coreOf j ∈ z.unbinding) ∧ ev .unbind (coreOf j) c ∈ t.owed) ∧
          (r.kind = 0x0A → recLive old = true → recLive r = false → ∀ c x, ctx? s c = some x → x.frozen = none →
            (∃ f ∈ s.keeper.frames, f.2 = c ∧ ∃ i, i < 16 ∧ channelOf (f.1 * 4096 + 256 * i) = n - 12320) ∨
              (∃ g ∈ s.regions, g.2.ctx = c ∧ ∃ i, i < min 256 g.2.tiles ∧ g.2.channel i = n - 12320) →
            ∃ z f, ctx? t c = some z ∧ z.frozen = some f ∧ f.cause = causeWord 5 0 ∧ f.thread = 2 ^ 32 - 1) ∧
          (r.kind = 0x04 → recLive old = true → recLive r = false → (ret s (n - 2048)).state = 2 →
            ((∀ w, (ret s (n - 2048)).cond ≠ .awaiting w) → (ret t (n - 2048)).state = 3) ∧
            (∀ w, (ret s (n - 2048)).cond = .awaiting w → ret t (n - 2048) = { ret s (n - 2048) with stop := true })) ∧
          (r.kind = 0x06 → recContent old ≠ recContent r → ∀ q ∈ (die t ((n - 10240) / 384)).l2, q.1 / 128 = (n - 10240) % 384 →
            ∀ w ∈ q.2, w.way < (if recLive r = true then r.value else 0)) ∧
          (r.kind = 0x0D → recLive old = true → recLive r = false → (die t (n - 12896)).sa = SArray.reset))) ∧
  (∀ (s : State) (n : Nat) (r : MapRec), 12320 ≤ n → n < 12576 → mapRec s n = some r → r.kind = 0x0A → recLive r = true →
      s.keeper.waiting = [(n, 0)] →
      let t := applyMap s []
      let ch := n - 12320
      let first : Prop := ∀ k, ch / 16 * 16 ≤ k → k < ch / 16 * 16 + 16 → channelRetired s k = false
      let lent := (s.regions.map (fun g => g.2.rowsTaken * 2 ^ 15)).sum
      t.keeper.version = s.keeper.version + 1 ∧ (mapRec t n).map (·.state) = some 3 ∧
      (∀ q, mapRec s (12288 + ch / 32) = some q → recLive q = true → ∃ q', mapRec t (12288 + ch / 32) = some q' ∧
        q'.state = 2 ∧ q'.value = q.value - 1 ∧ q'.auxA.testBit (ch % 32) = false ∧
        (first → q'.auxB = q.auxB - 2 ^ 35) ∧ (¬first → q'.auxB = q.auxB)) ∧
      ∀ h, mapRec s 0 = some h → recLive h = true → ∃ h', mapRec t 0 = some h' ∧
        (first → h'.auxA = h.auxA - (2 ^ 35 - lent)) ∧ (¬first → h'.auxA = h.auxA)) ∧
  (∀ (s : State) (recs : List (Nat × MapRec)), (recs.map (·.1)).Nodup →
      let t := changeMap s recs
      let changes (n : Nat) (r : MapRec) : Prop := (n, r) ∈ recs ∧ ∃ old, mapRec s n = some old ∧ recContent old ≠ recContent r
      ((∀ n r, ¬changes n r) → t = s) ∧
      (∀ n r, changes n r → t.keeper.version = s.keeper.version + 1 ∧ mapRec t n = some { r with changed := s.keeper.version + 1 } ∧
        (∃ l, t.keeper.irqs = s.keeper.irqs ++ l ∧ (16, 0) ∈ l ∧
          ∀ i, i < 16 → ((i, 4) ∈ l ↔ ∃ p ∈ s.ctxs, p.2.tenant = i)) ∧
        ∀ c x, ctx? s c = some x → ctx? t c = some (if x.frozen = none ∧ x.arrears = none then { x with arrears := some s.time } else x)) ∧
      (∀ n, (∀ r, ¬changes n r) → mapRec t n = mapRec s n))

/-! ### The host, peers, the mailbox and the operator -/

/-- Accesses from outside the part (R93, R352, R367): a write's bytes on pages present and writable reach their homes, where no die
holds an older byte for itself any more, every other location keeps its byte, and a page that is not present is reported; a read is
answered from the homes, what a die held for itself brought home first (R91, R272, R301), or aborted; a peer reaches only what has been exported to it, and its acquire is held where a release left
a mark narrower than .w. That the host reads a function's BAR by the same event is the model's choice (log 30). -/
def Obligations.OutsideAccesses : Prop :=
  ∀ (s : State),
    (let c := s.msg.a
     (ctx? s c = none → exec .hostWrite s = .next s ∧ (s.msg.flag = false → exec .hostRead s = .next s)) ∧
     (s.msg.flag = true → exec .hostRead s =
        .next (modKeeper s (fun k => { k with reply := barRead s s.msg.a s.msg.b s.msg.c s.msg.d }))) ∧
     (ctx? s c ≠ none →
      (let l := (span s.msg.b s.msg.bytes.length).map (hostByte s c 1)
       (∀ refs : List ByteRef, l = refs.map .ok →
        exec .hostWrite s = .next (outsideWrite s (tenantOf s c) 4 (refs.zip s.msg.bytes))) ∧
       ((∃ x ∈ l, ∀ r, x ≠ .ok r) →
        let ok := (l.zip s.msg.bytes).filterMap (fun p => match p.1 with | .ok r => some (r, p.2) | _ => none)
        exec .hostWrite s = .next (hostReports (countErr (outsideWrite s (tenantOf s c) 4 ok) c 9) c l))) ∧
      (let l := (span s.msg.b s.msg.c).map (hostByte s c 0)
       (∀ refs : List ByteRef, s.msg.flag = false → l = refs.map .ok → ∃ t, exec .hostRead s = .next t ∧
        t.keeper.reply = refs.map (readShared (recalled s (underRefs s refs)) 4) ∧ t.mem = (recalled s (underRefs s refs)).mem ∧
        t.threads = s.threads ∧ t.ctxs = s.ctxs ∧
        (∀ d n, (∃ r ∈ refs, ∃ loc, r.at_ = .byte loc ∧ offPart loc = false ∧ inPools (nativePa s loc) = false ∧
            nativePa s loc / 128 = n / 128) → l2Owns t d n = false)) ∧
       (s.msg.flag = false → (∃ x ∈ l, ∀ r, x ≠ .ok r) → exec .hostRead s =
        .next (hostReports (countErr (modKeeper s (fun k => { k with aborts := k.aborts + 1 })) c 9) c l))))) ∧
    (let ask := (kfind s.keeper.peers s.msg.a).bind (fun p => if s.msg.b < 16 then p.windows[s.msg.b]? else none)
     let at_ (base : Nat) := (span (base + s.msg.c) s.msg.bytes.length).map (fun pa => (⟨pa, pa, 0, place s pa⟩ : ByteRef))
     (ask = none → exec .peerAccess s = .next s) ∧
     (∀ base size, ask = some (base, size) → size < s.msg.c + s.msg.bytes.length → exec .peerAccess s = .next s) ∧
     (∀ base size, ask = some (base, size) → (∃ r ∈ at_ base, r.has = false) → exec .peerAccess s = .next s) ∧
     (∀ base size, ask = some (base, size) → s.msg.c + s.msg.bytes.length ≤ size → (∀ r ∈ at_ base, r.has = true) →
      (s.msg.flag = true → ∃ tn, exec .peerAccess s = .next (outsideWrite s tn 5 ((at_ base).zip s.msg.bytes))) ∧
      (s.msg.flag = false →
        let narrow (loc : Nat) : Prop := ∃ m, kfind s.marks (granule s loc) = some m ∧ m.scope < 6
        (s.msg.e ≠ 1 ∨ (∀ r ∈ at_ base, ¬narrow r.loc) → ∃ t, exec .peerAccess s = .next t ∧
          t.keeper.reply = (at_ base).map (readShared (recalled s (underRefs s (at_ base))) 4) ∧
          t.mem = (recalled s (underRefs s (at_ base))).mem ∧ t.peerHeld = s.peerHeld) ∧
        (s.msg.e = 1 → (∃ r ∈ at_ base, narrow r.loc) → ∃ t, exec .peerAccess s = .next t ∧
          (∃ r ∈ at_ base, narrow r.loc ∧ t.peerHeld = s.peerHeld ++ [(granule s r.loc, s.msg)]) ∧
          t.keeper = s.keeper ∧ t.mem = s.mem)))) ∧
    (∀ tn kind (l : List (ByteRef × Byte)),
      let w := (l.filter (fun p => p.1.has)).map (fun p => (p.1.loc, p.2))
      let u := outsideWrite s tn kind l
      HomesOnly s u ∧ u.stores = s.stores ∧
      (∀ loc b, lastWrite w loc = some b → u.mem.get loc = b ∧ (offPart loc = false → ∀ d, uoqRead u d loc = none)) ∧
      ∀ loc, lastWrite w loc = none → ¬BroughtHome s (w.map (·.1)) loc → u.mem.get loc = s.mem.get loc) ∧
    (∀ c (l : List HostByte) x, ctx? s c = some x → ∃ y, ctx? (hostReports s c l) c = some y ∧ (hostReports s c l).mem = s.mem ∧
      (∀ page, page ∈ y.reports ↔ page ∈ x.reports ∨ .absent page ∈ l) ∧
      ∀ page, .absent page ∈ l → page ∉ x.reports → ev .pageReport c page ∈ (hostReports s c l).owed)

/-- The mailbox (R349, R350): a request that reaches an enabled function with nothing pending is served and answered at once, one that
finds others pending is posted and waits for its turn; one about another tenant's context is answered DENIED; one that arrives while 16
are pending is dropped and not counted. A destroyed context leaves nothing behind but its sealed images; a region freed is scrubbed, its
rows come back in one increment of the map; TRACE copies the context's entries of every ring, oldest first, 32 bytes each (R357, R358).

What the management core makes of the requests about contexts, mappings and regions (R112, R268, R283, R296, R349, R350): a new mapping,
or one changed once every access under the old one is performed, the rest of the mappings that it meets staying as they were; a region
under the lowest free number, its store zeros.

The loader (R150 to R159): the first check that fails gives the status, the first record that fails its index; the object's extent is
free, at PREFBASE where that is, else at the lowest offset that serves; its pages enter the image store with their digests, and its
kernels and global symbols the context's tables, together.

These clauses are the model's choice: the addresses of the code heap and the aperture, of views and of data blocks, a region's channel
offset and rows, and DENIED for a REGFREE of a region that does not exist (log 3), the grant as a free value (log 13),
the packing of the error counts and the widths of the report's fields (log 14), no BUSY for DUMPFREE (log 25), the statuses that
Table 6.7 does not give (log 32), the context's TVEC and SMVEC taken with the request, the answer to a code that no row lists, and BADARG
for arguments that the manual does not rule on, those of CTXNEW, LOAD, MAP, UNMAP, REGION, DUMPFREE, TRACE and ATTEST among them
(log 33). -/
def Obligations.Mailbox : Prop :=
  (∀ (s : State),
      let rows : List (Instr × (State → Reply)) :=
        [(.ctxnew, newCtx), (.ctxdel, onCtx delCtx), (.load, onCtx serveLoad), (.map, onCtx serveMap),
         (.unmap, onCtx serveUnmap), (.region, onCtx serveRegion), (.regfree, onCtx serveRegfree), (.trace, onCtx serveTrace),
         (.mapread, fun s => .done s 0 [mapDword s s.msg.c s.msg.d]),
         (.errs, onCtx (fun s _ x => .done s 0 (packCounts (errCounts s x)))),
         (.mailboxRmack, onCtx (fun s c _ =>
            .done (ackVersion s c s.msg.d true).1 0 [BitVec.ofNat 64 (ackVersion s c s.msg.d true).2])),
         (.logctl, fun s => .plain (modTenant s s.msg.a (fun t =>
            if s.msg.flag = true ∧ t.logging = false then { t with logging := true, arr := [], arrSeq := [], arrLost := [] }
            else { t with logging := s.msg.flag })) 0),
         (.dumpfree, fun s =>
            let t := tenant s s.msg.a
            if t.slot ≠ none ∧ s.msg.c = slotOff t then .plain (modTenant s s.msg.a (fun t => { t with slot := none })) 0
            else if ∃ d ∈ t.dumps, d.off = s.msg.c then
              .plain (modTenant s s.msg.a (fun t => { t with dumps := t.dumps.filter (fun d => d.off != s.msg.c) })) 0
            else .plain s 2),
         (.attest, fun s =>
            if s.msg.bytes.length ≠ 32 ∨ 2 ^ 40 < s.msg.c + 4096 then .plain s 2
            else .done (hostPut s s.msg.a s.msg.c (attestFields s s.msg.a s.msg.bytes ++ sigBytes (attestFields s s.msg.a s.msg.bytes))) 0
              [BitVec.ofNat 64 (attestFields s s.msg.a s.msg.bytes ++ sigBytes (attestFields s s.msg.a s.msg.bytes)).length])]
      (∀ p ∈ rows, 1 ≤ s.msg.b % 256 → s.msg.b % 256 ≤ 14 → s.msg.b % 256 ≠ requestCode p.1 → exec p.1 s = .next s) ∧
      (mailFree s → ∀ p ∈ rows, s.msg.b % 256 = 0 ∨ 14 < s.msg.b % 256 →
        ∃ t, exec p.1 s = .next t ∧ Answered s.msg (posted s) t 2 []) ∧
      (mailFree s → ∀ p ∈ rows, s.msg.b % 256 = requestCode p.1 →
        (∀ u result data, p.2 (posted s) = .done u result data →
          ∃ t, exec p.1 s = .next t ∧ Answered s.msg u t result data) ∧
        (∀ u, p.2 (posted s) = .wait u →
          exec p.1 s = .next (owe u [(p.1, { s.msg with nats := [(tenant s s.msg.a).posted.toNat + 1] })]))) ∧
      (∀ f, (∀ x, ctx? s s.msg.c = some x → x.tenant ≠ s.msg.a) →
        onCtx f s = .done (modTenant s s.msg.a (fun t => { t with refused := t.refused + 1 })) 1 []) ∧
      (s.msg.nats = [] → 16 ≤ ((tenant s s.msg.a).posted - (tenant s s.msg.a).done).toNat →
        ∀ p ∈ rows, exec p.1 s = .next s) ∧
      (let had := (tenant s s.msg.a).posted.toNat
       let did := (tenant s s.msg.a).done.toNat
       let mine (p : Instr × (State → Reply)) : Prop := s.msg.b % 256 = requestCode p.1
       (s.msg.nats = [] → s.msg.a < 16 → (tenant s s.msg.a).enabled = true → did < had → had < did + 16 → had + 1 < 2 ^ 64 →
        ∀ p ∈ rows, mine p → exec p.1 s = .next (owe (posted s) [(p.1, { s.msg with nats := [had + 1] })])) ∧
       ∀ n, s.msg.nats = [n] → ∀ p ∈ rows, mine p →
        ((n ≤ did ∨ had < n) → exec p.1 s = .next s) ∧
        (did + 1 < n → n ≤ had → exec p.1 s = .next (owe s [(p.1, s.msg)])) ∧
        (n = did + 1 → n ≤ had →
          (∀ u result data, p.2 s = .done u result data → ∃ t, exec p.1 s = .next t ∧ Answered s.msg u t result data) ∧
          ∀ u, p.2 s = .wait u → exec p.1 s = .next (owe u [(p.1, s.msg)]))) ∧
      exec .mailboxOverflow s = .next s) ∧
  (∀ (s : State),
      let m := s.msg
      ((m.c = 0 ∨ m.c % 4096 ≠ 0 ∨ 2 ^ 32 < m.c) → newCtx s = .done s 2 []) ∧
      (m.c ≠ 0 → m.c % 4096 = 0 → m.c ≤ 2 ^ 32 → ((freeCtx s = none ∨ freePort s m.a = none) → newCtx s = .done s 4 []) ∧
        ∀ c k, freeCtx s = some c → freePort s m.a = some k → ∃ u g x,
          newCtx s = .done u 0 [BitVec.ofNat 64 c, BitVec.ofNat 64 k, BitVec.ofNat 64 (2 ^ 32), BitVec.ofNat 64 (2 ^ 33), g] ∧
          ctx? u c = some x ∧ x.tenant = m.a ∧ x.tvec = BitVec.ofNat 64 m.d ∧ x.smvec = BitVec.ofNat 64 m.e ∧ x.port = k ∧
          x.wanted = (m.words.take 3).map (·.toNat) ∧
          x.heap = { base := BitVec.ofNat 48 (2 ^ 32), limit := BitVec.ofNat 48 m.c, r := true, w := false, x := true, v := false } ∧
          x.gangs = [] ∧ x.frozen = none ∧ x.acked = s.keeper.version ∧ (port u m.a k).ctx = some c ∧
          ∀ j, j ≠ c → ctx? u j = ctx? s j) ∧
      (∀ x, ctx? s m.c = some x →
        (x.frozen ≠ none → x.sealed = false → delCtx s m.c x = .wait s) ∧
        ((x.frozen = none ∨ x.sealed = true) → pginvBusy s m.c 0 0 = true →
          ∃ u, delCtx s m.c x = .wait u ∧ ctx? u m.c ≠ none ∧ u.mem = s.mem) ∧
        ((x.frozen = none ∨ x.sealed = true) → pginvBusy s m.c 0 0 = false → ∃ u, delCtx s m.c x = .done u 0 [] ∧ ctx? u m.c = none ∧
          (s.keeper.waiting = [] → (∀ h, mapRec s 0 = some h → h.kind = 0) → Destroyed s u m.c x))) ∧
      (∀ x, regionOf s m.a m.d = false →
        serveRegfree s m.c x = .done (modTenant s m.a (fun t => { t with refused := t.refused + 1 })) 1 []) ∧
      (∀ x r, regionOf s m.a m.d = true → kfind s.regions m.d = some r →
        let scales : Prop := ∃ q ∈ s.regions, q.2.scaled = true ∧ q.2.scale = m.d
        (r.ctx ≠ m.c → serveRegfree s m.c x = .done s 2 []) ∧
        (r.ctx = m.c → scales → serveRegfree s m.c x = .done s 3 []) ∧
        (r.ctx = m.c → ¬scales → pginvBusy s m.c 0 0 = true → serveRegfree s m.c x = .wait s) ∧
        (r.ctx = m.c → ¬scales → pginvBusy s m.c 0 0 = false → ∃ u, serveRegfree s m.c x = .done u 0 [] ∧
          kfind u.regions m.d = none ∧
          (s.keeper.waiting = [] → (∀ h, mapRec s 0 = some h → h.kind = 0) →
            (∀ j, j ≠ m.d → kfind u.regions j = kfind s.regions j) ∧
            u.pt = (r.views.foldl (fun s v => unmapPages s r.ctx (r.cva + v * 2 ^ 38) (r.viewPages v)) s).pt ∧
            (∀ g ∈ u.marks, granuleIn m.d g.1 = false) ∧ (∀ g ∈ u.poison, granuleIn m.d g.1 = false) ∧
            (∀ i, i < 2 ^ 38 → u.mem.get (storeLoc m.d i) = 0) ∧
            (∀ a, (∀ i, i < 2 ^ 38 → a ≠ storeLoc m.d i) → u.mem.get a = s.mem.get a) ∧
            ∀ h, mapRec s 0 = some h → recLive h = true → 0 < r.rowsTaken → r.lent ≤ h.auxB → h.auxB < 2 ^ 64 →
              u.keeper.version = s.keeper.version + 1 ∧
              mapRec u 0 = some { h with auxA := h.auxA + lentOrdinary s r, auxB := h.auxB - r.lent
                                         changed := s.keeper.version + 1 })))) ∧
  (∀ (s : State) (c : Nat) (x : Ctx),
      let l := ctxTrace s c
      let at_ := hostLoc s.msg.a s.msg.d
      (l.Perm ((s.cores.flatMap (fun k => k.2.trace)).filter (fun e => e.ctx == c)) ∧ l.Pairwise (fun a b => a.time ≤ b.time)) ∧
      (∀ k ∈ s.cores, k.2.trace.Pairwise (fun a b => b.time ≤ a.time) →
        (k.2.trace.filter (fun e => e.ctx == c)).reverse.Sublist l) ∧
      (2 ^ 40 < s.msg.d + 32 * l.length → serveTrace s c x = .done s 2 []) ∧
      (s.msg.d + 32 * l.length ≤ 2 ^ 40 → ∃ u, serveTrace s c x = .done u 0 [BitVec.ofNat 64 l.length] ∧ u = { s with mem := u.mem } ∧
        (∀ a, (∀ i, i < 32 * l.length → a ≠ at_ + i) → u.mem.get a = s.mem.get a) ∧
        ∀ i e, l[i]? = some e → ∀ k, k < 32 →
          u.mem.get (at_ + 32 * i + k) = BitVec.ofNat 8
            ((match k / 8 with
              | 0 => e.time
              | 1 => e.kind % 16 * 2 ^ 60 + e.code % 4096 * 2 ^ 48 + e.ctx * 2 ^ 40 + e.hw * 2 ^ 35
              | 2 => e.pc.toNat
              | _ => e.data.toNat) / 256 ^ (k % 8)))) ∧
  (∀ (s : State) (c : Nat) (x : Ctx),
      let m := s.msg
      let q := m.map
      let bad : Prop := pageRange q.cva q.len = false ∨ 1 < q.sort ∨ q.kind = 3 ∨ 15 < q.ahead ∨ q.host % 4096 ≠ 0 ∨
        2 ^ 40 < q.host + q.len ∨ ∃ r ∈ fixedRanges s c, meets (q.cva, q.len) r = true
      let new : Mapping :=
        { cva := q.cva, len := q.len, sort := q.sort, kind := q.kind, r := q.r, w := q.w, ahead := q.ahead, host := q.host }
      (bad → serveMap s c x = .done s 2 []) ∧
      (¬bad → (∀ y ∈ x.maps, meets (q.cva, q.len) (y.cva, y.len) = false) →
        serveMap s c x = .done (modCtx (mapAbsent s c q.cva (q.len / 4096) q.kind false q.w q.r) c (fun x => { x with
          maps := x.maps ++ [new] })) 0 []) ∧
      (¬bad → (∃ y ∈ x.maps, meets (q.cva, q.len) (y.cva, y.len) = true) →
        (allMapped x q.cva q.len = false → serveMap s c x = .done s 2 []) ∧
        (allMapped x q.cva q.len = true → pginvBusy s c q.cva q.len = true → serveMap s c x = .wait s) ∧
        (allMapped x q.cva q.len = true → pginvBusy s c q.cva q.len = false →
          serveMap s c x = .done (modCtx (rekindPages s c q) c (fun x => { x with
            maps := x.maps.flatMap (cutMapping q.cva q.len) ++ [new] })) 0 [])) ∧
      ((pageRange m.d m.e = false ∨ allMapped x m.d m.e = false) → serveUnmap s c x = .done s 2 []) ∧
      (pageRange m.d m.e = true → allMapped x m.d m.e = true →
        (pginvBusy s c m.d m.e = true → serveUnmap s c x = .wait s) ∧
        (pginvBusy s c m.d m.e = false → serveUnmap s c x = .done
          (modCtx (unmapPages (dropRange s c m.d (m.e / 4096)) c m.d (m.e / 4096)) c (fun x => { x with
            maps := x.maps.flatMap (cutMapping m.d m.e) })) 0 [])) ∧
      ∀ (lo n : Nat) (y : Mapping),
        (∀ z ∈ cutMapping lo n y, z.host + y.cva = y.host + z.cva ∧ z = { y with cva := z.cva, len := z.len, host := z.host }) ∧
        ∀ a, (∃ z ∈ cutMapping lo n y, z.cva ≤ a ∧ a < z.cva + z.len) ↔ y.cva ≤ a ∧ a < y.cva + y.len ∧ ¬(lo ≤ a ∧ a < lo + n)) ∧
  (∀ (s : State) (c : Nat) (x : Ctx),
      let q := s.msg.region
      let r : Region :=
        { ctx := c, choff := 0, scaled := q.scaled, scale := q.scale, decode := q.decode, native := q.native.toNat
          fmt := q.fmt.toNat, rows := q.rows, cols := q.cols, rowbase := 0, cva := 0 }
      let foreign : Prop := q.scaled = true ∧ regionOf s s.msg.a q.scale = false
      let bad : Prop := regionShapeOk r = false ∨ scaleOk s r = false ∨ q.kind = 3
      (foreign → serveRegion s c x = .done (modTenant s s.msg.a (fun t => { t with refused := t.refused + 1 })) 1 []) ∧
      (¬foreign → bad → serveRegion s c x = .done s 2 []) ∧
      (¬foreign → ¬bad → ((∀ n, n < 64 → kfind s.regions n ≠ none) ∨ chooseRow s r = none ∨
          placeCva s c (2 ^ 40) (2 ^ 40) = none ∨ canLend s r = false) → serveRegion s c x = .done s 4 []) ∧
      (¬foreign → ¬bad → ∀ n row cva k, n < 64 → kfind s.regions n = none → (∀ j, j < n → kfind s.regions j ≠ none) →
        chooseRow s r = some row → placeCva s c (2 ^ 40) (2 ^ 40) = some cva → chooseChoff s n r = some k → canLend s r = true →
        s.keeper.waiting = [] → (∀ h, mapRec s 0 = some h → h.kind = 0) →
        let made : Region := { r with choff := k, rowbase := row, cva := cva }
        ∃ u, serveRegion s c x = .done u 0
            (BitVec.ofNat 64 n :: made.views.map (fun v => BitVec.ofNat 64 (cva + v * 2 ^ 38))) ∧
          u.regions = kset s.regions n made ∧ (∀ i, i < 2 ^ 38 → u.mem.get (storeLoc n i) = 0) ∧
          ∀ a, (∀ i, i < 2 ^ 38 → a ≠ storeLoc n i) → u.mem.get a = s.mem.get a)) ∧
  (∀ (s : State) (c : Nat) (x : Ctx),
      let m := s.msg
      (2 ^ 40 < m.d + m.e → serveLoad s c x = .done s 2 []) ∧
      (m.d + m.e ≤ 2 ^ 40 →
        let l := (span (hostLoc m.a m.d) m.e).map s.mem.get
        (∀ u b d, loadObject s c l = .ok (u, b, d) → serveLoad s c x = .done u 0 [0, BitVec.ofNat 64 b, BitVec.ofNat 64 d]) ∧
        (∀ e, loadObject s c l = .error e →
          serveLoad s c x = .done s 0 [BitVec.ofNat 64 e.status, BitVec.ofNat 64 (e.record.getD 0)]))) ∧
  (∀ (s : State) (c : Nat) (x : Ctx) (l : List Byte), ctx? s c = some x →
      let fails (n : Nat) : Prop := loadObject s c l = .error { status := n, record := none }
      (headerOk l = false → fails 1) ∧
      (headerOk l = true → sectsOk l (sectsOf l) = false → fails 2) ∧
      ∀ f, readObject l x.objects = .ok f →
        (∀ e, symbolFail x f.syms = some e → fails e) ∧
        (symbolFail x f.syms = none →
          let n := extentOf f.sects
          let base := loadBase x (le l 8 8) (le l 16 4) n
          let place := placeCva s c (roundUp f.data.length 4096) (2 ^ 34)
          (base = none ∨ place = none → fails 7) ∧
          ∀ b d, base = some b → place = some d →
            let val := symValue x f.sects b d
            (∀ e, relocAll f val b f.relocs.zipIdx = .error e → loadObject s c l = .error e) ∧
            (∀ ps, relocAll f val b f.relocs.zipIdx = .ok ps →
              ((∃ k ∈ f.gotSyms, f.syms.length ≤ k) → fails 3) ∧
              ((∀ k ∈ f.gotSyms, k < f.syms.length) → f.data = [] → ∃ u, loadObject s c l = .ok (u, b, d))) ∧
            ∀ u b' d', loadObject s c l = .ok (u, b', d') → b' = b ∧ d' = d ∧ (∀ j, j ≠ c → ctx? u j = ctx? s j) ∧
              ∃ z, ctx? u c = some z ∧
                z = { x with
                  images := z.images
                  heapUsed := x.heapUsed ++ [(b, n)]
                  data := if f.data = [] then x.data else x.data ++ [(d, roundUp f.data.length 4096)]
                  kernels := x.kernels ++ f.kernels.map (fun k => { k with entry := b + f.placeOf 1 + k.entry })
                  symbols := x.symbols ++ (f.syms.filter (fun y => y.global && y.sect != 0xFF)).map (fun y => (y.name, val y))
                  objects := x.objects + 1 } ∧
                ∀ i p, (pagesOf f.sects)[i]? = some p → ∃ im, kfind z.images ((b + p) / 4096) = some im ∧
                  im.bytes = imagePage f p ∧ im.digest = (f.hashes.drop (32 * i)).take 32 ∧ im.obj = x.objects ∧ im.bad = false)) ∧
  (∀ (x : Ctx) (syms : List Sym),
      let undefined (y : Sym) : Prop := y.sect = 0xFF ∧ globalOf x y.name = none
      let twice (y : Sym) : Prop := y.sect ≠ 0xFF ∧ y.global = true ∧ globalOf x y.name ≠ none
      (symbolFail x syms = none ↔ ∀ y ∈ syms, ¬undefined y ∧ ¬twice y) ∧
      ∀ e, symbolFail x syms = some e → (e = 3 ∧ ∃ y ∈ syms, undefined y) ∨ (e = 4 ∧ ∃ y ∈ syms, twice y)) ∧
  (∀ (x : Ctx) (pref align n : Nat),
      (∀ b k, heapFree x b k = true ↔
        b + k ≤ x.heap.limit.toNat ∧ ∀ i, i < k → ∀ r ∈ x.heapUsed, ¬(r.1 ≤ b + i ∧ b + i < r.1 + r.2)) ∧
      (heapFree x pref n = true → loadBase x pref align n = some pref) ∧
      (heapFree x pref n = false →
        (∀ b, loadBase x pref align n = some b → b % 2 ^ align = 0 ∧ heapFree x b n = true ∧
          ∀ k, k < b → k % 2 ^ align = 0 → heapFree x k n = false) ∧
        (loadBase x pref align n = none → ∀ k, k % 2 ^ align = 0 → heapFree x k n = false))) ∧
  (∀ (f : ObjFile) (val : Sym → Nat) (b : Nat),
      (∀ e, relocAll f val b f.relocs.zipIdx = .error e → ∃ i r, e.record = some i ∧ f.relocs[i]? = some r ∧
        relocPatch f val b r = .error e.status ∧
        ∀ (j : Nat) (q : Reloc), j < i → f.relocs[j]? = some q → ∃ p, relocPatch f val b q = .ok p) ∧
      ∀ r h y v fits, r.type = 3 → anchorOf f r = some h → relocValue f val b r y = .ok (v, fits) →
        hiOf (hiX f val b h) * 4096 + v = hiX f val b h ∧ -2048 ≤ v ∧ v < 2048)

/-- The operator, power and heat (R280, R351, R356, R359, R362 to R365): a window size that is no multiple of 2 MiB, beyond 64 GiB or too
small for the images that stand, and an allowance beyond a die's 8 registers and 12 ways, are not taken; the units that failed
self-test are recorded as the map is built at version 1; a clock moves by 100 MHz between 500 and 1,000, in one increment of the map with its
die's record; from 100 °C a compute die's clock goes down a step every 10 ms until it is below 95 °C, and then up a step every 100 ms; at
110 °C the power is cut. The bytes that a firmware image's signature covers
(log 6), and the values that a loss of power leaves where the manual gives none at reset (log 4), are the model's choice. -/
def Obligations.OperatorEvents : Prop :=
  ∀ (s : State),
    let m := s.msg
    let put (f : Keeper → Keeper) : Host.Outcome State Fault Refusal := .next { s with keeper := f s.keeper }
    (s.keeper.booted = true → m.a < 16 →
      exec .tenantEnable s = .next (modTenant s m.a (fun t => { t with enabled := m.flag })) ∧
      (m.b % 2 ^ 21 = 0 → m.b ≤ 2 ^ 36 → (∀ d ∈ (tenant s m.a).dumps, d.off + d.bytes.length ≤ m.b) →
        exec .dumpWindowSize s = .next (modTenant s m.a (fun t => { t with window := m.b })))) ∧
    ((s.keeper.booted = false ∨ 16 ≤ m.a) → exec .tenantEnable s = .next s ∧ exec .dumpWindowSize s = .next s) ∧
    ((m.b % 2 ^ 21 ≠ 0 ∨ 2 ^ 36 < m.b ∨ ∃ d ∈ (tenant s m.a).dumps, m.b < d.off + d.bytes.length) → exec .dumpWindowSize s = .next s) ∧
    (m.flag = true → (s.keeper.booted = true → m.a < 16 → m.c ≤ 1024 →
        exec .allowanceSet s = .next (modTenant s m.a (fun t => { t with quota := m.c }))) ∧
      ((s.keeper.booted = false ∨ 16 ≤ m.a ∨ 1024 < m.c) → exec .allowanceSet s = .next s)) ∧
    (∀ x, m.flag = false → ctx? s m.a = some x → m.b < 4 →
      let others := (s.ctxs.filter (fun p => p.1 != m.a)).map (fun p => kget p.2.allow m.b (0, 0))
      m.c + (others.map (·.1)).sum ≤ 8 → m.d + (others.map (·.2)).sum ≤ 12 →
      exec .allowanceSet s = .next (modCtx s m.a (fun x => { x with allow := kset x.allow m.b (m.c, m.d) }))) ∧
    (let others := (s.ctxs.filter (fun p => p.1 != m.a)).map (fun p => kget p.2.allow m.b (0, 0))
     m.flag = false → (ctx? s m.a = none ∨ 4 ≤ m.b ∨ 8 < m.c + (others.map (·.1)).sum ∨ 12 < m.d + (others.map (·.2)).sum) →
      exec .allowanceSet s = .next s) ∧
    (s.keeper.booted = true →
      exec .firmwareUpdate s = put (fun k => { k with slots := putFw k.slots (1 - k.active) m.fw, first := 1 - k.active }) ∧
      exec .operatorKey s = put (fun k => { k with opKey := m.bytes }) ∧
      exec .signedStateRead s = put (fun k =>
        if k.opKey ≠ [] ∧ m.bytes = Config.nonce k.nonces.length ∧ Config.verify k.opKey m.bytes m.bytes2 = true then
          { k with nonces := k.nonces ++ [m.bytes], reply := (span m.b m.c).map (barByte (tenant s m.a)) }
        else { k with opDenied := k.opDenied + 1 })) ∧
    (match bootSlot s.keeper with
     | none => exec .powerGood s = .next
        { powerOff s with keeper := { (powerOff s).keeper with on := true, failed := true } } ∧
        (powerOff s).keeper.booted = false ∧ (powerOff s).threads = [] ∧ (powerOff s).ctxs = []
     | some (i, _) => ∃ t, exec .powerGood s = .next t ∧
        t = { powerOff s with keeper := t.keeper } ∧ t.keeper.on = true ∧ t.keeper.booted = true ∧ t.keeper.version = 1 ∧
        t.keeper.active = i ∧ t.threads = [] ∧ t.ctxs = [] ∧ t.time = 0 ∧ s.keeper.fusedVersion ≤ t.keeper.fusedVersion ∧
        (m.recs = [] → t.keeper.map = []) ∧ (∀ n r, kfind t.keeper.map n = some r → r.changed = 1) ∧
        (∀ p ∈ m.recs, ∀ d, defaultRec p.1 = some d → d.kind ∉ [0x05, 0x06, 0x0B, 0x0D] → (mapRec t p.1).map (·.state) = some 3) ∧
        ∀ n q d, m.recs = [(n, q)] → defaultRec n = some d →
          (d.kind = 0x03 → mapRec t n = some { d with state := 3 } ∧
            (∃ r, mapRec t (16 + (n - 128) / 16) = some r ∧ r.state = 2 ∧ r.value = 1024 ∧
              r.auxA = 2 ^ 16 - 1 - 2 ^ ((n - 128) % 16)) ∧
            ∀ j, j ≠ n → j ≠ 16 + (n - 128) / 16 → mapRec t j = defaultRec j) ∧
          (d.kind = 0x05 → q.value < 32 → mapRec t n = some { d with state := 2, value := 31, auxA := 2 ^ 33 - 1 - 2 ^ q.value } ∧
            (∃ r, mapRec t (16 + (n - 6144) / 32) = some r ∧ r.state = 2 ∧ r.value = 1023 ∧ r.auxA = 2 ^ 16 - 1) ∧
            ∀ j, j ≠ n → j ≠ 16 + (n - 6144) / 32 → mapRec t j = defaultRec j) ∧
          (d.kind = 0x05 → 32 ≤ q.value → mapRec t n = some { d with state := 2, auxA := 2 ^ 32 - 1 }) ∧
          (d.kind = 0x06 → mapRec t n = some (if q.value = 0 then { d with state := 2, value := 15 } else { d with state := 3, value := 0 })) ∧
          (d.kind = 0x07 → (∃ h, mapRec t 0 = some h ∧ h.auxA = 2 ^ 39 - 2 ^ 36) ∧
            ∀ k, k < 32 → (mapRec t (12320 + 32 * (n - 12288) + k)).map (·.state) = some 3) ∧
          (d.kind = 0x0A → (∃ h, mapRec t 0 = some h ∧ h.auxA = 2 ^ 39 - 2 ^ 35) ∧
            ∃ r, mapRec t (12288 + (n - 12320) / 32) = some r ∧ r.state = 2 ∧ r.value = 31 ∧
              r.auxA = 2 ^ 32 - 1 - 2 ^ ((n - 12320) % 32) ∧ r.auxB = 2 ^ 36 - 2 ^ 35)) ∧
    (m.a < 13 → 110 ≤ m.b → exec .thermalShutdown s = .next (powerOff s)) ∧
    (∀ r, m.a < 4 → mapRec s (12928 + m.a) = some r →
      (m.flag = true → r.value < 1000 → recLive r = true → ∃ t, exec .clockStep s = .next t ∧
        (s.keeper.waiting = [] → ClockSet s t m.a (r.value + 100))) ∧
      (recLive r = false → exec .clockStep s = .next s) ∧
      (m.flag = true → 1000 ≤ r.value → exec .clockStep s = .next s) ∧
      (m.flag = false → 500 < r.value → recLive r = true → ∃ t, exec .clockStep s = .next t ∧
        (s.keeper.waiting = [] → ClockSet s t m.a (r.value - 100))) ∧
      (m.flag = false → r.value ≤ 500 → exec .clockStep s = .next s)) ∧
    (4 ≤ m.a → exec .clockStep s = .next s) ∧
    (let u : State := { s with keeper := { s.keeper with watts := m.a } }
     (m.a ≤ 3200 → exec .powerSample s = .next u) ∧
     (3200 < m.a → ∃ t, exec .powerSample s = .next t ∧ t.keeper.watts = m.a ∧ ∀ r, m.b < 4 → mapRec s (12928 + m.b) = some r →
      (500 < r.value → recLive r = true → s.keeper.waiting = [] → ClockSet u t m.b (r.value - 100)) ∧ (r.value ≤ 500 → t = u))) ∧
    (let down (d temp : Nat) : Prop := match kfind s.keeper.hot d with
       | some (true, t0) => 95 ≤ temp ∧ t0 + 10 ^ 7 ≤ s.time
       | _ => 100 ≤ temp
     let up (d temp : Nat) : Prop := ∃ t0, kfind s.keeper.hot d = some (false, t0) ∧ temp < 100 ∧ t0 + 10 ^ 8 ≤ s.time
     let clock (d : Nat) : Option MapRec := mapRec s (12928 + d)
     let steps (d temp : Nat) : Prop := m.nats[d]? = some temp ∧ d < 4 ∧ ∃ r, clock d = some r ∧ recLive r = true ∧
       (down d temp ∧ 500 < r.value ∨ up d temp ∧ r.value < 1000)
     ∃ t, exec .temperatureRefresh s = .next t ∧
      (∀ d temp, m.nats[d]? = some temp → d < 13 → 110 ≤ temp → ev .thermalShutdown d temp ∈ t.owed) ∧
      (∀ d temp, m.nats[d]? = some temp → d < 4 →
        (down d temp → kfind t.keeper.hot d = some (true, s.time)) ∧
        (¬down d temp → ∀ t0, kfind s.keeper.hot d = some (true, t0) →
          kfind t.keeper.hot d = some (if temp < 95 then (false, s.time) else (true, t0))) ∧
        (kfind s.keeper.hot d = none → temp < 100 → kfind t.keeper.hot d = none) ∧
        (up d temp → ∀ r, clock d = some r → kfind t.keeper.hot d = if 900 ≤ r.value then none else some (false, s.time)) ∧
        (¬down d temp → ¬up d temp → ∀ t0, kfind s.keeper.hot d = some (false, t0) → kfind t.keeper.hot d = some (false, t0))) ∧
      (s.keeper.waiting = [] →
        (∀ d temp, m.nats[d]? = some temp → d < 13 → ∀ r, mapRec s (1 + d) = some r → ∃ q, mapRec t (1 + d) = some q ∧ q.auxA = temp ∧
          (¬(∃ k, steps d k) → q = { r with auxA := temp })) ∧
        ((∃ d temp, steps d temp) → t.keeper.version = s.keeper.version + 1) ∧
        ((∀ d temp, ¬steps d temp) → t.keeper.version = s.keeper.version) ∧
        ∀ d temp r, m.nats[d]? = some temp → d < 4 → clock d = some r →
          (steps d temp → ∃ q, mapRec t (12928 + d) = some q ∧ q.changed = s.keeper.version + 1 ∧
            (down d temp → q.value = r.value - 100) ∧ (up d temp → q.value = r.value + 100) ∧
            q.state = (if q.value < 1000 then 2 else 1)) ∧
          (¬steps d temp → mapRec t (12928 + d) = some r)))
end

