-- ==== Sys2Proof/Laws/Assoc.lean ====
section
/-! SUPPORT. What the finite maps and memory do: a read after a write, and that every memory operation keeps the canonical
form. -/

namespace Sys2Proof.Machine

/-! ### Finite maps -/

@[simp] theorem kfind_nil {α : Type} (k : Nat) : kfind ([] : KMap α) k = none := rfl

theorem kfind_kset {α : Type} (m : KMap α) (k j : Nat) (v : α) :
    kfind (kset m k v) j = if j = k then some v else kfind m j := by
  induction m with
  | nil => simp [kset, kfind, eq_comm]
  | cons p r ih =>
    obtain ⟨i, w⟩ := p
    simp only [kset]
    split
    · simp [kfind, eq_comm]
    · split
      · subst k; by_cases h : i = j
        · simp [kfind, h]
        · simp [kfind, h, Ne.symm h]
      · by_cases h : i = j
        · subst h; simp [kfind, Ne.symm ‹_›]
        · simp [kfind, h, ih]

@[simp] theorem kfind_kset_self {α : Type} (m : KMap α) (k : Nat) (v : α) : kfind (kset m k v) k = some v := by
  simp [kfind_kset]

theorem kfind_kset_ne {α : Type} (m : KMap α) {k j : Nat} (v : α) (h : j ≠ k) : kfind (kset m k v) j = kfind m j := by
  simp [kfind_kset, h]

@[simp] theorem kset_kset {α : Type} (m : KMap α) (k : Nat) (v w : α) : kset (kset m k v) k w = kset m k w := by
  induction m with
  | nil => simp [kset]
  | cons p r ih =>
    obtain ⟨i, u⟩ := p
    simp only [kset]
    split
    · simp [kset]
    · split
      · simp [kset]
      · simp [kset, *]

theorem kfind_filter {α : Type} (m : KMap α) (P : Nat → Bool) (j : Nat) :
    kfind (m.filter (fun p => P p.1)) j = if P j then kfind m j else none := by
  induction m with
  | nil => simp
  | cons p r ih =>
    obtain ⟨i, w⟩ := p
    by_cases hP : P i = true
    · by_cases h : i = j
      · subst h; simp [List.filter, hP, kfind]
      · simp [List.filter, hP, kfind, h, ih]
    · by_cases h : i = j
      · subst h; simp [List.filter, hP, ih]
      · simp [List.filter, hP, kfind, h, ih]

theorem kfind_kdel {α : Type} (m : KMap α) (k j : Nat) :
    kfind (kdel m k) j = if j = k then none else kfind m j := by
  have := kfind_filter m (fun i => decide (i ≠ k)) j
  simpa [kdel, ite_not] using this

theorem kfind_map {α β : Type} (m : KMap α) (f : α → β) (j : Nat) :
    kfind (m.map (fun p => (p.1, f p.2))) j = (kfind m j).map f := by
  induction m with
  | nil => simp
  | cons p r ih => obtain ⟨i, w⟩ := p; by_cases h : i = j <;> simp [kfind, h, ih]

theorem kfind_mapKey {α β : Type} (m : KMap α) (f : Nat → α → β) (j : Nat) :
    kfind (m.map (fun p => (p.1, f p.1 p.2))) j = (kfind m j).map (f j) := by
  induction m with
  | nil => rfl
  | cons p r ih =>
    by_cases h : p.1 = j
    · simp [kfind, h]
    · simp [kfind, h, ih]

theorem kfind_mem {α : Type} {m : KMap α} {k : Nat} {v : α} (h : kfind m k = some v) : (k, v) ∈ m := by
  induction m with
  | nil => simp at h
  | cons p r ih =>
    obtain ⟨i, w⟩ := p
    by_cases hi : i = k
    · subst hi; simp [kfind] at h; simp [h]
    · simp [kfind, hi] at h; exact List.mem_cons_of_mem _ (ih h)

theorem kget_kset {α : Type} (m : KMap α) (k j : Nat) (v d : α) :
    kget (kset m k v) j d = if j = k then v else kget m j d := by
  unfold kget; rw [kfind_kset]; split <;> rfl

@[simp] theorem kget_kset_self {α : Type} (m : KMap α) (k : Nat) (v d : α) : kget (kset m k v) k d = v := by
  simp [kget_kset]

theorem kget_kset_ne {α : Type} (m : KMap α) {k j : Nat} (v d : α) (h : j ≠ k) :
    kget (kset m k v) j d = kget m j d := by simp [kget_kset, h]

/-! ### Rising keys -/

theorem krising_iff {α : Type} (m : KMap α) : krising m = true ↔ (m.map (·.1)).Pairwise (· < ·) := by
  induction m with
  | nil => simp [krising]
  | cons p r ih =>
    obtain ⟨i, v⟩ := p
    cases r with
    | nil => simp [krising]
    | cons q r =>
      obtain ⟨j, w⟩ := q
      rw [show krising ((i, v) :: (j, w) :: r) = (decide (i < j) && krising ((j, w) :: r)) from rfl, Bool.and_eq_true,
        decide_eq_true_eq, ih]
      simp only [List.map_cons, List.pairwise_cons]
      constructor
      · rintro ⟨hij, hj, hr⟩
        refine ⟨fun a ha => ?_, hj, hr⟩
        rcases List.mem_cons.mp ha with rfl | h
        · exact hij
        · exact hij.trans (hj a h)
      · rintro ⟨h1, h2, h3⟩
        exact ⟨h1 j (by simp), h2, h3⟩

theorem mem_keys_kset {α : Type} {m : KMap α} {k a : Nat} {v : α} (h : a ∈ (kset m k v).map (·.1)) :
    a = k ∨ a ∈ m.map (·.1) := by
  induction m with
  | nil => simpa [kset] using h
  | cons p r ih =>
    obtain ⟨i, w⟩ := p
    simp only [kset] at h
    split at h
    · simpa using h
    · split at h
      · subst k; rw [List.map_cons, List.mem_cons] at h; rcases h with h | h
        · exact .inl h
        · exact .inr (List.mem_cons_of_mem _ h)
      · rw [List.map_cons, List.mem_cons] at h
        rcases h with h | h
        · exact .inr (by simp [h])
        · rcases ih h with h | h
          · exact .inl h
          · exact .inr (List.mem_cons_of_mem _ h)

theorem krising_kset {α : Type} {m : KMap α} (k : Nat) (v : α) (h : krising m = true) : krising (kset m k v) = true := by
  rw [krising_iff] at *
  induction m with
  | nil => simp [kset]
  | cons p r ih =>
    obtain ⟨i, w⟩ := p
    rw [List.map_cons, List.pairwise_cons] at h
    obtain ⟨h1, h2⟩ := h
    simp only [kset]
    split
    · rename_i hk
      simp only [List.map_cons, List.pairwise_cons]
      refine ⟨fun a ha => ?_, h1, h2⟩
      rcases List.mem_cons.mp ha with rfl | ha
      · exact hk
      · exact hk.trans (h1 a ha)
    · split
      · subst k; simp only [List.map_cons, List.pairwise_cons]; exact ⟨h1, h2⟩
      · rename_i hk hi
        rw [List.map_cons, List.pairwise_cons]
        refine ⟨fun a ha => ?_, ih h2⟩
        rcases mem_keys_kset ha with rfl | ha
        · simp only; omega
        · exact h1 a ha

theorem krising_filter {α : Type} {m : KMap α} (P : Nat × α → Bool) (h : krising m = true) :
    krising (m.filter P) = true := by
  rw [krising_iff] at *
  exact List.Pairwise.sublist ((List.filter_sublist).map _) h

theorem krising_kdel {α : Type} {m : KMap α} (k : Nat) (h : krising m = true) : krising (kdel m k) = true :=
  krising_filter _ h

/-! ### Memory -/

theorem Memory.get_set (m : Memory) (a c : Nat) (b : Byte) : (m.set a b).get c = if c = a then b else m.get c := by
  unfold Memory.set Memory.get
  split
  · simp only [kget, kfind_kdel]; split <;> simp_all
  · simp [kget_kset]

@[simp] theorem Memory.get_set_self (m : Memory) (a : Nat) (b : Byte) : (m.set a b).get a = b := by simp [Memory.get_set]

theorem Memory.get_set_ne (m : Memory) {a c : Nat} (b : Byte) (h : c ≠ a) : (m.set a b).get c = m.get c := by
  simp [Memory.get_set, h]

theorem Memory.get_zero (m : Memory) (lo n a : Nat) :
    (m.zero lo n).get a = if lo ≤ a ∧ a < lo + n then 0 else m.get a := by
  have := kfind_filter m.cells (fun a => decide (a < lo) || decide (lo + n ≤ a)) a
  simp only [Memory.zero, Memory.get, kget] at *
  rw [this]
  by_cases h : lo ≤ a ∧ a < lo + n
  · rw [if_pos h, if_neg (by simp; omega)]; rfl
  · rw [if_neg h, if_pos (by simp; omega)]

/-- The canonical form holds of memory that lists nothing. -/
theorem Memory.wf_empty : Memory.wf { cells := [] } = true := rfl

theorem kset_values {α : Type} {m : KMap α} {k : Nat} {v : α} {p : Nat × α} (h : p ∈ kset m k v) : p = (k, v) ∨ p ∈ m := by
  induction m with
  | nil => simpa [kset] using h
  | cons q r ih =>
    obtain ⟨i, w⟩ := q
    simp only [kset] at h
    split at h
    · simpa using h
    · split at h
      · rcases List.mem_cons.mp h with h | h
        · exact .inl h
        · exact .inr (List.mem_cons_of_mem _ h)
      · rcases List.mem_cons.mp h with h | h
        · exact .inr (by simp [h])
        · rcases ih h with h | h
          · exact .inl h
          · exact .inr (List.mem_cons_of_mem _ h)

/-- A byte written keeps the canonical form. -/
theorem Memory.wf_set {m : Memory} (a : Nat) (b : Byte) (h : m.wf = true) : (m.set a b).wf = true := by
  simp only [Memory.wf, Bool.and_eq_true, List.all_eq_true] at *
  obtain ⟨h1, h2⟩ := h
  unfold Memory.set
  split
  · exact ⟨krising_kdel _ h1, fun p hp => h2 p (List.mem_of_mem_filter hp)⟩
  · rename_i hb
    refine ⟨krising_kset _ _ h1, fun p hp => ?_⟩
    rcases kset_values hp with rfl | hp
    · simpa using hb
    · exact h2 p hp

/-- Bytes written keep the canonical form. -/
theorem Memory.wf_setAll (l : List (Nat × Byte)) : ∀ {m : Memory}, m.wf = true → (m.setAll l).wf = true := by
  induction l with
  | nil => exact id
  | cons p r ih => exact fun h => ih (Memory.wf_set p.1 p.2 h)

/-- A range cleared keeps the canonical form. -/
theorem Memory.wf_zero {m : Memory} (lo n : Nat) (h : m.wf = true) : (m.zero lo n).wf = true := by
  simp only [Memory.wf, Bool.and_eq_true, List.all_eq_true] at *
  exact ⟨krising_filter _ h.1, fun p hp => h.2 p (List.mem_of_mem_filter hp)⟩

/-! ### Bytes and spans -/

@[simp] theorem span_length (a n : Nat) : (span a n).length = n := by simp [span]

@[simp] theorem mem_span {a n x : Nat} : x ∈ span a n ↔ a ≤ x ∧ x < a + n := by
  simp only [span, List.mem_map, List.mem_range]
  constructor
  · rintro ⟨i, h, rfl⟩; omega
  · intro h; exact ⟨x - a, by omega, by omega⟩

@[simp] theorem leBytes_length (n x : Nat) : (leBytes n x).length = n := by
  induction n generalizing x with
  | zero => rfl
  | succ n ih => simp [leBytes, ih]

/-- The little-endian bytes of a number below 2^(8n) give it back (R5). -/
theorem leNat_leBytes (n : Nat) : ∀ x, leNat (leBytes n x) = x % 2 ^ (8 * n) := by
  induction n with
  | zero => intro x; simp [leBytes, leNat, Nat.mod_one]
  | succ n ih =>
    intro x
    rw [show leBytes (n + 1) x = BitVec.ofNat 8 x :: leBytes n (x / 256) from rfl,
      show leNat (BitVec.ofNat 8 x :: leBytes n (x / 256)) = (BitVec.ofNat 8 x).toNat + 256 * leNat (leBytes n (x / 256)) from rfl, ih]
    rw [show 2 ^ (8 * (n + 1)) = 256 * 2 ^ (8 * n) by rw [Nat.mul_add, Nat.pow_add]; omega]
    rw [Nat.mod_mul]
    simp

end Sys2Proof.Machine
end

