-- ==== Sys2Proof/Laws/State.lean ====
section
/-! SUPPORT. What each named update leaves of State, field by field, so that no proof unfolds a record update. -/

namespace Sys2Proof.Machine

variable (s : State)

/-! ### setThr -/

@[simp] theorem setThr_schedule (t : Nat) (x : Thread) : (setThr s t x).schedule = s.schedule := rfl
@[simp] theorem setThr_owed (t : Nat) (x : Thread) : (setThr s t x).owed = s.owed := rfl
@[simp] theorem setThr_msg (t : Nat) (x : Thread) : (setThr s t x).msg = s.msg := rfl
@[simp] theorem setThr_cur (t : Nat) (x : Thread) : (setThr s t x).cur = s.cur := rfl
@[simp] theorem setThr_defer (t : Nat) (x : Thread) : (setThr s t x).defer = s.defer := rfl
@[simp] theorem setThr_ir (t : Nat) (x : Thread) : (setThr s t x).ir = s.ir := rfl
@[simp] theorem setThr_free (t : Nat) (x : Thread) : (setThr s t x).free = s.free := rfl
@[simp] theorem setThr_nextId (t : Nat) (x : Thread) : (setThr s t x).nextId = s.nextId := rfl
@[simp] theorem setThr_prefer (t : Nat) (x : Thread) : (setThr s t x).prefer = s.prefer := rfl
@[simp] theorem setThr_time (t : Nat) (x : Thread) : (setThr s t x).time = s.time := rfl
@[simp] theorem setThr_mem (t : Nat) (x : Thread) : (setThr s t x).mem = s.mem := rfl
@[simp] theorem setThr_pt (t : Nat) (x : Thread) : (setThr s t x).pt = s.pt := rfl
@[simp] theorem setThr_poison (t : Nat) (x : Thread) : (setThr s t x).poison = s.poison := rfl
@[simp] theorem setThr_threads (t : Nat) (x : Thread) : (setThr s t x).threads = kset s.threads t x := rfl
@[simp] theorem setThr_rets (t : Nat) (x : Thread) : (setThr s t x).rets = s.rets := rfl
@[simp] theorem setThr_tasks (t : Nat) (x : Thread) : (setThr s t x).tasks = s.tasks := rfl
@[simp] theorem setThr_cores (t : Nat) (x : Thread) : (setThr s t x).cores = s.cores := rfl
@[simp] theorem setThr_pools (t : Nat) (x : Thread) : (setThr s t x).pools = s.pools := rfl
@[simp] theorem setThr_dies (t : Nat) (x : Thread) : (setThr s t x).dies = s.dies := rfl
@[simp] theorem setThr_local1 (t : Nat) (x : Thread) : (setThr s t x).local1 = s.local1 := rfl
@[simp] theorem setThr_ctxs (t : Nat) (x : Thread) : (setThr s t x).ctxs = s.ctxs := rfl
@[simp] theorem setThr_tenants (t : Nat) (x : Thread) : (setThr s t x).tenants = s.tenants := rfl
@[simp] theorem setThr_marks (t : Nat) (x : Thread) : (setThr s t x).marks = s.marks := rfl
@[simp] theorem setThr_peerHeld (t : Nat) (x : Thread) : (setThr s t x).peerHeld = s.peerHeld := rfl
@[simp] theorem setThr_covers (t : Nat) (x : Thread) : (setThr s t x).covers = s.covers := rfl
@[simp] theorem setThr_llc (t : Nat) (x : Thread) : (setThr s t x).llc = s.llc := rfl
@[simp] theorem setThr_router (t : Nat) (x : Thread) : (setThr s t x).router = s.router := rfl
@[simp] theorem setThr_stores (t : Nat) (x : Thread) : (setThr s t x).stores = s.stores := rfl
@[simp] theorem setThr_regions (t : Nat) (x : Thread) : (setThr s t x).regions = s.regions := rfl
@[simp] theorem setThr_keeper (t : Nat) (x : Thread) : (setThr s t x).keeper = s.keeper := rfl

/-! ### modThr -/

@[simp] theorem modThr_schedule (t : Nat) (f : Thread → Thread) : (modThr s t f).schedule = s.schedule := rfl
@[simp] theorem modThr_owed (t : Nat) (f : Thread → Thread) : (modThr s t f).owed = s.owed := rfl
@[simp] theorem modThr_msg (t : Nat) (f : Thread → Thread) : (modThr s t f).msg = s.msg := rfl
@[simp] theorem modThr_cur (t : Nat) (f : Thread → Thread) : (modThr s t f).cur = s.cur := rfl
@[simp] theorem modThr_defer (t : Nat) (f : Thread → Thread) : (modThr s t f).defer = s.defer := rfl
@[simp] theorem modThr_ir (t : Nat) (f : Thread → Thread) : (modThr s t f).ir = s.ir := rfl
@[simp] theorem modThr_free (t : Nat) (f : Thread → Thread) : (modThr s t f).free = s.free := rfl
@[simp] theorem modThr_nextId (t : Nat) (f : Thread → Thread) : (modThr s t f).nextId = s.nextId := rfl
@[simp] theorem modThr_prefer (t : Nat) (f : Thread → Thread) : (modThr s t f).prefer = s.prefer := rfl
@[simp] theorem modThr_time (t : Nat) (f : Thread → Thread) : (modThr s t f).time = s.time := rfl
@[simp] theorem modThr_mem (t : Nat) (f : Thread → Thread) : (modThr s t f).mem = s.mem := rfl
@[simp] theorem modThr_pt (t : Nat) (f : Thread → Thread) : (modThr s t f).pt = s.pt := rfl
@[simp] theorem modThr_poison (t : Nat) (f : Thread → Thread) : (modThr s t f).poison = s.poison := rfl
@[simp] theorem modThr_threads (t : Nat) (f : Thread → Thread) : (modThr s t f).threads = kset s.threads t (f (thr s t)) := rfl
@[simp] theorem modThr_rets (t : Nat) (f : Thread → Thread) : (modThr s t f).rets = s.rets := rfl
@[simp] theorem modThr_tasks (t : Nat) (f : Thread → Thread) : (modThr s t f).tasks = s.tasks := rfl
@[simp] theorem modThr_cores (t : Nat) (f : Thread → Thread) : (modThr s t f).cores = s.cores := rfl
@[simp] theorem modThr_pools (t : Nat) (f : Thread → Thread) : (modThr s t f).pools = s.pools := rfl
@[simp] theorem modThr_dies (t : Nat) (f : Thread → Thread) : (modThr s t f).dies = s.dies := rfl
@[simp] theorem modThr_local1 (t : Nat) (f : Thread → Thread) : (modThr s t f).local1 = s.local1 := rfl
@[simp] theorem modThr_ctxs (t : Nat) (f : Thread → Thread) : (modThr s t f).ctxs = s.ctxs := rfl
@[simp] theorem modThr_tenants (t : Nat) (f : Thread → Thread) : (modThr s t f).tenants = s.tenants := rfl
@[simp] theorem modThr_marks (t : Nat) (f : Thread → Thread) : (modThr s t f).marks = s.marks := rfl
@[simp] theorem modThr_peerHeld (t : Nat) (f : Thread → Thread) : (modThr s t f).peerHeld = s.peerHeld := rfl
@[simp] theorem modThr_covers (t : Nat) (f : Thread → Thread) : (modThr s t f).covers = s.covers := rfl
@[simp] theorem modThr_llc (t : Nat) (f : Thread → Thread) : (modThr s t f).llc = s.llc := rfl
@[simp] theorem modThr_router (t : Nat) (f : Thread → Thread) : (modThr s t f).router = s.router := rfl
@[simp] theorem modThr_stores (t : Nat) (f : Thread → Thread) : (modThr s t f).stores = s.stores := rfl
@[simp] theorem modThr_regions (t : Nat) (f : Thread → Thread) : (modThr s t f).regions = s.regions := rfl
@[simp] theorem modThr_keeper (t : Nat) (f : Thread → Thread) : (modThr s t f).keeper = s.keeper := rfl

/-! ### dropThr -/

@[simp] theorem dropThr_schedule (t : Nat) : (dropThr s t).schedule = s.schedule := rfl
@[simp] theorem dropThr_owed (t : Nat) : (dropThr s t).owed = s.owed := rfl
@[simp] theorem dropThr_msg (t : Nat) : (dropThr s t).msg = s.msg := rfl
@[simp] theorem dropThr_cur (t : Nat) : (dropThr s t).cur = s.cur := rfl
@[simp] theorem dropThr_defer (t : Nat) : (dropThr s t).defer = s.defer := rfl
@[simp] theorem dropThr_ir (t : Nat) : (dropThr s t).ir = s.ir := rfl
@[simp] theorem dropThr_free (t : Nat) : (dropThr s t).free = s.free := rfl
@[simp] theorem dropThr_nextId (t : Nat) : (dropThr s t).nextId = s.nextId := rfl
@[simp] theorem dropThr_prefer (t : Nat) : (dropThr s t).prefer = s.prefer := rfl
@[simp] theorem dropThr_time (t : Nat) : (dropThr s t).time = s.time := rfl
@[simp] theorem dropThr_mem (t : Nat) : (dropThr s t).mem = s.mem := rfl
@[simp] theorem dropThr_pt (t : Nat) : (dropThr s t).pt = s.pt := rfl
@[simp] theorem dropThr_poison (t : Nat) : (dropThr s t).poison = s.poison := rfl
@[simp] theorem dropThr_threads (t : Nat) : (dropThr s t).threads = kdel s.threads t := rfl
@[simp] theorem dropThr_rets (t : Nat) : (dropThr s t).rets = s.rets := rfl
@[simp] theorem dropThr_tasks (t : Nat) : (dropThr s t).tasks = s.tasks := rfl
@[simp] theorem dropThr_cores (t : Nat) : (dropThr s t).cores = s.cores := rfl
@[simp] theorem dropThr_pools (t : Nat) : (dropThr s t).pools = s.pools := rfl
@[simp] theorem dropThr_dies (t : Nat) : (dropThr s t).dies = s.dies := rfl
@[simp] theorem dropThr_local1 (t : Nat) : (dropThr s t).local1 = s.local1 := rfl
@[simp] theorem dropThr_ctxs (t : Nat) : (dropThr s t).ctxs = s.ctxs := rfl
@[simp] theorem dropThr_tenants (t : Nat) : (dropThr s t).tenants = s.tenants := rfl
@[simp] theorem dropThr_marks (t : Nat) : (dropThr s t).marks = s.marks := rfl
@[simp] theorem dropThr_peerHeld (t : Nat) : (dropThr s t).peerHeld = s.peerHeld := rfl
@[simp] theorem dropThr_covers (t : Nat) : (dropThr s t).covers = s.covers := rfl
@[simp] theorem dropThr_llc (t : Nat) : (dropThr s t).llc = s.llc := rfl
@[simp] theorem dropThr_router (t : Nat) : (dropThr s t).router = s.router := rfl
@[simp] theorem dropThr_stores (t : Nat) : (dropThr s t).stores = s.stores := rfl
@[simp] theorem dropThr_regions (t : Nat) : (dropThr s t).regions = s.regions := rfl
@[simp] theorem dropThr_keeper (t : Nat) : (dropThr s t).keeper = s.keeper := rfl

/-! ### modRet -/

@[simp] theorem modRet_schedule (n : Nat) (f : Retriever → Retriever) : (modRet s n f).schedule = s.schedule := rfl
@[simp] theorem modRet_owed (n : Nat) (f : Retriever → Retriever) : (modRet s n f).owed = s.owed := rfl
@[simp] theorem modRet_msg (n : Nat) (f : Retriever → Retriever) : (modRet s n f).msg = s.msg := rfl
@[simp] theorem modRet_cur (n : Nat) (f : Retriever → Retriever) : (modRet s n f).cur = s.cur := rfl
@[simp] theorem modRet_defer (n : Nat) (f : Retriever → Retriever) : (modRet s n f).defer = s.defer := rfl
@[simp] theorem modRet_ir (n : Nat) (f : Retriever → Retriever) : (modRet s n f).ir = s.ir := rfl
@[simp] theorem modRet_free (n : Nat) (f : Retriever → Retriever) : (modRet s n f).free = s.free := rfl
@[simp] theorem modRet_nextId (n : Nat) (f : Retriever → Retriever) : (modRet s n f).nextId = s.nextId := rfl
@[simp] theorem modRet_prefer (n : Nat) (f : Retriever → Retriever) : (modRet s n f).prefer = s.prefer := rfl
@[simp] theorem modRet_time (n : Nat) (f : Retriever → Retriever) : (modRet s n f).time = s.time := rfl
@[simp] theorem modRet_mem (n : Nat) (f : Retriever → Retriever) : (modRet s n f).mem = s.mem := rfl
@[simp] theorem modRet_pt (n : Nat) (f : Retriever → Retriever) : (modRet s n f).pt = s.pt := rfl
@[simp] theorem modRet_poison (n : Nat) (f : Retriever → Retriever) : (modRet s n f).poison = s.poison := rfl
@[simp] theorem modRet_threads (n : Nat) (f : Retriever → Retriever) : (modRet s n f).threads = s.threads := rfl
@[simp] theorem modRet_rets (n : Nat) (f : Retriever → Retriever) : (modRet s n f).rets = kset s.rets n (f (ret s n)) := rfl
@[simp] theorem modRet_tasks (n : Nat) (f : Retriever → Retriever) : (modRet s n f).tasks = s.tasks := rfl
@[simp] theorem modRet_cores (n : Nat) (f : Retriever → Retriever) : (modRet s n f).cores = s.cores := rfl
@[simp] theorem modRet_pools (n : Nat) (f : Retriever → Retriever) : (modRet s n f).pools = s.pools := rfl
@[simp] theorem modRet_dies (n : Nat) (f : Retriever → Retriever) : (modRet s n f).dies = s.dies := rfl
@[simp] theorem modRet_local1 (n : Nat) (f : Retriever → Retriever) : (modRet s n f).local1 = s.local1 := rfl
@[simp] theorem modRet_ctxs (n : Nat) (f : Retriever → Retriever) : (modRet s n f).ctxs = s.ctxs := rfl
@[simp] theorem modRet_tenants (n : Nat) (f : Retriever → Retriever) : (modRet s n f).tenants = s.tenants := rfl
@[simp] theorem modRet_marks (n : Nat) (f : Retriever → Retriever) : (modRet s n f).marks = s.marks := rfl
@[simp] theorem modRet_peerHeld (n : Nat) (f : Retriever → Retriever) : (modRet s n f).peerHeld = s.peerHeld := rfl
@[simp] theorem modRet_covers (n : Nat) (f : Retriever → Retriever) : (modRet s n f).covers = s.covers := rfl
@[simp] theorem modRet_llc (n : Nat) (f : Retriever → Retriever) : (modRet s n f).llc = s.llc := rfl
@[simp] theorem modRet_router (n : Nat) (f : Retriever → Retriever) : (modRet s n f).router = s.router := rfl
@[simp] theorem modRet_stores (n : Nat) (f : Retriever → Retriever) : (modRet s n f).stores = s.stores := rfl
@[simp] theorem modRet_regions (n : Nat) (f : Retriever → Retriever) : (modRet s n f).regions = s.regions := rfl
@[simp] theorem modRet_keeper (n : Nat) (f : Retriever → Retriever) : (modRet s n f).keeper = s.keeper := rfl

/-! ### modCore -/

@[simp] theorem modCore_schedule (c : Nat) (f : Core → Core) : (modCore s c f).schedule = s.schedule := rfl
@[simp] theorem modCore_owed (c : Nat) (f : Core → Core) : (modCore s c f).owed = s.owed := rfl
@[simp] theorem modCore_msg (c : Nat) (f : Core → Core) : (modCore s c f).msg = s.msg := rfl
@[simp] theorem modCore_cur (c : Nat) (f : Core → Core) : (modCore s c f).cur = s.cur := rfl
@[simp] theorem modCore_defer (c : Nat) (f : Core → Core) : (modCore s c f).defer = s.defer := rfl
@[simp] theorem modCore_ir (c : Nat) (f : Core → Core) : (modCore s c f).ir = s.ir := rfl
@[simp] theorem modCore_free (c : Nat) (f : Core → Core) : (modCore s c f).free = s.free := rfl
@[simp] theorem modCore_nextId (c : Nat) (f : Core → Core) : (modCore s c f).nextId = s.nextId := rfl
@[simp] theorem modCore_prefer (c : Nat) (f : Core → Core) : (modCore s c f).prefer = s.prefer := rfl
@[simp] theorem modCore_time (c : Nat) (f : Core → Core) : (modCore s c f).time = s.time := rfl
@[simp] theorem modCore_mem (c : Nat) (f : Core → Core) : (modCore s c f).mem = s.mem := rfl
@[simp] theorem modCore_pt (c : Nat) (f : Core → Core) : (modCore s c f).pt = s.pt := rfl
@[simp] theorem modCore_poison (c : Nat) (f : Core → Core) : (modCore s c f).poison = s.poison := rfl
@[simp] theorem modCore_threads (c : Nat) (f : Core → Core) : (modCore s c f).threads = s.threads := rfl
@[simp] theorem modCore_rets (c : Nat) (f : Core → Core) : (modCore s c f).rets = s.rets := rfl
@[simp] theorem modCore_tasks (c : Nat) (f : Core → Core) : (modCore s c f).tasks = s.tasks := rfl
@[simp] theorem modCore_cores (c : Nat) (f : Core → Core) : (modCore s c f).cores = kset s.cores c (f (core s c)) := rfl
@[simp] theorem modCore_pools (c : Nat) (f : Core → Core) : (modCore s c f).pools = s.pools := rfl
@[simp] theorem modCore_dies (c : Nat) (f : Core → Core) : (modCore s c f).dies = s.dies := rfl
@[simp] theorem modCore_local1 (c : Nat) (f : Core → Core) : (modCore s c f).local1 = s.local1 := rfl
@[simp] theorem modCore_ctxs (c : Nat) (f : Core → Core) : (modCore s c f).ctxs = s.ctxs := rfl
@[simp] theorem modCore_tenants (c : Nat) (f : Core → Core) : (modCore s c f).tenants = s.tenants := rfl
@[simp] theorem modCore_marks (c : Nat) (f : Core → Core) : (modCore s c f).marks = s.marks := rfl
@[simp] theorem modCore_peerHeld (c : Nat) (f : Core → Core) : (modCore s c f).peerHeld = s.peerHeld := rfl
@[simp] theorem modCore_covers (c : Nat) (f : Core → Core) : (modCore s c f).covers = s.covers := rfl
@[simp] theorem modCore_llc (c : Nat) (f : Core → Core) : (modCore s c f).llc = s.llc := rfl
@[simp] theorem modCore_router (c : Nat) (f : Core → Core) : (modCore s c f).router = s.router := rfl
@[simp] theorem modCore_stores (c : Nat) (f : Core → Core) : (modCore s c f).stores = s.stores := rfl
@[simp] theorem modCore_regions (c : Nat) (f : Core → Core) : (modCore s c f).regions = s.regions := rfl
@[simp] theorem modCore_keeper (c : Nat) (f : Core → Core) : (modCore s c f).keeper = s.keeper := rfl

/-! ### modPool -/

@[simp] theorem modPool_schedule (p : Nat) (f : Pool → Pool) : (modPool s p f).schedule = s.schedule := rfl
@[simp] theorem modPool_owed (p : Nat) (f : Pool → Pool) : (modPool s p f).owed = s.owed := rfl
@[simp] theorem modPool_msg (p : Nat) (f : Pool → Pool) : (modPool s p f).msg = s.msg := rfl
@[simp] theorem modPool_cur (p : Nat) (f : Pool → Pool) : (modPool s p f).cur = s.cur := rfl
@[simp] theorem modPool_defer (p : Nat) (f : Pool → Pool) : (modPool s p f).defer = s.defer := rfl
@[simp] theorem modPool_ir (p : Nat) (f : Pool → Pool) : (modPool s p f).ir = s.ir := rfl
@[simp] theorem modPool_free (p : Nat) (f : Pool → Pool) : (modPool s p f).free = s.free := rfl
@[simp] theorem modPool_nextId (p : Nat) (f : Pool → Pool) : (modPool s p f).nextId = s.nextId := rfl
@[simp] theorem modPool_prefer (p : Nat) (f : Pool → Pool) : (modPool s p f).prefer = s.prefer := rfl
@[simp] theorem modPool_time (p : Nat) (f : Pool → Pool) : (modPool s p f).time = s.time := rfl
@[simp] theorem modPool_mem (p : Nat) (f : Pool → Pool) : (modPool s p f).mem = s.mem := rfl
@[simp] theorem modPool_pt (p : Nat) (f : Pool → Pool) : (modPool s p f).pt = s.pt := rfl
@[simp] theorem modPool_poison (p : Nat) (f : Pool → Pool) : (modPool s p f).poison = s.poison := rfl
@[simp] theorem modPool_threads (p : Nat) (f : Pool → Pool) : (modPool s p f).threads = s.threads := rfl
@[simp] theorem modPool_rets (p : Nat) (f : Pool → Pool) : (modPool s p f).rets = s.rets := rfl
@[simp] theorem modPool_tasks (p : Nat) (f : Pool → Pool) : (modPool s p f).tasks = s.tasks := rfl
@[simp] theorem modPool_cores (p : Nat) (f : Pool → Pool) : (modPool s p f).cores = s.cores := rfl
@[simp] theorem modPool_pools (p : Nat) (f : Pool → Pool) : (modPool s p f).pools = kset s.pools p (f (pool s p)) := rfl
@[simp] theorem modPool_dies (p : Nat) (f : Pool → Pool) : (modPool s p f).dies = s.dies := rfl
@[simp] theorem modPool_local1 (p : Nat) (f : Pool → Pool) : (modPool s p f).local1 = s.local1 := rfl
@[simp] theorem modPool_ctxs (p : Nat) (f : Pool → Pool) : (modPool s p f).ctxs = s.ctxs := rfl
@[simp] theorem modPool_tenants (p : Nat) (f : Pool → Pool) : (modPool s p f).tenants = s.tenants := rfl
@[simp] theorem modPool_marks (p : Nat) (f : Pool → Pool) : (modPool s p f).marks = s.marks := rfl
@[simp] theorem modPool_peerHeld (p : Nat) (f : Pool → Pool) : (modPool s p f).peerHeld = s.peerHeld := rfl
@[simp] theorem modPool_covers (p : Nat) (f : Pool → Pool) : (modPool s p f).covers = s.covers := rfl
@[simp] theorem modPool_llc (p : Nat) (f : Pool → Pool) : (modPool s p f).llc = s.llc := rfl
@[simp] theorem modPool_router (p : Nat) (f : Pool → Pool) : (modPool s p f).router = s.router := rfl
@[simp] theorem modPool_stores (p : Nat) (f : Pool → Pool) : (modPool s p f).stores = s.stores := rfl
@[simp] theorem modPool_regions (p : Nat) (f : Pool → Pool) : (modPool s p f).regions = s.regions := rfl
@[simp] theorem modPool_keeper (p : Nat) (f : Pool → Pool) : (modPool s p f).keeper = s.keeper := rfl

/-! ### modDie -/

@[simp] theorem modDie_schedule (d : Nat) (f : Die → Die) : (modDie s d f).schedule = s.schedule := rfl
@[simp] theorem modDie_owed (d : Nat) (f : Die → Die) : (modDie s d f).owed = s.owed := rfl
@[simp] theorem modDie_msg (d : Nat) (f : Die → Die) : (modDie s d f).msg = s.msg := rfl
@[simp] theorem modDie_cur (d : Nat) (f : Die → Die) : (modDie s d f).cur = s.cur := rfl
@[simp] theorem modDie_defer (d : Nat) (f : Die → Die) : (modDie s d f).defer = s.defer := rfl
@[simp] theorem modDie_ir (d : Nat) (f : Die → Die) : (modDie s d f).ir = s.ir := rfl
@[simp] theorem modDie_free (d : Nat) (f : Die → Die) : (modDie s d f).free = s.free := rfl
@[simp] theorem modDie_nextId (d : Nat) (f : Die → Die) : (modDie s d f).nextId = s.nextId := rfl
@[simp] theorem modDie_prefer (d : Nat) (f : Die → Die) : (modDie s d f).prefer = s.prefer := rfl
@[simp] theorem modDie_time (d : Nat) (f : Die → Die) : (modDie s d f).time = s.time := rfl
@[simp] theorem modDie_mem (d : Nat) (f : Die → Die) : (modDie s d f).mem = s.mem := rfl
@[simp] theorem modDie_pt (d : Nat) (f : Die → Die) : (modDie s d f).pt = s.pt := rfl
@[simp] theorem modDie_poison (d : Nat) (f : Die → Die) : (modDie s d f).poison = s.poison := rfl
@[simp] theorem modDie_threads (d : Nat) (f : Die → Die) : (modDie s d f).threads = s.threads := rfl
@[simp] theorem modDie_rets (d : Nat) (f : Die → Die) : (modDie s d f).rets = s.rets := rfl
@[simp] theorem modDie_tasks (d : Nat) (f : Die → Die) : (modDie s d f).tasks = s.tasks := rfl
@[simp] theorem modDie_cores (d : Nat) (f : Die → Die) : (modDie s d f).cores = s.cores := rfl
@[simp] theorem modDie_pools (d : Nat) (f : Die → Die) : (modDie s d f).pools = s.pools := rfl
@[simp] theorem modDie_dies (d : Nat) (f : Die → Die) : (modDie s d f).dies = kset s.dies d (f (die s d)) := rfl
@[simp] theorem modDie_local1 (d : Nat) (f : Die → Die) : (modDie s d f).local1 = s.local1 := rfl
@[simp] theorem modDie_ctxs (d : Nat) (f : Die → Die) : (modDie s d f).ctxs = s.ctxs := rfl
@[simp] theorem modDie_tenants (d : Nat) (f : Die → Die) : (modDie s d f).tenants = s.tenants := rfl
@[simp] theorem modDie_marks (d : Nat) (f : Die → Die) : (modDie s d f).marks = s.marks := rfl
@[simp] theorem modDie_peerHeld (d : Nat) (f : Die → Die) : (modDie s d f).peerHeld = s.peerHeld := rfl
@[simp] theorem modDie_covers (d : Nat) (f : Die → Die) : (modDie s d f).covers = s.covers := rfl
@[simp] theorem modDie_llc (d : Nat) (f : Die → Die) : (modDie s d f).llc = s.llc := rfl
@[simp] theorem modDie_router (d : Nat) (f : Die → Die) : (modDie s d f).router = s.router := rfl
@[simp] theorem modDie_stores (d : Nat) (f : Die → Die) : (modDie s d f).stores = s.stores := rfl
@[simp] theorem modDie_regions (d : Nat) (f : Die → Die) : (modDie s d f).regions = s.regions := rfl
@[simp] theorem modDie_keeper (d : Nat) (f : Die → Die) : (modDie s d f).keeper = s.keeper := rfl

/-! ### modTenant -/

@[simp] theorem modTenant_schedule (n : Nat) (f : Tenant → Tenant) : (modTenant s n f).schedule = s.schedule := rfl
@[simp] theorem modTenant_owed (n : Nat) (f : Tenant → Tenant) : (modTenant s n f).owed = s.owed := rfl
@[simp] theorem modTenant_msg (n : Nat) (f : Tenant → Tenant) : (modTenant s n f).msg = s.msg := rfl
@[simp] theorem modTenant_cur (n : Nat) (f : Tenant → Tenant) : (modTenant s n f).cur = s.cur := rfl
@[simp] theorem modTenant_defer (n : Nat) (f : Tenant → Tenant) : (modTenant s n f).defer = s.defer := rfl
@[simp] theorem modTenant_ir (n : Nat) (f : Tenant → Tenant) : (modTenant s n f).ir = s.ir := rfl
@[simp] theorem modTenant_free (n : Nat) (f : Tenant → Tenant) : (modTenant s n f).free = s.free := rfl
@[simp] theorem modTenant_nextId (n : Nat) (f : Tenant → Tenant) : (modTenant s n f).nextId = s.nextId := rfl
@[simp] theorem modTenant_prefer (n : Nat) (f : Tenant → Tenant) : (modTenant s n f).prefer = s.prefer := rfl
@[simp] theorem modTenant_time (n : Nat) (f : Tenant → Tenant) : (modTenant s n f).time = s.time := rfl
@[simp] theorem modTenant_mem (n : Nat) (f : Tenant → Tenant) : (modTenant s n f).mem = s.mem := rfl
@[simp] theorem modTenant_pt (n : Nat) (f : Tenant → Tenant) : (modTenant s n f).pt = s.pt := rfl
@[simp] theorem modTenant_poison (n : Nat) (f : Tenant → Tenant) : (modTenant s n f).poison = s.poison := rfl
@[simp] theorem modTenant_threads (n : Nat) (f : Tenant → Tenant) : (modTenant s n f).threads = s.threads := rfl
@[simp] theorem modTenant_rets (n : Nat) (f : Tenant → Tenant) : (modTenant s n f).rets = s.rets := rfl
@[simp] theorem modTenant_tasks (n : Nat) (f : Tenant → Tenant) : (modTenant s n f).tasks = s.tasks := rfl
@[simp] theorem modTenant_cores (n : Nat) (f : Tenant → Tenant) : (modTenant s n f).cores = s.cores := rfl
@[simp] theorem modTenant_pools (n : Nat) (f : Tenant → Tenant) : (modTenant s n f).pools = s.pools := rfl
@[simp] theorem modTenant_dies (n : Nat) (f : Tenant → Tenant) : (modTenant s n f).dies = s.dies := rfl
@[simp] theorem modTenant_local1 (n : Nat) (f : Tenant → Tenant) : (modTenant s n f).local1 = s.local1 := rfl
@[simp] theorem modTenant_ctxs (n : Nat) (f : Tenant → Tenant) : (modTenant s n f).ctxs = s.ctxs := rfl
@[simp] theorem modTenant_tenants (n : Nat) (f : Tenant → Tenant) : (modTenant s n f).tenants = kset s.tenants n (f (tenant s n)) := rfl
@[simp] theorem modTenant_marks (n : Nat) (f : Tenant → Tenant) : (modTenant s n f).marks = s.marks := rfl
@[simp] theorem modTenant_peerHeld (n : Nat) (f : Tenant → Tenant) : (modTenant s n f).peerHeld = s.peerHeld := rfl
@[simp] theorem modTenant_covers (n : Nat) (f : Tenant → Tenant) : (modTenant s n f).covers = s.covers := rfl
@[simp] theorem modTenant_llc (n : Nat) (f : Tenant → Tenant) : (modTenant s n f).llc = s.llc := rfl
@[simp] theorem modTenant_router (n : Nat) (f : Tenant → Tenant) : (modTenant s n f).router = s.router := rfl
@[simp] theorem modTenant_stores (n : Nat) (f : Tenant → Tenant) : (modTenant s n f).stores = s.stores := rfl
@[simp] theorem modTenant_regions (n : Nat) (f : Tenant → Tenant) : (modTenant s n f).regions = s.regions := rfl
@[simp] theorem modTenant_keeper (n : Nat) (f : Tenant → Tenant) : (modTenant s n f).keeper = s.keeper := rfl

/-! ### modKeeper -/

@[simp] theorem modKeeper_schedule (f : Keeper → Keeper) : (modKeeper s f).schedule = s.schedule := rfl
@[simp] theorem modKeeper_owed (f : Keeper → Keeper) : (modKeeper s f).owed = s.owed := rfl
@[simp] theorem modKeeper_msg (f : Keeper → Keeper) : (modKeeper s f).msg = s.msg := rfl
@[simp] theorem modKeeper_cur (f : Keeper → Keeper) : (modKeeper s f).cur = s.cur := rfl
@[simp] theorem modKeeper_defer (f : Keeper → Keeper) : (modKeeper s f).defer = s.defer := rfl
@[simp] theorem modKeeper_ir (f : Keeper → Keeper) : (modKeeper s f).ir = s.ir := rfl
@[simp] theorem modKeeper_free (f : Keeper → Keeper) : (modKeeper s f).free = s.free := rfl
@[simp] theorem modKeeper_nextId (f : Keeper → Keeper) : (modKeeper s f).nextId = s.nextId := rfl
@[simp] theorem modKeeper_prefer (f : Keeper → Keeper) : (modKeeper s f).prefer = s.prefer := rfl
@[simp] theorem modKeeper_time (f : Keeper → Keeper) : (modKeeper s f).time = s.time := rfl
@[simp] theorem modKeeper_mem (f : Keeper → Keeper) : (modKeeper s f).mem = s.mem := rfl
@[simp] theorem modKeeper_pt (f : Keeper → Keeper) : (modKeeper s f).pt = s.pt := rfl
@[simp] theorem modKeeper_poison (f : Keeper → Keeper) : (modKeeper s f).poison = s.poison := rfl
@[simp] theorem modKeeper_threads (f : Keeper → Keeper) : (modKeeper s f).threads = s.threads := rfl
@[simp] theorem modKeeper_rets (f : Keeper → Keeper) : (modKeeper s f).rets = s.rets := rfl
@[simp] theorem modKeeper_tasks (f : Keeper → Keeper) : (modKeeper s f).tasks = s.tasks := rfl
@[simp] theorem modKeeper_cores (f : Keeper → Keeper) : (modKeeper s f).cores = s.cores := rfl
@[simp] theorem modKeeper_pools (f : Keeper → Keeper) : (modKeeper s f).pools = s.pools := rfl
@[simp] theorem modKeeper_dies (f : Keeper → Keeper) : (modKeeper s f).dies = s.dies := rfl
@[simp] theorem modKeeper_local1 (f : Keeper → Keeper) : (modKeeper s f).local1 = s.local1 := rfl
@[simp] theorem modKeeper_ctxs (f : Keeper → Keeper) : (modKeeper s f).ctxs = s.ctxs := rfl
@[simp] theorem modKeeper_tenants (f : Keeper → Keeper) : (modKeeper s f).tenants = s.tenants := rfl
@[simp] theorem modKeeper_marks (f : Keeper → Keeper) : (modKeeper s f).marks = s.marks := rfl
@[simp] theorem modKeeper_peerHeld (f : Keeper → Keeper) : (modKeeper s f).peerHeld = s.peerHeld := rfl
@[simp] theorem modKeeper_covers (f : Keeper → Keeper) : (modKeeper s f).covers = s.covers := rfl
@[simp] theorem modKeeper_llc (f : Keeper → Keeper) : (modKeeper s f).llc = s.llc := rfl
@[simp] theorem modKeeper_router (f : Keeper → Keeper) : (modKeeper s f).router = s.router := rfl
@[simp] theorem modKeeper_stores (f : Keeper → Keeper) : (modKeeper s f).stores = s.stores := rfl
@[simp] theorem modKeeper_regions (f : Keeper → Keeper) : (modKeeper s f).regions = s.regions := rfl
@[simp] theorem modKeeper_keeper (f : Keeper → Keeper) : (modKeeper s f).keeper = f s.keeper := rfl

/-! ### owe -/

@[simp] theorem owe_schedule (l : List (Instr × Msg)) : (owe s l).schedule = s.schedule := rfl
@[simp] theorem owe_owed (l : List (Instr × Msg)) : (owe s l).owed = s.owed ++ l := rfl
@[simp] theorem owe_msg (l : List (Instr × Msg)) : (owe s l).msg = s.msg := rfl
@[simp] theorem owe_cur (l : List (Instr × Msg)) : (owe s l).cur = s.cur := rfl
@[simp] theorem owe_defer (l : List (Instr × Msg)) : (owe s l).defer = s.defer := rfl
@[simp] theorem owe_ir (l : List (Instr × Msg)) : (owe s l).ir = s.ir := rfl
@[simp] theorem owe_free (l : List (Instr × Msg)) : (owe s l).free = s.free := rfl
@[simp] theorem owe_nextId (l : List (Instr × Msg)) : (owe s l).nextId = s.nextId := rfl
@[simp] theorem owe_prefer (l : List (Instr × Msg)) : (owe s l).prefer = s.prefer := rfl
@[simp] theorem owe_time (l : List (Instr × Msg)) : (owe s l).time = s.time := rfl
@[simp] theorem owe_mem (l : List (Instr × Msg)) : (owe s l).mem = s.mem := rfl
@[simp] theorem owe_pt (l : List (Instr × Msg)) : (owe s l).pt = s.pt := rfl
@[simp] theorem owe_poison (l : List (Instr × Msg)) : (owe s l).poison = s.poison := rfl
@[simp] theorem owe_threads (l : List (Instr × Msg)) : (owe s l).threads = s.threads := rfl
@[simp] theorem owe_rets (l : List (Instr × Msg)) : (owe s l).rets = s.rets := rfl
@[simp] theorem owe_tasks (l : List (Instr × Msg)) : (owe s l).tasks = s.tasks := rfl
@[simp] theorem owe_cores (l : List (Instr × Msg)) : (owe s l).cores = s.cores := rfl
@[simp] theorem owe_pools (l : List (Instr × Msg)) : (owe s l).pools = s.pools := rfl
@[simp] theorem owe_dies (l : List (Instr × Msg)) : (owe s l).dies = s.dies := rfl
@[simp] theorem owe_local1 (l : List (Instr × Msg)) : (owe s l).local1 = s.local1 := rfl
@[simp] theorem owe_ctxs (l : List (Instr × Msg)) : (owe s l).ctxs = s.ctxs := rfl
@[simp] theorem owe_tenants (l : List (Instr × Msg)) : (owe s l).tenants = s.tenants := rfl
@[simp] theorem owe_marks (l : List (Instr × Msg)) : (owe s l).marks = s.marks := rfl
@[simp] theorem owe_peerHeld (l : List (Instr × Msg)) : (owe s l).peerHeld = s.peerHeld := rfl
@[simp] theorem owe_covers (l : List (Instr × Msg)) : (owe s l).covers = s.covers := rfl
@[simp] theorem owe_llc (l : List (Instr × Msg)) : (owe s l).llc = s.llc := rfl
@[simp] theorem owe_router (l : List (Instr × Msg)) : (owe s l).router = s.router := rfl
@[simp] theorem owe_stores (l : List (Instr × Msg)) : (owe s l).stores = s.stores := rfl
@[simp] theorem owe_regions (l : List (Instr × Msg)) : (owe s l).regions = s.regions := rfl
@[simp] theorem owe_keeper (l : List (Instr × Msg)) : (owe s l).keeper = s.keeper := rfl

/-! ### raiseIrq -/

@[simp] theorem raiseIrq_schedule (fn vec : Nat) : (raiseIrq s fn vec).schedule = s.schedule := rfl
@[simp] theorem raiseIrq_owed (fn vec : Nat) : (raiseIrq s fn vec).owed = s.owed := rfl
@[simp] theorem raiseIrq_msg (fn vec : Nat) : (raiseIrq s fn vec).msg = s.msg := rfl
@[simp] theorem raiseIrq_cur (fn vec : Nat) : (raiseIrq s fn vec).cur = s.cur := rfl
@[simp] theorem raiseIrq_defer (fn vec : Nat) : (raiseIrq s fn vec).defer = s.defer := rfl
@[simp] theorem raiseIrq_ir (fn vec : Nat) : (raiseIrq s fn vec).ir = s.ir := rfl
@[simp] theorem raiseIrq_free (fn vec : Nat) : (raiseIrq s fn vec).free = s.free := rfl
@[simp] theorem raiseIrq_nextId (fn vec : Nat) : (raiseIrq s fn vec).nextId = s.nextId := rfl
@[simp] theorem raiseIrq_prefer (fn vec : Nat) : (raiseIrq s fn vec).prefer = s.prefer := rfl
@[simp] theorem raiseIrq_time (fn vec : Nat) : (raiseIrq s fn vec).time = s.time := rfl
@[simp] theorem raiseIrq_mem (fn vec : Nat) : (raiseIrq s fn vec).mem = s.mem := rfl
@[simp] theorem raiseIrq_pt (fn vec : Nat) : (raiseIrq s fn vec).pt = s.pt := rfl
@[simp] theorem raiseIrq_poison (fn vec : Nat) : (raiseIrq s fn vec).poison = s.poison := rfl
@[simp] theorem raiseIrq_threads (fn vec : Nat) : (raiseIrq s fn vec).threads = s.threads := rfl
@[simp] theorem raiseIrq_rets (fn vec : Nat) : (raiseIrq s fn vec).rets = s.rets := rfl
@[simp] theorem raiseIrq_tasks (fn vec : Nat) : (raiseIrq s fn vec).tasks = s.tasks := rfl
@[simp] theorem raiseIrq_cores (fn vec : Nat) : (raiseIrq s fn vec).cores = s.cores := rfl
@[simp] theorem raiseIrq_pools (fn vec : Nat) : (raiseIrq s fn vec).pools = s.pools := rfl
@[simp] theorem raiseIrq_dies (fn vec : Nat) : (raiseIrq s fn vec).dies = s.dies := rfl
@[simp] theorem raiseIrq_local1 (fn vec : Nat) : (raiseIrq s fn vec).local1 = s.local1 := rfl
@[simp] theorem raiseIrq_ctxs (fn vec : Nat) : (raiseIrq s fn vec).ctxs = s.ctxs := rfl
@[simp] theorem raiseIrq_tenants (fn vec : Nat) : (raiseIrq s fn vec).tenants = s.tenants := rfl
@[simp] theorem raiseIrq_marks (fn vec : Nat) : (raiseIrq s fn vec).marks = s.marks := rfl
@[simp] theorem raiseIrq_peerHeld (fn vec : Nat) : (raiseIrq s fn vec).peerHeld = s.peerHeld := rfl
@[simp] theorem raiseIrq_covers (fn vec : Nat) : (raiseIrq s fn vec).covers = s.covers := rfl
@[simp] theorem raiseIrq_llc (fn vec : Nat) : (raiseIrq s fn vec).llc = s.llc := rfl
@[simp] theorem raiseIrq_router (fn vec : Nat) : (raiseIrq s fn vec).router = s.router := rfl
@[simp] theorem raiseIrq_stores (fn vec : Nat) : (raiseIrq s fn vec).stores = s.stores := rfl
@[simp] theorem raiseIrq_regions (fn vec : Nat) : (raiseIrq s fn vec).regions = s.regions := rfl

/-! ### pushTrace -/

@[simp] theorem pushTrace_schedule (c : Nat) (e : TraceEntry) : (pushTrace s c e).schedule = s.schedule := rfl
@[simp] theorem pushTrace_owed (c : Nat) (e : TraceEntry) : (pushTrace s c e).owed = s.owed := rfl
@[simp] theorem pushTrace_msg (c : Nat) (e : TraceEntry) : (pushTrace s c e).msg = s.msg := rfl
@[simp] theorem pushTrace_cur (c : Nat) (e : TraceEntry) : (pushTrace s c e).cur = s.cur := rfl
@[simp] theorem pushTrace_defer (c : Nat) (e : TraceEntry) : (pushTrace s c e).defer = s.defer := rfl
@[simp] theorem pushTrace_ir (c : Nat) (e : TraceEntry) : (pushTrace s c e).ir = s.ir := rfl
@[simp] theorem pushTrace_free (c : Nat) (e : TraceEntry) : (pushTrace s c e).free = s.free := rfl
@[simp] theorem pushTrace_nextId (c : Nat) (e : TraceEntry) : (pushTrace s c e).nextId = s.nextId := rfl
@[simp] theorem pushTrace_prefer (c : Nat) (e : TraceEntry) : (pushTrace s c e).prefer = s.prefer := rfl
@[simp] theorem pushTrace_time (c : Nat) (e : TraceEntry) : (pushTrace s c e).time = s.time := rfl
@[simp] theorem pushTrace_mem (c : Nat) (e : TraceEntry) : (pushTrace s c e).mem = s.mem := rfl
@[simp] theorem pushTrace_pt (c : Nat) (e : TraceEntry) : (pushTrace s c e).pt = s.pt := rfl
@[simp] theorem pushTrace_poison (c : Nat) (e : TraceEntry) : (pushTrace s c e).poison = s.poison := rfl
@[simp] theorem pushTrace_threads (c : Nat) (e : TraceEntry) : (pushTrace s c e).threads = s.threads := rfl
@[simp] theorem pushTrace_rets (c : Nat) (e : TraceEntry) : (pushTrace s c e).rets = s.rets := rfl
@[simp] theorem pushTrace_tasks (c : Nat) (e : TraceEntry) : (pushTrace s c e).tasks = s.tasks := rfl
@[simp] theorem pushTrace_pools (c : Nat) (e : TraceEntry) : (pushTrace s c e).pools = s.pools := rfl
@[simp] theorem pushTrace_dies (c : Nat) (e : TraceEntry) : (pushTrace s c e).dies = s.dies := rfl
@[simp] theorem pushTrace_local1 (c : Nat) (e : TraceEntry) : (pushTrace s c e).local1 = s.local1 := rfl
@[simp] theorem pushTrace_ctxs (c : Nat) (e : TraceEntry) : (pushTrace s c e).ctxs = s.ctxs := rfl
@[simp] theorem pushTrace_tenants (c : Nat) (e : TraceEntry) : (pushTrace s c e).tenants = s.tenants := rfl
@[simp] theorem pushTrace_marks (c : Nat) (e : TraceEntry) : (pushTrace s c e).marks = s.marks := rfl
@[simp] theorem pushTrace_peerHeld (c : Nat) (e : TraceEntry) : (pushTrace s c e).peerHeld = s.peerHeld := rfl
@[simp] theorem pushTrace_covers (c : Nat) (e : TraceEntry) : (pushTrace s c e).covers = s.covers := rfl
@[simp] theorem pushTrace_llc (c : Nat) (e : TraceEntry) : (pushTrace s c e).llc = s.llc := rfl
@[simp] theorem pushTrace_router (c : Nat) (e : TraceEntry) : (pushTrace s c e).router = s.router := rfl
@[simp] theorem pushTrace_stores (c : Nat) (e : TraceEntry) : (pushTrace s c e).stores = s.stores := rfl
@[simp] theorem pushTrace_regions (c : Nat) (e : TraceEntry) : (pushTrace s c e).regions = s.regions := rfl
@[simp] theorem pushTrace_keeper (c : Nat) (e : TraceEntry) : (pushTrace s c e).keeper = s.keeper := rfl

/-! ### trace -/

@[simp] theorem trace_schedule (kind code : Nat) (data : Word) : (trace s kind code data).schedule = s.schedule := rfl
@[simp] theorem trace_owed (kind code : Nat) (data : Word) : (trace s kind code data).owed = s.owed := rfl
@[simp] theorem trace_msg (kind code : Nat) (data : Word) : (trace s kind code data).msg = s.msg := rfl
@[simp] theorem trace_cur (kind code : Nat) (data : Word) : (trace s kind code data).cur = s.cur := rfl
@[simp] theorem trace_defer (kind code : Nat) (data : Word) : (trace s kind code data).defer = s.defer := rfl
@[simp] theorem trace_ir (kind code : Nat) (data : Word) : (trace s kind code data).ir = s.ir := rfl
@[simp] theorem trace_free (kind code : Nat) (data : Word) : (trace s kind code data).free = s.free := rfl
@[simp] theorem trace_nextId (kind code : Nat) (data : Word) : (trace s kind code data).nextId = s.nextId := rfl
@[simp] theorem trace_prefer (kind code : Nat) (data : Word) : (trace s kind code data).prefer = s.prefer := rfl
@[simp] theorem trace_time (kind code : Nat) (data : Word) : (trace s kind code data).time = s.time := rfl
@[simp] theorem trace_mem (kind code : Nat) (data : Word) : (trace s kind code data).mem = s.mem := rfl
@[simp] theorem trace_pt (kind code : Nat) (data : Word) : (trace s kind code data).pt = s.pt := rfl
@[simp] theorem trace_poison (kind code : Nat) (data : Word) : (trace s kind code data).poison = s.poison := rfl
@[simp] theorem trace_threads (kind code : Nat) (data : Word) : (trace s kind code data).threads = s.threads := rfl
@[simp] theorem trace_rets (kind code : Nat) (data : Word) : (trace s kind code data).rets = s.rets := rfl
@[simp] theorem trace_tasks (kind code : Nat) (data : Word) : (trace s kind code data).tasks = s.tasks := rfl
@[simp] theorem trace_pools (kind code : Nat) (data : Word) : (trace s kind code data).pools = s.pools := rfl
@[simp] theorem trace_dies (kind code : Nat) (data : Word) : (trace s kind code data).dies = s.dies := rfl
@[simp] theorem trace_local1 (kind code : Nat) (data : Word) : (trace s kind code data).local1 = s.local1 := rfl
@[simp] theorem trace_ctxs (kind code : Nat) (data : Word) : (trace s kind code data).ctxs = s.ctxs := rfl
@[simp] theorem trace_tenants (kind code : Nat) (data : Word) : (trace s kind code data).tenants = s.tenants := rfl
@[simp] theorem trace_marks (kind code : Nat) (data : Word) : (trace s kind code data).marks = s.marks := rfl
@[simp] theorem trace_peerHeld (kind code : Nat) (data : Word) : (trace s kind code data).peerHeld = s.peerHeld := rfl
@[simp] theorem trace_covers (kind code : Nat) (data : Word) : (trace s kind code data).covers = s.covers := rfl
@[simp] theorem trace_llc (kind code : Nat) (data : Word) : (trace s kind code data).llc = s.llc := rfl
@[simp] theorem trace_router (kind code : Nat) (data : Word) : (trace s kind code data).router = s.router := rfl
@[simp] theorem trace_stores (kind code : Nat) (data : Word) : (trace s kind code data).stores = s.stores := rfl
@[simp] theorem trace_regions (kind code : Nat) (data : Word) : (trace s kind code data).regions = s.regions := rfl
@[simp] theorem trace_keeper (kind code : Nat) (data : Word) : (trace s kind code data).keeper = s.keeper := rfl

/-! ### modMy -/

@[simp] theorem modMy_schedule (f : Thread → Thread) : (modMy s f).schedule = s.schedule := rfl
@[simp] theorem modMy_owed (f : Thread → Thread) : (modMy s f).owed = s.owed := rfl
@[simp] theorem modMy_msg (f : Thread → Thread) : (modMy s f).msg = s.msg := rfl
@[simp] theorem modMy_cur (f : Thread → Thread) : (modMy s f).cur = s.cur := rfl
@[simp] theorem modMy_defer (f : Thread → Thread) : (modMy s f).defer = s.defer := rfl
@[simp] theorem modMy_ir (f : Thread → Thread) : (modMy s f).ir = s.ir := rfl
@[simp] theorem modMy_free (f : Thread → Thread) : (modMy s f).free = s.free := rfl
@[simp] theorem modMy_nextId (f : Thread → Thread) : (modMy s f).nextId = s.nextId := rfl
@[simp] theorem modMy_prefer (f : Thread → Thread) : (modMy s f).prefer = s.prefer := rfl
@[simp] theorem modMy_time (f : Thread → Thread) : (modMy s f).time = s.time := rfl
@[simp] theorem modMy_mem (f : Thread → Thread) : (modMy s f).mem = s.mem := rfl
@[simp] theorem modMy_pt (f : Thread → Thread) : (modMy s f).pt = s.pt := rfl
@[simp] theorem modMy_poison (f : Thread → Thread) : (modMy s f).poison = s.poison := rfl
@[simp] theorem modMy_threads (f : Thread → Thread) : (modMy s f).threads = kset s.threads (me s) (f (my s)) := rfl
@[simp] theorem modMy_rets (f : Thread → Thread) : (modMy s f).rets = s.rets := rfl
@[simp] theorem modMy_tasks (f : Thread → Thread) : (modMy s f).tasks = s.tasks := rfl
@[simp] theorem modMy_cores (f : Thread → Thread) : (modMy s f).cores = s.cores := rfl
@[simp] theorem modMy_pools (f : Thread → Thread) : (modMy s f).pools = s.pools := rfl
@[simp] theorem modMy_dies (f : Thread → Thread) : (modMy s f).dies = s.dies := rfl
@[simp] theorem modMy_local1 (f : Thread → Thread) : (modMy s f).local1 = s.local1 := rfl
@[simp] theorem modMy_ctxs (f : Thread → Thread) : (modMy s f).ctxs = s.ctxs := rfl
@[simp] theorem modMy_tenants (f : Thread → Thread) : (modMy s f).tenants = s.tenants := rfl
@[simp] theorem modMy_marks (f : Thread → Thread) : (modMy s f).marks = s.marks := rfl
@[simp] theorem modMy_peerHeld (f : Thread → Thread) : (modMy s f).peerHeld = s.peerHeld := rfl
@[simp] theorem modMy_covers (f : Thread → Thread) : (modMy s f).covers = s.covers := rfl
@[simp] theorem modMy_llc (f : Thread → Thread) : (modMy s f).llc = s.llc := rfl
@[simp] theorem modMy_router (f : Thread → Thread) : (modMy s f).router = s.router := rfl
@[simp] theorem modMy_stores (f : Thread → Thread) : (modMy s f).stores = s.stores := rfl
@[simp] theorem modMy_regions (f : Thread → Thread) : (modMy s f).regions = s.regions := rfl
@[simp] theorem modMy_keeper (f : Thread → Thread) : (modMy s f).keeper = s.keeper := rfl

/-! ### modCtx -/

@[simp] theorem modCtx_schedule (c : Nat) (f : Ctx → Ctx) : (modCtx s c f).schedule = s.schedule := by unfold modCtx; split <;> rfl
@[simp] theorem modCtx_owed (c : Nat) (f : Ctx → Ctx) : (modCtx s c f).owed = s.owed := by unfold modCtx; split <;> rfl
@[simp] theorem modCtx_msg (c : Nat) (f : Ctx → Ctx) : (modCtx s c f).msg = s.msg := by unfold modCtx; split <;> rfl
@[simp] theorem modCtx_cur (c : Nat) (f : Ctx → Ctx) : (modCtx s c f).cur = s.cur := by unfold modCtx; split <;> rfl
@[simp] theorem modCtx_defer (c : Nat) (f : Ctx → Ctx) : (modCtx s c f).defer = s.defer := by unfold modCtx; split <;> rfl
@[simp] theorem modCtx_ir (c : Nat) (f : Ctx → Ctx) : (modCtx s c f).ir = s.ir := by unfold modCtx; split <;> rfl
@[simp] theorem modCtx_free (c : Nat) (f : Ctx → Ctx) : (modCtx s c f).free = s.free := by unfold modCtx; split <;> rfl
@[simp] theorem modCtx_nextId (c : Nat) (f : Ctx → Ctx) : (modCtx s c f).nextId = s.nextId := by unfold modCtx; split <;> rfl
@[simp] theorem modCtx_prefer (c : Nat) (f : Ctx → Ctx) : (modCtx s c f).prefer = s.prefer := by unfold modCtx; split <;> rfl
@[simp] theorem modCtx_time (c : Nat) (f : Ctx → Ctx) : (modCtx s c f).time = s.time := by unfold modCtx; split <;> rfl
@[simp] theorem modCtx_mem (c : Nat) (f : Ctx → Ctx) : (modCtx s c f).mem = s.mem := by unfold modCtx; split <;> rfl
@[simp] theorem modCtx_pt (c : Nat) (f : Ctx → Ctx) : (modCtx s c f).pt = s.pt := by unfold modCtx; split <;> rfl
@[simp] theorem modCtx_poison (c : Nat) (f : Ctx → Ctx) : (modCtx s c f).poison = s.poison := by unfold modCtx; split <;> rfl
@[simp] theorem modCtx_threads (c : Nat) (f : Ctx → Ctx) : (modCtx s c f).threads = s.threads := by unfold modCtx; split <;> rfl
@[simp] theorem modCtx_rets (c : Nat) (f : Ctx → Ctx) : (modCtx s c f).rets = s.rets := by unfold modCtx; split <;> rfl
@[simp] theorem modCtx_tasks (c : Nat) (f : Ctx → Ctx) : (modCtx s c f).tasks = s.tasks := by unfold modCtx; split <;> rfl
@[simp] theorem modCtx_cores (c : Nat) (f : Ctx → Ctx) : (modCtx s c f).cores = s.cores := by unfold modCtx; split <;> rfl
@[simp] theorem modCtx_pools (c : Nat) (f : Ctx → Ctx) : (modCtx s c f).pools = s.pools := by unfold modCtx; split <;> rfl
@[simp] theorem modCtx_dies (c : Nat) (f : Ctx → Ctx) : (modCtx s c f).dies = s.dies := by unfold modCtx; split <;> rfl
@[simp] theorem modCtx_local1 (c : Nat) (f : Ctx → Ctx) : (modCtx s c f).local1 = s.local1 := by unfold modCtx; split <;> rfl
@[simp] theorem modCtx_tenants (c : Nat) (f : Ctx → Ctx) : (modCtx s c f).tenants = s.tenants := by unfold modCtx; split <;> rfl
@[simp] theorem modCtx_marks (c : Nat) (f : Ctx → Ctx) : (modCtx s c f).marks = s.marks := by unfold modCtx; split <;> rfl
@[simp] theorem modCtx_peerHeld (c : Nat) (f : Ctx → Ctx) : (modCtx s c f).peerHeld = s.peerHeld := by unfold modCtx; split <;> rfl
@[simp] theorem modCtx_covers (c : Nat) (f : Ctx → Ctx) : (modCtx s c f).covers = s.covers := by unfold modCtx; split <;> rfl
@[simp] theorem modCtx_llc (c : Nat) (f : Ctx → Ctx) : (modCtx s c f).llc = s.llc := by unfold modCtx; split <;> rfl
@[simp] theorem modCtx_router (c : Nat) (f : Ctx → Ctx) : (modCtx s c f).router = s.router := by unfold modCtx; split <;> rfl
@[simp] theorem modCtx_stores (c : Nat) (f : Ctx → Ctx) : (modCtx s c f).stores = s.stores := by unfold modCtx; split <;> rfl
@[simp] theorem modCtx_regions (c : Nat) (f : Ctx → Ctx) : (modCtx s c f).regions = s.regions := by unfold modCtx; split <;> rfl
@[simp] theorem modCtx_keeper (c : Nat) (f : Ctx → Ctx) : (modCtx s c f).keeper = s.keeper := by unfold modCtx; split <;> rfl

/-! ### countErr -/

@[simp] theorem countErr_schedule (c i : Nat) : (countErr s c i).schedule = s.schedule := by unfold countErr; simp
@[simp] theorem countErr_owed (c i : Nat) : (countErr s c i).owed = s.owed := by unfold countErr; simp
@[simp] theorem countErr_msg (c i : Nat) : (countErr s c i).msg = s.msg := by unfold countErr; simp
@[simp] theorem countErr_cur (c i : Nat) : (countErr s c i).cur = s.cur := by unfold countErr; simp
@[simp] theorem countErr_defer (c i : Nat) : (countErr s c i).defer = s.defer := by unfold countErr; simp
@[simp] theorem countErr_ir (c i : Nat) : (countErr s c i).ir = s.ir := by unfold countErr; simp
@[simp] theorem countErr_free (c i : Nat) : (countErr s c i).free = s.free := by unfold countErr; simp
@[simp] theorem countErr_nextId (c i : Nat) : (countErr s c i).nextId = s.nextId := by unfold countErr; simp
@[simp] theorem countErr_prefer (c i : Nat) : (countErr s c i).prefer = s.prefer := by unfold countErr; simp
@[simp] theorem countErr_time (c i : Nat) : (countErr s c i).time = s.time := by unfold countErr; simp
@[simp] theorem countErr_mem (c i : Nat) : (countErr s c i).mem = s.mem := by unfold countErr; simp
@[simp] theorem countErr_pt (c i : Nat) : (countErr s c i).pt = s.pt := by unfold countErr; simp
@[simp] theorem countErr_poison (c i : Nat) : (countErr s c i).poison = s.poison := by unfold countErr; simp
@[simp] theorem countErr_threads (c i : Nat) : (countErr s c i).threads = s.threads := by unfold countErr; simp
@[simp] theorem countErr_rets (c i : Nat) : (countErr s c i).rets = s.rets := by unfold countErr; simp
@[simp] theorem countErr_tasks (c i : Nat) : (countErr s c i).tasks = s.tasks := by unfold countErr; simp
@[simp] theorem countErr_cores (c i : Nat) : (countErr s c i).cores = s.cores := by unfold countErr; simp
@[simp] theorem countErr_pools (c i : Nat) : (countErr s c i).pools = s.pools := by unfold countErr; simp
@[simp] theorem countErr_dies (c i : Nat) : (countErr s c i).dies = s.dies := by unfold countErr; simp
@[simp] theorem countErr_local1 (c i : Nat) : (countErr s c i).local1 = s.local1 := by unfold countErr; simp
@[simp] theorem countErr_tenants (c i : Nat) : (countErr s c i).tenants = s.tenants := by unfold countErr; simp
@[simp] theorem countErr_marks (c i : Nat) : (countErr s c i).marks = s.marks := by unfold countErr; simp
@[simp] theorem countErr_peerHeld (c i : Nat) : (countErr s c i).peerHeld = s.peerHeld := by unfold countErr; simp
@[simp] theorem countErr_covers (c i : Nat) : (countErr s c i).covers = s.covers := by unfold countErr; simp
@[simp] theorem countErr_llc (c i : Nat) : (countErr s c i).llc = s.llc := by unfold countErr; simp
@[simp] theorem countErr_router (c i : Nat) : (countErr s c i).router = s.router := by unfold countErr; simp
@[simp] theorem countErr_stores (c i : Nat) : (countErr s c i).stores = s.stores := by unfold countErr; simp
@[simp] theorem countErr_regions (c i : Nat) : (countErr s c i).regions = s.regions := by unfold countErr; simp
@[simp] theorem countErr_keeper (c i : Nat) : (countErr s c i).keeper = s.keeper := by unfold countErr; simp

/-! ### modHart -/

@[simp] theorem modHart_schedule (f : Hart → Hart) : (modHart s f).schedule = s.schedule := by unfold modHart; split <;> rfl
@[simp] theorem modHart_owed (f : Hart → Hart) : (modHart s f).owed = s.owed := by unfold modHart; split <;> rfl
@[simp] theorem modHart_msg (f : Hart → Hart) : (modHart s f).msg = s.msg := by unfold modHart; split <;> rfl
@[simp] theorem modHart_cur (f : Hart → Hart) : (modHart s f).cur = s.cur := by unfold modHart; split <;> rfl
@[simp] theorem modHart_defer (f : Hart → Hart) : (modHart s f).defer = s.defer := by unfold modHart; split <;> rfl
@[simp] theorem modHart_ir (f : Hart → Hart) : (modHart s f).ir = s.ir := by unfold modHart; split <;> rfl
@[simp] theorem modHart_free (f : Hart → Hart) : (modHart s f).free = s.free := by unfold modHart; split <;> rfl
@[simp] theorem modHart_nextId (f : Hart → Hart) : (modHart s f).nextId = s.nextId := by unfold modHart; split <;> rfl
@[simp] theorem modHart_prefer (f : Hart → Hart) : (modHart s f).prefer = s.prefer := by unfold modHart; split <;> rfl
@[simp] theorem modHart_time (f : Hart → Hart) : (modHart s f).time = s.time := by unfold modHart; split <;> rfl
@[simp] theorem modHart_mem (f : Hart → Hart) : (modHart s f).mem = s.mem := by unfold modHart; split <;> rfl
@[simp] theorem modHart_pt (f : Hart → Hart) : (modHart s f).pt = s.pt := by unfold modHart; split <;> rfl
@[simp] theorem modHart_poison (f : Hart → Hart) : (modHart s f).poison = s.poison := by unfold modHart; split <;> rfl
@[simp] theorem modHart_tasks (f : Hart → Hart) : (modHart s f).tasks = s.tasks := by unfold modHart; split <;> rfl
@[simp] theorem modHart_cores (f : Hart → Hart) : (modHart s f).cores = s.cores := by unfold modHart; split <;> rfl
@[simp] theorem modHart_pools (f : Hart → Hart) : (modHart s f).pools = s.pools := by unfold modHart; split <;> rfl
@[simp] theorem modHart_dies (f : Hart → Hart) : (modHart s f).dies = s.dies := by unfold modHart; split <;> rfl
@[simp] theorem modHart_local1 (f : Hart → Hart) : (modHart s f).local1 = s.local1 := by unfold modHart; split <;> rfl
@[simp] theorem modHart_ctxs (f : Hart → Hart) : (modHart s f).ctxs = s.ctxs := by unfold modHart; split <;> rfl
@[simp] theorem modHart_tenants (f : Hart → Hart) : (modHart s f).tenants = s.tenants := by unfold modHart; split <;> rfl
@[simp] theorem modHart_marks (f : Hart → Hart) : (modHart s f).marks = s.marks := by unfold modHart; split <;> rfl
@[simp] theorem modHart_peerHeld (f : Hart → Hart) : (modHart s f).peerHeld = s.peerHeld := by unfold modHart; split <;> rfl
@[simp] theorem modHart_covers (f : Hart → Hart) : (modHart s f).covers = s.covers := by unfold modHart; split <;> rfl
@[simp] theorem modHart_llc (f : Hart → Hart) : (modHart s f).llc = s.llc := by unfold modHart; split <;> rfl
@[simp] theorem modHart_router (f : Hart → Hart) : (modHart s f).router = s.router := by unfold modHart; split <;> rfl
@[simp] theorem modHart_stores (f : Hart → Hart) : (modHart s f).stores = s.stores := by unfold modHart; split <;> rfl
@[simp] theorem modHart_regions (f : Hart → Hart) : (modHart s f).regions = s.regions := by unfold modHart; split <;> rfl
@[simp] theorem modHart_keeper (f : Hart → Hart) : (modHart s f).keeper = s.keeper := by unfold modHart; split <;> rfl

/-! ### setReg -/

@[simp] theorem setReg_schedule (r : Reg) (v : Word) : (setReg s r v).schedule = s.schedule := by unfold setReg; simp
@[simp] theorem setReg_owed (r : Reg) (v : Word) : (setReg s r v).owed = s.owed := by unfold setReg; simp
@[simp] theorem setReg_msg (r : Reg) (v : Word) : (setReg s r v).msg = s.msg := by unfold setReg; simp
@[simp] theorem setReg_cur (r : Reg) (v : Word) : (setReg s r v).cur = s.cur := by unfold setReg; simp
@[simp] theorem setReg_defer (r : Reg) (v : Word) : (setReg s r v).defer = s.defer := by unfold setReg; simp
@[simp] theorem setReg_ir (r : Reg) (v : Word) : (setReg s r v).ir = s.ir := by unfold setReg; simp
@[simp] theorem setReg_free (r : Reg) (v : Word) : (setReg s r v).free = s.free := by unfold setReg; simp
@[simp] theorem setReg_nextId (r : Reg) (v : Word) : (setReg s r v).nextId = s.nextId := by unfold setReg; simp
@[simp] theorem setReg_prefer (r : Reg) (v : Word) : (setReg s r v).prefer = s.prefer := by unfold setReg; simp
@[simp] theorem setReg_time (r : Reg) (v : Word) : (setReg s r v).time = s.time := by unfold setReg; simp
@[simp] theorem setReg_mem (r : Reg) (v : Word) : (setReg s r v).mem = s.mem := by unfold setReg; simp
@[simp] theorem setReg_pt (r : Reg) (v : Word) : (setReg s r v).pt = s.pt := by unfold setReg; simp
@[simp] theorem setReg_poison (r : Reg) (v : Word) : (setReg s r v).poison = s.poison := by unfold setReg; simp
@[simp] theorem setReg_tasks (r : Reg) (v : Word) : (setReg s r v).tasks = s.tasks := by unfold setReg; simp
@[simp] theorem setReg_cores (r : Reg) (v : Word) : (setReg s r v).cores = s.cores := by unfold setReg; simp
@[simp] theorem setReg_pools (r : Reg) (v : Word) : (setReg s r v).pools = s.pools := by unfold setReg; simp
@[simp] theorem setReg_dies (r : Reg) (v : Word) : (setReg s r v).dies = s.dies := by unfold setReg; simp
@[simp] theorem setReg_local1 (r : Reg) (v : Word) : (setReg s r v).local1 = s.local1 := by unfold setReg; simp
@[simp] theorem setReg_ctxs (r : Reg) (v : Word) : (setReg s r v).ctxs = s.ctxs := by unfold setReg; simp
@[simp] theorem setReg_tenants (r : Reg) (v : Word) : (setReg s r v).tenants = s.tenants := by unfold setReg; simp
@[simp] theorem setReg_marks (r : Reg) (v : Word) : (setReg s r v).marks = s.marks := by unfold setReg; simp
@[simp] theorem setReg_peerHeld (r : Reg) (v : Word) : (setReg s r v).peerHeld = s.peerHeld := by unfold setReg; simp
@[simp] theorem setReg_covers (r : Reg) (v : Word) : (setReg s r v).covers = s.covers := by unfold setReg; simp
@[simp] theorem setReg_llc (r : Reg) (v : Word) : (setReg s r v).llc = s.llc := by unfold setReg; simp
@[simp] theorem setReg_router (r : Reg) (v : Word) : (setReg s r v).router = s.router := by unfold setReg; simp
@[simp] theorem setReg_stores (r : Reg) (v : Word) : (setReg s r v).stores = s.stores := by unfold setReg; simp
@[simp] theorem setReg_regions (r : Reg) (v : Word) : (setReg s r v).regions = s.regions := by unfold setReg; simp
@[simp] theorem setReg_keeper (r : Reg) (v : Word) : (setReg s r v).keeper = s.keeper := by unfold setReg; simp

/-! ### setPc -/

@[simp] theorem setPc_schedule (v : Word) : (setPc s v).schedule = s.schedule := by unfold setPc; simp
@[simp] theorem setPc_owed (v : Word) : (setPc s v).owed = s.owed := by unfold setPc; simp
@[simp] theorem setPc_msg (v : Word) : (setPc s v).msg = s.msg := by unfold setPc; simp
@[simp] theorem setPc_cur (v : Word) : (setPc s v).cur = s.cur := by unfold setPc; simp
@[simp] theorem setPc_defer (v : Word) : (setPc s v).defer = s.defer := by unfold setPc; simp
@[simp] theorem setPc_ir (v : Word) : (setPc s v).ir = s.ir := by unfold setPc; simp
@[simp] theorem setPc_free (v : Word) : (setPc s v).free = s.free := by unfold setPc; simp
@[simp] theorem setPc_nextId (v : Word) : (setPc s v).nextId = s.nextId := by unfold setPc; simp
@[simp] theorem setPc_prefer (v : Word) : (setPc s v).prefer = s.prefer := by unfold setPc; simp
@[simp] theorem setPc_time (v : Word) : (setPc s v).time = s.time := by unfold setPc; simp
@[simp] theorem setPc_mem (v : Word) : (setPc s v).mem = s.mem := by unfold setPc; simp
@[simp] theorem setPc_pt (v : Word) : (setPc s v).pt = s.pt := by unfold setPc; simp
@[simp] theorem setPc_poison (v : Word) : (setPc s v).poison = s.poison := by unfold setPc; simp
@[simp] theorem setPc_tasks (v : Word) : (setPc s v).tasks = s.tasks := by unfold setPc; simp
@[simp] theorem setPc_cores (v : Word) : (setPc s v).cores = s.cores := by unfold setPc; simp
@[simp] theorem setPc_pools (v : Word) : (setPc s v).pools = s.pools := by unfold setPc; simp
@[simp] theorem setPc_dies (v : Word) : (setPc s v).dies = s.dies := by unfold setPc; simp
@[simp] theorem setPc_local1 (v : Word) : (setPc s v).local1 = s.local1 := by unfold setPc; simp
@[simp] theorem setPc_ctxs (v : Word) : (setPc s v).ctxs = s.ctxs := by unfold setPc; simp
@[simp] theorem setPc_tenants (v : Word) : (setPc s v).tenants = s.tenants := by unfold setPc; simp
@[simp] theorem setPc_marks (v : Word) : (setPc s v).marks = s.marks := by unfold setPc; simp
@[simp] theorem setPc_peerHeld (v : Word) : (setPc s v).peerHeld = s.peerHeld := by unfold setPc; simp
@[simp] theorem setPc_covers (v : Word) : (setPc s v).covers = s.covers := by unfold setPc; simp
@[simp] theorem setPc_llc (v : Word) : (setPc s v).llc = s.llc := by unfold setPc; simp
@[simp] theorem setPc_router (v : Word) : (setPc s v).router = s.router := by unfold setPc; simp
@[simp] theorem setPc_stores (v : Word) : (setPc s v).stores = s.stores := by unfold setPc; simp
@[simp] theorem setPc_regions (v : Word) : (setPc s v).regions = s.regions := by unfold setPc; simp
@[simp] theorem setPc_keeper (v : Word) : (setPc s v).keeper = s.keeper := by unfold setPc; simp

/-! ### setCond -/

@[simp] theorem setCond_schedule (c : Cond) : (setCond s c).schedule = s.schedule := by unfold setCond; split <;> rfl
@[simp] theorem setCond_owed (c : Cond) : (setCond s c).owed = s.owed := by unfold setCond; split <;> rfl
@[simp] theorem setCond_msg (c : Cond) : (setCond s c).msg = s.msg := by unfold setCond; split <;> rfl
@[simp] theorem setCond_cur (c : Cond) : (setCond s c).cur = s.cur := by unfold setCond; split <;> rfl
@[simp] theorem setCond_defer (c : Cond) : (setCond s c).defer = s.defer := by unfold setCond; split <;> rfl
@[simp] theorem setCond_ir (c : Cond) : (setCond s c).ir = s.ir := by unfold setCond; split <;> rfl
@[simp] theorem setCond_free (c : Cond) : (setCond s c).free = s.free := by unfold setCond; split <;> rfl
@[simp] theorem setCond_nextId (c : Cond) : (setCond s c).nextId = s.nextId := by unfold setCond; split <;> rfl
@[simp] theorem setCond_prefer (c : Cond) : (setCond s c).prefer = s.prefer := by unfold setCond; split <;> rfl
@[simp] theorem setCond_time (c : Cond) : (setCond s c).time = s.time := by unfold setCond; split <;> rfl
@[simp] theorem setCond_mem (c : Cond) : (setCond s c).mem = s.mem := by unfold setCond; split <;> rfl
@[simp] theorem setCond_pt (c : Cond) : (setCond s c).pt = s.pt := by unfold setCond; split <;> rfl
@[simp] theorem setCond_poison (c : Cond) : (setCond s c).poison = s.poison := by unfold setCond; split <;> rfl
@[simp] theorem setCond_tasks (c : Cond) : (setCond s c).tasks = s.tasks := by unfold setCond; split <;> rfl
@[simp] theorem setCond_cores (c : Cond) : (setCond s c).cores = s.cores := by unfold setCond; split <;> rfl
@[simp] theorem setCond_pools (c : Cond) : (setCond s c).pools = s.pools := by unfold setCond; split <;> rfl
@[simp] theorem setCond_dies (c : Cond) : (setCond s c).dies = s.dies := by unfold setCond; split <;> rfl
@[simp] theorem setCond_local1 (c : Cond) : (setCond s c).local1 = s.local1 := by unfold setCond; split <;> rfl
@[simp] theorem setCond_ctxs (c : Cond) : (setCond s c).ctxs = s.ctxs := by unfold setCond; split <;> rfl
@[simp] theorem setCond_tenants (c : Cond) : (setCond s c).tenants = s.tenants := by unfold setCond; split <;> rfl
@[simp] theorem setCond_marks (c : Cond) : (setCond s c).marks = s.marks := by unfold setCond; split <;> rfl
@[simp] theorem setCond_peerHeld (c : Cond) : (setCond s c).peerHeld = s.peerHeld := by unfold setCond; split <;> rfl
@[simp] theorem setCond_covers (c : Cond) : (setCond s c).covers = s.covers := by unfold setCond; split <;> rfl
@[simp] theorem setCond_llc (c : Cond) : (setCond s c).llc = s.llc := by unfold setCond; split <;> rfl
@[simp] theorem setCond_router (c : Cond) : (setCond s c).router = s.router := by unfold setCond; split <;> rfl
@[simp] theorem setCond_stores (c : Cond) : (setCond s c).stores = s.stores := by unfold setCond; split <;> rfl
@[simp] theorem setCond_regions (c : Cond) : (setCond s c).regions = s.regions := by unfold setCond; split <;> rfl
@[simp] theorem setCond_keeper (c : Cond) : (setCond s c).keeper = s.keeper := by unfold setCond; split <;> rfl

/-! ### retire -/

@[simp] theorem retire_schedule : (retire s).schedule = s.schedule := by unfold retire; split <;> rfl
@[simp] theorem retire_owed : (retire s).owed = s.owed := by unfold retire; split <;> rfl
@[simp] theorem retire_msg : (retire s).msg = s.msg := by unfold retire; split <;> rfl
@[simp] theorem retire_cur : (retire s).cur = s.cur := by unfold retire; split <;> rfl
@[simp] theorem retire_defer : (retire s).defer = s.defer := by unfold retire; split <;> rfl
@[simp] theorem retire_ir : (retire s).ir = s.ir := by unfold retire; split <;> rfl
@[simp] theorem retire_free : (retire s).free = s.free := by unfold retire; split <;> rfl
@[simp] theorem retire_nextId : (retire s).nextId = s.nextId := by unfold retire; split <;> rfl
@[simp] theorem retire_prefer : (retire s).prefer = s.prefer := by unfold retire; split <;> rfl
@[simp] theorem retire_time : (retire s).time = s.time := by unfold retire; split <;> rfl
@[simp] theorem retire_mem : (retire s).mem = s.mem := by unfold retire; split <;> rfl
@[simp] theorem retire_pt : (retire s).pt = s.pt := by unfold retire; split <;> rfl
@[simp] theorem retire_poison : (retire s).poison = s.poison := by unfold retire; split <;> rfl
@[simp] theorem retire_tasks : (retire s).tasks = s.tasks := by unfold retire; split <;> rfl
@[simp] theorem retire_cores : (retire s).cores = s.cores := by unfold retire; split <;> rfl
@[simp] theorem retire_pools : (retire s).pools = s.pools := by unfold retire; split <;> rfl
@[simp] theorem retire_dies : (retire s).dies = s.dies := by unfold retire; split <;> rfl
@[simp] theorem retire_local1 : (retire s).local1 = s.local1 := by unfold retire; split <;> rfl
@[simp] theorem retire_ctxs : (retire s).ctxs = s.ctxs := by unfold retire; split <;> rfl
@[simp] theorem retire_tenants : (retire s).tenants = s.tenants := by unfold retire; split <;> rfl
@[simp] theorem retire_marks : (retire s).marks = s.marks := by unfold retire; split <;> rfl
@[simp] theorem retire_peerHeld : (retire s).peerHeld = s.peerHeld := by unfold retire; split <;> rfl
@[simp] theorem retire_covers : (retire s).covers = s.covers := by unfold retire; split <;> rfl
@[simp] theorem retire_llc : (retire s).llc = s.llc := by unfold retire; split <;> rfl
@[simp] theorem retire_router : (retire s).router = s.router := by unfold retire; split <;> rfl
@[simp] theorem retire_stores : (retire s).stores = s.stores := by unfold retire; split <;> rfl
@[simp] theorem retire_regions : (retire s).regions = s.regions := by unfold retire; split <;> rfl
@[simp] theorem retire_keeper : (retire s).keeper = s.keeper := by unfold retire; split <;> rfl

/-! ### advance -/

@[simp] theorem advance_schedule : (advance s).schedule = s.schedule := by unfold advance; simp
@[simp] theorem advance_owed : (advance s).owed = s.owed := by unfold advance; simp
@[simp] theorem advance_msg : (advance s).msg = s.msg := by unfold advance; simp
@[simp] theorem advance_cur : (advance s).cur = s.cur := by unfold advance; simp
@[simp] theorem advance_defer : (advance s).defer = s.defer := by unfold advance; simp
@[simp] theorem advance_ir : (advance s).ir = s.ir := by unfold advance; simp
@[simp] theorem advance_free : (advance s).free = s.free := by unfold advance; simp
@[simp] theorem advance_nextId : (advance s).nextId = s.nextId := by unfold advance; simp
@[simp] theorem advance_prefer : (advance s).prefer = s.prefer := by unfold advance; simp
@[simp] theorem advance_time : (advance s).time = s.time := by unfold advance; simp
@[simp] theorem advance_mem : (advance s).mem = s.mem := by unfold advance; simp
@[simp] theorem advance_pt : (advance s).pt = s.pt := by unfold advance; simp
@[simp] theorem advance_poison : (advance s).poison = s.poison := by unfold advance; simp
@[simp] theorem advance_tasks : (advance s).tasks = s.tasks := by unfold advance; simp
@[simp] theorem advance_cores : (advance s).cores = s.cores := by unfold advance; simp
@[simp] theorem advance_pools : (advance s).pools = s.pools := by unfold advance; simp
@[simp] theorem advance_dies : (advance s).dies = s.dies := by unfold advance; simp
@[simp] theorem advance_local1 : (advance s).local1 = s.local1 := by unfold advance; simp
@[simp] theorem advance_ctxs : (advance s).ctxs = s.ctxs := by unfold advance; simp
@[simp] theorem advance_tenants : (advance s).tenants = s.tenants := by unfold advance; simp
@[simp] theorem advance_marks : (advance s).marks = s.marks := by unfold advance; simp
@[simp] theorem advance_peerHeld : (advance s).peerHeld = s.peerHeld := by unfold advance; simp
@[simp] theorem advance_covers : (advance s).covers = s.covers := by unfold advance; simp
@[simp] theorem advance_llc : (advance s).llc = s.llc := by unfold advance; simp
@[simp] theorem advance_router : (advance s).router = s.router := by unfold advance; simp
@[simp] theorem advance_stores : (advance s).stores = s.stores := by unfold advance; simp
@[simp] theorem advance_regions : (advance s).regions = s.regions := by unfold advance; simp
@[simp] theorem advance_keeper : (advance s).keeper = s.keeper := by unfold advance; simp

/-! ### waitHere -/

@[simp] theorem waitHere_schedule : (waitHere s).schedule = s.schedule := by unfold waitHere; simp
@[simp] theorem waitHere_owed : (waitHere s).owed = s.owed := by unfold waitHere; simp
@[simp] theorem waitHere_msg : (waitHere s).msg = s.msg := by unfold waitHere; simp
@[simp] theorem waitHere_cur : (waitHere s).cur = s.cur := by unfold waitHere; simp
@[simp] theorem waitHere_defer : (waitHere s).defer = s.defer := by unfold waitHere; simp
@[simp] theorem waitHere_ir : (waitHere s).ir = s.ir := by unfold waitHere; simp
@[simp] theorem waitHere_free : (waitHere s).free = s.free := by unfold waitHere; simp
@[simp] theorem waitHere_nextId : (waitHere s).nextId = s.nextId := by unfold waitHere; simp
@[simp] theorem waitHere_prefer : (waitHere s).prefer = s.prefer := by unfold waitHere; simp
@[simp] theorem waitHere_time : (waitHere s).time = s.time := by unfold waitHere; simp
@[simp] theorem waitHere_mem : (waitHere s).mem = s.mem := by unfold waitHere; simp
@[simp] theorem waitHere_pt : (waitHere s).pt = s.pt := by unfold waitHere; simp
@[simp] theorem waitHere_poison : (waitHere s).poison = s.poison := by unfold waitHere; simp
@[simp] theorem waitHere_tasks : (waitHere s).tasks = s.tasks := by unfold waitHere; simp
@[simp] theorem waitHere_cores : (waitHere s).cores = s.cores := by unfold waitHere; simp
@[simp] theorem waitHere_pools : (waitHere s).pools = s.pools := by unfold waitHere; simp
@[simp] theorem waitHere_dies : (waitHere s).dies = s.dies := by unfold waitHere; simp
@[simp] theorem waitHere_local1 : (waitHere s).local1 = s.local1 := by unfold waitHere; simp
@[simp] theorem waitHere_ctxs : (waitHere s).ctxs = s.ctxs := by unfold waitHere; simp
@[simp] theorem waitHere_tenants : (waitHere s).tenants = s.tenants := by unfold waitHere; simp
@[simp] theorem waitHere_marks : (waitHere s).marks = s.marks := by unfold waitHere; simp
@[simp] theorem waitHere_peerHeld : (waitHere s).peerHeld = s.peerHeld := by unfold waitHere; simp
@[simp] theorem waitHere_covers : (waitHere s).covers = s.covers := by unfold waitHere; simp
@[simp] theorem waitHere_llc : (waitHere s).llc = s.llc := by unfold waitHere; simp
@[simp] theorem waitHere_router : (waitHere s).router = s.router := by unfold waitHere; simp
@[simp] theorem waitHere_stores : (waitHere s).stores = s.stores := by unfold waitHere; simp
@[simp] theorem waitHere_regions : (waitHere s).regions = s.regions := by unfold waitHere; simp
@[simp] theorem waitHere_keeper : (waitHere s).keeper = s.keeper := by unfold waitHere; simp

end Sys2Proof.Machine
end

