-- ==== Sys2Proof/Laws/Retire.lean ====
section
/-! SUPPORT. What the shared operations over agents do: registers read after a write, and what a retired word, a waiting word
and a trap have changed. -/

namespace Sys2Proof.Machine

/-! ### Parts by number -/

theorem thr_setThr (s : State) (t j : Nat) (x : Thread) : thr (setThr s t x) j = if j = t then x else thr s j := by
  simp [thr, setThr, kget_kset]

@[simp] theorem thr_modThr_self (s : State) (t : Nat) (f : Thread → Thread) : thr (modThr s t f) t = f (thr s t) := by
  simp [modThr, thr_setThr]

theorem thr_modThr_ne (s : State) {t j : Nat} (f : Thread → Thread) (h : j ≠ t) : thr (modThr s t f) j = thr s j := by
  simp [modThr, thr_setThr, h]

@[simp] theorem ret_modRet_self (s : State) (n : Nat) (f : Retriever → Retriever) : ret (modRet s n f) n = f (ret s n) := by
  simp [ret, modRet]

theorem ret_modRet_ne (s : State) {n j : Nat} (f : Retriever → Retriever) (h : j ≠ n) :
    ret (modRet s n f) j = ret s j := by simp [ret, modRet, kget_kset_ne _ _ _ h]

theorem core_modCore (s : State) (c j : Nat) (f : Core → Core) :
    core (modCore s c f) j = if j = c then f (core s c) else core s j := by simp [core, modCore, kget_kset]

theorem pool_modPool (s : State) (p j : Nat) (f : Pool → Pool) :
    pool (modPool s p f) j = if j = p then f (pool s p) else pool s j := by simp [pool, modPool, kget_kset]

theorem die_modDie (s : State) (d j : Nat) (f : Die → Die) :
    die (modDie s d f) j = if j = d then f (die s d) else die s j := by simp [die, modDie, kget_kset]

theorem tenant_modTenant (s : State) (n j : Nat) (f : Tenant → Tenant) :
    tenant (modTenant s n f) j = if j = n then f (tenant s n) else tenant s j := by simp [tenant, modTenant, kget_kset]

theorem ctx_modCtx (s : State) (c j : Nat) (f : Ctx → Ctx) :
    ctx? (modCtx s c f) j = if j = c then (ctx? s c).map f else ctx? s j := by
  unfold modCtx ctx?
  cases h : kfind s.ctxs c with
  | none => by_cases hj : j = c <;> simp [hj, h]
  | some x => simp [kfind_kset]

/-! ### Registers -/

@[simp] theorem Hart.get_zero (h : Hart) : h.get 0 = 0 := rfl
@[simp] theorem Hart.set_zero (h : Hart) (v : Word) : h.set 0 v = h := rfl
@[simp] theorem Hart.set_pc (h : Hart) (r : Reg) (v : Word) : (h.set r v).pc = h.pc := by unfold Hart.set; split <;> rfl
@[simp] theorem Hart.set_segs (h : Hart) (r : Reg) (v : Word) : (h.set r v).segs = h.segs := by
  unfold Hart.set; split <;> rfl

/-- A register of a hart after a write (R28). -/
theorem Hart.get_set (h : Hart) (d r : Reg) (v : Word) : (h.set d v).get r = if r = d ∧ d ≠ 0 then v else h.get r := by
  by_cases hd : d = 0
  · rw [hd, Hart.set_zero]; simp
  · unfold Hart.get Hart.set
    rw [if_neg hd]
    by_cases hr : r = 0
    · rw [if_pos hr, if_pos hr, if_neg]
      rintro ⟨rfl, h⟩
      exact h hr
    · rw [if_neg hr, if_neg hr]
      by_cases hrd : r = d
      · subst hrd; rw [if_pos ⟨rfl, hd⟩]; simp
      · have : d.toNat ≠ r.toNat := fun h => hrd (BitVec.eq_of_toNat_eq h.symm)
        rw [if_neg (fun h => hrd h.1)]
        exact Vector.getElem_set_ne d.isLt r.isLt this

/-! ### The issuing agent in two states that agree on it -/

/-- Two states hold the same threads and Retrievers, and the same agent issues. -/
structure SameAgents (s u : State) : Prop where
  cur : u.cur = s.cur
  threads : u.threads = s.threads
  rets : u.rets = s.rets

theorem SameAgents.refl (s : State) : SameAgents s s := ⟨rfl, rfl, rfl⟩

theorem SameAgents.me {s u : State} (h : SameAgents s u) : me u = me s := by
  unfold Machine.me ret; rw [h.cur, h.rets]

theorem SameAgents.hart {s u : State} (h : SameAgents s u) : hart u = hart s := by
  unfold Machine.hart thr ret; rw [h.cur, h.rets, h.threads]

theorem SameAgents.my {s u : State} (h : SameAgents s u) : my u = my s := by
  unfold Machine.my thr; rw [h.me, h.threads]

theorem SameAgents.pcOf {s u : State} (h : SameAgents s u) : pcOf u = pcOf s := by unfold Machine.pcOf; rw [h.hart]

/-! ### Retiring -/

@[simp] theorem hart_modHart (s : State) (f : Hart → Hart) : hart (modHart s f) = f (hart s) := by
  unfold hart modHart
  cases h : s.cur <;> simp [h]

@[simp] theorem hart_retire (s : State) : hart (retire s) = hart s := by
  unfold hart retire; cases h : s.cur <;> simp [h]

@[simp] theorem hart_setReg (s : State) (d : Reg) (v : Word) : hart (setReg s d v) = (hart s).set d v := by simp [setReg]

@[simp] theorem hart_setPc (s : State) (v : Word) : hart (setPc s v) = { hart s with pc := v } := by simp [setPc]

@[simp] theorem pcOf_setReg (s : State) (d : Reg) (v : Word) : pcOf (setReg s d v) = pcOf s := by simp [pcOf]

theorem hart_advance (s : State) : hart (advance s) = { hart s with pc := pcOf s + 8 } := by simp [advance]

theorem reg_setReg (s : State) (d r : Reg) (v : Word) :
    reg (setReg s d v) r = if r = d ∧ d ≠ 0 then v else reg s r := by simp [reg, Hart.get_set]

@[simp] theorem reg_advance (s : State) (r : Reg) : reg (advance s) r = reg s r := by
  unfold reg; rw [hart_advance]; rfl

/-- The record of a thread that has retired a word with a new hart. -/
theorem retire_modHart_thread (s : State) (n : Nat) (f : Hart → Hart) (h : s.cur = .thread n) :
    retire (modHart s f) = setThr s n { thr s n with
      hart := f (thr s n).hart, instret := (thr s n).instret + 1, cond := .ready } := by
  unfold retire modHart; simp [h, modThr, setThr, thr]

theorem retire_modHart_ret (s : State) (n : Nat) (f : Hart → Hart) (h : s.cur = .ret n) :
    retire (modHart s f) = modRet s n (fun r => { r with hart := f r.hart, cond := .ready }) := by
  unfold retire modHart; simp [h, modRet, ret]

theorem modHart_modHart (s : State) (f g : Hart → Hart) : modHart (modHart s f) g = modHart s (fun h => g (f h)) := by
  unfold modHart; cases h : s.cur <;> simp [h, modThr, setThr, thr, modRet, ret]

/-- A word that retired with its hart changed: what changed, and that nothing else did. -/
theorem retired_modHart {s u : State} (h : SameAgents s u) (f : Hart → Hart) (e : Effect)
    (he : ∀ x, e.thread x = x)
    (hr : ∀ r, (f (hart s)).get r = match e.reg with | some (d, v) => if r = d ∧ d ≠ 0 then v else reg s r | none => reg s r)
    (hs : ∀ g : BitVec 3, (f (hart s)).segs[g.toNat] = match e.seg with
      | some (k, x) => if g = k then x else seg s g | none => seg s g)
    (hp : (f (hart s)).pc = e.pc) : Retired s u (retire (modHart u f)) e := by
  have hh : hart (retire (modHart u f)) = f (hart s) := by rw [hart_retire, hart_modHart, h.hart]
  refine ⟨?_, ?_, ?_, ?_, ?_, fun r => ?_, fun g => ?_, ?_⟩
  · cases hc : u.cur with
    | thread n => rw [retire_modHart_thread _ _ _ hc]; simp [setThr]; exact hc
    | ret n => rw [retire_modHart_ret _ _ _ hc]; simp [modRet]; exact hc
  · intro j hj
    cases hc : u.cur with
    | thread n =>
      have : me s = n := by rw [← h.me]; simp [me, hc]
      rw [retire_modHart_thread _ _ _ hc]; simp [setThr, h.threads, kfind_kset_ne _ _ (this ▸ hj)]
    | ret n => rw [retire_modHart_ret _ _ _ hc]; simp [modRet, h.threads]
  · intro j hj
    cases hc : u.cur with
    | thread n => rw [retire_modHart_thread _ _ _ hc]; simp [setThr, h.rets]
    | ret n =>
      have : j ≠ n := fun e => hj (by rw [← h.cur, hc, e])
      rw [retire_modHart_ret _ _ _ hc]; simp [modRet, h.rets, kfind_kset_ne _ _ this]
  · rw [hh]
    cases hc : s.cur with
    | thread n =>
      have hu : u.cur = .thread n := h.cur.trans hc
      have ht : thr u n = thr s n := by unfold thr; rw [h.threads]
      have hm : hart s = (thr s n).hart := by unfold hart; simp [hc]
      rw [retire_modHart_thread _ _ _ hu]
      simp [my, me, hu, setThr, thr, he, hc, hm]
      simp [h.threads]
    | ret n =>
      have hu : u.cur = .ret n := h.cur.trans hc
      rw [retire_modHart_ret _ _ _ hu]
      simp only [my, he, me, hc, modRet, hu]
      simp [thr, h.threads, ret, h.rets]
  · intro n hc
    have hu : u.cur = .ret n := h.cur.trans hc
    rw [hh, retire_modHart_ret _ _ _ hu]
    have : ret u n = ret s n := by unfold ret; rw [h.rets]
    simp [ret_modRet_self, this, hart, hc]
  · unfold reg; rw [hh]; exact hr r
  · unfold seg; rw [hh]; exact hs g
  · unfold pcOf; rw [hh]; exact hp

theorem advance_eq (s : State) : advance s = retire (modHart s (fun h => { h with pc := h.pc + 8 })) := by
  unfold advance setPc pcOf hart modHart
  cases h : s.cur <;> simp [modThr, modRet, thr, ret]

theorem advance_setReg_eq (s : State) (d : Reg) (v : Word) :
    advance (setReg s d v) = retire (modHart s (fun h => { h.set d v with pc := h.pc + 8 })) := by
  rw [advance_eq, setReg, modHart_modHart]; simp

/-- A word that writes a register and goes on. -/
theorem advance_setReg_retired {s u : State} (h : SameAgents s u) (d : Reg) (v : Word) :
    Retired s u (advance (setReg u d v)) (.write s d v) := by
  rw [advance_setReg_eq]
  exact retired_modHart h _ _ (fun _ => rfl) (fun r => Hart.get_set _ _ _ _) (fun _ => by simp [Effect.write, seg]) rfl

/-- A word that only goes on. -/
theorem advance_retired {s u : State} (h : SameAgents s u) : Retired s u (advance u) (.next s) := by
  rw [advance_eq]
  exact retired_modHart h _ _ (fun _ => rfl) (fun _ => rfl) (fun _ => rfl) rfl

/-- A word that changes its thread's record, and not the hart of it, and goes on. -/
theorem advance_modMy_retired {s u : State} (h : SameAgents s u) (f : Thread → Thread)
    (hf : ∀ x, (f x).hart = x.hart ∧ (f x).instret = x.instret) :
    Retired s u (advance (modMy u f)) (.own s f) := by
  cases hc : s.cur with
  | thread n =>
    have hu : u.cur = .thread n := h.cur.trans hc
    have ht : thr u n = thr s n := by unfold thr; rw [h.threads]
    have hm : hart s = (thr s n).hart := by unfold hart; simp [hc]
    have e : advance (modMy u f) = setThr u n { f (thr s n) with
        hart := { (thr s n).hart with pc := (thr s n).hart.pc + 8 }, instret := (thr s n).instret + 1, cond := .ready } := by
      rw [advance_eq, retire_modHart_thread _ n _ (by simp [hu])]
      simp [modMy, me, hu, modThr, thr_setThr, ht, hf]
      simp [setThr]
    rw [e]
    refine ⟨by simp [setThr], ?_, ?_, ?_, ?_, ?_, ?_, ?_⟩
    · intro j hj; simp [me, hc] at hj; simp [setThr, h.threads, kfind_kset_ne _ _ hj]
    · intro j _; simp [setThr, h.rets]
    · simp [my, me, hc, hu, thr_setThr, Effect.own, hart]
    · intro m hm; simp [hc] at hm
    · intro r; simp [reg, hart, hu, hc, thr_setThr, Effect.own, Hart.get]
    · intro g; simp [seg, hart, hu, hc, thr_setThr, Effect.own]
    · simp [pcOf, hart, hu, hc, thr_setThr, Effect.own]
  | ret n =>
    have hu : u.cur = .ret n := h.cur.trans hc
    have hr : ret u n = ret s n := by unfold ret; rw [h.rets]
    have hme : me u = me s := h.me
    have ht : thr u (me s) = my s := by unfold my thr; rw [h.threads]
    have e : advance (modMy u f) = { u with
        threads := kset u.threads (me s) (f (my s))
        rets := kset u.rets n { ret s n with hart := { (ret s n).hart with pc := (ret s n).hart.pc + 8 }, cond := .ready } } := by
      rw [advance_eq, retire_modHart_ret _ n _ (by simp [hu])]
      simp [modMy, modThr, setThr, modRet, hme, ht]
      unfold ret at hr; unfold ret; simp [hr]
    rw [e]
    refine ⟨by simp, ?_, ?_, ?_, ?_, ?_, ?_, ?_⟩
    · intro j hj; simp [h.threads, kfind_kset_ne _ _ hj]
    · intro j hj
      have : j ≠ n := fun e => hj (by rw [hc, e])
      simp [h.rets, kfind_kset_ne _ _ this]
    · simp [my, me, hc, hu, thr, ret, Effect.own]
    · intro m hm; simp [hc] at hm; subst hm; simp [ret, hart, hu]
    · intro r; simp [reg, hart, hu, hc, ret, Effect.own, Hart.get]
    · intro g; simp [seg, hart, hu, hc, ret, Effect.own]
    · simp [pcOf, hart, hu, hc, ret, Effect.own]

/-! ### Words withdrawn -/

/-- What withdrawing the waits of some threads makes of each thread: its condition, the wake that it was to take, and a long matrix
word that waits for a block. -/
theorem withdraw_thread (s : State) (f : Nat → Bool) (t : Nat) :
    kfind (withdraw s f).threads t =
      (kfind s.threads t).map (fun x => if f t then beforeLong { x with cond := withdrawn x.cond, noPage := none } else x) :=
  kfind_mapKey s.threads (β := Thread)
    (fun t x => if f t then beforeLong ({ x with cond := withdrawn x.cond, noPage := none } : Thread) else x) t

@[simp] theorem withdraw_mem (s : State) (f : Nat → Bool) : (withdraw s f).mem = s.mem := rfl
@[simp] theorem withdraw_stores (s : State) (f : Nat → Bool) : (withdraw s f).stores = s.stores := rfl
@[simp] theorem withdraw_ctxs (s : State) (f : Nat → Bool) : (withdraw s f).ctxs = s.ctxs := rfl
@[simp] theorem withdraw_dies (s : State) (f : Nat → Bool) : (withdraw s f).dies = s.dies := rfl

end Sys2Proof.Machine
end

