-- ==== Sys2Proof/Laws/View.lean ====
section
/-! SUPPORT. What agents read where a step leaves memory, queues and pending stores alone, and the words that write one
register, change their thread's record, wait, or take a trap at U. -/

namespace Sys2Proof.Machine

/-- Two states in which every agent reads the same: one memory, the same pending stores, and at each die write queues of the
same bytes and the same writes kept within the die. -/
structure SameBytes (s t : State) : Prop where
  mem : t.mem = s.mem
  stores : t.stores = s.stores
  hostq : ∀ d, (die t d).hostq.map (·.locs) = (die s d).hostq.map (·.locs)
  peerq : ∀ d, (die t d).peerq.map (·.locs) = (die s d).peerq.map (·.locs)
  uoq : ∀ d, (die t d).uoq.map (·.locs) = (die s d).uoq.map (·.locs)

theorem findSome_locs {q r : List QWrite} (h : r.map (·.locs) = q.map (·.locs)) (loc : Nat) :
    r.reverse.findSome? (fun w => lastWrite w.locs loc) = q.reverse.findSome? (fun w => lastWrite w.locs loc) := by
  have e (l : List QWrite) : l.reverse.findSome? (fun w => lastWrite w.locs loc) =
      (l.map (·.locs)).reverse.findSome? (fun w => lastWrite w loc) := by
    rw [← List.map_reverse, List.findSome?_map]; rfl
  rw [e, e, h]

theorem SameBytes.sharedLoc {s t : State} (h : SameBytes s t) (d loc : Nat) : sharedLoc t d loc = sharedLoc s d loc := by
  unfold Machine.sharedLoc dieQueue
  rw [h.mem]
  simp only
  split
  · split
    · rw [findSome_locs (h.hostq d) loc]
    · rw [findSome_locs (h.peerq d) loc]
  · rw [findSome_locs (h.uoq d) loc]

theorem SameBytes.bytesKept {s t : State} (h : SameBytes s t) : BytesKept s t := by
  intro a d loc
  unfold getLoc
  rw [h.stores, h.sharedLoc]

theorem SameBytes.refl (s : State) : SameBytes s s := ⟨rfl, rfl, fun _ => rfl, fun _ => rfl, fun _ => rfl⟩

theorem SameBytes.trans {s t u : State} (h : SameBytes s t) (k : SameBytes t u) : SameBytes s u :=
  ⟨k.mem.trans h.mem, k.stores.trans h.stores, fun d => (k.hostq d).trans (h.hostq d), fun d => (k.peerq d).trans (h.peerq d),
    fun d => (k.uoq d).trans (h.uoq d)⟩

theorem BytesKept.refl (s : State) : BytesKept s s := fun _ _ _ => rfl
theorem BytesKept.trans {s t u : State} (h : BytesKept s t) (k : BytesKept t u) : BytesKept s u :=
  fun a d loc => (k a d loc).trans (h a d loc)

/-- A state that differs in neither memory, pending stores nor dies. -/
theorem sameBytes_of {s t : State} (hm : t.mem = s.mem) (hs : t.stores = s.stores) (hd : t.dies = s.dies) : SameBytes s t := by
  refine ⟨hm, hs, fun d => ?_, fun d => ?_, fun d => ?_⟩ <;> simp [die, hd]

/-- A word that writes a register and goes on (R114, R125). -/
theorem advance_setReg_wrote (s : State) (d : Reg) (v : Word) : Wrote s (advance (setReg s d v)) d v :=
  ⟨advance_setReg_retired (.refl s) d v, (sameBytes_of (by simp) (by simp) (by simp)).bytesKept⟩

/-- A word that only goes on. -/
theorem advance_nothing (s : State) : Retired s s (advance s) (.next s) ∧ BytesKept s (advance s) :=
  ⟨advance_retired (.refl s), (sameBytes_of (by simp) (by simp) (by simp)).bytesKept⟩

/-- A word that changes its thread's record and goes on. -/
theorem advance_modMy_changed (s : State) (f : Thread → Thread)
    (hf : ∀ x, (f x).hart = x.hart ∧ (f x).instret = x.instret) : ChangedOwn s (advance (modMy s f)) f :=
  ⟨advance_modMy_retired (.refl s) f hf, (sameBytes_of (by simp) (by simp) (by simp)).bytesKept⟩

/-- A word that waits (R19). -/
theorem waitHere_waits (s : State) : Waits s (waitHere s) := by
  have h : hart (waitHere s) = hart s := by
    unfold waitHere setCond hart; cases h : s.cur <;> simp [h]
  refine ⟨rfl, (sameBytes_of (by simp) (by simp) (by simp)).bytesKept, ?_, fun r => ?_⟩
  · unfold pcOf; rw [h]
  · unfold reg; rw [h]

/-- A word that goes on at a target, writing its link register or none (R142, R357). -/
theorem jump_jumped (s : State) (target : Word) : Jumped s (jump s target) none target := by
  have hs : ∀ b : Bool, SameAgents s (if b then s else trace s 1 0 target) := by
    intro b; cases b <;> exact ⟨rfl, rfl, rfl⟩
  have hb : ∀ b : Bool, SameBytes s (if b then s else trace s 1 0 target) := by
    intro b; cases b
    · exact sameBytes_of (by simp) (by simp) (by simp)
    · exact .refl s
  unfold jump Jumped
  simp only [Bool.or_eq_true, decide_eq_true_eq] at *
  have key : ∀ u, SameAgents s u → Retired s u (retire (setPc u target)) { reg := none, seg := none, pc := target, thread := id } :=
    fun u hu => retired_modHart hu _ _ (fun _ => rfl) (fun _ => rfl) (fun _ => rfl) rfl
  refine ⟨?_, ?_⟩
  · split
    · exact key _ (.refl s)
    · exact key _ ⟨rfl, rfl, rfl⟩
  · split <;> exact (sameBytes_of (by simp) (by simp) (by simp)).bytesKept

/-- A trap at U of a thread whose context has a handler enters it (R128). -/
theorem takeTrap_entered {s : State} {tvec : Word} (h : HandledAtU s tvec) (code info : Nat) (tval : Word)
    (h5 : code ≠ 5) (h7 : code ≠ 7) : Entered s (takeTrap s code info tval) tvec code info tval := by
  obtain ⟨hr, hp, hs, ht, c, hc, rfl⟩ := h
  cases hcur : s.cur with
  | ret n => simp [onRet, hcur] at hr
  | thread n =>
    have hme : me s = n := by simp [me, hcur]
    have hmy : my s = thr s n := by simp [my, hme]
    have hctx : myCtx s = (thr s n).ctx := by simp [myCtx, hmy]
    rw [hctx] at hc
    rw [hmy] at hp hs
    have e : takeTrap s code info tval =
        setThr (trace s 2 code tval) n (enterTrap (thr s n) c.tvec code info tval) := by
      unfold takeTrap trapThread
      simp only [hcur]
      rw [if_neg]
      · rw [hc]
        unfold trace myCore pcOf hart
        simp [hcur, hme, hctx]
      · simp only [hc, h5, h7, ht, hp, hs]; simp
    rw [e]
    refine ⟨?_, ?_, ?_, ?_, ?_, ?_, (sameBytes_of (by simp) (by simp) (by simp)).bytesKept⟩
    · simp [setThr]
    · intro j hj; rw [hme] at hj; simp [setThr, kfind_kset_ne _ _ hj]
    · simp [my, me, hcur, setThr, thr, enterTrap, hart, causeWord, pcOf]
    · intro r; simp [reg, hart, hcur, setThr, thr, enterTrap, Hart.get]
    · intro g; simp [seg, hart, hcur, setThr, thr, enterTrap]
    · simp [pcOf, hart, hcur, setThr, thr, enterTrap]

end Sys2Proof.Machine
end

