-- ==== Sys2Proof/Laws/Caches.lean ====
section
/-! SUPPORT. Accesses of the caches change nothing that an agent reads (Machine/Cache.lean). -/

namespace Sys2Proof.Machine

/-- Two states differ at most in the lines that caches hold. -/
structure LinesOnly (s u : State) : Prop where
  rest : u = { s with local1 := u.local1, dies := u.dies, llc := u.llc }
  dies : ∀ d, die u d = { die s d with l2 := (die u d).l2 }

theorem LinesOnly.refl (s : State) : LinesOnly s s := ⟨rfl, fun _ => rfl⟩

theorem LinesOnly.trans {s t u : State} (h : LinesOnly s t) (k : LinesOnly t u) : LinesOnly s u :=
  ⟨by rw [k.rest, h.rest], fun d => by rw [k.dies d, h.dies d]⟩

theorem LinesOnly.mem {s u : State} (h : LinesOnly s u) : u.mem = s.mem := by rw [h.rest]
theorem LinesOnly.stores {s u : State} (h : LinesOnly s u) : u.stores = s.stores := by rw [h.rest]
theorem LinesOnly.regions {s u : State} (h : LinesOnly s u) : u.regions = s.regions := by rw [h.rest]
theorem LinesOnly.sameAgents {s u : State} (h : LinesOnly s u) : SameAgents s u :=
  ⟨by rw [h.rest], by rw [h.rest], by rw [h.rest]⟩
theorem LinesOnly.sameBytes {s u : State} (h : LinesOnly s u) : SameBytes s u :=
  ⟨h.mem, h.stores, fun d => by rw [h.dies d], fun d => by rw [h.dies d], fun d => by rw [h.dies d]⟩
theorem LinesOnly.cachesOnly {s u : State} (h : LinesOnly s u) : CachesOnly s u :=
  ⟨h.rest, fun d => by rw [h.dies d]; exact ⟨rfl, rfl, rfl, rfl, rfl⟩⟩

theorem LinesOnly.foldl {α : Type} (f : State → α → State) (h : ∀ s x, LinesOnly s (f s x)) :
    ∀ (l : List α) (s : State), LinesOnly s (l.foldl f s)
  | [], s => .refl s
  | x :: r, s => (h s x).trans (LinesOnly.foldl f h r (f s x))

theorem dropLocal_lines (s : State) (f : Nat → Bool) (n : Nat) : LinesOnly s (dropLocal s f n) := ⟨rfl, fun _ => rfl⟩

theorem local1_lines (s : State) (x : KMap (List Way)) : LinesOnly s { s with local1 := x } := ⟨rfl, fun _ => rfl⟩

theorem modDie_lines (s : State) (d : Nat) (f : Die → Die) (hf : ∀ x, f x = { x with l2 := (f x).l2 }) :
    LinesOnly s (modDie s d f) :=
  ⟨rfl, fun j => by rw [die_modDie]; split
                    · subst j; exact hf _
                    · rfl⟩

/-- The dies changed, each by a function that keeps the reset die. -/
theorem die_mapDies (s : State) (f : Nat → Die → Die) (d : Nat) (h : f d Die.reset = Die.reset) :
    die { s with dies := s.dies.map (fun p => (p.1, f p.1 p.2)) } d = f d (die s d) := by
  unfold die kget
  simp only
  induction s.dies with
  | nil => simp [h]
  | cons p r ih =>
    obtain ⟨i, v⟩ := p
    by_cases hi : i = d
    · subst hi; simp [kfind]
    · simp [kfind, hi, ih]

theorem dropL2_lines (s : State) (f : Nat → Bool) (n : Nat) : LinesOnly s (dropL2 s f n) := by
  refine ⟨rfl, fun d => ?_⟩
  unfold dropL2
  rw [die_mapDies s (fun i x => if f i then { x with l2 := x.l2.map (fun q => (q.1, q.2.filter (fun x => x.line ≠ n))) } else x)
    d (by split <;> rfl)]
  split <;> rfl

theorem cleanL2_lines (s : State) (f : Nat → Bool) (n : Nat) : LinesOnly s (cleanL2 s f n) := by
  refine ⟨rfl, fun d => ?_⟩
  unfold cleanL2
  rw [die_mapDies s (fun i x => if f i then { x with l2 := x.l2.map (fun q =>
    (q.1, q.2.map (fun x => if x.line = n then { x with dirty := false } else x))) } else x) d (by split <;> rfl)]
  split <;> rfl

theorem llcTouch_lines (s : State) (pa : Nat) (h : Hint) : LinesOnly s (llcTouch s pa h) := ⟨rfl, fun _ => rfl⟩

theorem dropAll_lines (s : State) (pa : Nat) : LinesOnly s (dropAll s pa) :=
  ((dropL2_lines _ _ _).trans (dropLocal_lines _ _ _)).trans (llcTouch_lines _ _ _)

theorem recallLine_lines (s : State) (pa : Nat) : LinesOnly s (recallLine s pa) :=
  (cleanL2_lines _ _ _).trans (llcTouch_lines _ _ _)

theorem l2Access_lines (s : State) (d : Nat) (tag : Option RetReg) (pa : Nat) (h : Hint) (b : Bool) :
    LinesOnly s (l2Access s d tag pa h b) := by
  have key := (cleanL2_lines s (· != d) (pa / 128)).trans (llcTouch_lines _ pa h)
  unfold l2Access
  simp only
  split
  · exact modDie_lines _ _ _ (fun _ => rfl)
  · split
    · exact key
    · split
      · exact (key.trans (modDie_lines _ _ _ (fun _ => rfl))).trans (dropLocal_lines _ _ _)
      · exact key.trans (modDie_lines _ _ _ (fun _ => rfl))

theorem localPut_lines (s : State) (k pa lo hi : Nat) (h : Hint) : LinesOnly s (localPut s k pa lo hi h).1 := by
  unfold localPut; simp only; split
  · exact .refl s
  · exact local1_lines _ _

theorem ownHit_lines (s : State) (k pa : Nat) (h : Hint) (x : Way) : LinesOnly s (ownHit s k pa h x) := local1_lines _ _

theorem dropVictim_lines (s : State) (j pa : Nat) : LinesOnly s (dropVictim s j pa) := local1_lines _ _

theorem cachedLoad_lines (s : State) (k : Nat) (tag : Option RetReg) (pa : Nat) (h : Hint) :
    LinesOnly s (cachedLoad s k tag pa h) := by
  have fill : ∀ u, LinesOnly s u → LinesOnly s
      (let (s, out) := localPut u k pa 0 (8 - lentWays u k) h
       match out with
       | none => s
       | some o =>
         if lentWays s k = 0 then s else
         match victimCore s (poolOfCore k) (o.line * 128) with
         | some j => (localPut s j (o.line * 128) (8 - lentWays s j) 8 .none).1
         | none => s) := by
    intro u h1
    have h2 := h1.trans (localPut_lines u k pa 0 (8 - lentWays u k) h)
    revert h2
    generalize localPut u k pa 0 (8 - lentWays u k) h = q
    obtain ⟨v, out⟩ := q
    intro h2
    simp only at h2 ⊢
    split
    · exact h2
    · split
      · exact h2
      · split
        · exact h2.trans (localPut_lines ..)
        · exact h2
  unfold cachedLoad
  split
  · exact l2Access_lines ..
  · split
    · exact ownHit_lines ..
    · refine fill _ ?_
      split
      · exact dropVictim_lines ..
      · exact l2Access_lines ..

theorem cachedStore_lines (s : State) (k : Nat) (tag : Option RetReg) (pa : Nat) (h : Hint) :
    LinesOnly s (cachedStore s k tag pa h) := by
  have key := ((dropL2_lines s (· != dieOfCore k) (pa / 128)).trans
    (dropLocal_lines _ (fun j => poolOfCore j != poolOfCore k) (pa / 128))).trans (l2Access_lines _ (dieOfCore k) tag pa h true)
  unfold cachedStore
  simp only
  split
  · exact key.trans (ownHit_lines ..)
  · exact key

/-- An engine's reads change only the lines that caches hold. -/
theorem touchEngine_lines (s : State) (d : Nat) (refs : List ByteRef) : LinesOnly s (touchEngine s d refs) :=
  (LinesOnly.foldl _ (fun _ _ => l2Access_lines ..) _ _).trans (LinesOnly.foldl _ (fun _ _ => recallLine_lines ..) _ _)

/-- A load's touch of the caches changes only the lines they hold. -/
theorem touchLoad_lines (s : State) (a : Agent) (refs : List ByteRef) (h : Hint) : LinesOnly s (touchLoad s a refs h) :=
  (LinesOnly.foldl _ (fun _ _ => cachedLoad_lines ..) _ _).trans (LinesOnly.foldl _ (fun _ _ => recallLine_lines ..) _ _)

/-- Marking readers of queued writes leaves the writes as they are. -/
theorem unread_mark (a : Agent) (p : QWrite → Bool) (q : List QWrite) :
    unread (q.map (fun w => if p w then { w with agents := w.agents ++ [a] } else w)) = unread q := by
  unfold unread
  rw [List.map_map]
  congr 1; funext w
  simp only [Function.comp]
  split <;> rfl

theorem CachesOnly.refl (s : State) : CachesOnly s s := ⟨rfl, fun _ => ⟨rfl, rfl, rfl, rfl, rfl⟩⟩

/-- A die whose queues differ only in who has read them. -/
theorem readers_caches (s : State) (k : Nat) (f : Die → Die) (h : ∀ x, (f x).retain = x.retain ∧ (f x).sa = x.sa ∧
    unread (f x).uoq = unread x.uoq ∧ unread (f x).hostq = unread x.hostq ∧ unread (f x).peerq = unread x.peerq) :
    CachesOnly s (modDie s k f) :=
  ⟨rfl, fun d => by rw [die_modDie]; split
                    · subst d; exact h _
                    · exact ⟨rfl, rfl, rfl, rfl, rfl⟩⟩

/-- Noting what an agent has read changes only the readers of queued writes. -/
theorem noteReads_caches (s : State) (a : Agent) (locs : List Nat) : CachesOnly s (noteReads s a locs) := by
  unfold noteReads
  simp only
  split
  · exact readers_caches s _ _ (fun x => ⟨rfl, rfl, unread_mark .., unread_mark .., unread_mark ..⟩)
  · exact .refl s

/-- Joining what a release covers changes only the readers of queued writes. -/
theorem joinOps_caches (s : State) (a : Agent) (ops : List Nat) : CachesOnly s (joinOps s a ops) := by
  unfold joinOps
  simp only
  split
  · exact .refl s
  · exact readers_caches s _ _ (fun x => ⟨rfl, rfl, rfl, unread_mark .., unread_mark ..⟩)

theorem unread_locs {q r : List QWrite} (h : unread q = unread r) : q.map (·.locs) = r.map (·.locs) := by
  have e (l : List QWrite) : l.map (·.locs) = (unread l).map (·.locs) := by unfold unread; rw [List.map_map]; rfl
  rw [e q, e r, h]

theorem CachesOnly.trans {s t u : State} (h : CachesOnly s t) (k : CachesOnly t u) : CachesOnly s u :=
  ⟨by rw [k.rest, h.rest], fun d => ⟨(k.dies d).1.trans (h.dies d).1, (k.dies d).2.1.trans (h.dies d).2.1,
    (k.dies d).2.2.1.trans (h.dies d).2.2.1, (k.dies d).2.2.2.1.trans (h.dies d).2.2.2.1,
    (k.dies d).2.2.2.2.trans (h.dies d).2.2.2.2⟩⟩

theorem CachesOnly.sameAgents {s u : State} (h : CachesOnly s u) : SameAgents s u :=
  ⟨by rw [h.rest], by rw [h.rest], by rw [h.rest]⟩

theorem CachesOnly.sameBytes {s u : State} (h : CachesOnly s u) : SameBytes s u :=
  ⟨by rw [h.rest], by rw [h.rest], fun d => unread_locs (h.dies d).2.2.2.1, fun d => unread_locs (h.dies d).2.2.2.2,
    fun d => unread_locs (h.dies d).2.2.1⟩

end Sys2Proof.Machine
end

