-- ==== Sys2Proof/Laws/Elements.lean ====
section
/-! SUPPORT. What writing elements of a vector register, bits of a mask and fields of a slot's word does, and the vector words
that write elements. -/

namespace Sys2Proof.Machine

/-! ### Formats -/

theorem cbits_cases (fmt : Nat) : cbits fmt = 4 ∨ cbits fmt = 8 ∨ cbits fmt = 16 ∨ cbits fmt = 32 := by
  unfold cbits; split
  · simp
  · split
    · simp
    · split <;> simp

theorem perSlot_mul_cbits (fmt : Nat) : perSlot fmt * cbits fmt = 32 := by
  unfold perSlot; rcases cbits_cases fmt with h | h | h | h <;> rw [h]

theorem perSlot_pos (fmt : Nat) : 0 < perSlot fmt := by
  unfold perSlot; rcases cbits_cases fmt with h | h | h | h <;> rw [h] <;> decide

/-! ### Fields of a slot's word -/

/-- The field that was replaced reads as what was put there. -/
theorem putField_self (w : BitVec 32) {c k : Nat} (v : Nat) (h : k * c + c ≤ 32) :
    (putField w c k v).toNat / 2 ^ (k * c) % 2 ^ c = v % 2 ^ c := by
  apply Nat.eq_of_testBit_eq
  intro i
  by_cases hi : i < c
  · have h32 : k * c + i < 32 := by omega
    simp only [Nat.testBit_mod_two_pow, hi, decide_true, Bool.true_and, Nat.testBit_div_two_pow]
    rw [Nat.add_comm i, ← BitVec.getLsbD]
    unfold putField
    simp only [BitVec.getLsbD_or, BitVec.getLsbD_and, BitVec.getLsbD_not, BitVec.getLsbD_ofNat, h32,
      Nat.mul_comm _ (2 ^ (k * c)), Nat.testBit_two_pow_mul, Nat.testBit_two_pow_sub_one, Nat.testBit_mod_two_pow,
      Nat.le_add_right, Nat.add_sub_cancel_left, hi, decide_true, Bool.true_and, Bool.not_true, Bool.and_false, Bool.false_or]
  · simp [Nat.testBit_mod_two_pow, hi]

/-- Every other field reads as before. -/
theorem putField_ne (w : BitVec 32) {c k j : Nat} (v : Nat) (h : j ≠ k) (hj : j * c + c ≤ 32) :
    (putField w c k v).toNat / 2 ^ (j * c) % 2 ^ c = w.toNat / 2 ^ (j * c) % 2 ^ c := by
  apply Nat.eq_of_testBit_eq
  intro i
  by_cases hi : i < c
  · have h32 : j * c + i < 32 := by omega
    simp only [Nat.testBit_mod_two_pow, hi, decide_true, Bool.true_and, Nat.testBit_div_two_pow]
    rw [Nat.add_comm i, ← BitVec.getLsbD, ← BitVec.getLsbD]
    have key : ∀ x, x < 2 ^ c → Nat.testBit (2 ^ (k * c) * x) (j * c + i) = false := by
      intro x hx
      rw [Nat.testBit_two_pow_mul]
      rcases Nat.lt_or_gt_of_ne h with hlt | hgt
      · have : j * c + c ≤ k * c := by
          have := Nat.mul_le_mul_right c hlt; rw [Nat.succ_mul] at this; exact this
        simp; omega
      · have : k * c + c ≤ j * c := by
          have := Nat.mul_le_mul_right c hgt; rw [Nat.succ_mul] at this; exact this
        have h2 : x.testBit (j * c + i - k * c) = false :=
          Nat.testBit_lt_two_pow (lt_of_lt_of_le hx (Nat.pow_le_pow_right (by decide) (by omega)))
        simp [h2]
    have hp : 0 < 2 ^ c := Nat.two_pow_pos c
    unfold putField
    simp only [BitVec.getLsbD_or, BitVec.getLsbD_and, BitVec.getLsbD_not, BitVec.getLsbD_ofNat, h32,
      Nat.mul_comm _ (2 ^ (k * c)), key (2 ^ c - 1) (by omega), key (v % 2 ^ c) (Nat.mod_lt _ hp), decide_true,
      Bool.and_false, Bool.not_false, Bool.and_true, Bool.or_false]
  · simp [Nat.testBit_mod_two_pow, hi]

/-! ### Elements -/

theorem elem_lt (x : Thread) (r : VReg) (fmt e : Nat) : elem x r fmt e < 2 ^ cbits fmt := by
  unfold elem; simp only; split
  · exact Nat.mod_lt _ (Nat.two_pow_pos _)
  · exact Nat.two_pow_pos _

theorem elem_mod (x : Thread) (r : VReg) (fmt e : Nat) : elem x r fmt e % 2 ^ cbits fmt = elem x r fmt e :=
  Nat.mod_eq_of_lt (elem_lt x r fmt e)

theorem slot_fits (fmt e : Nat) : e % perSlot fmt * cbits fmt + cbits fmt ≤ 32 := by
  have h := Nat.mod_lt e (perSlot_pos fmt)
  have := Nat.mul_le_mul_right (cbits fmt) (Nat.succ_le_of_lt h)
  rw [perSlot_mul_cbits, Nat.succ_mul] at this; exact this

theorem putElem_slots_get (fmt : Nat) (r : VReg) (x : Thread) (p : Nat × Nat) (j : Nat) :
    (putElem fmt r x p).slots[j]? = (x.slots[j]?).map (fun sl => if p.1 / perSlot fmt = j then
      { sl with v := sl.v.set r.toNat (putField sl.v[r.toNat] (cbits fmt) (p.1 % perSlot fmt) p.2) } else sl) := by
  unfold putElem modSlot; simp only [List.getElem?_modify]
  split <;> simp_all

/-- One element written: it reads as the value, and every other element of the register as before (R170). -/
theorem elem_putElem (fmt : Nat) (r : VReg) (x : Thread) (p : Nat × Nat) (e : Nat) (h : e / perSlot fmt < x.slots.length) :
    elem (putElem fmt r x p) r fmt e = if p.1 = e then p.2 % 2 ^ cbits fmt else elem x r fmt e := by
  obtain ⟨sl, hsl⟩ : ∃ sl, x.slots[e / perSlot fmt]? = some sl := ⟨_, List.getElem?_eq_getElem h⟩
  unfold elem
  simp only [putElem_slots_get, hsl, Option.map_some]
  by_cases hj : p.1 / perSlot fmt = e / perSlot fmt
  · rw [if_pos hj]
    by_cases he : p.1 = e
    · subst he
      rw [if_pos rfl]
      simpa using putField_self sl.v[r.toNat] p.2 (slot_fits fmt p.1)
    · rw [if_neg he]
      have : e % perSlot fmt ≠ p.1 % perSlot fmt := by
        intro hm; apply he
        rw [← Nat.div_add_mod p.1 (perSlot fmt), ← Nat.div_add_mod e (perSlot fmt), hj, hm]
      simpa using putField_ne sl.v[r.toNat] p.2 this (slot_fits fmt e)
  · rw [if_neg hj, if_neg (fun he => hj (by rw [he]))]

theorem vreg_putElem (fmt : Nat) (r q : VReg) (x : Thread) (p : Nat × Nat) (h : q ≠ r) :
    vreg (putElem fmt r x p) q = vreg x q := by
  have hne : r.toNat ≠ q.toNat := fun e => h (BitVec.eq_of_toNat_eq e.symm)
  unfold vreg
  apply List.ext_getElem?
  intro j
  simp only [List.getElem?_map, putElem_slots_get, Option.map_map]
  congr 1; funext sl
  simp only [Function.comp]
  split
  · exact Vector.getElem_set_ne r.isLt q.isLt hne
  · rfl

theorem putElem_keeps (fmt : Nat) (r : VReg) (x : Thread) (p : Nat × Nat) :
    (putElem fmt r x p).slots.length = x.slots.length ∧ (putElem fmt r x p).slots.map (·.m) = x.slots.map (·.m) ∧
      (putElem fmt r x p).slots.map (·.rst) = x.slots.map (·.rst) := by
  refine ⟨by simp [putElem, modSlot], ?_, ?_⟩ <;>
  · apply List.ext_getElem?
    intro j
    simp only [List.getElem?_map, putElem_slots_get, Option.map_map]
    congr 1; funext sl
    simp only [Function.comp]
    split <;> rfl

theorem lastElem_nil (e : Nat) : lastElem [] e = none := rfl

theorem lastElem_append (l : List (Nat × Nat)) (p : Nat × Nat) (e : Nat) :
    lastElem (l ++ [p]) e = if p.1 = e then some p.2 else lastElem l e := by
  unfold lastElem; rw [List.reverse_append]; simp [List.find?_cons]
  by_cases h : p.1 = e <;> simp [h]

theorem putElems_append (fmt : Nat) (r : VReg) (x : Thread) (l : List (Nat × Nat)) (p : Nat × Nat) :
    putElems fmt r x (l ++ [p]) = putElem fmt r (putElems fmt r x l) p := by simp [putElems]

/-- Elements of a vector register written: the last value given to each stays, and nothing else of the slots changes. -/
theorem putElems_set (fmt : Nat) (r : VReg) (x : Thread) (l : List (Nat × Nat)) : ElemsSet x (putElems fmt r x l) r fmt l := by
  induction l using List.reverseRecOn with
  | nil => exact ⟨rfl, fun _ _ => rfl, fun _ _ => rfl, rfl, rfl⟩
  | append_singleton l p ih =>
    have k := putElem_keeps fmt r (putElems fmt r x l) p
    rw [putElems_append]
    refine ⟨k.1.trans ih.slots, fun e he => ?_, fun q hq => ?_, k.2.1.trans ih.masks, k.2.2.trans ih.draws⟩
    · rw [elem_putElem _ _ _ _ _ (by rw [ih.slots]; exact he), lastElem_append, ih.elems e he]
      by_cases h : p.1 = e <;> simp [h]
    · rw [vreg_putElem _ _ _ _ _ hq, ih.others q hq]

/-- Writing elements changes only the slots. -/
theorem putElems_eq (fmt : Nat) (r : VReg) (x : Thread) (l : List (Nat × Nat)) :
    putElems fmt r x l = { x with slots := (putElems fmt r x l).slots } := by
  induction l using List.reverseRecOn with
  | nil => rfl
  | append_singleton l p ih =>
    rw [putElems_append]
    conv_lhs => rw [ih]
    rfl

/-! ### Masks -/

theorem putBit_slots_get (fmt m : Nat) (x : Thread) (p : Nat × Bool) (j : Nat) :
    (putBit fmt m x p).slots[j]? = (x.slots[j]?).map (fun sl => if p.1 / perSlot fmt = j then
      { sl with m := sl.m.set! m (if p.2 then sl.m.toList.getD m 0 ||| BitVec.ofNat 8 (2 ^ (p.1 % perSlot fmt))
        else sl.m.toList.getD m 0 &&& ~~~BitVec.ofNat 8 (2 ^ (p.1 % perSlot fmt))) } else sl) := by
  unfold putBit modSlot; simp only [List.getElem?_modify]
  split <;> simp_all

theorem toList_getD_set (v : Vector Byte 8) (m k : Nat) (b : Byte) (hm : m < 8) :
    ((v.set! m b).toList.getD k 0) = if k = m then b else v.toList.getD k 0 := by
  simp only [List.getD_eq_getElem?_getD, Vector.set!_eq_setIfInBounds, Vector.toList_setIfInBounds, List.getElem?_set]
  by_cases h : k = m
  · subst h; simp [hm]
  · simp [h, Ne.symm h]

theorem perSlot_le (fmt : Nat) : perSlot fmt ≤ 8 := by
  unfold perSlot; rcases cbits_cases fmt with h | h | h | h <;> rw [h] <;> decide

theorem getLsbD_bit (k : Nat) {i : Nat} (hi : i < 8) : (BitVec.ofNat 8 (2 ^ k)).getLsbD i = decide (k = i) := by
  simp only [BitVec.getLsbD_ofNat, Nat.testBit_two_pow, hi, decide_true, Bool.true_and]

/-- A mask bit written: it reads as given, and every other bit of the mask as before. -/
theorem mbit_putBit (fmt m : Nat) (x : Thread) (p : Nat × Bool) (e : Nat) (hm : m < 8) (h : e / perSlot fmt < x.slots.length) :
    mbit (putBit fmt m x p) m fmt e = if p.1 = e then p.2 else mbit x m fmt e := by
  obtain ⟨sl, hsl⟩ : ∃ sl, x.slots[e / perSlot fmt]? = some sl := ⟨_, List.getElem?_eq_getElem h⟩
  have h8 : e % perSlot fmt < 8 := lt_of_lt_of_le (Nat.mod_lt _ (perSlot_pos fmt)) (perSlot_le fmt)
  unfold mbit
  simp only [putBit_slots_get, hsl, Option.map_some]
  by_cases hj : p.1 / perSlot fmt = e / perSlot fmt
  · rw [if_pos hj]
    simp only [toList_getD_set _ _ _ _ hm, if_true]
    by_cases he : p.1 = e
    · subst he
      cases p.2 <;> simp only [BitVec.getLsbD_or, BitVec.getLsbD_and, BitVec.getLsbD_not, getLsbD_bit _ h8, h8, if_true,
        decide_true, Bool.not_true, Bool.and_false, Bool.or_true, reduceIte, Bool.false_eq_true]
    · rw [if_neg he]
      have : p.1 % perSlot fmt ≠ e % perSlot fmt := by
        intro hm'; apply he
        rw [← Nat.div_add_mod p.1 (perSlot fmt), ← Nat.div_add_mod e (perSlot fmt), hj, hm']
      cases p.2 <;> simp only [BitVec.getLsbD_or, BitVec.getLsbD_and, BitVec.getLsbD_not, getLsbD_bit _ h8, h8, this,
        decide_true, decide_false, Bool.not_false, Bool.and_true, Bool.or_false, reduceIte, Bool.false_eq_true]
  · rw [if_neg hj, if_neg (fun he => hj (by rw [he]))]

theorem putBit_keeps (fmt m : Nat) (x : Thread) (p : Nat × Bool) (hm : m < 8) :
    (putBit fmt m x p).slots.length = x.slots.length ∧ (putBit fmt m x p).slots.map (·.v) = x.slots.map (·.v) ∧
      (putBit fmt m x p).slots.map (·.rst) = x.slots.map (·.rst) ∧
      ∀ k, k ≠ m → (putBit fmt m x p).slots.map (fun sl => sl.m.toList.getD k 0) = x.slots.map (fun sl => sl.m.toList.getD k 0) := by
  refine ⟨by simp [putBit, modSlot], ?_, ?_, fun k hk => ?_⟩ <;>
  · apply List.ext_getElem?
    intro j
    simp only [List.getElem?_map, putBit_slots_get, Option.map_map]
    congr 1; funext sl
    simp only [Function.comp]
    split
    · first | rfl | (rw [toList_getD_set _ _ _ _ hm, if_neg ‹_›])
    · rfl

/-- The results of a compare written to a mask (R210). -/
theorem putCompare_set (fmt m : Nat) (l : List (Nat × Bool)) (x : Thread) (hm : m < 8) (r : VReg) (hr : r.toNat = m) :
    MaskSet x (putCompare fmt m l x) r fmt l := by
  subst hr
  have step : ∀ l : List (Nat × Bool), let y := l.foldl (putBit fmt r.toNat) x
      y.vl = x.vl ∧ y.slots.length = x.slots.length ∧ y.slots.map (·.v) = x.slots.map (·.v) ∧
        y.slots.map (·.rst) = x.slots.map (·.rst) ∧
        (∀ k, k ≠ r.toNat → y.slots.map (fun sl => sl.m.toList.getD k 0) = x.slots.map (fun sl => sl.m.toList.getD k 0)) ∧
        ∀ e, e / perSlot fmt < x.slots.length → mbit y r.toNat fmt e =
          ((l.reverse.find? (fun p => p.1 = e)).map (·.2)).getD (mbit x r.toNat fmt e) := by
    intro l
    induction l using List.reverseRecOn with
    | nil => exact ⟨rfl, rfl, rfl, rfl, fun _ _ => rfl, fun _ _ => rfl⟩
    | append_singleton l p ih =>
      simp only at ih
      obtain ⟨h0, h1, h2, h3, h4, h5⟩ := ih
      simp only [List.foldl_append, List.foldl_cons, List.foldl_nil]
      have k := putBit_keeps fmt r.toNat (l.foldl (putBit fmt r.toNat) x) p hm
      refine ⟨h0, k.1.trans h1, k.2.1.trans h2, k.2.2.1.trans h3, fun j hj => (k.2.2.2 j hj).trans (h4 j hj), fun e he => ?_⟩
      rw [mbit_putBit _ _ _ _ _ hm (by rw [h1]; exact he), h5 e he]
      simp only [List.reverse_append, List.reverse_cons, List.reverse_nil, List.nil_append, List.cons_append, List.find?_cons]
      by_cases h : p.1 = e <;> simp [h]
  obtain ⟨h0, h1, h2, h3, h4, h5⟩ := step l
  generalize hy : l.foldl (putBit fmt r.toNat) x = y at *
  have get (j : Nat) : (putCompare fmt r.toNat l x).slots[j]? = (y.slots[j]?).map (fun sl =>
      if j < y.vl then { sl with m := sl.m.set! r.toNat (sl.m.toList.getD r.toNat 0 &&& BitVec.ofNat 8 (2 ^ perSlot fmt - 1)) }
      else sl) := by
    unfold putCompare; simp only [hy, List.getElem?_mapIdx]
  have maps {β : Type} (g : Slice → β) (hg : ∀ sl b, g { sl with m := sl.m.set! r.toNat b } = g sl) :
      (putCompare fmt r.toNat l x).slots.map g = y.slots.map g := by
    apply List.ext_getElem?
    intro j
    simp only [List.getElem?_map, get, Option.map_map]
    congr 1; funext sl
    simp only [Function.comp]
    split
    · exact hg _ _
    · rfl
  refine ⟨?_, (maps (·.v) (fun _ _ => rfl)).trans h2, (maps (·.rst) (fun _ _ => rfl)).trans h3, fun k hk =>
    (maps (fun sl => sl.m.toList.getD k 0) (fun sl b => ?_)).trans (h4 k hk), fun e he => ?_, fun j sl b hj hsl hb => ?_⟩
  · rw [← h1]; unfold putCompare; simp only [hy, List.length_mapIdx]
  · simp only [toList_getD_set _ _ _ _ hm, if_neg hk]
  · rw [← h5 e he]
    have h8 : e % perSlot fmt < 8 := lt_of_lt_of_le (Nat.mod_lt _ (perSlot_pos fmt)) (perSlot_le fmt)
    unfold mbit; simp only [get]
    cases hs : y.slots[e / perSlot fmt]? with
    | none => rfl
    | some sl =>
      simp only [Option.map_some]
      split
      · simp only [toList_getD_set _ _ _ _ hm, if_true, BitVec.getLsbD_and, BitVec.getLsbD_ofNat, h8,
          Nat.testBit_two_pow_sub_one, Nat.mod_lt e (perSlot_pos fmt), decide_true, Bool.and_true]
      · rfl
  · rw [get] at hsl
    cases hs : y.slots[j]? with
    | none => simp [hs] at hsl
    | some sl' =>
      rw [hs, Option.map_some, if_pos (by rw [h0]; exact hj)] at hsl
      simp only [Option.some.injEq] at hsl
      subst hsl
      simp only [toList_getD_set _ _ _ _ hm, if_true, BitVec.getLsbD_and, BitVec.getLsbD_ofNat,
        Nat.testBit_two_pow_sub_one, not_lt.mpr hb, decide_false, Bool.and_false]

/-! ### Words that write elements -/

/-- A vector word that writes elements of vD and changes its thread's record by `f` beside. -/
theorem advance_putElems_wrote (s : State) (fmt : Nat) (r : VReg) (l : List (Nat × Nat)) (f : Thread → Thread)
    (hf : ∀ x, (f x).hart = x.hart ∧ (f x).instret = x.instret) (ht : onRet s = false) :
    VecWrote s s (advance (modMy s (fun x => putElems fmt r (f x) l))) r fmt l f := by
  have hg : ∀ x, (putElems fmt r (f x) l).hart = x.hart ∧ (putElems fmt r (f x) l).instret = x.instret := by
    intro x; rw [putElems_eq]; exact hf x
  obtain ⟨h, hb⟩ := advance_modMy_changed s (fun x => putElems fmt r (f x) l) hg
  cases hc : s.cur with
  | ret n => simp [onRet, hc] at ht
  | thread n =>
    have hm := h.mine
    simp only [hc, Effect.own] at hm
    have hs : (my (advance (modMy s (fun x => putElems fmt r (f x) l)))).slots = (putElems fmt r (f (my s)) l).slots := by
      rw [hm]
    refine ⟨⟨h.rest, h.threads, h.rets, ?_, h.ret, h.regs, h.segs, h.pc⟩, ?_, hb⟩
    · simp only [hc, Effect.own]
      rw [hs]
      conv_lhs => rw [hm]
      conv_lhs => rw [putElems_eq]
    · have k := putElems_set fmt r (f (my s)) l
      rw [hm]
      exact ⟨k.slots, k.elems, k.others, k.masks, k.draws⟩

end Sys2Proof.Machine
end

