-- ==== Sys2Proof/Laws/Encoding.lean ====
section
/-! SUPPORT. Reading the fields of an encoded word gives back what was encoded: one lemma per field of each word form. -/

namespace Sys2Proof

/-! ### Fields of two parts put together -/

/-- A field above the lower part is a field of the upper one. -/
theorem extract_high {n m : Nat} (x : BitVec n) (y : BitVec m) (i k : Nat) (h : m ≤ i) :
    (x ++ y).extractLsb' i k = x.extractLsb' (i - m) k := by
  apply BitVec.eq_of_getLsbD_eq
  intro j hj
  simp [BitVec.getLsbD_extractLsb', BitVec.getLsbD_append, show ¬ i + j < m by omega, show i + j - m = i - m + j by omega]

/-- A field within the lower part is a field of it. -/
theorem extract_low {n m : Nat} (x : BitVec n) (y : BitVec m) (i k : Nat) (h : i + k ≤ m) :
    (x ++ y).extractLsb' i k = y.extractLsb' i k := by
  apply BitVec.eq_of_getLsbD_eq
  intro j hj
  simp [BitVec.getLsbD_extractLsb', BitVec.getLsbD_append, show i + j < m by omega]

/-- The field of a whole word is the word. -/
theorem extract_whole {n : Nat} (x : BitVec n) : x.extractLsb' 0 n = x := by simp

/-- A bit is a field of one bit. -/
theorem bit_of_field {n : Nat} (x : BitVec n) (i : Nat) (b : Bool) (h : x.extractLsb' i 1 = BitVec.ofBool b) :
    x.getLsbD i = b := by
  have := congrArg (BitVec.getLsbD · 0) h
  simpa using this

/-! ### Class S -/

@[simp] theorem wS_class (op : BitVec 10) (d a b : BitVec 6) (low : BitVec 34) : (wS op d a b low).extractLsb' 62 2 = 0#2 :=
  (extract_high _ _ 62 2 (by decide)).trans
    ((extract_high _ _ 28 2 (by decide)).trans
    ((extract_high _ _ 22 2 (by decide)).trans
    ((extract_high _ _ 16 2 (by decide)).trans
    ((extract_high _ _ 10 2 (by decide)).trans ((extract_whole _))))))
@[simp] theorem wS_op (op : BitVec 10) (d a b : BitVec 6) (low : BitVec 34) : (wS op d a b low).extractLsb' 52 10 = op :=
  (extract_high _ _ 52 10 (by decide)).trans
    ((extract_high _ _ 18 10 (by decide)).trans
    ((extract_high _ _ 12 10 (by decide)).trans
    ((extract_high _ _ 6 10 (by decide)).trans ((extract_low _ _ 0 10 (by decide)).trans ((extract_whole _))))))
@[simp] theorem wS_d (op : BitVec 10) (d a b : BitVec 6) (low : BitVec 34) : (wS op d a b low).extractLsb' 46 6 = d :=
  (extract_high _ _ 46 6 (by decide)).trans
    ((extract_high _ _ 12 6 (by decide)).trans
    ((extract_high _ _ 6 6 (by decide)).trans ((extract_low _ _ 0 6 (by decide)).trans ((extract_whole _)))))
@[simp] theorem wS_a (op : BitVec 10) (d a b : BitVec 6) (low : BitVec 34) : (wS op d a b low).extractLsb' 40 6 = a :=
  (extract_high _ _ 40 6 (by decide)).trans
    ((extract_high _ _ 6 6 (by decide)).trans ((extract_low _ _ 0 6 (by decide)).trans ((extract_whole _))))
@[simp] theorem wS_b (op : BitVec 10) (d a b : BitVec 6) (low : BitVec 34) : (wS op d a b low).extractLsb' 34 6 = b :=
  (extract_high _ _ 34 6 (by decide)).trans ((extract_low _ _ 0 6 (by decide)).trans ((extract_whole _)))

/-- A field of the low bits of a class S word. -/
theorem wS_low (op : BitVec 10) (d a b : BitVec 6) (low : BitVec 34) (i k : Nat) (h : i + k ≤ 34) :
    (wS op d a b low).extractLsb' i k = low.extractLsb' i k := extract_low _ _ i k h

@[simp] theorem lowC_c (c : BitVec 6) : (lowC c).extractLsb' 28 6 = c :=
  (extract_high _ _ 28 6 (by decide)).trans ((extract_whole _))
@[simp] theorem lowF_c (c : BitVec 6) (ft : BitVec 2) (rnd : BitVec 3) : (lowF c ft rnd).extractLsb' 28 6 = c :=
  (extract_high _ _ 28 6 (by decide)).trans
    ((extract_high _ _ 5 6 (by decide)).trans ((extract_high _ _ 2 6 (by decide)).trans ((extract_whole _))))
@[simp] theorem lowF_ft (c : BitVec 6) (ft : BitVec 2) (rnd : BitVec 3) : (lowF c ft rnd).extractLsb' 26 2 = ft :=
  (extract_high _ _ 26 2 (by decide)).trans
    ((extract_high _ _ 3 2 (by decide)).trans ((extract_low _ _ 0 2 (by decide)).trans ((extract_whole _))))
@[simp] theorem lowF_rnd (c : BitVec 6) (ft : BitVec 2) (rnd : BitVec 3) : (lowF c ft rnd).extractLsb' 23 3 = rnd :=
  (extract_high _ _ 23 3 (by decide)).trans ((extract_low _ _ 0 3 (by decide)).trans ((extract_whole _)))
@[simp] theorem lowI_v (v : BitVec 12) : (lowI v).extractLsb' 22 12 = v :=
  (extract_high _ _ 22 12 (by decide)).trans ((extract_whole _))
@[simp] theorem lowU_v (v : BitVec 20) : (lowU v).extractLsb' 14 20 = v :=
  (extract_high _ _ 14 20 (by decide)).trans ((extract_whole _))
@[simp] theorem lowA_seg (seg scope : BitVec 3) (order : BitVec 2) (size : BitVec 1) : (lowA seg scope order size).extractLsb' 31 3 = seg :=
  (extract_high _ _ 31 3 (by decide)).trans
    ((extract_high _ _ 6 3 (by decide)).trans
    ((extract_high _ _ 5 3 (by decide)).trans ((extract_high _ _ 3 3 (by decide)).trans ((extract_whole _)))))
@[simp] theorem lowA_scope (seg scope : BitVec 3) (order : BitVec 2) (size : BitVec 1) : (lowA seg scope order size).extractLsb' 28 3 = scope :=
  (extract_high _ _ 28 3 (by decide)).trans
    ((extract_high _ _ 3 3 (by decide)).trans
    ((extract_high _ _ 2 3 (by decide)).trans ((extract_low _ _ 0 3 (by decide)).trans ((extract_whole _)))))
@[simp] theorem lowA_order (seg scope : BitVec 3) (order : BitVec 2) (size : BitVec 1) : (lowA seg scope order size).extractLsb' 26 2 = order :=
  (extract_high _ _ 26 2 (by decide)).trans
    ((extract_high _ _ 1 2 (by decide)).trans ((extract_low _ _ 0 2 (by decide)).trans ((extract_whole _))))
@[simp] theorem lowA_size (seg scope : BitVec 3) (order : BitVec 2) (size : BitVec 1) : (lowA seg scope order size).extractLsb' 25 1 = size :=
  (extract_high _ _ 25 1 (by decide)).trans ((extract_low _ _ 0 1 (by decide)).trans ((extract_whole _)))
@[simp] theorem lowK_dseg (dseg aseg : BitVec 3) (h : Handle) : (lowK dseg aseg h).extractLsb' 31 3 = dseg :=
  (extract_high _ _ 31 3 (by decide)).trans
    ((extract_high _ _ 10 3 (by decide)).trans
    ((extract_high _ _ 9 3 (by decide)).trans ((extract_high _ _ 3 3 (by decide)).trans ((extract_whole _)))))
@[simp] theorem lowK_aseg (dseg aseg : BitVec 3) (h : Handle) : (lowK dseg aseg h).extractLsb' 28 3 = aseg :=
  (extract_high _ _ 28 3 (by decide)).trans
    ((extract_high _ _ 7 3 (by decide)).trans
    ((extract_high _ _ 6 3 (by decide)).trans ((extract_low _ _ 0 3 (by decide)).trans ((extract_whole _)))))
@[simp] theorem lowK_n (dseg aseg : BitVec 3) (h : Handle) : (lowK dseg aseg h).extractLsb' 22 6 = h.n :=
  (extract_high _ _ 22 6 (by decide)).trans
    ((extract_high _ _ 1 6 (by decide)).trans ((extract_low _ _ 0 6 (by decide)).trans ((extract_whole _))))
@[simp] theorem lowK_barrier (dseg aseg : BitVec 3) (h : Handle) : (lowK dseg aseg h).extractLsb' 21 1 = BitVec.ofBool h.barrier :=
  (extract_high _ _ 21 1 (by decide)).trans ((extract_low _ _ 0 1 (by decide)).trans ((extract_whole _)))
@[simp] theorem memLow_seg (m : MemRef) : (m.low).extractLsb' 31 3 = m.seg :=
  (extract_high _ _ 31 3 (by decide)).trans
    ((extract_high _ _ 19 3 (by decide)).trans
    ((extract_high _ _ 7 3 (by decide)).trans
    ((extract_high _ _ 5 3 (by decide)).trans ((extract_high _ _ 3 3 (by decide)).trans ((extract_whole _))))))
@[simp] theorem memLow_scope (m : MemRef) : (m.low).extractLsb' 28 3 = m.scope.code :=
  (extract_high _ _ 28 3 (by decide)).trans
    ((extract_high _ _ 16 3 (by decide)).trans
    ((extract_high _ _ 4 3 (by decide)).trans
    ((extract_high _ _ 2 3 (by decide)).trans ((extract_low _ _ 0 3 (by decide)).trans ((extract_whole _))))))
@[simp] theorem memLow_order (m : MemRef) : (m.low).extractLsb' 26 2 = m.order.code :=
  (extract_high _ _ 26 2 (by decide)).trans
    ((extract_high _ _ 14 2 (by decide)).trans
    ((extract_high _ _ 2 2 (by decide)).trans ((extract_low _ _ 0 2 (by decide)).trans ((extract_whole _)))))
@[simp] theorem memLow_hint (m : MemRef) : (m.low).extractLsb' 24 2 = m.hint.code :=
  (extract_high _ _ 24 2 (by decide)).trans
    ((extract_high _ _ 12 2 (by decide)).trans ((extract_low _ _ 0 2 (by decide)).trans ((extract_whole _))))
@[simp] theorem memLow_disp (m : MemRef) : (m.low).extractLsb' 12 12 = m.disp :=
  (extract_high _ _ 12 12 (by decide)).trans ((extract_low _ _ 0 12 (by decide)).trans ((extract_whole _)))

@[simp] theorem Scope.ofCode_code (x : Scope) : Scope.ofCode x.code = some x := by cases x <;> rfl
@[simp] theorem Order.ofCode_code (x : Order) : Order.ofCode x.code = x := by cases x <;> rfl
@[simp] theorem Hint.ofCode_code (x : Hint) : Hint.ofCode x.code = some x := by cases x <;> rfl
@[simp] theorem SFmt.ofCode_code (x : SFmt) : SFmt.ofCode x.code = some x := by cases x <;> rfl
/-- A format's code in a field of six bits. -/
@[simp] theorem SFmt.ofCode_wide (x : SFmt) : SFmt.ofCode ((x.code.zeroExtend 6).truncate 2) = some x := by cases x <;> rfl
/-- A segment number in a field of six bits. -/
@[simp] theorem truncate_zeroExtend3 (g : BitVec 3) : (g.zeroExtend 6).truncate 3 = g := by
  simp
/-- A shift amount in a field of twelve bits. -/
@[simp] theorem truncate_zeroExtend6 (n : BitVec 6) : (n.zeroExtend 12).truncate 6 = n := by
  simp

@[simp] theorem imm12_wS (op : BitVec 10) (d a b : BitVec 6) (v : BitVec 12) : imm12 (wS op d a b (lowI v)) = v :=
  (wS_low _ _ _ _ _ 22 12 (by decide)).trans (lowI_v v)
@[simp] theorem imm20_wS (op : BitVec 10) (d a b : BitVec 6) (v : BitVec 20) : imm20 (wS op d a b (lowU v)) = v :=
  (wS_low _ _ _ _ _ 14 20 (by decide)).trans (lowU_v v)
@[simp] theorem c_wS (op : BitVec 10) (d a b c : BitVec 6) : (wS op d a b (lowC c)).extractLsb' 28 6 = c :=
  (wS_low _ _ _ _ _ 28 6 (by decide)).trans (lowC_c c)
@[simp] theorem c_wS_lowF (op : BitVec 10) (d a b c : BitVec 6) (t : BitVec 2) (r : BitVec 3) :
    (wS op d a b (lowF c t r)).extractLsb' 28 6 = c := (wS_low _ _ _ _ _ 28 6 (by decide)).trans (lowF_c c t r)
@[simp] theorem ftOf_wS (op : BitVec 10) (d a b c : BitVec 6) (t : BitVec 2) (r : BitVec 3) :
    ftOf (wS op d a b (lowF c t r)) = t := (wS_low _ _ _ _ _ 26 2 (by decide)).trans (lowF_ft c t r)
@[simp] theorem rndS_wS (op : BitVec 10) (d a b c : BitVec 6) (t : BitVec 2) (r : BitVec 3) :
    rndS (wS op d a b (lowF c t r)) = r := (wS_low _ _ _ _ _ 23 3 (by decide)).trans (lowF_rnd c t r)
@[simp] theorem scopeOf_wS (op : BitVec 10) (d a b : BitVec 6) (g sc : BitVec 3) (o : BitVec 2) (z : BitVec 1) :
    scopeOf (wS op d a b (lowA g sc o z)) = sc := (wS_low _ _ _ _ _ 28 3 (by decide)).trans (lowA_scope g sc o z)

@[simp] theorem memRef_wS (op : BitVec 10) (d b : BitVec 6) (m : MemRef) : memRef (wS op d m.a b m.low) = some m := by
  unfold memRef scopeOf
  rw [wS_low _ _ _ _ _ 28 3 (by decide), wS_low _ _ _ _ _ 24 2 (by decide), wS_low _ _ _ _ _ 31 3 (by decide),
    wS_low _ _ _ _ _ 12 12 (by decide), wS_low _ _ _ _ _ 26 2 (by decide)]
  simp

@[simp] theorem amoRef_wS (op : BitVec 10) (d b : BitVec 6) (m : AmoRef) : amoRef (wS op d m.a b m.low) = some m := by
  unfold amoRef scopeOf AmoRef.low
  rw [wS_low _ _ _ _ _ 28 3 (by decide), wS_low _ _ _ _ _ 31 3 (by decide), wS_low _ _ _ _ _ 26 2 (by decide),
    bit_of_field _ 25 m.wide ((wS_low _ _ _ _ _ 25 1 (by decide)).trans (lowA_size _ _ _ _))]
  simp

@[simp] theorem copyRef_wS (op : BitVec 10) (o : CopyRef) (h : Handle) :
    copyRef (wS op o.d o.a o.b (lowK o.dseg o.aseg h)) = o := by
  unfold copyRef
  rw [wS_low _ _ _ _ _ 31 3 (by decide), wS_low _ _ _ _ _ 28 3 (by decide)]
  simp

@[simp] theorem handleOf_wS (op : BitVec 10) (d a b : BitVec 6) (x y : BitVec 3) (h : Handle) :
    handleOf (wS op d a b (lowK x y h)) = h := by
  unfold handleOf
  rw [wS_low _ _ _ _ _ 22 6 (by decide),
    bit_of_field _ 21 h.barrier ((wS_low _ _ _ _ _ 21 1 (by decide)).trans (lowK_barrier _ _ _))]
  simp

/-- A class S word is read by its opcode. -/
theorem readWord_wS (op : BitVec 10) (d a b : BitVec 6) (low : BitVec 34) :
    readWord (wS op d a b low) = readS (wS op d a b low) := by
  simp [readWord]

/-! ### Class V -/

@[simp] theorem wV_class (op : BitVec 10) (f : VFields) : (wV op f).extractLsb' 62 2 = 2#2 :=
  (extract_high _ _ 62 2 (by decide)).trans
    ((extract_high _ _ 51 2 (by decide)).trans
    ((extract_high _ _ 45 2 (by decide)).trans
    ((extract_high _ _ 42 2 (by decide)).trans
    ((extract_high _ _ 37 2 (by decide)).trans
    ((extract_high _ _ 36 2 (by decide)).trans
    ((extract_high _ _ 33 2 (by decide)).trans
    ((extract_high _ _ 32 2 (by decide)).trans
    ((extract_high _ _ 31 2 (by decide)).trans
    ((extract_high _ _ 30 2 (by decide)).trans
    ((extract_high _ _ 25 2 (by decide)).trans
    ((extract_high _ _ 20 2 (by decide)).trans
    ((extract_high _ _ 15 2 (by decide)).trans
    ((extract_high _ _ 10 2 (by decide)).trans ((extract_whole _)))))))))))))))
@[simp] theorem wV_op (op : BitVec 10) (f : VFields) : (wV op f).extractLsb' 52 10 = op :=
  (extract_high _ _ 52 10 (by decide)).trans
    ((extract_high _ _ 41 10 (by decide)).trans
    ((extract_high _ _ 35 10 (by decide)).trans
    ((extract_high _ _ 32 10 (by decide)).trans
    ((extract_high _ _ 27 10 (by decide)).trans
    ((extract_high _ _ 26 10 (by decide)).trans
    ((extract_high _ _ 23 10 (by decide)).trans
    ((extract_high _ _ 22 10 (by decide)).trans
    ((extract_high _ _ 21 10 (by decide)).trans
    ((extract_high _ _ 20 10 (by decide)).trans
    ((extract_high _ _ 15 10 (by decide)).trans
    ((extract_high _ _ 10 10 (by decide)).trans
    ((extract_high _ _ 5 10 (by decide)).trans ((extract_low _ _ 0 10 (by decide)).trans ((extract_whole _)))))))))))))))
@[simp] theorem wV_vd (op : BitVec 10) (f : VFields) : (wV op f).extractLsb' 47 5 = f.vd :=
  (extract_high _ _ 47 5 (by decide)).trans
    ((extract_high _ _ 36 5 (by decide)).trans
    ((extract_high _ _ 30 5 (by decide)).trans
    ((extract_high _ _ 27 5 (by decide)).trans
    ((extract_high _ _ 22 5 (by decide)).trans
    ((extract_high _ _ 21 5 (by decide)).trans
    ((extract_high _ _ 18 5 (by decide)).trans
    ((extract_high _ _ 17 5 (by decide)).trans
    ((extract_high _ _ 16 5 (by decide)).trans
    ((extract_high _ _ 15 5 (by decide)).trans
    ((extract_high _ _ 10 5 (by decide)).trans
    ((extract_high _ _ 5 5 (by decide)).trans ((extract_low _ _ 0 5 (by decide)).trans ((extract_whole _))))))))))))))
@[simp] theorem wV_va (op : BitVec 10) (f : VFields) : (wV op f).extractLsb' 42 5 = f.va :=
  (extract_high _ _ 42 5 (by decide)).trans
    ((extract_high _ _ 31 5 (by decide)).trans
    ((extract_high _ _ 25 5 (by decide)).trans
    ((extract_high _ _ 22 5 (by decide)).trans
    ((extract_high _ _ 17 5 (by decide)).trans
    ((extract_high _ _ 16 5 (by decide)).trans
    ((extract_high _ _ 13 5 (by decide)).trans
    ((extract_high _ _ 12 5 (by decide)).trans
    ((extract_high _ _ 11 5 (by decide)).trans
    ((extract_high _ _ 10 5 (by decide)).trans
    ((extract_high _ _ 5 5 (by decide)).trans ((extract_low _ _ 0 5 (by decide)).trans ((extract_whole _)))))))))))))
@[simp] theorem wV_vb (op : BitVec 10) (f : VFields) : (wV op f).extractLsb' 37 5 = f.vb :=
  (extract_high _ _ 37 5 (by decide)).trans
    ((extract_high _ _ 26 5 (by decide)).trans
    ((extract_high _ _ 20 5 (by decide)).trans
    ((extract_high _ _ 17 5 (by decide)).trans
    ((extract_high _ _ 12 5 (by decide)).trans
    ((extract_high _ _ 11 5 (by decide)).trans
    ((extract_high _ _ 8 5 (by decide)).trans
    ((extract_high _ _ 7 5 (by decide)).trans
    ((extract_high _ _ 6 5 (by decide)).trans
    ((extract_high _ _ 5 5 (by decide)).trans ((extract_low _ _ 0 5 (by decide)).trans ((extract_whole _))))))))))))
@[simp] theorem wV_vc (op : BitVec 10) (f : VFields) : (wV op f).extractLsb' 32 5 = f.vc :=
  (extract_high _ _ 32 5 (by decide)).trans
    ((extract_high _ _ 21 5 (by decide)).trans
    ((extract_high _ _ 15 5 (by decide)).trans
    ((extract_high _ _ 12 5 (by decide)).trans
    ((extract_high _ _ 7 5 (by decide)).trans
    ((extract_high _ _ 6 5 (by decide)).trans
    ((extract_high _ _ 3 5 (by decide)).trans
    ((extract_high _ _ 2 5 (by decide)).trans
    ((extract_high _ _ 1 5 (by decide)).trans ((extract_low _ _ 0 5 (by decide)).trans ((extract_whole _)))))))))))
@[simp] theorem wV_ca (op : BitVec 10) (f : VFields) : (wV op f).extractLsb' 31 1 = BitVec.ofBool f.ca :=
  (extract_high _ _ 31 1 (by decide)).trans
    ((extract_high _ _ 20 1 (by decide)).trans
    ((extract_high _ _ 14 1 (by decide)).trans
    ((extract_high _ _ 11 1 (by decide)).trans
    ((extract_high _ _ 6 1 (by decide)).trans
    ((extract_high _ _ 5 1 (by decide)).trans
    ((extract_high _ _ 2 1 (by decide)).trans
    ((extract_high _ _ 1 1 (by decide)).trans ((extract_low _ _ 0 1 (by decide)).trans ((extract_whole _))))))))))
@[simp] theorem wV_cb (op : BitVec 10) (f : VFields) : (wV op f).extractLsb' 30 1 = BitVec.ofBool f.cb :=
  (extract_high _ _ 30 1 (by decide)).trans
    ((extract_high _ _ 19 1 (by decide)).trans
    ((extract_high _ _ 13 1 (by decide)).trans
    ((extract_high _ _ 10 1 (by decide)).trans
    ((extract_high _ _ 5 1 (by decide)).trans
    ((extract_high _ _ 4 1 (by decide)).trans
    ((extract_high _ _ 1 1 (by decide)).trans ((extract_low _ _ 0 1 (by decide)).trans ((extract_whole _)))))))))
@[simp] theorem wV_cc (op : BitVec 10) (f : VFields) : (wV op f).extractLsb' 29 1 = BitVec.ofBool f.cc :=
  (extract_high _ _ 29 1 (by decide)).trans
    ((extract_high _ _ 18 1 (by decide)).trans
    ((extract_high _ _ 12 1 (by decide)).trans
    ((extract_high _ _ 9 1 (by decide)).trans
    ((extract_high _ _ 4 1 (by decide)).trans
    ((extract_high _ _ 3 1 (by decide)).trans ((extract_low _ _ 0 1 (by decide)).trans ((extract_whole _))))))))
@[simp] theorem wV_guard (op : BitVec 10) (f : VFields) : (wV op f).extractLsb' 26 3 = f.guard :=
  (extract_high _ _ 26 3 (by decide)).trans
    ((extract_high _ _ 15 3 (by decide)).trans
    ((extract_high _ _ 9 3 (by decide)).trans
    ((extract_high _ _ 6 3 (by decide)).trans
    ((extract_high _ _ 1 3 (by decide)).trans ((extract_low _ _ 0 3 (by decide)).trans ((extract_whole _)))))))
@[simp] theorem wV_pol (op : BitVec 10) (f : VFields) : (wV op f).extractLsb' 25 1 = BitVec.ofBool f.pol :=
  (extract_high _ _ 25 1 (by decide)).trans
    ((extract_high _ _ 14 1 (by decide)).trans
    ((extract_high _ _ 8 1 (by decide)).trans
    ((extract_high _ _ 5 1 (by decide)).trans ((extract_low _ _ 0 1 (by decide)).trans ((extract_whole _))))))
@[simp] theorem wV_fmt (op : BitVec 10) (f : VFields) : (wV op f).extractLsb' 20 5 = f.fmt :=
  (extract_high _ _ 20 5 (by decide)).trans
    ((extract_high _ _ 9 5 (by decide)).trans
    ((extract_high _ _ 3 5 (by decide)).trans ((extract_low _ _ 0 5 (by decide)).trans ((extract_whole _)))))
@[simp] theorem wV_rnd (op : BitVec 10) (f : VFields) : (wV op f).extractLsb' 17 3 = f.rnd :=
  (extract_high _ _ 17 3 (by decide)).trans
    ((extract_high _ _ 6 3 (by decide)).trans ((extract_low _ _ 0 3 (by decide)).trans ((extract_whole _))))
@[simp] theorem wV_s (op : BitVec 10) (f : VFields) : (wV op f).extractLsb' 11 6 = f.s :=
  (extract_high _ _ 11 6 (by decide)).trans ((extract_low _ _ 0 6 (by decide)).trans ((extract_whole _)))
@[simp] theorem wV_ext (op : BitVec 10) (f : VFields) : (wV op f).extractLsb' 0 11 = f.ext :=
  (extract_low _ _ 0 11 (by decide)).trans ((extract_whole _))

/-- The fields of an encoded class V word are those encoded. -/
@[simp] theorem vFields_wV (op : BitVec 10) (f : VFields) : vFields (wV op f) = f := by
  unfold vFields
  rw [bit_of_field _ 31 f.ca (wV_ca op f), bit_of_field _ 30 f.cb (wV_cb op f), bit_of_field _ 29 f.cc (wV_cc op f),
    bit_of_field _ 25 f.pol (wV_pol op f)]
  simp

/-- A class V word is read by its opcode and fields. -/
theorem readWord_wV (op : BitVec 10) (f : VFields) : readWord (wV op f) = ofVOp op.toNat f := by
  simp [readWord]

/-! ### Class L -/

@[simp] theorem wL_class (op d a : BitVec 6) (ext : BitVec 12) (imm : BitVec 32) : (wL op d a ext imm).extractLsb' 62 2 = 3#2 :=
  (extract_high _ _ 62 2 (by decide)).trans
    ((extract_high _ _ 30 2 (by decide)).trans
    ((extract_high _ _ 18 2 (by decide)).trans
    ((extract_high _ _ 12 2 (by decide)).trans ((extract_high _ _ 6 2 (by decide)).trans ((extract_whole _))))))
@[simp] theorem wL_op (op d a : BitVec 6) (ext : BitVec 12) (imm : BitVec 32) : (wL op d a ext imm).extractLsb' 56 6 = op :=
  (extract_high _ _ 56 6 (by decide)).trans
    ((extract_high _ _ 24 6 (by decide)).trans
    ((extract_high _ _ 12 6 (by decide)).trans
    ((extract_high _ _ 6 6 (by decide)).trans ((extract_low _ _ 0 6 (by decide)).trans ((extract_whole _))))))
@[simp] theorem wL_d (op d a : BitVec 6) (ext : BitVec 12) (imm : BitVec 32) : (wL op d a ext imm).extractLsb' 50 6 = d :=
  (extract_high _ _ 50 6 (by decide)).trans
    ((extract_high _ _ 18 6 (by decide)).trans
    ((extract_high _ _ 6 6 (by decide)).trans ((extract_low _ _ 0 6 (by decide)).trans ((extract_whole _)))))
@[simp] theorem wL_a (op d a : BitVec 6) (ext : BitVec 12) (imm : BitVec 32) : (wL op d a ext imm).extractLsb' 44 6 = a :=
  (extract_high _ _ 44 6 (by decide)).trans
    ((extract_high _ _ 12 6 (by decide)).trans ((extract_low _ _ 0 6 (by decide)).trans ((extract_whole _))))
@[simp] theorem wL_ext (op d a : BitVec 6) (ext : BitVec 12) (imm : BitVec 32) : (wL op d a ext imm).extractLsb' 32 12 = ext :=
  (extract_high _ _ 32 12 (by decide)).trans ((extract_low _ _ 0 12 (by decide)).trans ((extract_whole _)))
@[simp] theorem wL_imm (op d a : BitVec 6) (ext : BitVec 12) (imm : BitVec 32) : (wL op d a ext imm).extractLsb' 0 32 = imm :=
  (extract_low _ _ 0 32 (by decide)).trans ((extract_whole _))

/-- A class L word is read by its opcode. -/
theorem readWord_wL (op d a : BitVec 6) (ext : BitVec 12) (imm : BitVec 32) :
    readWord (wL op d a ext imm) = readL (wL op d a ext imm) := by
  simp [readWord]

/-- Bit 32 of a class L word is the lowest of its ext field. -/
theorem wL_bit32 (op d a : BitVec 6) (ext : BitVec 12) (imm : BitVec 32) :
    (wL op d a ext imm)[32] = ext[0] := by
  have h : ((wL op d a ext imm).extractLsb' 32 12).getLsbD 0 = ext.getLsbD 0 := by rw [wL_ext]
  rw [BitVec.getLsbD_extractLsb'] at h
  exact h

/-- The stream mask of SMLOOP. -/
theorem wL_mask (op d a : BitVec 6) (m : BitVec 8) (imm : BitVec 32) :
    (wL op d a (m ++ 0#4) imm).extractLsb' 36 8 = m := by
  have h1 : (wL op d a (m ++ 0#4) imm).extractLsb' 36 8 = (m ++ 0#4).extractLsb' 4 8 := by
    apply BitVec.eq_of_getLsbD_eq
    intro j hj
    have h := congrArg (BitVec.getLsbD · (4 + j)) (wL_ext op d a (m ++ 0#4) imm)
    simp only [BitVec.getLsbD_extractLsb'] at h
    rw [BitVec.getLsbD_extractLsb', BitVec.getLsbD_extractLsb', ← h]
    simp only [hj, decide_true, Bool.true_and, show 4 + j < 12 by omega]
    congr 1
    omega
  rw [h1, extract_high m 0#4 4 8 (by decide)]
  exact extract_whole m

/-! ### Class D -/

@[simp] theorem wH_hop (hop d a : BitVec 6) (low : BitVec 13) : (wH hop d a low).extractLsb' 25 6 = hop :=
  (extract_high _ _ 25 6 (by decide)).trans
    ((extract_high _ _ 12 6 (by decide)).trans ((extract_high _ _ 6 6 (by decide)).trans ((extract_whole _))))
@[simp] theorem wH_d (hop d a : BitVec 6) (low : BitVec 13) : (wH hop d a low).extractLsb' 19 6 = d :=
  (extract_high _ _ 19 6 (by decide)).trans
    ((extract_high _ _ 6 6 (by decide)).trans ((extract_low _ _ 0 6 (by decide)).trans ((extract_whole _))))
@[simp] theorem wH_a (hop d a : BitVec 6) (low : BitVec 13) : (wH hop d a low).extractLsb' 13 6 = a :=
  (extract_high _ _ 13 6 (by decide)).trans ((extract_low _ _ 0 6 (by decide)).trans ((extract_whole _)))
@[simp] theorem wH_low (hop d a : BitVec 6) (low : BitVec 13) : (wH hop d a low).extractLsb' 0 13 = low :=
  (extract_low _ _ 0 13 (by decide)).trans ((extract_whole _))

/-- A field of the low bits of a half. -/
theorem wH_within (hop d a : BitVec 6) (low : BitVec 13) (i k : Nat) (h : i + k ≤ 13) :
    (wH hop d a low).extractLsb' i k = low.extractLsb' i k := extract_low _ _ i k h

/-- Reading the bits of a half gives the half back. -/
@[simp] theorem Half.read_bits (h : Half) : Half.read h.bits = some h := by
  cases h with
  | nop => rfl
  | reg fn d a b =>
    simp only [Half.read, Half.bits, wH_hop, wH_d, wH_a]
    rw [wH_within _ _ _ _ 0 7 (by decide), wH_within _ _ _ _ 7 6 (by decide), extract_low b fn 0 7 (by decide),
      extract_high b fn 7 6 (by decide)]
    simp
  | imm k d v => cases k <;> simp [Half.read, Half.bits, HImm.hop]
  | load k d a g disp =>
    have h1 : (g ++ disp).extractLsb' 10 3 = g := (extract_high g disp 10 3 (by decide)).trans (extract_whole g)
    have h2 : (g ++ disp).extractLsb' 0 10 = disp := (extract_low g disp 0 10 (by decide)).trans (extract_whole disp)
    cases k <;> simp [Half.read, Half.bits, HLoad.hop, wH_within _ _ _ _ 10 3 (by decide), wH_within _ _ _ _ 0 10 (by decide), h1, h2]
  | store wide d a g disp =>
    have h1 : (g ++ disp).extractLsb' 10 3 = g := (extract_high g disp 10 3 (by decide)).trans (extract_whole g)
    have h2 : (g ++ disp).extractLsb' 0 10 = disp := (extract_low g disp 0 10 (by decide)).trans (extract_whole disp)
    cases wide <;> simp [Half.read, Half.bits, wH_within _ _ _ _ 10 3 (by decide), wH_within _ _ _ _ 0 10 (by decide), h1, h2]
  | branch k d a off => cases k <;> simp [Half.read, Half.bits, HBranch.hop]

/-- A class D word is read half by half. -/
theorem readWord_dual (hi lo : Half) : readWord (1#2 ++ hi.bits ++ lo.bits) = some (.dualWord hi lo) := by
  have h0 : (1#2 ++ hi.bits ++ lo.bits : Word).extractLsb' 62 2 = 1#2 :=
    (extract_high _ _ 62 2 (by decide)).trans ((extract_high _ _ 31 2 (by decide)).trans (extract_whole _))
  have h1 : (1#2 ++ hi.bits ++ lo.bits : Word).extractLsb' 31 31 = hi.bits :=
    (extract_high _ _ 31 31 (by decide)).trans ((extract_low _ _ 0 31 (by decide)).trans (extract_whole _))
  have h2 : (1#2 ++ hi.bits ++ lo.bits : Word).extractLsb' 0 31 = lo.bits :=
    (extract_low _ _ 0 31 (by decide)).trans (extract_whole _)
  simp [readWord, h0, h1, h2]

end Sys2Proof
end

