-- ==== Sys2Proof/Laws/Stores.lean ====
section
/-! SUPPORT. What performing and accepting stores does to what agents read (R80 to R87, R121, R272, R274): the storing agent
reads its bytes at once, and another agent's view changes at most where the stores performed lie. -/

namespace Sys2Proof.Machine

/-! ### The last byte written -/

theorem lastWrite_nil (loc : Nat) : lastWrite [] loc = none := rfl

theorem lastWrite_append (l r : List (Nat × Byte)) (loc : Nat) :
    lastWrite (l ++ r) loc = (lastWrite r loc).or (lastWrite l loc) := by
  unfold lastWrite
  rw [List.reverse_append, List.find?_append]
  cases List.find? (fun p => decide (p.1 = loc)) r.reverse <;> simp

theorem lastWrite_filter (l : List (Nat × Byte)) (P : Nat → Bool) (loc : Nat) :
    lastWrite (l.filter (fun p => P p.1)) loc = if P loc then lastWrite l loc else none := by
  induction l using List.reverseRecOn with
  | nil => simp [lastWrite]
  | append_singleton l p ih =>
    have one : ∀ p : Nat × Byte, lastWrite [p] loc = if p.1 = loc then some p.2 else none := by
      intro p; by_cases h : p.1 = loc <;> simp [lastWrite, h]
    rw [List.filter_append, lastWrite_append, ih, lastWrite_append]
    by_cases hp : P p.1
    · simp only [List.filter_cons, hp, if_true, List.filter_nil, one]
      by_cases h : p.1 = loc
      · subst h; simp [hp]
      · simp [h]
    · simp only [List.filter_cons, hp, List.filter_nil, one]
      by_cases h : p.1 = loc
      · subst h; simp [hp, lastWrite]
      · simp [h, lastWrite]

theorem lastWrite_none {l : List (Nat × Byte)} {loc : Nat} (h : loc ∉ l.map (·.1)) : lastWrite l loc = none := by
  unfold lastWrite
  rw [Option.map_eq_none_iff, List.find?_eq_none]
  intro p hp hpl
  exact h (List.mem_map.mpr ⟨p, List.mem_reverse.mp hp, by simpa using hpl⟩)

/-- Bytes written in order: each location reads as the last byte given it. -/
theorem Memory.get_setAll (m : Memory) (l : List (Nat × Byte)) (a : Nat) :
    (m.setAll l).get a = (lastWrite l a).getD (m.get a) := by
  induction l using List.reverseRecOn with
  | nil => rfl
  | append_singleton l p ih =>
    have : m.setAll (l ++ [p]) = (m.setAll l).set p.1 p.2 := by simp [Memory.setAll]
    rw [this, Memory.get_set, ih, lastWrite_append]
    by_cases h : a = p.1
    · subst h; simp [lastWrite]
    · simp [h, lastWrite, Ne.symm h]

/-! ### Steps at homes -/

theorem HomesOnly.refl (s : State) : HomesOnly s s := rfl

theorem HomesOnly.trans {s t u : State} (h : HomesOnly s t) (k : HomesOnly t u) : HomesOnly s u := by
  unfold HomesOnly at *; rw [k, h]

theorem HomesOnly.sameAgents {s u : State} (h : HomesOnly s u) : SameAgents s u := by
  unfold HomesOnly at h; exact ⟨by rw [h], by rw [h], by rw [h]⟩

theorem LinesOnly.homesOnly {s u : State} (h : LinesOnly s u) : HomesOnly s u := by
  unfold HomesOnly
  have := h.rest
  rw [this]

theorem uoqRead_of {s u : State} {d : Nat} (h : (die u d).uoq = (die s d).uoq) (loc : Nat) : uoqRead u d loc = uoqRead s d loc := by
  unfold uoqRead; rw [h]

/-- A step at homes that leaves pending stores and write queues alone, and gives memory the bytes listed: what a die's agents saw
of earlier writes that stay within it ends there at most. -/
structure Written (s u : State) (l : List (Nat × Byte)) : Prop where
  homes : HomesOnly s u
  mem : u.mem = s.mem.setAll l
  stores : u.stores = s.stores
  hostq : ∀ d, (die u d).hostq = (die s d).hostq
  peerq : ∀ d, (die u d).peerq = (die s d).peerq
  uoq : ∀ d loc, uoqRead u d loc = uoqRead s d loc ∨ (uoqRead u d loc = none ∧ loc ∈ l.map (·.1))

/-- A step at homes that changes no die's queues. -/
theorem Written.of {s u : State} (h : HomesOnly s u) (hm : u.mem = s.mem) (hs : u.stores = s.stores) (hd : u.dies = s.dies) :
    Written s u [] :=
  ⟨h, hm, hs, fun d => by simp [die, hd], fun d => by simp [die, hd], fun d loc => .inl (uoqRead_of (by simp [die, hd]) loc)⟩

theorem Written.refl (s : State) : Written s s [] := .of (.refl s) rfl rfl rfl

theorem Written.trans {s t u : State} {l r : List (Nat × Byte)} (h : Written s t l) (k : Written t u r) :
    Written s u (l ++ r) := by
  refine ⟨h.homes.trans k.homes, by rw [k.mem, h.mem]; simp [Memory.setAll], k.stores.trans h.stores,
    fun d => (k.hostq d).trans (h.hostq d), fun d => (k.peerq d).trans (h.peerq d), fun d loc => ?_⟩
  rcases k.uoq d loc with e | ⟨e, m⟩
  · rcases h.uoq d loc with e' | ⟨e', m⟩
    · exact .inl (e.trans e')
    · exact .inr ⟨e.trans e', by rw [List.map_append]; exact List.mem_append_left _ m⟩
  · exact .inr ⟨e, by rw [List.map_append]; exact List.mem_append_right _ m⟩

theorem Written.after {s t u : State} {l : List (Nat × Byte)} (h : Written s t l) (k : Written t u []) : Written s u l := by
  have := h.trans k; rwa [List.append_nil] at this

theorem Written.uoq_off {s u : State} {l : List (Nat × Byte)} (h : Written s u l) (d : Nat) {loc : Nat} (hl : loc ∉ l.map (·.1)) :
    uoqRead u d loc = uoqRead s d loc := (h.uoq d loc).resolve_right (fun e => hl e.2)

theorem LinesOnly.written {s u : State} (h : LinesOnly s u) : Written s u [] :=
  ⟨h.homesOnly, h.mem, h.stores, fun d => by rw [h.dies d], fun d => by rw [h.dies d],
    fun d loc => .inl (uoqRead_of (by rw [h.dies d]) loc)⟩

theorem Written.foldl {α : Type} (f : State → α → State) (h : ∀ s x, Written s (f s x) []) :
    ∀ (l : List α) (s : State), Written s (l.foldl f s) []
  | [], s => .refl s
  | x :: r, s => (h s x).trans (Written.foldl f h r (f s x))

theorem unpoison_written (s : State) (loc : Nat) : Written s (unpoison s loc) [] := by
  unfold unpoison
  simp only
  split
  · exact .refl s
  · exact .of rfl rfl rfl rfl

theorem modTenant_written (s : State) (n : Nat) (f : Tenant → Tenant) : Written s (modTenant s n f) [] := .of rfl rfl rfl rfl

theorem modCtx_written (s : State) (c : Nat) (f : Ctx → Ctx) : Written s (modCtx s c f) [] := by
  unfold modCtx; split
  · exact .refl s
  · exact .of rfl rfl rfl rfl

theorem logAgent_written (s : State) (a : Agent) (kind loc cva n : Nat) : Written s (logAgent s a kind loc cva n) [] := by
  unfold logAgent logArrival
  simp only
  split
  · exact .refl s
  · exact modTenant_written _ _ _

theorem logStore_written (s : State) (p : PStore) (locs : List Nat) : Written s (logStore s p locs) [] := by
  unfold logStore
  split
  · exact .refl s
  · split
    · exact logAgent_written ..
    · split
      · exact .refl s
      · exact Written.foldl _ (fun _ _ => logAgent_written ..) _ _

theorem putMark_written (s : State) (g : Nat) (m : Option Mark) : Written s (putMark s g m) [] := .of rfl rfl rfl rfl

theorem putCovers_written (s : State) (locs ops : List Nat) (b : Bool) : Written s (putCovers s locs ops b) [] := by
  unfold putCovers; split
  · exact .refl s
  · exact .of rfl rfl rfl rfl

theorem releaseMark_written (s : State) (a : Agent) (sc loc cva : Nat) : Written s (releaseMark s a sc loc cva) [] := by
  unfold releaseMark
  split
  · exact .refl s
  · split
    · split
      · exact putMark_written _ _ _
      · exact .refl s
    · exact putMark_written _ _ _

theorem owe_written (s : State) (l : List (Instr × Msg)) : Written s (owe s l) [] := .of rfl rfl rfl rfl

theorem ownLines_written (s : State) (a : Agent) (copy : Bool) (locs : List Nat) (cva : Nat) (h : Hint) (home : Bool) :
    Written s (ownLines s a copy locs cva h home) [] := by
  unfold ownLines
  refine Written.foldl _ (fun s n => ?_) _ _
  split
  · exact (dropAll_lines _ _).written
  · exact (cachedStore_lines ..).written

/-- Locations taken out of writes give nothing any more; every other location gives what it gave. -/
theorem findSome_less (q : List QWrite) (hits : Nat → Bool) (loc : Nat) :
    (q.map (fun w => { w with locs := w.locs.filter (fun p => !hits p.1) })).reverse.findSome? (fun w => lastWrite w.locs loc) =
      if hits loc then none else q.reverse.findSome? (fun w => lastWrite w.locs loc) := by
  rw [← List.map_reverse, List.findSome?_map]
  have e : ((fun w => lastWrite w.locs loc) ∘ fun w : QWrite => { w with locs := w.locs.filter (fun p => !hits p.1) }) =
      fun w => if hits loc then none else lastWrite w.locs loc := by
    funext w
    simp only [Function.comp, lastWrite_filter _ (fun x => !hits x)]
    by_cases h : hits loc <;> simp [h]
  rw [e]
  split
  · rw [List.findSome?_eq_none_iff]; simp
  · rfl

/-- A location that a write of a die's own gives a byte is seen there. -/
theorem uoqRead_some {s : State} {d : Nat} {w : QWrite} {q : Nat × Byte} (hw : w ∈ (die s d).uoq) (hq : q ∈ w.locs) :
    uoqRead s d q.1 ≠ none := by
  unfold uoqRead
  rw [Ne, List.findSome?_eq_none_iff]
  intro h
  have := h w (List.mem_reverse.mpr hw)
  unfold lastWrite at this
  rw [Option.map_eq_none_iff, List.find?_eq_none] at this
  exact this q (List.mem_reverse.mpr hq) (by simp)

theorem sharesGranule_self (s : State) {locs : List Nat} {loc : Nat} (h : loc ∈ locs) : sharesGranule s locs loc = true := by
  unfold sharesGranule
  rw [List.contains_iff_mem]
  exact List.mem_map_of_mem h

theorem sharesGranule_of {s u : State} (h : u.regions = s.regions) (locs : List Nat) (loc : Nat) :
    sharesGranule u locs loc = sharesGranule s locs loc := by
  have e : granule u = granule s := by funext x; unfold granule nativePa; rw [h]
  unfold sharesGranule; rw [e]

/-- Nothing that was seen within no die comes to be seen within one. -/
theorem Written.broughtHome {s u : State} {l : List (Nat × Byte)} (h : Written s u l) {locs : List Nat} {loc : Nat}
    (k : BroughtHome u locs loc) : BroughtHome s locs loc := by
  obtain ⟨k1, k0, d, k2⟩ := k
  have hr : u.regions = s.regions := by have := h.homes; unfold HomesOnly at this; rw [this]
  refine ⟨by rw [← sharesGranule_of hr]; exact k1, k0, d, ?_⟩
  rcases h.uoq d loc with e | ⟨e, -⟩
  · rw [← e]; exact k2
  · exact absurd e k2

theorem broughtHome_mono {s : State} {l r : List Nat} {loc : Nat} (h : BroughtHome s l loc) (k : ∀ x ∈ l, x ∈ r) :
    BroughtHome s r loc := by
  refine ⟨?_, h.2⟩
  have h1 := h.1
  unfold sharesGranule at h1 ⊢
  rw [List.contains_iff_mem] at h1 ⊢
  obtain ⟨x, hx, e⟩ := List.mem_map.mp h1
  exact List.mem_map.mpr ⟨x, k x hx, e⟩

/-- Bytes put into memory: memory has them, and what each die's agents see within it stays. -/
theorem putBytes_written (s : State) (l : List (Nat × Byte)) :
    Written s (putBytes s l) l ∧ ∀ d loc, uoqRead (putBytes s l) d loc = uoqRead s d loc := by
  have h1 : Written s { s with mem := s.mem.setAll l } l :=
    ⟨rfl, rfl, rfl, fun _ => rfl, fun _ => rfl, fun _ _ => .inl rfl⟩
  have hd : ∀ (l : List (Nat × Byte)) (s : State), (l.foldl (fun s p => unpoison s p.1) s).dies = s.dies := by
    intro l
    induction l with
    | nil => intro s; rfl
    | cons p r ih => intro s; rw [List.foldl_cons, ih]; unfold unpoison; simp only; split <;> rfl
  unfold putBytes
  simp only
  split
  · exact ⟨h1, fun _ _ => rfl⟩
  · refine ⟨h1.after (Written.foldl (fun (s : State) (p : Nat × Byte) => unpoison s p.1) (fun s p => unpoison_written s p.1) _ _),
      fun d loc => uoqRead_of ?_ loc⟩
    unfold die; rw [hd]

/-- What dies give up for some locations: bytes that they held for themselves in the granules of those, which they hold no
longer. -/
theorem recallUo_spec (s : State) (f : Nat → Bool) (locs : List Nat) :
    ∃ l, (∀ q ∈ l, BroughtHome s locs q.1) ∧ Written s (recallUo s f locs) l ∧
      ∀ d loc, f d = true → sharesGranule s locs loc = true → offPart loc = false → uoqRead (recallUo s f locs) d loc = none := by
  let hits (x : Nat) : Bool := sharesGranule s locs x && !offPart x
  let u : State := { s with dies := s.dies.map (fun p => (p.1, if f p.1 then
      { p.2 with uoq := p.2.uoq.map (fun w => { w with locs := w.locs.filter (fun q => !hits q.1) }) } else p.2)) }
  obtain ⟨l, hl⟩ : ∃ l, l = ((s.dies.map (·.1)).dedup.filter f).flatMap (fun d =>
    (die s d).uoq.flatMap (fun w => w.locs.filter (fun q => hits q.1))) := ⟨_, rfl⟩
  have du : ∀ d, die u d = if f d then
      { die s d with uoq := (die s d).uoq.map (fun w => { w with locs := w.locs.filter (fun q => !hits q.1) }) } else die s d :=
    fun d => die_mapDies s (fun i x => if f i then
      { x with uoq := x.uoq.map (fun w => { w with locs := w.locs.filter (fun q => !hits q.1) }) } else x) d (by split <;> rfl)
  have read : ∀ d loc, uoqRead u d loc = if f d = true ∧ hits loc = true then none else uoqRead s d loc := by
    intro d loc
    unfold uoqRead
    rw [du]
    by_cases hf : f d = true
    · rw [if_pos hf]
      simp only [hf, true_and]
      exact findSome_less _ hits loc
    · rw [if_neg hf, if_neg (fun h => hf h.1)]
  have own : ∀ d loc, f d = true → hits loc = true → uoqRead s d loc ≠ none → loc ∈ l.map (·.1) := by
    intro d loc hf hh hn
    unfold uoqRead at hn
    rw [Ne, List.findSome?_eq_none_iff, not_forall] at hn
    obtain ⟨w, hn⟩ := hn
    rw [Classical.not_imp, ← Ne, lastWrite, Ne, Option.map_eq_none_iff, List.find?_eq_none, not_forall] at hn
    obtain ⟨hw, q, hn⟩ := hn
    rw [Classical.not_imp, not_not] at hn
    obtain ⟨hq, e⟩ := hn
    have e : q.1 = loc := by simpa using e
    have hd : d ∈ s.dies.map (·.1) := by
      by_contra h
      have : die s d = Die.reset := by
        unfold die kget
        cases e : kfind s.dies d with
        | none => rfl
        | some x => exact absurd (List.mem_map.mpr ⟨(d, x), kfind_mem e, rfl⟩) h
      rw [this] at hw; exact absurd hw (by simp [Die.reset])
    rw [hl, List.mem_map]
    refine ⟨q, List.mem_flatMap.mpr ⟨d, List.mem_filter.mpr ⟨List.mem_dedup.mpr hd, hf⟩, List.mem_flatMap.mpr
      ⟨w, List.mem_reverse.mp hw, List.mem_filter.mpr ⟨List.mem_reverse.mp hq, by rw [e]; exact hh⟩⟩⟩, e⟩
  have hb : ∀ q ∈ l, BroughtHome s locs q.1 := by
    intro q hq
    rw [hl] at hq
    obtain ⟨d, -, hq⟩ := List.mem_flatMap.mp hq
    obtain ⟨w, hw, hq⟩ := List.mem_flatMap.mp hq
    have h := (List.mem_filter.mp hq).2
    simp only [hits, Bool.and_eq_true, Bool.not_eq_true'] at h
    exact ⟨h.1, h.2, d, uoqRead_some hw (List.mem_filter.mp hq).1⟩
  have e : recallUo s f locs = if l.isEmpty then s else putBytes u l := by rw [hl]; rfl
  rw [e]
  split
  · rename_i he
    refine ⟨[], by simp, .refl s, fun d loc hf hh ho => ?_⟩
    by_contra hn
    have := own d loc hf (by simp [hits, hh, ho]) hn
    rw [List.isEmpty_iff.mp he] at this; exact absurd this (by simp)
  · have hp := putBytes_written u l
    refine ⟨l, hb, ⟨HomesOnly.trans (t := u) rfl hp.1.homes, hp.1.mem, hp.1.stores, fun d => (hp.1.hostq d).trans ?_,
      fun d => (hp.1.peerq d).trans ?_, fun d loc => ?_⟩, fun d loc hf hh ho => ?_⟩
    · rw [du]; split <;> rfl
    · rw [du]; split <;> rfl
    · rw [hp.2, read]
      split
      · rename_i h
        by_cases hn : uoqRead s d loc = none
        · exact .inl hn.symm
        · exact .inr ⟨rfl, own d loc h.1 h.2 hn⟩
      · exact .inl rfl
    · rw [hp.2, read, if_pos ⟨hf, by simp [hits, hh, ho]⟩]

/-- Where no die holds a location for itself, nothing is given up. -/
theorem recallUo_idle {s : State} (h : s.dies.all (fun p => p.2.uoq.isEmpty) = true) (f : Nat → Bool) (locs : List Nat) :
    recallUo s f locs = s := by
  have : ∀ d, (die s d).uoq = [] := by
    intro d
    unfold die kget
    cases e : kfind s.dies d with
    | none => rfl
    | some x => exact List.isEmpty_iff.mp (List.all_eq_true.mp h _ (kfind_mem e))
  unfold recallUo
  simp only
  rw [if_pos]
  rw [List.isEmpty_iff, List.flatMap_eq_nil_iff]
  intro d _
  rw [this d]; rfl

/-- Bytes landed at their homes: memory has them after what dies held for themselves of their granules, and no write kept within a
die stands before them. -/
theorem landBytes_spec (s : State) (l : List (Nat × Byte)) :
    ∃ r, (∀ q ∈ r, BroughtHome s (l.map (·.1)) q.1) ∧ Written s (landBytes s l) (r ++ l) ∧
      ∀ d, ∀ loc ∈ l.map (·.1), offPart loc = false → uoqRead (landBytes s l) d loc = none := by
  obtain ⟨r, h1, h2, h3⟩ := recallUo_spec s (fun _ => true) (l.map (·.1))
  have hp := putBytes_written (recallUo s (fun _ => true) (l.map (·.1))) l
  refine ⟨r, h1, h2.trans hp.1, fun d loc hl ho => ?_⟩
  unfold landBytes
  rw [hp.2, h3 d loc rfl (sharesGranule_self s hl) ho]

/-- A write at the home gives memory its bytes, after what dies held for themselves of their granules, and nothing else that an agent
reads changes but what dies' agents saw there of earlier writes kept within them. -/
theorem writeHome_written (s : State) (a : Agent) (l : List (Nat × Byte)) (cva : Nat) (h : Hint) (b : Bool) :
    ∃ r, (∀ q ∈ r, BroughtHome s (l.map (·.1)) q.1) ∧ Written s (writeHome s a l cva h b) (r ++ l) := by
  obtain ⟨r, h1, h2, -⟩ := landBytes_spec s l
  exact ⟨r, h1, h2.after (ownLines_written ..)⟩

/-! ### Reads through a non-native view -/

/-- A read all of whose bytes are native brings nothing home. -/
theorem served_native {s : State} {refs : List ByteRef} (h : ∀ r ∈ refs, nonNative s r.pa = false) : served s refs = s := by
  have e : refs.filter (fun b => nonNative s b.pa) = [] := by
    rw [List.filter_eq_nil_iff]; intro r hr; rw [h r hr]; simp
  unfold served
  rw [e]
  unfold recallUo
  simp [underRefs, sharesGranule]

theorem served_homes (s : State) (refs : List ByteRef) : HomesOnly s (served s refs) := by
  obtain ⟨l, -, h, -⟩ := recallUo_spec s (fun _ => true) (underRefs s (refs.filter (fun b => nonNative s b.pa)))
  exact h.homes

/-! ### What agents of a die read -/

theorem sharedLoc_eq (s : State) (d loc : Nat) : Machine.sharedLoc s d loc =
    (if offPart loc then ((if loc / 2 ^ 40 % 64 = 0 then (die s d).hostq else (die s d).peerq).reverse.findSome?
      (fun w => lastWrite w.locs loc)) else uoqRead s d loc).getD (s.mem.get loc) := by
  unfold Machine.sharedLoc dieQueue uoqRead
  simp only
  split <;> rfl

theorem Written.sharedLoc_off {s u : State} {l : List (Nat × Byte)} (h : Written s u l) (d loc : Nat)
    (hl : loc ∉ l.map (·.1)) : Machine.sharedLoc u d loc = Machine.sharedLoc s d loc := by
  rw [sharedLoc_eq, sharedLoc_eq, h.uoq_off d hl, h.hostq, h.peerq, h.mem, Memory.get_setAll, lastWrite_none hl]; rfl

/-- A write queue once a store's bytes have entered it: those for its side, as one write at its end (R274). -/
def withEntry (s : State) (p : PStore) (off : List (Nat × Byte)) (peer : Bool) (q : List QWrite) : List QWrite :=
  match off.filter (fun w => (w.1 / 2 ^ 40 % 64 != 0) == peer) with
  | [] => q
  | l => q ++ [p.entry s l]

/-- What a filled queue gives a location: the store's byte first, where the location lies on its side. -/
theorem withEntry_read (s : State) (p : PStore) (off : List (Nat × Byte)) (peer : Bool) (q : List QWrite) (loc : Nat) :
    (withEntry s p off peer q).reverse.findSome? (fun w => lastWrite w.locs loc) =
      (if (loc / 2 ^ 40 % 64 != 0) == peer then lastWrite off loc else none).or
        (q.reverse.findSome? (fun w => lastWrite w.locs loc)) := by
  have e := lastWrite_filter off (fun x => (x / 2 ^ 40 % 64 != 0) == peer) loc
  unfold withEntry
  split
  · rename_i h; rw [h, lastWrite_nil] at e; rw [← e]; rfl
  · rw [List.reverse_append, List.reverse_singleton, List.singleton_append, List.findSome?_cons, ← e]
    have : (p.entry s (List.filter (fun w => (w.1 / 2 ^ 40 % 64 != 0) == peer) off)).locs =
      List.filter (fun w => (w.1 / 2 ^ 40 % 64 != 0) == peer) off := rfl
    rw [this]
    cases lastWrite (List.filter (fun w => (w.1 / 2 ^ 40 % 64 != 0) == peer) off) loc <;> rfl

/-- What entering a die's queues leaves: the queues with the store's bytes, and nothing else that an agent reads. -/
theorem enqueue_spec (s : State) (p : PStore) (off : List (Nat × Byte)) :
    HomesOnly s (enqueue s p off) ∧ (enqueue s p off).stores = s.stores ∧ (enqueue s p off).mem = s.mem ∧
      (∀ d, (die (enqueue s p off) d).uoq = (die s d).uoq) ∧
      (∀ d, d ≠ dieOfCore (agentCore p.agent) → die (enqueue s p off) d = die s d) ∧
      (die (enqueue s p off) (dieOfCore (agentCore p.agent))).hostq =
        withEntry s p off false (die s (dieOfCore (agentCore p.agent))).hostq ∧
      (die (enqueue s p off) (dieOfCore (agentCore p.agent))).peerq =
        withEntry s p off true (die s (dieOfCore (agentCore p.agent))).peerq := by
  unfold enqueue
  simp only
  split
  · rename_i h
    have h := List.isEmpty_iff.mp h
    exact ⟨rfl, rfl, rfl, fun _ => rfl, fun _ _ => rfl, by simp [withEntry, h], by simp [withEntry, h]⟩
  · have e : ∀ d l f, die (owe (modDie s (dieOfCore (agentCore p.agent)) f) l) d =
        if d = dieOfCore (agentCore p.agent) then f (die s (dieOfCore (agentCore p.agent))) else die s d :=
      fun d l f => die_modDie s _ d f
    refine ⟨rfl, rfl, rfl, fun d => ?_, fun d hd => ?_, ?_, ?_⟩
    · rw [e]; split
      · rename_i hd; subst hd; rfl
      · rfl
    · rw [e, if_neg hd]
    · rw [e, if_pos rfl]; rfl
    · rw [e, if_pos rfl]; rfl

/-- Nothing comes to be seen within a die alone. -/
def NoneAhead (s u : State) : Prop := ∀ d loc, uoqRead u d loc = uoqRead s d loc ∨ uoqRead u d loc = none

theorem NoneAhead.trans {s t u : State} (h : NoneAhead s t) (k : NoneAhead t u) : NoneAhead s u := fun d loc =>
  (k d loc).elim (fun e => (h d loc).elim (fun e' => .inl (e.trans e')) (fun e' => .inr (e.trans e'))) .inr

theorem Written.noneAhead {s u : State} {l : List (Nat × Byte)} (h : Written s u l) : NoneAhead s u :=
  fun d loc => (h.uoq d loc).imp id (·.1)

theorem NoneAhead.broughtHome {s u : State} (h : NoneAhead s u) (k : HomesOnly s u) {locs : List Nat} {loc : Nat}
    (b : BroughtHome u locs loc) : BroughtHome s locs loc := by
  obtain ⟨b1, b0, d, b2⟩ := b
  have hr : u.regions = s.regions := by unfold HomesOnly at k; rw [k]
  exact ⟨by rw [← sharesGranule_of hr]; exact b1, b0, d, (h d loc).elim (fun e => by rwa [← e]) (fun e => absurd e b2)⟩

/-- What a performed store leaves: the bytes at their homes, or at the end of a write queue of its agent's die (R274), and at their homes
what dies held for themselves of their granules (R97). -/
theorem performStore_spec (s : State) (p : PStore) :
    HomesOnly s (performStore s p) ∧ (performStore s p).stores = s.stores ∧ NoneAhead s (performStore s p) ∧
      (∀ loc b, lastWrite p.locs loc = some b → sharedLoc (performStore s p) (dieOfCore (agentCore p.agent)) loc = b) ∧
      (∀ d loc, loc ∉ p.locs.map (·.1) → ¬BroughtHome s (p.locs.map (·.1)) loc →
        sharedLoc (performStore s p) d loc = sharedLoc s d loc) ∧
      (∀ loc b, lastWrite p.locs loc = some b → ∀ locs, ¬BroughtHome (performStore s p) locs loc) := by
  obtain ⟨u, r, hr, hu, ho, e⟩ : ∃ u r, (∀ q ∈ r, BroughtHome s (p.locs.map (·.1)) q.1) ∧
      Written s u (r ++ p.locs.filter (fun q => !offPart q.1)) ∧
      (∀ d, ∀ loc ∈ (p.locs.filter (fun q => !offPart q.1)).map (·.1), offPart loc = false → uoqRead u d loc = none) ∧
      Written (enqueue u p (p.locs.filter (fun q => offPart q.1))) (performStore s p) [] := by
    have hlog := logStore_written s p ((p.locs.filter (fun q => !offPart q.1)).map (·.1))
    obtain ⟨r, h1, h2, h3⟩ := landBytes_spec (logStore s p ((p.locs.filter (fun q => !offPart q.1)).map (·.1)))
      (p.locs.filter (fun q => !offPart q.1))
    refine ⟨ownLines (landBytes (logStore s p ((p.locs.filter (fun q => !offPart q.1)).map (·.1)))
      (p.locs.filter (fun q => !offPart q.1))) p.agent p.copy
        ((p.locs.filter (fun q => !offPart q.1)).map (·.1)) p.cva p.hint p.view, r, fun q hq => ?_, ?_, fun d loc hl hp => ?_, ?_⟩
    · refine broughtHome_mono (hlog.broughtHome (h1 q hq)) (fun x hx => ?_)
      obtain ⟨y, hy, e⟩ := List.mem_map.mp hx
      exact List.mem_map.mpr ⟨y, (List.mem_filter.mp hy).1, e⟩
    · exact (hlog.trans h2).after (ownLines_written ..)
    · rw [(ownLines_written _ _ _ _ _ _ _).uoq_off _ (by simp)]
      exact h3 d loc hl hp
    · unfold performStore
      simp only
      split
      · split
        · exact putCovers_written ..
        · exact (putCovers_written ..).trans (releaseMark_written ..)
      · exact putCovers_written ..
  obtain ⟨q1, q2, q3, q4, q5, q6, q7⟩ := enqueue_spec u p (p.locs.filter (fun q => offPart q.1))
  have uoqs : ∀ d loc, uoqRead (performStore s p) d loc = uoqRead u d loc := fun d loc => by
    rw [e.uoq_off d (by simp), uoqRead_of (q4 d)]
  have read : ∀ d loc, sharedLoc (performStore s p) d loc =
      sharedLoc (enqueue u p (p.locs.filter (fun q => offPart q.1))) d loc := fun d loc => e.sharedLoc_off d loc (by simp)
  have off : ∀ loc, lastWrite (p.locs.filter (fun q => offPart q.1)) loc = if offPart loc then lastWrite p.locs loc else none :=
    fun loc => lastWrite_filter _ offPart loc
  have here : ∀ loc, lastWrite (p.locs.filter (fun q => !offPart q.1)) loc = if offPart loc then none else lastWrite p.locs loc := by
    intro loc; rw [lastWrite_filter _ (fun x => !offPart x)]; cases offPart loc <;> rfl
  have mem : ∀ loc, u.mem.get loc = ((if offPart loc then none else lastWrite p.locs loc).or (lastWrite r loc)).getD (s.mem.get loc) := by
    intro loc; rw [hu.mem, Memory.get_setAll, lastWrite_append, here]
  have isIn : ∀ loc b, lastWrite p.locs loc = some b → loc ∈ p.locs.map (·.1) := by
    intro loc b hb
    by_contra h; rw [lastWrite_none h] at hb; cases hb
  have none_ : ∀ loc b d, lastWrite p.locs loc = some b → offPart loc = false → uoqRead u d loc = none := by
    intro loc b d hb hp
    obtain ⟨x, hx, hxl⟩ := List.mem_map.mp (isIn loc b hb)
    exact ho d loc (List.mem_map.mpr ⟨x, List.mem_filter.mpr ⟨hx, by rw [hxl, hp]; rfl⟩, hxl⟩) hp
  have free : ∀ loc b, lastWrite p.locs loc = some b → ∀ locs, ¬BroughtHome (performStore s p) locs loc := by
    rintro loc b hb locs ⟨-, hp, d, hd⟩
    rw [uoqs, none_ loc b d hb hp] at hd; exact hd rfl
  refine ⟨hu.homes.trans (q1.trans e.homes), e.stores.trans (q2.trans hu.stores), fun d loc => ?_,
    fun loc b hb => ?_, fun d loc hl hn => ?_, free⟩
  · rw [uoqs]; exact hu.noneAhead d loc
  · rw [read, sharedLoc_eq, q3, mem, q6, q7, hu.hostq, hu.peerq]
    cases hp : offPart loc
    · simp only [Bool.false_eq_true, if_false]
      rw [uoqRead_of (q4 _), none_ loc b _ hb hp, hb]; rfl
    · simp only [if_true]
      by_cases hz : loc / 2 ^ 40 % 64 = 0
      · simp only [hz, if_true, withEntry_read, off, hp, hb]
        simp
      · have hz' : (loc / 2 ^ 40 % 64 != 0) = true := by simpa using hz
        simp only [hz, if_false, withEntry_read, off, hp, hb, hz']
        simp
  · have hn' := lastWrite_none hl
    have hf : loc ∉ (r ++ p.locs.filter (fun q => !offPart q.1)).map (·.1) := by
      intro h; obtain ⟨x, hx, e⟩ := List.mem_map.mp h
      rcases List.mem_append.mp hx with hx | hx
      · exact hn (e ▸ hr x hx)
      · exact hl (List.mem_map.mpr ⟨x, (List.mem_filter.mp hx).1, e⟩)
    rw [read]
    rw [← hu.sharedLoc_off d loc hf]
    by_cases hd : d = dieOfCore (agentCore p.agent)
    · subst hd
      rw [sharedLoc_eq, sharedLoc_eq, q3, q6, q7, uoqRead_of (q4 _)]
      congr 2
      split
      · rw [withEntry_read, off, hn']; simp
      · rw [withEntry_read, off, hn']; simp
    · rw [sharedLoc_eq, sharedLoc_eq, q3, q5 d hd, uoqRead_of (q4 _)]

/-! ### Pending stores -/

/-- What an agent's own pending stores give a location: the last of them that holds it (R87). -/
def ownWrite (l : List PStore) (a : Agent) (loc : Nat) : Option Byte :=
  (l.reverse.filter (fun p => p.agent = a)).findSome? (fun p => lastWrite p.locs loc)

theorem getLoc_eq (s : State) (a : Agent) (d loc : Nat) :
    getLoc s a d loc = (ownWrite s.stores a loc).getD (sharedLoc s d loc) := by
  unfold getLoc ownWrite; split
  · rename_i h; rw [h]; rfl
  · rename_i h; rw [h]; rfl

theorem ownWrite_append (l r : List PStore) (a : Agent) (loc : Nat) :
    ownWrite (l ++ r) a loc = (ownWrite r a loc).or (ownWrite l a loc) := by
  unfold ownWrite
  rw [List.reverse_append, List.filter_append, List.findSome?_append]

theorem ownWrite_cons (p : PStore) (l : List PStore) (a : Agent) (loc : Nat) :
    ownWrite (p :: l) a loc = (ownWrite l a loc).or (if p.agent = a then lastWrite p.locs loc else none) := by
  rw [show p :: l = [p] ++ l from rfl, ownWrite_append]
  congr 1
  unfold ownWrite
  by_cases h : p.agent = a
  · rw [if_pos h]; simp [h]
  · rw [if_neg h]; simp [h]

theorem ownWrite_none {l : List PStore} {a : Agent} {loc : Nat}
    (h : ∀ p ∈ l, p.agent = a → loc ∉ p.locs.map (·.1)) : ownWrite l a loc = none := by
  unfold ownWrite
  rw [List.findSome?_eq_none_iff]
  intro p hp
  simp only [List.mem_filter, List.mem_reverse, decide_eq_true_eq] at hp
  exact lastWrite_none (h p hp.1 hp.2)

theorem lastWrite_flatMap (ps : List PStore) (a : Agent) (loc : Nat) (h : ∀ p ∈ ps, p.agent = a) :
    ownWrite ps a loc = lastWrite (ps.flatMap (·.locs)) loc := by
  induction ps with
  | nil => rfl
  | cons p r ih =>
    rw [ownWrite_cons, List.flatMap_cons, lastWrite_append, ih (fun q hq => h q (List.mem_cons_of_mem _ hq)),
      if_pos (h p (by simp))]

/-- An entry of the pending stores that may be performed overlaps no earlier store of its agent (R87). -/
theorem mayPerform_fresh {s : State} {i : Nat} {p : PStore} (hp : s.stores[i]? = some p) (h : mayPerform s i = true) :
    ∀ q ∈ s.stores.take i, q.agent = p.agent → ∀ x ∈ q.locs, ∀ y ∈ p.locs, x.1 ≠ y.1 := by
  intro q hq ha x hx y hy e
  unfold mayPerform at h
  rw [hp] at h
  simp only [Bool.and_eq_true, Bool.not_eq_true', List.any_eq_false] at h
  refine h.2 q hq ⟨by simp [ha], ?_⟩
  rw [List.any_eq_true]
  exact ⟨x, hx, by rw [e]; simpa using ⟨y.2, hy⟩⟩

/-- Performing a store changes nothing that its own agent reads, and elsewhere at most where the store lies, but for what it brings
home. -/
theorem performAt_spec {s : State} {i : Nat} {p : PStore} (hp : s.stores[i]? = some p) (h : mayPerform s i = true) :
    HomesOnly s (performAt s i) ∧ (performAt s i).stores = s.stores.eraseIdx i ∧ NoneAhead s (performAt s i) ∧
      (∀ loc, (ownWrite s.stores p.agent loc = none → ¬BroughtHome s (p.locs.map (·.1)) loc) →
        getLoc (performAt s i) p.agent (dieOfCore (agentCore p.agent)) loc =
          getLoc s p.agent (dieOfCore (agentCore p.agent)) loc) ∧
      (∀ a d loc, a ≠ p.agent → loc ∉ p.locs.map (·.1) → ¬BroughtHome s (p.locs.map (·.1)) loc →
        getLoc (performAt s i) a d loc = getLoc s a d loc) ∧
      (∀ loc, ownWrite s.stores p.agent loc ≠ none → ownWrite (performAt s i).stores p.agent loc = none →
        ∀ locs, ¬BroughtHome (performAt s i) locs loc) := by
  have e : performAt s i = performStore { s with stores := s.stores.eraseIdx i } p := by unfold performAt; rw [hp]
  obtain ⟨h1, h2, h0, h3, h4, h5⟩ := performStore_spec { s with stores := s.stores.eraseIdx i } p
  rw [← e] at h1 h2 h0 h3 h4 h5
  have hi : i < s.stores.length := by
    by_contra hn; rw [List.getElem?_eq_none (by omega)] at hp; cases hp
  have split : s.stores = s.stores.take i ++ p :: s.stores.drop (i + 1) := by
    have : p = s.stores[i] := by rw [List.getElem?_eq_getElem hi] at hp; exact (Option.some.inj hp).symm
    rw [this, List.cons_getElem_drop_succ, List.take_append_drop]
  have er : s.stores.eraseIdx i = s.stores.take i ++ s.stores.drop (i + 1) := List.eraseIdx_eq_take_drop_succ ..
  have h2' : (performAt s i).stores = s.stores.take i ++ s.stores.drop (i + 1) := h2.trans er
  have sh : ∀ d loc, sharedLoc { s with stores := s.stores.eraseIdx i } d loc = sharedLoc s d loc := fun _ _ => rfl
  have ow : ∀ loc, ownWrite s.stores p.agent loc =
      ((ownWrite (s.stores.drop (i + 1)) p.agent loc).or (lastWrite p.locs loc)).or (ownWrite (s.stores.take i) p.agent loc) := by
    intro loc
    conv_lhs => rw [split]
    rw [ownWrite_append, ownWrite_cons, if_pos rfl]
  have fresh : ∀ loc b, lastWrite p.locs loc = some b → ownWrite (s.stores.take i) p.agent loc = none := by
    intro loc b hb
    apply ownWrite_none
    intro q hq hqa hmem
    obtain ⟨x, hx, hxl⟩ := List.mem_map.mp hmem
    by_cases hm : loc ∈ p.locs.map (·.1)
    · obtain ⟨y, hy, hyl⟩ := List.mem_map.mp hm
      exact mayPerform_fresh hp h q hq hqa x hx y hy (hxl.trans hyl.symm)
    · rw [lastWrite_none hm] at hb; cases hb
  refine ⟨HomesOnly.trans (t := { s with stores := s.stores.eraseIdx i }) rfl h1, h2, h0, fun loc hn => ?_,
    fun a d loc ha hl hn => ?_, fun loc k1 k2 locs => ?_⟩
  · rw [getLoc_eq, getLoc_eq, h2', ownWrite_append, ow]
    rw [ow] at hn
    cases hb : lastWrite p.locs loc with
    | some b =>
      rw [fresh loc b hb, h3 loc b hb]
      cases ownWrite (s.stores.drop (i + 1)) p.agent loc <;> simp
    | none =>
      rw [hb] at hn
      cases hd : ownWrite (s.stores.drop (i + 1)) p.agent loc with
      | some c => simp
      | none =>
        cases ht : ownWrite (s.stores.take i) p.agent loc with
        | some c => simp
        | none =>
          rw [hd, ht] at hn
          have hm : loc ∉ p.locs.map (·.1) := by
            intro hm
            obtain ⟨y, hy, hyl⟩ := List.mem_map.mp hm
            unfold lastWrite at hb
            rw [Option.map_eq_none_iff, List.find?_eq_none] at hb
            exact hb y (List.mem_reverse.mpr hy) (by simpa using hyl)
          rw [h4 _ loc hm (fun b => hn rfl b), sh]
          simp
  · rw [getLoc_eq, getLoc_eq, h2', h4 d loc hl hn, sh, ownWrite_append]
    conv_rhs => rw [split, ownWrite_append, ownWrite_cons, if_neg (Ne.symm ha)]
    rw [Option.or_none]
  · rw [h2', ownWrite_append] at k2
    rw [ow] at k1
    cases hb : lastWrite p.locs loc with
    | some b => exact h5 loc b hb locs
    | none =>
      rw [hb, Option.or_none] at k1
      exact absurd k2 k1

/-- An agent's pending stores performed while one may be: it reads what it read, and another agent's view changes at most
where those stores lie, but for what they bring home. -/
theorem drainStores_spec (a : Agent) : ∀ (n : Nat) (s : State),
    HomesOnly s (drainStores a n s) ∧ (∀ p ∈ (drainStores a n s).stores, p ∈ s.stores) ∧
      (∀ loc, (ownWrite s.stores a loc = none → ∀ p ∈ s.stores, p.agent = a → ¬BroughtHome s (p.locs.map (·.1)) loc) →
        getLoc (drainStores a n s) a (dieOfCore (agentCore a)) loc = getLoc s a (dieOfCore (agentCore a)) loc) ∧
      (∀ b d loc, b ≠ a →
        (∀ p ∈ s.stores, p.agent = a → loc ∉ p.locs.map (·.1) ∧ ¬BroughtHome s (p.locs.map (·.1)) loc) →
        getLoc (drainStores a n s) b d loc = getLoc s b d loc)
  | 0, s => ⟨.refl s, fun _ h => h, fun _ _ => rfl, fun _ _ _ _ _ => rfl⟩
  | n + 1, s => by
    unfold drainStores
    split
    · rename_i i hf
      have hprop := List.find?_some hf
      simp only [Bool.and_eq_true] at hprop
      obtain ⟨ho, hm⟩ := hprop
      cases hp : s.stores[i]? with
      | none => rw [hp] at ho; simp at ho
      | some p =>
        rw [hp] at ho
        have hpa : p.agent = a := by simpa using ho
        obtain ⟨h1, h2, h0, h3, h4, h5⟩ := performAt_spec hp hm
        obtain ⟨k1, k2, k3, k4⟩ := drainStores_spec a n (performAt s i)
        have sub : ∀ q ∈ (performAt s i).stores, q ∈ s.stores := by
          intro q hq; rw [h2] at hq; exact List.mem_of_mem_eraseIdx hq
        have hps : p ∈ s.stores := List.mem_of_getElem? hp
        subst hpa
        refine ⟨h1.trans k1, fun q hq => sub q (k2 q hq), fun loc hl => (k3 loc fun hn q hq ha => ?_).trans
          (h3 loc fun hn => hl hn p hps rfl), fun b d loc hb hl => ?_⟩
        · by_cases hs : ownWrite s.stores p.agent loc = none
          · exact fun b => hl hs q (sub q hq) ha (h0.broughtHome h1 b)
          · exact h5 loc hs hn _
        · rw [k4 b d loc hb (fun q hq ha => ⟨(hl q (sub q hq) ha).1, fun b => (hl q (sub q hq) ha).2 (h0.broughtHome h1 b)⟩),
            h4 b d loc hb (hl p hps rfl).1 (hl p hps rfl).2]
    · exact ⟨.refl s, fun _ h => h, fun _ _ => rfl, fun _ _ _ _ _ => rfl⟩

/-- Pieces of a store accepted (R121): their agent reads their bytes at once; another agent's view changes at most there and
at the agent's own earlier stores, but for what these bring home. -/
theorem acceptPieces_spec (s : State) (a : Agent) (ps : List PStore) (h : ∀ p ∈ ps, p.agent = a) :
    HomesOnly s (acceptPieces s a ps) ∧
      (∀ loc, loc ∈ (ps.flatMap (·.locs)).map (·.1) ∨ StoreSpares s a ((ps.flatMap (·.locs)).map (·.1)) loc →
        getLoc (acceptPieces s a ps) a (dieOfCore (agentCore a)) loc =
          (lastWrite (ps.flatMap (·.locs)) loc).getD (getLoc s a (dieOfCore (agentCore a)) loc)) ∧
      (∀ b d loc, b ≠ a → loc ∉ (ps.flatMap (·.locs)).map (·.1) → StoreSpares s a ((ps.flatMap (·.locs)).map (·.1)) loc →
        (∀ p ∈ s.stores, p.agent = a → loc ∉ p.locs.map (·.1)) → getLoc (acceptPieces s a ps) b d loc = getLoc s b d loc) := by
  let u : State := { s with stores := s.stores ++ ps, nextId := s.nextId + 1 }
  have hu : HomesOnly s u := rfl
  have own : ∀ loc, getLoc u a (dieOfCore (agentCore a)) loc =
      (lastWrite (ps.flatMap (·.locs)) loc).getD (getLoc s a (dieOfCore (agentCore a)) loc) := by
    intro loc
    rw [getLoc_eq, getLoc_eq]
    simp only [u, ownWrite_append, lastWrite_flatMap ps a loc h]
    have : sharedLoc u (dieOfCore (agentCore a)) loc = sharedLoc s (dieOfCore (agentCore a)) loc := rfl
    cases lastWrite (ps.flatMap (·.locs)) loc
    · simp; rfl
    · simp
  have others : ∀ b d loc, b ≠ a → getLoc u b d loc = getLoc s b d loc := by
    intro b d loc hb
    rw [getLoc_eq, getLoc_eq]
    have : ownWrite ps b loc = none := ownWrite_none (fun p hp e => absurd ((h p hp).symm.trans e) (Ne.symm hb))
    simp only [u, ownWrite_append, this]
    rfl
  have isIn : ∀ loc, loc ∈ (ps.flatMap (·.locs)).map (·.1) → ownWrite u.stores a loc ≠ none := by
    intro loc hl hn
    simp only [u, ownWrite_append, lastWrite_flatMap ps a loc h, Option.or_eq_none_iff] at hn
    obtain ⟨y, hy, hyl⟩ := List.mem_map.mp hl
    have := hn.1
    unfold lastWrite at this
    rw [Option.map_eq_none_iff, List.find?_eq_none] at this
    exact this y (List.mem_reverse.mpr hy) (by simpa using hyl)
  have spare : ∀ loc, StoreSpares s a ((ps.flatMap (·.locs)).map (·.1)) loc →
      ∀ p ∈ u.stores, p.agent = a → ¬BroughtHome u (p.locs.map (·.1)) loc := by
    intro loc hs p hp hpa b
    have b' : BroughtHome s (p.locs.map (·.1)) loc := b
    rcases List.mem_append.mp hp with hp | hp
    · exact hs.2 p hp hpa b'
    · refine hs.1 (broughtHome_mono b' (fun x hx => ?_))
      obtain ⟨y, hy, e⟩ := List.mem_map.mp hx
      exact List.mem_map.mpr ⟨y, List.mem_flatMap.mpr ⟨p, hp, hy⟩, e⟩
  have fin : ∀ v, HomesOnly u v → (∀ loc, (ownWrite u.stores a loc = none →
        ∀ p ∈ u.stores, p.agent = a → ¬BroughtHome u (p.locs.map (·.1)) loc) →
        getLoc v a (dieOfCore (agentCore a)) loc = getLoc u a (dieOfCore (agentCore a)) loc) →
      (∀ b d loc, b ≠ a → (∀ p ∈ u.stores, p.agent = a → loc ∉ p.locs.map (·.1) ∧ ¬BroughtHome u (p.locs.map (·.1)) loc) →
        getLoc v b d loc = getLoc u b d loc) →
      ∀ l, HomesOnly s (owe v l) ∧
        (∀ loc, loc ∈ (ps.flatMap (·.locs)).map (·.1) ∨ StoreSpares s a ((ps.flatMap (·.locs)).map (·.1)) loc →
          getLoc (owe v l) a (dieOfCore (agentCore a)) loc =
            (lastWrite (ps.flatMap (·.locs)) loc).getD (getLoc s a (dieOfCore (agentCore a)) loc)) ∧
        (∀ b d loc, b ≠ a → loc ∉ (ps.flatMap (·.locs)).map (·.1) → StoreSpares s a ((ps.flatMap (·.locs)).map (·.1)) loc →
          (∀ p ∈ s.stores, p.agent = a → loc ∉ p.locs.map (·.1)) → getLoc (owe v l) b d loc = getLoc s b d loc) := by
    intro v h1 h2 h3 l
    have ho : ∀ b d loc, getLoc (owe v l) b d loc = getLoc v b d loc := fun _ _ _ => rfl
    refine ⟨hu.trans (h1.trans rfl), fun loc hl => ?_, fun b d loc hb hl hs hk => ?_⟩
    · rw [ho, h2, own]
      intro hn
      exact hl.elim (fun hl => absurd hn (isIn loc hl)) (fun hl => spare loc hl)
    rw [ho, h3 b d loc hb, others b d loc hb]
    intro p hp hpa
    refine ⟨?_, spare loc hs p hp hpa⟩
    rcases List.mem_append.mp hp with hp | hp
    · exact hk p hp hpa
    · intro hm; obtain ⟨x, hx, e⟩ := List.mem_map.mp hm
      exact hl (List.mem_map.mpr ⟨x, List.mem_flatMap.mpr ⟨p, hp, hx⟩, e⟩)
  unfold acceptPieces
  simp only
  by_cases hd : u.defer = true
  · rw [if_pos hd]
    exact fin u (.refl u) (fun _ _ => rfl) (fun _ _ _ _ _ => rfl) _
  · rw [if_neg hd]
    obtain ⟨k1, _, k3, k4⟩ := drainStores_spec a u.stores.length u
    exact fin _ k1 k3 k4 _

/-! ### Pieces -/

theorem cutWhere_flatten (joins : ByteRef → ByteRef → Bool) (l : List (ByteRef × Byte)) : (cutWhere joins l).flatten = l := by
  induction l with
  | nil => rfl
  | cons x r ih =>
    unfold cutWhere
    split
    · rename_i y l' m h
      rw [h] at ih
      split <;> simp_all
    · simp [ih]

theorem chunksOf_flatten {α : Type} (n : Nat) (hn : 0 < n) : ∀ (fuel : Nat) (l : List α), l.length ≤ fuel →
    (chunksOf n fuel l).flatten = l
  | 0, l, h => by rw [List.length_eq_zero_iff.mp (Nat.le_zero.mp h)]; rfl
  | fuel + 1, [], _ => rfl
  | fuel + 1, x :: r, h => by
    have : chunksOf n (fuel + 1) (x :: r) = (x :: r).take n :: chunksOf n fuel ((x :: r).drop n) := rfl
    rw [this, List.flatten_cons, chunksOf_flatten n hn fuel _ (by simp only [List.length_drop, List.length_cons] at *; omega),
      List.take_append_drop]

theorem vectorPieces_flatten (s : State) (l : List (ByteRef × Byte)) : (vectorPieces s l).flatten = l := by
  have key : ∀ m : List (List (ByteRef × Byte)), (m.flatMap (fun r => chunksOf 128 r.length r)).flatten = m.flatten := by
    intro m
    induction m with
    | nil => rfl
    | cons x r ih => rw [List.flatMap_cons, List.flatten_append, chunksOf_flatten 128 (by decide) _ _ (Nat.le_refl _), ih,
        List.flatten_cons]
  unfold vectorPieces; rw [key, cutWhere_flatten]

/-- The bytes of pieces as stores are the bytes cut. -/
theorem pieces_locs (s : State) (a : Agent) (rel : Option Nat) (h : Hint) (m : List (List (ByteRef × Byte))) :
    (m.map (pieceStore s a rel h)).flatMap (·.locs) = m.flatten.map (fun p => (p.1.loc, p.2)) := by
  induction m with
  | nil => rfl
  | cons x r ih => rw [List.map_cons, List.flatMap_cons, ih, List.flatten_cons, List.map_append]; rfl

theorem countRefused_written (s : State) (c : Nat) (b : List (ByteRef × Byte)) : Written s (countRefused s c b) [] := by
  unfold countRefused countErr; split
  · exact modCtx_written _ _ _
  · exact .refl s

theorem Written.getLoc {s u : State} (h : Written s u []) (a : Agent) (d loc : Nat) : getLoc u a d loc = getLoc s a d loc := by
  rw [getLoc_eq, getLoc_eq, h.stores, h.sharedLoc_off d loc (by simp)]

theorem Written.spares {s u : State} (h : Written s u []) {a : Agent} {put : List Nat} {loc : Nat} (k : StoreSpares s a put loc) :
    StoreSpares u a put loc :=
  ⟨fun b => k.1 (h.broughtHome b), fun p hp ha b => k.2 p (by rw [← h.stores]; exact hp) ha (h.broughtHome b)⟩

/-- A scalar store accepted (R121). -/
theorem acceptStore_spec (s : State) (a : Agent) (bytes : List (ByteRef × Byte)) (rel : Option Nat) (h : Hint) :
    let put := (bytes.filter (fun p => p.1.has)).map (fun p => (p.1.loc, p.2))
    HomesOnly s (acceptStore s a bytes rel h) ∧
      (∀ loc, loc ∈ put.map (·.1) ∨ StoreSpares s a (put.map (·.1)) loc →
        getLoc (acceptStore s a bytes rel h) a (dieOfCore (agentCore a)) loc =
          (lastWrite put loc).getD (getLoc s a (dieOfCore (agentCore a)) loc)) ∧
      (∀ b d loc, b ≠ a → loc ∉ put.map (·.1) → StoreSpares s a (put.map (·.1)) loc →
        (∀ p ∈ s.stores, p.agent = a → loc ∉ p.locs.map (·.1)) →
        getLoc (acceptStore s a bytes rel h) b d loc = getLoc s b d loc) := by
  have hw := countRefused_written s (agentCtx s a) bytes
  obtain ⟨al, ha⟩ : ∃ al, acceptStore s a bytes rel h = acceptPieces (countRefused s (agentCtx s a) bytes) a
      ((scalarPieces s al (bytes.filter (fun p => p.1.has))).map (pieceStore s a rel h)) := ⟨_, rfl⟩
  rw [ha]
  have hp := acceptPieces_spec (countRefused s (agentCtx s a) bytes) a
    ((scalarPieces s al (bytes.filter (fun p => p.1.has))).map (pieceStore s a rel h))
    (by intro p hp; obtain ⟨x, _, rfl⟩ := List.mem_map.mp hp; rfl)
  have e : ((scalarPieces s al (bytes.filter (fun p => p.1.has))).map (pieceStore s a rel h)).flatMap (·.locs) =
      (bytes.filter (fun p => p.1.has)).map (fun p => (p.1.loc, p.2)) := by
    rw [pieces_locs]; unfold scalarPieces; rw [cutWhere_flatten]
  rw [e] at hp
  obtain ⟨h1, h2, h3⟩ := hp
  refine ⟨hw.homes.trans h1, fun loc hl => ?_, fun b d loc hb hl hs hk => ?_⟩
  · rw [← hw.getLoc]; exact h2 loc (hl.imp id (hw.spares))
  · rw [← hw.getLoc]; exact h3 b d loc hb hl (hw.spares hs) (by rw [hw.stores]; exact hk)

end Sys2Proof.Machine
end

