-- ==== Sys2Proof/Laws/Paths.lean ====
section
/-! SUPPORT. What the shared paths of words do once nothing stops them, and what a cause makes of them: issuing (R48, R193),
the end of a floating word (R72), scalar and vector loads and stores (R121, R129, R205). -/

namespace Sys2Proof.Machine

/-! ### Nothing stops a word: the conditions as they are evaluated -/

theorem vecGoes_of {s : State} {held : Bool} {rs : List Reg} {vs : List VReg}
    (h : (admits s false rs && !inSvc s && (!held || (my s).vceil != 0) && landed (my s) vs) = true) :
    VecGoes s held rs vs := by
  simp only [Bool.and_eq_true, Bool.or_eq_true, Bool.not_eq_true', bne_iff_ne] at h
  obtain ⟨⟨⟨h1, h2⟩, h3⟩, h4⟩ := h
  exact ⟨h1, h2, fun hh => h3.resolve_left (by simp [hh]), h4⟩

theorem loadGoes_of {s : State} {sg : BitVec 3} {off : Word} {n al : Nat} {acq : Bool}
    (h : (scalarCause s sg off n 0 al == none &&
      !(accessRefs s sg off n).any (fun r => mustWait s s.cur s.stores r.kind false [] none) &&
      (!acq || (missOf s s.cur (acqLocs s (accessRefs s sg off n))).isNone) &&
      !(underRefs s (accessRefs s sg off n)).any (poisoned s) && !s.defer) = true) : LoadGoes s sg off n al acq := by
  simp only [Bool.and_eq_true, Bool.or_eq_true, Bool.not_eq_true', beq_iff_eq, Option.isNone_iff_eq_none] at h
  obtain ⟨⟨⟨⟨h1, h2⟩, h3⟩, h4⟩, h5⟩ := h
  exact ⟨⟨h1, h2⟩, fun hh => h3.resolve_left (by simp [hh]), h4, h5⟩

theorem vecLoadGoes_of {s : State} {sg : BitVec 3} {n : Nat} {al : Bool} {offs : List Nat}
    (h : (vecCause s sg 0 n al offs == none &&
      !((offs.map (elemRefs s sg n)).flatten).any (fun r => mustWait s s.cur s.stores r.kind false [] none) &&
      !(underRefs s (offs.map (elemRefs s sg n)).flatten).any (poisoned s) && !s.defer) = true) :
    VecLoadGoes s sg n al offs := by
  simp only [Bool.and_eq_true, Bool.not_eq_true', beq_iff_eq] at h
  exact ⟨⟨h.1.1.1, h.1.1.2, h.1.2⟩, h.2⟩

theorem gangGoes_of {s : State} {rs : List Reg} {vs : List VReg}
    (h : (admits s false rs && !inSvc s && (!true || (my s).vceil != 0) && landed (my s) vs) = true)
    (k : ((my s).mvl != 0 && (my s).mqueue.isEmpty && (my s).lost.isEmpty && !(my s).dead && !s.defer) = true) : GangGoes s rs vs := by
  simp only [Bool.and_eq_true, Bool.not_eq_true', bne_iff_ne, List.isEmpty_iff] at k
  exact ⟨⟨vecGoes_of h, k.1.1.1.1⟩, k.1.1.1.2, k.1.1.2, k.1.2, k.2⟩

theorem atomicGoes_of {s : State} {m : AmoRef}
    (h : (let r := byteRef s (myCtx s) ((seg s m.seg).base.toNat + (reg s m.a).toNat)
      let locs := (accessRefs s m.seg (reg s m.a) (amoSize m)).map (·.loc)
      scalarCause s m.seg (reg s m.a) (amoSize m) 2 (amoSize m) == none && !atomicWaits s r.kind locs (amoRel m r.loc) &&
        (!amoAcq m || r.kind == 2 || (missOf s s.cur locs).isNone) && !locs.any (poisoned s) && !s.defer) = true) :
    AtomicGoes s m := by
  simp only [Bool.and_eq_true, Bool.or_eq_true, Bool.not_eq_true', beq_iff_eq, Option.isNone_iff_eq_none] at h
  obtain ⟨⟨⟨⟨h1, h2⟩, h3⟩, h4⟩, h5⟩ := h
  refine ⟨⟨h1, h2, fun ha hk => ?_, h4⟩, h5⟩
  rcases h3 with (h3 | h3) | h3
  · simp [ha] at h3
  · exact absurd h3 hk
  · exact h3

/-! ### Issuing -/

theorem issue_ok {s : State} {ok : Bool} (h : ok = true) (f : State → State) : issue s ok f = .next (f s) := by
  unfold issue; rw [h]; rfl

theorem issue_ill {s : State} {ok : Bool} (h : ok = false) (f : State → State) : issue s ok f = .next (takeIll s) := by
  unfold issue; rw [h]; rfl

theorem issueV_goes {s : State} {held : Bool} {rs : List Reg} {vs : List VReg} (h : VecGoes s held rs vs)
    (f : State → State) : issueV s held rs vs f = .next (f s) := by
  unfold issueV issue
  have hh : (!held || (my s).vceil != 0) = true := by
    cases held
    · rfl
    · simpa using h.held rfl
  rw [h.regs, h.task, hh]
  simp [h.landed]

theorem issueV_ill {s : State} {held : Bool} {rs : List Reg} (vs : List VReg) (h : vecIllegal s held rs)
    (f : State → State) : issueV s held rs vs f = .next (takeIll s) := by
  unfold issueV
  apply issue_ill
  rcases h with h | h | ⟨h1, h2⟩
  · simp [h]
  · simp [h]
  · simp [h1, h2]

theorem VecGoes.onRet {s : State} {held : Bool} {rs : List Reg} {vs : List VReg} (h : VecGoes s held rs vs) :
    onRet s = false := by
  have := h.regs
  unfold admits at this
  cases hr : Machine.onRet s
  · rfl
  · simp [hr] at this

/-! ### Floating words -/

theorem enabledOf_addFlags (x : Thread) (fl : Flags) : enabledOf (addFlags x fl) = enabledOf x := by
  have h : ∀ i, 8 ≤ i → (BitVec.ofNat 64 (fl % 32)).toNat.testBit i = false := by
    intro i hi
    rw [BitVec.toNat_ofNat]
    apply Nat.testBit_lt_two_pow
    exact lt_of_lt_of_le (lt_of_le_of_lt (Nat.mod_le _ _) (Nat.mod_lt _ (by decide)))
      (le_trans (by decide : 32 ≤ 2 ^ 8) (Nat.pow_le_pow_right (by decide) hi))
  unfold enabledOf addFlags field
  apply Nat.eq_of_testBit_eq
  intro i
  simp only [Nat.testBit_mod_two_pow, Nat.testBit_div_two_pow, BitVec.toNat_or, Nat.testBit_or]
  rw [h _ (by omega), Bool.or_false]

@[simp] theorem my_modMy (s : State) (f : Thread → Thread) : my (modMy s f) = f (my s) := by
  unfold my modMy
  have : me (modThr s (me s) f) = me s := by unfold me; cases h : s.cur <;> simp [h, modThr, setThr, ret]
  rw [this]; simp

/-- A floating word whose raised flags are not enabled writes its result (R71). -/
theorem floatEnd_quiet {s : State} {fl : Flags} (h : enabledOf (my s) &&& fl = 0) (f : State → State) :
    floatEnd s fl f = f (modMy s (addFlags · fl)) := by
  unfold floatEnd; simp [enabledOf_addFlags, h]

/-- A floating word that raises an enabled flag takes FPE (R72). -/
theorem floatEnd_traps {s : State} {fl : Flags} (h : enabledOf (my s) &&& fl ≠ 0) (f : State → State) :
    floatEnd s fl f = takeTrap (modMy s (addFlags · fl)) 0xA fl 0 := by
  unfold floatEnd; simp [enabledOf_addFlags, h]

/-! ### Scalar loads and stores -/

theorem CachesOnly.readRef {s u : State} (h : CachesOnly s u) (a : Agent) (d : Nat) (r : ByteRef) :
    readRef u a d r = readRef s a d r := by
  have hd : ∀ n i j, decodeElem u (getLoc u a d) n i j = decodeElem s (getLoc s a d) n i j := by
    intro n i j
    have : getLoc u a d = getLoc s a d := by funext loc; exact h.sameBytes.bytesKept a d loc
    rw [this, h.rest]; rfl
  unfold Machine.readRef
  split
  · exact h.sameBytes.bytesKept a d _
  · rw [hd]
  · rfl

/-- Bytes read at once by an access that nothing holds: the readers of queued writes aside, `fin` gets the bytes, what an access
through a non-native view brings home being there. -/
theorem readBytes_goes {s : State} {acq : Bool} {refs : List ByteRef}
    (hm : acq = true → missOf s s.cur (acqLocs s refs) = none) (hc : (underRefs s refs).any (poisoned s) = false)
    (fin : State → List Byte → State) :
    ∃ u, CachesOnly (served s refs) u ∧ readBytes s acq refs fin = fin u (bytesOf (served s refs) refs) := by
  have hm' : (if acq then missOf s s.cur (acqLocs s refs) else none) = none := by
    cases acq
    · rfl
    · exact hm rfl
  have hn := noteReads_caches (served s refs) (served s refs).cur (underRefs s refs)
  unfold readBytes
  simp only [hm', hc, Bool.false_eq_true, if_false]
  cases acq
  · exact ⟨_, hn, rfl⟩
  · exact ⟨_, hn.trans (joinOps_caches ..), rfl⟩

/-- A load that nothing stops: caches and the readers of queued writes aside, its value's bytes are all it needs. -/
theorem loadPath_goes {s : State} {sg : BitVec 3} {off : Word} {n al : Nat} {acq : Bool} (h : LoadGoes s sg off n al acq)
    (hint : Hint) (wait : Nat → List Nat → Bool → Await) (fin : State → List Byte → State) :
    let b := served s (accessRefs s sg off n)
    ∃ u, CachesOnly b u ∧ loadPath s sg off n al acq hint wait fin = fin u (bytesOf b (accessRefs s sg off n)) := by
  obtain ⟨u, hu, e⟩ := readBytes_goes h.mark h.clean
    (fun u bytes => fin (touchLoad u u.cur (accessRefs s sg off n) hint) bytes)
  refine ⟨_, hu.trans (touchLoad_lines u u.cur (accessRefs s sg off n) hint).cachesOnly, ?_⟩
  rw [← e]
  have e1 := h.order
  have e3 := h.answered
  unfold accessRefs at e1
  unfold loadPath
  rw [h.cause]
  simp only [e1, e3, Bool.false_eq_true, if_false]
  rfl

theorem loadPath_cause {s : State} {sg : BitVec 3} {off : Word} {n al : Nat} {c : Cause} (h : scalarCause s sg off n 0 al = some c)
    (acq : Bool) (hint : Hint) (wait : Nat → List Nat → Bool → Await) (fin : State → List Byte → State) :
    loadPath s sg off n al acq hint wait fin = takeCause s c := by
  unfold loadPath; rw [h]

theorem storePath_goes {s : State} {sg : BitVec 3} {off : Word} {al : Nat} {bytes : List Byte}
    (h : scalarCause s sg off bytes.length 1 al = none) (rel : Option Nat) (hint : Hint) (fin : State → State) :
    storePath s sg off al bytes rel hint fin = fin (acceptStore s s.cur ((accessRefs s sg off bytes.length).zip bytes) rel hint) := by
  unfold storePath; rw [h]; rfl

theorem storePath_cause {s : State} {sg : BitVec 3} {off : Word} {al : Nat} {bytes : List Byte} {c : Cause}
    (h : scalarCause s sg off bytes.length 1 al = some c) (rel : Option Nat) (hint : Hint) (fin : State → State) :
    storePath s sg off al bytes rel hint fin = takeCause s c := by
  unfold storePath; rw [h]

/-! ### Vector stores -/

/-- Pieces accepted and the word gone on: the store is accepted. -/
theorem advance_acceptPieces {s v : State} (hv : Written s v []) (ps : List PStore) (h : ∀ p ∈ ps, p.agent = s.cur) :
    StoreAccepted s (acceptPieces v s.cur ps) (advance (acceptPieces v s.cur ps)) (ps.flatMap (·.locs)) := by
  obtain ⟨h1, h2, h3⟩ := acceptPieces_spec v s.cur ps h
  have hu := hv.homes.trans h1
  have hk := (sameBytes_of (t := advance (acceptPieces v s.cur ps)) (s := acceptPieces v s.cur ps)
    (by simp) (by simp) (by simp)).bytesKept
  have hd : myDie s = dieOfCore (agentCore s.cur) := by
    unfold myDie myCore agentCore; cases s.cur <;> rfl
  refine ⟨advance_retired hu.sameAgents, hu, fun loc hl => ?_, fun a k loc ha hl hp hs => ?_⟩
  · rw [hk, hd, h2 loc (hl.imp id hv.spares), hv.getLoc]
  · rw [hk, h3 a k loc ha hl (hv.spares hp) (by rw [hv.stores]; exact hs), hv.getLoc]

end Sys2Proof.Machine
end

