-- ==== Sys2Proof/Laws/PerInstr.lean ====
section
/-! SUPPORT. What holds of every instruction as syntax, by one lemma per constructor: reading its word gives the instruction
back. -/

namespace Sys2Proof.Laws

set_option Elab.async false

/-- The word of the instruction, where it has one of its own, is read as the instruction. -/
def Enc.Statement (i : Instr) : Prop := ∀ w, encode i = some w → readWord w = some i

theorem Enc.add (d a b : Reg) : Enc.Statement (.add d a b) := by intro w h; cases h; rw [readWord_wS]; simp [readS, readInt]
theorem Enc.sub (d a b : Reg) : Enc.Statement (.sub d a b) := by intro w h; cases h; rw [readWord_wS]; simp [readS, readInt]
theorem Enc.mul (d a b : Reg) : Enc.Statement (.mul d a b) := by intro w h; cases h; rw [readWord_wS]; simp [readS, readInt]
theorem Enc.mulh (d a b : Reg) : Enc.Statement (.mulh d a b) := by intro w h; cases h; rw [readWord_wS]; simp [readS, readInt]
theorem Enc.mulhn (d a b : Reg) : Enc.Statement (.mulhn d a b) := by intro w h; cases h; rw [readWord_wS]; simp [readS, readInt]
theorem Enc.div (d a b : Reg) : Enc.Statement (.div d a b) := by intro w h; cases h; rw [readWord_wS]; simp [readS, readInt]
theorem Enc.divn (d a b : Reg) : Enc.Statement (.divn d a b) := by intro w h; cases h; rw [readWord_wS]; simp [readS, readInt]
theorem Enc.rem (d a b : Reg) : Enc.Statement (.rem d a b) := by intro w h; cases h; rw [readWord_wS]; simp [readS, readInt]
theorem Enc.remn (d a b : Reg) : Enc.Statement (.remn d a b) := by intro w h; cases h; rw [readWord_wS]; simp [readS, readInt]
theorem Enc.and (d a b : Reg) : Enc.Statement (.and d a b) := by intro w h; cases h; rw [readWord_wS]; simp [readS, readInt]
theorem Enc.or (d a b : Reg) : Enc.Statement (.or d a b) := by intro w h; cases h; rw [readWord_wS]; simp [readS, readInt]
theorem Enc.xor (d a b : Reg) : Enc.Statement (.xor d a b) := by intro w h; cases h; rw [readWord_wS]; simp [readS, readInt]
theorem Enc.andn (d a b : Reg) : Enc.Statement (.andn d a b) := by intro w h; cases h; rw [readWord_wS]; simp [readS, readInt]
theorem Enc.sll (d a b : Reg) : Enc.Statement (.sll d a b) := by intro w h; cases h; rw [readWord_wS]; simp [readS, readInt]
theorem Enc.srl (d a b : Reg) : Enc.Statement (.srl d a b) := by intro w h; cases h; rw [readWord_wS]; simp [readS, readInt]
theorem Enc.sra (d a b : Reg) : Enc.Statement (.sra d a b) := by intro w h; cases h; rw [readWord_wS]; simp [readS, readInt]
theorem Enc.rol (d a b : Reg) : Enc.Statement (.rol d a b) := by intro w h; cases h; rw [readWord_wS]; simp [readS, readInt]
theorem Enc.ror (d a b : Reg) : Enc.Statement (.ror d a b) := by intro w h; cases h; rw [readWord_wS]; simp [readS, readInt]
theorem Enc.min (d a b : Reg) : Enc.Statement (.min d a b) := by intro w h; cases h; rw [readWord_wS]; simp [readS, readInt]
theorem Enc.max (d a b : Reg) : Enc.Statement (.max d a b) := by intro w h; cases h; rw [readWord_wS]; simp [readS, readInt]
theorem Enc.minn (d a b : Reg) : Enc.Statement (.minn d a b) := by intro w h; cases h; rw [readWord_wS]; simp [readS, readInt]
theorem Enc.maxn (d a b : Reg) : Enc.Statement (.maxn d a b) := by intro w h; cases h; rw [readWord_wS]; simp [readS, readInt]
theorem Enc.cmpeq (d a b : Reg) : Enc.Statement (.cmpeq d a b) := by intro w h; cases h; rw [readWord_wS]; simp [readS, readInt]
theorem Enc.cmpne (d a b : Reg) : Enc.Statement (.cmpne d a b) := by intro w h; cases h; rw [readWord_wS]; simp [readS, readInt]
theorem Enc.cmplt (d a b : Reg) : Enc.Statement (.cmplt d a b) := by intro w h; cases h; rw [readWord_wS]; simp [readS, readInt]
theorem Enc.cmpltn (d a b : Reg) : Enc.Statement (.cmpltn d a b) := by intro w h; cases h; rw [readWord_wS]; simp [readS, readInt]
theorem Enc.csel (d a b c : Reg) : Enc.Statement (.csel d a b c) := by intro w h; cases h; rw [readWord_wS]; simp [readS, readInt]
theorem Enc.clz (d a : Reg) : Enc.Statement (.clz d a) := by intro w h; cases h; rw [readWord_wS]; simp [readS, readInt]
theorem Enc.ctz (d a : Reg) : Enc.Statement (.ctz d a) := by intro w h; cases h; rw [readWord_wS]; simp [readS, readInt]
theorem Enc.popc (d a : Reg) : Enc.Statement (.popc d a) := by intro w h; cases h; rw [readWord_wS]; simp [readS, readInt]
theorem Enc.bswap (d a : Reg) : Enc.Statement (.bswap d a) := by intro w h; cases h; rw [readWord_wS]; simp [readS, readInt]
theorem Enc.bext (d a b c : Reg) : Enc.Statement (.bext d a b c) := by intro w h; cases h; rw [readWord_wS]; simp [readS, readInt]
theorem Enc.bdep (d a b c : Reg) : Enc.Statement (.bdep d a b c) := by intro w h; cases h; rw [readWord_wS]; simp [readS, readInt]
theorem Enc.addi (d a : Reg) (imm : BitVec 12) : Enc.Statement (.addi d a imm) := by intro w h; cases h; rw [readWord_wS]; simp [readS, readInt]
theorem Enc.muli (d a : Reg) (imm : BitVec 12) : Enc.Statement (.muli d a imm) := by intro w h; cases h; rw [readWord_wS]; simp [readS, readInt]
theorem Enc.andi (d a : Reg) (imm : BitVec 12) : Enc.Statement (.andi d a imm) := by intro w h; cases h; rw [readWord_wS]; simp [readS, readInt]
theorem Enc.ori (d a : Reg) (imm : BitVec 12) : Enc.Statement (.ori d a imm) := by intro w h; cases h; rw [readWord_wS]; simp [readS, readInt]
theorem Enc.xori (d a : Reg) (imm : BitVec 12) : Enc.Statement (.xori d a imm) := by intro w h; cases h; rw [readWord_wS]; simp [readS, readInt]
theorem Enc.slli (d a : Reg) (sh : BitVec 6) : Enc.Statement (.slli d a sh) := by intro w h; cases h; rw [readWord_wS]; simp [readS, readInt]
theorem Enc.srli (d a : Reg) (sh : BitVec 6) : Enc.Statement (.srli d a sh) := by intro w h; cases h; rw [readWord_wS]; simp [readS, readInt]
theorem Enc.srai (d a : Reg) (sh : BitVec 6) : Enc.Statement (.srai d a sh) := by intro w h; cases h; rw [readWord_wS]; simp [readS, readInt]
theorem Enc.roli (d a : Reg) (sh : BitVec 6) : Enc.Statement (.roli d a sh) := by intro w h; cases h; rw [readWord_wS]; simp [readS, readInt]
theorem Enc.cmpeqi (d a : Reg) (imm : BitVec 12) : Enc.Statement (.cmpeqi d a imm) := by intro w h; cases h; rw [readWord_wS]; simp [readS, readInt]
theorem Enc.cmplti (d a : Reg) (imm : BitVec 12) : Enc.Statement (.cmplti d a imm) := by intro w h; cases h; rw [readWord_wS]; simp [readS, readInt]
theorem Enc.cmpltni (d a : Reg) (imm : BitVec 12) : Enc.Statement (.cmpltni d a imm) := by intro w h; cases h; rw [readWord_wS]; simp [readS, readInt]
theorem Enc.mini (d a : Reg) (imm : BitVec 12) : Enc.Statement (.mini d a imm) := by intro w h; cases h; rw [readWord_wS]; simp [readS, readInt]
theorem Enc.maxi (d a : Reg) (imm : BitVec 12) : Enc.Statement (.maxi d a imm) := by intro w h; cases h; rw [readWord_wS]; simp [readS, readInt]
theorem Enc.lih (d : Reg) (imm : BitVec 20) : Enc.Statement (.lih d imm) := by intro w h; cases h; rw [readWord_wS]; simp [readS, readInt]
theorem Enc.lipc (d : Reg) (imm : BitVec 20) : Enc.Statement (.lipc d imm) := by intro w h; cases h; rw [readWord_wS]; simp [readS, readInt]
theorem Enc.ldi32 (d : Reg) (imm : BitVec 32) : Enc.Statement (.ldi32 d imm) := by intro w h; cases h; rw [readWord_wL]; simp [readL, wL_bit32]
theorem Enc.ldi32N (d : Reg) (imm : BitVec 32) : Enc.Statement (.ldi32N d imm) := by intro w h; cases h; rw [readWord_wL]; simp [readL, wL_bit32]
theorem Enc.fadd (d a b : Reg) (ft : SFmt) (rnd : BitVec 3) : Enc.Statement (.fadd d a b ft rnd) := by intro w h; cases h; rw [readWord_wS]; simp [readS, readFloat]
theorem Enc.fsub (d a b : Reg) (ft : SFmt) (rnd : BitVec 3) : Enc.Statement (.fsub d a b ft rnd) := by intro w h; cases h; rw [readWord_wS]; simp [readS, readFloat]
theorem Enc.fmul (d a b : Reg) (ft : SFmt) (rnd : BitVec 3) : Enc.Statement (.fmul d a b ft rnd) := by intro w h; cases h; rw [readWord_wS]; simp [readS, readFloat]
theorem Enc.fdiv (d a b : Reg) (ft : SFmt) (rnd : BitVec 3) : Enc.Statement (.fdiv d a b ft rnd) := by intro w h; cases h; rw [readWord_wS]; simp [readS, readFloat]
theorem Enc.fsqrt (d a : Reg) (ft : SFmt) (rnd : BitVec 3) : Enc.Statement (.fsqrt d a ft rnd) := by intro w h; cases h; rw [readWord_wS]; simp [readS, readFloat]
theorem Enc.fmadd (d a b c : Reg) (ft : SFmt) (rnd : BitVec 3) : Enc.Statement (.fmadd d a b c ft rnd) := by intro w h; cases h; rw [readWord_wS]; simp [readS, readFloat]
theorem Enc.fmsub (d a b c : Reg) (ft : SFmt) (rnd : BitVec 3) : Enc.Statement (.fmsub d a b c ft rnd) := by intro w h; cases h; rw [readWord_wS]; simp [readS, readFloat]
theorem Enc.fmin (d a b : Reg) (ft : SFmt) : Enc.Statement (.fmin d a b ft) := by intro w h; cases h; rw [readWord_wS]; simp [readS, readFloat]
theorem Enc.fmax (d a b : Reg) (ft : SFmt) : Enc.Statement (.fmax d a b ft) := by intro w h; cases h; rw [readWord_wS]; simp [readS, readFloat]
theorem Enc.fcmpeq (d a b : Reg) (ft : SFmt) : Enc.Statement (.fcmpeq d a b ft) := by intro w h; cases h; rw [readWord_wS]; simp [readS, readFloat]
theorem Enc.fcmplt (d a b : Reg) (ft : SFmt) : Enc.Statement (.fcmplt d a b ft) := by intro w h; cases h; rw [readWord_wS]; simp [readS, readFloat]
theorem Enc.fcmple (d a b : Reg) (ft : SFmt) : Enc.Statement (.fcmple d a b ft) := by intro w h; cases h; rw [readWord_wS]; simp [readS, readFloat]
theorem Enc.fclass (d a : Reg) (ft : SFmt) : Enc.Statement (.fclass d a ft) := by intro w h; cases h; rw [readWord_wS]; simp [readS, readFloat]
theorem Enc.fcvtfi (d a : Reg) (ft : SFmt) (rnd : BitVec 3) : Enc.Statement (.fcvtfi d a ft rnd) := by intro w h; cases h; rw [readWord_wS]; simp [readS, readFloat]
theorem Enc.fcvtfn (d a : Reg) (ft : SFmt) (rnd : BitVec 3) : Enc.Statement (.fcvtfn d a ft rnd) := by intro w h; cases h; rw [readWord_wS]; simp [readS, readFloat]
theorem Enc.fcvtif (d a : Reg) (g : SFmt) (rnd : BitVec 3) : Enc.Statement (.fcvtif d a g rnd) := by intro w h; cases h; rw [readWord_wS]; simp [readS, readFloat]
theorem Enc.fcvtnf (d a : Reg) (g : SFmt) (rnd : BitVec 3) : Enc.Statement (.fcvtnf d a g rnd) := by intro w h; cases h; rw [readWord_wS]; simp [readS, readFloat]
theorem Enc.fcvtff (d a : Reg) (ft g : SFmt) (rnd : BitVec 3) : Enc.Statement (.fcvtff d a ft g rnd) := by intro w h; cases h; rw [readWord_wS]; simp [readS, readFloat]
theorem Enc.beq (d a : Reg) (off : BitVec 20) : Enc.Statement (.beq d a off) := by intro w h; cases h; rw [readWord_wS]; simp [readS, readFlow]
theorem Enc.bne (d a : Reg) (off : BitVec 20) : Enc.Statement (.bne d a off) := by intro w h; cases h; rw [readWord_wS]; simp [readS, readFlow]
theorem Enc.blt (d a : Reg) (off : BitVec 20) : Enc.Statement (.blt d a off) := by intro w h; cases h; rw [readWord_wS]; simp [readS, readFlow]
theorem Enc.bge (d a : Reg) (off : BitVec 20) : Enc.Statement (.bge d a off) := by intro w h; cases h; rw [readWord_wS]; simp [readS, readFlow]
theorem Enc.bltn (d a : Reg) (off : BitVec 20) : Enc.Statement (.bltn d a off) := by intro w h; cases h; rw [readWord_wS]; simp [readS, readFlow]
theorem Enc.bgen (d a : Reg) (off : BitVec 20) : Enc.Statement (.bgen d a off) := by intro w h; cases h; rw [readWord_wS]; simp [readS, readFlow]
theorem Enc.jmp (off : BitVec 32) : Enc.Statement (.jmp off) := by intro w h; cases h; rw [readWord_wL]; simp [readL]
theorem Enc.call (d : Reg) (off : BitVec 32) : Enc.Statement (.call d off) := by intro w h; cases h; rw [readWord_wL]; simp [readL]
theorem Enc.callr (d a : Reg) : Enc.Statement (.callr d a) := by intro w h; cases h; rw [readWord_wS]; simp [readS, readFlow]
theorem Enc.ret (a : Reg) : Enc.Statement (.ret a) := by intro w h; cases h; rw [readWord_wS]; simp [readS, readFlow]
theorem Enc.jmpr (a : Reg) : Enc.Statement (.jmpr a) := by intro w h; cases h; rw [readWord_wS]; simp [readS, readFlow]
theorem Enc.ldB (d : Reg) (m : MemRef) : Enc.Statement (.ldB d m) := by intro w h; cases h; rw [readWord_wS]; simp [readS, readFlow]
theorem Enc.ldH (d : Reg) (m : MemRef) : Enc.Statement (.ldH d m) := by intro w h; cases h; rw [readWord_wS]; simp [readS, readFlow]
theorem Enc.ldW (d : Reg) (m : MemRef) : Enc.Statement (.ldW d m) := by intro w h; cases h; rw [readWord_wS]; simp [readS, readFlow]
theorem Enc.ldD (d : Reg) (m : MemRef) : Enc.Statement (.ldD d m) := by intro w h; cases h; rw [readWord_wS]; simp [readS, readFlow]
theorem Enc.ldBN (d : Reg) (m : MemRef) : Enc.Statement (.ldBN d m) := by intro w h; cases h; rw [readWord_wS]; simp [readS, readFlow]
theorem Enc.ldHN (d : Reg) (m : MemRef) : Enc.Statement (.ldHN d m) := by intro w h; cases h; rw [readWord_wS]; simp [readS, readFlow]
theorem Enc.ldWN (d : Reg) (m : MemRef) : Enc.Statement (.ldWN d m) := by intro w h; cases h; rw [readWord_wS]; simp [readS, readFlow]
theorem Enc.stB (d : Reg) (m : MemRef) : Enc.Statement (.stB d m) := by intro w h; cases h; rw [readWord_wS]; simp [readS, readFlow]
theorem Enc.stH (d : Reg) (m : MemRef) : Enc.Statement (.stH d m) := by intro w h; cases h; rw [readWord_wS]; simp [readS, readFlow]
theorem Enc.stW (d : Reg) (m : MemRef) : Enc.Statement (.stW d m) := by intro w h; cases h; rw [readWord_wS]; simp [readS, readFlow]
theorem Enc.stD (d : Reg) (m : MemRef) : Enc.Statement (.stD d m) := by intro w h; cases h; rw [readWord_wS]; simp [readS, readFlow]
theorem Enc.pref (m : MemRef) : Enc.Statement (.pref m) := by intro w h; cases h; rw [readWord_wS]; simp [readS, readFlow]
theorem Enc.amoadd (d b : Reg) (m : AmoRef) : Enc.Statement (.amoadd d b m) := by intro w h; cases h; rw [readWord_wS]; simp [readS, readFlow]
theorem Enc.amoand (d b : Reg) (m : AmoRef) : Enc.Statement (.amoand d b m) := by intro w h; cases h; rw [readWord_wS]; simp [readS, readFlow]
theorem Enc.amoor (d b : Reg) (m : AmoRef) : Enc.Statement (.amoor d b m) := by intro w h; cases h; rw [readWord_wS]; simp [readS, readFlow]
theorem Enc.amoxor (d b : Reg) (m : AmoRef) : Enc.Statement (.amoxor d b m) := by intro w h; cases h; rw [readWord_wS]; simp [readS, readFlow]
theorem Enc.amomin (d b : Reg) (m : AmoRef) : Enc.Statement (.amomin d b m) := by intro w h; cases h; rw [readWord_wS]; simp [readS, readFlow]
theorem Enc.amomax (d b : Reg) (m : AmoRef) : Enc.Statement (.amomax d b m) := by intro w h; cases h; rw [readWord_wS]; simp [readS, readFlow]
theorem Enc.amominn (d b : Reg) (m : AmoRef) : Enc.Statement (.amominn d b m) := by intro w h; cases h; rw [readWord_wS]; simp [readS, readFlow]
theorem Enc.amomaxn (d b : Reg) (m : AmoRef) : Enc.Statement (.amomaxn d b m) := by intro w h; cases h; rw [readWord_wS]; simp [readS, readFlow]
theorem Enc.amoswap (d b : Reg) (m : AmoRef) : Enc.Statement (.amoswap d b m) := by intro w h; cases h; rw [readWord_wS]; simp [readS, readFlow]
theorem Enc.cas (d b : Reg) (m : AmoRef) : Enc.Statement (.cas d b m) := by intro w h; cases h; rw [readWord_wS]; simp [readS, readFlow]
theorem Enc.fence (sc : Scope) : Enc.Statement (.fence sc) := by intro w h; cases h; rw [readWord_wS]; simp [readS, readFlow]
theorem Enc.trap (a : Reg) (code : BitVec 12) : Enc.Statement (.trap a code) := by intro w h; cases h; rw [readWord_wS]; simp [readS, readSys]
theorem Enc.ecall (code : BitVec 12) : Enc.Statement (.ecall code) := by intro w h; cases h; rw [readWord_wS]; simp [readS, readSys]
theorem Enc.brk (code : BitVec 12) : Enc.Statement (.brk code) := by intro w h; cases h; rw [readWord_wS]; simp [readS, readSys]
theorem Enc.csrr (d : Reg) (csr : BitVec 12) : Enc.Statement (.csrr d csr) := by intro w h; cases h; rw [readWord_wS]; simp [readS, readSys]
theorem Enc.csrw (csr : BitVec 12) (a : Reg) : Enc.Statement (.csrw csr a) := by intro w h; cases h; rw [readWord_wS]; simp [readS, readSys]
theorem Enc.csrs (csr : BitVec 12) (a : Reg) : Enc.Statement (.csrs csr a) := by intro w h; cases h; rw [readWord_wS]; simp [readS, readSys]
theorem Enc.csrc (csr : BitVec 12) (a : Reg) : Enc.Statement (.csrc csr a) := by intro w h; cases h; rw [readWord_wS]; simp [readS, readSys]
theorem Enc.time (d : Reg) : Enc.Statement (.time d) := by intro w h; cases h; rw [readWord_wS]; simp [readS, readSys]
theorem Enc.repart (d a : Reg) : Enc.Statement (.repart d a) := by intro w h; cases h; rw [readWord_wS]; simp [readS, readSys]
theorem Enc.rmver (d : Reg) : Enc.Statement (.rmver d) := by intro w h; cases h; rw [readWord_wS]; simp [readS, readSys]
theorem Enc.rmack (d a : Reg) : Enc.Statement (.rmack d a) := by intro w h; cases h; rw [readWord_wS]; simp [readS, readSys]
theorem Enc.rmread (d a b : Reg) : Enc.Statement (.rmread d a b) := by intro w h; cases h; rw [readWord_wS]; simp [readS, readSys]
theorem Enc.tracemark (a : Reg) (code : BitVec 12) : Enc.Statement (.tracemark a code) := by intro w h; cases h; rw [readWord_wS]; simp [readS, readSys]
theorem Enc.segld (g : BitVec 3) (m : MemRef) : Enc.Statement (.segld g m) := by intro w h; cases h; rw [readWord_wS]; simp [readS, readSys]
theorem Enc.segst (g : BitVec 3) (m : MemRef) : Enc.Statement (.segst g m) := by intro w h; cases h; rw [readWord_wS]; simp [readS, readSys]
theorem Enc.pginv (a b : Reg) : Enc.Statement (.pginv a b) := by intro w h; cases h; rw [readWord_wS]; simp [readS, readSys]
theorem Enc.cflush (m : MemRef) : Enc.Statement (.cflush m) := by intro w h; cases h; rw [readWord_wS]; simp [readS, readSys]
theorem Enc.cinv (m : MemRef) : Enc.Statement (.cinv m) := by intro w h; cases h; rw [readWord_wS]; simp [readS, readSys]
theorem Enc.cclean (m : MemRef) : Enc.Statement (.cclean m) := by intro w h; cases h; rw [readWord_wS]; simp [readS, readSys]
theorem Enc.retain (d a b c : Reg) : Enc.Statement (.retain d a b c) := by intro w h; cases h; rw [readWord_wS]; simp [readS, readSys]
theorem Enc.unpin (d a : Reg) : Enc.Statement (.unpin d a) := by intro w h; cases h; rw [readWord_wS]; simp [readS, readSys]
theorem Enc.viewaddr (d a b : Reg) (g : BitVec 3) : Enc.Statement (.viewaddr d a b g) := by intro w h; cases h; rw [readWord_wS]; simp [readS, readSys]
theorem Enc.reginfo (d a b : Reg) (g : BitVec 3) : Enc.Statement (.reginfo d a b g) := by intro w h; cases h; rw [readWord_wS]; simp [readS, readSys]
theorem Enc.atomlog (d a b : Reg) : Enc.Statement (.atomlog d a b) := by intro w h; cases h; rw [readWord_wS]; simp [readS, readSys]
theorem Enc.arrlog (d a b : Reg) : Enc.Statement (.arrlog d a b) := by intro w h; cases h; rw [readWord_wS]; simp [readS, readSys]
theorem Enc.rload (d a b : Reg) : Enc.Statement (.rload d a b) := by intro w h; cases h; rw [readWord_wS]; simp [readS, readEngine]
theorem Enc.rstart (d a b c : Reg) : Enc.Statement (.rstart d a b c) := by intro w h; cases h; rw [readWord_wS]; simp [readS, readEngine]
theorem Enc.rstop (d a : Reg) : Enc.Statement (.rstop d a) := by intro w h; cases h; rw [readWord_wS]; simp [readS, readEngine]
theorem Enc.rstat (d a b : Reg) : Enc.Statement (.rstat d a b) := by intro w h; cases h; rw [readWord_wS]; simp [readS, readEngine]
theorem Enc.cpy (o : CopyRef) (h : Handle) : Enc.Statement (.cpy o h) := by intro w h; cases h; rw [readWord_wS]; simp [readS, readEngine]
theorem Enc.cpy2 (o : CopyRef) (h : Handle) : Enc.Statement (.cpy2 o h) := by intro w h; cases h; rw [readWord_wS]; simp [readS, readEngine]
theorem Enc.cpyt (o : CopyRef) (h : Handle) : Enc.Statement (.cpyt o h) := by intro w h; cases h; rw [readWord_wS]; simp [readS, readEngine]
theorem Enc.cpyg (o : CopyRef) (h : Handle) : Enc.Statement (.cpyg o h) := by intro w h; cases h; rw [readWord_wS]; simp [readS, readEngine]
theorem Enc.cpyres (h : Handle) : Enc.Statement (.cpyres h) := by intro w h; cases h; rw [readWord_wS]; simp [readS, readEngine]
theorem Enc.waitany (d a : Reg) : Enc.Statement (.waitany d a) := by intro w h; cases h; rw [readWord_wS]; simp [readS, readEngine]
theorem Enc.waitall (d a : Reg) : Enc.Statement (.waitall d a) := by intro w h; cases h; rw [readWord_wS]; simp [readS, readEngine]
theorem Enc.ffready (d a : Reg) : Enc.Statement (.ffready d a) := by intro w h; cases h; rw [readWord_wS]; simp [readS, readEngine]
theorem Enc.tagclr (a : Reg) : Enc.Statement (.tagclr a) := by intro w h; cases h; rw [readWord_wS]; simp [readS, readEngine]
theorem Enc.tagstat (d a b : Reg) : Enc.Statement (.tagstat d a b) := by intro w h; cases h; rw [readWord_wS]; simp [readS, readEngine]
theorem Enc.sbinit (a b : Reg) : Enc.Statement (.sbinit a b) := by intro w h; cases h; rw [readWord_wS]; simp [readS, readEngine]
theorem Enc.sbexp (a b : Reg) : Enc.Statement (.sbexp a b) := by intro w h; cases h; rw [readWord_wS]; simp [readS, readEngine]
theorem Enc.sbwait (d a b : Reg) : Enc.Statement (.sbwait d a b) := by intro w h; cases h; rw [readWord_wS]; simp [readS, readEngine]
theorem Enc.sbrel (a : Reg) : Enc.Statement (.sbrel a) := by intro w h; cases h; rw [readWord_wS]; simp [readS, readEngine]
theorem Enc.sbstat (d a b : Reg) : Enc.Statement (.sbstat d a b) := by intro w h; cases h; rw [readWord_wS]; simp [readS, readEngine]
theorem Enc.spawn (d a b c : Reg) : Enc.Statement (.spawn d a b c) := by intro w h; cases h; rw [readWord_wS]; simp [readS, readEngine]
theorem Enc.retj (a : Reg) : Enc.Statement (.retj a) := by intro w h; cases h; rw [readWord_wS]; simp [readS, readEngine]
theorem Enc.join (d a : Reg) : Enc.Statement (.join d a) := by intro w h; cases h; rw [readWord_wS]; simp [readS, readEngine]
theorem Enc.joinq (d a : Reg) : Enc.Statement (.joinq d a) := by intro w h; cases h; rw [readWord_wS]; simp [readS, readEngine]
theorem Enc.glaunch (d a : Reg) (g : BitVec 3) : Enc.Statement (.glaunch d a g) := by intro w h; cases h; rw [readWord_wS]; simp [readS, readEngine]
theorem Enc.gbar (d : Reg) : Enc.Statement (.gbar d) := by intro w h; cases h; rw [readWord_wS]; simp [readS, readEngine]
theorem Enc.depinit (d a : Reg) (g : BitVec 3) : Enc.Statement (.depinit d a g) := by intro w h; cases h; rw [readWord_wS]; simp [readS, readEngine]
theorem Enc.deparm (d a b : Reg) (g : BitVec 3) : Enc.Statement (.deparm d a b g) := by intro w h; cases h; rw [readWord_wS]; simp [readS, readEngine]
theorem Enc.depsig (d a : Reg) (g : BitVec 3) : Enc.Statement (.depsig d a g) := by intro w h; cases h; rw [readWord_wS]; simp [readS, readEngine]
theorem Enc.taskid (d a : Reg) : Enc.Statement (.taskid d a) := by intro w h; cases h; rw [readWord_wS]; simp [readS, readEngine]
theorem Enc.slotinfo (d a : Reg) : Enc.Statement (.slotinfo d a) := by intro w h; cases h; rw [readWord_wS]; simp [readS, readEngine]
theorem Enc.wdset (d a : Reg) : Enc.Statement (.wdset d a) := by intro w h; cases h; rw [readWord_wS]; simp [readS, readEngine]
theorem Enc.dualWord (hi lo : Half) : Enc.Statement (.dualWord hi lo) := by intro w h; cases h; exact readWord_dual hi lo
theorem Enc.smloop (c : Reg) (mask : BitVec 8) (off : BitVec 32) : Enc.Statement (.smloop c mask off) := by intro w h; cases h; rw [readWord_wL]; simp [readL, wL_mask]
theorem Enc.vreq (f : VFields) : Enc.Statement (.vreq f) := by intro w h; cases h; rw [readWord_wV]; rfl
theorem Enc.vsetl (f : VFields) : Enc.Statement (.vsetl f) := by intro w h; cases h; rw [readWord_wV]; rfl
theorem Enc.vyield (f : VFields) : Enc.Statement (.vyield f) := by intro w h; cases h; rw [readWord_wV]; rfl
theorem Enc.qset (f : VFields) : Enc.Statement (.qset f) := by intro w h; cases h; rw [readWord_wV]; rfl
theorem Enc.carryr (f : VFields) : Enc.Statement (.carryr f) := by intro w h; cases h; rw [readWord_wV]; rfl
theorem Enc.carryw (f : VFields) : Enc.Statement (.carryw f) := by intro w h; cases h; rw [readWord_wV]; rfl
theorem Enc.vld (f : VFields) : Enc.Statement (.vld f) := by intro w h; cases h; rw [readWord_wV]; rfl
theorem Enc.vlds (f : VFields) : Enc.Statement (.vlds f) := by intro w h; cases h; rw [readWord_wV]; rfl
theorem Enc.vldx (f : VFields) : Enc.Statement (.vldx f) := by intro w h; cases h; rw [readWord_wV]; rfl
theorem Enc.vldq (f : VFields) : Enc.Statement (.vldq f) := by intro w h; cases h; rw [readWord_wV]; rfl
theorem Enc.vldl (f : VFields) : Enc.Statement (.vldl f) := by intro w h; cases h; rw [readWord_wV]; rfl
theorem Enc.vst (f : VFields) : Enc.Statement (.vst f) := by intro w h; cases h; rw [readWord_wV]; rfl
theorem Enc.vsts (f : VFields) : Enc.Statement (.vsts f) := by intro w h; cases h; rw [readWord_wV]; rfl
theorem Enc.vstx (f : VFields) : Enc.Statement (.vstx f) := by intro w h; cases h; rw [readWord_wV]; rfl
theorem Enc.vstq (f : VFields) : Enc.Statement (.vstq f) := by intro w h; cases h; rw [readWord_wV]; rfl
theorem Enc.vstl (f : VFields) : Enc.Statement (.vstl f) := by intro w h; cases h; rw [readWord_wV]; rfl
theorem Enc.vldsx (f : VFields) : Enc.Statement (.vldsx f) := by intro w h; cases h; rw [readWord_wV]; rfl
theorem Enc.vstsx (f : VFields) : Enc.Statement (.vstsx f) := by intro w h; cases h; rw [readWord_wV]; rfl
theorem Enc.vamo (f : VFields) : Enc.Statement (.vamo f) := by intro w h; cases h; rw [readWord_wV]; rfl
theorem Enc.vfadd (f : VFields) : Enc.Statement (.vfadd f) := by intro w h; cases h; rw [readWord_wV]; rfl
theorem Enc.vfsub (f : VFields) : Enc.Statement (.vfsub f) := by intro w h; cases h; rw [readWord_wV]; rfl
theorem Enc.vfmul (f : VFields) : Enc.Statement (.vfmul f) := by intro w h; cases h; rw [readWord_wV]; rfl
theorem Enc.vfdiv (f : VFields) : Enc.Statement (.vfdiv f) := by intro w h; cases h; rw [readWord_wV]; rfl
theorem Enc.vfsqrt (f : VFields) : Enc.Statement (.vfsqrt f) := by intro w h; cases h; rw [readWord_wV]; rfl
theorem Enc.vfma (f : VFields) : Enc.Statement (.vfma f) := by intro w h; cases h; rw [readWord_wV]; rfl
theorem Enc.vfms (f : VFields) : Enc.Statement (.vfms f) := by intro w h; cases h; rw [readWord_wV]; rfl
theorem Enc.vfmin (f : VFields) : Enc.Statement (.vfmin f) := by intro w h; cases h; rw [readWord_wV]; rfl
theorem Enc.vfmax (f : VFields) : Enc.Statement (.vfmax f) := by intro w h; cases h; rw [readWord_wV]; rfl
theorem Enc.vfcmpeq (f : VFields) : Enc.Statement (.vfcmpeq f) := by intro w h; cases h; rw [readWord_wV]; rfl
theorem Enc.vfcmplt (f : VFields) : Enc.Statement (.vfcmplt f) := by intro w h; cases h; rw [readWord_wV]; rfl
theorem Enc.vfcmple (f : VFields) : Enc.Statement (.vfcmple f) := by intro w h; cases h; rw [readWord_wV]; rfl
theorem Enc.vadd (f : VFields) : Enc.Statement (.vadd f) := by intro w h; cases h; rw [readWord_wV]; rfl
theorem Enc.vsub (f : VFields) : Enc.Statement (.vsub f) := by intro w h; cases h; rw [readWord_wV]; rfl
theorem Enc.vmul (f : VFields) : Enc.Statement (.vmul f) := by intro w h; cases h; rw [readWord_wV]; rfl
theorem Enc.vmulh (f : VFields) : Enc.Statement (.vmulh f) := by intro w h; cases h; rw [readWord_wV]; rfl
theorem Enc.vdiv (f : VFields) : Enc.Statement (.vdiv f) := by intro w h; cases h; rw [readWord_wV]; rfl
theorem Enc.vrem (f : VFields) : Enc.Statement (.vrem f) := by intro w h; cases h; rw [readWord_wV]; rfl
theorem Enc.vand (f : VFields) : Enc.Statement (.vand f) := by intro w h; cases h; rw [readWord_wV]; rfl
theorem Enc.vor (f : VFields) : Enc.Statement (.vor f) := by intro w h; cases h; rw [readWord_wV]; rfl
theorem Enc.vxor (f : VFields) : Enc.Statement (.vxor f) := by intro w h; cases h; rw [readWord_wV]; rfl
theorem Enc.vsll (f : VFields) : Enc.Statement (.vsll f) := by intro w h; cases h; rw [readWord_wV]; rfl
theorem Enc.vsrl (f : VFields) : Enc.Statement (.vsrl f) := by intro w h; cases h; rw [readWord_wV]; rfl
theorem Enc.vsra (f : VFields) : Enc.Statement (.vsra f) := by intro w h; cases h; rw [readWord_wV]; rfl
theorem Enc.vmin (f : VFields) : Enc.Statement (.vmin f) := by intro w h; cases h; rw [readWord_wV]; rfl
theorem Enc.vmax (f : VFields) : Enc.Statement (.vmax f) := by intro w h; cases h; rw [readWord_wV]; rfl
theorem Enc.vcmpeq (f : VFields) : Enc.Statement (.vcmpeq f) := by intro w h; cases h; rw [readWord_wV]; rfl
theorem Enc.vcmplt (f : VFields) : Enc.Statement (.vcmplt f) := by intro w h; cases h; rw [readWord_wV]; rfl
theorem Enc.vadds (f : VFields) : Enc.Statement (.vadds f) := by intro w h; cases h; rw [readWord_wV]; rfl
theorem Enc.vsubs (f : VFields) : Enc.Statement (.vsubs f) := by intro w h; cases h; rw [readWord_wV]; rfl
theorem Enc.vcvt (f : VFields) : Enc.Statement (.vcvt f) := by intro w h; cases h; rw [readWord_wV]; rfl
theorem Enc.vperm (f : VFields) : Enc.Statement (.vperm f) := by intro w h; cases h; rw [readWord_wV]; rfl
theorem Enc.vslideup (f : VFields) : Enc.Statement (.vslideup f) := by intro w h; cases h; rw [readWord_wV]; rfl
theorem Enc.vslidedn (f : VFields) : Enc.Statement (.vslidedn f) := by intro w h; cases h; rw [readWord_wV]; rfl
theorem Enc.vcompress (f : VFields) : Enc.Statement (.vcompress f) := by intro w h; cases h; rw [readWord_wV]; rfl
theorem Enc.vbcast (f : VFields) : Enc.Statement (.vbcast f) := by intro w h; cases h; rw [readWord_wV]; rfl
theorem Enc.vext (f : VFields) : Enc.Statement (.vext f) := by intro w h; cases h; rw [readWord_wV]; rfl
theorem Enc.vredsum (f : VFields) : Enc.Statement (.vredsum f) := by intro w h; cases h; rw [readWord_wV]; rfl
theorem Enc.vredmin (f : VFields) : Enc.Statement (.vredmin f) := by intro w h; cases h; rw [readWord_wV]; rfl
theorem Enc.vredmax (f : VFields) : Enc.Statement (.vredmax f) := by intro w h; cases h; rw [readWord_wV]; rfl
theorem Enc.vfredsum (f : VFields) : Enc.Statement (.vfredsum f) := by intro w h; cases h; rw [readWord_wV]; rfl
theorem Enc.vfredmin (f : VFields) : Enc.Statement (.vfredmin f) := by intro w h; cases h; rw [readWord_wV]; rfl
theorem Enc.vfredmax (f : VFields) : Enc.Statement (.vfredmax f) := by intro w h; cases h; rw [readWord_wV]; rfl
theorem Enc.vrecur (f : VFields) : Enc.Statement (.vrecur f) := by intro w h; cases h; rw [readWord_wV]; rfl
theorem Enc.mand (f : VFields) : Enc.Statement (.mand f) := by intro w h; cases h; rw [readWord_wV]; rfl
theorem Enc.mor (f : VFields) : Enc.Statement (.mor f) := by intro w h; cases h; rw [readWord_wV]; rfl
theorem Enc.mxor (f : VFields) : Enc.Statement (.mxor f) := by intro w h; cases h; rw [readWord_wV]; rfl
theorem Enc.mnot (f : VFields) : Enc.Statement (.mnot f) := by intro w h; cases h; rw [readWord_wV]; rfl
theorem Enc.mpopc (f : VFields) : Enc.Statement (.mpopc f) := by intro w h; cases h; rw [readWord_wV]; rfl
theorem Enc.mfirst (f : VFields) : Enc.Statement (.mfirst f) := by intro w h; cases h; rw [readWord_wV]; rfl
theorem Enc.mmode (f : VFields) : Enc.Statement (.mmode f) := by intro w h; cases h; rw [readWord_wV]; rfl
theorem Enc.tshape (f : VFields) : Enc.Statement (.tshape f) := by intro w h; cases h; rw [readWord_wV]; rfl
theorem Enc.mzero (f : VFields) : Enc.Statement (.mzero f) := by intro w h; cases h; rw [readWord_wV]; rfl
theorem Enc.mopa (f : VFields) : Enc.Statement (.mopa f) := by intro w h; cases h; rw [readWord_wV]; rfl
theorem Enc.mopa8 (f : VFields) : Enc.Statement (.mopa8 f) := by intro w h; cases h; rw [readWord_wV]; rfl
theorem Enc.mops (f : VFields) : Enc.Statement (.mops f) := by intro w h; cases h; rw [readWord_wV]; rfl
theorem Enc.mvacc (f : VFields) : Enc.Statement (.mvacc f) := by intro w h; cases h; rw [readWord_wV]; rfl
theorem Enc.mvcol (f : VFields) : Enc.Statement (.mvcol f) := by intro w h; cases h; rw [readWord_wV]; rfl
theorem Enc.mldacc (f : VFields) : Enc.Statement (.mldacc f) := by intro w h; cases h; rw [readWord_wV]; rfl
theorem Enc.mspill (f : VFields) : Enc.Statement (.mspill f) := by intro w h; cases h; rw [readWord_wV]; rfl
theorem Enc.mfill (f : VFields) : Enc.Statement (.mfill f) := by intro w h; cases h; rw [readWord_wV]; rfl
theorem Enc.vmaxexp (f : VFields) : Enc.Statement (.vmaxexp f) := by intro w h; cases h; rw [readWord_wV]; rfl
theorem Enc.vquant (f : VFields) : Enc.Statement (.vquant f) := by intro w h; cases h; rw [readWord_wV]; rfl
theorem Enc.vdeq (f : VFields) : Enc.Statement (.vdeq f) := by intro w h; cases h; rw [readWord_wV]; rfl
theorem Enc.eret : Enc.Statement .eret := by intro w h; cases h; rw [readWord_wS]; simp [readS, readSys]
theorem Enc.yield : Enc.Statement .yield := by intro w h; cases h; rw [readWord_wS]; simp [readS, readSys]
theorem Enc.tend : Enc.Statement .tend := by intro w h; cases h; rw [readWord_wS]; simp [readS, readSys]
theorem Enc.wdkick : Enc.Statement .wdkick := by intro w h; cases h; rw [readWord_wS]; simp [readS, readEngine]
theorem Enc.hint : Enc.Statement .hint := by intro w h; cases h; rfl
theorem Enc.vrel : Enc.Statement .vrel := by intro w h; cases h; rw [readWord_wV]; rfl
theorem Enc.mexit : Enc.Statement .mexit := by intro w h; cases h; rw [readWord_wV]; rfl
theorem Enc.vseed : Enc.Statement .vseed := fun _ h => nomatch h
theorem Enc.saacq : Enc.Statement .saacq := fun _ h => nomatch h
theorem Enc.sarel : Enc.Statement .sarel := by intro w h; cases h; rw [readWord_wV]; rfl
theorem Enc.saload : Enc.Statement .saload := fun _ h => nomatch h
theorem Enc.saseed : Enc.Statement .saseed := fun _ h => nomatch h
theorem Enc.sabeta : Enc.Statement .sabeta := fun _ h => nomatch h
theorem Enc.saclamp : Enc.Statement .saclamp := fun _ h => nomatch h
theorem Enc.sasweep : Enc.Statement .sasweep := fun _ h => nomatch h
theorem Enc.saread : Enc.Statement .saread := fun _ h => nomatch h
theorem Enc.sacount : Enc.Statement .sacount := fun _ h => nomatch h
theorem Enc.sawait : Enc.Statement .sawait := fun _ h => nomatch h
theorem Enc.saloadRun : Enc.Statement .saloadRun := fun _ h => nomatch h
theorem Enc.saseedRun : Enc.Statement .saseedRun := fun _ h => nomatch h
theorem Enc.sabetaRun : Enc.Statement .sabetaRun := fun _ h => nomatch h
theorem Enc.sweep : Enc.Statement .sweep := fun _ h => nomatch h
theorem Enc.saRegisterReturn : Enc.Statement .saRegisterReturn := fun _ h => nomatch h
theorem Enc.entropyRetest : Enc.Statement .entropyRetest := fun _ h => nomatch h
theorem Enc.launchRecord : Enc.Statement .launchRecord := fun _ h => nomatch h
theorem Enc.portWriteOther : Enc.Statement .portWriteOther := fun _ h => nomatch h
theorem Enc.gangStart : Enc.Statement .gangStart := fun _ h => nomatch h
theorem Enc.tileDraw : Enc.Statement .tileDraw := fun _ h => nomatch h
theorem Enc.dispatch : Enc.Statement .dispatch := fun _ h => nomatch h
theorem Enc.taskStart : Enc.Statement .taskStart := fun _ h => nomatch h
theorem Enc.steal : Enc.Statement .steal := fun _ h => nomatch h
theorem Enc.gangEnd : Enc.Statement .gangEnd := fun _ h => nomatch h
theorem Enc.wdog : Enc.Statement .wdog := fun _ h => nomatch h
theorem Enc.quantumExpiry : Enc.Statement .quantumExpiry := fun _ h => nomatch h
theorem Enc.slotTableWrite : Enc.Statement .slotTableWrite := fun _ h => nomatch h
theorem Enc.unbind : Enc.Statement .unbind := fun _ h => nomatch h
theorem Enc.unbindComplete : Enc.Statement .unbindComplete := fun _ h => nomatch h
theorem Enc.resume : Enc.Statement .resume := fun _ h => nomatch h
theorem Enc.lscfgWrite : Enc.Statement .lscfgWrite := fun _ h => nomatch h
theorem Enc.victWrite : Enc.Statement .victWrite := fun _ h => nomatch h
theorem Enc.loadResponse : Enc.Statement .loadResponse := fun _ h => nomatch h
theorem Enc.atomicResponse : Enc.Statement .atomicResponse := fun _ h => nomatch h
theorem Enc.vectorLoadArrival : Enc.Statement .vectorLoadArrival := fun _ h => nomatch h
theorem Enc.matrixWordComplete : Enc.Statement .matrixWordComplete := fun _ h => nomatch h
theorem Enc.chunkDone : Enc.Statement .chunkDone := fun _ h => nomatch h
theorem Enc.chunkFault : Enc.Statement .chunkFault := fun _ h => nomatch h
theorem Enc.pageReport : Enc.Statement .pageReport := fun _ h => nomatch h
theorem Enc.wakeMessage : Enc.Statement .wakeMessage := fun _ h => nomatch h
theorem Enc.scopeMissMessage : Enc.Statement .scopeMissMessage := fun _ h => nomatch h
theorem Enc.acquireReissue : Enc.Statement .acquireReissue := fun _ h => nomatch h
theorem Enc.grantWake : Enc.Statement .grantWake := fun _ h => nomatch h
theorem Enc.sliceMove : Enc.Statement .sliceMove := fun _ h => nomatch h
theorem Enc.laneLost : Enc.Statement .laneLost := fun _ h => nomatch h
theorem Enc.slicePlaced : Enc.Statement .slicePlaced := fun _ h => nomatch h
theorem Enc.unitError : Enc.Statement .unitError := fun _ h => nomatch h
theorem Enc.mapChange : Enc.Statement .mapChange := fun _ h => nomatch h
theorem Enc.ackDeadline : Enc.Statement .ackDeadline := fun _ h => nomatch h
theorem Enc.dumpBuild : Enc.Statement .dumpBuild := fun _ h => nomatch h
theorem Enc.hostWriteQueueDrain : Enc.Statement .hostWriteQueueDrain := fun _ h => nomatch h
theorem Enc.hostWrite : Enc.Statement .hostWrite := fun _ h => nomatch h
theorem Enc.hostRead : Enc.Statement .hostRead := fun _ h => nomatch h
theorem Enc.peerAccess : Enc.Statement .peerAccess := fun _ h => nomatch h
theorem Enc.ctxnew : Enc.Statement .ctxnew := fun _ h => nomatch h
theorem Enc.ctxdel : Enc.Statement .ctxdel := fun _ h => nomatch h
theorem Enc.load : Enc.Statement .load := fun _ h => nomatch h
theorem Enc.map : Enc.Statement .map := fun _ h => nomatch h
theorem Enc.unmap : Enc.Statement .unmap := fun _ h => nomatch h
theorem Enc.region : Enc.Statement .region := fun _ h => nomatch h
theorem Enc.regfree : Enc.Statement .regfree := fun _ h => nomatch h
theorem Enc.mailboxRmack : Enc.Statement .mailboxRmack := fun _ h => nomatch h
theorem Enc.mapread : Enc.Statement .mapread := fun _ h => nomatch h
theorem Enc.logctl : Enc.Statement .logctl := fun _ h => nomatch h
theorem Enc.dumpfree : Enc.Statement .dumpfree := fun _ h => nomatch h
theorem Enc.trace : Enc.Statement .trace := fun _ h => nomatch h
theorem Enc.errs : Enc.Statement .errs := fun _ h => nomatch h
theorem Enc.attest : Enc.Statement .attest := fun _ h => nomatch h
theorem Enc.mailboxOverflow : Enc.Statement .mailboxOverflow := fun _ h => nomatch h
theorem Enc.tenantEnable : Enc.Statement .tenantEnable := fun _ h => nomatch h
theorem Enc.dumpWindowSize : Enc.Statement .dumpWindowSize := fun _ h => nomatch h
theorem Enc.allowanceSet : Enc.Statement .allowanceSet := fun _ h => nomatch h
theorem Enc.firmwareUpdate : Enc.Statement .firmwareUpdate := fun _ h => nomatch h
theorem Enc.operatorKey : Enc.Statement .operatorKey := fun _ h => nomatch h
theorem Enc.signedStateRead : Enc.Statement .signedStateRead := fun _ h => nomatch h
theorem Enc.powerGood : Enc.Statement .powerGood := fun _ h => nomatch h
theorem Enc.clockStep : Enc.Statement .clockStep := fun _ h => nomatch h
theorem Enc.powerSample : Enc.Statement .powerSample := fun _ h => nomatch h
theorem Enc.temperatureRefresh : Enc.Statement .temperatureRefresh := fun _ h => nomatch h
theorem Enc.thermalShutdown : Enc.Statement .thermalShutdown := fun _ h => nomatch h
theorem Enc.linkRetrain : Enc.Statement .linkRetrain := fun _ h => nomatch h
theorem Enc.storeAcknowledged : Enc.Statement .storeAcknowledged := fun _ h => nomatch h
theorem Enc.pginvComplete : Enc.Statement .pginvComplete := fun _ h => nomatch h
theorem Enc.packlinkLinkUp : Enc.Statement .packlinkLinkUp := fun _ h => nomatch h

end Sys2Proof.Laws
end

