-- ==== Sys2Proof/Tests/Slice0.lean ====
section
/-! SUPPORT. Tests: words of the manual's tables decode to what they stand for, each check of well-formedness refuses an
ill-formed term, single steps on small states, and a witness for the hypotheses of each statement. -/

namespace Sys2Proof.Machine

set_option Elab.async false

/-! ### Decoding (Tables 2.10, 5.13, 7.7, 8.8, 9.8, 10.9, 11.10, 12.14, 13.5) -/

/-- Fields all zero. -/
def vz : VFields := vFields 0

theorem test_decode_add : decode 0x0011461C00000000 = .ok (.add 5 6 7) := by decide +kernel
theorem test_decode_ld_acq : decode 0x0E224601C4010000 =
    .ok (.ldW 9 { seg := 3, a := 6, disp := 16, order := .acq, scope := .k, hint := .none }) := by decide +kernel
theorem test_decode_dual : decode 0x420800042028CC10 = .ok (.dualWord (.imm .addi 2 8) (.load .d 5 6 3 16)) := by decide +kernel
theorem test_decode_dual_regs : decode 0x4165B00082D36001 = .ok (.dualWord (.reg 1 25 27 0) (.reg 1 26 27 0)) := by
  decide +kernel
theorem test_decode_vfma : decode 0x825214C78A800000 =
    .ok (.vfma { vz with vd := 4, va := 5, vb := 6, vc := 7, ca := true, guard := 2, pol := true, fmt := 8 }) := by
  decide +kernel
theorem test_decode_smloop : decode 0xC41C0030FFFFFFFD = .ok (.smloop 7 3 (-3)) := by decide +kernel
theorem test_decode_nop : decode 0x3C00000000000000 = .ok .hint := by decide +kernel
theorem test_decode_cas : decode 0x10914113CE000000 =
    .ok (.cas 5 4 { seg := 7, a := 1, order := .ar, scope := .k, wide := true }) := by decide +kernel
theorem test_decode_bne : decode 0x0C114403FFFF0000 = .ok (.bne 5 4 (-4)) := by decide +kernel
theorem test_decode_csrr : decode 0x1441800040800000 = .ok (.csrr 6 0x102) := by decide +kernel
theorem test_decode_fmadd : decode 0x0850831051000000 = .ok (.fmadd 2 3 4 5 .f32 2) := by decide +kernel
theorem test_decode_call : decode 0xC27C000000000028 = .ok (.call 31 40) := by decide +kernel
theorem test_decode_qset : decode 0x805000000080430A = .ok (.qset { vz with fmt := 8, s := 8, ext := 0x30A }) := by decide +kernel
theorem test_decode_vreq : decode 0x801000000000580B = .ok (.vreq { vz with s := 11, ext := 11 }) := by decide +kernel
theorem test_decode_vldq : decode 0x8130800000800300 = .ok (.vldq { vz with vd := 1, fmt := 8, ext := 0x300 }) := by decide +kernel
theorem test_decode_vstq : decode 0x8180040200800300 = .ok (.vstq { vz with va := 1, vc := 2, fmt := 8, ext := 0x300 }) := by
  decide +kernel
theorem test_decode_mopa : decode 0x9040002000900000 = .ok (.mopa { vz with vb := 1, fmt := 9 }) := by decide +kernel
theorem test_decode_tshape : decode 0x9020000000909011 = .ok (.tshape { vz with fmt := 9, s := 18, ext := 17 }) := by decide +kernel
theorem test_decode_cpy : decode 0x1C420211B0600000 =
    .ok (.cpy { dseg := 3, aseg := 3, d := 8, a := 2, b := 4 } { n := 1, barrier := true }) := by decide +kernel
theorem test_decode_rstart : decode 0x1C13400040000000 = .ok (.rstart 13 0 0 4) := by decide +kernel
theorem test_decode_sbwait : decode 0x1D03C93800000000 = .ok (.sbwait 15 9 14) := by decide +kernel
theorem test_decode_cflush : decode 0x18000601C0040000 =
    .ok (.cflush { seg := 3, a := 6, disp := 64, order := .plain, scope := .k, hint := .none }) := by decide +kernel
theorem test_decode_unpin : decode 0x18430A0000000000 = .ok (.unpin 12 10) := by decide +kernel
theorem test_decode_spawn : decode 0x2002C024A0000000 = .ok (.spawn 11 0 9 10) := by decide +kernel
theorem test_decode_deparm : decode 0x2062073430000000 = .ok (.deparm 8 7 13 3) := by decide +kernel
theorem test_decode_saacq : decode 0x9800000000003800 = .ok .saacq ∧ (vFields 0x9800000000003800).s = 7 := by decide +kernel
theorem test_decode_sacount : decode 0x9882000000600000 = .ok .sacount ∧ (vFields 0x9882000000600000).vd = 4 ∧
    (vFields 0x9882000000600000).fmt = 6 := by decide +kernel
theorem test_decode_rmread : decode 0x14E1C82400000000 = .ok (.rmread 7 8 9) := by decide +kernel

/-- R47: a reserved field that is not zero. -/
theorem test_decode_reserved : decode 0x0011461C00000001 = .error .fieldNotZero := by decide +kernel
/-- A decoder of the host's numbering: a class S word of 64 bits. -/
theorem test_table_word : decodeTableWord 64 0x0011461C00000000 = some (.add 5 6 7) := by decide +kernel
/-- A word that the sampling encoder gives back. -/
theorem test_fields_round : encodeWith .sacount (vFields 0x9882000000600000) = some 0x9882000000600000 := by decide +kernel

/-! ### Ill-formed terms -/

/-- The memory operand that the tests vary. -/
def mz : MemRef := { seg := 1, a := 0, disp := 0, order := .plain, scope := .t, hint := .none }
/-- The atomic's operand that the tests vary. -/
def az : AmoRef := { seg := 1, a := 0, order := .plain, scope := .t, wide := true }

theorem test_wf_rounding : (Instr.fadd 1 2 3 .f32 5).wf = false ∧ (Instr.fadd 1 2 3 .f32 4).wf = false ∧
    (Instr.fadd 1 2 3 .f32 7).wf = true := by decide +kernel
theorem test_wf_load_order : (Instr.ldD 1 { mz with order := .rel }).wf = false ∧
    (Instr.stD 1 { mz with order := .acq }).wf = false ∧ (Instr.ldD 1 { mz with order := .acq, scope := .k }).wf = true := by
  decide +kernel
theorem test_wf_plain_scope : (Instr.ldD 1 { mz with scope := .k }).wf = false ∧
    (Instr.amoadd 1 2 { az with scope := .k }).wf = false := by decide +kernel
theorem test_wf_pref : (Instr.pref { mz with order := .acq, scope := .c }).wf = false := by decide +kernel
theorem test_wf_cflush : (Instr.cflush { mz with hint := .ef }).wf = false ∧ (Instr.cflush { mz with scope := .k }).wf = true := by
  decide +kernel
theorem test_wf_smloop : (Instr.smloop 1 0x1F 0).wf = false ∧ (Instr.smloop 1 0x0F 0).wf = true := by decide +kernel
/-- R33: two branches, two accesses, one bank written twice, three reads of one bank. -/
theorem test_wf_dual_pairs : (Instr.dualWord (.branch .beq 1 2 0) .nop).wf = false ∧
    (Instr.dualWord (.load .d 1 2 1 0) (.load .d 2 2 1 0)).wf = false ∧
    (Instr.dualWord (.imm .addi 2 1) (.imm .addi 4 1)).wf = false ∧
    (Instr.dualWord (.reg 1 1 3 0) (.reg 1 2 5 0)).wf = false ∧
    (Instr.dualWord (.imm .addi 2 1) (.imm .addi 3 1)).wf = true := by decide +kernel
theorem test_wf_half : (Instr.dualWord (.reg 0x20 1 2 0) .nop).wf = false ∧ (Instr.dualWord (.reg 1 1 2 3) .nop).wf = false ∧
    (Instr.dualWord (.imm .slli 1 64) .nop).wf = false := by decide +kernel
theorem test_wf_format : (Instr.vadd { vz with fmt := 8 }).wf = false ∧ (Instr.vadd { vz with fmt := 3 }).wf = true := by
  decide +kernel
theorem test_wf_chain : (Instr.vadd { vz with fmt := 3, cc := true }).wf = false := by decide +kernel
theorem test_wf_guard : (Instr.vadd { vz with fmt := 3, pol := true }).wf = false ∧
    (Instr.vldl { vz with guard := 1 }).wf = false := by decide +kernel
theorem test_wf_scalar_form : (Instr.vadd { vz with fmt := 3, ext := 1, vb := 2 }).wf = false ∧
    (Instr.vadd { vz with fmt := 3, s := 1 }).wf = false := by decide +kernel
theorem test_wf_mask_number : (Instr.mand { vz with vd := 8 }).wf = false ∧ (Instr.mopa8 { vz with fmt := 9, va := 25 }).wf = false := by
  decide +kernel
theorem test_wf_ext : (Instr.vld { vz with fmt := 3, ext := 0xC0 }).wf = false ∧
    (Instr.vrecur { vz with fmt := 8, ext := 4 }).wf = false ∧ (Instr.vcvt { vz with fmt := 8, ext := 0 }).wf = false := by
  decide +kernel
theorem test_wf_rst : (Instr.vcvt { vz with fmt := 9, rnd := 4, ext := 8 }).wf = true ∧
    (Instr.vcvt { vz with fmt := 8, rnd := 4, ext := 9 }).wf = false := by decide +kernel
theorem test_wf_sampling : saOk .sacount { vz with fmt := 6 } = true ∧ saOk .sacount vz = false := by decide +kernel

/-! ### Small states -/

/-- A page of data at CVA 4096, readable and writable, and its segment. -/
def dataSeg : Seg := { base := 4096, limit := 4096, r := true, w := true, x := false, v := false }
/-- The current thread changed. -/
def own (f : Thread → Thread) (s : State) : State := modThr s 0 f
/-- Thread 0 of a machine with one context, a page of code, a page of data in g1, and these scalar registers; nothing is
scheduled. -/
def small (l : List (Reg × Word)) : State :=
  let s := placeWord State.reset 0
  let s : State := { s with
    schedule := [], cur := .thread 0, pt := kset s.pt (4 * 4096 + 8) (ptEntry (17 * 4096) 1 false true true true) }
  l.foldl (fun s p => setReg s p.1 p.2)
    (own (fun x => { x with hart := { x.hart with segs := x.hart.segs.set 1 dataSeg } }) s)
/-- The same with a word where the PC stands. -/
def atWord (w : Word) (l : List (Reg × Word)) : State :=
  let s := small l
  { s with mem := s.mem.setAll ((span (16 * 4096) 8).zip (leBytes 8 w.toNat)) }
/-- Thread 0 holds 16 slots, VL 4 of GVL 4. -/
def strip (s : State) : State :=
  own (fun x => { x with vceil := 16, gvl := 4, vl := 4, rq := 4, slots := List.replicate 16 Slice.zero
                         lanes := [0, 1, 2, 3] }) s
/-- Elements of a vector register. -/
def put (fmt : Nat) (r : VReg) (l : List Nat) (s : State) : State :=
  own (fun x => putElems fmt r x ((List.range l.length).zip l)) s
/-- A gang of edge 2 with MM and MN 2 and MK 1. -/
def ganged (s : State) : State :=
  own (fun x => { x with vceil := 16, gvl := 4, vl := 4, rq := 4, slots := List.replicate 16 Slice.zero, lanes := [0, 1, 2, 3]
                         mvl := 16, mm := 2, mn := 2, mkk := 1
                         acc0 := List.replicate 256 0, acc1 := List.replicate 256 0 }) s
/-- The context changed. -/
def inCtx (f : Ctx → Ctx) (s : State) : State := modCtx s 0 f
/-- The context's slot-table entry changed. -/
def inSlot (f : SlotEntry → SlotEntry) (s : State) : State :=
  modPool s 0 (fun p => { p with slots := p.slots.map (fun q => (q.1, f q.2)) })
/-- The page of data has a kind (Table 4.2). -/
def paged (kind : BitVec 2) (s : State) : State :=
  { s with pt := kset s.pt (4 * 4096 + 8) (ptEntry (17 * 4096) kind false true true true) }
/-- The granule of a location is poisoned. -/
def poisonedAt (loc : Nat) (s : State) : State := { s with poison := [(granule s loc, [0])] }
/-- A message given to the step. -/
def told (m : Msg) (s : State) : State := { s with msg := m }
/-- The word at issue. -/
def withIr (w : Word) (s : State) : State := { s with ir := w }
/-- The next state of a step, or the state at reset where there is none. -/
def after (o : Host.Outcome State Fault Refusal) : State := match o with | .next t => t | _ => State.reset
/-- Retriever 0 runs for thread 0 at offset 0 of a program of one hint. -/
def retriever (l : List (Reg × Word)) : State :=
  let s := small []
  let s := modRet s 0 (fun r => { r with owner := some 0, state := 2, program := [0x3C00000000000000] })
  l.foldl (fun s p => setReg s p.1 p.2) { s with cur := .ret 0 }

/-! ### Single steps -/

/-- Table 2.10's first word carried out: s5 := 3 + 4. -/
theorem test_step_add : reg (after (step { atWord 0x0011461C00000000 [(6, 3), (7, 4)] with
    schedule := [.word (.thread 0) false] })) 5 = 7 := by decide +kernel
/-- R28: a write to s0 is discarded. -/
theorem test_step_s0 : reg (after (exec (.addi 0 0 5) (small []))) 0 = 0 ∧
    pcOf (after (exec (.addi 0 0 5) (small []))) = 8 := by decide +kernel
/-- R57: division by zero gives every bit set, and the most negative number over −1 itself. -/
theorem test_div : reg (after (exec (.div 5 6 7) (small [(6, 9)]))) 5 = BitVec.allOnes 64 ∧
    reg (after (exec (.div 5 6 7) (small [(6, 0x8000000000000000), (7, -1)]))) 5 = 0x8000000000000000 := by decide +kernel
/-- R32: both halves of a D word read before either writes. -/
theorem test_dual : reg (after (exec (.dualWord (.imm .addi 2 1) (.reg 1 3 2 0)) (small [(2, 10), (3, 5)]))) 3 = 15 ∧
    reg (after (exec (.dualWord (.imm .addi 2 1) (.reg 1 3 2 0)) (small [(2, 10), (3, 5)]))) 2 = 11 := by decide +kernel
/-- R137: SRA fills with the sign; shift amounts are taken modulo 64. -/
theorem test_shift : reg (after (exec (.sra 5 6 7) (small [(6, 0x8000000000000000), (7, 65)]))) 5 = 0xC000000000000000 := by
  decide +kernel
/-- R5, R143: bytes are stored little-endian, and a signed load extends. -/
theorem test_store_load :
    let s := after (exec (.stH 6 { mz with disp := 8 }) (small [(6, 0xABCD)]))
    reg (after (exec (.ldB 5 { mz with disp := 9 }) s)) 5 = 0xFFFFFFFFFFFFFFAB ∧
      reg (after (exec (.ldHN 5 { mz with disp := 8 }) s)) 5 = 0xABCD := by decide +kernel
/-- R116: an access at the limit traps, INFO naming g1; without a handler the trap is fatal (Table 5.9). -/
theorem test_limit : ((ctx? (after (exec (.ldB 5 { mz with a := 6 }) (small [(6, 4096)]))) 0).bind (·.frozen)).map (·.cause) =
    some 0x1000000002 := by decide +kernel
/-- R145: AMOMIN compares as signed numbers and gives the old value. -/
theorem test_amomin :
    let s := after (exec (.amomin 5 6 az) (small [(6, -3)]))
    reg s 5 = 0 ∧ getLoc s (.thread 0) 0 (17 * 4096) = 0xFD := by decide +kernel
/-- R142: CALLR with d = a jumps to the old value. -/
theorem test_callr : pcOf (after (exec (.callr 5 5) (small [(5, 64)]))) = 64 ∧
    reg (after (exec (.callr 5 5) (small [(5, 64)]))) 5 = 8 := by decide +kernel
/-- R141: a taken branch adds eight times its offset. -/
theorem test_branch : pcOf (after (exec (.bne 5 4 3) (small [(5, 1)]))) = 24 ∧
    pcOf (after (exec (.bltn 5 4 3) (small [(5, -1), (4, 1)]))) = 8 := by decide +kernel
/-- R61: 1.0 + 1.0 in f32 is 2.0, zero-extended. -/
theorem test_fadd : reg (after (exec (.fadd 5 6 7 .f32 0) (small [(6, 0x3F800000), (7, 0x3F800000)]))) 5 = 0x40000000 := by
  decide +kernel
/-- R72: with DZE set, 1.0 / 0 takes FPE and sets DZ. -/
theorem test_fdiv_fpe : field (thr (after (exec (.fdiv 5 6 7 .f32 0)
    (own (fun x => { x with fcsr := 0x800 }) (small [(6, 0x3F800000)])))) 0).fcsr 0 5 = 8 := by decide +kernel
/-- R170, R212: VADD wraps in its format and leaves elements of inactive slots. -/
theorem test_vadd :
    let s := put 1 2 [200, 1] (put 1 1 [100, 2] (strip (small [])))
    let t := after (exec (.vadd { vz with vd := 3, va := 1, vb := 2, fmt := 1 }) s)
    elem (my t) 3 1 0 = 44 ∧ elem (my t) 3 1 1 = 3 := by decide +kernel
/-- R217: MPOPC counts bits of the strip alone. -/
theorem test_mpopc :
    let s := own (fun x => { x with slots := x.slots.map (fun sl => { sl with m := sl.m.set! 1 1 }) }) (strip (small []))
    reg (after (exec (.mpopc { vz with va := 1, fmt := 3, s := 5 }) s)) 5 = 4 := by decide +kernel
/-- R215: VREDSUM starts from vB[0]. -/
theorem test_vredsum :
    let s := put 3 2 [10] (put 3 1 [1, 2, 3, 4] (strip (small [])))
    elem (my (after (exec (.vredsum { vz with vd := 3, va := 1, vb := 2, fmt := 3 }) s))) 3 3 0 = 20 := by decide +kernel
/-- R228: MOPA on i8 adds the products of a row and a column. -/
theorem test_mopa :
    let s := put 1 2 [5, 7] (put 1 1 [2, 3] (ganged (small [])))
    let t := after (exec (.mopa { vz with va := 1, vb := 2, fmt := 1 }) s)
    (my t).acc0.getD 0 0 = 10 ∧ (my t).acc0.getD 17 0 = 21 ∧ (my t).acc0.getD 2 0 = 0 := by decide +kernel
/-- Table 12.3: SIG at 0 and at its ends. -/
theorem test_sig : sig 0 = 32768 ∧ sig (-128) = 0 ∧ sig 127 + sig (-127) = 65536 := by decide +kernel
/-- R332: SAWAIT with any doubleword but 0 and 1 gives all ones. -/
theorem test_sawait :
    let s := withIr 0x9890000000006000 (modDie (small []) 0 (fun d => { d with sa := { d.sa with owner := some 0 } }))
    pcOf (after (exec .sawait s)) = 8 := by decide +kernel
/-- R313: a counter that is armed and reaches zero fires. -/
theorem test_depsig : (depStep .sig (BitVec.ofNat 64 (2 ^ 63 + 2 ^ 62 + 1)) 0).2.2 = true ∧
    (depStep .sig (BitVec.ofNat 64 (2 ^ 63 + 1)) 0).2.2 = false := by decide +kernel
/-- R246: a Retriever's write goes to its own registers. -/
theorem test_retriever : reg (after (exec (.addi 5 0 7) (retriever []))) 5 = 7 ∧
    (thr (after (exec (.addi 5 0 7) (retriever []))) 0).hart.get 5 = 0 := by decide +kernel
/-- R365: a module without power stops. -/
theorem test_unpowered : step { State.reset with keeper := { Keeper.reset with on := false } } = .fault .unpowered := rfl

/-! ### Witnesses: states and operands that meet the hypotheses of each statement -/

theorem witness_DecodeEncode :
    ((Instr.add 5 6 7).wf = true ∧ encode (.add 5 6 7) = some 0x0011461C00000000) ∧
    ((saOpcode .sacount).isSome = true ∧ saOk .sacount { vz with fmt := 6, vd := 31 } = true ∧
      (encodeWith .sacount { vz with fmt := 6, vd := 31 }).isSome = true) := by decide +kernel

theorem witness_DecodedWordIsEncoding : decode 0x0011461C00000000 = .ok (.add 5 6 7) ∧ Instr.add 5 6 7 ≠ .hint := by
  decide +kernel

/-- A thread at an ADD, scheduled. -/
def readyAdd : State := { atWord 0x0011461C00000000 [(6, 3)] with schedule := [.word (.thread 0) false] }
/-- The same with nothing scheduled. -/
def idleAdd : State := { readyAdd with schedule := [] }

theorem scheduled_turn {s : State} {a : Agent} {d : Bool}
    (h : (s.keeper.on && s.keeper.booted && s.schedule == [.word a d] && runnable { s with schedule := [] } a &&
      !forgoes { s with schedule := [] } a) = true) : TakesTurn s { s with schedule := [] } a d := by
  simp only [Bool.and_eq_true, Bool.not_eq_true', beq_iff_eq] at h
  exact ⟨h.1.1.1.1, h.1.1.1.2, .inl ⟨[], h.1.1.2, rfl, h.1.2, h.2⟩⟩

/-- A trap pending for the thread from its start or resumption. -/
def trapPending (code : Nat) (s : State) : State := own (fun x => { x with pendTrap := some (code, 0, 7) }) s

theorem witness_StepRunsDecoded :
    (∃ (s s0 : State) (t : State), TakesTurn s s0 (.thread 0) false ∧ s.schedule ≠ [] ∧
      let s1 := turnOf s0 (.thread 0) false
      dueTrap s1 = none ∧ fetch s1 = .ok 0x0011461C00000000 ∧ decode 0x0011461C00000000 = .ok (.add 5 6 7) ∧
        exec (.add 5 6 7) { s1 with ir := 0x0011461C00000000 } = .next t) ∧
    (∃ (s s0 : State) (t : State), TakesTurn s s0 (.thread 0) false ∧ s.schedule = [] ∧
      let s1 := turnOf s0 (.thread 0) false
      dueTrap s1 = none ∧ fetch s1 = .ok 0x0011461C00000000 ∧ exec (.add 5 6 7) { s1 with ir := 0x0011461C00000000 } = .next t) ∧
    (∃ (s s0 u : State), TakesTurn s s0 (.thread 0) false ∧ dueTrap (turnOf s0 (.thread 0) false) = some (u, 2, 0, 7)) ∧
    (∃ s : State, s.keeper.on = true ∧ s.keeper.booted = true ∧ s.schedule = [.word (.thread 0) false] ∧
      runnable { s with schedule := [] } (.thread 0) = false) ∧
    (∃ s : State, s.keeper.on = true ∧ s.keeper.booted = true ∧ s.schedule = [.word (.thread 0) false] ∧
      runnable { s with schedule := [] } (.thread 0) = true ∧ hwOf 0 ∈ (core s (coreOf 0)).forgo) ∧
    (∃ s : State, (thr s 0).noPage = none ∧ (ret s 0).noPage = none ∧ (thr s 0).cond ≠ .waiting ∧ (ret s 0).cond ≠ .waiting) ∧
    (∃ s : State, s.cur = .ret 0) ∧
    (∃ s : State, s.cur = .thread 0 ∧ (thr s 0).pendTrap = some (0xB, 0, 7) ∧ privOf (thr s 0) = true) ∧
    (∃ s : State, s.cur = .thread 0 ∧ (thr s 0).pendTrap = some (0xB, 0, 7) ∧ privOf (thr s 0) = false) ∧
    (∃ s : State, s.cur = .thread 0 ∧ (thr s 0).pendTrap = none ∧ (thr s 0).rmsusp = true ∧ privOf (thr s 0) = false ∧
      svcOf (thr s 0) = false) ∧
    (∃ s : State, s.cur = .thread 0 ∧ (thr s 0).pendTrap = none ∧ (thr s 0).rmsusp = true ∧ privOf (thr s 0) = true) ∧
    (∃ (s : State) (x : Ctx), ctx? s 0 = some x ∧ x.tvec = 0 ∧ x.suspended = false) ∧
    (∃ (s : State) (x : Ctx), ctx? s 0 = some x ∧ x.tvec ≠ 0 ∧ x.suspended = true) :=
  ⟨⟨readyAdd, idleAdd, _, scheduled_turn (by decide +kernel), by decide +kernel, by decide +kernel, by decide +kernel, by decide +kernel, rfl⟩,
    ⟨idleAdd, _, _, ⟨by decide +kernel, by decide +kernel, .inr ⟨rfl, rfl, rfl, rfl⟩⟩, rfl, by decide +kernel, by decide +kernel, rfl⟩,
    ⟨trapPending 2 readyAdd, _, _, scheduled_turn (by decide +kernel), rfl⟩,
    ⟨own (fun x => { x with cond := .parkedGrant }) readyAdd, by decide +kernel⟩,
    ⟨modCore readyAdd 0 (fun c => { c with forgo := [0] }), by decide +kernel⟩, ⟨readyAdd, by decide +kernel⟩,
    ⟨retriever [], by decide +kernel⟩, ⟨own (fun x => { x with status := 1 }) (trapPending 0xB (small [])), by decide +kernel⟩,
    ⟨trapPending 0xB (small []), by decide +kernel⟩, ⟨own (fun x => { x with rmsusp := true }) (small []), by decide +kernel⟩,
    ⟨own (fun x => { x with rmsusp := true, status := 1 }) (small []), by decide +kernel⟩, ⟨small [], _, rfl, by decide +kernel⟩,
    ⟨inCtx (fun c => { c with tvec := 64, suspended := true }) (small []), _, rfl, by decide +kernel⟩⟩

/-- A thread at a word, with g0 as given, scheduled. -/
def readyWith (w : Word) (f : Seg → Seg) : State :=
  { own (fun x => { x with hart := { x.hart with segs := x.hart.segs.set 0 (f x.hart.segs[0]) } }) (atWord w []) with
    schedule := [.word (.thread 0) false] }

theorem witness_FetchAndItsCauses :
    (∃ s s0 : State, TakesTurn s s0 (.thread 0) false ∧ dueTrap (turnOf s0 (.thread 0) false) = none ∧
      fetch (turnOf s0 (.thread 0) false) = .ok 1 ∧ decode 1 = .error .noInstruction) ∧
    (∃ s s0 : State, TakesTurn s s0 (.thread 0) false ∧ s.schedule = [] ∧ dueTrap (turnOf s0 (.thread 0) false) = none ∧
      fetch (turnOf s0 (.thread 0) false) = .error (.trap 2 (segvInfo 1 0 3) 0 false)) ∧
    (∃ s : State, s.cur = .thread 0 ∧ segCheck (seg s 0) 0 (pcOf s).toNat 8 3 = none ∧ (pcOf s).toNat % 8 = 0 ∧
      judge s (chkOf s 0 3) (span ((seg s 0).base.toNat + (pcOf s).toNat) 8) = none ∧
      (underRefs s (accessRefs s 0 (pcOf s) 8)).any (poisoned s) = false) ∧
    (∃ s : State, s.cur = .thread 0 ∧ segCheck (seg s 0) 0 (pcOf s).toNat 8 3 = none ∧ (pcOf s).toNat % 8 = 0 ∧
      judge s (chkOf s 0 3) (span ((seg s 0).base.toNat + (pcOf s).toNat) 8) = none ∧
      (underRefs s (accessRefs s 0 (pcOf s) 8)).any (poisoned s) = true) ∧
    (∃ s : State, s.cur = .thread 0 ∧ segCheck (seg s 0) 0 (pcOf s).toNat 8 3 = none ∧ (pcOf s).toNat % 8 ≠ 0) ∧
    (∃ (s : State) (w : Word), s.cur = .ret 0 ∧ (ret s 0).program[(pcOf s).toNat / 8]? = some w) :=
  ⟨⟨readyWith 1 id, _, scheduled_turn (by decide +kernel), by decide +kernel⟩,
    ⟨{ readyWith 1 (fun g => { g with x := false }) with schedule := [] }, _,
      ⟨by decide +kernel, by decide +kernel, .inr ⟨rfl, rfl, rfl, rfl⟩⟩, rfl, by decide +kernel⟩,
    ⟨own (fun x => { x with hart := { x.hart with pc := 4088 } }) (small []), by decide +kernel⟩,
    ⟨poisonedAt (16 * 4096) (small []), by decide +kernel⟩,
    ⟨own (fun x => { x with hart := { x.hart with pc := 4 } }) (small []), by decide +kernel⟩,
    ⟨retriever [], _, by decide +kernel, rfl⟩⟩

theorem witness_StepRunsEngines : events.contains .tileDraw = true ∧
    (∃ s : State, s.schedule = [.event .tileDraw Msg.empty] ∧ s.keeper.on = true ∧ s.keeper.booted = true) ∧
    (∃ s : State, s.schedule = [.event .powerGood Msg.empty] ∧ s.keeper.on = false ∧ events.contains .powerGood = true) ∧
    (∃ s : State, s.keeper.on = true ∧ s.keeper.booted = true ∧ s.schedule = [] ∧ s.owed = [(.tileDraw, Msg.empty)]) ∧
    (∃ s : State, s.keeper.on = true ∧ s.keeper.booted = true ∧ s.schedule = [.elapse 5]) ∧
    (∃ (s : State) (x : Ctx) (y : Gang), ctx? s 0 = some x ∧ kfind x.gangs 1 = some y ∧ frozenCtx s 0 = false ∧ suspendedCtx s 0 = false ∧
      (∃ e, bindingEntry s 0 0 = some e ∧ e.2.ctx = 0) ∧ s.threads.all (fun q => (task s q.2.task).gid != 1) = true ∧ x.saved = []) ∧
    (∃ (s : State) (e : SlotEntry) (r : MapRec), kfind (pool s 0).slots 0 = some e ∧ e.valid = true ∧ e.quantum ≠ 0 ∧ frozenCtx s e.ctx = false ∧
      suspendedCtx s e.ctx = false ∧ mapRec s 12928 = some r) ∧
    (∃ s : State, s.keeper.on = false ∧ s.schedule = [] ∧ ∀ m rest, s.schedule ≠ .event .powerGood m :: rest) ∧
    (∃ s : State, s.keeper.on = false ∧ s.schedule = [.word (.thread 0) true] ∧ ∀ m rest, s.schedule ≠ .event .powerGood m :: rest) ∧
    (∃ s : State, s.keeper.on = true ∧ s.keeper.booted = false ∧ s.schedule = []) ∧
    (∃ s : State, s.keeper.on = true ∧ s.keeper.booted = false ∧ s.schedule = [.event .tileDraw Msg.empty] ∧
      Instr.tileDraw ≠ .powerGood ∧ readsPhysical s.keeper .tileDraw Msg.empty = false) :=
  ⟨by decide +kernel, ⟨{ small [] with schedule := [.event .tileDraw Msg.empty] }, by decide +kernel⟩,
    ⟨{ State.reset with schedule := [.event .powerGood Msg.empty], keeper := { Keeper.reset with on := false } }, by decide +kernel⟩,
    ⟨{ small [] with owed := [(.tileDraw, Msg.empty)] }, by decide +kernel⟩,
    ⟨{ small [] with schedule := [.elapse 5] }, by decide +kernel⟩,
    ⟨inCtx (fun x => { x with gangs := [(1, (Gang.start (List.replicate 8 0) none 0))] }) (small []), _, (Gang.start (List.replicate 8 0) none 0), rfl, by decide +kernel, by decide +kernel,
      by decide +kernel, ⟨_, rfl, by decide +kernel⟩, by decide +kernel, by decide +kernel⟩,
    ⟨inSlot (fun e => { e with dw1 := 1 <<< 32 }) (small []), _, _, rfl, by decide +kernel, by decide +kernel, by decide +kernel,
      by decide +kernel, rfl⟩,
    ⟨{ State.reset with keeper := { Keeper.reset with on := false } }, by decide +kernel, by decide +kernel, by
      intro m rest h; simp [State.reset] at h⟩,
    ⟨{ State.reset with schedule := [.word (.thread 0) true], keeper := { Keeper.reset with on := false } }, by decide +kernel,
      by decide +kernel, by intro m rest h; simp at h⟩,
    ⟨State.reset, by decide +kernel⟩, ⟨{ State.reset with schedule := [.event .tileDraw Msg.empty] }, by decide +kernel⟩⟩

theorem witness_StepKeepsMemoryForm : ∃ s t : State, Inv s ∧ step s = .next t := ⟨readyAdd, _, (by decide +kernel : readyAdd.mem.wf = true), rfl⟩

/-- Thread 16 of core 0, the service context. -/
def inService : State :=
  let s := small []
  { s with threads := kset s.threads 16 { Thread.start with status := 3 }, cur := .thread 16 }

theorem witness_ScalarRegisters :
    (∃ r d : Reg, d ≠ 0 ∧ r ≠ d) ∧ (∃ s : State, s.cur = .ret 0) ∧ (∃ s : State, s.cur = .thread 16 ∧ hwOf 16 = 16) ∧
    (∃ s : State, s.cur = .thread 0 ∧ hwOf 0 ≠ 16 ∧ (core s (coreOf 0)).part = 16) ∧
    (∃ s : State, s.cur = .thread 0 ∧ hwOf 0 ≠ 16 ∧ (core s (coreOf 0)).part ≠ 16) ∧ ∃ s : State, onRet s = true :=
  ⟨⟨31, 63, by decide⟩, ⟨retriever [], by decide +kernel⟩, ⟨inService, by decide +kernel⟩, ⟨small [], by decide +kernel⟩,
    ⟨modCore (small []) 0 (fun c => { c with part := 8 }), by decide +kernel⟩, ⟨retriever [], by decide +kernel⟩⟩

theorem witness_RegisterForms :
    (admits (small []) true [31, 6, 7] = true ∧ admits (small []) true [32, 6, 7] = false) ∧
    (admits (small []) true [0, 31] = true ∧ admits (small []) true [5, 63] = false) ∧
    (admits (retriever []) true [1, 2, 3, 31] = true ∧ admits (retriever []) true [1, 2, 3, 32] = false) := by decide +kernel

theorem witness_ConstantAndReportForms :
    (admits (small []) false [31] = true ∧ admits (retriever []) false [5] = false) ∧
    (admits (small []) false [5, 6, 31] = true ∧ admits (small []) false [5, 6, 32] = false) := by decide +kernel

theorem witness_HintIsNop : let w : Word := 0x3FF123456789ABCD
    w.extractLsb' 62 2 = 0 ∧ 0x3C0 ≤ (w.extractLsb' 52 10).toNat := by decide +kernel

/-- One over zero, with the traps of FCSR as given. -/
def oneOverZero (fcsr : Word) : State := own (fun x => { x with fcsr := fcsr }) (small [(6, 0x3F800000)])

theorem witness_FloatForms :
    (∃ s : State, (admits s false [5, 6, 7] && rndAdmits (my s) 0) = true ∧
      enabledOf (my s) &&& (fdiv fmtF32 (modeOf (rndOf (my s) 0)) (sval .f32 (reg s 6)) (sval .f32 (reg s 7))).2 = 0) ∧
    (∃ s : State, (admits s false [5, 6, 7] && rndAdmits (my s) 0) = true ∧
      enabledOf (my s) &&& (fdiv fmtF32 (modeOf (rndOf (my s) 0)) (sval .f32 (reg s 6)) (sval .f32 (reg s 7))).2 ≠ 0) ∧
    (∃ s : State, (admits s false [5, 6, 7] && rndAdmits (my s) 7) = false) :=
  ⟨⟨oneOverZero 0, by decide +kernel⟩, ⟨oneOverZero 0x800, by decide +kernel⟩, ⟨oneOverZero 0x8000, by decide +kernel⟩⟩

theorem witness_BranchesAndJumps :
    (admits (small []) true [5, 4] = true ∧ admits (small []) true [5, 40] = false) ∧ admits (small []) false [] = true ∧
    (admits (small [(5, 4088)]) true [31, 5] = true ∧ (reg (small [(5, 4088)]) 5).toNat % 8 = 0) ∧
    (admits (small [(5, 4)]) true [31, 5] = true ∧ (reg (small [(5, 4)]) 5).toNat % 8 ≠ 0) := by decide +kernel

/-- A store of the thread's own that pends. -/
def pending (kind : BitVec 2) : State :=
  { small [] with stores := [{ agent := .thread 0, locs := [(17 * 4096, 1)], kind := kind, rel := none, cva := 4096, hint := .none
                               view := false, op := 0, copy := false }] }
/-- A write that waits in its die's host queue, made or read by the agents given. -/
def inHostQueue (agents : List Agent) : State :=
  modDie (small []) 0 (fun d => { d with
    hostq := [{ op := 0, ctx := 0, page := 1, so := false, writer := some (.thread 0), agents := agents, locs := [(2 ^ 46, 1)] }] })
/-- A store of the thread's own, seen within its die alone. -/
def inDie : State :=
  modDie (small []) 0 (fun d => { d with
    uoq := [{ op := 0, ctx := 0, page := 1, so := false, writer := some (.thread 0), agents := [], locs := [(17 * 4096, 1)] }] })
/-- The page of data holds the mark of a release by a thread of core 5 at .t. -/
def markedAt (loc : Nat) (s : State) : State :=
  { s with marks := [(granule s loc, { core := 5, scope := 0, ctx := 0, dw := 0, cva := 4096 })] }
/-- A response is left outstanding. -/
def deferred (s : State) : State := { s with defer := true }
/-- A load that acquires. -/
def mzAcq : MemRef := { mz with order := .acq, scope := .k }
/-- An atomic that acquires. -/
def azAcq : AmoRef := { az with order := .acq, scope := .k }

theorem witness_Loads :
    let off (s : State) : Word := reg s 6 + mz.disp.signExtend 64
    let refs (s : State) : List ByteRef := accessRefs s 1 (off s) 8
    (∃ s : State, admits s true [5, 6] = true ∧ LoadGoes s mz.seg (off s) 8 1 false) ∧
    (∃ s : State, admits s true [5, 6] = true ∧ LoadGoes s mzAcq.seg (off s) 8 8 true) ∧
    (∃ s : State, admits s true [5, 6] = true ∧
      scalarCause s mz.seg (off s) 8 0 1 = some (.trap 2 (segvInfo 0 1 0) 4089 false)) ∧
    (∃ s : State, admits s true [5, 6] = true ∧ scalarCause s mz.seg (off s) 8 0 1 = none ∧
      (refs s).any (fun r => mustWait s s.cur s.stores r.kind false [] none) = true) ∧
    (∃ s : State, admits s true [5, 6] = true ∧ LoadReady s mz.seg (off s) 8 1 ∧ s.defer = true) ∧
    (∃ s : State, admits s true [5, 6] = true ∧ LoadReady s mzAcq.seg (off s) 8 8 ∧ s.defer = false ∧
      ∃ g mk, missOf s s.cur (acqLocs s (refs s)) = some (g, mk)) ∧
    (∃ s : State, admits s true [5, 6] = true ∧ LoadReady s mz.seg (off s) 8 1 ∧ s.defer = false ∧
      (underRefs s (refs s)).any (poisoned s) = true) :=
  ⟨⟨small [(6, 4088)], by decide +kernel, loadGoes_of (by decide +kernel)⟩,
    ⟨small [(6, 4088)], by decide +kernel, loadGoes_of (by decide +kernel)⟩, ⟨small [(6, 4089)], by decide +kernel⟩,
    ⟨paged 0 (pending 0), by decide +kernel⟩,
    ⟨deferred (small []), by decide +kernel, ⟨by decide +kernel, by decide +kernel⟩, rfl⟩,
    ⟨markedAt (17 * 4096) (small []), by decide +kernel, ⟨by decide +kernel, by decide +kernel⟩, rfl, _, _, rfl⟩,
    ⟨poisonedAt (17 * 4096) (small []), by decide +kernel, ⟨by decide +kernel, by decide +kernel⟩, rfl, by decide +kernel⟩⟩

theorem witness_Stores :
    (∃ s : State, admits s true [5, 6] = true ∧
      scalarCause s mz.seg (reg s 6 + mz.disp.signExtend 64) (leBytes 8 (reg s 5).toNat).length 1 1 = none) ∧
    (∃ s : State, admits s true [5, 6] = true ∧
      scalarCause s mz.seg (reg s 6 + mz.disp.signExtend 64) (leBytes 8 (reg s 5).toNat).length 1 1 =
        some (.trap 2 (segvInfo 0 1 1) 4089 false)) :=
  ⟨⟨small [(6, 4088)], by decide +kernel⟩, ⟨small [(6, 4089)], by decide +kernel⟩⟩

/-- The descriptor of dataSeg, or one with a reserved bit, at offset 16 of the page of data. -/
def descriptor (bad : Word) : State :=
  let s := small [(6, 16)]
  { s with mem := s.mem.setAll ((span (17 * 4096 + 16) 16).zip
      (leBytes 8 ((wordsOfSeg dataSeg).1 + bad).toNat ++ leBytes 8 (wordsOfSeg dataSeg).2.toNat)) }

theorem witness_SegmentLoadsAndPrefetch :
    let off (s : State) : Word := reg s 6 + mz.disp.signExtend 64
    let l (s : State) : List Byte := bytesOf s (accessRefs s 1 (off s) 16)
    let at_ (s : State) : ByteRef := byteRef s (myCtx s) ((seg s mz.seg).base.toNat + (reg s mz.a + mz.disp.signExtend 64).toNat)
    (∃ s : State, admits s false [6] = true ∧ LoadGoes s 1 (off s) 16 16 false ∧
      segOfWords (BitVec.ofNat 64 (leNat ((l s).take 8))) (BitVec.ofNat 64 (leNat ((l s).drop 8))) = some dataSeg) ∧
    (∃ s : State, admits s false [6] = true ∧ LoadGoes s 1 (off s) 16 16 false ∧
      segOfWords (BitVec.ofNat 64 (leNat ((l s).take 8))) (BitVec.ofNat 64 (leNat ((l s).drop 8))) = none) ∧
    (∃ s : State, admits s false [6] = true ∧ ∃ c, scalarCause s 1 (off s) 16 0 16 = some c) ∧
    (∃ s : State, admits s false [6] = true ∧ LoadReady s 1 (off s) 16 16 ∧ s.defer = true) ∧
    (∃ s : State, admits s false [6] = true ∧ LoadReady s 1 (off s) 16 16 ∧ s.defer = false ∧
      (underRefs s (accessRefs s 1 (off s) 16)).any (poisoned s) = true) ∧
    (∃ s : State, admits s true [mz.a] = true ∧ ((at_ s).at_.under s).any (poisoned s) = true) ∧
    (∃ s : State, admits s true [mz.a] = true ∧ (scalarCause s mz.seg (reg s mz.a + mz.disp.signExtend 64) 1 0 1).isSome = false ∧
      (at_ s).pa < 2 ^ 47 ∧ ((at_ s).at_.under s).any (poisoned s) = false) :=
  ⟨⟨descriptor 0, by decide +kernel, loadGoes_of (by decide +kernel), by decide +kernel⟩,
    ⟨descriptor 0x8000000000000000, by decide +kernel, loadGoes_of (by decide +kernel), by decide +kernel⟩,
    ⟨small [(6, 8)], by decide +kernel, _, rfl⟩,
    ⟨deferred (descriptor 0), by decide +kernel, ⟨by decide +kernel, by decide +kernel⟩, rfl⟩,
    ⟨poisonedAt (17 * 4096 + 16) (descriptor 0), by decide +kernel, ⟨by decide +kernel, by decide +kernel⟩, rfl, by decide +kernel⟩,
    ⟨poisonedAt (17 * 4096) (small []), by decide +kernel⟩, ⟨small [], by decide +kernel⟩⟩

/-- Every atomic unit is retired. -/
def unitsGone : State :=
  modKeeper (small []) (fun k => { k with map := (span 12304 8).map (fun n => (n, { liveRec 9 0 0 0 with state := 3 })) })

theorem witness_AtomicsAndFences :
    let locs (s : State) : List Nat := (accessRefs s 1 (reg s 0) 8).map (·.loc)
    let first (s : State) : ByteRef := byteRef s (myCtx s) ((seg s 1).base.toNat + (reg s 0).toNat)
    (∃ s : State, admits s true [5, 6, az.a] = true ∧ AtomicGoes s az ∧
      (leNat (bytesOf s (accessRefs s 1 (reg s 0) 8))) = (reg s 5).toNat) ∧
    (∃ s : State, admits s true [5, 6, az.a] = true ∧ AtomicGoes s az ∧
      (leNat (bytesOf s (accessRefs s 1 (reg s 0) 8))) ≠ (reg s 5).toNat) ∧
    (∃ s : State, admits s true [5, 6, az.a] = true ∧ AtomicReady s az ∧ s.defer = true) ∧
    (∃ s : State, admits s true [5, 6, 7] = true ∧ scalarCause s 1 (reg s 7) 8 2 8 = some (.trap 3 256 4 false)) ∧
    (∃ s : State, scalarCause s 1 (reg s 0) 8 2 8 = none ∧ atomicWaits s (first s).kind (locs s) (amoRel az (first s).loc) = true) ∧
    (∃ s : State, scalarCause s 1 (reg s 0) 8 2 8 = none ∧ atomicWaits s (first s).kind (locs s) (amoRel azAcq (first s).loc) = false ∧
      amoAcq azAcq = true ∧ (first s).kind ≠ 2 ∧ ∃ g mk, missOf s s.cur (locs s) = some (g, mk)) ∧
    (∃ s : State, scalarCause s 1 (reg s 0) 8 2 8 = none ∧ atomicWaits s (first s).kind (locs s) (amoRel az (first s).loc) = false ∧
      amoAcq az = false ∧ (locs s).any (poisoned s) = true) ∧
    (∃ s : State, ∀ q ∈ s.dies, (∃ w ∈ q.2.uoq, ∃ p ∈ w.locs, p.1 = 17 * 4096) → q = (0, die s 0)) ∧
    (∃ s : State, offPart (first s).loc = false ∧ inPools (first s).loc = false ∧ unitLive s (12304 + homeOf s (first s).loc) = false) ∧
    (∃ s : State, pendingOf s s.cur = 0 ∧ queued s s.cur = false ∧ inDieOnly s s.cur = false) ∧
    (∃ s : State, Scope.c ≠ .t ∧ pendingOf s s.cur ≠ 0) ∧
    (∃ s : State, Scope.k ≠ .t ∧ pendingOf s s.cur = 0 ∧ queued s s.cur = true) ∧
    (∃ s : State, Scope.k ≠ .t ∧ pendingOf s s.cur = 0 ∧ inDieOnly s s.cur = true) :=
  ⟨⟨small [], by decide +kernel, atomicGoes_of (by decide +kernel), by decide +kernel⟩,
    ⟨small [(5, 1)], by decide +kernel, atomicGoes_of (by decide +kernel), by decide +kernel⟩,
    ⟨deferred (small []), by decide +kernel, ⟨by decide +kernel, by decide +kernel, by decide +kernel, by decide +kernel⟩, rfl⟩,
    ⟨small [(7, 4)], by decide +kernel⟩, ⟨pending 1, by decide +kernel⟩,
    ⟨markedAt (17 * 4096) (small []), by decide +kernel, by decide +kernel, by decide +kernel, by decide +kernel, _, _, rfl⟩,
    ⟨poisonedAt (17 * 4096) (small []), by decide +kernel⟩, ⟨inDie, by decide +kernel⟩, ⟨unitsGone, by decide +kernel⟩,
    ⟨small [], by decide +kernel⟩, ⟨pending 1, by decide +kernel⟩, ⟨inHostQueue [.thread 0], by decide +kernel⟩,
    ⟨inDie, by decide +kernel⟩⟩

/-- The context has a trap handler at 64. -/
def handled (l : List (Reg × Word)) : State := inCtx (fun c => { c with tvec := 64 }) (small l)
/-- The thread runs at S. -/
def level (s : State) : State := own (fun x => { x with status := 1 }) s

theorem witness_Traps :
    (∃ s : State, HandledAtU s 64 ∧ admits s true [5] = true ∧ reg s 5 ≠ 0) ∧
    (∃ s : State, HandledAtU s 64 ∧ admits s true [5] = true ∧ reg s 5 = 0) ∧
    (∃ s : State, HandledAtU s 64 ∧ (2 : Nat) ≠ 5 ∧ (2 : Nat) ≠ 7) ∧
    (∃ (s : State) (x : Ctx), s.cur = .thread 0 ∧ (2 : Nat) ≠ 0x0B ∧ ctx? s (myCtx s) = some x ∧ x.frozen = none ∧ x.tvec = 0) ∧
    (∃ (s : State) (x : Ctx), s.cur = .thread 0 ∧ ctx? s (myCtx s) = some x ∧ x.frozen = none ∧ x.tvec ≠ 0 ∧
      privOf (my s) = true) ∧
    (∃ (s : State) (x : Ctx), s.cur = .thread 16 ∧ ctx? s (myCtx s) = some x ∧ x.frozen = none ∧ svcOf (my s) = true) ∧
    ∃ s : State, s.cur = .ret 0 :=
  ⟨⟨handled [(5, 1)], ⟨by decide +kernel, by decide +kernel, by decide +kernel, by decide, _, rfl, by decide +kernel⟩,
      by decide +kernel⟩,
    ⟨handled [], ⟨by decide +kernel, by decide +kernel, by decide +kernel, by decide, _, rfl, by decide +kernel⟩,
      by decide +kernel⟩,
    ⟨handled [], ⟨by decide +kernel, by decide +kernel, by decide +kernel, by decide, _, rfl, by decide +kernel⟩, by decide⟩,
    ⟨small [], _, by decide +kernel, by decide, rfl, by decide +kernel⟩, ⟨level (handled []), _, by decide +kernel, rfl, by decide +kernel⟩,
    ⟨inService, _, by decide +kernel, rfl, by decide +kernel⟩, ⟨retriever [], by decide +kernel⟩⟩

theorem witness_Eret :
    (∃ s : State, admits s false [] = true ∧ atS s = true ∧ inSvc s = false) ∧ (∃ s : State, atS s = false) ∧
    (∃ s : State, inSvc s = true) ∧
    ∃ (s : State) (x : Ctx), s.cur = .thread 16 ∧ svcOf (my s) = true ∧ ctx? s (myCtx s) = some x ∧ x.frozen = none :=
  ⟨⟨level (small []), by decide +kernel⟩, ⟨small [], by decide +kernel⟩, ⟨inService, by decide +kernel⟩,
    ⟨inService, _, by decide +kernel, by decide +kernel, rfl, by decide +kernel⟩⟩

theorem witness_ControlRegisters :
    (∃ s : State, admits s false [5] = true ∧ atS s = true ∧ (my s).mqueue = []) ∧
    (∃ s : State, admits s false [5] = true ∧ atS s = false ∧ (0x100 : BitVec 12) ∈ (csrForms s).map (·.1) ∧
      (0x7FF : BitVec 12) ∉ (csrForms s).map (·.1)) ∧
    (∃ s : State, admits s false [5] = true ∧ ∀ p ∈ csrWrites s, p.1 = 0x106 → p.2.1 = true ∧ atS s = false) ∧
    (∃ s : State, admits s false [5] = true ∧ ∀ p ∈ csrWrites s, p.1 = 0x105 → p.2.1 = true ∧ atS s = false) :=
  ⟨⟨level (small []), by decide +kernel⟩, ⟨small [], by decide +kernel⟩, ⟨level (small []), by decide +kernel⟩,
    ⟨small [], by decide +kernel⟩⟩

theorem witness_SystemWords :
    (∃ s : State, admits s false [] = true ∧ admits s false [5, 6] = true ∧ (reg s 6).toNat = s.keeper.version) ∧
    (∃ s : State, admits s false [5, 6] = true ∧ s.keeper.version < (reg s 6).toNat) ∧
    (∃ s : State, admits s false [5, 6] = true ∧ (reg s 6).toNat < s.keeper.version) ∧
    (∃ s : State, admits s false [5, 6] = true ∧ atS s = true ∧ s.defer = false ∧
      pginvBusy s (myCtx s) (reg s 5).toNat (reg s 6).toNat = false) ∧
    (∃ s : State, admits s false [5, 6] = true ∧ atS s = true ∧ s.defer = true) ∧
    (∃ s : State, admits s false [5, 6] = true ∧ atS s = true ∧ (reg s 6).toNat = 5) ∧
    (∃ s : State, admits s false [5, 6] = true ∧ atS s = true ∧ (reg s 6).toNat = 8 ∧ quiescent s = true ∧
      (reg s 6).toNat ≠ (core s (myCore s)).part ∧ ∃ x, mapRec s (128 + myCore s) = some x ∧ x.value ≠ 8) ∧
    (∃ (s : State) (x : MapRec), s.keeper.waiting = [] ∧ mapRec s (128 + myCore s) = some x ∧ x.kind = 0x03) ∧
    (∃ s : State, mapRec s (128 + myCore s) = none) ∧
    (∃ s : State, admits s false [5, 6] = true ∧ atS s = true ∧ (reg s 6).toNat = 16 ∧ quiescent s = true ∧
      (reg s 6).toNat = (core s (myCore s)).part) ∧
    (∃ s : State, admits s false [5, 6] = true ∧ atS s = true ∧ (reg s 6).toNat = 8 ∧ quiescent s = false) ∧
    ∃ s : State, atS s = false :=
  ⟨⟨small [], by decide +kernel⟩, ⟨small [(6, 1)], by decide +kernel⟩,
    ⟨modKeeper (small []) (fun k => { k with version := 1 }), by decide +kernel⟩,
    ⟨level (small [(5, 4096), (6, 4096)]), by decide +kernel⟩, ⟨{ level (small []) with defer := true }, by decide +kernel⟩,
    ⟨level (small [(6, 5)]), by decide +kernel⟩,
    ⟨level (small [(6, 8)]), by decide +kernel, by decide +kernel, by decide +kernel, by decide +kernel, by decide +kernel, _, rfl,
      by decide +kernel⟩,
    ⟨small [], _, rfl, rfl, by decide +kernel⟩, ⟨{ small [] with cur := .thread (1536 * 17) }, by decide +kernel⟩,
    ⟨level (small [(6, 16)]), by decide +kernel⟩,
    ⟨(let s := level (small [(6, 8)]); setThr s 1 (thr s 0)), by decide +kernel⟩, ⟨small [], by decide +kernel⟩⟩


/-- A line operand through a6. -/
def mline : MemRef := { mz with a := 6, scope := .h }

theorem witness_CacheWords :
    let cva (s : State) : Nat := (seg s mline.seg).base.toNat + (reg s mline.a + mline.disp.signExtend 64).toNat
    let line : Nat := (17 * 4096 + 4095) / 128
    (∃ s : State, admits s true [mline.a] = true ∧ lineCheck s mline = some (.trap 2 (segvInfo 0 1 0) 4096 false)) ∧
    (∃ s : State, admits s true [mline.a] = true ∧ lineCheck s mline = none ∧ xlate s (myCtx s) (cva s) = .none false) ∧
    (∃ s : State, admits s true [mline.a] = true ∧ lineCheck s mline = none ∧ xlate s (myCtx s) (cva s) = .absent) ∧
    (∃ s : State, admits s true [mline.a] = true ∧ lineCheck s mline = none ∧
      xlate s (myCtx s) (cva s) = .page (17 * 4096 + 4095) 1 false true true ∧ (17 * 4096 + 4095) < 2 ^ 47 ∧
      ∃ p ∈ s.stores, p.agent = s.cur ∧ ∃ q ∈ p.locs, nativePa s q.1 / 128 = line) ∧
    (∃ s : State, admits s true [mline.a] = true ∧ lineCheck s mline = none ∧
      xlate s (myCtx s) (cva s) = .page (17 * 4096 + 4095) 1 false true true ∧ 4 ≤ scopeNum mline.scope ∧ s.stores = [] ∧
      (die s (myDie s)).hostq = [] ∧ (die s (myDie s)).peerq = [] ∧ (die s (myDie s)).uoq = []) :=
  ⟨⟨small [(6, 4096)], by decide +kernel⟩, ⟨{ small [(6, 4095)] with pt := [] }, by decide +kernel⟩,
    ⟨(let s := small [(6, 4095)]
      { s with pt := kset s.pt (4 * 4096 + 8) (ptEntry (17 * 4096) 1 false true true false) }), by decide +kernel⟩,
    ⟨(let s := pending 1
      setReg { s with stores := s.stores.map (fun p => { p with locs := [(17 * 4096 + 4095, 1)] }) } 6 4095), by decide +kernel⟩,
    ⟨small [(6, 4095)], by decide +kernel⟩⟩

/-- RETAIN of a line at the end of the page, 12 ways, and an UNPIN of register 7. -/
def retaining (ways : Word) (c : Nat) : State :=
  modDie (small [(6, 4095), (7, 1), (8, 1 + 16 * ways), (9, 7)]) 0 (fun x => { x with
    retain := kset x.retain 7 { ctx := c, base := 17 * 4096, limit := 128, way0 := 12, ways := 4 } })
/-- The context's allowance on die 0. -/
def allowed (n : Nat × Nat) (s : State) : State := inCtx (fun x => { x with allow := [(0, n)] }) s
/-- RETAIN's operands are good. -/
def goodRetain (s : State) : Bool :=
  let n := (reg s 8).extractLsb' 0 3
  let w := ((reg s 8).extractLsb' 4 4).toNat
  admits s false [5, 6, 7, 8] && !(decide (w < 1) || decide (12 < w) || (reg s 7).toNat == 0 ||
    segCheck (seg s n) n.toNat (reg s 6).toNat (reg s 7).toNat 0 != none)
/-- A state whose tenant logs arrivals, with one logged under ARRMASK 0. -/
def arrived (on : Bool) (b : Word) : State :=
  modTenant (small [(7, b)]) 0 (fun x => { x with
    logging := on
    arr := [(0, [{ time := 1, kind := 0, len := 8, off := 0, ctx := 0, byRet := false, source := 0, gran := 0, seq := 1, seen := false }])] })

theorem witness_RetentionAndArrivalLog :
    (∃ s : State, admits s false [5, 6, 7, 8] = true ∧ ((reg s 8).extractLsb' 4 4).toNat = 13) ∧
    (let mine (s : State) : List RetReg := (kvals (die s (myDie s)).retain).filter (fun r => r.ctx = myCtx s)
     let allow (s : State) : Nat × Nat := match ctx? s (myCtx s) with | some x => kget x.allow (myDie s) (0, 0) | none => (0, 0)
     let w (s : State) : Nat := ((reg s 8).extractLsb' 4 4).toNat
     let isFree (s : State) (w0 : Nat) : Prop := w0 + w s ≤ 16 ∧
       ∀ r ∈ kvals (die s (myDie s)).retain, r.way0 + r.ways ≤ w0 ∨ w0 + w s ≤ r.way0 ∨ r.ways = 0
     (∃ s : State, goodRetain s = true ∧ (allow s).1 ≤ (mine s).length) ∧
     (∃ s : State, goodRetain s = true ∧ ∀ k, k < 8 → (kfind (die s (myDie s)).retain k).isSome) ∧
     (∃ s : State, goodRetain s = true ∧ kfind (die s (myDie s)).retain 0 = none ∧ (mine s).length < (allow s).1 ∧
       (allow s).2 < ((mine s).map (·.ways)).sum + w s) ∧
     (∃ s : State, goodRetain s = true ∧ kfind (die s (myDie s)).retain 0 = none ∧ (mine s).length < (allow s).1 ∧
       ((mine s).map (·.ways)).sum + w s ≤ (allow s).2 ∧ isFree s 0)) ∧
    (∃ (s : State) (r : RetReg), admits s false [5, 9] = true ∧ (reg s 9).toNat < 8 ∧
      kfind (die s (myDie s)).retain (reg s 9).toNat = some r ∧ r.ctx = myCtx s) ∧
    (∃ s : State, admits s false [5, 9] = true ∧ (reg s 9).toNat < 8 ∧
      ∀ r, kfind (die s (myDie s)).retain (reg s 9).toNat = some r → r.ctx ≠ myCtx s) ∧
    (∃ s : State, admits s false [5, 6, 7] = true ∧ (tenant s (tenantOf s (myCtx s))).logging = false) ∧
    (∃ (s : State) (e : ArrEntry) (v : Word), admits s false [5, 6, 7] = true ∧ (tenant s (tenantOf s (myCtx s))).logging = true ∧
      (kget (tenant s (tenantOf s (myCtx s))).arr ((reg s 6).extractLsb' 0 3).toNat [])[((reg s 6).extractLsb' 8 12).toNat]? =
        some e ∧ arrDword e 1 0 (reg s 7).toNat = some v ∧ (reg s 7).toNat = 5) ∧
    (∃ (s : State) (e : ArrEntry), admits s false [5, 6, 7] = true ∧ (tenant s (tenantOf s (myCtx s))).logging = true ∧
      (kget (tenant s (tenantOf s (myCtx s))).arr ((reg s 6).extractLsb' 0 3).toNat [])[((reg s 6).extractLsb' 8 12).toNat]? =
        some e ∧ (reg s 7).toNat = 6) :=
  ⟨⟨retaining 13 0, by decide +kernel⟩, ⟨⟨retaining 12 0, by decide +kernel⟩,
      ⟨modDie (retaining 12 0) 0 (fun x => { x with
        retain := (List.range 8).map (fun k => (k, { ctx := 1, base := 0, limit := 128, way0 := 0, ways := 1 })) }), by decide +kernel⟩,
      ⟨allowed (2, 15) (retaining 12 0), by decide +kernel⟩, ⟨allowed (2, 16) (retaining 12 0), by decide +kernel⟩⟩,
    ⟨retaining 1 0, { ctx := 0, base := 17 * 4096, limit := 128, way0 := 12, ways := 4 }, by decide +kernel⟩,
    ⟨retaining 1 1, by decide +kernel, by decide +kernel, fun r h => by
      have : kfind (die (retaining 1 1) (myDie (retaining 1 1))).retain (reg (retaining 1 1) 9).toNat =
        some { ctx := 1, base := 17 * 4096, limit := 128, way0 := 12, ways := 4 } := by decide +kernel
      cases this.symm.trans h; decide +kernel⟩,
    ⟨arrived false 0, by decide +kernel⟩,
    ⟨arrived true 5, _, _, by decide +kernel, by decide +kernel, rfl, rfl, by decide +kernel⟩,
    ⟨arrived true 6, _, by decide +kernel, by decide +kernel, rfl, by decide +kernel⟩⟩

/-- Retriever 0 in a state, with a program of one hint, and one kernel for it in the heap. -/
def owned (owner : Option Nat) (state : Nat) (off : Word) : State :=
  let s := modRet (small [(7, off), (8, 3)]) 0 (fun r => { r with owner := owner, state := state, program := [0x3C00000000000000] })
  inCtx (fun x => { x with kernels := [{ ret := true, entry := 0, size := 8, lanes := 0, lendep := false, tags := 0, foot := [], obj := 2 }] }) s

/-- Retriever 0 is retired in the map. -/
def noRet (s : State) : State :=
  modKeeper s (fun k => { k with map := kset k.map 2048 { kind := 4, state := 3, value := 0, auxA := 0, auxB := 0, changed := 0 } })

theorem witness_RetrieverWords :
    (∃ s : State, retCtlOk s [5, 6, 7, 8] = true ∧ (ctx? s (myCtx s)).isSome = true ∧ (ret s 0).owner = some 1 ∧ 1 ≠ me s) ∧
    (∃ s : State, retCtlOk s [5, 6, 7, 8] = true ∧ (ctx? s (myCtx s)).isSome = true ∧ (ret s 0).owner = some (me s) ∧
      (ret s 0).state = 2 ∧ (∀ w, (ret s 0).cond ≠ .awaiting w) ∧ (ret s 0).program ≠ []) ∧
    (∃ (s : State) (x : Ctx), retCtlOk s [5, 6, 7, 8] = true ∧ ctx? s (myCtx s) = some x ∧
      (ret s 0).owner = none ∧ (ret s 0).state ≠ 2 ∧
      ∀ k ∈ x.kernels, k.ret = true → k.entry ≠ (reg s 7).toNat) ∧
    (∃ (s : State) (x : Ctx) (k : Kernel), retCtlOk s [5, 6, 7, 8] = true ∧ ctx? s (myCtx s) = some x ∧ (ret s 0).state ≠ 2 ∧
      x.kernels.find? (fun k => k.ret && k.entry == (reg s 7).toNat) = some k ∧ k.obj ∈ x.tainted) ∧
    (∃ (s : State) (x : Ctx) (k : Kernel), retCtlOk s [5, 6, 7, 8] = true ∧ ctx? s (myCtx s) = some x ∧ (ret s 0).state ≠ 2 ∧
      x.kernels.find? (fun k => k.ret && k.entry == (reg s 7).toNat) = some k ∧ k.obj ∉ x.tainted ∧ unitLive s 2048 = false) ∧
    (∃ (s : State) (x : Ctx) (k : Kernel) (l : List Byte), retCtlOk s [5, 6, 7, 8] = true ∧ ctx? s (myCtx s) = some x ∧
      (ret s 0).state ≠ 2 ∧ x.kernels.find? (fun k => k.ret && k.entry == (reg s 7).toNat) = some k ∧ k.obj ∉ x.tainted ∧
      unitLive s 2048 = true ∧ readHeap s k.entry k.size = .ok l) ∧
    (∃ s : State, (ret s 0).owner = some (me s) ∧ (ret s 0).program ≠ [] ∧ (ret s 0).state ≠ 2 ∧
      8 * (ret s 0).program.length ≤ (reg s 7).toNat) ∧
    (∃ s : State, (ret s 0).owner = some (me s) ∧ (ret s 0).program ≠ [] ∧ (ret s 0).state ≠ 2 ∧ (reg s 7).toNat % 8 = 0 ∧
      (reg s 7).toNat < 8 * (ret s 0).program.length ∧ unitLive s 2048 = true ∧ releaseWaits s 1 = false) ∧
    (∃ s : State, (ret s 0).owner = some (me s) ∧ (ret s 0).program ≠ [] ∧ (ret s 0).state ≠ 2 ∧ (reg s 7).toNat % 8 = 0 ∧
      (reg s 7).toNat < 8 * (ret s 0).program.length ∧ unitLive s 2048 = true ∧ releaseWaits s 1 = true) ∧
    (∃ s : State, (ret s 0).owner = some (me s) ∧ (ret s 0).program ≠ [] ∧ (ret s 0).state ≠ 2 ∧ (reg s 7).toNat % 8 = 0 ∧
      (reg s 7).toNat < 8 * (ret s 0).program.length ∧ unitLive s 2048 = false) ∧
    (∃ s : State, (ret s 0).owner = some (me s) ∧ (ret s 0).state = 2 ∧ (ret s 0).cond = .awaiting (.pginv 0 0)) ∧
    (∃ s : State, (ret s 0).owner = some (me s) ∧ (ret s 0).state = 3 ∧ pendingOf s (.ret 0) ≠ 0 ∧ (reg s 7).toNat ≤ 1) ∧
    (∃ s : State, (ret s 0).owner = some (me s) ∧ (ret s 0).state = 3 ∧ pendingOf s (.ret 0) = 0 ∧ (reg s 7).toNat ≤ 1) :=
  ⟨⟨owned (some 1) 1 0, by decide +kernel⟩, ⟨owned (some 0) 2 0, by decide +kernel, by decide +kernel, by decide +kernel, by decide +kernel,
      fun w h => Cond.noConfusion ((by decide +kernel : (ret (owned (some 0) 2 0) 0).cond = .ready).symm.trans h), by decide +kernel⟩,
    ⟨owned none 0 8, _, by decide +kernel, rfl, by decide +kernel, by decide +kernel, by decide +kernel⟩,
    ⟨inCtx (fun x => { x with tainted := [2] }) (owned none 0 0), _, _, by decide +kernel, rfl, by decide +kernel, rfl, by decide +kernel⟩,
    ⟨noRet (owned none 0 0), _, _,
      by decide +kernel, rfl, by decide +kernel, rfl, by decide +kernel, by decide +kernel⟩,
    ⟨owned (some 0) 3 0, _, _, List.replicate 8 0, by decide +kernel, rfl, by decide +kernel, rfl, by decide +kernel, by decide +kernel, by decide +kernel⟩,
    ⟨owned (some 0) 1 8, by decide +kernel⟩, ⟨owned (some 0) 3 0, by decide +kernel⟩,
    ⟨{ owned (some 0) 3 0 with stores := (pending 1).stores }, by decide +kernel⟩, ⟨noRet (owned (some 0) 3 0), by decide +kernel⟩,
    ⟨modRet (owned (some 0) 2 0) 0 (fun r => { r with cond := .awaiting (.pginv 0 0) }), by decide +kernel⟩,
    ⟨{ owned (some 0) 3 0 with stores := (pending 1).stores.map (fun p => { p with agent := .ret 0 }) }, by decide +kernel⟩,
    ⟨owned (some 0) 3 0, by decide +kernel⟩⟩

/-- A region of 16 rows and 16 columns of f16. -/
def sixteen : Region :=
  { ctx := 0, choff := 0, scaled := false, scale := 0, decode := false, native := 0, fmt := 7, rows := 16, cols := 16, rowbase := 0
    cva := 8192 }
/-- The same with that region, whose row-major view stands in g2. -/
def regional (s : State) : State :=
  own (fun x => { x with hart := { x.hart with segs := x.hart.segs.set 2 { dataSeg with base := 8192, v := true } } }) { s with
    pt := kset s.pt (4 * 4096 + 16) (ptEntry (2 ^ 47) 1 false true true true)
    regions := [(0, sixteen)] }

/-- The copy that a word at hand makes. -/
def made (s : State) (o : CopyRef) (h : Handle) (op : Nat) : Copy :=
  let n := opCount op
  let regs := (List.range n).map (fun i => reg s (o.b + BitVec.ofNat 6 i))
  let c0 : Copy :=
    { id := s.nextId, ctx := myCtx s, thread := me s
      byRet := match s.cur with | .ret n => some n | .thread _ => none
      handle := h, op := op, dsegv := seg s o.dseg, asegv := seg s o.aseg, dseg := o.dseg, aseg := o.aseg
      doff := reg s o.d, aoff := reg s o.a, ops := regs ++ List.replicate (4 - n) 0, len := 0, next := 0
      live := [], wrote := [], bad := [], closing := false, geom := none }
  { c0 with len := copyLen s c0, geom := c0.region s }
/-- A copy's operands: destination offset a5, source offset a6, operands from a7. -/
def cops (dseg aseg : BitVec 3) : CopyRef := { dseg := dseg, aseg := aseg, d := 5, a := 6, b := 7 }
/-- The tag 63. -/
def tag63 : Handle := { n := 63, barrier := false }
/-- What the acceptance of a copy word asks. -/
def copyable (s : State) (o : CopyRef) (h : Handle) (op : Nat) : Bool :=
  admits s true [o.d, o.a, o.b] && decide (o.b.toNat + opCount op ≤ regCount s) &&
    opsOk op ((List.range (opCount op)).map (fun i => reg s (o.b + BitVec.ofNat 6 i))) && handleOk s h
/-- CPYT out of the region: rows and columns of its window, and the pitch. -/
def tileCopy (off : Word) : State :=
  regional (small [(5, off), (7, 0), (8, 0), (9, 2 * 2 ^ 32 + 2), (10, 8)])
/-- The record of tag 63 stands at a fault in chunk 1. -/
def faulted (c : Nat) : State :=
  let s := small [(5, 2048), (7, 256)]
  own (fun x => { x with progress := [(63, { (made s (cops 1 1) tag63 0).record with state := 3, chunk := c })] }) s

theorem witness_Copies :
    (∃ s : State, copyable s (cops 1 1) tag63 0 = true ∧ (let c := made s (cops 1 1) tag63 0
      copySegs s c = none ∧ copyAlign s c = none ∧ copyWaits s tag63 = false)) ∧
    (∃ s : State, copyable s (cops 1 1) tag63 1 = true ∧ (let c := made s (cops 1 1) tag63 1
      copySegs s c = none ∧ copyAlign s c = none ∧ copyWaits s tag63 = false)) ∧
    (∃ s : State, copyable s (cops 1 2) tag63 2 = true ∧ (let c := made s (cops 1 2) tag63 2
      copySegs s c = none ∧ copyAlign s c = none ∧ copyWaits s tag63 = false)) ∧
    (∃ s : State, copyable s (cops 1 1) tag63 3 = true ∧ (let c := made s (cops 1 1) tag63 3
      copySegs s c = none ∧ copyAlign s c = none ∧ copyWaits s tag63 = false)) ∧
    (∃ s : State, copyable s (cops 1 1) tag63 0 = true ∧
      copySegs s (made s (cops 1 1) tag63 0) = some (.trap 2 (segvInfo 0 1 1) 3841 false)) ∧
    (∃ s : State, copyable s (cops 1 2) tag63 2 = true ∧ copySegs s (made s (cops 1 2) tag63 2) = none ∧
      copyAlign s (made s (cops 1 2) tag63 2) = some (alignCause 1 1)) ∧
    (∃ s : State, admits s true [] = true ∧ handleOk s tag63 = true ∧ (progressOf (my s) (handleKey tag63)).state ≠ 3) ∧
    (let c (s : State) : Copy :=
       let r := progressOf (my s) (handleKey tag63)
       let c0 : Copy :=
         { id := s.nextId, ctx := myCtx s, thread := me s
           byRet := match s.cur with | .ret n => some n | .thread _ => none
           handle := tag63, op := r.op, dsegv := seg s r.dseg, asegv := seg s r.aseg, dseg := r.dseg, aseg := r.aseg
           doff := r.doff, aoff := r.aoff, ops := r.ops, len := 0, next := r.chunk
           live := [], wrote := [], bad := [], closing := false, geom := none }
       { c0 with len := copyLen s c0, geom := c0.region s }
     (∃ s : State, admits s true [] = true ∧ handleOk s tag63 = true ∧ copyWaits s tag63 = false ∧
       (progressOf (my s) (handleKey tag63)).state = 3 ∧ copySegs s (c s) = none) ∧
     (∃ s : State, admits s true [] = true ∧ handleOk s tag63 = true ∧ copyWaits s tag63 = true ∧
       (progressOf (my s) (handleKey tag63)).state = 3 ∧ copySegs s (c s) = none) ∧
     (∃ s : State, admits s true [] = true ∧ handleOk s tag63 = true ∧ (progressOf (my s) (handleKey tag63)).state = 3 ∧
       (copySegs s (c s)).isSome = true)) ∧
    (∃ s : State, copyable s (cops 1 1) tag63 0 = true ∧ (let c := made s (cops 1 1) tag63 0
      copySegs s c = none ∧ copyAlign s c = none ∧ copyWaits s tag63 = true)) :=
  ⟨⟨small [(5, 3840), (7, 256)], by decide +kernel⟩, ⟨small [(5, 2048), (7, 16), (8, 3), (9, 32), (10, 64)], by decide +kernel⟩,
    ⟨tileCopy 0, by decide +kernel⟩, ⟨small [(5, 2048), (7, 4), (8, 2), (9, 8)], by decide +kernel⟩,
    ⟨small [(5, 3841), (7, 256)], by decide +kernel⟩, ⟨tileCopy 1, by decide +kernel⟩, ⟨small [], by decide +kernel⟩,
    ⟨⟨faulted 1, by decide +kernel⟩, ⟨{ faulted 1 with stores := (pending 1).stores }, by decide +kernel⟩,
      ⟨own (fun x => { x with hart := { x.hart with segs := x.hart.segs.set 1 Seg.empty } }) (faulted 1), by decide +kernel⟩⟩,
    ⟨{ small [(5, 3840), (7, 256)] with stores := (pending 1).stores }, by decide +kernel⟩⟩

/-- TAGS and the records' states. -/
def tagged (tags : Word) (l : List (Nat × Nat)) (regs : List (Reg × Word)) : State :=
  own (fun x => { x with tags := tags, progress := l.map (fun p => (p.1, { Progress.idle with state := p.2 })) }) (small regs)
/-- A barrier window of `n` from barrier `b` of the pool. -/
def windowed (b n : Nat) (s : State) : State := inSlot (fun e => { e with dw2 := BitVec.ofNat 64 (b * 128 + n) }) s

theorem witness_Tags :
    (∃ s : State, admits s true [5, 6] = true ∧ (my s).tags &&& reg s 6 ≠ 0 ∧
      ¬∃ n, n < 64 ∧ (reg s 6).getLsbD n = true ∧ (progressOf (my s) n).state = 1) ∧
    (∃ s : State, admits s true [5, 6] = true ∧ (my s).tags &&& reg s 6 = 0 ∧
      ∃ n, n < 64 ∧ (reg s 6).getLsbD n = true ∧ (progressOf (my s) n).state = 1) ∧
    (∃ s : State, admits s true [5, 6, 7] = true ∧ (reg s 7).toNat ≤ 7 ∧ (reg s 6).getLsbD 6 = false ∧ (reg s 7).toNat = 7) ∧
    (∃ s : State, admits s true [5, 6, 7] = true ∧ (reg s 7).toNat ≤ 7 ∧ (reg s 6).getLsbD 6 = true ∧
      ((reg s 6).extractLsb' 0 6).toNat < (sbWindow s (myPool s) (myCtx s)).2) :=
  ⟨⟨tagged 1 [] [(6, 1)], by decide +kernel⟩,
    ⟨tagged 0 [(63, 1)] [(6, 0x8000000000000000)], by decide +kernel, by decide +kernel, 63, by decide +kernel⟩,
    ⟨small [(6, 63), (7, 7)], by decide +kernel⟩, ⟨windowed 62 2 (small [(6, 65), (7, 0)]), by decide +kernel⟩⟩

/-- Barrier 63, the last of a window of two, as given. -/
def atBarrier (x : Barrier) (b : Word) : State :=
  let s := windowed 62 2 (small [(6, 1), (7, b)])
  setBarrier s 0 63 x
/-- A barrier of one consumer. -/
def oneConsumer : Barrier := { Barrier.zero with valid := true, ncons := 1 }
/-- Whether SBWAIT on barrier 63 goes on. -/
def waitGoes (s : State) : Bool :=
  let x := barrier s 0 63
  let ph := if (reg s 7).getLsbD 1 then x.xph else x.fph
  decide (ph ≠ (reg s 7).getLsbD 0 ∨ ((reg s 7).getLsbD 1 = false ∧ x.fault = true))

theorem witness_StageBarriers :
    (∃ s : State, admits s true [5, 6, 7] = true ∧ sbAbs s (myPool s) (myCtx s) ((reg s 6).extractLsb' 0 6).toNat = some 63 ∧
      (reg s 7).toNat = 65535) ∧
    (∃ s : State, admits s true [5, 6, 7] = true ∧ sbAbs s (myPool s) (myCtx s) ((reg s 6).extractLsb' 0 6).toNat = some 63 ∧
      (reg s 7).toNat = 65536 ∧ (barrier s (myPool s) 63).valid = false) ∧
    (∃ s : State, admits s true [5, 6, 7] = true ∧ sbAbs s (myPool s) (myCtx s) ((reg s 6).extractLsb' 0 6).toNat = some 63 ∧
      (barrier s (myPool s) 63).valid = true ∧ (reg s 7).toNat = 1 ∧ releaseWaits s 2 = false ∧ waitGoes s = true) ∧
    (∃ s : State, admits s true [5, 6, 7] = true ∧ sbAbs s (myPool s) (myCtx s) ((reg s 6).extractLsb' 0 6).toNat = some 63 ∧
      (barrier s (myPool s) 63).valid = true ∧ (reg s 7).toNat = 2 ^ 46) ∧
    (∃ s : State, admits s true [5, 6, 7] = true ∧ sbAbs s (myPool s) (myCtx s) ((reg s 6).extractLsb' 0 6).toNat = some 63 ∧
      (barrier s (myPool s) 63).valid = true ∧ waitGoes s = false) ∧
    (∃ s : State, admits s true [5, 6, 7] = true ∧ sbAbs s (myPool s) (myCtx s) ((reg s 6).extractLsb' 0 6).toNat = some 63 ∧
      (barrier s (myPool s) 63).valid = true ∧ releaseWaits s 2 = true) :=
  ⟨⟨atBarrier Barrier.zero 65535, by decide +kernel⟩, ⟨atBarrier Barrier.zero 65536, by decide +kernel⟩,
    ⟨atBarrier oneConsumer 1, by decide +kernel⟩, ⟨atBarrier oneConsumer (2 ^ 46), by decide +kernel⟩,
    ⟨atBarrier oneConsumer 2, by decide +kernel⟩,
    ⟨{ atBarrier oneConsumer 1 with stores := (pending 1).stores }, by decide +kernel⟩⟩

/-- A frame whose COUNT is given stands at CVA 4096; the deque holds the frames given. -/
def framed (count : Nat) (deque : List Nat) (l : List (Reg × Word)) : State :=
  let s := own (fun x => { x with deque := deque }) (small l)
  { s with mem := s.mem.setAll ((span (17 * 4096 + 16) 8).zip (leBytes 8 (count * 2 ^ 32 + 1))) }
/-- No byte of these is poisoned. -/
def unpoisoned (s : State) (l : List ByteRef) : Bool := l.any (fun r => r.has && poisoned s r.loc) = false

theorem witness_Strands :
    (∃ s : State, taskWordOk s [5, 6, 7, 8] = true ∧ (reg s 7).toNat < 2 ^ regCount s ∧ (reg s 6).toNat % 16 = 0 ∧
      (reg s 8).toNat % 8 = 0 ∧ (my s).deque.length = 31 ∧ ownCopies s (me s) = false ∧ settled (my s) = true ∧
      let n := frameSize (reg s 7)
      let cva := (seg s 1).base.toNat + (reg s 6).toNat
      n = 152 ∧ segCheck (seg s 1) 1 (reg s 6).toNat n 1 = none ∧ judge s (chkOf s 1 1) (span cva n) = none ∧
        frameWaits s (refsOf s (myCtx s) cva n) = false ∧ unpoisoned s (((refsOf s (myCtx s) cva n).drop 16).take 8) = true) ∧
    (∃ s : State, taskWordOk s [5, 6, 7, 8] = true ∧ (reg s 7).toNat < 2 ^ regCount s ∧ (reg s 6).toNat % 16 = 0 ∧
      (reg s 8).toNat % 8 = 0 ∧ (my s).deque.length = 32 ∧
      segCheck (seg s 1) 1 (reg s 6).toNat (frameSize (reg s 7)) 1 = none) ∧
    (∃ s : State, taskWordOk s [6] = true ∧ frameCause s (reg s 6) 144 = none ∧ (my s).deque.getLast? = some (reg s 6).toNat ∧
      let refs := refsOf s (myCtx s) (reg s 6).toNat 144
      let ws := wordsAt (recalled s (refLocs ((refsOf s (myCtx s) (reg s 6).toNat 24).drop 16))) (refsOf s (myCtx s) (reg s 6).toNat 24)
      frameSize (ws.getD 1 0) = 144 ∧ frameCause s (reg s 6) 144 = none ∧ unpoisoned s refs = true ∧ frameCount (ws.getD 2 0) = 1 ∧
        copiesOf s (me s) = false ∧ settled (my s) = true ∧ frameWaits s refs = false) ∧
    (∃ s : State, taskWordOk s [6] = true ∧ frameCause s (reg s 6) 24 = none ∧ (my s).deque.getLast? ≠ some (reg s 6).toNat ∧
      let refs := refsOf s (myCtx s) (reg s 6).toNat 24
      unpoisoned s refs = true ∧ frameCount ((wordsAt (recalled s (refLocs (refs.drop 16))) refs).getD 2 0) = 2 ∧
        copiesOf s (me s) = false ∧ settled (my s) = true ∧ frameWaits s refs = false ∧ endWaits s (me s) = false) ∧
    (∃ s : State, taskWordOk s [5, 6] = true ∧ frameCause s (reg s 6) 24 = none ∧
      let l := (refsOf s (myCtx s) (reg s 6).toNat 24).drop 16
      unpoisoned s l = true ∧ frameCount ((wordsAt s l).headD 0) = 0 ∧
        l.any (fun r => mustWait s s.cur s.stores r.kind false [] none) = false ∧ missOf s s.cur (acqLocs s l) = none) ∧
    (∃ s : State, taskWordOk s [5, 6] = true ∧ frameCause s (reg s 6) 24 = none ∧
      let l := (refsOf s (myCtx s) (reg s 6).toNat 24).drop 16
      l.any (fun r => mustWait s s.cur s.stores r.kind false [] none) = true) ∧
    (∃ s : State, taskWordOk s [5, 6] = true ∧ frameCause s (reg s 6) 24 = none ∧
      let l := (refsOf s (myCtx s) (reg s 6).toNat 24).drop 16
      unpoisoned s l = true ∧ frameCount ((wordsAt s l).headD 0) = 0 ∧
        l.any (fun r => mustWait s s.cur s.stores r.kind false [] none) = false ∧ ∃ g mk, missOf s s.cur (acqLocs s l) = some (g, mk)) ∧
    (∃ s : State, taskWordOk s [5, 6] = true ∧ frameCause s (reg s 6) 24 = none ∧
      let l := (refsOf s (myCtx s) (reg s 6).toNat 24).drop 16
      unpoisoned s l = true ∧ frameCount ((wordsAt s l).headD 0) ≠ 0 ∧
        l.any (fun r => mustWait s s.cur s.stores r.kind false [] none) = false) ∧
    (∃ s : State, s.cur = .thread 0 ∧ hwOf 0 ≠ 16 ∧ endWaits s 0 = true) ∧
    (∃ s : State, s.cur = .thread 0 ∧ hwOf 0 ≠ 16 ∧ endWaits s 0 = false) ∧
    (∃ (s : State) (m : ScopeMsg) (mk : Mark), s.cur = .thread 16 ∧ hwOf 16 = 16 ∧ releaseWaits s 4 = false ∧ s.rets = [] ∧
      (my s).cond = .ready ∧ (core s (coreOf 16)).serving = some m ∧ kfind s.marks m.granule = some mk ∧
      anyHeld s m.granule = true) ∧ ∃ s : State, s.cur = .ret 0 :=
  ⟨⟨framed 0 (List.replicate 31 0) [(7, 0x80000000), (8, 8)], by decide +kernel⟩,
    ⟨framed 0 (List.replicate 32 0) [(7, 0x80000000), (8, 8)], by decide +kernel⟩,
    ⟨framed 1 [4096] [(6, 4096)], by decide +kernel⟩, ⟨framed 2 [] [(6, 4096)], by decide +kernel⟩,
    ⟨framed 0 [] [(6, 4096)], by decide +kernel⟩,
    ⟨paged 0 { framed 0 [] [(6, 4096)] with stores := (pending 0).stores }, by decide +kernel⟩,
    ⟨markedAt (17 * 4096 + 16) (framed 0 [] [(6, 4096)]), by decide +kernel, by decide +kernel, by decide +kernel, by decide +kernel,
      by decide +kernel, _, _, rfl⟩, ⟨framed 1 [] [(6, 4096)], by decide +kernel⟩,
    ⟨pending 1, by decide +kernel⟩, ⟨small [], by decide +kernel⟩,
    ⟨(let s := markedAt (17 * 4096) (setThr inService 0 { thr inService 0 with cond := .heldAcquire (granule inService (17 * 4096)) })
      modCore s 0 (fun x => { x with serving := some { granule := granule s (17 * 4096), cva := 4096, ctx := 0, needed := 1, markScope := 0 } })), _, _, by decide +kernel, by decide +kernel,
      by decide +kernel, by decide +kernel, by decide +kernel, rfl, rfl, by decide +kernel⟩,
    ⟨retriever [], by decide +kernel⟩⟩

/-- The gang's barrier at generation 1, the thread arrived at the one given. -/
def barriered (p : Option Nat) : State :=
  let s := own (fun x => { x with arrival := p }) (small [])
  modGang s 0 0 (fun g => { g with gen := 1 })

theorem witness_GangAndCounterWords :
    (∃ s : State, taskWordOk s [5, 6] = true ∧ scalarCause s 1 (reg s 6) 64 0 64 = none ∧ releaseWaits s 4 = false ∧
      let l := accessRefs s 1 (reg s 6) 64
      l.any (fun r => mustWait s s.cur s.stores r.kind false [] none) = false ∧ (underRefs s l).any (poisoned s) = false) ∧
    (∃ s : State, taskWordOk s [5] = true ∧ (myTask s).strands ≤ 1 ∧ (my s).arrival = some 0 ∧ 0 < (myGang s).gen) ∧
    (∃ s : State, taskWordOk s [5] = true ∧ (myTask s).strands ≤ 1 ∧ (my s).arrival = some 1 ∧ (myGang s).gen ≤ 1) ∧
    (∃ s : State, taskWordOk s [5] = true ∧ (myTask s).strands ≤ 1 ∧ (my s).arrival = none ∧ releaseWaits s 4 = false) ∧
    (∃ s : State, taskWordOk s [] = true ∧ taskWordOk s [5, 6] = true) ∧
    (∃ s : State, admits s false [5, 6, 7] = true ∧ scalarCause s 1 (reg s 6) 128 2 128 = none ∧ s.defer = false ∧
      releaseWaits s 4 = false ∧
      let l := accessRefs s 1 (reg s 6) 128
      let kind := (byteRef s (myCtx s) ((seg s 1).base.toNat + (reg s 6).toNat)).kind
      mustWait s s.cur s.stores kind true (l.map (·.loc)) none = false ∧ inQueue s (myDie s) (l.map (·.loc)) = false ∧
        (l.take 1).all (fun r => atomicUnitLive s r.loc) = true ∧ (l.map (·.loc)).any (poisoned s) = false) ∧
    (∃ s : State, admits s false [5, 6, 7] = true ∧ scalarCause s 1 (reg s 6) 128 2 128 = none ∧ s.defer = true ∧
      releaseWaits s 4 = false ∧
      let l := accessRefs s 1 (reg s 6) 128
      let kind := (byteRef s (myCtx s) ((seg s 1).base.toNat + (reg s 6).toNat)).kind
      mustWait s s.cur s.stores kind true (l.map (·.loc)) none = false ∧ inQueue s (myDie s) (l.map (·.loc)) = false ∧
        (l.take 1).all (fun r => atomicUnitLive s r.loc) = true ∧ (l.map (·.loc)).any (poisoned s) = false) ∧
    ((0x7FFFFFFFFFFFFFFF : Word).getLsbD 63 = false ∧ (0x8000000000000000 : Word).getLsbD 63 = true ∧
      (0xC000000000000000 : Word).getLsbD 62 = true ∧ (0x8000000000000000 : Word).getLsbD 62 = false) :=
  ⟨⟨small [(6, 4032)], by decide +kernel⟩, ⟨barriered (some 0), by decide +kernel⟩, ⟨barriered (some 1), by decide +kernel⟩,
    ⟨barriered none, by decide +kernel⟩, ⟨small [], by decide +kernel⟩, ⟨small [(6, 3968)], by decide +kernel⟩,
    ⟨deferred (small [(6, 3968)]), by decide +kernel⟩, by decide⟩

theorem witness_DualWords :
    let off (s : State) : Word := reg s 6 + (8 : BitVec 10).signExtend 64
    let other : Half := .imm .addi 6 1
    let ld : Half := .load .d 5 6 1 8
    let st : Half := .store false 5 6 1 8
    ((Instr.dualWord ld other).wf = true ∧ (Instr.dualWord other ld).wf = true ∧ (Instr.dualWord st other).wf = true ∧
      (Instr.dualWord other st).wf = true) ∧
    (∃ (s : State) (hi lo : Half), admits s false (halfRegs hi ++ halfRegs lo) = true ∧ (Instr.dualWord hi lo).wf = true ∧
      hi.isMem = false ∧ lo.isMem = false ∧ halfTarget s lo = some (pcOf s)) ∧
    (∃ s : State, admits s false (halfRegs other ++ halfRegs ld) = true ∧ LoadGoes { s with defer := false } 1 (off s) 8 1 false) ∧
    (∃ s : State, admits s false (halfRegs other ++ halfRegs ld) = true ∧
      scalarCause s 1 (off s) 8 0 1 = some (.trap 2 (segvInfo 0 1 0) 4089 false)) ∧
    (∃ s : State, scalarCause s 1 (off s) 8 0 1 = none ∧
      (accessRefs s 1 (off s) 8).any (fun r => mustWait s s.cur s.stores r.kind false [] none) = true) ∧
    (∃ s : State, LoadReady s 1 (off s) 8 1 ∧ (underRefs s (accessRefs s 1 (off s) 8)).any (poisoned s) = true) ∧
    (∃ s : State, admits s false (halfRegs other ++ halfRegs st) = true ∧
      scalarCause s 1 (off s) (leBytes 4 (reg s 5).toNat).length 1 1 = none) ∧
    (∃ s : State, admits s false (halfRegs other ++ halfRegs st) = true ∧
      scalarCause s 1 (off s) (leBytes 4 (reg s 5).toNat).length 1 1 = some (.trap 2 (segvInfo 0 1 1) 4093 false)) ∧
    (∃ s : State, admits s false (halfRegs other ++ halfRegs ld) = false ∧ onRet s = true) :=
  ⟨by decide +kernel, ⟨small [], .imm .addi 2 1, .branch .beq 2 0 0, by decide +kernel⟩,
    ⟨small [(6, 4080)], by decide +kernel, loadGoes_of (by decide +kernel)⟩, ⟨small [(6, 4081)], by decide +kernel⟩,
    ⟨paged 0 (pending 0), by decide +kernel⟩,
    ⟨poisonedAt (17 * 4096 + 8) (small []), ⟨by decide +kernel, by decide +kernel⟩, by decide +kernel⟩,
    ⟨small [(6, 4084)], by decide +kernel⟩, ⟨small [(6, 4085)], by decide +kernel⟩, ⟨retriever [], by decide +kernel⟩⟩

/-- A page of spill region. -/
def spillable (s : State) : State := inSlot (fun e => { e with dw1 := 1024 }) s
/-- Vector fields: scalar register 5, extension register 6. -/
def vs5 : VFields := { vz with s := 5, ext := 6 }

theorem witness_VectorState :
    (∃ s : State, VecGoes s false [5, 6] [] ∧ (reg s 6).toNat = 0 ∧ settled (my s) = true) ∧
    (∃ s : State, VecGoes s false [5, 6] [] ∧ (reg s 6).toNat ≠ 0 ∧ ceilingFor (spillRoom s (myPool s) (myCtx s)) (reg s 6).toNat = 0) ∧
    (∃ s : State, VecGoes s false [5, 6] [] ∧ (reg s 6).toNat = 29 ∧ (my s).vceil = 0 ∧
      ceilingFor (spillRoom s (myPool s) (myCtx s)) (reg s 6).toNat = 16) ∧
    (∃ s : State, VecGoes s false [] [] ∧ (my s).vceil = 0) ∧
    (∃ s : State, VecGoes s false [] [] ∧ (my s).vceil ≠ 0 ∧ settled (my s) = true) ∧
    (∃ s : State, VecGoes s true [(vFields s.ir).s] []) ∧
    (144 * min 28 1024 ≤ 4096 ∧ 4096 < 144 * min 29 1024) :=
  ⟨⟨small [], vecGoes_of (by decide +kernel), by decide +kernel⟩, ⟨small [(6, 1)], vecGoes_of (by decide +kernel), by decide +kernel⟩,
    ⟨spillable (small [(6, 29)]), vecGoes_of (by decide +kernel), by decide +kernel⟩, ⟨small [], vecGoes_of (by decide +kernel), by decide +kernel⟩,
    ⟨strip (small []), vecGoes_of (by decide +kernel), by decide +kernel⟩, ⟨strip (small []), vecGoes_of (by decide +kernel)⟩, by decide⟩

/-- A strip whose entitlement is as given. -/
def entitled (n : Nat) (l : List (Reg × Word)) : State := own (fun x => { x with ent := n }) (strip (small l))
/-- A strip at an SMLOOP it has reached before with the same count. -/
def watched (strike : Bool) : State :=
  own (fun x => { x with watch := some { pc := 0, count := 0, strike := strike } }) (entitled 4 [(7, 4)])

/-- A thread that holds no lane asks for 4, and another of its context holds the whole quota of 64. -/
def crowded : State :=
  let s := own (fun x => { x with gvl := 0, vl := 0, lanes := [] }) (entitled 0 [(6, 4)])
  setThr s 1 { Thread.start with vceil := 64, gvl := 64, rq := 64, ent := 60 }

theorem grantsTo_of {s : State} (h : ((my s).mvl == 0 && (regrant s).isSome) = true) : ∃ u, grantsTo s u := by
  simp only [Bool.and_eq_true, beq_iff_eq, Option.isSome_iff_exists] at h
  exact h.2.imp fun u hu => .inr ⟨h.1, hu⟩

/-- The vector loads of the thread have not all landed. -/
def unsettled (s : State) : State := own (fun x => { x with vloads := [{ vd := 31, fmt := 3, elems := [] }] }) s

/-- What the refitting has to give the thread: its GVL before, and the one that its grant becomes. -/
def refits (s : State) : Nat × Nat :=
  let u := settlePool s (poolOf (me s))
  let x := my u
  let avail := min (quotaOf u (poolOf (me s)) x.ctx - lanesHeld u (poolOf (me s)) x.ctx)
    ((List.range 1024).filter (laneFree u (me s))).length
  (x.gvl, min (min x.ent x.vceil) (x.gvl + avail))

theorem witness_GrantPoints :
    ((∃ s : State, refits s = (0, 0)) ∧ (∃ s : State, refits s = (4, 2)) ∧ ∃ s : State, refits s = (4, 16)) ∧
    (∃ s : State, settled (my s) = false ∧ VecGoes s true [5, 6] []) ∧
    (∃ s : State, settled (my s) = false ∧ VecGoes s true [7] [] ∧ (my s).watch = none) ∧
    (∃ s : State, settled (my s) = true ∧ VecGoes s true [7] [] ∧ (my s).watch = none ∧
      let stepped := modMy s (fun x => { x with
        streams := x.streams.mapFinIdx (fun k q _ => if (255 : BitVec 8).getLsbD k then q.strip x.vl else q) })
      (my stepped).mvl = 0 ∧ regrant stepped = none) ∧
    (∃ s u : State, settled (my s) = true ∧ VecGoes s true [5, 6] [] ∧ grantsTo s u) ∧
    (∃ s : State, settled (my s) = true ∧ VecGoes s true [5, 6] [] ∧ (my s).mvl = 0 ∧ regrant s = none) ∧
    (∃ s u : State, settled (my s) = true ∧ VecGoes s true [5, 6] [] ∧
      grantsTo (setRequest s (me s) (min (max (reg s 6).toNat 1) (my s).vceil)) u) ∧
    (∃ s : State, settled (my s) = true ∧ VecGoes s true [5, 6] [] ∧
      let asked := setRequest s (me s) (min (max (reg s 6).toNat 1) (my s).vceil)
      (my asked).mvl = 0 ∧ regrant asked = none) ∧
    (∃ s : State, settled (my s) = true ∧ VecGoes s true [7] [] ∧
      (my s).watch = some { pc := pcOf s, count := (reg s 7).toNat - (my s).vl, strike := true }) ∧
    (∃ s u : State, settled (my s) = true ∧ VecGoes s true [7] [] ∧ (my s).watch = none ∧ (reg s 7).toNat - (my s).vl = 0 ∧
      grantsTo (modMy s (fun x => { x with
        streams := x.streams.mapFinIdx (fun k q _ => if (255 : BitVec 8).getLsbD k then q.strip x.vl else q) })) u) ∧
    (∃ s u : State, settled (my s) = true ∧ VecGoes s true [7] [] ∧ (my s).watch = none ∧ (reg s 7).toNat - (my s).vl = 1 ∧
      grantsTo (modMy s (fun x => { x with
        streams := x.streams.mapFinIdx (fun k q _ => if (255 : BitVec 8).getLsbD k then q.strip x.vl else q) })) u) :=
  ⟨⟨⟨crowded, by decide +kernel⟩, ⟨entitled 2 [], by decide +kernel⟩, ⟨entitled 1024 [], by decide +kernel⟩⟩,
    ⟨unsettled (entitled 4 []), by decide +kernel, vecGoes_of (by decide +kernel)⟩,
    ⟨unsettled (entitled 4 []), by decide +kernel, vecGoes_of (by decide +kernel), by decide +kernel⟩,
    ⟨crowded, by decide +kernel, vecGoes_of (by decide +kernel), by decide +kernel⟩,
    ⟨entitled 4 [], (grantsTo_of (by decide +kernel)).imp fun _ h => ⟨by decide +kernel, vecGoes_of (by decide +kernel), h⟩⟩,
    ⟨entitled 0 [], by decide +kernel, vecGoes_of (by decide +kernel), by decide +kernel⟩,
    ⟨entitled 4 [(6, 4)], (grantsTo_of (by decide +kernel)).imp fun _ h => ⟨by decide +kernel, vecGoes_of (by decide +kernel), h⟩⟩,
    ⟨crowded, by decide +kernel, vecGoes_of (by decide +kernel), by decide +kernel⟩,
    ⟨watched true, by decide +kernel, vecGoes_of (by decide +kernel), by decide +kernel⟩,
    ⟨entitled 4 [(7, 4)], (grantsTo_of (by decide +kernel)).imp fun _ h => ⟨by decide +kernel, vecGoes_of (by decide +kernel), by decide +kernel, by decide +kernel, h⟩⟩,
    ⟨entitled 4 [(7, 5)], (grantsTo_of (by decide +kernel)).imp fun _ h => ⟨by decide +kernel, vecGoes_of (by decide +kernel), by decide +kernel, by decide +kernel, h⟩⟩⟩

/-- Vector fields of the byte format through g1, scalar register 5, extension register 6. -/
def v8 : VFields := { vz with fmt := 1, s := 5, ext := 0x106 }
/-- A strip with s5 and s6 and streams that name a segment. -/
def streaming (g : BitVec 3) (a b : Word) : State :=
  own (fun x => { x with streams := x.streams.map (fun q => { q with seg := g }) }) (strip (small [(5, a), (6, b)]))
/-- The offsets of the active elements of a form. -/
def offsOf (s : State) (f : VFields) (p : Instr × Instr × List Reg × List VReg × (State → Bool) × (State → Nat → Nat → Nat)) :
    List Nat :=
  (actives (my s) f).map (p.2.2.2.2.2 s (cbits f.fmt.toNat / 8))

theorem witness_VectorLoads :
    (∃ s : State, ∀ p ∈ vecMemForms v8, VecGoes s true p.2.2.1 (v8.vd :: p.2.2.2.1) ∧ p.2.2.2.2.1 s = true ∧
      VecLoadGoes s (extSeg v8) 1 true (offsOf s v8 p)) ∧
    (∃ (s : State), ∃ p ∈ vecMemForms v8, VecGoes s true p.2.2.1 (v8.vd :: p.2.2.2.1) ∧ p.2.2.2.2.1 s = true ∧
      vecCause s (extSeg v8) 0 1 true (offsOf s v8 p) = some (.trap 2 (segvInfo 0 1 0) 4096 false)) ∧
    (∃ (s : State), ∃ p ∈ vecMemForms v8, VecGoes s true p.2.2.1 (v8.vd :: p.2.2.2.1) ∧ p.2.2.2.2.1 s = false) ∧
    (∃ s : State, ∀ p ∈ vecMemForms v8, vecIllegal s true p.2.2.1) ∧
    (∃ (s : State), ∃ p ∈ vecMemForms v8, VecGoes s true p.2.2.1 (v8.vd :: p.2.2.2.1) ∧ p.2.2.2.2.1 s = true ∧
      VecLoadReady s (extSeg v8) 1 true (offsOf s v8 p) ∧ s.defer = true ∧ actives (my s) v8 ≠ []) ∧
    (let all (s : State) (p : Instr × Instr × List Reg × List VReg × (State → Bool) × (State → Nat → Nat → Nat)) : List ByteRef :=
       ((offsOf s v8 p).map (elemRefs s (extSeg v8) 1)).flatten
     (∃ (s : State), ∃ p ∈ vecMemForms v8, VecGoes s true p.2.2.1 (v8.vd :: p.2.2.2.1) ∧ p.2.2.2.2.1 s = true ∧
       vecCause s (extSeg v8) 0 1 true (offsOf s v8 p) = none ∧
       (all s p).any (fun r => mustWait s s.cur s.stores r.kind false [] none) = true) ∧
     (∃ (s : State), ∃ p ∈ vecMemForms v8, VecGoes s true p.2.2.1 (v8.vd :: p.2.2.2.1) ∧ p.2.2.2.2.1 s = true ∧
       vecCause s (extSeg v8) 0 1 true (offsOf s v8 p) = none ∧
       (all s p).any (fun r => mustWait s s.cur s.stores r.kind false [] none) = false ∧
       (underRefs s (all s p)).any (poisoned s) = true)) :=
  have h : ∀ p ∈ vecMemForms v8, (let s := streaming 1 4080 1
      (admits s false p.2.2.1 && !inSvc s && (!true || (my s).vceil != 0) && landed (my s) (v8.vd :: p.2.2.2.1)) = true ∧
      p.2.2.2.2.1 s = true ∧ (vecCause s (extSeg v8) 0 1 true (offsOf s v8 p) == none &&
        !(((offsOf s v8 p).map (elemRefs s (extSeg v8) 1)).flatten).any (fun r => mustWait s s.cur s.stores r.kind false [] none) &&
        !(underRefs s (((offsOf s v8 p).map (elemRefs s (extSeg v8) 1)).flatten)).any (poisoned s) && !s.defer) = true) := by
    decide +kernel
  ⟨⟨streaming 1 4080 1, fun p hp => ⟨vecGoes_of (h p hp).1, (h p hp).2.1, vecLoadGoes_of (h p hp).2.2⟩⟩,
    ⟨streaming 1 4081 1, _, List.mem_cons_self .., vecGoes_of (by decide +kernel), by decide +kernel⟩,
    ⟨streaming 2 0 0, _, List.mem_of_getElem? (i := 3) rfl, vecGoes_of (by decide +kernel), by decide +kernel⟩,
    ⟨small [], fun p _ => .inr (.inr ⟨rfl, by decide +kernel⟩)⟩,
    ⟨deferred (streaming 1 4080 1), _, List.mem_cons_self .., vecGoes_of (by decide +kernel), by decide +kernel,
      ⟨by decide +kernel, by decide +kernel, by decide +kernel⟩, rfl, by decide +kernel⟩,
    ⟨paged 0 { streaming 1 4080 1 with stores := (pending 0).stores }, _, List.mem_cons_self .., vecGoes_of (by decide +kernel),
      by decide +kernel⟩,
    ⟨poisonedAt (17 * 4096 + 4080) (streaming 1 4080 1), _, List.mem_cons_self .., vecGoes_of (by decide +kernel),
      by decide +kernel⟩⟩

theorem witness_VectorStores :
    (∃ s : State, ∀ p ∈ vecMemForms v8, VecGoes s true p.2.2.1 (v8.vc :: p.2.2.2.1) ∧ p.2.2.2.2.1 s = true ∧
      vecCause s (extSeg v8) 1 1 true (offsOf s v8 p) = none) ∧
    (∃ (s : State), ∃ p ∈ vecMemForms v8, VecGoes s true p.2.2.1 (v8.vc :: p.2.2.2.1) ∧ p.2.2.2.2.1 s = true ∧
      vecCause s (extSeg v8) 1 1 true (offsOf s v8 p) = some (.trap 2 (segvInfo 0 1 1) 4096 false)) ∧
    (∃ (s : State), ∃ p ∈ vecMemForms v8, VecGoes s true p.2.2.1 (v8.vc :: p.2.2.2.1) ∧ p.2.2.2.2.1 s = false) ∧
    (∃ s : State, ∀ p ∈ vecMemForms v8, vecIllegal s true p.2.2.1) :=
  have h : ∀ p ∈ vecMemForms v8, (let s := streaming 1 4080 1
      (admits s false p.2.2.1 && !inSvc s && (!true || (my s).vceil != 0) && landed (my s) (v8.vc :: p.2.2.2.1)) = true ∧
      p.2.2.2.2.1 s = true ∧ vecCause s (extSeg v8) 1 1 true (offsOf s v8 p) = none) := by decide +kernel
  ⟨⟨streaming 1 4080 1, fun p hp => ⟨vecGoes_of (h p hp).1, (h p hp).2⟩⟩,
    ⟨streaming 1 4081 1, _, List.mem_cons_self .., vecGoes_of (by decide +kernel), by decide +kernel⟩,
    ⟨streaming 2 0 0, _, List.mem_of_getElem? (i := 3) rfl, vecGoes_of (by decide +kernel), by decide +kernel⟩,
    ⟨small [], fun p _ => .inr (.inr ⟨rfl, by decide +kernel⟩)⟩⟩

/-- A window of one page of the LSP from page 1. -/
def lsp (s : State) : State := inSlot (fun e => { e with dw2 := BitVec.ofNat 64 (2 ^ 32 + 2 ^ 22) }) s
/-- Blocks of SX6 through g1. -/
def vsx : VFields := { vz with fmt := 14, va := 3, s := 5, ext := 0x100 }

theorem witness_WindowAndBlockWords : (∃ s : State, vecIllegal s true [5]) ∧
    (∃ s : State, VecGoes s true [5] [0] ∧
      (vecCause s (extSeg vsx) 0 (sxBytes 14) false [((reg s 5).toNat + 0 * sxBytes 14) % 2 ^ 64]).isSome = true) ∧
    (∃ s : State, VecGoes s true [5] [0] ∧ (my s).vl ≠ 0 ∧ (reg s 5).toNat + 4 * (my s).vl = (lspWindow s).2 ∧
      (reg s 5).toNat % 4 = 0) ∧
    (∃ s : State, VecGoes s true [5] [0] ∧ (my s).vl ≠ 0 ∧ (reg s 5).toNat + 4 * (my s).vl ≤ (lspWindow s).2 ∧
      (reg s 5).toNat % 4 ≠ 0) ∧
    (∃ s : State, VecGoes s true [5] [0] ∧ (my s).vl ≠ 0 ∧ ¬(reg s 5).toNat + 4 * (my s).vl ≤ (lspWindow s).2) ∧
    (∃ s : State, VecGoes s true [5] [0] ∧ vsx.va.toNat < 4 ∧ numElems (my s) 14 / 16 = 1 ∧
      VecLoadGoes s (extSeg vsx) (sxBytes 14) false [((reg s 5).toNat + 0 * sxBytes 14) % 2 ^ 64]) ∧
    (∃ s : State, VecGoes s true [5] [0] ∧ vecCause s (extSeg vsx) 1 (sxBytes 14) false [((reg s 5).toNat + 0 * sxBytes 14) % 2 ^ 64] = none) :=
  ⟨⟨small [], .inr (.inr ⟨rfl, by decide +kernel⟩)⟩, ⟨strip (small [(5, 4085)]), vecGoes_of (by decide +kernel), by decide +kernel⟩,
    ⟨lsp (strip (small [(5, 4080)])), vecGoes_of (by decide +kernel), by decide +kernel⟩,
    ⟨lsp (strip (small [(5, 4079)])), vecGoes_of (by decide +kernel), by decide +kernel⟩,
    ⟨lsp (strip (small [(5, 4081)])), vecGoes_of (by decide +kernel), by decide +kernel⟩,
    ⟨strip (small [(5, 4084)]), vecGoes_of (by decide +kernel), by decide +kernel, by decide +kernel, vecLoadGoes_of (by decide +kernel)⟩,
    ⟨strip (small [(5, 4084)]), vecGoes_of (by decide +kernel), by decide +kernel⟩⟩

/-- VAMO on four words through g1. -/
def v32 : VFields := { vz with s := 5, ext := 0x100, fmt := 7 }

theorem witness_VectorAtomics :
    let offs (s : State) : List Nat := (actives (my s) v32).map (fun e => (((reg s 5).toNat + elem (my s) 0 7 e) % 2 ^ 64 : Nat))
    let refs (s : State) : List ByteRef := (offs s).flatMap (elemRefs s (extSeg v32) 4)
    let waits (s : State) : Bool := (refs s).any (fun r => atomicWaits s r.kind [r.loc] none)
    (∃ s : State, vecIllegal s true [5]) ∧
    (∃ s : State, VecGoes s true [5] [0, 0, 0] ∧ actives (my s) v32 = []) ∧
    (∃ s : State, VecGoes s true [5] [0, 0, 0] ∧ actives (my s) v32 ≠ [] ∧ s.defer = false ∧
      vecCause s (extSeg v32) 2 4 true (offs s) = none ∧ waits s = false ∧ (underRefs s (refs s)).any (poisoned s) = false) ∧
    (∃ s : State, VecGoes s true [5] [0, 0, 0] ∧ actives (my s) v32 ≠ [] ∧ s.defer = true ∧
      vecCause s (extSeg v32) 2 4 true (offs s) = none ∧ waits s = false ∧ (underRefs s (refs s)).any (poisoned s) = false) ∧
    (∃ s : State, VecGoes s true [5] [0, 0, 0] ∧ actives (my s) v32 ≠ [] ∧
      vecCause s (extSeg v32) 2 4 true (offs s) = none ∧ waits s = true) ∧
    (∃ s : State, VecGoes s true [5] [0, 0, 0] ∧ actives (my s) v32 ≠ [] ∧
      vecCause s (extSeg v32) 2 4 true (offs s) = none ∧ waits s = false ∧ (underRefs s (refs s)).any (poisoned s) = true) ∧
    (∃ s : State, VecGoes s true [5] [0, 0, 0] ∧ actives (my s) v32 ≠ [] ∧
      vecCause s (extSeg v32) 2 4 true (offs s) = some (.trap 3 256 2 false)) :=
  ⟨⟨small [], .inr (.inr ⟨rfl, by decide +kernel⟩)⟩,
    ⟨own (fun x => { x with vl := 0 }) (strip (small [])), vecGoes_of (by decide +kernel), by decide +kernel⟩,
    ⟨strip (small [(5, 4092)]), vecGoes_of (by decide +kernel), by decide +kernel⟩,
    ⟨deferred (strip (small [(5, 4092)])), vecGoes_of (by decide +kernel), by decide +kernel⟩,
    ⟨{ strip (small []) with stores := (pending 1).stores }, vecGoes_of (by decide +kernel), by decide +kernel⟩,
    ⟨poisonedAt (17 * 4096) (strip (small [])), vecGoes_of (by decide +kernel), by decide +kernel⟩,
    ⟨strip (small [(5, 2)]), vecGoes_of (by decide +kernel), by decide +kernel⟩⟩

theorem witness_VectorInteger :
    (∃ s : State, VecGoes s true [5] [0, 1, 2]) ∧ (∃ s : State, VecGoes s true [5] [1, 2] ∧ (7 : VReg).toNat < 8) ∧
    ∃ s : State, vecIllegal s true [5] :=
  ⟨⟨strip (small []), vecGoes_of (by decide +kernel)⟩, ⟨strip (small []), vecGoes_of (by decide +kernel), by decide⟩,
    ⟨small [], .inr (.inr ⟨rfl, by decide +kernel⟩)⟩⟩

/-- Elements of f32. -/
def vf : VFields := { vz with vd := 3, va := 1, vb := 2, fmt := 8 }
/-- A strip of ones over zeros, with FCSR as given. -/
def overZeros (fcsr : Word) : State :=
  own (fun x => { x with fcsr := fcsr }) (put 8 1 [0x3F800000, 0x3F800000, 0x3F800000, 0x3F800000] (strip (small [])))
/-- One form of a list. -/
theorem at_one {α : Type} {l : List α} {i : Nat} {x : α} (h : l[i]? = some x) : x ∈ l := List.mem_of_getElem? h

theorem witness_VectorFloat :
    (∃ s : State, vecIllegal s true [0]) ∧
    (∃ s : State, rndAdmits (my s) 7 = false ∧ (∃ p ∈ vecFloatForms { vf with rnd := 7 }, VecGoes s true [0] p.2.1) ∧
      VecGoes s true [0] [1, 2]) ∧
    (∃ s : State, rndAdmits (my s) 0 = true ∧ ∃ p ∈ vecFloatForms vf, VecGoes s true [0] p.2.1 ∧
      enabledOf (my s) &&& flagsOf ((actives (my s) vf).map (p.2.2 s (modeOf (rndOf (my s) 0)))) = 0) ∧
    (∃ s : State, rndAdmits (my s) 0 = true ∧ ∃ p ∈ vecFloatForms vf, VecGoes s true [0] p.2.1 ∧
      enabledOf (my s) &&& flagsOf ((actives (my s) vf).map (p.2.2 s (modeOf (rndOf (my s) 0)))) ≠ 0) ∧
    (∃ s : State, rndAdmits (my s) 0 = true ∧ ∃ p ∈ vecFloatCompares vf, VecGoes s true [0] [1, 2] ∧ vf.vd.toNat < 8 ∧
      enabledOf (my s) &&& flagsOf ((actives (my s) vf).map (p.2 s)) = 0) ∧
    (∃ s : State, rndAdmits (my s) 0 = true ∧ ∃ p ∈ vecFloatCompares vf, VecGoes s true [0] [1, 2] ∧ vf.vd.toNat < 8 ∧
      enabledOf (my s) &&& flagsOf ((actives (my s) vf).map (p.2 s)) ≠ 0) :=
  ⟨⟨small [], .inr (.inr ⟨rfl, by decide +kernel⟩)⟩,
    ⟨overZeros 0x8000, by decide +kernel, ⟨_, at_one (i := 3) rfl, vecGoes_of (by decide +kernel)⟩, vecGoes_of (by decide +kernel)⟩,
    ⟨overZeros 0, by decide +kernel, _, at_one (i := 3) rfl, vecGoes_of (by decide +kernel), by decide +kernel⟩,
    ⟨overZeros 0x800, by decide +kernel, _, at_one (i := 3) rfl, vecGoes_of (by decide +kernel), by decide +kernel⟩,
    ⟨overZeros 0x1F00, by decide +kernel, _, at_one (i := 1) rfl, vecGoes_of (by decide +kernel), by decide, by decide +kernel⟩,
    ⟨put 8 1 [0x7F800001] (overZeros 0x1F00), by decide +kernel, _, at_one (i := 0) rfl, vecGoes_of (by decide +kernel), by decide,
      by decide +kernel⟩⟩

/-- Conversion from f32 to f16, and its other words' fields. -/
def vc : VFields := { vz with vd := 3, va := 1, fmt := 9, ext := 8 }

theorem witness_VectorConversions :
    (∃ s : State, vecIllegal s true []) ∧
    (∃ s : State, VecGoes s true [] [3, 1] ∧ rndAdmits (my s) 7 = false ∧ narrows 9 8 = false) ∧
    (∃ s : State, VecGoes s true [] [3, 1] ∧ rndAdmits (my s) vc.rnd = true ∧
      let es := activeIn (my s) vc 9 ((my s).vl * min (perSlot 9) (perSlot 8))
      let r := convertAll false .rne 9 (fun m e => convert 8 9 false m (elem (my s) 1 8 e)) es (my s)
      enabledOf (my s) &&& flagsOf (r.1.map (·.2)) ≠ 0) ∧
    (∃ s : State, VecGoes s true [] [3, 1] ∧
      let es := activeIn (my s) { vc with fmt := 14 } 14 ((my s).vl * min (perSlot 14) (perSlot 8))
      enabledOf (my s) &&& (quantAll { vc with fmt := 14 } 0 false .rne (my s) es (my s)).2.1 ≠ 0) ∧
    (∃ s : State, VecGoes s true [] [3, 1] ∧ rndAdmits (my s) vc.rnd = true ∧
      let es := activeIn (my s) vc 9 ((my s).vl * min (perSlot 9) (perSlot 8))
      let r := convertAll false .rne 9 (fun m e => convert 8 9 false m (elem (my s) 1 8 e)) es (my s)
      es ≠ [] ∧ enabledOf (my s) &&& flagsOf (r.1.map (·.2)) = 0) ∧
    (∃ s : State, VecGoes s true [] [3, 1] ∧
      let es := activeIn (my s) { vc with fmt := 14 } 14 ((my s).vl * min (perSlot 14) (perSlot 8))
      es ≠ [] ∧ enabledOf (my s) &&& (quantAll { vc with fmt := 14 } 0 false .rne (my s) es (my s)).2.1 = 0) ∧
    (∃ s : State, VecGoes s true [] [3, 1] ∧ rndAdmits (my s) vc.rnd = true ∧
      let es := activeIn (my s) { vc with ext := 14 } 9 ((my s).vl * min (perSlot 9) (perSlot 14))
      let rs := es.map (fun e => fcvt (fmtOf 9) .rne (sxVal 14 ((scEntry (my s) 0 (e / 16)).extractLsb' 0 8).toNat
        ((scEntry (my s) 0 (e / 16)).extractLsb' 8 8).toNat (e % 16) (elem (my s) 1 14 e)))
      es ≠ [] ∧ enabledOf (my s) &&& flagsOf rs = 0) ∧
    (∃ s : State, VecGoes s true [] [1] ∧ vc.vd.toNat < 4) :=
  ⟨⟨small [], .inr (.inr ⟨rfl, by decide +kernel⟩)⟩, ⟨overZeros 0x8000, vecGoes_of (by decide +kernel), by decide +kernel⟩,
    ⟨put 8 1 [0x7F7FFFFF] (overZeros 0x1F00), vecGoes_of (by decide +kernel), by decide +kernel⟩,
    ⟨put 8 1 [0x7F800001] (overZeros 0x1F00), vecGoes_of (by decide +kernel), by decide +kernel⟩,
    ⟨overZeros 0, vecGoes_of (by decide +kernel), by decide +kernel⟩, ⟨overZeros 0, vecGoes_of (by decide +kernel), by decide +kernel⟩,
    ⟨overZeros 0, vecGoes_of (by decide +kernel), by decide +kernel⟩, ⟨strip (small []), vecGoes_of (by decide +kernel), by decide⟩⟩

theorem witness_PermutesAndMasks : (∃ s : State, vecIllegal s true [5] ∧ vecIllegal s true [5, 6] ∧ vecIllegal s true []) ∧
    (∃ s : State, ∃ p ∈ permuteForms v8, VecGoes s true [5] (v8.vd :: p.2.1)) ∧
    (∃ s : State, VecGoes s true [5] [0, 0] ∧ VecGoes s true [5, 6] [0] ∧ (reg s 6).toNat = (my s).vceil * perSlot 1 - 1) ∧
    (∃ s : State, VecGoes s true [5, 6] [0] ∧ ¬(reg s 6).toNat < (my s).vceil * perSlot 1) ∧
    (∃ s : State, VecGoes s true [5] [] ∧ v8.vd.toNat < 8 ∧ v8.va.toNat < 8 ∧ v8.vb.toNat < 8) :=
  ⟨⟨small [], .inr (.inr ⟨rfl, by decide +kernel⟩), .inr (.inr ⟨rfl, by decide +kernel⟩), .inr (.inr ⟨rfl, by decide +kernel⟩)⟩,
    ⟨strip (small []), _, List.mem_cons_self .., vecGoes_of (by decide +kernel)⟩,
    ⟨strip (small [(6, 63)]), vecGoes_of (by decide +kernel), vecGoes_of (by decide +kernel), by decide +kernel⟩,
    ⟨strip (small [(6, 64)]), vecGoes_of (by decide +kernel), by decide +kernel⟩,
    ⟨strip (small []), vecGoes_of (by decide +kernel), by decide⟩⟩

/-- Elements of f32 whose sums carry into v3. -/
def vr : VFields := { vz with vd := 3, va := 1, vb := 2, fmt := 8 }

theorem witness_Reductions :
    (∃ s : State, vecIllegal s true []) ∧ (∃ s : State, VecGoes s true [] [3, 1, 2] ∧ rndAdmits (my s) 7 = false) ∧
    (∃ s : State, VecGoes s true [] [3, 1, 2] ∧ rndAdmits (my s) vr.rnd = true ∧ enabledOf (my s) = 31 ∧
      (recurAll (fun e p => recurStep 8 0 .rne p (elem (my s) 1 8 e) (elem (my s) 2 8 e)) (actives (my s) vr) (my s).carry.toNat).2.2 = 0) ∧
    (∃ s : State, VecGoes s true [] [3, 1, 2] ∧ rndAdmits (my s) vr.rnd = true ∧ enabledOf (my s) &&&
      (recurAll (fun e p => recurStep 8 0 .rne p (elem (my s) 1 8 e) (elem (my s) 2 8 e)) (actives (my s) vr) (my s).carry.toNat).2.2 ≠ 0) ∧
    (∃ s : State, VecGoes s true [] [3, 1, 2] ∧ rndAdmits (my s) vr.rnd = true ∧ cbits 8 = 32 ∧ (my s).vl ≤ 1024 ∧
      enabledOf (my s) = 0) :=
  ⟨⟨small [], .inr (.inr ⟨rfl, by decide +kernel⟩)⟩, ⟨overZeros 0x8000, vecGoes_of (by decide +kernel), by decide +kernel⟩,
    ⟨overZeros 0x1F00, vecGoes_of (by decide +kernel), by decide +kernel⟩,
    ⟨own (fun x => { x with carry := 0x7F800001 }) (overZeros 0x1F00), vecGoes_of (by decide +kernel), by decide +kernel⟩,
    overZeros 0, vecGoes_of (by decide +kernel), by decide +kernel⟩

/-- A thread that holds no lane, of a ceiling as given; another of its context may hold the quota. -/
def gangless (k : Nat) (held : Bool) : State :=
  let s := own (fun x => { x with vceil := k, rq := k, ent := k, gvl := 0, slots := List.replicate k Slice.zero }) (small [])
  if held then setThr s 1 { Thread.start with vceil := 64, gvl := 64, rq := 64, ent := 60 } else s
/-- What MMODE does before it looks for a block, and the block it finds. -/
def asked (s : State) : State := settlePool (setRequest s (me s) (min (max (my s).rq (2 * 2)) (my s).vceil)) (myPool s)
/-- The block that MMODE picks for an edge of 2. -/
def picked (s : State) : Option (Nat × List Nat) :=
  let u := asked s
  (edgeCap (min (my u).ent (my u).vceil)).bind (fun cap => findGang u (me s) (edges.filter (fun e => decide (e ≤ min 2 cap))))
/-- The window of the LSP beside a gang whose scalar register 5 is as given. -/
def gangWindow (off : Word) : State := lsp (ganged (small [(5, off)]))

/-- The gang's queue holds `n` words. -/
def queueing (n : Nat) (s : State) : State :=
  own (fun x => { x with mqueue := List.replicate n { op := .zero 0, long := false, pc := 0 } }) s

theorem gangReady_of {s : State} {rs : List Reg} {vs : List VReg}
    (h : (admits s false rs && !inSvc s && (!true || (my s).vceil != 0) && landed (my s) vs) = true)
    (k : (my s).mvl ≠ 0) : GangReady s rs vs := ⟨vecGoes_of h, k⟩

theorem witness_GangsAndAccumulators :
    ((∃ s : State, VecGoes s true [5, 6] [] ∧ settled (my s) = false) ∧
      (∃ s : State, VecGoes s true [] [] ∧ (my s).mvl ≠ 0 ∧ (my s).mqueue ≠ []) ∧
      (∃ s : State, vecIllegal s true [5, 6] ∧ vecIllegal s true [5] ∧ vecIllegal s true []) ∧
      (∃ s : State, VecGoes s true [] [] ∧ VecGoes s true [5] [0, 1] ∧ (my s).mvl = 0) ∧
      (∃ s : State, GangReady s [5, 6] [] ∧ settled (my s) = false) ∧
      (∃ s : State, GangReady s [] [] ∧ GangReady s [5] [0] ∧ 4 ≤ (my s).mqueue.length ∧ (reg s 5).toNat < (my s).mvl) ∧
      (∃ s : State, GangReady s [] [] ∧ GangReady s [5] [0] ∧ (my s).mqueue.length = 3 ∧ s.defer = true ∧
        (reg s 5).toNat < (my s).mvl) ∧
      (∃ s : State, GangReady s [5] [] ∧ (my s).mqueue ≠ [] ∧ (reg s 5).toNat + 4 * ((my s).mvl * (my s).mvl) ≤ (lspWindow s).2 ∧
        (reg s 5).toNat % 128 = 0) ∧
      (∃ s : State, GangReady s [5] [] ∧ (my s).mqueue = [] ∧ s.defer = true ∧
        (reg s 5).toNat + 4 * ((my s).mvl * (my s).mvl) ≤ (lspWindow s).2 ∧ (reg s 5).toNat % 128 = 0)) ∧
    (∃ s : State, settled (my s) = true ∧ VecGoes s true [5, 6] [] ∧ (my s).mvl ≠ 0) ∧
    (∃ (s : State) (e : Nat) (b : List Nat), settled (my s) = true ∧ VecGoes s true [5, 6] [] ∧ (my s).mvl = 0 ∧
      picked s = some (e, b)) ∧
    (∃ (s v : State), settled (my s) = true ∧ VecGoes s true [5, 6] [] ∧ (my s).mvl = 0 ∧ picked s = none ∧
      regrant (asked s) = some v) ∧
    (∃ s : State, settled (my s) = true ∧ VecGoes s true [5, 6] [] ∧ (my s).mvl = 0 ∧ picked s = none ∧
      regrant (asked s) = none) ∧
    (∃ s : State, settled (my s) = true ∧ VecGoes s true [] [] ∧ (my s).mvl = 0) ∧
    (∃ s : State, settled (my s) = true ∧ VecGoes s true [] [] ∧ (my s).mvl ≠ 0) ∧
    (∃ s : State, GangGoes s [] []) ∧
    (∃ s : State, GangGoes s [5] [0] ∧ (reg s 5).toNat = (my s).mvl - 1 ∧ (reg s 5).toNat < (my s).mvl) ∧
    (∃ s : State, GangGoes s [5] [0] ∧ (my s).mvl ≤ (reg s 5).toNat) ∧
    (∃ s : State, GangGoes s [5] [] ∧ (reg s 5).toNat + 4 * ((my s).mvl * (my s).mvl) = (lspWindow s).2 ∧
      (reg s 5).toNat % 128 = 0) ∧
    (∃ s : State, GangGoes s [5] [] ∧ (reg s 5).toNat + 4 * ((my s).mvl * (my s).mvl) ≤ (lspWindow s).2 ∧
      (reg s 5).toNat % 128 ≠ 0) ∧
    (∃ s : State, GangGoes s [5] [] ∧ ¬(reg s 5).toNat + 4 * ((my s).mvl * (my s).mvl) ≤ (lspWindow s).2) :=
  have some₁ : (picked (gangless 16 false)).isSome = true := by decide +kernel
  have some₂ : (regrant (asked (gangless 3 false))).isSome = true := by decide +kernel
  have ⟨⟨e, b⟩, hb⟩ := Option.isSome_iff_exists.mp some₁
  have ⟨v, hv⟩ := Option.isSome_iff_exists.mp some₂
  ⟨⟨⟨queueing 1 (ganged (small [])), vecGoes_of (by decide +kernel), by decide +kernel⟩,
      ⟨queueing 1 (ganged (small [])), vecGoes_of (by decide +kernel), by decide +kernel⟩,
      ⟨small [], .inr (.inr ⟨rfl, by decide +kernel⟩), .inr (.inr ⟨rfl, by decide +kernel⟩), .inr (.inr ⟨rfl, by decide +kernel⟩)⟩,
      ⟨strip (small []), vecGoes_of (by decide +kernel), vecGoes_of (by decide +kernel), by decide +kernel⟩,
      ⟨queueing 1 (ganged (small [])), gangReady_of (by decide +kernel) (by decide +kernel), by decide +kernel⟩,
      ⟨queueing 4 (ganged (small [])), gangReady_of (by decide +kernel) (by decide +kernel),
        gangReady_of (by decide +kernel) (by decide +kernel), by decide +kernel⟩,
      ⟨deferred (queueing 3 (ganged (small []))), gangReady_of (by decide +kernel) (by decide +kernel),
        gangReady_of (by decide +kernel) (by decide +kernel), by decide +kernel⟩,
      ⟨queueing 1 (gangWindow 3072), gangReady_of (by decide +kernel) (by decide +kernel), by decide +kernel⟩,
      ⟨deferred (gangWindow 3072), gangReady_of (by decide +kernel) (by decide +kernel), by decide +kernel⟩⟩,
    ⟨ganged (small []), by decide +kernel, vecGoes_of (by decide +kernel), by decide +kernel⟩,
    ⟨gangless 16 false, e, b, by decide +kernel, vecGoes_of (by decide +kernel), by decide +kernel, hb⟩,
    ⟨gangless 3 false, v, by decide +kernel, vecGoes_of (by decide +kernel), by decide +kernel, by decide +kernel, hv⟩,
    ⟨gangless 3 true, by decide +kernel, vecGoes_of (by decide +kernel), by decide +kernel, by decide +kernel, by decide +kernel⟩,
    ⟨strip (small []), by decide +kernel, vecGoes_of (by decide +kernel), by decide +kernel⟩,
    ⟨ganged (small []), by decide +kernel, vecGoes_of (by decide +kernel), by decide +kernel⟩,
    ⟨ganged (small []), gangGoes_of (by decide +kernel) (by decide +kernel)⟩,
    ⟨gangWindow 15, gangGoes_of (by decide +kernel) (by decide +kernel), by decide +kernel⟩,
    ⟨gangWindow 16, gangGoes_of (by decide +kernel) (by decide +kernel), by decide +kernel⟩,
    ⟨gangWindow 3072, gangGoes_of (by decide +kernel) (by decide +kernel), by decide +kernel⟩,
    ⟨gangWindow 3071, gangGoes_of (by decide +kernel) (by decide +kernel), by decide +kernel⟩,
    ⟨gangWindow 3073, gangGoes_of (by decide +kernel) (by decide +kernel), by decide +kernel⟩⟩

/-- Outer products of f32 halves: v1 by v2. -/
def vo : VFields := { vz with vd := 0, va := 1, vb := 2, fmt := 9 }
/-- A gang with infinities in v1 over zeros in v2, or ones, with FCSR as given. -/
def outers (x : Nat) (fcsr : Word) : State := own (fun y => { y with fcsr := fcsr, mm := 1, mn := 1 }) (put 9 1 [x] (ganged (small [])))
/-- The accumulator that MOPA makes there, with the flags of each element. -/
def outerOf (s : State) : List (BitVec 32 × Flags) :=
  (accOf (my s) 0).mapIdx (fun q old =>
    if q / (my s).mvl < (my s).mm ∧ q % (my s).mvl < (my s).mn then
      outerElem false 9 (rndOf (my s) 0) [] [] [(vreg (my s) 1, vreg (my s) 2)] old (q / (my s).mvl) (q % (my s).mvl) else (old, 0))

theorem witness_OuterProducts :
    (∃ s : State, vecIllegal s true []) ∧ (∃ s : State, VecGoes s true [] [1, 2] ∧ (my s).mvl = 0) ∧
    (∃ s : State, GangReady s [] [1, 2] ∧ rndAdmits (my s) 7 = false) ∧
    (∃ s : State, GangReady s [] [1, 2] ∧ rndAdmits (my s) 0 = true ∧ enabledOf (my s) ≠ 0) ∧
    (∃ s : State, GangReady s [] [1, 2] ∧ rndAdmits (my s) 0 = true ∧ enabledOf (my s) = 0) ∧
    (∃ s : State, rndAdmits (my s) 0 = true ∧ GangGoes s [] [1, 2] ∧ enabledOf (my s) &&& flagsOf (outerOf s) = 0) ∧
    (∃ s : State, rndAdmits (my s) 0 = true ∧ GangGoes s [] [1, 2] ∧ enabledOf (my s) &&& flagsOf (outerOf s) ≠ 0) :=
  ⟨⟨small [], .inr (.inr ⟨rfl, by decide +kernel⟩)⟩, ⟨strip (small []), vecGoes_of (by decide +kernel), by decide +kernel⟩,
    ⟨outers 0 0x8000, gangReady_of (by decide +kernel) (by decide +kernel), by decide +kernel⟩,
    ⟨outers 0 0x1000, gangReady_of (by decide +kernel) (by decide +kernel), by decide +kernel⟩,
    ⟨outers 0 0, gangReady_of (by decide +kernel) (by decide +kernel), by decide +kernel⟩,
    ⟨outers 0x3C00 0x1000, by decide +kernel, gangGoes_of (by decide +kernel) (by decide +kernel), by decide +kernel⟩,
    ⟨outers 0x7C00 0x1000, by decide +kernel, gangGoes_of (by decide +kernel) (by decide +kernel), by decide +kernel⟩⟩

/-- A sampling word whose scalar register is 5, extension register 6, segment 1. -/
def saWord : Word := 0x9800000000002906
/-- The die's array with an owner, commands waiting, and a record of its own in the map. -/
def array (owner : Option Nat) (queue : List SaCmd) (state : Nat) (l : List (Reg × Word)) : State :=
  let s := modDie (strip (small l)) 0 (fun d => { d with sa := { d.sa with owner := owner, queue := queue } })
  withIr saWord (modKeeper s (fun k => { k with
    map := [(saRec 0, { kind := 7, state := state, value := 0, auxA := 1, auxB := 0, changed := 0 })] }))
/-- A frozen array of the thread's. -/
def iced : State := modDie (array (some 0) [] 1 []) 0 (fun d => { d with sa := { d.sa with frozen := some 0 } })
/-- A descriptor of one cell at the end of the page: FIRST 65,535, COUNT 1. -/
def cellAt (bad : Nat) : State :=
  let s := array (some 0) [] 1 [(5, 4064)]
  { s with mem := s.mem.setAll ((span (17 * 4096 + 4064) 8).zip (leBytes 8 (2 ^ 32 + 65535 + bad))) }

theorem witness_SamplingCommands :
    (∃ s : State, VecGoes s false [(vFields s.ir).s] [] ∧ VecGoes s false [] [] ∧ (mySa s).owner = some (me s) ∧
      (mySa s).frozen = none ∧ (mySa s).queue = []) ∧
    (∃ s : State, VecGoes s false [(vFields s.ir).s] [] ∧ (mySa s).owner = none ∧ unitLive s (saRec (myDie s)) = false ∧
      mapState s (saRec (myDie s)) = 3) ∧
    (∃ s : State, VecGoes s false [(vFields s.ir).s] [] ∧ (mySa s).owner = none ∧ unitLive s (saRec (myDie s)) = false ∧
      mapState s (saRec (myDie s)) = 0) ∧
    (∃ s : State, VecGoes s false [(vFields s.ir).s] [] ∧ ¬((mySa s).owner = some (me s) ∧ (mySa s).frozen = none) ∧
      unitLive s (saRec (myDie s)) = true ∧ ((mySa s).owner ≠ none ∨ (mySa s).frozen ≠ none)) ∧
    (∃ s : State, VecGoes s false [(vFields s.ir).s] [] ∧ unitLive s (saRec (myDie s)) = true ∧ (mySa s).owner = none ∧
      (mySa s).frozen = none) ∧
    (∃ s : State, VecGoes s false [] [] ∧ (mySa s).owner = some (me s) ∧ (mySa s).frozen = none ∧ (mySa s).queue.length = 7) ∧
    (∃ s : State, VecGoes s false [5] [] ∧ (mySa s).owner = some (me s) ∧ (mySa s).frozen = none ∧ (mySa s).queue.length = 8 ∧
      (vFields s.ir).s = 5 ∧ (reg s 5).toNat < 2 ^ 32) ∧
    (∃ s : State, VecGoes s false [5] [] ∧ (mySa s).owner = some (me s) ∧ (mySa s).frozen = none ∧ (vFields s.ir).s = 5 ∧
      (reg s 5).toNat = 2 ^ 32) ∧
    (∃ s : State, VecGoes s false [5] [] ∧ (mySa s).owner = some (me s) ∧ (mySa s).frozen = none ∧ (vFields s.ir).s = 5 ∧
      (mySa s).queue.length < 8 ∧ pendingOf s s.cur = 0 ∧ LoadGoes { s with defer := false } 1 (reg s 5) 32 8 false ∧
      ∃ l, bytesOf s (accessRefs s 1 (reg s 5) 32) = l ∧
      let w (i : Nat) : Word := BitVec.ofNat 64 (leNat ((l.drop (8 * i)).take 8))
      saDescriptorOk (w 0) (w 1) (w 2) = true ∧ segCheck (seg s 1) 1 (w 1).toNat (8 * field (w 0) 32 17) 0 = none ∧
        segCheck (seg s 1) 1 (w 2).toNat (4 * (w 3).toNat) 0 = none) ∧
    (∃ s : State, VecGoes s false [5] [] ∧ (mySa s).owner = some (me s) ∧ (mySa s).frozen = none ∧ (vFields s.ir).s = 5 ∧
      (mySa s).queue.length < 8 ∧ pendingOf s s.cur = 0 ∧ LoadGoes { s with defer := false } 1 (reg s 5) 32 8 false ∧
      ∃ l, bytesOf s (accessRefs s 1 (reg s 5) 32) = l ∧
      let w (i : Nat) : Word := BitVec.ofNat 64 (leNat ((l.drop (8 * i)).take 8))
      saDescriptorOk (w 0) (w 1) (w 2) = false) ∧
    (∃ s : State, VecGoes s false [5, 6] [] ∧ VecGoes s true [5, 6] [0] ∧ (vFields s.ir).s = 5 ∧ extReg (vFields s.ir) = 6 ∧
      ¬((mySa s).owner = some (me s) ∧ (mySa s).frozen = none)) ∧
    (let mine (s : State) : Prop := VecGoes s false [5] [] ∧ (mySa s).owner = some (me s) ∧ (mySa s).frozen = none ∧
       (vFields s.ir).s = 5 ∧ (mySa s).queue.length < 8
     (∃ s : State, mine s ∧ pendingOf s s.cur ≠ 0) ∧ (∃ s : State, mine s ∧ pendingOf s s.cur = 0 ∧ ownQueued s s.cur = true) ∧
     (∃ s : State, mine s ∧ pendingOf s s.cur = 0 ∧ ownQueued s s.cur = false ∧ (scalarCause s 1 (reg s 5) 32 0 8).isSome = true) ∧
     (∃ s : State, mine s ∧ pendingOf s s.cur = 0 ∧ ownQueued s s.cur = false ∧ LoadReady s 1 (reg s 5) 32 8 ∧
       (underRefs s (accessRefs s 1 (reg s 5) 32)).any (poisoned s) = true)) ∧
    (∃ s : State, vecIllegal s false [5] ∧ vecIllegal s false []) :=
  ⟨⟨array (some 0) [] 1 [], vecGoes_of (by decide +kernel), vecGoes_of (by decide +kernel), by decide +kernel⟩,
    ⟨array none [] 3 [], vecGoes_of (by decide +kernel), by decide +kernel⟩,
    ⟨array none [] 0 [], vecGoes_of (by decide +kernel), by decide +kernel⟩,
    ⟨iced, vecGoes_of (by decide +kernel), by decide +kernel⟩, ⟨array none [] 1 [], vecGoes_of (by decide +kernel), by decide +kernel⟩,
    ⟨array (some 0) (List.replicate 7 (.beta 0)) 1 [], vecGoes_of (by decide +kernel), by decide +kernel⟩,
    ⟨array (some 0) (List.replicate 8 (.beta 0)) 1 [(5, 0xFFFFFFFF)], vecGoes_of (by decide +kernel), by decide +kernel⟩,
    ⟨array (some 0) [] 1 [(5, 0x100000000)], vecGoes_of (by decide +kernel), by decide +kernel⟩,
    ⟨cellAt 0, vecGoes_of (by decide +kernel), by decide +kernel, by decide +kernel, by decide +kernel, by decide +kernel,
      by decide +kernel, loadGoes_of (by decide +kernel), leBytes 8 (2 ^ 32 + 65535) ++ List.replicate 24 0, by decide +kernel, by decide +kernel⟩,
    ⟨cellAt (2 ^ 32), vecGoes_of (by decide +kernel), by decide +kernel, by decide +kernel, by decide +kernel, by decide +kernel,
      by decide +kernel, loadGoes_of (by decide +kernel), leBytes 8 (2 ^ 33 + 65535) ++ List.replicate 24 0, by decide +kernel, by decide +kernel⟩,
    ⟨array (some 1) [] 1 [], vecGoes_of (by decide +kernel), vecGoes_of (by decide +kernel), by decide +kernel⟩,
    ⟨⟨{ cellAt 0 with stores := (pending 1).stores }, ⟨vecGoes_of (by decide +kernel), by decide +kernel⟩, by decide +kernel⟩,
      ⟨modDie (cellAt 0) 0 (fun d => { d with uoq := (die inDie 0).uoq }), ⟨vecGoes_of (by decide +kernel), by decide +kernel⟩, by decide +kernel⟩,
      ⟨setReg (cellAt 0) 5 4065, ⟨vecGoes_of (by decide +kernel), by decide +kernel⟩, by decide +kernel⟩,
      ⟨poisonedAt (17 * 4096 + 4064) (cellAt 0), ⟨vecGoes_of (by decide +kernel), by decide +kernel⟩, by decide +kernel, by decide +kernel,
        ⟨by decide +kernel, by decide +kernel⟩, by decide +kernel⟩⟩,
    ⟨withIr saWord inService, .inr (.inl (by decide +kernel)), .inr (.inl (by decide +kernel))⟩⟩

theorem witness_SamplingRegisters :
    (∃ s : State, (mySa s).owner = some (me s) ∧ (mySa s).frozen = none ∧ (mySa s).queue = [] ∧ s.defer = false ∧
      (vFields s.ir).s = 5 ∧ (reg s 5).toNat = 65504 ∧ VecGoes s true [5] [0, 0] ∧ VecGoes s true [5, 6] [0]) ∧
    (∃ s : State, VecGoes s true [5] [0, 0] ∧ (mySa s).owner = some (me s) ∧ (mySa s).frozen = none ∧ (reg s 5).toNat = 65536) ∧
    (∃ s : State, VecGoes s true [5] [0, 0] ∧ (mySa s).owner = some (me s) ∧ (mySa s).frozen = none ∧ (reg s 5).toNat = 65504 ∧
      (mySa s).queue ≠ []) ∧
    (∃ s : State, VecGoes s true [5] [0, 0] ∧ (mySa s).owner = some (me s) ∧ (mySa s).frozen = none ∧ (reg s 5).toNat = 0 ∧
      (mySa s).queue = [] ∧ s.defer = true) ∧
    (∃ (s : State) (w : Word), hasThr s s.msg.a = true ∧ (thr s s.msg.a).cond = .inEngine w ∧ (thr s s.msg.a).mqueue = []) :=
  ⟨⟨array (some 0) [] 1 [(5, 65504)], by decide +kernel, by decide +kernel, by decide +kernel, by decide +kernel, by decide +kernel,
      by decide +kernel, vecGoes_of (by decide +kernel), vecGoes_of (by decide +kernel)⟩,
    ⟨array (some 0) [] 1 [(5, 65536)], vecGoes_of (by decide +kernel), by decide +kernel⟩,
    ⟨array (some 0) [.beta 0] 1 [(5, 65504)], vecGoes_of (by decide +kernel), by decide +kernel⟩,
    ⟨{ array (some 0) [] 1 [] with defer := true }, vecGoes_of (by decide +kernel), by decide +kernel⟩,
    ⟨own (fun x => { x with cond := .inEngine 0x9880000000002906 }) (small []), 0x9880000000002906, by decide +kernel⟩⟩

/-- A cell that takes part, of a colour. -/
def cellOf (k : Nat) : Cell :=
  { state := true, en := true, bias := 0, colour := k, coup := [(127, 0)], clamp := false, count := 65535, gen := 1 }

theorem witness_SweepCells : (0 : Int) < 127 ∧ (8 : Nat) ≤ 8 ∧ ∃ (a : SArray) (k : Nat), krising a.cells = true ∧ a.mode = false ∧ k < 8 ∧
    a.cells ≠ [] ∧ ∀ p ∈ a.cells, p.2.en = true → p.2.colour = k :=
  ⟨by decide, by decide, { SArray.reset with cells := [(0, cellOf 7), (65535, cellOf 7)] }, 7, by decide +kernel⟩

/-- A step of the array of die 0, given its queue, whether it has failed and its mode. -/
def running (queue : List SaCmd) (fault mode : Bool) : State :=
  told { Msg.empty with a := 0 } (modDie (array (some 0) queue 1 []) 0 (fun d => { d with sa := { d.sa with fault := fault, mode := mode } }))
/-- A LOAD of cell 65,535 through g1, the record at an offset. -/
def loadLast (off : Nat) : SaCmd := .load 65535 1 off 0 0 dataSeg 0

theorem witness_SamplingEvents :
    (∃ s : State, s.msg.a = 0 ∧ (die s 0).sa.queue = [.beta 1] ∧ (die s 0).sa.fault = true) ∧
    (∃ s : State, (die s s.msg.a).sa.queue = [.beta 1] ∧ (die s s.msg.a).sa.fault = false) ∧
    (∃ s : State, (die s s.msg.a).sa.queue = [.seed 1 true] ∧ (die s s.msg.a).sa.fault = false ∧ entropyOk s s.msg.a = true) ∧
    (∃ s : State, (die s s.msg.a).sa.queue = [.seed 1 true] ∧ (die s s.msg.a).sa.fault = false ∧ entropyOk s s.msg.a = false) ∧
    (∃ s : State, (die s s.msg.a).sa.queue = [.sweep 0 0] ∧ (die s s.msg.a).sa.fault = false) ∧
    (∃ s : State, (die s s.msg.a).sa.queue = [.sweep 1 0] ∧ (die s s.msg.a).sa.fault = false ∧ (die s s.msg.a).sa.mode = true ∧
      s.msg.flag = false) ∧
    (∃ s : State, (die s s.msg.a).sa.queue = [.sweep 1 0] ∧ (die s s.msg.a).sa.fault = false ∧ (die s s.msg.a).sa.mode = false) ∧
    (∃ s : State, (die s s.msg.a).sa.queue = [.sweep 2 7] ∧ (die s s.msg.a).sa.fault = false ∧ (die s s.msg.a).sa.mode = false) ∧
    (∃ s : State, (die s s.msg.a).sa.queue = [.sweep 1 0] ∧ (die s s.msg.a).sa.fault = false ∧ (die s s.msg.a).sa.mode = false ∧
      0 + min s.msg.b (8 - 0) < 8 ∧ s.msg.b ≠ 0) ∧
    (∃ s : State, (die s s.msg.a).sa.queue = [loadLast 4088] ∧ (die s s.msg.a).sa.fault = false ∧
      ∀ i, i < 1 → ∃ x, loadCell s s.msg.a (65535 + i) (4088 + 8 * i) 0 0 dataSeg 0 = .ok x) ∧
    (∃ s : State, ∃ k cva, (die s s.msg.a).sa.queue = [loadLast 8192] ∧ (die s s.msg.a).sa.fault = false ∧
      loadCell s s.msg.a 65535 8192 0 0 dataSeg 0 = .error (.bad k cva)) ∧
    (∃ s : State, ∃ k cva, (die s s.msg.a).sa.queue = [.load 65534 2 4088 0 0 dataSeg 0] ∧ (die s s.msg.a).sa.fault = false ∧
      (∀ j, j < 1 → ∃ x, loadCell s s.msg.a (65534 + j) (4088 + 8 * j) 0 0 dataSeg 0 = .ok x) ∧
      loadCell s s.msg.a (65534 + 1) (4088 + 8 * 1) 0 0 dataSeg 0 = .error (.bad k cva)) ∧
    (∃ s : State, ∃ cva, (die s s.msg.a).sa.queue = [loadLast 0] ∧ (die s s.msg.a).sa.fault = false ∧
      loadCell s s.msg.a 65535 0 0 0 dataSeg 0 = .error (.delay cva)) :=
  ⟨⟨running [.beta 1] true false, by decide +kernel⟩, ⟨running [.beta 1] false false, by decide +kernel⟩,
    ⟨running [.seed 1 true] false false, by decide +kernel⟩,
    ⟨modKeeper (running [.seed 1 true] false false) (fun k => { k with
      map := [(saRec 0, { kind := 7, state := 0, value := 0, auxA := 0, auxB := 0, changed := 0 })] }), by decide +kernel⟩,
    ⟨running [.sweep 0 0] false false, by decide +kernel⟩, ⟨running [.sweep 1 0] false true, by decide +kernel⟩,
    ⟨running [.sweep 1 0] false false, by decide +kernel⟩, ⟨running [.sweep 2 7] false false, by decide +kernel⟩,
    ⟨(let s := running [.sweep 1 0] false false; told { s.msg with b := 7 } s), by decide +kernel⟩,
    ⟨running [loadLast 4088] false false, by decide +kernel, by decide +kernel, fun i h => by
      obtain rfl : i = 0 := by omega
      exact ⟨_, rfl⟩⟩,
    ⟨running [loadLast 8192] false false, _, _, by decide +kernel, by decide +kernel, rfl⟩,
    ⟨running [.load 65534 2 4088 0 0 dataSeg 0] false false, _, _, by decide +kernel, by decide +kernel, fun j h => by
      obtain rfl : j = 0 := by omega
      exact ⟨_, rfl⟩, rfl⟩,
    ⟨(let s := running [loadLast 0] false false
      { s with pt := kset s.pt (4 * 4096 + 8) (ptEntry 0 1 false true true false) }), 4096, by decide +kernel, by decide +kernel, rfl⟩⟩

/-- A kernel at the code heap's first word. -/
def firstKernel : Kernel :=
  { ret := false, entry := 0, size := 8, lanes := 0, lendep := false, tags := 0, foot := [], obj := 2 }
/-- Tenant 0 enabled, its port 0 bound as given with `n` records waiting; context 0 has one kernel. -/
def ported (c : Option Nat) (n : Nat) (m : Msg) : State :=
  let s := inCtx (fun x => { x with kernels := [firstKernel] }) (small [])
  told m (modTenant s 0 (fun t => { t with
    enabled := true
    ports := [(0, { Port.reset with ctx := c, queue := List.replicate n (List.replicate 8 0) })] }))
/-- A record of one tile at entry 0. -/
def oneTile : List Word := [BitVec.ofNat 64 (2 ^ 56), 0, 0, 0, 0, 0, 0, 0]
/-- A fatal trap's record. -/
def someFatal : Fatal := { time := 0, mapver := 0, cause := 0, tval := 0, epc := 0, thread := 0, nfatal := 1, seq := 0 }
/-- The record with other scratch and segment words. -/
def tileWith (seg scratch : Word) : List Word := [BitVec.ofNat 64 (2 ^ 56), 0, seg, 0, 0, scratch, 0, 0]

theorem witness_Launches :
    (∃ s : State, (tenant s 0).enabled = true ∧ (port s 0 0).ctx = some 0 ∧ s.msg.words.length = 8 ∧
      launchCode s 0 s.msg.words = 0 ∧ (port s 0 0).queue.length = 255) ∧
    (∃ s : State, (tenant s 0).enabled = true ∧ (port s 0 0).ctx = none) ∧
    (∃ s : State, (tenant s 0).enabled = true ∧ (port s 0 0).ctx = some 0 ∧ frozenCtx s 0 = true) ∧
    (∃ s : State, (tenant s 0).enabled = true ∧ (port s 0 0).ctx = some 0 ∧ frozenCtx s 0 = false ∧ s.msg.words.length = 9) ∧
    (∃ s : State, (tenant s 0).enabled = true ∧ (port s 0 0).ctx = some 0 ∧ s.msg.words.length = 8 ∧
      launchCode s 0 s.msg.words = 1) ∧
    (∃ s : State, (tenant s 0).enabled = true ∧ (port s 0 0).ctx = some 0 ∧ s.msg.words.length = 8 ∧
      launchCode s 0 s.msg.words = 0 ∧ (port s 0 0).queue.length = 256) ∧
    (∃ s : State, (tenant s 0).enabled = true ∧ s.msg.c = 64 ∧ s.msg.d = 8) ∧
    (∃ s : State, (tenant s 0).enabled = true ∧ s.msg.c = 63 ∧ s.msg.d = 1 ∧ (port s 0 0).ctx = some 0 ∧ frozenCtx s 0 = false) ∧
    (∃ s : State, (tenant s 0).enabled = true ∧ s.msg.c = 63 ∧ s.msg.d = 1 ∧ (port s 0 0).ctx = none) ∧
    (∃ s : State, ctx? s 1 = none) ∧
    (∃ (s : State) (x : Ctx), ctx? s 0 = some x ∧ x.frozen ≠ none) ∧
    (∃ (s : State) (x : Ctx), ctx? s 0 = some x ∧ x.frozen = none ∧ recFormOk (List.replicate 8 0) = false ∧
      recFormOk oneTile = true ∧ recKernel x oneTile = some firstKernel ∧ firstKernel.obj ∉ x.tainted ∧
      recScratch (tileWith 0 128) ≠ 0 ∧ shareFits s 0 (recScratch (tileWith 0 8192)) = false ∧
      recScratch (tileWith 0x8000000000000000 0) = 0 ∧ recSeg (tileWith 0x8000000000000000 0) = none ∧ recSeg oneTile ≠ none) ∧
    (∃ (s : State) (x : Ctx), ctx? s 0 = some x ∧ x.frozen = none ∧ ∀ k ∈ x.kernels, k.ret = true ∨ k.entry ≠ recEntry oneTile) ∧
    (∃ (s : State) (x : Ctx), ctx? s 0 = some x ∧ x.frozen = none ∧ recKernel x oneTile = some firstKernel ∧
      firstKernel.obj ∈ x.tainted) :=
  ⟨⟨ported (some 0) 255 { Msg.empty with words := oneTile }, by decide +kernel⟩, ⟨ported none 0 Msg.empty, by decide +kernel⟩,
    ⟨inCtx (fun x => { x with frozen := some someFatal }) (ported (some 0) 0 Msg.empty), by decide +kernel⟩,
    ⟨ported (some 0) 0 { Msg.empty with words := List.replicate 9 0 }, by decide +kernel⟩,
    ⟨ported (some 0) 0 { Msg.empty with words := List.replicate 8 0 }, by decide +kernel⟩,
    ⟨ported (some 0) 256 { Msg.empty with words := oneTile }, by decide +kernel⟩,
    ⟨ported (some 0) 0 { Msg.empty with c := 64, d := 8 }, by decide +kernel⟩,
    ⟨ported (some 0) 0 { Msg.empty with c := 63, d := 1 }, by decide +kernel⟩,
    ⟨ported none 0 { Msg.empty with c := 63, d := 1 }, by decide +kernel⟩, ⟨small [], by decide +kernel⟩,
    ⟨inCtx (fun x => { x with frozen := some someFatal }) (small []), _, rfl, by decide +kernel⟩,
    ⟨ported (some 0) 0 Msg.empty, _, rfl, by decide +kernel⟩, ⟨small [], _, rfl, by decide +kernel⟩,
    ⟨inCtx (fun x => { x with tainted := [2] }) (ported (some 0) 0 Msg.empty), _, rfl, by decide +kernel⟩⟩

/-- Hardware contexts 0 and 1 of cores 0 and 1 are bound to the context, of which thread 0 runs the one task of gang 0; `next`
tiles of that gang are taken, and the pool's ready list holds `n` of them. -/
def dispatching (next n : Nat) (m : Msg) : State :=
  let s := inSlot (fun e => { e with dw0 := e.dw0 ||| 0x300020000 }) (ported (some 0) 0 m)
  let s := modGang s 0 0 (fun g => { g with next := next })
  modPool s 0 (fun p => { p with ready := List.replicate n { ctx := 0, gid := 0, tile := 0, bypass := 8 } })
/-- The same with a continuation of thread 0 to steal, for the thread given. -/
def stealing (t : Nat) : State :=
  let s := dispatching 1 0 { Msg.empty with a := t }
  own (fun x => { x with deque := [4096] }) s

theorem witness_TaskEvents :
    (∃ (s : State) (x : Ctx), frozenCtx s 0 = false ∧ ctx? s 0 = some x ∧ x.succs = [] ∧ freeGid x = some 1 ∧
      (port s x.tenant x.port).ctx = some 0 ∧ (port s x.tenant x.port).queue.length = 1) ∧
    (∃ (s : State) (x : Ctx), frozenCtx s 0 = false ∧ ctx? s 0 = some x ∧ x.succs = [oneTile] ∧ freeGid x = some 1 ∧
      (port s x.tenant x.port).queue = []) ∧
    (∃ s : State, unitLive s (16 + 0) = false) ∧
    (∃ s : State, ctxStarts s 0 = true ∧ unitLive s (16 + 0) = true ∧ (readyOf s 0 0).length = 2 ∧ (readyOf s 0 0).length < (freeHw s 0 0).length ∧
      (drawable s 0).isSome = true) ∧
    (∃ s : State, ctxStarts s 0 = true ∧ unitLive s (16 + 0) = true ∧ chooseTask s 0 (readyOf s 0 0) = some 0 ∧
      (readyOf s 0 0)[0]? = some { ctx := 0, gid := 0, tile := 0, bypass := 8 } ∧
      readyKernel s { ctx := 0, gid := 0, tile := 0, bypass := 8 } = some firstKernel ∧
      (freeHw s 0 0).find? (fun t => qualifies s (coreOf t) 0 (recScratch (gang s 0 0).record) 0 false) = some 1) ∧
    (∃ s : State, ctxStarts s 0 = true ∧ unitLive s (16 + 0) = true ∧ readyOf s 0 0 = [] ∧ freeHw s 0 0 = 1 :: [17, 18] ∧ stealable s 0 = true) ∧
    (∃ s : State, ∃ e, s.msg.a = 17 ∧ bindingEntry s (coreOf 17) (hwOf 17) = some e ∧ e.2.ctx = 0 ∧ hasThr s 17 = false ∧
      ctxStarts s e.2.ctx = true ∧ readyOf s (poolOf 17) e.2.ctx = [] ∧ victimOf s 17 e.2.ctx = some 0 ∧ givesWay s 17 0 = true) ∧
    (∃ s : State, ∃ e, s.msg.a = 17 ∧ bindingEntry s (coreOf 17) (hwOf 17) = some e ∧ e.2.ctx = 0 ∧ hasThr s 17 = false ∧
      ctxStarts s e.2.ctx = true ∧ readyOf s (poolOf 17) e.2.ctx = [] ∧ victimOf s 17 e.2.ctx = some 0 ∧ givesWay s 17 0 = false ∧
      (thr s 0).deque.headD 0 = 4096 ∧
      let u := modThr (modCore s (coreOf 17) (fun c => { c with tried := kset c.tried (4 * hwOf 17 + 0) 0 })) 0
        (fun x => { x with thief := some (coreOf 17) })
      let n := frameSize ((wordsAt { u with cur := .thread 17 } (refsOf u 0 4096 24)).getD 1 0)
      n = 144 ∧ judge u (frameChk 0 none) (span 4096 24) = none ∧ judge u (frameChk 0 none) (span 4096 n) = none ∧
        ∀ r ∈ refsOf u 0 4096 n, r.has = true → poisoned u r.loc = false) :=
  ⟨⟨ported (some 0) 1 Msg.empty, _, by decide +kernel, rfl, by decide +kernel⟩,
    ⟨inCtx (fun x => { x with succs := [oneTile] }) (ported (some 0) 0 Msg.empty), _, by decide +kernel, rfl, by decide +kernel⟩,
    ⟨modKeeper (small []) (fun k => { k with map := [(16, { liveRec 2 0 0 0 with state := 3 })] }), by decide +kernel⟩,
    ⟨dispatching 0 2 Msg.empty, by decide +kernel⟩, ⟨dispatching 1 1 Msg.empty, by decide +kernel⟩,
    ⟨stealing 1, by decide +kernel⟩,
    ⟨{ inSlot (fun e => { e with dw0 := e.dw0 ||| 0x400000000 }) (own (fun x => { x with thief := some 1 }) (stealing 17)) with
        owed := [ev .steal 34] }, _, by decide +kernel, rfl, by decide +kernel⟩,
    ⟨stealing 17, _, by decide +kernel, rfl, by decide +kernel⟩⟩

/-- Thread 0 waits for a footprint region of its kernel in segment `n`. -/
def footed (n bytes : Nat) (present : Bool) : State :=
  let s := ported (some 0) 0 Msg.empty
  let s := inCtx (fun x => { x with kernels := [{ firstKernel with foot := [(n, 0, bytes)] }] }) s
  let s := modGang s 0 0 (fun g => { g with record := tileWith 0 128 })
  let s := own (fun x => { x with cond := .fetching }) s
  let s : State := { s with tasks := s.tasks.map (fun p => (p.1, { p.2 with runPa := sramPa 0 0, runSize := 128 })) }
  if present then s else { s with pt := kset s.pt (4 * 4096) (ptEntry 0 1 true false true false) }
/-- What TASK_START makes of it. -/
def footOf (s : State) : Foot :=
  let k := task s (thr s 0).task
  let r := (gang s 0 k.gid).record
  footAll s k r (match (ctx? s 0).bind (fun y => recKernel y r) with | some y => y.foot | none => []) 0

theorem witness_GangAndTimeEvents :
    (∃ s : State, s.msg.a = 0 ∧ hasThr s 0 = true ∧ (thr s 0).cond = .fetching ∧ frozenCtx s (thr s 0).ctx = true) ∧
    (∃ s : State, s.msg.a = 0 ∧ hasThr s 0 = true ∧ (thr s 0).cond = .fetching ∧ frozenCtx s (thr s 0).ctx = false ∧
      suspendedCtx s (thr s 0).ctx = true) ∧
    (∃ s : State, ∃ l, s.msg.a = 0 ∧ hasThr s 0 = true ∧ (thr s 0).cond = .fetching ∧ frozenCtx s (thr s 0).ctx = false ∧
      suspendedCtx s (thr s 0).ctx = false ∧ footOf s = .ok l ∧ l.length = 8) ∧
    (∃ s : State, s.msg.a = 0 ∧ hasThr s 0 = true ∧ (thr s 0).cond = .fetching ∧ footOf s = .delay 0) ∧
    (∃ s : State, s.msg.a = 0 ∧ hasThr s 0 = true ∧ (thr s 0).cond = .fetching ∧ footOf s = .bad 2 (segvInfo 0 1 1) 0) ∧
    (∃ (s : State) (x : Ctx), ctx? s s.msg.a = some x ∧
      x.ended = [{ gid := 0, record := oneTile, port := none, phase := 3 }] ∧
      (gangAction s 0 { gid := 0, record := oneTile, port := none, phase := 3 }).isSome = true) ∧
    (∃ (s : State) (x : Ctx) (g : Gang), ctx? s s.msg.a = some x ∧ kfind x.gangs s.msg.b = some g ∧ g.wdt ≠ 0 ∧
      g.wdt * 1024 = g.wdCount ∧ x.frozen = none) ∧
    (∃ (s : State) (x : Ctx) (g : Gang), ctx? s s.msg.a = some x ∧ kfind x.gangs s.msg.b = some g ∧ g.wdt ≠ 0 ∧
      g.wdt * 1024 = g.wdCount ∧ x.frozen ≠ none) ∧
    (∃ (s : State) (e : SlotEntry), kfind (pool s s.msg.a).slots s.msg.b = some e ∧ quantumCounts s e = true ∧
      e.quantum = e.cycles) :=
  ⟨⟨inCtx (fun x => { x with frozen := some someFatal }) (footed 0 8 true), by decide +kernel⟩,
    ⟨inCtx (fun x => { x with suspended := true }) (footed 0 8 true), by decide +kernel⟩,
    ⟨footed 0 8 true, _, by decide +kernel, by decide +kernel, by decide +kernel, by decide +kernel, by decide +kernel, rfl,
      by decide +kernel⟩,
    ⟨footed 0 8 false, by decide +kernel⟩, ⟨footed 0 129 true, by decide +kernel⟩,
    ⟨inCtx (fun x => { x with ended := [{ gid := 0, record := oneTile, port := none, phase := 3 }] }) (small []), _, rfl,
      by decide +kernel⟩,
    ⟨modGang (small []) 0 0 (fun g => { g with wdt := 1, wdCount := 1024 }), _, _, rfl, rfl, by decide +kernel⟩,
    ⟨inCtx (fun x => { x with frozen := some someFatal }) (modGang (small []) 0 0 (fun g => { g with wdt := 1, wdCount := 1024 })),
      _, _, rfl, rfl, by decide +kernel⟩,
    ⟨inSlot (fun e => { e with dw1 := 0x100000000, cycles := 1024000 }) (small []), _, rfl, by decide +kernel⟩⟩

/-- A write of a slot-table entry for the context, with a barrier window that ends at barrier `n`. -/
def writing (n : Nat) : State :=
  told { Msg.empty with b := 15, words := [0x8000000200010040, 0, BitVec.ofNat 64 ((n - 1) * 128 + 1), 0] }
    (inSlot (fun e => { e with dw3 := 0 }) (small []))
/-- A bound context, as its table leaves core 0 or a hardware context of it, its threads all but done. -/
def leaving (unbinding : List Nat) (bound : Bool) (cond : Cond) : State :=
  let s := inCtx (fun x => { x with unbinding := unbinding }) (own (fun x => { x with cond := cond }) (small []))
  if bound then s else inSlot (fun e => { e with dw0 := e.dw0 &&& 0x7FFFFFFFFFFFFFFF }) s

/-- The entry that a message asks for, as the table keeps it. -/
def written (s : State) : SlotEntry :=
  let w (n : Nat) : Word := s.msg.words.getD n 0
  { dw0 := w 0 &&& 0xFFFFFFFFFFFF07FF, dw1 := w 1 &&& 0xFFFFFFFF1FFFFC00, dw2 := w 2 &&& 0x000001FFFFC01FFF
    dw3 := w 3 &&& 0x0000000000007F7F, cycles := 0 }
/-- The state of core 0 as an unbind of context 0 there has withdrawn, finished and drained what its threads had outstanding. -/
def stopping (s : State) : State :=
  let ts := unboundOn s 0 0
  let u := ts.foldl (fun s t => drainAll s t) (ts.foldl finishWord (withdraw s (fun t => ts.contains t)))
  settleClosing { u with pools := u.pools.map (fun p => (p.1, { p.2 with
    copies := p.2.copies.map (fun y => if ts.contains y.thread then { y with closing := true } else y) })) }
/-- The same once the traps that are due have been taken. -/
def entered (s : State) : State :=
  (unboundOn s 0 0).foldl (fun s t => if frozenCtx s 0 then s else takeDue s t) (stopping s)
/-- A saved thread with an array and lanes owed, and its Retriever. -/
def savedState : State :=
  let s := inCtx (fun x => { x with
    saved := [(7, { Thread.start with array := some 7, lost := [0], gvl := 1, vceil := 1, lanes := [0] })]
    savedRets := [(7, 1, Retriever.empty)] }) (small [])
  told { Msg.empty with a := 7 } (modDie { spillable s with threads := [] } 0 (fun d => { d with sa := { d.sa with owner := some 7 } }))

theorem witness_SlotEvents :
    ((∃ (s : State) (e : Nat × SlotEntry) (x : Ctx), poolOfCore 0 = 0 ∧ bindingEntry s 0 0 = some e ∧ ctx? s e.2.ctx = some x ∧
        bindingEntry (putSlots s 0 []) 0 0 = none) ∧
      (∃ (s : State) (slots : KMap SlotEntry), ∃ e ∈ kvals slots, e.valid = true ∧
        winOf s 0 e.ctx ≠ winOf (putSlots s 0 slots) 0 e.ctx)) ∧
    (∃ (s : State) (x : Thread) (y : Ctx), kfind s.threads 0 = some x ∧ ctx? s x.ctx = some y) ∧
    (∃ (s : State) (x : Thread) (y : Ctx), ctx? s 0 = some y ∧ savedIn s 7 = some (0, x) ∧ mayResume s 0 7 x 0 0 = true ∧
      x.array.isSome = true ∧ x.lost ≠ [] ∧ (y.savedRets.filter (fun r => r.1 == 7)).length = 1) ∧
    (∃ s : State, s.msg.a < 96 ∧ s.msg.b = 15 ∧ s.msg.words.length = 4 ∧
      tableFits s 0 (kset (pool s 0).slots 15 (written s)) = true ∧ entryOf s 0 (written s).ctx ≠ none) ∧
    (∃ s : State, s.msg.a < 96 ∧ s.msg.b = 15 ∧ s.msg.words.length = 4 ∧
      tableFits s 0 (kset (pool s 0).slots 15 (written s)) = false) ∧
    (∃ (s : State) (x : Ctx), s.msg.a < 1536 ∧ ctx? s s.msg.b = some x ∧ x.frozen = none ∧ s.msg.a ∉ x.unbinding ∧
      boundTo s s.msg.a s.msg.b ≠ []) ∧
    (∃ (s : State) (x : Ctx), s.msg.a < 1536 ∧ ctx? s s.msg.b = some x ∧ x.frozen = none ∧ s.msg.a ∈ x.unbinding ∧
      unboundOn s s.msg.a s.msg.b = [0] ∧ stopsLater (stopping s) 0 = false ∧ (core (stopping s) s.msg.a).serving = none ∧
      writesLeft (stopping s) (.thread 16) = false ∧ frozenCtx (entered s) s.msg.b = false) ∧
    (∃ (s : State) (x : Ctx), s.msg.a < 1536 ∧ ctx? s s.msg.b = some x ∧ x.frozen = none ∧ s.msg.a ∈ x.unbinding ∧
      unboundOn s s.msg.a s.msg.b = [0] ∧ stopsLater (stopping s) 0 = false ∧ (core (stopping s) s.msg.a).serving = none ∧
      writesLeft (stopping s) (.thread 16) = false ∧ frozenCtx (entered s) s.msg.b = true) ∧
    (∃ (s : State) (x : Ctx), s.msg.a < 1536 ∧ ctx? s s.msg.b = some x ∧ x.frozen = none ∧ s.msg.a ∈ x.unbinding ∧
      unboundOn s s.msg.a s.msg.b = [0] ∧ stopsLater (stopping s) 0 = true) ∧
    (∃ (s : State) (x : Ctx), ctx? s s.msg.b = some x ∧ x.frozen = none ∧ s.msg.a ∈ x.unbinding ∧ unboundOn s s.msg.a s.msg.b = []) ∧
    (∃ (s : State) (x : Thread), savedIn s s.msg.a = some (0, x) ∧ mayResume s 0 s.msg.a x s.msg.b s.msg.c = false) ∧
    (∃ s : State, (∀ q ∈ s.tasks, q.2.core = 0 → q.2.runSize = 0) ∧
      let s' := modCore s 0 (fun c => { c with lscfg := 8 })
      s.msg.words.headD 0 &&& 0xF = 8 ∧ tableFits s' (poolOfCore 0) (pool s (poolOfCore 0)).slots = true) :=
  ⟨⟨⟨small [], _, _, by decide +kernel, rfl, rfl, by decide +kernel⟩,
      ⟨small [], (pool (lsp (small [])) 0).slots, _, List.mem_cons_self .., by decide +kernel⟩⟩,
    ⟨small [], _, _, rfl, rfl⟩, ⟨savedState, _, _, rfl, rfl, by decide +kernel⟩,
    ⟨writing 64, by decide +kernel⟩, ⟨told { Msg.empty with b := 15, words := [0x8000000200010040, 0, 8066, 0] } (writing 64), by decide +kernel⟩, ⟨leaving [] true .ready, _, by decide +kernel, rfl, by decide +kernel⟩,
    ⟨leaving [0] false (.parkedPage 4096), _, by decide +kernel, rfl, by decide +kernel⟩,
    ⟨trapPending 2 (leaving [0] false .ready), _, by decide +kernel, rfl, by decide +kernel⟩,
    ⟨leaving [0] false (.awaiting (.load 5 1 4096 [] false false)), _, by decide +kernel, rfl, by decide +kernel⟩,
    ⟨(let s := leaving [0] false .ready; { s with threads := [] }), _, rfl, by decide +kernel⟩,
    ⟨told { Msg.empty with a := 7, b := 1536 } savedState, _, rfl, by decide +kernel⟩,
    ⟨told { Msg.empty with words := [8] } (inSlot (fun e => { e with dw3 := 0 }) (small [])), by decide +kernel⟩⟩

/-- An agent's state is awaiting the response given; the response carries a flag. -/
def awaiting (w : Await) (m : Msg) : State := told m (own (fun x => { x with cond := .awaiting w }) (small []))
/-- The address of the page, and one of a peer that is not there. -/
def pa0 : Nat := 17 * 4096
def paPeer : Nat := 2 ^ 46 + 2 ^ 40
/-- How the bytes of an accepted load arrive: 0 gone, 1 held by a scope miss, 2 poisoned, 3 good. -/
def arrival (s : State) (cva : Nat) (acq : Bool) (pas : List Nat) : Nat :=
  let a := s.msg.agent
  let sa : State := { s with cur := a }
  let refs := latchedRefs sa (myCtx sa) cva (if acq then 1 else 2) pas
  if (refs.find? (fun r => r.pa / 2 ^ 46 == 1 && !r.has)).isSome then 0
  else if (if acq then missOf sa a (acqLocs sa refs) else none).isSome then 1
  else if (underRefs sa refs).any (poisoned sa) then 2 else 3
/-- The gang's queue holds a short word and a lane it needs is owed. -/
def owedWord : State :=
  own (fun x => { x with mqueue := [{ op := .zero 0, long := false, pc := 0 }], lost := [0] }) (ganged (small []))
/-- A UO page's store that its die alone sees, named by a message. -/
def stays (m : Msg) : State := told m inDie

theorem witness_Responses :
    (∀ v, v < 4 → ∃ s : State, ∃ acq, hasAgent s s.msg.agent = true ∧ ∃ p,
      condOf s s.msg.agent = .awaiting (.load 5 1 4096 [p] true acq) ∧ arrival s 4096 acq [p] = v) ∧
    (∀ v, v = 0 ∨ v = 2 ∨ v = 3 → ∃ s : State, hasAgent s s.msg.agent = true ∧ ∃ p,
      condOf s s.msg.agent = .awaiting (.segld 7 1 0 4096 [p]) ∧ arrival s 4096 false [p] = v) ∧
    (∀ lost, ∃ s : State, hasAgent s s.msg.agent = true ∧
      condOf s s.msg.agent = .awaiting (.atomic 5 1 1 false true 4096 0 []) ∧ s.msg.flag = lost) ∧
    (∃ s : State, hasAgent s s.msg.agent = true ∧ condOf s s.msg.agent = .awaiting (.vamo 3 0 [(0, 4096, 1)] 0) ∧
      ∀ p ∈ [((0 : Nat), (4096 : Nat), (1 : BitVec 32))], p.1 ∉ s.msg.nats) ∧
    (∃ s : State, hasAgent s s.msg.agent = true ∧ condOf s s.msg.agent = .awaiting (.vamo 3 0 [(0, 4096, 1)] 0) ∧
      ([((0 : Nat), (4096 : Nat), (1 : BitVec 32))].filter (fun p => s.msg.nats.contains p.1)).map (·.2) = (4096, 1) :: []) ∧
    (∃ s : State, (thr s s.msg.a).vloads = [{ vd := 3, fmt := 0, elems := [(0, 1)] }]) ∧
    (∃ s : State, hasThr s s.msg.a = true) ∧
    (∃ s : State, hasThr s s.msg.a = true ∧ (thr s s.msg.a).mqueue ≠ [] ∧ (thr s s.msg.a).dead = false ∧ (thr s s.msg.a).lost ≠ [] ∧
      frozenCtx s (thr s s.msg.a).ctx = false) ∧
    (∃ s : State, hasThr s s.msg.a = true ∧ (thr s s.msg.a).mqueue ≠ [] ∧ (thr s s.msg.a).dead = true) ∧
    (∃ s : State, (thr s s.msg.a).cond = .awaiting (.pginv 4096 4096) ∧ frozenCtx s (thr s s.msg.a).ctx = false ∧
      boundHere s s.msg.a = false) ∧
    (∀ busy, ∃ s : State, boundHere s s.msg.a = true ∧ (thr s s.msg.a).cond = .awaiting (.pginv 4096 4096) ∧ frozenCtx s (thr s s.msg.a).ctx = false ∧
      pginvBusy s (thr s s.msg.a).ctx 4096 4096 = busy) ∧
    (∃ s : State, (thr s s.msg.a).cond = .awaiting (.pginv 4096 4096) ∧ frozenCtx s (thr s s.msg.a).ctx = true) ∧
    (∃ (s : State) (p : PStore), s.msg.flag = false ∧ kthStore s s.msg.agent s.msg.a = some 0 ∧ s.stores[0]? = some p ∧
      mayPerform s 0 = true ∧ ¬(s.msg.b = 1 ∧ staysInDie p = true)) ∧
    (∃ (s : State) (p : PStore), s.msg.flag = false ∧ kthStore s s.msg.agent s.msg.a = some 0 ∧ s.stores[0]? = some p ∧
      mayPerform s 0 = true ∧ s.msg.b = 1 ∧ staysInDie p = true) ∧
    (∃ s : State, s.msg.flag = false ∧ kthStore s s.msg.agent s.msg.a = some 1 ∧ mayPerform s 1 = false) ∧
    (∀ n, n < 2 → ∃ (s : State) (w : QWrite), s.msg.flag = true ∧ (die s s.msg.a).uoq[s.msg.b]? = some w ∧
      mayLeave s s.msg.a s.msg.b = (n == 0)) ∧
    (∃ s : State, s.msg.flag = false ∧ ((die s s.msg.a).hostq.map (·.locs)) = [[(2 ^ 46, 1)]]) ∧
    (∃ s : State, s.msg.flag = true ∧ ((die s s.msg.a).peerq.map (·.locs)) = [[(paPeer, 1)]]) := by
  refine ⟨fun v hv => ?_, fun v hv => ?_, fun lost => ?_, ⟨awaiting (.vamo 3 0 [(0, 4096, 1)] 0) Msg.empty, by decide +kernel⟩,
    ⟨awaiting (.vamo 3 0 [(0, 4096, 1)] 0) { Msg.empty with nats := [0] }, by decide +kernel⟩,
    ⟨own (fun x => { x with vloads := [{ vd := 3, fmt := 0, elems := [(0, 1)] }] }) (strip (small [])), by decide +kernel⟩,
    ⟨small [], by decide +kernel⟩, ⟨owedWord, by decide +kernel⟩,
    ⟨own (fun x => { x with dead := true }) owedWord, by decide +kernel⟩,
    ⟨inCtx (fun x => { x with unbinding := [0] }) (inSlot (fun e => { e with dw0 := 0 }) (awaiting (.pginv 4096 4096) Msg.empty)), by decide +kernel⟩, fun busy => ?_,
    ⟨inCtx (fun x => { x with frozen := some someFatal }) (awaiting (.pginv 4096 4096) Msg.empty), by decide +kernel⟩,
    ⟨pending 1, _, by decide +kernel, by decide +kernel, rfl, by decide +kernel⟩,
    ⟨told { Msg.empty with b := 1 } (pending 2), _, by decide +kernel, by decide +kernel, rfl, by decide +kernel⟩,
    ⟨(let s := pending 1; told { Msg.empty with a := 1 } { s with stores := s.stores ++ s.stores }), by decide +kernel⟩,
    fun n hn => ?_, ⟨inHostQueue [.thread 0], by decide +kernel⟩,
    ⟨told { Msg.empty with flag := true } (modDie (small []) 0 (fun d => { d with
      peerq := [{ op := 0, ctx := 0, page := 1, so := false, writer := some (.thread 0), agents := [.thread 0]
                  locs := [(paPeer, 1)] }] })), by decide +kernel⟩⟩
  · match v with
    | 0 => exact ⟨awaiting (.load 5 1 4096 [paPeer] true false) Msg.empty, false, by decide +kernel, paPeer, rfl, by decide +kernel⟩
    | 1 => exact ⟨markedAt pa0 (awaiting (.load 5 1 4096 [pa0] true true) Msg.empty), true, by decide +kernel, pa0, rfl, by decide +kernel⟩
    | 2 => exact ⟨poisonedAt pa0 (awaiting (.load 5 1 4096 [pa0] true false) Msg.empty), false, by decide +kernel, pa0, rfl,
        by decide +kernel⟩
    | 3 => exact ⟨awaiting (.load 5 1 4096 [pa0] true true) Msg.empty, true, by decide +kernel, pa0, rfl, by decide +kernel⟩
    | n + 4 => omega
  · rcases hv with rfl | rfl | rfl
    · exact ⟨awaiting (.segld 7 1 0 4096 [paPeer]) Msg.empty, by decide +kernel, paPeer, rfl, by decide +kernel⟩
    · exact ⟨poisonedAt pa0 (awaiting (.segld 7 1 0 4096 [pa0]) Msg.empty), by decide +kernel, pa0, rfl, by decide +kernel⟩
    · exact ⟨awaiting (.segld 7 1 0 4096 [pa0]) Msg.empty, by decide +kernel, pa0, rfl, by decide +kernel⟩
  · exact ⟨awaiting (.atomic 5 1 1 false true 4096 0 []) { Msg.empty with flag := lost }, by cases lost <;> decide +kernel, rfl, rfl⟩
  · cases busy
    · exact ⟨awaiting (.pginv 4096 4096) Msg.empty, by decide +kernel⟩
    · exact ⟨{ awaiting (.pginv 4096 4096) Msg.empty with stores := (pending 1).stores }, by decide +kernel⟩
  · match n with
    | 0 => exact ⟨stays { Msg.empty with flag := true }, _, rfl, rfl, by decide +kernel⟩
    | 1 => exact ⟨stays { Msg.empty with flag := true, b := 1 } |> fun s => modDie s 0 (fun d => { d with uoq := d.uoq ++ d.uoq }), _,
        rfl, rfl, by decide +kernel⟩
    | n + 2 => omega

/-- A scope miss on the page's first granule, for context `c`. -/
def missFor (c : Nat) : ScopeMsg := { granule := 17 * 128, cva := 4096, ctx := c, needed := 2, markScope := 1 }
/-- Core 0 has one message, its context having a handler at SMVEC. -/
def missed (c : Nat) (smvec : Word) : State :=
  modCore (inCtx (fun x => { x with smvec := smvec }) (small [])) 0 (fun k => { k with smq := [missFor c] })
/-- The page of data goes to a frame of HBM, to host memory, or nowhere yet. -/
def backed (e : Word) (s : State) : State := { s with pt := kset s.pt (4 * 4096 + 8) e }
/-- What becomes of the repair of core 0's message: 0 it is done, 1 a page delays it, 2 it waits. -/
def repairs (s : State) : Nat :=
  let u := fromRouter s 0
  match repairMiss (fromRouter (modCore u 0 (fun x => { x with smq := x.smq.erase (missFor 0) })) 0) 0 (missFor 0) with
  | .done _ => 0
  | .delay => 1
  | .wait => 2
/-- The message's doubleword is one that a release wrote, covering a queued write. -/
def coveredMiss : State :=
  let s := missed 0 0
  { s with covers := [(pa0, [0])], dies := (inHostQueue [.thread 0]).dies }

theorem witness_ScopeMisses :
    (∃ s : State, condOf s s.msg.agent = .heldAcquire 2176) ∧
    (∃ s : State, (core s 0).serving = none ∧ nextMiss (fromRouter s 0) 0 = some (missFor 1) ∧ ctx? (fromRouter s 0) 1 = none) ∧
    (∃ (s : State) (x : Ctx), (core s 0).serving = none ∧ nextMiss (fromRouter s 0) 0 = some (missFor 0) ∧
      ctx? (fromRouter s 0) 0 = some x ∧ x.frozen ≠ none) ∧
    (∃ (s : State) (x : Ctx), (core s 0).serving = none ∧ nextMiss (fromRouter s 0) 0 = some (missFor 0) ∧
      ctx? (fromRouter s 0) 0 = some x ∧ boundTo (fromRouter s 0) 0 0 = []) ∧
    (∀ v, v = 0 ∨ v = 1 ∨ v = 2 → ∃ (s : State) (x : Ctx), (core s 0).serving = none ∧
      nextMiss (fromRouter s 0) 0 = some (missFor 0) ∧ ctx? (fromRouter s 0) 0 = some x ∧ x.frozen = none ∧
      boundTo (fromRouter s 0) 0 0 ≠ [] ∧ x.smvec = 0 ∧ repairs s = v) ∧
    (∃ (s : State) (x : Ctx), (core s 0).serving = none ∧ nextMiss (fromRouter s 0) 0 = some (missFor 0) ∧
      ctx? (fromRouter s 0) 0 = some x ∧ x.frozen = none ∧ boundTo (fromRouter s 0) 0 0 ≠ [] ∧ x.smvec ≠ 0) := by
  refine ⟨⟨own (fun x => { x with cond := .heldAcquire 2176 }) (small []), by decide +kernel⟩, ⟨missed 1 0, by decide +kernel⟩,
    ⟨inCtx (fun x => { x with frozen := some someFatal }) (missed 0 0), _, by decide +kernel, by decide +kernel, rfl, by decide +kernel⟩,
    ⟨inSlot (fun e => { e with dw0 := 0 }) (missed 0 0), _, by decide +kernel, by decide +kernel, rfl, by decide +kernel⟩,
    fun v hv => ?_, ⟨missed 0 64, _, by decide +kernel, by decide +kernel, rfl, by decide +kernel⟩⟩
  rcases hv with rfl | rfl | rfl
  · exact ⟨missed 0 0, _, by decide +kernel, by decide +kernel, rfl, by decide +kernel⟩
  · exact ⟨backed (ptEntry 0 1 false true true false) (missed 0 0), _, by decide +kernel, by decide +kernel, rfl, by decide +kernel⟩
  · exact ⟨coveredMiss, _, by decide +kernel, by decide +kernel, rfl, by decide +kernel⟩

/-- A copy of 16 bytes to an offset, its one chunk in flight. -/
def copying (off : Word) : State :=
  let s := small [(5, off), (7, 16)]
  modPool s 0 (fun p => { p with copies := [{ made s (cops 1 1) tag63 0 with live := [0], next := 1 }] })
/-- That copy. -/
def copied (off : Word) : Copy := { made (small [(5, off), (7, 16)]) (cops 1 1) tag63 0 with live := [0], next := 1 }
/-- What the chunk's judgement comes to: 0 to HBM, 1 to host or peer memory, 2 delayed, 3 a fault. -/
def judged (s : State) (c : Copy) : Nat :=
  match judgeChunk s c 0 with
  | .ok l => if l.any (fun x => offPart x.1.loc) then 1 else 0
  | .delay _ => 2
  | .bad .. => 3
/-- The first byte of the chunk lies at the address of the page. -/
def startsAtPage (s : State) (c : Copy) : Bool :=
  match judgeChunk s c 0 with | .ok ((_, x) :: _) => x.cva == 4096 | _ => false
/-- The bytes of the chunk, under write number 0, wait in a queue or have left it. -/
def wroteTo (s : State) : State :=
  modPool (told { Msg.empty with b := (copied 4080).id } s) 0 (fun p => { p with copies := p.copies.map (fun c => { c with wrote := [(0, 0, 16)] }) })
/-- A page of a code image whose digest is as given. -/
def imageOf (d : List Byte) : Image := { bytes := [], digest := d, obj := 2, patches := [], bad := false }
/-- Page 1 has been reported. -/
def reported (e : Word) : State := backed e (told { Msg.empty with b := 1 } (inCtx (fun x => { x with
  reports := [1], maps := [{ cva := 4096, len := 4096, sort := 0, kind := 1, r := true, w := true, ahead := 0, host := 0 }] }) (small [])))
/-- Thread 0 and Retriever 0 are parked on page 1, of which the message tells. -/
def parkedOn (m : Msg) : State :=
  told { m with b := 1 } (modRet (own (fun x => { x with cond := .parkedPage 4096 }) (small [])) 0 (fun r => { r with
    owner := some 0, state := 2, cond := .parkedPage 4100 }))

theorem witness_CopyEngineAndPager :
    (∃ s : State, findCopy s 0 0 = none) ∧
    (∃ (s : State) (c : Copy), findCopy s s.msg.a s.msg.b = some c ∧ s.msg.c ∉ c.live) ∧
    (∀ still, ∃ (s : State) (c : Copy), findCopy s s.msg.a s.msg.b = some c ∧ s.msg.c ∈ c.live ∧
      c.wrote.find? (fun w => w.1 == s.msg.c) = some (0, 0, 16) ∧ opQueued s 0 = still) ∧
    (∃ s : State, findCopy s 0 (copied 4080).id = some (copied 4080) ∧ judged s (copied 4080) = 0) ∧
    (∃ s : State, findCopy s 0 (copied 4080).id = some (copied 4080) ∧ judged s (copied 4080) = 1) ∧
    (∃ s : State, findCopy s 0 (copied 4080).id = some (copied 4080) ∧ judged s (copied 4080) = 2) ∧
    (∃ s : State, findCopy s 0 (copied 4081).id = some (copied 4081) ∧ judged s (copied 4081) = 3) ∧
    (∃ s : State, findCopy s 0 (copied 4080).id = some (copied 4080) ∧ s.msg.flag = true ∧ startsAtPage s (copied 4080) = true) ∧
    (∀ n, n = 4080 ∨ n = 4081 → 0 ∈ (copied n).live ∧ ∀ w ∈ (copied n).wrote, w.1 ≠ 0) ∧
    (∃ (s : State) (x : Ctx), ctx? s s.msg.a = some x ∧ s.msg.b ∉ x.reports) ∧
    (∃ (s : State) (x : Ctx), ctx? s s.msg.a = some x ∧ s.msg.b ∈ x.reports ∧ (pageEntry s s.msg.a s.msg.b).getLsbD 0 = false) ∧
    (∃ (s : State) (x : Ctx), ctx? s s.msg.a = some x ∧ s.msg.b ∈ x.reports ∧ (pageEntry s s.msg.a s.msg.b).getLsbD 0 = true ∧
      (pageEntry s s.msg.a s.msg.b).getLsbD 1 = true) ∧
    (∃ (s : State) (x : Ctx), ctx? s s.msg.a = some x ∧ s.msg.b ∈ x.reports ∧ (pageEntry s s.msg.a s.msg.b).getLsbD 0 = true ∧
      (pageEntry s s.msg.a s.msg.b).getLsbD 1 = false ∧ (bringPage s s.msg.a s.msg.b s.msg.flag).isSome = true) ∧
    (∃ s : State, frozenCtx s s.msg.a = true) ∧
    (∀ lost, lost = 0 ∨ lost = 2 → ∃ (s : State) (x : Thread) (r : Retriever), frozenCtx s s.msg.a = false ∧ s.msg.c = lost ∧
      kfind s.threads 0 = some x ∧ krising s.threads = true ∧ x.ctx = s.msg.a ∧ x.cond = .parkedPage 4096 ∧
      kfind s.rets 0 = some r ∧ krising s.rets = true ∧ r.cond = .parkedPage 4100 ∧ r.owner = some 0 ∧
      4096 / 4096 = s.msg.b ∧ 4100 / 4096 = s.msg.b ∧ kfind s.threads 1 = none ∧ kfind s.rets 1 = none) ∧
    (∃ (s : State) (x : Ctx) (i : Image), ctx? s 0 = some x ∧ kfind x.images 0 = some i ∧ i.bad = false ∧
      x.heap.base.toNat % 4096 = 0 ∧ 0 * 4096 < x.heap.limit.toNat) ∧
    (∃ (s : State) (x : Ctx) (i : Image), ctx? s 0 = some x ∧ kfind x.images 0 = some i ∧ sha256 i.bytes = i.digest) :=
  ⟨⟨small [], by decide +kernel⟩, ⟨told { Msg.empty with c := 1, b := (copied 4080).id } (copying 4080), _, rfl, by decide +kernel⟩,
    fun still => by
      cases still
      · exact ⟨wroteTo (copying 4080), { copied 4080 with wrote := [(0, 0, 16)] }, by decide +kernel⟩
      · exact ⟨{ wroteTo (copying 4080) with dies := (inHostQueue []).dies }, { copied 4080 with wrote := [(0, 0, 16)] },
          by decide +kernel⟩,
    ⟨copying 4080, by decide +kernel⟩, ⟨backed (ptEntry (2 ^ 46) 1 false true true true) (copying 4080), by decide +kernel⟩,
    ⟨backed (ptEntry 0 1 false true true false) (copying 4080), by decide +kernel⟩, ⟨copying 4081, by decide +kernel⟩,
    ⟨told { Msg.empty with flag := true } (copying 4080), by decide +kernel⟩,
    by rintro n (rfl | rfl) <;> decide +kernel, ⟨small [], _, rfl, by decide +kernel⟩, ⟨reported 0, _, rfl, by decide +kernel⟩,
    ⟨reported (ptEntry (17 * 4096) 1 false true true true), _, rfl, by decide +kernel⟩,
    ⟨reported (ptEntry 0 1 false true true false), _, rfl, by decide +kernel⟩,
    ⟨inCtx (fun x => { x with frozen := some someFatal }) (small []), by decide +kernel⟩,
    by rintro lost (rfl | rfl)
       · exact ⟨parkedOn Msg.empty, _, _, by decide +kernel, rfl, rfl, by decide +kernel, rfl, rfl, rfl, by decide +kernel⟩
       · exact ⟨parkedOn { Msg.empty with c := 2 }, _, _, by decide +kernel, rfl, rfl, by decide +kernel, rfl, rfl, rfl,
           by decide +kernel⟩,
    ⟨inCtx (fun x => { x with images := [(0, imageOf [])] }) (small []), _, _, rfl, rfl, by decide +kernel⟩,
    ⟨inCtx (fun x => { x with images := [(0, imageOf (sha256 []))] }) (small []), _, imageOf (sha256 []), rfl, rfl, by
      simp only [imageOf]⟩⟩

/-- A map record of a kind, VALUE and AUXA. -/
def recOf (kind state value auxA : Nat) : MapRec :=
  { kind := kind, state := state, value := value, auxA := auxA, auxB := 0, changed := 0 }
/-- A message about a unit whose record the map holds. -/
def unit (n : Nat) (r : MapRec) (m : Msg) : State := told m (modKeeper (small []) (fun k => { k with map := [(n, r)] }))
/-- A frozen context whose thread has stopped. -/
def stopped : State := inCtx (fun x => { x with frozen := some someFatal }) (small [])

/-- Core 0's instruction memory errs, thread 0 running there. -/
def icacheError (sub : Nat) : State := unit 128 (recOf 3 0 0 0) { Msg.empty with a := 128, b := sub, flag := true }
/-- The entropy source of die 3 is cleared, failed at time 0, as `time` stands. -/
def cleared (passed : Bool) (time : Nat) : State :=
  { unit (saRec 3) (recOf 13 1 0 0) { Msg.empty with a := 3, flag := passed } with time := time }
/-- Thread 0 is owed its first lane. -/
def owedLane (s : State) : State := own (fun x => { x with lost := [0] }) s
/-- Thread 0 holds lanes of a pool whose first group is as given, where two errors of lane 0 have just been seen. -/
def groupOf (auxA : Nat) (seen : List Nat) : State :=
  modKeeper (strip (small [])) (fun k => { k with map := [(6144, recOf 5 1 32 auxA)], recent := [(errKey 6144 0, seen)] })
/-- No lane of pool 0 is live. -/
def noLanes (s : State) : State :=
  modKeeper s (fun k => { k with map := (List.range 32).map (fun g => (6144 + g, recOf 5 3 0 0)) })
/-- The map is at the version that context 0 has not acknowledged since time 0. -/
def inArrears (time : Nat) : State := { inCtx (fun x => { x with arrears := some 0 }) (small []) with time := time }

theorem witness_UnitsAndMap :
    ((∃ s : State, hasThr s s.msg.a = true ∧ (thr s s.msg.a).cond = .parkedGrant ∧
        frozenCtx s (thr s s.msg.a).ctx = false ∧ wakesAtGrant s s.msg.a = true) ∧
      (∃ s : State, hasThr s s.msg.a = true ∧ frozenCtx s (thr s s.msg.a).ctx = true) ∧
      (∃ s : State, hasThr s s.msg.a = true ∧ movable s s.msg.a = true ∧ (thr s s.msg.a).vloads = [] ∧
        (thr s s.msg.a).lost = [] ∧ movesTo s s.msg.a s.msg.nats = true) ∧
      (∃ s : State, s.msg.a < 96 ∧ s.msg.b = 1024) ∧ (∃ s : State, s.msg.a < 96 ∧ s.msg.b = 1023 ∧ s.msg.flag = false) ∧
      (∃ s : State, s.msg.a < 96 ∧ s.msg.b < 1024 ∧ s.msg.flag = true ∧ holders s s.msg.a s.msg.c ≠ []) ∧
      ∀ n ∈ [10 ^ 7 - 1, 10 ^ 7], ∃ (s : State) (x : Ctx), ctx? s s.msg.a = some x ∧ x.suspended = false ∧ x.frozen = none ∧
        x.arrears = some 0 ∧ s.time = n) ∧
    ((∃ s : State, mapRec s s.msg.a = none) ∧
      (∀ unc, ∃ (s : State) (r : MapRec), mapRec s s.msg.a = some r ∧ s.msg.flag = unc ∧ r.kind = 0x05 ∧ s.msg.b = 31) ∧
      (∀ unc, ∃ (s : State) (r : MapRec), mapRec s s.msg.a = some r ∧ s.msg.flag = unc ∧ ¬(r.kind = 0x05 ∧ s.msg.b < 32) ∧
        r.kind ≠ 0x03) ∧
      (∃ (s : State) (r : MapRec), mapRec s s.msg.a = some r ∧ r.kind = 0x0D ∧ s.msg.b = 0 ∧ s.msg.flag = true) ∧
      ∀ sub ∈ [2, 3], ∃ (s : State) (r : MapRec) (t : Nat), mapRec s s.msg.a = some r ∧ s.msg.flag = true ∧
        r.kind = 0x03 ∧ s.msg.nats = [] ∧ s.msg.b = sub ∧ s.msg.agent = .thread t ∧ coreOf t + 128 = s.msg.a ∧ hasThr s t = true ∧
        frozenCtx s (thr s t).ctx = false ∧ suspendedCtx s (thr s t).ctx = false ∧ (thr s t).cond = .ready) ∧
    ((∃ (s : State) (r : MapRec), mapRec s s.msg.a = some r ∧ r.kind = 0x0B ∧ s.msg.b ≠ 0 ∧ s.msg.b = r.auxA / 256 % 256) ∧
      (∃ (s : State) (r : MapRec), mapRec s s.msg.a = some r ∧ r.kind = 0x0C ∧ s.msg.b = 4 ∧ r.auxA.testBit 16 = true) ∧
      (∃ (s : State) (r : MapRec), s.msg.a = 15 ∧ mapRec s (12864 + s.msg.a) = some r ∧ s.msg.b = 63 ∧ s.msg.c = 4 ∧
        r.auxA.testBit 16 = false) ∧
      (∀ passed, ∃ (s : State) (r : MapRec), s.msg.a = 3 ∧ mapRec s (saRec s.msg.a) = some r ∧ recLive r = true ∧
        r.auxA.testBit 0 = false ∧ kget s.keeper.retested s.msg.a 0 + 10 ^ 9 = s.time ∧ s.msg.b ≠ 1 ∧ s.msg.flag = passed) ∧
      ∃ (s : State) (r : MapRec), s.msg.a = 3 ∧ mapRec s (saRec s.msg.a) = some r ∧
        s.time + 1 = kget s.keeper.retested s.msg.a 0 + 10 ^ 9) ∧
    ((∃ (s : State) (x : Ctx) (f : Fatal), ctx? s s.msg.a = some x ∧ x.frozen = some f ∧ x.sealed = false ∧
        let u := ((s.threads.filter (fun t => t.2.ctx == s.msg.a)).map (·.1)).foldl finishWord (releaseRets (settleClosing s) s.msg.a)
        (∀ q ∈ u.threads, q.2.ctx = s.msg.a → stopsLater u q.1 = false) ∧ ownsRet u s.msg.a = false ∧ dumpsBefore u f = false) ∧
      (∃ (s : State) (x : Ctx) (f : Fatal), ctx? s s.msg.a = some x ∧ x.frozen = some f ∧ x.sealed = false ∧
        dumpsBefore (((s.threads.filter (fun t => t.2.ctx == s.msg.a)).map (·.1)).foldl finishWord
          (releaseRets (settleClosing s) s.msg.a)) f = true) ∧
      (∀ full, ∃ t : Tenant, dumpPlace t = none ∧ t.slot.isSome = full) ∧ ∃ t : Tenant, (dumpPlace t).isSome = true) ∧
    ((∀ fits, ∃ s : State, (thr s 0).lost ≠ [] ∧ frozenCtx s (thr s 0).ctx = false ∧ (thr s 0).mvl ≠ 0 ∧
        (firstBlock s 0 ((thr s 0).mvl / 8)).isSome = fits) ∧
      (∃ s : State, (thr s 0).lost = [0] ∧ frozenCtx s (thr s 0).ctx = false ∧ (thr s 0).mvl = 0 ∧
        (thr s 0).placing = false ∧ (rebuildLanes s 0 1).length = 1 ∧ 0 < (thr s 0).lanes.length) ∧
      (∃ s : State, (thr s 0).lost = [0] ∧ frozenCtx s (thr s 0).ctx = false ∧ (thr s 0).mvl = 0 ∧
        (thr s 0).placing = true ∧ (freeLanes s 0 1).length = 0 ∧ 0 < (thr s 0).lanes.length) ∧
      ∃ s : State, (thr s 0).lost ≠ [] ∧ frozenCtx s (thr s 0).ctx = true) ∧
    ((∃ (s : State) (r : MapRec), mapRec s (6144 + 0 * 32 + 0 / 32) = some r ∧ r.kind = 0x05) ∧
      (∀ guarded, ∃ (s : State) (x : Thread) (y : Ctx), (∀ q ∈ s.threads, q.2.mqueue = []) ∧ s.keeper.waiting = [] ∧
        laneLive s 0 0 = true ∧ groupProtected s 0 0 = guarded ∧ kfind s.threads 0 = some x ∧ poolOf 0 = 0 ∧ slotsIn x [0] ≠ [] ∧
        ctx? s x.ctx = some y ∧ y.frozen = none) ∧
      (∃ (s : State) (r : MapRec), (∀ q ∈ s.threads, q.2.mqueue = []) ∧ s.keeper.waiting = [] ∧
        2 ≤ ((kget s.keeper.recent (errKey 6144 0) []).filter (fun t => decide (s.time < t + 10 ^ 9))).length ∧
        laneLive s 0 0 = true ∧ mapRec s 6144 = some r ∧ r.kind = 0x05 ∧ recLive r = true) ∧
      ∃ s : State, (∀ q ∈ s.threads, q.2.mqueue = []) ∧ s.keeper.waiting = [] ∧ laneLive s 0 0 = false) ∧
    ∀ n ∈ [128, 2048, 10240, 12899], ∃ (s : State) (old r : MapRec), ([(n, r)].map (·.1)).Nodup ∧
      (∀ q ∈ s.threads, q.2.mqueue = []) ∧ s.keeper.waiting = [] ∧ mapRec s n = some old ∧ r.kind = old.kind ∧
      recContent old ≠ recContent r ∧ recLive r = false ∧ recLive old = true ∧ (ret s 0).state = 2 ∧ (∃ y, kfind s.threads 0 = some y ∧ y.ctx = 0) := by
  refine ⟨⟨⟨own (fun x => { x with cond := .parkedGrant, vceil := 4 }) (small []), by decide +kernel⟩,
      ⟨inCtx (fun x => { x with frozen := some someFatal }) (small []), by decide +kernel⟩,
      ⟨told { Msg.empty with nats := [1023, 0, 1, 2] } (own (fun x => { x with cond := .awaiting (.pginv 0 0) }) (strip (small []))),
        by decide +kernel⟩,
      ⟨told { Msg.empty with b := 1024 } (small []), by decide +kernel⟩, ⟨told { Msg.empty with b := 1023 } (small []), by decide +kernel⟩,
      ⟨told { Msg.empty with flag := true } (strip (small [])), by decide +kernel⟩,
      fun n _ => ⟨inArrears n, _, rfl, rfl, rfl, rfl, rfl⟩⟩,
    ⟨⟨told { Msg.empty with a := 14 } (small []), by decide +kernel⟩,
      fun unc => ⟨unit 6144 (recOf 5 0 32 1) { Msg.empty with a := 6144, b := 31, flag := unc }, _, rfl, rfl, rfl, rfl⟩,
      fun unc => ⟨unit 13 (recOf 1 0 0 0) { Msg.empty with a := 13, flag := unc }, _, rfl, rfl, by cases unc <;> decide +kernel⟩,
      ⟨unit (saRec 3) (recOf 13 1 0 0) { Msg.empty with a := saRec 3, flag := true }, _, rfl, by decide +kernel⟩,
      fun sub _ => ⟨icacheError sub, _, 0, rfl, rfl, rfl, rfl, rfl, rfl, rfl, rfl, rfl, rfl, rfl⟩⟩,
    ⟨⟨unit 12800 (recOf 11 0 0 (8 * 256 + 8)) { Msg.empty with a := 12800, b := 8 }, _, rfl, by decide +kernel⟩,
      ⟨unit 12864 (recOf 12 0 0 (2 ^ 16)) { Msg.empty with a := 12864, b := 4 }, _, rfl, by decide +kernel⟩,
      ⟨told { Msg.empty with a := 15, b := 63, c := 4 } (small []), _, by decide +kernel, rfl, by decide +kernel⟩,
      fun passed => ⟨cleared passed (10 ^ 9), _, rfl, rfl, by cases passed <;> decide +kernel⟩,
      ⟨cleared false (10 ^ 9 - 1), _, rfl, rfl, by decide +kernel⟩⟩,
    ⟨⟨stopped, _, someFatal, rfl, by decide +kernel⟩,
      ⟨inCtx (fun x => { x with frozen := some { someFatal with seq := 1 } }) { stopped with
        ctxs := stopped.ctxs ++ stopped.ctxs.map (fun p => (1, p.2)) }, _, _, rfl, rfl, by decide +kernel⟩,
      fun full => ⟨{ Tenant.reset with slot := if full then some { off := 0, bytes := [], ctx := 0 } else none },
        by cases full <;> decide +kernel⟩,
      ⟨{ Tenant.reset with window := 4096 }, by decide +kernel⟩⟩,
    ⟨fun fits => ?_, ⟨owedLane (strip (small [])), by decide +kernel⟩,
      ⟨own (fun x => { x with placing := true }) (noLanes (owedLane (strip (small [])))), by decide +kernel⟩,
      ⟨inCtx (fun x => { x with frozen := some someFatal }) (owedLane (strip (small []))), by decide +kernel⟩⟩,
    ⟨⟨small [], _, rfl, by decide +kernel⟩, fun guarded => ⟨groupOf (if guarded then 2 ^ 33 - 1 else 2 ^ 32 - 1) [], _, _, by cases guarded <;> decide +kernel, rfl,
        by cases guarded <;> decide +kernel, by cases guarded <;> decide +kernel, rfl, rfl, by cases guarded <;> decide +kernel, rfl, rfl⟩,
      ⟨groupOf 1 [0, 0], _, by decide +kernel, rfl, by decide +kernel, by decide +kernel, rfl, by decide +kernel⟩,
      ⟨noLanes (small []), by decide +kernel⟩⟩, fun n hn => ?_⟩
  · cases fits
    · exact ⟨noLanes (owedLane (ganged (small []))), by decide +kernel⟩
    · exact ⟨owedLane (ganged (small [])), by decide +kernel⟩
  · let s := modRet (small []) 0 (fun r => { r with state := 2 })
    have h (o : MapRec) (ho : mapRec s n = some o) (hs : o.state = 1) : _ :=
      (⟨s, o, { o with state := 3 }, by simp, by decide +kernel, rfl, ho, rfl, by simp [recContent, hs], rfl, by simp [recLive, hs],
        by decide +kernel, _, rfl, by decide +kernel⟩ : ∃ (s : State) (old r : MapRec), ([(n, r)].map (·.1)).Nodup ∧
      (∀ q ∈ s.threads, q.2.mqueue = []) ∧ s.keeper.waiting = [] ∧ mapRec s n = some old ∧ r.kind = old.kind ∧
      recContent old ≠ recContent r ∧ recLive r = false ∧ recLive old = true ∧ (ret s 0).state = 2 ∧ (∃ y, kfind s.threads 0 = some y ∧ y.ctx = 0))
    simp only [List.mem_cons, List.mem_nil_iff, or_false] at hn
    rcases hn with rfl | rfl | rfl | rfl <;> exact h _ rfl (by decide +kernel)

/-- Peer 1 has been given a window of 4,096 bytes at an address. -/
def exported (base : Nat) (m : Msg) : State :=
  told m (modKeeper (small []) (fun k => { k with peers := [(1, { windows := [(base, 4096)] })] }))
/-- The window that a peer's access names, and its bytes. -/
def peerAsks (s : State) : Option (Nat × Nat) :=
  (kfind s.keeper.peers s.msg.a).bind (fun p => if s.msg.b < 16 then p.windows[s.msg.b]? else none)
def peerBytes (s : State) (base : Nat) : List ByteRef :=
  (span (base + s.msg.c) s.msg.bytes.length).map (fun pa => (⟨pa, pa, 0, place s pa⟩ : ByteRef))
/-- The last byte of a window at the page, read by an acquire. -/
def peerAcq : State := exported pa0 { Msg.empty with a := 1, c := 4095, bytes := [0], e := 1 }

theorem witness_OutsideAccesses :
    (∃ s : State, ctx? s s.msg.a = none ∧ s.msg.flag = false) ∧ (∃ s : State, s.msg.flag = true) ∧
    (∃ (s : State) (refs : List ByteRef), ctx? s s.msg.a ≠ none ∧ s.msg.bytes.length = 1 ∧
      (span s.msg.b s.msg.bytes.length).map (hostByte s s.msg.a 1) = refs.map .ok) ∧
    (∃ s : State, ctx? s s.msg.a ≠ none ∧ (span s.msg.b s.msg.bytes.length).map (hostByte s s.msg.a 1) = [.denied]) ∧
    (∃ (s : State) (refs : List ByteRef), ctx? s s.msg.a ≠ none ∧ s.msg.flag = false ∧ s.msg.c = 1 ∧ (∀ r ∈ refs, r.has = true) ∧
      (span s.msg.b s.msg.c).map (hostByte s s.msg.a 0) = refs.map .ok) ∧
    (∃ s : State, ctx? s s.msg.a ≠ none ∧ s.msg.flag = false ∧ (span s.msg.b s.msg.c).map (hostByte s s.msg.a 0) = [.absent 1]) ∧
    (∃ s : State, kfind s.keeper.peers s.msg.a = none ∧ peerAsks s = none) ∧ (∃ s : State, s.msg.b = 16 ∧ peerAsks s = none) ∧
    (∃ s : State, peerAsks s = some (pa0, 4096) ∧ 4096 + 1 = s.msg.c + s.msg.bytes.length) ∧
    (∃ s : State, peerAsks s = some (2 ^ 39 - 1, 4096) ∧ ∃ r ∈ peerBytes s (2 ^ 39 - 1), r.has = false) ∧
    (∀ write, ∃ s : State, peerAsks s = some (pa0, 4096) ∧ s.msg.c + s.msg.bytes.length = 4096 ∧ peerBytes s pa0 ≠ [] ∧
      (∀ r ∈ peerBytes s pa0, r.has = true) ∧ s.msg.flag = write ∧ s.msg.e ≠ 1) ∧
    (∃ s : State, peerAsks s = some (pa0, 4096) ∧ s.msg.c + s.msg.bytes.length = 4096 ∧ (∀ r ∈ peerBytes s pa0, r.has = true) ∧
      s.msg.flag = false ∧ s.msg.e = 1 ∧ ∀ r ∈ peerBytes s pa0, kfind s.marks (granule s r.loc) = none) ∧
    (∃ s : State, peerAsks s = some (pa0, 4096) ∧ s.msg.c + s.msg.bytes.length = 4096 ∧ (∀ r ∈ peerBytes s pa0, r.has = true) ∧
      s.msg.flag = false ∧ s.msg.e = 1 ∧ ∃ r ∈ peerBytes s pa0, ((kfind s.marks (granule s r.loc)).map (·.scope)).any (· < 6) = true) :=
  ⟨⟨told { Msg.empty with a := 1 } (small []), by decide +kernel⟩, ⟨told { Msg.empty with flag := true } (small []), rfl⟩,
    ⟨told { Msg.empty with b := 8191, bytes := [1] } (small []),
      [byteRef (told { Msg.empty with b := 8191, bytes := [1] } (small [])) 0 8191], by decide +kernel, rfl, rfl⟩,
    ⟨told { Msg.empty with b := 8192, bytes := [1] } (small []), by decide +kernel⟩,
    ⟨told { Msg.empty with b := 8191, c := 1 } (small []), [byteRef (told { Msg.empty with b := 8191, c := 1 } (small [])) 0 8191],
      by decide +kernel, rfl, rfl, by decide +kernel, rfl⟩,
    ⟨backed (ptEntry 0 1 false true true false) (told { Msg.empty with b := 8191, c := 1 } (small [])), by decide +kernel⟩,
    ⟨small [], by decide +kernel⟩, ⟨exported pa0 { Msg.empty with a := 1, b := 16 }, by decide +kernel⟩,
    ⟨exported pa0 { Msg.empty with a := 1, c := 4096, bytes := [0] }, by decide +kernel⟩,
    ⟨exported (2 ^ 39 - 1) { Msg.empty with a := 1, bytes := [0, 0] }, by decide +kernel⟩,
    fun write => ⟨exported pa0 { Msg.empty with a := 1, c := 4095, bytes := [0], flag := write }, by cases write <;> decide +kernel⟩,
    ⟨peerAcq, by decide +kernel⟩, ⟨markedAt (pa0 + 4095) peerAcq, by decide +kernel⟩⟩

/-- A request of tenant 0, of which `n` are pending. -/
def asking (n : Nat) (m : Msg) : State :=
  told m (modTenant (small []) 0 (fun t => { t with enabled := true, posted := BitVec.ofNat 64 n }))
/-- A request to unmap the page of data, to which a store pends. -/
def unmapping : State :=
  { asking 0 { Msg.empty with b := 5, d := 4096, e := 4096 } with
    stores := (pending 1).stores
    ctxs := (inCtx (fun x => { x with
      maps := [{ cva := 4096, len := 4096, sort := 0, kind := 1, r := true, w := true, ahead := 0, host := 0 }] }) (small [])).ctxs }

/-- A request about a mapping of context 0, which the message describes, the page of data being mapped by its driver. -/
def mapping (q : MapReq) : State := told { Msg.empty with map := q } (inCtx (fun x => { x with
  aper := 2 ^ 33
  heap := { x.heap with limit := 4096 }
  maps := [{ cva := 4096, len := 4096, sort := 0, kind := 1, r := true, w := true, ahead := 0, host := 0 }] }) (small []))
/-- What is asked for a range of pages. -/
def pages (cva len : Nat) : MapReq := { Msg.empty.map with cva := cva, len := len, sort := 0, kind := 1 }
/-- A region asked for in context 0. -/
def asksRegion (rows : Nat) (scaled : Bool) : State :=
  told { Msg.empty with region := { scaled := scaled, scale := 1, decode := false, native := 0, fmt := 7, rows := rows, cols := 64, kind := 1 } }
    (small [])
/-- The region itself. -/
def asked16 : Region :=
  { ctx := 0, choff := 0, scaled := false, scale := 1, decode := false, native := 0, fmt := 7, rows := 16, cols := 64, rowbase := 0
    cva := 0 }
/-- An OZO file of the sections given, each by its type, contents and PLACE. -/
def fileOf (l : List (Nat × List Byte × Nat)) : List Byte :=
  let n := l.length
  let table := (List.range n).flatMap (fun i =>
    let x := l.getD i (0, [], 0)
    leBytes 4 x.1 ++ leBytes 4 0 ++ leBytes 8 (64 + 32 * n + ((l.take i).map (fun y => y.2.1.length)).sum) ++ leBytes 8 x.2.1.length ++
      leBytes 8 x.2.2)
  leBytes 4 0x314F5A4F ++ leBytes 2 1 ++ leBytes 2 0 ++ leBytes 8 0 ++ leBytes 4 12 ++ leBytes 4 n ++ leBytes 8 64 ++
    List.replicate 32 0 ++ table ++ l.flatMap (fun x => x.2.1)
/-- The object that such a file holds. -/
def objectOf (l : List Byte) : ObjFile :=
  match readObject l 0 with
  | .ok f => f
  | .error _ => { sects := [], text := [], const := [], data := [], got := [], syms := [], relocs := [], kernels := [], hashes := [] }
/-- An undefined symbol. -/
def unknown : List (Nat × List Byte × Nat) := [(1, [], 0), (8, leBytes 4 0 ++ [0xFF] ++ List.replicate 19 0, 0), (9, [0], 0)]
/-- One word of text with a record that admits no relocation. -/
def misfit : List (Nat × List Byte × Nat) :=
  [(1, List.replicate 8 0, 0), (5, leBytes 8 0 ++ [9, 0] ++ List.replicate 22 0, 0), (6, List.replicate 32 0, 0)]
/-- A GOT entry that names no symbol. -/
def strayGot : List (Nat × List Byte × Nat) := [(1, [], 0), (4, List.replicate 8 0, 0), (6, List.replicate 32 0, 0)]
/-- A LIC with its HI20 record, and a LO12 record beside it. -/
def twoParts : ObjFile :=
  let r (off type : Nat) : Reloc := { off := off, type := type, sect := 0, sym := 0, addend := 0x1800, anchor := 0 }
  { sects := [{ type := 1, flags := 0, foff := 0, size := 16, place := 0 }], text := leBytes 8 (0x4E * 2 ^ 52) ++ List.replicate 8 0
    const := [], data := [], got := [], syms := [{ name := [], sect := 0xFF, global := true, value := 0 }]
    relocs := [r 0 2, r 8 3], kernels := [], hashes := [] }

theorem witness_Loader :
    ((∃ s : State, pageRange s.msg.map.cva s.msg.map.len = false) ∧
      (∃ (s : State) (x : Ctx), ctx? s 0 = some x ∧ s.msg.map = pages (2 ^ 42) 4096 ∧ pageRange (2 ^ 42) 4096 = true ∧
        (∀ r ∈ fixedRanges s 0, meets (2 ^ 42, 4096) r = false) ∧ ∀ y ∈ x.maps, meets (2 ^ 42, 4096) (y.cva, y.len) = false) ∧
      (∀ n, n = 4096 ∨ n = 8192 → ∃ (s : State) (x : Ctx), ctx? s 0 = some x ∧ s.msg.map = pages 4096 n ∧
        (∀ r ∈ fixedRanges s 0, meets (4096, n) r = false) ∧ (∃ y ∈ x.maps, meets (4096, n) (y.cva, y.len) = true) ∧
        allMapped x 4096 n = (n == 4096) ∧ pginvBusy s 0 4096 n = false) ∧
      (∃ (s : State) (x : Ctx), ctx? s 0 = some x ∧ s.msg.map = pages 4096 4096 ∧ allMapped x 4096 4096 = true ∧
        pginvBusy s 0 4096 4096 = true) ∧
      (∀ busy, ∃ (s : State) (x : Ctx), ctx? s 0 = some x ∧ pageRange s.msg.d s.msg.e = true ∧ allMapped x s.msg.d s.msg.e = true ∧
        pginvBusy s 0 s.msg.d s.msg.e = busy)) ∧
    ((∃ s : State, s.msg.region.scaled = true ∧ regionOf s s.msg.a s.msg.region.scale = false) ∧
      (∃ s : State, s.msg.region.rows = 0 ∧ regionShapeOk { asked16 with rows := 0 } = false) ∧
      (∃ s : State, ∀ n, n < 64 → kfind s.regions n ≠ none) ∧
      (∃ s : State, ∃ row cva k, s.msg.region.rows = 16 ∧ s.msg.region.scaled = false ∧ s.msg.region.kind ≠ 3 ∧
        regionShapeOk asked16 = true ∧ scaleOk s asked16 = true ∧ kfind s.regions 0 = none ∧ chooseRow s asked16 = some row ∧
        placeCva s 0 (2 ^ 40) (2 ^ 40) = some cva ∧ chooseChoff s 0 asked16 = some k ∧ canLend s asked16 = true ∧
        s.keeper.waiting = [] ∧ ∃ h, mapRec s 0 = some h ∧ h.kind = 0)) ∧
    ((∃ s : State, s.msg.d + s.msg.e = 2 ^ 40 + 1) ∧ (∃ s : State, s.msg.d + s.msg.e = 2 ^ 40) ∧
      (∃ s : State, (loadObject s 0 (fileOf [(1, [], 0)])).toBool = true) ∧ ∃ s : State, (loadObject s 0 []).toBool = false) ∧
    ((∃ s : State, (ctx? s 0).isSome = true) ∧ headerOk [] = false ∧
      (headerOk (fileOf [(2, [], 0)]) = true ∧ sectsOk (fileOf [(2, [], 0)]) (sectsOf (fileOf [(2, [], 0)])) = false) ∧
      (∃ (s : State) (x : Ctx), ctx? s 0 = some x ∧ x.objects = 0 ∧ readObject (fileOf unknown) 0 = .ok (objectOf (fileOf unknown)) ∧
        symbolFail x (objectOf (fileOf unknown)).syms = some 3) ∧
      (∃ (s : State) (x : Ctx), ctx? s 0 = some x ∧ x.objects = 0 ∧
        (let l := fileOf [(1, [], 2 ^ 40)]
         readObject l 0 = .ok (objectOf l) ∧ symbolFail x (objectOf l).syms = none ∧
          loadBase x (le l 8 8) (le l 16 4) (extentOf (objectOf l).sects) = none)) ∧
      ∃ (s : State) (x : Ctx) (d : Nat), ctx? s 0 = some x ∧ x.objects = 0 ∧ placeCva s 0 0 (2 ^ 34) = some d ∧
        (let l := fileOf misfit
         readObject l 0 = .ok (objectOf l) ∧ symbolFail x (objectOf l).syms = none ∧ (objectOf l).data = [] ∧
          loadBase x (le l 8 8) (le l 16 4) (extentOf (objectOf l).sects) = some 0 ∧
          relocAll (objectOf l) (symValue x (objectOf l).sects 0 d) 0 (objectOf l).relocs.zipIdx =
            .error { status := 6, record := some 0 }) ∧
        (let l := fileOf strayGot
         readObject l 0 = .ok (objectOf l) ∧ symbolFail x (objectOf l).syms = none ∧ (objectOf l).data = [] ∧
          loadBase x (le l 8 8) (le l 16 4) (extentOf (objectOf l).sects) = some 0 ∧
          relocAll (objectOf l) (symValue x (objectOf l).sects 0 d) 0 (objectOf l).relocs.zipIdx = .ok [] ∧
          (objectOf l).gotSyms = [0] ∧ (objectOf l).syms.length = 0) ∧
        (let l := fileOf [(1, [], 0)]
         readObject l 0 = .ok (objectOf l) ∧ (objectOf l).gotSyms = [] ∧ (objectOf l).data = [] ∧
          loadBase x (le l 8 8) (le l 16 4) (extentOf (objectOf l).sects) = some 0)) ∧
    ((∃ x : Ctx, heapFree x 0 4096 = true) ∧
      (∃ x : Ctx, heapFree x 0 4096 = false ∧ loadBase x 0 12 4096 = some 4096) ∧
      (∃ x : Ctx, heapFree x 0 (2 ^ 40) = false ∧ loadBase x 0 12 (2 ^ 40) = none) ∧
      ∃ r h y, r.type = 3 ∧ anchorOf twoParts r = some h ∧ relocValue twoParts (fun _ => 0) 0 r y = .ok (-2048, true)) :=
  ⟨⟨⟨small [], by decide +kernel⟩, ⟨mapping (pages (2 ^ 42) 4096), _, rfl, rfl, by decide +kernel⟩,
      by rintro n (rfl | rfl) <;> exact ⟨mapping (pages 4096 _), _, rfl, rfl, by decide +kernel⟩,
      ⟨{ mapping (pages 4096 4096) with stores := (pending 1).stores }, _, rfl, rfl, by decide +kernel⟩,
      fun busy => ⟨{ told { Msg.empty with d := 4096, e := 4096 } (mapping (pages 4096 4096)) with
        stores := if busy then (pending 1).stores else [] }, _, rfl, by cases busy <;> decide +kernel⟩⟩,
    ⟨⟨asksRegion 16 true, by decide +kernel⟩, ⟨asksRegion 0 false, by decide +kernel⟩,
      ⟨{ small [] with regions := (List.range 64).map (fun n => (n, asked16)) }, by decide +kernel⟩,
      ⟨asksRegion 16 false, _, _, _, rfl, rfl, by decide, by decide +kernel, by decide +kernel, by decide +kernel, rfl, rfl, rfl,
        by decide +kernel, rfl, _, rfl, rfl⟩⟩,
    ⟨⟨told { Msg.empty with d := 2 ^ 40, e := 1 } (small []), rfl⟩, ⟨told { Msg.empty with d := 2 ^ 40 } (small []), rfl⟩,
      ⟨small [], by decide +kernel⟩, ⟨small [], by decide +kernel⟩⟩,
    ⟨⟨small [], by decide +kernel⟩, by decide +kernel, by decide +kernel, ⟨small [], _, rfl, by decide +kernel⟩,
      ⟨small [], _, rfl, by decide +kernel⟩, ⟨small [], _, 2 ^ 34, rfl, rfl, by decide +kernel, by dsimp only; decide +kernel, by dsimp only; decide +kernel,
        by dsimp only; decide +kernel⟩⟩,
    ⟨⟨Ctx.fresh 0 { dataSeg with limit := 4096 } 4 (2 ^ 33) 0 0, by decide +kernel⟩,
      ⟨{ Ctx.fresh 0 { dataSeg with limit := 8192 } 4 (2 ^ 33) 0 0 with heapUsed := [(0, 1)] }, by decide +kernel⟩,
      ⟨Ctx.fresh 0 dataSeg 4 (2 ^ 33) 0 0, by decide +kernel⟩,
      ⟨{ off := 8, type := 3, sect := 0, sym := 0, addend := 0x1800, anchor := 0 }, _, { name := [], sect := 0xFF, global := true, value := 0 },
        rfl, rfl, by decide +kernel⟩⟩⟩

theorem witness_Mailbox :
    (∃ s u : State, ∃ data, mailFree s ∧ s.msg.b % 256 = requestCode .mapread ∧
      (.done (posted s) 0 [mapDword (posted s) s.msg.c s.msg.d] : Reply) = .done u 0 data) ∧
    (∃ s u : State, mailFree s ∧ s.msg.b % 256 = requestCode .unmap ∧ onCtx serveUnmap (posted s) = .wait u) ∧
    (∀ n, n = 1 ∨ n = 14 → ∃ s : State, s.msg.b % 256 = n ∧ n ≠ requestCode .mapread) ∧
    (∀ n, n = 0 ∨ n = 15 → ∃ s : State, mailFree s ∧ s.msg.b % 256 = n) ∧
    (∃ s : State, ∃ x, ctx? s s.msg.c = some x ∧ x.tenant ≠ s.msg.a) ∧
    (∃ s : State, s.msg.nats = [] ∧ ((tenant s s.msg.a).posted - (tenant s s.msg.a).done).toNat = 16) ∧
    (∃ s : State, s.msg.c = 2 ^ 32 + 4096) ∧
    (∃ s : State, s.msg.c = 2 ^ 32 ∧ s.msg.c % 4096 = 0 ∧ freeCtx s = some 1 ∧ freePort s s.msg.a = some 0) ∧
    (∃ s : State, s.msg.c = 4096 ∧ freePort s s.msg.a = none) ∧
    (∃ (s : State) (x : Ctx), ctx? s s.msg.c = some x ∧ x.frozen ≠ none ∧ x.sealed = false) ∧
    (∃ (s : State) (x : Ctx), ctx? s s.msg.c = some x ∧ x.frozen = none ∧ pginvBusy s s.msg.c 0 0 = false) ∧
    (∃ (s : State) (x : Ctx), ctx? s s.msg.c = some x ∧ x.sealed = true ∧ pginvBusy s s.msg.c 0 0 = false) ∧
    (∃ (s : State) (x : Ctx), ctx? s s.msg.c = some x ∧ regionOf s s.msg.a s.msg.d = false) :=
  have h (n : Nat) (m : Msg) (hm : m.nats = [] ∧ m.a = 0) (hn : (tenant (asking n m) 0).enabled = true ∧
      (tenant (asking n m) 0).posted = (tenant (asking n m) 0).done ∧
      (tenant (asking n m) 0).posted.toNat + 1 < 2 ^ 64) : mailFree (asking n m) := by
    have e : (asking n m).msg = m := rfl
    simp only [mailFree, e, hm.2]
    exact ⟨hm.1, by decide, hn⟩
  ⟨⟨asking 0 { Msg.empty with b := 9 }, _, _, h _ _ ⟨rfl, rfl⟩ (by decide +kernel), rfl, rfl⟩,
    ⟨unmapping, _, ⟨rfl, by decide +kernel⟩, rfl, rfl⟩,
    by rintro n (rfl | rfl)
       · exact ⟨told { Msg.empty with b := 1 } (small []), by decide +kernel⟩
       · exact ⟨told { Msg.empty with b := 14 } (small []), by decide +kernel⟩,
    by rintro n (rfl | rfl)
       · exact ⟨asking 0 Msg.empty, h _ _ ⟨rfl, rfl⟩ (by decide +kernel), rfl⟩
       · exact ⟨asking 0 { Msg.empty with b := 15 }, h _ _ ⟨rfl, rfl⟩ (by decide +kernel), rfl⟩,
    ⟨told { Msg.empty with a := 1 } (small []), _, rfl, by decide +kernel⟩, ⟨asking 16 Msg.empty, by decide +kernel⟩,
    ⟨told { Msg.empty with c := 2 ^ 32 + 4096 } (small []), rfl⟩, ⟨asking 0 { Msg.empty with c := 2 ^ 32 }, by decide +kernel⟩,
    ⟨modTenant (told { Msg.empty with c := 4096 } (small [])) 0 (fun t => { t with
      ports := (List.range 4).map (fun k => (k, { Port.reset with ctx := some 0 })) }), by decide +kernel⟩,
    ⟨stopped, _, rfl, by decide +kernel⟩, ⟨small [], _, rfl, by decide +kernel⟩,
    ⟨inCtx (fun x => { x with frozen := some someFatal, sealed := true }) (small []), _, rfl, by decide +kernel⟩,
    ⟨small [], _, rfl, by decide +kernel⟩⟩

theorem witness_OperatorEvents :
    (∃ s : State, s.keeper.booted = true ∧ s.msg.a = 15 ∧ s.msg.b = 2 ^ 36 ∧ s.msg.b % 2 ^ 21 = 0 ∧
      ∀ d ∈ (tenant s s.msg.a).dumps, d.off + d.bytes.length ≤ s.msg.b) ∧
    (∃ s : State, s.msg.flag = true ∧ s.keeper.booted = true ∧ s.msg.a = 15 ∧ s.msg.c = 1024) ∧
    (∃ s : State, s.msg.flag = true ∧ s.keeper.booted = false) ∧ (∃ s : State, s.msg.flag = true ∧ s.msg.a = 16) ∧
    (∃ s : State, s.msg.flag = true ∧ s.msg.c = 1025) ∧
    (∃ (s : State) (x : Ctx), s.msg.flag = false ∧ ctx? s s.msg.a = some x ∧ s.msg.b = 3 ∧
      (let others := (s.ctxs.filter (fun p => p.1 != s.msg.a)).map (fun p => kget p.2.allow s.msg.b (0, 0))
       s.msg.c + (others.map (·.1)).sum = 8 ∧ s.msg.d + (others.map (·.2)).sum = 12)) ∧
    (∃ s : State, (bootSlot s.keeper).isNone = true) ∧ (∃ s : State, s.msg.a = 12 ∧ s.msg.b = 110) ∧
    (∃ (s : State) (r : MapRec), s.msg.a = 3 ∧ mapRec s (12928 + s.msg.a) = some r ∧ s.msg.flag = true ∧ recLive r = true ∧ s.keeper.waiting = [] ∧ r.value = 900) ∧
    (∃ (s : State) (r : MapRec), s.msg.a = 3 ∧ mapRec s (12928 + s.msg.a) = some r ∧ s.msg.flag = true ∧ r.value = 1000) ∧
    (∃ (s : State) (r : MapRec), s.msg.a = 3 ∧ mapRec s (12928 + s.msg.a) = some r ∧ s.msg.flag = false ∧ recLive r = true ∧ s.keeper.waiting = [] ∧ r.value = 600) ∧
    (∃ (s : State) (r : MapRec), s.msg.a = 3 ∧ mapRec s (12928 + s.msg.a) = some r ∧ s.msg.flag = false ∧ r.value = 500) :=
  ⟨⟨told { Msg.empty with a := 15, b := 2 ^ 36 } (small []), by decide +kernel⟩,
    ⟨told { Msg.empty with a := 15, c := 1024, flag := true } (small []), by decide +kernel⟩,
    ⟨told { Msg.empty with flag := true } (modKeeper (small []) (fun k => { k with booted := false })), by decide +kernel⟩,
    ⟨told { Msg.empty with flag := true, a := 16 } (small []), by decide +kernel⟩,
    ⟨told { Msg.empty with flag := true, c := 1025 } (small []), by decide +kernel⟩,
    ⟨told { Msg.empty with b := 3, c := 8, d := 12 } (small []), _, by decide +kernel, rfl, by decide +kernel⟩,
    ⟨small [], by decide +kernel⟩, ⟨told { Msg.empty with a := 12, b := 110 } (small []), by decide +kernel⟩,
    ⟨unit 12931 (recOf 14 1 900 0) { Msg.empty with a := 3, flag := true }, _, by decide +kernel, rfl, by decide +kernel⟩,
    ⟨unit 12931 (recOf 14 1 1000 0) { Msg.empty with a := 3, flag := true }, _, by decide +kernel, rfl, by decide +kernel⟩,
    ⟨unit 12931 (recOf 14 1 600 0) { Msg.empty with a := 3 }, _, by decide +kernel, rfl, by decide +kernel⟩,
    ⟨unit 12931 (recOf 14 1 500 0) { Msg.empty with a := 3 }, _, by decide +kernel, rfl, by decide +kernel⟩⟩

/-! ### Witnesses of the clauses about illegal forms, waits and what comes home -/

/-- Thread 0 waits at a word. -/
def waitsAt (w : Word) (s : State) : State :=
  let s := own (fun x => { x with cond := .waiting }) s
  { s with mem := s.mem.setAll ((span (16 * 4096) 8).zip (leBytes 8 w.toNat)) }
/-- CSRR s5, FCSR. -/
def csrFcsr : Word := 0x1441400000400000
/-- SAREAD of cells from 65,504, by the array's owner. -/
def readsLast : State := waitsAt ((encodeWith .saread { vz with s := 5 }).getD 0) (array (some 0) [] 1 [(5, 65504)])

theorem witness_StepRunsDecoded_late :
    (∃ s : State, s.cur = .thread 0 ∧ (thr s 0).pendTrap = some (0xB, 0, 7) ∧ privOf (thr s 0) = false ∧ lateWord s 0 ≠ none) ∧
    (∃ s : State, (thr s 0).cond = .waiting ∧ decode csrFcsr = .ok (.csrr 5 1) ∧ lateWord s 0 = some (csrFcsr, .csrr 5 1)) ∧
    (∃ s : State, (die s (dieOf 0)).sa.owner = some 0 ∧ (reg s 5).toNat = 65504 ∧ (lateWord s 0).map (·.2) = some .saread) ∧
    (∃ s : State, (thr s 0).pendTrap = none ∧ (thr s 0).rmsusp = true ∧ lateWord s 0 ≠ none) :=
  ⟨⟨waitsAt csrFcsr (trapPending 0xB (small [])), by decide +kernel⟩, ⟨waitsAt csrFcsr (small []), by decide +kernel⟩,
    ⟨readsLast, by decide +kernel⟩, ⟨waitsAt csrFcsr (own (fun x => { x with rmsusp := true }) (small [])), by decide +kernel⟩⟩

theorem witness_StepRunsEngines_retest : ∃ (s : State) (r : MapRec), mapRec s (saRec 3) = some r ∧ recLive r = true ∧
    r.auxA.testBit 0 = false ∧ kget s.keeper.retested 3 0 + 10 ^ 9 = s.time :=
  ⟨cleared false (10 ^ 9), _, rfl, by decide +kernel⟩

/-- A register beyond its agent's, a Retriever, and the service context (R28, R48, R133, R246). -/
theorem witness_illegal_forms :
    (admits (small []) true [32] = false ∧ admits (small []) true [5, 32] = false ∧ admits (small []) true [32, 6, 7] = false) ∧
    (admits (retriever []) false [] = false ∧ admits (retriever []) false [5] = false ∧ admits (retriever []) false [5, 6, 7, 8] = false) ∧
    (taskWordOk (retriever []) [] = false ∧ taskWordOk inService [5, 6] = false ∧ taskWordOk inService [5, 6, 7, 8] = false) ∧
    (retCtlOk inService [5, 6] = false ∧ retCtlOk (level (small [])) [5, 6, 7] = false ∧ retCtlOk (retriever []) [5, 6, 7, 8] = false) := by
  decide +kernel

theorem witness_ControlRegisters_waits : ∃ s : State, admits s false [5] = true ∧ (my s).mqueue ≠ [] :=
  ⟨queueing 1 (ganged (small [])), by decide +kernel⟩

theorem witness_AtomicsAndFences_home :
    (∃ s : State, sharesGranule s [17 * 4096] (17 * 4096 + 255) = true ∧ sharesGranule s [17 * 4096] (17 * 4096 + 256) = false ∧
      offPart (17 * 4096) = false) ∧
    (∃ s : State, uoqRead s 0 (17 * 4096) = some 1 ∧ (∀ k, k = 1 ∨ k = 2 ∨ k = 3 → uoqRead s k (17 * 4096) = none)) ∧
    (∃ (s : State) (l : List ByteRef), (∀ r ∈ l, nonNative s r.pa = false) ∧ l.length = 8) ∧
    (∃ s : State, ¬BroughtHome s [17 * 4096] (17 * 4096 + 256)) :=
  ⟨⟨small [], by decide +kernel⟩, ⟨inDie, by decide +kernel, by rintro k (rfl | rfl | rfl) <;> decide +kernel⟩,
    ⟨small [], accessRefs (small []) 1 0 8, by decide +kernel⟩,
    ⟨inDie, fun h => absurd h.1 (by decide +kernel)⟩⟩

theorem witness_RetrieverWords_park :
    let heap (s : State) (k : Kernel) : Except Cause (List Byte) := readHeap s k.entry k.size
    (∃ (s : State) (x : Ctx) (k : Kernel), retCtlOk s [5, 6, 7, 8] = true ∧ ctx? s (myCtx s) = some x ∧
      x.kernels.find? (fun k => k.ret && k.entry == (reg s 7).toNat) = some k ∧ (my s).cond = .waiting ∧
      heap s k = .error (.trap 5 0 0 false)) ∧
    (∃ (s : State) (x : Ctx) (k : Kernel), retCtlOk s [5, 6, 7, 8] = true ∧ ctx? s (myCtx s) = some x ∧ (my s).cond ≠ .waiting ∧
      x.kernels.find? (fun k => k.ret && k.entry == (reg s 7).toNat) = some k ∧ k.obj ∉ x.tainted ∧ unitLive s 2048 = true ∧
      heap s k = .error (.trap 5 0 0 false)) ∧
    (∃ (s : State) (x : Ctx) (k : Kernel), retCtlOk s [5, 6, 7, 8] = true ∧ ctx? s (myCtx s) = some x ∧ k.obj ∉ x.tainted ∧
      x.kernels.find? (fun k => k.ret && k.entry == (reg s 7).toNat) = some k ∧ unitLive s 2048 = true ∧
      heap s k = .error (.park 0)) :=
  ⟨⟨poisonedAt (16 * 4096) (own (fun x => { x with cond := .waiting }) (owned none 0 0)), _, _, by decide +kernel, rfl, rfl,
      by decide +kernel, by decide +kernel⟩,
    ⟨poisonedAt (16 * 4096) (owned none 0 0), _, _, by decide +kernel, rfl, by decide +kernel, rfl, by decide +kernel, by decide +kernel,
      by decide +kernel⟩,
    ⟨(let s := owned none 0 0; { s with pt := kset s.pt (4 * 4096) (ptEntry 0 1 true false true false) }), _, _, by decide +kernel, rfl,
      by decide +kernel, rfl, by decide +kernel, by decide +kernel⟩⟩

/-- Barrier 1 of a window of two, and a barrier that no window has. -/
def bar1 : Handle := { n := 1, barrier := true }
def bar2 : Handle := { n := 2, barrier := true }

theorem witness_Copies_illegal :
    (∃ s : State, regCount s < (32 : Reg).toNat + opCount 0) ∧ opsOk 2 [2, 0, 0, 0] = false ∧ opsOk 3 [0, 13, 0] = false ∧
    (∃ s : State, handleOk s bar2 = false ∧ sbAbs s (myPool s) (myCtx s) 2 = none) ∧
    (∃ s : State, handleOk s bar1 = false ∧ sbAbs s (myPool s) (myCtx s) 1 = some 63) ∧
    (∃ s : State, handleOk s bar1 = true ∧ (barrier s (myPool s) 63).valid = true) ∧
    (∃ s : State, unitLive s (16 + myPool s) = false) ∧
    (∃ s : State, handleOk s bar1 = true ∧ sbAbs s (myPool s) (myCtx s) 1 = some 63 ∧ (progressOf (my s) (handleKey bar1)).state = 3) :=
  ⟨⟨small [], by decide +kernel⟩, by decide, by decide, ⟨atBarrier oneConsumer 0, by decide +kernel⟩,
    ⟨atBarrier Barrier.zero 0, by decide +kernel⟩, ⟨atBarrier oneConsumer 0, by decide +kernel⟩,
    ⟨modKeeper (small []) (fun k => { k with map := [(16, { liveRec 2 0 0 0 with state := 3 })] }), by decide +kernel⟩,
    ⟨own (fun x => { x with progress := [(handleKey bar1, { Progress.idle with state := 3 })] }) (atBarrier oneConsumer 0), by decide +kernel⟩⟩

theorem witness_Tags_illegal :
    (∃ s : State, (reg s 7).toNat = 8) ∧
    (∃ s : State, (reg s 6).getLsbD 6 = true ∧ (sbWindow s (myPool s) (myCtx s)).2 = ((reg s 6).extractLsb' 0 6).toNat) :=
  ⟨⟨small [(7, 8)], by decide +kernel⟩, ⟨windowed 62 2 (small [(6, 66)]), by decide +kernel⟩⟩

theorem witness_StageBarriers_illegal :
    (∃ s : State, (sbWindow s (myPool s) (myCtx s)).2 = ((reg s 6).extractLsb' 0 6).toNat) ∧
    (∀ n, n = 0 ∨ n = 2 ^ 46 + 1 → ∃ s : State, admits s true [5, 6, 7] = true ∧
      sbAbs s (myPool s) (myCtx s) ((reg s 6).extractLsb' 0 6).toNat = some 63 ∧ (reg s 7).toNat = n) ∧
    (∃ s : State, sbAbs s (myPool s) (myCtx s) ((reg s 6).extractLsb' 0 6).toNat = some 63 ∧ (reg s 7).toNat = 2) :=
  ⟨⟨windowed 62 2 (small [(6, 2)]), by decide +kernel⟩,
    by rintro n (rfl | rfl)
       · exact ⟨atBarrier oneConsumer 0, by decide +kernel⟩
       · exact ⟨atBarrier oneConsumer (2 ^ 46 + 1), by decide +kernel⟩,
    ⟨atBarrier oneConsumer 2, by decide +kernel⟩⟩

theorem witness_Strands_traps :
    let n (s : State) : Nat := frameSize (reg s 7)
    let refs (s : State) : List ByteRef := refsOf s (myCtx s) ((seg s 1).base.toNat + (reg s 6).toNat) (n s)
    let ok (s : State) : Bool := taskWordOk s [5, 6, 7, 8] && decide ((reg s 7).toNat < 2 ^ regCount s) &&
      (segCheck (seg s 1) 1 (reg s 6).toNat (n s) 1).isNone
    let near (s : State) : Option Cause := judge s (chkOf s 1 1) (span ((seg s 1).base.toNat + (reg s 6).toNat) (n s))
    (∃ s : State, taskWordOk s [5, 6, 7, 8] = true ∧ 2 ^ regCount s = (reg s 7).toNat) ∧
    (∃ s : State, taskWordOk s [5, 6, 7, 8] = true ∧ (reg s 7).toNat < 2 ^ regCount s ∧
      segCheck (seg s 1) 1 (reg s 6).toNat (n s) 1 = some (.trap 2 (segvInfo 0 1 1) 3968 false)) ∧
    (∃ s : State, ok s = true ∧ (reg s 6).toNat % 16 = 8) ∧
    (∃ s : State, ok s = true ∧ (reg s 6).toNat % 16 = 0 ∧ (reg s 8).toNat % 8 = 4) ∧
    (∃ s : State, ok s = true ∧ (reg s 6).toNat % 16 = 0 ∧ (reg s 8).toNat % 8 = 0 ∧ (my s).deque.length < 32 ∧
      near s = some (.park 4096)) ∧
    (∃ s : State, ok s = true ∧ (reg s 6).toNat % 16 = 0 ∧ (my s).deque.length < 32 ∧ near s = none ∧ frameWaits s (refs s) = true) ∧
    (∃ s : State, ok s = true ∧ (reg s 6).toNat % 16 = 0 ∧ (my s).deque.length < 32 ∧ near s = none ∧ ownCopies s (me s) = false ∧
      settled (my s) = true ∧ frameWaits s (refs s) = false ∧ unpoisoned s (((refs s).drop 16).take 8) = false) ∧
    (∃ s : State, taskWordOk s [6] = true ∧ taskWordOk s [5, 6] = true ∧ frameCause s (reg s 6) 24 = some (.trap 3 256 4104 false)) ∧
    (∃ s : State, (reg s 6).toNat % 16 = 0 ∧ judge s (frameChk (myCtx s) (lostPage s)) (span (reg s 6).toNat 24) = some (.park 4096)) ∧
    (∃ s : State, taskWordOk s [6] = true ∧ frameCause s (reg s 6) 24 = none ∧ (my s).deque.getLast? ≠ some (reg s 6).toNat ∧
      unpoisoned s (refsOf s (myCtx s) (reg s 6).toNat 24) = true ∧
      frameCount ((wordsAt s (refsOf s (myCtx s) (reg s 6).toNat 24)).getD 2 0) = 0) ∧
    (∃ s : State, taskWordOk s [6] = true ∧ frameCause s (reg s 6) 24 = none ∧ (my s).deque.getLast? ≠ some (reg s 6).toNat ∧
      unpoisoned s (refsOf s (myCtx s) (reg s 6).toNat 24) = true ∧ settled (my s) = false ∧
      frameCount ((wordsAt s (refsOf s (myCtx s) (reg s 6).toNat 24)).getD 2 0) ≠ 0) ∧
    (∃ s : State, taskWordOk s [5, 6] = true ∧ frameCause s (reg s 6) 24 = none ∧
      (let l := (refsOf s (myCtx s) (reg s 6).toNat 24).drop 16
       l.any (fun r => mustWait s s.cur s.stores r.kind false [] none) = false ∧ unpoisoned s l = false)) :=
  ⟨⟨small [(7, 0x100000000)], by decide +kernel⟩, ⟨small [(6, 3968), (7, 0)], by decide +kernel⟩, ⟨small [(6, 8)], by decide +kernel⟩,
    ⟨small [(8, 4)], by decide +kernel⟩, ⟨backed (ptEntry 0 1 false true true false) (small []), by decide +kernel⟩,
    ⟨pending 1, by decide +kernel⟩, ⟨poisonedAt (17 * 4096) (small []), by decide +kernel⟩, ⟨small [(6, 4104)], by decide +kernel⟩,
    ⟨backed (ptEntry 0 1 false true true false) (small [(6, 4096)]), by decide +kernel⟩, ⟨framed 0 [] [(6, 4096)], by decide +kernel⟩,
    ⟨unsettled (framed 1 [] [(6, 4096)]), by decide +kernel⟩, ⟨poisonedAt (17 * 4096) (framed 1 [] [(6, 4096)]), by decide +kernel⟩⟩

/-- A counter at an offset of the page of data, its doubleword 0 as given, with room in the gang table. -/
def counted (w : Word) (a : Word) : State :=
  let s := small [(6, a)]
  { s with mem := s.mem.setAll ((span (17 * 4096 + a.toNat) 8).zip (leBytes 8 w.toNat)) }

theorem witness_GangAndCounterWords_traps :
    (∃ s : State, (my s).arrival = none ∧ (myTask s).strands = 2) ∧
    (∃ s : State, taskWordOk s [5, 6] = true ∧ scalarCause s 1 (reg s 6) 64 0 64 = some (.trap 3 0 32 false)) ∧
    (∃ s : State, taskWordOk s [5, 6] = true ∧ scalarCause s 1 (reg s 6) 64 0 64 = none ∧ releaseWaits s 4 = true) ∧
    (∃ s : State, taskWordOk s [5, 6] = true ∧ scalarCause s 1 (reg s 6) 64 0 64 = none ∧ releaseWaits s 4 = false ∧
      (let l := accessRefs s 1 (reg s 6) 64
       l.any (fun r => mustWait s s.cur s.stores r.kind false [] none) = false ∧ (underRefs s l).any (poisoned s) = true)) ∧
    (∃ s : State, admits s false [5, 6, 7] = true ∧ scalarCause s 1 (reg s 6) 128 2 128 = some (.trap 3 256 64 false)) ∧
    (∃ s : State, admits s false [5, 6, 7] = true ∧ scalarCause s 1 (reg s 6) 128 2 128 = none ∧
      ((accessRefs s 1 (reg s 6) 128).take 1).all (fun r => atomicUnitLive s r.loc) = false) ∧
    (∃ s : State, admits s false [5, 6, 7] = true ∧ scalarCause s 1 (reg s 6) 128 2 128 = none ∧ releaseWaits s 4 = false ∧
      (let l := accessRefs s 1 (reg s 6) 128
       let kind := (byteRef s (myCtx s) ((seg s 1).base.toNat + (reg s 6).toNat)).kind
       mustWait s s.cur s.stores kind true (l.map (·.loc)) none = false ∧ inQueue s (myDie s) (l.map (·.loc)) = false ∧
        (l.take 1).all (fun r => atomicUnitLive s r.loc) = true ∧ (l.map (·.loc)).any (poisoned s) = true)) ∧
    (∃ s : State, taskWordOk s [5] = true ∧ (my s).arrival = none ∧ releaseWaits s 4 = true) ∧
    (∃ s : State, taskWordOk s [5] = true ∧ (my s).arrival = some 0 ∧ 1 < (myTask s).strands) :=
  ⟨⟨(let s := small []; { s with tasks := s.tasks.map (fun p => (p.1, { p.2 with strands := 2 })) }), by decide +kernel⟩,
    ⟨small [(6, 32)], by decide +kernel⟩, ⟨pending 1, by decide +kernel⟩, ⟨poisonedAt (17 * 4096) (small []), by decide +kernel⟩,
    ⟨small [(6, 64)], by decide +kernel⟩, ⟨unitsGone, by decide +kernel⟩, ⟨poisonedAt (17 * 4096) (small []), by decide +kernel⟩,
    ⟨pending 1, by decide +kernel⟩,
    ⟨(let s := own (fun x => { x with arrival := some 0 }) (small []); { s with tasks := s.tasks.map (fun p => (p.1, { p.2 with strands := 2 })) }),
      by decide +kernel⟩⟩

theorem witness_device_launch :
    (∃ (s : State) (x : Ctx), ctx? s 0 = some x ∧ x.succs = [] ∧ launchCode s 0 (List.replicate 8 0) = 1) ∧
    (∃ (s : State) (x : Ctx), ctx? s 0 = some x ∧ x.succs = [] ∧ launchCode s 0 oneTile = 0 ∧ ∀ g, g < 64 → (kfind x.gangs g).isSome) ∧
    (∃ (s : State) (x : Ctx), ctx? s 0 = some x ∧ x.succs = [] ∧ launchCode s 0 oneTile = 0 ∧ kfind x.gangs 63 = none ∧
      ∀ j, j < 63 → (kfind x.gangs j).isSome) ∧
    (∃ (s : State) (refs : List ByteRef) (x : Ctx), refs.length = 128 ∧ (refs.map (·.loc)).Nodup ∧ (∀ r ∈ refs, r.has = true) ∧
      ctx? s 0 = some x ∧ launchCode s 0 oneTile = 0 ∧ (depStep .sig (BitVec.ofNat 64 (2 ^ 63 + 2 ^ 62 + 1)) 0).2.2 = true) ∧
    (∃ (s : State) (refs : List ByteRef) (x : Ctx), refs.length = 128 ∧ (refs.map (·.loc)).Nodup ∧ (∀ r ∈ refs, r.has = true) ∧
      ctx? s 0 = some x ∧ (depStep .init 0 0).2.2 = false ∧ (depStep .init 0 0).2.1 ≠ none) :=
  let full (n : Nat) : State :=
    inCtx (fun x => { x with gangs := (List.range n).map (fun g => (g, Gang.start oneTile none 0)) }) (ported (some 0) 0 Msg.empty)
  ⟨⟨ported (some 0) 0 Msg.empty, _, rfl, by decide +kernel⟩, ⟨full 64, _, rfl, by decide +kernel⟩, ⟨full 63, _, rfl, by decide +kernel⟩,
    ⟨ported (some 0) 0 Msg.empty, accessRefs (small []) 1 3968 128, _, by decide +kernel, by decide +kernel, by decide +kernel, rfl,
      by decide +kernel⟩,
    ⟨small [], accessRefs (small []) 1 3968 128, _, by decide +kernel, by decide +kernel, by decide +kernel, rfl, by decide +kernel⟩⟩

/-- The records of pool 0 and its loader are retired. -/
def poolGone (s : State) : State := modKeeper s (fun k => { k with map := [(16, { liveRec 2 0 0 0 with state := 3 })] })
/-- Thread 0 and another holder, each of 60 lanes; thread 0 owes. -/
def twoHolders : State :=
  setThr (entitled 4 []) 1 { Thread.start with vceil := 64, gvl := 60, rq := 64, ent := 60, debt := some 3 }

theorem witness_VectorState_entitlements :
    (∃ (s : State) (x : Thread), krising s.threads = true ∧ kfind s.threads 0 = some x ∧ x.vceil ≠ 0 ∧ (holders s 0 x.ctx).length = 2 ∧
      quotaOf s 0 x.ctx = 64 ∧ ∃ y, kfind s.threads 1 = some y ∧ y.ent < y.rq) ∧
    (∃ s : State, VecGoes s false [5, 6] [] ∧ (reg s 6).toNat = 0 ∧ settled (my s) = false) ∧
    (∃ s : State, VecGoes s false [] [] ∧ (my s).vceil ≠ 0 ∧ settled (my s) = false) ∧
    (∃ s : State, VecGoes s false [5, 6] [] ∧ (reg s 6).toNat ≠ 0 ∧ (my s).vceil = 0 ∧ unitLive s (16 + myPool s) = false) ∧
    (∃ s : State, VecGoes s true [5, 6] [] ∧ settled (my s) = true ∧ unitLive s (16 + myPool s) = false) :=
  ⟨⟨twoHolders, _, by decide +kernel, rfl, by decide +kernel, by decide +kernel, by decide +kernel, _, rfl, by decide +kernel⟩,
    ⟨unsettled (entitled 4 []), vecGoes_of (by decide +kernel), by decide +kernel⟩,
    ⟨unsettled (entitled 4 []), vecGoes_of (by decide +kernel), by decide +kernel⟩,
    ⟨poolGone (spillable (small [(6, 1)])), vecGoes_of (by decide +kernel), by decide +kernel⟩,
    ⟨poolGone (entitled 4 []), vecGoes_of (by decide +kernel), by decide +kernel⟩⟩

/-- A strip of VL 0. -/
def stripless (s : State) : State := own (fun x => { x with vl := 0 }) (strip s)

theorem witness_WindowAndBlockWords_rest :
    let offs (s : State) : List Nat := [((reg s 5).toNat + 0 * sxBytes 14) % 2 ^ 64]
    let all (s : State) : List ByteRef := ((offs s).map (elemRefs s (extSeg vsx) (sxBytes 14))).flatten
    (∃ s : State, VecGoes s true [5] [0] ∧ (my s).vl = 0 ∧ vsx.va.toNat < 4) ∧
    (∃ s : State, VecGoes s true [5] [0] ∧ VecLoadReady s (extSeg vsx) (sxBytes 14) false (offs s) ∧ s.defer = true ∧
      numElems (my s) 14 / 16 = 1) ∧
    (∃ s : State, VecGoes s true [5] [0] ∧ vecCause s (extSeg vsx) 0 (sxBytes 14) false (offs s) = none ∧
      (all s).any (fun r => mustWait s s.cur s.stores r.kind false [] none) = true) ∧
    (∃ s : State, VecGoes s true [5] [0] ∧ vecCause s (extSeg vsx) 0 (sxBytes 14) false (offs s) = none ∧
      (all s).any (fun r => mustWait s s.cur s.stores r.kind false [] none) = false ∧ (underRefs s (all s)).any (poisoned s) = true) :=
  ⟨⟨stripless (small []), vecGoes_of (by decide +kernel), by decide +kernel⟩,
    ⟨deferred (strip (small [(5, 4084)])), vecGoes_of (by decide +kernel), ⟨by decide +kernel, by decide +kernel, by decide +kernel⟩,
      by decide +kernel⟩,
    ⟨paged 0 { strip (small [(5, 0)]) with stores := (pending 0).stores }, vecGoes_of (by decide +kernel), by decide +kernel⟩,
    ⟨poisonedAt (17 * 4096) (strip (small [(5, 0)])), vecGoes_of (by decide +kernel), by decide +kernel⟩⟩

theorem witness_GangsAndAccumulators_pool :
    (∃ s : State, VecGoes s true [5, 6] [] ∧ settled (my s) = true ∧ (my s).mvl = 0 ∧ unitLive s (16 + myPool s) = false) ∧
    (∃ s : State, GangReady s [5, 6] [] ∧ settled (my s) = true ∧ unitLive s (16 + myPool s) = false) :=
  ⟨⟨poolGone (strip (small [])), vecGoes_of (by decide +kernel), by decide +kernel⟩,
    ⟨poolGone (ganged (small [])), gangReady_of (by decide +kernel) (by decide +kernel), by decide +kernel⟩⟩

/-- Loader 0 is retired. -/
def loaderGone (s : State) : State := modKeeper s (fun k => { k with map := [(2048, { liveRec 4 0 0 0 with state := 3 })] })
/-- An ended gang in a phase, whose DONE or SIG is as given, and the port it came by. -/
def ended (phase : Nat) (done sig : Word) (port : Option Nat) : EndedGang :=
  { gid := 0, record := [BitVec.ofNat 64 (2 ^ 56), 0, 0, 0, 0, 0, done, sig], port := port, phase := phase }
/-- Whether the eight bytes at an address are ones that DONE reaches, at a live unit. -/
def doneReaches (s : State) (a : Nat) : Bool :=
  judge s { c := 0, sg := 0, acc := 2, v := true, base := 0, frame := false, lost := none } (span a 8) == none &&
    ((span a 8).map (byteRef s 0)).all (fun r => decide (r.pa < 2 ^ 47) && r.has && !poisoned s r.loc && atomicUnitLive s r.loc)

theorem witness_GangAndTimeEvents_actions :
    (∃ s : State, (thr s 0).cond = .fetching ∧ frozenCtx s (thr s 0).ctx = false ∧ suspendedCtx s (thr s 0).ctx = false ∧
      loaderLive s (coreOf 0) = false ∧ ∃ y, recKernel (Ctx.fresh 0 dataSeg 0 0 0 0) oneTile = y) ∧
    (∃ s : State, inPools (task s 0).runPa = true ∧ inPools ((task s 0).runPa + 128) = true ∧ (∃ l, footOf s = .ok l ∧ l.length = 8)) ∧
    (recDone (ended 1 4096 0 none).record = 4096 ∧ recSig (ended 3 0 4096 none).record = 4096 ∧ recIrq (ended 2 (2 ^ 63) 0 (some 0)).record = true ∧
      recDone (ended 1 0 0 none).record = 0 ∧ recSig (ended 3 0 0 none).record = 0) ∧
    (∃ s : State, (ctx? s 0).isSome = true ∧ doneReaches s 4096 = true ∧ (((span 4096 8).map (byteRef s 0)).map (·.loc)).Nodup) ∧
    (∃ s : State, judge s { c := 0, sg := 0, acc := 2, v := true, base := 0, frame := false, lost := none } (span 4096 8) = some (.park 4096)) ∧
    (4097 % 8 ≠ 0 ∧ ∃ s : State, atomicUnitLive s (17 * 4096) = false) ∧
    (∃ (s : State) (x : Ctx), ctx? s s.msg.a = some x ∧ x.ended = [ended 1 4096 0 none] ∧
      (gangAction s s.msg.a (ended 1 4096 0 none)).isSome = false) :=
  ⟨⟨loaderGone (footed 0 8 true), by decide +kernel, by decide +kernel, by decide +kernel, by decide +kernel, _, rfl⟩,
    ⟨footed 0 8 true, by decide +kernel, by decide +kernel, _, rfl, by decide +kernel⟩, by decide +kernel,
    ⟨small [], by decide +kernel⟩, ⟨backed (ptEntry 0 1 false true true false) (small []), by decide +kernel⟩,
    ⟨by decide, unitsGone, by decide +kernel⟩,
    ⟨inCtx (fun x => { x with ended := [ended 1 4096 0 none] }) (backed (ptEntry 0 1 false true true false) (small [])), _, rfl,
      by decide +kernel⟩⟩

/-- The one frame of the deque of thread 0 holds its g0 as a null segment, or with a reserved bit. -/
def stolenFrame (bad : Word) : Option Nat :=
  (frameHart Seg.empty ([0, BitVec.ofNat 64 (2 ^ 32), 0] ++ List.replicate 15 bad) 4096).2
theorem witness_TaskEvents_steal : stolenFrame 0 = none ∧ (stolenFrame (BitVec.allOnes 64)).isSome = true := by decide +kernel

/-- The slot table of pool 0 gives the context a barrier window of two. -/
def barTable (s : State) : KMap SlotEntry := (pool (windowed 62 2 s) 0).slots

theorem witness_SlotEvents_barriers :
    (∃ (s : State) (x : Ctx), tableFits s 0 (barTable s) = true ∧ (∃ e ∈ kvals (barTable s), e.valid = true ∧ e.ctx = 0) ∧
      ctx? s 0 = some x ∧ x.savedBarriers = [] ∧ (sbWindow s 0 0).2 = 0 ∧ (sbWindow (putSlots s 0 (barTable s)) 0 0) = (62, 2)) ∧
    (∃ (s : State) (x : Ctx) (l : KMap Barrier), tableFits s 0 (barTable s) = true ∧ ctx? s 0 = some x ∧
      kfind x.savedBarriers 0 = some l ∧ krising l = true ∧ kfind l 1 = some oneConsumer ∧ (sbWindow s 0 0).2 = 0) :=
  ⟨⟨inSlot (fun e => { e with dw3 := 0 }) (small []), _, by decide +kernel, by decide +kernel, rfl, by decide +kernel⟩,
    ⟨inCtx (fun x => { x with savedBarriers := [(0, [(1, oneConsumer)])] }) (inSlot (fun e => { e with dw3 := 0 }) (small [])), _, _,
      by decide +kernel, rfl, rfl, by decide +kernel⟩⟩

/-- Channel 0 has a lasting fault that waits. -/
def channelFails : State := modKeeper (small []) (fun k => { k with waiting := [(12320, 0)] })

theorem witness_UnitsAndMap_channels :
    (∃ (s : State) (r : MapRec), mapRec s 12320 = some r ∧ r.kind = 0x0A ∧ recLive r = true ∧ s.keeper.waiting = [(12320, 0)] ∧
      (∀ k, k < 16 → channelRetired s k = false)) ∧
    (∃ (s : State) (r : MapRec), mapRec s 12320 = some r ∧ recLive r = true ∧ s.keeper.waiting = [(12320, 0)] ∧ channelRetired s 15 = true) ∧
    (∃ (s : State) (old : MapRec) (x : Ctx), mapRec s 12320 = some old ∧ recLive old = true ∧ ctx? s 0 = some x ∧ x.frozen = none ∧
      ∃ f ∈ s.keeper.frames, f.2 = 0 ∧ ∃ i, i < 16 ∧ channelOf (f.1 * 4096 + 256 * i) = 12320 - 12320) ∧
    (∃ (s : State) (old : MapRec) (x : Ctx), mapRec s 12320 = some old ∧ recLive old = true ∧ ctx? s 0 = some x ∧ x.frozen = none ∧
      ∃ g ∈ s.regions, g.2.ctx = 0 ∧ ∃ i, i < min 256 g.2.tiles ∧ g.2.channel i = 12320 - 12320) ∧
    (∃ (s : State) (old : MapRec) (y : Thread), mapRec s 16 = some old ∧ recLive old = true ∧ kfind s.threads 0 = some y ∧
      poolOf 0 = 16 - 16 ∧ hwOf 0 ≠ 16) ∧
    (∃ s : State, s.msg.a = 3 ∧ s.msg.b = 1 ∧ kget s.keeper.retested 3 0 + 10 ^ 9 = s.time ∧
      ∃ r, mapRec s (saRec 3) = some r ∧ recLive r = true ∧ r.auxA.testBit 0 = false) ∧
    (∃ (s : State) (x : Ctx), ctx? s s.msg.a = some x ∧ x.suspended = true ∧ x.frozen = none ∧ lateWord s 0 ≠ none) ∧
    (∃ p ∈ (small []).ctxs, p.2.tenant = 0) :=
  ⟨⟨channelFails, _, rfl, by decide +kernel⟩,
    ⟨modKeeper channelFails (fun k => { k with map := [(12335, { liveRec 10 0 0 0 with state := 3 })] }), _, rfl, by decide +kernel⟩,
    ⟨modKeeper (small []) (fun k => { k with frames := [(0, 0)] }), _, _, rfl, by decide +kernel, rfl, by decide +kernel, (0, 0),
      by decide +kernel, rfl, 0, by decide +kernel⟩,
    ⟨regional (small []), _, _, rfl, by decide +kernel, rfl, by decide +kernel, (0, sixteen), by decide +kernel, rfl, 0, by decide +kernel⟩,
    ⟨small [], _, _, rfl, by decide +kernel, rfl, by decide +kernel⟩,
    ⟨told { Msg.empty with a := 3, b := 1 } (cleared false (10 ^ 9)), by decide +kernel, by decide +kernel, by decide +kernel, _, rfl,
      by decide +kernel⟩,
    ⟨waitsAt csrFcsr (inCtx (fun x => { x with suspended := true }) (small [])), _, rfl, by decide +kernel⟩, by decide +kernel⟩

theorem witness_Responses_memory :
    lastWrite [(17 * 4096, (1 : Byte)), (17 * 4096, 2)] (17 * 4096) = some 2 ∧ lastWrite [(17 * 4096, (1 : Byte))] (17 * 4096 + 1) = none ∧
    (∃ (s : State) (p : PStore), s.stores[0]? = some p ∧ (p.locs.filter (fun q => !offPart q.1)) ≠ []) ∧
    (∃ (s : State) (p : PStore), s.stores[0]? = some p ∧ mayPerform s 0 = true ∧
      (p.locs.filter (fun q => offPart q.1 && (q.1 / 2 ^ 40 % 64 != 0) == false)) ≠ []) :=
  ⟨by decide, by decide, ⟨pending 1, _, rfl, by decide +kernel⟩,
    ⟨(let s := pending 1; { s with stores := s.stores.map (fun p => { p with locs := [(2 ^ 46, 1)] }) }), _, rfl, by decide +kernel⟩⟩

/-- Stream byte `t` of copy `c` has a place on each side. -/
def hasPlace (s : State) (c : Copy) (t : Nat) : Bool := match streamByte s c t with | .ok _ _ => true | _ => false

/-- Region 0 on rows of its own. -/
def aside (s : State) : State := { s with regions := [(0, { sixteen with rowbase := 1000 })] }

theorem witness_CopyEngineAndPager_bytes :
    (∃ (s : State) (c : Copy), (match judgeChunk s c 0 with | .ok l => l.length == 16 && (standing s c 0 l).length == 16 | _ => false) = true) ∧
    (∃ (s : State) (c : Copy), (c.op == 0 && hasPlace s c 15) = true) ∧
    (∃ (s : State) (c : Copy), (c.op == 1 && hasPlace s c 47) = true) ∧
    (∃ (s : State) (c : Copy), (c.op == 2 && hasPlace s c 7 && (match c.geom with
      | some (_, r) => decide ((c.window.2.2.2 : Int) ≤ (c.ops.getD 3 0).toInt / r.e) | none => false)) = true) ∧
    (∃ (s : State) (c : Copy), (c.op == 3 && hasPlace s c 7) = true) :=
  let m (s : State) (o : CopyRef) (op : Nat) : Copy := made s o tag63 op
  ⟨⟨copying 4080, copied 4080, by decide +kernel⟩,
    ⟨small [], m (small [(5, 3840), (7, 256)]) (cops 1 1) 0, by decide +kernel⟩,
    ⟨small [], m (small [(5, 2048), (7, 16), (8, 3), (9, 32), (10, 64)]) (cops 1 1) 1, by decide +kernel⟩,
    ⟨aside (tileCopy 0), m (tileCopy 0) (cops 1 2) 2, by decide +kernel⟩,
    ⟨small [], m (small [(5, 2048), (7, 4), (8, 2), (9, 8)]) (cops 1 1) 3, by decide +kernel⟩⟩

theorem witness_OutsideAccesses_bytes :
    (∃ (s : State) (l : List (ByteRef × Byte)) (loc : Nat),
      lastWrite ((l.filter (fun p => p.1.has)).map (fun p => (p.1.loc, p.2))) loc = some 7 ∧ uoqRead s 0 loc = some 1) ∧
    (∃ (s : State) (l : List HostByte) (x : Ctx), ctx? s 0 = some x ∧ .absent 1 ∈ l ∧ 1 ∉ x.reports) ∧
    (∃ (s : State) (l : List HostByte) (x : Ctx), ctx? s 0 = some x ∧ .absent 1 ∈ l ∧ 1 ∈ x.reports) :=
  ⟨⟨inDie, [(byteRef inDie 0 4096, 7)], 17 * 4096, by decide +kernel⟩, ⟨small [], [.absent 1], _, rfl, by decide +kernel⟩,
    ⟨inCtx (fun x => { x with reports := [1] }) (small []), [.absent 1], _, rfl, by decide +kernel⟩⟩

/-- A request of tenant 0 after the first of which `n` have been posted. -/
def inTurn (n : Nat) (k : Nat) : State := asking n { Msg.empty with b := 9, nats := [k] }
/-- Context 0 holds region 0. -/
def freeing : State := told { Msg.empty with b := 7 } (regional (small []))
/-- An entry of the context in the trace ring of a core. -/
def traced (time : Nat) : TraceEntry := { time := time, kind := 1, code := 0, ctx := 0, hw := 0, pc := 0, data := 8 }

theorem witness_Mailbox_queue :
    (∀ n, n = 1 ∨ n = 15 → ∃ s : State, s.msg.nats = [] ∧ s.msg.a < 16 ∧ (tenant s s.msg.a).enabled = true ∧ (tenant s s.msg.a).done.toNat = 0 ∧
      (tenant s s.msg.a).posted.toNat = n ∧ s.msg.b % 256 = requestCode .mapread) ∧
    (∃ s : State, s.msg.nats = [3] ∧ (tenant s s.msg.a).posted.toNat = 2) ∧ (∃ s : State, s.msg.nats = [2] ∧ (tenant s s.msg.a).posted.toNat = 2) ∧
    (∃ s : State, s.msg.nats = [1] ∧ (tenant s s.msg.a).done.toNat + 1 = 1 ∧ 1 ≤ (tenant s s.msg.a).posted.toNat ∧ s.msg.b % 256 = requestCode .mapread) ∧
    (∃ (s : State) (x : Ctx), ctx? s s.msg.c = some x ∧ x.frozen = none ∧ pginvBusy s s.msg.c 0 0 = true) ∧
    (∃ (s : State) (x : Ctx), ctx? s s.msg.c = some x ∧ x.frozen = none ∧ pginvBusy s s.msg.c 0 0 = false ∧ s.keeper.waiting = [] ∧
      ∃ h, mapRec s 0 = some h ∧ h.kind = 0) ∧
    (∃ (s : State) (r : Region), regionOf s s.msg.a s.msg.d = true ∧ kfind s.regions s.msg.d = some r ∧ r.ctx ≠ s.msg.c) ∧
    (∃ (s : State) (r : Region), regionOf s s.msg.a s.msg.d = true ∧ kfind s.regions s.msg.d = some r ∧ r.ctx = s.msg.c ∧
      ∃ q ∈ s.regions, q.2.scaled = true ∧ q.2.scale = s.msg.d) ∧
    (∃ (s : State) (r : Region), kfind s.regions s.msg.d = some r ∧ r.ctx = s.msg.c ∧
      (∀ q ∈ s.regions, q.2.scaled = false) ∧ pginvBusy s s.msg.c 0 0 = true) ∧
    (∃ (s : State) (r : Region) (h : MapRec), regionOf s s.msg.a s.msg.d = true ∧ kfind s.regions s.msg.d = some r ∧ r.ctx = s.msg.c ∧
      (∀ q ∈ s.regions, q.2.scaled = false) ∧ pginvBusy s s.msg.c 0 0 = false ∧ s.keeper.waiting = [] ∧ mapRec s 0 = some h ∧ h.kind = 0 ∧
      recLive h = true ∧ 0 < r.rowsTaken ∧ r.lent ≤ h.auxB ∧ h.auxB < 2 ^ 64) :=
  ⟨by rintro n (rfl | rfl)
      · exact ⟨asking 1 { Msg.empty with b := 9 }, by decide +kernel⟩
      · exact ⟨asking 15 { Msg.empty with b := 9 }, by decide +kernel⟩,
    ⟨inTurn 2 3, by decide +kernel⟩, ⟨inTurn 2 2, by decide +kernel⟩, ⟨inTurn 2 1, by decide +kernel⟩,
    ⟨pending 1, _, rfl, by decide +kernel⟩, ⟨small [], _, rfl, by decide +kernel, by decide +kernel, rfl, _, rfl, rfl⟩,
    ⟨{ freeing with regions := [(0, { sixteen with ctx := 0 })], msg := { Msg.empty with c := 1 } }, _, by decide +kernel, rfl, by decide +kernel⟩,
    ⟨{ freeing with regions := [(0, sixteen), (1, { sixteen with scaled := true })] }, _, by decide +kernel, rfl, rfl, by decide +kernel⟩,
    ⟨{ freeing with stores := (pending 1).stores }, _, rfl, rfl, by decide +kernel⟩,
    ⟨modKeeper freeing (fun k => { k with map := [(0, { liveRec 0 12960 (2 ^ 39 - 2 ^ 19) (2 ^ 19) with state := 1 })] }), _, _,
      by decide +kernel, rfl, rfl, by decide +kernel, by decide +kernel, rfl, rfl, rfl, by decide +kernel⟩⟩

theorem witness_Mailbox_trace :
    (∃ s : State, (ctxTrace s 0).map (·.time) = [1, 2, 3] ∧ s.msg.d + 32 * (ctxTrace s 0).length = 2 ^ 40 ∧
      ∀ k ∈ s.cores, k.2.trace.Pairwise (fun a b => b.time ≤ a.time)) ∧
    (∃ s : State, s.msg.d + 32 * (ctxTrace s 0).length = 2 ^ 40 + 32) :=
  let s (d : Nat) : State := { small [] with
    msg := { Msg.empty with d := d }
    cores := [(0, { core (small []) 0 with trace := [traced 3, traced 1] }), (1, { core (small []) 1 with trace := [traced 2] })] }
  ⟨⟨s (2 ^ 40 - 96), by decide +kernel⟩, ⟨s (2 ^ 40 - 64), by decide +kernel⟩⟩

/-- A die's temperature is told, heat governing its clock as given. -/
def warmed (hot : List (Nat × (Bool × Nat))) (mhz time temp : Nat) : State :=
  { unit 12928 (recOf 14 1 mhz 1000) { Msg.empty with nats := [temp] } with
    time := time, keeper := { (unit 12928 (recOf 14 1 mhz 1000) Msg.empty).keeper with hot := hot } }

theorem witness_OperatorEvents_limits :
    (∀ n, n = 1 ∨ n = 2 ^ 36 + 2 ^ 21 → ∃ s : State, s.keeper.booted = true ∧ s.msg.b = n ∧ (n % 2 ^ 21 ≠ 0 ∨ 2 ^ 36 < n)) ∧
    (∃ s : State, s.msg.b = 0 ∧ ∃ d ∈ (tenant s s.msg.a).dumps, s.msg.b < d.off + d.bytes.length) ∧
    (∃ s : State, s.keeper.booted = false ∨ 16 ≤ s.msg.a) ∧
    (∀ p, p = (9, 12, 3) ∨ p = (8, 13, 3) ∨ p = (0, 0, 4) → ∃ s : State, s.msg.flag = false ∧ s.msg.c = p.1 ∧ s.msg.d = p.2.1 ∧ s.msg.b = p.2.2 ∧
      s.ctxs.filter (fun p => p.1 != s.msg.a) = []) ∧
    (∀ n, n = 128 ∨ n = 6144 ∨ n = 10240 ∨ n = 12288 ∨ n = 12320 → ∃ (s : State) (d : MapRec), s.msg.recs = [(n, d)] ∧ defaultRec n = some d) ∧
    (∃ (s : State) (r : MapRec), s.msg.a = 3 ∧ mapRec s (12928 + s.msg.a) = some r ∧ recLive r = false) ∧
    (∃ s : State, s.msg.a = 4) ∧
    (∃ (s : State) (r : MapRec), s.msg.a = 3201 ∧ s.msg.b = 3 ∧ mapRec s (12928 + s.msg.b) = some r ∧ r.value = 600 ∧ recLive r = true ∧
      s.keeper.waiting = []) ∧ ∃ s : State, s.msg.a = 3200 :=
  ⟨by rintro n (rfl | rfl)
      · exact ⟨told { Msg.empty with b := 1 } (small []), by decide +kernel⟩
      · exact ⟨told { Msg.empty with b := 2 ^ 36 + 2 ^ 21 } (small []), by decide +kernel⟩,
    ⟨modTenant (small []) 0 (fun t => { t with dumps := [{ off := 0, bytes := [1], ctx := 0 }] }), by decide +kernel⟩,
    ⟨told { Msg.empty with a := 16 } (small []), by decide +kernel⟩,
    by rintro p (rfl | rfl | rfl)
       · exact ⟨told { Msg.empty with b := 3, c := 9, d := 12 } (small []), by decide +kernel⟩
       · exact ⟨told { Msg.empty with b := 3, c := 8, d := 13 } (small []), by decide +kernel⟩
       · exact ⟨told { Msg.empty with b := 4 } (small []), by decide +kernel⟩,
    by rintro n (rfl | rfl | rfl | rfl | rfl) <;> exact ⟨told { Msg.empty with recs := [(_, _)] } (small []), _, rfl, rfl⟩,
    ⟨unit 12931 (recOf 14 3 1000 0) { Msg.empty with a := 3 }, _, by decide +kernel, rfl, by decide +kernel⟩,
    ⟨told { Msg.empty with a := 4 } (small []), rfl⟩,
    ⟨unit 12931 (recOf 14 1 600 0) { Msg.empty with a := 3201, b := 3 }, _, by decide +kernel, by decide +kernel, rfl, by decide +kernel⟩,
    ⟨told { Msg.empty with a := 3200 } (small []), rfl⟩⟩

theorem witness_OperatorEvents_heat :
    (∃ (s : State) (r : MapRec), kfind s.keeper.hot 0 = none ∧ s.msg.nats[0]? = some 100 ∧ mapRec s 12928 = some r ∧ recLive r = true ∧
      s.keeper.waiting = [] ∧ 500 < r.value) ∧
    (∃ s : State, kfind s.keeper.hot 0 = some (true, 0) ∧ s.msg.nats[0]? = some 95 ∧ s.time = 10 ^ 7) ∧
    (∃ s : State, kfind s.keeper.hot 0 = some (true, 0) ∧ s.msg.nats[0]? = some 94) ∧
    (∃ (s : State) (r : MapRec), kfind s.keeper.hot 0 = some (false, 0) ∧ s.msg.nats[0]? = some 99 ∧ s.time = 10 ^ 8 ∧
      mapRec s 12928 = some r ∧ r.value = 900 ∧ recLive r = true) ∧
    (∃ s : State, kfind s.keeper.hot 0 = some (false, 0) ∧ s.msg.nats[0]? = some 99 ∧ s.time + 1 = 10 ^ 8) ∧
    (∃ s : State, s.msg.nats[12]? = some 110) :=
  ⟨⟨warmed [] 1000 0 100, _, by decide +kernel, by decide +kernel, rfl, by decide +kernel⟩,
    ⟨warmed [(0, (true, 0))] 900 (10 ^ 7) 95, by decide +kernel⟩, ⟨warmed [(0, (true, 0))] 900 0 94, by decide +kernel⟩,
    ⟨warmed [(0, (false, 0))] 900 (10 ^ 8) 99, _, by decide +kernel, by decide +kernel, rfl, rfl, by decide +kernel⟩,
    ⟨warmed [(0, (false, 0))] 900 (10 ^ 8 - 1) 99, by decide +kernel⟩,
    ⟨told { Msg.empty with nats := List.replicate 13 110 } (small []), by decide +kernel⟩⟩

/-! ### Single steps of what this covers -/

/-- R214: VBCAST of an SX format takes every bit of the container. -/
theorem test_vbcast_sx : elem (my (after (exec (.vbcast { vz with vd := 3, fmt := 13, s := 5 }) (strip (small [(5, 0xFF)]))))) 3 13 0 = 15 := by
  decide +kernel
/-- R363: a step down from nominal, which degrades the clock's record and the die's. -/
theorem test_clock_step : (let t := after (exec .clockStep (told Msg.empty (small [])))
    ((mapRec t 12928).map (fun r => (r.value, r.state)), (mapRec t 1).map (·.state))) = (some (900, 2), some 2) := by decide +kernel
/-- R365: at 100 °C the clock goes down at once. -/
theorem test_heat : (mapRec (after (exec .temperatureRefresh (warmed [] 1000 0 100))) 12928).map (·.value) = some 900 := by decide +kernel
/-- R350: a destroyed context leaves no thread. -/
theorem test_ctxdel : (destroyCtx (small []) 0).threads.length = 0 ∧ (ctx? (destroyCtx (small []) 0) 0).isNone = true := by decide +kernel
end Sys2Proof.Machine
end

section
/-! SUPPORT. Every operation on the state keeps memory's canonical form (O8): what leaves memory as it is (`…_mem`), and what writes it
and keeps it canonical (`…_wf`). -/

namespace Sys2Proof.Machine

theorem Memory.wf_copy {m : Memory} (src dst n : Nat) (h : m.wf = true) : (m.copy src dst n).wf = true := by
  exact Memory.wf_setAll _ (Memory.wf_zero _ _ h)

@[simp] theorem foldl_mem {α : Type} (f : State → α → State) (h : ∀ s x, (f s x).mem = s.mem) (l : List α) (s : State) :
    (l.foldl f s).mem = s.mem := by
  induction l generalizing s with
  | nil => rfl
  | cons x r ih => rw [List.foldl_cons, ih, h]

theorem foldl_wf {α : Type} (f : State → α → State) (h : ∀ s x, s.mem.wf = true → (f s x).mem.wf = true) (l : List α) :
    ∀ s : State, s.mem.wf = true → (l.foldl f s).mem.wf = true := by
  induction l with
  | nil => exact fun _ k => k
  | cons x r ih => exact fun s k => ih _ (h s x k)

theorem Memory.wf_foldl {α : Type} (f : Memory → α → Memory) (h : ∀ m x, m.wf = true → (f m x).wf = true) (l : List α) :
    ∀ {m : Memory}, m.wf = true → (l.foldl f m).wf = true := by
  induction l with
  | nil => exact fun k => k
  | cons x r ih => exact fun k => ih (h _ x k)

@[simp] theorem jump_mem (s : State) (target : Word) : (jump s target).mem = s.mem := by
  simp only [jump]; split <;> simp

@[simp] theorem drawWord_mem (s : State) : (drawWord s).2.mem = s.mem := by rfl

@[simp] theorem putMark_mem (s : State) (g : Nat) (m : Option Mark) : (putMark s g m).mem = s.mem := by rfl

@[simp] theorem clearMarksOf_mem (s : State) (c : Nat) : (clearMarksOf s c).mem = s.mem := by simp [clearMarksOf]

@[simp] theorem releaseRets_mem (s : State) (c : Nat) : (releaseRets s c).mem = s.mem := by simp [releaseRets]

@[simp] theorem freeze_mem (s : State) (c : Nat) (f : Fatal) : (freeze s c f).mem = s.mem := by
  unfold freeze; (repeat' split) <;> simp

@[simp] theorem fatalTrap_mem (s : State) (t code info : Nat) (tval : Word) : (fatalTrap s t code info tval).mem = s.mem := by simp [fatalTrap]

@[simp] theorem trapThread_mem (s : State) (t code info : Nat) (tval : Word) : (trapThread s t code info tval).mem = s.mem := by
  simp only [trapThread]; (repeat' split) <;> simp

@[simp] theorem stopRet_mem (s : State) (n code : Nat) (tval : Word) : (stopRet s n code tval).mem = s.mem := by rfl

@[simp] theorem takeTrap_mem (s : State) (code info : Nat) (tval : Word) : (takeTrap s code info tval).mem = s.mem := by
  simp only [takeTrap]; split <;> simp

@[simp] theorem takeIll_mem (s : State) : (takeIll s).mem = s.mem := by simp [takeIll]

@[simp] theorem singleStep_mem (before s : State) : (singleStep before s).mem = s.mem := by
  simp only [singleStep]; (repeat' split) <;> simp

@[simp] theorem asAgent_mem (s : State) (a : Agent) (f : State → State) : (asAgent s a f).mem = (f { s with cur := a }).mem := by rfl

@[simp] theorem stopTold_mem (s : State) : (stopTold s).mem = s.mem := by
  unfold stopTold; (repeat' split) <;> simp

theorem respond_mem (s : State) (a : Agent) (f : State → State) : (respond s a f).mem = (f { s with cur := a }).mem := by
  simp [respond]

@[simp] theorem dropLocal_mem (s : State) (f : Nat → Bool) (line : Nat) : (dropLocal s f line).mem = s.mem := by rfl

@[simp] theorem dropL2_mem (s : State) (f : Nat → Bool) (line : Nat) : (dropL2 s f line).mem = s.mem := by rfl

@[simp] theorem cleanL2_mem (s : State) (f : Nat → Bool) (line : Nat) : (cleanL2 s f line).mem = s.mem := by rfl

@[simp] theorem llcTouch_mem (s : State) (pa : Nat) (h : Hint) : (llcTouch s pa h).mem = s.mem := by rfl

@[simp] theorem llcDrop_mem (s : State) (f : Nat → Bool) : (llcDrop s f).mem = s.mem := by rfl

@[simp] theorem l2Access_mem (s : State) (d : Nat) (tag : Option RetReg) (pa : Nat) (h : Hint) (w : Bool) :
    (l2Access s d tag pa h w).mem = s.mem := (l2Access_lines ..).mem

@[simp] theorem localPut_mem (s : State) (k pa lo hi : Nat) (h : Hint) : (localPut s k pa lo hi h).1.mem = s.mem := (localPut_lines ..).mem

@[simp] theorem dropVictim_mem (s : State) (j pa : Nat) : (dropVictim s j pa).mem = s.mem := by rfl

@[simp] theorem ownHit_mem (s : State) (k pa : Nat) (h : Hint) (x : Way) : (ownHit s k pa h x).mem = s.mem := by rfl

@[simp] theorem cachedLoad_mem (s : State) (k : Nat) (tag : Option RetReg) (pa : Nat) (h : Hint) :
    (cachedLoad s k tag pa h).mem = s.mem := (cachedLoad_lines ..).mem

@[simp] theorem cachedStore_mem (s : State) (k : Nat) (tag : Option RetReg) (pa : Nat) (h : Hint) :
    (cachedStore s k tag pa h).mem = s.mem := (cachedStore_lines ..).mem

@[simp] theorem dropAll_mem (s : State) (pa : Nat) : (dropAll s pa).mem = s.mem := by rfl

@[simp] theorem recallLine_mem (s : State) (pa : Nat) : (recallLine s pa).mem = s.mem := by rfl

@[simp] theorem fileReport_mem (s : State) (c page : Nat) : (fileReport s c page).mem = s.mem := by
  unfold fileReport; (repeat' split) <;> simp

@[simp] theorem parkHere_mem (s : State) (cva : Nat) : (parkHere s cva).mem = s.mem := by
  simp only [parkHere]; split <;> simp

@[simp] theorem takeCause_mem (s : State) (c : Cause) : (takeCause s c).mem = s.mem := by
  unfold takeCause; (repeat' split) <;> simp

@[simp] theorem noteReads_mem (s : State) (a : Agent) (locs : List Nat) : (noteReads s a locs).mem = s.mem := by
  simp only [noteReads]; split <;> simp

@[simp] theorem joinOps_mem (s : State) (a : Agent) (ops : List Nat) : (joinOps s a ops).mem = s.mem := by
  simp only [joinOps]; split <;> simp

@[simp] theorem putCovers_mem (s : State) (locs ops : List Nat) (seq : Bool) : (putCovers s locs ops seq).mem = s.mem := by
  simp only [putCovers]; split <;> simp

@[simp] theorem endCover_mem (s : State) (op : Nat) : (endCover s op).mem = s.mem := by
  simp only [endCover]; split <;> simp

@[simp] theorem unpoison_mem (s : State) (loc : Nat) : (unpoison s loc).mem = s.mem := by
  simp only [unpoison]; split <;> simp

@[simp] theorem logArrival_mem (s : State) (tn kind loc gran off len : Nat) (src : Option (Nat × Bool × Nat)) :
    (logArrival s tn kind loc gran off len src).mem = s.mem := by
  simp only [logArrival]; split <;> simp

@[simp] theorem logAgent_mem (s : State) (a : Agent) (kind loc cva len : Nat) : (logAgent s a kind loc cva len).mem = s.mem := by simp [logAgent]

@[simp] theorem logOutcome_mem (s : State) (a : Agent) (loc cva : Nat) (cas vamo wide : Bool) (time : Nat) (old : Word) :
    (logOutcome s a loc cva cas vamo wide time old).mem = s.mem := by rfl

@[simp] theorem releaseMark_mem (s : State) (a : Agent) (sc loc cva : Nat) : (releaseMark s a sc loc cva).mem = s.mem := by
  unfold releaseMark; (repeat' split) <;> simp

@[simp] theorem sendMiss_mem (s : State) (g : Nat) (m : Mark) : (sendMiss s g m).mem = s.mem := by
  simp only [sendMiss]; split <;> simp

@[simp] theorem holdAcquire_mem (s : State) (g : Nat) (m : Mark) : (holdAcquire s g m).mem = s.mem := by
  simp only [holdAcquire]; split <;> simp

@[simp] theorem putBytes_wf {s : State} (h : s.mem.wf = true) (l : List (Nat × Byte)) : (putBytes s l).mem.wf = true := by
  rw [(putBytes_written s l).1.mem]
  exact Memory.wf_setAll l h

@[simp] theorem recallUo_wf {s : State} (h : s.mem.wf = true) (f : Nat → Bool) (locs : List Nat) : (recallUo s f locs).mem.wf = true := by
  obtain ⟨l, -, hw, -⟩ := recallUo_spec s f locs
  rw [hw.mem]
  exact Memory.wf_setAll l h

@[simp] theorem landBytes_wf {s : State} (h : s.mem.wf = true) (l : List (Nat × Byte)) : (landBytes s l).mem.wf = true := by
  simp [landBytes, h]

@[simp] theorem ownLines_mem (s : State) (a : Agent) (copy : Bool) (locs : List Nat) (cva : Nat) (h : Hint) (home : Bool) :
    (ownLines s a copy locs cva h home).mem = s.mem := (ownLines_written ..).mem

@[simp] theorem writeHome_wf {s : State} (h : s.mem.wf = true) (a : Agent) (l : List (Nat × Byte)) (cva : Nat) (hint : Hint) (home : Bool) :
    (writeHome s a l cva hint home).mem.wf = true := by
  unfold writeHome; simp [h]

@[simp] theorem logStore_mem (s : State) (p : PStore) (locs : List Nat) : (logStore s p locs).mem = s.mem := (logStore_written ..).mem

@[simp] theorem enqueue_mem (s : State) (p : PStore) (off : List (Nat × Byte)) : (enqueue s p off).mem = s.mem := by
  simp only [enqueue]; split <;> simp

@[simp] theorem performStore_wf {s : State} (h : s.mem.wf = true) (p : PStore) : (performStore s p).mem.wf = true := by
  unfold performStore; (repeat' split) <;> simp [h]

@[simp] theorem performInDie_wf {s : State} (h : s.mem.wf = true) (p : PStore) : (performInDie s p).mem.wf = true := by
  simp [performInDie, h]

@[simp] theorem leaveDie_wf {s : State} (h : s.mem.wf = true) (d i : Nat) : (leaveDie s d i).mem.wf = true := by
  simp only [leaveDie]; split <;> simp [h]

@[simp] theorem performAt_wf {s : State} (h : s.mem.wf = true) (i : Nat) : (performAt s i).mem.wf = true := by
  simp only [performAt]; split <;> simp [h]

@[simp] theorem drainStores_wf (a : Agent) (n : Nat) {s : State} (h : s.mem.wf = true) : (drainStores a n s).mem.wf = true := by
  induction n generalizing s with
  | zero => exact h
  | succ n ih =>
    simp only [drainStores]
    split
    · exact ih (by simp [h])
    · exact h

@[simp] theorem acceptPieces_wf {s : State} (h : s.mem.wf = true) (a : Agent) (ps : List PStore) : (acceptPieces s a ps).mem.wf = true := by
  simp only [acceptPieces]; split <;> simp [h]

@[simp] theorem countRefused_mem (s : State) (c : Nat) (bytes : List (ByteRef × Byte)) : (countRefused s c bytes).mem = s.mem := by
  simp only [countRefused]; split <;> simp

@[simp] theorem acceptStore_wf {s : State} (h : s.mem.wf = true) (a : Agent) (bytes : List (ByteRef × Byte)) (rel : Option Nat) (hint : Hint) :
    (acceptStore s a bytes rel hint).mem.wf = true := by
  simp only [acceptStore]; split <;> simp [h]

@[simp] theorem performAtomic_wf {s : State} (h : s.mem.wf = true) (a : Agent) (refs : List ByteRef) (new : Option (List Byte)) (rel : Option Nat) :
    (performAtomic s a refs new rel).mem.wf = true := by
  simp only [performAtomic]; (repeat' split) <;> simp [h]

@[simp] theorem served_wf {s : State} (h : s.mem.wf = true) (refs : List ByteRef) : (served s refs).mem.wf = true := by
  simp [served, h]

@[simp] theorem touchEngine_mem (s : State) (d : Nat) (refs : List ByteRef) : (touchEngine s d refs).mem = s.mem := (touchEngine_lines ..).mem

@[simp] theorem touchLoad_mem (s : State) (a : Agent) (refs : List ByteRef) (h : Hint) :
    (touchLoad s a refs h).mem = s.mem := (touchLoad_lines ..).mem

theorem readBytes_wf {s : State} (h : s.mem.wf = true) (acq : Bool) (refs : List ByteRef) {fin : State → List Byte → State}
    (hf : ∀ u l, u.mem.wf = true → (fin u l).mem.wf = true) : (readBytes s acq refs fin).mem.wf = true := by
  simp only [readBytes]
  split
  · simpa using h
  · split
    · simpa using h
    · apply hf
      split <;> simp [h]

theorem loadPath_wf {s : State} (h : s.mem.wf = true) (sg : BitVec 3) (off : Word) (n al : Nat) (acq : Bool) (hint : Hint)
    (wait : Nat → List Nat → Bool → Await) {fin : State → List Byte → State}
    (hf : ∀ u l, u.mem.wf = true → (fin u l).mem.wf = true) : (loadPath s sg off n al acq hint wait fin).mem.wf = true := by
  simp only [loadPath]
  (repeat' split)
  · simpa using h
  · simpa using h
  · simpa using h
  · exact readBytes_wf h _ _ (fun u l hu => hf _ _ (by simpa using hu))

@[simp] theorem rmEvent_mem (s : State) : (rmEvent s).mem = s.mem := by
  simp only [rmEvent, raiseIrq_mem]
  exact foldl_mem _ (fun _ _ => raiseIrq_mem ..) _ _

@[simp] theorem changeMap_mem (s : State) (recs : List (Nat × MapRec)) : (changeMap s recs).mem = s.mem := by
  simp only [changeMap]; split <;> simp

@[simp] theorem rmsusp_mem (s : State) (c : Nat) : (rmsusp s c).mem = s.mem := by
  unfold rmsusp; (repeat' split) <;> simp

@[simp] theorem ackVersion_mem (s : State) (c v : Nat) (driver : Bool) : (ackVersion s c v driver).1.mem = s.mem := by
  simp only [ackVersion]; (repeat' split) <;> simp

theorem floatEnd_mem (s : State) (fl : Flags) (f : State → State) (hf : ∀ u, (f u).mem = u.mem) : (floatEnd s fl f).mem = s.mem := by
  simp only [floatEnd]; split <;> simp [hf]

@[simp] theorem takeFrom_mem (p c h n : Nat) (s : State) : (takeFrom p c h n s).mem = s.mem := by
  induction n generalizing s with
  | zero => rfl
  | succ n ih => simp only [takeFrom]; (repeat' split) <;> simp [ih]

@[simp] theorem giveBack_mem (p c n : Nat) (s : State) : (giveBack p c n s).mem = s.mem := by
  induction n generalizing s with
  | zero => rfl
  | succ n ih => simp only [giveBack]; (repeat' split) <;> simp [ih]

@[simp] theorem joinEnt_mem (s : State) (t : Nat) : (joinEnt s t).mem = s.mem := by simp [joinEnt]

@[simp] theorem leaveEnt_mem (s : State) (p c : Nat) : (leaveEnt s p c).mem = s.mem := by simp [leaveEnt]

@[simp] theorem setRequest_mem (s : State) (t rq : Nat) : (setRequest s t rq).mem = s.mem := by
  simp only [setRequest]; split <;> simp

@[simp] theorem wakePool_mem (s : State) (p : Nat) : (wakePool s p).mem = s.mem := by rfl

@[simp] theorem placeOwed_mem (s : State) (t : Nat) : (placeOwed s t).mem = s.mem := by
  simp only [placeOwed]; (repeat' split) <;> simp

@[simp] theorem settlePool_mem (s : State) (p : Nat) : (settlePool s p).mem = s.mem := by simp [settlePool]

@[simp] theorem traceGrant_mem (before s : State) : (traceGrant before s).mem = s.mem := by
  simp only [traceGrant]; split <;> simp

theorem regrant_mem {s u : State} (h : regrant s = some u) : u.mem = s.mem := by
  unfold regrant at h
  simp only at h
  (repeat' split at h) <;> cases h <;> simp

theorem grantPoint_mem (s : State) (pre fin : State → State) (hp : ∀ u, (pre u).mem = u.mem) (hf : ∀ u, (fin u).mem = u.mem) :
    (grantPoint s pre fin).mem = s.mem := by
  simp only [grantPoint]
  split
  · simp
  · split
    · rw [hf, hp]
    · split
      · simp
      · rw [hf, regrant_mem ‹_›, hp]

@[simp] theorem releaseVec_mem (s : State) (t : Nat) : (releaseVec s t).mem = s.mem := by
  simp only [releaseVec]; split <;> simp

@[simp] theorem loadDone_mem (d : Reg) (sext : Bool) (s : State) (bytes : List Byte) : (loadDone d sext s bytes).mem = s.mem := by simp [loadDone]

theorem storePath_wf {s : State} (h : s.mem.wf = true) (sg : BitVec 3) (off : Word) (al : Nat) (bytes : List Byte)
    (rel : Option Nat) (hint : Hint) {fin : State → State} (hf : ∀ u, u.mem.wf = true → (fin u).mem.wf = true) :
    (storePath s sg off al bytes rel hint fin).mem.wf = true := by
  simp only [storePath]
  split
  · simpa using h
  · exact hf _ (by simp [h])

@[simp] theorem segldDone_mem (g : BitVec 3) (sg : Nat) (off : Word) (s : State) (bytes : List Byte) : (segldDone g sg off s bytes).mem = s.mem := by
  simp only [segldDone]; split <;> simp

@[simp] theorem modWinBarrier_mem (s : State) (p c n : Nat) (f : Barrier → Barrier) : (modWinBarrier s p c n f).mem = s.mem := by
  unfold modWinBarrier; (repeat' split) <;> simp

@[simp] theorem setBarrier_mem (s : State) (p k : Nat) (b : Barrier) : (setBarrier s p k b).mem = s.mem := by rfl

@[simp] theorem modCopy_mem (s : State) (p id : Nat) (f : Copy → Copy) : (modCopy s p id f).mem = s.mem := by rfl

@[simp] theorem pump_mem (s : State) (p : Nat) : (pump s p).mem = s.mem := by rfl

@[simp] theorem completeHandle_mem (s : State) (p : Nat) (c : Copy) (r : Progress) : (completeHandle s p c r).mem = s.mem := by
  simp only [completeHandle]; split <;> simp

@[simp] theorem settleCopy_mem (s : State) (p id : Nat) : (settleCopy s p id).mem = s.mem := by
  unfold settleCopy; (repeat' split) <;> simp

@[simp] theorem arriveBytes_mem (s : State) (p : Nat) (c : Copy) (n : Nat) : (arriveBytes s p c n).mem = s.mem := by
  simp only [arriveBytes]; split <;> simp

@[simp] theorem writeStream_wf {s : State} (h : s.mem.wf = true) (p : Nat) (c : Copy) (l : List (ByteRef × ByteRef)) :
    (writeStream s p c l).mem.wf = true := by
  simp only [writeStream]
  exact foldl_wf _ (fun u l hu => performStore_wf hu _) _ _ (by simp [h])

@[simp] theorem writeChunk_wf {s : State} (h : s.mem.wf = true) (p : Nat) (c : Copy) (k : Nat) (l : List (ByteRef × ByteRef)) :
    (writeChunk s p c k l).mem.wf = true := by
  simp [writeChunk, h]

@[simp] theorem endChunk_mem (s : State) (p id k : Nat) : (endChunk s p id k).mem = s.mem := by simp [endChunk]

@[simp] theorem chunkWritten_mem (s : State) (p id k op n : Nat) (c : Copy) : (chunkWritten s p id k op n c).mem = s.mem := by
  simp only [chunkWritten]; split <;> simp

@[simp] theorem resumeCopy_mem (s : State) (p : Nat) (c : Copy) : (resumeCopy s p c).mem = s.mem := by
  simp only [resumeCopy]; split <;> simp

@[simp] theorem acceptCopy_mem (s : State) (c : Copy) (r : Progress) : (acceptCopy s c r).mem = s.mem := by simp [acceptCopy]

@[simp] theorem modGang_mem (s : State) (c g : Nat) (f : Gang → Gang) : (modGang s c g f).mem = s.mem := by simp [modGang]

@[simp] theorem oweDraws_mem (s : State) (c : Nat) : (oweDraws s c).mem = s.mem := by rfl

@[simp] theorem modPort_mem (s : State) (n k : Nat) (f : Port → Port) : (modPort s n k f).mem = s.mem := by rfl

@[simp] theorem enterGang_mem (s : State) (c g : Nat) (r : List Word) (p : Option Nat) : (enterGang s c g r p).mem = s.mem := by
  simp only [enterGang]; split <;> simp

@[simp] theorem placeSuccs_mem (c n : Nat) (s : State) : (placeSuccs c n s).mem = s.mem := by
  induction n generalizing s with
  | zero => rfl
  | succ n ih => simp only [placeSuccs]; (repeat' split) <;> simp [ih]

@[simp] theorem refusePort_mem (s : State) (n k code : Nat) : (refusePort s n k code).mem = s.mem := by rfl

@[simp] theorem retireTask_wf {s : State} (h : s.mem.wf = true) (t : Nat) : (retireTask s t).mem.wf = true := by
  simp only [retireTask]; (repeat' split) <;> simp [h, Memory.wf_zero]

@[simp] theorem endStrand_wf {s : State} (h : s.mem.wf = true) (t : Nat) : (endStrand s t).mem.wf = true := by
  simp only [endStrand]; split <;> simp [h]

@[simp] theorem gbarWait_mem (s : State) (d : Reg) (p : Nat) : (gbarWait s d p).mem = s.mem := by
  simp only [gbarWait]; split <;> simp

@[simp] theorem deviceLaunch_mem (s : State) (c : Nat) (r : List Word) : (deviceLaunch s c r).1.mem = s.mem := by
  simp only [deviceLaunch]; (repeat' split) <;> simp

@[simp] theorem forgone_mem (s : State) (a : Agent) : (forgone s a).mem = s.mem := by
  simp only [forgone]; split <;> simp

theorem firstTurn_mem {l : List Agent} : ∀ {s u : State} {a : Agent}, firstTurn s l = some (a, u) → u.mem = s.mem := by
  induction l with
  | nil => intro s u a h; cases h
  | cons b r ih =>
    intro s u a h
    simp only [firstTurn] at h
    (repeat' split at h)
    · exact ih h
    · rw [ih h]; simp
    · cases h; rfl

theorem nextAgent_mem {s u : State} {a : Agent} (h : nextAgent s = some (a, u)) : u.mem = s.mem := firstTurn_mem h

theorem dueTrap_mem {s u : State} {x : Nat × Nat × Word} (h : dueTrap s = some (u, x)) : u.mem = s.mem := by
  unfold dueTrap at h
  simp only at h
  (repeat' split at h) <;> cases h <;> rfl

@[simp] theorem takeSlot_mem (s : State) (a : Agent) (d : Bool) : (takeSlot s a d).mem = s.mem := by
  simp only [takeSlot]; split <;> simp

@[simp] theorem takeDue_mem (s : State) (t : Nat) : (takeDue s t).mem = s.mem := by
  simp only [takeDue, asAgent_mem]
  split
  · rw [takeTrap_mem, dueTrap_mem ‹_›]
  · rfl

@[simp] theorem forgetPage_mem (s : State) (a : Agent) : (forgetPage s a).mem = s.mem := by
  unfold forgetPage; (repeat' split) <;> simp

@[simp] theorem startRet_mem (s : State) (n : Nat) (pc arg : Word) : (startRet s n pc arg).mem = s.mem := by simp [startRet]

@[simp] theorem atomicPath_wf {s : State} (h : s.mem.wf = true) (d : Reg) (m : AmoRef) (cas : Bool) (new : Nat → Option Nat) :
    (atomicPath s d m cas new).mem.wf = true := by
  simp only [atomicPath]; (repeat' split) <;> simp [h]

theorem vrelThen_mem (s : State) (fin : State → State) (hf : ∀ u, (fin u).mem = u.mem) : (vrelThen s fin).mem = s.mem := by
  unfold vrelThen; split <;> simp [hf]

@[simp] theorem vecLoad_wf {s : State} (h : s.mem.wf = true) (sg : BitVec 3) (n : Nat) (aligned : Bool) (hint : Hint) (vd : VReg)
    (fmt : Nat) (offs : List Nat) (put : List (List Byte) → List (Nat × Nat)) (side : List (List Byte) → Thread → Thread) :
    (vecLoad s sg n aligned hint vd fmt offs put side).mem.wf = true := by
  simp only [vecLoad]; (repeat' split) <;> simp [h]

@[simp] theorem vecStore_wf {s : State} (h : s.mem.wf = true) (sg : BitVec 3) (n : Nat) (aligned : Bool) (hint : Hint) (items : List (Nat × List Byte)) :
    (vecStore s sg n aligned hint items).mem.wf = true := by
  simp only [vecStore]; split <;> simp [h]

@[simp] theorem writeWindow_wf {s : State} (h : s.mem.wf = true) (off : Nat) (ws : List Nat) : (writeWindow s off ws).mem.wf = true := by
  simp [writeWindow, h]

@[simp] theorem vamoElem_wf {s : State} (h : s.mem.wf = true) (k cva b : Nat) : (vamoElem k s cva b).2.mem.wf = true := by
  simp [vamoElem, h]

@[simp] theorem vamoAll_wf (k : Nat) (l : List (Nat × Nat × Nat)) {s : State} (h : s.mem.wf = true) : (vamoAll k l s).2.mem.wf = true := by
  induction l generalizing s with
  | nil => exact h
  | cons x r ih =>
    simp only [vamoAll]
    exact ih (vamoElem_wf h ..)

@[simp] theorem vamoDone_mem (vd fmt : Nat) (olds : List (Nat × Nat × BitVec 32)) (s : State) :
    (vamoDone vd fmt olds s).mem = s.mem := by simp [vamoDone]

@[simp] theorem modSa_mem (s : State) (d : Nat) (f : SArray → SArray) : (modSa s d f).mem = s.mem := by rfl

@[simp] theorem oweHead_mem (s : State) (d : Nat) : (oweHead s d).mem = s.mem := by
  simp only [oweHead]; split <;> simp

@[simp] theorem popCmd_mem (s : State) (d : Nat) : (popCmd s d).mem = s.mem := by simp [popCmd]

@[simp] theorem cellServed_wf {s : State} (h : s.mem.wf = true) (d c : Nat) (g : Seg) (roff toff : Nat) :
    (cellServed s d c g roff toff).mem.wf = true := by
  simp [cellServed, h]

@[simp] theorem loadCells_wf (d : Nat) (g : Seg) (c toff nent n : Nat) : ∀ (i roff : Nat) {s : State}, s.mem.wf = true →
    (loadCells d g c toff nent n i roff s).1.mem.wf = true := by
  induction n with
  | zero => exact fun _ _ _ h => h
  | succ n ih =>
    intro i roff s h
    simp only [loadCells]
    split
    · exact ih _ _ (by simp [h])
    · simp [h]

@[simp] theorem pushCmd_mem (s : State) (c : SaCmd) : (pushCmd s c).mem = s.mem := by
  simp only [pushCmd]; (repeat' split) <;> simp

@[simp] theorem freeSa_mem (s : State) (d : Nat) : (freeSa s d).mem = s.mem := by rfl

@[simp] theorem clampAct_mem (s : State) (f : VFields) : (clampAct s f).mem = s.mem := by rfl

@[simp] theorem readAct_mem (s : State) (f : VFields) : (readAct s f).mem = s.mem := by rfl

@[simp] theorem countAct_mem (s : State) (f : VFields) : (countAct s f).mem = s.mem := by
  simp only [countAct]; split <;> simp

@[simp] theorem saAct_mem (w : Word) (s : State) : (saAct w s).mem = s.mem := by
  simp only [saAct]; split <;> simp

@[simp] theorem writeFrame_wf {s : State} (h : s.mem.wf = true) (a : Agent) (refs : List ByteRef) (w : Word) (rel : Option Nat) :
    (writeFrame s a refs w rel).mem.wf = true := by
  simp only [writeFrame]; split <;> simp [h]

@[simp] theorem badFrame_mem (s : State) (t : Nat) (bad : Option Nat) : (badFrame s t bad).mem = s.mem := by
  cases bad <;> rfl

@[simp] theorem storeFrame_wf {s : State} (h : s.mem.wf = true) (a : Agent) (l : List (ByteRef × Byte)) : (storeFrame s a l).mem.wf = true := by
  simp only [storeFrame]; split <;> simp [h]

@[simp] theorem spawnInto_wf {s : State} (h : s.mem.wf = true) (refs : List ByteRef) (m : Word) (d : Reg) (cva : Nat) (e : Word) :
    (spawnInto s refs m d cva e).mem.wf = true := by
  simp only [spawnInto, jump_mem, setReg_mem, modMy_mem]
  apply writeFrame_wf
  exact foldl_wf _ (fun u l hu => storeFrame_wf hu _ _) _ _ (by simp [h])

@[simp] theorem drainAll_wf {s : State} (h : s.mem.wf = true) (t : Nat) : (drainAll s t).mem.wf = true :=
  foldl_wf _ (fun _ a hu => drainStores_wf a _ hu) _ _ h

@[simp] theorem finishStrand_wf {s : State} (h : s.mem.wf = true) (t : Nat) : (finishStrand s t).mem.wf = true := by
  simp only [finishStrand]; split <;> simp [h]

@[simp] theorem endHandler_wf {s : State} (h : s.mem.wf = true) (t : Nat) : (endHandler s t).mem.wf = true := by
  simp only [endHandler]; (repeat' split) <;> simp [h]

@[simp] theorem resumeLocal_mem (s : State) (cva : Word) (ws : List Word) : (resumeLocal s cva ws).mem = s.mem := by
  simp only [resumeLocal]; split <;> simp

theorem joinPath_wf {s : State} (h : s.mem.wf = true) (a : Reg) {fin : State → Nat → State}
    (hf : ∀ u n, u.mem.wf = true → (fin u n).mem.wf = true) : (joinPath s a fin).mem.wf = true := by
  simp only [joinPath]
  split
  · simp [h]
  · split
    · simp [h]
    · split
      · simp [h]
      · split
        · simp [h]
        · apply hf
          split <;> simp [h]

@[simp] theorem placeTask_wf {s : State} (h : s.mem.wf = true) (t : Nat) (r : ReadyTask) (k : Kernel) :
    (placeTask s t r k).mem.wf = true := by
  simp only [placeTask, owe_mem]; split <;> simp [h, Memory.wf_zero]

@[simp] theorem fetchFoot_wf {s : State} (h : s.mem.wf = true) (t : Nat) (l : List (ByteRef × ByteRef)) : (fetchFoot s t l).mem.wf = true := by
  simp [fetchFoot, h]

@[simp] theorem beginTask_mem (s : State) (t : Nat) (pend : Option (Nat × Nat × Nat)) : (beginTask s t pend).mem = s.mem := by rfl

@[simp] theorem dropStart_wf {s : State} (h : s.mem.wf = true) (t : Nat) : (dropStart s t).mem.wf = true := by
  simp only [dropStart, dropThr_mem]; split <;> simp [h, Memory.wf_zero]

@[simp] theorem returnTask_wf {s : State} (h : s.mem.wf = true) (t : Nat) : (returnTask s t).mem.wf = true := by
  simp [returnTask, h]

@[simp] theorem stealFrame_wf {s : State} (h : s.mem.wf = true) (t v : Nat) (refs : List ByteRef) (cva : Nat) :
    (stealFrame s t v refs cva).mem.wf = true := by
  simp only [stealFrame, badFrame_mem]
  exact writeFrame_wf (by simp [h]) _ _ _ _

@[simp] theorem noteAttempt_mem (s : State) (t v : Nat) : (noteAttempt s t v).mem = s.mem := by rfl

@[simp] theorem newTable_mem (s : State) : (newTable s).2.mem = s.mem := by rfl

theorem newFrame_wf {s u : State} (h : s.mem.wf = true) {c f : Nat} (k : newFrame s c = some (f, u)) : u.mem.wf = true := by
  obtain ⟨g, -, e⟩ := Option.map_eq_some_iff.mp k
  cases e
  exact Memory.wf_zero _ _ h

@[simp] theorem dropFrameLines_mem (s : State) (f : Nat) : (dropFrameLines s f).mem = s.mem := by rfl

@[simp] theorem dropFrame_wf {s : State} (h : s.mem.wf = true) (f : Nat) : (dropFrame s f).mem.wf = true := by
  simp [dropFrame, h, Memory.wf_zero]

@[simp] theorem leafSlot_mem (cva : Nat) (l : List Nat) (table : Nat) (s : State) : (leafSlot cva l table s).2.mem = s.mem := by
  induction l generalizing table s with
  | nil => rfl
  | cons sh rest ih => simp only [leafSlot]; split <;> simp [ih, newTable]

@[simp] theorem setLeaf_mem (s : State) (root cva : Nat) (e : Word) : (setLeaf s root cva e).mem = s.mem := by
  simp [setLeaf]

@[simp] theorem mapPages_mem (s : State) (c cva pa n : Nat) (kind : BitVec 2) (w r : Bool) :
    (mapPages s c cva pa n kind w r).mem = s.mem := by simp [mapPages]

@[simp] theorem mapAbsent_mem (s : State) (c cva n : Nat) (kind : BitVec 2) (code w r : Bool) :
    (mapAbsent s c cva n kind code w r).mem = s.mem := by simp [mapAbsent]

@[simp] theorem unmapPages_mem (s : State) (c cva n : Nat) : (unmapPages s c cva n).mem = s.mem := by simp [unmapPages]

@[simp] theorem bindWindow_mem (s : State) (p c : Nat) : (bindWindow s p c).mem = s.mem := by
  have key (l : KMap Barrier) (w : Nat × Nat) (u : State) :
      (l.foldl (fun s b => if b.1 < w.2 then setBarrier s p (w.1 + b.1) b.2 else s) u).mem = u.mem :=
    foldl_mem _ (fun _ _ => by split <;> simp) _ _
  simp only [bindWindow]
  (repeat' split) <;> simp [key]

@[simp] theorem rebindCtx_wf (s : State) {u : State} (h : u.mem.wf = true) (p c : Nat) : (rebindCtx s u p c).mem.wf = true := by
  simp only [rebindCtx]
  (repeat' split) <;> simp [h, Memory.wf_zero]

@[simp] theorem putSlots_wf {s : State} (h : s.mem.wf = true) (p : Nat) (slots : KMap SlotEntry) : (putSlots s p slots).mem.wf = true := by
  simp only [putSlots, wakePool_mem, owe_mem]
  rw [foldl_mem _ (fun _ _ => by simp)]
  exact foldl_wf _ (fun u c hu => rebindCtx_wf _ hu _ _) _ _ h

@[simp] theorem saveThread_mem (s : State) (t : Nat) : (saveThread s t).mem = s.mem := by
  simp only [saveThread]; (repeat' split) <;> simp

@[simp] theorem widenMarks_mem (s : State) (k c : Nat) : (widenMarks s k c).mem = s.mem := by
  simp only [widenMarks]; split <;> simp

@[simp] theorem settleClosing_mem (s : State) : (settleClosing s).mem = s.mem := by simp [settleClosing]

@[simp] theorem startUnbind_wf {s : State} (h : s.mem.wf = true) (k c : Nat) : (startUnbind s k c).mem.wf = true := by
  simp only [startUnbind]; (repeat' split) <;> simp [h]

@[simp] theorem moveShare_wf {s : State} (h : s.mem.wf = true) (c src dst : Nat) : (moveShare s c src dst).mem.wf = true := by
  simp only [moveShare]
  split <;> simp [h, Memory.wf_copy]

@[simp] theorem resumeThread_wf {s : State} (h : s.mem.wf = true) (c key : Nat) (x : Thread) (k j : Nat) :
    (resumeThread s c key x k j).mem.wf = true := by
  simp only [resumeThread]
  split
  · split <;> simp [h]
  · simp only [owe_mem, apply_ite State.mem, joinEnt_mem, modThr_mem, ite_self, pump_mem]
    rw [foldl_mem _ (fun _ _ => by simp)]
    simp only [apply_ite State.mem, modSa_mem, ite_self]
    rw [foldl_mem _ (fun _ _ => modRet_mem ..), setThr_mem, modCtx_mem]
    split <;> simp [h]

@[simp] theorem oweDue_mem (s : State) (l : List (Instr × Msg)) : (oweDue s l).mem = s.mem := by rfl

@[simp] theorem elapse_mem (s : State) (n : Nat) : (elapse s n).mem = s.mem := by rfl

@[simp] theorem jumpReg_mem (s : State) (link : Option Reg) (a : Reg) : (jumpReg s link a).mem = s.mem := by
  simp only [jumpReg]; (repeat' split) <;> simp

@[simp] theorem dropScope_mem (s : State) (sc k line : Nat) : (dropScope s sc k line).mem = s.mem := by
  simp only [dropScope]; split <;> simp

@[simp] theorem invalLine_mem (s : State) (sc k line : Nat) : (invalLine s sc k line).mem = s.mem := by
  simp only [invalLine]; split <;> simp

@[simp] theorem cleanLine_mem (s : State) (sc k line : Nat) : (cleanLine s sc k line).mem = s.mem := by rfl

@[simp] theorem retainRange_mem (s : State) (d c lo hi w : Nat) : (retainRange s d c lo hi w).1.mem = s.mem := by
  simp only [retainRange]; (repeat' split) <;> simp

@[simp] theorem homeWrite_wf {s : State} (h : s.mem.wf = true) (who : Option Agent) (c : Nat) (refs : List ByteRef) (new : Option (List Byte))
    (rel : Option Nat) : (homeWrite s who c refs new rel).mem.wf = true := by
  simp only [homeWrite]; (repeat' split) <;> simp [h]

@[simp] theorem fireSucc_wf {s : State} (h : s.mem.wf = true) (c : Nat) (refs : List ByteRef) (record : List Word) :
    (fireSucc s c refs record).mem.wf = true := by
  simp only [fireSucc]; split <;> simp [h]

@[simp] theorem depApply_wf {s : State} (h : s.mem.wf = true) (who : Option Agent) (c : Nat) (refs : List ByteRef) (words : List Word)
    (op : DepOp) : (depApply s who c refs words op).1.mem.wf = true := by
  simp only [depApply]
  split
  · apply fireSucc_wf
    split <;> simp [h]
  · split <;> simp [h]

theorem gangAction_wf {s u : State} (h : s.mem.wf = true) {c : Nat} {e : EndedGang} (k : gangAction s c e = some u) : u.mem.wf = true := by
  unfold gangAction at k
  (repeat' split at k) <;> cases k <;> simp [h]

theorem halfAccess_wf {s : State} (h : s.mem.wf = true) {fin : Option (Reg × Word) → State → State}
    (hf : ∀ o u, u.mem.wf = true → (fin o u).mem.wf = true) (x : Half) : (halfAccess s fin x).mem.wf = true := by
  unfold halfAccess
  split
  · exact loadPath_wf (by exact h) _ _ _ _ _ _ _ (fun u l hu => hf _ _ hu)
  · exact storePath_wf h _ _ _ _ _ _ (hf _)
  · exact hf _ _ h

@[simp] theorem putHalf_mem (s : State) (o : Option (Reg × Word)) : (putHalf s o).mem = s.mem := by
  cases o <;> simp [putHalf]

@[simp] theorem performMat_wf {s : State} (h : s.mem.wf = true) (t : Nat) (op : MatOp) : (performMat s t op).1.mem.wf = true := by
  cases op <;> simp [performMat, h]

@[simp] theorem completeMat_wf {s : State} (h : s.mem.wf = true) (t : Nat) : (completeMat s t).mem.wf = true := by
  unfold completeMat
  split
  · exact h
  · simp only
    (repeat' split) <;> simp [h]

@[simp] theorem drainMat_wf (t n : Nat) {s : State} (h : s.mem.wf = true) : (drainMat t n s).mem.wf = true := by
  induction n generalizing s with
  | zero => exact h
  | succ n ih => exact ih (completeMat_wf h t)

@[simp] theorem shortWord_wf {s : State} (h : s.mem.wf = true) (op : MatOp) : (shortWord op s).mem.wf = true := by
  simp only [shortWord]
  (repeat' split) <;> simp [h]

@[simp] theorem longWord_wf {s : State} (h : s.mem.wf = true) (op : MatOp) : (longWord op s).mem.wf = true := by
  simp only [longWord]
  (repeat' split) <;> simp [h]

@[simp] theorem takeBlock_mem (s : State) (g : Nat) (lanes : List Nat) : (takeBlock s g lanes).mem = s.mem := by simp [takeBlock]

@[simp] theorem reshape_mem (s : State) (want : Nat) : (reshape s want).mem = s.mem := by
  simp only [reshape]; (repeat' split) <;> simp

theorem loadArrives_wf {s : State} (h : s.mem.wf = true) (sg cva : Nat) (pas : List Nat) (acq : Bool) {fin : State → List Byte → State}
    (hf : ∀ u l, u.mem.wf = true → (fin u l).mem.wf = true) : (loadArrives s sg cva pas acq fin).mem.wf = true := by
  simp only [loadArrives]
  split
  · simpa using h
  · exact readBytes_wf h _ _ hf

@[simp] theorem fromRouter_mem (s : State) (k : Nat) : (fromRouter s k).mem = s.mem := by
  unfold fromRouter; (repeat' split) <;> simp

theorem fillPage_wf {s u : State} (h : s.mem.wf = true) {c page : Nat} {bytes : List Byte} (k : fillPage s c page bytes = some u) :
    u.mem.wf = true := by
  obtain ⟨⟨f, v⟩, e, rfl⟩ := Option.map_eq_some_iff.mp k
  simpa using Memory.wf_setAll _ (newFrame_wf h e)

@[simp] theorem failPage_mem (s : State) (c k : Nat) (i : Image) : (failPage s c k i).mem = s.mem := by simp [failPage]

theorem bringPage_wf {s u : State} (h : s.mem.wf = true) {c page code : Nat} {err : Bool}
    (k : bringPage s c page err = some (u, code)) : u.mem.wf = true := by
  have filled {bytes : List Byte} (e : (fillPage s c page bytes).map (fun s => (s, 0)) = some (u, code)) : u.mem.wf = true := by
    obtain ⟨v, hf, hv⟩ := Option.map_eq_some_iff.mp e
    cases hv
    exact fillPage_wf h hf
  simp only [bringPage] at k
  split at k
  · cases k; exact h
  · split at k
    · split at k
      · cases k; exact h
      · split at k
        · cases k; exact h
        · split at k
          · cases k; simpa using h
          · exact filled k
    · split at k
      · cases k; exact h
      · exact filled k

@[simp] theorem bringAhead_wf (c n : Nat) : ∀ (page : Nat) {s : State}, s.mem.wf = true → (bringAhead c n page s).mem.wf = true := by
  induction n with
  | zero => exact fun _ _ h => h
  | succ n ih =>
    intro page s h
    simp only [bringAhead]
    apply ih
    (repeat' split)
    · exact bringPage_wf h ‹_›
    · exact h
    · exact h

@[simp] theorem hostReports_mem (s : State) (c : Nat) (l : List HostByte) : (hostReports s c l).mem = s.mem := by simp [hostReports]

@[simp] theorem outsideWrite_wf {s : State} (h : s.mem.wf = true) (tn kind : Nat) (l : List (ByteRef × Byte)) :
    (outsideWrite s tn kind l).mem.wf = true := by
  refine foldl_wf _ (fun u g hu => ?_) _ _ h
  cases g with
  | nil => exact hu
  | cons r g => simp only; (repeat' split) <;> simp [hu]

@[simp] theorem outsideRead_wf {s : State} (h : s.mem.wf = true) (refs : List ByteRef) : (outsideRead s refs).mem.wf = true := by
  simp [outsideRead, h]

@[simp] theorem holdPeer_mem (s : State) (g : Nat) (m : Mark) : (holdPeer s g m).mem = s.mem := by
  simp only [holdPeer]; split <;> simp

theorem putData_wf (c d : Nat) (l : List (List Byte)) :
    ∀ (i : Nat) {s u : State}, s.mem.wf = true → putData c d l i s = some u → u.mem.wf = true := by
  induction l with
  | nil => intro i s u h k; cases k; exact h
  | cons b r ih =>
    intro i s u h k
    simp only [putData] at k
    split at k
    · next v e => exact ih _ (fillPage_wf (s := mapAbsent s c (d + 4096 * i) 1 1 false true true) (by simpa using h) e) k
    · cases k

theorem loadObject_wf {s u : State} (h : s.mem.wf = true) {c : Nat} {l : List Byte} {x : Nat × Nat}
    (k : loadObject s c l = .ok (u, x)) : u.mem.wf = true := by
  simp only [loadObject] at k
  (repeat' split at k) <;> cases k
  all_goals
    rw [modCtx_mem, foldl_mem _ (fun _ _ => mapAbsent_mem ..)]
    exact putData_wf _ _ _ _ h ‹_›

@[simp] theorem countUnit_mem (s : State) (n : Nat) (unc : Bool) : (countUnit s n unc).mem = s.mem := by rfl

@[simp] theorem noteError_mem (s : State) (key : Nat) : (noteError s key).1.mem = s.mem := by rfl

@[simp] theorem integCtx_mem (s : State) (c : Nat) : (integCtx s c).mem = s.mem := by simp [integCtx]

@[simp] theorem putRecs_mem (s : State) (recs : List (Nat × MapRec)) : (putRecs s recs).mem = s.mem := by rfl

@[simp] theorem emptyQueue_wf {s : State} (h : s.mem.wf = true) (t : Nat) : (emptyQueue s t).mem.wf = true := by
  simp only [emptyQueue]; split <;> simp [h]

@[simp] theorem loseLanes_wf {s : State} (h : s.mem.wf = true) (p : Nat) (ls : List Nat) (prot : Bool) : (loseLanes s p ls prot).mem.wf = true := by
  have emptied (l : KMap Thread) : (l.foldl (fun s q => emptyQueue s q.1) s).mem.wf = true :=
    foldl_wf _ (fun _ _ hv => emptyQueue_wf hv _) _ _ h
  simp only [loseLanes, settlePool_mem]
  split
  · rw [foldl_mem _ (fun _ _ => by split <;> rfl)]
    exact emptied _
  · rw [foldl_mem _ (fun _ _ => integCtx_mem ..), foldl_mem _ (fun _ _ => by split <;> rfl)]
    exact h

@[simp] theorem retireCore_mem (s : State) (k : Nat) (dead : Bool) : (retireCore s k dead).mem = s.mem := by
  simp only [retireCore]; split <;> simp

@[simp] theorem dropWays_mem (s : State) (n live : Nat) : (dropWays s n live).mem = s.mem := by simp [dropWays]

@[simp] theorem noteLoss_mem (s : State) (c : Nat) (g : Fatal → Fatal) : (noteLoss s c g).mem = s.mem := by simp [noteLoss]

@[simp] theorem loseArray_mem (s : State) (d : Nat) : (loseArray s d).mem = s.mem := by
  simp only [loseArray]; split <;> simp

@[simp] theorem dropPeers_mem (s : State) : (dropPeers s).mem = s.mem := by rfl

@[simp] theorem retireRet_mem (s : State) (n : Nat) : (retireRet s n).mem = s.mem := by
  unfold retireRet; (repeat' split) <;> simp

@[simp] theorem engineAct_wf {s : State} (h : s.mem.wf = true) (faults mine : List (Nat × Nat)) (n : Nat) (old new : MapRec) :
    (engineAct faults mine s n old new).mem.wf = true := by
  simp only [engineAct]
  (repeat' split) <;> simp [h]

@[simp] theorem applyMapBut_wf {s : State} (h : s.mem.wf = true) (mine : List (Nat × Nat)) (recs : List (Nat × MapRec)) :
    (applyMapBut mine s recs).mem.wf = true := by
  simp only [applyMapBut]
  refine foldl_wf _ (fun u p hu => ?_) _ _ (by simp [h])
  (repeat' split) <;> simp [hu]

@[simp] theorem applyMap_wf {s : State} (h : s.mem.wf = true) (recs : List (Nat × MapRec)) : (applyMap s recs).mem.wf = true := by
  simp [applyMap, h]

@[simp] theorem reportFaults_wf {s : State} (h : s.mem.wf = true) (mine : List (Nat × Nat)) (faults : List (Nat × Nat)) (wait : Bool) :
    (reportFaults mine s faults wait).mem.wf = true := by
  simp only [reportFaults]; split <;> simp [h]

@[simp] theorem laneErrors_wf {s : State} (h : s.mem.wf = true) (p : Nat) (ls : List Nat) (wait : Bool) : (laneErrors s p ls wait).mem.wf = true := by
  have key (l : List Nat) (n : Nat) : ∀ r : State × List Nat, r.1.mem.wf = true → (l.foldl (fun (r : State × List Nat) (l : Nat) =>
      let q := noteError (countUnit r.1 n true) (errKey n (l % 32))
      (q.1, if q.2 then r.2 ++ [l] else r.2)) r).1.mem.wf = true := by
    induction l with
    | nil => exact fun _ k => k
    | cons x l ih => exact fun r k => ih _ (by simpa using k)
  simp only [laneErrors]
  split
  · exact h
  · exact loseLanes_wf (reportFaults_wf (key _ _ _ h) _ _ _) _ _ _

@[simp] theorem hitData_mem (s : State) (n kind pa : Nat) : (hitData s n kind pa).mem = s.mem := by
  simp only [hitData]; (repeat' split) <;> simp

@[simp] theorem fetchError_mem (s : State) (n sub : Nat) (a : Agent) : (fetchError s n sub a).mem = s.mem := by
  simp only [fetchError]; (repeat' split) <;> simp

@[simp] theorem applyClocks_wf {s : State} (h : s.mem.wf = true) (recs : List (Nat × MapRec)) : (applyClocks s recs).mem.wf = true := by
  simp only [applyClocks]; split <;> simp [h]

@[simp] theorem stepClock_wf {s : State} (h : s.mem.wf = true) (d : Nat) (up : Bool) : (stepClock s d up).mem.wf = true := by
  simp [stepClock, h]

@[simp] theorem setTemp_mem (s : State) (d temp : Nat) : (setTemp s d temp).mem = s.mem := by
  unfold setTemp; (repeat' split) <;> simp

@[simp] theorem putHot_mem (s : State) (d : Nat) (x : Option (Bool × Nat)) : (putHot s d x).mem = s.mem := by rfl

@[simp] theorem powerOff_wf {s : State} (h : s.mem.wf = true) : (powerOff s).mem.wf = true := by
  simp only [powerOff, Memory.wf, Bool.and_eq_true, List.all_eq_true] at *
  exact ⟨krising_filter _ h.1, fun p hp => h.2 p (List.mem_of_mem_filter hp)⟩

@[simp] theorem putRegion_wf {s : State} (h : s.mem.wf = true) (n : Nat) (r : Region) (kind : BitVec 2) : (putRegion s n r kind).mem.wf = true := by
  simp [putRegion, h, Memory.wf_zero]

@[simp] theorem tearRegion_wf {s : State} (h : s.mem.wf = true) (n : Nat) (r : Region) : (tearRegion s n r).mem.wf = true := by
  simp [tearRegion, h, Memory.wf_zero]

@[simp] theorem freeRegions_wf {s : State} (h : s.mem.wf = true) (l : KMap Region) : (freeRegions s l).mem.wf = true := by
  simp only [freeRegions]
  split
  · exact h
  · exact applyMap_wf (foldl_wf _ (fun u r hu => tearRegion_wf hu _ _) _ _ h) _

@[simp] theorem dropTables_mem (s : State) (root : Nat) : (dropTables s root).mem = s.mem := by rfl

@[simp] theorem dropAgents_wf {s : State} (h : s.mem.wf = true) (c : Nat) : (dropAgents s c).mem.wf = true := by
  simp only [dropAgents, clearMarksOf_mem]
  exact Memory.wf_foldl _ (fun m t hm => Memory.wf_zero _ _ hm) _ h

@[simp] theorem scrubEntry_wf {s : State} (h : s.mem.wf = true) (p : Nat) (e : SlotEntry) : (scrubEntry s p e).mem.wf = true := by
  simp only [scrubEntry]
  exact Memory.wf_foldl _ (fun m k hm => by split <;> simp [hm, Memory.wf_zero]) _ (by simp [h, Memory.wf_zero])

@[simp] theorem dropEntries_wf {s : State} (h : s.mem.wf = true) (c p : Nat) : (dropEntries s c p).mem.wf = true := by
  simp only [dropEntries]
  split
  · exact h
  · have k := foldl_wf _ (fun u e hu => scrubEntry_wf hu p e) ((kvals (pool s p).slots).filter (fun e => e.valid && e.ctx == c)) s h
    simp [k]

@[simp] theorem destroyCtx_wf {s : State} (h : s.mem.wf = true) (c : Nat) : (destroyCtx s c).mem.wf = true := by
  simp only [destroyCtx]
  split
  · exact h
  · simp only [modPort_mem, dropTables_mem]
    apply foldl_wf _ (fun u f hu => dropFrame_wf hu _)
    apply freeRegions_wf
    exact foldl_wf _ (fun u p hu => dropEntries_wf hu _ _) _ _ (dropAgents_wf h c)

@[simp] theorem answer_mem (s : State) (tn tag result : Nat) (data : List Word) : (answer s tn tag result data).mem = s.mem := by rfl

@[simp] theorem rekindPages_mem (s : State) (c : Nat) (q : MapReq) : (rekindPages s c q).mem = s.mem := by simp [rekindPages]

@[simp] theorem dropRange_wf {s : State} (h : s.mem.wf = true) (c cva n : Nat) : (dropRange s c cva n).mem.wf = true :=
  foldl_wf _ (fun u i hu => by simp only; split <;> simp [hu]) _ _ h

@[simp] theorem hostPut_wf {s : State} (h : s.mem.wf = true) (fn addr : Nat) (l : List Byte) : (hostPut s fn addr l).mem.wf = true :=
  Memory.wf_setAll _ h

@[simp] theorem putDump_mem (s : State) (c : Nat) (x : Ctx) (f : Fatal) : (putDump s c x f).mem = s.mem := by
  simp only [putDump]; (repeat' split) <;> simp

@[simp] theorem freeFrozen_mem (s : State) (c : Nat) : (freeFrozen s c).mem = s.mem := by simp [freeFrozen]

@[simp] theorem renumber_mem (s : State) (t u : Nat) : (renumber s t u).mem = s.mem := by rfl

@[simp] theorem repartition_wf {s : State} (h : s.mem.wf = true) (n : Nat) : (repartition s n).mem.wf = true := by
  simp only [repartition]; (repeat' split) <;> simp [h]

end Sys2Proof.Machine
end

section
/-! SUPPORT. What a meaning answers has memory in its canonical form (O8): the shapes that meanings share. -/

namespace Sys2Proof.Machine

/-! ### What meanings answer -/

/-- Memory has its canonical form in every state that a meaning answers. -/
def FormOut (o : Out) : Prop := ∀ t, o = .next t → t.mem.wf = true

@[simp] theorem formOut_next (t : State) : FormOut (.next t) ↔ t.mem.wf = true :=
  ⟨fun h => h t rfl, fun h _ e => by cases e; exact h⟩

section
variable {s : State} (h : s.mem.wf = true)
include h

theorem issue_form {ok : Bool} {f : State → State} (hf : (f s).mem.wf = true) : FormOut (issue s ok f) := by
  unfold issue; split <;> simp [h, hf]

theorem issueV_form {held : Bool} {rs : List Reg} {vs : List VReg} {f : State → State} (hf : (f s).mem.wf = true) :
    FormOut (issueV s held rs vs f) :=
  issue_form h (by split <;> simp [h, hf])

theorem issueM_form {rs : List Reg} {vs : List VReg} {f : State → State} (hf : (f s).mem.wf = true) :
    FormOut (issueM s rs vs f) :=
  issueV_form h (by split <;> simp [h, hf])

theorem issueSa_form {held : Bool} {rs : List Reg} {vs : List VReg} {f : State → State} (hf : (f s).mem.wf = true) :
    FormOut (issueSa s held rs vs f) :=
  issueV_form h (by split <;> simp [h, hf])

theorem floatEnd_wf (fl : Flags) {f : State → State} (hf : ∀ u, u.mem.wf = true → (f u).mem.wf = true) :
    (floatEnd s fl f).mem.wf = true := by
  simp only [floatEnd]; split
  · simp [h]
  · exact hf _ (by simp [h])

/-! ### Scalar shapes -/

theorem aluR_form (fn : Nat) (d a b : Reg) : FormOut (aluR fn d a b s) := issue_form h (by simp [h])
theorem aluU_form (fn : Nat) (d a : Reg) : FormOut (aluU fn d a s) := issue_form h (by simp [h])
theorem aluI_form (fn : Nat) (d a : Reg) (v : BitVec 12) : FormOut (aluI fn d a v s) := issue_form h (by simp [h])
theorem aluSh_form (fn : Nat) (d a : Reg) (n : BitVec 6) : FormOut (aluSh fn d a n s) := issue_form h (by simp [h])

theorem branch_form (k : Nat) (d a : Reg) (off : BitVec 20) : FormOut (branch k d a off s) :=
  issue_form h (by split <;> simp [h])

theorem fpu_form (d : Reg) (rs : List Reg) (rnd : BitVec 3) (op : State → RMode → Nat × Flags) : FormOut (fpu d rs rnd op s) :=
  issue_form h (floatEnd_wf h _ (fun u hu => by simp [hu]))

theorem load_form (n : Nat) (sext : Bool) (d : Reg) (m : MemRef) : FormOut (load n sext d m s) :=
  issue_form h (loadPath_wf h _ _ _ _ _ _ _ (fun u l hu => by simp [hu]))

theorem store_form (n : Nat) (d : Reg) (m : MemRef) : FormOut (store n d m s) :=
  issue_form h (storePath_wf h _ _ _ _ _ _ (fun u hu => by simp [hu]))

theorem amo_form (k : Nat) (d b : Reg) (m : AmoRef) : FormOut (amo k d b m s) := issue_form h (by simp [h])

theorem copyWord_form (op : Nat) (o : CopyRef) (x : Handle) : FormOut (copyWord op o x s) := by
  simp only [copyWord]
  exact issue_form h (by (repeat' split) <;> simp [h])

theorem tagWait_form (ready : Thread → Word → Bool) (d a : Reg) : FormOut (tagWait ready d a s) :=
  issue_form h (by simp only; split <;> simp [h])

theorem sbWord_form (ok valid : Bool) (rs : List Reg) (a : Reg) {f : State → Nat → Barrier → State}
    (hf : ∀ u k x, u.mem.wf = true → (f u k x).mem.wf = true) : FormOut (sbWord ok valid rs a f s) := by
  unfold sbWord
  split
  · exact issue_form h (by simp [h])
  · exact issue_form h (hf _ _ _ (by simp [h]))

theorem csrWrite_form (csr : BitVec 12) (a : Reg) (f : Word → Word → Word) : FormOut (csrWrite csr a f s) := by
  unfold csrWrite
  split
  · exact issue_form h (by split <;> simp [h])
  · exact issue_form h (by simp [h])

theorem execCsrr_form (d : Reg) (csr : BitVec 12) : FormOut (execCsrr d csr s) := by
  unfold execCsrr
  split
  · exact issue_form h (by split <;> simp [h])
  · exact issue_form h (by simp [h])

theorem lineOp_form {act : State → Nat → Nat → Nat → State} (ha : ∀ u a b c, (act u a b c).mem = u.mem) (m : MemRef) :
    FormOut (lineOp act m s) :=
  issue_form h (by simp only; (repeat' split) <;> simp [h, ha])

theorem depWord_form (op : State → DepOp) (d : Reg) (rs : List Reg) (a : Reg) (g : BitVec 3) : FormOut (depWord op d rs a g s) :=
  issue_form h (by simp only; (repeat' split) <;> simp [h])

theorem execDualWord_form (hi lo : Half) : FormOut (execDualWord hi lo s) := by
  refine issue_form h ?_
  simp only
  split <;> refine halfAccess_wf h (fun o u hu => ?_) _ <;> split <;> simp [hu]

theorem execSegld_form (g : BitVec 3) (m : MemRef) : FormOut (execSegld g m s) :=
  issue_form h (loadPath_wf h _ _ _ _ _ _ _ (fun u l hu => by simp [hu]))

theorem execSegst_form (g : BitVec 3) (m : MemRef) : FormOut (execSegst g m s) :=
  issue_form h (storePath_wf h _ _ _ _ _ _ (fun u hu => by simp [hu]))

theorem execSpawn_form (d a b c : Reg) : FormOut (execSpawn d a b c s) := by
  simp only [execSpawn]
  exact issue_form h (by (repeat' split) <;> simp [h])

theorem execRetj_form (a : Reg) : FormOut (execRetj a s) := by
  have home (l r : List ByteRef) (locs : List Nat) : (served (served (recallUo s (fun _ => true) locs) l) r).mem.wf = true :=
    served_wf (served_wf (recallUo_wf h _ _) _) _
  refine issue_form h ?_
  simp only
  (repeat' split) <;> simp [h, home]

theorem execJoin_form (d a : Reg) : FormOut (execJoin d a s) :=
  issue_form h (joinPath_wf h _ (fun u n hu => by split <;> simp [hu]))

/-! ### Vector and matrix shapes -/

theorem vecFloat_form (f : VFields) (vs : List VReg) (r : State → RMode → Nat → Nat × Flags)
    (put : Nat → List (Nat × Nat) → Thread → Thread) : FormOut (vecFloat f vs r put s) := by
  refine issueV_form h ?_
  simp only
  split
  · simp [h]
  · exact floatEnd_wf h _ (fun u hu => by simp [hu])

theorem vecInt_form (f : VFields) (vs : List VReg) (r : Nat → Nat → Nat → Nat)
    (put : Nat → List (Nat × Nat) → Thread → Thread) : FormOut (vecInt f vs r put s) := issueV_form h (by simp [h])

theorem permute_form (f : VFields) (vs : List VReg) (r : State → Nat → Option Nat) : FormOut (permute f vs r s) :=
  issueV_form h (by simp [h])

theorem maskLogic_form (f : VFields) (op : Byte → Byte → Byte) : FormOut (maskLogic f op s) := issueV_form h (by simp [h])

theorem reduce_form (f : VFields) (comb : RMode → Nat → Nat → Nat × Flags) : FormOut (reduce f comb s) := by
  refine issueV_form h ?_
  simp only
  split
  · simp [h]
  · exact floatEnd_wf h _ (fun u hu => by simp [hu])

theorem loadForm_form (f : VFields) (rs : List Reg) (vs : List VReg) (ok : State → Bool) (off : State → Nat → Nat → Nat) :
    FormOut (loadForm f rs vs ok off s) :=
  issueV_form h (by simp only; split <;> simp [h])

theorem storeForm_form (f : VFields) (rs : List Reg) (vs : List VReg) (ok : State → Bool) (off : State → Nat → Nat → Nat) :
    FormOut (storeForm f rs vs ok off s) :=
  issueV_form h (by simp only; split <;> simp [h])

theorem outer_form (f : VFields) (neg mopa8 : Bool) : FormOut (outer f neg mopa8 s) := by
  simp only [outer]
  exact issueM_form h (by (repeat' split) <;> simp [h])

theorem accMove_form (f : VFields) (vs : List VReg) (op : Thread → Nat → MatOp) : FormOut (accMove f vs op s) :=
  issueM_form h (by simp only; split <;> simp [h])

theorem windowMove_form (f : VFields) (acc : Nat) (op : Nat → MatOp) : FormOut (windowMove f acc op s) :=
  issueM_form h (by simp only; split <;> simp [h])

theorem registerWord_form (rs : List Reg) (vs : List VReg) (mult : Nat) : FormOut (registerWord s rs vs mult) :=
  issueSa_form h (by simp only; (repeat' split) <;> simp [h])

theorem whileThawed_form {f : State → Out} (hf : ∀ u, u.mem.wf = true → FormOut (f u)) : FormOut (whileThawed f s) := by
  unfold whileThawed
  split
  · exact hf s h
  · have := hf (modSa s (myDie s) (fun a => { a with frozen := none })) (by simp [h])
    split
    · simpa using this _ ‹_›
    · intro t e; simp_all

theorem execCsrw_form (csr : BitVec 12) (a : Reg) : FormOut (execCsrw csr a s) := csrWrite_form h _ _ _
theorem execCsrs_form (csr : BitVec 12) (a : Reg) : FormOut (execCsrs csr a s) := csrWrite_form h _ _ _
theorem execCsrc_form (csr : BitVec 12) (a : Reg) : FormOut (execCsrc csr a s) := csrWrite_form h _ _ _
theorem execSaclamp_form : FormOut (execSaclamp s) := registerWord_form h _ _ _
theorem execSaread_form : FormOut (execSaread s) := registerWord_form h _ _ _
theorem execSacount_form : FormOut (execSacount s) := registerWord_form h _ _ _

/-- A word that a stop lets complete. -/
theorem execLate_form (i : Instr) : FormOut (execLate i s) := by
  cases i with
  | csrr d c => exact execCsrr_form h d c
  | csrw c a => exact execCsrw_form h c a
  | csrs c a => exact execCsrs_form h c a
  | csrc c a => exact execCsrc_form h c a
  | saclamp => exact whileThawed_form h (fun _ hu => execSaclamp_form hu)
  | saread => exact whileThawed_form h (fun _ hu => execSaread_form hu)
  | sacount => exact whileThawed_form h (fun _ hu => execSacount_form hu)
  | _ => exact (formOut_next s).mpr h

@[simp] theorem finishWord_wf (t : Nat) : (finishWord s t).mem.wf = true := by
  unfold finishWord
  split
  · exact h
  · simp only [respond_mem]
    split
    · next e => exact execLate_form (s := { s with ir := _, defer := false, cur := .thread t }) h _ _ e
    · exact h

theorem finishWords_wf (l : List Nat) : (l.foldl finishWord s).mem.wf = true := foldl_wf _ (fun _ t hu => finishWord_wf hu t) l s h

@[simp] theorem finishLate_wf (c : Nat) : (finishLate s c).mem.wf = true := by
  simp only [finishLate]
  split <;> simp [finishWords_wf h]

@[simp] theorem stopForSuspension_wf (c : Nat) : (stopForSuspension s c).mem.wf = true :=
  finishLate_wf (by simpa using h) c

end

end Sys2Proof.Machine
end

section
/-! SUPPORT. What a meaning answers has memory in its canonical form (O8): the meanings that are not of
one shape, the engines' steps and the mailbox. -/

namespace Sys2Proof.Machine

/-- Memory has its canonical form in the state that a repair leaves. -/
def FormRepair : Repair → Prop
  | .done u => u.mem.wf = true
  | _ => True

@[simp] theorem formRepair_done (u : State) : FormRepair (.done u) ↔ u.mem.wf = true := Iff.rfl

/-- Memory has its canonical form in the state that a reply leaves. -/
def FormReply : Reply → Prop
  | .wait u => u.mem.wf = true
  | .done u _ _ => u.mem.wf = true

@[simp] theorem formReply_wait (u : State) : FormReply (.wait u) ↔ u.mem.wf = true := Iff.rfl
@[simp] theorem formReply_done (u : State) (r : Nat) (l : List Word) : FormReply (.done u r l) ↔ u.mem.wf = true := Iff.rfl
@[simp] theorem formReply_plain (u : State) (r : Nat) : FormReply (.plain u r) ↔ u.mem.wf = true := Iff.rfl

section
variable {s : State} (h : s.mem.wf = true)
include h

theorem execPref_form (m : MemRef) : FormOut (execPref m s) :=
  issue_form h (by simp only; (repeat' split) <;> simp [h])

theorem execChunkDone_form : FormOut (execChunkDone s) := by
  simp only [execChunkDone]; (repeat' split) <;> simp [h]

theorem execChunkFault_form : FormOut (execChunkFault s) := by
  simp only [execChunkFault]; (repeat' split) <;> simp [h]

theorem execGangStart_form : FormOut (execGangStart s) := by
  simp only [execGangStart]; (repeat' split) <;> simp [h]

theorem execLaunchRecord_form : FormOut (execLaunchRecord s) := by
  simp only [execLaunchRecord]; (repeat' split) <;> simp [h]

theorem execPortWriteOther_form : FormOut (execPortWriteOther s) := by
  simp only [execPortWriteOther]; (repeat' split) <;> simp [h]

theorem execGbar_form (d : Reg) : FormOut (execGbar d s) :=
  issue_form h (by simp only; (repeat' split) <;> simp [h])

theorem execGlaunch_form (d a : Reg) (g : BitVec 3) : FormOut (execGlaunch d a g s) :=
  issue_form h (by simp only; (repeat' split) <;> simp [h])

theorem execRload_form (d a b : Reg) : FormOut (execRload d a b s) :=
  issue_form h (by simp only; (repeat' split) <;> simp [h])

theorem execRstart_form (d a b c : Reg) : FormOut (execRstart d a b c s) :=
  issue_form h (by simp only; (repeat' split) <;> simp [h])

theorem execRstop_form (d a : Reg) : FormOut (execRstop d a s) :=
  issue_form h (by simp only; (repeat' split) <;> simp [h])

theorem execRstat_form (d a b : Reg) : FormOut (execRstat d a b s) :=
  issue_form h (by simp only; (repeat' split) <;> simp [h])

theorem execFence_form (sc : Scope) : FormOut (execFence sc s) :=
  issue_form h (by (repeat' split) <;> simp [h])

theorem execVldl_form (f : VFields) : FormOut (execVldl f s) :=
  issueV_form h (by simp only; (repeat' split) <;> simp [h])

theorem execVstl_form (f : VFields) : FormOut (execVstl f s) :=
  issueV_form h (by simp only; (repeat' split) <;> simp [h])

theorem execVamo_form (f : VFields) : FormOut (execVamo f s) :=
  issueV_form h (by simp only; (repeat' split) <;> simp [h])

theorem execSaseedRun_form : FormOut (execSaseedRun s) := by
  simp only [execSaseedRun]; (repeat' split) <;> simp [h]

theorem execSabetaRun_form : FormOut (execSabetaRun s) := by
  simp only [execSabetaRun]; (repeat' split) <;> simp [h]

theorem execSweep_form : FormOut (execSweep s) := by
  simp only [execSweep]; (repeat' split) <;> simp [h]

theorem execSaacq_form : FormOut (execSaacq s) :=
  issueV_form h (by simp only; (repeat' split) <;> simp [h])

theorem execSarel_form : FormOut (execSarel s) :=
  issueV_form h (by (repeat' split) <;> simp [h])

theorem execSawait_form : FormOut (execSawait s) :=
  issueSa_form h (by simp only; (repeat' split) <;> simp [h])

theorem execTrap_form (a : Reg) (code : BitVec 12) : FormOut (execTrap a code s) :=
  issue_form h (by (repeat' split) <;> simp [h])

theorem execEret_form : FormOut (execEret s) :=
  issue_form h (by simp only; (repeat' split) <;> simp [h])

theorem execPginv_form (a b : Reg) : FormOut (execPginv a b s) :=
  issue_form h (by (repeat' split) <;> simp [h])

theorem execTend_form : FormOut (execTend s) :=
  issue_form h (by (repeat' split) <;> simp [h])

theorem execTileDraw_form : FormOut (execTileDraw s) := by
  simp only [execTileDraw]; (repeat' split) <;> simp [h]

theorem execDispatch_form : FormOut (execDispatch s) := by
  simp only [execDispatch]; (repeat' split) <;> simp [h]

theorem execTaskStart_form : FormOut (execTaskStart s) := by
  simp only [execTaskStart]; (repeat' split) <;> simp [h]

theorem execSteal_form : FormOut (execSteal s) := by
  simp only [execSteal]; (repeat' split) <;> simp [h]

theorem execWdog_form : FormOut (execWdog s) := by
  simp only [execWdog]; (repeat' split) <;> simp [h]

theorem execSlotTableWrite_form : FormOut (execSlotTableWrite s) := by
  simp only [execSlotTableWrite]; (repeat' split) <;> simp [h]

theorem execUnbindComplete_form : FormOut (execUnbindComplete s) := by
  simp only [execUnbindComplete]; (repeat' split) <;> simp [h]

theorem execResume_form : FormOut (execResume s) := by
  unfold execResume; (repeat' split) <;> simp [h]

theorem execVictWrite_form : FormOut (execVictWrite s) := by
  unfold execVictWrite; (repeat' split) <;> simp [h]

theorem execQuantumExpiry_form : FormOut (execQuantumExpiry s) := by
  simp only [execQuantumExpiry]; (repeat' split) <;> simp [h]

theorem execRetain_form (d a b c : Reg) : FormOut (execRetain d a b c s) :=
  issue_form h (by simp only; (repeat' split) <;> simp [h])

theorem execUnpin_form (d a : Reg) : FormOut (execUnpin d a s) :=
  issue_form h (by simp only; (repeat' split) <;> simp [h])

theorem execArrlog_form (d a b : Reg) : FormOut (execArrlog d a b s) :=
  issue_form h (by simp only; (repeat' split) <;> simp [h])

theorem execVcvt_form (f : VFields) : FormOut (execVcvt f s) := issueV_form h (by
  simp only; split
  · simp [h]
  · exact floatEnd_wf h _ (fun u hu => by simp [hu]))

theorem execMexit_form : FormOut (execMexit s) :=
  issueV_form h (by (repeat' split) <;> simp [h])

theorem execVectorLoadArrival_form : FormOut (execVectorLoadArrival s) := by
  simp only [execVectorLoadArrival]; (repeat' split) <;> simp [h]

theorem execStoreAcknowledged_form : FormOut (execStoreAcknowledged s) := by
  simp only [execStoreAcknowledged]; (repeat' split) <;> simp [h]

theorem execAcquireReissue_form : FormOut (execAcquireReissue s) := by
  simp only [execAcquireReissue]; (repeat' split) <;> simp [h]

theorem execGrantWake_form : FormOut (execGrantWake s) := by
  simp only [execGrantWake]; (repeat' split) <;> simp [h]

theorem execSliceMove_form : FormOut (execSliceMove s) := by
  simp only [execSliceMove]; (repeat' split) <;> simp [h]

theorem execSlicePlaced_form : FormOut (execSlicePlaced s) := by
  unfold execSlicePlaced; (repeat' split) <;> simp [h]

theorem execHostWrite_form : FormOut (execHostWrite s) := by
  simp only [execHostWrite]; (repeat' split) <;> simp [h]

theorem execHostRead_form : FormOut (execHostRead s) := by
  simp only [execHostRead]; (repeat' split) <;> simp [h]

theorem execPeerAccess_form : FormOut (execPeerAccess s) := by
  simp only [execPeerAccess]; (repeat' split) <;> simp [h]

theorem execLaneLost_form : FormOut (execLaneLost s) := by
  simp only [execLaneLost]; (repeat' split) <;> simp [h]

theorem execUnitError_form : FormOut (execUnitError s) := by
  simp only [execUnitError]; (repeat' split) <;> simp [h]

theorem execEntropyRetest_form : FormOut (execEntropyRetest s) := by
  simp only [execEntropyRetest]; (repeat' split) <;> simp [h]

theorem execLinkRetrain_form : FormOut (execLinkRetrain s) := by
  simp only [execLinkRetrain]; (repeat' split) <;> simp [h]

theorem execPacklinkLinkUp_form : FormOut (execPacklinkLinkUp s) := by
  simp only [execPacklinkLinkUp]; (repeat' split) <;> simp [h]

theorem execPowerSample_form : FormOut (execPowerSample s) := by
  unfold execPowerSample; (repeat' split) <;> simp [h]

theorem execThermalShutdown_form : FormOut (execThermalShutdown s) := by
  unfold execThermalShutdown; (repeat' split) <;> simp [h]

theorem execPowerGood_form : FormOut (execPowerGood s) := by
  simp only [execPowerGood]; (repeat' split) <;> simp [h]

theorem execFirmwareUpdate_form : FormOut (execFirmwareUpdate s) := by
  unfold execFirmwareUpdate; (repeat' split) <;> simp [h]

theorem execOperatorKey_form : FormOut (execOperatorKey s) := by
  unfold execOperatorKey; (repeat' split) <;> simp [h]

theorem execTenantEnable_form : FormOut (execTenantEnable s) := by
  unfold execTenantEnable; (repeat' split) <;> simp [h]

theorem execDumpWindowSize_form : FormOut (execDumpWindowSize s) := by
  simp only [execDumpWindowSize]; (repeat' split) <;> simp [h]

theorem execAllowanceSet_form : FormOut (execAllowanceSet s) := by
  simp only [execAllowanceSet]; (repeat' split) <;> simp [h]

theorem execSignedStateRead_form : FormOut (execSignedStateRead s) := by
  simp only [execSignedStateRead]; (repeat' split) <;> simp [h]

theorem execVquant_form (f : VFields) : FormOut (execVquant f s) :=
  issueV_form h (floatEnd_wf h _ (fun u hu => by simp [hu]))

theorem execVdeq_form (f : VFields) : FormOut (execVdeq f s) := issueV_form h (by
  simp only; split
  · simp [h]
  · exact floatEnd_wf h _ (fun u hu => by simp [hu]))

theorem execRepart_form (d a : Reg) : FormOut (execRepart d a s) :=
  issue_form h (by simp only; (repeat' split) <;> simp [h])

theorem execVrecur_form (f : VFields) : FormOut (execVrecur f s) := issueV_form h (by
  simp only; split
  · simp [h]
  · exact floatEnd_wf h _ (fun u hu => by simp [hu]))

theorem execCpyres_form (x : Handle) : FormOut (execCpyres x s) := by
  refine issue_form h ?_
  simp only
  split
  · simp [h]
  · split
    · simp [h]
    · split
      · simp [h]
      · rw [acceptCopy_mem]
        split <;> simp [h]

theorem execMmode_form (f : VFields) : FormOut (execMmode f s) := by
  refine issueV_form h ?_
  simp only
  split
  · simp [h]
  · split
    · simp [h]
    · split
      · simp [h]
      · generalize hu : settlePool (setRequest s (me s) _) (myPool s) = u
        have hf : u.mem.wf = true := by rw [← hu]; simpa using h
        split
        · simp [hf]
        · split
          · simp [regrant_mem ‹_›, hf]
          · simp [h]

theorem execSmloop_form (c : Reg) (mask : BitVec 8) (off : BitVec 32) : FormOut (execSmloop c mask off s) := by
  refine issueV_form h (iteInduction (motive := fun u : State => u.mem.wf = true) (fun _ => by simp [h]) (fun _ => ?_))
  rw [grantPoint_mem _ _ _ (fun u => modMy_mem ..) (fun u => by split <;> simp)]
  exact h

theorem execVreq_form (f : VFields) : FormOut (execVreq f s) := by
  refine issueV_form h (iteInduction (motive := fun u : State => u.mem.wf = true) (fun _ => ?_) (fun _ => ?_))
  · rw [vrelThen_mem _ _ (fun u => by simp)]
    exact h
  · split
    · simp [h]
    · split
      · simp [h]
      · simp only [advance_mem, setReg_mem]
        split <;> simp [h]

theorem execVrel_form : FormOut (execVrel s) := by
  refine issueV_form h (iteInduction (motive := fun u : State => u.mem.wf = true) (fun _ => by simp [h]) (fun _ => ?_))
  rw [vrelThen_mem _ _ advance_mem]
  exact h

theorem execVsetl_form (f : VFields) : FormOut (execVsetl f s) := by
  refine issueV_form h ?_
  rw [grantPoint_mem s id _ (fun _ => rfl) (fun u => by simp)]
  exact h

theorem execVyield_form (f : VFields) : FormOut (execVyield f s) := by
  refine issueV_form h ?_
  rw [grantPoint_mem s _ _ (fun u => setRequest_mem ..) (fun u => by simp)]
  exact h

theorem execSaload_form : FormOut (execSaload s) := by
  refine issueSa_form h ?_
  simp only
  split
  · simp [h]
  · exact loadPath_wf (by exact h) _ _ _ _ _ _ _ (fun u l hu => by (repeat' split) <;> simp [hu])

/-! ### Steps of engines -/

theorem execAtomicResponse_form : FormOut (execAtomicResponse s) := by
  simp only [execAtomicResponse]
  split
  · simpa using h
  · split
    · simp only [formOut_next, respond_mem]
      split <;> simp [h]
    · simp only [formOut_next, respond_mem]
      split <;> simp [h]
    · simpa using h

theorem execLoadResponse_form : FormOut (execLoadResponse s) := by
  simp only [execLoadResponse]
  split
  · simpa using h
  · split
    · simpa only [formOut_next, respond_mem] using loadArrives_wf (by exact h) _ _ _ _ (fun u l hu => by simp [hu])
    · simpa only [formOut_next, respond_mem] using loadArrives_wf (by exact h) _ _ _ _ (fun u l hu => by simp [hu])
    · simpa using h

theorem execMatrixWordComplete_form : FormOut (execMatrixWordComplete s) := by
  unfold execMatrixWordComplete
  split
  · simpa only [formOut_next, respond_mem] using completeMat_wf (by exact h) _
  · simpa using h

theorem execSaRegisterReturn_form : FormOut (execSaRegisterReturn s) := by
  simp only [execSaRegisterReturn]
  (repeat' split) <;> simp [respond_mem, h]

theorem execPginvComplete_form : FormOut (execPginvComplete s) := by
  simp only [execPginvComplete]
  (repeat' split) <;> simp [respond_mem, h]

theorem execPageReport_form : FormOut (execPageReport s) := by
  simp only [execPageReport]
  refine iteInduction (motive := FormOut) (fun _ => by simpa using h) (fun _ => ?_)
  split
  · simpa using h
  · next u code e =>
    have hu : u.mem.wf = true := by
      split at e
      · cases e; exact h
      · split at e
        · cases e; exact h
        · exact bringPage_wf h e
    rw [formOut_next, owe_mem, modCtx_mem]
    split <;> simp [hu]

theorem execWakeMessage_form : FormOut (execWakeMessage s) := by
  simp only [execWakeMessage]
  split
  · simpa using h
  · rw [formOut_next, foldl_mem _ (fun _ _ => modRet_mem ..), foldl_mem _ (fun _ _ => by simp)]
    exact h

theorem execHostWriteQueueDrain_form : FormOut (execHostWriteQueueDrain s) := by
  simp only [execHostWriteQueueDrain]
  split
  · simpa using h
  · rw [formOut_next, endCover_mem]
    apply Memory.wf_setAll
    split <;> simp [h]

theorem repairMiss_form (k : Nat) (m : ScopeMsg) : FormRepair (repairMiss s k m) := by
  simp only [repairMiss]
  split
  · exact trivial
  · simp [h]
  · refine iteInduction (motive := FormRepair) (fun _ => by simp [h]) (fun _ => ?_)
    refine iteInduction (motive := FormRepair) (fun _ => trivial) (fun _ => ?_)
    rw [formRepair_done, putMark_mem]
    refine writeHome_wf ?_ _ _ _ _ _
    split <;> simp [h]

theorem repairMiss_wf {k : Nat} {m : ScopeMsg} {u : State} (e : repairMiss s k m = Repair.done u) : u.mem.wf = true := by
  simpa [e] using repairMiss_form h k m

theorem execScopeMissMessage_form : FormOut (execScopeMissMessage s) := by
  simp only [execScopeMissMessage]
  split
  · simpa using h
  · split
    · simpa using h
    · split
      · simpa using h
      · split
        · simpa using h
        · split
          · split
            · next u e =>
              have hu : u.mem.wf = true := repairMiss_wf (by simpa using h) e
              simpa using hu
            · simpa using h
            · simpa using h
          · simpa using h

theorem execSaloadRun_form : FormOut (execSaloadRun s) := by
  have loaded {d c toff nent n i roff : Nat} {g : Seg} {u : State} {o : Option (SaByte × Nat × Nat)}
      (e : loadCells d g c toff nent n i roff s = (u, o)) : u.mem.wf = true := by
    simpa [e] using loadCells_wf d g c toff nent n i roff h
  simp only [execSaloadRun]
  split
  · split
    · simp [h]
    · split <;> simp [loaded ‹_›]
  · simpa using h

theorem execLscfgWrite_form : FormOut (execLscfgWrite s) := by
  simp only [execLscfgWrite]
  split
  · simpa using h
  · exact (formOut_next _).mpr (Memory.wf_zero _ _ h)

theorem execGangEnd_form : FormOut (execGangEnd s) := by
  simp only [execGangEnd]
  split
  · simpa using h
  · split
    · simpa using h
    · split
      · simp [gangAction_wf h ‹_›]
      · simp [h]

theorem execUnbind_form : FormOut (execUnbind s) := by
  simp only [execUnbind]
  refine iteInduction (motive := FormOut) (fun _ => by simpa using h) (fun _ => ?_)
  refine iteInduction (motive := FormOut) (fun _ => ?_) (fun _ => ?_)
  · rw [formOut_next]
    exact iteInduction (motive := fun u : State => u.mem.wf = true) (fun _ => startUnbind_wf h _ _) (fun _ => h)
  · generalize hu : settleClosing _ = u
    have hf : u.mem.wf = true := by
      rw [← hu, settleClosing_mem]
      exact foldl_wf _ (fun v t hv => drainAll_wf hv t) _ _ (finishWords_wf (by simpa using h) _)
    refine iteInduction (motive := FormOut) (fun _ => by simpa using hf) (fun _ => ?_)
    generalize hv : List.foldl (fun v t => if frozenCtx v s.msg.b then v else takeDue v t) u _ = v
    have hg : v.mem = u.mem := by
      rw [← hv]; exact foldl_mem _ (fun v t => by split <;> simp) _ _
    split
    · simpa [hg] using hf
    · split <;> simp [hg, hf]

theorem execAckDeadline_form : FormOut (execAckDeadline s) := by
  simp only [execAckDeadline]
  (repeat' split) <;> simp [h]

theorem execDumpBuild_form : FormOut (execDumpBuild s) := by
  have settled (l : List Nat) (c : Nat) : (l.foldl finishWord (releaseRets (settleClosing s) c)).mem.wf = true :=
    finishWords_wf (by simpa using h) l
  simp only [execDumpBuild]
  (repeat' split) <;> simp [h, settled]

/-! ### The mailbox -/

theorem servePosted_wf (i : Instr) {serve : State → Reply} (hf : ∀ u, u.mem.wf = true → FormReply (serve u)) (m : Msg) (n : Nat) :
    (servePosted i serve s m n).mem.wf = true := by
  have served := hf s h
  simp only [servePosted]
  split
  · exact h
  · split
    · simpa using h
    · split <;> simp_all

theorem request_form (i : Instr) {serve : State → Reply} (hf : ∀ u, u.mem.wf = true → FormReply (serve u)) :
    FormOut (request i serve s) := by
  have either (c : Prop) [Decidable c] (u : State) (hu : u.mem.wf = true) :
      FormReply ((if c then serve else fun s => .plain s 2) u) := by
    split
    · exact hf u hu
    · simpa using hu
  simp only [request]
  split
  · simpa using h
  · split
    · exact (formOut_next _).mpr (servePosted_wf h _ (either _) _ _)
    · split
      · simpa using h
      · exact (formOut_next _).mpr (servePosted_wf (by simpa using h) _ (either _) _ _)

theorem denyRequest_form (n : Nat) : FormReply (denyRequest s n) := by simpa [denyRequest] using h

theorem onCtx_form {serve : State → Nat → Ctx → Reply} (hf : ∀ c x, FormReply (serve s c x)) : FormReply (onCtx serve s) := by
  unfold onCtx
  split
  · split
    · exact hf _ _
    · exact denyRequest_form h _
  · exact denyRequest_form h _

theorem newCtx_form : FormReply (newCtx s) := by
  simp only [newCtx]
  (repeat' split) <;> simp [h]

theorem delCtx_form (c : Nat) (x : Ctx) : FormReply (delCtx s c x) := by
  simp only [delCtx]
  (repeat' split) <;> simp [h]

theorem serveLoad_form (c : Nat) (x : Ctx) : FormReply (serveLoad s c x) := by
  simp only [serveLoad]
  split
  · simpa using h
  · split
    · simpa using loadObject_wf h ‹_›
    · simpa using h

theorem serveMap_form (c : Nat) (x : Ctx) : FormReply (serveMap s c x) := by
  simp only [serveMap]
  (repeat' split) <;> simp [h]

theorem serveUnmap_form (c : Nat) (x : Ctx) : FormReply (serveUnmap s c x) := by
  simp only [serveUnmap]
  (repeat' split) <;> simp [h]

theorem serveRegion_form (c : Nat) (x : Ctx) : FormReply (serveRegion s c x) := by
  simp only [serveRegion]
  (repeat' split) <;> simp [h, denyRequest_form h]

theorem serveRegfree_form (c : Nat) (x : Ctx) : FormReply (serveRegfree s c x) := by
  simp only [serveRegfree]
  (repeat' split) <;> simp [h, denyRequest_form h]

theorem serveTrace_form (c : Nat) (x : Ctx) : FormReply (serveTrace s c x) := by
  simp only [serveTrace]
  split <;> simp [h]

theorem execDumpfree_form : FormOut (execDumpfree s) :=
  request_form h _ (fun u hu => by simp only; (repeat' split) <;> simp [hu])

theorem execAttest_form : FormOut (execAttest s) :=
  request_form h _ (fun u hu => by split <;> simp [hu])

end

end Sys2Proof.Machine
end

section
/-! SUPPORT. What a meaning answers has memory in its canonical form (O8): each meaning of one shape, and every instruction. -/

namespace Sys2Proof.Machine

section
variable {s : State} (h : s.mem.wf = true)
include h

/-! ### Shapes over shapes -/

theorem fpu2_form (op : Fmt → RMode → FVal → FVal → Nat × Flags) (d a b : Reg) (t : SFmt) (rnd : BitVec 3) :
    FormOut (fpu2 op d a b t rnd s) := fpu_form h _ _ _ _

theorem fpu3_form (sub : Bool) (d a b c : Reg) (t : SFmt) (rnd : BitVec 3) : FormOut (fpu3 sub d a b c t rnd s) :=
  fpu_form h _ _ _ _

theorem fpuCmp_form (k : Nat) (d a b : Reg) (t : SFmt) : FormOut (fpuCmp k d a b t s) := fpu_form h _ _ _ _

theorem fpuToInt_form (signed : Bool) (d a : Reg) (t : SFmt) (rnd : BitVec 3) : FormOut (fpuToInt signed d a t rnd s) :=
  fpu_form h _ _ _ _

theorem fpuOfInt_form (x : Word → Int) (d a : Reg) (g : SFmt) (rnd : BitVec 3) : FormOut (fpuOfInt x d a g rnd s) :=
  fpu_form h _ _ _ _

theorem vecFloat2_form (op : Fmt → RMode → FVal → FVal → Nat × Flags) (f : VFields) : FormOut (vecFloat2 op f s) :=
  vecFloat_form h _ _ _ _

theorem vecFused_form (sub : Bool) (f : VFields) : FormOut (vecFused sub f s) := vecFloat_form h _ _ _ _

theorem vecFcmp_form (k : Nat) (f : VFields) : FormOut (vecFcmp k f s) := vecFloat_form h _ _ _ _

theorem vecInt2_form (r : Nat → Nat → Nat → Nat) (f : VFields) : FormOut (vecInt2 r f s) := vecInt_form h _ _ _ _

theorem reduceInt_form (op : Int → Int → Int) (f : VFields) : FormOut (reduceInt op f s) := reduce_form h _ _

/-! ### Meanings of one shape alone -/

theorem execCsel_form (d a b c : Reg) : FormOut (execCsel d a b c s) := issue_form h (by simp [h])

theorem execBext_form (d a b c : Reg) : FormOut (execBext d a b c s) := issue_form h (by simp [h])

theorem execBdep_form (d a b c : Reg) : FormOut (execBdep d a b c s) := issue_form h (by simp [h])

theorem execLih_form (d : Reg) (v : BitVec 20) : FormOut (execLih d v s) := issue_form h (by simp [h])

theorem execLipc_form (d : Reg) (v : BitVec 20) : FormOut (execLipc d v s) := issue_form h (by simp [h])

theorem execLdi32_form (d : Reg) (v : BitVec 32) : FormOut (execLdi32 d v s) := issue_form h (by simp [h])

theorem execLdi32N_form (d : Reg) (v : BitVec 32) : FormOut (execLdi32N d v s) := issue_form h (by simp [h])

theorem execFsqrt_form (d a : Reg) (t : SFmt) (rnd : BitVec 3) : FormOut (execFsqrt d a t rnd s) := fpu_form h _ _ _ _

theorem execFmin_form (d a b : Reg) (t : SFmt) : FormOut (execFmin d a b t s) := fpu2_form h _ _ _ _ _ _

theorem execFmax_form (d a b : Reg) (t : SFmt) : FormOut (execFmax d a b t s) := fpu2_form h _ _ _ _ _ _

theorem execFclass_form (d a : Reg) (t : SFmt) : FormOut (execFclass d a t s) := fpu_form h _ _ _ _

theorem execFcvtif_form (d a : Reg) (g : SFmt) (rnd : BitVec 3) : FormOut (execFcvtif d a g rnd s) := fpuOfInt_form h _ _ _ _ _

theorem execFcvtnf_form (d a : Reg) (g : SFmt) (rnd : BitVec 3) : FormOut (execFcvtnf d a g rnd s) := fpuOfInt_form h _ _ _ _ _

theorem execFcvtff_form (d a : Reg) (t g : SFmt) (rnd : BitVec 3) : FormOut (execFcvtff d a t g rnd s) := fpu_form h _ _ _ _

theorem execJmp_form (off : BitVec 32) : FormOut (execJmp off s) := issue_form h (by simp [h])

theorem execCall_form (d : Reg) (off : BitVec 32) : FormOut (execCall d off s) := issue_form h (by simp [h])

theorem execCallr_form (d a : Reg) : FormOut (execCallr d a s) := issue_form h (by simp [h])

theorem execRet_form (a : Reg) : FormOut (execRet a s) := issue_form h (by simp [h])

theorem execJmpr_form (a : Reg) : FormOut (execJmpr a s) := issue_form h (by simp [h])

theorem execCas_form (d b : Reg) (m : AmoRef) : FormOut (execCas d b m s) := issue_form h (by simp [h])

theorem execEcall_form (code : BitVec 12) : FormOut (execEcall code s) := issue_form h (by simp [h])

theorem execBrk_form (code : BitVec 12) : FormOut (execBrk code s) := issue_form h (by simp [h])

theorem execTime_form (d : Reg) : FormOut (execTime d s) := issue_form h (by simp [h])

theorem execRmver_form (d : Reg) : FormOut (execRmver d s) := issue_form h (by simp [h])

theorem execRmack_form (d a : Reg) : FormOut (execRmack d a s) := issue_form h (by simp [h])

theorem execRmread_form (d a b : Reg) : FormOut (execRmread d a b s) := issue_form h (by simp [h])

theorem execTracemark_form (a : Reg) (code : BitVec 12) : FormOut (execTracemark a code s) := issue_form h (by simp [h])

theorem execCflush_form (m : MemRef) : FormOut (execCflush m s) := lineOp_form h (fun u a b c => by simp) m

theorem execCinv_form (m : MemRef) : FormOut (execCinv m s) := lineOp_form h (fun u a b c => by simp) m

theorem execCclean_form (m : MemRef) : FormOut (execCclean m s) := lineOp_form h (fun u a b c => by simp) m

theorem execViewaddr_form (d a b : Reg) (g : BitVec 3) : FormOut (execViewaddr d a b g s) := issue_form h (by simp [h])

theorem execReginfo_form (d a b : Reg) (g : BitVec 3) : FormOut (execReginfo d a b g s) := issue_form h (by simp [h])

theorem execAtomlog_form (d a b : Reg) : FormOut (execAtomlog d a b s) := issue_form h (by simp [h])

theorem execWaitany_form (d a : Reg) : FormOut (execWaitany d a s) := tagWait_form h _ _ _

theorem execWaitall_form (d a : Reg) : FormOut (execWaitall d a s) := tagWait_form h _ _ _

theorem execFfready_form (d a : Reg) : FormOut (execFfready d a s) := tagWait_form h _ _ _

theorem execTagclr_form (a : Reg) : FormOut (execTagclr a s) := issue_form h (by simp [h])

theorem execTagstat_form (d a b : Reg) : FormOut (execTagstat d a b s) := by
  simp only [execTagstat]
  exact issue_form h (by simp [h])

theorem execSbinit_form (a b : Reg) : FormOut (execSbinit a b s) := by
  simp only [execSbinit]
  refine sbWord_form h _ _ _ _ (fun u k x hu => ?_)
  simp [hu]

theorem execSbexp_form (a b : Reg) : FormOut (execSbexp a b s) := by
  simp only [execSbexp]
  refine sbWord_form h _ _ _ _ (fun u k x hu => ?_)
  simp [hu]

theorem execSbwait_form (d a b : Reg) : FormOut (execSbwait d a b s) := by
  simp only [execSbwait]
  refine sbWord_form h _ _ _ _ (fun u k x hu => ?_)
  (repeat' split) <;> simp [hu]

theorem execSbrel_form (a : Reg) : FormOut (execSbrel a s) := by
  simp only [execSbrel]
  refine sbWord_form h _ _ _ _ (fun u k x hu => ?_)
  split <;> simp [hu]

theorem execSbstat_form (d a b : Reg) : FormOut (execSbstat d a b s) := by
  simp only [execSbstat]
  refine sbWord_form h _ _ _ _ (fun u k x hu => ?_)
  simp [hu]

theorem execJoinq_form (d a : Reg) : FormOut (execJoinq d a s) :=
  issue_form h (joinPath_wf h _ (fun u n hu => by simp [hu]))

theorem execDepinit_form (d a : Reg) (g : BitVec 3) : FormOut (execDepinit d a g s) := depWord_form h _ _ _ _ _

theorem execDeparm_form (d a b : Reg) (g : BitVec 3) : FormOut (execDeparm d a b g s) := depWord_form h _ _ _ _ _

theorem execDepsig_form (d a : Reg) (g : BitVec 3) : FormOut (execDepsig d a g s) := depWord_form h _ _ _ _ _

theorem execTaskid_form (d a : Reg) : FormOut (execTaskid d a s) := issue_form h (by simp [h])

theorem execSlotinfo_form (d a : Reg) : FormOut (execSlotinfo d a s) := issue_form h (by simp [h])

theorem execWdset_form (d a : Reg) : FormOut (execWdset d a s) := issue_form h (by simp [h])

theorem execQset_form (f : VFields) : FormOut (execQset f s) := issueV_form h (by simp [h])

theorem execCarryr_form (f : VFields) : FormOut (execCarryr f s) := issueV_form h (by simp [h])

theorem execCarryw_form (f : VFields) : FormOut (execCarryw f s) := issueV_form h (by simp [h])

theorem execVld_form (f : VFields) : FormOut (execVld f s) := loadForm_form h _ _ _ _ _

theorem execVlds_form (f : VFields) : FormOut (execVlds f s) := loadForm_form h _ _ _ _ _

theorem execVldx_form (f : VFields) : FormOut (execVldx f s) := loadForm_form h _ _ _ _ _

theorem execVldq_form (f : VFields) : FormOut (execVldq f s) := loadForm_form h _ _ _ _ _

theorem execVst_form (f : VFields) : FormOut (execVst f s) := storeForm_form h _ _ _ _ _

theorem execVsts_form (f : VFields) : FormOut (execVsts f s) := storeForm_form h _ _ _ _ _

theorem execVstx_form (f : VFields) : FormOut (execVstx f s) := storeForm_form h _ _ _ _ _

theorem execVstq_form (f : VFields) : FormOut (execVstq f s) := storeForm_form h _ _ _ _ _

theorem execVldsx_form (f : VFields) : FormOut (execVldsx f s) := issueV_form h (by simp [h])

theorem execVstsx_form (f : VFields) : FormOut (execVstsx f s) := issueV_form h (by simp [h])

theorem execVfsqrt_form (f : VFields) : FormOut (execVfsqrt f s) := vecFloat_form h _ _ _ _

theorem execVfmin_form (f : VFields) : FormOut (execVfmin f s) := vecFloat2_form h _ _

theorem execVfmax_form (f : VFields) : FormOut (execVfmax f s) := vecFloat2_form h _ _

theorem execVadd_form (f : VFields) : FormOut (execVadd f s) := vecInt2_form h _ _

theorem execVsub_form (f : VFields) : FormOut (execVsub f s) := vecInt2_form h _ _

theorem execVmul_form (f : VFields) : FormOut (execVmul f s) := vecInt2_form h _ _

theorem execVmulh_form (f : VFields) : FormOut (execVmulh f s) := vecInt2_form h _ _

theorem execVdiv_form (f : VFields) : FormOut (execVdiv f s) := vecInt2_form h _ _

theorem execVrem_form (f : VFields) : FormOut (execVrem f s) := vecInt2_form h _ _

theorem execVand_form (f : VFields) : FormOut (execVand f s) := vecInt2_form h _ _

theorem execVor_form (f : VFields) : FormOut (execVor f s) := vecInt2_form h _ _

theorem execVxor_form (f : VFields) : FormOut (execVxor f s) := vecInt2_form h _ _

theorem execVsll_form (f : VFields) : FormOut (execVsll f s) := vecInt2_form h _ _

theorem execVsrl_form (f : VFields) : FormOut (execVsrl f s) := vecInt2_form h _ _

theorem execVsra_form (f : VFields) : FormOut (execVsra f s) := vecInt2_form h _ _

theorem execVmin_form (f : VFields) : FormOut (execVmin f s) := vecInt2_form h _ _

theorem execVmax_form (f : VFields) : FormOut (execVmax f s) := vecInt2_form h _ _

theorem execVcmpeq_form (f : VFields) : FormOut (execVcmpeq f s) := vecInt_form h _ _ _ _

theorem execVcmplt_form (f : VFields) : FormOut (execVcmplt f s) := vecInt_form h _ _ _ _

theorem execVadds_form (f : VFields) : FormOut (execVadds f s) := vecInt2_form h _ _

theorem execVsubs_form (f : VFields) : FormOut (execVsubs f s) := vecInt2_form h _ _

theorem execVperm_form (f : VFields) : FormOut (execVperm f s) := permute_form h _ _ _

theorem execVslideup_form (f : VFields) : FormOut (execVslideup f s) := permute_form h _ _ _

theorem execVslidedn_form (f : VFields) : FormOut (execVslidedn f s) := permute_form h _ _ _

theorem execVcompress_form (f : VFields) : FormOut (execVcompress f s) := issueV_form h (by simp [h])

theorem execVbcast_form (f : VFields) : FormOut (execVbcast f s) := permute_form h _ _ _

theorem execVext_form (f : VFields) : FormOut (execVext f s) := issueV_form h (by simp [h])

theorem execVredsum_form (f : VFields) : FormOut (execVredsum f s) := reduceInt_form h _ _

theorem execVredmin_form (f : VFields) : FormOut (execVredmin f s) := reduceInt_form h _ _

theorem execVredmax_form (f : VFields) : FormOut (execVredmax f s) := reduceInt_form h _ _

theorem execVfredsum_form (f : VFields) : FormOut (execVfredsum f s) := reduce_form h _ _

theorem execVfredmin_form (f : VFields) : FormOut (execVfredmin f s) := reduce_form h _ _

theorem execVfredmax_form (f : VFields) : FormOut (execVfredmax f s) := reduce_form h _ _

theorem execMand_form (f : VFields) : FormOut (execMand f s) := maskLogic_form h _ _

theorem execMor_form (f : VFields) : FormOut (execMor f s) := maskLogic_form h _ _

theorem execMxor_form (f : VFields) : FormOut (execMxor f s) := maskLogic_form h _ _

theorem execMnot_form (f : VFields) : FormOut (execMnot f s) := maskLogic_form h _ _

theorem execMpopc_form (f : VFields) : FormOut (execMpopc f s) := issueV_form h (by simp [h])

theorem execMfirst_form (f : VFields) : FormOut (execMfirst f s) := issueV_form h (by simp [h])

theorem execTshape_form (f : VFields) : FormOut (execTshape f s) := by
  refine issueM_form h ?_
  simp only
  split
  · simp [h]
  · simp [h]

theorem execMzero_form (f : VFields) : FormOut (execMzero f s) := issueM_form h (by simp [h])

theorem execMvacc_form (f : VFields) : FormOut (execMvacc f s) := accMove_form h _ _ _

theorem execMvcol_form (f : VFields) : FormOut (execMvcol f s) := accMove_form h _ _ _

theorem execMldacc_form (f : VFields) : FormOut (execMldacc f s) := accMove_form h _ _ _

theorem execVmaxexp_form (f : VFields) : FormOut (execVmaxexp f s) := issueV_form h (by simp [h])

theorem execYield_form : FormOut (execYield s) := issue_form h (by simp [h])

theorem execWdkick_form : FormOut (execWdkick s) := issue_form h (by simp [h])

theorem execHint_form : FormOut (execHint s) := issue_form h (by simp [h])

theorem execVseed_form : FormOut (execVseed s) := issueV_form h (by simp [h])

theorem execSaseed_form : FormOut (execSaseed s) := issueSa_form h (by simp [h])

theorem execSabeta_form : FormOut (execSabeta s) := issueSa_form h (by simp [h])

theorem execSasweep_form : FormOut (execSasweep s) :=
  issueSa_form h (by simp only; split <;> simp [h])

theorem execMapChange_form : FormOut (execMapChange s) := by simp [execMapChange, h]

theorem execCtxnew_form : FormOut (execCtxnew s) := request_form h _ (fun _ hu => newCtx_form hu)

theorem execCtxdel_form : FormOut (execCtxdel s) :=
  request_form h _ (fun _ hu => onCtx_form hu (delCtx_form hu))

theorem execLoad_form : FormOut (execLoad s) :=
  request_form h _ (fun _ hu => onCtx_form hu (serveLoad_form hu))

theorem execMap_form : FormOut (execMap s) :=
  request_form h _ (fun _ hu => onCtx_form hu (serveMap_form hu))

theorem execUnmap_form : FormOut (execUnmap s) :=
  request_form h _ (fun _ hu => onCtx_form hu (serveUnmap_form hu))

theorem execRegion_form : FormOut (execRegion s) :=
  request_form h _ (fun _ hu => onCtx_form hu (serveRegion_form hu))

theorem execRegfree_form : FormOut (execRegfree s) :=
  request_form h _ (fun _ hu => onCtx_form hu (serveRegfree_form hu))

theorem execMailboxRmack_form : FormOut (execMailboxRmack s) :=
  request_form h _ (fun _ hu => onCtx_form hu (fun _ _ => by simp [hu]))

theorem execMapread_form : FormOut (execMapread s) := request_form h _ (fun _ hu => by simp [hu])

theorem execLogctl_form : FormOut (execLogctl s) := request_form h _ (fun _ hu => by simp [hu])

theorem execTrace_form : FormOut (execTrace s) :=
  request_form h _ (fun _ hu => onCtx_form hu (serveTrace_form hu))

theorem execErrs_form : FormOut (execErrs s) :=
  request_form h _ (fun _ hu => onCtx_form hu (fun _ _ => by simp [hu]))

theorem execMailboxOverflow_form : FormOut (execMailboxOverflow s) := by simp [execMailboxOverflow, h]

theorem execClockStep_form : FormOut (execClockStep s) := by simp [execClockStep, h]

theorem execTemperatureRefresh_form : FormOut (execTemperatureRefresh s) := by
  simp only [execTemperatureRefresh, formOut_next, owe_mem]
  refine applyClocks_wf ?_ _
  rw [foldl_mem _ (fun _ _ => putHot_mem ..), foldl_mem _ (fun _ _ => setTemp_mem ..)]
  exact h

/-! ### Every instruction -/

theorem exec_form (i : Instr) : FormOut (exec i s) := by
  cases i with
  | add _ _ _ | sub _ _ _ | mul _ _ _ | mulh _ _ _ | mulhn _ _ _ | div _ _ _ | divn _ _ _ | rem _ _ _ | remn _ _ _
  | and _ _ _ | or _ _ _ | xor _ _ _ | andn _ _ _ | sll _ _ _ | srl _ _ _ | sra _ _ _ | rol _ _ _ | ror _ _ _ | min _ _ _
  | max _ _ _ | minn _ _ _ | maxn _ _ _ | cmpeq _ _ _ | cmpne _ _ _ | cmplt _ _ _ | cmpltn _ _ _ => exact aluR_form h _ _ _ _
  | csel _ _ _ _ => exact execCsel_form h _ _ _ _
  | clz _ _ | ctz _ _ | popc _ _ | bswap _ _ => exact aluU_form h _ _ _
  | bext _ _ _ _ => exact execBext_form h _ _ _ _
  | bdep _ _ _ _ => exact execBdep_form h _ _ _ _
  | addi _ _ _ | muli _ _ _ | andi _ _ _ | ori _ _ _ | xori _ _ _ | cmpeqi _ _ _ | cmplti _ _ _ | cmpltni _ _ _ | mini _ _ _
  | maxi _ _ _ => exact aluI_form h _ _ _ _
  | slli _ _ _ | srli _ _ _ | srai _ _ _ | roli _ _ _ => exact aluSh_form h _ _ _ _
  | lih _ _ => exact execLih_form h _ _
  | lipc _ _ => exact execLipc_form h _ _
  | ldi32 _ _ => exact execLdi32_form h _ _
  | ldi32N _ _ => exact execLdi32N_form h _ _
  | fadd _ _ _ _ _ | fsub _ _ _ _ _ | fmul _ _ _ _ _ | fdiv _ _ _ _ _ => exact fpu2_form h _ _ _ _ _ _
  | fsqrt _ _ _ _ => exact execFsqrt_form h _ _ _ _
  | fmadd _ _ _ _ _ _ | fmsub _ _ _ _ _ _ => exact fpu3_form h _ _ _ _ _ _ _
  | fmin _ _ _ _ => exact execFmin_form h _ _ _ _
  | fmax _ _ _ _ => exact execFmax_form h _ _ _ _
  | fcmpeq _ _ _ _ | fcmplt _ _ _ _ | fcmple _ _ _ _ => exact fpuCmp_form h _ _ _ _ _
  | fclass _ _ _ => exact execFclass_form h _ _ _
  | fcvtfi _ _ _ _ | fcvtfn _ _ _ _ => exact fpuToInt_form h _ _ _ _ _
  | fcvtif _ _ _ _ => exact execFcvtif_form h _ _ _ _
  | fcvtnf _ _ _ _ => exact execFcvtnf_form h _ _ _ _
  | fcvtff _ _ _ _ _ => exact execFcvtff_form h _ _ _ _ _
  | beq _ _ _ | bne _ _ _ | blt _ _ _ | bge _ _ _ | bltn _ _ _ | bgen _ _ _ => exact branch_form h _ _ _ _
  | jmp _ => exact execJmp_form h _
  | call _ _ => exact execCall_form h _ _
  | callr _ _ => exact execCallr_form h _ _
  | ret _ => exact execRet_form h _
  | jmpr _ => exact execJmpr_form h _
  | ldB _ _ | ldH _ _ | ldW _ _ | ldD _ _ | ldBN _ _ | ldHN _ _ | ldWN _ _ => exact load_form h _ _ _ _
  | stB _ _ | stH _ _ | stW _ _ | stD _ _ => exact store_form h _ _ _
  | pref _ => exact execPref_form h _
  | amoadd _ _ _ | amoand _ _ _ | amoor _ _ _ | amoxor _ _ _ | amomin _ _ _ | amomax _ _ _ | amominn _ _ _ | amomaxn _ _ _
  | amoswap _ _ _ => exact amo_form h _ _ _ _
  | cas _ _ _ => exact execCas_form h _ _ _
  | fence _ => exact execFence_form h _
  | trap _ _ => exact execTrap_form h _ _
  | ecall _ => exact execEcall_form h _
  | brk _ => exact execBrk_form h _
  | csrr _ _ => exact execCsrr_form h _ _
  | csrw _ _ => exact execCsrw_form h _ _
  | csrs _ _ => exact execCsrs_form h _ _
  | csrc _ _ => exact execCsrc_form h _ _
  | time _ => exact execTime_form h _
  | repart _ _ => exact execRepart_form h _ _
  | rmver _ => exact execRmver_form h _
  | rmack _ _ => exact execRmack_form h _ _
  | rmread _ _ _ => exact execRmread_form h _ _ _
  | tracemark _ _ => exact execTracemark_form h _ _
  | segld _ _ => exact execSegld_form h _ _
  | segst _ _ => exact execSegst_form h _ _
  | pginv _ _ => exact execPginv_form h _ _
  | cflush _ => exact execCflush_form h _
  | cinv _ => exact execCinv_form h _
  | cclean _ => exact execCclean_form h _
  | retain _ _ _ _ => exact execRetain_form h _ _ _ _
  | unpin _ _ => exact execUnpin_form h _ _
  | viewaddr _ _ _ _ => exact execViewaddr_form h _ _ _ _
  | reginfo _ _ _ _ => exact execReginfo_form h _ _ _ _
  | atomlog _ _ _ => exact execAtomlog_form h _ _ _
  | arrlog _ _ _ => exact execArrlog_form h _ _ _
  | rload _ _ _ => exact execRload_form h _ _ _
  | rstart _ _ _ _ => exact execRstart_form h _ _ _ _
  | rstop _ _ => exact execRstop_form h _ _
  | rstat _ _ _ => exact execRstat_form h _ _ _
  | cpy _ _ | cpy2 _ _ | cpyt _ _ | cpyg _ _ => exact copyWord_form h _ _ _
  | cpyres _ => exact execCpyres_form h _
  | waitany _ _ => exact execWaitany_form h _ _
  | waitall _ _ => exact execWaitall_form h _ _
  | ffready _ _ => exact execFfready_form h _ _
  | tagclr _ => exact execTagclr_form h _
  | tagstat _ _ _ => exact execTagstat_form h _ _ _
  | sbinit _ _ => exact execSbinit_form h _ _
  | sbexp _ _ => exact execSbexp_form h _ _
  | sbwait _ _ _ => exact execSbwait_form h _ _ _
  | sbrel _ => exact execSbrel_form h _
  | sbstat _ _ _ => exact execSbstat_form h _ _ _
  | spawn _ _ _ _ => exact execSpawn_form h _ _ _ _
  | retj _ => exact execRetj_form h _
  | join _ _ => exact execJoin_form h _ _
  | joinq _ _ => exact execJoinq_form h _ _
  | glaunch _ _ _ => exact execGlaunch_form h _ _ _
  | gbar _ => exact execGbar_form h _
  | depinit _ _ _ => exact execDepinit_form h _ _ _
  | deparm _ _ _ _ => exact execDeparm_form h _ _ _ _
  | depsig _ _ _ => exact execDepsig_form h _ _ _
  | taskid _ _ => exact execTaskid_form h _ _
  | slotinfo _ _ => exact execSlotinfo_form h _ _
  | wdset _ _ => exact execWdset_form h _ _
  | dualWord _ _ => exact execDualWord_form h _ _
  | smloop _ _ _ => exact execSmloop_form h _ _ _
  | vreq _ => exact execVreq_form h _
  | vsetl _ => exact execVsetl_form h _
  | vyield _ => exact execVyield_form h _
  | qset _ => exact execQset_form h _
  | carryr _ => exact execCarryr_form h _
  | carryw _ => exact execCarryw_form h _
  | vld _ => exact execVld_form h _
  | vlds _ => exact execVlds_form h _
  | vldx _ => exact execVldx_form h _
  | vldq _ => exact execVldq_form h _
  | vldl _ => exact execVldl_form h _
  | vst _ => exact execVst_form h _
  | vsts _ => exact execVsts_form h _
  | vstx _ => exact execVstx_form h _
  | vstq _ => exact execVstq_form h _
  | vstl _ => exact execVstl_form h _
  | vldsx _ => exact execVldsx_form h _
  | vstsx _ => exact execVstsx_form h _
  | vamo _ => exact execVamo_form h _
  | vfadd _ | vfsub _ | vfmul _ | vfdiv _ => exact vecFloat2_form h _ _
  | vfsqrt _ => exact execVfsqrt_form h _
  | vfma _ | vfms _ => exact vecFused_form h _ _
  | vfmin _ => exact execVfmin_form h _
  | vfmax _ => exact execVfmax_form h _
  | vfcmpeq _ | vfcmplt _ | vfcmple _ => exact vecFcmp_form h _ _
  | vadd _ => exact execVadd_form h _
  | vsub _ => exact execVsub_form h _
  | vmul _ => exact execVmul_form h _
  | vmulh _ => exact execVmulh_form h _
  | vdiv _ => exact execVdiv_form h _
  | vrem _ => exact execVrem_form h _
  | vand _ => exact execVand_form h _
  | vor _ => exact execVor_form h _
  | vxor _ => exact execVxor_form h _
  | vsll _ => exact execVsll_form h _
  | vsrl _ => exact execVsrl_form h _
  | vsra _ => exact execVsra_form h _
  | vmin _ => exact execVmin_form h _
  | vmax _ => exact execVmax_form h _
  | vcmpeq _ => exact execVcmpeq_form h _
  | vcmplt _ => exact execVcmplt_form h _
  | vadds _ => exact execVadds_form h _
  | vsubs _ => exact execVsubs_form h _
  | vcvt _ => exact execVcvt_form h _
  | vperm _ => exact execVperm_form h _
  | vslideup _ => exact execVslideup_form h _
  | vslidedn _ => exact execVslidedn_form h _
  | vcompress _ => exact execVcompress_form h _
  | vbcast _ => exact execVbcast_form h _
  | vext _ => exact execVext_form h _
  | vredsum _ => exact execVredsum_form h _
  | vredmin _ => exact execVredmin_form h _
  | vredmax _ => exact execVredmax_form h _
  | vfredsum _ => exact execVfredsum_form h _
  | vfredmin _ => exact execVfredmin_form h _
  | vfredmax _ => exact execVfredmax_form h _
  | vrecur _ => exact execVrecur_form h _
  | mand _ => exact execMand_form h _
  | mor _ => exact execMor_form h _
  | mxor _ => exact execMxor_form h _
  | mnot _ => exact execMnot_form h _
  | mpopc _ => exact execMpopc_form h _
  | mfirst _ => exact execMfirst_form h _
  | mmode _ => exact execMmode_form h _
  | tshape _ => exact execTshape_form h _
  | mzero _ => exact execMzero_form h _
  | mopa _ | mopa8 _ | mops _ => exact outer_form h _ _ _
  | mvacc _ => exact execMvacc_form h _
  | mvcol _ => exact execMvcol_form h _
  | mldacc _ => exact execMldacc_form h _
  | mspill _ | mfill _ => exact windowMove_form h _ _ _
  | vmaxexp _ => exact execVmaxexp_form h _
  | vquant _ => exact execVquant_form h _
  | vdeq _ => exact execVdeq_form h _
  | eret => exact execEret_form h
  | yield => exact execYield_form h
  | tend => exact execTend_form h
  | wdkick => exact execWdkick_form h
  | hint => exact execHint_form h
  | vrel => exact execVrel_form h
  | mexit => exact execMexit_form h
  | vseed => exact execVseed_form h
  | saacq => exact execSaacq_form h
  | sarel => exact execSarel_form h
  | saload => exact execSaload_form h
  | saseed => exact execSaseed_form h
  | sabeta => exact execSabeta_form h
  | saclamp => exact execSaclamp_form h
  | sasweep => exact execSasweep_form h
  | saread => exact execSaread_form h
  | sacount => exact execSacount_form h
  | sawait => exact execSawait_form h
  | saloadRun => exact execSaloadRun_form h
  | saseedRun => exact execSaseedRun_form h
  | sabetaRun => exact execSabetaRun_form h
  | sweep => exact execSweep_form h
  | saRegisterReturn => exact execSaRegisterReturn_form h
  | entropyRetest => exact execEntropyRetest_form h
  | launchRecord => exact execLaunchRecord_form h
  | portWriteOther => exact execPortWriteOther_form h
  | gangStart => exact execGangStart_form h
  | tileDraw => exact execTileDraw_form h
  | dispatch => exact execDispatch_form h
  | taskStart => exact execTaskStart_form h
  | steal => exact execSteal_form h
  | gangEnd => exact execGangEnd_form h
  | wdog => exact execWdog_form h
  | quantumExpiry => exact execQuantumExpiry_form h
  | slotTableWrite => exact execSlotTableWrite_form h
  | unbind => exact execUnbind_form h
  | unbindComplete => exact execUnbindComplete_form h
  | resume => exact execResume_form h
  | lscfgWrite => exact execLscfgWrite_form h
  | victWrite => exact execVictWrite_form h
  | loadResponse => exact execLoadResponse_form h
  | atomicResponse => exact execAtomicResponse_form h
  | vectorLoadArrival => exact execVectorLoadArrival_form h
  | matrixWordComplete => exact execMatrixWordComplete_form h
  | chunkDone => exact execChunkDone_form h
  | chunkFault => exact execChunkFault_form h
  | pageReport => exact execPageReport_form h
  | wakeMessage => exact execWakeMessage_form h
  | scopeMissMessage => exact execScopeMissMessage_form h
  | acquireReissue => exact execAcquireReissue_form h
  | grantWake => exact execGrantWake_form h
  | sliceMove => exact execSliceMove_form h
  | laneLost => exact execLaneLost_form h
  | slicePlaced => exact execSlicePlaced_form h
  | unitError => exact execUnitError_form h
  | mapChange => exact execMapChange_form h
  | ackDeadline => exact execAckDeadline_form h
  | dumpBuild => exact execDumpBuild_form h
  | hostWriteQueueDrain => exact execHostWriteQueueDrain_form h
  | hostWrite => exact execHostWrite_form h
  | hostRead => exact execHostRead_form h
  | peerAccess => exact execPeerAccess_form h
  | ctxnew => exact execCtxnew_form h
  | ctxdel => exact execCtxdel_form h
  | load => exact execLoad_form h
  | map => exact execMap_form h
  | unmap => exact execUnmap_form h
  | region => exact execRegion_form h
  | regfree => exact execRegfree_form h
  | mailboxRmack => exact execMailboxRmack_form h
  | mapread => exact execMapread_form h
  | logctl => exact execLogctl_form h
  | dumpfree => exact execDumpfree_form h
  | trace => exact execTrace_form h
  | errs => exact execErrs_form h
  | attest => exact execAttest_form h
  | mailboxOverflow => exact execMailboxOverflow_form h
  | tenantEnable => exact execTenantEnable_form h
  | dumpWindowSize => exact execDumpWindowSize_form h
  | allowanceSet => exact execAllowanceSet_form h
  | firmwareUpdate => exact execFirmwareUpdate_form h
  | operatorKey => exact execOperatorKey_form h
  | signedStateRead => exact execSignedStateRead_form h
  | powerGood => exact execPowerGood_form h
  | clockStep => exact execClockStep_form h
  | powerSample => exact execPowerSample_form h
  | temperatureRefresh => exact execTemperatureRefresh_form h
  | thermalShutdown => exact execThermalShutdown_form h
  | linkRetrain => exact execLinkRetrain_form h
  | storeAcknowledged => exact execStoreAcknowledged_form h
  | pginvComplete => exact execPginvComplete_form h
  | packlinkLinkUp => exact execPacklinkLinkUp_form h
end

end Sys2Proof.Machine
end

section
/-! RESULT. Every step keeps memory's canonical form (O8). -/

namespace Sys2Proof.Machine

section
variable {s : State} (h : s.mem.wf = true)
include h

/-! ### Turns -/

theorem runWord_form : FormOut (runWord s) := by
  unfold runWord
  split
  · simp [h]
  · simp only
    split
    · simp [h]
    · next w _ _ i _ =>
      have done := exec_form (s := { s with ir := w }) h i
      split
      · next e => simpa using done _ e
      · exact fun _ e => by cases e
      · exact fun _ e => by cases e

theorem issueWord_form (a : Agent) (d : Bool) : FormOut (issueWord s a d) := by
  have slot : (takeSlot s a d).mem.wf = true := by simpa using h
  unfold issueWord
  simp only
  split
  · next e => simpa [dueTrap_mem e] using h
  · have done := runWord_form slot
    split
    · next e => simpa using done _ e
    · exact fun _ e => by cases e
    · exact fun _ e => by cases e

theorem wordTurn_form (a : Agent) (d : Bool) : FormOut (wordTurn s a d) := by
  unfold wordTurn
  split
  · simpa using h
  · split
    · simpa using h
    · exact issueWord_form h a d

theorem eventTurn_form (e : Instr) (m : Msg) : FormOut (eventTurn s e m) := by
  unfold eventTurn
  split
  · exact exec_form (s := { s with msg := m }) h e
  · simpa using h

theorem step_form : FormOut (step s) := by
  have stopped : FormOut (.fault .unpowered) := fun _ e => by cases e
  simp only [step]
  split
  · split
    · exact eventTurn_form (by exact h) _ _
    · split
      · exact stopped
      · split
        · simpa using h
        · exact eventTurn_form (by exact h) _ _
  · split
    · exact stopped
    · split
      · simpa using h
      · exact wordTurn_form (by exact h) _ _
  · split
    · exact stopped
    · split <;> simpa using h
  · split
    · exact stopped
    · simpa using h
  · split
    · exact stopped
    · split
      · simpa using h
      · split
        · exact eventTurn_form (by exact h) _ _
        · split
          · next e => exact issueWord_form (by rw [nextAgent_mem e]; exact h) _ _
          · simpa using h

end

/-- Settles O8: memory's form is kept by every operation that writes, so by every meaning of a word or of an engine's step, so
by every kind of turn. -/
theorem stepKeepsMemoryForm : Obligations.StepKeepsMemoryForm :=
  fun _ t h e => step_form h t e

end Sys2Proof.Machine
end

section
/-! RESULT. Turns of engines, and what passing time counts (O6). -/

namespace Sys2Proof.Machine

/-! ### What passing time counts -/

/-- A context's record after `n` timestamp cycles. -/
theorem ctx?_elapse (s : State) (n c : Nat) :
    ctx? (elapse s n) c = (ctx? s c).map (fun x => { x with gangs := tickGangs s n c x }) :=
  kfind_mapKey s.ctxs (fun c (x : Ctx) => ({ x with gangs := tickGangs s n c x } : Ctx)) c

theorem kfind_tickGangs (s : State) (n c g : Nat) (x : Ctx) : kfind (tickGangs s n c x) g =
    (kfind x.gangs g).map (fun y => if timeCounts s c && !gangPaused s c g then { y with wdCount := y.wdCount + n } else y) :=
  kfind_mapKey x.gangs (fun g (y : Gang) => if timeCounts s c && !gangPaused s c g then ({ y with wdCount := y.wdCount + n } : Gang) else y) g

theorem kfind_tickSlots (s : State) (n p i : Nat) (x : Pool) : kfind (tickSlots s n p x) i =
    (kfind x.slots i).map (fun e => if quantumCounts s e then { e with cycles := e.cycles + n * dieMhz s (p / 24) } else e) :=
  kfind_map x.slots 
    (fun (e : SlotEntry) => if quantumCounts s e then ({ e with cycles := e.cycles + n * dieMhz s (p / 24) } : SlotEntry) else e) i

theorem pool_elapse (s : State) (n p : Nat) : pool (elapse s n) p = { pool s p with slots := tickSlots s n p (pool s p) } := by
  have found : kfind (elapse s n).pools p = (kfind s.pools p).map (fun x => { x with slots := tickSlots s n p x }) :=
    kfind_mapKey s.pools (fun p (x : Pool) => ({ x with slots := tickSlots s n p x } : Pool)) p
  simp only [pool, kget, found]
  cases kfind s.pools p <;> rfl

theorem ctxRuns_iff (s : State) (c : Nat) : ctxRuns s c = true ↔ frozenCtx s c = false ∧ suspendedCtx s c = false := by
  simp [ctxRuns]

theorem ctxRuns_elapse (s : State) (n c : Nat) : ctxRuns (elapse s n) c = ctxRuns s c := by
  simp only [ctxRuns, frozenCtx, suspendedCtx, ctx?_elapse]
  cases ctx? s c <;> rfl

theorem mem_of_mem_pool {s : State} {p : Nat} {e : Nat × SlotEntry} (h : e ∈ (pool s p).slots) :
    ∃ x, (p, x) ∈ s.pools ∧ e ∈ x.slots := by
  cases k : kfind s.pools p with
  | none => simp [pool, kget, k, Pool.reset] at h
  | some x => exact ⟨x, kfind_mem k, by simpa [pool, kget, k] using h⟩

/-- An entry that binds hardware context `h` of core `k` is one of its pool's table, valid, and names both. -/
theorem bindingEntry_spec {s : State} {k h : Nat} {e : Nat × SlotEntry} (b : bindingEntry s k h = some e) :
    e ∈ (pool s (k / 16)).slots ∧ e.2.valid = true ∧ e.2.dw0.getLsbD (32 + k % 16) = true ∧ e.2.dw0.getLsbD (16 + h) = true := by
  unfold bindingEntry at b
  split at b
  · cases b
  · have named := List.find?_some b
    simp only [Bool.and_eq_true] at named
    exact ⟨List.mem_of_find?_eq_some b, named.1.1, named.1.2, named.2⟩

theorem bindsCtx_iff (s : State) (c : Nat) :
    bindsCtx s c = true ↔ ∃ k h e, h < 16 ∧ bindingEntry s k h = some e ∧ e.2.ctx = c := by
  constructor
  · intro b
    simp only [bindsCtx, List.any_eq_true, List.mem_range, Bool.and_eq_true, beq_iff_eq] at b
    obtain ⟨p, -, -, -, -, k, -, -, h, lt, -, bound⟩ := b
    split at bound
    · next e found => exact ⟨_, h, e, lt, found, by simpa using bound⟩
    · cases bound
  · rintro ⟨k, h, e, lt, found, rfl⟩
    obtain ⟨mem, valid, core, hw⟩ := bindingEntry_spec found
    obtain ⟨x, pool, slot⟩ := mem_of_mem_pool mem
    simp only [bindsCtx, List.any_eq_true, List.mem_range, Bool.and_eq_true, beq_iff_eq]
    refine ⟨_, pool, e, slot, ⟨valid, rfl⟩, k % 16, Nat.mod_lt _ (by decide), core, h, lt, hw, ?_⟩
    rw [Nat.div_add_mod' k 16, found]
    simp

/-- Whether a thread is parked on a page. -/
theorem parkedPage_iff (y : Thread) :
    (match y.cond with | .parkedPage _ => true | _ => false) = true ↔ ∃ cva, y.cond = .parkedPage cva := by
  split <;> simp_all

theorem gangPaused_iff (s : State) (c g : Nat) : gangPaused s c g = true ↔
    (∃ q ∈ s.threads, hwOf q.1 ≠ 16 ∧ q.2.ctx = c ∧ (task s q.2.task).gid = g ∧ (privOf q.2 = true ∨ ∃ cva, q.2.cond = .parkedPage cva)) ∨
    ∃ x, ctx? s c = some x ∧ ∃ q ∈ x.saved, (task s q.2.task).gid = g ∧ (privOf q.2 = true ∨ ∃ cva, q.2.cond = .parkedPage cva) := by
  simp only [gangPaused, Bool.or_eq_true, List.any_eq_true, Bool.and_eq_true, bne_iff_ne, beq_iff_eq]
  refine or_congr (exists_congr fun q => and_congr_right fun _ => and_assoc.trans ?_) ?_
  · exact and_congr_right fun _ => and_congr_right fun _ => and_congr_right fun _ => or_congr_right (parkedPage_iff q.2)
  · cases ctx? s c with
    | none => simp
    | some x =>
      simp only [List.any_eq_true, Bool.and_eq_true, Bool.or_eq_true, beq_iff_eq, Option.some.injEq, exists_eq_left']
      exact exists_congr fun q => and_congr_right fun _ => and_congr_right fun _ => or_congr_right (parkedPage_iff q.2)

theorem quantumCounts_iff (s : State) (e : SlotEntry) :
    quantumCounts s e = true ↔ e.valid = true ∧ e.quantum ≠ 0 ∧ frozenCtx s e.ctx = false ∧ suspendedCtx s e.ctx = false := by
  simp [quantumCounts, ctxRuns_iff, and_assoc]

theorem quantumCounts_elapse (s : State) (n : Nat) (e : SlotEntry) : quantumCounts (elapse s n) e = quantumCounts s e := by
  simp only [quantumCounts, ctxRuns_elapse]

theorem wdDue_iff (g : Gang) : wdDue g = true ↔ g.wdt ≠ 0 ∧ g.wdt * 1024 ≤ g.wdCount := by simp [wdDue]

theorem deadlineOf_iff (x : Ctx) (t : Nat) : (match deadlineOf x with | some d => decide (d ≤ t) | none => false) = true ↔
    x.suspended = false ∧ x.frozen = none ∧ ∃ a, x.arrears = some a ∧ a + 10 ^ 7 ≤ t := by
  unfold deadlineOf
  cases x.suspended <;> cases x.frozen <;> cases x.arrears <;> simp

theorem sourceFailed_iff (s : State) (d : Nat) :
    sourceFailed s d = true ↔ ∃ r, mapRec s (saRec d) = some r ∧ recLive r = true ∧ r.auxA.testBit 0 = false := by
  unfold sourceFailed
  cases mapRec s (saRec d) <;> simp

theorem mem_dueNow (s : State) (p : Instr × Msg) : p ∈ dueNow s ↔
    (∃ c ∈ s.ctxs, c.2.frozen = none ∧ ∃ g ∈ c.2.gangs, g.2.wdt ≠ 0 ∧ g.2.wdt * 1024 ≤ g.2.wdCount ∧ p = ev .wdog c.1 g.1) ∨
    (∃ q ∈ s.pools, ∃ e ∈ q.2.slots, quantumCounts s e.2 = true ∧ e.2.quantum ≤ e.2.cycles ∧ p = ev .quantumExpiry q.1 e.1) ∨
    (∃ c ∈ s.ctxs, c.2.suspended = false ∧ c.2.frozen = none ∧ (∃ a, c.2.arrears = some a ∧ a + 10 ^ 7 ≤ s.time) ∧
      p = ev .ackDeadline c.1) ∨
    (∃ d r, d < 4 ∧ mapRec s (saRec d) = some r ∧ recLive r = true ∧ r.auxA.testBit 0 = false ∧
      kget s.keeper.retested d 0 + 10 ^ 9 ≤ s.time ∧ p = ev .entropyRetest d 1) := by
  have watchdogs : p ∈ (s.ctxs.filter (fun c => c.2.frozen.isNone)).flatMap (fun c =>
      (c.2.gangs.filter (fun g => wdDue g.2)).map (fun g => ev .wdog c.1 g.1)) ↔
      ∃ c ∈ s.ctxs, c.2.frozen = none ∧ ∃ g ∈ c.2.gangs, g.2.wdt ≠ 0 ∧ g.2.wdt * 1024 ≤ g.2.wdCount ∧ p = ev .wdog c.1 g.1 := by
    simp only [List.mem_flatMap, List.mem_map, List.mem_filter, wdDue_iff, Option.isNone_iff_eq_none, and_assoc, @eq_comm _ _ p]
  have tests : p ∈ ((List.range 4).filter (fun d => sourceFailed s d && decide (retestAt s d ≤ s.time))).map retestMsg ↔
      ∃ d r, d < 4 ∧ mapRec s (saRec d) = some r ∧ recLive r = true ∧ r.auxA.testBit 0 = false ∧
        kget s.keeper.retested d 0 + 10 ^ 9 ≤ s.time ∧ p = ev .entropyRetest d 1 := by
    simp only [List.mem_map, List.mem_filter, List.mem_range, Bool.and_eq_true, sourceFailed_iff, retestAt, retestMsg]
    constructor
    · rintro ⟨d, ⟨lt, ⟨r, found, live, failed⟩, due⟩, rfl⟩
      exact ⟨d, r, lt, found, live, failed, of_decide_eq_true due, rfl⟩
    · rintro ⟨d, r, lt, found, live, failed, due, rfl⟩
      exact ⟨d, ⟨lt, ⟨r, found, live, failed⟩, decide_eq_true due⟩, rfl⟩
  have quanta : p ∈ s.pools.flatMap (fun p => (p.2.slots.filter (fun e => quantumCounts s e.2 && decide (e.2.quantum ≤ e.2.cycles))).map
      (fun e => ev .quantumExpiry p.1 e.1)) ↔
      ∃ q ∈ s.pools, ∃ e ∈ q.2.slots, quantumCounts s e.2 = true ∧ e.2.quantum ≤ e.2.cycles ∧ p = ev .quantumExpiry q.1 e.1 := by
    simp only [List.mem_flatMap, List.mem_map, List.mem_filter, Bool.and_eq_true, decide_eq_true_eq, and_assoc, @eq_comm _ _ p]
  have deadlines : p ∈ (s.ctxs.filter (fun c => match deadlineOf c.2 with | some t => decide (t ≤ s.time) | none => false)).map
      (fun c => ev .ackDeadline c.1) ↔
      ∃ c ∈ s.ctxs, c.2.suspended = false ∧ c.2.frozen = none ∧ (∃ a, c.2.arrears = some a ∧ a + 10 ^ 7 ≤ s.time) ∧
        p = ev .ackDeadline c.1 := by
    constructor
    · intro h
      obtain ⟨c, hc, rfl⟩ := List.mem_map.mp h
      obtain ⟨mem, due⟩ := List.mem_filter.mp hc
      obtain ⟨live, thawed, due⟩ := (deadlineOf_iff c.2 s.time).mp due
      exact ⟨c, mem, live, thawed, due, rfl⟩
    · rintro ⟨c, mem, live, thawed, due, rfl⟩
      exact List.mem_map_of_mem (List.mem_filter.mpr ⟨mem, (deadlineOf_iff c.2 s.time).mpr ⟨live, thawed, due⟩⟩)
  have parts := or_congr (or_congr (or_congr watchdogs tests) quanta) deadlines
  simp only [← List.mem_append] at parts
  refine parts.trans ⟨?_, ?_⟩
  · rintro (((w | r) | q) | d)
    exacts [.inl w, .inr (.inr (.inr r)), .inr (.inl q), .inr (.inr (.inl d))]
  · rintro (w | q | d | r)
    exacts [.inl (.inl (.inl w)), .inl (.inr q), .inr d, .inl (.inl (.inr r))]

/-- What becomes owed as time passes is what is then due and was not owed. -/
theorem owed_elapse (s : State) (n : Nat) :
    (elapse s n).owed = s.owed ++ (dueNow (elapse s n)).filter (fun p => !s.owed.contains p) := rfl

theorem gangCounts_iff (s : State) (c g : Nat) : (timeCounts s c && !gangPaused s c g) = true ↔
    (frozenCtx s c = false ∧ suspendedCtx s c = false) ∧ bindsCtx s c = true ∧ ¬gangPaused s c g = true := by
  simp only [timeCounts, Bool.and_eq_true, ctxRuns_iff, Bool.not_eq_true', Bool.not_eq_true, and_assoc]

theorem eventTurn_of_event (s : State) {e : Instr} (m : Msg) (h : events.contains e = true) :
    eventTurn s e m = exec e { s with msg := m } := if_pos h

/-- Settles O6: turns of engines are `exec` by unfolding `step`; what passing time counts is read off the maps that `elapse` makes. -/
theorem stepRunsEngines : Obligations.StepRunsEngines := by
  refine ⟨fun s e m rest owed n event => ⟨?_, ?_, ?_⟩, fun s n => ?_, fun s off other => ?_, fun s on down => ⟨?_, ?_⟩⟩
  · rintro sched (⟨on, up⟩ | rfl)
    · simp [step, sched, on, up, eventTurn_of_event _ _ event]
    · simp [step, sched, eventTurn_of_event _ _ event]
  · intro on up sched owe
    simp [step, sched, owe, on, up, eventTurn_of_event _ _ event]
  · intro on up sched
    simp [step, sched, on, up]
  · intro t runs bound holds paused counts due
    have hbound (c : Nat) : bindsCtx s c = true ↔ bound c := bindsCtx_iff s c
    have hpaused (c g : Nat) : gangPaused s c g = true ↔ paused c g := gangPaused_iff s c g
    have hcounts (e : SlotEntry) : quantumCounts s e = true ↔ counts e := quantumCounts_iff s e
    have hdue (p : Instr × Msg) : p ∈ dueNow t ↔ due p := by
      have due := mem_dueNow (elapse s n) p
      simp only [quantumCounts_elapse, hcounts] at due
      exact due
    refine ⟨rfl, fun c => ?_, fun c x g y hx hy => ?_, fun p => ?_, fun p i e he => ?_, _, owed_elapse s n, fun p => ?_⟩
    · rw [ctx?_elapse]
      cases ctx? s c <;> rfl
    · refine ⟨{ x with gangs := tickGangs s n c x }, _, by rw [ctx?_elapse, hx]; rfl,
        by rw [kfind_tickGangs, hy]; rfl, fun hr hb hp => if_pos ?_, fun idle => if_neg ?_⟩
      · exact (gangCounts_iff s c g).mpr ⟨hr, (hbound c).mpr hb, fun h => hp ((hpaused c g).mp h)⟩
      · rw [gangCounts_iff, hbound, hpaused]
        exact idle
    · rw [pool_elapse]
    · refine ⟨_, by rw [pool_elapse, kfind_tickSlots, he]; rfl, fun live r hr => ?_, fun idle => if_neg fun h => idle ((hcounts e).mp h)⟩
      rw [if_pos ((hcounts e).mpr live), dieMhz, hr]
    · rw [List.mem_filter, hdue]
      simp
  · simp only [step]
    split
    · next e m rest sched =>
      have : e ≠ .powerGood := fun h => other m rest (h ▸ sched)
      simp [this, off]
    all_goals simp [off]
  · intro sched
    simp [step, sched, on, down]
  · intro t rest sched event prefer
    cases t with
    | event e m =>
      obtain ⟨cold, silent⟩ := event e m rfl
      simp [step, sched, on, down, cold, silent]
    | word a d => simp [step, sched, on, down]
    | elapse n => simp [step, sched, on, down]
    | prefer l => exact absurd rfl (prefer l)

end Sys2Proof.Machine
end

section
/-! RESULT. Permutes and mask words (O42). -/

namespace Sys2Proof.Machine

/-! ### Permutes -/

theorem exec_vcompress (s : State) (f : VFields) : exec (.vcompress f) s = execVcompress f s := rfl
theorem exec_vext (s : State) (f : VFields) : exec (.vext f) s = execVext f s := rfl
theorem exec_mpopc (s : State) (f : VFields) : exec (.mpopc f) s = execMpopc f s := rfl

theorem exec_mfirst (s : State) (f : VFields) : exec (.mfirst f) s = issueV s true [f.s] [] (fun s =>
    advance (setReg s f.s ((maskSet s f).head?.elim (BitVec.allOnes 64) (BitVec.ofNat 64)))) := by
  have lowest (u : State) : (match maskSet u f with | e :: _ => BitVec.ofNat 64 e | [] => BitVec.allOnes 64) =
      (maskSet u f).head?.elim (BitVec.allOnes 64) (BitVec.ofNat 64) := by
    cases maskSet u f <;> rfl
  simp only [← lowest]
  rfl

/-- A word that names fewer registers goes where one that names more does. -/
theorem VecGoes.noRegs {s : State} {held : Bool} {rs : List Reg} {vs : List VReg} (h : VecGoes s held rs vs) :
    VecGoes s held [] vs :=
  { h with regs := by simp [admits, h.onRet] }

/-- Each permute is `permute` of the sources that the form names. -/
theorem exec_permuteForm (s : State) (f : VFields) : ∀ p ∈ permuteForms f, exec p.1 s = permute f p.2.1 p.2.2 s := by
  intro p hp
  simp only [permuteForms, List.mem_cons, List.not_mem_nil, or_false] at hp
  rcases hp with rfl | rfl | rfl | rfl <;> rfl

theorem permute_wrote {s : State} {f : VFields} {vs : List VReg} (r : State → Nat → Option Nat)
    (h : VecGoes s true [f.s] (f.vd :: vs)) : ∃ t, permute f vs r s = .next t ∧
      VecWrote s s t f.vd f.fmt.toNat ((actives (my s) f).filterMap (fun e => (r s e).map (fun v => (e, v)))) id :=
  ⟨_, issueV_goes h _, advance_putElems_wrote s _ _ _ id (fun _ => ⟨rfl, rfl⟩) h.onRet⟩

/-- A barrel thread's word that changes its thread's record, and not the hart of it, writes a register and goes on. -/
theorem advance_setReg_modMy_retired {s : State} (d : Reg) (v : Word) (f : Thread → Thread)
    (hf : ∀ x, (f x).hart = x.hart ∧ (f x).instret = x.instret) (ht : onRet s = false) :
    Retired s s (advance (setReg (modMy s f) d v)) { reg := some (d, v), seg := none, pc := pcOf s + 8, thread := f } := by
  cases hc : s.cur with
  | ret n => simp [onRet, hc] at ht
  | thread n =>
    have e : advance (setReg (modMy s f) d v) = setThr s n { f (thr s n) with
        hart := { (thr s n).hart.set d v with pc := (thr s n).hart.pc + 8 }, instret := (thr s n).instret + 1, cond := .ready } := by
      rw [advance_setReg_eq, retire_modHart_thread _ n _ (by simp [hc])]
      simp [modMy, me, hc, modThr, thr_setThr, hf]
      simp [setThr]
    rw [e]
    refine ⟨by simp [setThr], ?_, ?_, ?_, ?_, ?_, ?_, ?_⟩
    · intro j hj; simp [me, hc] at hj; simp [setThr, kfind_kset_ne _ _ hj]
    · intro j _; simp [setThr]
    · simp [my, me, hc, thr_setThr, hart]
    · intro m hm; simp [hc] at hm
    · intro r
      have k := Hart.get_set (thr s n).hart d r v
      simp only [Hart.get] at k
      simpa [reg, hart, hc, thr_setThr, Hart.get] using k
    · intro g; simp [seg, hart, hc, thr_setThr]
    · simp [pcOf, hart, hc, thr_setThr]

/-- A vector word that writes elements of a register and a scalar register. -/
theorem advance_setReg_putElems_wrote {s : State} (d : Reg) (v : Word) (fmt : Nat) (r : VReg) (l : List (Nat × Nat))
    (ht : onRet s = false) : ∃ t, advance (setReg (modMy s (putElems fmt r · l)) d v) = t ∧ BytesKept s t ∧
      ElemsSet (my s) (my t) r fmt l ∧
      Retired s s t { reg := some (d, v), seg := none, pc := pcOf s + 8, thread := fun x => { x with slots := (my t).slots } } := by
  have kept (x : Thread) : (putElems fmt r x l).hart = x.hart ∧ (putElems fmt r x l).instret = x.instret := by
    rw [putElems_eq]; exact ⟨rfl, rfl⟩
  have done := advance_setReg_modMy_retired d v (putElems fmt r · l) kept ht
  generalize e : advance (setReg (modMy s (putElems fmt r · l)) d v) = t at done
  have bytes : BytesKept s t := e ▸ (sameBytes_of (by simp) (by simp) (by simp)).bytesKept
  obtain ⟨rest, threads, rets, mine, ret, regs, segs, pc⟩ := done
  cases hc : s.cur with
  | ret n => simp [onRet, hc] at ht
  | thread n =>
    simp only [hc] at mine
    have slots : (my t).slots = (putElems fmt r (my s) l).slots := by rw [mine]
    have set := putElems_set fmt r (my s) l
    refine ⟨t, rfl, bytes, ?_, rest, threads, rets, ?_, ret, regs, segs, pc⟩
    · rw [mine]
      exact ⟨set.slots, set.elems, set.others, set.masks, set.draws⟩
    · simp only [hc, slots]
      conv_lhs => rw [mine, putElems_eq]

/-! ### Mask words -/

theorem exec_maskForm (s : State) (f : VFields) : ∀ p ∈ maskForms f, exec p.1 s = maskLogic f p.2 s := by
  intro p hp
  simp only [maskForms, List.mem_cons, List.not_mem_nil, or_false] at hp
  rcases hp with rfl | rfl | rfl | rfl <;> rfl

/-- What a mask word makes of its thread. -/
def maskPut (f : VFields) (op : Byte → Byte → Byte) (x : Thread) : Thread :=
  { x with slots := x.slots.mapIdx (fun j sl => if j < x.vl then
      { sl with m := sl.m.set! f.vd.toNat (op (sl.m.toList.getD f.va.toNat 0) (sl.m.toList.getD f.vb.toNat 0)) } else sl) }

theorem maskLogic_eq (s : State) (f : VFields) (op : Byte → Byte → Byte) :
    maskLogic f op s = issueV s true [] [] (fun s => advance (modMy s (maskPut f op))) := rfl

theorem map_maskPut {α : Type} (f : VFields) (op : Byte → Byte → Byte) (x : Thread) (g : Slice → α)
    (hg : ∀ sl m, g { sl with m := m } = g sl) : (maskPut f op x).slots.map g = x.slots.map g := by
  apply List.ext_getElem?
  intro j
  simp only [maskPut, List.getElem?_map, List.getElem?_mapIdx, Option.map_map]
  congr 1; funext sl
  simp only [Function.comp]
  split
  · exact hg _ _
  · rfl

/-- A byte of a mask that a mask word leaves. -/
theorem maskByte_maskPut (f : VFields) (op : Byte → Byte → Byte) (x : Thread) (k : VReg) {j : Nat} (hd : f.vd.toNat < 8)
    (hj : j < x.slots.length) : maskByte (maskPut f op x) k j =
      if k = f.vd ∧ j < x.vl then op (maskByte x f.va j) (maskByte x f.vb j) else maskByte x k j := by
  simp only [maskByte, maskPut, List.getElem?_mapIdx, List.getElem?_eq_getElem hj, Option.map_some]
  by_cases lt : j < x.vl
  · simp only [lt, if_true, and_true, toList_getD_set _ _ _ _ hd, BitVec.toNat_inj]
  · simp [lt]

theorem maskLogic_wrote {s : State} {f : VFields} (op : Byte → Byte → Byte) (h : VecGoes s true [] []) (hd : f.vd.toNat < 8) :
    ∃ t, maskLogic f op s = .next t ∧ ChangedOwn s t (fun x => { x with slots := (my t).slots }) ∧
      (my t).slots.map (·.v) = (my s).slots.map (·.v) ∧ (my t).slots.map (·.rst) = (my s).slots.map (·.rst) ∧
      ∀ (k : VReg) (j : Nat), j < (my s).slots.length → maskByte (my t) k j =
        if k = f.vd ∧ j < (my s).vl then op (maskByte (my s) f.va j) (maskByte (my s) f.vb j) else maskByte (my s) k j := by
  obtain ⟨done, bytes⟩ := advance_modMy_changed s (maskPut f op) (fun _ => ⟨rfl, rfl⟩)
  have went : maskLogic f op s = .next (advance (modMy s (maskPut f op))) := issueV_goes h _
  generalize advance (modMy s (maskPut f op)) = t at done bytes went
  obtain ⟨rest, threads, rets, mine, ret, regs, segs, pc⟩ := done
  cases hc : s.cur with
  | ret n => exact absurd h.onRet (by simp [onRet, hc])
  | thread n =>
    simp only [hc, Effect.own] at mine
    have slots : (my t).slots = (maskPut f op (my s)).slots := by rw [mine]
    refine ⟨t, went, ⟨⟨rest, threads, rets, ?_, ret, regs, segs, pc⟩, bytes⟩, ?_, ?_, fun k j hj => ?_⟩
    · simp only [hc, Effect.own, slots]
      rw [mine]
      rfl
    · rw [slots]; exact map_maskPut f op _ _ (fun _ _ => rfl)
    · rw [slots]; exact map_maskPut f op _ _ (fun _ _ => rfl)
    · have same : maskByte (my t) k j = maskByte (maskPut f op (my s)) k j := by simp only [maskByte, slots]
      rw [same, maskByte_maskPut f op _ k hd hj]

/-- Settles O42: a permute writes what its form names, a mask word changes the bytes of one mask slot by slot. -/
theorem permutesAndMasks : Obligations.PermutesAndMasks := by
  refine ⟨fun s f => ⟨fun ill => ⟨fun p hp => ?_, fun i hi => ?_⟩, fun ill => ?_, fun ill p hp => ?_⟩,
    fun s f => ⟨fun p hp goes => ?_, fun goes => ?_, fun goes => ?_⟩,
    fun s f goes => ⟨fun p hp hd _ _ => ?_, ?_, ?_⟩⟩
  · rw [exec_permuteForm s f p hp]
    exact issueV_ill _ ill _
  · simp only [List.mem_cons, List.not_mem_nil, or_false] at hi
    rcases hi with rfl | rfl | rfl
    · exact (exec_vcompress s f).trans (issueV_ill _ ill _)
    · exact (exec_mpopc s f).trans (issueV_ill _ ill _)
    · exact (exec_mfirst s f).trans (issueV_ill _ ill _)
  · exact (exec_vext s f).trans (issueV_ill _ ill _)
  · rw [exec_maskForm s f p hp]
    exact issueV_ill _ ill _
  · rw [exec_permuteForm s f p hp]
    exact permute_wrote _ goes
  · obtain ⟨t, e, done⟩ := advance_setReg_putElems_wrote f.s _ f.fmt.toNat f.vd _ goes.onRet
    exact ⟨t, (exec_vcompress s f).trans ((issueV_goes goes _).trans (congrArg _ e)), done⟩
  · exact ⟨_, (exec_vext s f).trans (issueV_goes goes _), advance_setReg_wrote ..⟩
  · rw [exec_maskForm s f p hp]
    obtain ⟨t, e, own, regs, draws, bytes⟩ := maskLogic_wrote p.2 goes.noRegs hd
    exact ⟨t, e, own, regs, draws, fun k j hj _ => bytes k j hj⟩
  · exact ⟨_, (exec_mpopc s f).trans (issueV_goes goes _), advance_setReg_wrote ..⟩
  · exact ⟨_, (exec_mfirst s f).trans (issueV_goes goes _), advance_setReg_wrote ..⟩

end Sys2Proof.Machine
end

section
/-! RESULT. Units and the map (O57): a clause that fails where a thread is listed twice. -/

namespace Sys2Proof.Machine

/-- The part at reset with a thread list that names thread 0 twice: `kfind` finds the first entry, while the loss of lane 0 finds a slice
in the second and writes that one's record back under the number. -/
def twiceListed : State :=
  { State.reset with threads := [(0, { Thread.start with vceil := 1 }), (0, { Thread.start with lanes := [0] })] }

/-- The lane of the slice is live and its group has its parity lane. -/
theorem twiceListed_lane : laneLive twiceListed 0 0 = true ∧ groupProtected twiceListed 0 0 = true ∧
    (mapRec twiceListed 6144).map (·.kind) = some 0x05 := by decide +kernel

/-- The error of the lane changes thread 0's VCEIL. -/
theorem twiceListed_vceil : (kfind (laneErrors twiceListed 0 [0] false).threads 0).map (·.vceil) = some 0 ∧
    (kfind twiceListed.threads 0).map (·.vceil) = some 1 := by decide +kernel

/-- Refutes O57, by its clause on lanes that err in a group with parity, which has them change at most the lanes, the owed slots and the
placing of what `kfind` gives for each thread, in every state without matrix words and waiting reports: the thread list of
`twiceListed` names a thread twice. The clause needs lists of threads that name each thread once. -/
theorem not_unitsAndMap : ¬ Obligations.UnitsAndMap := by
  intro h
  obtain ⟨-, -, -, erring, -⟩ := h
  obtain ⟨live, parity, kind⟩ := twiceListed_lane
  obtain ⟨after, before⟩ := twiceListed_vceil
  have queues : ∀ q ∈ twiceListed.threads, q.2.mqueue = [] := by decide +kernel
  have kinds : ∀ r, mapRec twiceListed 6144 = some r → r.kind = 0x05 := fun r e => by simpa [e] using kind
  obtain ⟨-, lost⟩ := erring twiceListed 0 0 false queues rfl kinds
  obtain ⟨-, kept, -⟩ := lost live
  rw [kept 0 parity, Option.map_map] at after
  exact absurd (before.symm.trans after) (by decide)

end Sys2Proof.Machine
end

section
/-! SUPPORT. A context bound anew in a pool: its pages, its window of the LSP and its barriers. -/

namespace Sys2Proof.Machine

/-! ### Folds -/

/-- What every step of a fold leaves as it was, the fold leaves. -/
theorem foldl_keeps {σ α β : Type} {f : σ → α → σ} (g : σ → β) (h : ∀ s x, g (f s x) = g s) (l : List α) (s : σ) :
    g (l.foldl f s) = g s := by
  induction l generalizing s with
  | nil => rfl
  | cons x r ih => rw [List.foldl_cons, ih, h]

/-- What every step of a fold keeps holds at its end. -/
theorem foldl_invariant {σ α : Type} {f : σ → α → σ} (P : σ → Prop) (l : List α) (keep : ∀ b, ∀ x ∈ l, P b → P (f b x)) (b : σ)
    (h : P b) : P (l.foldl f b) := by
  induction l generalizing b with
  | nil => exact h
  | cons x r ih => exact ih (fun b y hy => keep b y (List.mem_cons_of_mem _ hy)) _ (keep b x List.mem_cons_self h)

/-- What one element of a fold brings about where it is reached, and every step keeps. -/
theorem foldl_establishes {σ α : Type} {f : σ → α → σ} {P Q : σ → Prop} {a : α} {l : List α}
    (keepP : ∀ b, ∀ x ∈ l, P b → P (f b x))
    (hit : ∀ b, P b → Q (f b a)) (keepQ : ∀ b, ∀ x ∈ l, Q b → Q (f b x)) (b : σ) (ha : a ∈ l) (hb : P b) : Q (l.foldl f b) := by
  obtain ⟨before, after, rfl⟩ := List.append_of_mem ha
  rw [List.foldl_append, List.foldl_cons]
  refine foldl_invariant Q after (fun b x hx => keepQ b x (by simp [hx])) _ (hit _ ?_)
  exact foldl_invariant P before (fun b x hx => keepP b x (by simp [hx])) b hb

/-- The same where the other elements of a list without duplicates keep both. -/
theorem foldl_establishes_once {σ α : Type} {f : σ → α → σ} {P Q : σ → Prop} {a : α} {l : List α} (nodup : l.Nodup)
    (keepP : ∀ b, ∀ x ∈ l, x ≠ a → P b → P (f b x)) (hit : ∀ b, P b → Q (f b a))
    (keepQ : ∀ b, ∀ x ∈ l, x ≠ a → Q b → Q (f b x)) (b : σ) (ha : a ∈ l) (hb : P b) : Q (l.foldl f b) := by
  obtain ⟨before, after, rfl⟩ := List.append_of_mem ha
  obtain ⟨-, fresh, disjoint⟩ := List.nodup_append.mp nodup
  obtain ⟨fresh, -⟩ := List.nodup_cons.mp fresh
  rw [List.foldl_append, List.foldl_cons]
  refine foldl_invariant Q after (fun b x hx => keepQ b x (by simp [hx]) fun e => fresh (e ▸ hx)) _ (hit _ ?_)
  exact foldl_invariant P before (fun b x hx => keepP b x (by simp [hx]) (disjoint x hx a List.mem_cons_self)) b hb

/-! ### Page tables -/

/-- Two states differ at most in page-table entries and in the place of the next table. -/
def PagesOnly (s t : State) : Prop := ∃ pt n, t = { s with pt := pt, keeper := { s.keeper with table := n } }

theorem PagesOnly.refl (s : State) : PagesOnly s s := ⟨_, _, rfl⟩

theorem PagesOnly.trans {s t u : State} (h : PagesOnly s t) (k : PagesOnly t u) : PagesOnly s u := by
  obtain ⟨_, _, rfl⟩ := h
  obtain ⟨_, _, rfl⟩ := k
  exact ⟨_, _, rfl⟩

theorem PagesOnly.foldl {α : Type} {f : State → α → State} (h : ∀ s x, PagesOnly s (f s x)) (l : List α) (s : State) :
    PagesOnly s (l.foldl f s) := by
  induction l generalizing s with
  | nil => exact .refl s
  | cons x r ih => exact (h s x).trans (ih _)

theorem leafSlot_pages (cva : Nat) (l : List Nat) (table : Nat) (s : State) : PagesOnly s (leafSlot cva l table s).2 := by
  induction l generalizing table s with
  | nil => exact .refl s
  | cons sh r ih =>
    simp only [leafSlot]
    split
    · exact ih _ s
    · exact .trans ⟨_, _, rfl⟩ (ih _ _)

theorem setLeaf_pages (s : State) (root cva : Nat) (e : Word) : PagesOnly s (setLeaf s root cva e) :=
  (leafSlot_pages cva [39, 30, 21] root s).trans ⟨_, _, rfl⟩

theorem mapPages_pages (s : State) (c cva pa n : Nat) (kind : BitVec 2) (w r : Bool) : PagesOnly s (mapPages s c cva pa n kind w r) :=
  .foldl (fun _ _ => setLeaf_pages ..) _ s

theorem unmapPages_pages (s : State) (c cva n : Nat) : PagesOnly s (unmapPages s c cva n) :=
  .foldl (fun _ _ => setLeaf_pages ..) _ s

/-! ### A table in force -/

/-- What putting a pool's slot table in force may change before anything is owed: page tables, memory, the pool's barriers, what contexts keep
of barriers and of saved threads' windows, and threads' windows. -/
structure Rebinds (p : Nat) (s t : State) : Prop where
  rest : ∃ pt n mem pools ctxs threads, t = { s with
    pt := pt, keeper := { s.keeper with table := n }, mem := mem, pools := pools, ctxs := ctxs, threads := threads }
  threads : ∀ n, (kfind t.threads n).map (fun x => { x with window := none }) =
    (kfind s.threads n).map (fun x => { x with window := none })
  pools : ∀ q, q ≠ p → pool t q = pool s q
  slots : (pool t p).slots = (pool s p).slots
  unbinding : ∀ c, (ctx? t c).map (·.unbinding) = (ctx? s c).map (·.unbinding)

theorem Rebinds.refl (p : Nat) (s : State) : Rebinds p s s :=
  ⟨⟨_, _, _, _, _, _, rfl⟩, fun _ => rfl, fun _ _ => rfl, rfl, fun _ => rfl⟩

theorem Rebinds.trans {p : Nat} {s t u : State} (h : Rebinds p s t) (k : Rebinds p t u) : Rebinds p s u := by
  refine ⟨?_, fun n => (k.threads n).trans (h.threads n), fun q hq => (k.pools q hq).trans (h.pools q hq),
    k.slots.trans h.slots, fun c => (k.unbinding c).trans (h.unbinding c)⟩
  obtain ⟨_, _, _, _, _, _, e⟩ := h.rest
  obtain ⟨_, _, _, _, _, _, e'⟩ := k.rest
  rw [e', e]
  exact ⟨_, _, _, _, _, _, rfl⟩

theorem Rebinds.foldl {α : Type} {p : Nat} {f : State → α → State} (h : ∀ s x, Rebinds p s (f s x)) (l : List α) (s : State) :
    Rebinds p s (l.foldl f s) := by
  induction l generalizing s with
  | nil => exact .refl p s
  | cons x r ih => exact (h s x).trans (ih _)

theorem PagesOnly.rebinds {s t : State} (h : PagesOnly s t) (p : Nat) : Rebinds p s t := by
  obtain ⟨_, _, rfl⟩ := h
  exact ⟨⟨_, _, _, _, _, _, rfl⟩, fun _ => rfl, fun _ _ => rfl, rfl, fun _ => rfl⟩

theorem Rebinds.mem (p : Nat) (s : State) (m : Memory) : Rebinds p s { s with mem := m } :=
  ⟨⟨_, _, _, _, _, _, rfl⟩, fun _ => rfl, fun _ _ => rfl, rfl, fun _ => rfl⟩

theorem setBarrier_rebinds (s : State) (p k : Nat) (b : Barrier) : Rebinds p s (setBarrier s p k b) := by
  refine ⟨⟨_, _, _, _, _, _, rfl⟩, fun _ => rfl, fun q hq => ?_, ?_, fun _ => rfl⟩
  · simp [setBarrier, pool_modPool, hq]
  · simp [setBarrier, pool_modPool]

theorem modCtx_only (s : State) (c : Nat) (f : Ctx → Ctx) : ∃ ctxs, modCtx s c f = { s with ctxs := ctxs } := by
  unfold modCtx
  split
  · exact ⟨_, rfl⟩
  · exact ⟨_, rfl⟩

theorem modCtx_rebinds (s : State) (p c : Nat) (f : Ctx → Ctx) (hf : ∀ x, (f x).unbinding = x.unbinding) :
    Rebinds p s (modCtx s c f) := by
  refine ⟨?_, fun _ => by simp, fun q _ => by simp [pool], by simp [pool], fun j => ?_⟩
  · obtain ⟨_, e⟩ := modCtx_only s c f
    exact ⟨_, _, _, _, _, _, e⟩
  · rw [ctx_modCtx]
    split
    · next e =>
      subst e
      cases ctx? s j <;> simp [hf]
    · rfl

/-- A thread of context `c` whose barrier window was that of pool `q`: it is that of pool `p`. -/
def windowTo (c q p : Nat) (y : Thread) : Thread := if y.ctx = c && y.window = some q then { y with window := some p } else y

/-- The barrier window of a context in a pool, every field zero. -/
def zeroWindow (s : State) (p c : Nat) : State :=
  (List.range (sbWindow s p c).2).foldl (fun t n => setBarrier t p ((sbWindow s p c).1 + n) Barrier.zero) s

/-- Barriers that were saved, in a window of a pool. -/
def restoreWindow (s : State) (p : Nat) (w : Nat × Nat) (l : KMap Barrier) : State :=
  l.foldl (fun s b => if b.1 < w.2 then setBarrier s p (w.1 + b.1) b.2 else s) s

/-- The window that context `c` had kept of pool `q` is that of pool `p`. -/
def moveWindow (s : State) (c q p : Nat) : State :=
  let t := modCtx s c (fun x => { x with
    savedBarriers := kdel x.savedBarriers q, saved := x.saved.map (fun y => (y.1, windowTo c q p y.2)) })
  { t with threads := t.threads.map (fun y => (y.1, windowTo c q p y.2)) }

theorem windowTo_window (c q p : Nat) (y : Thread) : { windowTo c q p y with window := none } = { y with window := none } := by
  unfold windowTo
  split
  · rfl
  · rfl

theorem zeroWindow_rebinds (s : State) (p c : Nat) : Rebinds p s (zeroWindow s p c) :=
  .foldl (fun s _ => setBarrier_rebinds s ..) _ s

theorem restoreWindow_rebinds (s : State) (p : Nat) (w : Nat × Nat) (l : KMap Barrier) : Rebinds p s (restoreWindow s p w l) := by
  refine .foldl (fun s b => ?_) l s
  split
  · exact setBarrier_rebinds ..
  · exact .refl p s

@[simp] theorem moveWindow_threads (s : State) (c q p : Nat) :
    (moveWindow s c q p).threads = s.threads.map (fun y => (y.1, windowTo c q p y.2)) := by simp [moveWindow]

theorem moveWindow_rebinds (s : State) (c q p : Nat) : Rebinds p s (moveWindow s c q p) := by
  obtain ⟨⟨_, _, _, _, _, _, e⟩, -, pools, slots, unbinding⟩ := modCtx_rebinds s p c (fun x => { x with
    savedBarriers := kdel x.savedBarriers q, saved := x.saved.map (fun y => (y.1, windowTo c q p y.2)) }) fun _ => rfl
  refine ⟨⟨_, _, _, _, _, _, by rw [moveWindow, e]⟩, fun n => ?_, pools, slots, unbinding⟩
  rw [moveWindow_threads, kfind_map, Option.map_map]
  exact congrArg (Option.map · _) (funext (windowTo_window c q p))

/-- Binding a window: zeros, and then what the context kept of this pool, or of another where it kept none of this one. -/
theorem bindWindow_cases (s : State) (p c : Nat) :
    (bindWindow s p c = zeroWindow s p c ∧ ∀ x, ctx? s c = some x → x.savedBarriers = []) ∨
      ∃ x q l, ctx? s c = some x ∧ x.savedBarriers ≠ [] ∧ (∀ l', kfind x.savedBarriers p = some l' → l' = l) ∧
        bindWindow s p c = moveWindow (restoreWindow (zeroWindow s p c) p (sbWindow s p c) l) c q p := by
  have same : ctx? (zeroWindow s p c) c = ctx? s c := by
    rw [zeroWindow, foldl_keeps (fun s => ctx? s c) (f := fun t n => setBarrier t p ((sbWindow s p c).1 + n) Barrier.zero) fun _ _ => rfl]
  unfold bindWindow
  dsimp only
  split
  · next h =>
    exact .inl ⟨rfl, fun x e => by rw [← same] at e; exact nomatch h.symm.trans e⟩
  · next x h =>
    have hx : ctx? s c = some x := same ▸ h
    split
    · next none =>
      refine .inl ⟨rfl, fun y e => ?_⟩
      cases hx.symm.trans e
      split at none
      · cases none
      · exact List.head?_eq_none_iff.mp none
    · next q l some =>
      refine .inr ⟨x, q, l, hx, fun e => ?_, fun l' e => ?_, rfl⟩
      · simp [e] at some
      · rw [e] at some
        cases some
        rfl

theorem bindWindow_rebinds (s : State) (p c : Nat) : Rebinds p s (bindWindow s p c) := by
  rcases bindWindow_cases s p c with ⟨e, -⟩ | ⟨_, _, _, -, -, -, e⟩
  · exact e ▸ zeroWindow_rebinds s p c
  · exact e ▸ ((zeroWindow_rebinds s p c).trans (restoreWindow_rebinds ..)).trans (moveWindow_rebinds ..)

/-! ### One context bound anew -/

/-- The pages of a context's apertures as its pool's table goes from that of `o` to that of `t`. -/
def remapApertures (o t : State) (p c : Nat) : State :=
  let old := (apertures o p c).filter (fun r => !(movedCvas o c).contains r.1)
  let new := (apertures t p c).filter (fun r => !(movedCvas o c).contains r.1)
  if old = new then t else
    new.foldl (fun t r => mapPages t c r.1 r.2.1 r.2.2 1 true true)
      (old.foldl (fun t r => unmapPages t c r.1 r.2.2) t)

/-- A context's new window of the LSP, zeros in it. -/
def zeroLsp (t : State) (p : Nat) (w : Nat × Nat) : State := { t with mem := t.mem.zero (lspPa p (w.1 * 4096)) (w.2 * 4096) }

/-- What a context keeps of its barrier window, as the window goes. -/
def keepWindow (o t : State) (p c : Nat) : State :=
  if (windowState o p c).isEmpty then t
  else modCtx t c (fun x => { x with savedBarriers := kset x.savedBarriers p (windowState o p c) })

/-- A context's pages and its window of the LSP as it is bound anew. -/
def rebindLsp (o t : State) (p c : Nat) : State :=
  if winOf o p c = winOf t p c then remapApertures o t p c else zeroLsp (remapApertures o t p c) p (winOf t p c)

theorem rebindCtx_eq (o t : State) (p c : Nat) : rebindCtx o t p c =
    if sbWindow o p c = sbWindow t p c then rebindLsp o t p c
    else if (sbWindow t p c).2 = 0 then keepWindow o (rebindLsp o t p c) p c
    else bindWindow (keepWindow o (rebindLsp o t p c) p c) p c := rfl

theorem remapApertures_pages (o t : State) (p c : Nat) : PagesOnly t (remapApertures o t p c) := by
  unfold remapApertures
  dsimp only
  split
  · exact .refl t
  · exact (PagesOnly.foldl (fun _ _ => unmapPages_pages ..) _ t).trans (.foldl (fun _ _ => mapPages_pages ..) _ _)

theorem rebindLsp_rebinds (o t : State) (p c : Nat) : Rebinds p t (rebindLsp o t p c) := by
  have pages := (remapApertures_pages o t p c).rebinds p
  unfold rebindLsp
  split
  · exact pages
  · exact pages.trans (.mem p _ _)

theorem keepWindow_rebinds (o t : State) (p c : Nat) : Rebinds p t (keepWindow o t p c) := by
  unfold keepWindow
  split
  · exact .refl p t
  · exact modCtx_rebinds _ _ _ _ fun _ => rfl

theorem rebindCtx_rebinds (o t : State) (p c : Nat) : Rebinds p t (rebindCtx o t p c) := by
  have lsp := rebindLsp_rebinds o t p c
  have kept := lsp.trans (keepWindow_rebinds o _ p c)
  rw [rebindCtx_eq]
  split
  · exact lsp
  · split
    · exact kept
    · exact kept.trans (bindWindow_rebinds ..)

/-! ### What a table in force leaves as it was -/

theorem Rebinds.entries {p : Nat} {s t : State} (r : Rebinds p s t) (q : Nat) : entries t q = entries s q := by
  unfold Machine.entries
  by_cases h : q = p
  · rw [h, r.slots]
  · rw [r.pools q h]

theorem Rebinds.bindingEntry {p : Nat} {s t : State} (r : Rebinds p s t) (k h : Nat) : bindingEntry t k h = bindingEntry s k h := by
  unfold Machine.bindingEntry
  rw [r.entries]
  obtain ⟨_, _, _, _, _, _, e⟩ := r.rest
  rw [e]
  rfl

theorem entryOf_congr {s t : State} {p : Nat} (h : (pool t p).slots = (pool s p).slots) (c : Nat) : entryOf t p c = entryOf s p c := by
  simp only [entryOf, entries, h]

theorem winOf_congr {s t : State} {p : Nat} (h : (pool t p).slots = (pool s p).slots) (c : Nat) : winOf t p c = winOf s p c := by
  simp only [winOf, entryOf_congr h]

theorem sbWindow_congr {s t : State} {p : Nat} (h : (pool t p).slots = (pool s p).slots) (c : Nat) :
    sbWindow t p c = sbWindow s p c := by
  simp only [sbWindow, entryOf_congr h]

/-! ### Memory as a context is bound anew -/

theorem PagesOnly.mem {s t : State} (h : PagesOnly s t) : t.mem = s.mem := by
  obtain ⟨_, _, rfl⟩ := h
  rfl

@[simp] theorem keepWindow_mem (o t : State) (p c : Nat) : (keepWindow o t p c).mem = t.mem := by
  unfold keepWindow
  split <;> simp

theorem rebindCtx_zeros (o t : State) (p c : Nat) : (rebindCtx o t p c).mem =
    if winOf o p c = winOf t p c then t.mem else t.mem.zero (lspPa p ((winOf t p c).1 * 4096)) ((winOf t p c).2 * 4096) := by
  have lsp : (rebindCtx o t p c).mem = (rebindLsp o t p c).mem := by
    rw [rebindCtx_eq]
    split
    · rfl
    · split <;> simp
  rw [lsp, rebindLsp]
  split
  · exact (remapApertures_pages ..).mem
  · exact congrArg (Memory.zero · _ _) (remapApertures_pages o t p c).mem

/-! ### Barriers as a context is bound anew -/

theorem barrier_setBarrier (s : State) (p k j : Nat) (b : Barrier) :
    barrier (setBarrier s p k b) p j = if j = k then b else barrier s p j := by
  simp [barrier, setBarrier, pool_modPool, kget_kset]

theorem PagesOnly.barrier {s t : State} (h : PagesOnly s t) (p n : Nat) : barrier t p n = barrier s p n := by
  obtain ⟨_, _, rfl⟩ := h
  rfl

@[simp] theorem rebindLsp_barrier (o t : State) (p c n : Nat) : barrier (rebindLsp o t p c) p n = barrier t p n := by
  have pages := (remapApertures_pages o t p c).barrier p n
  unfold rebindLsp
  split
  · exact pages
  · exact pages

theorem barrier_modCtx (s : State) (c p n : Nat) (f : Ctx → Ctx) : barrier (modCtx s c f) p n = barrier s p n := by
  simp [barrier, pool]

@[simp] theorem keepWindow_barrier (o t : State) (p c n : Nat) : barrier (keepWindow o t p c) p n = barrier t p n := by
  unfold keepWindow
  split
  · rfl
  · exact barrier_modCtx ..

@[simp] theorem moveWindow_barrier (s : State) (c q p i n : Nat) : barrier (moveWindow s c q p) i n = barrier s i n :=
  barrier_modCtx ..

/-- A barrier that stands in no part of a window. -/
def Outside (w : Nat × Nat) (n : Nat) : Prop := n < w.1 ∨ w.1 + w.2 ≤ n

theorem zeroWindow_outside (s : State) {p c n : Nat} (h : Outside (sbWindow s p c) n) :
    barrier (zeroWindow s p c) p n = barrier s p n := by
  refine foldl_invariant (fun t => barrier t p n = barrier s p n) _ (fun t i hi h' => ?_) s rfl
  have lt := List.mem_range.mp hi
  rw [barrier_setBarrier, if_neg, h']
  unfold Outside at h
  omega

theorem zeroWindow_inside (s : State) {p c n : Nat} (h : n < (sbWindow s p c).2) :
    barrier (zeroWindow s p c) p ((sbWindow s p c).1 + n) = Barrier.zero := by
  refine foldl_establishes (P := fun _ => True) (Q := fun t => barrier t p ((sbWindow s p c).1 + n) = Barrier.zero) (a := n)
    (fun _ _ _ _ => trivial) (fun t _ => ?_) (fun t i _ ht => ?_) s (List.mem_range.mpr h) trivial
  · simp [barrier_setBarrier]
  · rw [barrier_setBarrier]
    split
    · rfl
    · exact ht

theorem restoreWindow_outside (s : State) {p n : Nat} {w : Nat × Nat} (l : KMap Barrier) (h : Outside w n) :
    barrier (restoreWindow s p w l) p n = barrier s p n := by
  refine foldl_keeps (fun t => barrier t p n) (fun t b => ?_) l s
  split
  · rw [barrier_setBarrier, if_neg]
    unfold Outside at h
    omega
  · rfl

theorem restoreWindow_inside (s : State) {p n : Nat} {w : Nat × Nat} {l : KMap Barrier} {b : Barrier} (rising : krising l = true)
    (found : kfind l n = some b) (lt : n < w.2) : barrier (restoreWindow s p w l) p (w.1 + n) = b := by
  have distinct : (l.map (·.1)).Nodup := ((krising_iff l).mp rising).imp (fun h => Nat.ne_of_lt h)
  have only (x : Nat × Barrier) (hx : x ∈ l) (e : x.1 = n) : x = (n, b) :=
    List.inj_on_of_nodup_map distinct hx (kfind_mem found) e
  refine foldl_establishes_once (P := fun _ => True) (Q := fun t => barrier t p (w.1 + n) = b) (a := (n, b))
    (List.Nodup.of_map _ distinct) (fun _ _ _ _ _ => trivial) (fun t _ => ?_) (fun t x hx ne ht => ?_) s (kfind_mem found) trivial
  · simp [lt, barrier_setBarrier]
  · split
    · rw [barrier_setBarrier, if_neg fun e => ne (only x hx (by omega))]
      exact ht
    · exact ht

theorem bindWindow_outside (s : State) {p c n : Nat} (h : Outside (sbWindow s p c) n) :
    barrier (bindWindow s p c) p n = barrier s p n := by
  rcases bindWindow_cases s p c with ⟨e, -⟩ | ⟨_, _, l, -, -, -, e⟩
  · rw [e, zeroWindow_outside s h]
  · rw [e, moveWindow_barrier, restoreWindow_outside _ l h, zeroWindow_outside s h]

/-- What stands in the window of a context newly bound: zeros, or what was saved of this pool. -/
def FreshWindow (x : Ctx) (t : State) (p c n : Nat) : Prop :=
  (x.savedBarriers = [] → barrier t p ((sbWindow t p c).1 + n) = Barrier.zero) ∧
    ∀ l b, kfind x.savedBarriers p = some l → krising l = true → kfind l n = some b → barrier t p ((sbWindow t p c).1 + n) = b

theorem bindWindow_inside (s : State) {p c n : Nat} {x : Ctx} (hx : ctx? s c = some x) (lt : n < (sbWindow s p c).2) :
    FreshWindow x (bindWindow s p c) p c n := by
  have window := sbWindow_congr (bindWindow_rebinds s p c).slots c
  rw [FreshWindow, window]
  rcases bindWindow_cases s p c with ⟨e, none⟩ | ⟨y, q, l, hy, some, only, e⟩
  · refine ⟨fun _ => by rw [e, zeroWindow_inside s lt], fun l b found => ?_⟩
    simp [none x hx] at found
  · cases hx.symm.trans hy
    refine ⟨fun h => absurd h some, fun l' b found rising hb => ?_⟩
    cases only l' found
    rw [e, moveWindow_barrier, restoreWindow_inside _ rising hb lt]

end Sys2Proof.Machine
end

section
/-! SUPPORT. A slot table in force: what it keeps, what it zeroes, marks and owes. -/

namespace Sys2Proof.Machine

theorem rebindCtx_outside (o t : State) {p c n : Nat} (h : Outside (sbWindow t p c) n) :
    barrier (rebindCtx o t p c) p n = barrier t p n := by
  have window := sbWindow_congr ((rebindLsp_rebinds o t p c).trans (keepWindow_rebinds o _ p c)).slots c
  rw [rebindCtx_eq]
  split
  · exact rebindLsp_barrier ..
  · split
    · simp
    · rw [bindWindow_outside _ (window ▸ h)]
      simp

/-! ### The contexts as one of them is bound anew -/

theorem PagesOnly.ctx {s t : State} (h : PagesOnly s t) (c : Nat) : ctx? t c = ctx? s c := by
  obtain ⟨_, _, rfl⟩ := h
  rfl

theorem rebindLsp_ctx (o t : State) (p c j : Nat) : ctx? (rebindLsp o t p c) j = ctx? t j := by
  have pages := (remapApertures_pages o t p c).ctx j
  unfold rebindLsp
  split
  · exact pages
  · exact pages

theorem zeroWindow_ctx (s : State) (p c j : Nat) : ctx? (zeroWindow s p c) j = ctx? s j := by
  rw [zeroWindow, foldl_keeps (fun s => ctx? s j) (f := fun t n => setBarrier t p ((sbWindow s p c).1 + n) Barrier.zero) fun _ _ => rfl]

theorem restoreWindow_ctx (s : State) (p : Nat) (w : Nat × Nat) (l : KMap Barrier) (j : Nat) :
    ctx? (restoreWindow s p w l) j = ctx? s j :=
  foldl_keeps (fun s => ctx? s j) (fun t b => by split <;> rfl) l s

theorem moveWindow_ctx_ne (s : State) {c j : Nat} (q p : Nat) (h : j ≠ c) : ctx? (moveWindow s c q p) j = ctx? s j :=
  (ctx_modCtx ..).trans (if_neg h)

theorem bindWindow_ctx_ne (s : State) {p c j : Nat} (h : j ≠ c) : ctx? (bindWindow s p c) j = ctx? s j := by
  rcases bindWindow_cases s p c with ⟨e, -⟩ | ⟨_, _, _, -, -, -, e⟩
  · rw [e, zeroWindow_ctx]
  · rw [e, moveWindow_ctx_ne _ _ _ h, restoreWindow_ctx, zeroWindow_ctx]

theorem keepWindow_ctx_ne (o t : State) {p c j : Nat} (h : j ≠ c) : ctx? (keepWindow o t p c) j = ctx? t j := by
  unfold keepWindow
  split
  · rfl
  · rw [ctx_modCtx, if_neg h]

theorem rebindCtx_ctx_ne (o t : State) {p c j : Nat} (h : j ≠ c) : ctx? (rebindCtx o t p c) j = ctx? t j := by
  rw [rebindCtx_eq]
  split
  · exact rebindLsp_ctx ..
  · split
    · rw [keepWindow_ctx_ne _ _ h, rebindLsp_ctx]
    · rw [bindWindow_ctx_ne _ h, keepWindow_ctx_ne _ _ h, rebindLsp_ctx]

/-- A context that had no window keeps nothing of it as it gains one. -/
theorem rebindCtx_inside (o t : State) {p c n : Nat} {x : Ctx} (hx : ctx? t c = some x) (had : (sbWindow o p c).2 = 0)
    (lt : n < (sbWindow t p c).2) : FreshWindow x (rebindCtx o t p c) p c n := by
  have window := sbWindow_congr (rebindLsp_rebinds o t p c).slots c
  have kept : keepWindow o (rebindLsp o t p c) p c = rebindLsp o t p c := if_pos (by simp [windowState, had])
  rw [rebindCtx_eq, if_neg (fun e => by rw [e] at had; omega), if_neg (by omega), kept]
  exact bindWindow_inside _ ((rebindLsp_ctx ..).trans hx) (window ▸ lt)

/-! ### What a table keeps (R302) -/

theorem field_eq (w : Word) (lo n : Nat) : field w lo n = (w.extractLsb' lo n).toNat := by
  simp [field, BitVec.extractLsb'_toNat, Nat.shiftRight_eq_div_pow]

theorem noPair_iff {α : Type} (f : α → α → Bool) (l : List α) : noPair f l = true ↔ l.Pairwise (fun x y => f x y = false) := by
  induction l with
  | nil => simp [noPair]
  | cons x r ih => simp [noPair, ih]

theorem meets_eq_false_iff (x y : Nat × Nat) : meets x y = false ↔ x.2 = 0 ∨ y.2 = 0 ∨ x.1 + x.2 ≤ y.1 ∨ y.1 + y.2 ≤ x.1 := by
  simp only [meets, Bool.and_eq_false_iff, bne_eq_false_iff_eq, decide_eq_false_iff_not]
  omega

theorem meets_symm {x y : Nat × Nat} (h : meets x y = false) : meets y x = false := by
  rw [meets_eq_false_iff] at h ⊢
  omega

theorem entryOf_spec {s : State} {p c : Nat} {e : SlotEntry} (h : entryOf s p c = some e) :
    e ∈ (kvals (pool s p).slots).filter (·.valid) ∧ e.ctx = c := by
  obtain ⟨q, found, rfl⟩ := Option.map_eq_some_iff.mp h
  have named := List.find?_some found
  simp only [Bool.and_eq_true, beq_iff_eq] at named
  exact ⟨List.mem_filter.mpr ⟨List.mem_map_of_mem (List.mem_of_find?_eq_some found), named.1⟩, named.2⟩

/-- The barrier windows of two contexts are disjoint in a table that fits. -/
theorem sbWindow_apart {s t : State} {p c j : Nat} (fits : tableFits s p (pool t p).slots = true) (ne : j ≠ c) {n : Nat}
    (lt : n < (sbWindow t p c).2) : Outside (sbWindow t p j) ((sbWindow t p c).1 + n) := by
  simp only [tableFits, Bool.and_eq_true] at fits
  obtain ⟨⟨⟨-, -⟩, bars⟩, -⟩ := fits
  have symm : Std.Symm (fun a b : SlotEntry => meets a.sb b.sb = false) := ⟨fun _ _ h => meets_symm h⟩
  have apart := (List.pairwise_map.mp ((noPair_iff ..).mp bars)).forall
  cases hc : entryOf t p c with
  | none => simp [sbWindow, hc] at lt
  | some e =>
    cases hj : entryOf t p j with
    | none => exact .inr (by simp [sbWindow, hj])
    | some e' =>
      obtain ⟨mem, rfl⟩ := entryOf_spec hc
      obtain ⟨mem', rfl⟩ := entryOf_spec hj
      have wc : sbWindow t p e.ctx = e.sb := by simp [sbWindow, hc, SlotEntry.sb]
      have wj : sbWindow t p e'.ctx = e'.sb := by simp [sbWindow, hj, SlotEntry.sb]
      have far := (meets_eq_false_iff ..).mp (apart mem mem' fun h => ne (h ▸ rfl))
      rw [wc] at lt ⊢
      rw [wj]
      unfold Outside
      omega

/-! ### A table in force -/

/-- The contexts that a pool's table names, or is to name. -/
def tableCtxs (s : State) (p : Nat) (slots : KMap SlotEntry) : List Nat :=
  (((kvals (pool s p).slots) ++ kvals slots).filter (·.valid) |>.map (·.ctx)).dedup

/-- The pool with its new table. -/
def tabled (s : State) (p : Nat) (slots : KMap SlotEntry) : State := modPool s p (fun x => { x with slots := slots })

/-- Every context of the tables bound anew. -/
def rebound (s : State) (p : Nat) (slots : KMap SlotEntry) : State :=
  (tableCtxs s p slots).foldl (fun t c => rebindCtx { t with pools := s.pools } t p c) (tabled s p slots)

/-- The cores, with their contexts, that lose a binding. -/
def bindingsLost (s : State) (p : Nat) (slots : KMap SlotEntry) : List (Nat × Nat) :=
  (tableCtxs s p slots).flatMap (fun c => (lostCores s (tabled s p slots) p c).map (fun k => (k, c)))

/-- A context that is to be unbound from a core. -/
def toUnbind (t : State) (q : Nat × Nat) : State := modCtx t q.2 (fun x => { x with unbinding := (q.1 :: x.unbinding).dedup })

/-- The unbinds that a table in force owes. -/
def unbindsDue (s : State) (p : Nat) (slots : KMap SlotEntry) : List (Instr × Msg) :=
  (bindingsLost s p slots).map (fun q => ev .unbind q.1 q.2)

/-- The draws and dispatches that a table in force owes. -/
def drawsDue (s : State) (p : Nat) (slots : KMap SlotEntry) : List (Instr × Msg) :=
  (tableCtxs s p slots).flatMap (fun c => [ev .tileDraw p c, ev .dispatch p c])

theorem putSlots_eq (s : State) (p : Nat) (slots : KMap SlotEntry) : putSlots s p slots =
    wakePool (owe (owe ((bindingsLost s p slots).foldl toUnbind (rebound s p slots)) (unbindsDue s p slots)) (drawsDue s p slots)) p := rfl

theorem wakePool_owes (s : State) (p : Nat) : ∃ l, wakePool s p = owe s l := ⟨_, rfl⟩

theorem rebound_rebinds (s : State) (p : Nat) (slots : KMap SlotEntry) : Rebinds p (tabled s p slots) (rebound s p slots) :=
  .foldl (fun _ _ => rebindCtx_rebinds ..) _ _

theorem toUnbind_only (l : List (Nat × Nat)) (t : State) : ∃ ctxs, l.foldl toUnbind t = { t with ctxs := ctxs } := by
  induction l generalizing t with
  | nil => exact ⟨_, rfl⟩
  | cons q r ih =>
    obtain ⟨ctxs, e⟩ := ih (toUnbind t q)
    obtain ⟨_, one⟩ := modCtx_only t q.2 (fun x => { x with unbinding := (q.1 :: x.unbinding).dedup })
    exact ⟨ctxs, by rw [List.foldl_cons, e, toUnbind, one]⟩

/-- A context stays to be unbound from a core. -/
def Unbinds (t : State) (q : Nat × Nat) : Prop := ∃ y, ctx? t q.2 = some y ∧ q.1 ∈ y.unbinding

theorem toUnbind_marks {t : State} {q : Nat × Nat} {x : Ctx} (h : ctx? t q.2 = some x) : Unbinds (toUnbind t q) q :=
  ⟨{ x with unbinding := (q.1 :: x.unbinding).dedup }, by simp [toUnbind, ctx_modCtx, h], by simp⟩

theorem toUnbind_keeps {t : State} {q : Nat × Nat} (r : Nat × Nat) (h : Unbinds t q) : Unbinds (toUnbind t r) q := by
  obtain ⟨y, hy, mem⟩ := h
  unfold Unbinds toUnbind
  rw [ctx_modCtx]
  split
  · next e => exact ⟨{ y with unbinding := (r.1 :: y.unbinding).dedup }, by simp [← e, hy], by simp [mem]⟩
  · exact ⟨y, hy, mem⟩

theorem toUnbind_all {l : List (Nat × Nat)} {q : Nat × Nat} (t : State) {x : Ctx} (h : ctx? t q.2 = some x) (mem : q ∈ l) :
    Unbinds (l.foldl toUnbind t) q := by
  refine foldl_establishes (P := fun t => (ctx? t q.2).isSome = true) (Q := fun t => Unbinds t q) (fun t r _ h => ?_) (fun t h => ?_)
    (fun _ r _ h => toUnbind_keeps r h) t mem (by simp [h])
  · unfold toUnbind
    rw [ctx_modCtx]
    split
    · next e => simpa [← e] using h
    · exact h
  · obtain ⟨x, hx⟩ := Option.isSome_iff_exists.mp h
    exact toUnbind_marks hx

/-- A table in force is its contexts bound anew, with what is owed. -/
theorem putSlots_spec (s : State) (p : Nat) (slots : KMap SlotEntry) : ∃ ctxs l,
    putSlots s p slots = { rebound s p slots with
      ctxs := ctxs, owed := (rebound s p slots).owed ++ unbindsDue s p slots ++ drawsDue s p slots ++ l } ∧
    ctxs = ((bindingsLost s p slots).foldl toUnbind (rebound s p slots)).ctxs := by
  obtain ⟨ctxs, e⟩ := toUnbind_only (bindingsLost s p slots) (rebound s p slots)
  obtain ⟨l, w⟩ := wakePool_owes (owe (owe { rebound s p slots with ctxs := ctxs } (unbindsDue s p slots)) (drawsDue s p slots)) p
  refine ⟨ctxs, l, ?_, by rw [e]⟩
  rw [putSlots_eq, e, w]
  rfl

theorem putSlots_owed (s : State) (p : Nat) (slots : KMap SlotEntry) {a : Instr × Msg}
    (due : a ∈ unbindsDue s p slots ∨ a ∈ drawsDue s p slots) : a ∈ (putSlots s p slots).owed := by
  obtain ⟨_, _, e, -⟩ := putSlots_spec s p slots
  rw [e]
  simp only [List.mem_append]
  tauto

theorem putSlots_marks {s : State} {p : Nat} {slots : KMap SlotEntry} {q : Nat × Nat} {x : Ctx} (lost : q ∈ bindingsLost s p slots)
    (hx : ctx? (rebound s p slots) q.2 = some x) : Unbinds (putSlots s p slots) q := by
  obtain ⟨_, _, e, same⟩ := putSlots_spec s p slots
  have marked := toUnbind_all (rebound s p slots) hx lost
  rw [Unbinds, ctx?, ← same] at marked
  rw [e]
  exact marked

theorem tabled_slots (s : State) (p : Nat) (slots : KMap SlotEntry) : (pool (tabled s p slots) p).slots = slots := by
  simp [tabled, pool_modPool]

theorem rebound_slots (s : State) (p : Nat) (slots : KMap SlotEntry) : (pool (rebound s p slots) p).slots = slots :=
  (rebound_rebinds s p slots).slots.trans (tabled_slots s p slots)

theorem putSlots_pool (s : State) (p : Nat) (slots : KMap SlotEntry) (q : Nat) :
    pool (putSlots s p slots) q = pool (rebound s p slots) q := by
  obtain ⟨_, _, e, -⟩ := putSlots_spec s p slots
  rw [e]
  rfl

theorem putSlots_slots (s : State) (p : Nat) (slots : KMap SlotEntry) : (pool (putSlots s p slots) p).slots = slots := by
  rw [putSlots_pool, rebound_slots]

theorem putSlots_pool_ne (s : State) {p q : Nat} (slots : KMap SlotEntry) (h : q ≠ p) : pool (putSlots s p slots) q = pool s q := by
  rw [putSlots_pool, (rebound_rebinds s p slots).pools q h, tabled, pool_modPool, if_neg h]

theorem putSlots_rest (s : State) (p : Nat) (slots : KMap SlotEntry) :
    (putSlots s p slots).cores = s.cores ∧ (putSlots s p slots).rets = s.rets := by
  obtain ⟨_, _, e, -⟩ := putSlots_spec s p slots
  obtain ⟨_, _, _, _, _, _, e'⟩ := (rebound_rebinds s p slots).rest
  rw [e, e']
  exact ⟨rfl, rfl⟩

theorem putSlots_threads (s : State) (p : Nat) (slots : KMap SlotEntry) (n : Nat) :
    (kfind (putSlots s p slots).threads n).map (fun x => { x with window := none }) =
      (kfind s.threads n).map (fun x => { x with window := none }) := by
  obtain ⟨_, _, e, -⟩ := putSlots_spec s p slots
  rw [e]
  exact (rebound_rebinds s p slots).threads n

theorem putSlots_bindingEntry (s : State) (p : Nat) (slots : KMap SlotEntry) (k h : Nat) :
    bindingEntry (putSlots s p slots) k h = bindingEntry (tabled s p slots) k h := by
  rw [← (rebound_rebinds s p slots).bindingEntry]
  obtain ⟨_, _, e, -⟩ := putSlots_spec s p slots
  rw [e]
  rfl

theorem mem_boundTo (s : State) (k c h : Nat) : h ∈ boundTo s k c ↔ h < 16 ∧ ∃ e, bindingEntry s k h = some e ∧ e.2.ctx = c := by
  unfold boundTo
  rw [List.mem_filter, List.mem_range]
  cases bindingEntry s k h <;> simp

/-- A table that takes a hardware context from a context loses it that core. -/
theorem mem_bindingsLost {s : State} {k h : Nat} {e : Nat × SlotEntry} (slots : KMap SlotEntry) (lt : h < 16)
    (was : bindingEntry s k h = some e) (lost : h ∉ boundTo (tabled s (poolOfCore k) slots) k e.2.ctx) :
    (k, e.2.ctx) ∈ bindingsLost s (poolOfCore k) slots := by
  obtain ⟨mem, valid, -, -⟩ := bindingEntry_spec was
  have named : e.2.ctx ∈ tableCtxs s (poolOfCore k) slots := by
    simp only [tableCtxs, List.mem_dedup, List.mem_map, List.mem_filter, List.mem_append]
    exact ⟨e.2, ⟨.inl (List.mem_map_of_mem mem), valid⟩, rfl⟩
  have here : k ∈ span (poolOfCore k * 16) 16 :=
    List.mem_map.mpr ⟨k % 16, List.mem_range.mpr (Nat.mod_lt _ (by decide)), by unfold poolOfCore; omega⟩
  refine List.mem_flatMap.mpr ⟨_, named, List.mem_map.mpr ⟨k, List.mem_filter.mpr ⟨here, ?_⟩, rfl⟩⟩
  exact List.any_eq_true.mpr ⟨h, (mem_boundTo ..).mpr ⟨lt, e, was, rfl⟩, by simpa using lost⟩

theorem rebound_ctx_some {s : State} {c : Nat} {x : Ctx} (p : Nat) (slots : KMap SlotEntry) (h : ctx? s c = some x) :
    ∃ y, ctx? (rebound s p slots) c = some y := by
  have kept := (rebound_rebinds s p slots).unbinding c
  rw [show ctx? (tabled s p slots) c = some x from h] at kept
  obtain ⟨y, hy, -⟩ := Option.map_eq_some_iff.mp kept
  exact ⟨y, hy⟩

theorem putSlots_unbinds {s : State} {k h : Nat} {e : Nat × SlotEntry} {x : Ctx} (slots : KMap SlotEntry) (lt : h < 16)
    (was : bindingEntry s k h = some e) (hx : ctx? s e.2.ctx = some x)
    (lost : h ∉ boundTo (tabled s (poolOfCore k) slots) k e.2.ctx) :
    Unbinds (putSlots s (poolOfCore k) slots) (k, e.2.ctx) ∧ ev .unbind k e.2.ctx ∈ (putSlots s (poolOfCore k) slots).owed := by
  have mem := mem_bindingsLost slots lt was lost
  obtain ⟨y, hy⟩ := rebound_ctx_some (poolOfCore k) slots hx
  exact ⟨putSlots_marks mem hy, putSlots_owed s _ slots (.inl (List.mem_map.mpr ⟨_, mem, rfl⟩))⟩

theorem mem_tableCtxs {s : State} {p : Nat} {slots : KMap SlotEntry} {e : SlotEntry} (mem : e ∈ kvals slots) (valid : e.valid = true) :
    e.ctx ∈ tableCtxs s p slots := by
  simp only [tableCtxs, List.mem_dedup, List.mem_map, List.mem_filter, List.mem_append]
  exact ⟨e, ⟨.inr mem, valid⟩, rfl⟩

theorem putSlots_owes (s : State) {p c : Nat} {slots : KMap SlotEntry} (mem : c ∈ tableCtxs s p slots) :
    ev .tileDraw p c ∈ (putSlots s p slots).owed ∧ ev .dispatch p c ∈ (putSlots s p slots).owed := by
  have due (a) (ha : a ∈ [ev .tileDraw p c, ev .dispatch p c]) : a ∈ (putSlots s p slots).owed :=
    putSlots_owed s p slots (.inr (List.mem_flatMap.mpr ⟨c, mem, ha⟩))
  exact ⟨due _ (by simp), due _ (by simp)⟩

theorem putSlots_winOf (s : State) (p : Nat) (slots : KMap SlotEntry) (c : Nat) : winOf (putSlots s p slots) p c = winOf (tabled s p slots) p c :=
  winOf_congr ((putSlots_slots ..).trans (tabled_slots ..).symm) c

theorem putSlots_sbWindow (s : State) (p : Nat) (slots : KMap SlotEntry) (c : Nat) :
    sbWindow (putSlots s p slots) p c = sbWindow (tabled s p slots) p c :=
  sbWindow_congr ((putSlots_slots ..).trans (tabled_slots ..).symm) c

/-- The window of the LSP that a context gains holds zeros: no context bound later writes there. -/
theorem rebound_zeros {s : State} {p c : Nat} {slots : KMap SlotEntry} (mem : c ∈ tableCtxs s p slots)
    (gained : winOf s p c ≠ winOf (tabled s p slots) p c) {i : Nat} (lt : i < 4096 * (winOf (tabled s p slots) p c).2) :
    (rebound s p slots).mem.get (lspPa p ((winOf (tabled s p slots) p c).1 * 4096 + i)) = 0 := by
  refine foldl_establishes (P := fun t => (pool t p).slots = (pool (tabled s p slots) p).slots)
    (Q := fun t => t.mem.get (lspPa p ((winOf (tabled s p slots) p c).1 * 4096 + i)) = 0)
    (fun t j _ h => ((rebindCtx_rebinds _ t p j).slots).trans h) (fun t h => ?_) (fun t j _ h => ?_) _ mem rfl
  · have ne : winOf { t with pools := s.pools } p c ≠ winOf t p c := by
      rw [winOf_congr h]
      exact gained
    rw [rebindCtx_zeros, if_neg ne, winOf_congr h, Memory.get_zero, if_pos]
    unfold lspPa
    omega
  · rw [rebindCtx_zeros]
    split
    · exact h
    · rw [Memory.get_zero]
      split
      · rfl
      · exact h

theorem putSlots_zeros {s : State} {p c : Nat} {slots : KMap SlotEntry} (mem : c ∈ tableCtxs s p slots)
    (gained : winOf s p c ≠ winOf (putSlots s p slots) p c) {i : Nat} (lt : i < 4096 * (winOf (putSlots s p slots) p c).2) :
    (putSlots s p slots).mem.get (lspPa p ((winOf (putSlots s p slots) p c).1 * 4096 + i)) = 0 := by
  rw [putSlots_winOf] at *
  obtain ⟨_, _, e, -⟩ := putSlots_spec s p slots
  rw [e]
  exact rebound_zeros mem gained lt

/-- A barrier window newly bound stays fresh as the other contexts are bound anew, for their windows are elsewhere. -/
theorem rebound_fresh {s : State} {p c : Nat} {slots : KMap SlotEntry} {x : Ctx} (fits : tableFits s p slots = true)
    (mem : c ∈ tableCtxs s p slots) (hx : ctx? s c = some x) (had : (sbWindow s p c).2 = 0) {n : Nat}
    (lt : n < (sbWindow (tabled s p slots) p c).2) : FreshWindow x (rebound s p slots) p c n := by
  let o := tabled s p slots
  have slotsKept {t : State} (u : State) (j : Nat) (h : (pool t p).slots = (pool o p).slots) :
      (pool (rebindCtx u t p j) p).slots = (pool o p).slots := ((rebindCtx_rebinds u t p j).slots).trans h
  refine (foldl_establishes_once (P := fun t => (pool t p).slots = (pool o p).slots ∧ ctx? t c = some x)
    (Q := fun t => (pool t p).slots = (pool o p).slots ∧ FreshWindow x t p c n) (List.nodup_dedup _)
    (fun t j _ ne h => ?_) (fun t h => ?_) (fun t j _ ne h => ?_) _ mem ⟨rfl, hx⟩).2
  · exact ⟨slotsKept _ j h.1, (rebindCtx_ctx_ne _ t ne.symm).trans h.2⟩
  · exact ⟨slotsKept _ c h.1, rebindCtx_inside _ t h.2 had (by rwa [sbWindow_congr h.1])⟩
  · have kept := slotsKept { t with pools := s.pools } j h.1
    have fits' : tableFits s p (pool o p).slots = true := by rwa [tabled_slots]
    have far : Outside (sbWindow t p j) ((sbWindow t p c).1 + n) :=
      sbWindow_apart (h.1.symm ▸ fits') ne (by rwa [sbWindow_congr h.1])
    have fresh := h.2
    refine ⟨kept, ?_⟩
    unfold FreshWindow at fresh ⊢
    rwa [sbWindow_congr kept, ← sbWindow_congr h.1, rebindCtx_outside _ t far]

theorem putSlots_fresh {s : State} {p c : Nat} {slots : KMap SlotEntry} {x : Ctx} (fits : tableFits s p slots = true)
    (mem : c ∈ tableCtxs s p slots) (hx : ctx? s c = some x) (had : (sbWindow s p c).2 = 0) {n : Nat}
    (lt : n < (sbWindow (putSlots s p slots) p c).2) : FreshWindow x (putSlots s p slots) p c n := by
  have fresh := rebound_fresh fits mem hx had (putSlots_sbWindow s p slots c ▸ lt)
  have same (i : Nat) : barrier (putSlots s p slots) p i = barrier (rebound s p slots) p i := by
    unfold barrier
    rw [putSlots_pool]
  unfold FreshWindow at fresh ⊢
  rwa [same, sbWindow_congr ((putSlots_slots ..).trans (rebound_slots ..).symm)]

end Sys2Proof.Machine
end

section
/-! SUPPORT. The rules that a slot table keeps, as ranges, and the words that are withdrawn where a thread stops. -/

namespace Sys2Proof.Machine

/-! ### What a table must keep (R302) -/

theorem testBit_field (w : Word) {lo n k : Nat} (h : k < n) : (field w lo n).testBit k = w.getLsbD (lo + k) := by
  rw [field_eq, BitVec.testBit_toNat, BitVec.getLsbD_extractLsb']
  simp [h]

theorem sharesFit_iff (s : State) (p : Nat) (e : SlotEntry) :
    (List.range 16).all (fun k => !e.cores.testBit k || e.share.2 == 0 ||
      decide (e.share.1 + e.share.2 ≤ scratchUnits s (p * 16 + k))) = true ↔
    ∀ k, k < 16 → e.dw0.getLsbD (32 + k) = true → e.share.2 = 0 ∨ e.share.1 + e.share.2 ≤ scratchUnits s (p * 16 + k) := by
  simp only [List.all_eq_true, List.mem_range, Bool.or_eq_true, Bool.not_eq_true', beq_iff_eq, decide_eq_true_eq]
  refine forall_congr' fun k => forall_congr' fun lt => ?_
  rw [SlotEntry.cores, testBit_field _ lt]
  cases e.dw0.getLsbD (32 + k) <;> simp

theorem entryFits_iff (s : State) (p : Nat) (e : SlotEntry) : entryFits s p e = true ↔
    (∃ x, ctx? s e.ctx = some x ∧ x.tenant = field e.dw0 56 4) ∧ e.quota ≤ 1024 ∧ e.quota ≤ (tenant s (tenantOf s e.ctx)).quota ∧
      e.spill.1 + e.spill.2 ≤ 512 ∧ e.win.1 + e.win.2 ≤ 512 ∧ e.sb.1 + e.sb.2 ≤ 64 ∧
      ∀ k, k < 16 → e.dw0.getLsbD (32 + k) = true → e.share.2 = 0 ∨ e.share.1 + e.share.2 ≤ scratchUnits s (p * 16 + k) := by
  unfold entryFits
  rw [Bool.and_eq_true, Bool.and_eq_true, Bool.and_eq_true, sharesFit_iff, decide_eq_true_eq, decide_eq_true_eq, le_min_iff]
  cases ctx? s e.ctx with
  | none => simp
  | some x =>
    simp only [beq_iff_eq, Option.some.injEq, exists_eq_left']
    tauto

theorem shares_iff (x y : SlotEntry) : (x.cores &&& y.cores != 0 && meets x.share y.share) = false ↔
    x.cores &&& y.cores = 0 ∨
      (x.share.2 = 0 ∨ y.share.2 = 0 ∨ x.share.1 + x.share.2 ≤ y.share.1 ∨ y.share.1 + y.share.2 ≤ x.share.1) := by
  rw [Bool.and_eq_false_iff, bne_eq_false_iff_eq, meets_eq_false_iff]

theorem tableFits_iff (s : State) (p : Nat) (slots : KMap SlotEntry) : tableFits s p slots = true ↔
    let l := (kvals slots).filter (·.valid)
    let apart (x y : Nat × Nat) : Prop := x.2 = 0 ∨ y.2 = 0 ∨ x.1 + x.2 ≤ y.1 ∨ y.1 + y.2 ≤ x.1
    (∀ e ∈ l, entryFits s p e = true) ∧ (l.flatMap (fun e => [e.spill, e.win])).Pairwise apart ∧ (l.map (·.sb)).Pairwise apart ∧
      l.Pairwise (fun x y => x.cores &&& y.cores = 0 ∨ apart x.share y.share) := by
  simp only [tableFits, Bool.and_eq_true, List.all_eq_true, noPair_iff, meets_eq_false_iff, shares_iff, and_assoc]

/-! ### Where a thread stops -/

theorem beforeLong_eq (x : Thread) : beforeLong x =
    if x.lost ≠ [] ∧ x.mqueue.any (·.long) = true then { x with mqueue := [], cond := .ready } else x := by
  unfold beforeLong awaitsBlock
  cases x.lost <;> simp

theorem withdraw_ret (s : State) (f : Nat → Bool) (n : Nat) : kfind (withdraw s f).rets n = (kfind s.rets n).map (fun r =>
    if ∃ o ∈ r.owner, f o = true then { r with cond := withdrawn r.cond, noPage := none } else r) := by
  refine (kfind_map s.rets (fun r => if (r.owner.map f).getD false then { r with cond := withdrawn r.cond, noPage := none } else r) n).trans ?_
  refine congrArg (Option.map · _) (funext fun r => ?_)
  cases r.owner <;> simp

end Sys2Proof.Machine
end

section
/-! SUPPORT. Entitlements that pass on, and a thread saved. -/

namespace Sys2Proof.Machine

/-! ### Entitlements -/

/-- Two states differ at most in threads' entitlements and in what is owed. -/
structure EntOnly (s t : State) : Prop where
  rest : ∃ threads owed, t = { s with threads := threads, owed := owed }
  threads : ∀ j, (kfind t.threads j).map (fun x => { x with ent := 0, debt := none }) =
    (kfind s.threads j).map (fun x => { x with ent := 0, debt := none })

theorem EntOnly.refl (s : State) : EntOnly s s := ⟨⟨_, _, rfl⟩, fun _ => rfl⟩

theorem EntOnly.trans {s t u : State} (h : EntOnly s t) (k : EntOnly t u) : EntOnly s u := by
  refine ⟨?_, fun j => (k.threads j).trans (h.threads j)⟩
  obtain ⟨_, _, e⟩ := h.rest
  obtain ⟨_, _, e'⟩ := k.rest
  exact ⟨_, _, by rw [e', e]⟩

theorem owe_entOnly (s : State) (l : List (Instr × Msg)) : EntOnly s (owe s l) := ⟨⟨_, _, rfl⟩, fun _ => rfl⟩

theorem modThr_entOnly {s : State} {g : Nat} {f : Thread → Thread} (here : (kfind s.threads g).isSome = true)
    (hf : ∀ x, { f x with ent := 0, debt := none } = { x with ent := 0, debt := none }) : EntOnly s (modThr s g f) := by
  refine ⟨⟨_, s.owed, rfl⟩, fun j => ?_⟩
  rw [modThr, setThr, kfind_kset]
  split
  · next e =>
    obtain ⟨x, hx⟩ := Option.isSome_iff_exists.mp here
    simp [e, hx, thr, kget, hf]
  · rfl

theorem setEnt_entOnly {s : State} {g : Nat} (time e : Nat) (here : (kfind s.threads g).isSome = true) :
    EntOnly s (modThr s g (setEnt time e)) := modThr_entOnly here fun _ => rfl

theorem oldestDebt_mem {l : List (Nat × Thread)} {q : Nat × Thread} (h : oldestDebt l = some q) : q ∈ l := by
  induction l with
  | nil => cases h
  | cons x r ih =>
    simp only [oldestDebt] at h
    split at h
    · cases h
      exact List.mem_cons_self
    · next y hy =>
      split at h
      · cases h
        exact List.mem_cons_self
      · cases h
        exact List.mem_cons_of_mem _ (ih hy)

theorem richest_mem {l : List (Nat × Thread)} {q : Nat × Thread} (h : richest l = some q) : q ∈ l := by
  induction l with
  | nil => cases h
  | cons x r ih =>
    simp only [richest] at h
    split at h
    · cases h
      exact List.mem_cons_self
    · next y hy =>
      split at h
      · cases h
        exact List.mem_cons_of_mem _ (ih hy)
      · cases h
        exact List.mem_cons_self

theorem kfind_isSome_of_mem {α : Type} {m : KMap α} {q : Nat × α} (h : q ∈ m) : (kfind m q.1).isSome = true := by
  induction m with
  | nil => cases h
  | cons p r ih =>
    simp only [kfind]
    split
    · rfl
    · next ne =>
      rcases List.mem_cons.mp h with rfl | h
      · exact absurd rfl ne
      · exact ih h

theorem holders_here {s : State} {p c : Nat} {q : Nat × Thread} {P : Nat × Thread → Bool} (h : q ∈ (holders s p c).filter P) :
    (kfind s.threads q.1).isSome = true :=
  kfind_isSome_of_mem (List.mem_of_mem_filter (List.mem_of_mem_filter h))

theorem giveBack_entOnly (p c n : Nat) (s : State) : EntOnly s (giveBack p c n s) := by
  induction n generalizing s with
  | zero => exact .refl s
  | succ n ih =>
    simp only [giveBack]
    split
    · next g x found =>
      split
      · exact .refl s
      · exact (setEnt_entOnly _ _ (holders_here (oldestDebt_mem found))).trans (ih _)
    · exact .refl s

theorem takeFrom_entOnly (p c h n : Nat) (s : State) : EntOnly s (takeFrom p c h n s) := by
  induction n generalizing s with
  | zero => exact .refl s
  | succ n ih =>
    simp only [takeFrom]
    split
    · next g x found =>
      split
      · exact .refl s
      · exact (setEnt_entOnly _ _ (holders_here (richest_mem found))).trans (ih _)
    · exact .refl s

theorem leaveEnt_entOnly (s : State) (p c : Nat) : EntOnly s (leaveEnt s p c) := giveBack_entOnly ..

theorem joinEnt_entOnly {s : State} {t : Nat} (here : (kfind s.threads t).isSome = true) : EntOnly s (joinEnt s t) :=
  (setEnt_entOnly _ _ here).trans (takeFrom_entOnly ..)

theorem EntOnly.kept {s t : State} (h : EntOnly s t) (n : Nat) : ThreadsKept s t n := fun j _ => h.threads j

theorem EntOnly.gone {s t : State} (h : EntOnly s t) {n : Nat} (none : kfind s.threads n = none) : kfind t.threads n = .none := by
  simpa [none] using h.threads n

/-! ### A thread saved -/

/-- The number under which a thread's state is kept. -/
def saveKey (s : State) (n : Nat) : Nat := (s.nextId + 1) * 2 ^ 32 + n

/-- Whether a thread owns its die's array. -/
def ownsArray (s : State) (n : Nat) : Bool := (die s (dieOf n)).sa.owner == some n

/-- The Retrievers of a thread. -/
def retsOf (s : State) (n : Nat) : KMap Retriever := s.rets.filter (fun r => r.2.owner == some n)

/-- What a context keeps of a thread that is saved. -/
def keepThread (s : State) (n : Nat) (c : Ctx) : Ctx :=
  { c with
    saved := kset c.saved (saveKey s n) (savedThread (saveKey s n) (ownsArray s n) (thr s n))
    savedRets := c.savedRets ++ (retsOf s n).map (fun r => (saveKey s n, r.1 % 2, savedRet r.2))
    savedCopies := c.savedCopies.map (fun y => if y.thread = n then { y with thread := saveKey s n, byRet := y.byRet.map (· % 2) } else y) }

/-- A thread in the save area, its array kept under the same number. -/
def putAway (s : State) (n : Nat) : State :=
  let t := modCtx { s with nextId := s.nextId + 1 } (thr s n).ctx (keepThread s n)
  if ownsArray s n then modSa t (dieOf n) (fun a => { a with owner := some (saveKey s n) }) else t

/-- A thread gone from its hardware context. -/
def vacate (s : State) (n : Nat) : State :=
  modCore (dropThr { s with rets := s.rets.filter (fun r => r.2.owner != some n) } n) (coreOf n)
    (fun c => { c with forgo := c.forgo.filter (· != hwOf n) })

theorem saveThread_eq (s : State) (n : Nat) : saveThread s n =
    if (thr s n).vceil = 0 then vacate (putAway s n) n
    else wakePool (leaveEnt (vacate (putAway s n) n) (poolOf n) (thr s n).ctx) (poolOf n) := rfl

theorem wakePool_entOnly (s : State) (p : Nat) : EntOnly s (wakePool s p) := by
  obtain ⟨l, e⟩ := wakePool_owes s p
  exact e ▸ owe_entOnly s l

theorem saveThread_entOnly (s : State) (n : Nat) : EntOnly (vacate (putAway s n) n) (saveThread s n) := by
  rw [saveThread_eq]
  split
  · exact .refl _
  · exact (leaveEnt_entOnly ..).trans (wakePool_entOnly ..)

/-- Keeping a thread changes what is kept of its context, an array's owner, and the next number. -/
theorem putAway_rest (s : State) (n : Nat) : ∃ ctxs dies,
    putAway s n = { s with nextId := s.nextId + 1, ctxs := ctxs, dies := dies } := by
  obtain ⟨_, e⟩ := modCtx_only { s with nextId := s.nextId + 1 } (thr s n).ctx (keepThread s n)
  unfold putAway
  rw [e]
  dsimp only
  split
  · exact ⟨_, _, rfl⟩
  · exact ⟨_, _, rfl⟩

theorem putAway_ctx (s : State) (n c : Nat) : ctx? (putAway s n) c =
    if c = (thr s n).ctx then (ctx? s (thr s n).ctx).map (keepThread s n) else ctx? s c := by
  refine Eq.trans ?_ (ctx_modCtx { s with nextId := s.nextId + 1 } (thr s n).ctx c (keepThread s n))
  unfold putAway
  dsimp only
  split <;> rfl

theorem putAway_sa (s : State) (n : Nat) : (die (putAway s n) (dieOf n)).sa =
    if ownsArray s n then { (die s (dieOf n)).sa with owner := some (saveKey s n) } else (die s (dieOf n)).sa := by
  have same (j : Nat) : die (modCtx { s with nextId := s.nextId + 1 } (thr s n).ctx (keepThread s n)) j = die s j := by
    simp [die]
  unfold putAway
  dsimp only
  split
  · rw [modSa, die_modDie, if_pos rfl, same]
  · rw [same]

theorem vacate_threads (s : State) (n j : Nat) : kfind (vacate (putAway s n) n).threads j = if j = n then none else kfind s.threads j := by
  obtain ⟨_, _, e⟩ := putAway_rest s n
  rw [vacate, e]
  exact kfind_kdel s.threads n j

theorem saveThread_gone (s : State) (n : Nat) : kfind (saveThread s n).threads n = none :=
  (saveThread_entOnly s n).gone (by rw [vacate_threads, if_pos rfl])

theorem saveThread_threadsKept (s : State) (n : Nat) : ThreadsKept s (saveThread s n) n := fun j ne =>
  ((saveThread_entOnly s n).threads j).trans (by rw [vacate_threads, if_neg ne])

theorem saveThread_rest (s : State) (n : Nat) : (saveThread s n).rets = s.rets.filter (fun r => r.2.owner != some n) ∧
    (saveThread s n).nextId = s.nextId + 1 ∧ (saveThread s n).stores = s.stores := by
  obtain ⟨_, _, e⟩ := (saveThread_entOnly s n).rest
  obtain ⟨_, _, k⟩ := putAway_rest s n
  rw [e, vacate, k]
  exact ⟨rfl, rfl, rfl⟩

theorem saveThread_ctx (s : State) (n c : Nat) : ctx? (saveThread s n) c =
    if c = (thr s n).ctx then (ctx? s (thr s n).ctx).map (keepThread s n) else ctx? s c := by
  obtain ⟨_, _, e⟩ := (saveThread_entOnly s n).rest
  rw [e]
  exact putAway_ctx s n c

theorem saveThread_sa (s : State) (n : Nat) : (die (saveThread s n) (dieOf n)).sa =
    if ownsArray s n then { (die s (dieOf n)).sa with owner := some (saveKey s n) } else (die s (dieOf n)).sa := by
  obtain ⟨_, _, e⟩ := (saveThread_entOnly s n).rest
  rw [e]
  exact putAway_sa s n

end Sys2Proof.Machine
end

section
/-! SUPPORT. A share that moves, copies that go on, and a thread resumed. -/

namespace Sys2Proof.Machine

/-! ### A share that moves with its thread -/

/-- Tasks whose runs have moved to core `dst`, to the share that starts at `base`. -/
def movedTasks (dst base : Nat) (runs m : KMap Task) : KMap Task :=
  runs.foldl (fun m t => kset m t.1 { t.2 with core := dst, runPa := base + t.2.runOff : Task }) m

/-- A share moves where there is room for it and a task holds a run in it. -/
theorem moveShare_cases (s : State) (c src dst : Nat) :
    (moveShare s c src dst = s ∧ (shareEntry s dst c = none ∨ runTasks s c src = [])) ∨
      ∃ mem base, PagesOnly { s with mem := mem, tasks := movedTasks dst base (runTasks s c src) s.tasks } (moveShare s c src dst) := by
  unfold moveShare
  dsimp only
  split
  · exact .inr ⟨_, _, .foldl (fun _ _ => mapPages_pages ..) _ _⟩
  · next none =>
    refine .inl ⟨rfl, ?_⟩
    cases he : shareEntry s dst c with
    | none => exact .inl rfl
    | some e =>
      cases hr : runTasks s c src with
      | nil => exact .inr rfl
      | cons q r => exact absurd hr (none e _ _ r he)

theorem moveShare_rest (s : State) (c src dst : Nat) : ∃ mem tasks pt n,
    moveShare s c src dst = { s with mem := mem, tasks := tasks, pt := pt, keeper := { s.keeper with table := n } } := by
  rcases moveShare_cases s c src dst with ⟨e, -⟩ | ⟨_, _, _, _, e⟩
  · exact ⟨_, _, _, _, e⟩
  · exact ⟨_, _, _, _, e⟩

/-- Every task with a run on the old core has it on the new one. -/
theorem moveShare_core {s : State} {c src dst n : Nat} {j : Task} {e : SlotEntry} (room : shareEntry s dst c = some e)
    (here : (n, j) ∈ runTasks s c src) : (task (moveShare s c src dst) n).core = dst := by
  rcases moveShare_cases s c src dst with ⟨-, none | none⟩ | ⟨_, base, _, _, moved⟩
  · rw [room] at none
    cases none
  · rw [none] at here
    cases here
  · rw [moved]
    refine foldl_establishes (P := fun _ => True) (Q := fun m => (kget m n Task.none).core = dst) (fun _ _ _ _ => trivial) (fun m _ => ?_)
      (fun m t _ h => ?_) s.tasks here trivial
    · simp
    · rw [kget_kset]
      split
      · rfl
      · exact h

/-- The state as a saved thread's share of a retired core has moved to its new core, where it holds one elsewhere. -/
def shareMoved (s : State) (c : Nat) (x : Thread) (k : Nat) : State :=
  if (task s x.task).runSize ≠ 0 && (task s x.task).core ≠ k then moveShare s c (task s x.task).core k else s

theorem shareMoved_rest (s : State) (c : Nat) (x : Thread) (k : Nat) : ∃ mem tasks pt n,
    shareMoved s c x k = { s with mem := mem, tasks := tasks, pt := pt, keeper := { s.keeper with table := n } } := by
  unfold shareMoved
  split
  · exact moveShare_rest ..
  · exact ⟨_, _, _, _, rfl⟩

/-- A thread that reaches its run has it on its core once its share has moved. -/
theorem shareMoved_core {s : State} {x : Thread} {k : Nat} {j : Task} (reaches : runReaches s k x = true)
    (found : kfind s.tasks x.task = some j) (own : j.ctx = x.ctx) (run : j.runSize ≠ 0) :
    (task (shareMoved s x.ctx x k) x.task).core = k := by
  have here : task s x.task = j := by simp [task, kget, found]
  unfold shareMoved
  rw [here]
  split
  · next away =>
    have ne : j.core ≠ k := by simpa [run] using away
    simp only [runReaches, here, Bool.or_eq_true, Bool.and_eq_true, beq_iff_eq, run, ne, false_or] at reaches
    obtain ⟨-, room⟩ := reaches
    split at room
    · next e he => exact moveShare_core he (List.mem_filter.mpr ⟨kfind_mem found, by simp [own, run]⟩)
    · cases room
  · next stays => simpa [run, here] using stays

/-! ### Copies that go on -/

/-- What going on with thread `t`'s copies may change: the thread's tags and progress, pools, barriers kept of unbound contexts,
numbers, and what is owed. -/
structure GoesOn (t : Nat) (s u : State) : Prop where
  rest : ∃ threads pools ctxs n owed, u = { s with threads := threads, pools := pools, ctxs := ctxs, nextId := n, owed := owed }
  others : ∀ j, j ≠ t → kfind u.threads j = kfind s.threads j
  own : ∀ v, kfind s.threads t = some v → ∃ g p, kfind u.threads t = some { v with tags := g, progress := p }
  ctxs : ∀ c, (ctx? u c).map (fun x => { x with savedBarriers := [] }) = (ctx? s c).map (fun x => { x with savedBarriers := [] })

theorem GoesOn.refl (t : Nat) (s : State) : GoesOn t s s :=
  ⟨⟨_, _, _, _, _, rfl⟩, fun _ _ => rfl, fun _ h => ⟨_, _, h⟩, fun _ => rfl⟩

theorem GoesOn.trans {t : Nat} {s u v : State} (h : GoesOn t s u) (k : GoesOn t u v) : GoesOn t s v := by
  refine ⟨?_, fun j hj => (k.others j hj).trans (h.others j hj), fun x hx => ?_, fun c => (k.ctxs c).trans (h.ctxs c)⟩
  · obtain ⟨_, _, _, _, _, e⟩ := h.rest
    obtain ⟨_, _, _, _, _, e'⟩ := k.rest
    exact ⟨_, _, _, _, _, by rw [e', e]⟩
  · obtain ⟨_, _, hu⟩ := h.own x hx
    obtain ⟨g, p, hv⟩ := k.own _ hu
    exact ⟨g, p, hv⟩

theorem GoesOn.foldl {α : Type} {t : Nat} {f : State → α → State} (h : ∀ s x, GoesOn t s (f s x)) (l : List α) (s : State) :
    GoesOn t s (l.foldl f s) := by
  induction l generalizing s with
  | nil => exact .refl t s
  | cons x r ih => exact (h s x).trans (ih _)

theorem modPool_goesOn (t : Nat) (s : State) (p : Nat) (f : Pool → Pool) : GoesOn t s (modPool s p f) :=
  ⟨⟨_, _, _, _, _, rfl⟩, fun _ _ => rfl, fun _ h => ⟨_, _, h⟩, fun _ => rfl⟩

theorem owe_goesOn (t : Nat) (s : State) (l : List (Instr × Msg)) : GoesOn t s (owe s l) :=
  ⟨⟨_, _, _, _, _, rfl⟩, fun _ _ => rfl, fun _ h => ⟨_, _, h⟩, fun _ => rfl⟩

theorem asAgent_goesOn {t : Nat} {s : State} {a : Agent} {f : State → State} (h : GoesOn t { s with cur := a } (f { s with cur := a })) :
    GoesOn t s (asAgent s a f) := by
  obtain ⟨⟨_, _, _, _, _, e⟩, others, own, ctxs⟩ := h
  refine ⟨⟨_, _, _, _, _, by rw [asAgent, e]⟩, others, own, ctxs⟩

theorem modCtx_goesOn (t : Nat) (s : State) (c : Nat) {f : Ctx → Ctx}
    (hf : ∀ x, { f x with savedBarriers := [] } = { x with savedBarriers := [] }) : GoesOn t s (modCtx s c f) := by
  obtain ⟨_, e⟩ := modCtx_only s c f
  refine ⟨⟨_, _, _, _, _, e⟩, fun _ _ => by rw [e], fun _ h => ⟨_, _, by rw [e]; exact h⟩, fun j => ?_⟩
  rw [ctx_modCtx]
  split
  · next e =>
    subst e
    cases ctx? s j <;> simp [hf]
  · rfl

theorem modWinBarrier_goesOn (t : Nat) (s : State) (p c n : Nat) (f : Barrier → Barrier) : GoesOn t s (modWinBarrier s p c n f) := by
  unfold modWinBarrier
  split
  · exact .refl t s
  · split
    · exact modPool_goesOn ..
    · exact modCtx_goesOn t s c fun _ => rfl

theorem modThr_goesOn {t : Nat} (s : State) {f : Thread → Thread}
    (hf : ∀ x, f x = { x with tags := (f x).tags, progress := (f x).progress }) : GoesOn t s (modThr s t f) := by
  refine ⟨⟨_, _, _, _, _, rfl⟩, fun j ne => kfind_kset_ne _ _ ne, fun v hv => ?_, fun _ => rfl⟩
  have here : thr s t = v := by simp [thr, kget, hv]
  exact ⟨_, _, by rw [modThr, setThr, here, kfind_kset_self, hf]⟩

theorem completeHandle_goesOn (s : State) (p : Nat) (z : Copy) (r : Progress) : GoesOn z.thread s (completeHandle s p z r) := by
  have marked : GoesOn z.thread s (modThr s z.thread (fun x =>
      let x := putProgress x (handleKey z.handle) r
      if z.handle.barrier then x else { x with tags := x.tags ||| tagBit z.handle.n.toNat })) := by
    refine modThr_goesOn s fun x => ?_
    dsimp only
    split <;> rfl
  unfold completeHandle
  dsimp only
  split
  · exact marked.trans (modWinBarrier_goesOn ..)
  · exact marked

theorem resumeCopy_goesOn (s : State) (p : Nat) (z : Copy) : GoesOn z.thread s (resumeCopy s p z) := by
  have next : GoesOn z.thread s { s with nextId := s.nextId + 1 } :=
    ⟨⟨_, _, _, _, _, rfl⟩, fun _ _ => rfl, fun _ h => ⟨_, _, h⟩, fun _ => rfl⟩
  unfold resumeCopy
  dsimp only
  split
  · exact next.trans (modPool_goesOn ..)
  · exact next.trans (completeHandle_goesOn _ p (z.again _) _)

theorem pump_goesOn (t : Nat) (s : State) (p : Nat) : GoesOn t s (pump s p) :=
  (modPool_goesOn t s p _).trans (owe_goesOn t _ _)

/-! ### A thread resumed -/

/-- What a context keeps as a saved thread goes on. -/
def letGo (key : Nat) (y : Ctx) : Ctx :=
  { y with
    saved := kdel y.saved key, savedRets := y.savedRets.filter (fun r => r.1 != key)
    savedCopies := y.savedCopies.filter (fun z => z.thread != key) }

/-- Retrievers of a saved thread at their places, owned by the thread. -/
def placeRets (k t : Nat) (l : List (Nat × Nat × Retriever)) (s : State) : State :=
  l.foldl (fun s r => modRet s (2 * k + r.2.1) (fun _ => { r.2.2 with owner := some t })) s

/-- A saved thread in a hardware context, with its Retrievers and its array. -/
def takeUp (s : State) (c key : Nat) (x : Thread) (k t : Nat) (y : Ctx) : State :=
  let u := placeRets k t (y.savedRets.filter (fun r => r.1 == key)) (setThr (modCtx s c (letGo key)) t { x with array := none })
  if x.array.isSome then modSa u (dieOfCore k) (fun a => { a with owner := some t }) else u

/-- One of a thread's copies issued again by its agent. -/
def copyAgain (k t p : Nat) (s : State) (z : Copy) : State :=
  let z : Copy := { z with thread := t, byRet := z.byRet.map (2 * k + ·) }
  asAgent s (match z.byRet with | some n => .ret n | none => .thread t) (fun s => resumeCopy s p z)

/-- Copies of a thread that go on. -/
def copiesAgain (s : State) (key k t : Nat) (y : Ctx) : State :=
  pump ((y.savedCopies.filter (fun z => z.thread == key)).foldl (copyAgain k t (poolOfCore k)) s) (poolOfCore k)

theorem resumeThread_eq {s : State} {c key : Nat} {x : Thread} {k : Nat} (h : Nat) {y : Ctx} (hy : ctx? (shareMoved s c x k) c = some y) :
    resumeThread s c key x k h =
      let t := k * 17 + h
      let d := copiesAgain (takeUp (shareMoved s c x k) c key x k t y) key k t y
      owe (if x.vceil = 0 then d else joinEnt (modThr d t (fun y => { y with debt := none })) t)
        (if x.lost.isEmpty then [] else [ev .slicePlaced t]) := by
  unfold resumeThread
  dsimp only
  split
  · next none => exact nomatch none.symm.trans hy
  · next z hz =>
    cases hz.symm.trans hy
    rfl

theorem copyAgain_goesOn (k t p : Nat) (s : State) (z : Copy) : GoesOn t s (copyAgain k t p s z) := by
  unfold copyAgain
  exact asAgent_goesOn (resumeCopy_goesOn _ p { z with thread := t, byRet := z.byRet.map (2 * k + ·) })

theorem copiesAgain_goesOn (s : State) (key k t : Nat) (y : Ctx) : GoesOn t s (copiesAgain s key k t y) :=
  (GoesOn.foldl (copyAgain_goesOn k t _) _ s).trans (pump_goesOn t _ _)

/-! ### A thread taken up -/

theorem placeRets_rest (k t : Nat) (l : List (Nat × Nat × Retriever)) (s : State) : ∃ rets, placeRets k t l s = { s with rets := rets } := by
  induction l generalizing s with
  | nil => exact ⟨_, rfl⟩
  | cons r l ih =>
    obtain ⟨_, e⟩ := ih (modRet s (2 * k + r.2.1) (fun _ => { r.2.2 with owner := some t }))
    exact ⟨_, e⟩

theorem placeRets_other {k t n : Nat} {l : List (Nat × Nat × Retriever)} (s : State) (h : ∀ r ∈ l, n ≠ 2 * k + r.2.1) :
    kfind (placeRets k t l s).rets n = kfind s.rets n :=
  foldl_invariant (fun u => kfind u.rets n = kfind s.rets n) l (fun _ r hr e => (kfind_kset_ne _ _ (h r hr)).trans e) s rfl

theorem placeRets_placed {k t : Nat} {l : List (Nat × Nat × Retriever)} {r : Nat × Nat × Retriever} (s : State) (mem : r ∈ l)
    (only : ∀ q ∈ l, q.2.1 = r.2.1 → q = r) : ret (placeRets k t l s) (2 * k + r.2.1) = { r.2.2 with owner := some t } := by
  refine foldl_establishes (P := fun _ => True) (Q := fun u => ret u (2 * k + r.2.1) = { r.2.2 with owner := some t })
    (fun _ _ _ _ => trivial) (fun u _ => ret_modRet_self ..) (fun u q hq h => ?_) s mem trivial
  by_cases e : q.2.1 = r.2.1
  · cases only q hq e
    exact ret_modRet_self ..
  · rw [ret_modRet_ne _ _ (by omega), h]

/-- A saved thread's state in a hardware context, before its Retrievers. -/
def restart (s : State) (c key : Nat) (x : Thread) (t : Nat) : State := setThr (modCtx s c (letGo key)) t { x with array := none }

theorem restart_rest (s : State) (c key : Nat) (x : Thread) (t : Nat) : ∃ ctxs,
    restart s c key x t = { s with ctxs := ctxs, threads := kset s.threads t { x with array := none } } := by
  obtain ⟨_, e⟩ := modCtx_only s c (letGo key)
  exact ⟨_, by rw [restart, e]; rfl⟩

theorem takeUp_rets (s : State) (c key : Nat) (x : Thread) (k t : Nat) (y : Ctx) : ∃ dies, takeUp s c key x k t y =
    { placeRets k t (y.savedRets.filter (fun r => r.1 == key)) (restart s c key x t) with dies := dies } := by
  unfold takeUp
  dsimp only
  split
  · exact ⟨_, rfl⟩
  · exact ⟨_, rfl⟩

theorem takeUp_rest (s : State) (c key : Nat) (x : Thread) (k t : Nat) (y : Ctx) : ∃ ctxs dies rets, takeUp s c key x k t y =
    { s with ctxs := ctxs, dies := dies, rets := rets, threads := kset s.threads t { x with array := none } } := by
  obtain ⟨_, e⟩ := takeUp_rets s c key x k t y
  obtain ⟨_, e'⟩ := placeRets_rest k t (y.savedRets.filter (fun r => r.1 == key)) (restart s c key x t)
  obtain ⟨_, e''⟩ := restart_rest s c key x t
  exact ⟨_, _, _, by rw [e, e', e'']⟩

theorem takeUp_ctx (s : State) (c key : Nat) (x : Thread) (k t : Nat) (y : Ctx) (j : Nat) :
    ctx? (takeUp s c key x k t y) j = if j = c then (ctx? s c).map (letGo key) else ctx? s j := by
  obtain ⟨_, e⟩ := takeUp_rets s c key x k t y
  obtain ⟨_, e'⟩ := placeRets_rest k t (y.savedRets.filter (fun r => r.1 == key)) (restart s c key x t)
  rw [e, e']
  exact ctx_modCtx s c j (letGo key)

theorem restart_retsKept (s : State) (c key : Nat) (x : Thread) (t : Nat) : (restart s c key x t).rets = s.rets := by
  obtain ⟨_, e⟩ := restart_rest s c key x t
  rw [e]

theorem takeUp_sa {s : State} {c key : Nat} {x : Thread} {k t : Nat} {y : Ctx} (array : x.array.isSome = true) :
    (die (takeUp s c key x k t y) (dieOfCore k)).sa = { (die s (dieOfCore k)).sa with owner := some t } := by
  obtain ⟨_, e'⟩ := placeRets_rest k t (y.savedRets.filter (fun r => r.1 == key)) (restart s c key x t)
  obtain ⟨_, e''⟩ := restart_rest s c key x t
  have same : die (placeRets k t (y.savedRets.filter (fun r => r.1 == key)) (restart s c key x t)) (dieOfCore k) = die s (dieOfCore k) := by
    rw [e', e'']
    rfl
  unfold takeUp
  dsimp only
  rw [if_pos array, modSa, die_modDie, if_pos rfl, ← same]
  rfl

/-! ### A thread resumed -/

/-- The state of a saved thread that resumes, its share moved, its state taken up. -/
def resumed (s : State) (c key : Nat) (x : Thread) (k t : Nat) (y : Ctx) : State := takeUp (shareMoved s c x k) c key x k t y

theorem shareMoved_ctx (s : State) (c : Nat) (x : Thread) (k j : Nat) : ctx? (shareMoved s c x k) j = ctx? s j := by
  obtain ⟨_, _, _, _, e⟩ := shareMoved_rest s c x k
  rw [e]
  rfl

/-- From the state taken up, its copies go on and entitlements change. -/
theorem resumeThread_chain {s : State} {c key : Nat} {x : Thread} {k h : Nat} {y : Ctx} (hy : ctx? s c = some y) :
    ∃ d, GoesOn (k * 17 + h) (resumed s c key x k (k * 17 + h) y) d ∧ EntOnly d (resumeThread s c key x k h) ∧
      (x.lost ≠ [] → ev .slicePlaced (k * 17 + h) ∈ (resumeThread s c key x k h).owed) := by
  have goes := copiesAgain_goesOn (resumed s c key x k (k * 17 + h) y) key k (k * 17 + h) y
  have placed : kfind (resumed s c key x k (k * 17 + h) y).threads (k * 17 + h) = some { x with array := none } := by
    obtain ⟨_, _, _, e⟩ := takeUp_rest (shareMoved s c x k) c key x k (k * 17 + h) y
    rw [resumed, e]
    exact kfind_kset_self ..
  obtain ⟨_, _, here⟩ := goes.own _ placed
  rw [resumeThread_eq h ((shareMoved_ctx ..).trans hy)]
  refine ⟨_, goes, .trans ?_ (owe_entOnly _ _), fun lost => List.mem_append_right _ ?_⟩
  · split
    · exact .refl _
    · have forgets : EntOnly _ (modThr (copiesAgain (resumed s c key x k (k * 17 + h) y) key k (k * 17 + h) y) (k * 17 + h)
          (fun y => { y with debt := none })) := modThr_entOnly (by rw [here]; rfl) fun _ => rfl
      exact forgets.trans (joinEnt_entOnly (by simp [modThr, setThr]))
  · rw [if_neg (by simpa using lost)]
    exact List.mem_singleton_self _

theorem resumeThread_rest {s : State} {c key : Nat} {x : Thread} {k h : Nat} {y : Ctx} (hy : ctx? s c = some y) :
    ∃ threads pools ctxs n owed, resumeThread s c key x k h = { resumed s c key x k (k * 17 + h) y with
      threads := threads, pools := pools, ctxs := ctxs, nextId := n, owed := owed } := by
  obtain ⟨d, goes, ent, -⟩ := resumeThread_chain (key := key) (x := x) (k := k) (h := h) hy
  obtain ⟨_, _, _, _, _, e⟩ := goes.rest
  obtain ⟨_, _, e'⟩ := ent.rest
  exact ⟨_, _, _, _, _, by rw [e', e]⟩

theorem resumed_threads (s : State) (c key : Nat) (x : Thread) (k t : Nat) (y : Ctx) :
    (resumed s c key x k t y).threads = kset s.threads t { x with array := none } := by
  obtain ⟨_, _, _, e⟩ := takeUp_rest (shareMoved s c x k) c key x k t y
  obtain ⟨_, _, _, _, e'⟩ := shareMoved_rest s c x k
  rw [resumed, e, e']

theorem resumeThread_threadsKept {s : State} {c key : Nat} {x : Thread} {k h : Nat} {y : Ctx} (hy : ctx? s c = some y) :
    ThreadsKept s (resumeThread s c key x k h) (k * 17 + h) := by
  intro j ne
  obtain ⟨d, goes, ent, -⟩ := resumeThread_chain (key := key) (x := x) (k := k) (h := h) hy
  rw [ent.threads, goes.others j ne, resumed_threads, kfind_kset_ne _ _ ne]

theorem resumeThread_thread {s : State} {c key : Nat} {x : Thread} {k h : Nat} {y : Ctx} (hy : ctx? s c = some y) :
    ∃ v, kfind (resumeThread s c key x k h).threads (k * 17 + h) = some v ∧
      v = { x with array := none, tags := v.tags, progress := v.progress, ent := v.ent, debt := v.debt } := by
  obtain ⟨d, goes, ent, -⟩ := resumeThread_chain (key := key) (x := x) (k := k) (h := h) hy
  obtain ⟨g, p, here⟩ := goes.own { x with array := none } (by rw [resumed_threads, kfind_kset_self])
  have kept := ent.threads (k * 17 + h)
  rw [here] at kept
  obtain ⟨v, found, same⟩ := Option.map_eq_some_iff.mp kept
  refine ⟨v, found, ?_⟩
  have back : v = { ({ v with ent := 0, debt := none } : Thread) with ent := v.ent, debt := v.debt } := rfl
  rw [same] at back
  rw [back]

theorem resumeThread_ctx {s : State} {c key : Nat} {x : Thread} {k h : Nat} {y : Ctx} (hy : ctx? s c = some y) :
    ∃ l, ctx? (resumeThread s c key x k h) c = some { letGo key y with savedBarriers := l } := by
  obtain ⟨d, goes, ent, -⟩ := resumeThread_chain (key := key) (x := x) (k := k) (h := h) hy
  have kept := goes.ctxs c
  rw [resumed, takeUp_ctx, if_pos rfl, shareMoved_ctx, hy] at kept
  obtain ⟨z, found, same⟩ := Option.map_eq_some_iff.mp kept
  have back : z = { ({ z with savedBarriers := [] } : Ctx) with savedBarriers := z.savedBarriers } := rfl
  rw [same] at back
  obtain ⟨_, _, e⟩ := ent.rest
  refine ⟨z.savedBarriers, ?_⟩
  rw [e]
  refine found.trans ?_
  rw [back]

theorem resumeThread_rets {s : State} {c key : Nat} {x : Thread} {k h : Nat} {y : Ctx} (hy : ctx? s c = some y) :
    ∃ u, u.rets = s.rets ∧
      (resumeThread s c key x k h).rets = (placeRets k (k * 17 + h) (y.savedRets.filter (fun r => r.1 == key)) u).rets := by
  obtain ⟨_, _, _, _, _, e⟩ := resumeThread_rest (key := key) (x := x) (k := k) (h := h) hy
  obtain ⟨_, e'⟩ := takeUp_rets (shareMoved s c x k) c key x k (k * 17 + h) y
  obtain ⟨_, _, _, _, e''⟩ := shareMoved_rest s c x k
  refine ⟨restart (shareMoved s c x k) c key x (k * 17 + h), ?_, ?_⟩
  · rw [restart_retsKept, e'']
  · rw [e, resumed, e']

theorem resumeThread_sa {s : State} {c key : Nat} {x : Thread} {k h : Nat} {y : Ctx} (hy : ctx? s c = some y)
    (array : x.array.isSome = true) :
    (die (resumeThread s c key x k h) (dieOfCore k)).sa = { (die s (dieOfCore k)).sa with owner := some (k * 17 + h) } := by
  obtain ⟨_, _, _, _, _, e⟩ := resumeThread_rest (key := key) (x := x) (k := k) (h := h) hy
  obtain ⟨_, _, _, _, e'⟩ := shareMoved_rest s c x k
  have same : die (shareMoved s c x k) (dieOfCore k) = die s (dieOfCore k) := by
    rw [e']
    rfl
  rw [e, ← same]
  exact takeUp_sa array

theorem resumeThread_core {s : State} {key : Nat} {x : Thread} {k h : Nat} {y : Ctx} {j : Task} (hy : ctx? s x.ctx = some y)
    (reaches : runReaches s k x = true) (found : kfind s.tasks x.task = some j) (own : j.ctx = x.ctx) (run : j.runSize ≠ 0) :
    (task (resumeThread s x.ctx key x k h) x.task).core = k := by
  obtain ⟨_, _, _, _, _, e⟩ := resumeThread_rest (key := key) (x := x) (k := k) (h := h) hy
  obtain ⟨_, _, _, e'⟩ := takeUp_rest (shareMoved s x.ctx x k) x.ctx key x k (k * 17 + h) y
  have moved := shareMoved_core reaches found own run
  rw [e, resumed, e']
  exact moved

theorem mayResume_reaches {s : State} {c key : Nat} {x : Thread} {k h : Nat} (may : mayResume s c key x k h = true) :
    runReaches s k x = true := by
  simp only [mayResume, Bool.and_eq_true] at may
  tauto

end Sys2Proof.Machine
end

section
/-! RESULT. Slot tables, unbinding and core configuration (O53). -/

namespace Sys2Proof.Machine

/-! ### The management core's writes -/

theorem exec_unbind (s : State) : exec .unbind s = execUnbind s := rfl
theorem exec_unbindComplete (s : State) : exec .unbindComplete s = execUnbindComplete s := rfl
theorem exec_resume (s : State) : exec .resume s = execResume s := rfl
theorem exec_lscfgWrite (s : State) : exec .lscfgWrite s = execLscfgWrite s := rfl
theorem exec_victWrite (s : State) : exec .victWrite s = execVictWrite s := rfl

/-- An entry of a core's pool, its bit for the core cleared where it is the context's. -/
theorem withoutCore_eq (s : State) (k c : Nat) : withoutCore s k c = (pool s (poolOfCore k)).slots.map (fun e => (e.1,
    if e.2.valid = true ∧ e.2.ctx = c then { e.2 with dw0 := e.2.dw0 &&& ~~~(BitVec.ofNat 64 (2 ^ (32 + k % 16))) } else e.2)) := by
  simp only [withoutCore, Bool.and_eq_true, beq_iff_eq]

theorem core_cleared (w : Word) (k : Nat) : (w &&& ~~~(BitVec.ofNat 64 (2 ^ (32 + k % 16)))).getLsbD (32 + k % 16) = false := by
  have lt : 32 + k % 16 < 64 := by omega
  simp only [BitVec.getLsbD_and, BitVec.getLsbD_not, BitVec.getLsbD_ofNat, Nat.testBit_two_pow_self, lt, decide_true, Bool.and_self,
    Bool.not_true, Bool.and_false]

/-- With the core taken from its entries a context is bound to no hardware context there. -/
theorem boundTo_withoutCore (s : State) (k c : Nat) : boundTo (tabled s (poolOfCore k) (withoutCore s k c)) k c = [] := by
  refine List.eq_nil_iff_forall_not_mem.mpr fun h mem => ?_
  obtain ⟨-, e, found, own⟩ := (mem_boundTo ..).mp mem
  obtain ⟨mem, valid, named, -⟩ := bindingEntry_spec found
  rw [show k / 16 = poolOfCore k from rfl, tabled_slots, withoutCore_eq] at mem
  obtain ⟨q, -, rfl⟩ := List.mem_map.mp mem
  dsimp only at named valid own
  split at named
  · rw [core_cleared] at named
    cases named
  · next other =>
    rw [if_neg other] at valid own
    exact other ⟨valid, own⟩

theorem putSlots_boundTo (s : State) (p : Nat) (slots : KMap SlotEntry) (k c : Nat) :
    boundTo (putSlots s p slots) k c = boundTo (tabled s p slots) k c := by
  simp only [boundTo, putSlots_bindingEntry]

theorem frozenCtx_none {s : State} {c : Nat} {x : Ctx} (hx : ctx? s c = some x) (thawed : x.frozen = none) : frozenCtx s c = false := by
  simp [frozenCtx, hx, thawed]

/-- Where an unbind begins, the table goes in force without the core, and that marks the context. -/
theorem execUnbind_begins {s : State} {x : Ctx} (lt : s.msg.a < 1536) (hx : ctx? s s.msg.b = some x) (thawed : x.frozen = none)
    (idle : s.msg.a ∉ x.unbinding) (bound : boundTo s s.msg.a s.msg.b ≠ []) :
    let t := putSlots s (poolOfCore s.msg.a) (withoutCore s s.msg.a s.msg.b)
    exec .unbind s = .next t ∧ Unbinds t (s.msg.a, s.msg.b) ∧ ev .unbind s.msg.a s.msg.b ∈ t.owed := by
  intro t
  obtain ⟨h, mem⟩ := List.exists_mem_of_ne_nil _ bound
  obtain ⟨small, e, was, own⟩ := (mem_boundTo ..).mp mem
  obtain ⟨marked, owed⟩ := putSlots_unbinds (withoutCore s s.msg.a s.msg.b) small was (own ▸ hx) (by rw [own, boundTo_withoutCore]; simp)
  rw [own] at marked owed
  refine ⟨?_, marked, owed⟩
  obtain ⟨y, hy, under⟩ := marked
  have begins : startUnbind s s.msg.a s.msg.b = t := by
    have there : ctx? (putSlots s (poolOfCore s.msg.a) (withoutCore s s.msg.a s.msg.b)) s.msg.b = some y := hy
    simp [startUnbind, bound, there, under, t]
  rw [exec_unbind, execUnbind]
  simp [hx, frozenCtx_none hx thawed, idle, bound, begins, Nat.not_le.mpr lt]

/-- What an unbind under way does with a core's threads before any is saved: words withdrawn, words finished, vector loads and matrix words
drained, and copies closed. -/
def stopThreads (s : State) (k c : Nat) : State :=
  let ts := unboundOn s k c
  let u := ts.foldl (fun s t => drainAll s t) (ts.foldl finishWord (withdraw s (fun t => ts.contains t)))
  settleClosing { u with pools := u.pools.map (fun p => (p.1, { p.2 with
    copies := p.2.copies.map (fun y => if ts.contains y.thread then { y with closing := true } else y) })) }

/-- Whether a core serves a context's scope misses. -/
def handles (v : State) (k c : Nat) : Bool := match (core v k).serving with | some m => m.ctx == c | none => false

theorem handles_iff (v : State) (k c : Nat) : handles v k c = true ↔ ∃ m, (core v k).serving = some m ∧ m.ctx = c := by
  unfold handles
  cases (core v k).serving <;> simp

theorem execUnbind_underWay {s : State} {x : Ctx} (lt : s.msg.a < 1536) (hx : ctx? s s.msg.b = some x) (thawed : x.frozen = none)
    (under : s.msg.a ∈ x.unbinding) : exec .unbind s =
      let k := s.msg.a
      let c := s.msg.b
      let ts := unboundOn s k c
      let v := stopThreads s k c
      let w := ts.foldl (fun s t => if frozenCtx s c then s else takeDue s t) v
      let z := ts.foldl saveThread w
      if ts.any (stopsLater v) || (handles v k c && writesLeft v (.thread (k * 17 + 16))) then .next (owe v [ev .unbind k c])
      else if frozenCtx w c then .next w
      else .next (owe (if (boundTo z k c).isEmpty then widenMarks z k c else z)
        [ev .unbindComplete k c, ev .tileDraw (poolOfCore k) c, ev .dispatch (poolOfCore k) c]) := by
  rw [exec_unbind]
  unfold execUnbind
  refine (if_neg ?_).trans ((if_neg ?_).trans rfl)
  · simp [hx, frozenCtx_none hx thawed, Nat.not_le.mpr lt]
  · simp [hx, under]

theorem execUnbindComplete_done {s : State} {x : Ctx} (hx : ctx? s s.msg.b = some x) (under : s.msg.a ∈ x.unbinding)
    (saved : unboundOn s s.msg.a s.msg.b = []) : exec .unbindComplete s =
      .next (modKeeper (modCtx s s.msg.b (fun x => { x with unbinding := x.unbinding.filter (· != s.msg.a) }))
        (fun y => { y with reports := y.reports ++ [(s.msg.a, s.msg.b)] })) := by
  simp [exec_unbindComplete, execUnbindComplete, hx, under, saved]

theorem exec_resume_saved {s : State} {n : Nat} {x : Thread} (saved : savedIn s s.msg.a = some (n, x)) : exec .resume s =
    if mayResume s n s.msg.a x s.msg.b s.msg.c then .next (resumeThread s n s.msg.a x s.msg.b s.msg.c) else .next s := by
  simp only [exec_resume, execResume, saved]

/-! ### The scratch scrubbed -/

/-- A core whose LSCFG is `v`, its local cache empty and its scratch zero. -/
def reconfigured (s : State) (k : Nat) (v : Word) : State :=
  let u := modCore s k (fun c => { c with lscfg := v })
  { u with local1 := u.local1.filter (fun q => q.1 / 1024 != k), mem := u.mem.zero (sramPa k 0) (2 ^ 18) }

theorem exec_lscfgWrite_fits {s : State} (lt : s.msg.a < 1536) (idle : ∀ q ∈ s.tasks, q.2.core = s.msg.a → q.2.runSize = 0)
    (fits : tableFits (modCore s s.msg.a (fun c => { c with lscfg := s.msg.words.headD 0 &&& 0xF })) (poolOfCore s.msg.a)
      (pool s (poolOfCore s.msg.a)).slots = true) :
    exec .lscfgWrite s = .next (reconfigured s s.msg.a (s.msg.words.headD 0 &&& 0xF)) := by
  have none : (kvals s.tasks).any (fun t => t.core == s.msg.a && t.runSize != 0) = false := by
    simp only [List.any_eq_false, kvals, List.mem_map, Bool.and_eq_true, beq_iff_eq, bne_iff_ne]
    rintro _ ⟨q, mem, rfl⟩ ⟨here, run⟩
    exact run (idle q mem here)
  rw [exec_lscfgWrite]
  unfold execLscfgWrite
  refine (if_neg ?_).trans rfl
  rw [none]
  simpa [Nat.not_le.mpr lt] using fits

/-! ### An entry written -/

/-- Whether a write would bind a context anew while an unbind of it is under way. -/
def stillUnbinding (s : State) (p : Nat) (e : SlotEntry) : Bool :=
  e.valid && (entryOf s p e.ctx).isNone && (match ctx? s e.ctx with | some x => !x.unbinding.isEmpty | none => false)

theorem stillUnbinding_iff (s : State) (p : Nat) (e : SlotEntry) : stillUnbinding s p e = true ↔
    e.valid = true ∧ entryOf s p e.ctx = none ∧ ∃ x, ctx? s e.ctx = some x ∧ x.unbinding ≠ [] := by
  unfold stillUnbinding
  cases ctx? s e.ctx <;> simp [and_assoc]

/-- The entry that a message writes, as it is held. -/
def messageEntry (s : State) : SlotEntry :=
  let w (n : Nat) : Word := s.msg.words.getD n 0
  SlotEntry.written { dw0 := w 0, dw1 := w 1, dw2 := w 2, dw3 := w 3, cycles := 0 }

/-- The table of a pool with the entry that a message writes. -/
def messageTable (s : State) : KMap SlotEntry := kset (pool s s.msg.a).slots s.msg.b (messageEntry s)

theorem exec_slotTableWrite (s : State) : exec .slotTableWrite s =
    if 96 ≤ s.msg.a || 16 ≤ s.msg.b || s.msg.words.length ≠ 4 || stillUnbinding s s.msg.a (messageEntry s) ||
      !tableFits s s.msg.a (messageTable s) then .next s else .next (putSlots s s.msg.a (messageTable s)) := rfl

theorem slotTableWrite_accepts {s : State} (pool : s.msg.a < 96) (entry : s.msg.b < 16) (four : s.msg.words.length = 4)
    (fits : tableFits s s.msg.a (messageTable s) = true) (free : ¬stillUnbinding s s.msg.a (messageEntry s) = true) :
    exec .slotTableWrite s = .next (putSlots s s.msg.a (messageTable s)) := by
  rw [exec_slotTableWrite, if_neg]
  simp [free, fits, four, Nat.not_le.mpr pool, Nat.not_le.mpr entry]

theorem slotTableWrite_refuses {s : State} (h : 96 ≤ s.msg.a ∨ 16 ≤ s.msg.b ∨ s.msg.words.length ≠ 4 ∨
    tableFits s s.msg.a (messageTable s) = false ∨ stillUnbinding s s.msg.a (messageEntry s) = true) :
    exec .slotTableWrite s = .next s := by
  rw [exec_slotTableWrite, if_pos]
  simp only [Bool.or_eq_true, decide_eq_true_eq, Bool.not_eq_true']
  tauto

section
variable {s : State} {x : Ctx} (lt : s.msg.a < 1536) (hx : ctx? s s.msg.b = some x) (thawed : x.frozen = none)
  (under : s.msg.a ∈ x.unbinding)
include lt hx thawed under

theorem execUnbind_waits (h : (∃ t ∈ unboundOn s s.msg.a s.msg.b, stopsLater (stopThreads s s.msg.a s.msg.b) t = true) ∨
    (∃ m, (core (stopThreads s s.msg.a s.msg.b) s.msg.a).serving = some m ∧ m.ctx = s.msg.b) ∧
      writesLeft (stopThreads s s.msg.a s.msg.b) (.thread (s.msg.a * 17 + 16)) = true) :
    exec .unbind s = .next (owe (stopThreads s s.msg.a s.msg.b) [ev .unbind s.msg.a s.msg.b]) := by
  rw [execUnbind_underWay lt hx thawed under]
  refine if_pos ?_
  rw [Bool.or_eq_true, Bool.and_eq_true, handles_iff, List.any_eq_true]
  exact h

theorem execUnbind_goesOn (quiet : ∀ t ∈ unboundOn s s.msg.a s.msg.b, stopsLater (stopThreads s s.msg.a s.msg.b) t = false)
    (idle : ¬((∃ m, (core (stopThreads s s.msg.a s.msg.b) s.msg.a).serving = some m ∧ m.ctx = s.msg.b) ∧
      writesLeft (stopThreads s s.msg.a s.msg.b) (.thread (s.msg.a * 17 + 16)) = true)) : exec .unbind s =
        let w := (unboundOn s s.msg.a s.msg.b).foldl (fun u t => if frozenCtx u s.msg.b then u else takeDue u t)
          (stopThreads s s.msg.a s.msg.b)
        let z := (unboundOn s s.msg.a s.msg.b).foldl saveThread w
        if frozenCtx w s.msg.b then .next w
        else .next (owe (if boundTo z s.msg.a s.msg.b = [] then widenMarks z s.msg.a s.msg.b else z)
          [ev .unbindComplete s.msg.a s.msg.b, ev .tileDraw (poolOfCore s.msg.a) s.msg.b, ev .dispatch (poolOfCore s.msg.a) s.msg.b]) := by
  rw [execUnbind_underWay lt hx thawed under]
  refine (if_neg ?_).trans ?_
  · rw [Bool.or_eq_true, Bool.and_eq_true, handles_iff, List.any_eq_true]
    rintro (⟨t, mem, later⟩ | serves)
    · rw [quiet t mem] at later
      cases later
    · exact idle serves
  · simp only [List.isEmpty_iff]

end

theorem reconfigured_mem (s : State) (k : Nat) (v : Word) (a : Nat) : (reconfigured s k v).mem.get a =
    if sramPa k 0 ≤ a ∧ a < sramPa k 0 + 2 ^ 18 then 0 else s.mem.get a := Memory.get_zero ..

theorem reconfigured_core (s : State) (k : Nat) (v : Word) : (core (reconfigured s k v) k).lscfg = v := by
  refine (congrArg Core.lscfg (core_modCore s k k (fun c => { c with lscfg := v }))).trans ?_
  rw [if_pos rfl]

theorem reconfigured_local1 {s : State} {k : Nat} {v : Word} : ∀ q ∈ (reconfigured s k v).local1, q.1 / 1024 ≠ k := fun _ mem =>
  bne_iff_ne.mp (List.mem_filter.mp mem).2

theorem exec_victWrite_of_lt {s : State} (lt : s.msg.a < 1536) :
    exec .victWrite s = .next (modCore s s.msg.a (fun c => { c with vict := s.msg.words.headD 0 &&& 0xF1 })) := by
  rw [exec_victWrite, execVictWrite, if_neg (Nat.not_le.mpr lt)]
  rfl

/-- Settles O53: what a table in force changes and owes, the table's rules as ranges, a thread saved, resumed and withdrawn, and each
write of the management core. -/
theorem slotEvents : Obligations.SlotEvents := by
  unfold Obligations.SlotEvents
  refine ⟨fun s p slots => ?_, fun s p slots => ?_, fun s n x y hx hy => ?_, fun s c key x y k h hy may => ?_, fun s f => ?_, fun s => ?_⟩
  · intro t
    refine ⟨putSlots_slots .., fun q => putSlots_pool_ne s slots, (putSlots_rest ..).1, (putSlots_rest ..).2, putSlots_threads s p slots,
      ?_, fun e mem valid => ?_, ?_⟩
    · rintro k h e c x rfl lt was rfl hx lost
      refine putSlots_unbinds slots lt was hx fun mem => ?_
      obtain ⟨-, e', found, same⟩ := (mem_boundTo ..).mp mem
      exact lost e' ((putSlots_bindingEntry ..).trans found) same
    · have named := mem_tableCtxs (s := s) (p := p) mem valid
      exact ⟨(putSlots_owes s named).1, (putSlots_owes s named).2, fun gained i lt => putSlots_zeros named gained lt⟩
    · rintro c x fits ⟨e, mem, valid, rfl⟩ hx w had n lt
      exact putSlots_fresh fits (mem_tableCtxs mem valid) hx had lt
  · intro f l spill win bars share apart
    rw [tableFits_iff]
    simp only [entryFits_iff, SlotEntry.ctx, SlotEntry.quota, SlotEntry.spill, SlotEntry.win, SlotEntry.sb, SlotEntry.share,
      SlotEntry.cores, scratchUnits, field_eq]
    rfl
  · intro t key array
    have here : thr s n = x := by simp [thr, kget, hx]
    obtain ⟨rets, nextId, stores⟩ := saveThread_rest s n
    have owns : ownsArray s n = decide array := by simp [ownsArray, array, Bool.beq_eq_decide_eq]
    refine ⟨saveThread_gone s n, saveThread_threadsKept s n, rets, nextId, saveThread_mem .., stores,
      fun c ne => ?_, ?_, keepThread s n y, ?_, fun j ne => ?_, ?_, ?_⟩
    · rw [saveThread_ctx, if_neg (here ▸ ne)]
    · rw [saveThread_sa, owns]
      simp only [decide_eq_true_eq]
      rfl
    · rw [saveThread_ctx, here, if_pos rfl, hy]
      rfl
    · exact kfind_kset_ne _ _ ne
    · refine (kfind_kset_self ..).trans ?_
      rw [owns, here, savedThread]
      simp only [decide_eq_true_eq]
      rfl
    · rfl
  · intro t u kept
    obtain ⟨l, hz⟩ := resumeThread_ctx (key := key) (x := x) (k := k) (h := h) hy
    obtain ⟨v, before, rets⟩ := resumeThread_rets (key := key) (x := x) (k := k) (h := h) hy
    obtain ⟨-, -, -, owes⟩ := resumeThread_chain (key := key) (x := x) (k := k) (h := h) hy
    refine ⟨resumeThread_threadsKept hy, resumeThread_thread hy, ⟨_, hz, ?_, ?_, ?_, fun j ne => ?_⟩, fun r mem only => ?_, fun n other => ?_,
      resumeThread_sa hy, owes, fun j found own here run => ?_⟩
    · simp [letGo, kfind_kdel]
    · simp [letGo]
    · simp [letGo]
    · simp [letGo, kfind_kdel, ne]
    · rw [ret, rets]
      exact placeRets_placed v mem only
    · rw [rets, ← before]
      exact placeRets_other v other
    · subst here
      exact resumeThread_core hy (mayResume_reaches may) found own run
  · intro stops t
    have same (y : Cond) : withdrawn y = stops y := rfl
    refine ⟨rfl, fun n => ?_, fun n => ?_⟩
    · rw [withdraw_thread]
      simp only [beforeLong_eq, same]
    · rw [withdraw_ret]
      simp only [same]
  · intro p k c
    refine ⟨⟨fun pool entry four fits free => slotTableWrite_accepts pool entry four fits fun busy => free ((stillUnbinding_iff ..).mp busy),
        fun refused => slotTableWrite_refuses (refused.imp_right (.imp_right (.imp_right (.imp_right (stillUnbinding_iff ..).mpr))))⟩,
      fun x lt hx thawed => ⟨fun idle bound => ?_, fun under => ⟨execUnbind_waits lt hx thawed under, fun quiet idle => ?_⟩,
        fun under saved => execUnbindComplete_done hx under saved⟩,
      fun n x saved => ⟨fun may => ?_, fun may => ?_⟩, ?_, exec_victWrite_of_lt⟩
    · obtain ⟨begins, ⟨y, hy, marked⟩, owed⟩ := execUnbind_begins lt hx thawed idle bound
      refine ⟨_, y, begins, hy, marked, owed, ?_, fun q ne => putSlots_pool_ne s _ ne, ?_⟩
      · rw [putSlots_boundTo, boundTo_withoutCore]
      · rw [putSlots_slots, withoutCore_eq]
    · have run := execUnbind_goesOn lt hx thawed under quiet idle
      exact ⟨fun frozen => run.trans (if_pos frozen), fun runs => run.trans (if_neg (Bool.eq_false_iff.mp runs))⟩
    · rw [exec_resume_saved saved, if_pos may]
    · rw [exec_resume_saved saved, may]
      rfl
    · intro lt idle v s' fits
      refine ⟨_, exec_lscfgWrite_fits lt idle fits, reconfigured_core .., fun a lo hi => ?_, fun a out => ?_, reconfigured_local1, rfl⟩
      · rw [reconfigured_mem, if_pos ⟨lo, hi⟩]
      · rw [reconfigured_mem, if_neg fun inside => out.elim (Nat.not_lt.mpr inside.1) (Nat.not_le.mpr inside.2)]

end Sys2Proof.Machine
end

section
/-! RESULT. No instruction word and no step of an engine stops the machine (O7). -/

namespace Sys2Proof.Machine

/-- A meaning answers a next state. -/
def GoesOut (o : Out) : Prop := ∃ t, o = .next t

theorem goesOut_next (t : State) : GoesOut (.next t) := ⟨t, rfl⟩

/-- A write of a control register goes on, whether or not there is such a register. -/
theorem csrWrite_goes (s : State) (csr : BitVec 12) (a : Reg) (f : Word → Word → Word) : GoesOut (csrWrite csr a f s) := by
  unfold csrWrite; split <;> exact goesOut_next _

/-- A word about a stage barrier goes on, whether or not the window has the barrier. -/
theorem sbWord_goes (s : State) (ok valid : Bool) (rs : List Reg) (a : Reg) (f : State → Nat → Barrier → State) :
    GoesOut (sbWord ok valid rs a f s) := by
  unfold sbWord; split <;> exact goesOut_next _

/-- A mailbox request goes on, as it arrives, is refused, waits its turn or is served. -/
theorem request_goes (i : Instr) (serve : State → Reply) (s : State) : GoesOut (request i serve s) := by
  simp only [request]; (repeat' split) <;> exact goesOut_next _

/-! ### Words about stage barriers -/

theorem execSbinit_goes (s : State) (a b : Reg) : GoesOut (execSbinit a b s) := by unfold execSbinit; exact sbWord_goes ..
theorem execSbexp_goes (s : State) (a b : Reg) : GoesOut (execSbexp a b s) := by unfold execSbexp; exact sbWord_goes ..
theorem execSbwait_goes (s : State) (d a b : Reg) : GoesOut (execSbwait d a b s) := by unfold execSbwait; exact sbWord_goes ..
theorem execSbrel_goes (s : State) (a : Reg) : GoesOut (execSbrel a s) := by unfold execSbrel; exact sbWord_goes ..
theorem execSbstat_goes (s : State) (d a b : Reg) : GoesOut (execSbstat d a b s) := by unfold execSbstat; exact sbWord_goes ..

/-! ### Steps of engines -/

theorem execSaloadRun_goes (s : State) : GoesOut (execSaloadRun s) := by fun_cases execSaloadRun s <;> exact goesOut_next _
theorem execSaseedRun_goes (s : State) : GoesOut (execSaseedRun s) := by fun_cases execSaseedRun s <;> exact goesOut_next _
theorem execSabetaRun_goes (s : State) : GoesOut (execSabetaRun s) := by fun_cases execSabetaRun s <;> exact goesOut_next _
theorem execSweep_goes (s : State) : GoesOut (execSweep s) := by fun_cases execSweep s <;> exact goesOut_next _
theorem execSaRegisterReturn_goes (s : State) : GoesOut (execSaRegisterReturn s) := by fun_cases execSaRegisterReturn s <;> exact goesOut_next _
theorem execEntropyRetest_goes (s : State) : GoesOut (execEntropyRetest s) := by fun_cases execEntropyRetest s <;> exact goesOut_next _
theorem execLaunchRecord_goes (s : State) : GoesOut (execLaunchRecord s) := by fun_cases execLaunchRecord s <;> exact goesOut_next _
theorem execPortWriteOther_goes (s : State) : GoesOut (execPortWriteOther s) := by fun_cases execPortWriteOther s <;> exact goesOut_next _
theorem execGangStart_goes (s : State) : GoesOut (execGangStart s) := by fun_cases execGangStart s <;> exact goesOut_next _
theorem execTileDraw_goes (s : State) : GoesOut (execTileDraw s) := by fun_cases execTileDraw s <;> exact goesOut_next _
theorem execDispatch_goes (s : State) : GoesOut (execDispatch s) := by fun_cases execDispatch s <;> exact goesOut_next _
theorem execTaskStart_goes (s : State) : GoesOut (execTaskStart s) := by fun_cases execTaskStart s <;> exact goesOut_next _
theorem execSteal_goes (s : State) : GoesOut (execSteal s) := by fun_cases execSteal s <;> exact goesOut_next _
theorem execGangEnd_goes (s : State) : GoesOut (execGangEnd s) := by fun_cases execGangEnd s <;> exact goesOut_next _
theorem execWdog_goes (s : State) : GoesOut (execWdog s) := by fun_cases execWdog s <;> exact goesOut_next _
theorem execQuantumExpiry_goes (s : State) : GoesOut (execQuantumExpiry s) := by fun_cases execQuantumExpiry s <;> exact goesOut_next _
theorem execSlotTableWrite_goes (s : State) : GoesOut (execSlotTableWrite s) := by fun_cases execSlotTableWrite s <;> exact goesOut_next _
theorem execUnbind_goes (s : State) : GoesOut (execUnbind s) := by fun_cases execUnbind s <;> exact goesOut_next _
theorem execUnbindComplete_goes (s : State) : GoesOut (execUnbindComplete s) := by fun_cases execUnbindComplete s <;> exact goesOut_next _
theorem execResume_goes (s : State) : GoesOut (execResume s) := by fun_cases execResume s <;> exact goesOut_next _
theorem execLscfgWrite_goes (s : State) : GoesOut (execLscfgWrite s) := by fun_cases execLscfgWrite s <;> exact goesOut_next _
theorem execVictWrite_goes (s : State) : GoesOut (execVictWrite s) := by fun_cases execVictWrite s <;> exact goesOut_next _
theorem execLoadResponse_goes (s : State) : GoesOut (execLoadResponse s) := by fun_cases execLoadResponse s <;> exact goesOut_next _
theorem execAtomicResponse_goes (s : State) : GoesOut (execAtomicResponse s) := by fun_cases execAtomicResponse s <;> exact goesOut_next _
theorem execVectorLoadArrival_goes (s : State) : GoesOut (execVectorLoadArrival s) := by fun_cases execVectorLoadArrival s <;> exact goesOut_next _
theorem execMatrixWordComplete_goes (s : State) : GoesOut (execMatrixWordComplete s) := by fun_cases execMatrixWordComplete s <;> exact goesOut_next _
theorem execChunkDone_goes (s : State) : GoesOut (execChunkDone s) := by fun_cases execChunkDone s <;> exact goesOut_next _
theorem execChunkFault_goes (s : State) : GoesOut (execChunkFault s) := by fun_cases execChunkFault s <;> exact goesOut_next _
theorem execPageReport_goes (s : State) : GoesOut (execPageReport s) := by fun_cases execPageReport s <;> exact goesOut_next _
theorem execWakeMessage_goes (s : State) : GoesOut (execWakeMessage s) := by fun_cases execWakeMessage s <;> exact goesOut_next _
theorem execScopeMissMessage_goes (s : State) : GoesOut (execScopeMissMessage s) := by fun_cases execScopeMissMessage s <;> exact goesOut_next _
theorem execAcquireReissue_goes (s : State) : GoesOut (execAcquireReissue s) := by fun_cases execAcquireReissue s <;> exact goesOut_next _
theorem execGrantWake_goes (s : State) : GoesOut (execGrantWake s) := by fun_cases execGrantWake s <;> exact goesOut_next _
theorem execSliceMove_goes (s : State) : GoesOut (execSliceMove s) := by fun_cases execSliceMove s <;> exact goesOut_next _
theorem execLaneLost_goes (s : State) : GoesOut (execLaneLost s) := by fun_cases execLaneLost s <;> exact goesOut_next _
theorem execSlicePlaced_goes (s : State) : GoesOut (execSlicePlaced s) := by fun_cases execSlicePlaced s <;> exact goesOut_next _
theorem execUnitError_goes (s : State) : GoesOut (execUnitError s) := by fun_cases execUnitError s <;> exact goesOut_next _
theorem execAckDeadline_goes (s : State) : GoesOut (execAckDeadline s) := by fun_cases execAckDeadline s <;> exact goesOut_next _
theorem execDumpBuild_goes (s : State) : GoesOut (execDumpBuild s) := by fun_cases execDumpBuild s <;> exact goesOut_next _
theorem execHostWriteQueueDrain_goes (s : State) : GoesOut (execHostWriteQueueDrain s) := by fun_cases execHostWriteQueueDrain s <;> exact goesOut_next _
theorem execHostWrite_goes (s : State) : GoesOut (execHostWrite s) := by fun_cases execHostWrite s <;> exact goesOut_next _
theorem execHostRead_goes (s : State) : GoesOut (execHostRead s) := by fun_cases execHostRead s <;> exact goesOut_next _
theorem execPeerAccess_goes (s : State) : GoesOut (execPeerAccess s) := by fun_cases execPeerAccess s <;> exact goesOut_next _
theorem execTenantEnable_goes (s : State) : GoesOut (execTenantEnable s) := by fun_cases execTenantEnable s <;> exact goesOut_next _
theorem execDumpWindowSize_goes (s : State) : GoesOut (execDumpWindowSize s) := by fun_cases execDumpWindowSize s <;> exact goesOut_next _
theorem execAllowanceSet_goes (s : State) : GoesOut (execAllowanceSet s) := by fun_cases execAllowanceSet s <;> exact goesOut_next _
theorem execFirmwareUpdate_goes (s : State) : GoesOut (execFirmwareUpdate s) := by fun_cases execFirmwareUpdate s <;> exact goesOut_next _
theorem execOperatorKey_goes (s : State) : GoesOut (execOperatorKey s) := by fun_cases execOperatorKey s <;> exact goesOut_next _
theorem execSignedStateRead_goes (s : State) : GoesOut (execSignedStateRead s) := by fun_cases execSignedStateRead s <;> exact goesOut_next _
theorem execPowerGood_goes (s : State) : GoesOut (execPowerGood s) := by fun_cases execPowerGood s <;> exact goesOut_next _
theorem execThermalShutdown_goes (s : State) : GoesOut (execThermalShutdown s) := by fun_cases execThermalShutdown s <;> exact goesOut_next _
theorem execLinkRetrain_goes (s : State) : GoesOut (execLinkRetrain s) := by fun_cases execLinkRetrain s <;> exact goesOut_next _
theorem execStoreAcknowledged_goes (s : State) : GoesOut (execStoreAcknowledged s) := by fun_cases execStoreAcknowledged s <;> exact goesOut_next _
theorem execPginvComplete_goes (s : State) : GoesOut (execPginvComplete s) := by fun_cases execPginvComplete s <;> exact goesOut_next _
theorem execPacklinkLinkUp_goes (s : State) : GoesOut (execPacklinkLinkUp s) := by fun_cases execPacklinkLinkUp s <;> exact goesOut_next _

/-! ### Every instruction -/

/-- Every meaning answers a next state: a word by issuing or by its trap, a step of an engine also where its conditions do not hold. -/
theorem exec_goes (i : Instr) (s : State) : GoesOut (exec i s) := by
  cases i with
  | csrr d csr =>
    change GoesOut (execCsrr d csr s)
    unfold execCsrr; split <;> exact goesOut_next _
  | csrw csr a => exact (csrWrite_goes s csr a _ : GoesOut (execCsrw csr a s))
  | csrs csr a => exact (csrWrite_goes s csr a _ : GoesOut (execCsrs csr a s))
  | csrc csr a => exact (csrWrite_goes s csr a _ : GoesOut (execCsrc csr a s))
  | sbinit a b => exact execSbinit_goes s a b
  | sbexp a b => exact execSbexp_goes s a b
  | sbwait d a b => exact execSbwait_goes s d a b
  | sbrel a => exact execSbrel_goes s a
  | sbstat d a b => exact execSbstat_goes s d a b
  | ctxnew => exact (request_goes .. : GoesOut (execCtxnew s))
  | ctxdel => exact (request_goes .. : GoesOut (execCtxdel s))
  | load => exact (request_goes .. : GoesOut (execLoad s))
  | map => exact (request_goes .. : GoesOut (execMap s))
  | unmap => exact (request_goes .. : GoesOut (execUnmap s))
  | region => exact (request_goes .. : GoesOut (execRegion s))
  | regfree => exact (request_goes .. : GoesOut (execRegfree s))
  | mailboxRmack => exact (request_goes .. : GoesOut (execMailboxRmack s))
  | mapread => exact (request_goes .. : GoesOut (execMapread s))
  | logctl => exact (request_goes .. : GoesOut (execLogctl s))
  | dumpfree => exact (request_goes .. : GoesOut (execDumpfree s))
  | trace => exact (request_goes .. : GoesOut (execTrace s))
  | errs => exact (request_goes .. : GoesOut (execErrs s))
  | attest => exact (request_goes .. : GoesOut (execAttest s))
  | saloadRun => exact execSaloadRun_goes s
  | saseedRun => exact execSaseedRun_goes s
  | sabetaRun => exact execSabetaRun_goes s
  | sweep => exact execSweep_goes s
  | saRegisterReturn => exact execSaRegisterReturn_goes s
  | entropyRetest => exact execEntropyRetest_goes s
  | launchRecord => exact execLaunchRecord_goes s
  | portWriteOther => exact execPortWriteOther_goes s
  | gangStart => exact execGangStart_goes s
  | tileDraw => exact execTileDraw_goes s
  | dispatch => exact execDispatch_goes s
  | taskStart => exact execTaskStart_goes s
  | steal => exact execSteal_goes s
  | gangEnd => exact execGangEnd_goes s
  | wdog => exact execWdog_goes s
  | quantumExpiry => exact execQuantumExpiry_goes s
  | slotTableWrite => exact execSlotTableWrite_goes s
  | unbind => exact execUnbind_goes s
  | unbindComplete => exact execUnbindComplete_goes s
  | resume => exact execResume_goes s
  | lscfgWrite => exact execLscfgWrite_goes s
  | victWrite => exact execVictWrite_goes s
  | loadResponse => exact execLoadResponse_goes s
  | atomicResponse => exact execAtomicResponse_goes s
  | vectorLoadArrival => exact execVectorLoadArrival_goes s
  | matrixWordComplete => exact execMatrixWordComplete_goes s
  | chunkDone => exact execChunkDone_goes s
  | chunkFault => exact execChunkFault_goes s
  | pageReport => exact execPageReport_goes s
  | wakeMessage => exact execWakeMessage_goes s
  | scopeMissMessage => exact execScopeMissMessage_goes s
  | acquireReissue => exact execAcquireReissue_goes s
  | grantWake => exact execGrantWake_goes s
  | sliceMove => exact execSliceMove_goes s
  | laneLost => exact execLaneLost_goes s
  | slicePlaced => exact execSlicePlaced_goes s
  | unitError => exact execUnitError_goes s
  | ackDeadline => exact execAckDeadline_goes s
  | dumpBuild => exact execDumpBuild_goes s
  | hostWriteQueueDrain => exact execHostWriteQueueDrain_goes s
  | hostWrite => exact execHostWrite_goes s
  | hostRead => exact execHostRead_goes s
  | peerAccess => exact execPeerAccess_goes s
  | tenantEnable => exact execTenantEnable_goes s
  | dumpWindowSize => exact execDumpWindowSize_goes s
  | allowanceSet => exact execAllowanceSet_goes s
  | firmwareUpdate => exact execFirmwareUpdate_goes s
  | operatorKey => exact execOperatorKey_goes s
  | signedStateRead => exact execSignedStateRead_goes s
  | powerGood => exact execPowerGood_goes s
  | thermalShutdown => exact execThermalShutdown_goes s
  | linkRetrain => exact execLinkRetrain_goes s
  | storeAcknowledged => exact execStoreAcknowledged_goes s
  | pginvComplete => exact execPginvComplete_goes s
  | packlinkLinkUp => exact execPacklinkLinkUp_goes s
  | _ => exact goesOut_next _

/-- Settles O7, by the meaning of each instruction. -/
theorem execGoesOn : Obligations.ExecGoesOn := exec_goes

end Sys2Proof.Machine
end

section
/-! RESULT. Turns of agents: the decoded word or the trap that is due (O4). -/

namespace Sys2Proof.Machine

/-! ### The turn of an agent -/

theorem takeSlot_eq_turnOf (s : State) (a : Agent) (d : Bool) : takeSlot s a d = turnOf s a d := rfl

/-- An agent that takes its turn issues. -/
theorem step_of_takesTurn {s s0 : State} {a : Agent} {d : Bool} (h : TakesTurn s s0 a d) : step s = issueWord s0 a d := by
  obtain ⟨on, up, ⟨rest, sched, rfl, runs, kept⟩ | ⟨sched, owed, rfl, next⟩⟩ := h
  · simp [step, sched, on, up, wordTurn, runs, kept]
  · simp [step, sched, owed, on, up, next]

theorem issueWord_of_word {s t : State} {a : Agent} {d : Bool} {w : Word} {i : Instr} (free : dueTrap (turnOf s a d) = none)
    (fetched : fetch (turnOf s a d) = .ok w) (decoded : decode w = .ok i)
    (done : exec i { turnOf s a d with ir := w } = .next t) :
    issueWord s a d = .next (forgetPage (singleStep { turnOf s a d with ir := w } t) a) := by
  simp [issueWord, takeSlot_eq_turnOf, free, runWord, fetched, decoded, done]

theorem issueWord_of_trap {s u : State} {a : Agent} {d : Bool} {code info : Nat} {tval : Word}
    (due : dueTrap (turnOf s a d) = some (u, code, info, tval)) :
    issueWord s a d = .next (forgetPage (takeTrap u code info tval) a) := by
  simp [issueWord, takeSlot_eq_turnOf, due]

/-! ### What a wake told an agent -/

theorem forgetPage_of_none {s : State} {a : Agent}
    (h : (match a with | .thread n => (thr s n).noPage | .ret n => (ret s n).noPage) = none) : forgetPage s a = s := by
  cases a <;> simp_all [forgetPage]

theorem thr_forgetPage {s : State} {n : Nat} (h : (thr s n).cond ≠ .waiting) :
    thr (forgetPage s (.thread n)) n = { thr s n with noPage := none } := by
  cases told : (thr s n).noPage with
  | none => rw [forgetPage_of_none (a := .thread n) told, ← told]
  | some p => simp [forgetPage, told, h]

theorem ret_forgetPage {s : State} {n : Nat} (h : (ret s n).cond ≠ .waiting) :
    ret (forgetPage s (.ret n)) n = { ret s n with noPage := none } := by
  cases told : (ret s n).noPage with
  | none => rw [forgetPage_of_none (a := .ret n) told, ← told]
  | some p => simp [forgetPage, told, h]

/-! ### The trap that is due -/

theorem dueTrap_ret {s : State} {n : Nat} (h : s.cur = .ret n) : dueTrap s = none := by simp [dueTrap, h]

/-- A pending trap is due, but for RMSUSP at S or at a word that is completed first. -/
theorem dueTrap_pending {s : State} {n code info tval : Nat} (h : s.cur = .thread n)
    (pends : (thr s n).pendTrap = some (code, info, tval)) :
    dueTrap s = if code = 0xB ∧ (privOf (thr s n) = true ∨ lateWord s n ≠ none) then none
      else some (setThr s n { thr s n with pendTrap := none }, code, info, BitVec.ofNat 64 tval) := by
  simp [dueTrap, h, pends, Option.isSome_iff_ne_none]

/-- Where none pends, RMSUSP is due at U outside the service context, but for a word that is completed first. -/
theorem dueTrap_quiet {s : State} {n : Nat} (h : s.cur = .thread n) (quiet : (thr s n).pendTrap = none) :
    dueTrap s = if (thr s n).rmsusp = true ∧ privOf (thr s n) = false ∧ svcOf (thr s n) = false ∧ lateWord s n = none then
      some (setThr s n { thr s n with rmsusp := false }, 0xB, 0, BitVec.ofNat 64 s.keeper.version) else none := by
  simp [dueTrap, h, quiet, and_assoc]

/-! ### Words that are completed first -/

theorem wordAt_eq_some {s : State} {n : Nat} {w : Word} {i : Instr} :
    wordAt s n = some (w, i) ↔ fetch { s with cur := .thread n } = .ok w ∧ decode w = .ok i := by
  unfold wordAt
  constructor
  · intro h
    split at h
    · cases h
    · next v fetched =>
      split at h
      · next j decoded =>
        cases h
        exact ⟨fetched, decoded⟩
      · cases h
  · rintro ⟨fetched, decoded⟩
    simp [fetched, decoded]

/-- A word that names FCSR, or a register word of the array whose checks have passed, is completed before its thread stops. -/
theorem lateWord_eq_some {s : State} {n : Nat} {w : Word} {i : Instr} : lateWord s n = some (w, i) ↔
    (thr s n).cond = .waiting ∧ fetch { s with cur := .thread n } = .ok w ∧ decode w = .ok i ∧
      ((∃ r, i = .csrr r 1 ∨ i = .csrw 1 r ∨ i = .csrs 1 r ∨ i = .csrc 1 r) ∨
        (i = .saclamp ∧ inRegisterWord s n w [(vFields w).s] [(vFields w).va, (vFields w).vb] 32 = true) ∨
        (i = .saread ∧ inRegisterWord s n w [(vFields w).s] [(vFields w).vd] 32 = true) ∨
        (i = .sacount ∧ inRegisterWord s n w [(vFields w).s, extReg (vFields w)] [(vFields w).vd] 1 = true)) := by
  unfold lateWord
  by_cases waits : (thr s n).cond = .waiting
  · rw [if_neg (by simp [waits]), Option.filter_eq_some_iff, wordAt_eq_some, and_assoc, and_iff_right waits]
    refine and_congr_right fun _ => and_congr_right fun _ => ⟨fun late => ?_, ?_⟩
    · cases i with
      | csrr r csr => exact .inl ⟨r, .inl (congrArg _ (eq_of_beq late))⟩
      | csrw csr r => exact .inl ⟨r, .inr (.inl (congrArg (Instr.csrw · r) (eq_of_beq late)))⟩
      | csrs csr r => exact .inl ⟨r, .inr (.inr (.inl (congrArg (Instr.csrs · r) (eq_of_beq late))))⟩
      | csrc csr r => exact .inl ⟨r, .inr (.inr (.inr (congrArg (Instr.csrc · r) (eq_of_beq late))))⟩
      | saclamp => exact .inr (.inl ⟨rfl, late⟩)
      | saread => exact .inr (.inr (.inl ⟨rfl, late⟩))
      | sacount => exact .inr (.inr (.inr ⟨rfl, late⟩))
      | _ => exact absurd late Bool.false_ne_true
    · rintro (⟨r, rfl | rfl | rfl | rfl⟩ | ⟨rfl, inside⟩ | ⟨rfl, inside⟩ | ⟨rfl, inside⟩)
      exacts [rfl, rfl, rfl, rfl, inside, inside, inside]
  · simp [waits]

theorem inRegisterWord_iff (s : State) (n : Nat) (w : Word) (rs : List Reg) (vs : List VReg) (m : Nat) :
    inRegisterWord s n w rs vs m = true ↔
      (die s (dieOf n)).sa.owner = some n ∧ admits { s with cur := .thread n } false rs = true ∧
        inSvc { s with cur := .thread n } = false ∧ (thr s n).vceil ≠ 0 ∧ landed (thr s n) vs = true ∧
        (reg { s with cur := .thread n } (vFields w).s).toNat < 65536 ∧
        (reg { s with cur := .thread n } (vFields w).s).toNat % m = 0 := by
  simp [inRegisterWord, and_assoc]

/-! ### RMSUSP at resumption -/

theorem rmsusp_eq {s : State} {c : Nat} {x : Ctx} (h : ctx? s c = some x) (handled : x.tvec ≠ 0) :
    rmsusp s c = modCtx { s with threads := s.threads.map (fun p => (p.1, toldOfMap c s.keeper.version p.2)) } c
      (fun x => { x with saved := x.saved.map (fun p => (p.1, toldOfMap c s.keeper.version p.2)) }) := by
  unfold rmsusp
  rw [h]
  dsimp -zeta only
  rw [if_neg handled]
  extract_lets hit
  have told : hit = toldOfMap c s.keeper.version := by
    funext y
    simp only [hit, toldOfMap]
    cases y.pendTrap <;> simp
  rw [told]

/-- What a context and its threads are once RMSUSP is given to them. -/
theorem rmsusp_spec {s : State} {c : Nat} {x : Ctx} (h : ctx? s c = some x) (handled : x.tvec ≠ 0) :
    rmsusp s c = { s with threads := (rmsusp s c).threads, ctxs := (rmsusp s c).ctxs } ∧
      (∀ n, kfind (rmsusp s c).threads n = (kfind s.threads n).map (toldOfMap c s.keeper.version)) ∧
      (∀ k, k ≠ c → ctx? (rmsusp s c) k = ctx? s k) ∧
      ctx? (rmsusp s c) c = some { x with saved := x.saved.map (fun p => (p.1, toldOfMap c s.keeper.version p.2)) } := by
  have found : kfind s.ctxs c = some x := h
  rw [rmsusp_eq h handled]
  simp only [modCtx, found]
  exact ⟨trivial, fun n => kfind_map _ _ _, fun k hk => kfind_kset_ne _ _ hk, kfind_kset_self _ _ _⟩

/-- The driver's acknowledgement of the version in force (R148, R343, R344). -/
theorem ackVersion_driver {s : State} {c : Nat} {x : Ctx} (h : ctx? s c = some x) :
    ackVersion s c s.keeper.version true =
      let u := modCtx s c (fun x => { x with acked := s.keeper.version, arrears := none, suspended := false })
      if x.suspended then (owe (rmsusp u c) ((u.cores.filter (fun p => p.2.smq.any (fun m => m.ctx = c))).map
        (fun p => ev .scopeMissMessage p.1)), 0) else (u, 0) := by
  simp [ackVersion, suspendedCtx, h]

/-- Settles O4: the turn is `issueWord` of the agent, which takes the due trap or carries out the decoded word; what is due is read off
`dueTrap`, and what resumption makes due off `rmsusp`. -/
theorem stepRunsDecoded : Obligations.StepRunsDecoded := by
  refine ⟨fun s s0 a d turn => ⟨fun w i t free fetched decoded done => ?_, fun u code info tval due => ?_⟩,
    fun s a d rest on up sched => ⟨fun idle => ?_, fun n ha runs forgo => ?_⟩, fun s a => ⟨forgetPage_of_none, ?_⟩,
    fun s n => ⟨dueTrap_ret, fun cur => ⟨fun code info tval pends => ?_, fun quiet => ?_⟩⟩, fun s n w i => ?_,
    fun s c x hx => ⟨fun unhandled => ?_, rmsusp_spec hx, fun sus => ?_, fun runs => ?_⟩⟩
  · rw [step_of_takesTurn turn, issueWord_of_word free fetched decoded done]
  · rw [step_of_takesTurn turn, issueWord_of_trap due]
  · simp [step, sched, on, up, wordTurn, idle]
  · subst ha
    simp [step, sched, on, up, wordTurn, runs, forgoes, forgo, forgone]
  · cases a with
    | thread n => exact thr_forgetPage
    | ret n => exact ret_forgetPage
  · rw [dueTrap_pending cur pends]
    refine ⟨fun sus held => if_pos ⟨sus, held⟩, fun free => if_neg ?_⟩
    rintro ⟨sus, held⟩
    obtain ⟨user, late⟩ := free.resolve_left (absurd sus)
    exact held.elim (by simp [user]) (absurd late)
  · rw [dueTrap_quiet cur quiet]
    exact ⟨fun sus => if_pos sus, fun free => if_neg free⟩
  · rw [lateWord_eq_some]
    simp only [inRegisterWord_iff]
  · simp [rmsusp, hx, unhandled]
  · refine ⟨_, ?_, by rw [ackVersion_driver hx, sus]; rfl⟩
    rintro p hp
    obtain ⟨k, -, rfl⟩ := List.mem_map.mp hp
    exact ⟨_, rfl⟩
  · rw [ackVersion_driver hx, runs]
    rfl

end Sys2Proof.Machine
end

section
/-! SUPPORT. Values of an access, agents that wait for a response, acquires that are held, and locations written in a list of writes. -/

namespace Sys2Proof.Machine

/-! ### Bytes and values -/

theorem leNat_lt (l : List Byte) : leNat l < 2 ^ (8 * l.length) := by
  induction l with
  | nil => simp [leNat]
  | cons b r ih =>
    have hb := b.isLt
    rw [leNat, List.length_cons, Nat.mul_succ, Nat.pow_add]
    omega

/-- The little-endian bytes of the number that bytes make are those bytes (R5). -/
theorem leBytes_leNat (l : List Byte) : leBytes l.length (leNat l) = l := by
  induction l with
  | nil => rfl
  | cons b r ih =>
    have hb := b.isLt
    rw [leNat, List.length_cons, leBytes, show (b.toNat + 256 * leNat r) / 256 = leNat r by omega, ih]
    congr 1
    apply BitVec.eq_of_toNat_eq
    rw [BitVec.toNat_ofNat]
    omega

/-- A number of `c` bits read as a signed one. -/
theorem toInt_ofNat_of_lt {c x : Nat} (hc : 0 < c) (hx : x < 2 ^ c) :
    (BitVec.ofNat c x).toInt = if x.testBit (c - 1) then (x : Int) - (2 ^ c : Nat) else x := by
  rw [BitVec.toInt_eq_msb_cond, BitVec.msb_eq_getLsbD_last, BitVec.getLsbD_ofNat, BitVec.toNat_ofNat, Nat.mod_eq_of_lt hx]
  simp [hc]

/-- The value of a signed load is its bytes sign-extended (R143). -/
theorem loadValue_signed (l : List Byte) (h0 : 0 < l.length) : loadValue true l = extended l.length true l := by
  have hc : 0 < 8 * l.length := by omega
  have lt := leNat_lt l
  have top : (leNat l).testBit (8 * l.length - 1) = decide (2 ^ (8 * l.length - 1) ≤ leNat l) := by
    have e : 2 ^ (8 * l.length) = 2 ^ (8 * l.length - 1) * 2 := by rw [← Nat.pow_succ]; congr 1; omega
    have small : leNat l / 2 ^ (8 * l.length - 1) < 2 := Nat.div_lt_of_lt_mul (by omega)
    rw [Nat.testBit_eq_decide_div_mod_eq, Nat.mod_eq_of_lt small]
    exact decide_eq_decide.mpr (by rw [← Nat.one_le_div_iff (Nat.two_pow_pos _)]; omega)
  unfold loadValue extended
  simp only [Bool.true_and, if_true, BitVec.signExtend, toInt_ofNat_of_lt hc lt, top]
  split
  · rfl
  · rw [BitVec.ofInt_natCast]

/-! ### A location in a list of writes -/

theorem lastWrite_single (p : Nat × Byte) (loc : Nat) : lastWrite [p] loc = if p.1 = loc then some p.2 else none := by
  by_cases h : p.1 = loc <;> simp [lastWrite, h]

/-- Where each location is written once, the last byte given to it is that of its write. -/
theorem lastWrite_of_nodup {l : List (Nat × Byte)} (once : (l.map (·.1)).Nodup) {p : Nat × Byte} (h : p ∈ l) :
    lastWrite l p.1 = some p.2 := by
  induction l using List.reverseRecOn with
  | nil => cases h
  | append_singleton l q ih =>
    rw [List.map_append, List.nodup_append] at once
    obtain ⟨once, -, apart⟩ := once
    rw [lastWrite_append, lastWrite_single]
    rcases List.mem_append.mp h with h | h
    · rw [if_neg (apart _ (List.mem_map_of_mem h) _ (by simp)).symm, ih once h]
      rfl
    · rw [List.mem_singleton.mp h, if_pos rfl]
      rfl

theorem zip_fst {α β : Type} {l : List α} {r : List β} (h : l.length = r.length) : (l.zip r).map (·.1) = l :=
  List.map_fst_zip (by omega)

/-- Distinct locations given bytes in order hold them. -/
theorem get_setAll_zip (m : Memory) {locs : List Nat} {bytes : List Byte} (once : locs.Nodup) (h : locs.length = bytes.length)
    (l : List (Nat × Byte)) : locs.map (m.setAll (l ++ locs.zip bytes)).get = bytes := by
  apply List.ext_getElem (by simpa using h)
  intro i hi hi'
  have hl : i < locs.length := by simpa using hi
  have mem : (locs[i], bytes[i]) ∈ locs.zip bytes := by
    rw [← List.getElem_zip (h := by simpa [← h] using hl)]
    exact List.getElem_mem _
  rw [List.getElem_map, Memory.get_setAll, lastWrite_append, lastWrite_of_nodup (by rwa [zip_fst h]) mem]
  rfl

/-! ### Steps at homes -/

theorem Written.getLoc_off {s u : State} {l : List (Nat × Byte)} (h : Written s u l) (a : Agent) (d : Nat) {loc : Nat}
    (off : loc ∉ l.map (·.1)) : Machine.getLoc u a d loc = Machine.getLoc s a d loc := by
  rw [getLoc_eq, getLoc_eq, h.stores, h.sharedLoc_off d loc off]

theorem CachesOnly.homesOnly {s u : State} (h : CachesOnly s u) : HomesOnly s u := by
  unfold HomesOnly
  rw [h.rest]

/-! ### Conditions -/

/-- The issuing agent has the condition that it is set to, and no other agent is changed. -/
theorem setCond_set {s u : State} (h : SameAgents s u) (c : Cond) : CondSet s (setCond u c) c := by
  unfold setCond
  rw [h.cur]
  cases cur : s.cur with
  | thread n =>
    refine ⟨fun j hj => ?_, fun j _ => ?_, fun j hj => ?_, fun j hj => absurd (cur.symm.trans hj) (by simp)⟩
    · rw [modThr_threads, h.threads, kfind_kset_ne _ _ fun e => hj (by rw [cur, e])]
    · rw [modThr_rets, h.rets]
    · cases cur.symm.trans hj
      simp [thr, h.threads]
  | ret n =>
    refine ⟨fun j _ => ?_, fun j hj => ?_, fun j hj => absurd (cur.symm.trans hj) (by simp), fun j hj => ?_⟩
    · rw [modRet_threads, h.threads]
    · rw [modRet_rets, h.rets, kfind_kset_ne _ _ fun e => hj (by rw [cur, e])]
    · cases cur.symm.trans hj
      simp [ret, h.rets]

theorem setCond_rest (s : State) (c : Cond) :
    setCond s c = { s with threads := (setCond s c).threads, rets := (setCond s c).rets } := by
  unfold setCond; split <;> rfl

/-- An accepted word whose agent waits for its response. -/
theorem awaits_of {s u : State} (h : SameAgents s u) (w : Await) (e : Instr) :
    Awaits s u (owe (setCond u (.awaiting w)) [evA e s.cur]) w e := by
  refine ⟨⟨(setCond_set h _).threads, (setCond_set h _).rets, (setCond_set h _).thread, (setCond_set h _).ret⟩, ?_⟩
  rw [owe, setCond_rest]

/-! ### Acquires that are held -/

theorem narrowest_pos (k j : Nat) : 0 < narrowest k j := by
  unfold narrowest; (repeat' split) <;> decide

theorem narrowest_le (k j : Nat) : narrowest k j ≤ 4 := by
  unfold narrowest; (repeat' split) <;> decide

/-- A largest value of a list, from a start. -/
theorem foldl_max_spec {α : Type} (f : α → Nat) (l : List α) (n : Nat) :
    n ≤ l.foldl (fun n a => max n (f a)) n ∧ (∀ a ∈ l, f a ≤ l.foldl (fun n a => max n (f a)) n) ∧
      (l.foldl (fun n a => max n (f a)) n = n ∨ ∃ a ∈ l, l.foldl (fun n a => max n (f a)) n = f a) := by
  induction l generalizing n with
  | nil => simp
  | cons a r ih =>
    obtain ⟨above, all, found⟩ := ih (max n (f a))
    rw [List.foldl_cons]
    refine ⟨by omega, fun b hb => ?_, ?_⟩
    · rcases List.mem_cons.mp hb with rfl | hb
      · omega
      · exact all b hb
    · rcases found with same | ⟨b, hb, e⟩
      · rcases Nat.le_total (f a) n with le | le
        · exact .inl (by rw [same, Nat.max_eq_left le])
        · exact .inr ⟨a, by simp, by rw [same, Nat.max_eq_right le]⟩
      · exact .inr ⟨b, by simp [hb], e⟩

theorem mem_kset {α : Type} (m : KMap α) (k : Nat) (v : α) : (k, v) ∈ kset m k v := kfind_mem (kfind_kset_self m k v)

/-- An agent whose acquire is held is among those held on the granule. -/
theorem cur_mem_heldOn (s : State) (g : Nat) : s.cur ∈ heldOn (setCond s (.heldAcquire g)) g := by
  unfold heldOn setCond
  cases s.cur with
  | thread n =>
    refine List.mem_append_left _ (List.mem_map.mpr ⟨(n, { thr s n with cond := .heldAcquire g }), ?_, rfl⟩)
    exact List.mem_filter.mpr ⟨mem_kset _ _ _, by simp⟩
  | ret n =>
    refine List.mem_append_right _ (List.mem_map.mpr ⟨(n, { ret s n with cond := .heldAcquire g }), ?_, rfl⟩)
    exact List.mem_filter.mpr ⟨mem_kset _ _ _, by simp⟩

/-- The scope that a scope-miss message names as needed. -/
def neededScope (s : State) (g : Nat) (m : Mark) : Nat :=
  (heldOn s g).foldl (fun n a => max n (narrowest m.core (agentCore a))) (if s.peerHeld.any (fun p => p.1 == g) then 6 else 0)

/-- It takes in every acquirer held, is that of one of them or .w, and .w where a peer is one (R93). -/
theorem neededScope_spec {s : State} {g : Nat} {a : Agent} (m : Mark) (held : a ∈ heldOn s g) :
    (∀ a ∈ heldOn s g, narrowest m.core (agentCore a) ≤ neededScope s g m) ∧
      (neededScope s g m = 6 ∨ ∃ a ∈ heldOn s g, neededScope s g m = narrowest m.core (agentCore a)) ∧
      ((∃ p ∈ s.peerHeld, p.1 = g) → neededScope s g m = 6) := by
  obtain ⟨above, all, found⟩ := foldl_max_spec (fun a => narrowest m.core (agentCore a)) (heldOn s g)
    (if s.peerHeld.any (fun p => p.1 == g) then 6 else 0)
  change _ ≤ neededScope s g m at above
  change ∀ a ∈ heldOn s g, _ ≤ neededScope s g m at all
  change neededScope s g m = _ ∨ ∃ a ∈ heldOn s g, neededScope s g m = _ at found
  have taken := all a held
  have pos := narrowest_pos m.core (agentCore a)
  cases peer : s.peerHeld.any (fun p => p.1 == g) with
  | true =>
    simp only [peer, if_true] at above found
    have six : neededScope s g m = 6 := by
      refine found.resolve_right ?_
      rintro ⟨b, -, e⟩
      have := narrowest_le m.core (agentCore b)
      omega
    exact ⟨all, .inl six, fun _ => six⟩
  | false =>
    simp only [peer, Bool.false_eq_true, if_false] at found
    refine ⟨all, .inr (found.resolve_left (by omega)), ?_⟩
    rintro ⟨p, hp, e⟩
    rw [List.any_eq_false] at peer
    exact absurd (beq_iff_eq.mpr e) (peer p hp)

theorem missOut_setCond (s : State) (c : Cond) (g : Nat) : missOut (setCond s c) g = missOut s g := by simp [missOut]

/-- An acquire that a mark holds (R93, R94). -/
theorem holdAcquire_held (s : State) (g : Nat) (m : Mark) : Held s (holdAcquire s g m) g m := by
  unfold holdAcquire
  simp only [missOut_setCond]
  have set := setCond_set (.refl s) (.heldAcquire g)
  have rest := setCond_rest s (.heldAcquire g)
  have inside := cur_mem_heldOn s g
  generalize setCond s (.heldAcquire g) = u at set rest inside
  have cores : u.cores = s.cores := by rw [rest]
  have router : u.router = s.router := by rw [rest]
  have owed : u.owed = s.owed := by rw [rest]
  have peers : u.peerHeld = s.peerHeld := by rw [rest]
  have known (k : Nat) : core u k = core s k := by simp [core, cores]
  cases out : missOut s g with
  | true => exact ⟨set, by rw [if_pos rfl, rest], fun _ => ⟨cores, router, owed⟩, fun quiet => absurd (out.symm.trans quiet) (by simp)⟩
  | false =>
    obtain ⟨all, one, peer⟩ := neededScope_spec m inside
    rw [peers] at peer
    let msg : ScopeMsg := ⟨g, m.cva, m.ctx, neededScope u g m, m.scope⟩
    have sent : sendMiss u g m = owe (if (core s m.core).smq.length < 16 then
        modCore u m.core (fun x => { x with smq := x.smq ++ [msg] })
      else { u with router := u.router ++ [(m.core, msg)] }) [ev .scopeMissMessage m.core] := by
      rw [← known]; rfl
    rw [if_neg (by simp), sent]
    by_cases room : (core s m.core).smq.length < 16
    · rw [if_pos room]
      refine ⟨⟨set.threads, set.rets, set.thread, set.ret⟩, by rw [rest]; rfl, fun loud => absurd (out.symm.trans loud) (by simp), fun _ =>
        ⟨msg, rfl, rfl, rfl, rfl, all, one, peer, by rw [← owed]; rfl, fun _ => ⟨?_, router⟩, fun full => absurd room (by omega)⟩⟩
      rw [← known, ← cores]; rfl
    · rw [if_neg room]
      exact ⟨⟨set.threads, set.rets, set.thread, set.ret⟩, by rw [rest]; rfl, fun loud => absurd (out.symm.trans loud) (by simp), fun _ =>
        ⟨msg, rfl, rfl, rfl, rfl, all, one, peer, by rw [← owed]; rfl, fun h => absurd h room,
          fun _ => ⟨cores, by rw [← router]; rfl⟩⟩⟩

end Sys2Proof.Machine
end

section
/-! RESULT. Atomics, and what FENCE waits for (O19). -/

namespace Sys2Proof.Machine

/-! ### What dies give up -/

theorem lastWrite_flatMap_locs (q : List QWrite) (P : Nat → Bool) (loc : Nat) :
    lastWrite (q.flatMap (fun w => w.locs.filter (fun p => P p.1))) loc =
      if P loc then q.reverse.findSome? (fun w => lastWrite w.locs loc) else none := by
  induction q using List.reverseRecOn with
  | nil => simp [lastWrite]
  | append_singleton q w ih =>
    rw [List.flatMap_append, lastWrite_append, ih, List.flatMap_singleton, lastWrite_filter, List.reverse_append,
      List.reverse_singleton, List.singleton_append, List.findSome?_cons]
    by_cases hp : P loc = true
    · simp only [hp, if_true]
      cases lastWrite w.locs loc <;> rfl
    · simp [hp]

/-- What the dies of a list hold of a location that one die at most holds. -/
theorem lastWrite_dies (s : State) (P : Nat → Bool) {loc d : Nat} (h : P loc = true) (alone : ∀ k, k ≠ d → uoqRead s k loc = none)
    (ds : List Nat) : lastWrite (ds.flatMap (fun k => (die s k).uoq.flatMap (fun w => w.locs.filter (fun p => P p.1)))) loc =
      if d ∈ ds then uoqRead s d loc else none := by
  induction ds with
  | nil => simp [lastWrite]
  | cons k r ih =>
    rw [List.flatMap_cons, lastWrite_append, ih, lastWrite_flatMap_locs, if_pos h]
    change (if d ∈ r then uoqRead s d loc else none).or (uoqRead s k loc) = _
    by_cases hk : k = d
    · subst hk
      by_cases hr : k ∈ r <;> simp [hr]
    · simp [alone k hk, Ne.symm hk]

theorem uoqRead_of_notMem {s : State} {d : Nat} (h : d ∉ s.dies.map (·.1)) (loc : Nat) : uoqRead s d loc = none := by
  have idle : die s d = Die.reset := by
    unfold die kget
    cases e : kfind s.dies d with
    | none => rfl
    | some x => exact absurd (List.mem_map.mpr ⟨(d, x), kfind_mem e, rfl⟩) h
  simp [uoqRead, idle, Die.reset]

/-- A location that one die at most holds for itself takes, at the home, what that die gives it. -/
theorem recalled_mem {s : State} {locs : List Nat} {loc d : Nat} (shares : sharesGranule s locs loc = true) (here : offPart loc = false)
    (alone : ∀ k, k ≠ d → uoqRead s k loc = none) : (recalled s locs).mem.get loc = (uoqRead s d loc).getD (s.mem.get loc) := by
  have given := lastWrite_dies s (fun x => sharesGranule s locs x && !offPart x) (by simp [shares, here]) alone
    ((s.dies.map (·.1)).dedup.filter (fun _ => true))
  have own : (if d ∈ (s.dies.map (·.1)).dedup.filter (fun _ => true) then uoqRead s d loc else none) = uoqRead s d loc := by
    split
    · rfl
    · next h => exact (uoqRead_of_notMem (by simpa using h) loc).symm
  rw [own] at given
  rw [← given]
  unfold recalled recallUo
  simp only
  split
  · next none_ => rw [List.isEmpty_iff.mp none_]; rfl
  · rw [(putBytes_written _ _).1.mem, Memory.get_setAll]

/-! ### The effect of an atomic at its home -/

/-- An atomic that writes gives its locations the bytes, after what dies held for themselves of their granules. -/
theorem performAtomic_writes (s : State) (a : Agent) {refs : List ByteRef} {l : List Byte} (some_ : refs ≠ [])
    (h : refs.length = l.length) (rel : Option Nat) : ∃ r, (∀ q ∈ r, BroughtHome s (refs.map (·.loc)) q.1) ∧
      Written s (performAtomic s a refs (some l) rel) (r ++ (refs.map (·.loc)).zip l) := by
  obtain ⟨r0, rest, rfl⟩ := List.exists_cons_of_ne_nil some_
  have logged (b : Bool) : Written s (if b then s else logAgent s a 2 r0.loc r0.cva (r0 :: rest).length) [] := by
    cases b
    · exact logAgent_written ..
    · exact .refl s
  have first := logged (offPart r0.loc || inPools r0.loc)
  obtain ⟨r, brought, wrote⟩ := writeHome_written (if offPart r0.loc || inPools r0.loc then s else logAgent s a 2 r0.loc r0.cva
    (r0 :: rest).length) a (((r0 :: rest).map (·.loc)).zip l) r0.cva .none true
  rw [zip_fst (by simpa using h)] at brought
  refine ⟨r, fun q hq => first.broughtHome (brought q hq), (first.trans wrote).after ?_⟩
  cases rel with
  | none => exact putCovers_written ..
  | some sc =>
    change Written _ (if r0.kind = 2 then putCovers _ _ _ _ else releaseMark (putCovers _ _ _ _) a sc r0.loc r0.cva) []
    by_cases plain : r0.kind = 2
    · rw [if_pos plain]
      exact putCovers_written ..
    · rw [if_neg plain]
      exact (putCovers_written ..).trans (releaseMark_written ..)

/-- An atomic that writes nothing changes nothing that an agent reads. -/
theorem performAtomic_fails (s : State) (a : Agent) (refs : List ByteRef) (rel : Option Nat) :
    Written s (performAtomic s a refs none rel) [] := by
  unfold performAtomic
  split
  · exact .refl s
  · next r _ =>
    simp only
    have back (u : State) (b : Bool) : Written u (if b then u else recallLine u (nativePa u r.loc / 128 * 128)) [] := by
      cases b
      · exact (recallLine_lines ..).written
      · exact .refl u
    cases offPart r.loc || inPools r.loc with
    | true => exact back s _
    | false => exact (logAgent_written ..).trans (back _ _)

/-! ### The path of an atomic -/

section
variable (s : State) (m : AmoRef)

/-- The bytes of an atomic, their locations and its first byte. -/
def amoRefs : List ByteRef := accessRefs s m.seg (reg s m.a) (amoSize m)
def amoLocs : List Nat := (amoRefs s m).map (·.loc)
def amoFirst : ByteRef := byteRef s (myCtx s) ((seg s m.seg).base.toNat + (reg s m.a).toNat)
/-- The old value of an atomic, and what its agent takes into its register. -/
def amoOld : Nat := leNat (bytesOf (recalled s (amoLocs s m)) (amoRefs s m))
def amoValue : Word := extended (amoSize m) true (leBytes (amoSize m) (amoOld s m))
/-- What an acquire by an atomic joins. -/
def amoJoin : List Nat := if amoAcq m = true ∧ (amoFirst s m).kind ≠ 2 then coversAt s (amoLocs s m) else []

end

theorem amoRefs_length (s : State) (m : AmoRef) : (amoRefs s m).length = amoSize m := by simp [amoRefs, accessRefs]

theorem amoSize_pos (m : AmoRef) : 0 < amoSize m := by unfold amoSize; split <;> decide

theorem amoOld_lt (s : State) (m : AmoRef) : amoOld s m < 2 ^ (8 * amoSize m) := by
  have := leNat_lt (bytesOf (recalled s (amoLocs s m)) (amoRefs s m))
  rwa [bytesOf, List.length_map, amoRefs_length] at this

theorem loadValue_amo (s : State) (m : AmoRef) : loadValue true (bytesOf (recalled s (amoLocs s m)) (amoRefs s m)) = amoValue s m := by
  have size : (bytesOf (recalled s (amoLocs s m)) (amoRefs s m)).length = amoSize m := by simp [bytesOf, amoRefs_length]
  rw [loadValue_signed _ (by rw [size]; exact amoSize_pos m), size, amoValue, amoOld]
  conv_rhs => rw [← size, leBytes_leNat, size]

theorem amoRel_eq (m : AmoRef) (loc : Nat) : (relOf m.order m.scope).map (fun sc => relScope sc loc) = amoRel m loc := by
  unfold relOf amoRel; cases m.order <;> rfl

/-- What covers some locations is not changed as dies give them up. -/
theorem coversAt_recalled (s : State) (locs at_ : List Nat) : coversAt (recalled s locs) at_ = coversAt s at_ := by
  have same : (recalled s locs).covers = s.covers := by
    unfold recalled recallUo putBytes
    simp only
    split
    · rfl
    · split
      · rfl
      · exact foldl_keeps (f := fun (s : State) (p : Nat × Byte) => unpoison s p.1) State.covers
          (fun s p => by unfold unpoison; simp only; split <;> rfl) _ _
  simp [coversAt, same]

/-- What an atomic makes of memory is the same in states of the same bytes. -/
theorem AtomicApplied.of_sameBytes {s u t : State} {m : AmoRef} {new : Option Nat} (h : AtomicApplied s u m new) (k : SameBytes u t) :
    AtomicApplied s t m new := by
  obtain ⟨kept, put⟩ := h
  refine ⟨fun a d loc off spared => (k.bytesKept a d loc).trans (kept a d loc off spared), fun once => ?_⟩
  rw [k.mem]
  exact put once

/-- The effect of an atomic at its home (R97, R103, R145, R272). -/
theorem performAtomic_applied (s : State) (m : AmoRef) (a : Agent) (new : Option Nat) (rel : Option Nat) :
    HomesOnly s (performAtomic (recalled s (amoLocs s m)) a (amoRefs s m) (new.map (leBytes (amoSize m))) rel) ∧
      AtomicApplied s (performAtomic (recalled s (amoLocs s m)) a (amoRefs s m) (new.map (leBytes (amoSize m))) rel) m new := by
  obtain ⟨r0, home0, given, -⟩ := recallUo_spec s (fun _ => true) (amoLocs s m)
  cases new with
  | none =>
    have wrote := performAtomic_fails (recalled s (amoLocs s m)) a (amoRefs s m) rel
    have all := given.after wrote
    refine ⟨all.homes, fun a d loc off spared => all.getLoc_off a d fun inside => ?_, fun _ => wrote.mem⟩
    obtain ⟨q, hq, rfl⟩ := List.mem_map.mp inside
    exact spared (home0 q hq)
  | some v =>
    have size : (amoRefs s m).length = (leBytes (amoSize m) v).length := by rw [amoRefs_length, leBytes_length]
    have some_ : amoRefs s m ≠ [] := List.ne_nil_of_length_pos (by rw [amoRefs_length]; exact amoSize_pos m)
    obtain ⟨r1, home1, wrote⟩ := performAtomic_writes (recalled s (amoLocs s m)) a some_ size rel
    have all := given.trans wrote
    refine ⟨all.homes, fun a d loc off spared => all.getLoc_off a d fun inside => ?_, fun once => ?_⟩
    · obtain ⟨q, hq, rfl⟩ := List.mem_map.mp inside
      rcases List.mem_append.mp hq with hq | hq
      · exact spared (home0 q hq)
      · rcases List.mem_append.mp hq with hq | hq
        · exact spared (given.broughtHome (home1 q hq))
        · exact off (List.of_mem_zip hq).1
    · change (amoLocs s m).map _ = leBytes (amoSize m) v
      rw [Option.map_some, all.mem, ← List.append_assoc]
      exact get_setAll_zip _ once ((List.length_map _).trans size) _

/-- An atomic that writes `new`, where it writes, has been served at its home (R97, R272). -/
def amoEffect (s : State) (m : AmoRef) (new : Option Nat) : State :=
  let b := recalled s (amoLocs s m)
  noteReads (performAtomic b b.cur (amoRefs s m) (new.map (leBytes (amoSize m)))
    ((relOf m.order m.scope).map (fun sc => relScope sc (amoFirst s m).loc))) b.cur (amoLocs s m)

/-- What its agent waits for where the response is outstanding (R121). -/
def amoAwait (s : State) (d : Reg) (m : AmoRef) (cas : Bool) : Await :=
  .atomic d (amoValue s m) (amoValue s m) cas m.wide ((seg s m.seg).base.toNat + (reg s m.a).toNat) s.time (amoJoin s m)

/-- Its agent then awaits the old value or takes it. -/
def amoServed (s : State) (d : Reg) (m : AmoRef) (cas : Bool) (new : Option Nat) : State :=
  if s.defer then owe (setCond (amoEffect s m new) (.awaiting (amoAwait s d m cas))) [evA .atomicResponse s.cur]
  else advance (setReg (joinOps (amoEffect s m new) s.cur (amoJoin s m)) d (amoValue s m))

theorem amoEffect_homes (s : State) (m : AmoRef) (new : Option Nat) : HomesOnly s (amoEffect s m new) :=
  (performAtomic_applied s m _ new _).1.trans (noteReads_caches ..).homesOnly

theorem amoEffect_applied (s : State) (m : AmoRef) (new : Option Nat) : AtomicApplied s (amoEffect s m new) m new :=
  (performAtomic_applied s m _ new _).2.of_sameBytes (noteReads_caches ..).sameBytes

section
variable {s : State} {m : AmoRef} (d : Reg) (cas : Bool) (new : Nat → Option Nat)

theorem atomicPath_cause {c : Cause} (h : scalarCause s m.seg (reg s m.a) (amoSize m) 2 (amoSize m) = some c) :
    atomicPath s d m cas new = takeCause s c := by
  change scalarCause s m.seg (reg s m.a) (if m.wide then 8 else 4) 2 (if m.wide then 8 else 4) = some c at h
  unfold atomicPath
  simp only [h]

variable (free : scalarCause s m.seg (reg s m.a) (amoSize m) 2 (amoSize m) = none)
include free

theorem atomicPath_waits (h : atomicWaits s (amoFirst s m).kind (amoLocs s m) (amoRel m (amoFirst s m).loc) = true) :
    atomicPath s d m cas new = waitHere s := by
  change scalarCause s m.seg (reg s m.a) (if m.wide then 8 else 4) 2 (if m.wide then 8 else 4) = none at free
  rw [← amoRel_eq] at h
  unfold atomicPath
  simp only [free]
  exact if_pos h

variable (turn : atomicWaits s (amoFirst s m).kind (amoLocs s m) (amoRel m (amoFirst s m).loc) = false)
include turn

theorem atomicPath_held {g : Nat} {mk : Mark} (acq : amoAcq m = true) (k : (amoFirst s m).kind ≠ 2)
    (h : missOf s s.cur (amoLocs s m) = some (g, mk)) : atomicPath s d m cas new = holdAcquire s g mk := by
  change scalarCause s m.seg (reg s m.a) (if m.wide then 8 else 4) 2 (if m.wide then 8 else 4) = none at free
  rw [← amoRel_eq] at turn
  have joins : (amoAcq m && (amoFirst s m).kind != 2) = true := by
    simp only [acq, Bool.true_and, bne_iff_ne]
    exact k
  have miss : (if amoAcq m && (amoFirst s m).kind != 2 then missOf s s.cur (amoLocs s m) else none) = some (g, mk) := by
    rw [if_pos joins, h]
  unfold atomicPath
  simp only [free]
  refine (if_neg (Bool.eq_false_iff.mp turn)).trans ?_
  split
  · next _ _ e => cases miss.symm.trans e; rfl
  · next e => cases miss.symm.trans e

theorem atomicPath_clear (h : amoAcq m = true → (amoFirst s m).kind ≠ 2 → missOf s s.cur (amoLocs s m) = none) :
    atomicPath s d m cas new = if (amoLocs s m).any (poisoned s) then takeTrap s 5 0 0
      else amoServed s d m cas (new (amoOld s m)) := by
  change scalarCause s m.seg (reg s m.a) (if m.wide then 8 else 4) 2 (if m.wide then 8 else 4) = none at free
  rw [← amoRel_eq] at turn
  have miss : (if amoAcq m && (amoFirst s m).kind != 2 then missOf s s.cur (amoLocs s m) else none) = none := by
    split
    · next joins =>
      simp only [Bool.and_eq_true, bne_iff_ne] at joins
      exact h joins.1 joins.2
    · rfl
  have same := amoEffect_homes s m (new (amoOld s m))
  have join : (if amoAcq m && (amoFirst s m).kind != 2 then coversAt (recalled s (amoLocs s m)) (amoLocs s m) else []) =
      amoJoin s m := by
    simp [amoJoin, coversAt_recalled]
  unfold atomicPath
  simp only [free]
  refine (if_neg (Bool.eq_false_iff.mp turn)).trans ?_
  split
  · next _ _ e => cases miss.symm.trans e
  refine if_congr Iff.rfl rfl ?_
  change (if (amoEffect s m (new (amoOld s m))).defer then
      owe (setCond (amoEffect s m (new (amoOld s m))) (.awaiting (.atomic d (loadValue true (bytesOf (recalled s (amoLocs s m)) (amoRefs s m)))
          (loadValue true (bytesOf (recalled s (amoLocs s m)) (amoRefs s m))) cas m.wide ((seg s m.seg).base.toNat + (reg s m.a).toNat)
          (amoEffect s m (new (amoOld s m))).time
          (if amoAcq m && (amoFirst s m).kind != 2 then coversAt (recalled s (amoLocs s m)) (amoLocs s m) else []))))
        [evA .atomicResponse (amoEffect s m (new (amoOld s m))).cur]
    else advance (setReg (joinOps (amoEffect s m (new (amoOld s m))) (amoEffect s m (new (amoOld s m))).cur
          (if amoAcq m && (amoFirst s m).kind != 2 then coversAt (recalled s (amoLocs s m)) (amoLocs s m) else [])) d
        (loadValue true (bytesOf (recalled s (amoLocs s m)) (amoRefs s m))))) = _
  have defer : (amoEffect s m (new (amoOld s m))).defer = s.defer := by rw [same]
  have time : (amoEffect s m (new (amoOld s m))).time = s.time := by rw [same]
  have cur : (amoEffect s m (new (amoOld s m))).cur = s.cur := by rw [same]
  rw [defer, time, cur, loadValue_amo, join, amoServed, amoAwait]

end

/-! ### The words -/

/-- The operand of an atomic, at its size. -/
def amoArg (s : State) (b : Reg) (m : AmoRef) : Nat := (reg s b).toNat % 2 ^ (8 * amoSize m)

theorem amoBits (m : AmoRef) : (if m.wide then 64 else 32) = 8 * amoSize m := by unfold amoSize; split <;> rfl

/-- The signed order of two numbers of `c` bits, as AMOMIN and AMOMAX compare them. -/
theorem amoOp_signed {c old x : Nat} (hc : 0 < c) (ho : old < 2 ^ c) (hx : x < 2 ^ c) :
    amoOp 4 c old x = (if (BitVec.ofNat c x).toInt < (BitVec.ofNat c old).toInt then x else old) ∧
      amoOp 5 c old x = (if (BitVec.ofNat c old).toInt < (BitVec.ofNat c x).toInt then x else old) := by
  rw [toInt_ofNat_of_lt hc ho, toInt_ofNat_of_lt hc hx]
  exact ⟨rfl, rfl⟩

/-- What each atomic makes of the old value and its operand (R145). -/
theorem amo_forms {d b : Reg} {m : AmoRef} {p : Instr × (Nat → Nat → Nat → Nat)} (h : p ∈ amoForms d b m) :
    ∃ k, (∀ s, exec p.1 s = amo k d b m s) ∧ ∀ c old x, 0 < c → old < 2 ^ c → x < 2 ^ c → amoOp k c old x = p.2 c old x := by
  simp only [amoForms, List.mem_cons, List.not_mem_nil, or_false] at h
  rcases h with rfl | rfl | rfl | rfl | rfl | rfl | rfl | rfl | rfl
  · exact ⟨0, fun _ => rfl, fun _ _ _ _ _ _ => rfl⟩
  · exact ⟨1, fun _ => rfl, fun _ _ _ _ _ _ => rfl⟩
  · exact ⟨2, fun _ => rfl, fun _ _ _ _ _ _ => rfl⟩
  · exact ⟨3, fun _ => rfl, fun _ _ _ _ _ _ => rfl⟩
  · exact ⟨4, fun _ => rfl, fun _ _ _ hc ho hx => (amoOp_signed hc ho hx).1⟩
  · exact ⟨5, fun _ => rfl, fun _ _ _ hc ho hx => (amoOp_signed hc ho hx).2⟩
  · exact ⟨6, fun _ => rfl, fun _ _ _ _ _ _ => rfl⟩
  · exact ⟨7, fun _ => rfl, fun _ _ _ _ _ _ => rfl⟩
  · exact ⟨8, fun _ => rfl, fun _ _ _ _ _ _ => rfl⟩

/-- An atomic of the plain kinds takes the path of atomics with its new value. -/
theorem amoForms_path {s : State} {d b : Reg} {m : AmoRef} (ok : admits s true [d, b, m.a] = true)
    {p : Instr × (Nat → Nat → Nat → Nat)} (h : p ∈ amoForms d b m) :
    ∃ new, exec p.1 s = .next (atomicPath s d m false new) ∧
      new (amoOld s m) = some (p.2 (8 * amoSize m) (amoOld s m) (amoArg s b m)) := by
  obtain ⟨k, word, value⟩ := amo_forms h
  refine ⟨fun old => some (amoOp k (if m.wide then 64 else 32) old ((reg s b).toNat % 2 ^ (if m.wide then 64 else 32))),
    (word s).trans (issue_ok ok _), ?_⟩
  rw [amoBits]
  exact congrArg some (value _ _ _ (Nat.mul_pos (by decide) (amoSize_pos m)) (amoOld_lt s m) (Nat.mod_lt _ (Nat.two_pow_pos _)))

/-- CAS takes the path of atomics, and writes where the old value is the expected one. -/
theorem cas_path {s : State} {d b : Reg} {m : AmoRef} (ok : admits s true [d, b, m.a] = true) :
    ∃ new, exec (.cas d b m) s = .next (atomicPath s d m true new) ∧
      new (amoOld s m) = if amoOld s m = (reg s d).toNat % 2 ^ (8 * amoSize m) then some (amoArg s b m) else none := by
  refine ⟨fun old => if old = (reg s d).toNat % 2 ^ (if m.wide then 64 else 32)
    then some ((reg s b).toNat % 2 ^ (if m.wide then 64 else 32)) else none, ?_, by rw [amoBits]; rfl⟩
  change execCas d b m s = _
  exact issue_ok ok _

/-- A result of the path of atomics that does not depend on what is written is that of every atomic. -/
theorem atomics_all {s : State} {d b : Reg} {m : AmoRef} (ok : admits s true [d, b, m.a] = true) {t : State}
    (h : ∀ cas new, atomicPath s d m cas new = t) :
    (∀ p ∈ amoForms d b m, exec p.1 s = .next t) ∧ exec (.cas d b m) s = .next t := by
  obtain ⟨new, path, -⟩ := cas_path (s := s) (b := b) (m := m) ok
  refine ⟨fun p hp => ?_, by rw [path, h]⟩
  obtain ⟨new, path, -⟩ := amoForms_path ok hp
  rw [path, h]

theorem atomics_ill {s : State} {d b : Reg} {m : AmoRef} (ill : admits s true [d, b, m.a] = false) :
    (∀ p ∈ amoForms d b m, exec p.1 s = .next (takeIll s)) ∧ exec (.cas d b m) s = .next (takeIll s) := by
  refine ⟨fun p hp => ?_, ?_⟩
  · obtain ⟨k, word, -⟩ := amo_forms hp
    exact (word s).trans (issue_ill ill _)
  · change execCas d b m s = _
    exact issue_ill ill _

theorem atomicPath_served {s : State} {m : AmoRef} (h : AtomicReady s m) (d : Reg) (cas : Bool) (new : Nat → Option Nat) :
    atomicPath s d m cas new = amoServed s d m cas (new (amoOld s m)) :=
  (atomicPath_clear d cas new h.cause h.order h.mark).trans (if_neg (Bool.eq_false_iff.mp h.clean))

/-- An atomic whose old value comes at once (R103, R145). -/
theorem amoServed_done {s : State} (answered : s.defer = false) (d : Reg) (m : AmoRef) (cas : Bool) (new : Option Nat) :
    AtomicDone s (amoServed s d m cas new) d m (amoOld s m) new := by
  have homes := amoEffect_homes s m new
  have joined := joinOps_caches (amoEffect s m new) s.cur (amoJoin s m)
  have all := homes.trans joined.homesOnly
  rw [amoServed, answered]
  refine ⟨_, all, advance_setReg_retired all.sameAgents d _, ((amoEffect_applied s m new).of_sameBytes joined.sameBytes).of_sameBytes ?_⟩
  exact sameBytes_of (by simp) (by simp) (by simp)

/-- An atomic whose response stays outstanding (R103, R121). -/
theorem amoServed_sent {s : State} (sent : s.defer = true) (d : Reg) (m : AmoRef) (cas : Bool) (new : Option Nat) :
    AtomicSent s (amoServed s d m cas new) d m cas (amoOld s m) new := by
  have homes := amoEffect_homes s m new
  rw [amoServed, sent]
  refine ⟨_, homes, (amoEffect_applied s m new).of_sameBytes ?_, awaits_of homes.sameAgents (amoAwait s d m cas) _⟩
  exact sameBytes_of (by simp) (by simp) (by simp)

/-! ### The obligation -/

theorem lastWrite_of_notMem {l : List (Nat × Byte)} {loc : Nat} (h : loc ∉ l.map (·.1)) : lastWrite l loc = none := by
  unfold lastWrite
  rw [Option.map_eq_none_iff, List.find?_eq_none]
  intro x hx e
  exact h (List.mem_map.mpr ⟨x, List.mem_reverse.mp hx, of_decide_eq_true e⟩)

theorem Written.mem_off {s u : State} {l : List (Nat × Byte)} (h : Written s u l) {loc : Nat} (off : loc ∉ l.map (·.1)) :
    u.mem.get loc = s.mem.get loc := by
  rw [h.mem, Memory.get_setAll, lastWrite_of_notMem off]
  rfl

/-- What an access at the home has done to what dies held for themselves of its granules (R97, R272). -/
theorem recalled_spec (s : State) (locs : List Nat) : HomesOnly s (recalled s locs) ∧ (recalled s locs).stores = s.stores ∧
    (∀ loc, ¬BroughtHome s locs loc → (recalled s locs).mem.get loc = s.mem.get loc ∧
      ∀ a d, getLoc (recalled s locs) a d loc = getLoc s a d loc) ∧
    ∀ d loc, sharesGranule s locs loc = true → offPart loc = false → uoqRead (recalled s locs) d loc = none := by
  obtain ⟨l, home, wrote, gone⟩ := recallUo_spec s (fun _ => true) locs
  refine ⟨wrote.homes, wrote.stores, fun loc spared => ?_, fun d loc => gone d loc rfl⟩
  have off : loc ∉ l.map (·.1) := by
    intro inside
    obtain ⟨q, hq, rfl⟩ := List.mem_map.mp inside
    exact spared (home q hq)
  exact ⟨wrote.mem_off off, fun a d => wrote.getLoc_off a d off⟩

theorem atomicWaits_of_unit {s : State} {locs : List Nat} {loc : Nat} (mem : loc ∈ locs) (dead : atomicUnitLive s loc = false)
    (kind : BitVec 2) (rel : Option Nat) : atomicWaits s kind locs rel = true := by
  have : locs.all (atomicUnitLive s) = false := List.all_eq_false.mpr ⟨loc, mem, by simp [dead]⟩
  simp [atomicWaits, this]

/-- The first byte of an atomic is one of its bytes. -/
theorem amoFirst_mem (s : State) (m : AmoRef) : (amoFirst s m).loc ∈ amoLocs s m := by
  exact List.mem_map_of_mem (List.mem_map_of_mem (List.mem_map.mpr ⟨0, List.mem_range.mpr (amoSize_pos m), rfl⟩))

/-- FENCE (R86, R274). -/
theorem execFence_spec (s : State) (sc : Scope) :
    ((sc = .t ∨ pendingOf s s.cur = 0 ∧ (sc = .k ∨ sc = .h ∨ sc = .w → queued s s.cur = false ∧ inDieOnly s s.cur = false)) →
        exec (.fence sc) s = .next (advance s)) ∧
      (sc ≠ .t → (pendingOf s s.cur ≠ 0 ∨ (sc = .k ∨ sc = .h ∨ sc = .w) ∧ (queued s s.cur = true ∨ inDieOnly s s.cur = true)) →
        exec (.fence sc) s = .next (waitHere s)) := by
  have issues : exec (.fence sc) s = .next (if sc == .t then advance s
    else if pendingOf s s.cur ≠ 0 || (decide (4 ≤ scopeNum sc) && (queued s s.cur || inDieOnly s s.cur)) then waitHere s
    else advance s) := by
    change execFence sc s = _
    exact issue_ok rfl _
  have wide : sc = .k ∨ sc = .h ∨ sc = .w ↔ 4 ≤ scopeNum sc := by cases sc <;> simp [scopeNum]
  rw [issues, wide]
  constructor
  · rintro (rfl | ⟨idle, quiet⟩)
    · rfl
    · have passes : (decide (pendingOf s s.cur ≠ 0) || (decide (4 ≤ scopeNum sc) && (queued s s.cur || inDieOnly s s.cur))) = false := by
        by_cases far : 4 ≤ scopeNum sc
        · simp [idle, quiet far]
        · simp [idle, far]
      rw [passes]
      simp
  · intro notT busy
    rw [if_neg (by simpa using notT), if_pos (by simpa using busy)]

/-- Settles O19: every atomic takes one path at the home, whose branches are its clauses; an access at the home first recalls what dies
hold for themselves. -/
theorem atomicsAndFences : Obligations.AtomicsAndFences := by
  unfold Obligations.AtomicsAndFences
  refine ⟨fun s d b m ill => atomics_ill ill, fun s d b m ok => ?_, fun s locs => ?_, fun s m => ?_, fun s sc => ?_⟩
  · refine ⟨fun goes => ?_, fun ready sent => ?_, fun c cause => atomics_all ok fun cas new => atomicPath_cause d cas new cause,
      fun free => ⟨fun waits => atomics_all ok fun cas new => atomicPath_waits d cas new free waits, fun turn => ⟨?_, ?_⟩⟩⟩
    · refine ⟨fun p hp => ?_, ?_⟩
      · obtain ⟨new, path, value⟩ := amoForms_path ok hp
        exact ⟨_, path, by rw [atomicPath_served goes.toAtomicReady, value]; exact amoServed_done goes.answered d m false _⟩
      · obtain ⟨new, path, value⟩ := cas_path (s := s) (b := b) ok
        exact ⟨_, path, by rw [atomicPath_served goes.toAtomicReady, value]; exact amoServed_done goes.answered d m true _⟩
    · refine ⟨fun p hp => ?_, ?_⟩
      · obtain ⟨new, path, value⟩ := amoForms_path ok hp
        exact ⟨_, path, by rw [atomicPath_served ready, value]; exact amoServed_sent sent d m false _⟩
      · obtain ⟨new, path, value⟩ := cas_path (s := s) (b := b) ok
        exact ⟨_, path, by rw [atomicPath_served ready, value]; exact amoServed_sent sent d m true _⟩
    · exact fun g mk acq kind miss => ⟨_, holdAcquire_held s g mk,
        atomics_all ok fun cas new => atomicPath_held d cas new free turn acq kind miss⟩
    · exact fun clear poison => atomics_all ok fun cas new =>
        (atomicPath_clear d cas new free turn clear).trans (if_pos poison)
  · obtain ⟨homes, stores, spared, gone⟩ := recalled_spec s locs
    exact ⟨homes, stores, spared, gone, fun loc d shares here alone => recalled_mem shares here alone⟩
  · intro loc here outside dead
    have down : atomicUnitLive s loc = false := by simp [atomicUnitLive, here, outside, dead]
    exact atomicWaits_of_unit (amoFirst_mem s m) down _ _
  · obtain ⟨goes, waits⟩ := execFence_spec s sc
    exact ⟨fun h => ⟨_, goes h, advance_nothing s⟩, waits⟩

end Sys2Proof.Machine
end

section
/-! RESULT. The Retriever control words (O26). -/

namespace Sys2Proof.Machine

/-- A Retriever control word that may issue with some registers may issue with some of them. -/
theorem retCtlOk_of_subset {s : State} {rs qs : List Reg} (h : retCtlOk s rs = true) (sub : qs ⊆ rs) : retCtlOk s qs = true := by
  simp only [retCtlOk, admits, Bool.and_eq_true, List.all_eq_true] at h ⊢
  obtain ⟨⟨⟨range, thread⟩, user⟩, task⟩ := h
  exact ⟨⟨⟨fun r hr => range r (sub hr), thread⟩, user⟩, task⟩

theorem retOf_eq (s : State) (a : Reg) : retOf s a = 2 * myCore s + ((reg s a).extractLsb' 0 1).toNat := by
  rw [retOf, field_eq]

/-- The Retriever that a role names is on its thread's core, and so on its die. -/
theorem dieOfCore_retOf (s : State) (a : Reg) : dieOfCore (agentCore (.ret (retOf s a))) = myDie s := by
  have role : field (reg s a) 0 1 < 2 := Nat.mod_lt _ (by decide)
  change dieOfCore (retOf s a / 2) = dieOfCore (myCore s)
  congr 1
  unfold retOf
  omega

theorem dieOfCore_cur (s : State) : dieOfCore (agentCore s.cur) = myDie s := by
  unfold myDie myCore agentCore; cases s.cur <;> rfl

/-- An agent that acquires some writes is among the readers of those that its die's queues hold. -/
theorem joinOps_agents (s : State) (a : Agent) (ops : List Nat) {w : QWrite}
    (h : w ∈ (die (joinOps s a ops) (dieOfCore (agentCore a))).hostq ++ (die (joinOps s a ops) (dieOfCore (agentCore a))).peerq)
    (op : w.op ∈ ops) : a ∈ w.agents := by
  have some_ : ops.isEmpty = false := by
    cases ops with
    | nil => cases op
    | cons => rfl
  have marked (q : List QWrite) (hw : w ∈ q.map (fun w =>
      if ops.contains w.op && !w.agents.contains a then { w with agents := w.agents ++ [a] } else w)) : a ∈ w.agents := by
    obtain ⟨v, -, rfl⟩ := List.mem_map.mp hw
    split
    · simp
    · next kept =>
      rw [if_neg kept] at op
      simpa [op] using kept
  unfold joinOps at h
  simp only [some_, Bool.false_eq_true, if_false, die_modDie, if_true] at h
  exact (List.mem_append.mp h).elim (marked _) (marked _)

theorem CachesOnly.bytesKept {s u : State} (h : CachesOnly s u) : BytesKept s u := h.sameBytes.bytesKept

theorem wrote_of {s : State} {o : Out} {d : Reg} {v : Word} (h : o = .next (advance (setReg s d v))) :
    ∃ t, o = .next t ∧ Wrote s t d v := ⟨_, h, advance_setReg_wrote s d v⟩

section
variable {s : State} {d a b c : Reg} {x : Ctx}

theorem rload_other (s : State) (n : Nat) :
    ((match (ret s n).owner with | some t => t != me s | none => false) || (ret s n).state == 2) = true ↔
      (∃ t, (ret s n).owner = some t ∧ t ≠ me s) ∨ (ret s n).state = 2 := by
  cases (ret s n).owner <;> simp

theorem reissuedBad_iff (s : State) (r : Except Cause (List Byte)) :
    reissuedBad s r = true ↔ (my s).cond = .waiting ∧ ∃ info tval bad, r = .error (.trap 5 info tval bad) := by
  unfold reissuedBad
  rw [Bool.and_eq_true, beq_iff_eq]
  refine and_congr_right fun _ => ?_
  split
  · simp
  · next other => simpa using fun info tval bad => other info tval bad

/-- RLOAD of a Retriever that another owns or that runs. -/
theorem rload_busy (ok : retCtlOk s [d, a, b] = true)
    (h : (∃ t, (ret s (retOf s a)).owner = some t ∧ t ≠ me s) ∨ (ret s (retOf s a)).state = 2) :
    exec (.rload d a b) s = .next (advance (setReg s d 1)) := by
  change execRload d a b s = _
  rw [execRload, issue_ok ok]
  exact congrArg _ (if_pos ((rload_other s _).mpr h))

/-- RLOAD of a Retriever that is free and of a program that the context lacks. -/
theorem rload_missing (ok : retCtlOk s [d, a, b] = true) (hx : ctx? s (myCtx s) = some x)
    (h : ¬((∃ t, (ret s (retOf s a)).owner = some t ∧ t ≠ me s) ∨ (ret s (retOf s a)).state = 2))
    (none_ : ∀ k ∈ x.kernels, k.ret = true → k.entry ≠ (reg s b).toNat) :
    exec (.rload d a b) s = .next (advance (setReg s d 2)) := by
  have lacks : x.kernels.find? (fun k => k.ret && k.entry == (reg s b).toNat) = none :=
    List.find?_eq_none.mpr fun k hk => by simpa using none_ k hk
  change execRload d a b s = _
  rw [execRload, issue_ok ok]
  simp only [hx, lacks]
  exact congrArg _ (if_neg fun busy => h ((rload_other s _).mp busy))

/-- RLOAD of a Retriever that is free and of a program that the context has. -/
def rloadFound (s : State) (d a : Reg) (x : Ctx) (k : Kernel) : State :=
  if reissuedBad s (readHeap s k.entry k.size) then takeTrap s 5 0 0
  else if x.tainted.contains k.obj then advance (setReg s d 3)
  else if !unitLive s (2048 + retOf s a) then advance (setReg s d 4)
  else match readHeap s k.entry k.size with
    | .error y => takeCause s y
    | .ok l => advance (setReg (modRet s (retOf s a) (fun _ =>
        { Retriever.empty with owner := some (me s), state := 1, program := programWords l })) d 0)

theorem rload_found (ok : retCtlOk s [d, a, b] = true) (hx : ctx? s (myCtx s) = some x)
    (h : ¬((∃ t, (ret s (retOf s a)).owner = some t ∧ t ≠ me s) ∨ (ret s (retOf s a)).state = 2))
    {k : Kernel} (found : x.kernels.find? (fun k => k.ret && k.entry == (reg s b).toNat) = some k) :
    exec (.rload d a b) s = .next (rloadFound s d a x k) := by
  change execRload d a b s = _
  rw [execRload, issue_ok ok]
  simp only [hx, found]
  exact congrArg _ (if_neg fun busy => h ((rload_other s _).mp busy))

section
variable {k : Kernel}

theorem rloadFound_failed (h : (my s).cond = .waiting ∧ ∃ info tval bad, readHeap s k.entry k.size = .error (.trap 5 info tval bad)) :
    rloadFound s d a x k = takeTrap s 5 0 0 := if_pos ((reissuedBad_iff s _).mpr h)

variable (good : ¬((my s).cond = .waiting ∧ ∃ info tval bad, readHeap s k.entry k.size = .error (.trap 5 info tval bad)))
include good

theorem rloadFound_tainted (h : k.obj ∈ x.tainted) : rloadFound s d a x k = advance (setReg s d 3) := by
  rw [← reissuedBad_iff] at good
  rw [rloadFound, if_neg good, if_pos (by simpa using h)]

variable (clean : k.obj ∉ x.tainted)
include clean

theorem rloadFound_retired (h : unitLive s (2048 + retOf s a) = false) : rloadFound s d a x k = advance (setReg s d 4) := by
  rw [← reissuedBad_iff] at good
  rw [rloadFound, if_neg good, if_neg (by simpa using clean), if_pos (by simp [h])]

variable (live : unitLive s (2048 + retOf s a) = true)
include live

theorem rloadFound_error {y : Cause} (h : readHeap s k.entry k.size = .error y) : rloadFound s d a x k = takeCause s y := by
  rw [← reissuedBad_iff] at good
  rw [rloadFound, if_neg good, if_neg (by simpa using clean), if_neg (by simp [live]), h]

theorem rloadFound_ok {l : List Byte} (h : readHeap s k.entry k.size = .ok l) :
    rloadFound s d a x k = advance (setReg (modRet s (retOf s a) (fun _ =>
      { Retriever.empty with owner := some (me s), state := 1, program := programWords l })) d 0) := by
  rw [← reissuedBad_iff] at good
  rw [rloadFound, if_neg good, if_neg (by simpa using clean), if_neg (by simp [live]), h]

end

/-! ### RSTART -/

section
variable (ok : retCtlOk s [d, a, b, c] = true)
include ok

theorem rstart_foreign (h : (ret s (retOf s a)).owner ≠ some (me s) ∨ (ret s (retOf s a)).program = []) :
    exec (.rstart d a b c) s = .next (advance (setReg s d 2)) := by
  change execRstart d a b c s = _
  rw [execRstart, issue_ok ok]
  exact congrArg _ (if_pos (by simpa [owns] using h))

variable (mine : (ret s (retOf s a)).owner = some (me s)) (loaded : (ret s (retOf s a)).program ≠ [])
include mine loaded

theorem rstart_running (h : (ret s (retOf s a)).state = 2) :
    exec (.rstart d a b c) s = .next (advance (setReg s d 1)) := by
  change execRstart d a b c s = _
  rw [execRstart, issue_ok ok]
  simp [owns, mine, loaded, h]

variable (idle : (ret s (retOf s a)).state ≠ 2)
include idle

theorem rstart_offset (h : (reg s b).toNat % 8 ≠ 0 ∨ 8 * (ret s (retOf s a)).program.length ≤ (reg s b).toNat) :
    exec (.rstart d a b c) s = .next (advance (setReg s d 3)) := by
  change execRstart d a b c s = _
  rw [execRstart, issue_ok ok]
  simp only [owns, mine, loaded, idle, beq_self_eq_true, Bool.not_true, List.isEmpty_iff, Bool.false_or, if_false]
  exact congrArg _ (if_pos (by simpa using h))

variable (aligned : (reg s b).toNat % 8 = 0) (inside : (reg s b).toNat < 8 * (ret s (retOf s a)).program.length)
include aligned inside

/-- RSTART of a stopped Retriever at an offset of its program. -/
theorem rstart_ready : exec (.rstart d a b c) s = .next
    (if !unitLive s (2048 + retOf s a) then advance (setReg { s with free := s.free + 1 } d (Config.openWord s.free))
    else if releaseWaits s 1 then waitHere s
    else advance (setReg (startRet s (retOf s a) (reg s b) (reg s c)) d 0)) := by
  change execRstart d a b c s = _
  rw [execRstart, issue_ok ok]
  simp only [owns, mine, loaded, idle, beq_self_eq_true, Bool.not_true, List.isEmpty_iff, Bool.false_or, if_false]
  exact congrArg _ (if_neg (by simp [aligned, inside]))

end

/-- A Retriever that has been started (R85, R100, R249). -/
theorem startRet_spec (s : State) (a : Reg) (pc arg : Word) :
    CachesOnly (modRet s (retOf s a) (fun r => { r with
        hart := { (Hart.zero.set 1 arg) with segs := (hart s).segs, pc := pc }
        state := 2, code := 0, tval := 0, cond := .ready, noPage := none, stop := false })) (startRet s (retOf s a) pc arg) ∧
      ∀ w ∈ (die (startRet s (retOf s a) pc arg) (myDie s)).hostq ++ (die (startRet s (retOf s a) pc arg) (myDie s)).peerq,
        w.op ∈ queuedOps s s.cur → .ret (retOf s a) ∈ w.agents := by
  refine ⟨joinOps_caches .., fun w hw op => ?_⟩
  rw [← dieOfCore_retOf s a] at hw
  exact joinOps_agents _ _ _ hw op

/-! ### RSTOP and RSTAT -/

theorem rstop_foreign (ok : retCtlOk s [d, a] = true) (h : (ret s (retOf s a)).owner ≠ some (me s)) :
    exec (.rstop d a) s = .next (advance (setReg s d (BitVec.allOnes 64))) := by
  change execRstop d a s = _
  rw [execRstop, issue_ok ok]
  exact congrArg _ (if_pos (by simpa [owns] using h))

section
variable (ok : retCtlOk s [d, a] = true) (mine : (ret s (retOf s a)).owner = some (me s))
include ok mine

theorem rstop_idle (h : (ret s (retOf s a)).state ≠ 2) :
    exec (.rstop d a) s = .next (advance (setReg s d (retDword (ret s (retOf s a)) 0))) := by
  change execRstop d a s = _
  rw [execRstop, issue_ok ok]
  simp [owns, mine, h]

variable (runs : (ret s (retOf s a)).state = 2)
include runs

/-- RSTOP of a Retriever that awaits a response. -/
theorem rstop_awaits {w : Await} (h : (ret s (retOf s a)).cond = .awaiting w) :
    exec (.rstop d a) s = .next (waitHere (modRet s (retOf s a) (fun r => { r with stop := true }))) := by
  change execRstop d a s = _
  rw [execRstop, issue_ok ok]
  simp [owns, mine, runs, h]

/-- RSTOP of a Retriever at a command boundary. -/
theorem rstop_stops (h : ∀ w, (ret s (retOf s a)).cond ≠ .awaiting w) :
    exec (.rstop d a) s = .next (advance (setReg (modRet s (retOf s a) (fun r => { r with
      state := 3, code := 0, tval := 0, cond := .ready, noPage := none, stop := false })) d
        (retDword { ret s (retOf s a) with state := 3, code := 0 } 0))) := by
  change execRstop d a s = _
  rw [execRstop, issue_ok ok]
  simp only [owns, mine, runs, beq_self_eq_true, Bool.not_true, Bool.false_eq_true, if_false, ne_eq, not_true_eq_false]
  simp [stopRet, retDword]

end

theorem rstat_none (ok : retCtlOk s [d, a, b] = true) (h : (ret s (retOf s a)).owner ≠ some (me s) ∨ 1 < (reg s b).toNat) :
    exec (.rstat d a b) s = .next (advance (setReg s d (BitVec.allOnes 64))) := by
  change execRstat d a b s = _
  rw [execRstat, issue_ok ok]
  exact congrArg _ (if_pos (by simpa [owns] using h))

section
variable (ok : retCtlOk s [d, a, b] = true) (mine : (ret s (retOf s a)).owner = some (me s)) (known : (reg s b).toNat ≤ 1)
include ok mine known

/-- RSTAT of a stopped Retriever that has stores outstanding. -/
theorem rstat_waits (stopped : (ret s (retOf s a)).state = 3) (h : pendingOf s (.ret (retOf s a)) ≠ 0) :
    exec (.rstat d a b) s = .next (waitHere s) := by
  change execRstat d a b s = _
  rw [execRstat, issue_ok ok]
  simp [owns, mine, stopped, h, Nat.not_lt.mpr known]

theorem rstat_reads (h : (ret s (retOf s a)).state = 3 → pendingOf s (.ret (retOf s a)) = 0) :
    exec (.rstat d a b) s = .next (advance (setReg
      (joinOps s s.cur (if (ret s (retOf s a)).state == 3 then queuedOps s (.ret (retOf s a)) else []))
      d (retDword (ret s (retOf s a)) (reg s b).toNat))) := by
  change execRstat d a b s = _
  rw [execRstat, issue_ok ok]
  simp only [owns, mine, beq_self_eq_true, Bool.not_true, Nat.not_lt.mpr known, decide_false, Bool.or_false, Bool.false_eq_true, if_false]
  exact congrArg _ (if_neg (by simpa using h))

end

end

theorem retWords_ill (s : State) (d a b c : Reg) :
    (retCtlOk s [d, a, b, c] = false → exec (.rstart d a b c) s = .next (takeIll s)) ∧
    (retCtlOk s [d, a, b] = false → exec (.rload d a b) s = .next (takeIll s) ∧ exec (.rstat d a b) s = .next (takeIll s)) ∧
    (retCtlOk s [d, a] = false → exec (.rstop d a) s = .next (takeIll s)) := by
  change (_ → execRstart d a b c s = _) ∧ (_ → execRload d a b s = _ ∧ execRstat d a b s = _) ∧ (_ → execRstop d a s = _)
  exact ⟨fun h => issue_ill h _, fun h => ⟨issue_ill h _, issue_ill h _⟩, fun h => issue_ill h _⟩

/-- Settles O26: each word goes through its results in their order, one lemma for each result. -/
theorem retrieverWords : Obligations.RetrieverWords := by
  unfold Obligations.RetrieverWords
  refine ⟨retWords_ill, fun s d a b c x ok hx => ?_⟩
  have ok3 : retCtlOk s [d, a, b] = true := retCtlOk_of_subset ok (by simp)
  have ok2 : retCtlOk s [d, a] = true := retCtlOk_of_subset ok (by simp)
  simp only [← retOf_eq]
  refine ⟨fun busy => wrote_of (rload_busy ok3 busy), fun free idle => ?_, fun h => ?_, fun mine loaded runs => ?_,
    fun mine loaded idle off => ?_, fun mine loaded idle aligned inside => ?_, fun h => ?_, fun mine idle => ?_, fun mine runs h => ?_,
    fun mine runs w h => ?_, fun h => ?_, fun mine known => ⟨fun stopped h => ?_, fun h => ?_⟩⟩
  · have free' : ¬((∃ t, (ret s (retOf s a)).owner = some t ∧ t ≠ me s) ∨ (ret s (retOf s a)).state = 2) := by
      rintro (⟨t, own, other⟩ | runs)
      · exact other (free t own)
      · exact idle runs
    refine ⟨fun none_ => wrote_of (rload_missing ok3 hx free' none_), fun k found => ?_⟩
    have word := rload_found ok3 hx free' found
    refine ⟨fun failed => ?_, fun good taint => wrote_of ?_, fun good clean dead => wrote_of ?_, fun y good clean live e => ?_,
      fun l clean live e => ?_⟩
    · rw [word, rloadFound_failed failed]
    · rw [word, rloadFound_tainted good taint]
    · rw [word, rloadFound_retired good clean dead]
    · rw [word, rloadFound_error good clean live e]
    · have good : ¬((my s).cond = .waiting ∧ ∃ info tval bad, readHeap s k.entry k.size = .error (.trap 5 info tval bad)) := by
        rintro ⟨-, info, tval, bad, failed⟩
        cases e.symm.trans failed
      rw [word, rloadFound_ok good clean live e]
  · have h' : (ret s (retOf s a)).owner ≠ some (me s) ∨ (ret s (retOf s a)).program = [] := h
    exact wrote_of (rstart_foreign ok h')
  · exact wrote_of (rstart_running ok mine loaded runs)
  · exact wrote_of (rstart_offset ok mine loaded idle off)
  · rw [rstart_ready ok mine loaded idle aligned inside]
    refine ⟨fun dead => ?_, fun live waits => by rw [live, waits]; rfl, fun live goes => ?_⟩
    · have drawn : SameAgents s { s with free := s.free + 1 } := ⟨rfl, rfl, rfl⟩
      rw [if_pos (by simp [dead])]
      exact ⟨_, rfl, (sameBytes_of (by simp) (by simp) (by simp)).bytesKept, advance_setReg_retired drawn d _⟩
    · rw [live, goes]
      obtain ⟨started, joined⟩ := startRet_spec s a (reg s b) (reg s c)
      exact ⟨_, started, joined, rfl⟩
  · exact wrote_of (rstop_foreign ok2 h)
  · exact wrote_of (rstop_idle ok2 mine idle)
  · exact rstop_stops ok2 mine runs h
  · exact rstop_awaits ok2 mine runs h
  · exact wrote_of (rstat_none ok3 h)
  · exact rstat_waits ok3 mine known stopped h
  · have joined := joinOps_caches s s.cur (if (ret s (retOf s a)).state == 3 then queuedOps s (.ret (retOf s a)) else [])
    refine ⟨_, _, rstat_reads ok3 mine known h, joined, advance_setReg_retired joined.homesOnly.sameAgents d _, ?_,
      fun stopped w hw op => ?_⟩
    · exact fun a d loc => ((sameBytes_of (by simp) (by simp) (by simp)).bytesKept a d loc).trans (joined.bytesKept a d loc)
    · rw [stopped] at hw
      rw [← dieOfCore_cur] at hw
      exact joinOps_agents s s.cur _ hw op

end Sys2Proof.Machine
end

section
/-! RESULT. Vector atomics (O38). -/

namespace Sys2Proof.Machine

theorem vamoElem_homes (k : Nat) (s : State) (cva b : Nat) : HomesOnly s (vamoElem k s cva b).2 := by
  unfold vamoElem
  dsimp only
  generalize same : (span cva 4).map (byteRef s (myCtx s)) = refs
  have size : refs.length = 4 := by rw [← same]; simp [span]
  obtain ⟨_, -, home, -⟩ := recallUo_spec s (fun _ => true) (refs.map (·.loc))
  generalize recallUo s (fun _ => true) (refs.map (·.loc)) = u at home ⊢
  generalize amoOp k 32 _ b = v
  obtain ⟨_, -, wrote⟩ := performAtomic_writes u u.cur (List.ne_nil_of_length_pos (by omega)) (size.trans (leBytes_length 4 v).symm) none
  exact (home.homes.trans wrote.homes).trans (noteReads_caches ..).homesOnly

theorem vamoAll_homes (k : Nat) (l : List (Nat × Nat × Nat)) (s : State) : HomesOnly s (vamoAll k l s).2 := by
  induction l generalizing s with
  | nil => exact .refl s
  | cons p r ih =>
    obtain ⟨e, cva, b⟩ := p
    have first := vamoElem_homes k s cva b
    have rest := ih (vamoElem k s cva b).2
    rw [vamoAll]
    exact first.trans rest

/-- The operation of a VAMO in the numbering of R145, by its op and whether its format is natural (R209). -/
theorem vamoOp_eq (va : VReg) (fmt : BitVec 5) : vamoOp va.toNat fmt.toNat = match va.toNat with
    | 4 => if fmt = 7 then 6 else 4
    | 5 => if fmt = 7 then 7 else 5
    | 6 => 8
    | j => j := by
  have seven : fmt.toNat = 7 ↔ fmt = 7 := by rw [← BitVec.toNat_inj]; rfl
  unfold vamoOp
  simp only [seven] <;> rfl

theorem indexOff_eq (s : State) (f : VFields) (e : Nat) :
    indexOff s f e = ((reg s f.s).toNat + elem (my s) f.vb f.fmt.toNat e) % 2 ^ 64 := by
  rw [indexOff, wrapOff, wrap]
  omega

section
variable {s : State} {f : VFields} (goes : VecGoes s true [f.s] [f.vd, f.vb, f.vc])
include goes

theorem vamo_none (none_ : actives (my s) f = []) : exec (.vamo f) s = .next (advance s) := by
  change execVamo f s = _
  rw [execVamo, issueV_goes goes]
  simp [none_]

variable (some_ : actives (my s) f ≠ [])
include some_

theorem vamo_cause {c : Cause} (h : vecCause s (extSeg f) 2 4 true ((actives (my s) f).map (indexOff s f)) = some c) :
    exec (.vamo f) s = .next (takeCause s c) := by
  change execVamo f s = _
  rw [execVamo, issueV_goes goes]
  simp [some_, h]

variable (free : vecCause s (extSeg f) 2 4 true ((actives (my s) f).map (indexOff s f)) = none)
include free

/-- A VAMO that nothing stops at its checks. -/
theorem vamo_free : exec (.vamo f) s = .next
    (let refs := ((actives (my s) f).map (indexOff s f)).flatMap (elemRefs s (extSeg f) 4)
    if refs.any (fun r => atomicWaits s r.kind [r.loc] none) then waitHere s
    else if (underRefs s refs).any (poisoned s) then takeTrap s 5 0 0
    else
      let r := vamoAll (vamoOp f.va.toNat f.fmt.toNat) (((actives (my s) f).zip ((actives (my s) f).map (indexOff s f))).map (fun p =>
        (p.1, (seg s (extSeg f)).base.toNat + p.2, elem (my s) f.vc f.fmt.toNat p.1))) s
      if s.defer then owe (setCond r.2 (.awaiting (.vamo f.vd.toNat f.fmt.toNat r.1 r.2.time))) [evA .atomicResponse s.cur]
      else advance (modMy r.2 (fun x => putElems f.fmt.toNat f.vd x (r.1.map (fun p => (p.1, p.2.2.toNat)))))) := by
  change execVamo f s = _
  have homes := vamoAll_homes (vamoOp f.va.toNat f.fmt.toNat) (((actives (my s) f).zip ((actives (my s) f).map (indexOff s f))).map (fun p =>
    (p.1, (seg s (extSeg f)).base.toNat + p.2, elem (my s) f.vc f.fmt.toNat p.1))) s
  rw [execVamo, issueV_goes goes]
  simp only [some_, free, List.isEmpty_iff, if_false, vamoDone, BitVec.ofNat_toNat, BitVec.setWidth_eq]
  generalize vamoAll _ _ s = r at homes
  rw [show r.2.defer = s.defer by rw [homes], show r.2.cur = s.cur by rw [homes]]

end

/-- Settles O38: a VAMO that nothing stops is its elements' atomics one after the other. -/
theorem vectorAtomics : Obligations.VectorAtomics := by
  unfold Obligations.VectorAtomics
  intro s f
  refine ⟨fun ill => ?_, fun goes => ?_⟩
  · change execVamo f s = _
    exact issueV_ill _ ill _
  have offs : (actives (my s) f).map (fun e => ((reg s f.s).toNat + elem (my s) f.vb f.fmt.toNat e) % 2 ^ 64) =
      (actives (my s) f).map (indexOff s f) := List.map_congr_left fun e _ => (indexOff_eq s f e).symm
  have op := vamoOp_eq f.va f.fmt
  simp only [offs]
  refine ⟨fun none_ => ⟨_, vamo_none goes none_, advance_nothing s⟩, fun some_ => ⟨fun c => vamo_cause goes some_, fun free => ?_⟩⟩
  rw [vamo_free goes some_ free]
  refine ⟨fun waits => ?_, fun turn => ⟨fun poison => ?_, fun clean => ⟨fun now => ?_, fun later => ?_⟩⟩⟩
  · simp only [waits, if_true]
  · simp only [turn, poison, if_true, Bool.false_eq_true, if_false]
  · simp only [turn, clean, now, Bool.false_eq_true, if_false, op] <;> rfl
  · simp only [turn, clean, later, Bool.false_eq_true, if_false, if_true, op] <;> rfl

end Sys2Proof.Machine
end

section
/-! RESULT. The commands of the sampling array's queue (O46). -/

namespace Sys2Proof.Machine

/-! ### The array of the issuing thread's die -/

theorem ownsSa_iff (s : State) : ownsSa s = true ↔ (mySa s).owner = some (me s) ∧ (mySa s).frozen = none := by
  simp [ownsSa, mySa]

theorem ownsSa_eq_false_iff (s : State) : ownsSa s = false ↔ ¬((mySa s).owner = some (me s) ∧ (mySa s).frozen = none) := by
  rw [← ownsSa_iff, Bool.not_eq_true]

theorem die_modSa (s : State) (d j : Nat) (f : SArray → SArray) :
    die (modSa s d f) j = if j = d then { die s d with sa := f (die s d).sa } else die s j := die_modDie s d j _

theorem modSa_sameBytes (s : State) (d : Nat) (f : SArray → SArray) : SameBytes s (modSa s d f) := by
  have kept {α : Type} (g : Die → α) (h : ∀ x y, g { x with sa := y } = g x) (j : Nat) : g (die (modSa s d f) j) = g (die s j) := by
    rw [die_modSa]
    split
    · next e => rw [h, e]
    · rfl
  exact ⟨rfl, rfl, kept (fun x => x.hostq.map (·.locs)) (fun _ _ => rfl), kept (fun x => x.peerq.map (·.locs)) (fun _ _ => rfl),
    kept (fun x => x.uoq.map (·.locs)) (fun _ _ => rfl)⟩

theorem modSa_agents (s : State) (d : Nat) (f : SArray → SArray) : SameAgents s (modSa s d f) := ⟨rfl, rfl, rfl⟩

/-- What dies give up of the writes that they hold for themselves changes no array. -/
theorem recallUo_sa (s : State) (f : Nat → Bool) (locs : List Nat) (d : Nat) : (die (recallUo s f locs) d).sa = (die s d).sa := by
  let given (k : Nat) (x : Die) : Die := if f k then
    { x with uoq := x.uoq.map (fun w => { w with locs := w.locs.filter (fun q => !(sharesGranule s locs q.1 && !offPart q.1)) }) } else x
  have kept (k : Nat) (x : Die) : (given k x).sa = x.sa := by unfold given; split <;> rfl
  have put (u : State) (l : List (Nat × Byte)) : (putBytes u l).dies = u.dies := by
    unfold putBytes
    dsimp only
    split
    · rfl
    · exact foldl_keeps (f := fun (s : State) (p : Nat × Byte) => unpoison s p.1) State.dies
        (fun s p => by unfold unpoison; dsimp only; split <;> rfl) _ _
  unfold recallUo
  dsimp only
  split
  · rfl
  · rw [die, put]
    change (die { s with dies := s.dies.map (fun p => (p.1, given p.1 p.2)) } d).sa = _
    rw [die_mapDies s given d (by unfold given; split <;> rfl), kept]

theorem served_agents (s : State) (refs : List ByteRef) : SameAgents s (served s refs) := (served_homes s refs).sameAgents

theorem served_sa (s : State) (refs : List ByteRef) (d : Nat) : (die (served s refs) d).sa = (die s d).sa := recallUo_sa ..

theorem SameAgents.myDie {s u : State} (h : SameAgents s u) : myDie u = myDie s := by
  unfold Machine.myDie myCore; rw [h.cur]

/-- A load's state has the array of the issuing thread's die. -/
theorem mySa_of {s b u : State} (agents : SameAgents s u) (same : ∀ d, (die b d).sa = (die s d).sa) (caches : CachesOnly b u) :
    mySa u = mySa s := by
  rw [mySa, agents.myDie, (caches.dies _).2.1, same, mySa]

/-! ### Commands -/

theorem advance_owe (s : State) (l : List (Instr × Msg)) : advance (owe s l) = owe (advance s) l := by
  rw [advance_eq, advance_eq]
  unfold retire modHart
  cases h : s.cur <;> simp [h, owe, modThr, setThr, thr, modRet, ret]

/-- A command has entered the queue; its step is owed where the queue was empty (R329). -/
def saQueued (s : State) (c : SaCmd) : State :=
  let u := modSa s (myDie s) (fun a => { a with queue := a.queue ++ [c] })
  if (mySa s).queue = [] then owe u [(c.event, { Msg.empty with a := myDie s, flag := true })] else u

theorem pushCmd_full {s : State} (h : 8 ≤ (mySa s).queue.length) (c : SaCmd) : pushCmd s c = waitHere s := if_pos h

theorem pushCmd_room {s : State} (h : (mySa s).queue.length < 8) (c : SaCmd) : pushCmd s c = advance (saQueued s c) := by
  unfold pushCmd saQueued
  simp only [Nat.not_le.mpr h, if_false, List.isEmpty_iff]
  split
  · next first =>
    have head : (die (advance (modSa s (myDie s) (fun a => { a with queue := a.queue ++ [c] }))) (myDie s)).sa.queue = [c] := by
      rw [die, advance_dies]
      change (die (modSa s (myDie s) _) (myDie s)).sa.queue = _
      rw [die_modSa, if_pos rfl]
      change (mySa s).queue ++ [c] = _
      rw [first, List.nil_append]
    rw [advance_owe, oweHead, head]
  · rfl

theorem saQueued_agents (s : State) (c : SaCmd) : SameAgents s (saQueued s c) := by
  unfold saQueued
  dsimp only
  split <;> exact ⟨rfl, rfl, rfl⟩

theorem saQueued_sameBytes (s : State) (c : SaCmd) : SameBytes s (saQueued s c) := by
  have entered := modSa_sameBytes s (myDie s) (fun a => { a with queue := a.queue ++ [c] })
  unfold saQueued
  dsimp only
  split
  · exact entered.trans (sameBytes_of rfl rfl rfl)
  · exact entered

/-- A command that enters the queue retires. -/
theorem pushCmd_retires {s u : State} (agents : SameAgents s u) (h : (mySa u).queue.length < 8) (c : SaCmd) :
    Retired s (saQueued u c) (pushCmd u c) (.next s) ∧ BytesKept u (pushCmd u c) := by
  rw [pushCmd_room h]
  have all : SameAgents s (saQueued u c) :=
    ⟨(saQueued_agents u c).cur.trans agents.cur, (saQueued_agents u c).threads.trans agents.threads,
      (saQueued_agents u c).rets.trans agents.rets⟩
  exact ⟨advance_retired all, ((saQueued_sameBytes u c).trans (sameBytes_of (by simp) (by simp) (by simp))).bytesKept⟩

section
variable {s : State} {held : Bool} {rs : List Reg} {vs : List VReg} (f : State → State)

theorem issueSa_goes (goes : VecGoes s held rs vs) (mine : (mySa s).owner = some (me s) ∧ (mySa s).frozen = none) :
    issueSa s held rs vs f = .next (f s) :=
  (issueV_goes goes _).trans (congrArg _ (if_pos ((ownsSa_iff s).mpr mine)))

theorem issueSa_foreign (goes : VecGoes s held rs vs) (other : ¬((mySa s).owner = some (me s) ∧ (mySa s).frozen = none)) :
    issueSa s held rs vs f = .next (takeIll s) :=
  (issueV_goes goes _).trans (congrArg _ (if_neg (other ∘ (ownsSa_iff s).mp)))

end

/-! ### SALOAD -/

/-- A load that a poisoned byte stops (R282). -/
theorem loadPath_poisoned {s : State} {sg : BitVec 3} {off : Word} {n al : Nat} (h : LoadReady s sg off n al) (now : s.defer = false)
    (poison : (underRefs s (accessRefs s sg off n)).any (poisoned s) = true) (hint : Hint) (wait : Nat → List Nat → Bool → Await)
    (fin : State → List Byte → State) : loadPath s sg off n al false hint wait fin = takeTrap s 5 0 0 := by
  have order := h.order
  unfold accessRefs at order poison
  unfold loadPath readBytes
  rw [h.cause]
  simp only [order, now, poison, Bool.false_eq_true, if_false, if_true]

/-- What SALOAD makes of the bytes of its descriptor (R329). -/
def saDescribe (g : BitVec 3) (s : State) (bytes : List Byte) : State :=
  let w (i : Nat) : Word := BitVec.ofNat 64 (leNat ((bytes.drop (8 * i)).take 8))
  if !saDescriptorOk (w 0) (w 1) (w 2) then takeIll s else
  let count := field (w 0) 32 17
  match (segCheck (seg s g) g.toNat (w 1).toNat (8 * count) 0).or (segCheck (seg s g) g.toNat (w 2).toNat (4 * (w 3).toNat) 0) with
  | some c => takeCause s c
  | none => pushCmd s (.load (field (w 0) 0 16) count (w 1).toNat (w 2).toNat (w 3).toNat (seg s g) (myCtx s))

section
variable {s : State} (goes : VecGoes s false [(vFields s.ir).s] []) (mine : (mySa s).owner = some (me s) ∧ (mySa s).frozen = none)
include goes mine

theorem saload_waits (h : 8 ≤ (mySa s).queue.length ∨ pendingOf s s.cur ≠ 0 ∨ ownQueued s s.cur = true) :
    exec .saload s = .next (waitHere s) := by
  change execSaload s = _
  rw [execSaload, issueSa_goes _ goes mine]
  exact congrArg _ (if_pos (by simpa [or_assoc] using h))

theorem saload_reads (room : (mySa s).queue.length < 8) (idle : pendingOf s s.cur = 0) (quiet : ownQueued s s.cur = false) :
    exec .saload s = .next (loadPath { s with defer := false } (extSeg (vFields s.ir)) (reg s (vFields s.ir).s) 32 8 false .none
      (fun _ _ _ => .pginv 0 0) (saDescribe (extSeg (vFields s.ir)))) := by
  change execSaload s = _
  rw [execSaload, issueSa_goes _ goes mine]
  exact congrArg _ (if_neg (by simp [idle, quiet, room]))

end

/-- A word of a descriptor's bytes. -/
def descWord (l : List Byte) (i : Nat) : Word := BitVec.ofNat 64 (leNat ((l.drop (8 * i)).take 8))

section
variable {g : BitVec 3} {u : State} {l : List Byte}

theorem saDescribe_ill (h : saDescriptorOk (descWord l 0) (descWord l 1) (descWord l 2) = false) : saDescribe g u l = takeIll u := by
  refine if_pos ?_
  rw [Bool.not_eq_true']
  exact h

variable (ok : saDescriptorOk (descWord l 0) (descWord l 1) (descWord l 2) = true)
include ok

theorem saDescribe_cause {c : Cause}
    (h : (segCheck (seg u g) g.toNat (descWord l 1).toNat (8 * field (descWord l 0) 32 17) 0).or
      (segCheck (seg u g) g.toNat (descWord l 2).toNat (4 * (descWord l 3).toNat) 0) = some c) : saDescribe g u l = takeCause u c := by
  refine (if_neg ?_).trans ?_
  · rw [Bool.not_eq_true', Bool.not_eq_false]
    exact ok
  · dsimp only
    split
    · next e => cases h.symm.trans e; rfl
    · next e => cases h.symm.trans e

theorem saDescribe_queues
    (h : (segCheck (seg u g) g.toNat (descWord l 1).toNat (8 * field (descWord l 0) 32 17) 0).or
      (segCheck (seg u g) g.toNat (descWord l 2).toNat (4 * (descWord l 3).toNat) 0) = none) :
    saDescribe g u l = pushCmd u (.load (field (descWord l 0) 0 16) (field (descWord l 0) 32 17) (descWord l 1).toNat (descWord l 2).toNat
      (descWord l 3).toNat (seg u g) (myCtx u)) := by
  refine (if_neg ?_).trans ?_
  · rw [Bool.not_eq_true', Bool.not_eq_false]
    exact ok
  · dsimp only
    split
    · next e => cases h.symm.trans e
    · rfl

end

/-! ### SAACQ, SAREL and SAWAIT -/

section
variable {s : State}

theorem saacq_mine (goes : VecGoes s false [(vFields s.ir).s] []) (mine : (mySa s).owner = some (me s) ∧ (mySa s).frozen = none) :
    exec .saacq s = .next (advance (setReg s (vFields s.ir).s 0)) := by
  change execSaacq s = _
  rw [execSaacq, issueV_goes goes]
  exact congrArg _ (if_pos ((ownsSa_iff s).mpr mine))

/-- SAACQ by a thread that does not own the array. -/
theorem saacq_other (goes : VecGoes s false [(vFields s.ir).s] []) (other : ¬((mySa s).owner = some (me s) ∧ (mySa s).frozen = none)) :
    exec .saacq s = .next
      (if !unitLive s (saRec (myDie s)) then advance (setReg s (vFields s.ir).s 2)
      else if (mySa s).owner.isSome || (mySa s).frozen.isSome then advance (setReg s (vFields s.ir).s 1)
      else advance (setReg (modSa s (myDie s) (fun _ => { SArray.reset with owner := some (me s), ctx := myCtx s })) (vFields s.ir).s 0)) := by
  change execSaacq s = _
  rw [execSaacq, issueV_goes goes]
  exact congrArg _ (if_neg (other ∘ (ownsSa_iff s).mp))

theorem sarel_other (goes : VecGoes s false [] []) (other : ¬((mySa s).owner = some (me s) ∧ (mySa s).frozen = none)) :
    exec .sarel s = .next (advance s) := by
  change execSarel s = _
  rw [execSarel, issueV_goes goes]
  exact congrArg _ (if_pos (by rw [(ownsSa_eq_false_iff s).mpr other]; rfl))

theorem sarel_mine (goes : VecGoes s false [] []) (mine : (mySa s).owner = some (me s) ∧ (mySa s).frozen = none) :
    exec .sarel s = .next (if (mySa s).queue = [] then advance (modSa s (myDie s) (fun _ => SArray.reset)) else waitHere s) := by
  change execSarel s = _
  rw [execSarel, issueV_goes goes]
  simp only [(ownsSa_iff s).mpr mine, Bool.not_true, Bool.false_eq_true, if_false, Bool.not_eq_true', List.isEmpty_eq_false_iff,
    ne_eq, ite_not, freeSa]

/-- SAWAIT by the owner (R332). -/
theorem sawait_mine (goes : VecGoes s false [(vFields s.ir).s, extReg (vFields s.ir)] [])
    (mine : (mySa s).owner = some (me s) ∧ (mySa s).frozen = none) :
    exec .sawait s = .next (if (mySa s).queue = [] then advance (setReg (if (reg s (extReg (vFields s.ir))).toNat = 0 then
        modSa s (myDie s) (fun a => { a with fault := false, fkind := 0, fcell := 0, faddr := 0 }) else s) (vFields s.ir).s
        ((mySa s).status (reg s (extReg (vFields s.ir))).toNat)) else waitHere s) := by
  change execSawait s = _
  rw [execSawait, issueSa_goes _ goes mine]
  simp only [Bool.not_eq_true', List.isEmpty_eq_false_iff, ne_eq, ite_not]

end

/-! ### The commands that hold their operands -/

/-- A word that puts a command into the queue (R329). -/
theorem pushCmd_spec {s : State} {o : Out} {c : SaCmd} (word : o = .next (pushCmd s c)) :
    ((mySa s).queue.length < 8 → ∃ t, o = .next t ∧ Retired s (saQueued s c) t (.next s) ∧ BytesKept s t) ∧
      (8 ≤ (mySa s).queue.length → o = .next (waitHere s)) := by
  rw [word]
  exact ⟨fun room => ⟨_, rfl, pushCmd_retires (.refl s) room c⟩, fun full => by rw [pushCmd_full full]⟩

section
variable {s : State} (mine : (mySa s).owner = some (me s) ∧ (mySa s).frozen = none)
include mine

theorem saseed_issued (goes : VecGoes s false [(vFields s.ir).s, extReg (vFields s.ir)] []) : exec .saseed s =
    .next (pushCmd s (.seed ((reg s (vFields s.ir).s).extractLsb' 0 16) ((reg s (extReg (vFields s.ir))).getLsbD 0))) := by
  change execSaseed s = _
  rw [execSaseed, issueSa_goes _ goes mine]

theorem sabeta_issued (goes : VecGoes s false [(vFields s.ir).s] []) : exec .sabeta s =
    .next (pushCmd s (.beta ((reg s (vFields s.ir).s).extractLsb' 0 16))) := by
  change execSabeta s = _
  rw [execSabeta, issueSa_goes _ goes mine]

theorem sasweep_issued (goes : VecGoes s false [(vFields s.ir).s] []) (h : (reg s (vFields s.ir).s).toNat < 2 ^ 32) :
    exec .sasweep s = .next (pushCmd s (.sweep (reg s (vFields s.ir).s).toNat 0)) := by
  change execSasweep s = _
  rw [execSasweep, issueSa_goes _ goes mine]
  exact congrArg _ (if_neg (Nat.not_le.mpr h))

theorem sasweep_large (goes : VecGoes s false [(vFields s.ir).s] []) (h : 2 ^ 32 ≤ (reg s (vFields s.ir).s).toNat) :
    exec .sasweep s = .next (takeIll s) := by
  change execSasweep s = _
  rw [execSasweep, issueSa_goes _ goes mine]
  exact congrArg _ (if_pos h)

end

/-- The sampling words and what each checks before its effect (R326). -/
theorem saWords_issue (s : State) : ∀ p ∈ [(Instr.saload, false, [(vFields s.ir).s], []),
    (.saseed, false, [(vFields s.ir).s, extReg (vFields s.ir)], []), (.sabeta, false, [(vFields s.ir).s], []),
    (.sasweep, false, [(vFields s.ir).s], []), (.sawait, false, [(vFields s.ir).s, extReg (vFields s.ir)], []),
    (.saclamp, true, [(vFields s.ir).s], [(vFields s.ir).va, (vFields s.ir).vb]), (.saread, true, [(vFields s.ir).s], [(vFields s.ir).vd]),
    (.sacount, true, [(vFields s.ir).s, extReg (vFields s.ir)], [(vFields s.ir).vd])],
    ∃ f, exec p.1 s = issueSa s p.2.1 p.2.2.1 p.2.2.2 f := by
  simp only [List.forall_mem_cons, List.not_mem_nil, false_implies, implies_true, and_true]
  refine ⟨?_, ?_, ?_, ?_, ?_, ?_, ?_, ?_⟩
  · exact ⟨_, by change execSaload s = _; unfold execSaload; rfl⟩
  · exact ⟨_, by change execSaseed s = _; unfold execSaseed; rfl⟩
  · exact ⟨_, by change execSabeta s = _; unfold execSabeta; rfl⟩
  · exact ⟨_, by change execSasweep s = _; unfold execSasweep; rfl⟩
  · exact ⟨_, by change execSawait s = _; unfold execSawait; rfl⟩
  · exact ⟨_, by change execSaclamp s = _; unfold execSaclamp registerWord; rfl⟩
  · exact ⟨_, by change execSaread s = _; unfold execSaread registerWord; rfl⟩
  · exact ⟨_, by change execSacount s = _; unfold execSacount registerWord; rfl⟩

/-! ### The obligation -/

/-- SALOAD whose descriptor is read (R101, R329). -/
theorem saload_describes {s : State} (goes : VecGoes s false [(vFields s.ir).s] [])
    (mine : (mySa s).owner = some (me s) ∧ (mySa s).frozen = none) (room : (mySa s).queue.length < 8)
    (idle : pendingOf s s.cur = 0) (quiet : ownQueued s s.cur = false)
    (load : LoadGoes { s with defer := false } (extSeg (vFields s.ir)) (reg s (vFields s.ir).s) 32 8 false) :
    let b := served { s with defer := false } (accessRefs s (extSeg (vFields s.ir)) (reg s (vFields s.ir).s) 32)
    ∃ u, CachesOnly b u ∧ SameAgents s u ∧ mySa u = mySa s ∧ exec .saload s = .next
      (saDescribe (extSeg (vFields s.ir)) u (bytesOf b (accessRefs s (extSeg (vFields s.ir)) (reg s (vFields s.ir).s) 32))) := by
  intro b
  obtain ⟨u, caches, path⟩ := loadPath_goes load .none (fun _ _ _ => .pginv 0 0) (saDescribe (extSeg (vFields s.ir)))
  have turn : SameAgents { s with defer := false } b := served_agents _ _
  have agents : SameAgents s u := ⟨caches.sameAgents.cur.trans turn.cur, caches.sameAgents.threads.trans turn.threads,
    caches.sameAgents.rets.trans turn.rets⟩
  have array (d : Nat) : (die b d).sa = (die s d).sa := served_sa { s with defer := false } _ d
  exact ⟨u, caches, agents, mySa_of agents array caches, (saload_reads goes mine room idle quiet).trans (congrArg _ path)⟩

theorem SameAgents.seg {s u : State} (h : SameAgents s u) (g : BitVec 3) : seg u g = seg s g := by
  unfold Machine.seg; rw [h.hart]

theorem SameAgents.myCtx {s u : State} (h : SameAgents s u) : myCtx u = myCtx s := by
  unfold Machine.myCtx; rw [h.my]

/-- SALOAD of a descriptor that passes its checks. -/
theorem saDescribe_retires {s u : State} (agents : SameAgents s u) (array : mySa u = mySa s) (room : (mySa s).queue.length < 8)
    {g : BitVec 3} {l : List Byte} (ok : saDescriptorOk (descWord l 0) (descWord l 1) (descWord l 2) = true)
    (recs : segCheck (seg s g) g.toNat (descWord l 1).toNat (8 * field (descWord l 0) 32 17) 0 = none)
    (table : segCheck (seg s g) g.toNat (descWord l 2).toNat (4 * (descWord l 3).toNat) 0 = none) :
    BytesKept u (saDescribe g u l) ∧ Retired s (saQueued u (.load (field (descWord l 0) 0 16) (field (descWord l 0) 32 17)
      (descWord l 1).toNat (descWord l 2).toNat (descWord l 3).toNat (seg s g) (myCtx s))) (saDescribe g u l) (.next s) := by
  rw [saDescribe_queues ok (by rw [agents.seg, recs, table]; rfl), agents.seg, agents.myCtx]
  exact (pushCmd_retires agents (by rw [array]; exact room) _).symm

/-- Settles O46: each word goes on only for the array's owner, and a command that has room enters the queue as its word retires. -/
theorem samplingCommands : Obligations.SamplingCommands := by
  unfold Obligations.SamplingCommands
  refine ⟨fun s => ⟨fun goes => ⟨fun mine => wrote_of (saacq_mine goes mine), fun other dead => ?_, fun other live taken => ?_,
    fun live unowned thawed => ?_⟩, fun goes => ⟨fun other => ⟨_, sarel_other goes other, advance_nothing s⟩, fun mine busy => ?_,
    fun mine idle => ?_⟩⟩, fun s => ?_⟩
  · refine wrote_of ((saacq_other goes other).trans ?_)
    rw [if_pos (by simp [dead])]
  · refine wrote_of ((saacq_other goes other).trans ?_)
    rw [if_neg (by simp [live]), if_pos (by simpa [Option.isSome_iff_ne_none] using taken)]
  · have other : ¬((mySa s).owner = some (me s) ∧ (mySa s).frozen = none) := by simp [unowned]
    rw [saacq_other goes other, if_neg (by simp [live]), if_neg (by simp [unowned, thawed])]
    exact ⟨_, rfl, (modSa_sameBytes ..).bytesKept.trans (advance_setReg_wrote ..).2, advance_setReg_retired (modSa_agents ..) _ _⟩
  · rw [sarel_mine goes mine, if_neg busy]
  · rw [sarel_mine goes mine, if_pos idle]
    exact ⟨_, rfl, (modSa_sameBytes ..).bytesKept.trans (advance_nothing _).2, advance_retired (modSa_agents ..)⟩
  · intro f d a mine queued commands
    have entered (u : State) (same : mySa u = mySa s) (c : SaCmd) (agents : SameAgents s u) : queued u c c.event = saQueued u c := by
      unfold saQueued
      rw [same, agents.myDie]
    refine ⟨fun p hp goes own => ?_, fun goes own => sasweep_large own goes, fun goes own => saload_waits goes own,
      fun goes own room idle quiet => ?_, fun goes own => ⟨fun busy => ?_, fun empty => ?_⟩, fun p hp => ?_, fun ill => ?_, fun ill => ?_⟩
    · rcases List.mem_append.mp hp with hp | hp
      · simp only [List.mem_cons, List.not_mem_nil, or_false] at hp
        rcases hp with rfl | rfl
        · exact pushCmd_spec (saseed_issued own goes)
        · exact pushCmd_spec (sabeta_issued own goes)
      · by_cases small : (reg s f.s).toNat < 2 ^ 32
        · rw [if_pos small, List.mem_singleton] at hp
          subst hp
          exact pushCmd_spec (sasweep_issued own goes small)
        · rw [if_neg small] at hp
          cases hp
    · intro s0 refs b l w count
      refine ⟨fun c cause => ?_, fun ready poison => ?_, fun load => ?_⟩
      · rw [saload_reads goes own room idle quiet]
        exact congrArg _ (loadPath_cause (s := s0) cause ..)
      · rw [saload_reads goes own room idle quiet]
        exact congrArg _ (loadPath_poisoned (s := s0) ⟨ready.cause, ready.order⟩ rfl poison ..)
      · obtain ⟨u, caches, agents, array, word⟩ := saload_describes goes own room idle quiet load
        refine ⟨fun ok recs table => ?_, fun ok c cause => ⟨u, caches, ?_⟩, fun bad => ⟨u, caches, ?_⟩⟩
        · obtain ⟨kept, retired⟩ := saDescribe_retires agents array room ok recs table
          rw [← entered u array _ agents] at retired
          exact ⟨u, _, word, caches, caches.bytesKept.trans kept, retired⟩
        · rw [word, saDescribe_cause ok (by rw [agents.seg]; exact cause)]
        · rw [word, saDescribe_ill bad]
    · rw [sawait_mine goes own, if_neg busy]
    · rw [sawait_mine goes own, if_pos empty]
      refine ⟨_, rfl, ?_, advance_setReg_retired ?_ _ _⟩
      · split
        · exact (modSa_sameBytes ..).bytesKept.trans (advance_setReg_wrote ..).2
        · exact (advance_setReg_wrote ..).2
      · split
        · exact modSa_agents ..
        · exact .refl s
    · obtain ⟨g, word⟩ := saWords_issue s p hp
      rw [word]
      exact ⟨fun goes other => issueSa_foreign g goes other, fun ill => issueV_ill _ ill _⟩
    · change execSaacq s = _
      exact issueV_ill _ ill _
    · change execSarel s = _
      exact issueV_ill _ ill _

end Sys2Proof.Machine
end

section
/-! RESULT. Copies accepted, and CPYRES (O27). -/

namespace Sys2Proof.Machine

/-- The copy words and their shapes (Table 9.3). -/
def copyWords (o : CopyRef) (h : Handle) : List (Instr × Nat) := [(.cpy o h, 0), (.cpy2 o h, 1), (.cpyt o h, 2), (.cpyg o h, 3)]

theorem copyWords_exec {o : CopyRef} {h : Handle} {p : Instr × Nat} (hp : p ∈ copyWords o h) (s : State) :
    exec p.1 s = copyWord p.2 o h s := by
  simp only [copyWords, List.mem_cons, List.not_mem_nil, or_false] at hp
  rcases hp with rfl | rfl | rfl | rfl
  · rfl
  · rfl
  · rfl
  · rfl

/-- The operand registers of a copy word. -/
def copyOps (s : State) (o : CopyRef) (op : Nat) : List Word := (List.range (opCount op)).map (fun i => reg s (o.b + BitVec.ofNat 6 i))

/-- The copy of a copy word, as its operands are read (R251). -/
def copyOf (s : State) (o : CopyRef) (h : Handle) (op : Nat) : Copy :=
  let c : Copy :=
    { id := s.nextId, ctx := myCtx s, thread := me s
      byRet := match s.cur with | .ret n => some n | .thread _ => none
      handle := h, op := op, dsegv := seg s o.dseg, asegv := seg s o.aseg, dseg := o.dseg, aseg := o.aseg
      doff := reg s o.d, aoff := reg s o.a, ops := copyOps s o op ++ List.replicate (4 - opCount op) 0, len := 0, next := 0
      live := [], wrote := [], bad := [], closing := false, geom := none, ret := onRet s }
  { c with len := copyLen s c, geom := c.region s }

theorem copyWord_ill {s : State} {o : CopyRef} {h : Handle} {op : Nat} (ill : admits s true [o.d, o.a, o.b] = false ∨
    regCount s < o.b.toNat + opCount op ∨ opsOk op (copyOps s o op) = false ∨ handleOk s h = false) :
    copyWord op o h s = .next (takeIll s) := by
  unfold copyWord
  refine issue_ill ?_ _
  rw [Bool.eq_false_iff]
  intro all
  simp only [Bool.and_eq_true, decide_eq_true_eq] at all
  obtain ⟨⟨⟨regs, fits⟩, ops⟩, handle⟩ := all
  rcases ill with e | e | e | e
  · exact absurd (regs.symm.trans e) (by decide)
  · exact absurd fits (Nat.not_le.mpr e)
  · exact absurd (ops.symm.trans e) (by decide)
  · exact absurd (handle.symm.trans e) (by decide)

/-- A copy word whose shape and handle are good. -/
theorem copyWord_issued {s : State} {o : CopyRef} {h : Handle} {op : Nat} (regs : admits s true [o.d, o.a, o.b] = true)
    (fits : o.b.toNat + opCount op ≤ regCount s) (ops : opsOk op (copyOps s o op) = true) (handle : handleOk s h = true) :
    (∀ x, (copySegs s (copyOf s o h op)).or (copyAlign s (copyOf s o h op)) = some x → copyWord op o h s = .next (takeCause s x)) ∧
      ((copySegs s (copyOf s o h op)).or (copyAlign s (copyOf s o h op)) = none → copyWord op o h s = .next (if copyWaits s h then waitHere s
        else acceptCopy (trace s 5 (handleKey h) (BitVec.ofNat 64 (copyOf s o h op).len)) (copyOf s o h op) (copyOf s o h op).record)) := by
  have issued := issue_ok (s := s) (ok := admits s true [o.d, o.a, o.b] && decide (o.b.toNat + opCount op ≤ regCount s) &&
    opsOk op (copyOps s o op) && handleOk s h) (by simp [regs, fits, ops, handle])
  constructor
  · intro x cause
    unfold copyWord
    refine (issued _).trans (congrArg _ ?_)
    dsimp only
    split
    · next e => cases cause.symm.trans e; rfl
    · next e => cases cause.symm.trans e
  · intro free
    unfold copyWord
    refine (issued _).trans (congrArg _ ?_)
    dsimp only
    split
    · next e => cases free.symm.trans e
    · rfl

theorem handleOk_barrier {s : State} {h : Handle} (b : h.barrier = true) : handleOk s h = true ↔
    ∃ k, sbAbs s (myPool s) (myCtx s) h.n.toNat = some k ∧ (barrier s (myPool s) k).valid = true := by
  unfold handleOk
  rw [b, Bool.not_true, Bool.false_or]
  split
  · next k e => simp [e]
  · next e => simp [e]

theorem copyWaits_iff (s : State) (h : Handle) : copyWaits s h = true ↔ unitLive s (16 + myPool s) = false ∨ engineFull s (me s) h = true ∨
    pendingOf s s.cur ≠ 0 ∨ ownQueued s s.cur = true := by
  simp [copyWaits, poolLive, or_assoc]

/-! ### CPYRES -/

/-- The copy that CPYRES starts again, at its record's chunk (R257). -/
def copyRestarted (s : State) (h : Handle) : Copy :=
  let r := progressOf (my s) (handleKey h)
  let c : Copy :=
    { id := s.nextId, ctx := myCtx s, thread := me s
      byRet := match s.cur with | .ret n => some n | .thread _ => none
      handle := h, op := r.op, dsegv := seg s r.dseg, asegv := seg s r.aseg, dseg := r.dseg, aseg := r.aseg
      doff := r.doff, aoff := r.aoff, ops := r.ops, len := 0, next := r.chunk
      live := [], wrote := [], bad := [], closing := false, geom := none, ret := r.byRet }
  { c with len := copyLen s c, geom := c.region s }

/-- The barrier of a handle, where it is one, with FAULT cleared (R257). -/
def faultCleared (s : State) (h : Handle) : State :=
  match (if h.barrier then sbAbs s (myPool s) (myCtx s) h.n.toNat else none) with
  | some k => setBarrier s (myPool s) k { barrier s (myPool s) k with fault := false }
  | none => s

theorem faultCleared_tag {s : State} {h : Handle} (tag : h.barrier = false) : faultCleared s h = s := by
  rw [faultCleared, tag]
  rfl

theorem faultCleared_barrier {s : State} {h : Handle} (b : h.barrier = true) {k : Nat}
    (abs : sbAbs s (myPool s) (myCtx s) h.n.toNat = some k) :
    faultCleared s h = setBarrier s (myPool s) k { barrier s (myPool s) k with fault := false } := by
  rw [faultCleared, b, if_pos rfl, abs]

section
variable {s : State} {h : Handle} (handle : handleOk s h = true)
include handle

/-- CPYRES of a handle whose copy is not at fault. -/
theorem cpyres_idle (idle : (progressOf (my s) (handleKey h)).state ≠ 3) : exec (.cpyres h) s = .next (advance s) := by
  change execCpyres h s = _
  rw [execCpyres, issue_ok (by rw [handle]; rfl)]
  exact congrArg _ (if_pos idle)

variable (fault : (progressOf (my s) (handleKey h)).state = 3)
include fault

theorem cpyres_cause {x : Cause} (cause : copySegs s (copyRestarted s h) = some x) : exec (.cpyres h) s = .next (takeCause s x) := by
  change execCpyres h s = _
  rw [execCpyres, issue_ok (by rw [handle]; rfl)]
  refine congrArg _ ((if_neg (not_not.mpr fault)).trans ?_)
  dsimp only
  split
  · next e => cases cause.symm.trans e; rfl
  · next e => cases cause.symm.trans e

/-- CPYRES that its checks let pass. -/
theorem cpyres_free (free : copySegs s (copyRestarted s h) = none) : exec (.cpyres h) s = .next
    (if copyWaits s h then waitHere s
    else acceptCopy (faultCleared s h) (copyRestarted s h)
      { progressOf (my s) (handleKey h) with state := 1, fkind := 0, fside := false, faddr := 0 }) := by
  change execCpyres h s = _
  rw [execCpyres, issue_ok (by rw [handle]; rfl)]
  refine congrArg _ ((if_neg (not_not.mpr fault)).trans ?_)
  dsimp only
  split
  · next e => cases free.symm.trans e
  · rfl

end

/-! ### The obligation -/

/-- Settles O27: a copy word is its checks, its wait and its acceptance in that order, and so is CPYRES of a copy at fault. -/
theorem copies : Obligations.Copies := by
  unfold Obligations.Copies
  refine ⟨fun s o h l => ⟨fun p hp => ?_, fun bad => ?_, fun tag => ?_, handleOk_barrier, rfl, rfl, decide_eq_true_iff, decide_eq_true_iff,
    copyWaits_iff s h⟩, fun s o h => ⟨fun p hp => ?_, fun _ handle => ?_⟩⟩
  · rw [copyWords_exec hp]
    exact copyWord_ill
  · change execCpyres h s = _
    exact issue_ill (by rw [bad, Bool.and_false]) _
  · simp [handleOk, tag]
  · intro n regs admitted fits ops handle c0 c
    rw [copyWords_exec hp]
    obtain ⟨stopped, free⟩ := copyWord_issued admitted fits ops handle
    rw [show copyOf s o h p.2 = c from rfl] at stopped free
    refine ⟨fun segs align goes => ?_, fun segs align waits => ?_, fun x segs => stopped x ?_, fun x segs align => stopped x ?_⟩
    · exact (free (by rw [segs, align]; rfl)).trans (congrArg _ (if_neg (Bool.eq_false_iff.mp goes)))
    · exact (free (by rw [segs, align]; rfl)).trans (congrArg _ (if_pos waits))
    · rw [segs]; rfl
    · rw [segs, align]; rfl
  · intro r
    refine ⟨fun idle => ⟨_, cpyres_idle handle idle, advance_nothing s⟩, fun fault => ?_⟩
    intro c0 c next
    refine ⟨fun x => cpyres_cause handle fault, fun free waits => ?_, fun free goes => ?_⟩
    · exact (cpyres_free handle fault free).trans (congrArg _ (if_pos waits))
    · rw [cpyres_free handle fault free, if_neg (Bool.eq_false_iff.mp goes)]
      exact ⟨fun tag => by rw [faultCleared_tag tag]; rfl, fun b k abs => by rw [faultCleared_barrier b abs]; rfl⟩

end Sys2Proof.Machine
end

section
/-! SUPPORT. Matrix words: how a word enters the queue, and what the gang makes of one that it performs at once (R235). -/

namespace Sys2Proof.Machine

/-! ### The issuing thread's record -/

theorem cur_eq_thread {s : State} (h : onRet s = false) : s.cur = .thread (me s) := by
  unfold onRet at h
  unfold me
  split at h
  · next e => rw [e]
  · cases h

/-- A thread's record once its word has retired (R114, R125). -/
def retiredThread (x : Thread) : Thread :=
  { x with hart := { x.hart with pc := x.hart.pc + 8 }, instret := x.instret + 1, cond := .ready }

theorem setThr_setThr (s : State) (n : Nat) (x y : Thread) : setThr (setThr s n x) n y = setThr s n y := by simp [setThr]

theorem thr_setThr_self (s : State) (n : Nat) (x : Thread) : thr (setThr s n x) n = x := by simp [thr_setThr]

theorem modMy_eq_setThr (s : State) (f : Thread → Thread) : modMy s f = setThr s (me s) (f (my s)) := rfl

section
variable {s : State} (thread : onRet s = false)
include thread

theorem advance_setThr (x : Thread) : advance (setThr s (me s) x) = setThr s (me s) (retiredThread x) := by
  have cur : (setThr s (me s) x).cur = .thread (me s) := cur_eq_thread thread
  rw [advance_eq, retire_modHart_thread _ _ _ cur, thr_setThr_self, setThr_setThr]
  rfl

theorem setCond_setThr (x : Thread) (c : Cond) : setCond (setThr s (me s) x) c = setThr s (me s) { x with cond := c } := by
  have cur : (setThr s (me s) x).cur = .thread (me s) := cur_eq_thread thread
  rw [setCond, cur]
  change setThr (setThr s (me s) x) (me s) { thr (setThr s (me s) x) (me s) with cond := c } = _
  rw [thr_setThr_self, setThr_setThr]

theorem asAgent_me (u : State) (h : u.cur = s.cur) (f : State → State) (keeps : (f u).cur = u.cur) :
    asAgent u (.thread (me s)) f = f u := by
  have cur := cur_eq_thread thread
  have same : { u with cur := .thread (me s) } = u := by rw [← cur, ← h]
  rw [asAgent, same, ← keeps]

end

theorem addFlags_zero (x : Thread) : addFlags x 0 = x := by simp [addFlags]

/-! ### A word enters the queue -/

theorem Retired.owe {s u t : State} {e : Effect} (h : Retired s u t e) (l : List (Instr × Msg)) : Retired s (owe u l) (owe t l) e := by
  have rest := congrArg (Machine.owe · l) h.rest
  exact ⟨rest, h.threads, h.rets, h.mine, h.ret, h.regs, h.segs, h.pc⟩

/-- A short word that leaves its thread waits while the queue of four is full, and else enters it and retires (R235). -/
theorem shortWord_sent {s : State} {i : Instr} {op : MatOp} (word : exec i s = .next (shortWord op s)) : ShortSent s i op := by
  rw [ShortSent, word]
  refine ⟨fun full => congrArg _ (if_pos full), fun room sent => ?_⟩
  have enters : shortWord op s = owe (advance (modMy s (fun x => { x with
      mqueue := x.mqueue ++ [{ op := op, long := false, pc := pcOf s }] }))) [ev .matrixWordComplete (me s)] := by
    refine (if_neg (Nat.not_le.mpr room)).trans (if_pos ?_)
    rw [advance_defer]
    exact sent
  obtain ⟨retired, kept⟩ := advance_modMy_changed s (fun x => { x with
    mqueue := x.mqueue ++ [{ op := op, long := false, pc := pcOf s }] }) (fun _ => ⟨rfl, rfl⟩)
  exact ⟨_, congrArg _ enters, kept, retired.owe _⟩

/-- A long word that leaves its thread waits for the queue to empty; then its thread waits for the gang (R235). -/
theorem longWord_sent {s : State} {i : Instr} {op : MatOp} (thread : onRet s = false) (word : exec i s = .next (longWord op s)) :
    LongSent s i op := by
  rw [LongSent, word]
  refine ⟨fun busy => congrArg _ (if_pos (by simpa using busy)), fun idle sent => ?_⟩
  have enters : longWord op s = owe (setThr s (me s) { my s with mqueue := [{ op := op, long := true, pc := pcOf s }], cond := .inEngine s.ir })
      [ev .matrixWordComplete (me s)] := by
    refine (if_neg (by simp [idle])).trans ?_
    rw [modMy_eq_setThr]
    dsimp only
    rw [setCond_setThr thread]
    exact if_pos sent
  refine ⟨_, congrArg _ enters, rfl, fun n hn => kfind_kset_ne _ _ hn, ?_⟩
  exact thr_setThr_self s (me s) _

/-! ### A word performed at once -/

/-- A word that changes its thread's record alone, whatever else the record holds. -/
structure OwnWord (op : MatOp) (n : Nat) (g : Thread → Thread) : Prop where
  performs : ∀ u : State, performMat u n op = (setThr u n (g (thr u n)), 0)
  queue : ∀ x q, g { x with mqueue := q } = { g x with mqueue := q }
  retire : ∀ x, g (retiredThread x) = retiredThread (g x)
  hart : ∀ x, (g x).hart = x.hart ∧ (g x).instret = x.instret

/-- The gang performs the word at the head of a queue of one, where nothing holds it (R189, R235, R239). -/
theorem completeMat_head {u v : State} {n : Nat} {w : MatWord} (queue : (thr u n).mqueue = [w]) (whole : (thr u n).lost = [])
    (alive : (thr u n).dead = false) (performs : performMat u n w.op = (v, 0)) :
    completeMat u n = if w.long then asAgent (modThr v n (fun x => addFlags { x with mqueue := [] } 0)) (.thread n) advance
      else modThr v n (fun x => addFlags { x with mqueue := [] } 0) := by
  unfold completeMat
  rw [queue]
  simp only [performs, whole, alive, List.isEmpty_nil, Bool.not_true, Bool.and_false, Bool.false_and, Bool.or_self, Bool.false_eq_true,
    if_false]
  cases w.long <;> simp

section
variable {s : State} {rs : List Reg} {vs : List VReg} (goes : GangGoes s rs vs)
include goes

theorem GangGoes.onRet : onRet s = false := goes.toGangReady.goes.onRet

/-- A short word that the gang performs at once. -/
theorem shortWord_goes {op : MatOp} {g : Thread → Thread} (own : OwnWord op (me s) g) : shortWord op s = advance (modMy s g) := by
  have thread := goes.onRet
  obtain ⟨-, idle, whole, alive, answered⟩ := goes
  let w : MatWord := { op := op, long := false, pc := pcOf s }
  have sent : advance (modMy s (fun x => { x with mqueue := x.mqueue ++ [w] })) =
      setThr s (me s) (retiredThread { my s with mqueue := [w] }) := by
    rw [modMy_eq_setThr, idle]
    exact advance_setThr thread _
  have entered : shortWord op s = completeMat (setThr s (me s) (retiredThread { my s with mqueue := [w] })) (me s) := by
    refine (if_neg (by simp [idle])).trans ?_
    simp only [w] at sent
    simp only [sent, setThr_defer, answered, Bool.false_eq_true, if_false, thr_setThr_self]
    rfl
  have done := completeMat_head (u := setThr s (me s) (retiredThread { my s with mqueue := [w] })) (w := w)
    (by rw [thr_setThr_self]; rfl) (by rw [thr_setThr_self]; exact whole) (by rw [thr_setThr_self]; exact alive) (own.performs _)
  have empty : { g (my s) with mqueue := [] } = g (my s) := by rw [← own.queue, ← idle]
  rw [entered, done, modMy_eq_setThr, advance_setThr thread, modThr, thr_setThr_self, thr_setThr_self, setThr_setThr, setThr_setThr,
    addFlags_zero, own.retire, own.queue]
  exact congrArg (fun x => setThr s (me s) (retiredThread x)) empty

/-- A long word that the gang performs at once. -/
theorem longWord_goes {op : MatOp} {v : State}
    (performs : performMat (setThr s (me s) { my s with mqueue := [{ op := op, long := true, pc := pcOf s }], cond := .inEngine s.ir })
      (me s) op = (v, 0)) :
    longWord op s = asAgent (modThr v (me s) (fun x => { x with mqueue := [] })) (.thread (me s)) advance := by
  have thread := goes.onRet
  obtain ⟨-, idle, whole, alive, answered⟩ := goes
  let w : MatWord := { op := op, long := true, pc := pcOf s }
  have sent : setCond (modMy s (fun x => { x with mqueue := [w] })) (.inEngine s.ir) =
      setThr s (me s) { my s with mqueue := [w], cond := .inEngine s.ir } := by
    rw [modMy_eq_setThr]
    exact setCond_setThr thread _ _
  have entered : longWord op s = completeMat (setThr s (me s) { my s with mqueue := [w], cond := .inEngine s.ir }) (me s) := by
    refine (if_neg (by simp [idle])).trans ?_
    simp only [w] at sent
    simp only [sent, setThr_defer, answered, Bool.false_eq_true, if_false]
    rfl
  have done := completeMat_head (u := setThr s (me s) { my s with mqueue := [w], cond := .inEngine s.ir }) (w := w)
    (by rw [thr_setThr_self]) (by rw [thr_setThr_self]; exact whole) (by rw [thr_setThr_self]; exact alive) performs
  rw [entered, done, if_pos rfl]
  simp only [addFlags_zero]

end

end Sys2Proof.Machine
end

section
/-! RESULT. Gangs formed, shaped and left, and the words that move accumulators (O44). -/

namespace Sys2Proof.Machine

/-! ### Words on a thread's own record -/

theorem setAcc_fields (x : Thread) (k : Nat) (l : List (BitVec 32)) : (setAcc x k l).hart = x.hart ∧ (setAcc x k l).instret = x.instret := by
  unfold setAcc; split <;> exact ⟨rfl, rfl⟩

theorem setAcc_queue (x : Thread) (k : Nat) (l : List (BitVec 32)) (q : List MatWord) :
    setAcc { x with mqueue := q } k l = { setAcc x k l with mqueue := q } := by
  unfold setAcc; split <;> rfl

theorem setAcc_retired (x : Thread) (k : Nat) (l : List (BitVec 32)) : setAcc (retiredThread x) k l = retiredThread (setAcc x k l) := by
  unfold setAcc; split <;> rfl

/-- Elements are written into a record's slots, whatever else becomes of it. -/
theorem putElems_comm {g : Thread → Thread} (sets : ∀ x l, g { x with slots := l } = { g x with slots := l })
    (slots : ∀ x, (g x).slots = x.slots) (fmt : Nat) (r : VReg) (x : Thread) (l : List (Nat × Nat)) :
    putElems fmt r (g x) l = g (putElems fmt r x l) := by
  induction l using List.reverseRecOn with
  | nil => rfl
  | append_singleton l p ih =>
    rw [putElems_append, putElems_append, ih, putElem, putElem, modSlot, modSlot, slots, ← sets]

theorem putElems_queue (fmt : Nat) (r : VReg) (x : Thread) (l : List (Nat × Nat)) (q : List MatWord) :
    putElems fmt r { x with mqueue := q } l = { putElems fmt r x l with mqueue := q } :=
  putElems_comm (g := fun x => { x with mqueue := q }) (fun _ _ => rfl) (fun _ => rfl) fmt r x l

theorem putElems_retired (fmt : Nat) (r : VReg) (x : Thread) (l : List (Nat × Nat)) :
    putElems fmt r (retiredThread x) l = retiredThread (putElems fmt r x l) :=
  putElems_comm (g := retiredThread) (fun _ _ => rfl) (fun _ => rfl) fmt r x l

theorem putElems_fields (fmt : Nat) (r : VReg) (x : Thread) (l : List (Nat × Nat)) :
    (putElems fmt r x l).hart = x.hart ∧ (putElems fmt r x l).instret = x.instret := by
  rw [putElems_eq]; exact ⟨rfl, rfl⟩

theorem zero_own (k n : Nat) : OwnWord (.zero k) n (fun x => setAcc x k (List.replicate (x.mvl * x.mvl) 0)) :=
  ⟨fun _ => rfl, fun x => setAcc_queue x k (List.replicate (x.mvl * x.mvl) 0), fun x => setAcc_retired x k (List.replicate (x.mvl * x.mvl) 0), fun x => setAcc_fields x k _⟩

theorem moveRow_own (k vd row : Nat) (act : List Nat) (n : Nat) : OwnWord (.moveRow k vd row act) n
    (fun x => putElems 0 (BitVec.ofNat 5 vd) x (act.map (fun j => (j, accAt x k row j)))) :=
  ⟨fun _ => rfl, fun x => putElems_queue 0 _ x (act.map (fun j => (j, accAt x k row j))),
    fun x => putElems_retired 0 _ x (act.map (fun j => (j, accAt x k row j))), fun x => putElems_fields 0 _ x _⟩

theorem moveCol_own (k vd col : Nat) (act : List Nat) (n : Nat) : OwnWord (.moveCol k vd col act) n
    (fun x => putElems 0 (BitVec.ofNat 5 vd) x (act.map (fun i => (i, accAt x k i col)))) :=
  ⟨fun _ => rfl, fun x => putElems_queue 0 _ x (act.map (fun i => (i, accAt x k i col))),
    fun x => putElems_retired 0 _ x (act.map (fun i => (i, accAt x k i col))), fun x => putElems_fields 0 _ x _⟩

theorem loadRow_own (k row : Nat) (vals : List (Nat × Nat)) (n : Nat) : OwnWord (.loadRow k row vals) n
    (fun x => setAcc x k (vals.foldl (fun l p => l.set (row * x.mvl + p.1) (BitVec.ofNat 32 p.2)) (accOf x k))) :=
  ⟨fun _ => rfl, fun x => setAcc_queue x k (vals.foldl (fun l p => l.set (row * x.mvl + p.1) (BitVec.ofNat 32 p.2)) (accOf x k)),
    fun x => setAcc_retired x k (vals.foldl (fun l p => l.set (row * x.mvl + p.1) (BitVec.ofNat 32 p.2)) (accOf x k)),
    fun x => setAcc_fields x k _⟩

/-! ### Issuing -/

theorem issueM_ready {s : State} {rs : List Reg} {vs : List VReg} (ready : GangReady s rs vs) (f : State → State) :
    issueM s rs vs f = .next (f s) := (issueV_goes ready.goes _).trans (congrArg _ (if_neg ready.gang))

/-- A matrix word that is illegal where it stands, or whose thread holds no gang (R234). -/
theorem issueM_ill {s : State} {rs : List Reg} {vs : List VReg} (h : vecIllegal s true rs ∨ (VecGoes s true rs vs ∧ (my s).mvl = 0))
    (f : State → State) : issueM s rs vs f = .next (takeIll s) := by
  rcases h with ill | ⟨goes, none_⟩
  · exact issueV_ill vs ill _
  · exact (issueV_goes goes _).trans (congrArg _ (if_pos none_))

/-- Fewer vector registers have landed with more. -/
theorem landed_mono {x : Thread} {rs qs : List VReg} (sub : qs ⊆ rs) (h : landed x rs = true) : landed x qs = true := by
  unfold landed at h ⊢
  rw [Bool.and_eq_true, List.all_eq_true, List.all_eq_true] at h ⊢
  have fewer (n : Nat) (h : rs.all (fun r => r.toNat != n) = true) : qs.all (fun r => r.toNat != n) = true :=
    List.all_eq_true.mpr fun r hr => List.all_eq_true.mp h r (sub hr)
  refine ⟨fun l hl => fewer _ (h.1 l hl), fun w hw => ?_⟩
  have := h.2 w hw
  cases e : w.op <;> simp only [e] at this ⊢
  · exact fewer _ this
  · exact fewer _ this

theorem VecGoes.fewer {s : State} {held : Bool} {rs : List Reg} {vs ws : List VReg} (h : VecGoes s held rs vs) (sub : ws ⊆ vs) :
    VecGoes s held rs ws := { h with landed := landed_mono sub h.landed }

/-- A move of a row or column whose index is below MVL. -/
theorem accMove_ready {f : VFields} {s : State} {vs : List VReg} (ready : GangReady s [f.s] vs) (inside : (reg s f.s).toNat < (my s).mvl)
    (op : Thread → Nat → MatOp) : accMove f vs op s = .next (shortWord (op (my s) (reg s f.s).toNat) s) :=
  (issueM_ready ready _).trans (congrArg _ (if_neg (Nat.not_le.mpr inside)))

theorem accMove_beyond {f : VFields} {s : State} {vs : List VReg} (ready : GangReady s [f.s] vs) (beyond : (my s).mvl ≤ (reg s f.s).toNat)
    (op : Thread → Nat → MatOp) : accMove f vs op s = .next (takeIll s) :=
  (issueM_ready ready _).trans (congrArg _ (if_pos beyond))

section
variable {f : VFields} {s : State} (ready : GangReady s [f.s] []) (acc : Nat) (op : Nat → MatOp)
include ready

theorem windowMove_fits (fits : (reg s f.s).toNat + 4 * ((my s).mvl * (my s).mvl) ≤ (lspWindow s).2)
    (aligned : (reg s f.s).toNat % 128 = 0) : windowMove f acc op s = .next (longWord (op (reg s f.s).toNat) s) := by
  have free : windowCause s (reg s f.s) (4 * ((my s).mvl * (my s).mvl)) 128 acc = none := by
    rw [windowCause, if_neg (Nat.not_lt.mpr fits), if_neg (not_not.mpr aligned)]
  rw [windowMove, issueM_ready ready]
  simp only [free]

theorem windowMove_unaligned (fits : (reg s f.s).toNat + 4 * ((my s).mvl * (my s).mvl) ≤ (lspWindow s).2)
    (off : (reg s f.s).toNat % 128 ≠ 0) : windowMove f acc op s = .next (takeTrap s 3 (acc * 128) (reg s f.s)) := by
  have cause : windowCause s (reg s f.s) (4 * ((my s).mvl * (my s).mvl)) 128 acc = some (alignCause acc (reg s f.s)) := by
    rw [windowCause, if_neg (Nat.not_lt.mpr fits), if_pos off]
  rw [windowMove, issueM_ready ready]
  simp only [cause]
  rfl

theorem windowMove_outside (out : ¬(reg s f.s).toNat + 4 * ((my s).mvl * (my s).mvl) ≤ (lspWindow s).2) :
    windowMove f acc op s = .next (takeTrap s 2 (acc * 128) (reg s f.s)) := by
  have cause : windowCause s (reg s f.s) (4 * ((my s).mvl * (my s).mvl)) 128 acc = some (.trap 2 (segvInfo 0 0 acc) (reg s f.s) false) := by
    rw [windowCause, if_pos (Nat.not_le.mp out)]
  rw [windowMove, issueM_ready ready]
  simp only [cause]
  simp [takeCause, segvInfo]

end

/-! ### An accumulator through the window -/

theorem asAgent_advance_setThr {s : State} (thread : onRet s = false) (x : Thread) :
    asAgent (setThr s (me s) x) (.thread (me s)) advance = setThr s (me s) (retiredThread x) := by
  rw [asAgent_me thread (setThr s (me s) x) rfl advance (advance_cur _), advance_setThr thread]

theorem advance_eq_setThr {s : State} (thread : onRet s = false) : advance s = setThr s (me s) (retiredThread (my s)) := by
  rw [advance_eq, retire_modHart_thread _ _ _ (cur_eq_thread thread)]
  rfl

/-- 32-bit words stored into the window, as their thread and the others read them (R87, R121, R207). -/
theorem writeWindow_spec (s : State) (off : Nat) (ws : List Nat) :
    ∃ ps : List PStore, (∀ p ∈ ps, p.agent = s.cur) ∧ writeWindow s off ws = acceptPieces s s.cur ps ∧
      ps.flatMap (·.locs) = (span ((lspWindow s).1 + off) (ws.flatMap (leBytes 4)).length).zip (ws.flatMap (leBytes 4)) := by
  refine ⟨_, fun p hp => ?_, rfl, ?_⟩
  · obtain ⟨x, -, rfl⟩ := List.mem_map.mp hp
    rfl
  · rw [pieces_locs, vectorPieces_flatten, List.zip_map_left, List.map_map]
    exact (List.map_congr_left fun p _ => rfl).trans (List.map_id _)

theorem lspWindow_setThr (s : State) {x : Thread} (same : x.ctx = (my s).ctx) : lspWindow (setThr s (me s) x) = lspWindow s := by
  have ctx : myCtx (setThr s (me s) x) = myCtx s := (congrArg Thread.ctx (thr_setThr_self s (me s) x)).trans same
  unfold lspWindow
  rw [ctx]
  rfl

/-- The record of a thread whose long word the gang has. -/
def longThread (s : State) (op : MatOp) : Thread :=
  { my s with mqueue := [{ op := op, long := true, pc := pcOf s }], cond := .inEngine s.ir }

/-- Once its word is done its record is as if the word had retired at once. -/
theorem retiredThread_long {s : State} (idle : (my s).mqueue = []) (op : MatOp) (k : Nat) (l : List (BitVec 32)) :
    retiredThread { setAcc (longThread s op) k l with mqueue := [] } = retiredThread (setAcc (my s) k l) := by
  unfold setAcc
  split <;> simp [retiredThread, longThread, idle]

/-- The record of a thread once a long word that changes memory alone is done. -/
theorem retiredThread_longThread {s : State} (idle : (my s).mqueue = []) (op : MatOp) :
    retiredThread { longThread s op with mqueue := [] } = retiredThread (my s) := by
  simp [retiredThread, longThread, idle]

section
variable {s : State} {rs : List Reg} {vs : List VReg} (goes : GangGoes s rs vs) (k off : Nat)
include goes

/-- An accumulator filled from the window at once (R233). -/
theorem fill_goes : longWord (.fill k off) s = advance (modMy s (fun y => setAcc y k
    ((readWindow s off ((my s).mvl * (my s).mvl)).map (BitVec.ofNat 32)))) := by
  have thread := goes.onRet
  have window : readWindow { setThr s (me s) (longThread s (.fill k off)) with cur := .thread (me s) } off ((my s).mvl * (my s).mvl) =
      readWindow s off ((my s).mvl * (my s).mvl) := by
    have cur : { setThr s (me s) (longThread s (.fill k off)) with cur := .thread (me s) } =
        setThr s (me s) (longThread s (.fill k off)) := by rw [← cur_eq_thread thread]; rfl
    rw [cur, readWindow, lspWindow_setThr s (by rfl), readWindow]
    rfl
  have performs : performMat (setThr s (me s) (longThread s (.fill k off))) (me s) (.fill k off) = (setThr s (me s)
      (setAcc (longThread s (.fill k off)) k ((readWindow s off ((my s).mvl * (my s).mvl)).map (BitVec.ofNat 32))), 0) := by
    rw [← window]
    simp only [performMat, thr_setThr_self, setThr_setThr]
    rfl
  have idle := goes.idle
  rw [longWord_goes goes performs, modThr, thr_setThr_self, setThr_setThr, asAgent_advance_setThr thread, modMy_eq_setThr,
    advance_setThr thread, retiredThread_long idle]

/-- An accumulator spilled to the window at once (R233). -/
theorem spill_goes : ∃ u, StoreAccepted s u (longWord (.spill k off) s)
    ((span ((lspWindow s).1 + off) (((accOf (my s) k).map (·.toNat)).flatMap (leBytes 4)).length).zip
      (((accOf (my s) k).map (·.toNat)).flatMap (leBytes 4))) := by
  have thread := goes.onRet
  have cur := cur_eq_thread thread
  have die : dieOfCore (agentCore s.cur) = myDie s := dieOfCore_cur s
  have idle := goes.idle
  have performs : performMat (setThr s (me s) (longThread s (.spill k off))) (me s) (.spill k off) =
      (asAgent (setThr s (me s) (longThread s (.spill k off))) (.thread (me s)) (fun s' => writeWindow s' off ((accOf (my s) k).map (·.toNat))),
        0) := by
    simp only [performMat, thr_setThr_self]
    rfl
  obtain ⟨ps, mine, writes, locs⟩ := writeWindow_spec (setThr s (me s) (longThread s (.spill k off))) off ((accOf (my s) k).map (·.toNat))
  rw [lspWindow_setThr s (by rfl)] at locs
  obtain ⟨home, own, others⟩ := acceptPieces_spec _ _ ps mine
  rw [← writes] at home own others
  have wrote : asAgent (setThr s (me s) (longThread s (.spill k off))) (.thread (me s))
      (fun s' => writeWindow s' off ((accOf (my s) k).map (·.toNat))) =
        writeWindow (setThr s (me s) (longThread s (.spill k off))) off ((accOf (my s) k).map (·.toNat)) :=
    asAgent_me thread (setThr s (me s) (longThread s (.spill k off))) rfl _ home.sameAgents.cur
  rw [longWord_goes goes performs, wrote]
  generalize writeWindow (setThr s (me s) (longThread s (.spill k off))) off ((accOf (my s) k).map (·.toNat)) = v at home own others
  let u : State := { v with threads := s.threads }
  have only : HomesOnly s u := by
    unfold HomesOnly at home ⊢
    have back := congrArg (fun y : State => { y with threads := s.threads }) home
    exact back
  have agents := home.sameAgents
  have who : me v = me s := agents.me
  have record : thr v (me s) = longThread s (.spill k off) := by
    rw [thr, agents.threads]
    exact thr_setThr_self s (me s) _
  have ends : asAgent (modThr v (me s) (fun x => { x with mqueue := [] })) (.thread (me s)) advance = advance u := by
    have left := asAgent_advance_setThr (s := v) (by rw [Machine.onRet, agents.cur]; exact thread) { longThread s (.spill k off) with mqueue := [] }
    have right := advance_eq_setThr (s := u) (by rw [Machine.onRet, only.sameAgents.cur]; exact thread)
    rw [who] at left
    rw [modThr, record, left, right, only.sameAgents.me, only.sameAgents.my, retiredThread_longThread idle]
    change { v with threads := kset v.threads _ _ } = { v with threads := kset s.threads _ _ }
    rw [agents.threads]
    simp
  have same : getLoc (advance u) = getLoc v := by
    funext a d loc
    exact (sameBytes_of (by simp) (by simp) (by simp) : SameBytes u (advance u)).bytesKept a d loc
  rw [ends, ← locs]
  refine ⟨u, advance_retired only.sameAgents, only, fun loc hl => ?_, fun a d loc ha hl hs hp => ?_⟩
  · rw [same, ← die]
    exact own loc hl
  · rw [same]
    exact others a d loc ha hl hs hp

end

/-! ### Forming, shaping and leaving a gang -/

/-- The edge that MMODE asks for (R225). -/
def mmodeEdge (s : State) (f : VFields) : Nat := (edges.find? (fun g => decide (g ≤ min (max (reg s (extReg f)).toNat 2) 32))).getD 2
/-- Its request made, and the owed slices of its pool placed. -/
def mmodeState (s : State) (f : VFields) : State :=
  settlePool (setRequest s (me s) (min (max (my s).rq (mmodeEdge s f * mmodeEdge s f)) (my s).vceil)) (myPool s)
/-- The gang that it finds there. -/
def mmodePick (s : State) (f : VFields) : Option (Nat × List Nat) :=
  match edgeCap (min (my (mmodeState s f)).ent (my (mmodeState s f)).vceil) with
  | some cap => findGang (mmodeState s f) (me s) (edges.filter (fun e => decide (e ≤ min (mmodeEdge s f) cap)))
  | none => none

theorem mmodePick_eq (s : State) (f : VFields) :
    mmodePick s f = (edgeCap (min (my (mmodeState s f)).ent (my (mmodeState s f)).vceil)).bind (fun cap =>
      findGang (mmodeState s f) (me s) (edges.filter (fun e => decide (e ≤ min (mmodeEdge s f) cap)))) := by
  unfold mmodePick
  cases edgeCap (min (my (mmodeState s f)).ent (my (mmodeState s f)).vceil) <;> rfl

section
variable {s : State} {f : VFields} (goes : VecGoes s true [f.s, extReg f] [])
include goes

theorem mmode_waits (h : settled (my s) = false ∨ ((my s).mvl = 0 ∧ unitLive s (16 + myPool s) = false)) :
    exec (.mmode f) s = .next (waitHere s) := by
  change execMmode f s = _
  rw [execMmode, issueV_goes goes]
  cases quiet : settled (my s) with
  | false => simp
  | true =>
    obtain ⟨none_, dead⟩ := h.resolve_left (by simp [quiet])
    simp [none_, poolLive, dead]

variable (quiet : settled (my s) = true)
include quiet

theorem mmode_holds (gang : (my s).mvl ≠ 0) :
    exec (.mmode f) s = .next (advance (setReg s f.s (BitVec.ofNat 64 ((my s).mvl / 8)))) := by
  change execMmode f s = _
  rw [execMmode, issueV_goes goes]
  simp [quiet, gang]

variable (none_ : (my s).mvl = 0) (live : unitLive s (16 + myPool s) = true)
include none_ live

theorem mmode_forms {e : Nat} {b : List Nat} (pick : mmodePick s f = some (e, b)) :
    exec (.mmode f) s = .next (advance (setReg (takeBlock (mmodeState s f) e b) f.s (BitVec.ofNat 64 e))) := by
  change execMmode f s = _
  rw [execMmode, issueV_goes goes]
  refine congrArg _ ((if_neg (by simp [quiet])).trans ((if_neg (not_not.mpr none_)).trans ((if_neg (by simp [poolLive, live])).trans ?_)))
  dsimp only
  split
  · next e => cases pick.symm.trans e; rfl
  · next e => cases pick.symm.trans e

theorem mmode_refused (pick : mmodePick s f = none) :
    (∀ v, regrant (mmodeState s f) = some v → exec (.mmode f) s =
        .next (advance (setReg (modMy v (fun x => { x with vl := min x.vl x.gvl })) f.s 0))) ∧
      (regrant (mmodeState s f) = none → exec (.mmode f) s = .next (setCond s .parkedGrant)) := by
  change (∀ v, _ → execMmode f s = _) ∧ (_ → execMmode f s = _)
  rw [execMmode, issueV_goes goes, if_neg (by simp [quiet]), if_neg (not_not.mpr none_), if_neg (by simp [poolLive, live])]
  dsimp only
  split
  · next e => cases pick.symm.trans e
  · split
    · next e =>
      refine ⟨fun v granted => ?_, fun parks => ?_⟩
      · cases granted.symm.trans e
        rfl
      · cases parks.symm.trans e
    · next e =>
      refine ⟨fun v granted => ?_, fun _ => rfl⟩
      cases granted.symm.trans e

end

section
variable {s : State} {f : VFields} (ready : GangReady s [f.s, extReg f] [])
include ready

theorem tshape_waits (h : settled (my s) = false ∨ unitLive s (16 + myPool s) = false) : exec (.tshape f) s = .next (waitHere s) := by
  change execTshape f s = _
  rw [execTshape, issueM_ready ready]
  exact congrArg _ (if_pos (by simpa [poolLive] using h))

/-- A tile's dimension as TSHAPE's operand gives it (R226). -/
def tileDim (s : State) (f : VFields) (i : Nat) : Nat := ((reg s (extReg f)).extractLsb' (16 * i) 16).toNat
/-- The gang fitted to the tile. -/
def tileGang (s : State) (f : VFields) : State :=
  reshape (settlePool s (myPool s)) (min (edgeNeed f.fmt.toNat (max (tileDim s f 0) (tileDim s f 1)))
    ((edgeCap (min (my s).ent (my s).vceil)).getD 2))
/-- How far a dimension of a tile may go in a gang. -/
def tileReach (f : VFields) (x : Thread) : Nat := min x.mvl (x.gvl * perSlot f.fmt.toNat)

theorem tshape_fits (quiet : settled (my s) = true) (live : unitLive s (16 + myPool s) = true) :
    exec (.tshape f) s = .next (advance (setReg (modMy (tileGang s f) (fun x => { x with
        mm := min (tileDim s f 0) (tileReach f (my (tileGang s f))), mn := min (tileDim s f 1) (tileReach f (my (tileGang s f)))
        mkk := min (tileDim s f 2) 8 })) f.s
      (BitVec.ofNat 64 (min (tileDim s f 0) (tileReach f (my (tileGang s f))) + min (tileDim s f 1) (tileReach f (my (tileGang s f))) * 2 ^ 16 +
        min (tileDim s f 2) 8 * 2 ^ 32 + (my (tileGang s f)).mvl / 8 * 2 ^ 48)))) := by
  change execTshape f s = _
  rw [execTshape, issueM_ready ready, if_neg (by simp [quiet, poolLive, live])]
  simp only [field_eq]
  rfl

end

section
variable {s : State} (goes : VecGoes s true [] [])
include goes

theorem mexit_none (none_ : (my s).mvl = 0) : exec .mexit s = .next (advance s) := by
  change execMexit s = _
  rw [execMexit, issueV_goes goes]
  exact congrArg _ (if_pos none_)

theorem mexit_waits (gang : (my s).mvl ≠ 0) (busy : (my s).mqueue ≠ []) : exec .mexit s = .next (waitHere s) := by
  change execMexit s = _
  rw [execMexit, issueV_goes goes]
  simp [gang, busy]

theorem mexit_leaves (gang : (my s).mvl ≠ 0) (idle : (my s).mqueue = []) :
    exec .mexit s = .next (advance (wakePool (modMy s leaveGang) (myPool s))) := by
  change execMexit s = _
  rw [execMexit, issueV_goes goes]
  simp [gang, idle]

end

/-- The owed slices of a pool's threads are looked at again as lanes come free there. -/
theorem wakePool_placed {s : State} {p n : Nat} {x : Thread} (here : kfind s.threads n = some x) (pool : poolOf n = p)
    (owed : x.lost ≠ []) : ev .slicePlaced n ∈ (wakePool s p).owed := by
  refine List.mem_append_right _ (List.mem_append_left _ (List.mem_map.mpr ⟨(n, x), ?_, rfl⟩))
  simp only [List.mem_filter, Bool.not_eq_true', List.isEmpty_eq_false_iff, beq_iff_eq]
  exact ⟨⟨kfind_mem here, pool⟩, owed⟩

/-- A gang left (R227, R239, R240). -/
theorem mexit_spec {s : State} (goes : VecGoes s true [] []) (gang : (my s).mvl ≠ 0) (idle : (my s).mqueue = []) :
    ∃ t, exec .mexit s = .next t ∧ BytesKept s t ∧ Retired s { s with owed := t.owed } t (.own s leaveGang) ∧
      (∃ l, t.owed = s.owed ++ l) ∧
      ∀ n x, kfind s.threads n = some x → poolOf n = myPool s → x.lost ≠ [] → ev .slicePlaced n ∈ t.owed := by
  obtain ⟨l, woken⟩ := wakePool_owes (modMy s leaveGang) (myPool s)
  have placed (n : Nat) (x : Thread) (here : kfind s.threads n = some x) (pool : poolOf n = myPool s) (owed : x.lost ≠ []) :
      ev .slicePlaced n ∈ (wakePool (modMy s leaveGang) (myPool s)).owed := by
    by_cases mine : n = me s
    · subst mine
      refine wakePool_placed (x := leaveGang (my s)) (kfind_kset_self ..) pool ?_
      rwa [my, thr, kget, here]
    · exact wakePool_placed ((kfind_kset_ne _ _ mine).trans here) pool owed
  obtain ⟨retired, kept⟩ := advance_modMy_changed s leaveGang (fun _ => ⟨rfl, rfl⟩)
  refine ⟨_, mexit_leaves goes gang idle, ?_⟩
  rw [woken] at placed ⊢
  rw [advance_owe]
  have owed : (owe (advance (modMy s leaveGang)) l).owed = s.owed ++ l := by simp
  rw [owed]
  refine ⟨kept, retired.owe l, ⟨l, rfl⟩, fun n x here pool lost => ?_⟩
  exact placed n x here pool lost

/-! ### Words performed at once -/

theorem modMy_congr {s : State} {g h : Thread → Thread} (same : g (my s) = h (my s)) : modMy s g = modMy s h := by
  rw [modMy_eq_setThr, modMy_eq_setThr, same]

section
variable {s : State} {f : VFields}

theorem mzero_goes (goes : GangGoes s [] []) : ∃ t, exec (.mzero f) s = .next t ∧
    ChangedOwn s t (fun x => setAcc x f.vd.toNat (List.replicate (x.mvl * x.mvl) 0)) := by
  change ∃ t, execMzero f s = _ ∧ _
  rw [execMzero, issueM_ready goes.toGangReady, shortWord_goes goes (zero_own ..)]
  exact ⟨_, rfl, advance_modMy_changed s _ fun x => setAcc_fields x _ _⟩

/-- A row or column moved to a vector register at once. -/
theorem shortMove_wrote {vs : List VReg} (goes : GangGoes s [f.s] vs) {op : MatOp} {g : Thread → List (Nat × Nat)}
    (own : OwnWord op (me s) (fun x => putElems 0 (BitVec.ofNat 5 f.vd.toNat) x (g x))) :
    VecWrote s s (shortWord op s) f.vd 0 (g (my s)) id := by
  have same : shortWord op s = advance (modMy s (fun x => putElems 0 f.vd (id x) (g (my s)))) := by
    rw [shortWord_goes goes own]
    refine congrArg advance (modMy_congr ?_)
    rw [BitVec.ofNat_toNat, BitVec.setWidth_eq]
    rfl
  rw [same]
  exact advance_putElems_wrote s 0 f.vd (g (my s)) id (fun _ => ⟨rfl, rfl⟩) goes.onRet

theorem mldacc_goes (goes : GangGoes s [f.s] [f.va]) (inside : (reg s f.s).toNat < (my s).mvl) : ∃ t, exec (.mldacc f) s = .next t ∧
    ChangedOwn s t (fun y => setAcc y f.vd.toNat (((actives (my s) f).filter (· < (my s).mn)).foldl
      (fun l j => l.set ((reg s f.s).toNat * (my s).mvl + j) (BitVec.ofNat 32 (elem (my s) f.va f.fmt.toNat j))) (accOf y f.vd.toNat))) := by
  change ∃ t, execMldacc f s = _ ∧ _
  rw [execMldacc, accMove_ready goes.toGangReady inside, shortWord_goes goes (loadRow_own ..)]
  refine ⟨_, rfl, ?_⟩
  rw [modMy_congr (h := fun y => setAcc y f.vd.toNat (((actives (my s) f).filter (· < (my s).mn)).foldl
    (fun l j => l.set ((reg s f.s).toNat * (my s).mvl + j) (BitVec.ofNat 32 (elem (my s) f.va f.fmt.toNat j))) (accOf y f.vd.toNat)))
    (by rw [List.foldl_map])]
  exact advance_modMy_changed s _ fun x => setAcc_fields x _ _

section
variable (goes : GangGoes s [f.s] []) (fit : (reg s f.s).toNat + 4 * ((my s).mvl * (my s).mvl) ≤ (lspWindow s).2)
  (aligned : (reg s f.s).toNat % 128 = 0)
include goes fit aligned

theorem mspill_goes : ∃ u t, exec (.mspill f) s = .next t ∧ StoreAccepted s u t
    ((span ((lspWindow s).1 + (reg s f.s).toNat) ((accOf (my s) f.va.toNat).flatMap (fun w => leBytes 4 w.toNat)).length).zip
      ((accOf (my s) f.va.toNat).flatMap (fun w => leBytes 4 w.toNat))) := by
  change ∃ u t, execMspill f s = _ ∧ _
  rw [execMspill, windowMove_fits goes.toGangReady _ _ fit aligned]
  obtain ⟨u, stored⟩ := spill_goes goes f.va.toNat (reg s f.s).toNat
  rw [List.flatMap_map] at stored
  exact ⟨u, _, rfl, stored⟩

theorem mfill_goes : ∃ t, exec (.mfill f) s = .next t ∧
    ChangedOwn s t (fun y => setAcc y f.vd.toNat ((List.range ((my s).mvl * (my s).mvl)).map (fun q =>
      BitVec.ofNat 32 (leNat ((span ((lspWindow s).1 + (reg s f.s).toNat + 4 * q) 4).map (getLoc s s.cur (myDie s))))))) := by
  change ∃ t, execMfill f s = _ ∧ _
  rw [execMfill, windowMove_fits goes.toGangReady _ _ fit aligned, fill_goes goes, readWindow, List.map_map]
  exact ⟨_, rfl, advance_modMy_changed s _ fun x => setAcc_fields x _ _⟩

end

end

/-! ### The obligation -/

/-- Settles O44: a matrix word enters the queue, where the gang performs it at once if nothing holds it; MMODE, TSHAPE and MEXIT are
their checks and waits, and then the gang that the pool has for them. -/
theorem gangsAndAccumulators : Obligations.GangsAndAccumulators := by
  unfold Obligations.GangsAndAccumulators
  refine ⟨fun s f => ?_, fun s f quiet => ⟨fun goes => ?_, fun goes => ?_⟩, fun s f => ?_⟩
  · intro row i
    refine ⟨fun goes => mmode_waits goes, fun goes => mexit_waits goes, fun ill => ?_, fun ill => ?_, fun ill => ?_, fun ill => ?_,
      fun ready => tshape_waits ready, fun ready => ?_, fun ready inside => ?_, fun ready inside => ?_, fun ready fits aligned => ?_⟩
    · change execMmode f s = _ ∧ execTshape f s = _
      exact ⟨issueV_ill _ ill _, issueM_ill (.inl ill) _⟩
    · change execMexit s = _
      exact issueV_ill _ ill _
    · change execMzero f s = _
      exact issueM_ill ill _
    · have less (vs : List VReg) (sub : vs ⊆ [f.vd, f.va]) (g : State → State) : issueM s [f.s] vs g = .next (takeIll s) :=
        issueM_ill (ill.imp_right fun h => ⟨h.1.fewer sub, h.2⟩) g
      simp only [List.forall_mem_cons, List.not_mem_nil, false_implies, implies_true, and_true]
      change execMvacc f s = _ ∧ execMvcol f s = _ ∧ execMldacc f s = _ ∧ execMspill f s = _ ∧ execMfill f s = _
      unfold execMvacc execMvcol execMldacc execMspill execMfill accMove windowMove
      exact ⟨less [f.vd] (by simp) _, less [f.vd] (by simp) _, less [f.va] (by simp) _, less [] (by simp) _, less [] (by simp) _⟩
    · refine shortWord_sent ?_
      change execMzero f s = _
      exact issueM_ready ready _
    · refine ⟨shortWord_sent ?_, shortWord_sent ?_⟩
      · change execMvacc f s = _
        exact accMove_ready ready inside _
      · change execMvcol f s = _
        exact accMove_ready ready inside _
    · refine shortWord_sent ?_
      change execMldacc f s = _
      exact accMove_ready ready inside _
    · refine ⟨longWord_sent ready.goes.onRet ?_, longWord_sent ready.goes.onRet ?_⟩
      · change execMspill f s = _
        exact windowMove_fits ready _ _ fits aligned
      · change execMfill f s = _
        exact windowMove_fits ready _ _ fits aligned
  · refine ⟨fun gang => wrote_of (mmode_holds goes quiet gang), fun none_ live => ?_, fun gang live => ?_, fun none_ => ?_⟩
    · intro want g u pick
      have same : mmodePick s f = pick := mmodePick_eq s f
      rw [← same]
      refine ⟨fun e b => mmode_forms goes quiet none_ live, fun v refused => (mmode_refused goes quiet none_ live refused).1 v,
        fun refused => (mmode_refused goes quiet none_ live refused).2⟩
    · exact tshape_fits ⟨goes, gang⟩ quiet live
    · change execTshape f s = _
      exact issueM_ill (.inr ⟨goes, none_⟩) _
  · have idle : (my s).mqueue = [] := by
      unfold settled at quiet
      simpa using (Bool.and_eq_true_iff.mp quiet).2
    exact ⟨fun none_ => ⟨_, mexit_none goes none_, advance_nothing s⟩, fun gang => mexit_spec goes gang idle⟩
  · intro x i word off bytes fits
    refine ⟨fun goes => ?_, fun goes inside => ⟨?_, ?_⟩, fun goes inside => ?_, fun goes beyond => ?_, fun goes fit aligned => ⟨?_, ?_⟩,
      fun goes fit off => ?_, fun goes out => ?_⟩
    · exact mzero_goes goes
    · refine ⟨_, ?_, shortMove_wrote goes (moveRow_own f.va.toNat f.vd.toNat i ((actives x f).filter (· < x.mn)) (me s))⟩
      change execMvacc f s = _
      exact accMove_ready goes.toGangReady inside _
    · refine ⟨_, ?_, shortMove_wrote goes (moveCol_own f.va.toNat f.vd.toNat i ((actives x f).filter (· < x.mm)) (me s))⟩
      change execMvcol f s = _
      exact accMove_ready goes.toGangReady inside _
    · exact mldacc_goes goes inside
    · change execMvacc f s = _ ∧ execMvcol f s = _
      exact ⟨accMove_beyond goes.toGangReady beyond _, accMove_beyond goes.toGangReady beyond _⟩
    · exact mspill_goes goes fit aligned
    · exact mfill_goes goes fit aligned
    · change execMspill f s = _ ∧ execMfill f s = _
      exact ⟨windowMove_unaligned goes.toGangReady 1 _ fit off, windowMove_unaligned goes.toGangReady 0 _ fit off⟩
    · change execMspill f s = _ ∧ execMfill f s = _
      exact ⟨windowMove_outside goes.toGangReady 1 _ out, windowMove_outside goes.toGangReady 0 _ out⟩

end Sys2Proof.Machine
end

section
/-! SUPPORT. Entitlements as they pass between the holders of a context in a pool (R178). -/

namespace Sys2Proof.Machine

/-! ### Maps whose keys rise -/

theorem kfind_of_mem {α : Type} {m : KMap α} (rising : krising m = true) {k : Nat} {v : α} (h : (k, v) ∈ m) : kfind m k = some v := by
  rw [krising_iff] at rising
  induction m with
  | nil => cases h
  | cons p r ih =>
    rw [List.map_cons, List.pairwise_cons] at rising
    rcases List.mem_cons.mp h with e | inside
    · rw [← e, kfind, if_pos rfl]
    · have above := rising.1 k (List.mem_map_of_mem (f := (·.1)) inside)
      rw [kfind, if_neg (by omega)]
      exact ih rising.2 inside

/-- Where a key stands in a map whose keys rise, and what a new value there makes of the map. -/
theorem kset_of_mem {α : Type} {m : KMap α} (rising : krising m = true) {k : Nat} {v : α} (h : (k, v) ∈ m) :
    ∃ l r, m = l ++ (k, v) :: r ∧ ∀ w, kset m k w = l ++ (k, w) :: r := by
  rw [krising_iff] at rising
  induction m with
  | nil => cases h
  | cons p r ih =>
    rw [List.map_cons, List.pairwise_cons] at rising
    rcases List.mem_cons.mp h with e | inside
    · refine ⟨[], r, by rw [e]; rfl, fun w => ?_⟩
      rw [← e, kset, if_neg (Nat.lt_irrefl k), if_pos rfl]
      rfl
    · have above := rising.1 k (List.mem_map_of_mem (f := (·.1)) inside)
      obtain ⟨a, b, same, put⟩ := ih rising.2 inside
      refine ⟨p :: a, b, by rw [same]; rfl, fun w => ?_⟩
      rw [kset, if_neg (by omega), if_neg (by omega), put]
      rfl

/-! ### Holders -/

/-- Two holders have one number only where they are one. -/
theorem mem_holders {s : State} (rising : krising s.threads = true) {p c n : Nat} {x : Thread} :
    (n, x) ∈ holders s p c ↔ kfind s.threads n = some x ∧ poolOf n = p ∧ x.ctx = c ∧ x.vceil ≠ 0 := by
  simp only [holders, List.mem_filter, Bool.and_eq_true, beq_iff_eq, bne_iff_ne, and_assoc]
  exact and_congr_left fun _ => ⟨kfind_of_mem rising, kfind_mem⟩

theorem thr_of_kfind {s : State} {n : Nat} {x : Thread} (h : kfind s.threads n = some x) : thr s n = x := by
  rw [thr, kget, h]
  rfl

theorem thr_holder {s : State} (rising : krising s.threads = true) {p c : Nat} {y : Nat × Thread} (h : y ∈ holders s p c) :
    thr s y.1 = y.2 := thr_of_kfind ((mem_holders rising).mp h).1

/-- An entitlement set for a holder. -/
def entSet (s : State) (g e : Nat) : State := modThr s g (setEnt s.time e)

section
variable {s : State} (rising : krising s.threads = true) {p c g : Nat} {x : Thread} (holds : (g, x) ∈ holders s p c) (e : Nat)
include rising

theorem entSet_rising (g : Nat) : krising (entSet s g e).threads = true := krising_kset g _ rising

include holds

/-- What an entitlement set makes of the holders. -/
theorem holders_entSet : ∃ l r, holders s p c = l ++ (g, x) :: r ∧ holders (entSet s g e) p c = l ++ (g, setEnt s.time e x) :: r := by
  have keeps := (List.mem_filter.mp holds).2
  obtain ⟨l, r, same, put⟩ := kset_of_mem rising (List.mem_of_mem_filter holds)
  refine ⟨l.filter (fun q => poolOf q.1 == p && q.2.ctx == c && q.2.vceil != 0), r.filter (fun q => poolOf q.1 == p && q.2.ctx == c && q.2.vceil != 0), ?_, ?_⟩
  · unfold holders
    rw [same, List.filter_append, List.filter_cons, if_pos keeps]
  · change (kset s.threads g (setEnt s.time e (thr s g))).filter _ = _
    rw [put, List.filter_append, thr_holder rising holds]
    exact congrArg _ (List.filter_cons_of_pos keeps)

theorem entSum_entSet : entSum (entSet s g e) p c + x.ent = entSum s p c + e := by
  obtain ⟨l, r, before, after⟩ := holders_entSet rising holds e
  unfold entSum
  rw [before, after]
  simp only [List.map_append, List.map_cons, List.sum_append, List.sum_cons, setEnt]
  omega

theorem holders_length_entSet : (holders (entSet s g e) p c).length = (holders s p c).length := by
  obtain ⟨l, r, before, after⟩ := holders_entSet rising holds e
  rw [before, after]
  simp

/-- The other holders stay as they are, and it is one of the holders still. -/
theorem mem_holders_entSet {n : Nat} {y : Thread} :
    (n, y) ∈ holders (entSet s g e) p c ↔ (n = g ∧ y = setEnt s.time e x) ∨ (n ≠ g ∧ (n, y) ∈ holders s p c) := by
  have here := (mem_holders rising).mp holds
  rw [mem_holders (entSet_rising rising e g), mem_holders rising]
  change kfind (kset s.threads g (setEnt s.time e (thr s g))) n = some y ∧ _ ↔ _
  rw [thr_holder rising holds, kfind_kset]
  by_cases same : n = g
  · subst same
    simp only [if_pos, Option.some.injEq, true_and, ne_eq, not_true_eq_false, false_and, or_false]
    exact ⟨fun h => h.1.symm, fun h => ⟨h.symm, by rw [h]; exact here.2⟩⟩
  · simp [same]

theorem thr_entSet_self : thr (entSet s g e) g = setEnt s.time e x := by
  rw [entSet, thr_modThr_self, thr_holder rising holds]

end

theorem thr_entSet_ne (s : State) {g n : Nat} (e : Nat) (h : n ≠ g) : thr (entSet s g e) n = thr s n := thr_modThr_ne _ _ h

/-! ### Whom lanes are taken from, and whom they go back to -/

/-- A list of holders by rising number. -/
abbrev Rising (l : List (Nat × Thread)) : Prop := l.Pairwise (fun a b => a.1 < b.1)

theorem rising_filter {s : State} (rising : krising s.threads = true) (p c : Nat) (P : Nat × Thread → Bool) :
    Rising ((holders s p c).filter P) :=
  List.pairwise_map.mp ((krising_iff _).mp (krising_filter P (krising_filter _ rising)))

theorem richest_none {l : List (Nat × Thread)} (h : richest l = none) : l = [] := by
  cases l with
  | nil => rfl
  | cons x r =>
    simp only [richest] at h
    split at h
    · cases h
    · split at h <;> cases h

/-- Whoever lanes are taken from has the largest entitlement, and the highest number where several have it. -/
theorem richest_top {l : List (Nat × Thread)} (rising : Rising l) {q : Nat × Thread} (h : richest l = some q) :
    ∀ z ∈ l, z.2.ent ≤ q.2.ent ∧ (z.2.ent = q.2.ent → z.1 ≤ q.1) := by
  induction l generalizing q with
  | nil => cases h
  | cons x r ih =>
    obtain ⟨above, rising⟩ := List.pairwise_cons.mp rising
    simp only [richest] at h
    split at h
    · next none_ =>
      cases h
      simp [richest_none none_]
    · next y found =>
      have top := ih rising found
      split at h
      · next le =>
        cases h
        have := above _ (richest_mem found)
        exact fun z hz => (List.mem_cons.mp hz).elim (fun e => e ▸ ⟨le, fun _ => this.le⟩) (top z)
      · next gt =>
        cases h
        refine fun z hz => (List.mem_cons.mp hz).elim (fun e => e ▸ ⟨le_refl _, fun _ => le_refl _⟩) fun hz => ?_
        have := (top z hz).1
        exact ⟨by omega, fun e => by omega⟩

theorem oldestDebt_none {l : List (Nat × Thread)} (h : oldestDebt l = none) : l = [] := by
  cases l with
  | nil => rfl
  | cons x r =>
    simp only [oldestDebt] at h
    split at h
    · cases h
    · split at h <;> cases h

/-- Whoever lanes go back to has the earliest debt, and the lowest number where several have it. -/
theorem oldestDebt_first {l : List (Nat × Thread)} (rising : Rising l) {q : Nat × Thread} (h : oldestDebt l = some q) :
    ∀ z ∈ l, q.2.debt.getD 0 ≤ z.2.debt.getD 0 ∧ (z.2.debt.getD 0 = q.2.debt.getD 0 → q.1 ≤ z.1) := by
  induction l generalizing q with
  | nil => cases h
  | cons x r ih =>
    obtain ⟨above, rising⟩ := List.pairwise_cons.mp rising
    simp only [oldestDebt] at h
    split at h
    · next none_ =>
      cases h
      simp [oldestDebt_none none_]
    · next y found =>
      have first := ih rising found
      split at h
      · next le =>
        cases h
        refine fun z hz => (List.mem_cons.mp hz).elim (fun e => e ▸ ⟨le_refl _, fun _ => le_refl _⟩) fun hz => ?_
        have := (first z hz).1
        exact ⟨by omega, fun _ => (above z hz).le⟩
      · next gt =>
        cases h
        refine fun z hz => (List.mem_cons.mp hz).elim (fun e => e ▸ ⟨by omega, fun e => by omega⟩) (first z)

/-! ### Lanes given up -/

theorem takeFrom_succ (p c h n : Nat) (s : State) : takeFrom p c h (n + 1) s =
    match richest ((holders s p c).filter (fun g => g.1 != h && decide (1 < g.2.ent))) with
    | some (g, x) => if entSum s p c ≤ quotaOf s p c then s
      else takeFrom p c h n (entSet s g (max 1 (x.ent - (entSum s p c - quotaOf s p c))))
    | none => s := rfl

/-- Holder `y` of `s` has kept its entitlement in `u`, or has given lanes up, after those richer than it (R178). -/
def GaveUp (s u : State) (p c h : Nat) (y : Nat × Thread) : Prop :=
  thr u y.1 = y.2 ∨ ∃ e, thr u y.1 = setEnt s.time e y.2 ∧ e < y.2.ent ∧ 1 ≤ e ∧ (e = 1 ∨ entSum u p c = quotaOf s p c) ∧
    ∀ z ∈ holders s p c, z.1 ≠ h → y.2.ent < z.2.ent ∨ (y.2.ent = z.2.ent ∧ y.1 < z.1) → (thr u z.1).ent = 1

/-- Where other holders give lanes up: nothing else changes, and their keys go on rising. -/
theorem takeFrom_keeps (p c h n : Nat) {s : State} (rising : krising s.threads = true) :
    takeFrom p c h n s = { s with threads := (takeFrom p c h n s).threads } ∧ krising (takeFrom p c h n s).threads = true ∧
      ∀ j, (∀ y, (j, y) ∈ holders s p c → j = h) → kfind (takeFrom p c h n s).threads j = kfind s.threads j := by
  induction n generalizing s with
  | zero => exact ⟨rfl, rising, fun _ _ => rfl⟩
  | succ n ih =>
    rw [takeFrom_succ]
    split
    · next g x found =>
      split
      · exact ⟨rfl, rising, fun _ _ => rfl⟩
      · obtain ⟨holds, able⟩ := List.mem_filter.mp (richest_mem found)
        have other : g ≠ h := by simpa using (Bool.and_eq_true_iff.mp able).1
        generalize max 1 (x.ent - (entSum s p c - quotaOf s p c)) = e
        obtain ⟨rest, up, kept⟩ := ih (entSet_rising rising e g)
        refine ⟨rest.trans rfl, up, fun j apart => ?_⟩
        have ne : j ≠ g := fun same => other (same ▸ apart x (same ▸ holds))
        rw [kept j fun y hy => ?_]
        · exact kfind_kset_ne _ _ ne
        · rw [mem_holders_entSet rising holds] at hy
          exact hy.elim (fun hy => absurd hy.1 ne) fun hy => apart y hy.2
    · exact ⟨rfl, rising, fun _ _ => rfl⟩

theorem takeFrom_within {p c h n : Nat} {s : State} (fits : entSum s p c ≤ quotaOf s p c) : takeFrom p c h n s = s := by
  cases n with
  | zero => rfl
  | succ n =>
    rw [takeFrom_succ]
    split
    · exact if_pos fits
    · rfl

/-- A holder with one lane gives none up. -/
theorem takeFrom_one {p c h n : Nat} {s : State}
    (all : ∀ y ∈ holders s p c, y.1 ≠ h → GaveUp s (takeFrom p c h n s) p c h y) {y : Nat × Thread} (holds : y ∈ holders s p c)
    (other : y.1 ≠ h) (one : y.2.ent = 1) : thr (takeFrom p c h n s) y.1 = y.2 :=
  (all y holds other).resolve_right fun ⟨e, _, less, pos, _⟩ => by omega

/-- Each holder keeps its entitlement or gives lanes up in its turn (R178). -/
theorem takeFrom_gaveUp (p c h n : Nat) {s : State} (rising : krising s.threads = true) :
    ∀ y ∈ holders s p c, y.1 ≠ h → GaveUp s (takeFrom p c h n s) p c h y := by
  induction n generalizing s with
  | zero => exact fun y holds _ => .inl (thr_holder rising holds)
  | succ n ih =>
    rw [takeFrom_succ]
    split
    · next g x found =>
      split
      · exact fun y holds _ => .inl (thr_holder rising holds)
      · next beyond =>
        obtain ⟨holds, able⟩ := List.mem_filter.mp (richest_mem found)
        simp only [Bool.and_eq_true, bne_iff_ne, decide_eq_true_eq] at able
        obtain ⟨other, many⟩ := able
        have top := richest_top (rising_filter rising p c _) found
        have first (z : Nat × Thread) (hz : z ∈ holders s p c) (oz : z.1 ≠ h) :
            ¬(x.ent < z.2.ent ∨ (x.ent = z.2.ent ∧ g < z.1)) := by
          intro richer
          have := top z (List.mem_filter.mpr ⟨hz, by simp only [Bool.and_eq_true, bne_iff_ne, decide_eq_true_eq]; exact ⟨oz, by omega⟩⟩)
          dsimp only at this
          omega
        have is (y : Nat × Thread) (hy : y ∈ holders s p c) (same : y.1 = g) : y.2 = x :=
          (thr_holder rising hy).symm.trans (same ▸ thr_holder rising holds)
        have sum := entSum_entSet rising holds (max 1 (x.ent - (entSum s p c - quotaOf s p c)))
        have rising' := entSet_rising rising (max 1 (x.ent - (entSum s p c - quotaOf s p c))) g
        have holders' {n y} := mem_holders_entSet rising holds (max 1 (x.ent - (entSum s p c - quotaOf s p c))) (n := n) (y := y)
        have self := thr_entSet_self rising holds (max 1 (x.ent - (entSum s p c - quotaOf s p c)))
        generalize he : max 1 (x.ent - (entSum s p c - quotaOf s p c)) = e at sum rising' holders' self ⊢
        have g' : (g, setEnt s.time e x) ∈ holders (entSet s g e) p c := holders'.mpr (.inl ⟨rfl, rfl⟩)
        by_cases enough : entSum (entSet s g e) p c ≤ quotaOf s p c
        · rw [takeFrom_within enough]
          intro y hy oy
          by_cases same : y.1 = g
          · rw [GaveUp, same, is y hy same]
            exact .inr ⟨e, self, by omega, by omega, .inr (by omega), fun z hz oz richer => absurd richer (first z hz oz)⟩
          · exact .inl ((thr_entSet_ne s e same).trans (thr_holder rising hy))
        · have one : e = 1 := by omega
          have all := ih rising'
          have self' := takeFrom_one all g' other one
          intro y hy oy
          by_cases same : y.1 = g
          · rw [GaveUp, same, is y hy same]
            exact .inr ⟨e, self', by omega, by omega, .inl one, fun z hz oz richer => absurd richer (first z hz oz)⟩
          · refine (all y (holders'.mpr (.inr ⟨same, hy⟩)) oy).imp_right ?_
            rintro ⟨e', changed, less, pos, ends, rich⟩
            refine ⟨e', changed, less, pos, ends, fun z hz oz richer => ?_⟩
            by_cases z' : z.1 = g
            · rw [z', self']
              exact one
            · exact rich z (holders'.mpr (.inr ⟨z', hz⟩)) oz richer
    · exact fun y holds _ => .inl (thr_holder rising holds)

/-- The holders other than one that still have lanes to give. -/
def givers (s : State) (p c h : Nat) : List (Nat × Thread) := (holders s p c).filter (fun g => g.1 != h && decide (1 < g.2.ent))

/-- With as many turns as there are givers, the quota fits or every giver is down to one lane. -/
theorem takeFrom_done (p c h n : Nat) {s : State} (rising : krising s.threads = true) (turns : (givers s p c h).length ≤ n) :
    entSum (takeFrom p c h n s) p c ≤ quotaOf s p c ∨ givers (takeFrom p c h n s) p c h = [] := by
  induction n generalizing s with
  | zero => exact .inr (List.length_eq_zero_iff.mp (Nat.le_zero.mp turns))
  | succ n ih =>
    rw [takeFrom_succ]
    split
    · next g x found =>
      split
      · next fits => exact .inl fits
      · next beyond =>
        obtain ⟨holds, able⟩ := List.mem_filter.mp (richest_mem found)
        have sum := entSum_entSet rising holds (max 1 (x.ent - (entSum s p c - quotaOf s p c)))
        obtain ⟨l, r, before, after⟩ := holders_entSet rising holds (max 1 (x.ent - (entSum s p c - quotaOf s p c)))
        have rising' := entSet_rising rising (max 1 (x.ent - (entSum s p c - quotaOf s p c))) g
        generalize he : max 1 (x.ent - (entSum s p c - quotaOf s p c)) = e at sum rising' after ⊢
        by_cases enough : entSum (entSet s g e) p c ≤ quotaOf s p c
        · rw [takeFrom_within enough]
          exact .inl enough
        · have one : e = 1 := by omega
          refine ih rising' ?_
          have spent : (g != h && decide (1 < (setEnt s.time e x).ent)) = false := by simp [setEnt, one]
          have fewer : (givers (entSet s g e) p c h).length + 1 = (givers s p c h).length := by
            unfold givers
            rw [before, after, List.filter_append, List.filter_append, List.filter_cons, List.filter_cons, if_pos able, if_neg (by simp [spent])]
            simp only [List.length_append, List.length_cons]
            omega
          omega
    · next none_ => exact .inr (richest_none none_)

/-! ### Lanes that go back -/

theorem giveBack_succ (p c n : Nat) (s : State) : giveBack p c (n + 1) s =
    match oldestDebt ((holders s p c).filter (fun g => decide (g.2.ent < g.2.rq))) with
    | some (g, x) => if quotaOf s p c ≤ entSum s p c then s
      else giveBack p c n (entSet s g (min x.rq (x.ent + (quotaOf s p c - entSum s p c))))
    | none => s := rfl

/-- Holder `y` of `s` has kept its entitlement in `u`, or has regained lanes, after those whose debts are older (R178). -/
def Regained (s u : State) (p c : Nat) (y : Nat × Thread) : Prop :=
  thr u y.1 = y.2 ∨ ∃ e, thr u y.1 = setEnt s.time e y.2 ∧ y.2.ent < e ∧ (e = y.2.rq ∨ entSum u p c = quotaOf s p c) ∧
    ∀ z ∈ holders s p c, z.2.ent < z.2.rq → z.2.debt.getD 0 < y.2.debt.getD 0 ∨ (z.2.debt.getD 0 = y.2.debt.getD 0 ∧ z.1 < y.1) →
      (thr u z.1).ent = z.2.rq

theorem giveBack_keeps (p c n : Nat) {s : State} (rising : krising s.threads = true) :
    giveBack p c n s = { s with threads := (giveBack p c n s).threads } ∧ krising (giveBack p c n s).threads = true ∧
      ∀ j, (∀ y, (j, y) ∉ holders s p c) → kfind (giveBack p c n s).threads j = kfind s.threads j := by
  induction n generalizing s with
  | zero => exact ⟨rfl, rising, fun _ _ => rfl⟩
  | succ n ih =>
    rw [giveBack_succ]
    split
    · next g x found =>
      split
      · exact ⟨rfl, rising, fun _ _ => rfl⟩
      · have holds := List.mem_of_mem_filter (oldestDebt_mem found)
        generalize min x.rq (x.ent + (quotaOf s p c - entSum s p c)) = e
        obtain ⟨rest, up, kept⟩ := ih (entSet_rising rising e g)
        refine ⟨rest.trans rfl, up, fun j apart => ?_⟩
        have ne : j ≠ g := fun same => apart x (same ▸ holds)
        rw [kept j fun y hy => ?_]
        · exact kfind_kset_ne _ _ ne
        · rw [mem_holders_entSet rising holds] at hy
          exact hy.elim (fun hy => ne hy.1) fun hy => apart y hy.2
    · exact ⟨rfl, rising, fun _ _ => rfl⟩

theorem giveBack_within {p c n : Nat} {s : State} (full : quotaOf s p c ≤ entSum s p c) : giveBack p c n s = s := by
  cases n with
  | zero => rfl
  | succ n =>
    rw [giveBack_succ]
    split
    · exact if_pos full
    · rfl

/-- A holder whose entitlement is its request regains nothing. -/
theorem giveBack_met {p c n : Nat} {s : State} (rising : krising s.threads = true) {h : Nat} {w : Thread} (has : (h, w) ∈ holders s p c)
    (met : w.ent = w.rq) : thr (giveBack p c n s) h = w := by
  induction n generalizing s with
  | zero => exact thr_holder rising has
  | succ n ih =>
    rw [giveBack_succ]
    split
    · next g x found =>
      split
      · exact thr_holder rising has
      · obtain ⟨holds, below⟩ := List.mem_filter.mp (oldestDebt_mem found)
        simp only [decide_eq_true_eq] at below
        have ne : h ≠ g := fun same => by
          have same : w = x := (thr_holder rising has).symm.trans (same ▸ thr_holder rising holds)
          rw [same] at met
          omega
        exact ih (entSet_rising rising _ g) ((mem_holders_entSet rising holds _).mpr (.inr ⟨ne, has⟩))
    · exact thr_holder rising has

/-- Each holder keeps its entitlement or regains lanes in its turn (R178). -/
theorem giveBack_regained (p c n : Nat) {s : State} (rising : krising s.threads = true) :
    ∀ y ∈ holders s p c, Regained s (giveBack p c n s) p c y := by
  induction n generalizing s with
  | zero => exact fun y holds => .inl (thr_holder rising holds)
  | succ n ih =>
    rw [giveBack_succ]
    split
    · next g x found =>
      split
      · exact fun y holds => .inl (thr_holder rising holds)
      · next beyond =>
        obtain ⟨holds, below⟩ := List.mem_filter.mp (oldestDebt_mem found)
        simp only [decide_eq_true_eq] at below
        have top := oldestDebt_first (rising_filter rising p c _) found
        have first (z : Nat × Thread) (hz : z ∈ holders s p c) (less : z.2.ent < z.2.rq) :
            ¬(z.2.debt.getD 0 < x.debt.getD 0 ∨ (z.2.debt.getD 0 = x.debt.getD 0 ∧ z.1 < g)) := by
          intro older
          have := top z (List.mem_filter.mpr ⟨hz, by simpa using less⟩)
          dsimp only at this
          omega
        have is (y : Nat × Thread) (hy : y ∈ holders s p c) (same : y.1 = g) : y.2 = x :=
          (thr_holder rising hy).symm.trans (same ▸ thr_holder rising holds)
        have sum := entSum_entSet rising holds (min x.rq (x.ent + (quotaOf s p c - entSum s p c)))
        have rising' := entSet_rising rising (min x.rq (x.ent + (quotaOf s p c - entSum s p c))) g
        have holders' {n y} := mem_holders_entSet rising holds (min x.rq (x.ent + (quotaOf s p c - entSum s p c))) (n := n) (y := y)
        have self := thr_entSet_self rising holds (min x.rq (x.ent + (quotaOf s p c - entSum s p c)))
        generalize he : min x.rq (x.ent + (quotaOf s p c - entSum s p c)) = e at sum rising' holders' self ⊢
        have g' : (g, setEnt s.time e x) ∈ holders (entSet s g e) p c := holders'.mpr (.inl ⟨rfl, rfl⟩)
        by_cases enough : quotaOf s p c ≤ entSum (entSet s g e) p c
        · rw [giveBack_within enough]
          intro y hy
          by_cases same : y.1 = g
          · rw [Regained, same, is y hy same]
            exact .inr ⟨e, self, by omega, by omega, fun z hz less older => absurd older (first z hz less)⟩
          · exact .inl ((thr_entSet_ne s e same).trans (thr_holder rising hy))
        · have met : e = x.rq := by omega
          have all := ih rising'
          have self' := giveBack_met (n := n) rising' g' met
          intro y hy
          by_cases same : y.1 = g
          · rw [Regained, same, is y hy same]
            exact .inr ⟨e, self', by omega, .inl met, fun z hz less older => absurd older (first z hz less)⟩
          · refine (all y (holders'.mpr (.inr ⟨same, hy⟩))).imp_right ?_
            rintro ⟨e', changed, more, ends, old⟩
            refine ⟨e', changed, more, ends, fun z hz less older => ?_⟩
            by_cases z' : z.1 = g
            · rw [z', self', is z hz z']
              exact met
            · exact old z (holders'.mpr (.inr ⟨z', hz⟩)) less older
    · exact fun y holds => .inl (thr_holder rising holds)

/-- The holders below their requests. -/
def owedHolders (s : State) (p c : Nat) : List (Nat × Thread) := (holders s p c).filter (fun g => decide (g.2.ent < g.2.rq))

/-- With as many turns as there are holders below their requests, the quota is used up or every holder has its request. -/
theorem giveBack_done (p c n : Nat) {s : State} (rising : krising s.threads = true) (turns : (owedHolders s p c).length ≤ n) :
    quotaOf s p c ≤ entSum (giveBack p c n s) p c ∨ owedHolders (giveBack p c n s) p c = [] := by
  induction n generalizing s with
  | zero => exact .inr (List.length_eq_zero_iff.mp (Nat.le_zero.mp turns))
  | succ n ih =>
    rw [giveBack_succ]
    split
    · next g x found =>
      split
      · next full => exact .inl full
      · next beyond =>
        obtain ⟨holds, below⟩ := List.mem_filter.mp (oldestDebt_mem found)
        have sum := entSum_entSet rising holds (min x.rq (x.ent + (quotaOf s p c - entSum s p c)))
        obtain ⟨l, r, before, after⟩ := holders_entSet rising holds (min x.rq (x.ent + (quotaOf s p c - entSum s p c)))
        have rising' := entSet_rising rising (min x.rq (x.ent + (quotaOf s p c - entSum s p c))) g
        generalize he : min x.rq (x.ent + (quotaOf s p c - entSum s p c)) = e at sum rising' after ⊢
        by_cases enough : quotaOf s p c ≤ entSum (entSet s g e) p c
        · rw [giveBack_within enough]
          exact .inl enough
        · have less : x.ent < x.rq := by simpa using below
          have met : e = x.rq := by omega
          refine ih rising' ?_
          have fewer : (owedHolders (entSet s g e) p c).length + 1 = (owedHolders s p c).length := by
            unfold owedHolders
            rw [before, after, List.filter_append, List.filter_append, List.filter_cons, List.filter_cons, if_pos below,
              if_neg (by simp [setEnt, met])]
            simp only [List.length_append, List.length_cons]
            omega
          omega
    · next none_ => exact .inr (oldestDebt_none none_)

end Sys2Proof.Machine
end

section
/-! RESULT. Vector state asked for and given back, and the entitlements that follow (O33). -/

namespace Sys2Proof.Machine

/-! ### Entitlements -/

/-- What every recomputation leaves of a state: entitlements and debt times change, and nothing else. -/
def EntSame (s u : State) : Prop := u = { s with threads := u.threads } ∧ ∀ n,
  (kfind u.threads n).map (fun y => { y with ent := 0, debt := none }) = (kfind s.threads n).map (fun y => { y with ent := 0, debt := none })

/-- Whoever was a holder is one still, with its standing request. -/
theorem EntSame.holder {s u : State} (h : EntSame s u) (was : krising s.threads = true) (rising : krising u.threads = true) {p c : Nat}
    {y : Nat × Thread} (holds : y ∈ holders s p c) : (y.1, thr u y.1) ∈ holders u p c ∧ (thr u y.1).rq = y.2.rq := by
  obtain ⟨found, pool, ctx, held⟩ := (mem_holders was).mp holds
  have same := h.2 y.1
  rw [found] at same
  obtain ⟨z, hz, e⟩ := Option.map_eq_some_iff.mp same
  have is := thr_of_kfind hz
  rw [mem_holders rising, is]
  have fields := congrArg (fun w => (w.ctx, w.vceil, w.rq)) e
  simp only [Prod.mk.injEq] at fields
  obtain ⟨c', v', r'⟩ := fields
  exact ⟨⟨hz, pool, c'.trans ctx, fun none_ => held (v'.symm.trans none_)⟩, r'⟩

section
variable {s : State} {t : Nat} {x : Thread} (rising : krising s.threads = true) (here : kfind s.threads t = some x) (joined : x.vceil ≠ 0)

/-- The entitlement that a holder takes as it joins or sets its request (R178). -/
def joinShare (s : State) (t : Nat) : Nat :=
  max 1 (min (thr s t).rq (quotaOf s (poolOf t) (thr s t).ctx - ((holders s (poolOf t) (thr s t).ctx).length - 1)))

theorem joinEnt_eq (s : State) (t : Nat) : joinEnt s t = takeFrom (poolOf t) (thr s t).ctx t (holders s (poolOf t) (thr s t).ctx).length
    (entSet s t (joinShare s t)) := rfl

include rising

theorem leaveEnt_spec (p c : Nat) :
    EntSame s (leaveEnt s p c) ∧ (∀ n, (∀ y, (n, y) ∉ holders s p c) → kfind (leaveEnt s p c).threads n = kfind s.threads n) ∧
      (quotaOf s p c ≤ entSum (leaveEnt s p c) p c ∨ ∀ y ∈ holders s p c, y.2.rq ≤ (thr (leaveEnt s p c) y.1).ent) ∧
      ∀ y ∈ holders s p c, Regained s (leaveEnt s p c) p c y := by
  obtain ⟨rest, up, kept⟩ := giveBack_keeps p c (holders s p c).length rising
  have same : EntSame s (leaveEnt s p c) := ⟨rest, (leaveEnt_entOnly s p c).threads⟩
  refine ⟨same, kept, (giveBack_done p c _ rising (List.length_filter_le _ _)).imp_right fun all y hy => ?_, giveBack_regained p c _ rising⟩
  obtain ⟨holds, rq⟩ := same.holder rising up hy
  have := List.filter_eq_nil_iff.mp all _ holds
  rw [← rq]
  exact Nat.le_of_not_lt (by simpa using this)

include here joined

theorem holds_of_kfind : (t, x) ∈ holders s (poolOf t) x.ctx := (mem_holders rising).mpr ⟨here, rfl, rfl, joined⟩

/-- The other holders, before the joining one's entitlement is set and after. -/
theorem others_entSet (e : Nat) {y : Nat × Thread} (ne : y.1 ≠ t) :
    y ∈ holders (entSet s t e) (poolOf t) x.ctx ↔ y ∈ holders s (poolOf t) x.ctx := by
  have := mem_holders_entSet rising (holds_of_kfind rising here joined) e (n := y.1) (y := y.2)
  simpa [ne] using this

theorem joinEnt_spec :
    EntSame s (joinEnt s t) ∧
      (∀ n, (∀ y, (n, y) ∉ holders s (poolOf t) x.ctx) → kfind (joinEnt s t).threads n = kfind s.threads n) ∧
      thr (joinEnt s t) t = setEnt s.time (joinShare s t) x ∧
      (entSum (joinEnt s t) (poolOf t) x.ctx ≤ quotaOf s (poolOf t) x.ctx ∨
        ∀ y ∈ holders s (poolOf t) x.ctx, y.1 ≠ t → (thr (joinEnt s t) y.1).ent ≤ 1) ∧
      ∀ y ∈ holders s (poolOf t) x.ctx, y.1 ≠ t → GaveUp s (joinEnt s t) (poolOf t) x.ctx t y := by
  have is := thr_of_kfind here
  have holds := holds_of_kfind rising here joined
  have rising' := entSet_rising rising (joinShare s t) t
  have others {y} := others_entSet rising here joined (joinShare s t) (y := y)
  have only := joinEnt_entOnly (s := s) (t := t) (by rw [here]; rfl)
  rw [joinEnt_eq] at only ⊢
  rw [is] at only ⊢
  have turns : (givers (entSet s t (joinShare s t)) (poolOf t) x.ctx t).length ≤ (holders s (poolOf t) x.ctx).length :=
    (List.length_filter_le _ _).trans (holders_length_entSet rising holds _).le
  obtain ⟨rest, up, kept⟩ := takeFrom_keeps (poolOf t) x.ctx t (holders s (poolOf t) x.ctx).length rising'
  have same : EntSame s (takeFrom (poolOf t) x.ctx t (holders s (poolOf t) x.ctx).length (entSet s t (joinShare s t))) :=
    ⟨rest.trans rfl, only.threads⟩
  refine ⟨same, fun n apart => ?_, ?_, (takeFrom_done _ _ _ _ rising' turns).imp_right fun all y hy ne => ?_, fun y hy ne => ?_⟩
  · have ne : n ≠ t := fun same => apart x (same ▸ holds)
    rw [kept n fun y hy => absurd ((others ne).mp hy) (apart y)]
    exact kfind_kset_ne _ _ ne
  · rw [thr, kget, kept t fun _ _ => rfl]
    exact thr_entSet_self rising holds _
  · have := List.filter_eq_nil_iff.mp all _ (same.holder rising up hy).1
    exact Nat.le_of_not_lt (by simpa [ne] using this)
  · refine (takeFrom_gaveUp _ _ _ _ rising' y ((others ne).mpr hy) ne).imp_right ?_
    rintro ⟨e, changed, less, pos, ends, rich⟩
    exact ⟨e, changed, less, pos, ends, fun z hz nz => rich z ((others nz).mpr hz) nz⟩

omit rising joined in
theorem setRequest_eq (rq : Nat) : setRequest s t rq = if rq < x.rq then leaveEnt (joinEnt (setThr s t { x with rq := rq }) t) (poolOf t) x.ctx
    else joinEnt (setThr s t { x with rq := rq }) t := by
  rw [setRequest, thr_of_kfind here]

end

/-- A holder's new entitlement sets its debt time (R178). -/
theorem debt_of_setEnt {u : State} {g time e : Nat} {y : Thread} (changed : thr u g = setEnt time e y) :
    (thr u g).debt = if (thr u g).ent < y.rq then some (y.debt.getD time) else none := by
  rw [changed]
  rfl

/-! ### The words -/

theorem vrelThen_settled {s : State} (quiet : settled (my s) = true) (fin : State → State) : vrelThen s fin = fin (releaseVec s (me s)) := by
  rw [vrelThen, quiet]
  rfl

theorem vrelThen_busy {s : State} (busy : settled (my s) = false) (fin : State → State) : vrelThen s fin = waitHere s := by
  rw [vrelThen, busy]
  rfl

/-- The ceiling that a request gets of what is left of the spill region. -/
def vreqCeiling (s : State) (f : VFields) : Nat := ceilingFor (spillRoom s (myPool s) (myCtx s)) (reg s (extReg f)).toNat

section
variable {s : State} {f : VFields} (goes : VecGoes s false [f.s, extReg f] [])
include goes

theorem vreq_none (none_ : (reg s (extReg f)).toNat = 0) : exec (.vreq f) s = .next (vrelThen s (fun s => advance (setReg s f.s 0))) := by
  change execVreq f s = _
  rw [execVreq, issueV_goes goes]
  exact congrArg _ (if_pos none_)

theorem vreq_holder (some_ : (reg s (extReg f)).toNat ≠ 0) (holder : (my s).vceil ≠ 0) :
    exec (.vreq f) s = .next (advance (setReg s f.s 0)) := by
  change execVreq f s = _
  rw [execVreq, issueV_goes goes]
  exact congrArg _ ((if_neg some_).trans (if_pos holder))

theorem vreq_waits (some_ : (reg s (extReg f)).toNat ≠ 0) (free : (my s).vceil = 0) (dead : unitLive s (16 + myPool s) = false) :
    exec (.vreq f) s = .next (waitHere s) := by
  change execVreq f s = _
  rw [execVreq, issueV_goes goes]
  refine congrArg _ ((if_neg some_).trans ((if_neg (not_not.mpr free)).trans (if_pos ?_)))
  rw [poolLive, dead]
  rfl

theorem vreq_asks (some_ : (reg s (extReg f)).toNat ≠ 0) (free : (my s).vceil = 0) (live : unitLive s (16 + myPool s) = true) :
    exec (.vreq f) s = .next (advance (setReg (if vreqCeiling s f = 0 then s else joinEnt (modMy s (fun x => { x with
      vceil := vreqCeiling s f, gvl := 0, vl := 0, rq := vreqCeiling s f, slots := List.replicate (vreqCeiling s f) Slice.zero
      lanes := [], lost := [], debt := none })) (me s)) f.s (BitVec.ofNat 64 (vreqCeiling s f)))) := by
  change execVreq f s = _
  rw [execVreq, issueV_goes goes]
  refine congrArg _ ((if_neg some_).trans ((if_neg (not_not.mpr free)).trans (if_neg ?_)))
  rw [poolLive, live]
  exact Bool.false_ne_true

theorem qset_goes : exec (.qset f) s = .next (advance (modMy s (fun x => { x with
    streams := x.streams.set! f.vd.toNat
      { offset := reg s f.s, stride := (reg s (extReg f)).extractLsb' 0 32, seg := extSeg f
        esize := if cbits f.fmt.toNat = 8 then 0 else if cbits f.fmt.toNat = 16 then 1 else 2 } }))) := by
  change execQset f s = _
  rw [execQset, issueV_goes goes]
  rcases cbits_cases f.fmt.toNat with h | h | h | h <;> rw [h] <;> rfl

end

section
variable {s : State} (goes : VecGoes s false [] [])
include goes

theorem vrel_none (none_ : (my s).vceil = 0) : exec .vrel s = .next (advance s) := by
  change execVrel s = _
  rw [execVrel, issueV_goes goes]
  exact congrArg _ (if_pos none_)

theorem vrel_holder (holder : (my s).vceil ≠ 0) : exec .vrel s = .next (vrelThen s advance) := by
  change execVrel s = _
  rw [execVrel, issueV_goes goes]
  exact congrArg _ (if_neg holder)

end

/-! ### The ceiling -/

theorem ceilingFor_fits {room r : Nat} (fits : 144 * min r 1024 ≤ room) : ceilingFor room r = min r 1024 := if_pos fits

theorem ceilingFor_lowered {room r : Nat} (beyond : room < 144 * min r 1024) :
    ceilingFor room r = min (room / 144) (min r 1024 - 1) / 16 * 16 := if_neg (by omega)

/-- Settles O33: lanes are given up and regained by an induction over the turns, and the words by their branches. -/
theorem vectorState : Obligations.VectorState := by
  unfold Obligations.VectorState
  refine ⟨fun s t rq x rising here joined => ⟨?_, ?_, setRequest_eq here rq⟩, fun s f => ⟨fun goes => ⟨?_, ?_, ?_, ?_, ?_, ?_⟩, fun goes => ⟨?_, ?_, ?_⟩,
    fun goes => ?_, fun goes => ⟨wrote_of ?_, ?_⟩⟩, fun room r => ⟨fun fits => ceilingFor_fits fits, fun beyond => ?_⟩⟩
  · obtain ⟨same, apart, own, ends, each⟩ := joinEnt_spec rising here joined
    refine ⟨same, apart, ?_, debt_of_setEnt own, ends, fun y hy ne => ?_⟩
    · rw [own, joinShare, thr_of_kfind here]
      rfl
    · refine (each y hy ne).imp (fun kept => by rw [kept]; exact ⟨rfl, rfl⟩) ?_
      rintro ⟨e, changed, less, pos, ends, rich⟩
      have ent : (thr (joinEnt s t) y.1).ent = e := by rw [changed]; rfl
      exact ⟨by omega, debt_of_setEnt changed, by omega, by omega, rich⟩
  · obtain ⟨same, apart, ends, each⟩ := leaveEnt_spec rising (poolOf t) x.ctx
    refine ⟨same, apart, ends, fun y hy => ?_⟩
    refine (each y hy).imp (fun kept => by rw [kept]; exact ⟨rfl, rfl⟩) ?_
    rintro ⟨e, changed, more, ends, old⟩
    have ent : (thr (leaveEnt s (poolOf t) x.ctx) y.1).ent = e := by rw [changed]; rfl
    exact ⟨by omega, debt_of_setEnt changed, by omega, old⟩
  · exact fun none_ quiet => (vreq_none goes none_).trans (congrArg _ (vrelThen_settled quiet _))
  · exact fun none_ busy => (vreq_none goes none_).trans (congrArg _ (vrelThen_busy busy _))
  · intro some_ refused
    by_cases free : (my s).vceil = 0
    · obtain ⟨live, zero⟩ := refused.resolve_left (not_not.mpr free)
      have zero : vreqCeiling s f = 0 := zero
      refine wrote_of ((vreq_asks goes some_ free live).trans ?_)
      rw [if_pos zero, zero]
      rfl
    · exact wrote_of (vreq_holder goes some_ free)
  · exact fun some_ free dead => vreq_waits goes some_ free dead
  · exact fun some_ free live (room : vreqCeiling s f ≠ 0) => (vreq_asks goes some_ free live).trans (by rw [if_neg room]; rfl)
  · exact fun _ => ⟨_, qset_goes goes, advance_modMy_changed s _ fun _ => ⟨rfl, rfl⟩⟩
  · exact fun none_ => ⟨_, vrel_none goes none_, advance_nothing s⟩
  · exact fun holder quiet => (vrel_holder goes holder).trans (congrArg _ (vrelThen_settled quiet _))
  · exact fun holder busy => (vrel_holder goes holder).trans (congrArg _ (vrelThen_busy busy _))
  · refine ⟨advance (modMy s _), ?_, advance_modMy_changed s _ fun _ => ⟨rfl, rfl⟩⟩
    change execVseed s = _
    rw [execVseed, issueV_goes goes]
  · change execCarryr f s = _
    rw [execCarryr, issueV_goes goes]
  · refine ⟨advance (modMy s _), ?_, advance_modMy_changed s _ fun _ => ⟨rfl, rfl⟩⟩
    change execCarryw f s = _
    rw [execCarryw, issueV_goes goes]
  · rw [ceilingFor_lowered beyond]
    refine ⟨by omega, by omega, by omega, fun j multiple below fits => ?_⟩
    omega

end Sys2Proof.Machine
end

section
/-! RESULT. Grant points and the grant each makes (O34). -/

namespace Sys2Proof.Machine

/-! ### Lanes that may be taken -/

theorem pickLanes_eq (s : State) (t : Nat) (l : List Nat) (n : Nat) : pickLanes s t l n = (l.filter (laneFree s t)).take n := by
  induction l generalizing n with
  | nil => cases n <;> rfl
  | cons k r ih =>
    cases n with
    | zero => rfl
    | succ n =>
      rw [pickLanes, List.filter_cons]
      split
      · rw [ih, List.take_succ_cons]
      · exact ih (n + 1)

/-- A Kennel's order has every lane of the pool once (R370). -/
theorem laneOrder_perm (s : State) : (laneOrder s).Perm (List.range 1024) := by
  rw [List.perm_ext_iff_of_nodup _ List.nodup_range]
  · intro l
    simp only [laneOrder, List.mem_append, List.mem_dedup, List.mem_filter, List.mem_reverse, List.mem_range, Bool.not_eq_true',
      List.contains_eq_mem, decide_eq_true_eq, decide_eq_false_iff_not]
    tauto
  · refine List.nodup_append.mpr ⟨List.nodup_dedup _, (List.nodup_reverse.mpr List.nodup_range).filter _, fun a ha b hb same => ?_⟩
    subst same
    simp only [List.mem_dedup, List.mem_filter, Bool.not_eq_true', List.contains_eq_mem, decide_eq_false_iff_not] at ha hb
    exact hb.2 ha.1

/-- The lanes of its pool that may be given to a thread. -/
def freeOf (s : State) (t : Nat) : List Nat := (List.range 1024).filter (laneFree s t)

theorem freeLanes_spec (s : State) (t n : Nat) :
    (freeLanes s t n).length = min n (freeOf s t).length ∧ (freeLanes s t n).Nodup ∧ ∀ k ∈ freeLanes s t n, k ∈ freeOf s t := by
  have order := (laneOrder_perm s).filter (laneFree s t)
  rw [freeLanes, pickLanes_eq, List.length_take, order.length_eq]
  exact ⟨rfl, (order.nodup_iff.mpr (List.nodup_range.filter _)).sublist (List.take_sublist ..),
    fun k hk => order.mem_iff.mp (List.mem_of_mem_take hk)⟩

/-! ### Slices that are owed lanes -/

/-- Slices placed: where some threads' slots sit, and what is still owed, has changed, and engine steps may be owed. -/
structure SlicesOnly (s u : State) : Prop where
  rest : u = { s with threads := u.threads, owed := u.owed }
  threads : ∀ j, kfind u.threads j = (kfind s.threads j).map (fun y =>
    { y with lanes := (thr u j).lanes, lost := (thr u j).lost, placing := (thr u j).placing })

theorem SlicesOnly.refl (s : State) : SlicesOnly s s := ⟨rfl, fun j => by
  cases h : kfind s.threads j with
  | none => rfl
  | some y => rw [thr_of_kfind h]; rfl⟩

theorem SlicesOnly.trans {s u v : State} (h : SlicesOnly s u) (k : SlicesOnly u v) : SlicesOnly s v :=
  ⟨by rw [k.rest, h.rest], fun j => by rw [k.threads j, h.threads j, Option.map_map]; rfl⟩

theorem SlicesOnly.owe {s u : State} (h : SlicesOnly s u) (l : List (Instr × Msg)) : SlicesOnly s (Machine.owe u l) :=
  ⟨by rw [h.rest]; rfl, h.threads⟩

/-- Where a thread's slots sit is set, and what it is still owed. -/
theorem slicesOnly_setThr {s : State} {t : Nat} (here : (kfind s.threads t).isSome = true) (lanes lost : List Nat) (placing : Bool) :
    SlicesOnly s (setThr s t { thr s t with lanes := lanes, lost := lost, placing := placing }) := by
  obtain ⟨x, hx⟩ := Option.isSome_iff_exists.mp here
  refine ⟨rfl, fun j => ?_⟩
  rw [setThr_threads, kfind_kset, thr_setThr]
  by_cases same : j = t
  · subst same
    rw [if_pos rfl, if_pos rfl, hx, thr_of_kfind hx]
    rfl
  · rw [if_neg same, if_neg same]
    exact (SlicesOnly.refl s).threads j

theorem placeOwed_slices {s : State} {t : Nat} (here : (kfind s.threads t).isSome = true) : SlicesOnly s (placeOwed s t) := by
  unfold placeOwed
  dsimp only
  split
  · exact .refl s
  · split
    · split
      · next b _ => exact (slicesOnly_setThr here b [] false).owe _
      · exact .refl s
    · exact slicesOnly_setThr here _ _ _

theorem SlicesOnly.here {s u : State} (h : SlicesOnly s u) {j : Nat} (here : (kfind s.threads j).isSome = true) :
    (kfind u.threads j).isSome = true := by rw [h.threads, Option.isSome_map]; exact here

theorem foldl_placeOwed_slices (l : List (Nat × Thread)) {s u : State} (h : SlicesOnly s u) (here : ∀ q ∈ l, (kfind s.threads q.1).isSome = true) :
    SlicesOnly s (l.foldl (fun s q => placeOwed s q.1) u) := by
  induction l generalizing u with
  | nil => exact h
  | cons q r ih =>
    exact ih (h.trans (placeOwed_slices (h.here (here q List.mem_cons_self)))) fun p hp => here p (List.mem_cons_of_mem _ hp)

theorem settlePool_slices (s : State) (p : Nat) : SlicesOnly s (settlePool s p) :=
  foldl_placeOwed_slices _ (.refl s) fun _ hq => kfind_isSome_of_mem (List.mem_of_mem_filter hq)

theorem settlePool_me (s : State) (p : Nat) : me (settlePool s p) = me s := by
  rw [(settlePool_slices s p).rest]; rfl

/-! ### The grant refitted -/

/-- A grant changed, as a grant point leaves its thread's state: its size and lanes, a trace entry, and engine steps owed. -/
structure Regranted (u : State) (t new : Nat) (lanes : List Nat) (v : State) : Prop where
  rest : v = { u with threads := v.threads, cores := v.cores, owed := v.owed }
  cores : ∀ k, core v k = { core u k with trace := (core v k).trace }
  others : ∀ j, j ≠ t → kfind v.threads j = kfind u.threads j
  own : thr v t = { thr u t with gvl := new, lanes := lanes }

theorem pushTrace_cores (s : State) (c : Nat) (e : TraceEntry) (k : Nat) :
    core (pushTrace s c e) k = { core s k with trace := (core (pushTrace s c e) k).trace } := by
  rw [pushTrace, core_modCore]
  by_cases same : k = c
  · rw [if_pos same, same]
  · rw [if_neg same]

theorem traceGrant_regranted (before u : State) (t new : Nat) (lanes : List Nat) :
    Regranted u t new lanes (traceGrant before (setThr u t { thr u t with gvl := new, lanes := lanes })) := by
  have others (j : Nat) (ne : j ≠ t) : kfind (setThr u t { thr u t with gvl := new, lanes := lanes }).threads j = kfind u.threads j :=
    kfind_kset_ne _ _ ne
  rw [traceGrant]
  split
  · exact ⟨rfl, fun _ => rfl, others, thr_setThr_self ..⟩
  · exact ⟨rfl, fun k => pushTrace_cores _ _ _ k, others, thr_setThr_self ..⟩

theorem Regranted.owe {u v : State} {t new : Nat} {lanes : List Nat} (h : Regranted u t new lanes v) (l : List (Instr × Msg)) :
    Regranted u t new lanes (Machine.owe v l) := ⟨by rw [h.rest]; rfl, h.cores, h.others, h.own⟩

theorem Regranted.refl (u : State) (t : Nat) : Regranted u t (thr u t).gvl (thr u t).lanes u := ⟨rfl, fun _ => rfl, fun _ _ => rfl, rfl⟩

/-- What a thread's grant may come to: the lesser of its entitlement and its ceiling. -/
def grantTarget (x : Thread) : Nat := min x.ent x.vceil

/-- How far the quota and the free lanes let a thread's grant grow. -/
def grantRoom (u : State) (t : Nat) : Nat :=
  min (quotaOf u (poolOf t) (thr u t).ctx - lanesHeld u (poolOf t) (thr u t).ctx) (freeOf u t).length

/-- The grant that a grant point makes (R174). -/
def grantSize (u : State) (t : Nat) : Nat := min (grantTarget (thr u t)) ((thr u t).gvl + grantRoom u t)

theorem growth_spec (u : State) (t want : Nat) :
    (growth u t want).length = min want (grantRoom u t) ∧ (growth u t want).Nodup ∧ ∀ k ∈ growth u t want, k ∈ freeOf u t := by
  obtain ⟨length, nodup, free⟩ := freeLanes_spec u t (min want (quotaOf u (poolOf t) (thr u t).ctx - lanesHeld u (poolOf t) (thr u t).ctx))
  exact ⟨length.trans (by rw [grantRoom]; omega), nodup, free⟩

/-- The refitting, on the pool whose owed slices are placed. -/
def refit (s u : State) : Option State :=
  if grantTarget (thr u (me s)) ≤ (thr u (me s)).gvl then
    if grantTarget (thr u (me s)) = 0 then none
    else if grantTarget (thr u (me s)) = (thr u (me s)).gvl then some u
    else some (wakePool (traceGrant u (setThr u (me s) { thr u (me s) with
      gvl := grantTarget (thr u (me s)), lanes := (thr u (me s)).lanes.take (grantTarget (thr u (me s))) })) (poolOf (me s)))
  else if (thr u (me s)).gvl + (growth u (me s) (grantTarget (thr u (me s)) - (thr u (me s)).gvl)).length = 0 then none
  else some (traceGrant u (setThr u (me s) { thr u (me s) with
    gvl := (thr u (me s)).gvl + (growth u (me s) (grantTarget (thr u (me s)) - (thr u (me s)).gvl)).length
    lanes := (thr u (me s)).lanes ++ growth u (me s) (grantTarget (thr u (me s)) - (thr u (me s)).gvl) }))

theorem regrant_eq (s : State) : regrant s = refit s (settlePool s (poolOf (me s))) := rfl

theorem refit_none {s u : State} (zero : grantSize u (me s) = 0) : refit s u = none := by
  have := (growth_spec u (me s) (grantTarget (thr u (me s)) - (thr u (me s)).gvl)).1
  rw [grantSize] at zero
  unfold refit
  split
  · exact if_pos (by omega)
  · exact if_pos (by omega)

/-- The lanes of a grant of a new size: its highest slots are given up, or each new one takes a lane of its own. -/
def LanesFitted (u : State) (t new : Nat) (lanes : List Nat) : Prop :=
  (new < (thr u t).gvl → lanes = (thr u t).lanes.take new) ∧
    ((thr u t).gvl ≤ new → ∃ l, lanes = (thr u t).lanes ++ l ∧ l.length = new - (thr u t).gvl ∧ l.Nodup ∧ ∀ k ∈ l, k ∈ freeOf u t)

theorem refit_some {s u : State} (some_ : grantSize u (me s) ≠ 0) :
    ∃ v lanes, refit s u = some v ∧ Regranted u (me s) (grantSize u (me s)) lanes v ∧ LanesFitted u (me s) (grantSize u (me s)) lanes := by
  obtain ⟨length, nodup, free⟩ := growth_spec u (me s) (grantTarget (thr u (me s)) - (thr u (me s)).gvl)
  generalize size : grantSize u (me s) = new at some_ ⊢
  rw [grantSize] at size
  unfold refit
  by_cases le : grantTarget (thr u (me s)) ≤ (thr u (me s)).gvl
  · have is : grantTarget (thr u (me s)) = new := by omega
    rw [if_pos le, is, if_neg some_]
    by_cases same : new = (thr u (me s)).gvl
    · rw [if_pos same]
      exact ⟨u, _, rfl, same ▸ .refl u _, fun less => by omega, fun _ => ⟨[], (List.append_nil _).symm, by simp [same], List.nodup_nil, by simp⟩⟩
    · rw [if_neg same]
      exact ⟨_, _, rfl, (traceGrant_regranted u u (me s) new _).owe _, fun _ => rfl, fun more => by omega⟩
  · have is : (thr u (me s)).gvl + (growth u (me s) (grantTarget (thr u (me s)) - (thr u (me s)).gvl)).length = new := by omega
    rw [if_neg le, is, if_neg some_]
    exact ⟨_, _, rfl, traceGrant_regranted u u (me s) new _, fun less => by omega, fun _ => ⟨_, rfl, by omega, nodup, free⟩⟩

/-! ### The words -/

/-- Whether what is in flight lets a grant point go on, and its Kennel is live. -/
def grantReady (s : State) : Bool := settled (my s) && unitLive s (16 + myPool s)

section
variable {s : State} (ready : grantReady s = true) {pre fin : State → State}

theorem grantPoint_waits (busy : grantReady s = false) : grantPoint s pre fin = waitHere s :=
  if_pos (by rw [← Bool.not_and]; exact congrArg not busy)

include ready

theorem grantPoint_eq : grantPoint s pre fin = if (my (pre s)).mvl ≠ 0 then fin (pre s)
    else match regrant (pre s) with | none => setCond s .parkedGrant | some u => fin u :=
  if_neg (by rw [← Bool.not_and, Bool.not_eq_true]; exact congrArg not ready)

theorem grantPoint_goes {u : State} (grants : grantsTo (pre s) u) : grantPoint s pre fin = fin u := by
  rw [grantPoint_eq ready]
  rcases grants with ⟨gang, rfl⟩ | ⟨none_, found⟩
  · exact if_pos gang
  · rw [if_neg (not_not.mpr none_), found]

theorem grantPoint_parks (none_ : (my (pre s)).mvl = 0) (no : regrant (pre s) = none) : grantPoint s pre fin = setCond s .parkedGrant := by
  rw [grantPoint_eq ready, if_neg (not_not.mpr none_), no]

end

/-- VSETL past its grant point (R197). -/
def vsetlFin (n : Nat) (f : VFields) (u : State) : State :=
  advance (setReg (modMy u (fun x => { x with vl := min n (my u).gvl })) f.s (BitVec.ofNat 64 (min n (my u).gvl)))

/-- The request that VYIELD sets before its grant point (R198). -/
def yieldPre (s : State) (f : VFields) (u : State) : State := setRequest u (me u) (min (max (reg s (extReg f)).toNat 1) (my u).vceil)

/-- VYIELD past its grant point (R198). -/
def vyieldFin (f : VFields) (u : State) : State :=
  advance (setReg (modMy u (fun x => { x with vl := min x.vl x.gvl })) f.s (BitVec.ofNat 64 (my u).gvl))

section
variable {s : State} {f : VFields} (goes : VecGoes s true [f.s, extReg f] [])
include goes

theorem vsetl_issued : exec (.vsetl f) s = .next (grantPoint s id (vsetlFin (reg s (extReg f)).toNat f)) := by
  change execVsetl f s = _
  rw [execVsetl, issueV_goes goes]
  rfl

theorem vyield_issued : exec (.vyield f) s = .next (grantPoint s
(yieldPre s f) (vyieldFin f)) := by
  change execVyield f s = _
  rw [execVyield, issueV_goes goes]
  rfl

end

section
variable {s : State} {c : Reg} (mask : BitVec 8) (off : BitVec 32) (goes : VecGoes s true [c] [])

/-- The count that an SMLOOP writes (R203). -/
def loopCount (s : State) (c : Reg) : Nat := (reg s c).toNat - (my s).vl

/-- Whether this pass lowers its count too little, and whether the one before did (R204). -/
def loopStalls (s : State) (c : Reg) : Bool := stalls (my s).watch (pcOf s) (loopCount s c)

/-- Whether the pass before this one lowered its count too little. -/
def loopStruck (x : Thread) : Bool := match x.watch with | some w => w.strike | none => false

/-- SMLOOP past its grant point (R203). -/
def smloopFin (s : State) (c : Reg) (off : BitVec 32) (u : State) : State :=
  let new := loopCount s c
  let w : Option Watch := if new = 0 then none else some { pc := pcOf s, count := new, strike := loopStalls s c }
  let v := setReg (modMy u (fun x => { x with watch := w, vl := min new x.gvl })) c (BitVec.ofNat 64 new)
  if new = 0 then advance v else jump v (pcOf s + off.signExtend 64 * 8)

theorem loopStalls_none (none_ : (my s).watch = none) : loopStalls s c = false := by rw [loopStalls, none_]; rfl

theorem loopStalls_some {w : Watch} (some_ : (my s).watch = some w) :
    loopStalls s c = decide (w.pc = pcOf s ∧ w.count ≤ loopCount s c) := by
  rw [loopStalls, some_, Bool.decide_and]
  rfl

include goes

theorem smloop_struck (hit : (loopStalls s c && loopStruck (my s)) = true) :
    exec (.smloop c mask off) s = .next (takeTrap s 4 (my s).gvl (reg s c)) := by
  change execSmloop c mask off s = _
  rw [execSmloop, issueV_goes goes]
  exact congrArg _ (if_pos hit)

theorem smloop_issued (miss : (loopStalls s c && loopStruck (my s)) = false) :
    exec (.smloop c mask off) s = .next (grantPoint s (fun s => modMy s (advanceStreams mask)) (smloopFin s c off)) := by
  change execSmloop c mask off s = _
  rw [execSmloop, issueV_goes goes]
  exact congrArg _ (if_neg (by rw [Bool.not_eq_true]; exact miss))

omit goes in
theorem smloopFin_last {u : State} (last : loopCount s c = 0) : smloopFin s c off u = advance (setReg (modMy u (fun x => { x with
    watch := none, vl := 0 })) c 0) := by
  simp only [smloopFin, last, if_pos, Nat.zero_min]
  rfl

omit goes in
theorem smloopFin_more {u : State} (more : loopCount s c ≠ 0) : smloopFin s c off u = jump (setReg (modMy u (fun x => { x with
    watch := some { pc := pcOf s, count := loopCount s c, strike := loopStalls s c }, vl := min (loopCount s c) x.gvl })) c
      (BitVec.ofNat 64 (loopCount s c))) (pcOf s + off.signExtend 64 * 8) := by
  simp only [smloopFin, if_neg more]

end

/-- The refitting of a grant, and what it leaves of the state (R174, R176, R178, R187). -/
theorem regrant_spec (s : State) :
    let u := settlePool s (poolOf (me s))
    (grantSize u (me s) = 0 → regrant s = none) ∧
    (grantSize u (me s) ≠ 0 → ∃ v, regrant s = some v ∧ v = { u with threads := v.threads, cores := v.cores, owed := v.owed } ∧
      (∀ k, core v k = { core u k with trace := (core v k).trace }) ∧ (∀ j, j ≠ me s → kfind v.threads j = kfind u.threads j) ∧
      my v = { my u with gvl := grantSize u (me s), lanes := (my v).lanes } ∧
      LanesFitted u (me s) (grantSize u (me s)) (my v).lanes) := by
  intro u
  rw [regrant_eq]
  refine ⟨refit_none, fun some_ => ?_⟩
  obtain ⟨v, lanes, found, grant, fitted⟩ := refit_some some_
  have mine : my v = { my u with gvl := grantSize u (me s), lanes := lanes } := by
    have who : me v = me s := by rw [grant.rest]; exact settlePool_me s _
    rw [my, my, who, settlePool_me, grant.own]
  refine ⟨v, found, grant.rest, grant.cores, grant.others, ?_, ?_⟩
  · rw [mine]
  · rw [mine]
    exact fitted

/-- Settles O34: the refitting by the lesser, equal or greater target, and the words by what their grant point does. -/
theorem grantPoints : Obligations.GrantPoints := by
  unfold Obligations.GrantPoints
  refine ⟨fun s => ?_, fun s u f c mask off => ⟨fun goes busy => ⟨?_, ?_⟩, fun ready goes => ⟨fun grants => ?_, fun none_ no => ?_, fun grants => ?_, fun none_ no => ?_⟩,
    fun goes => ?_⟩⟩
  · obtain ⟨rest, threads⟩ := settlePool_slices s (poolOf (me s))
    obtain ⟨parks, grows⟩ := regrant_spec s
    have mine : my (settlePool s (poolOf (me s))) = thr (settlePool s (poolOf (me s))) (me s) := by rw [my, settlePool_me]
    rw [mine] at grows
    dsimp only
    rw [mine]
    exact ⟨rest, threads, parks, grows⟩
  · rw [vsetl_issued goes, grantPoint_waits busy]
  · rw [vyield_issued goes, grantPoint_waits busy]
  · rw [vsetl_issued goes, grantPoint_goes (pre := id) ready grants]
    rfl
  · rw [vsetl_issued goes, grantPoint_parks (pre := id) ready none_ no]
  · rw [vyield_issued goes, grantPoint_goes (pre := yieldPre s f) ready grants]
    rfl
  · rw [vyield_issued goes, grantPoint_parks (pre := yieldPre s f) ready none_ no]
  · intro new stall struck stepped
    have is : stall = loopStalls s c := by
      cases w : (my s).watch with
      | none => simp only [stall, w, loopStalls_none w]
      | some x =>
        simp only [stall, w, loopStalls_some w, new, loopCount]
        exact decide_eq_decide.mpr Iff.rfl
    have was : struck = loopStruck (my s) := rfl
    rw [is, was]
    refine ⟨smloop_struck mask off goes, fun miss busy => ?_, fun miss ready none_ no => ?_, fun miss ready grants => ⟨fun last => ?_, fun more => ?_⟩⟩
    · rw [smloop_issued mask off goes miss, grantPoint_waits busy]
    · rw [smloop_issued mask off goes miss, grantPoint_parks (pre := fun s => modMy s (advanceStreams mask)) ready none_ no]
    · rw [smloop_issued mask off goes miss, grantPoint_goes (pre := fun s => modMy s (advanceStreams mask)) ready grants, smloopFin_last off last]
    · rw [smloop_issued mask off goes miss, grantPoint_goes (pre := fun s => modMy s (advanceStreams mask)) ready grants, smloopFin_more off more]
      rfl

end Sys2Proof.Machine
end

section
/-! RESULT. The end of gangs and time events (O52), refuted: nothing in it asks that a thread number names one record. -/

namespace Sys2Proof.Machine

/-- A context whose gang 0 has run its watchdog out. -/
def expiredCtx : Ctx :=
  { Ctx.fresh 0 Seg.empty 0 0 0 0 with gangs := [(0, { Gang.start [] none 0 with wdt := 1, wdCount := 1024 })] }

/-- A service context's number names two records, the first of context 0 and the second of context 1. -/
def doubledService : State :=
  { State.reset with
    ctxs := [(0, expiredCtx), (1, Ctx.fresh 0 Seg.empty 0 0 0 0)]
    threads := [(16, Thread.start), (16, { Thread.start with ctx := 1 })] }

/-- The state after the watchdog's step, or the state before it where there is none. -/
def afterWdog (s : State) : State := match execWdog s with | .next u => u | _ => s

/-- As context 0 freezes, the record of its service context goes, and the one behind it comes to stand under the number. -/
theorem doubledService_runs : agentCtx doubledService (.thread 16) = 0 ∧ runnable (afterWdog doubledService) (.thread 16) = true :=
  ⟨rfl, rfl⟩

/-- Refutes O52: a watchdog's freeze drops the service context of its context from the threads, and where another record stands under
the same number, that one is then found there and may issue. The statement holds no hypothesis that the keys of the threads rise. -/
theorem not_gangAndTimeEvents : ¬ Obligations.GangAndTimeEvents := by
  unfold Obligations.GangAndTimeEvents
  intro h
  obtain ⟨-, -, -, watchdog, -⟩ := h doubledService
  obtain ⟨u, y, run, -, -, -, stopped, -⟩ := (watchdog expiredCtx { Gang.start [] none 0 with wdt := 1, wdCount := 1024 } rfl rfl
    Nat.one_ne_zero (Nat.le_refl 1024)).1 rfl
  have after : afterWdog doubledService = u := by
    change execWdog doubledService = .next u at run
    rw [afterWdog, run]
  obtain ⟨inside, runs⟩ := doubledService_runs
  rw [after, stopped (.thread 16) inside] at runs
  exact Bool.false_ne_true runs

end Sys2Proof.Machine
end

section
/-! SUPPORT. A continuation stolen from the far end of a deque (R309), as its effect shows in the state. -/

namespace Sys2Proof.Machine

/-! ### What dies give up -/

theorem unpoison_ctxs (s : State) (loc : Nat) : (unpoison s loc).ctxs = s.ctxs := by
  unfold unpoison
  simp only
  split <;> rfl

theorem putBytes_ctxs (s : State) (l : List (Nat × Byte)) : (putBytes s l).ctxs = s.ctxs := by
  have each (l : List (Nat × Byte)) (u : State) : (l.foldl (fun s p => unpoison s p.1) u).ctxs = u.ctxs := by
    induction l generalizing u with
    | nil => rfl
    | cons p r ih => rw [List.foldl_cons, ih, unpoison_ctxs]
  unfold putBytes
  dsimp only
  split
  · rfl
  · exact each ..

theorem recallUo_ctxs (s : State) (f : Nat → Bool) (locs : List Nat) : (recallUo s f locs).ctxs = s.ctxs := by
  unfold recallUo
  dsimp only
  split
  · rfl
  · exact putBytes_ctxs ..

theorem HomesOnly.regions {s u : State} (h : HomesOnly s u) : u.regions = s.regions := by unfold HomesOnly at h; rw [h]
theorem HomesOnly.threads {s u : State} (h : HomesOnly s u) : u.threads = s.threads := by unfold HomesOnly at h; rw [h]
theorem HomesOnly.tasks {s u : State} (h : HomesOnly s u) : u.tasks = s.tasks := by unfold HomesOnly at h; rw [h]
theorem HomesOnly.time {s u : State} (h : HomesOnly s u) : u.time = s.time := by unfold HomesOnly at h; rw [h]

/-- What has been recalled for some locations is held within no die, also once other bytes are served. -/
theorem served_recalled_home (s : State) (locs : List Nat) (refs : List ByteRef) (loc : Nat) :
    ¬BroughtHome (served (recalled s locs) refs) locs loc := by
  rintro ⟨shares, here, d, held⟩
  obtain ⟨_, -, first, gone⟩ := recallUo_spec s (fun _ => true) locs
  obtain ⟨_, -, second, -⟩ := recallUo_spec (recalled s locs) (fun _ => true)
    (underRefs (recalled s locs) (refs.filter (fun b => nonNative (recalled s locs) b.pa)))
  have same : (served (recalled s locs) refs).regions = s.regions := second.homes.regions.trans first.homes.regions
  rw [sharesGranule_of same] at shares
  have none_ : uoqRead (recalled s locs) d loc = none := gone d loc rfl shares here
  exact held ((second.uoq d loc).elim (fun e => e.trans none_) (·.1))

/-- Doubleword 2 of a frame updated at its home, where every byte of it has one (R308). -/
theorem writeFrame_written {s : State} {refs : List ByteRef} (whole : refs.length = 8) (none_ : ∀ loc, ¬BroughtHome s (refs.map (·.loc)) loc)
    (a : Agent) (w : Word) : Written s (writeFrame s a refs w none)
      (if refs.all (·.has) then (refs.map (·.loc)).zip (leBytes 8 w.toNat) else []) := by
  unfold writeFrame
  cases has : refs.all (·.has) with
  | false =>
    have : refs.any (fun r => !r.has) = true := by rw [← List.not_all_eq_any_not, has]; rfl
    rw [if_pos this]
    exact .refl s
  | true =>
    have : ¬refs.any (fun r => !r.has) = true := by rw [← List.not_all_eq_any_not, has]; exact Bool.false_ne_true
    rw [if_neg this]
    obtain ⟨r, brought, wrote⟩ := performAtomic_writes s a (refs := refs) (l := leBytes 8 w.toNat) (by rintro rfl; cases whole)
      (by rw [whole, leBytes_length]) none
    have nothing : r = [] := List.eq_nil_iff_forall_not_mem.mpr fun q hq => none_ _ (brought q hq)
    rwa [nothing] at wrote

/-! ### The strand that a steal starts -/

/-- The data heap of a context. -/
def heapOf (s : State) (c : Nat) : Seg := match ctx? s c with | some y => y.heap | none => Seg.empty

/-- A task with one strand more. -/
def moreStrands (s : State) (k : Nat) : State := { s with tasks := kset s.tasks k { task s k with strands := (task s k).strands + 1 } }

section
variable (u : State) (t v : Nat) (refs : List ByteRef) (cva : Nat)

/-- The bytes of doubleword 2 of a frame. -/
def frameDw2 : List ByteRef := (refs.drop 16).take 8

/-- What the thief reads the frame in. -/
def stealHome : State := served (recalled u ((frameDw2 refs).map (·.loc))) refs

/-- The doublewords of the frame as the thief reads them. -/
def stealWords : List Word := wordsAt { stealHome u refs with cur := .thread t } refs

/-- The hart that resumes the frame. -/
def stealHart : Hart × Option Nat :=
  frameHart (heapOf u (thr u v).ctx) (stealWords u t refs) (BitVec.ofNat 64 cva)

/-- Doubleword 2 once the frame is taken. -/
def takenDw2 : Word := putFrame ((stealWords u t refs).getD 2 0) (frameCount ((stealWords u t refs).getD 2 0)) 2

/-- The thief's thread, the victim's without its oldest entry. -/
def stealThreads : State :=
  setThr (setThr (stealHome u refs) v { thr u v with deque := (thr u v).deque.drop 1 }) t
    { Thread.start with hart := (stealHart u t v refs cva).1, ctx := (thr u v).ctx, task := (thr u v).task, started := u.time }

/-- The frame marked as taken at its home. -/
def stealMarked : State :=
  writeFrame (touchLoad (stealThreads u t v refs cva) (.thread t) refs .none) (.thread t) (frameDw2 refs) (takenDw2 u t refs) none

/-- The task has one strand more. -/
def stealCounted : State := moreStrands (stealMarked u t v refs cva) (thr u v).task

theorem stealHome_homes : HomesOnly u (stealHome u refs) := by
  obtain ⟨_, -, first, -⟩ := recallUo_spec u (fun _ => true) ((frameDw2 refs).map (·.loc))
  exact first.homes.trans (served_homes ..)

theorem stealHome_ctxs : (stealHome u refs).ctxs = u.ctxs := (recallUo_ctxs ..).trans (recallUo_ctxs ..)

theorem stealFrame_eq : stealFrame u t v refs cva = badFrame (stealCounted u t v refs cva) t (stealHart u t v refs cva).2 := by
  have ctxs : ctx? (stealHome u refs) (thr u v).ctx = ctx? u (thr u v).ctx := by rw [ctx?, stealHome_ctxs]; rfl
  have time : (stealHome u refs).time = u.time := (stealHome_homes u refs).time
  have heap : stealHart u t v refs cva = frameHart (heapOf (stealHome u refs) (thr u v).ctx) (stealWords u t refs)
      (BitVec.ofNat 64 cva) := by rw [heapOf, ctxs]; rfl
  unfold stealCounted stealMarked stealThreads
  rw [← time, heap]
  rfl

theorem stealHome_home (loc : Nat) : ¬BroughtHome (stealHome u refs) ((frameDw2 refs).map (·.loc)) loc := by
  unfold stealHome
  exact served_recalled_home u _ refs loc

theorem stealThreads_home (loc : Nat) : ¬BroughtHome (stealThreads u t v refs cva) ((frameDw2 refs).map (·.loc)) loc := by
  rintro ⟨shares, here, d, held⟩
  have regions : (stealThreads u t v refs cva).regions = (stealHome u refs).regions := by rw [stealThreads, setThr_regions, setThr_regions]
  have dies : (stealThreads u t v refs cva).dies = (stealHome u refs).dies := by rw [stealThreads, setThr_dies, setThr_dies]
  rw [sharesGranule_of regions] at shares
  rw [uoqRead_of (u := stealThreads u t v refs cva) (s := stealHome u refs) (by rw [die, die, dies])] at held
  exact stealHome_home u refs loc ⟨shares, here, d, held⟩

/-- The mark as it stands at the frame's home. -/
theorem stealMarked_written (whole : (frameDw2 refs).length = 8) : Written (stealThreads u t v refs cva) (stealMarked u t v refs cva)
    (if (frameDw2 refs).all (·.has) then ((frameDw2 refs).map (·.loc)).zip (leBytes 8 (takenDw2 u t refs).toNat) else []) := by
  have touched := (touchLoad_lines (stealThreads u t v refs cva) (.thread t) refs .none).written
  exact touched.trans (writeFrame_written whole (fun loc brought => stealThreads_home u t v refs cva loc (touched.broughtHome brought)) _ _)

end

/-- What a refused descriptor leaves pending, and that nothing else changes. -/
theorem badFrame_spec (s : State) (t : Nat) (bad : Option Nat) :
    (bad = none → (thr (badFrame s t bad) t).pendTrap = (thr s t).pendTrap) ∧
      (∀ i, bad = some i → ∃ j, (thr (badFrame s t bad) t).pendTrap = some (2, segvInfo 4 i 0, (Config.openWord j).toNat)) ∧
      thr (badFrame s t bad) t = { thr s t with pendTrap := (thr (badFrame s t bad) t).pendTrap } ∧
      (∀ j, j ≠ t → kfind (badFrame s t bad).threads j = kfind s.threads j) ∧ (badFrame s t bad).tasks = s.tasks ∧
      SameBytes s (badFrame s t bad) := by
  cases bad with
  | none => exact ⟨fun _ => rfl, fun i h => absurd h (by simp), rfl, fun _ _ => rfl, rfl, SameBytes.refl s⟩
  | some k =>
    have own : thr (badFrame s t (some k)) t = { thr s t with pendTrap := some (2, segvInfo 4 k 0, (Config.openWord s.free).toNat) } :=
      thr_modThr_self ..
    refine ⟨fun h => absurd h (by simp), fun i same => ⟨s.free, ?_⟩, by rw [own], fun j ne => kfind_kset_ne _ _ ne, rfl, sameBytes_of rfl rfl rfl⟩
    rw [own, Option.some.inj same]

end Sys2Proof.Machine
end

section
/-! RESULT. The gang table and the dispatcher (O51). -/

namespace Sys2Proof.Machine

/-! ### The gang table -/

theorem placeSuccs_none {s : State} {c : Nat} {x : Ctx} (here : ctx? s c = some x) (none_ : x.succs = []) (n : Nat) : placeSuccs c n s = s := by
  cases n with
  | zero => rfl
  | succ n =>
    unfold placeSuccs
    rw [here]
    dsimp only
    rw [none_]

theorem placeSuccs_some {s : State} {c g : Nat} {x : Ctx} {r : List Word} {rest : List (List Word)} (here : ctx? s c = some x)
    (some_ : x.succs = r :: rest) (free : freeGid x = some g) (n : Nat) :
    placeSuccs c (n + 1) s = placeSuccs c n (enterGang (modCtx s c (fun x => { x with succs := rest })) c g r none) := by
  conv_lhs => unfold placeSuccs
  rw [here]
  dsimp only
  rw [some_, free]

theorem ctx_enterGang_none {s : State} {c g : Nat} {x : Ctx} {r : List Word} (here : ctx? s c = some x) :
    ctx? (enterGang s c g r none) c = some { x with gangs := kset x.gangs g (Gang.start r none x.gangSeq), gangSeq := x.gangSeq + 1 } := by
  change ctx? (modCtx s c _) c = _
  rw [ctx_modCtx, if_pos rfl, here]
  rfl

/-- What GANG_START does once the waiting successors stand in the table (R300). -/
theorem gangStart_port {s u : State} {x : Ctx} {g : Nat} {r : List Word} {rest : List (List Word)} (runs : frozenCtx s s.msg.a = false)
    (placed : placeSuccs s.msg.a 64 s = u) (here : ctx? u s.msg.a = some x) (free : freeGid x = some g)
    (bound : (port u x.tenant x.port).ctx = some s.msg.a) (queue : (port u x.tenant x.port).queue = r :: rest) :
    exec .gangStart s = .next (if rest = [] then enterGang (modPort u x.tenant x.port (fun q => { q with queue := rest })) s.msg.a g r (some x.port)
      else owe (enterGang (modPort u x.tenant x.port (fun q => { q with queue := rest })) s.msg.a g r (some x.port)) [ev .gangStart s.msg.a]) := by
  change execGangStart s = _
  unfold execGangStart
  simp only [runs, placed, here, queue, free, bound, List.isEmpty_iff]
  simp

theorem gangStart_idle {s u : State} {x : Ctx} (runs : frozenCtx s s.msg.a = false) (placed : placeSuccs s.msg.a 64 s = u)
    (here : ctx? u s.msg.a = some x) (queue : (port u x.tenant x.port).queue = []) : exec .gangStart s = .next u := by
  change execGangStart s = _
  unfold execGangStart
  simp only [runs, placed, here, queue]
  simp

theorem gangStart_succ {s : State} {x : Ctx} {g : Nat} {r : List Word} (runs : frozenCtx s s.msg.a = false) (here : ctx? s s.msg.a = some x)
    (waits : x.succs = [r]) (free : freeGid x = some g) (queue : (port s x.tenant x.port).queue = []) :
    exec .gangStart s = .next (enterGang (modCtx s s.msg.a (fun x => { x with succs := [] })) s.msg.a g r none) := by
  have left : ctx? (modCtx s s.msg.a (fun x => { x with succs := [] })) s.msg.a = some { x with succs := [] } := by
    rw [ctx_modCtx, if_pos rfl, here]
    rfl
  have entered := ctx_enterGang_none (g := g) (r := r) left
  have tenants : (enterGang (modCtx s s.msg.a (fun x => { x with succs := [] })) s.msg.a g r none).tenants = s.tenants := by
    change (modCtx (modCtx s _ _) _ _).tenants = _
    rw [modCtx_tenants, modCtx_tenants]
  refine gangStart_idle runs ((placeSuccs_some here waits free 63).trans (placeSuccs_none entered rfl 63)) entered ?_
  rw [port, tenant, tenants]
  exact queue

/-! ### Drawing and dispatching -/

section
variable {s : State}

theorem tileDraw_dead (dead : unitLive s (16 + s.msg.a) = false) : exec .tileDraw s = .next s := by
  change execTileDraw s = _
  exact if_pos (by simp [dead])

theorem dispatch_dead (dead : unitLive s (16 + s.msg.a) = false) : exec .dispatch s = .next s := by
  change execDispatch s = _
  exact if_pos (by simp [dead])

variable (starts : ctxStarts s s.msg.b = true) (live : unitLive s (16 + s.msg.a) = true)
include starts live

theorem tileDraw_draws (few : (readyOf s s.msg.a s.msg.b).length < 16)
    (soon : (readyOf s s.msg.a s.msg.b).length < (freeHw s s.msg.a s.msg.b).length) {g : Nat} {x : Gang} (draw : drawable s s.msg.b = some (g, x)) :
    exec .tileDraw s = .next (owe (modGang (modPool s s.msg.a (fun q => { q with
      ready := q.ready ++ [{ ctx := s.msg.b, gid := g, tile := x.next, bypass := 0 }] })) s.msg.b g
        (fun y => { y with next := y.next + 1, live := y.live + 1 })) [ev .dispatch s.msg.a s.msg.b, ev .tileDraw s.msg.a s.msg.b]) := by
  change execTileDraw s = _
  unfold execTileDraw
  rw [if_neg (by simp [starts, live]; omega), draw]

theorem dispatch_places {i t : Nat} {r : ReadyTask} {f : Kernel} (choice : chooseTask s s.msg.a (readyOf s s.msg.a s.msg.b) = some i)
    (place : (readyOf s s.msg.a s.msg.b)[i]? = some r) (kernel : readyKernel s r = some f)
    (found : (freeHw s s.msg.a s.msg.b).find? (fun t => qualifies s (coreOf t) s.msg.b (recScratch (gang s s.msg.b r.gid).record) f.lanes
      !f.foot.isEmpty) = some t) :
    exec .dispatch s = .next (owe (modPool (placeTask s t r f) s.msg.a (fun q => { q with ready := takeReady s.msg.b i q.ready }))
      [ev .dispatch s.msg.a s.msg.b, ev .tileDraw s.msg.a s.msg.b]) := by
  change execDispatch s = _
  unfold execDispatch
  rw [if_neg (by simp [starts, live])]
  simp only [choice, place, kernel, found]

theorem dispatch_steals {t : Nat} {rest : List Nat} (empty : readyOf s s.msg.a s.msg.b = []) (free : freeHw s s.msg.a s.msg.b = t :: rest)
    (some_ : stealable s s.msg.b = true) : exec .dispatch s = .next (owe s [ev .steal t]) := by
  change execDispatch s = _
  unfold execDispatch
  rw [if_neg (by simp [starts, live])]
  simp only [empty, free, chooseTask, some_, if_pos]

end

/-! ### Stealing -/

theorem leastRank_mem {rank : Nat → Nat} {l : List Nat} {v : Nat} (h : leastRank rank l = some v) : v ∈ l := by
  induction l with
  | nil => cases h
  | cons x r ih =>
    simp only [leastRank] at h
    split at h
    · cases h
      exact List.mem_cons_self
    · next y found =>
      split at h <;> cases h
      · exact List.mem_cons_self
      · exact List.mem_cons_of_mem _ (ih found)

/-- A thief never steals from its own core (R309). -/
theorem victimOf_ne {s : State} {t c v : Nat} (h : victimOf s t c = some v) : v ≠ t := by
  obtain ⟨q, hq, rfl⟩ := List.mem_map.mp (leastRank_mem h)
  have := (List.mem_filter.mp hq).2
  simp only [Bool.and_eq_true, bne_iff_ne] at this
  intro same
  exact this.1.2 (by rw [same])

section
variable {s : State} {t v : Nat} {e : Nat × SlotEntry} (bound : bindingEntry s (coreOf t) (hwOf t) = some e) (free : hasThr s t = false)
  (starts : ctxStarts s e.2.ctx = true) (idle : readyOf s (poolOf t) e.2.ctx = []) (victim : victimOf s t e.2.ctx = some v)
include bound free starts idle victim

theorem stealAim_victim : stealAim s t = some (e.2.ctx, v) := by
  unfold stealAim
  rw [bound]
  simp [free, starts, idle, victim]

theorem steal_yields (msg : s.msg.a = t) (way : givesWay s t v = true) : exec .steal s = .next (owe s [ev .steal t]) := by
  change execSteal s = _
  unfold execSteal
  rw [msg]
  dsimp only
  rw [stealAim_victim bound free starts idle victim]
  exact if_pos way

/-- The bytes of the frame that a steal takes. -/
def stealRefs (s : State) (t v k : Nat) : List ByteRef :=
  let u := noteAttempt s t v
  let cva := (thr s v).deque.headD 0
  refsOf u k cva (frameSize ((wordsAt { u with cur := .thread t } (refsOf u k cva 24)).getD 1 0))

theorem steal_takes (msg : s.msg.a = t) (way : givesWay s t v = false)
    (head : judge (noteAttempt s t v) (frameChk e.2.ctx none) (span ((thr s v).deque.headD 0) 24) = none)
    (all : judge (noteAttempt s t v) (frameChk e.2.ctx none) (span ((thr s v).deque.headD 0) (frameSize
      ((wordsAt { noteAttempt s t v with cur := .thread t } (refsOf (noteAttempt s t v) e.2.ctx ((thr s v).deque.headD 0) 24)).getD 1 0))) = none)
    (clean : ∀ r ∈ stealRefs s t v e.2.ctx, r.has = true → poisoned (noteAttempt s t v) r.loc = false) :
    exec .steal s = .next (stealFrame (noteAttempt s t v) t v (stealRefs s t v e.2.ctx) ((thr s v).deque.headD 0)) := by
  have pure_ : ¬(stealRefs s t v e.2.ctx).any (fun r => r.has && poisoned (noteAttempt s t v) r.loc) = true := by
    rw [List.any_eq_true]
    rintro ⟨r, hr, bad⟩
    rw [Bool.and_eq_true] at bad
    rw [clean r hr bad.1] at bad
    exact Bool.false_ne_true bad.2
  change execSteal s = _
  unfold execSteal
  rw [msg]
  dsimp only
  rw [stealAim_victim bound free starts idle victim]
  simp only [way, head, all]
  exact if_neg pure_

end

theorem frameSize_ge (m : Word) : 144 ≤ frameSize m := Nat.le_add_right ..

theorem frameDw2_length {refs : List ByteRef} (h : 24 ≤ refs.length) : (frameDw2 refs).length = 8 := by
  rw [frameDw2, List.length_take, List.length_drop]
  omega

theorem noteAttempt_thr_ne (s : State) {t v j : Nat} (h : j ≠ v) : kfind (noteAttempt s t v).threads j = kfind s.threads j :=
  kfind_kset_ne _ _ h

theorem noteAttempt_victim (s : State) (t v : Nat) : thr (noteAttempt s t v) v = { thr s v with thief := some (coreOf t) } :=
  thr_modThr_self ..

section
variable {u : State} {t v : Nat} {refs : List ByteRef} (whole : 24 ≤ refs.length) (cva : Nat)

/-- The thief's thread as the strand starts on it. -/
def stolenThread (u : State) (t v : Nat) (refs : List ByteRef) (cva : Nat) : Thread :=
  { Thread.start with hart := (stealHart u t v refs cva).1, ctx := (thr u v).ctx, task := (thr u v).task, started := u.time }

include whole

theorem stealCounted_threads : (stealCounted u t v refs cva).threads = kset (kset u.threads v { thr u v with deque := (thr u v).deque.drop 1 }) t
    (stolenThread u t v refs cva) := by
  have marked := (stealMarked_written u t v refs cva (frameDw2_length whole)).homes.threads
  rw [stealCounted, moreStrands]
  dsimp only
  rw [marked, stealThreads, setThr_threads, setThr_threads, (stealHome_homes u refs).threads]
  rfl

theorem stealCounted_thief : thr (stealCounted u t v refs cva) t = stolenThread u t v refs cva := by
  rw [thr, stealCounted_threads whole, kget_kset_self]

theorem stealCounted_others {j : Nat} (nt : j ≠ t) (nv : j ≠ v) : kfind (stealCounted u t v refs cva).threads j = kfind u.threads j := by
  rw [stealCounted_threads whole, kfind_kset_ne _ _ nt, kfind_kset_ne _ _ nv]

theorem stealCounted_robbed (apart : v ≠ t) : kfind (stealCounted u t v refs cva).threads v =
    some { thr u v with deque := (thr u v).deque.drop 1 } := by
  rw [stealCounted_threads whole, kfind_kset_ne _ _ apart, kfind_kset_self]

theorem stealCounted_tasks : (stealCounted u t v refs cva).tasks =
    kset u.tasks (thr u v).task { task u (thr u v).task with strands := (task u (thr u v).task).strands + 1 } := by
  have marked : (stealMarked u t v refs cva).tasks = u.tasks := by
    rw [(stealMarked_written u t v refs cva (frameDw2_length whole)).homes.tasks, stealThreads, setThr_tasks, setThr_tasks,
      (stealHome_homes u refs).tasks]
  rw [stealCounted, moreStrands, task, marked]
  rfl

theorem stealCounted_mark (has : refs.all (·.has) = true) (once : (refs.map (·.loc)).Nodup) :
    (frameDw2 refs).map (fun r => (stealCounted u t v refs cva).mem.get r.loc) = leBytes 8 (takenDw2 u t refs).toNat := by
  have all : (frameDw2 refs).all (·.has) = true :=
    List.all_eq_true.mpr fun r hr => List.all_eq_true.mp has r (List.mem_of_mem_drop (List.mem_of_mem_take hr))
  have nodup : ((frameDw2 refs).map (·.loc)).Nodup :=
    once.sublist (List.Sublist.map _ ((List.take_sublist ..).trans (List.drop_sublist ..)))
  have marked := stealMarked_written u t v refs cva (frameDw2_length whole)
  rw [if_pos all] at marked
  have put := get_setAll_zip (stealThreads u t v refs cva).mem nodup (bytes := leBytes 8 (takenDw2 u t refs).toNat)
    (by rw [List.length_map, frameDw2_length whole, leBytes_length]) []
  rw [List.nil_append, List.map_map, ← marked.mem] at put
  exact put

theorem stealCounted_bytes (a : Agent) (d : Nat) {loc : Nat} (off : loc ∉ (frameDw2 refs).map (·.loc)) :
    getLoc (stealCounted u t v refs cva) a d loc = getLoc (stealHome u refs) a d loc := by
  have marked := stealMarked_written u t v refs cva (frameDw2_length whole)
  have counted : SameBytes (stealMarked u t v refs cva) (stealCounted u t v refs cva) := sameBytes_of rfl rfl rfl
  have kept : SameBytes (stealHome u refs) (stealThreads u t v refs cva) := by
    refine sameBytes_of ?_ ?_ ?_ <;> simp [stealThreads]
  rw [counted.bytesKept a d loc, marked.getLoc_off a d (fun inside => ?_), kept.bytesKept a d loc]
  split at inside
  · rw [zip_fst (by rw [List.length_map, frameDw2_length whole, leBytes_length])] at inside
    exact off inside
  · cases inside

end

/-! ### The placed task -/

section
variable (s : State) (t : Nat) (r : ReadyTask) (k : Kernel)

theorem placeTask_thr : thr (placeTask s t r k) t = startThread s r.ctx s.nextId (coreOf t)
    (if recScratch (gang s r.ctx r.gid).record = 0 then 0 else (findRun s (coreOf t) r.ctx (recScratch (gang s r.ctx r.gid).record)).getD 0)
    (gang s r.ctx r.gid).record (tileOf (gang s r.ctx r.gid).record r.tile) k.entry s.time := thr_setThr_self ..

/-- The registers of a task's thread as it starts (Table 5.1). -/
theorem startThread_regs (c id core off : Nat) (w : List Word) (tile : Nat × Nat × Nat) (entry time : Nat) (d : Reg) :
    (startThread s c id core off w tile entry time).hart.get d =
      if d = 1 then BitVec.ofNat 64 tile.1 else if d = 2 then BitVec.ofNat 64 tile.2.1
      else if d = 3 then BitVec.ofNat 64 tile.2.2 else if d = 4 then recW w 4 else 0 := by
  have zero : Hart.zero.get d = 0 := by simp [Hart.get, Hart.zero]
  change ((([(1, tile.1), (2, tile.2.1), (3, tile.2.2)].foldl (fun (h : Hart) p => h.set (BitVec.ofNat 6 p.1) (BitVec.ofNat 64 p.2))
    Hart.zero).set 4 (recW w 4)).get d) = _
  simp only [List.foldl_cons, List.foldl_nil, Hart.get_set, zero]
  by_cases h4 : d = 4
  · subst h4; rfl
  by_cases h3 : d = 3
  · subst h3; rfl
  by_cases h2 : d = 2
  · subst h2; rfl
  by_cases h1 : d = 1
  · subst h1; rfl
  simp only [BitVec.ofNat_eq_ofNat] at h1 h2 h3 h4
  simp [h1, h2, h3, h4]

/-- The segment registers of a task's thread as it starts (Table 5.1). -/
theorem startThread_segs (c id core off : Nat) (w : List Word) (tile : Nat × Nat × Nat) (entry time : Nat) (g : BitVec 3) :
    (startThread s c id core off w tile entry time).hart.segs[g.toNat] =
      if g = 0 then startSeg s c w 0
      else if g = 1 then (if recScratch w = 0 then Seg.empty else
        { base := BitVec.ofNat 48 (shareCva s core c + off), limit := BitVec.ofNat 48 (recScratch w), r := true, w := true, x := false, v := false })
      else if g = 2 then startSeg s c w 2 else Seg.empty := by
  have inside := g.isLt
  have eq (n : BitVec 3) : n.toNat = g.toNat ↔ g = n := ⟨fun h => (BitVec.eq_of_toNat_eq h).symm, fun h => h ▸ rfl⟩
  have zero : Hart.zero.segs[g.toNat] = Seg.empty := by simp [Hart.zero]
  simp only [startThread, List.foldl_cons, List.foldl_nil, Hart.set_segs, Vector.set!_eq_setIfInBounds, Vector.getElem_setIfInBounds]
  have e0 := eq 0
  have e1 := eq 1
  have e2 := eq 2
  simp only [BitVec.toNat_ofNat, Nat.reducePow, Nat.reduceMod, BitVec.ofNat_eq_ofNat] at e0 e1 e2
  simp only [e0, e1, e2, zero, BitVec.ofNat_eq_ofNat]
  by_cases h2 : g = 2#3
  · simp [h2]
  by_cases h1 : g = 1#3
  · simp [h1]
  simp [h1, h2]

theorem placeTask_task : task (placeTask s t r k) s.nextId =
    { ctx := r.ctx, gid := r.gid, x := (tileOf (gang s r.ctx r.gid).record r.tile).1, y := (tileOf (gang s r.ctx r.gid).record r.tile).2.1
      z := (tileOf (gang s r.ctx r.gid).record r.tile).2.2, kernel := k.entry, core := coreOf t
      runOff := (task (placeTask s t r k) s.nextId).runOff, runSize := recScratch (gang s r.ctx r.gid).record
      runPa := (task (placeTask s t r k) s.nextId).runPa, strands := 1, started := s.time, cvaCore := coreOf t
      share := (task (placeTask s t r k) s.nextId).share } := by
  have is {x : Task} (h : kfind (placeTask s t r k).tasks s.nextId = some x) : task (placeTask s t r k) s.nextId = x := by rw [task, kget, h]; rfl
  rw [is (kfind_kset_self ..)]

theorem placeTask_mem : (placeTask s t r k).mem = if recScratch (gang s r.ctx r.gid).record = 0 then s.mem
    else s.mem.zero (task (placeTask s t r k) s.nextId).runPa (recScratch (gang s r.ctx r.gid).record) := by
  have is {x : Task} (h : kfind (placeTask s t r k).tasks s.nextId = some x) : task (placeTask s t r k) s.nextId = x := by rw [task, kget, h]; rfl
  rw [is (kfind_kset_self ..)]
  rfl

end

/-! ### The obligation -/

/-- A steal once nothing stops it (R309). -/
theorem steal_clause {s : State} {v k : Nat} (apart : v ≠ s.msg.a) :
    let t := s.msg.a
    let cva := (thr s v).deque.headD 0
    let u := noteAttempt s t v
    let refs := stealRefs s t v k
    let h := frameHart (heapOf s (thr s v).ctx) (stealWords u t refs) (BitVec.ofNat 64 cva)
    let z := stealFrame u t v refs cva
    (thr z t).hart = h.1 ∧ (thr z t).ctx = (thr s v).ctx ∧ (thr z t).task = (thr s v).task ∧ (thr z t).cond = .ready ∧
      (thr z t).deque = [] ∧ (thr z t).vceil = 0 ∧ (h.2 = none → (thr z t).pendTrap = none) ∧
      (∀ i, h.2 = some i → ∃ j, (thr z t).pendTrap = some (2, segvInfo 4 i 0, (Config.openWord j).toNat)) ∧
      (thr z v).deque = (thr s v).deque.drop 1 ∧ (∀ j, j ≠ t → j ≠ v → kfind z.threads j = kfind s.threads j) ∧
      (task z (thr s v).task).strands = (task s (thr s v).task).strands + 1 ∧
      (∀ j, j ≠ (thr s v).task → kfind z.tasks j = kfind s.tasks j) ∧
      (refs.all (·.has) = true → (refs.map (·.loc)).Nodup →
        (frameDw2 refs).map (fun r => z.mem.get r.loc) = leBytes 8 (takenDw2 u t refs).toNat) ∧
      ∀ a d loc, loc ∉ (frameDw2 refs).map (·.loc) → getLoc z a d loc = getLoc (stealHome u refs) a d loc := by
  intro t cva u refs h z
  have whole : 24 ≤ refs.length := by
    have := frameSize_ge ((wordsAt { u with cur := .thread t } (refsOf u k cva 24)).getD 1 0)
    have length : refs.length = frameSize ((wordsAt { u with cur := .thread t } (refsOf u k cva 24)).getD 1 0) := by
      simp [refs, stealRefs, refsOf, span, u, cva, t]
    omega
  have victim : thr u v = { thr s v with thief := some (coreOf t) } := noteAttempt_victim s t v
  have hart : stealHart u t v refs cva = h := by rw [stealHart, victim]; rfl
  obtain ⟨good, bad, own, others, tasks, same⟩ := badFrame_spec (stealCounted u t v refs cva) t h.2
  have effect : stealFrame u t v refs cva = badFrame (stealCounted u t v refs cva) t h.2 := hart ▸ stealFrame_eq u t v refs cva
  rw [← effect] at good bad own others tasks same
  rw [stealCounted_thief whole, stolenThread, victim, hart] at good own
  have robbed := (others v apart).trans (stealCounted_robbed whole cva apart)
  have strands : z.tasks = _ := tasks.trans (stealCounted_tasks whole cva)
  rw [victim] at robbed strands
  refine ⟨by rw [own], by rw [own], by rw [own], by rw [own]; rfl, by rw [own]; rfl, by rw [own]; rfl, good, bad, ?_, fun j nt nv => ?_,
    ?_, fun j ne => ?_, fun has once => ?_, fun a d loc off => ?_⟩
  · rw [thr_of_kfind robbed]
  · rw [others j nt, stealCounted_others whole cva nt nv]
    exact noteAttempt_thr_ne s nv
  · rw [task, strands, kget_kset_self]
    rfl
  · rw [strands, kfind_kset_ne _ _ ne]
    rfl
  · rw [same.mem]
    exact stealCounted_mark whole cva has once
  · exact (same.bytesKept a d loc).trans (stealCounted_bytes whole cva a d off)

/-- Settles O51: the branches of the gang table and the dispatcher, the frame's mark at its home, and the thread as it is placed. -/
theorem taskEvents : Obligations.TaskEvents := by
  unfold Obligations.TaskEvents
  refine ⟨fun s => ⟨?_, ?_, ⟨fun dead => ⟨tileDraw_dead dead, dispatch_dead dead⟩, fun starts live => ⟨?_, ?_, ?_⟩⟩, ?_⟩, fun s t r k => ?_⟩
  · intro x g r rest runs here none_ free bound queue
    exact gangStart_port runs (placeSuccs_none here none_ 64) here free bound queue
  · intro x g r runs here waits free queue
    exact gangStart_succ runs here waits free queue
  · intro few soon g x draw
    exact tileDraw_draws starts live few soon draw
  · intro i r f t choice place kernel found
    exact dispatch_places starts live choice place kernel found
  · intro t rest empty free some_
    exact dispatch_steals starts live empty free some_
  · intro t e v bound free starts idle victim
    refine ⟨fun way => steal_yields bound free starts idle victim rfl way, fun way head all clean => ?_⟩
    exact ⟨_, steal_takes bound free starts idle victim rfl way head all clean, steal_clause (victimOf_ne victim)⟩
  · have thread := placeTask_thr s t r k
    have job := placeTask_task s t r k
    have mem := placeTask_mem s t r k
    dsimp only
    rw [thread]
    refine ⟨rfl, rfl, rfl, rfl, rfl, rfl, startThread_regs s _ _ _ _ _ _ _ _, fun g => ?_, by rw [job], by rw [job], by rw [job], by rw [job],
      by rw [job], fun i inside => ?_, fun a apart => ?_⟩
    · rw [startThread_segs]
      by_cases zero : recScratch (gang s r.ctx r.gid).record = 0
      · simp only [zero, if_pos]
      · simp only [zero, if_false]
    · rw [mem, if_neg (by omega), Memory.get_zero]
      exact if_pos ⟨by omega, by omega⟩
    · rw [mem]
      split
      · rfl
      · rw [Memory.get_zero]
        exact if_neg fun within => apart (a - (task (placeTask s t r k) s.nextId).runPa) (by omega) (by omega)

end Sys2Proof.Machine
end

section
/-! RESULT. Words and instructions (O1 to O3, O13): an instruction's word decodes to it, and a word that decodes is the word of what it
decodes to. -/

namespace Sys2Proof.Laws

/-! ### Words of instructions -/

/-- The word of every instruction that has one is read as the instruction. -/
theorem readWord_encode (i : Instr) : Enc.Statement i := by
  cases i with
  | add => exact Enc.add _ _ _
  | sub => exact Enc.sub _ _ _
  | mul => exact Enc.mul _ _ _
  | mulh => exact Enc.mulh _ _ _
  | mulhn => exact Enc.mulhn _ _ _
  | div => exact Enc.div _ _ _
  | divn => exact Enc.divn _ _ _
  | rem => exact Enc.rem _ _ _
  | remn => exact Enc.remn _ _ _
  | and => exact Enc.and _ _ _
  | or => exact Enc.or _ _ _
  | xor => exact Enc.xor _ _ _
  | andn => exact Enc.andn _ _ _
  | sll => exact Enc.sll _ _ _
  | srl => exact Enc.srl _ _ _
  | sra => exact Enc.sra _ _ _
  | rol => exact Enc.rol _ _ _
  | ror => exact Enc.ror _ _ _
  | min => exact Enc.min _ _ _
  | max => exact Enc.max _ _ _
  | minn => exact Enc.minn _ _ _
  | maxn => exact Enc.maxn _ _ _
  | cmpeq => exact Enc.cmpeq _ _ _
  | cmpne => exact Enc.cmpne _ _ _
  | cmplt => exact Enc.cmplt _ _ _
  | cmpltn => exact Enc.cmpltn _ _ _
  | csel => exact Enc.csel _ _ _ _
  | clz => exact Enc.clz _ _
  | ctz => exact Enc.ctz _ _
  | popc => exact Enc.popc _ _
  | bswap => exact Enc.bswap _ _
  | bext => exact Enc.bext _ _ _ _
  | bdep => exact Enc.bdep _ _ _ _
  | addi => exact Enc.addi _ _ _
  | muli => exact Enc.muli _ _ _
  | andi => exact Enc.andi _ _ _
  | ori => exact Enc.ori _ _ _
  | xori => exact Enc.xori _ _ _
  | slli => exact Enc.slli _ _ _
  | srli => exact Enc.srli _ _ _
  | srai => exact Enc.srai _ _ _
  | roli => exact Enc.roli _ _ _
  | cmpeqi => exact Enc.cmpeqi _ _ _
  | cmplti => exact Enc.cmplti _ _ _
  | cmpltni => exact Enc.cmpltni _ _ _
  | mini => exact Enc.mini _ _ _
  | maxi => exact Enc.maxi _ _ _
  | lih => exact Enc.lih _ _
  | lipc => exact Enc.lipc _ _
  | ldi32 => exact Enc.ldi32 _ _
  | ldi32N => exact Enc.ldi32N _ _
  | fadd => exact Enc.fadd _ _ _ _ _
  | fsub => exact Enc.fsub _ _ _ _ _
  | fmul => exact Enc.fmul _ _ _ _ _
  | fdiv => exact Enc.fdiv _ _ _ _ _
  | fsqrt => exact Enc.fsqrt _ _ _ _
  | fmadd => exact Enc.fmadd _ _ _ _ _ _
  | fmsub => exact Enc.fmsub _ _ _ _ _ _
  | fmin => exact Enc.fmin _ _ _ _
  | fmax => exact Enc.fmax _ _ _ _
  | fcmpeq => exact Enc.fcmpeq _ _ _ _
  | fcmplt => exact Enc.fcmplt _ _ _ _
  | fcmple => exact Enc.fcmple _ _ _ _
  | fclass => exact Enc.fclass _ _ _
  | fcvtfi => exact Enc.fcvtfi _ _ _ _
  | fcvtfn => exact Enc.fcvtfn _ _ _ _
  | fcvtif => exact Enc.fcvtif _ _ _ _
  | fcvtnf => exact Enc.fcvtnf _ _ _ _
  | fcvtff => exact Enc.fcvtff _ _ _ _ _
  | beq => exact Enc.beq _ _ _
  | bne => exact Enc.bne _ _ _
  | blt => exact Enc.blt _ _ _
  | bge => exact Enc.bge _ _ _
  | bltn => exact Enc.bltn _ _ _
  | bgen => exact Enc.bgen _ _ _
  | jmp => exact Enc.jmp _
  | call => exact Enc.call _ _
  | callr => exact Enc.callr _ _
  | ret => exact Enc.ret _
  | jmpr => exact Enc.jmpr _
  | ldB => exact Enc.ldB _ _
  | ldH => exact Enc.ldH _ _
  | ldW => exact Enc.ldW _ _
  | ldD => exact Enc.ldD _ _
  | ldBN => exact Enc.ldBN _ _
  | ldHN => exact Enc.ldHN _ _
  | ldWN => exact Enc.ldWN _ _
  | stB => exact Enc.stB _ _
  | stH => exact Enc.stH _ _
  | stW => exact Enc.stW _ _
  | stD => exact Enc.stD _ _
  | pref => exact Enc.pref _
  | amoadd => exact Enc.amoadd _ _ _
  | amoand => exact Enc.amoand _ _ _
  | amoor => exact Enc.amoor _ _ _
  | amoxor => exact Enc.amoxor _ _ _
  | amomin => exact Enc.amomin _ _ _
  | amomax => exact Enc.amomax _ _ _
  | amominn => exact Enc.amominn _ _ _
  | amomaxn => exact Enc.amomaxn _ _ _
  | amoswap => exact Enc.amoswap _ _ _
  | cas => exact Enc.cas _ _ _
  | fence => exact Enc.fence _
  | trap => exact Enc.trap _ _
  | ecall => exact Enc.ecall _
  | brk => exact Enc.brk _
  | csrr => exact Enc.csrr _ _
  | csrw => exact Enc.csrw _ _
  | csrs => exact Enc.csrs _ _
  | csrc => exact Enc.csrc _ _
  | time => exact Enc.time _
  | repart => exact Enc.repart _ _
  | rmver => exact Enc.rmver _
  | rmack => exact Enc.rmack _ _
  | rmread => exact Enc.rmread _ _ _
  | tracemark => exact Enc.tracemark _ _
  | segld => exact Enc.segld _ _
  | segst => exact Enc.segst _ _
  | pginv => exact Enc.pginv _ _
  | cflush => exact Enc.cflush _
  | cinv => exact Enc.cinv _
  | cclean => exact Enc.cclean _
  | retain => exact Enc.retain _ _ _ _
  | unpin => exact Enc.unpin _ _
  | viewaddr => exact Enc.viewaddr _ _ _ _
  | reginfo => exact Enc.reginfo _ _ _ _
  | atomlog => exact Enc.atomlog _ _ _
  | arrlog => exact Enc.arrlog _ _ _
  | rload => exact Enc.rload _ _ _
  | rstart => exact Enc.rstart _ _ _ _
  | rstop => exact Enc.rstop _ _
  | rstat => exact Enc.rstat _ _ _
  | cpy => exact Enc.cpy _ _
  | cpy2 => exact Enc.cpy2 _ _
  | cpyt => exact Enc.cpyt _ _
  | cpyg => exact Enc.cpyg _ _
  | cpyres => exact Enc.cpyres _
  | waitany => exact Enc.waitany _ _
  | waitall => exact Enc.waitall _ _
  | ffready => exact Enc.ffready _ _
  | tagclr => exact Enc.tagclr _
  | tagstat => exact Enc.tagstat _ _ _
  | sbinit => exact Enc.sbinit _ _
  | sbexp => exact Enc.sbexp _ _
  | sbwait => exact Enc.sbwait _ _ _
  | sbrel => exact Enc.sbrel _
  | sbstat => exact Enc.sbstat _ _ _
  | spawn => exact Enc.spawn _ _ _ _
  | retj => exact Enc.retj _
  | join => exact Enc.join _ _
  | joinq => exact Enc.joinq _ _
  | glaunch => exact Enc.glaunch _ _ _
  | gbar => exact Enc.gbar _
  | depinit => exact Enc.depinit _ _ _
  | deparm => exact Enc.deparm _ _ _ _
  | depsig => exact Enc.depsig _ _ _
  | taskid => exact Enc.taskid _ _
  | slotinfo => exact Enc.slotinfo _ _
  | wdset => exact Enc.wdset _ _
  | dualWord => exact Enc.dualWord _ _
  | smloop => exact Enc.smloop _ _ _
  | vreq => exact Enc.vreq _
  | vsetl => exact Enc.vsetl _
  | vyield => exact Enc.vyield _
  | qset => exact Enc.qset _
  | carryr => exact Enc.carryr _
  | carryw => exact Enc.carryw _
  | vld => exact Enc.vld _
  | vlds => exact Enc.vlds _
  | vldx => exact Enc.vldx _
  | vldq => exact Enc.vldq _
  | vldl => exact Enc.vldl _
  | vst => exact Enc.vst _
  | vsts => exact Enc.vsts _
  | vstx => exact Enc.vstx _
  | vstq => exact Enc.vstq _
  | vstl => exact Enc.vstl _
  | vldsx => exact Enc.vldsx _
  | vstsx => exact Enc.vstsx _
  | vamo => exact Enc.vamo _
  | vfadd => exact Enc.vfadd _
  | vfsub => exact Enc.vfsub _
  | vfmul => exact Enc.vfmul _
  | vfdiv => exact Enc.vfdiv _
  | vfsqrt => exact Enc.vfsqrt _
  | vfma => exact Enc.vfma _
  | vfms => exact Enc.vfms _
  | vfmin => exact Enc.vfmin _
  | vfmax => exact Enc.vfmax _
  | vfcmpeq => exact Enc.vfcmpeq _
  | vfcmplt => exact Enc.vfcmplt _
  | vfcmple => exact Enc.vfcmple _
  | vadd => exact Enc.vadd _
  | vsub => exact Enc.vsub _
  | vmul => exact Enc.vmul _
  | vmulh => exact Enc.vmulh _
  | vdiv => exact Enc.vdiv _
  | vrem => exact Enc.vrem _
  | vand => exact Enc.vand _
  | vor => exact Enc.vor _
  | vxor => exact Enc.vxor _
  | vsll => exact Enc.vsll _
  | vsrl => exact Enc.vsrl _
  | vsra => exact Enc.vsra _
  | vmin => exact Enc.vmin _
  | vmax => exact Enc.vmax _
  | vcmpeq => exact Enc.vcmpeq _
  | vcmplt => exact Enc.vcmplt _
  | vadds => exact Enc.vadds _
  | vsubs => exact Enc.vsubs _
  | vcvt => exact Enc.vcvt _
  | vperm => exact Enc.vperm _
  | vslideup => exact Enc.vslideup _
  | vslidedn => exact Enc.vslidedn _
  | vcompress => exact Enc.vcompress _
  | vbcast => exact Enc.vbcast _
  | vext => exact Enc.vext _
  | vredsum => exact Enc.vredsum _
  | vredmin => exact Enc.vredmin _
  | vredmax => exact Enc.vredmax _
  | vfredsum => exact Enc.vfredsum _
  | vfredmin => exact Enc.vfredmin _
  | vfredmax => exact Enc.vfredmax _
  | vrecur => exact Enc.vrecur _
  | mand => exact Enc.mand _
  | mor => exact Enc.mor _
  | mxor => exact Enc.mxor _
  | mnot => exact Enc.mnot _
  | mpopc => exact Enc.mpopc _
  | mfirst => exact Enc.mfirst _
  | mmode => exact Enc.mmode _
  | tshape => exact Enc.tshape _
  | mzero => exact Enc.mzero _
  | mopa => exact Enc.mopa _
  | mopa8 => exact Enc.mopa8 _
  | mops => exact Enc.mops _
  | mvacc => exact Enc.mvacc _
  | mvcol => exact Enc.mvcol _
  | mldacc => exact Enc.mldacc _
  | mspill => exact Enc.mspill _
  | mfill => exact Enc.mfill _
  | vmaxexp => exact Enc.vmaxexp _
  | vquant => exact Enc.vquant _
  | vdeq => exact Enc.vdeq _
  | eret => exact Enc.eret
  | yield => exact Enc.yield
  | tend => exact Enc.tend
  | wdkick => exact Enc.wdkick
  | hint => exact Enc.hint
  | vrel => exact Enc.vrel
  | mexit => exact Enc.mexit
  | vseed => exact Enc.vseed
  | saacq => exact Enc.saacq
  | sarel => exact Enc.sarel
  | saload => exact Enc.saload
  | saseed => exact Enc.saseed
  | sabeta => exact Enc.sabeta
  | saclamp => exact Enc.saclamp
  | sasweep => exact Enc.sasweep
  | saread => exact Enc.saread
  | sacount => exact Enc.sacount
  | sawait => exact Enc.sawait
  | saloadRun => exact Enc.saloadRun
  | saseedRun => exact Enc.saseedRun
  | sabetaRun => exact Enc.sabetaRun
  | sweep => exact Enc.sweep
  | saRegisterReturn => exact Enc.saRegisterReturn
  | entropyRetest => exact Enc.entropyRetest
  | launchRecord => exact Enc.launchRecord
  | portWriteOther => exact Enc.portWriteOther
  | gangStart => exact Enc.gangStart
  | tileDraw => exact Enc.tileDraw
  | dispatch => exact Enc.dispatch
  | taskStart => exact Enc.taskStart
  | steal => exact Enc.steal
  | gangEnd => exact Enc.gangEnd
  | wdog => exact Enc.wdog
  | quantumExpiry => exact Enc.quantumExpiry
  | slotTableWrite => exact Enc.slotTableWrite
  | unbind => exact Enc.unbind
  | unbindComplete => exact Enc.unbindComplete
  | resume => exact Enc.resume
  | lscfgWrite => exact Enc.lscfgWrite
  | victWrite => exact Enc.victWrite
  | loadResponse => exact Enc.loadResponse
  | atomicResponse => exact Enc.atomicResponse
  | vectorLoadArrival => exact Enc.vectorLoadArrival
  | matrixWordComplete => exact Enc.matrixWordComplete
  | chunkDone => exact Enc.chunkDone
  | chunkFault => exact Enc.chunkFault
  | pageReport => exact Enc.pageReport
  | wakeMessage => exact Enc.wakeMessage
  | scopeMissMessage => exact Enc.scopeMissMessage
  | acquireReissue => exact Enc.acquireReissue
  | grantWake => exact Enc.grantWake
  | sliceMove => exact Enc.sliceMove
  | laneLost => exact Enc.laneLost
  | slicePlaced => exact Enc.slicePlaced
  | unitError => exact Enc.unitError
  | mapChange => exact Enc.mapChange
  | ackDeadline => exact Enc.ackDeadline
  | dumpBuild => exact Enc.dumpBuild
  | hostWriteQueueDrain => exact Enc.hostWriteQueueDrain
  | hostWrite => exact Enc.hostWrite
  | hostRead => exact Enc.hostRead
  | peerAccess => exact Enc.peerAccess
  | ctxnew => exact Enc.ctxnew
  | ctxdel => exact Enc.ctxdel
  | load => exact Enc.load
  | map => exact Enc.map
  | unmap => exact Enc.unmap
  | region => exact Enc.region
  | regfree => exact Enc.regfree
  | mailboxRmack => exact Enc.mailboxRmack
  | mapread => exact Enc.mapread
  | logctl => exact Enc.logctl
  | dumpfree => exact Enc.dumpfree
  | trace => exact Enc.trace
  | errs => exact Enc.errs
  | attest => exact Enc.attest
  | mailboxOverflow => exact Enc.mailboxOverflow
  | tenantEnable => exact Enc.tenantEnable
  | dumpWindowSize => exact Enc.dumpWindowSize
  | allowanceSet => exact Enc.allowanceSet
  | firmwareUpdate => exact Enc.firmwareUpdate
  | operatorKey => exact Enc.operatorKey
  | signedStateRead => exact Enc.signedStateRead
  | powerGood => exact Enc.powerGood
  | clockStep => exact Enc.clockStep
  | powerSample => exact Enc.powerSample
  | temperatureRefresh => exact Enc.temperatureRefresh
  | thermalShutdown => exact Enc.thermalShutdown
  | linkRetrain => exact Enc.linkRetrain
  | storeAcknowledged => exact Enc.storeAcknowledged
  | pginvComplete => exact Enc.pginvComplete
  | packlinkLinkUp => exact Enc.packlinkLinkUp

/-- VSEED and the sampling words with operands have no word of their own, and no fields but those beside them. -/
theorem encode_of_saOpcode {i : Instr} (h : (saOpcode i).isSome = true) : encode i = none ∧ i.wf = true ∧ i ≠ .hint := by
  unfold saOpcode at h
  split at h
  any_goals exact ⟨rfl, rfl, nofun⟩
  cases h

/-- An instruction with a word of its own takes no fields beside it. -/
theorem saOpcode_of_encode {i : Instr} {w : Word} (h : encode i = some w) : saOpcode i = none := by
  cases e : saOpcode i with
  | none => rfl
  | some op => cases (encode_of_saOpcode (by rw [e]; rfl)).1.symm.trans h

/-- What names no opcode of those words admits any fields. -/
theorem saOk_of_saOpcode {i : Instr} (h : saOpcode i = none) (f : VFields) : saOk i f = true := by
  have free : saSpec i = none := by
    unfold saSpec
    split
    any_goals rfl
    all_goals cases h
  rw [saOk, free]

/-- A word of VSEED or of a sampling word is read as it, whatever its fields. -/
theorem ofVOp_of_saOpcode {i : Instr} {op : BitVec 10} (h : saOpcode i = some op) (f : VFields) : ofVOp op.toNat f = some i := by
  unfold saOpcode at h
  split at h
  all_goals cases h
  all_goals rfl

/-! ### Decoding -/

/-- A word that is read as an instruction whose encoding it is, and whose fields are admitted, decodes to it. -/
theorem decode_of_readWord {w : Word} {i : Instr} (read : readWord w = some i) (word : encodeWith i (vFields w) = some w)
    (wf : i.wf = true) (fields : saOk i (vFields w) = true) : decode w = .ok i := by
  simp [decode, read, word, wf, fields]

/-- What a word that decodes, and is no hint, has passed. -/
theorem encodeWith_of_decode {w : Word} {i : Instr} (h : decode w = .ok i) (word : i ≠ .hint) :
    encodeWith i (vFields w) = some w ∧ i.wf = true ∧ saOk i (vFields w) = true := by
  unfold decode at h
  split at h
  · cases h
  · next j _ =>
    split at h
    · next hint => cases h; exact absurd hint word
    · split at h
      · cases h
      · next same =>
        split at h
        · next ok =>
          cases h
          obtain ⟨wf, fields⟩ := Bool.and_eq_true_iff.mp ok
          exact ⟨not_not.mp same, wf, fields⟩
        · cases h

/-- A class S word of an opcode from 0x3C0 on is a hint (R44). -/
theorem decode_hint {w : Word} (s : w.extractLsb' 62 2 = 0) (op : 0x3C0 ≤ (w.extractLsb' 52 10).toNat) : decode w = .ok .hint := by
  have read : readWord w = some .hint := by
    rw [readWord, s]
    exact if_pos op
  rw [decode, read]
  exact if_pos rfl

end Sys2Proof.Laws

open Sys2Proof.Laws

namespace Sys2Proof.Machine

/-- Settles O1: the word of an instruction is read as it, and its fields are those encoded. -/
theorem decodeEncode : Obligations.DecodeEncode := by
  unfold Obligations.DecodeEncode
  refine ⟨fun i w wf word => ?_, fun i f w sampling fields word => ?_⟩
  · have own := saOpcode_of_encode word
    refine decode_of_readWord (readWord_encode i w word) ?_ wf (saOk_of_saOpcode own _)
    rw [encodeWith, own]
    exact word
  · obtain ⟨op, code⟩ := Option.isSome_iff_exists.mp sampling
    rw [encodeWith, code] at word
    cases word
    refine ⟨decode_of_readWord ?_ ?_ (encode_of_saOpcode sampling).2.1 ?_, vFields_wV op f⟩
    · rw [readWord_wV]
      exact ofVOp_of_saOpcode code f
    · rw [encodeWith, code, vFields_wV]
    · rw [vFields_wV]
      exact fields

/-- Settles O2: the decoder accepts only a word that is the encoding of what it reads. -/
theorem decodedWordIsEncoding : Obligations.DecodedWordIsEncoding := by
  unfold Obligations.DecodedWordIsEncoding
  exact fun w i h word => encodeWith_of_decode h word

/-- Settles O3: each word of the tables is evaluated. -/
theorem wordsDecode : Obligations.WordsDecode := by
  unfold Obligations.WordsDecode
  refine ⟨?_, ?_, ?_, ?_, ?_, ?_, ?_, ?_, ?_, ?_, ?_⟩
  all_goals decide +kernel

/-- Settles O13: a hint's opcode is read before its fields, and its meaning is to go on. -/
theorem hintIsNop : Obligations.HintIsNop := by
  unfold Obligations.HintIsNop
  exact ⟨fun w s op => decode_hint s op, rfl, fun s => ⟨_, issue_ok rfl advance, advance_nothing s⟩⟩

end Sys2Proof.Machine
end

section
/-! SUPPORT. The words that write one scalar register, and the values of the integer forms (R57, R137, R138). -/

namespace Sys2Proof.Machine

/-! ### Words that write one register -/

/-- A word that writes a register where it issues, and takes ILL elsewhere. -/
theorem wrote_of_issue {s : State} {ok : Bool} {d : Reg} {v : State → Word} {o : Out}
    (h : o = issue s ok (fun s => advance (setReg s d (v s)))) :
    (ok = true → ∃ t, o = .next t ∧ Wrote s t d (v s)) ∧ (ok = false → o = .next (takeIll s)) :=
  ⟨fun ok => ⟨_, h.trans (issue_ok ok _), advance_setReg_wrote s d (v s)⟩, fun ill => h.trans (issue_ill ill _)⟩

/-- The same word with its value written otherwise. -/
theorem issue_value (s : State) (ok : Bool) (d : Reg) {v v' : State → Word} (h : ∀ s, v s = v' s) :
    issue s ok (fun s => advance (setReg s d (v s))) = issue s ok (fun s => advance (setReg s d (v' s))) := by
  rw [funext h]

/-! ### Arithmetic of the forms -/

section
variable (x y : Word)

theorem word_add : x + y = BitVec.ofInt 64 (x.toInt + y.toInt) := by
  rw [BitVec.ofInt_add, BitVec.ofInt_toInt, BitVec.ofInt_toInt]

theorem word_mul : x * y = BitVec.ofInt 64 (x.toInt * y.toInt) := by
  rw [BitVec.ofInt_mul, BitVec.ofInt_toInt, BitVec.ofInt_toInt]

theorem word_sub : x - y = BitVec.ofInt 64 (x.toInt - y.toInt) := by
  apply BitVec.eq_of_toInt_eq
  rw [BitVec.toInt_sub, BitVec.toInt_ofInt]

theorem word_div : divS x y = if y = 0 then BitVec.allOnes 64 else BitVec.ofInt 64 (x.toInt.tdiv y.toInt) := by
  unfold divS
  refine if_congr Iff.rfl rfl (BitVec.eq_of_toInt_eq ?_)
  rw [BitVec.toInt_sdiv, BitVec.toInt_ofInt]

theorem word_divn : divN x y = if y = 0 then BitVec.allOnes 64 else BitVec.ofNat 64 (x.toNat / y.toNat) := by
  unfold divN
  refine if_congr Iff.rfl rfl (BitVec.eq_of_toNat_eq ?_)
  rw [BitVec.toNat_udiv, BitVec.toNat_ofNat, Nat.mod_eq_of_lt (lt_of_le_of_lt (Nat.div_le_self _ _) x.isLt)]

theorem word_rem : remS x y = if y = 0 then x else BitVec.ofInt 64 (x.toInt.tmod y.toInt) := by
  unfold remS
  refine if_congr Iff.rfl rfl ?_
  rw [← BitVec.toInt_srem, BitVec.ofInt_toInt]

theorem word_remn : remN x y = if y = 0 then x else BitVec.ofNat 64 (x.toNat % y.toNat) := by
  unfold remN
  refine if_congr Iff.rfl rfl (BitVec.eq_of_toNat_eq ?_)
  rw [BitVec.toNat_umod, BitVec.toNat_ofNat, Nat.mod_eq_of_lt (lt_of_le_of_lt (Nat.mod_le _ _) x.isLt)]

theorem word_sll (n : Nat) : x <<< n = BitVec.ofNat 64 (x.toNat * 2 ^ n) := by
  apply BitVec.eq_of_toNat_eq
  rw [BitVec.toNat_shiftLeft, Nat.shiftLeft_eq, BitVec.toNat_ofNat]

theorem word_srl (n : Nat) : x >>> n = BitVec.ofNat 64 (x.toNat / 2 ^ n) := by
  apply BitVec.eq_of_toNat_eq
  rw [BitVec.toNat_ushiftRight, Nat.shiftRight_eq_div_pow, BitVec.toNat_ofNat,
    Nat.mod_eq_of_lt (lt_of_le_of_lt (Nat.div_le_self _ _) x.isLt)]

theorem word_sra (n : Nat) : x.sshiftRight n = BitVec.ofInt 64 (x.toInt / 2 ^ n) := by
  rw [BitVec.sshiftRight, Int.shiftRight_eq_div_pow]
  norm_cast

theorem word_min : (if x.slt y then x else y) = BitVec.ofInt 64 (min x.toInt y.toInt) := by
  by_cases h : x.toInt < y.toInt
  · rw [if_pos (by simpa [BitVec.slt] using h), min_eq_left h.le, BitVec.ofInt_toInt]
  · rw [if_neg (by simpa [BitVec.slt] using h), min_eq_right (not_lt.mp h), BitVec.ofInt_toInt]

theorem word_max : (if x.slt y then y else x) = BitVec.ofInt 64 (max x.toInt y.toInt) := by
  by_cases h : x.toInt < y.toInt
  · rw [if_pos (by simpa [BitVec.slt] using h), max_eq_right h.le, BitVec.ofInt_toInt]
  · rw [if_neg (by simpa [BitVec.slt] using h), max_eq_left (not_lt.mp h), BitVec.ofInt_toInt]

theorem word_minn : (if x < y then x else y) = BitVec.ofNat 64 (min x.toNat y.toNat) := by
  by_cases h : x.toNat < y.toNat
  · rw [if_pos (BitVec.lt_def.mpr h), min_eq_left h.le, BitVec.ofNat_toNat, BitVec.setWidth_eq]
  · rw [if_neg (fun k => h (BitVec.lt_def.mp k)), min_eq_right (not_lt.mp h), BitVec.ofNat_toNat, BitVec.setWidth_eq]

theorem word_maxn : (if x < y then y else x) = BitVec.ofNat 64 (max x.toNat y.toNat) := by
  by_cases h : x.toNat < y.toNat
  · rw [if_pos (BitVec.lt_def.mpr h), max_eq_right h.le, BitVec.ofNat_toNat, BitVec.setWidth_eq]
  · rw [if_neg (fun k => h (BitVec.lt_def.mp k)), max_eq_left (not_lt.mp h), BitVec.ofNat_toNat, BitVec.setWidth_eq]

theorem bit_decide (p : Prop) [Decidable p] : bit (decide p) = if p then 1 else 0 := by
  by_cases h : p <;> simp [bit, h]

theorem word_eq : bit (x == y) = if x = y then 1 else 0 := by rw [← bit_decide]; rfl

theorem word_ne : bit (x != y) = if x = y then 0 else 1 := by
  by_cases h : x = y <;> simp [bit, h]

theorem word_lt : bit (x.slt y) = if x.toInt < y.toInt then 1 else 0 := bit_decide _

theorem word_ltn : bit (decide (x < y)) = if x.toNat < y.toNat then 1 else 0 := bit_decide _

/-- An immediate is its own value, sign-extended (R138). -/
theorem imm_toInt (v : BitVec 12) : (v.signExtend 64).toInt = v.toInt := BitVec.toInt_signExtend_of_le (by decide)

/-- An immediate shift amount is below 64. -/
theorem shamt_imm (n : BitVec 6) : shamt (n.zeroExtend 64) = n.toNat := by
  have := n.isLt
  unfold shamt
  rw [BitVec.zeroExtend, BitVec.toNat_setWidth]
  omega

theorem bextOp_lowMask (z : Word) : bextOp x y z = (x >>> (y.toNat % 64)) &&& lowMask z := rfl

/-- BDEP's field may be masked before or after it is shifted into place. -/
theorem bdepOp_lowMask (old z : Word) : bdepOp old x y z =
    (old &&& ~~~(lowMask z <<< (y.toNat % 64))) ||| ((x &&& lowMask z) <<< (y.toNat % 64)) := by
  rw [BitVec.shiftLeft_and_distrib]
  rfl

end

/-! ### The forms -/

theorem registerForms_issue {d a b : Reg} {p : Instr × (State → Word)} (h : p ∈ registerForms d a b) (s : State) :
    exec p.1 s = issue s (admits s true [d, a, b]) (fun s => advance (setReg s d (p.2 s))) := by
  obtain ⟨fn, word, value⟩ : ∃ fn, exec p.1 s = aluR fn d a b s ∧ ∀ s, binOp fn (reg s a) (reg s b) = p.2 s := by
    simp only [registerForms, List.mem_cons, List.not_mem_nil, or_false] at h
    rcases h with rfl | rfl | rfl | rfl | rfl | rfl | rfl | rfl | rfl | rfl | rfl | rfl | rfl | rfl | rfl | rfl | rfl | rfl | rfl | rfl |
      rfl | rfl | rfl | rfl | rfl | rfl
    · exact ⟨0x1, rfl, fun _ => word_add _ _⟩
    · exact ⟨0x2, rfl, fun _ => word_sub _ _⟩
    · exact ⟨0x3, rfl, fun _ => word_mul _ _⟩
    · exact ⟨0x4, rfl, fun _ => rfl⟩
    · exact ⟨0x5, rfl, fun _ => rfl⟩
    · exact ⟨0x6, rfl, fun _ => word_div _ _⟩
    · exact ⟨0x7, rfl, fun _ => word_divn _ _⟩
    · exact ⟨0x8, rfl, fun _ => word_rem _ _⟩
    · exact ⟨0x9, rfl, fun _ => word_remn _ _⟩
    · exact ⟨0xa, rfl, fun _ => rfl⟩
    · exact ⟨0xb, rfl, fun _ => rfl⟩
    · exact ⟨0xc, rfl, fun _ => rfl⟩
    · exact ⟨0xd, rfl, fun _ => rfl⟩
    · exact ⟨0xe, rfl, fun _ => word_sll _ _⟩
    · exact ⟨0xf, rfl, fun _ => word_srl _ _⟩
    · exact ⟨0x10, rfl, fun _ => word_sra _ _⟩
    · exact ⟨0x11, rfl, fun _ => rfl⟩
    · exact ⟨0x12, rfl, fun _ => rfl⟩
    · exact ⟨0x13, rfl, fun _ => word_min _ _⟩
    · exact ⟨0x14, rfl, fun _ => word_max _ _⟩
    · exact ⟨0x15, rfl, fun _ => word_minn _ _⟩
    · exact ⟨0x16, rfl, fun _ => word_maxn _ _⟩
    · exact ⟨0x17, rfl, fun _ => word_eq _ _⟩
    · exact ⟨0x18, rfl, fun _ => word_ne _ _⟩
    · exact ⟨0x19, rfl, fun _ => word_lt _ _⟩
    · exact ⟨0x1a, rfl, fun _ => word_ltn _ _⟩
  exact word.trans (issue_value s _ d value)

theorem unaryForms_issue {d a : Reg} {p : Instr × (State → Word)} (h : p ∈ unaryForms d a) (s : State) :
    exec p.1 s = issue s (admits s true [d, a]) (fun s => advance (setReg s d (p.2 s))) := by
  simp only [unaryForms, List.mem_cons, List.not_mem_nil, or_false] at h
  rcases h with rfl | rfl | rfl | rfl <;> rfl

theorem wideForms_issue {d a b c : Reg} {p : Instr × (State → Word)} (h : p ∈ wideForms d a b c) (s : State) :
    exec p.1 s = issue s (admits s true [d, a, b, c]) (fun s => advance (setReg s d (p.2 s))) := by
  simp only [wideForms, List.mem_cons, List.not_mem_nil, or_false] at h
  rcases h with rfl | rfl | rfl
  · change execCsel d a b c s = _
    exact issue_value s _ d fun s => ite_not ..
  · change execBext d a b c s = _
    exact issue_value s _ d fun s => bextOp_lowMask ..
  · change execBdep d a b c s = _
    exact issue_value s _ d fun s => bdepOp_lowMask ..

theorem immediateForms_issue {d a : Reg} {v : BitVec 12} {p : Instr × (State → Word)} (h : p ∈ immediateForms d a v) (s : State) :
    exec p.1 s = issue s (admits s true [d, a]) (fun s => advance (setReg s d (p.2 s))) := by
  obtain ⟨fn, word, value⟩ : ∃ fn, exec p.1 s = aluI fn d a v s ∧ ∀ s, binOp fn (reg s a) (v.signExtend 64) = p.2 s := by
    simp only [immediateForms, List.mem_cons, List.not_mem_nil, or_false] at h
    rcases h with rfl | rfl | rfl | rfl | rfl | rfl | rfl | rfl | rfl | rfl
    · exact ⟨0x1, rfl, fun s => by rw [← imm_toInt]; exact word_add _ _⟩
    · exact ⟨0x3, rfl, fun s => by rw [← imm_toInt]; exact word_mul _ _⟩
    · exact ⟨0xa, rfl, fun _ => rfl⟩
    · exact ⟨0xb, rfl, fun _ => rfl⟩
    · exact ⟨0xc, rfl, fun _ => rfl⟩
    · refine ⟨0x17, rfl, fun s => (word_eq _ _).trans (if_congr ?_ rfl rfl)⟩
      rw [← imm_toInt]
      exact BitVec.toInt_inj.symm
    · exact ⟨0x19, rfl, fun s => by rw [← imm_toInt]; exact word_lt _ _⟩
    · exact ⟨0x1a, rfl, fun _ => word_ltn _ _⟩
    · exact ⟨0x13, rfl, fun s => by rw [← imm_toInt]; exact word_min _ _⟩
    · exact ⟨0x14, rfl, fun s => by rw [← imm_toInt]; exact word_max _ _⟩
  exact word.trans (issue_value s _ d value)

theorem shiftForms_issue {d a : Reg} {n : BitVec 6} {p : Instr × (State → Word)} (h : p ∈ shiftForms d a n) (s : State) :
    exec p.1 s = issue s (admits s true [d, a]) (fun s => advance (setReg s d (p.2 s))) := by
  obtain ⟨fn, word, value⟩ : ∃ fn, exec p.1 s = aluSh fn d a n s ∧ ∀ s, binOp fn (reg s a) (n.zeroExtend 64) = p.2 s := by
    simp only [shiftForms, List.mem_cons, List.not_mem_nil, or_false] at h
    rcases h with rfl | rfl | rfl | rfl
    · exact ⟨0xe, rfl, fun s => by rw [← shamt_imm]; exact word_sll _ _⟩
    · exact ⟨0xf, rfl, fun s => by rw [← shamt_imm]; exact word_srl _ _⟩
    · exact ⟨0x10, rfl, fun s => by rw [← shamt_imm]; exact word_sra _ _⟩
    · exact ⟨0x11, rfl, fun s => by rw [← shamt_imm]; rfl⟩
  exact word.trans (issue_value s _ d value)

end Sys2Proof.Machine
end

section
/-! RESULT. Scalar registers and the integer forms (O10, O11). -/

namespace Sys2Proof.Machine

/-! ### Registers that an agent may name -/

theorem admits_one (s : State) (r : Reg) : admits s true [r] = true ↔ r.toNat < regCount s := by simp [admits]

theorem regCount_ret {s : State} {n : Nat} (h : s.cur = .ret n) : regCount s = 32 := by simp [regCount, h]

/-- A barrel thread has 32 registers in the service context and at 16 contexts per core, and 64 elsewhere (R28, R110). -/
theorem regCount_thread {s : State} {n : Nat} (h : s.cur = .thread n) :
    regCount s = if hwOf n = 16 ∨ (core s (coreOf n)).part = 16 then 32 else 64 := by
  unfold regCount
  rw [h]
  by_cases svc : hwOf n = 16 <;> simp [svc]

/-- Settles O10: a register of the hart after a write, and the count of registers by agent and partition. -/
theorem scalarRegisters : Obligations.ScalarRegisters := by
  unfold Obligations.ScalarRegisters
  refine ⟨fun s r d v => ⟨rfl, ?_, fun named => ?_, fun other => ?_⟩, fun s r => ⟨fun n cur => ?_, fun n cur svc => ?_, fun n cur task => ⟨?_, ?_⟩, ?_⟩⟩
  · rw [hart_setReg, Hart.set_zero]
  · rw [reg_setReg, if_pos ⟨rfl, named⟩]
  · rw [reg_setReg, if_neg fun h => other h.1]
  · rw [admits_one, regCount_ret cur]
  · rw [admits_one, regCount_thread cur, if_pos (.inl svc)]
  · intro part
    rw [admits_one, regCount_thread cur, if_pos (.inr part)]
  · intro part
    rw [admits_one, regCount_thread cur, if_neg (by simp [task, part])]
    exact r.isLt
  · intro retriever
    simp [admits, retriever]

end Sys2Proof.Machine

namespace Sys2Proof

open Machine in
/-- Settles O11: each form issues to write one register, with the value of its table. -/
theorem registerForms : Obligations.RegisterForms := by
  unfold Obligations.RegisterForms
  refine ⟨fun s d a b p h => wrote_of_issue (registerForms_issue h s), fun s d a b c => ⟨fun p h => wrote_of_issue (unaryForms_issue h s),
    fun p h => wrote_of_issue (wideForms_issue h s)⟩, fun s d a v n p h => ?_⟩
  rcases List.mem_append.mp h with h | h
  · exact wrote_of_issue (immediateForms_issue h s)
  · exact wrote_of_issue (shiftForms_issue h s)

end Sys2Proof
end

section
/-! RESULT. The scalar floating forms (O14). -/

namespace Sys2Proof.Machine

/-- A word that no Retriever may issue is a thread's. -/
theorem onRet_of_admits {s : State} {rs : List Reg} (h : admits s false rs = true) : onRet s = false := by
  simp only [admits, Bool.and_eq_true, Bool.false_or, Bool.not_eq_true'] at h
  exact h.2

/-- A floating word sets its flags, and takes FPE where one of them is enabled or else writes its result (R71, R72). -/
theorem fpu_spec (s : State) (d : Reg) (rs : List Reg) (rnd : BitVec 3) (op : State → RMode → Nat × Flags) :
    let ok := admits s false (d :: rs) && rndAdmits (my s) rnd
    let r := op s (modeOf (rndOf (my s) rnd))
    (ok = true → enabledOf (my s) &&& r.2 = 0 → ∃ u, fpu d rs rnd op s = .next u ∧ BytesKept s u ∧
      Retired s s u { reg := some (d, BitVec.ofNat 64 r.1), seg := none, pc := pcOf s + 8, thread := (addFlags · r.2) }) ∧
    (ok = true → enabledOf (my s) &&& r.2 ≠ 0 → fpu d rs rnd op s = .next (takeTrap (modMy s (addFlags · r.2)) 0xA r.2 0)) ∧
    (ok = false → fpu d rs rnd op s = .next (takeIll s)) := by
  refine ⟨fun ok quiet => ?_, fun ok raised => ?_, fun ill => issue_ill ill _⟩
  · have thread := onRet_of_admits (Bool.and_eq_true_iff.mp ok).1
    refine ⟨_, (issue_ok ok _).trans (congrArg _ (floatEnd_quiet quiet _)), (sameBytes_of ?_ ?_ ?_).bytesKept,
      advance_setReg_modMy_retired d _ _ (fun _ => ⟨rfl, rfl⟩) thread⟩ <;> simp
  · exact (issue_ok ok _).trans (congrArg _ (floatEnd_traps raised _))

/-- Each scalar floating form is the floating word of its operation. -/
theorem floatForms_fpu {d a b c : Reg} {t g : SFmt} {rnd : BitVec 3} {p : Instr × List Reg × BitVec 3 × (State → RMode → Nat × Flags)}
    (h : p ∈ floatForms d a b c t g rnd) (s : State) : ∃ rs, p.2.1 = d :: rs ∧ exec p.1 s = fpu d rs p.2.2.1 p.2.2.2 s := by
  simp only [floatForms, List.mem_cons, List.not_mem_nil, or_false] at h
  rcases h with rfl | rfl | rfl | rfl | rfl | rfl | rfl | rfl | rfl | rfl | rfl | rfl | rfl | rfl | rfl | rfl | rfl | rfl <;>
    exact ⟨_, rfl, rfl⟩

end Sys2Proof.Machine

namespace Sys2Proof

open Machine in
/-- Settles O14: every form is a floating word, whose end is one of three. -/
theorem floatForms : Obligations.FloatForms := by
  unfold Obligations.FloatForms
  intro s d a b c t g rnd p h
  obtain ⟨rs, regs, word⟩ := floatForms_fpu h s
  rw [word, regs]
  exact fpu_spec s d rs p.2.2.1 p.2.2.2

end Sys2Proof
end

section
/-! RESULT. Branches, jumps and calls (O15). -/

namespace Sys2Proof.Machine

/-! ### Links -/

theorem modHart_me (s : State) (f : Hart → Hart) : me (modHart s f) = me s := by
  unfold modHart me
  cases h : s.cur <;> simp [h]

theorem modHart_myCtx (s : State) (f : Hart → Hart) : myCtx (modHart s f) = myCtx s := by
  unfold myCtx my
  rw [modHart_me]
  unfold modHart
  split
  · next n _ =>
    by_cases same : me s = n
    · rw [same, thr_modThr_self]
    · rw [thr_modThr_ne s _ same]
  · rfl

/-- A trace entry is the same before a register is written as after it. -/
theorem trace_setReg (s : State) (d : Reg) (v : Word) (kind code : Nat) (data : Word) :
    trace (setReg s d v) kind code data = setReg (trace s kind code data) d v := by
  have entry : trace (setReg s d v) kind code data = pushTrace (setReg s d v) (myCore s)
      { time := s.time, kind := kind, code := code, ctx := myCtx s, hw := hwOf (me s), pc := pcOf s, data := data } := by
    unfold trace
    rw [pcOf_setReg, setReg, modHart_me, modHart_myCtx, modHart_time, myCore, myCore, modHart_cur]
  rw [entry]
  unfold setReg modHart
  cases h : s.cur <;> simp [h, trace, pushTrace, modThr, setThr, modRet, modCore, thr, ret, core]

/-- A word that writes its link register and goes on at a target (R142, R357). -/
theorem jump_linked (s : State) (d : Reg) (v target : Word) : Jumped s (jump (setReg s d v) target) (some (d, v)) target := by
  have linked (u : State) (h : SameAgents s u) : Retired s u (retire (setPc (setReg u d v) target))
      { reg := some (d, v), seg := none, pc := target, thread := id } := by
    rw [setReg, setPc, modHart_modHart]
    exact retired_modHart h _ _ (fun _ => rfl) (fun r => Hart.get_set _ _ _ _) (fun g => by simp [seg]) rfl
  have onward : (if target = pcOf (setReg s d v) + 8 || onRet (setReg s d v) then setReg s d v else trace (setReg s d v) 1 0 target) =
      setReg (if target = pcOf s + 8 ∨ onRet s = true then s else trace s 1 0 target) d v := by
    have same : onRet (setReg s d v) = onRet s := by unfold onRet setReg; rw [modHart_cur]
    rw [pcOf_setReg, same, trace_setReg, apply_ite (setReg · d v)]
    simp
  unfold jump Jumped
  dsimp only
  rw [onward]
  split
  · exact ⟨linked s (.refl s), (sameBytes_of (by simp [setReg]) (by simp [setReg]) (by simp [setReg])).bytesKept⟩
  · exact ⟨linked _ ⟨rfl, rfl, rfl⟩, (sameBytes_of (by simp [setReg]) (by simp [setReg]) (by simp [setReg])).bytesKept⟩

/-! ### Targets and conditions -/

/-- A target some words from the PC, as a signed count of words gives it. -/
theorem relTarget_eq (s : State) {n : Nat} (off : BitVec n) (h : n ≤ 64) :
    relTarget s (off.signExtend 64) = pcOf s + BitVec.ofInt 64 (off.toInt * 8) := by
  unfold relTarget
  rw [← BitVec.toInt_signExtend_of_le h, BitVec.ofInt_mul, BitVec.ofInt_toInt]
  rfl

/-- A multiple of 8 has its low three bits clear. -/
theorem low3_eq_zero (x : Word) : x.extractLsb' 0 3 = 0 ↔ x.toNat % 8 = 0 := by
  rw [← BitVec.toNat_inj, BitVec.extractLsb'_toNat]
  simp

theorem jumpReg_misaligned {s : State} {a : Reg} (h : (reg s a).toNat % 8 ≠ 0) (link : Option Reg) :
    jumpReg s link a = takeTrap s 3 (3 * 128) (reg s a) := if_pos fun low => h ((low3_eq_zero _).mp low)

theorem jumpReg_link {s : State} {a : Reg} (h : (reg s a).toNat % 8 = 0) (d : Reg) :
    jumpReg s (some d) a = jump (setReg s d (pcOf s + 8)) (reg s a) := if_neg (not_not.mpr ((low3_eq_zero _).mpr h))

theorem jumpReg_none {s : State} {a : Reg} (h : (reg s a).toNat % 8 = 0) : jumpReg s none a = jump s (reg s a) :=
  if_neg (not_not.mpr ((low3_eq_zero _).mpr h))

/-- Each compare-and-branch form is a branch of its condition. -/
theorem branchForms_branch {d a : Reg} {off : BitVec 20} {p : Instr × (State → Bool)} (h : p ∈ branchForms d a off) (s : State) :
    exec p.1 s = issue s (admits s true [d, a]) (fun s => if p.2 s then jump s (relTarget s (off.signExtend 64)) else advance s) := by
  obtain ⟨k, word, cond⟩ : ∃ k, exec p.1 s = branch k d a off s ∧ ∀ s, branchCond k (reg s d) (reg s a) = p.2 s := by
    simp only [branchForms, List.mem_cons, List.not_mem_nil, or_false] at h
    rcases h with rfl | rfl | rfl | rfl | rfl | rfl
    · exact ⟨0, rfl, fun s => beq_eq_decide _ _⟩
    · exact ⟨1, rfl, fun s => by simp [branchCond, bne, beq_eq_decide]⟩
    · exact ⟨2, rfl, fun s => rfl⟩
    · exact ⟨3, rfl, fun s => (decide_not ..).symm.trans (decide_eq_decide.mpr not_lt)⟩
    · exact ⟨4, rfl, fun s => rfl⟩
    · exact ⟨5, rfl, fun s => (decide_not ..).symm.trans (decide_eq_decide.mpr Nat.not_lt)⟩
  rw [word, branch]
  simp only [cond]

/-! ### The words -/

section
variable (s : State) (d a : Reg) (off : BitVec 32)

theorem exec_jmp : exec (.jmp off) s = issue s (admits s false []) (fun s => jump s (relTarget s (off.signExtend 64))) := rfl
theorem exec_call : exec (.call d off) s =
    issue s (admits s false [d]) (fun s => jump (setReg s d (pcOf s + 8)) (relTarget s (off.signExtend 64))) := rfl
theorem exec_callr : exec (.callr d a) s = issue s (admits s true [d, a]) (fun s => jumpReg s (some d) a) := rfl
theorem exec_ret : exec (.ret a) s = issue s (admits s true [a]) (fun s => jumpReg s none a) := rfl
theorem exec_jmpr : exec (.jmpr a) s = issue s (admits s true [a]) (fun s => jumpReg s none a) := rfl

end

/-- Settles O15: a branch jumps where its condition holds; a jump takes its target from the PC or from an aligned register. -/
theorem branchesAndJumps : Obligations.BranchesAndJumps := by
  unfold Obligations.BranchesAndJumps
  refine ⟨fun s d a off p h => ?_, fun s d a off => ?_⟩
  · rw [branchForms_branch h]
    refine ⟨fun ok => ⟨_, issue_ok ok _, ?_⟩, fun ill => issue_ill ill _⟩
    split
    · rw [← relTarget_eq s off (by decide)]
      exact jump_jumped s _
    · exact advance_nothing s
  · rw [← relTarget_eq s off (by decide), exec_jmp, exec_call, exec_callr, exec_ret, exec_jmpr]
    refine ⟨fun ok => ⟨_, issue_ok ok _, jump_jumped s _⟩, fun ok => ⟨_, issue_ok ok _, jump_linked s d _ _⟩, fun ok even => ?_,
      fun ok even => ?_, fun ok odd => ?_, fun ok odd => ?_, fun ill => issue_ill ill _, fun ill => issue_ill ill _,
      fun ill => issue_ill ill _, fun ill => ⟨issue_ill ill _, issue_ill ill _⟩⟩
    · exact ⟨_, (issue_ok ok _).trans (congrArg _ (jumpReg_link even d)), jump_linked s d _ _⟩
    · have went := (issue_ok ok (fun s => jumpReg s none a)).trans (congrArg _ (jumpReg_none even))
      exact ⟨⟨_, went, jump_jumped s _⟩, _, went, jump_jumped s _⟩
    · exact (issue_ok ok _).trans (congrArg _ (jumpReg_misaligned odd _))
    · have trapped := (issue_ok ok (fun s => jumpReg s none a)).trans (congrArg _ (jumpReg_misaligned odd none))
      exact ⟨trapped, trapped⟩

end Sys2Proof.Machine
end

section
/-! RESULT. Control and status registers (O22). -/

namespace Sys2Proof.Machine

/-! ### The registers of Tables 5.5, 5.6 and 5.8 -/

/-- What a write leaves in FCSR, with its rounding mode read as a field (R70). -/
theorem writeFcsr_eq (old v : Word) :
    writeFcsr old v = ((if (v.extractLsb' 13 3).toNat < 5 then v else old) &&& 0xE000) ||| (v &&& 0x1F1F) := by
  have mode : field v 13 3 = (v.extractLsb' 13 3).toNat := by
    rw [field, BitVec.extractLsb'_toNat, Nat.shiftRight_eq_div_pow]
  unfold writeFcsr
  rw [mode]
  split <;> rfl

section
variable {s : State}

/-- A register of Table 5.5 is read where the level admits it. -/
theorem readCsr_form {p : BitVec 12 × Bool × Word} (h : p ∈ csrForms s) :
    (∃ b, ((p.2.1 = true → atS s = true) → readCsr s p.1.toNat = some (p.2.2, b))) ∧
      (p.2.1 = true → atS s = false → readCsr s p.1.toNat = none) := by
  simp only [csrForms, List.mem_cons, List.not_mem_nil, or_false] at h
  have high (r : Option (Word × Bool)) (ok : true = true → atS s = true) : (if atS s then r else none) = r := if_pos (ok rfl)
  have low (r : Option (Word × Bool)) (denied : atS s = false) : (if atS s then r else none) = none := if_neg (by simp [denied])
  rcases h with rfl | rfl | rfl | rfl | rfl | rfl | rfl | rfl | rfl | rfl | rfl | rfl | rfl | rfl | rfl | rfl | rfl | rfl
  iterate 11 exact ⟨⟨_, fun _ => rfl⟩, fun super => nomatch super⟩
  all_goals exact ⟨⟨_, high _⟩, fun _ => low _⟩

/-- What may be read is a register of Table 5.5 that the level admits. -/
theorem readCsr_some {csr : BitVec 12} {v : Word} {b : Bool} (h : readCsr s csr.toNat = some (v, b)) :
    csr ∈ (csrForms s).map (·.1) := by
  have named {n : Nat} (e : csr.toNat = n) (mem : BitVec.ofNat 12 n ∈ (csrForms s).map (·.1)) : csr ∈ (csrForms s).map (·.1) := by
    rwa [← e, BitVec.ofNat_toNat, BitVec.setWidth_eq] at mem
  unfold readCsr at h
  dsimp only at h
  split at h
  case h_19 => cases h
  all_goals next e => exact named e (by simp [csrForms])

/-- A register that may be written is read with its value, where the level admits it, and takes what Tables 5.6, 5.8 and 3.3 say. -/
theorem readCsr_write {p : BitVec 12 × Bool × Word × (Word → Thread → Thread)} (h : p ∈ csrWrites s) (ok : p.2.1 = true → atS s = true) :
    readCsr s p.1.toNat = some (p.2.2.1, true) ∧ ∀ v, writeCsr p.1.toNat v = p.2.2.2 v := by
  simp only [csrWrites, List.mem_cons, List.not_mem_nil, or_false] at h
  rcases h with rfl | rfl | rfl | rfl | rfl | rfl
  · exact ⟨rfl, fun v => funext fun x => congrArg (fun w => { x with fcsr := w }) (writeFcsr_eq x.fcsr v)⟩
  all_goals exact ⟨if_pos (ok rfl), fun _ => rfl⟩

/-- What may be written is one of those registers, and the level admits it. -/
theorem readCsr_writable {csr : BitVec 12} {v : Word} (h : readCsr s csr.toNat = some (v, true)) :
    ∃ super, (csr, super) ∈ (csrWrites s).map (fun p => (p.1, p.2.1)) ∧ (super = true → atS s = true) := by
  have high {w : Word} {b : Bool} (k : (if atS s then some (w, b) else none) = some (v, true)) : atS s = true ∧ b = true := by
    split at k
    · cases k; exact ⟨‹_›, rfl⟩
    · cases k
  have named {n : Nat} (e : csr.toNat = n) : csr = BitVec.ofNat 12 n := by rw [← e, BitVec.ofNat_toNat, BitVec.setWidth_eq]
  unfold readCsr at h
  dsimp only at h
  split at h
  case h_1 e => rw [named e]; exact ⟨false, by simp [csrWrites], nofun⟩
  case h_12 e => rw [named e]; exact ⟨true, by simp [csrWrites], fun _ => (high h).1⟩
  case h_14 e => rw [named e]; exact ⟨true, by simp [csrWrites], fun _ => (high h).1⟩
  case h_15 e => rw [named e]; exact ⟨true, by simp [csrWrites], fun _ => (high h).1⟩
  case h_16 e => rw [named e]; exact ⟨true, by simp [csrWrites], fun _ => (high h).1⟩
  case h_17 e => rw [named e]; exact ⟨true, by simp [csrWrites], fun _ => (high h).1⟩
  case h_13 => cases (high h).2
  case h_18 => cases (high h).2
  all_goals cases h

end

/-! ### The words -/

section
variable {s : State} {csr : BitVec 12}

/-- What a write of a control register does, for CSRW, CSRS and CSRC alike. -/
theorem csrWrite_ill {a : Reg} (f : Word → Word → Word)
    (h : admits s false [a] = false ∨ ∀ v, readCsr s csr.toNat ≠ some (v, true)) : csrWrite csr a f s = .next (takeIll s) := by
  unfold csrWrite
  split
  · next e => exact issue_ill (h.resolve_right fun none_ => none_ _ e) _
  · rfl

theorem csrWrite_ok {a : Reg} {old : Word} (f : Word → Word → Word) (ok : admits s false [a] = true)
    (h : readCsr s csr.toNat = some (old, true)) : csrWrite csr a f s = .next (if csrWaits s csr.toNat then waitHere s
      else advance (modMy s (writeCsr csr.toNat (f old (reg s a))))) := by
  unfold csrWrite
  rw [h]
  exact issue_ok ok _

theorem csrWaits_of (h : csr = 1 → (my s).mqueue = []) : csrWaits s csr.toNat = false := by
  by_cases one : csr = 1
  · simp [csrWaits, h one]
  · have : csr.toNat ≠ 1 := fun e => one (BitVec.eq_of_toNat_eq e)
    simp [csrWaits, this]

theorem csrWaits_fcsr (busy : (my s).mqueue ≠ []) : csrWaits s (1 : BitVec 12).toNat = true := by simp [csrWaits, busy]

theorem execCsrr_some {d : Reg} {v : Word} {b : Bool} (ok : admits s false [d] = true) (h : readCsr s csr.toNat = some (v, b)) :
    execCsrr d csr s = .next (if csrWaits s csr.toNat then waitHere s else advance (setReg s d v)) := by
  unfold execCsrr
  rw [h]
  exact issue_ok ok _

theorem execCsrr_ill {d : Reg} (h : admits s false [d] = false ∨ readCsr s csr.toNat = none) : execCsrr d csr s = .next (takeIll s) := by
  unfold execCsrr
  split
  · next e => exact issue_ill (h.resolve_right fun none_ => nomatch e.symm.trans none_) _
  · rfl

theorem writeCsr_fields (n : Nat) (v : Word) (x : Thread) : (writeCsr n v x).hart = x.hart ∧ (writeCsr n v x).instret = x.instret := by
  unfold writeCsr
  split <;> exact ⟨rfl, rfl⟩

/-- A control register written (R126). -/
theorem csrWrite_changed {a : Reg} (f : Word → Word → Word) (ok : admits s false [a] = true)
    {p : BitVec 12 × Bool × Word × (Word → Thread → Thread)} (h : p ∈ csrWrites s) (level : p.2.1 = true → atS s = true)
    (idle : p.1 = 1 → (my s).mqueue = []) :
    ∃ t, csrWrite p.1 a f s = .next t ∧ ChangedOwn s t (p.2.2.2 (f p.2.2.1 (reg s a))) := by
  obtain ⟨read, put⟩ := readCsr_write h level
  refine ⟨_, csrWrite_ok f ok read, ?_⟩
  rw [csrWaits_of idle, ← put]
  exact advance_modMy_changed s _ (writeCsr_fields _ _)

end

section
variable (s : State) (d a : Reg) (csr : BitVec 12)

theorem exec_csrr : exec (.csrr d csr) s = execCsrr d csr s := rfl
theorem exec_csrw : exec (.csrw csr a) s = csrWrite csr a (fun _ x => x) s := rfl
theorem exec_csrs : exec (.csrs csr a) s = csrWrite csr a (fun old x => old ||| x) s := rfl
theorem exec_csrc : exec (.csrc csr a) s = csrWrite csr a (fun old x => old &&& ~~~x) s := rfl

end

/-- Settles O22: a number is read or written where it names a register that the level admits, and is illegal elsewhere. -/
theorem controlRegisters : Obligations.ControlRegisters := by
  unfold Obligations.ControlRegisters
  simp only [exec_csrr, exec_csrw, exec_csrs, exec_csrc]
  refine ⟨fun s d csr => ⟨fun ill => ?_, fun ok busy => ?_⟩, fun s d csr ok => ⟨fun p h level idle => ?_, fun p h super low => ?_, fun none_ => ?_⟩,
    fun s a csr ok => ⟨fun p h level idle => ⟨csrWrite_changed _ ok h level idle, csrWrite_changed _ ok h level idle, csrWrite_changed _ ok h level idle⟩, fun denied => ?_⟩⟩
  · exact ⟨execCsrr_ill (.inl ill), csrWrite_ill _ (.inl ill), csrWrite_ill _ (.inl ill), csrWrite_ill _ (.inl ill)⟩
  · have waits (t : State) : (if csrWaits s (1 : BitVec 12).toNat then waitHere s else t) = waitHere s := if_pos (csrWaits_fcsr busy)
    have write (f : Word → Word → Word) : csrWrite 1 d f s = .next (waitHere s) :=
      (csrWrite_ok f ok rfl).trans (congrArg _ (waits _))
    exact ⟨(execCsrr_some ok rfl).trans (congrArg _ (waits _)), write _, write _, write _⟩
  · obtain ⟨⟨b, read⟩, -⟩ := readCsr_form h
    refine ⟨_, execCsrr_some ok (read level), ?_⟩
    rw [csrWaits_of idle]
    exact advance_setReg_wrote s d p.2.2
  · exact execCsrr_ill (.inr ((readCsr_form h).2 super low))
  · refine execCsrr_ill (.inr ?_)
    cases e : readCsr s csr.toNat with
    | none => rfl
    | some r => exact absurd (readCsr_some e) none_
  · have ill (f : Word → Word → Word) : csrWrite csr a f s = .next (takeIll s) := by
      refine csrWrite_ill f (.inr fun v read => ?_)
      obtain ⟨_, mem, level⟩ := readCsr_writable read
      obtain ⟨p, h, e⟩ := List.mem_map.mp mem
      cases e
      obtain ⟨super, low⟩ := denied p h rfl
      exact absurd ((level super).symm.trans low) (by simp)
    exact ⟨ill _, ill _, ill _⟩

end Sys2Proof.Machine
end

section
/-! RESULT. Traps (O20), refuted: nothing in it asks that a thread number names one record. -/

namespace Sys2Proof.Machine

/-- Thread 0 of context 0 issues, while the number of the core's service context names two records: the first of context 0, the second of
context 1. -/
def trapBesideDoubled : State := { doubledService with cur := .thread 0 }

/-- As thread 0's INTEG freezes context 0, the record of its service context goes, and the one behind it, which may issue, comes to stand
under the number. -/
theorem trapBesideDoubled_runs : agentCtx trapBesideDoubled (.thread 16) = myCtx trapBesideDoubled ∧
    runnable (takeTrap trapBesideDoubled 5 0 0) (.thread 16) = true := ⟨rfl, rfl⟩

/-- Refutes O20, by its clause that no agent of a context runs again once a fatal trap has frozen it: the freeze drops the context's
service context from the threads, and where another record stands under the same number, that one is found there and may issue. The
statement holds no hypothesis that the keys of the threads rise. -/
theorem not_traps : ¬ Obligations.Traps := by
  unfold Obligations.Traps
  intro h
  obtain ⟨-, -, -, fatal⟩ := h
  obtain ⟨-, -, stopped, -⟩ := (fatal trapBesideDoubled 5 0 0).1 0 expiredCtx rfl (by decide) rfl rfl (.inl rfl)
  obtain ⟨inside, runs⟩ := trapBesideDoubled_runs
  rw [stopped (.thread 16) inside] at runs
  exact Bool.false_ne_true runs

end Sys2Proof.Machine
end

section
/-! RESULT. What a fetch reads, and what an undecodable word or a cause of the fetch takes (O5). -/

namespace Sys2Proof.Machine

/-- A word that decodes to nothing takes ILL in its turn. -/
theorem issueWord_of_undecodable {s : State} {a : Agent} {d : Bool} {w : Word} {e : DecodeError}
    (free : dueTrap (turnOf s a d) = none) (fetched : fetch (turnOf s a d) = .ok w) (decoded : decode w = .error e) :
    issueWord s a d = .next (forgetPage (takeIll { turnOf s a d with ir := w }) a) := by
  simp [issueWord, takeSlot_eq_turnOf, free, runWord, fetched, decoded]

/-- A cause that the fetch meets is taken in place of the word. -/
theorem issueWord_of_cause {s : State} {a : Agent} {d : Bool} {c : Cause} (free : dueTrap (turnOf s a d) = none)
    (stopped : fetch (turnOf s a d) = .error c) :
    issueWord s a d = .next (forgetPage (takeCause (turnOf s a d) c) a) := by
  simp [issueWord, takeSlot_eq_turnOf, free, runWord, stopped]

/-- The bytes that an access of the issuing agent reads where they are served. -/
theorem bytesOf_served (s : State) (refs : List ByteRef) :
    bytesOf (served s refs) refs = refs.map (readRef (served s refs) s.cur (myDie s)) := by
  have same := (served_homes s refs).sameAgents
  rw [bytesOf, same.cur, same.myDie]

/-- The fetch of a barrel thread, by its causes in the order in which they are looked at. -/
theorem fetch_thread {s : State} {n : Nat} (h : s.cur = .thread n) :
    fetch s =
      match segCheck (seg s 0) 0 (pcOf s).toNat 8 3 with
      | some c => .error c
      | none =>
        if (pcOf s).toNat % 8 ≠ 0 then .error (alignCause 3 (pcOf s)) else
        match judge s (chkOf s 0 3) (span ((seg s 0).base.toNat + (pcOf s).toNat) 8) with
        | some c => .error c
        | none =>
          if (underRefs s (accessRefs s 0 (pcOf s) 8)).any (poisoned s) then .error (.trap 5 0 0 false)
          else .ok (BitVec.ofNat 64 (leNat (bytesOf (served s (accessRefs s 0 (pcOf s) 8)) (accessRefs s 0 (pcOf s) 8)))) := by
  rw [bytesOf_served]
  simp only [fetch, h]
  rfl

theorem fetch_ret {s : State} {n : Nat} (h : s.cur = .ret n) :
    fetch s = .ok ((ret s n).program.getD ((pcOf s).toNat / 8) 0) := by
  simp [fetch, h]

/-- Settles O5, by the causes of a fetch in their order. -/
theorem fetchAndItsCauses : Obligations.FetchAndItsCauses := by
  refine ⟨fun s s0 a d turn => ?_, fun s n cur => ?_, fun s n w cur held => ?_⟩
  · intro s1 free
    rw [step_of_takesTurn turn]
    exact ⟨fun w e fetched decoded => issueWord_of_undecodable free fetched decoded,
      fun c stopped => issueWord_of_cause free stopped⟩
  · intro refs
    rw [fetch_thread cur]
    refine ⟨fun c stops => by rw [stops], fun inside => ?_⟩
    rw [inside]
    refine ⟨fun odd => by simp only [if_pos odd, alignCause], fun aligned => ?_⟩
    rw [if_neg (not_not_intro aligned)]
    refine ⟨fun c stops => by rw [stops], fun mapped clean => ?_, fun mapped bad => ?_⟩
    · rw [mapped]
      exact if_neg (Bool.eq_false_iff.mp clean)
    · rw [mapped]
      exact if_pos bad
  · rw [fetch_ret cur, List.getD_eq_getElem?_getD, held, Option.getD_some]

end Sys2Proof.Machine
end

section
/-! SUPPORT. What a scalar load does where it does not go on: it waits, its response stays outstanding, its acquire is held, or a byte
is poisoned (R84, R93, R121, R282); and what a load's bytes are worth. -/

namespace Sys2Proof.Machine

section
variable {s : State} {sg : BitVec 3} {off : Word} {n al : Nat} {acq : Bool} {hint : Hint} {wait : Nat → List Nat → Bool → Await}
variable {fin : State → List Byte → State}

theorem loadPath_waits (cause : scalarCause s sg off n 0 al = none)
    (first : (accessRefs s sg off n).any (fun r => mustWait s s.cur s.stores r.kind false [] none) = true) :
    loadPath s sg off n al acq hint wait fin = waitHere s := by
  unfold loadPath
  rw [cause]
  exact if_pos first

theorem loadPath_defers (h : LoadReady s sg off n al) (late : s.defer = true) :
    loadPath s sg off n al acq hint wait fin =
      owe (setCond (touchLoad s s.cur (accessRefs s sg off n) hint) (.awaiting (wait ((seg s sg).base.toNat + off.toNat)
        ((accessRefs s sg off n).map (·.pa)) (acq && (accessRefs s sg off n).any (fun r => r.kind != 2)))))
        [evA .loadResponse s.cur] := by
  unfold loadPath
  rw [h.cause]
  exact (if_neg (Bool.eq_false_iff.mp h.order)).trans (if_pos late)

theorem loadPath_reads (h : LoadReady s sg off n al) (now : s.defer = false) :
    loadPath s sg off n al acq hint wait fin =
      readBytes s acq (accessRefs s sg off n) (fun u bytes => fin (touchLoad u u.cur (accessRefs s sg off n) hint) bytes) := by
  unfold loadPath
  rw [h.cause]
  exact (if_neg (Bool.eq_false_iff.mp h.order)).trans (if_neg (Bool.eq_false_iff.mp now))

/-- A load whose response stays outstanding is accepted: only caches have changed, and its agent awaits the value. -/
theorem loadPath_awaits (h : LoadReady s sg off n al) (late : s.defer = true) :
    ∃ u t, loadPath s sg off n al acq hint wait fin = t ∧ CachesOnly s u ∧ BytesKept s t ∧
      Awaits s u t (wait ((seg s sg).base.toNat + off.toNat) ((accessRefs s sg off n).map (·.pa))
        (acq && (accessRefs s sg off n).any (fun r => r.kind != 2))) .loadResponse := by
  have touched := touchLoad_lines s s.cur (accessRefs s sg off n) hint
  refine ⟨_, _, loadPath_defers h late, touched.cachesOnly, ?_, awaits_of touched.sameAgents _ _⟩
  exact touched.sameBytes.bytesKept.trans (sameBytes_of (by simp) (by simp) (by simp)).bytesKept

theorem readBytes_held {refs : List ByteRef} {g : Nat} {m : Mark} (acquires : acq = true)
    (marked : missOf s s.cur (acqLocs s refs) = some (g, m)) : readBytes s acq refs fin = holdAcquire s g m := by
  unfold readBytes
  simp only [acquires, if_true, marked]

theorem readBytes_poisoned {refs : List ByteRef} (unmarked : acq = true → missOf s s.cur (acqLocs s refs) = none)
    (bad : (underRefs s refs).any (poisoned s) = true) : readBytes s acq refs fin = takeTrap s 5 0 0 := by
  have free : (if acq then missOf s s.cur (acqLocs s refs) else none) = none := by
    split
    · next acquires => exact unmarked acquires
    · rfl
  unfold readBytes
  rw [free]
  exact if_pos bad

end

theorem length_bytesOf_accessRefs (u s : State) (sg : BitVec 3) (off : Word) (n : Nat) :
    (bytesOf u (accessRefs s sg off n)).length = n := by simp [bytesOf, accessRefs, span]

/-- Bytes that are not sign-extended are their little-endian number. -/
theorem loadValue_unsigned (l : List Byte) : loadValue false l = extended l.length false l := by
  apply BitVec.eq_of_toNat_eq
  simp [loadValue, extended, Nat.mod_eq_of_lt (leNat_lt l)]

theorem loadValue_extended (sext : Bool) {l : List Byte} (some_ : 0 < l.length) :
    loadValue sext l = extended l.length sext l := by
  cases sext
  · exact loadValue_unsigned l
  · exact loadValue_signed l some_

end Sys2Proof.Machine
end

section
/-! RESULT. Scalar loads: the value, an acquire held, a response outstanding, a poisoned byte (O16). -/

namespace Sys2Proof.Machine

theorem loadForms_load {d : Reg} {m : MemRef} {p : Instr × Nat × Bool} (h : p ∈ loadForms d m) (s : State) :
    exec p.1 s = load p.2.1 p.2.2 d m s ∧ 0 < p.2.1 := by
  simp only [loadForms, List.mem_cons, List.not_mem_nil, or_false] at h
  rcases h with rfl | rfl | rfl | rfl | rfl | rfl | rfl <;> exact ⟨rfl, Nat.zero_lt_succ _⟩

theorem served_eq_recalled (s : State) (refs : List ByteRef) :
    served s refs = recalled s (underRefs s (refs.filter (fun r => nonNative s r.pa))) := rfl

/-- A load whose value comes at once writes it. -/
theorem loadPath_loadDone {s : State} {sg : BitVec 3} {off : Word} {n al : Nat} {acq : Bool} (some_ : 0 < n)
    (h : LoadGoes s sg off n al acq) (hint : Hint) (wait : Nat → List Nat → Bool → Await) (d : Reg) (sext : Bool) :
    let b := served s (accessRefs s sg off n)
    ∃ u t, loadPath s sg off n al acq hint wait (loadDone d sext) = t ∧ CachesOnly b u ∧
      Retired s u t (.write s d (extended n sext (bytesOf b (accessRefs s sg off n)))) ∧ BytesKept b t := by
  intro b
  obtain ⟨u, caches, done⟩ := loadPath_goes h hint wait (loadDone d sext)
  have same : SameAgents s u := (HomesOnly.trans (served_homes s _) caches.homesOnly).sameAgents
  have long : (bytesOf b (accessRefs s sg off n)).length = n := length_bytesOf_accessRefs ..
  have value := loadValue_extended sext (l := bytesOf b (accessRefs s sg off n)) (long.symm ▸ some_)
  rw [long] at value
  refine ⟨u, _, done, caches, ?_, caches.sameBytes.bytesKept.trans (advance_setReg_wrote u d _).2⟩
  rw [← value]
  exact advance_setReg_retired same d _

/-- Settles O16, by the path of a scalar load and what becomes of it at each point. -/
theorem loads : Obligations.Loads := by
  refine ⟨fun s d m p hp => ?_, fun s refs => ⟨served_eq_recalled s refs, served_native⟩⟩
  obtain ⟨word, some_⟩ := loadForms_load hp s
  rw [word]
  refine ⟨fun ill => issue_ill ill _, fun ok => ?_⟩
  intro off al acq refs b
  have run : load p.2.1 p.2.2 d m s = .next _ := issue_ok ok _
  rw [run]
  refine ⟨fun goes => ?_, fun c stops => ?_, fun cause first => ?_, fun ready late => ?_, fun ready now g mk acquires marked => ?_,
    fun ready now unmarked bad => ?_⟩
  · obtain ⟨u, t, done, rest⟩ := loadPath_loadDone some_ goes m.hint _ d p.2.2
    exact ⟨u, t, congrArg _ done, rest⟩
  · exact congrArg _ (loadPath_cause stops ..)
  · exact congrArg _ (loadPath_waits cause first)
  · obtain ⟨u, t, done, rest⟩ := loadPath_awaits ready late
    exact ⟨u, t, congrArg _ done, rest⟩
  · exact ⟨_, congrArg _ ((loadPath_reads ready now).trans (readBytes_held acquires marked)), holdAcquire_held s g mk⟩
  · exact congrArg _ ((loadPath_reads ready now).trans (readBytes_poisoned unmarked bad))

end Sys2Proof.Machine
end

section
/-! RESULT. Scalar stores and SEGST: what each agent reads afterwards (O17). -/

namespace Sys2Proof.Machine

theorem storeForms_path {d : Reg} {g : BitVec 3} {m : MemRef} {p : Instr × Bool × List Reg × (Nat → Nat) × (State → List Byte) × Option Nat}
    (h : p ∈ storeForms d g m) (s : State) :
    exec p.1 s = issue s (admits s p.2.1 p.2.2.1) (fun s => storePath s m.seg (reg s m.a + m.disp.signExtend 64)
      (p.2.2.2.1 (p.2.2.2.2.1 s).length) (p.2.2.2.2.1 s) p.2.2.2.2.2 m.hint advance) := by
  have rel : relOf m.order m.scope = if m.order = .rel ∨ m.order = .ar then some (scopeNum m.scope) else none := by
    cases m.order <;> rfl
  simp only [storeForms, ← rel, List.mem_cons, List.not_mem_nil, or_false] at h
  rcases h with rfl | rfl | rfl | rfl | rfl <;> rfl

/-- A store that no cause stops is accepted. -/
theorem storePath_accepted {s : State} {sg : BitVec 3} {off : Word} {al : Nat} {bytes : List Byte}
    (h : scalarCause s sg off bytes.length 1 al = none) (rel : Option Nat) (hint : Hint) :
    ∃ t, storePath s sg off al bytes rel hint advance = t ∧
      StoreAccepted s (acceptStore s s.cur ((accessRefs s sg off bytes.length).zip bytes) rel hint) t (storedBytes s sg off bytes) := by
  obtain ⟨homes, own, others⟩ := acceptStore_spec s s.cur ((accessRefs s sg off bytes.length).zip bytes) rel hint
  generalize hu : acceptStore s s.cur ((accessRefs s sg off bytes.length).zip bytes) rel hint = u at homes own others
  have kept : BytesKept u (advance u) := (advance_nothing u).2
  have home : myDie s = dieOfCore (agentCore s.cur) := by
    unfold myDie myCore agentCore
    cases s.cur <;> rfl
  refine ⟨_, (storePath_goes h rel hint advance).trans (congrArg advance hu), advance_retired homes.sameAgents, homes, ?_, ?_⟩
  · intro loc given
    rw [kept, home]
    exact own loc given
  · intro a k loc other off_ spared apart
    rw [kept]
    exact others a k loc other off_ spared apart

/-- Settles O17, by the path of a store and what its acceptance leaves each agent to read. -/
theorem stores : Obligations.Stores := by
  intro s d g m p hp
  rw [storeForms_path hp]
  refine ⟨fun ill => issue_ill ill _, fun ok => ?_⟩
  intro off bytes put
  rw [issue_ok ok]
  refine ⟨fun cause => ?_, fun c stops => congrArg _ (storePath_cause stops ..)⟩
  obtain ⟨t, done, accepted⟩ := storePath_accepted cause p.2.2.2.2.2 m.hint
  exact ⟨t, congrArg _ done, accepted⟩

end Sys2Proof.Machine
end

section
/-! RESULT. SEGLD takes only a descriptor that is admitted; PREF always retires (O18). -/

namespace Sys2Proof.Machine

/-- A segment register takes a descriptor and the word goes on. -/
theorem segs_loaded {s u : State} (h : SameAgents s u) (g : BitVec 3) (x : Seg) :
    Retired s u (advance (modHart u (fun y => { y with segs := y.segs.set g.toNat x })))
      { reg := none, seg := some (g, x), pc := pcOf s + 8, thread := id } := by
  rw [advance_eq, modHart_modHart]
  refine retired_modHart h _ _ (fun _ => rfl) (fun _ => rfl) (fun k => ?_) rfl
  by_cases same : k = g
  · subst same
    simp
  · have apart : g.toNat ≠ k.toNat := fun e => same (BitVec.eq_of_toNat_eq e.symm)
    simp [same, apart, seg]

theorem exec_segld (s : State) (g : BitVec 3) (m : MemRef) : exec (.segld g m) s =
    issue s (admits s false [m.a]) (fun s => loadPath s m.seg (reg s m.a + m.disp.signExtend 64) 16 16 false m.hint
      (fun cva pas _ => .segld g m.seg.toNat (reg s m.a + m.disp.signExtend 64) cva pas)
      (segldDone g m.seg.toNat (reg s m.a + m.disp.signExtend 64))) := rfl

theorem segldDone_some {g : BitVec 3} {sg : Nat} {off : Word} {u : State} {l : List Byte} {x : Seg}
    (h : segOfWords (BitVec.ofNat 64 (leNat (l.take 8))) (BitVec.ofNat 64 (leNat (l.drop 8))) = some x) :
    segldDone g sg off u l = advance (modHart u (fun y => { y with segs := y.segs.set g.toNat x })) := by
  unfold segldDone
  rw [h]

theorem segldDone_none {g : BitVec 3} {sg : Nat} {off : Word} {u : State} {l : List Byte}
    (h : segOfWords (BitVec.ofNat 64 (leNat (l.take 8))) (BitVec.ofNat 64 (leNat (l.drop 8))) = none) :
    segldDone g sg off u l = takeTrap u 2 (segvInfo 4 sg 0) off := by
  unfold segldDone
  rw [h]

theorem exec_pref (s : State) (m : MemRef) : exec (.pref m) s = issue s (admits s true [m.a]) (fun s =>
    if (scalarCause s m.seg (offOf s m) 1 0 1).isSome ||
        2 ≤ (byteRef s (myCtx s) ((seg s m.seg).base.toNat + (offOf s m).toNat)).pa / 2 ^ 46 ||
        ((byteRef s (myCtx s) ((seg s m.seg).base.toNat + (offOf s m).toNat)).at_.under s).any (poisoned s) then
      advance (countErr s (myCtx s) 1)
    else advance (touchLoad s s.cur [byteRef s (myCtx s) ((seg s m.seg).base.toNat + (offOf s m).toNat)] m.hint)) := rfl

/-- Where a prefetch is dropped: a cause, an aperture, or poison (R144). -/
theorem pref_dropped (c : Option Cause) (pa : Nat) (bad : Bool) :
    (c.isSome || decide (2 ≤ pa / 2 ^ 46) || bad) = true ↔ c.isSome = true ∨ 2 ^ 47 ≤ pa ∨ bad = true := by
  have far : 2 ≤ pa / 2 ^ 46 ↔ 2 ^ 47 ≤ pa := by omega
  rw [Bool.or_eq_true, Bool.or_eq_true, decide_eq_true_eq, far, or_assoc]

/-- Settles O18, by the path of SEGLD's load and the two ends of a prefetch. -/
theorem segmentLoadsAndPrefetch : Obligations.SegmentLoadsAndPrefetch := by
  refine ⟨fun s g m => ⟨fun ill => ?_, fun ill => ?_⟩, fun s g m ok => ?_, fun s m ok => ?_⟩
  · rw [exec_segld, issue_ill ill]
  · rw [exec_pref, issue_ill ill]
  · intro off refs b l
    rw [exec_segld, issue_ok ok]
    refine ⟨fun goes => ?_, fun c stops => congrArg _ (loadPath_cause stops ..), fun ready late => ?_, fun ready now bad => ?_⟩
    · obtain ⟨u, caches, done⟩ := loadPath_goes goes m.hint (fun cva pas _ => .segld g m.seg.toNat off cva pas)
        (segldDone g m.seg.toNat off)
      have same : SameAgents s u := (HomesOnly.trans (served_homes s _) caches.homesOnly).sameAgents
      refine ⟨fun x taken => ⟨u, _, congrArg _ (done.trans (segldDone_some taken)), caches, ?_, segs_loaded same g x⟩,
        fun refused => ⟨u, caches, congrArg _ (done.trans (segldDone_none refused))⟩⟩
      exact caches.sameBytes.bytesKept.trans (sameBytes_of (by simp) (by simp) (by simp)).bytesKept
    · obtain ⟨u, t, done, rest⟩ := loadPath_awaits ready late
      exact ⟨u, t, congrArg _ done, rest⟩
    · exact congrArg _ ((loadPath_reads ready now).trans (readBytes_poisoned (fun no => absurd no (by decide)) bad))
  · intro off r
    rw [exec_pref, issue_ok ok]
    by_cases dropped : (scalarCause s m.seg off 1 0 1).isSome ∨ 2 ^ 47 ≤ r.pa ∨ (r.at_.under s).any (poisoned s) = true
    · refine ⟨_, _, congrArg _ (if_pos ((pref_dropped ..).mpr dropped)), advance_retired ⟨by simp, by simp, by simp⟩, ?_, ?_⟩
      · exact (sameBytes_of (by simp) (by simp) (by simp)).bytesKept
      · rw [if_pos dropped]
    · have touched := touchLoad_lines s s.cur [r] m.hint
      refine ⟨_, _, congrArg _ (if_neg (mt (pref_dropped ..).mp dropped)), advance_retired touched.sameAgents,
        touched.sameBytes.bytesKept.trans (advance_nothing _).2, ?_⟩
      rw [if_neg dropped]
      exact touched.cachesOnly

end Sys2Proof.Machine
end

section
/-! SUPPORT. The paths of the cache-maintenance words (R290). -/

namespace Sys2Proof.Machine

/-! ### Copies dropped -/

theorem llcDrop_lines (s : State) (f : Nat → Bool) : LinesOnly s (llcDrop s f) := ⟨rfl, fun _ => rfl⟩

theorem dropScope_lines (s : State) (sc k line : Nat) : LinesOnly s (dropScope s sc k line) := by
  have dropped := (dropLocal_lines s (fun j => cacheScope sc k j || l2Scope sc k (dieOfCore j)) line).trans
    (dropL2_lines _ (l2Scope sc k) line)
  unfold dropScope
  dsimp only
  split
  · exact dropped.trans (llcDrop_lines _ _)
  · exact dropped

theorem invalLine_lines (s : State) (sc k line : Nat) : LinesOnly s (invalLine s sc k line) := by
  have dropped := dropScope_lines s sc k line
  unfold invalLine
  dsimp only
  split
  · exact dropped.trans (llcTouch_lines _ _ _)
  · exact dropped

/-- No copy of a line stands in the caches that a scope of core `k` names. -/
structure LineGone (t : State) (sc k line : Nat) : Prop where
  locals : ∀ p ∈ t.local1, cacheScope sc k (p.1 / 1024) = true → ∀ x ∈ p.2, x.line ≠ line
  l2s : ∀ p ∈ t.dies, l2Scope sc k p.1 = true → ∀ q ∈ p.2.l2, ∀ x ∈ q.2, x.line ≠ line
  slices : 4 ≤ sc → ∀ p ∈ t.llc, line ∉ p.2

theorem dropLocal_gone {s : State} {f : Nat → Bool} {line : Nat} {p : Nat × List Way} (h : p ∈ (dropLocal s f line).local1)
    (picked : f (p.1 / 1024) = true) : ∀ x ∈ p.2, x.line ≠ line := by
  obtain ⟨q, -, rfl⟩ := List.mem_map.mp h
  intro x hx
  rw [if_pos picked] at hx
  simpa using (List.mem_filter.mp hx).2

theorem dropL2_gone {s : State} {f : Nat → Bool} {line : Nat} {p : Nat × Die} (h : p ∈ (dropL2 s f line).dies)
    (picked : f p.1 = true) : ∀ q ∈ p.2.l2, ∀ x ∈ q.2, x.line ≠ line := by
  obtain ⟨y, -, rfl⟩ := List.mem_map.mp h
  intro q hq x hx
  rw [if_pos picked] at hq
  obtain ⟨z, -, rfl⟩ := List.mem_map.mp hq
  simpa using (List.mem_filter.mp hx).2

theorem llcDrop_gone {s : State} {line : Nat} {p : Nat × List Nat} (h : p ∈ (llcDrop s (· == line)).llc) : line ∉ p.2 := by
  obtain ⟨q, -, rfl⟩ := List.mem_map.mp h
  simp

theorem dropScope_gone (s : State) (sc k line : Nat) : LineGone (dropScope s sc k line) sc k line := by
  unfold dropScope
  dsimp only
  have locals {p : Nat × List Way} (hp : p ∈ (dropLocal s (fun j => cacheScope sc k j || l2Scope sc k (dieOfCore j)) line).local1)
      (h : cacheScope sc k (p.1 / 1024) = true) : ∀ x ∈ p.2, x.line ≠ line := dropLocal_gone hp (by simp [h])
  split
  · exact ⟨fun p hp h => locals hp h, fun p hp h => dropL2_gone hp h, fun _ p hp => llcDrop_gone hp⟩
  · next near =>
    exact ⟨fun p hp h => locals hp h, fun p hp h => dropL2_gone hp h, fun far => absurd far near⟩

theorem invalLine_gone (s : State) (sc k line : Nat) : LineGone (invalLine s sc k line) sc k line := by
  obtain ⟨locals, l2s, slices⟩ := dropScope_gone s sc k line
  unfold invalLine
  dsimp only
  split
  · next die =>
    refine ⟨locals, l2s, fun far => ?_⟩
    have : sc = 3 := by simpa using (Bool.and_eq_true_iff.mp die).1
    omega
  · exact ⟨locals, l2s, slices⟩

theorem LineGone.advance {s : State} {sc k line : Nat} (h : LineGone s sc k line) : LineGone (advance s) sc k line :=
  ⟨by simpa using h.locals, by simpa using h.l2s, by simpa using h.slices⟩

theorem cleanL2_clean {s : State} {f : Nat → Bool} {line : Nat} {p : Nat × Die} (h : p ∈ (cleanL2 s f line).dies)
    (picked : f p.1 = true) : ∀ q ∈ p.2.l2, ∀ x ∈ q.2, x.line = line → x.dirty = false := by
  obtain ⟨y, -, rfl⟩ := List.mem_map.mp h
  intro q hq x hx same
  rw [if_pos picked] at hq
  obtain ⟨z, -, rfl⟩ := List.mem_map.mp hq
  obtain ⟨v, -, rfl⟩ := List.mem_map.mp hx
  split
  · rfl
  · next other =>
    rw [if_neg other] at same
    exact absurd same other

/-! ### The word on a line -/

/-- A write of the issuing agent to a line is pending, or from .k on stands in a queue of its die. -/
def LineBusy (s : State) (sc line : Nat) : Prop :=
  (∃ p ∈ s.stores, p.agent = s.cur ∧ ∃ q ∈ p.locs, nativePa s q.1 / 128 = line) ∨
    4 ≤ sc ∧ ∃ p ∈ (die s (myDie s)).hostq ++ (die s (myDie s)).peerq ++ (die s (myDie s)).uoq,
      (s.cur ∈ p.agents ∨ p.writer = some s.cur) ∧ ∃ q ∈ p.locs, nativePa s q.1 / 128 = line

theorem lineBusy_iff (s : State) (sc line : Nat) :
    (s.stores.any (fun p => p.agent == s.cur && p.locs.any (fun q => nativePa s q.1 / 128 == line)) ||
      (decide (4 ≤ sc) && ((die s (myDie s)).hostq ++ (die s (myDie s)).peerq ++ (die s (myDie s)).uoq).any (fun w =>
        (w.agents.contains s.cur || w.writer == some s.cur) && w.locs.any (fun q => nativePa s q.1 / 128 == line)))) = true ↔
      LineBusy s sc line := by
  simp only [LineBusy, Bool.or_eq_true, Bool.and_eq_true, decide_eq_true_eq, List.any_eq_true, beq_iff_eq, List.contains_iff_mem]

section
variable {s : State} {m : MemRef} (act : State → Nat → Nat → Nat → State)

theorem lineOp_ill (h : admits s true [m.a] = false) : lineOp act m s = .next (takeIll s) := issue_ill h _

theorem lineOp_cause (ok : admits s true [m.a] = true) {c : Cause} (h : lineCheck s m = some c) :
    lineOp act m s = .next (takeCause s c) := by
  unfold lineOp
  rw [issue_ok ok, h]

theorem lineOp_unmapped (ok : admits s true [m.a] = true) (inside : lineCheck s m = none) {bad : Bool}
    (h : xlate s (myCtx s) ((seg s m.seg).base.toNat + (offOf s m).toNat) = .none bad) :
    lineOp act m s = .next (takeCause s (.trap 2 (segvInfo 2 m.seg.toNat 0)
      (BitVec.ofNat 64 ((seg s m.seg).base.toNat + (offOf s m).toNat)) bad)) := by
  unfold lineOp
  rw [issue_ok ok, inside]
  simp only [h]

/-- A page that is not present, a check that failed, or an aperture: there is nothing to act on. -/
theorem lineOp_nothing (ok : admits s true [m.a] = true) (inside : lineCheck s m = none)
    (h : xlate s (myCtx s) ((seg s m.seg).base.toNat + (offOf s m).toNat) = .absent ∨
      xlate s (myCtx s) ((seg s m.seg).base.toNat + (offOf s m).toNat) = .integ ∨
      ∃ pa kind code w r, xlate s (myCtx s) ((seg s m.seg).base.toNat + (offOf s m).toNat) = .page pa kind code w r ∧
        2 ^ 47 ≤ pa) :
    lineOp act m s = .next (advance s) := by
  unfold lineOp
  rw [issue_ok ok, inside]
  rcases h with absent | failed | ⟨pa, kind, code, w, r, mapped, far⟩
  · simp only [absent]
  · simp only [failed]
  · simp only [mapped]
    rw [if_pos (by omega)]

/-- An address of ordinary memory: the word waits for its agent's own writes to the line, and acts on it. -/
theorem lineOp_mapped (ok : admits s true [m.a] = true) (inside : lineCheck s m = none) {pa : Nat} {kind code w r}
    (h : xlate s (myCtx s) ((seg s m.seg).base.toNat + (offOf s m).toNat) = .page pa kind code w r) (near : pa < 2 ^ 47) :
    (LineBusy s (scopeNum m.scope) (pa / 128) → lineOp act m s = .next (waitHere s)) ∧
      (¬LineBusy s (scopeNum m.scope) (pa / 128) →
        lineOp act m s = .next (advance (act s (scopeNum m.scope) (myCore s) (pa / 128)))) := by
  unfold lineOp
  rw [issue_ok ok, inside]
  simp only [h]
  rw [if_neg (by omega)]
  refine ⟨fun busy => congrArg _ (if_pos ((lineBusy_iff ..).mpr busy)),
    fun free => congrArg _ (if_neg (mt (lineBusy_iff ..).mp free))⟩

end

/-- What a cache word that changes only lines leaves once it has gone on. -/
theorem lines_advanced {s u : State} (h : LinesOnly s u) :
    CachesOnly s u ∧ Retired s u (advance u) (.next s) ∧ BytesKept s (advance u) :=
  ⟨h.cachesOnly, advance_retired h.sameAgents, h.sameBytes.bytesKept.trans (advance_nothing u).2⟩

end Sys2Proof.Machine
end

section
/-! RESULT. CFLUSH, CINV and CCLEAN (O24). -/

namespace Sys2Proof.Machine

/-- What CFLUSH does with a line. -/
def flushLine (s : State) (sc k line : Nat) : State := dropScope (cleanLine s sc k line) sc k line

theorem exec_cflush (s : State) (m : MemRef) : exec (.cflush m) s = lineOp flushLine m s := rfl
theorem exec_cinv (s : State) (m : MemRef) : exec (.cinv m) s = lineOp invalLine m s := rfl
theorem exec_cclean (s : State) (m : MemRef) : exec (.cclean m) s = lineOp cleanLine m s := rfl

theorem exec_cacheForm {m : MemRef} {i : Instr} (h : i ∈ [Instr.cflush m, .cinv m, .cclean m]) (s : State) :
    ∃ act, exec i s = lineOp act m s := by
  simp only [List.mem_cons, List.not_mem_nil, or_false] at h
  rcases h with rfl | rfl | rfl
  exacts [⟨_, exec_cflush s m⟩, ⟨_, exec_cinv s m⟩, ⟨_, exec_cclean s m⟩]

/-- Settles O24, by the path that the three words share and what each leaves of the line. -/
theorem cacheWords : Obligations.CacheWords := by
  intro s m
  refine ⟨fun ill i hi => ?_, fun ok => ?_⟩
  · obtain ⟨act, word⟩ := exec_cacheForm hi s
    exact word.trans (lineOp_ill act ill)
  intro cva k sc forms
  refine ⟨fun c stops i hi => ?_, fun inside => ⟨fun bad unmapped i hi => ?_, fun nothing i hi => ?_, fun pa kind code w r mapped near => ?_⟩⟩
  · obtain ⟨act, word⟩ := exec_cacheForm hi s
    exact word.trans (lineOp_cause act ok stops)
  · obtain ⟨act, word⟩ := exec_cacheForm hi s
    exact word.trans (lineOp_unmapped act ok inside unmapped)
  · obtain ⟨act, word⟩ := exec_cacheForm hi s
    exact ⟨_, word.trans (lineOp_nothing act ok inside nothing), advance_nothing s⟩
  intro ofLine busy gone
  have acts (act) := lineOp_mapped (s := s) (m := m) act ok inside mapped near
  refine ⟨fun waits i hi => ?_, fun free => ⟨?_, ?_, ?_⟩⟩
  · obtain ⟨act, word⟩ := exec_cacheForm hi s
    exact word.trans ((acts act).1 waits)
  · obtain ⟨caches, retired, kept⟩ := lines_advanced ((cleanL2_lines s (l2Scope sc k) (pa / 128)).trans (dropScope_lines _ sc k (pa / 128)))
    obtain ⟨locals, l2s, slices⟩ := (dropScope_gone (cleanLine s sc k (pa / 128)) sc k (pa / 128)).advance
    exact ⟨_, _, (exec_cflush s m).trans ((acts _).2 free), caches, retired, kept, locals, l2s, slices⟩
  · obtain ⟨caches, retired, kept⟩ := lines_advanced (invalLine_lines s sc k (pa / 128))
    obtain ⟨locals, l2s, slices⟩ := (invalLine_gone s sc k (pa / 128)).advance
    exact ⟨_, _, (exec_cinv s m).trans ((acts _).2 free), caches, retired, kept, locals, l2s, slices⟩
  · obtain ⟨caches, retired, kept⟩ := lines_advanced (cleanL2_lines s (l2Scope sc k) (pa / 128))
    refine ⟨_, _, (exec_cclean s m).trans ((acts _).2 free), caches, retired, kept, fun p hp picked => ?_⟩
    rw [advance_dies] at hp
    exact cleanL2_clean hp picked

end Sys2Proof.Machine
end

section
/-! SUPPORT. What RETAIN makes of its operands: the free register, the free ways, and its codes (R291). -/

namespace Sys2Proof.Machine

theorem find?_range_of_first {n k : Nat} {p : Nat → Bool} (inside : k < n) (holds : p k = true) (first : ∀ j, j < k → p j = false) :
    (List.range n).find? p = some k :=
  List.find?_range_eq_some.mpr ⟨holds, List.mem_range.mpr inside, fun j hj => by simp [first j hj]⟩

/-! ### Ways -/

/-- `w` ways from `w0` on are ways of the L2, and no register has one of them. -/
def WaysFree (regs : KMap RetReg) (w w0 : Nat) : Prop :=
  w0 + w ≤ 16 ∧ ∀ r ∈ kvals regs, r.way0 + r.ways ≤ w0 ∨ w0 + w ≤ r.way0 ∨ r.ways = 0

/-- The ways that registers have. -/
def takenWays (regs : KMap RetReg) : List Nat := (kvals regs).flatMap (fun r => span r.way0 r.ways)

/-- A run of ways lies apart from a register's. -/
theorem span_apart {w0 w lo n : Nat} (some_ : 1 ≤ w) :
    (∀ i ∈ span w0 w, i ∉ span lo n) ↔ lo + n ≤ w0 ∨ w0 + w ≤ lo ∨ n = 0 := by
  constructor
  · intro apart
    by_contra meet
    exact apart (max w0 lo) (mem_span.mpr (by omega)) (mem_span.mpr (by omega))
  · intro h i hi hj
    have := mem_span.mp hi
    have := mem_span.mp hj
    omega

theorem waysFree_iff {regs : KMap RetReg} {w w0 : Nat} (some_ : 1 ≤ w) :
    (decide (w0 + w ≤ 16) && (span w0 w).all (fun i => !(takenWays regs).contains i)) = true ↔ WaysFree regs w w0 := by
  rw [Bool.and_eq_true, decide_eq_true_eq, WaysFree]
  refine and_congr_right fun _ => ?_
  have apart : ((span w0 w).all (fun i => !(takenWays regs).contains i)) = true ↔
      ∀ r ∈ kvals regs, ∀ i ∈ span w0 w, i ∉ span r.way0 r.ways := by
    simp only [List.all_eq_true, Bool.not_eq_true', List.contains_eq_mem, decide_eq_false_iff_not, takenWays, List.mem_flatMap, not_exists,
      not_and]
    exact ⟨fun h r hr i hi => h i hi r hr, fun h i hi r hr => h r hr i hi⟩
  rw [apart]
  exact forall₂_congr fun r _ => span_apart some_

theorem freeRun_none {regs : KMap RetReg} {w : Nat} (some_ : 1 ≤ w) (crowded : ∀ w0, ¬WaysFree regs w w0) :
    freeRun (takenWays regs) w = none :=
  List.find?_eq_none.mpr fun w0 _ free => crowded w0 ((waysFree_iff some_).mp free)

theorem freeRun_first {regs : KMap RetReg} {w w0 : Nat} (some_ : 1 ≤ w) (free : WaysFree regs w w0)
    (first : ∀ j, j < w0 → ¬WaysFree regs w j) : freeRun (takenWays regs) w = some w0 :=
  find?_range_of_first (by have := free.1; omega) ((waysFree_iff some_).mpr free)
    fun j hj => Bool.eq_false_iff.mpr (mt (waysFree_iff some_).mp (first j hj))

/-! ### Registers -/

/-- The registers of a die that a context has. -/
def retainedBy (s : State) (d c : Nat) : List RetReg := (kvals (die s d).retain).filter (fun r => r.ctx = c)

/-- A context's allowance of registers and ways on a die (R291). -/
def retainAllow (s : State) (d c : Nat) : Nat × Nat := match ctx? s c with | some x => kget x.allow d (0, 0) | none => (0, 0)

section
variable {s : State} {d c lo hi w k : Nat}

theorem retainRange_full (full : (∀ k, k < 8 → (kfind (die s d).retain k).isSome) ∨
    (retainAllow s d c).1 ≤ (retainedBy s d c).length) : retainRange s d c lo hi w = (s, 8) := by
  unfold retainRange
  dsimp only
  split
  · rfl
  · next k found =>
    obtain ⟨free, inside, -⟩ := List.find?_range_eq_some.mp found
    rcases full with none_ | used
    · have := none_ k (List.mem_range.mp inside)
      rw [Option.isSome_iff_ne_none] at this
      exact absurd (Option.isNone_iff_eq_none.mp free) this
    · exact if_pos used

theorem retainRange_free (inside : k < 8) (free : kfind (die s d).retain k = none)
    (first : ∀ j, j < k → (kfind (die s d).retain j).isSome) (allowed : (retainedBy s d c).length < (retainAllow s d c).1) :
    retainRange s d c lo hi w =
      if (retainAllow s d c).2 < ((retainedBy s d c).map (·.ways)).sum + w then (s, 9)
      else match freeRun (takenWays (die s d).retain) w with
        | none => (s, 9)
        | some w0 =>
          (modDie s d (fun x => { x with
            retain := kset x.retain k { ctx := c, base := lo, limit := hi - lo, way0 := w0, ways := w } }), k) := by
  have found : (List.range 8).find? (fun k => (kfind (die s d).retain k).isNone) = some k :=
    find?_range_of_first inside (by simp [free]) fun j hj => by simpa [Option.isSome_iff_ne_none] using first j hj
  unfold retainRange
  simp only [found]
  exact if_neg (not_le.mpr allowed)

end

end Sys2Proof.Machine
end

section
/-! RESULT. RETAIN, UNPIN and ARRLOG (O25). -/

namespace Sys2Proof.Machine

theorem exec_retain (s : State) (d a b c : Reg) : exec (.retain d a b c) s = execRetain d a b c s := rfl
theorem exec_unpin (s : State) (d a : Reg) : exec (.unpin d a) s = execUnpin d a s := rfl
theorem exec_arrlog (s : State) (d a b : Reg) : exec (.arrlog d a b) s = execArrlog d a b s := rfl

/-- A word whose state differs in no agent and no byte writes a register and goes on. -/
theorem advance_setReg_of {s u : State} (same : SameAgents s u) (bytes : SameBytes s u) (d : Reg) (v : Word) :
    BytesKept s (advance (setReg u d v)) ∧ Retired s u (advance (setReg u d v)) (.write s d v) :=
  ⟨bytes.bytesKept.trans (advance_setReg_wrote u d v).2, advance_setReg_retired same d v⟩

/-- Registers of a die's retention changed: no agent and no byte. -/
theorem modDie_retain_same (s : State) (d : Nat) (f : KMap RetReg → KMap RetReg) :
    SameAgents s (modDie s d (fun x => { x with retain := f x.retain })) ∧
      SameBytes s (modDie s d (fun x => { x with retain := f x.retain })) := by
  have dies (k : Nat) : die (modDie s d (fun x => { x with retain := f x.retain })) k =
      { die s k with retain := (die (modDie s d (fun x => { x with retain := f x.retain })) k).retain } := by
    rw [die_modDie]
    split
    · next same => subst same; rfl
    · rfl
  exact ⟨⟨rfl, rfl, rfl⟩, rfl, rfl, fun k => by rw [dies], fun k => by rw [dies], fun k => by rw [dies]⟩

/-- RETAIN's operands are refused: a number of ways out of range, no bytes, or a segment that refuses them (R291). -/
def BadRange (s : State) (a b c : Reg) : Prop :=
  ((reg s c).extractLsb' 4 4).toNat < 1 ∨ 12 < ((reg s c).extractLsb' 4 4).toNat ∨ (reg s b).toNat = 0 ∨
    segCheck (seg s ((reg s c).extractLsb' 0 3)) ((reg s c).extractLsb' 0 3).toNat (reg s a).toNat (reg s b).toNat 0 ≠ none

section
variable {s : State} {d a b c : Reg}

theorem execRetain_bad (ok : admits s false [d, a, b, c] = true) (bad : BadRange s a b c) :
    execRetain d a b c s = .next (advance (setReg s d 10)) := by
  unfold execRetain
  rw [issue_ok ok]
  refine congrArg _ (if_pos ?_)
  simpa [BadRange, field_eq, Option.isSome_iff_ne_none, or_assoc] using bad

theorem execRetain_ranged (ok : admits s false [d, a, b, c] = true) (good : ¬BadRange s a b c) {u : State} {n : Nat}
    (h : retainRange s (myDie s) (myCtx s)
      (((seg s ((reg s c).extractLsb' 0 3)).base.toNat + (reg s a).toNat) / 128 * 128)
      (((seg s ((reg s c).extractLsb' 0 3)).base.toNat + (reg s a).toNat + (reg s b).toNat + 127) / 128 * 128)
      ((reg s c).extractLsb' 4 4).toNat = (u, n)) :
    execRetain d a b c s = .next (advance (setReg u d (BitVec.ofNat 64 n))) := by
  unfold execRetain
  rw [issue_ok ok]
  refine congrArg _ ((if_neg ?_).trans ?_)
  · simpa [BadRange, field_eq, Option.isSome_iff_ne_none, or_assoc] using good
  · rw [← field_eq] at h
    dsimp only
    rw [h]

end

/-- RETAIN of an admitted word: its codes, and the register that it takes. -/
theorem retain_spec {s : State} {d a b c : Reg} (ok : admits s false [d, a, b, c] = true) :
    let regs := (die s (myDie s)).retain
    let mine := retainedBy s (myDie s) (myCtx s)
    let allow := retainAllow s (myDie s) (myCtx s)
    let w := ((reg s c).extractLsb' 4 4).toNat
    let lo := ((seg s ((reg s c).extractLsb' 0 3)).base.toNat + (reg s a).toNat) / 128 * 128
    let hi := ((seg s ((reg s c).extractLsb' 0 3)).base.toNat + (reg s a).toNat + (reg s b).toNat + 127) / 128 * 128
    (BadRange s a b c → ∃ t, exec (.retain d a b c) s = .next t ∧ Wrote s t d 10) ∧
    (¬BadRange s a b c →
      ((∀ k, k < 8 → (kfind regs k).isSome) ∨ allow.1 ≤ mine.length →
        ∃ t, exec (.retain d a b c) s = .next t ∧ Wrote s t d 8) ∧
      (∀ k, k < 8 → kfind regs k = none → (∀ j, j < k → (kfind regs j).isSome) → mine.length < allow.1 →
        (allow.2 < (mine.map (·.ways)).sum + w ∨ (∀ w0, ¬WaysFree regs w w0) →
          ∃ t, exec (.retain d a b c) s = .next t ∧ Wrote s t d 9) ∧
        (∀ w0, (mine.map (·.ways)).sum + w ≤ allow.2 → WaysFree regs w w0 → (∀ j, j < w0 → ¬WaysFree regs w j) →
          ∃ t, exec (.retain d a b c) s = .next t ∧ BytesKept s t ∧
            Retired s (modDie s (myDie s) (fun x => { x with
              retain := kset x.retain k { ctx := myCtx s, base := lo, limit := hi - lo, way0 := w0, ways := w } }))
              t (.write s d (BitVec.ofNat 64 k))))) := by
  intro regs mine allow w lo hi
  refine ⟨fun bad => ⟨_, execRetain_bad ok bad, advance_setReg_wrote s d 10⟩, fun good => ?_⟩
  have some_ : 1 ≤ w := by
    by_contra none_
    exact good (.inl (by omega))
  refine ⟨fun full => ⟨_, execRetain_ranged ok good (retainRange_full full), advance_setReg_wrote s d _⟩,
    fun k inside free first allowed => ?_⟩
  have ranged := retainRange_free (lo := lo) (hi := hi) (w := w) inside free first allowed
  refine ⟨fun none_ => ?_, fun w0 enough unused lowest => ?_⟩
  · refine ⟨_, execRetain_ranged ok good (ranged.trans ?_), advance_setReg_wrote s d _⟩
    split
    · rfl
    · next enough => rw [freeRun_none some_ (none_.resolve_left enough)]
  · rw [if_neg (not_lt.mpr enough), freeRun_first some_ unused lowest] at ranged
    obtain ⟨same, bytes⟩ := modDie_retain_same s (myDie s)
      (fun x => kset x k { ctx := myCtx s, base := lo, limit := hi - lo, way0 := w0, ways := w })
    exact ⟨_, execRetain_ranged ok good ranged, advance_setReg_of same bytes d _⟩

/-- UNPIN of an admitted word: it gives back a register of its own context. -/
theorem unpin_spec {s : State} {d a : Reg} (ok : admits s false [d, a] = true) :
    (∀ r, (reg s a).toNat < 8 → kfind (die s (myDie s)).retain (reg s a).toNat = some r → r.ctx = myCtx s →
      ∃ t, exec (.unpin d a) s = .next t ∧ BytesKept s t ∧
        Retired s (modDie s (myDie s) (fun x => { x with retain := kdel x.retain (reg s a).toNat })) t (.write s d 0)) ∧
    ((∀ r, (reg s a).toNat < 8 → kfind (die s (myDie s)).retain (reg s a).toNat = some r → r.ctx ≠ myCtx s) →
      ∃ t, exec (.unpin d a) s = .next t ∧ Wrote s t d 1) := by
  rw [exec_unpin]
  unfold execUnpin
  rw [issue_ok ok]
  refine ⟨fun r inside held own => ?_, fun other => ?_⟩
  · obtain ⟨same, bytes⟩ := modDie_retain_same s (myDie s) (fun x => kdel x (reg s a).toNat)
    refine ⟨_, ?_, advance_setReg_of same bytes d 0⟩
    simp only [inside, if_true, held, own]
  · refine ⟨_, congrArg _ ?_, advance_setReg_wrote s d 1⟩
    dsimp only
    split
    · next r found =>
      split at found
      · next inside => exact if_neg (other r inside found)
      · cases found
    · rfl

/-- A doubleword of an arrival-log entry is stated up to the sixth. -/
theorem arrDword_none {e : ArrEntry} {newest lost dw : Nat} (h : 6 ≤ dw) : arrDword e newest lost dw = none := by
  unfold arrDword
  match dw with
  | n + 6 => rfl

/-- The newest entry of a ring that has one. -/
theorem newest_eq {ring : List ArrEntry} {k : Nat} {e : ArrEntry} :
    ring[k]? = some e → (match ring with | x :: _ => x.seq | [] => 0) = (ring.headD e).seq := by
  intro entry
  cases ring with
  | nil => cases entry
  | cons x r => rfl

section
variable {s : State} {d a b : Reg}

/-- The ring that ARRLOG reads. -/
def arrRing (s : State) (a : Reg) : List ArrEntry :=
  kget (tenant s (tenantOf s (myCtx s))).arr ((reg s a).extractLsb' 0 3).toNat []

theorem execArrlog_none (ok : admits s false [d, a, b] = true) (none_ : (tenant s (tenantOf s (myCtx s))).logging = false ∨
    (arrRing s a)[((reg s a).extractLsb' 8 12).toNat]? = none) :
    execArrlog d a b s = .next (advance (setReg s d (BitVec.allOnes 64))) := by
  have found : (if (tenant s (tenantOf s (myCtx s))).logging then (arrRing s a)[((reg s a).extractLsb' 8 12).toNat]? else none) = none := by
    rcases none_ with off | past
    · rw [off]
      rfl
    · rw [past, ite_self]
  simp only [arrRing, ← field_eq] at found
  unfold execArrlog
  rw [issue_ok ok]
  simp only [found]

/-- ARRLOG of an entry: its doubleword, marked as seen for the first four, or a free value. -/
theorem execArrlog_entry (ok : admits s false [d, a, b] = true) (on : (tenant s (tenantOf s (myCtx s))).logging = true) {e : ArrEntry}
    (entry : (arrRing s a)[((reg s a).extractLsb' 8 12).toNat]? = some e) :
    execArrlog d a b s = .next (
      match arrDword e ((arrRing s a).headD e).seq (kget (tenant s (tenantOf s (myCtx s))).arrLost ((reg s a).extractLsb' 0 3).toNat 0)
          (reg s b).toNat with
      | some v => advance (setReg (if (reg s b).toNat < 4 then
          modTenant s (tenantOf s (myCtx s)) (fun x => { x with
            arr := kset x.arr ((reg s a).extractLsb' 0 3).toNat
              ((arrRing s a).set ((reg s a).extractLsb' 8 12).toNat { e with seen := true }) }) else s) d v)
      | none => advance (setReg { s with free := s.free + 1 } d (Config.openWord s.free))) := by
  have newest := newest_eq entry
  unfold execArrlog
  rw [issue_ok ok]
  simp only [arrRing, ← field_eq] at newest entry ⊢
  simp only [on, if_true, entry, ← newest]
  rfl

end

/-- A doubleword read of an entry: no agent and no byte has changed. -/
theorem seen_same (s : State) (n : Nat) (p : Prop) [Decidable p] (f : Tenant → Tenant) :
    SameAgents s (if p then modTenant s n f else s) ∧ SameBytes s (if p then modTenant s n f else s) := by
  split
  · exact ⟨⟨rfl, rfl, rfl⟩, sameBytes_of rfl rfl rfl⟩
  · exact ⟨.refl s, .refl s⟩

/-- Settles O25, by what each of the three words makes of the die's registers and the tenant's ring. -/
theorem retentionAndArrivalLog : Obligations.RetentionAndArrivalLog := by
  refine ⟨fun s d a b c => ⟨fun ill => (exec_retain ..).trans (issue_ill ill _), fun ill => (exec_unpin ..).trans (issue_ill ill _),
      fun ill => (exec_arrlog ..).trans (issue_ill ill _)⟩,
    fun s d a b c => ⟨retain_spec, unpin_spec⟩, fun s d a b ok => ?_⟩
  intro tn h k ring
  refine ⟨fun none_ => ⟨_, (exec_arrlog ..).trans (execArrlog_none ok none_), advance_setReg_wrote ..⟩, fun e on entry => ?_⟩
  have word := (exec_arrlog s d a b).trans (execArrlog_entry ok on entry)
  refine ⟨fun v told => ?_, fun above => ?_⟩
  · obtain ⟨same, bytes⟩ := seen_same s tn ((reg s b).toNat < 4)
      (fun x => { x with arr := kset x.arr h (ring.set k { e with seen := true }) })
    obtain ⟨kept, retired⟩ := advance_setReg_of same bytes d v
    change arrDword e ((arrRing s a).headD e).seq (kget (tenant s (tenantOf s (myCtx s))).arrLost ((reg s a).extractLsb' 0 3).toNat 0)
      (reg s b).toNat = some v at told
    rw [told] at word
    exact ⟨_, _, word, retired, kept, rfl⟩
  · obtain ⟨kept, retired⟩ := advance_setReg_of (s := s) (u := { s with free := s.free + 1 }) ⟨rfl, rfl, rfl⟩
      (sameBytes_of rfl rfl rfl) d (Config.openWord s.free)
    rw [arrDword_none above] at word
    exact ⟨_, word, kept, retired⟩

end Sys2Proof.Machine
end

section
/-! RESULT. The tag instructions (O28). -/

namespace Sys2Proof.Machine

/-! ### Tags in flight -/

theorem tagsInFlight_iff (x : Thread) (m : Word) :
    tagsInFlight x m = true ↔ ∃ n, n < 64 ∧ m.getLsbD n = true ∧ (progressOf x n).state = 1 := by
  simp [tagsInFlight]

section
variable {s : State} {d a : Reg} {ready : Thread → Word → Bool}

theorem tagWait_goes (ok : admits s true [d, a] = true) (h : ready (my s) (reg s a) = true) :
    ∃ t, tagWait ready d a s = .next t ∧ Wrote s t d ((my s).tags &&& reg s a) :=
  ⟨_, (issue_ok ok _).trans (congrArg _ (if_pos h)), advance_setReg_wrote ..⟩

theorem tagWait_waits (ok : admits s true [d, a] = true) (h : ready (my s) (reg s a) = false) :
    tagWait ready d a s = .next (waitHere s) :=
  (issue_ok ok _).trans (congrArg _ (if_neg (Bool.eq_false_iff.mp h)))

end

theorem exec_waitany (s : State) (d a : Reg) :
    exec (.waitany d a) s = tagWait (fun x m => x.tags &&& m != 0 || !tagsInFlight x m) d a s := rfl
theorem exec_waitall (s : State) (d a : Reg) : exec (.waitall d a) s = tagWait (fun x m => !tagsInFlight x m) d a s := rfl
theorem exec_ffready (s : State) (d a : Reg) : exec (.ffready d a) s = tagWait (fun _ _ => true) d a s := rfl

/-! ### Tags cleared -/

/-- What TAGCLR does with one tag of its mask. -/
def clearTag (m : Word) (x : Thread) (n : Nat) : Thread :=
  if !m.getLsbD n || (progressOf x n).state == 1 then x
  else
    let y := { x with tags := x.tags &&& ~~~tagBit n }
    if (progressOf x n).state = 2 || (progressOf x n).state = 3 then putProgress y n { progressOf x n with state := 0 } else y

theorem clearTags_eq (x : Thread) (m : Word) : clearTags x m = (List.range 64).foldl (clearTag m) x := rfl

theorem clearTag_fields (m : Word) (x : Thread) (n : Nat) :
    clearTag m x n = { x with tags := (clearTag m x n).tags, progress := (clearTag m x n).progress } := by
  unfold clearTag putProgress
  dsimp only
  split
  · rfl
  · split <;> rfl

theorem tagBit_getLsbD {n j : Nat} (h : j < 64) : (tagBit n).getLsbD j = decide (j = n) := by
  rw [tagBit, BitVec.getLsbD_ofNat, Nat.testBit_two_pow, decide_eq_true h, Bool.true_and]
  exact decide_eq_decide.mpr eq_comm

theorem clearTag_tags (m : Word) (x : Thread) (n : Nat) {j : Nat} (h : j < 64) :
    (clearTag m x n).tags.getLsbD j =
      (x.tags.getLsbD j && !(decide (j = n) && m.getLsbD j && (progressOf x j).state != 1)) := by
  have tags : (clearTag m x n).tags =
      if !m.getLsbD n || (progressOf x n).state == 1 then x.tags else x.tags &&& ~~~tagBit n := by
    unfold clearTag putProgress
    dsimp only
    split
    · rfl
    · split <;> rfl
  rw [tags]
  by_cases same : j = n
  · subst same
    by_cases keep : (!m.getLsbD j || (progressOf x j).state == 1) = true
    · rw [if_pos keep]
      rcases Bool.or_eq_true_iff.mp keep with off | busy
      · simp only [Bool.not_eq_true'] at off
        simp [off]
      · simp [eq_of_beq busy]
    · rw [if_neg keep, BitVec.getLsbD_and, BitVec.getLsbD_not, tagBit_getLsbD h]
      have := Bool.or_eq_false_iff.mp (Bool.eq_false_iff.mpr keep)
      simp only [Bool.not_eq_false'] at this
      simp [this.1, bne, this.2]
  · rw [decide_eq_false same]
    split
    · simp
    · rw [BitVec.getLsbD_and, BitVec.getLsbD_not, tagBit_getLsbD h, decide_eq_true h, decide_eq_false same]
      simp

theorem clearTag_progress (m : Word) (x : Thread) (n j : Nat) :
    progressOf (clearTag m x n) j =
      if j = n ∧ m.getLsbD j = true ∧ ((progressOf x j).state = 2 ∨ (progressOf x j).state = 3) then
        { progressOf x j with state := 0 } else progressOf x j := by
  unfold clearTag putProgress
  dsimp only
  split
  · next keep =>
    rw [if_neg]
    rintro ⟨rfl, on, state⟩
    rcases Bool.or_eq_true_iff.mp keep with off | busy
    · simp [on] at off
    · have := eq_of_beq busy
      omega
  · next go =>
    have on : m.getLsbD n = true := by
      by_contra off
      exact go (by simp [off])
    split
    · next state =>
      by_cases same : j = n
      · subst same
        rw [if_pos ⟨rfl, on, by simpa using state⟩]
        simp [progressOf, kget]
      · rw [if_neg fun h => same h.1]
        simp [progressOf, kget, kfind_kset_ne _ _ same]
    · next state =>
      rw [if_neg]
      · rfl
      · rintro ⟨rfl, -, ended⟩
        exact state (by simpa using ended)

/-- What TAGCLR leaves of a thread's record: its tags and its progress records. -/
theorem clearTag_foldl (m : Word) {l : List Nat} (once : l.Nodup) (x : Thread) :
    l.foldl (clearTag m) x =
        { x with tags := (l.foldl (clearTag m) x).tags, progress := (l.foldl (clearTag m) x).progress } ∧
      (∀ j, j < 64 → (l.foldl (clearTag m) x).tags.getLsbD j =
        (x.tags.getLsbD j && !(decide (j ∈ l) && m.getLsbD j && (progressOf x j).state != 1))) ∧
      ∀ j, progressOf (l.foldl (clearTag m) x) j =
        if j ∈ l ∧ m.getLsbD j = true ∧ ((progressOf x j).state = 2 ∨ (progressOf x j).state = 3) then
          { progressOf x j with state := 0 } else progressOf x j := by
  induction l generalizing x with
  | nil => exact ⟨rfl, fun j _ => by simp, fun j => by simp⟩
  | cons n r ih =>
    obtain ⟨fresh, once⟩ := List.nodup_cons.mp once
    obtain ⟨rest, tags, progress⟩ := ih once (clearTag m x n)
    rw [List.foldl_cons]
    refine ⟨?_, fun j hj => ?_, fun j => ?_⟩
    · generalize hz : r.foldl (clearTag m) (clearTag m x n) = z at rest
      exact rest.trans (congrArg (fun y : Thread => { y with tags := z.tags, progress := z.progress }) (clearTag_fields m x n))
    · rw [tags j hj, clearTag_tags m x n hj, clearTag_progress]
      by_cases same : j = n
      · subst same
        simp [fresh]
      · simp [same]
    · rw [progress j, clearTag_progress]
      by_cases same : j = n
      · subst same
        simp [fresh]
      · simp [same]

theorem exec_tagclr (s : State) (a : Reg) : exec (.tagclr a) s =
    issue s (admits s true [a]) (fun s => advance (modMy s (fun x => clearTags x (reg s a)))) := rfl

/-- A word that changes its own thread's record, told by what it has made of it. -/
theorem ChangedOwn.of_eq {s t : State} {f g : Thread → Thread} (h : ChangedOwn s t f) (same : f (my s) = g (my s)) : ChangedOwn s t g := by
  obtain ⟨⟨rest, threads, rets, mine, ret, regs, segs, pc⟩, bytes⟩ := h
  refine ⟨⟨rest, threads, rets, ?_, ret, regs, segs, pc⟩, bytes⟩
  simp only [Effect.own] at mine ⊢
  rw [← same]
  exact mine

/-- The rest of a thread's record once a word has changed it. -/
theorem ChangedOwn.tags_progress {s t : State} {f : Thread → Thread} (h : ChangedOwn s t f) :
    (my t).tags = (f (my s)).tags ∧ (my t).progress = (f (my s)).progress := by
  have mine := h.1.mine
  split at mine <;> rw [mine] <;> exact ⟨rfl, rfl⟩

theorem tagclr_spec {s : State} {a : Reg} (ok : admits s true [a] = true) : ∃ t, exec (.tagclr a) s = .next t ∧
    ChangedOwn s t (fun x => { x with tags := (my t).tags, progress := (my t).progress }) ∧
    (∀ n, n < 64 → (my t).tags.getLsbD n =
      ((my s).tags.getLsbD n && !((reg s a).getLsbD n && (progressOf (my s) n).state != 1))) ∧
    (∀ n, progressOf (my t) n =
      if n < 64 ∧ (reg s a).getLsbD n = true ∧ ((progressOf (my s) n).state = 2 ∨ (progressOf (my s) n).state = 3) then
        { progressOf (my s) n with state := 0 } else progressOf (my s) n) := by
  obtain ⟨rest, tags, progress⟩ := clearTag_foldl (reg s a) List.nodup_range (my s) (l := List.range 64)
  rw [← clearTags_eq] at rest tags progress
  have kept (x : Thread) : (clearTags x (reg s a)).hart = x.hart ∧ (clearTags x (reg s a)).instret = x.instret := by
    have fields := (clearTag_foldl (reg s a) List.nodup_range x (l := List.range 64)).1
    rw [← clearTags_eq] at fields
    rw [fields]
    exact ⟨rfl, rfl⟩
  have changed := advance_modMy_changed s (fun x => clearTags x (reg s a)) kept
  refine ⟨_, (exec_tagclr s a).trans (issue_ok ok _), ?_⟩
  generalize advance (modMy s (fun x => clearTags x (reg s a))) = t at changed
  obtain ⟨ht, hp⟩ := changed.tags_progress
  refine ⟨changed.of_eq (by rw [ht, hp]; exact rest), fun n hn => ?_, fun n => ?_⟩
  · rw [ht, tags n hn]
    simp [hn]
  · have := progress n
    unfold progressOf at this ⊢
    rw [hp, this]
    simp

/-! ### TAGSTAT -/

theorem sbAbs_isSome (s : State) (p c n : Nat) : (sbAbs s p c n).isSome = decide (n < (sbWindow s p c).2) := by
  unfold sbAbs
  dsimp only
  split <;> simp_all

theorem exec_tagstat (s : State) (d a b : Reg) : exec (.tagstat d a b) s =
    issue s (admits s true [d, a, b] && decide ((reg s b).toNat ≤ 7) &&
      (!(reg s a).getLsbD 6 || (sbAbs s (myPool s) (myCtx s) (field (reg s a) 0 6)).isSome)) (fun s' =>
    advance (setReg s' d (progressDword (progressOf (my s') (field (reg s a) 0 6 + (if (reg s a).getLsbD 6 then 64 else 0)))
      (reg s' b).toNat))) := rfl

/-- Settles O28, by the wait that three words share, the fold of TAGCLR over the tags, and the handle that TAGSTAT reads. -/
theorem tags : Obligations.Tags := by
  intro s d a b busy
  have inFlight (m : Word) : tagsInFlight (my s) m = true ↔ busy m := tagsInFlight_iff (my s) m
  have quiet {m : Word} (h : ¬busy m) : tagsInFlight (my s) m = false := Bool.eq_false_iff.mpr (mt (inFlight m).mp h)
  refine ⟨fun ok => ?_, tagclr_spec, fun ok inside => ?_, fun ill i hi => ?_, fun ill => (exec_tagclr s a).trans (issue_ill ill _),
    fun ill => ?_⟩
  · intro m
    rw [exec_waitany, exec_waitall, exec_ffready]
    refine ⟨fun go => tagWait_goes ok ?_, fun none_ wait => tagWait_waits ok ?_, fun go => tagWait_goes ok ?_, fun wait => tagWait_waits ok ?_,
      tagWait_goes ok rfl⟩
    · rcases go with some_ | go
      · simp [m] at some_ ⊢
        exact .inl some_
      · simp [m, quiet go]
    · have := (inFlight m).mpr wait
      simp only [m] at this none_
      simp [this, none_]
    · simp [m, quiet go]
    · have := (inFlight m).mpr wait
      simp only [m] at this
      simp [this]
  · intro n
    rw [exec_tagstat, field_eq]
    refine ⟨fun tag => ?_, fun barrier window => ?_⟩
    · rw [issue_ok (by rw [ok, decide_eq_true inside, tag]; rfl), tag]
      exact ⟨_, rfl, advance_setReg_wrote ..⟩
    · rw [issue_ok (by rw [ok, decide_eq_true inside, sbAbs_isSome, decide_eq_true window, Bool.or_true]; rfl), barrier]
      exact ⟨_, rfl, advance_setReg_wrote ..⟩
  · simp only [List.mem_cons, List.not_mem_nil, or_false] at hi
    rcases hi with rfl | rfl | rfl
    exacts [(exec_waitany ..).trans (issue_ill ill _), (exec_waitall ..).trans (issue_ill ill _),
      (exec_ffready ..).trans (issue_ill ill _)]
  · rw [exec_tagstat, field_eq]
    refine issue_ill ?_ _
    rcases ill with ill | above | ⟨barrier, outside⟩
    · simp [ill]
    · rw [decide_eq_false (by omega)]
      simp
    · rw [sbAbs_isSome, decide_eq_false (not_lt.mpr outside), barrier]
      simp

end Sys2Proof.Machine
end

section
/-! RESULT. The stage-barrier instructions (O29). -/

namespace Sys2Proof.Machine

/-! ### A word on a barrier -/

theorem admits_of_subset {s : State} {ret : Bool} {rs qs : List Reg} (h : admits s ret rs = true) (sub : qs ⊆ rs) :
    admits s ret qs = true := by
  obtain ⟨regs, agent⟩ := Bool.and_eq_true_iff.mp h
  exact Bool.and_eq_true_iff.mpr ⟨List.all_eq_true.mpr fun r hr => List.all_eq_true.mp regs r (sub hr), agent⟩

/-- The agent has used a stage barrier of its pool (R264). -/
def usedBarrier (s : State) : State := modMy s (fun y => { y with window := some (myPool s) })

theorem myPool_usedBarrier (s : State) : myPool (usedBarrier s) = myPool s := rfl

theorem releaseWaits_usedBarrier (s : State) (sc : Nat) : releaseWaits (usedBarrier s) sc = releaseWaits s sc := rfl

section
variable {s : State} {ok valid : Bool} {rs : List Reg} {a : Reg} {k : Nat} (f : State → Nat → Barrier → State)

theorem sbWord_on (here : sbAbs s (myPool s) (myCtx s) ((reg s a).extractLsb' 0 6).toNat = some k) (regs : admits s true rs = true)
    (fits : ok = true) (up : valid = true → (barrier s (myPool s) k).valid = true) :
    sbWord ok valid rs a f s = .next (f (usedBarrier s) k (barrier s (myPool s) k)) := by
  have goes : (admits s true rs && ok && (!valid || (barrier s (myPool s) k).valid)) = true := by
    cases valid
    · simp [regs, fits]
    · simp [regs, fits, up rfl]
  unfold sbWord sbOf
  rw [field_eq, here]
  exact issue_ok goes _

theorem sbWord_outside (out : (sbWindow s (myPool s) (myCtx s)).2 ≤ ((reg s a).extractLsb' 0 6).toNat) :
    sbWord ok valid rs a f s = .next (takeIll s) := by
  have none_ : sbAbs s (myPool s) (myCtx s) ((reg s a).extractLsb' 0 6).toNat = none := if_neg (not_lt.mpr out)
  unfold sbWord sbOf
  rw [field_eq, none_]
  exact issue_ill rfl _

theorem sbWord_refused (bad : admits s true rs = false ∨ ok = false ∨ (valid = true ∧
    ∀ k, sbAbs s (myPool s) (myCtx s) ((reg s a).extractLsb' 0 6).toNat = some k → (barrier s (myPool s) k).valid = false)) :
    sbWord ok valid rs a f s = .next (takeIll s) := by
  unfold sbWord sbOf
  rw [field_eq]
  split
  · exact issue_ill rfl _
  · next k here =>
    refine issue_ill ?_ _
    rcases bad with regs | range | ⟨needs, down⟩
    · simp [regs]
    · simp [range]
    · simp [needs, down k here]

end

/-! ### The five words -/

section
variable (s : State) (d a b : Reg)

theorem exec_sbinit : exec (.sbinit a b) s = sbWord (decide (1 ≤ (reg s b).toNat ∧ (reg s b).toNat ≤ 65535)) false [a, b] a
    (fun s' k _ => advance (setBarrier s' (myPool s') k { Barrier.zero with ncons := BitVec.ofNat 16 (reg s b).toNat, valid := true })) s :=
  rfl

theorem exec_sbexp : exec (.sbexp a b) s = sbWord (decide (1 ≤ (reg s b).toNat ∧ (reg s b).toNat ≤ 2 ^ 46)) true [a, b] a
    (fun s' k x => advance (setBarrier s' (myPool s') k
      (flipFull { x with pend := x.pend + BitVec.ofNat 48 (reg s b).toNat, armed := true }))) s := rfl

theorem exec_sbwait : exec (.sbwait d a b) s = sbWord true true [d, a, b] a (fun s' k x =>
    if (if (reg s b).getLsbD 1 then x.xph else x.fph) != (reg s b).getLsbD 0 || (!(reg s b).getLsbD 1 && x.fault) then
      advance (setReg (joinOps s' s'.cur (coversAt s' [sbKey (myPool s') k])) d (sbDword x 0))
    else waitHere s') s := rfl

theorem exec_sbrel : exec (.sbrel a) s = sbWord true true [a] a (fun s' k x =>
    if releaseWaits s' 2 then waitHere s'
    else advance (putCovers (setBarrier s' (myPool s') k (countRelease x)) [sbKey (myPool s') k] (queuedOps s' s'.cur) true)) s := rfl

theorem exec_sbstat : exec (.sbstat d a b) s = sbWord (decide ((reg s b).toNat ≤ 1)) true [d, a, b] a
    (fun s' _ x => advance (setReg s' d (sbDword x (reg s b).toNat))) s := rfl

end

theorem sbForm_word {d a b : Reg} {p : Instr × List Reg} (h : p ∈ [(Instr.sbinit a b, [a, b]), (.sbexp a b, [a, b]), (.sbwait d a b, [d, a, b]),
    (.sbrel a, [a]), (.sbstat d a b, [d, a, b])]) (s : State) : ∃ ok valid f, exec p.1 s = sbWord ok valid p.2 a f s := by
  simp only [List.mem_cons, List.not_mem_nil, or_false] at h
  rcases h with rfl | rfl | rfl | rfl | rfl
  exacts [⟨_, _, _, exec_sbinit s a b⟩, ⟨_, _, _, exec_sbexp s a b⟩, ⟨_, _, _, exec_sbwait s d a b⟩, ⟨_, _, _, exec_sbrel s a⟩,
    ⟨_, _, _, exec_sbstat s d a b⟩]

/-! ### What releases on a barrier cover -/

theorem myDie_eq_agentCore (s : State) : myDie s = dieOfCore (agentCore s.cur) := by
  unfold myDie myCore agentCore
  cases s.cur <;> rfl

/-- An agent that joins writes counts among the agents of each of them in its die's queues. -/
theorem joinOps_covers (s : State) (a : Agent) (ops : List Nat) :
    ∀ w ∈ (die (joinOps s a ops) (dieOfCore (agentCore a))).hostq ++ (die (joinOps s a ops) (dieOfCore (agentCore a))).peerq,
      w.op ∈ ops → a ∈ w.agents := by
  intro w hw covered
  unfold joinOps at hw
  dsimp only at hw
  rw [if_neg (by intro none_; rw [List.isEmpty_iff.mp none_] at covered; cases covered), die_modDie, if_pos rfl,
    ← List.map_append] at hw
  obtain ⟨v, -, rfl⟩ := List.mem_map.mp hw
  by_cases marked : (ops.contains v.op && !v.agents.contains a) = true
  · rw [if_pos marked]
    simp
  · rw [if_neg marked] at covered ⊢
    simpa [covered] using marked

/-- A release at one location leaves there what it covers, and nothing else changes. -/
theorem putCovers_key (s : State) (key : Nat) (ops : List Nat) (seq : Bool) :
    putCovers s [key] ops seq = { s with covers := (putCovers s [key] ops seq).covers } ∧
      ∀ o ∈ ops, o ∈ kget (putCovers s [key] ops seq).covers key [] := by
  unfold putCovers
  split
  · next none_ =>
    refine ⟨rfl, fun o ho => ?_⟩
    rw [List.isEmpty_iff.mp (Bool.and_eq_true_iff.mp none_).2] at ho
    cases ho
  · refine ⟨rfl, fun o ho => ?_⟩
    have inside : o ∈ ((if seq then kget s.covers key [] else []) ++ ops).dedup :=
      List.mem_dedup.mpr (List.mem_append_right _ ho)
    rw [List.foldl_cons, List.foldl_nil]
    dsimp only
    rw [if_neg (by intro none_; rw [List.isEmpty_iff.mp none_] at inside; cases inside)]
    simpa [kget] using inside

theorem flipFull_armed (x : Barrier) (n : Nat) :
    flipFull { x with pend := x.pend + BitVec.ofNat 48 n, armed := true } =
      if (x.pend + BitVec.ofNat 48 n).toInt ≤ 0 then
        { x with pend := x.pend + BitVec.ofNat 48 n, fph := !x.fph, armed := false }
      else { x with pend := x.pend + BitVec.ofNat 48 n, armed := true } := by
  simp [flipFull, pendInt]

/-! ### The words on a barrier that is VALID -/

section
variable {s : State} {d a b : Reg} {k : Nat} (regs : admits s true [d, a, b] = true)
variable (here : sbAbs s (myPool s) (myCtx s) ((reg s a).extractLsb' 0 6).toNat = some k)
variable (up : (barrier s (myPool s) k).valid = true)

/-- SBWAIT's condition: the phase of its half differs from the parity, or the full half has FAULT (R263). -/
def SbGoes (x : Barrier) (v : Word) : Prop :=
  (if v.getLsbD 1 then x.xph else x.fph) ≠ v.getLsbD 0 ∨ (v.getLsbD 1 = false ∧ x.fault = true)

theorem sbGoes_iff (x : Barrier) (v : Word) :
    ((if v.getLsbD 1 then x.xph else x.fph) != v.getLsbD 0 || (!v.getLsbD 1 && x.fault)) = true ↔ SbGoes x v := by
  simp [SbGoes]

include regs here up

theorem sbwait_goes (go : SbGoes (barrier s (myPool s) k) (reg s b)) :
    ∃ v, CachesOnly (usedBarrier s) v ∧ exec (.sbwait d a b) s = .next (advance (setReg v d (sbDword (barrier s (myPool s) k) 0))) ∧
      ∀ w ∈ (die v (myDie s)).hostq ++ (die v (myDie s)).peerq, w.op ∈ coversAt s [sbKey (myPool s) k] → s.cur ∈ w.agents := by
  refine ⟨_, joinOps_caches (usedBarrier s) s.cur (coversAt s [sbKey (myPool s) k]), ?_, ?_⟩
  · rw [exec_sbwait, sbWord_on _ here regs rfl fun _ => up]
    exact congrArg _ (if_pos ((sbGoes_iff ..).mpr go))
  · rw [myDie_eq_agentCore]
    exact joinOps_covers (usedBarrier s) s.cur _

theorem sbwait_waits (stay : ¬SbGoes (barrier s (myPool s) k) (reg s b)) : exec (.sbwait d a b) s = .next (waitHere (usedBarrier s)) := by
  rw [exec_sbwait, sbWord_on _ here regs rfl fun _ => up]
  exact congrArg _ (if_neg (mt (sbGoes_iff ..).mp stay))

theorem sbrel_waits (waits : releaseWaits s 2 = true) : exec (.sbrel a) s = .next (waitHere (usedBarrier s)) := by
  rw [exec_sbrel, sbWord_on _ here (admits_of_subset regs (by simp)) rfl fun _ => up]
  exact congrArg _ (if_pos waits)

theorem sbrel_goes (free : releaseWaits s 2 = false) :
    ∃ v, v = { setBarrier (usedBarrier s) (myPool s) k (countRelease (barrier s (myPool s) k)) with covers := v.covers } ∧
      (∀ o ∈ queuedOps s s.cur, o ∈ kget v.covers (sbKey (myPool s) k) []) ∧ exec (.sbrel a) s = .next (advance v) := by
  obtain ⟨rest, covered⟩ := putCovers_key (setBarrier (usedBarrier s) (myPool s) k (countRelease (barrier s (myPool s) k)))
    (sbKey (myPool s) k) (queuedOps s s.cur) true
  refine ⟨_, rest, covered, ?_⟩
  rw [exec_sbrel, sbWord_on _ here (admits_of_subset regs (by simp)) rfl fun _ => up]
  exact congrArg _ (if_neg (Bool.eq_false_iff.mp free))

end

/-- Settles O29, by the word on a barrier that the five instructions share. -/
theorem stageBarriers : Obligations.StageBarriers := by
  refine ⟨fun s d a b => ?_, fun s d a b k regs here => ?_⟩
  · intro forms p hp bad
    obtain ⟨ok, valid, f, word⟩ := sbForm_word hp s
    rcases bad with bad | out
    · exact word.trans (sbWord_refused f (.inl bad))
    · exact word.trans (sbWord_outside f out)
  intro x u n
  have two : admits s true [a, b] = true := admits_of_subset regs (by simp)
  refine ⟨fun low high => ?_, fun range => ?_, fun range => ?_, fun range => ?_, fun up => ⟨fun low high => ?_, ?_, ?_, ?_, fun high => ?_⟩,
    fun down => ?_⟩
  · rw [exec_sbinit, sbWord_on _ here two (decide_eq_true ⟨low, high⟩) (fun h => absurd h (by decide))]
    rfl
  · exact (exec_sbinit s a b).trans (sbWord_refused _ (.inr (.inl (decide_eq_false (by omega)))))
  · exact (exec_sbexp s a b).trans (sbWord_refused _ (.inr (.inl (decide_eq_false (by omega)))))
  · exact (exec_sbstat s d a b).trans (sbWord_refused _ (.inr (.inl (decide_eq_false (by omega)))))
  · intro y
    rw [exec_sbexp, sbWord_on _ here two (decide_eq_true ⟨low, high⟩) (fun _ => up), flipFull_armed]
    rfl
  · exact ⟨sbwait_goes regs here up, sbwait_waits regs here up⟩
  · exact sbrel_waits regs here up
  · exact sbrel_goes regs here up
  · rw [exec_sbstat, sbWord_on _ here regs (decide_eq_true high) (fun _ => up)]
    rfl
  · have refused {ok : Bool} {rs : List Reg} (f : State → Nat → Barrier → State) : sbWord ok true rs a f s = .next (takeIll s) :=
      sbWord_refused f (.inr (.inr ⟨rfl, fun j hj => by rw [here] at hj; cases hj; exact down⟩))
    exact ⟨(exec_sbexp s a b).trans (refused _), (exec_sbwait s d a b).trans (refused _), (exec_sbrel s a).trans (refused _),
      (exec_sbstat s d a b).trans (refused _)⟩

end Sys2Proof.Machine
end

section
/-! SUPPORT. The end of a D word: its results written, and the agent at its target (R34, R357). -/

namespace Sys2Proof.Machine

/-! ### Results of halves -/

/-- A half's result in the hart of its agent. -/
def putHart (m : Option (Reg × Word)) (h : Hart) : Hart :=
  match m with
  | some (d, v) => h.set d v
  | none => h

theorem putHart_pc (m : Option (Reg × Word)) (h : Hart) : (putHart m h).pc = h.pc := by
  unfold putHart
  split
  · exact Hart.set_pc _ _ _
  · rfl

theorem putHart_segs (m : Option (Reg × Word)) (h : Hart) : (putHart m h).segs = h.segs := by
  unfold putHart
  split
  · exact Hart.set_segs _ _ _
  · rfl

/-! ### The agent at its target -/

theorem trace_modHart (s : State) (f : Hart → Hart) (keeps : ∀ h, (f h).pc = h.pc) (kind code : Nat) (data : Word) :
    trace (modHart s f) kind code data = modHart (trace s kind code data) f := by
  have pc : pcOf (modHart s f) = pcOf s := by
    unfold pcOf
    rw [hart_modHart, keeps]
  have entry : trace (modHart s f) kind code data = pushTrace (modHart s f) (myCore s)
      { time := s.time, kind := kind, code := code, ctx := myCtx s, hw := hwOf (me s), pc := pcOf s, data := data } := by
    unfold trace
    rw [pc, modHart_me, modHart_myCtx, modHart_time, myCore, myCore, modHart_cur]
  rw [entry]
  unfold modHart
  cases h : s.cur <;> simp [h, trace, pushTrace, modThr, setThr, modRet, modCore, thr, ret, core]

/-- The trace ring once its agent has gone on at a target: another than the next word is recorded (R357). -/
def recorded (s : State) (target : Word) : State := if target = pcOf s + 8 then s else trace s 1 0 target

theorem recorded_fields (s : State) (target : Word) : recorded s target = { s with cores := (recorded s target).cores } := by
  unfold recorded
  split <;> rfl

theorem recorded_cores {s u : State} (same : SameAgents s u) (cores : u.cores = s.cores) (time : u.time = s.time) (target : Word) :
    (recorded u target).cores = (recorded s target).cores := by
  have core (k : Nat) : core u k = core s k := by unfold Machine.core; rw [cores]
  have at_ : myCore u = myCore s := by unfold myCore; rw [same.cur]
  unfold recorded trace pushTrace modCore
  rw [same.pcOf]
  split
  · exact cores
  · dsimp only
    rw [cores, time, at_, core, same.myCtx, same.me]

/-- The word of a thread has gone on at a target with its hart changed by `f`: what is otherwise changed is as in `u`. -/
structure Landed (s u t : State) (f : Hart → Hart) (target : Word) : Prop where
  rest : t = { recorded u target with threads := t.threads }
  others : ∀ n, n ≠ me s → kfind t.threads n = kfind s.threads n
  rets : t.rets = s.rets
  mine : my t = { my s with hart := hart t, instret := (my s).instret + 1, cond := .ready }
  regs : ∀ r, reg t r = (f (hart s)).get r
  segs : ∀ g, seg t g = seg s g
  pc : pcOf t = target

theorem Landed.bytes {s u t : State} {f : Hart → Hart} {target : Word} (h : Landed s u t f target) : BytesKept u t := by
  have rest := h.rest
  rw [recorded_fields] at rest
  exact (sameBytes_of (by rw [rest]) (by rw [rest]) (by rw [rest])).bytesKept

/-- A thread retires with its hart changed and its PC at a target. -/
theorem landed_of {s u : State} {n : Nat} (cur : s.cur = .thread n) (same : SameAgents s u) (f : Hart → Hart)
    (segs : ∀ h, (f h).segs = h.segs) (target : Word) :
    Landed s u (retire (modHart (recorded u target) (fun h => { f h with pc := target }))) f target := by
  have kept := recorded_fields u target
  have cur' : (recorded u target).cur = .thread n := by rw [kept]; exact same.cur.trans cur
  have threads : (recorded u target).threads = s.threads := by rw [kept]; exact same.threads
  have rets : (recorded u target).rets = s.rets := by rw [kept]; exact same.rets
  have record : thr (recorded u target) n = thr s n := by unfold thr; rw [threads]
  have mine : hart s = (thr s n).hart := by unfold hart; rw [cur]
  have self : me s = n := by unfold me; rw [cur]
  rw [retire_modHart_thread _ n _ cur', record]
  have hart_eq (y : Thread) : hart (setThr (recorded u target) n y) = y.hart := by simp [hart, cur', thr_setThr]
  refine ⟨rfl, fun j hj => ?_, rets, ?_, fun r => ?_, fun g => ?_, ?_⟩
  · rw [self] at hj
    rw [setThr, kfind_kset_ne _ _ hj, threads]
  · rw [hart_eq]
    simp [my, me, cur, cur', thr_setThr]
  · rw [reg, hart_eq, mine]
    rfl
  · rw [seg, seg, hart_eq, mine]
    simp [segs]
  · rw [pcOf, hart_eq]

/-- A taken branch half sends the agent to its target; without one it goes on at the next word. -/
def land (target : Option Word) (s : State) : State :=
  match target with
  | some t => jump s t
  | none => advance s

/-- A state in which the issuing agent's hart is changed by `f`, or in which nothing is. -/
def HartChanged (s u : State) (f : Hart → Hart) : Prop := u = modHart s f ∨ u = s ∧ f = id

theorem HartChanged.put {s u : State} {f : Hart → Hart} (h : HartChanged s u f) (m : Option (Reg × Word)) :
    HartChanged s (putHalf u m) (fun x => putHart m (f x)) := by
  cases m with
  | none => exact h
  | some p =>
    refine .inl ?_
    rcases h with rfl | ⟨rfl, rfl⟩
    · rw [putHalf, setReg, modHart_modHart]
      rfl
    · rfl

/-- The word retires at its target, whether or not a result was written before. -/
theorem HartChanged.land {s u : State} {n : Nat} (cur : s.cur = .thread n) {f : Hart → Hart} (h : HartChanged s u f)
    (keeps : ∀ x, (f x).pc = x.pc) (target : Option Word) :
    Machine.land target u =
      retire (modHart (recorded s (target.getD (pcOf s + 8))) (fun x => { f x with pc := target.getD (pcOf s + 8) })) := by
  have thread : onRet u = false := by rcases h with rfl | ⟨rfl, -⟩ <;> simp [onRet, cur]
  have pc : pcOf u = pcOf s := by
    rcases h with rfl | ⟨rfl, -⟩
    · rw [pcOf, hart_modHart, keeps, pcOf]
    · rfl
  have traced (x : Word) : HartChanged (trace s 1 0 x) (trace u 1 0 x) f := by
    rcases h with rfl | ⟨rfl, rfl⟩
    · exact .inl (trace_modHart s f keeps 1 0 x)
    · exact .inr ⟨rfl, rfl⟩
  have placed {v w : State} (hv : HartChanged v w f) (x : Word) : setPc w x = modHart v (fun y => { f y with pc := x }) := by
    rcases hv with rfl | ⟨rfl, rfl⟩
    · rw [setPc, modHart_modHart]
    · rfl
  cases target with
  | none =>
    rw [Machine.land, advance, placed h, pc, Option.getD_none, recorded, if_pos rfl]
  | some x =>
    rw [Machine.land, jump, pc, thread, Option.getD_some, recorded]
    by_cases next : x = pcOf s + 8
    · simp only [next, decide_true, Bool.true_or, if_true]
      rw [placed h]
    · simp only [next, decide_false, Bool.or_false, Bool.false_eq_true, if_false]
      rw [placed (traced x)]

end Sys2Proof.Machine
end

section
/-! RESULT. D words: both halves read before either writes (O32). -/

namespace Sys2Proof.Machine

/-! ### The end of a D word -/

theorem putHart_get (m : Option (Reg × Word)) (h : Hart) (r : Reg) :
    (putHart m h).get r = match m with
      | some (d, v) => if r = d ∧ d ≠ 0 then v else h.get r
      | none => h.get r := by
  cases m with
  | none => rfl
  | some p => exact Hart.get_set ..

theorem exec_dualWord (s : State) (hi lo : Half) : exec (.dualWord hi lo) s =
    issue s (admits s false (halfRegs hi ++ halfRegs lo)) (fun s =>
      if hi.isMem then
        halfAccess s (fun m u => land (halfTarget s lo) (putHalf (putHalf (putHalf u m) (halfResult s hi)) (halfResult s lo))) hi
      else halfAccess s (fun m u => land (halfTarget s lo) (putHalf (putHalf (putHalf u m) (halfResult s hi)) (halfResult s lo))) lo) := rfl

theorem thread_of_admits {s : State} {rs : List Reg} (ok : admits s false rs = true) : ∃ n, s.cur = .thread n := by
  have thread := (Bool.and_eq_true_iff.mp ok).2
  cases cur : s.cur with
  | thread n => exact ⟨n, rfl⟩
  | ret n => simp [onRet, cur] at thread

/-- The results written in their order and the target taken, from a state in which the agents are as they were. -/
theorem landed_halves {s u : State} {n : Nat} (cur : s.cur = .thread n) (same : SameAgents s u) (m x y : Option (Reg × Word))
    (target : Option Word) :
    Landed s u (land target (putHalf (putHalf (putHalf u m) x) y)) (fun h => putHart y (putHart x (putHart m h)))
      (target.getD (pcOf s + 8)) := by
  have changed : HartChanged u (putHalf (putHalf (putHalf u m) x) y) (fun h => putHart y (putHart x (putHart m h))) :=
    (((show HartChanged u u id from .inr ⟨rfl, rfl⟩).put m).put x).put y
  rw [changed.land (same.cur.trans cur) (fun h => by rw [putHart_pc, putHart_pc, putHart_pc]), same.pcOf]
  exact landed_of cur same _ (fun h => by rw [putHart_segs, putHart_segs, putHart_segs]) _

/-! ### Without a memory half -/

theorem halfAccess_none {h : Half} (plain : h.isMem = false) (s : State) (fin : Option (Reg × Word) → State → State) :
    halfAccess s fin h = fin none s := by
  cases h <;> first | rfl | cases plain

theorem dualWord_plain {s : State} {hi lo : Half} (ok : admits s false (halfRegs hi ++ halfRegs lo) = true) (high : hi.isMem = false)
    (low : lo.isMem = false) :
    ∃ t, exec (.dualWord hi lo) s = .next t ∧
      Landed s s t (fun h => putHart (halfResult s lo) (putHart (halfResult s hi) h)) ((halfTarget s lo).getD (pcOf s + 8)) := by
  obtain ⟨n, cur⟩ := thread_of_admits ok
  refine ⟨_, ?_, landed_halves cur (.refl s) none (halfResult s hi) (halfResult s lo) (halfTarget s lo)⟩
  rw [exec_dualWord, issue_ok ok, if_neg (by simp [high]), halfAccess_none low]

/-! ### With a memory half -/

/-- What a memory half leaves to do: the value loaded and the other half's result are written, and its branch is taken. -/
def dualEnd (s : State) (other : Half) (m : Option (Reg × Word)) (u : State) : State :=
  land (halfTarget s other) (putHalf (putHalf u m) (halfResult s other))

theorem dualEnd_landed {s u : State} {n : Nat} (cur : s.cur = .thread n) (same : SameAgents s u) (other : Half) (m : Option (Reg × Word)) :
    Landed s u (dualEnd s other m u) (fun h => putHart (halfResult s other) (putHart m h)) ((halfTarget s other).getD (pcOf s + 8)) := by
  have h := landed_halves cur same none m (halfResult s other) (halfTarget s other)
  exact h

theorem half_of_mem {h : Half} (mem : h.isMem = true) (s : State) : halfResult s h = none ∧ halfTarget s h = none := by
  cases h <;> first | exact ⟨rfl, rfl⟩ | cases mem

theorem halfTarget_of_no_branch {h : Half} (straight : h.isBranch = false) (s : State) : halfTarget s h = none := by
  cases h <;> first | rfl | cases straight

/-- A pair of halves: the first does not branch, and one of them at most accesses memory (R33). -/
theorem dualOk_pair {hi lo : Half} (h : dualOk hi lo = true) : hi.isBranch = false ∧ (hi.isMem && lo.isMem) = false := by
  simp only [dualOk, Bool.and_eq_true, Bool.not_eq_true'] at h
  exact ⟨h.1.1.1.1.2, h.1.1.1.2⟩

/-- A D word with a memory half, which stands first or second, is the access of that half, with what it leaves to do. -/
theorem exec_dual_mem {s : State} (up : Bool) {other m : Half} (mem : m.isMem = true)
    (wf : (if up then Instr.dualWord m other else .dualWord other m).wf = true)
    (ok : admits s false (halfRegs other ++ halfRegs m) = true) :
    exec (if up then Instr.dualWord m other else .dualWord other m) s = .next (halfAccess s (dualEnd s other) m) := by
  obtain ⟨result, straight⟩ := half_of_mem mem s
  cases up with
  | true =>
    rw [if_pos rfl, exec_dualWord, issue_ok (admits_of_subset ok (by simp)), if_pos mem, result]
    rfl
  | false =>
    obtain ⟨other_straight, one⟩ := dualOk_pair (hi := other) (lo := m) wf
    have plain : ¬other.isMem = true := by simpa [mem] using one
    rw [if_neg (by decide), exec_dualWord, issue_ok ok, if_neg plain, result, straight]
    unfold dualEnd
    rw [halfTarget_of_no_branch other_straight]
    rfl

/-- What a D word with a memory half leaves of everything but memory: `x` gives the registers before the other half's result. -/
def DualEnded (s : State) (other : Half) (x : Reg → Word) (t : State) : Prop :=
  pcOf t = (halfTarget s other).getD (pcOf s + 8) ∧ (∀ g, seg t g = seg s g) ∧
    (∀ n, n ≠ me s → kfind t.threads n = kfind s.threads n) ∧ t.rets = s.rets ∧
    my t = { my s with hart := hart t, instret := (my s).instret + 1, cond := .ready } ∧
    t.cores = (if (halfTarget s other).getD (pcOf s + 8) = pcOf s + 8 then s else trace s 1 0
      ((halfTarget s other).getD (pcOf s + 8))).cores ∧
    ∀ r, reg t r = match halfResult s other with
      | some (y, w) => if r = y ∧ y ≠ 0 then w else x r
      | none => x r

theorem HomesOnly.cores {s u : State} (h : HomesOnly s u) : u.cores = s.cores := by
  unfold HomesOnly at h
  rw [h]

theorem dualEnd_ended {s u : State} {n : Nat} (cur : s.cur = .thread n) (same : SameAgents s u) (cores : u.cores = s.cores)
    (time : u.time = s.time) (other : Half) (m : Option (Reg × Word)) :
    DualEnded s other (fun r => match m with | some (d, v) => if r = d ∧ d ≠ 0 then v else reg s r | none => reg s r)
        (dualEnd s other m u) ∧ BytesKept u (dualEnd s other m u) := by
  have landed := dualEnd_landed cur same other m
  have kept := landed.bytes
  obtain ⟨rest, others, rets, mine, regs, segs, pc⟩ := landed
  refine ⟨⟨pc, segs, others, rets, mine, ?_, fun r => ?_⟩, kept⟩
  · rw [rest]
    exact recorded_cores same cores time _
  · rw [regs, putHart_get, putHart_get]
    rfl

/-! ### The loads and the stores of a D word -/

/-- The bytes of a load half. -/
def loadBytes (k : HLoad) : Nat := if k = .d then 8 else 4

theorem halfAccess_load (s : State) (fin : Option (Reg × Word) → State → State) (k : HLoad) (d a : Reg) (sg : BitVec 3) (disp : BitVec 10) :
    halfAccess s fin (.load k d a sg disp) =
      loadPath { s with defer := false } sg (reg s a + disp.signExtend 64) (loadBytes k) 1 false .none
        (fun cva pas acq => .load d sg.toNat cva pas false acq) (fun s bytes => fin (some (d, loadValue (k == .w) bytes)) s) := by
  cases k <;> rfl

theorem halfAccess_store (s : State) (fin : Option (Reg × Word) → State → State) (wide : Bool) (d a : Reg) (sg : BitVec 3)
    (disp : BitVec 10) :
    halfAccess s fin (.store wide d a sg disp) = storePath s sg (reg s a + disp.signExtend 64) 1
      (leBytes (if wide then 8 else 4) (reg s d).toNat) none .none (fin none) := rfl

/-- A load's value comes at once: it is written, and the rest of the word is done. -/
theorem dual_load_goes {s : State} {n : Nat} (cur : s.cur = .thread n) (other : Half) {k : HLoad} {d a : Reg} {sg : BitVec 3}
    {disp : BitVec 10} (goes : LoadGoes { s with defer := false } sg (reg s a + disp.signExtend 64) (loadBytes k) 1 false) :
    let refs := accessRefs s sg (reg s a + disp.signExtend 64) (loadBytes k)
    let b := served { s with defer := false } refs
    ∃ t, halfAccess s (dualEnd s other) (.load k d a sg disp) = t ∧ BytesKept b t ∧
      DualEnded s other (fun r => if r = d ∧ d ≠ 0 then extended (loadBytes k) (k == .w) (bytesOf b refs) else reg s r) t := by
  intro refs b
  obtain ⟨u, caches, done⟩ := loadPath_goes goes .none (fun cva pas acq => .load d sg.toNat cva pas false acq)
    (fun s' bytes => dualEnd s other (some (d, loadValue (k == .w) bytes)) s')
  have homes : HomesOnly { s with defer := false } u := HomesOnly.trans (served_homes _ _) caches.homesOnly
  have some_ : 0 < (loadBytes k) := by cases k <;> decide
  have long : (bytesOf b refs).length = (loadBytes k) := length_bytesOf_accessRefs ..
  have value := loadValue_extended (k == .w) (l := bytesOf b refs) (long.symm ▸ some_)
  rw [long] at value
  obtain ⟨ended, kept⟩ := dualEnd_ended cur (u := u) ⟨homes.sameAgents.cur, homes.sameAgents.threads, homes.sameAgents.rets⟩ homes.cores
    homes.time other (some (d, loadValue (k == .w) (bytesOf b refs)))
  refine ⟨_, (halfAccess_load ..).trans done, caches.sameBytes.bytesKept.trans kept, ?_⟩
  rw [← value]
  exact ended

/-- The store of a D word that no cause stops: it is accepted, and the rest of the word is done. -/
theorem dual_store_goes {s : State} {n : Nat} (cur : s.cur = .thread n) (other : Half) {wide : Bool} {d a : Reg} {sg : BitVec 3}
    {disp : BitVec 10} :
    let off := reg s a + disp.signExtend 64
    let bytes := leBytes (if wide then 8 else 4) (reg s d).toNat
    let put := storedBytes s sg off bytes
    scalarCause s sg off bytes.length 1 1 = none →
    ∃ t, halfAccess s (dualEnd s other) (.store wide d a sg disp) = t ∧ DualEnded s other (reg s) t ∧
      (∀ loc, loc ∈ put.map (·.1) ∨ StoreSpares s s.cur (put.map (·.1)) loc →
        getLoc t s.cur (myDie s) loc = (lastWrite put loc).getD (getLoc s s.cur (myDie s) loc)) ∧
      ∀ x k loc, x ≠ s.cur → loc ∉ put.map (·.1) → StoreSpares s s.cur (put.map (·.1)) loc →
        (∀ y ∈ s.stores, y.agent = s.cur → loc ∉ y.locs.map (·.1)) → getLoc t x k loc = getLoc s x k loc := by
  intro off bytes put cause
  obtain ⟨homes, own, others⟩ := acceptStore_spec s s.cur ((accessRefs s sg off bytes.length).zip bytes) none .none
  have done := (halfAccess_store s (dualEnd s other) wide d a sg disp).trans (storePath_goes cause none .none (dualEnd s other none))
  obtain ⟨ended, kept⟩ := dualEnd_ended cur homes.sameAgents homes.cores homes.time other none
  refine ⟨_, done, ended, fun loc given => ?_, fun x k loc apart off_ spared early => ?_⟩
  · rw [kept, myDie_eq_agentCore]
    exact own loc given
  · rw [kept]
    exact others x k loc apart off_ spared early

/-- Settles O32, by the end that every D word has and the access of its memory half. -/
theorem dualWords : Obligations.DualWords := by
  refine ⟨fun s hi lo ok _ high low => ?_, fun s up other k wide d a sg disp => ?_, fun s hi lo ill => ?_⟩
  · intro target u
    obtain ⟨n, cur⟩ := thread_of_admits ok
    obtain ⟨t, done, landed⟩ := dualWord_plain ok high low
    have bytes := landed.bytes
    obtain ⟨rest, others, rets, mine, regs, segs, pc⟩ := landed
    have thread : onRet s = false := by simp [onRet, cur]
    have u_eq : u = recorded s target := by simp [u, recorded, thread]
    refine ⟨t, done, bytes, ?_, fun r => ?_, segs, pc, others, fun j _ => by rw [rets], fun _ => mine⟩
    · rw [u_eq]
      have same : t.rets = (recorded s target).rets := by rw [rets, recorded_fields]
      rw [same]
      exact rest
    · rw [regs, putHart_get, putHart_get]
      rcases halfResult s hi with - | ⟨x, v⟩ <;> rcases halfResult s lo with - | ⟨y, w⟩ <;> rfl
  · intro word s0 off n refs b v bytes target rest
    refine ⟨fun wf ok => ?_, fun wf ok => ?_⟩
    · obtain ⟨j, cur⟩ := thread_of_admits ok
      have run : exec (word (.load k d a sg disp)) s = _ := exec_dual_mem up rfl wf ok
      rw [run]
      refine ⟨fun goes => ?_, fun c stops => ?_, fun cause first => ?_, fun ready bad => ?_⟩
      · obtain ⟨t, done, kept, ended⟩ := dual_load_goes cur other goes
        exact ⟨t, congrArg _ done, kept, ended⟩
      · rw [halfAccess_load]
        exact congrArg _ (loadPath_cause (s := s0) stops ..)
      · rw [halfAccess_load]
        exact congrArg _ (loadPath_waits (s := s0) cause first)
      · have ready0 : LoadReady s0 sg off n 1 := ⟨ready.cause, ready.order⟩
        rw [halfAccess_load]
        exact congrArg _ ((loadPath_reads (s := s0) ready0 rfl).trans (readBytes_poisoned (acq := false) (fun no => absurd no (by decide)) bad))
    · obtain ⟨j, cur⟩ := thread_of_admits ok
      have run : exec (word (.store wide d a sg disp)) s = _ := exec_dual_mem up rfl wf ok
      rw [run]
      refine ⟨fun cause => ?_, fun c stops => ?_⟩
      · obtain ⟨t, done, ended, reads⟩ := dual_store_goes cur other cause
        exact ⟨t, congrArg _ done, ended, reads⟩
      · rw [halfAccess_store]
        exact congrArg _ (storePath_cause stops ..)
  · exact (exec_dualWord ..).trans (issue_ill ill _)

end Sys2Proof.Machine
end

section
/-! RESULT. Element-wise vector loads (O35). -/

namespace Sys2Proof.Machine

/-! ### Words that change their thread's record, seen from where they issued -/

theorem me_modMy (s : State) (f : Thread → Thread) : me (modMy s f) = me s := by
  unfold me
  cases h : s.cur <;> simp [h, modMy, modThr, setThr, ret]

theorem modMy_modMy (s : State) (f g : Thread → Thread) : modMy (modMy s f) g = modMy s (fun x => g (f x)) := by
  have self := me_modMy s f
  unfold modMy at self ⊢
  rw [self]
  simp [modThr, setThr, thr]

/-- A word that retired in a state whose agents are those of another retired in that other. -/
theorem Retired.of_same {s u t : State} (same : SameAgents s u) {f : Thread → Thread} (h : Retired u u t (.own u f)) :
    Retired s u t (.own s f) := by
  obtain ⟨rest, threads, rets, mine, ret_, regs, segs, pc⟩ := h
  refine ⟨rest, fun n hn => ?_, fun n hn => ?_, ?_, fun n hn => ?_, fun r => ?_, fun g => ?_, ?_⟩
  · rw [threads n (by rw [same.me]; exact hn), same.threads]
  · rw [rets n (by rw [same.cur]; exact hn), same.rets]
  · rw [mine, same.cur, same.my]
    rfl
  · have kept : Machine.ret u n = Machine.ret s n := by
      unfold Machine.ret
      rw [same.rets]
    rw [ret_ n (same.cur.trans hn), kept]
  · exact (regs r).trans (by rw [Effect.own, reg, same.hart]; rfl)
  · exact (segs g).trans (by rw [Effect.own, seg, same.hart]; rfl)
  · rw [pc, Effect.own, same.pcOf]
    rfl

theorem VecWrote.of_same {s u t : State} (same : SameAgents s u) {vd : VReg} {fmt : Nat} {l : List (Nat × Nat)} {f : Thread → Thread}
    (h : VecWrote u u t vd fmt l f) : VecWrote s u t vd fmt l f := by
  obtain ⟨retired, set, kept⟩ := h
  rw [same.my] at set
  exact ⟨retired.of_same same, set, kept⟩

/-! ### The path of a vector load -/

section
variable {s : State} {sg : BitVec 3} {w : Nat} {offs : List Nat} {hint : Hint} {vd : VReg} {fmt : Nat}
variable {put : List (List Byte) → List (Nat × Nat)}

/-- The bytes that a vector load reads, those of each element apart. -/
def loadedBytes (s : State) (sg : BitVec 3) (w : Nat) (offs : List Nat) : List (List Byte) :=
  (offs.map (elemRefs s sg w)).map (bytesOf (served s (offs.map (elemRefs s sg w)).flatten))

theorem vecLoad_cause {c : Cause} (h : vecCause s sg 0 w true offs = some c) :
    vecLoad s sg w true hint vd fmt offs put (fun _ => id) = takeCause s c := by
  unfold vecLoad
  rw [h]

theorem vecLoad_waits (cause : vecCause s sg 0 w true offs = none)
    (first : ((offs.map (elemRefs s sg w)).flatten).any (fun r => mustWait s s.cur s.stores r.kind false [] none) = true) :
    vecLoad s sg w true hint vd fmt offs put (fun _ => id) = waitHere s := by
  unfold vecLoad
  rw [cause]
  exact if_pos first

theorem vecLoad_poisoned (cause : vecCause s sg 0 w true offs = none)
    (order : ((offs.map (elemRefs s sg w)).flatten).any (fun r => mustWait s s.cur s.stores r.kind false [] none) = false)
    (bad : (underRefs s (offs.map (elemRefs s sg w)).flatten).any (poisoned s) = true) :
    vecLoad s sg w true hint vd fmt offs put (fun _ => id) = takeTrap s 5 0 0 := by
  unfold vecLoad
  rw [cause]
  exact (if_neg (Bool.eq_false_iff.mp order)).trans (if_pos bad)

/-- What has become of the state as a vector load's bytes are read. -/
def afterRead (s : State) (hint : Hint) (all : List ByteRef) : State :=
  noteReads (touchLoad (served s all) (served s all).cur all hint) (served s all).cur (underRefs s all)

theorem afterRead_caches (s : State) (hint : Hint) (all : List ByteRef) : CachesOnly (served s all) (afterRead s hint all) :=
  (touchLoad_lines ..).cachesOnly.trans (noteReads_caches ..)

theorem afterRead_homes (s : State) (hint : Hint) (all : List ByteRef) : HomesOnly s (afterRead s hint all) :=
  HomesOnly.trans (served_homes s all) (afterRead_caches s hint all).homesOnly

/-- A vector load that nothing stops writes its elements at once, or leaves them to arrive. -/
theorem vecLoad_ready (h : VecLoadReady s sg w true offs) :
    vecLoad s sg w true hint vd fmt offs put (fun _ => id) =
      if s.defer && !(put (loadedBytes s sg w offs)).isEmpty then
        owe (advance (modMy (afterRead s hint (offs.map (elemRefs s sg w)).flatten) (fun x => { x with vloads := x.vloads ++
          [{ vd := vd.toNat, fmt := fmt, elems := put (loadedBytes s sg w offs) }] }))) [ev .vectorLoadArrival (me s)]
      else advance (modMy (afterRead s hint (offs.map (elemRefs s sg w)).flatten)
        (fun x => putElems fmt vd x (put (loadedBytes s sg w offs)))) := by
  have homes := afterRead_homes s hint (offs.map (elemRefs s sg w)).flatten
  have late : (afterRead s hint (offs.map (elemRefs s sg w)).flatten).defer = s.defer := by
    unfold HomesOnly at homes
    rw [homes]
  have self := homes.sameAgents.me
  unfold vecLoad
  rw [h.cause]
  dsimp only
  rw [if_neg (Bool.eq_false_iff.mp h.order), if_neg (Bool.eq_false_iff.mp h.clean)]
  change (if (modMy (afterRead s hint (offs.map (elemRefs s sg w)).flatten) id).defer && !(put (loadedBytes s sg w offs)).isEmpty then
      owe (advance (modMy (modMy (afterRead s hint (offs.map (elemRefs s sg w)).flatten) id) (fun x => { x with vloads := x.vloads ++
        [{ vd := vd.toNat, fmt := fmt, elems := put (loadedBytes s sg w offs) }] })))
        [ev .vectorLoadArrival (me (modMy (afterRead s hint (offs.map (elemRefs s sg w)).flatten) id))]
    else advance (modMy (modMy (afterRead s hint (offs.map (elemRefs s sg w)).flatten) id)
      (fun x => putElems fmt vd x (put (loadedBytes s sg w offs))))) = _
  rw [modMy_modMy, modMy_modMy, modMy_defer, late, me_modMy, self]
  rfl

theorem vecLoad_goes (h : VecLoadGoes s sg w true offs) (thread : onRet s = false) :
    ∃ u t, vecLoad s sg w true hint vd fmt offs put (fun _ => id) = t ∧ CachesOnly (served s (offs.map (elemRefs s sg w)).flatten) u ∧
      VecWrote s u t vd fmt (put (loadedBytes s sg w offs)) id := by
  have same := (afterRead_homes s hint (offs.map (elemRefs s sg w)).flatten).sameAgents
  refine ⟨_, _, (vecLoad_ready h.toVecLoadReady).trans (if_neg (by rw [h.answered]; simp)), afterRead_caches ..,
    VecWrote.of_same same ?_⟩
  refine advance_putElems_wrote _ fmt vd (put (loadedBytes s sg w offs)) id (fun _ => ⟨rfl, rfl⟩) ?_
  unfold onRet at thread ⊢
  rw [same.cur]
  exact thread

/-- A word that changes its thread's record, goes on and owes an engine some work. -/
theorem owe_advance_modMy {v : State} (same : SameAgents s v) (f : Thread → Thread)
    (hf : ∀ x, (f x).hart = x.hart ∧ (f x).instret = x.instret) (l : List (Instr × Msg)) :
    Retired s { v with owed := v.owed ++ l } (owe (advance (modMy v f)) l) (.own s f) ∧
      BytesKept v (owe (advance (modMy v f)) l) := by
  refine ⟨?_, (sameBytes_of (by simp) (by simp) (by simp)).bytesKept⟩
  rw [← advance_owe]
  exact advance_modMy_retired (u := owe v l) ⟨same.cur, same.threads, same.rets⟩ f hf

theorem vecLoad_defers (h : VecLoadReady s sg w true offs) (late : s.defer = true) (some_ : put (loadedBytes s sg w offs) ≠ []) :
    ∃ u t, vecLoad s sg w true hint vd fmt offs put (fun _ => id) = t ∧ CachesOnly (served s (offs.map (elemRefs s sg w)).flatten) u ∧
      BytesKept (served s (offs.map (elemRefs s sg w)).flatten) t ∧
      Retired s { u with owed := u.owed ++ [ev .vectorLoadArrival (me s)] } t (.own s (fun x => { x with
        vloads := x.vloads ++ [{ vd := vd.toNat, fmt := fmt, elems := put (loadedBytes s sg w offs) }] })) := by
  have done := (vecLoad_ready (hint := hint) (vd := vd) (fmt := fmt) (put := put) h).trans (if_pos (by simpa [late] using some_))
  have caches := afterRead_caches s hint (offs.map (elemRefs s sg w)).flatten
  have same := (afterRead_homes s hint (offs.map (elemRefs s sg w)).flatten).sameAgents
  generalize afterRead s hint (offs.map (elemRefs s sg w)).flatten = v at done caches same
  obtain ⟨retired, kept⟩ := owe_advance_modMy same (fun x => { x with
    vloads := x.vloads ++ [{ vd := vd.toNat, fmt := fmt, elems := put (loadedBytes s sg w offs) }] }) (fun _ => ⟨rfl, rfl⟩)
    [ev .vectorLoadArrival (me s)]
  exact ⟨v, _, done, caches, caches.sameBytes.bytesKept.trans kept, retired⟩

end

/-! ### The forms -/

theorem vecMemForms_load {f : VFields} {p : Instr × Instr × List Reg × List VReg × (State → Bool) × (State → Nat → Nat → Nat)}
    (h : p ∈ vecMemForms f) (s : State) : exec p.1 s = loadForm f p.2.2.1 p.2.2.2.1 p.2.2.2.2.1 p.2.2.2.2.2 s := by
  simp only [vecMemForms, List.mem_cons, List.not_mem_nil, or_false] at h
  rcases h with rfl | rfl | rfl | rfl <;> rfl

section
variable {s : State} {f : VFields} {rs : List Reg} {vs : List VReg} {ok : State → Bool} {off : State → Nat → Nat → Nat}

theorem loadForm_misfit (goes : VecGoes s true rs (f.vd :: vs)) (misfit : ok s = false) : loadForm f rs vs ok off s = .next (takeIll s) := by
  unfold loadForm
  rw [issueV_goes goes, misfit]
  rfl

theorem loadForm_goes (goes : VecGoes s true rs (f.vd :: vs)) (fits : ok s = true) : loadForm f rs vs ok off s =
    .next (vecLoad s (extSeg f) (cbits f.fmt.toNat / 8) true (extHint f) f.vd f.fmt.toNat
      ((actives (my s) f).map (off s (cbits f.fmt.toNat / 8))) (fun bs => (actives (my s) f).zip (bs.map leNat)) (fun _ => id)) := by
  unfold loadForm
  rw [issueV_goes goes, fits]
  rfl

end

/-- The values of the elements that a form loads. -/
theorem zip_loadedBytes (s : State) (sg : BitVec 3) (w : Nat) (es offs : List Nat) :
    es.zip ((loadedBytes s sg w offs).map leNat) =
      es.zip (offs.map (fun o => leNat (bytesOf (served s (offs.map (elemRefs s sg w)).flatten) (elemRefs s sg w o)))) := by
  unfold loadedBytes
  rw [List.map_map, List.map_map]
  rfl

/-- Settles O35, by the path of a vector load and what becomes of it at each point. -/
theorem vectorLoads : Obligations.VectorLoads := by
  intro s f p hp
  rw [vecMemForms_load hp]
  refine ⟨fun ill => issueV_ill _ ill _, fun goes => ?_⟩
  intro w es offs all b l
  refine ⟨loadForm_misfit goes, fun fits => ?_⟩
  rw [loadForm_goes goes fits]
  have values : es.zip ((loadedBytes s (extSeg f) w offs).map leNat) = l := zip_loadedBytes ..
  refine ⟨fun ready => ?_, fun ready late some_ => ?_, fun c stops => ?_, fun cause first => ?_, fun cause order bad => ?_⟩
  · obtain ⟨u, t, done, caches, wrote⟩ := vecLoad_goes (hint := extHint f) (vd := f.vd) (fmt := f.fmt.toNat)
      (put := fun bs => es.zip (bs.map leNat)) ready goes.onRet
    rw [values] at wrote
    exact ⟨u, t, congrArg _ done, caches, wrote⟩
  · have filled : es.zip ((loadedBytes s (extSeg f) w offs).map leNat) ≠ [] := by
      intro none_
      have := congrArg List.length none_
      simp [loadedBytes, offs] at this
      exact some_ this
    obtain ⟨u, t, done, caches, kept, retired⟩ := vecLoad_defers (hint := extHint f) (vd := f.vd) (fmt := f.fmt.toNat)
      (put := fun bs => es.zip (bs.map leNat)) ready late filled
    rw [values] at retired
    exact ⟨u, t, congrArg _ done, caches, kept, retired⟩
  · exact congrArg _ (vecLoad_cause stops)
  · exact congrArg _ (vecLoad_waits cause first)
  · exact congrArg _ (vecLoad_poisoned cause order bad)

end Sys2Proof.Machine
end

section
/-! SUPPORT. Vector words that write a mask, and the flags of results told apart from the results (R70, R210). -/

namespace Sys2Proof.Machine

/-! ### Words that write a mask -/

theorem foldl_putBit_eq (fmt m : Nat) (l : List (Nat × Bool)) (x : Thread) :
    l.foldl (putBit fmt m) x = { x with slots := (l.foldl (putBit fmt m) x).slots } := by
  induction l using List.reverseRecOn with
  | nil => rfl
  | append_singleton l p ih =>
    rw [List.foldl_append, List.foldl_cons, List.foldl_nil]
    conv_lhs => rw [ih]
    rfl

/-- Writing a mask changes only the slots. -/
theorem putCompare_eq (fmt m : Nat) (l : List (Nat × Bool)) (x : Thread) :
    putCompare fmt m l x = { x with slots := (putCompare fmt m l x).slots } :=
  congrArg (fun y : Thread => { y with slots := (putCompare fmt m l x).slots }) (foldl_putBit_eq fmt m l x)

/-- A thread's word that changes its record by `f` and its slots beside. -/
theorem advance_slots_retired {s : State} (thread : onRet s = false) (f g : Thread → Thread)
    (slots : ∀ x, g x = { f x with slots := (g x).slots }) (hf : ∀ x, (f x).hart = x.hart ∧ (f x).instret = x.instret) :
    Retired s s (advance (modMy s g)) (.own s (fun x => { f x with slots := (my (advance (modMy s g))).slots })) ∧
      my (advance (modMy s g)) = { g (my s) with
        hart := hart (advance (modMy s g)), instret := (my s).instret + 1, cond := .ready } := by
  obtain ⟨h, -⟩ := advance_modMy_changed s g (fun x => by rw [slots]; exact hf x)
  have mine := h.mine
  cases cur : s.cur with
  | ret n => simp [onRet, cur] at thread
  | thread n =>
    rw [cur] at mine
    dsimp only [Effect.own] at mine
    refine ⟨⟨h.rest, h.threads, h.rets, ?_, h.ret, h.regs, h.segs, h.pc⟩, mine⟩
    have written : (my (advance (modMy s g))).slots = (g (my s)).slots := by rw [mine]
    simp only [cur, Effect.own]
    rw [written]
    conv_lhs => rw [mine]
    conv_lhs => rw [slots]

/-- A vector word that writes a mask and changes its thread's record by `f` beside. -/
theorem advance_putCompare_wrote {s : State} (fmt : Nat) (r : VReg) (small : r.toNat < 8) (l : List (Nat × Bool)) (f : Thread → Thread)
    (hf : ∀ x, (f x).hart = x.hart ∧ (f x).instret = x.instret) (thread : onRet s = false) :
    MaskWrote s (advance (modMy s (fun x => putCompare fmt r.toNat l (f x)))) r fmt l f := by
  obtain ⟨retired, mine⟩ := advance_slots_retired thread f (fun x => putCompare fmt r.toNat l (f x))
    (fun x => putCompare_eq fmt r.toNat l (f x)) hf
  refine ⟨retired, ?_, (sameBytes_of (by simp) (by simp) (by simp)).bytesKept⟩
  have k := putCompare_set fmt r.toNat l (f (my s)) small r rfl
  rw [mine]
  exact ⟨k.slots, k.regs, k.draws, k.others, k.bits, k.above⟩

/-! ### Flags -/

theorem addFlags_keeps (fl : Flags) (x : Thread) : (addFlags x fl).hart = x.hart ∧ (addFlags x fl).instret = x.instret := ⟨rfl, rfl⟩

/-- The flags of results do not depend on how the results are told. -/
theorem flagsOf_congr {α β : Type} {l : List (α × Flags)} {r : List (β × Flags)} (h : l.map (·.2) = r.map (·.2)) :
    flagsOf l = flagsOf r := by
  have fold {γ : Type} (q : List (γ × Flags)) : flagsOf q = (q.map (·.2)).foldl (fun a b => a ||| b) 0 := by
    rw [flagsOf, List.foldl_map]
  rw [fold, fold, h]

end Sys2Proof.Machine
end

section
/-! RESULT. Element-wise floating words and compares (O40). -/

namespace Sys2Proof.Machine

section
variable {s : State} {f : VFields} {vs : List VReg} {r : State → RMode → Nat → Nat × Flags}
variable {put : Nat → List (Nat × Nat) → Thread → Thread}

theorem vecFloat_unrounded (goes : VecGoes s true [f.s] vs) (reserved : rndAdmits (my s) f.rnd = false) :
    vecFloat f vs r put s = .next (takeIll s) := by
  unfold vecFloat
  rw [issueV_goes goes, rndV, reserved]
  rfl

/-- The results of a floating word's active elements. -/
def vecResults (s : State) (f : VFields) (r : State → RMode → Nat → Nat × Flags) : List (Nat × Flags) :=
  (actives (my s) f).map (r s (modeOf (rndOf (my s) f.rnd)))

/-- The two ends of a floating word: its results written with their flags, or FPE with nothing written. -/
theorem vecFloat_ends (goes : VecGoes s true [f.s] vs) (rounds : rndAdmits (my s) f.rnd = true) {rs : List (Nat × Flags)} {fl : Flags}
    (results : vecResults s f r = rs) (flags : flagsOf rs = fl) :
    (enabledOf (my s) &&& fl = 0 → vecFloat f vs r put s = .next (advance (modMy s (fun x =>
      put f.fmt.toNat ((actives (my s) f).zip (rs.map (·.1))) (addFlags x fl))))) ∧
    (enabledOf (my s) &&& fl ≠ 0 → vecFloat f vs r put s = .next (takeTrap (modMy s (addFlags · fl)) 0xA fl 0)) := by
  have ended : vecFloat f vs r put s = .next (floatEnd s fl (fun u => advance (modMy u
      (put f.fmt.toNat ((actives (my s) f).zip (rs.map (·.1))))))) := by
    subst flags results
    unfold vecFloat
    rw [issueV_goes goes, rndV, rounds]
    rfl
  rw [ended]
  refine ⟨fun quiet => ?_, fun raised => congrArg _ (floatEnd_traps raised _)⟩
  rw [floatEnd_quiet quiet, modMy_modMy]

end

/-- The forms that write vD, and the word that each is. -/
theorem vecFloatForms_word {f : VFields} {p : Instr × List VReg × (State → RMode → Nat → Nat × Flags)} (h : p ∈ vecFloatForms f)
    (s : State) : exec p.1 s = vecFloat f p.2.1 p.2.2 (putVd f) s := by
  simp only [vecFloatForms, List.mem_cons, List.not_mem_nil, or_false] at h
  rcases h with rfl | rfl | rfl | rfl | rfl | rfl | rfl | rfl | rfl <;> rfl

/-- A compare's bit as a number, and its flags. -/
def bitResult (r : Bool × Flags) : Nat × Flags := (if r.1 then 1 else 0, r.2)

theorem vecFloatCompares_word {f : VFields} {p : Instr × (State → Nat → Bool × Flags)} (h : p ∈ vecFloatCompares f) (s : State) :
    exec p.1 s = vecFloat f [f.va, f.vb] (fun s _ e => bitResult (p.2 s e)) (putMd f) s := by
  simp only [vecFloatCompares, List.mem_cons, List.not_mem_nil, or_false] at h
  rcases h with rfl | rfl | rfl <;> rfl

/-- The bits that a compare writes, from its results as numbers. -/
theorem zip_bitResult (es : List Nat) (r : Nat → Bool × Flags) :
    (es.zip ((es.map (fun e => bitResult (r e))).map (·.1))).map (fun p => (p.1, p.2 == 1)) = es.zip ((es.map r).map (·.1)) := by
  rw [List.map_map, List.map_map, List.zip_map_right, List.map_map, List.zip_map_right]
  refine List.map_congr_left fun p _ => ?_
  cases h : (r p.2).1 <;> simp [bitResult, h, Prod.map]

theorem flagsOf_bitResult (es : List Nat) (r : Nat → Bool × Flags) :
    flagsOf (es.map (fun e => bitResult (r e))) = flagsOf (es.map r) := by
  refine flagsOf_congr ?_
  rw [List.map_map, List.map_map]
  rfl

/-- Settles O40, by the word that the forms share and the two ends of a floating word. -/
theorem vectorFloat : Obligations.VectorFloat := by
  refine ⟨fun s f => ⟨fun ill => ⟨fun p hp => ?_, fun p hp => ?_⟩, fun reserved => ⟨fun p hp goes => ?_, fun p hp goes => ?_⟩⟩,
    fun s f rounds => ?_⟩
  · exact (vecFloatForms_word hp s).trans (issueV_ill _ ill _)
  · exact (vecFloatCompares_word hp s).trans (issueV_ill _ ill _)
  · exact (vecFloatForms_word hp s).trans (vecFloat_unrounded goes reserved)
  · exact (vecFloatCompares_word hp s).trans (vecFloat_unrounded goes reserved)
  intro m es
  refine ⟨fun p hp goes => ?_, fun p hp goes small => ?_⟩
  · intro rs fl
    obtain ⟨quiet, raised⟩ := vecFloat_ends (put := putVd f) goes rounds (rs := rs) (fl := fl) rfl rfl
    rw [vecFloatForms_word hp]
    clear_value fl rs
    have wrote := advance_putElems_wrote s f.fmt.toNat f.vd (es.zip (rs.map (·.1))) (addFlags · fl) (addFlags_keeps fl) goes.onRet
    exact ⟨fun none_ => ⟨_, quiet none_, wrote⟩, raised⟩
  · intro rs fl
    obtain ⟨quiet, raised⟩ := vecFloat_ends (put := putMd f) goes rounds (r := fun s _ e => bitResult (p.2 s e)) (fl := fl) rfl
      (flagsOf_bitResult es (p.2 s))
    rw [vecFloatCompares_word hp]
    have bits : (es.zip ((vecResults s f (fun s _ e => bitResult (p.2 s e))).map (·.1))).map (fun p => (p.1, p.2 == 1)) =
        es.zip (rs.map (·.1)) := zip_bitResult es (p.2 s)
    unfold putMd at quiet
    rw [bits] at quiet
    clear_value fl rs
    have wrote := advance_putCompare_wrote f.fmt.toNat f.vd small (es.zip (rs.map (·.1))) (addFlags · fl) (addFlags_keeps fl) goes.onRet
    exact ⟨fun none_ => ⟨_, quiet none_, wrote⟩, raised⟩

end Sys2Proof.Machine
end

section
/-! SUPPORT. The tree of a reduction, and the sum of 32-bit integers along it (R57, R74, R215). -/

namespace Sys2Proof.Machine

/-! ### The tree of sums -/

/-- Sums modulo 2^32, which raise no flag. -/
def sum32 (a b : Nat) : Nat × Flags := ((a + b) % 2 ^ 32, 0)

/-- Two neighbours of the tree of sums combined. -/
def joinNodes (a b : Option Nat) : Option Nat :=
  match a, b with
  | some x, some y => some ((x + y) % 2 ^ 32)
  | some x, none => some x
  | none, y => y

/-- The sum of the nodes of a list. -/
def nodeSum (l : List (Option Nat)) : Nat := (l.map (·.getD 0)).sum

theorem treeLevel_pair (a b : Option Nat) (r : List (Option Nat)) : treeLevel sum32 (a :: b :: r) =
    (joinNodes a b :: (treeLevel sum32 r).1, (treeLevel sum32 r).2) := by
  rcases a with - | a <;> rcases b with - | b <;> simp [treeLevel, joinNodes, sum32]

theorem joinNodes_sum (a b : Option Nat) : (joinNodes a b).getD 0 % 2 ^ 32 = (a.getD 0 + b.getD 0) % 2 ^ 32 := by
  rcases a with - | a <;> rcases b with - | b <;> simp [joinNodes]

theorem joinNodes_eq_none {a b : Option Nat} : joinNodes a b = none ↔ a = none ∧ b = none := by
  rcases a with - | a <;> rcases b with - | b <;> simp [joinNodes]

/-- One level of the tree of sums: half as many nodes, of the same sum, without flags, and none where there were none. -/
theorem treeLevel_sum32 : ∀ l : List (Option Nat),
    (treeLevel sum32 l).2 = 0 ∧ 2 * (treeLevel sum32 l).1.length ≤ l.length + 1 ∧
      nodeSum (treeLevel sum32 l).1 % 2 ^ 32 = nodeSum l % 2 ^ 32 ∧
      ((∀ x ∈ (treeLevel sum32 l).1, x = none) ↔ ∀ x ∈ l, x = none)
  | [] => ⟨rfl, Nat.zero_le _, rfl, Iff.rfl⟩
  | [_] => ⟨rfl, Nat.le_refl _, rfl, Iff.rfl⟩
  | a :: b :: r => by
    obtain ⟨flags, half, sum, none_⟩ := treeLevel_sum32 r
    rw [treeLevel_pair]
    refine ⟨flags, ?_, ?_, ?_⟩
    · simp only [List.length_cons]
      omega
    · have join := joinNodes_sum a b
      simp only [nodeSum, List.map_cons, List.sum_cons] at sum ⊢
      omega
    · simp only [List.forall_mem_cons, joinNodes_eq_none, none_, and_assoc]

/-- The tree of sums over at most 2^n nodes: its root has their sum, and there is none where there were none. -/
theorem tree_sum32 (n : Nat) (l : List (Option Nat)) (fits : l.length ≤ 2 ^ n) :
    (tree sum32 n l).2 = 0 ∧ ((tree sum32 n l).1.getD 0) % 2 ^ 32 = nodeSum l % 2 ^ 32 ∧
      ((tree sum32 n l).1 = none ↔ ∀ x ∈ l, x = none) := by
  induction n generalizing l with
  | zero =>
    match l with
    | [] => simp [tree, nodeSum]
    | [x] => simp [tree, nodeSum]
  | succ n ih =>
    obtain ⟨flags, half, sum, none_⟩ := treeLevel_sum32 l
    obtain ⟨flags', root, absent⟩ := ih (treeLevel sum32 l).1 (by rw [Nat.pow_succ] at fits; omega)
    refine ⟨?_, root.trans sum, absent.trans none_⟩
    simp only [tree, flags, flags']
    rfl

/-! ### The sum of the active elements -/

theorem onInts_add {fmt : Nat} (wide : cbits fmt = 32) (a b : Nat) : onInts (fun x y => x + y) fmt a b = (a + b) % 2 ^ 32 := by
  have residue (v : Nat) : intOf fmt v % (2 ^ 32 : Nat) = (v : Int) % (2 ^ 32 : Nat) := by
    unfold intOf
    rw [wide]
    dsimp only
    split
    · rw [Int.sub_emod_right]
    · rfl
  unfold onInts wrap
  rw [wide, Int.add_emod, residue, residue, ← Int.add_emod]
  norm_cast

theorem nodeSum_guarded (p : Nat → Bool) (v : Nat → Nat) (l : List Nat) :
    nodeSum (l.map (fun e => if p e then some (v e) else none)) = ((l.filter p).map v).sum := by
  induction l with
  | nil => rfl
  | cons e r ih =>
    cases h : p e <;> simpa [nodeSum, h, Function.comp_def] using ih

end Sys2Proof.Machine
end

section
/-! RESULT. Reductions and the recurrence (O43). -/

namespace Sys2Proof.Machine

/-- The active elements of a word's source, in their places. -/
def nodesOf (s : State) (f : VFields) : List (Option Nat) :=
  (List.range (numElems (my s) f.fmt.toNat)).map (fun e =>
    if guarded (my s) f f.fmt.toNat e then some (elem (my s) f.va f.fmt.toNat e) else none)

/-- A reduction's result and flags: the start operand combined with the tree's root (R74, R215). -/
def reduced (s : State) (f : VFields) (comb : Nat → Nat → Nat × Flags) : Nat × Flags :=
  match tree comb 10 (nodesOf s f) with
  | (some y, fl) => ((comb (elem (my s) f.vb f.fmt.toNat 0) y).1, fl ||| (comb (elem (my s) f.vb f.fmt.toNat 0) y).2)
  | (none, fl) => (elem (my s) f.vb f.fmt.toNat 0, fl)

/-- A word that writes one element with its flags, or takes FPE with nothing written (R72). -/
def WritesOne (s : State) (f : VFields) (v : Nat) (fl : Flags) (o : Out) : Prop :=
  (enabledOf (my s) &&& fl = 0 → ∃ t, o = .next t ∧ VecWrote s s t f.vd f.fmt.toNat [(0, v)] (addFlags · fl)) ∧
    (enabledOf (my s) &&& fl ≠ 0 → o = .next (takeTrap (modMy s (addFlags · fl)) 0xA fl 0))

/-- The two ends of a floating word that writes elements. -/
theorem floatEnd_wrote {s : State} (thread : onRet s = false) (vd : VReg) (fmt : Nat) (l : List (Nat × Nat)) (fl : Flags) :
    (enabledOf (my s) &&& fl = 0 → ∃ t, floatEnd s fl (fun u => advance (modMy u (putElems fmt vd · l))) = t ∧
      VecWrote s s t vd fmt l (addFlags · fl)) ∧
    (enabledOf (my s) &&& fl ≠ 0 → floatEnd s fl (fun u => advance (modMy u (putElems fmt vd · l))) =
      takeTrap (modMy s (addFlags · fl)) 0xA fl 0) := by
  refine ⟨fun quiet => ?_, fun raised => floatEnd_traps raised _⟩
  have wrote := advance_putElems_wrote s fmt vd l (addFlags · fl) (addFlags_keeps fl) thread
  have done : floatEnd s fl (fun u => advance (modMy u (putElems fmt vd · l))) =
      advance (modMy s (fun x => putElems fmt vd (addFlags x fl) l)) := by
    rw [floatEnd_quiet quiet, modMy_modMy]
  exact ⟨_, done, wrote⟩

section
variable {s : State} {f : VFields} (goes : VecGoes s true [] [f.vd, f.va, f.vb]) (rounds : rndAdmits (my s) f.rnd = true)

include goes in
theorem reduce_unrounded (reserved : rndAdmits (my s) f.rnd = false) (comb : RMode → Nat → Nat → Nat × Flags) :
    reduce f comb s = .next (takeIll s) := by
  unfold reduce
  rw [issueV_goes goes, rndV, reserved]
  rfl

include goes in
theorem execVrecur_unrounded (reserved : rndAdmits (my s) f.rnd = false) : execVrecur f s = .next (takeIll s) := by
  unfold execVrecur
  rw [issueV_goes goes, rndV, reserved]
  rfl

include goes rounds

theorem reduce_eq (comb : RMode → Nat → Nat → Nat × Flags) :
    reduce f comb s = .next (floatEnd s (reduced s f (comb (modeOf (rndOf (my s) f.rnd)))).2 (fun u =>
      advance (modMy u (putElems f.fmt.toNat f.vd · [(0, (reduced s f (comb (modeOf (rndOf (my s) f.rnd)))).1)])))) := by
  unfold reduce reduced nodesOf
  rw [issueV_goes goes]
  simp only [rndV, rounds, Bool.false_or, Bool.not_true, Bool.false_eq_true, if_false]
  generalize tree (comb (modeOf (rndOf (my s) f.rnd))) 10 _ = q
  obtain ⟨- | y, fl⟩ := q <;> rfl

theorem reduce_writes (comb : RMode → Nat → Nat → Nat × Flags) :
    WritesOne s f (reduced s f (comb (modeOf (rndOf (my s) f.rnd)))).1 (reduced s f (comb (modeOf (rndOf (my s) f.rnd)))).2
      (reduce f comb s) := by
  rw [reduce_eq goes rounds]
  generalize (reduced s f (comb (modeOf (rndOf (my s) f.rnd)))).1 = v
  generalize (reduced s f (comb (modeOf (rndOf (my s) f.rnd)))).2 = fl
  obtain ⟨quiet, raised⟩ := floatEnd_wrote goes.onRet f.vd f.fmt.toNat [(0, v)] fl
  refine ⟨fun none_ => ?_, fun some_ => congrArg _ (raised some_)⟩
  obtain ⟨t, done, wrote⟩ := quiet none_
  exact ⟨t, congrArg _ done, wrote⟩

/-- VRECUR's results, last value and flags. -/
def recurred (s : State) (f : VFields) : List (Nat × Nat) × Nat × Flags :=
  recurAll (fun e p => recurStep f.fmt.toNat f.ext.toNat (modeOf (rndOf (my s) f.rnd)) p (elem (my s) f.va f.fmt.toNat e)
    (elem (my s) f.vb f.fmt.toNat e)) (actives (my s) f) (my s).carry.toNat

theorem execVrecur_ends :
    (enabledOf (my s) &&& (recurred s f).2.2 = 0 → ∃ t, execVrecur f s = .next t ∧ VecWrote s s t f.vd f.fmt.toNat (recurred s f).1
      (fun x => { addFlags x (recurred s f).2.2 with carry := BitVec.ofNat 32 (recurred s f).2.1 })) ∧
    (enabledOf (my s) &&& (recurred s f).2.2 ≠ 0 →
      execVrecur f s = .next (takeTrap (modMy s (addFlags · (recurred s f).2.2)) 0xA (recurred s f).2.2 0)) := by
  have ended : execVrecur f s = .next (floatEnd s (recurred s f).2.2 (fun u => advance (modMy u (fun x =>
      { putElems f.fmt.toNat f.vd x (recurred s f).1 with carry := BitVec.ofNat 32 (recurred s f).2.1 })))) := by
    unfold execVrecur
    rw [issueV_goes goes, rndV, rounds]
    rfl
  rw [ended]
  generalize recurred s f = q
  obtain ⟨l, p, fl⟩ := q
  refine ⟨fun quiet => ⟨_, congrArg _ (floatEnd_quiet quiet _), ?_⟩, fun raised => congrArg _ (floatEnd_traps raised _)⟩
  rw [modMy_modMy]
  dsimp only
  obtain ⟨retired, mine⟩ := advance_slots_retired goes.onRet (fun x => { addFlags x fl with carry := BitVec.ofNat 32 p })
    (fun x => { putElems f.fmt.toNat f.vd (addFlags x fl) l with carry := BitVec.ofNat 32 p })
    (fun x => congrArg (fun y : Thread => { y with carry := BitVec.ofNat 32 p }) (putElems_eq f.fmt.toNat f.vd (addFlags x fl) l))
    (fun _ => ⟨rfl, rfl⟩)
  refine ⟨retired, ?_, (sameBytes_of (by simp) (by simp) (by simp)).bytesKept⟩
  have k := putElems_set f.fmt.toNat f.vd (addFlags (my s) fl) l
  rw [mine]
  exact ⟨k.slots, k.elems, k.others, k.masks, k.draws⟩

end

/-- The sum of 32-bit integers. -/
theorem reduced_sum {s : State} {f : VFields} (wide : cbits f.fmt.toNat = 32) (fits : (my s).vl ≤ 1024) :
    reduced s f (fun a b => (onInts (fun x y => x + y) f.fmt.toNat a b, 0)) =
      ((elem (my s) f.vb f.fmt.toNat 0 + ((actives (my s) f).map (elem (my s) f.va f.fmt.toNat)).sum) % 2 ^ 32, 0) := by
  have comb : (fun a b => (onInts (fun x y => x + y) f.fmt.toNat a b, 0)) = sum32 := by
    funext a b
    rw [onInts_add wide, sum32]
  have long : (nodesOf s f).length ≤ 2 ^ 10 := by
    simpa [nodesOf, numElems, perSlot, wide] using fits
  obtain ⟨flags, root, -⟩ := tree_sum32 10 (nodesOf s f) long
  have sum : nodeSum (nodesOf s f) = ((actives (my s) f).map (elem (my s) f.va f.fmt.toNat)).sum := nodeSum_guarded ..
  have start := elem_lt (my s) f.vb f.fmt.toNat 0
  rw [wide] at start
  rw [comb, ← sum]
  unfold reduced
  generalize tree sum32 10 (nodesOf s f) = q at flags root
  obtain ⟨- | y, fl⟩ := q
  · simp only [Option.getD_none] at root flags ⊢
    rw [flags]
    refine Prod.ext ?_ rfl
    dsimp only
    omega
  · simp only [Option.getD_some] at root flags ⊢
    rw [flags, sum32, Nat.zero_or]
    refine Prod.ext ?_ rfl
    dsimp only
    omega

section
variable (s : State) (f : VFields)

theorem exec_vredsum : exec (.vredsum f) s = reduce f (fun _ a b => (onInts (fun x y => x + y) f.fmt.toNat a b, 0)) s := rfl
theorem exec_vredmin : exec (.vredmin f) s =
    reduce f (fun _ a b => (wrap (cbits f.fmt.toNat) (min (intOf f.fmt.toNat a) (intOf f.fmt.toNat b)), 0)) s := rfl
theorem exec_vredmax : exec (.vredmax f) s =
    reduce f (fun _ a b => (wrap (cbits f.fmt.toNat) (max (intOf f.fmt.toNat a) (intOf f.fmt.toNat b)), 0)) s := rfl
theorem exec_vfredsum : exec (.vfredsum f) s = reduce f (fun m a b => fadd fmtF32 m (fdecode fmtF32 a) (fdecode fmtF32 b)) s := rfl
theorem exec_vfredmin : exec (.vfredmin f) s = reduce f (fun _ a b => fminmax fmtF32 false (fdecode fmtF32 a) (fdecode fmtF32 b)) s := rfl
theorem exec_vfredmax : exec (.vfredmax f) s = reduce f (fun _ a b => fminmax fmtF32 true (fdecode fmtF32 a) (fdecode fmtF32 b)) s := rfl
theorem exec_vrecur : exec (.vrecur f) s = execVrecur f s := rfl

end

/-- Settles O43, by the word that the reductions share and the sum along the tree. -/
theorem reductions : Obligations.Reductions := by
  refine ⟨fun s f ill i hi => ?_, fun s f goes rounds => ?_⟩
  · simp only [List.mem_cons, List.not_mem_nil, or_false] at hi
    have refused (comb : RMode → Nat → Nat → Nat × Flags) : reduce f comb s = .next (takeIll s) := by
      rcases ill with ill | ⟨goes, reserved⟩
      · exact issueV_ill _ ill _
      · exact reduce_unrounded goes reserved comb
    have refusedRecur : execVrecur f s = .next (takeIll s) := by
      rcases ill with ill | ⟨goes, reserved⟩
      · exact issueV_ill _ ill _
      · exact execVrecur_unrounded goes reserved
    rcases hi with rfl | rfl | rfl | rfl | rfl | rfl | rfl
    exacts [(exec_vredsum s f).trans (refused _), (exec_vredmin s f).trans (refused _), (exec_vredmax s f).trans (refused _),
      (exec_vfredsum s f).trans (refused _), (exec_vfredmin s f).trans (refused _), (exec_vfredmax s f).trans (refused _),
      (exec_vrecur s f).trans refusedRecur]
  intro fmt x m start one r v red
  have result (comb : Nat → Nat → Nat × Flags) : r comb = reduced s f comb := by
    simp only [r, reduced, nodesOf, start, x, fmt] <;>
      (generalize tree comb 10 _ = q; obtain ⟨- | y, fl⟩ := q <;> rfl)
  have ends (comb : RMode → Nat → Nat → Nat × Flags) {i : Instr} (word : exec i s = reduce f comb s) : red i (comb m) := by
    have writes := reduce_writes goes rounds comb
    rw [← word] at writes
    simp only [red, result]
    exact writes
  have least := ends (fun _ a b => (wrap (cbits fmt) (min (intOf fmt a) (intOf fmt b)), 0)) (exec_vredmin s f)
  have greatest := ends (fun _ a b => (wrap (cbits fmt) (max (intOf fmt a) (intOf fmt b)), 0)) (exec_vredmax s f)
  have sums := ends (fun m a b => fadd fmtF32 m (v a) (v b)) (exec_vfredsum s f)
  have leasts := ends (fun _ a b => fminmax fmtF32 false (v a) (v b)) (exec_vfredmin s f)
  have greatests := ends (fun _ a b => fminmax fmtF32 true (v a) (v b)) (exec_vfredmax s f)
  refine ⟨fun wide fits => ?_, least, greatest, sums, leasts, greatests, ?_⟩
  · have sum := reduce_writes goes rounds (fun _ a b => (onInts (fun x y => x + y) f.fmt.toNat a b, 0))
    rw [reduced_sum wide fits, ← exec_vredsum] at sum
    exact sum
  · rw [exec_vrecur]
    exact execVrecur_ends goes rounds

end Sys2Proof.Machine
end

section
/-! SUPPORT. Matrix words that update an accumulator and raise flags, performed at once (R229, R235, R236). -/

namespace Sys2Proof.Machine

/-- What is left of a thread's record as the only word of its queue is done with flags. -/
def poppedWith (fl : Flags) (x : Thread) : Thread := addFlags { x with mqueue := [] } fl

/-- The gang performs the word at the head of a queue of one with its flags, where nothing holds it (R189, R235, R236, R239). -/
theorem completeMat_flags {u v : State} {n : Nat} {w : MatWord} {fl : Flags} (queue : (thr u n).mqueue = [w]) (whole : (thr u n).lost = [])
    (alive : (thr u n).dead = false) (performs : performMat u n w.op = (v, fl)) :
    completeMat u n =
      if w.long then
        if enabledOf (thr u n) &&& fl ≠ 0 then trapThread (modThr u n (poppedWith fl)) n 0xA fl 0
        else asAgent (modThr v n (poppedWith fl)) (.thread n) advance
      else modThr v n (poppedWith fl) := by
  unfold completeMat
  rw [queue]
  simp only [performs, whole, alive, List.isEmpty_nil, Bool.not_true, Bool.and_false, Bool.false_and, Bool.or_self, Bool.false_eq_true,
    if_false]
  cases w.long <;> rfl

theorem retiredThread_short {s : State} (idle : (my s).mqueue = []) (q : List MatWord) (k : Nat) (l : List (BitVec 32)) :
    { setAcc (retiredThread { my s with mqueue := q }) k l with mqueue := [] } = retiredThread (setAcc (my s) k l) := by
  unfold setAcc
  split <;> simp [retiredThread, idle]

/-- A matrix word that changes an accumulator of its thread and raises flags: both depend on no more than the accumulators, the shape and
the edge of the gang. -/
structure FlaggedWord (op : MatOp) (n k : Nat) (x : Thread) (l : List (BitVec 32)) (fl : Flags) : Prop where
  performs : ∀ u : State, ∀ y : Thread, thr u n = y → y.acc0 = x.acc0 → y.acc1 = x.acc1 → y.mvl = x.mvl → y.mm = x.mm → y.mn = x.mn →
    performMat u n op = (setThr u n (setAcc y k l), fl)

section
variable {s : State} {rs : List Reg} {vs : List VReg} (goes : GangGoes s rs vs)
variable {op : MatOp} {k : Nat} {l : List (BitVec 32)} {fl : Flags} (word : FlaggedWord op (me s) k (my s) l fl)
include goes word

/-- A short word that the gang performs at once, with its flags. -/
theorem shortWord_flags : shortWord op s = advance (modMy s (fun x => addFlags (setAcc x k l) fl)) := by
  have thread := goes.onRet
  obtain ⟨-, idle, whole, alive, answered⟩ := goes
  have sent : advance (modMy s (fun x => { x with mqueue := x.mqueue ++ [{ op := op, long := false, pc := pcOf s }] })) =
      setThr s (me s) (retiredThread { my s with mqueue := [{ op := op, long := false, pc := pcOf s }] }) := by
    rw [modMy_eq_setThr, idle]
    exact advance_setThr thread _
  have entered : shortWord op s =
      completeMat (setThr s (me s) (retiredThread { my s with mqueue := [{ op := op, long := false, pc := pcOf s }] })) (me s) := by
    refine (if_neg (by simp [idle])).trans ?_
    simp only [sent, setThr_defer, answered, Bool.false_eq_true, if_false, thr_setThr_self]
    rfl
  have done := completeMat_flags (u := setThr s (me s) (retiredThread { my s with mqueue := [{ op := op, long := false, pc := pcOf s }] }))
    (w := { op := op, long := false, pc := pcOf s })
    (by rw [thr_setThr_self]; rfl) (by rw [thr_setThr_self]; exact whole) (by rw [thr_setThr_self]; exact alive)
    (word.performs _ _ (thr_setThr_self ..) rfl rfl rfl rfl rfl)
  rw [entered, done, if_neg Bool.false_ne_true, modThr, thr_setThr_self, setThr_setThr, setThr_setThr, modMy_eq_setThr,
    advance_setThr thread]
  exact congrArg (fun y => setThr s (me s) (addFlags y fl)) (retiredThread_short idle _ k l)

/-- A long word that the gang has at once: what it makes of the thread's record, or FPE with nothing committed. -/
theorem longWord_flags :
    (enabledOf (my s) &&& fl = 0 → longWord op s = advance (modMy s (fun x => addFlags (setAcc x k l) fl))) ∧
    (enabledOf (my s) &&& fl ≠ 0 →
      longWord op s = trapThread (setCond (modMy s (addFlags · fl)) (.inEngine s.ir)) (me s) 0xA fl 0) := by
  have thread := goes.onRet
  obtain ⟨-, idle, whole, alive, answered⟩ := goes
  have sent : setCond (modMy s (fun x => { x with mqueue := [{ op := op, long := true, pc := pcOf s }] })) (.inEngine s.ir) =
      setThr s (me s) (longThread s op) := by
    rw [modMy_eq_setThr]
    exact setCond_setThr thread _ _
  have entered : longWord op s = completeMat (setThr s (me s) (longThread s op)) (me s) := by
    refine (if_neg (by simp [idle])).trans ?_
    simp only [sent, setThr_defer, answered, Bool.false_eq_true, if_false]
  have done := completeMat_flags (u := setThr s (me s) (longThread s op)) (w := { op := op, long := true, pc := pcOf s })
    (by rw [thr_setThr_self]; rfl) (by rw [thr_setThr_self]; exact whole) (by rw [thr_setThr_self]; exact alive)
    (word.performs _ _ (thr_setThr_self ..) rfl rfl rfl rfl rfl)
  rw [thr_setThr_self, if_pos rfl, ← entered] at done
  have enabled : enabledOf (longThread s op) = enabledOf (my s) := rfl
  rw [enabled] at done
  refine ⟨fun quiet => ?_, fun raised => ?_⟩
  · rw [done, if_neg (not_not_intro quiet), modThr, thr_setThr_self, setThr_setThr, setThr_setThr, asAgent_advance_setThr thread,
      modMy_eq_setThr, advance_setThr thread]
    have same := congrArg (addFlags · fl) (retiredThread_long idle op k l)
    exact congrArg (setThr s (me s)) same
  · rw [done, if_pos raised, modThr, thr_setThr_self, setThr_setThr, modMy_eq_setThr, setCond_setThr thread]
    have same : poppedWith fl (longThread s op) = { addFlags (my s) fl with cond := .inEngine s.ir } := by
      simp [poppedWith, longThread, addFlags, idle]
    rw [same]

end

end Sys2Proof.Machine
end

section
/-! RESULT. The outer products (O45). -/

namespace Sys2Proof.Machine

/-- The registers of an operand of `n` steps. -/
def regRun (n : Nat) (r : VReg) : List VReg := (List.range n).map (fun i => r + BitVec.ofNat 5 i)

/-- The scale register that an operand in an SX format names. -/
def outerScale (s : State) (f : VFields) (lo : Nat) : KMap (BitVec 16) :=
  if 13 ≤ f.fmt.toNat then (my s).sc.toList.getD (f.ext.extractLsb' lo 2).toNat [] else []

/-- An outer product of `n` steps as its gang gets it. -/
def outerOp (s : State) (f : VFields) (neg : Bool) (n : Nat) : MatOp :=
  .outer f.vd.toNat neg f.fmt.toNat (rndOf (my s) f.rnd) ((regRun n f.va).map (vreg (my s))) ((regRun n f.vb).map (vreg (my s)))
    (outerScale s f 0) (outerScale s f 2)

/-- What an outer product makes of each word of its accumulator, with its flags. -/
def outerWords (s : State) (f : VFields) (neg : Bool) (n : Nat) : List (BitVec 32 × Flags) :=
  (accOf (my s) f.vd.toNat).mapIdx (fun q old =>
    if q / (my s).mvl < (my s).mm ∧ q % (my s).mvl < (my s).mn ∧ n ≠ 0 then
      outerElem neg f.fmt.toNat (rndOf (my s) f.rnd) (outerScale s f 0) (outerScale s f 2)
        (((regRun n f.va).map (vreg (my s))).zip ((regRun n f.vb).map (vreg (my s)))) old (q / (my s).mvl) (q % (my s).mvl)
    else (old, 0))

theorem outerAll_eq (s : State) (f : VFields) (neg : Bool) (n : Nat) (y : Thread) (acc0 : y.acc0 = (my s).acc0) (acc1 : y.acc1 = (my s).acc1)
    (edge : y.mvl = (my s).mvl) (rows : y.mm = (my s).mm) (columns : y.mn = (my s).mn) :
    outerAll y f.vd.toNat neg f.fmt.toNat (rndOf (my s) f.rnd) ((regRun n f.va).map (vreg (my s))) ((regRun n f.vb).map (vreg (my s)))
      (outerScale s f 0) (outerScale s f 2) = ((outerWords s f neg n).map (·.1), flagsOf (outerWords s f neg n)) := by
  have acc : accOf y f.vd.toNat = accOf (my s) f.vd.toNat := by rw [accOf, acc0, acc1, accOf]
  have filled : (!((regRun n f.va).map (vreg (my s))).isEmpty) = decide (n ≠ 0) := by
    cases n <;> simp [regRun, List.range_succ]
  have words : (accOf y f.vd.toNat).mapIdx (fun q old =>
      if q / y.mvl < y.mm && q % y.mvl < y.mn && !((regRun n f.va).map (vreg (my s))).isEmpty then
        outerElem neg f.fmt.toNat (rndOf (my s) f.rnd) (outerScale s f 0) (outerScale s f 2)
          (((regRun n f.va).map (vreg (my s))).zip ((regRun n f.vb).map (vreg (my s)))) old (q / y.mvl) (q % y.mvl)
      else (old, 0)) = outerWords s f neg n := by
    rw [acc, edge, rows, columns, filled]
    simp only [outerWords, Bool.and_eq_true, decide_eq_true_eq, and_assoc]
  rw [outerAll, words]

theorem outerOp_word (s : State) (f : VFields) (neg : Bool) (n : Nat) :
    FlaggedWord (outerOp s f neg n) (me s) f.vd.toNat (my s) ((outerWords s f neg n).map (·.1)) (flagsOf (outerWords s f neg n)) := by
  refine ⟨fun u y hy acc0 acc1 edge rows columns => ?_⟩
  unfold performMat outerOp
  simp only [hy, outerAll_eq s f neg n y acc0 acc1 edge rows columns]

/-! ### The words -/

/-- The steps of an outer product: as many as the shape has for MOPA8, one else. -/
def outerSteps (s : State) (mopa8 : Bool) : Nat := if mopa8 then (my s).mkk else 1

section
variable {s : State} {f : VFields} {neg mopa8 : Bool}

theorem outer_ill (h : vecIllegal s true [] ∨ (VecGoes s true [] (regRun (outerSteps s mopa8) f.va ++ regRun (outerSteps s mopa8) f.vb) ∧
    (my s).mvl = 0)) : outer f neg mopa8 s = .next (takeIll s) := issueM_ill h _

variable (ready : GangReady s [] (regRun (outerSteps s mopa8) f.va ++ regRun (outerSteps s mopa8) f.vb))
include ready

theorem outer_unrounded (reserved : rndAdmits (my s) f.rnd = false) : outer f neg mopa8 s = .next (takeIll s) := by
  refine (issueM_ready ready _).trans (congrArg _ (if_pos ?_))
  rw [rndV, reserved]
  rfl

/-- A legal outer product goes to the gang as a long or a short word. -/
theorem outer_rounded (rounds : rndAdmits (my s) f.rnd = true) : outer f neg mopa8 s = .next (
    if mopa8 = true ∨ enabledOf (my s) ≠ 0 then longWord (outerOp s f neg (outerSteps s mopa8)) s
    else shortWord (outerOp s f neg (outerSteps s mopa8)) s) := by
  refine (issueM_ready ready _).trans (congrArg _ ((if_neg ?_).trans ?_))
  · rw [rndV, rounds]
    decide
  · refine (if_congr ?_ rfl rfl).trans rfl
    simp

end

/-- The three words, with the steps of each and whether its products are subtracted. -/
theorem outer_forms {s : State} {f : VFields} {p : Instr × Nat × Bool}
    (h : p ∈ [(Instr.mopa f, 1, false), (.mops f, 1, true), (.mopa8 f, (my s).mkk, false)]) :
    ∃ mopa8, exec p.1 s = outer f p.2.2 mopa8 s ∧ p.2.1 = outerSteps s mopa8 ∧ (mopa8 = true ↔ p.1 = .mopa8 f) := by
  simp only [List.mem_cons, List.not_mem_nil, or_false] at h
  rcases h with rfl | rfl | rfl
  · exact ⟨false, rfl, rfl, by simp⟩
  · exact ⟨false, rfl, rfl, by simp⟩
  · exact ⟨true, rfl, rfl, by simp⟩

theorem exec_outer_ill {s : State} {f : VFields} (ill : vecIllegal s true []) {i : Instr} (h : i ∈ [Instr.mopa f, .mops f, .mopa8 f]) :
    exec i s = .next (takeIll s) := by
  simp only [List.mem_cons, List.not_mem_nil, or_false] at h
  have refused (neg mopa8 : Bool) : outer f neg mopa8 s = .next (takeIll s) := outer_ill (.inl ill)
  rcases h with rfl | rfl | rfl
  exacts [refused false false, refused true false, refused false true]

/-- Settles O45, by the word of the gang that each outer product is, and the two ends of one that raises flags. -/
theorem outerProducts : Obligations.OuterProducts := by
  refine ⟨fun s f ill i hi => exec_outer_ill ill hi, fun s f => ?_⟩
  intro run sc p hp n a b at_ l op vs
  obtain ⟨mopa8, word, steps, wide⟩ := outer_forms hp
  have words : l = outerWords s f p.2.2 (outerSteps s mopa8) := by
    rw [← steps]
    rfl
  have op_eq : op = outerOp s f p.2.2 (outerSteps s mopa8) := by
    rw [← steps]
    rfl
  have vs_eq : vs = regRun (outerSteps s mopa8) f.va ++ regRun (outerSteps s mopa8) f.vb := by
    rw [← steps]
    rfl
  rw [vs_eq, words, op_eq]
  refine ⟨fun goes none_ => word.trans (outer_ill (.inr ⟨goes, none_⟩)), fun ready reserved => word.trans (outer_unrounded ready reserved),
    fun ready rounds => ?_, fun goes rounds => ?_⟩
  · have runs := word.trans (outer_rounded ready rounds)
    by_cases long : p.1 = .mopa8 f ∨ enabledOf (my s) ≠ 0
    · rw [if_pos long]
      rw [if_pos (by rwa [wide])] at runs
      exact longWord_sent ready.goes.onRet runs
    · rw [if_neg long]
      rw [if_neg (by rwa [wide])] at runs
      exact shortWord_sent runs
  · have runs := word.trans (outer_rounded goes.toGangReady rounds)
    have flagged := outerOp_word s f p.2.2 (outerSteps s mopa8)
    have changes (r : List (BitVec 32)) (fl : Flags) : ChangedOwn s (advance (modMy s (fun x => addFlags (setAcc x f.vd.toNat r) fl)))
        (fun x => addFlags (setAcc x f.vd.toNat r) fl) := advance_modMy_changed s _ fun x => setAcc_fields x f.vd.toNat r
    generalize outerWords s f p.2.2 (outerSteps s mopa8) = r at flagged ⊢
    by_cases long : mopa8 = true ∨ enabledOf (my s) ≠ 0
    · rw [if_pos long] at runs
      obtain ⟨quiet, raised⟩ := longWord_flags goes flagged
      exact ⟨fun none_ => ⟨_, runs.trans (congrArg _ (quiet none_)), changes _ _⟩, fun some_ => runs.trans (congrArg _ (raised some_))⟩
    · rw [if_neg long] at runs
      obtain ⟨-, off⟩ := not_or.mp long
      refine ⟨fun _ => ⟨_, runs.trans (congrArg _ (shortWord_flags goes flagged)), changes _ _⟩, fun some_ => ?_⟩
      rw [not_not.mp off, Nat.zero_and] at some_
      exact absurd rfl some_

end Sys2Proof.Machine
end

section
/-! RESULT. Strands (O30), refuted: nothing in it asks that a thread number names one record. -/

namespace Sys2Proof.Machine

/-- The message that a core's handler serves, about granule 0. -/
def servedMiss : ScopeMsg := { granule := 0, cva := 0, ctx := 0, needed := 4, markScope := 1 }

/-- The handler of core 0 issues, repairing granule 0, which is still marked. Its thread number names a second record, whose acquire is
held on that granule. -/
def handlerDoubled : State :=
  { State.reset with
    cur := .thread 16
    threads := [(16, Thread.start), (16, { Thread.start with cond := .heldAcquire 0 })]
    cores := [(0, { Core.reset with serving := some servedMiss })]
    marks := [(0, { scope := 1, core := 1, ctx := 0, dw := 0, cva := 0 })] }

/-- An acquire is found held on the granule; as the handler ends, both records go, nothing is found held any more, and no message is
sent. -/
theorem handlerDoubled_ends : anyHeld handlerDoubled 0 = true ∧ exec .tend handlerDoubled = .next (endHandler handlerDoubled 16) ∧
    missOut (endHandler handlerDoubled 16) 0 = false := ⟨rfl, rfl, rfl⟩

/-- Refutes O30, by its clause that a miss whose repair left the mark standing is sent again where an acquire is held on the granule as
the handler ends: the acquire that is found held may be that of a second record under the handler's own number, which goes with it. The
statement holds no hypothesis that the keys of the threads rise. -/
theorem not_strands : ¬ Obligations.Strands := by
  unfold Obligations.Strands
  intro h
  obtain ⟨-, -, runs, -⟩ := h
  obtain ⟨-, -, -, -, -, -, -, handler, -⟩ := runs handlerDoubled 0 0 0 0
  obtain ⟨held, ends, silent⟩ := handlerDoubled_ends
  obtain ⟨t, run, -, -, -, -, resent, -⟩ := handler 16 rfl rfl rfl (fun p hp => absurd hp List.not_mem_nil) (fun g => nofun)
  have reached : t = endHandler handlerDoubled 16 := Host.Outcome.next.inj (run.symm.trans ends)
  have sent := resent servedMiss _ rfl rfl held
  rw [reached] at sent
  exact Bool.false_ne_true (silent.symm.trans sent)

end Sys2Proof.Machine
end

section
/-! SUPPORT. Bytes written at their homes (R97, R272), and an operation on a dependence counter there (R301, R313). -/

namespace Sys2Proof.Machine

/-! ### Bytes at their homes -/

/-- Bytes have been written at their homes, and no die holds one of them for itself any more. -/
structure PutHome (s u : State) (l : List (Nat × Byte)) : Prop where
  wrote : ∃ r, (∀ q ∈ r, BroughtHome s (l.map (·.1)) q.1) ∧ Written s u (r ++ l)
  given : ∀ d, ∀ loc ∈ l.map (·.1), offPart loc = false → uoqRead u d loc = none

section
variable {s t u : State} {l m : List (Nat × Byte)} {loc : Nat}

theorem PutHome.none (h : Written s u []) : PutHome s u [] :=
  ⟨⟨[], fun _ hq => absurd hq List.not_mem_nil, h⟩, fun _ _ hl => absurd hl List.not_mem_nil⟩

theorem PutHome.before (h : Written s t []) (k : PutHome t u l) : PutHome s u l := by
  obtain ⟨⟨r, brought, wrote⟩, given⟩ := k
  exact ⟨⟨r, fun q hq => h.broughtHome (brought q hq), h.trans wrote⟩, given⟩

theorem PutHome.after (h : PutHome s t l) (k : Written t u []) : PutHome s u l := by
  obtain ⟨⟨r, brought, wrote⟩, given⟩ := h
  exact ⟨⟨r, brought, wrote.after k⟩, fun d loc hl off => (k.uoq_off d List.not_mem_nil).trans (given d loc hl off)⟩

theorem PutHome.homes (h : PutHome s u l) : HomesOnly s u := by
  obtain ⟨r, -, wrote⟩ := h.wrote
  exact wrote.homes

theorem PutHome.broughtHome (h : PutHome s u l) {locs : List Nat} (k : BroughtHome u locs loc) : BroughtHome s locs loc := by
  obtain ⟨r, -, wrote⟩ := h.wrote
  exact wrote.broughtHome k

theorem PutHome.kept (h : PutHome s u l) (off : loc ∉ l.map (·.1)) (spared : ¬BroughtHome s (l.map (·.1)) loc) :
    u.mem.get loc = s.mem.get loc := by
  obtain ⟨r, brought, wrote⟩ := h.wrote
  refine wrote.mem_off ?_
  rw [List.map_append, List.mem_append]
  rintro (given | written)
  · obtain ⟨q, hq, rfl⟩ := List.mem_map.mp given
    exact spared (brought q hq)
  · exact off written

/-- What has been written at its home stays as more is written there. -/
theorem PutHome.stays (h : PutHome s t l) (k : PutHome t u m) (written : loc ∈ l.map (·.1)) (off : loc ∉ m.map (·.1)) :
    u.mem.get loc = t.mem.get loc :=
  k.kept off fun ⟨_, here, d, held⟩ => held (h.given d loc written here)

theorem PutHome.bytes {locs : List Nat} {bytes : List Byte} (h : PutHome s u (locs.zip bytes)) (once : locs.Nodup)
    (long : locs.length = bytes.length) : locs.map u.mem.get = bytes := by
  obtain ⟨r, -, wrote⟩ := h.wrote
  rw [wrote.mem]
  exact get_setAll_zip s.mem once long r

end

theorem writeHome_puts (s : State) (a : Agent) (l : List (Nat × Byte)) (cva : Nat) (h : Hint) (home : Bool) :
    PutHome s (writeHome s a l cva h home) l := by
  obtain ⟨r, brought, wrote, given⟩ := landBytes_spec s l
  exact PutHome.after ⟨⟨r, brought, wrote⟩, given⟩ (ownLines_written ..)

/-! ### Contexts, which writes at homes leave as they are -/

theorem logArrival_ctxs (s : State) (tn kind loc gran off len : Nat) (src : Option (Nat × Bool × Nat)) :
    (logArrival s tn kind loc gran off len src).ctxs = s.ctxs := by
  unfold logArrival
  dsimp only
  split <;> rfl

theorem ownLines_lines (s : State) (a : Agent) (copy : Bool) (locs : List Nat) (cva : Nat) (h : Hint) (home : Bool) :
    LinesOnly s (ownLines s a copy locs cva h home) := by
  unfold ownLines
  refine LinesOnly.foldl _ (fun s n => ?_) _ _
  split
  · exact dropAll_lines ..
  · exact cachedStore_lines ..

theorem LinesOnly.ctxs {s u : State} (h : LinesOnly s u) : u.ctxs = s.ctxs := by rw [h.rest]

theorem writeHome_ctxs (s : State) (a : Agent) (l : List (Nat × Byte)) (cva : Nat) (h : Hint) (home : Bool) :
    (writeHome s a l cva h home).ctxs = s.ctxs :=
  (ownLines_lines ..).ctxs.trans ((putBytes_ctxs ..).trans (recallUo_ctxs ..))

theorem putCovers_ctxs (s : State) (locs ops : List Nat) (seq : Bool) : (putCovers s locs ops seq).ctxs = s.ctxs := by
  unfold putCovers
  split <;> rfl

theorem releaseMark_ctxs (s : State) (a : Agent) (sc loc cva : Nat) : (releaseMark s a sc loc cva).ctxs = s.ctxs := by
  unfold releaseMark
  split
  · rfl
  · split
    · split <;> rfl
    · rfl

theorem logArrival_written (s : State) (tn kind loc gran off len : Nat) (src : Option (Nat × Bool × Nat)) :
    Written s (logArrival s tn kind loc gran off len src) [] := by
  unfold logArrival
  dsimp only
  split
  · exact .refl s
  · exact modTenant_written ..

/-! ### The write of a doubleword at its home -/

/-- The state in which a write at the home of a location is performed: an arrival has been logged where its memory has a home in the
package (R98, R366). -/
def loggedAt (s : State) (who : Option Agent) (c : Nat) (r : ByteRef) (n : Nat) : State :=
  if offPart r.loc || inPools r.loc then s
  else match who with
    | some a => logAgent s a 2 r.loc r.cva n
    | none => logArrival s (tenantOf s c) 2 r.loc (r.cva / 256) (nativePa s r.loc % 256) n (some (c, false, 0x7FFF))

/-- What an agent's release that comes with a write leaves of the mark (R92). -/
def releasedAt (s : State) (a : Agent) (r : ByteRef) (rel : Option Nat) : State :=
  match rel with
  | some sc => if r.kind = 2 then s else releaseMark s a sc r.loc r.cva
  | none => s

/-- What the hub's release leaves of the mark (R83, R92). -/
def hubReleased (s : State) (r : ByteRef) (rel : Option Nat) : State :=
  if rel.isSome && r.kind != 2 && (kfind s.marks (granule s r.loc)).isSome then putMark s (granule s r.loc) none else s

/-- The writes that a release of an agent covers (R85, R88). -/
def coveredBy (s : State) (a : Agent) (r : ByteRef) (rel : Option Nat) : List Nat :=
  match rel with | some sc => if sc = 0 || r.kind = 2 then [] else queuedOps s a | none => []

theorem loggedAt_written (s : State) (who : Option Agent) (c : Nat) (r : ByteRef) (n : Nat) : Written s (loggedAt s who c r n) [] := by
  unfold loggedAt
  split
  · exact .refl s
  · cases who with
    | some a => exact logAgent_written ..
    | none => exact logArrival_written ..

theorem loggedAt_ctxs (s : State) (who : Option Agent) (c : Nat) (r : ByteRef) (n : Nat) : (loggedAt s who c r n).ctxs = s.ctxs := by
  unfold loggedAt
  split
  · rfl
  · cases who with
    | some a => exact logArrival_ctxs ..
    | none => exact logArrival_ctxs ..

theorem releasedAt_written (s : State) (a : Agent) (r : ByteRef) (rel : Option Nat) : Written s (releasedAt s a r rel) [] := by
  unfold releasedAt
  split
  · split
    · exact .refl s
    · exact releaseMark_written ..
  · exact .refl s

theorem releasedAt_ctxs (s : State) (a : Agent) (r : ByteRef) (rel : Option Nat) : (releasedAt s a r rel).ctxs = s.ctxs := by
  unfold releasedAt
  split
  · split
    · rfl
    · exact releaseMark_ctxs ..
  · rfl

theorem hubReleased_written (s : State) (r : ByteRef) (rel : Option Nat) : Written s (hubReleased s r rel) [] := by
  unfold hubReleased
  split
  · exact putMark_written ..
  · exact .refl s

theorem hubReleased_ctxs (s : State) (r : ByteRef) (rel : Option Nat) : (hubReleased s r rel).ctxs = s.ctxs := by
  unfold hubReleased
  split <;> rfl

section
variable (s : State) (c : Nat) (r : ByteRef) (rest : List ByteRef) (l : List Byte) (rel : Option Nat)

theorem homeWrite_agent (a : Agent) : homeWrite s (some a) c (r :: rest) (some l) rel =
    releasedAt (putCovers (writeHome (loggedAt s (some a) c r (r :: rest).length) a (((r :: rest).map (·.loc)).zip l) r.cva .none true)
      ((r :: rest).map (·.loc)) (coveredBy (loggedAt s (some a) c r (r :: rest).length) a r rel) true) a r rel := rfl

theorem homeWrite_hub : homeWrite s none c (r :: rest) (some l) rel =
    hubReleased (writeHome (loggedAt s none c r (r :: rest).length) (.thread 0) (((r :: rest).map (·.loc)).zip l) r.cva .none true) r rel :=
  rfl

end

/-- Bytes written at the home, for an agent or for the hub's gang table. -/
theorem homeWrite_puts (s : State) (who : Option Agent) (c : Nat) {refs : List ByteRef} (some_ : refs ≠ []) (l : List Byte)
    (rel : Option Nat) : PutHome s (homeWrite s who c refs (some l) rel) ((refs.map (·.loc)).zip l) := by
  obtain ⟨r, rest, rfl⟩ := List.exists_cons_of_ne_nil some_
  have put (a : Agent) := (writeHome_puts (loggedAt s who c r (r :: rest).length) a (((r :: rest).map (·.loc)).zip l) r.cva .none
    true).before (loggedAt_written s who c r (r :: rest).length)
  cases who with
  | some a =>
    rw [homeWrite_agent]
    exact ((put a).after (putCovers_written ..)).after (releasedAt_written ..)
  | none =>
    rw [homeWrite_hub]
    exact (put (.thread 0)).after (hubReleased_written ..)

/-- Where nothing is written, a line comes home and no byte changes. -/
theorem homeWrite_idle (s : State) (who : Option Agent) (c : Nat) (refs : List ByteRef) (rel : Option Nat) :
    Written s (homeWrite s who c refs none rel) [] ∧ (homeWrite s who c refs none rel).ctxs = s.ctxs := by
  cases refs with
  | nil => cases who <;> exact ⟨.refl s, rfl⟩
  | cons r rest =>
    have logged := loggedAt_written s who c r (r :: rest).length
    have same := loggedAt_ctxs s who c r (r :: rest).length
    have back (u : State) (b : Bool) (line : Nat) : Written u (if b then u else recallLine u line) [] ∧
        (if b then u else recallLine u line).ctxs = u.ctxs := by
      cases b
      · exact ⟨(recallLine_lines ..).written, (recallLine_lines ..).ctxs⟩
      · exact ⟨.refl u, rfl⟩
    cases who with
    | some a =>
      obtain ⟨wrote, kept⟩ := back (loggedAt s (some a) c r (r :: rest).length)
        (inPools (nativePa (loggedAt s (some a) c r (r :: rest).length) r.loc) || offPart r.loc)
        (nativePa (loggedAt s (some a) c r (r :: rest).length) r.loc / 128 * 128)
      exact ⟨logged.trans wrote, kept.trans same⟩
    | none => exact ⟨logged.trans (recallLine_lines ..).written, (recallLine_lines ..).ctxs.trans same⟩

theorem homeWrite_ctxs (s : State) (who : Option Agent) (c : Nat) (refs : List ByteRef) (new : Option (List Byte)) (rel : Option Nat) :
    (homeWrite s who c refs new rel).ctxs = s.ctxs := by
  cases new with
  | none => exact (homeWrite_idle ..).2
  | some l =>
    cases refs with
    | nil => cases who <;> rfl
    | cons r rest =>
      have put (a : Agent) : (writeHome (loggedAt s who c r (r :: rest).length) a (((r :: rest).map (·.loc)).zip l) r.cva .none
          true).ctxs = s.ctxs := (writeHome_ctxs ..).trans (loggedAt_ctxs ..)
      cases who with
      | some a =>
        rw [homeWrite_agent, releasedAt_ctxs, putCovers_ctxs]
        exact put a
      | none =>
        rw [homeWrite_hub, hubReleased_ctxs]
        exact put (.thread 0)

/-! ### An operation on a counter -/

/-- The code of RECORD depends on no more than contexts and pools. -/
theorem launchCode_of {s u : State} (ctxs : u.ctxs = s.ctxs) (pools : u.pools = s.pools) (c : Nat) (r : List Word) :
    launchCode u c r = launchCode s c r := by
  have fits (n : Nat) : shareFits u c n = shareFits s c n := by rw [shareFits, pools]; rfl
  unfold launchCode
  rw [ctx?, ctxs, ← ctx?]
  simp only [fits]

/-- What an operation writes to REFUSE of a counter whose RECORD's code is `code`. -/
def refusal (op : DepOp) (fires : Bool) (code : Nat) : Option Nat :=
  if op = .init then some 0 else if fires = true ∧ code ≠ 0 then some code else none

/-- A byte written to a location, or none. -/
def bytePut (loc : Nat) : Option Nat → List (Nat × Byte)
  | some n => [(loc, BitVec.ofNat 8 n)]
  | none => []

/-- A doubleword written to locations, or none. -/
def wordPut (refs : List ByteRef) : Option Word → List (Nat × Byte)
  | some y => (refs.map (·.loc)).zip (leBytes 8 y.toNat)
  | none => []

/-- What a fired counter leaves in its context: its successor queued, or counted as refused (R313). -/
def firedCtx (s : State) (c : Nat) (fires : Bool) (code : Nat) (record : List Word) : State :=
  if fires then if code ≠ 0 then countErr s c 3
    else owe (modCtx s c (fun x => { x with succs := x.succs ++ [record] })) [ev .gangStart c]
  else s

theorem fireSucc_ends (u : State) (c : Nat) (refs : List ByteRef) (record : List Word) {b : ByteRef} (byte : refs[8]? = some b) :
    ∃ v, PutHome u v (bytePut b.loc (if launchCode u c record ≠ 0 then some (launchCode u c record) else none)) ∧ v.ctxs = u.ctxs ∧
      fireSucc u c refs record = firedCtx v c true (launchCode u c record) record := by
  have at_ : refs.getD 8 (byteRef u c (2 ^ 48)) = b := by rw [List.getD_eq_getElem?_getD, byte]; rfl
  unfold fireSucc firedCtx
  by_cases taken : launchCode u c record = 0
  · rw [if_neg (not_not_intro taken)]
    exact ⟨u, .none (.refl u), rfl, by simp [taken]⟩
  · rw [if_pos taken]
    refine ⟨writeHome u (.thread 0) [(b.loc, BitVec.ofNat 8 (launchCode u c record))] b.cva .none true, writeHome_puts .., writeHome_ctxs ..,
      ?_⟩
    dsimp only
    rw [if_pos taken, if_pos taken, at_]
    rfl

theorem fired_ends (u : State) (c : Nat) (refs : List ByteRef) (record : List Word) (fires : Bool) {b : ByteRef} (byte : refs[8]? = some b) :
    ∃ v, PutHome u v (bytePut b.loc (if fires = true ∧ launchCode u c record ≠ 0 then some (launchCode u c record) else none)) ∧
      v.ctxs = u.ctxs ∧ (if fires then fireSucc u c refs record else u) = firedCtx v c fires (launchCode u c record) record := by
  cases fires with
  | true =>
    simp only [true_and, if_true]
    exact fireSucc_ends u c refs record byte
  | false => exact ⟨u, .none (.refl u), rfl, rfl⟩

section
variable (s : State) (who : Option Agent) (c : Nat) (refs : List ByteRef) (words : List Word)

/-- What an operation makes of a counter whose doublewords are `words`. -/
def depMade (op : DepOp) : Nat × Option Word × Bool := depStep op (words.getD 0 0) (launchCode s c (words.drop 8))

/-- Doubleword 0 of a counter as an operation writes it. -/
def depFirst (op : DepOp) (rel : Option Nat) : State :=
  homeWrite s who c (refs.take 8) ((depMade s c words op).2.1.map (fun w => leBytes 8 w.toNat)) rel

theorem depApply_plain {op : DepOp} (plain : op ≠ .init) : ∃ rel, (depApply s who c refs words op).1 =
    if (depMade s c words op).2.2 then fireSucc (depFirst s who c refs words op rel) c refs (words.drop 8)
    else depFirst s who c refs words op rel := by
  cases op with
  | init => exact absurd rfl plain
  | arm x => exact ⟨_, rfl⟩
  | sig => exact ⟨_, rfl⟩

theorem depApply_init {b : ByteRef} (byte : refs[8]? = some b) : (depApply s who c refs words .init).1 =
    writeHome (depFirst s who c refs words .init none) (.thread 0) [(b.loc, 0)] b.cva .none true := by
  simp only [depApply, byte]
  rfl

variable {refs} {b : ByteRef} (byte : refs[8]? = some b)
include byte

theorem depFirst_puts (op : DepOp) (rel : Option Nat) :
    PutHome s (depFirst s who c refs words op rel) (wordPut (refs.take 8) (depMade s c words op).2.1) := by
  unfold depFirst
  cases (depMade s c words op).2.1 with
  | none => exact .none (homeWrite_idle ..).1
  | some y =>
    refine homeWrite_puts s who c (fun empty => ?_) _ rel
    obtain ⟨inside, -⟩ := List.getElem?_eq_some_iff.mp byte
    have := congrArg List.length empty
    rw [List.length_take, List.length_nil] at this
    omega

/-- An operation writes doubleword 0 of a counter and then REFUSE at their homes, and its successor goes to the gang table. -/
theorem depApply_ends (op : DepOp) :
    ∃ u v, PutHome s u (wordPut (refs.take 8) (depMade s c words op).2.1) ∧
      PutHome u v (bytePut b.loc (refusal op (depMade s c words op).2.2 (launchCode s c (words.drop 8)))) ∧ v.ctxs = s.ctxs ∧
      (depApply s who c refs words op).1 =
        firedCtx v c (depMade s c words op).2.2 (launchCode s c (words.drop 8)) (words.drop 8) := by
  have first := depFirst_puts s who c words byte op
  have ctxs (rel : Option Nat) : (depFirst s who c refs words op rel).ctxs = s.ctxs := homeWrite_ctxs ..
  by_cases starts : op = .init
  · subst starts
    exact ⟨_, _, first none, writeHome_puts .., (writeHome_ctxs ..).trans (ctxs none), depApply_init s who c refs words byte⟩
  · obtain ⟨rel, done⟩ := depApply_plain s who c refs words starts
    obtain ⟨v, put, same, ended⟩ := fired_ends (depFirst s who c refs words op rel) c refs (words.drop 8) (depMade s c words op).2.2 byte
    have pools : (depFirst s who c refs words op rel).pools = s.pools := by
      have homes := (first rel).homes
      unfold HomesOnly at homes
      rw [homes]
    rw [launchCode_of (ctxs rel) pools] at put ended
    refine ⟨_, v, first rel, ?_, same.trans (ctxs rel), done.trans ended⟩
    rwa [refusal, if_neg starts]

end

theorem firedCtx_written (s : State) (c : Nat) (fires : Bool) (code : Nat) (record : List Word) :
    Written s (firedCtx s c fires code record) [] := by
  unfold firedCtx
  split
  · split
    · exact modCtx_written ..
    · exact (modCtx_written ..).trans (owe_written ..)
  · exact .refl s

theorem depApply_homes (s : State) (who : Option Agent) (c : Nat) {refs : List ByteRef} (words : List Word) (op : DepOp)
    (whole : refs.length = 128) : HomesOnly s (depApply s who c refs words op).1 := by
  obtain ⟨u, v, first, second, -, ended⟩ := depApply_ends s who c words (List.getElem?_eq_getElem (by omega : 8 < refs.length)) op
  rw [ended]
  exact (first.homes.trans second.homes).trans (firedCtx_written ..).homes

end Sys2Proof.Machine
end

section
/-! RESULT. GLAUNCH, GBAR, the watchdog words and the dependence counters (O31). -/

namespace Sys2Proof.Machine

/-! ### The gang table -/

theorem freeGid_none {x : Ctx} (full : ∀ g, g < 64 → (kfind x.gangs g).isSome) : freeGid x = none := by
  refine List.find?_eq_none.mpr fun g hg => ?_
  have held := full g (List.mem_range.mp hg)
  simp only [Option.isNone_iff_eq_none]
  intro free
  rw [free] at held
  exact Bool.false_ne_true held

theorem freeGid_first {x : Ctx} {g : Nat} (inside : g < 64) (free : kfind x.gangs g = none)
    (first : ∀ j, j < g → (kfind x.gangs j).isSome) : freeGid x = some g :=
  find?_range_of_first inside (by rw [free]; rfl) fun j hj => by
    rw [Option.isNone_eq_false_iff]
    exact first j hj

theorem mem_poolsOf {s : State} {c p : Nat} (binds : ∃ e ∈ (pool s p).slots, e.2.valid = true ∧ e.2.ctx = c) : p ∈ poolsOf s c := by
  obtain ⟨e, he, valid, same⟩ := binds
  cases found : kfind s.pools p with
  | none =>
    rw [pool, kget, found] at he
    exact absurd he List.not_mem_nil
  | some x =>
    rw [pool, kget, found] at he
    refine List.mem_map.mpr ⟨(p, x), List.mem_filter.mpr ⟨kfind_mem found, List.any_eq_true.mpr ⟨e, he, ?_⟩⟩, rfl⟩
    simp [valid, same]

section
variable {s : State} {c : Nat} {r : List Word}

theorem deviceLaunch_refused (bad : launchCode s c r ≠ 0) : deviceLaunch s c r = (s, launchCode s c r) := if_pos bad

variable {x : Ctx} (here : ctx? s c = some x) (idle : x.succs = []) (good : launchCode s c r = 0)
include here idle good

theorem deviceLaunch_full (full : freeGid x = none) : deviceLaunch s c r = (s, 6) := by
  unfold deviceLaunch
  simp only [good, ne_eq, not_true_eq_false, if_false, placeSuccs_none here idle, here, Option.bind_some, full]

theorem deviceLaunch_free {g : Nat} (free : freeGid x = some g) : deviceLaunch s c r = (enterGang s c g r none, g * 2 ^ 8) := by
  unfold deviceLaunch
  simp only [good, ne_eq, not_true_eq_false, if_false, placeSuccs_none here idle, here, Option.bind_some, free]

/-- A gang that enters the table (R300, R317): only its context's record has changed, and each pool that binds the context draws. -/
theorem deviceLaunch_enters {g : Nat} (free : freeGid x = some g) :
    ∃ t y, deviceLaunch s c r = (t, g * 2 ^ 8) ∧ t = { s with ctxs := t.ctxs, owed := t.owed } ∧
      (∀ j, j ≠ c → ctx? t j = ctx? s j) ∧ ctx? t c = some { x with gangs := kset x.gangs g y, gangSeq := x.gangSeq + 1 } ∧
      y = { record := r, port := none, next := 0, live := 0, retired := 0, gen := 0, arrivals := 0, wdCount := 0
            wdt := recWdt r, seq := x.gangSeq } ∧
      ∃ o, t.owed = s.owed ++ o ∧ ∀ p, (∃ e ∈ (pool s p).slots, e.2.valid = true ∧ e.2.ctx = c) → ev .tileDraw p c ∈ o := by
  let f (y : Ctx) : Ctx := { y with gangs := kset y.gangs g (Gang.start r none y.gangSeq), gangSeq := y.gangSeq + 1 }
  obtain ⟨ctxs, only⟩ := modCtx_only s c f
  have entered : enterGang s c g r none = owe (modCtx s c f) ((poolsOf (modCtx s c f) c).map (fun p => ev .tileDraw p c)) := rfl
  have others (j : Nat) (ne : j ≠ c) : ctx? (enterGang s c g r none) j = ctx? s j := by
    rw [entered]
    exact (ctx_modCtx s c j f).trans (if_neg ne)
  have own := ctx_enterGang_none (g := g) (r := r) here
  rw [deviceLaunch_free here idle good free]
  refine ⟨_, _, rfl, ?_, others, own, rfl, ?_⟩
  · rw [entered, only]
    rfl
  · rw [entered, only]
    exact ⟨_, rfl, fun p binds => List.mem_map.mpr ⟨p, mem_poolsOf (s := { s with ctxs := ctxs }) binds, rfl⟩⟩

end

/-! ### What an operation makes of a counter -/

/-- The fields of a counter's doubleword 0 (Table 11.6); its reserved bits are those of `w`. -/
def CounterIs (w : Word) (valid armed fired : Bool) (count : Nat) (y : Word) : Prop :=
  y.getLsbD 63 = valid ∧ y.getLsbD 62 = armed ∧ y.getLsbD 61 = fired ∧ (y.extractLsb' 0 32).toNat = count ∧
    y.extractLsb' 32 29 = w.extractLsb' 32 29

theorem getLsbD_eq_of_toNat (y : Word) (i : Nat) : y.getLsbD i = decide (y.toNat / 2 ^ i % 2 = 1) := by
  rw [BitVec.getLsbD, Nat.testBit_eq_decide_div_mod_eq]

theorem putDep_is (w : Word) (armed fired : Bool) {count : Nat} (small : count < 2 ^ 32) :
    CounterIs w true armed fired count (putDep w armed fired count) := by
  have reserved : field w 32 29 < 2 ^ 29 := Nat.mod_lt _ (Nat.two_pow_pos _)
  have value : (putDep w armed fired count).toNat = 2 ^ 63 + (if armed then 2 ^ 62 else 0) + (if fired then 2 ^ 61 else 0) +
      field w 32 29 * 2 ^ 32 + count := by
    rw [putDep, BitVec.toNat_ofNat, Nat.mod_eq_of_lt small, Nat.mod_eq_of_lt]
    split <;> split <;> omega
  have kept : field (putDep w armed fired count) 32 29 = field w 32 29 := by
    rw [field, value]
    split <;> split <;> omega
  refine ⟨?_, ?_, ?_, ?_, BitVec.eq_of_toNat_eq (by rw [← field_eq, ← field_eq, kept])⟩
  · rw [getLsbD_eq_of_toNat, value, decide_eq_true_eq]
    split <;> split <;> omega
  · rw [getLsbD_eq_of_toNat, value]
    cases armed <;> cases fired <;> simp <;> omega
  · rw [getLsbD_eq_of_toNat, value]
    cases armed <;> cases fired <;> simp <;> omega
  · rw [← field_eq, field, value]
    split <;> split <;> omega

section
variable (w : Word) (check : Nat)

/-- COUNT of a counter's doubleword 0. -/
def depCount : Nat := (w.extractLsb' 0 32).toNat

theorem depStep_init : ∃ y, depStep .init w check = (0, some y, false) ∧ CounterIs w true false false 0 y :=
  ⟨_, rfl, putDep_is w false false (Nat.two_pow_pos 32)⟩

/-- COUNT and ARMED put into a counter that is VALID. -/
def depApplied (armed : Bool) (count : Nat) : Nat × Option Word × Bool :=
  (0, some (putDep w armed (w.getLsbD 61 || (armed && !w.getLsbD 61 && count == 0)) count), armed && !w.getLsbD 61 && count == 0)

theorem depStep_sig_eq : depStep .sig w check =
    if !w.getLsbD 63 then (2, none, false) else depApplied w (w.getLsbD 62) ((field w 0 32 + 2 ^ 32 - 1) % 2 ^ 32) := rfl

theorem depStep_arm_eq (x : Nat) : depStep (.arm x) w check =
    if !w.getLsbD 63 then (2, none, false)
    else if w.getLsbD 62 then (4, none, false)
    else if 2 ^ 31 ≤ x then (6, none, false)
    else if check ≠ 0 then (8 + check * 2 ^ 8, none, false)
    else depApplied w true ((field w 0 32 + x) % 2 ^ 32) := rfl

theorem depApplied_is (armed : Bool) {count : Nat} (small : count < 2 ^ 32) : ∃ y,
    depApplied w armed count = (0, some y, armed && !w.getLsbD 61 && decide (count = 0)) ∧
      CounterIs w true armed (w.getLsbD 61 || (armed && decide (count = 0))) count y := by
  have made := putDep_is w armed (w.getLsbD 61 || (armed && decide (count = 0))) small
  refine ⟨_, ?_, made⟩
  unfold depApplied
  cases armed <;> cases w.getLsbD 61 <;> rfl

theorem depStep_invalid (x : Nat) (off : w.getLsbD 63 = false) :
    depStep .sig w check = (2, none, false) ∧ depStep (.arm x) w check = (2, none, false) := by
  rw [depStep_sig_eq, depStep_arm_eq, off]
  exact ⟨rfl, rfl⟩

variable {w} (valid : w.getLsbD 63 = true)
include valid

theorem depStep_sig : ∃ y, depStep .sig w check =
      (0, some y, w.getLsbD 62 && !w.getLsbD 61 && decide ((depCount w + 2 ^ 32 - 1) % 2 ^ 32 = 0)) ∧
    CounterIs w true (w.getLsbD 62) (w.getLsbD 61 || (w.getLsbD 62 && decide ((depCount w + 2 ^ 32 - 1) % 2 ^ 32 = 0)))
      ((depCount w + 2 ^ 32 - 1) % 2 ^ 32) y := by
  rw [depStep_sig_eq, valid, Bool.not_true, if_neg Bool.false_ne_true, field_eq, ← depCount]
  exact depApplied_is w _ (Nat.mod_lt _ (Nat.two_pow_pos 32))

theorem depStep_armed (x : Nat) (armed : w.getLsbD 62 = true) : depStep (.arm x) w check = (4, none, false) := by
  rw [depStep_arm_eq, valid, armed, Bool.not_true, if_neg Bool.false_ne_true, if_pos rfl]

variable (free : w.getLsbD 62 = false)
include free

theorem depStep_wide {x : Nat} (wide : 2 ^ 31 ≤ x) : depStep (.arm x) w check = (6, none, false) := by
  rw [depStep_arm_eq, valid, free, Bool.not_true, if_neg Bool.false_ne_true, if_neg Bool.false_ne_true, if_pos wide]

theorem depStep_unchecked {x : Nat} (small : x < 2 ^ 31) (bad : check ≠ 0) :
    depStep (.arm x) w check = (8 + check * 2 ^ 8, none, false) := by
  rw [depStep_arm_eq, valid, free, Bool.not_true, if_neg Bool.false_ne_true, if_neg Bool.false_ne_true, if_neg (Nat.not_le.mpr small), if_pos bad]

theorem depStep_arm {x : Nat} (small : x < 2 ^ 31) : ∃ y, depStep (.arm x) w 0 =
      (0, some y, !w.getLsbD 61 && decide ((depCount w + x) % 2 ^ 32 = 0)) ∧
    CounterIs w true true (w.getLsbD 61 || decide ((depCount w + x) % 2 ^ 32 = 0)) ((depCount w + x) % 2 ^ 32) y := by
  rw [depStep_arm_eq, valid, free, Bool.not_true, if_neg Bool.false_ne_true, if_neg Bool.false_ne_true, if_neg (Nat.not_le.mpr small),
    if_neg (not_not_intro rfl), field_eq, ← depCount]
  exact depApplied_is w true (Nat.mod_lt _ (Nat.two_pow_pos 32))

end

/-! ### A counter at its home -/

theorem wordPut_off {refs : List ByteRef} {new : Option Word} {loc : Nat} (h : new = none ∨ loc ∉ refs.map (·.loc)) :
    loc ∉ (wordPut refs new).map (·.1) := by
  cases new with
  | none => exact List.not_mem_nil
  | some y =>
    intro inside
    obtain ⟨q, hq, rfl⟩ := List.mem_map.mp inside
    exact h.elim nofun fun off => off (List.of_mem_zip hq).1

theorem wordPut_only {refs : List ByteRef} {new : Option Word} {loc : Nat} (h : loc ∈ (wordPut refs new).map (·.1)) :
    loc ∈ refs.map (·.loc) := by
  by_contra off
  exact wordPut_off (.inr off) h

theorem bytePut_off {at_ loc : Nat} {new : Option Nat} (h : new = none ∨ loc ≠ at_) : loc ∉ (bytePut at_ new).map (·.1) := by
  cases new with
  | none => exact List.not_mem_nil
  | some n => exact fun inside => h.elim nofun fun off => off (List.mem_singleton.mp inside)

theorem bytePut_only {at_ loc : Nat} {new : Option Nat} (h : loc ∈ (bytePut at_ new).map (·.1)) : loc = at_ := by
  by_contra off
  exact bytePut_off (.inr off) h

/-- Where the locations differ, REFUSE's is none of doubleword 0. -/
theorem eighth_apart {refs : List ByteRef} {b : ByteRef} (once : (refs.map (·.loc)).Nodup) (byte : refs[8]? = some b) :
    b.loc ∉ (refs.take 8).map (·.loc) := by
  intro inside
  rw [← List.take_append_drop 8 refs, List.map_append] at once
  refine List.disjoint_of_nodup_append once inside (List.mem_map_of_mem ?_)
  exact List.mem_of_getElem? (i := 0) (by rw [List.getElem?_drop]; exact byte)

section
variable (s : State) (who : Option Agent) (c : Nat) {refs : List ByteRef} (words : List Word) (op : DepOp)
variable (whole : refs.length = 128) (once : (refs.map (·.loc)).Nodup)
include whole

/-- Doubleword 0, REFUSE and nothing else of memory as an operation leaves them (R313). -/
theorem depApply_bytes :
    let t := (depApply s who c refs words op).1
    let new := (depMade s c words op).2.1
    let refuse := refusal op (depMade s c words op).2.2 (launchCode s c (words.drop 8))
    ((refs.map (·.loc)).Nodup → ∀ y, new = some y → (refs.take 8).map (fun b => t.mem.get b.loc) = leBytes 8 y.toNat) ∧
      (∀ n b, refuse = some n → refs[8]? = some b → t.mem.get b.loc = BitVec.ofNat 8 n) ∧
      ∀ loc, ¬BroughtHome s ((refs.take 9).map (·.loc)) loc → (new = none ∨ loc ∉ (refs.take 8).map (·.loc)) →
        (refuse = none ∨ ∀ b, refs[8]? = some b → loc ≠ b.loc) → t.mem.get loc = s.mem.get loc := by
  intro t new refuse
  have byte : refs[8]? = some refs[8] := List.getElem?_eq_getElem (by omega)
  obtain ⟨u, v, first, second, -, ended⟩ := depApply_ends s who c words byte op
  have mem : t.mem = v.mem := by
    change (depApply s who c refs words op).1.mem = _
    rw [ended]
    exact (firedCtx_written ..).mem
  rw [mem]
  refine ⟨fun once y made => ?_, fun n b put at_ => ?_, fun loc spared off apart => ?_⟩
  · rw [show (depMade s c words op).2.1 = some y from made] at first
    have long : ((refs.take 8).map (·.loc)).length = (leBytes 8 y.toNat).length := by
      rw [List.length_map, List.length_take, whole, leBytes_length]
      rfl
    have wrote := first.bytes (once.sublist (List.Sublist.map _ (List.take_sublist ..))) long
    rw [← wrote, List.map_map]
    refine List.map_congr_left fun b hb => first.stays second ?_ (bytePut_off (.inr fun same => ?_))
    · rw [wordPut, zip_fst long]
      exact List.mem_map_of_mem hb
    · exact eighth_apart once byte (same ▸ List.mem_map_of_mem hb)
  · cases byte.symm.trans at_
    rw [show refusal op _ _ = some n from put] at second
    have wrote := PutHome.bytes (locs := [refs[8].loc]) (bytes := [BitVec.ofNat 8 n]) second (List.nodup_singleton _) rfl
    exact List.singleton_inj.mp wrote
  · have last : refs[8].loc ∈ (refs.take 9).map (·.loc) :=
      List.mem_map_of_mem (List.mem_of_getElem? (i := 8) (by rw [List.getElem?_take_of_lt (by decide)]; exact byte))
    have kept := first.kept (wordPut_off off) fun brought => spared (broughtHome_mono brought fun x hx => ?_)
    · rw [← kept]
      refine second.kept (bytePut_off (apart.imp_right fun h => h _ byte)) fun brought => ?_
      refine spared (broughtHome_mono (first.broughtHome brought) fun x hx => ?_)
      rw [bytePut_only hx]
      exact last
    · have inside := wordPut_only hx
      exact List.Sublist.subset (List.Sublist.map _ (List.take_sublist_take_left (by decide))) inside

end

/-- The successor of a counter that fires, and the context of one that does not (R313). -/
theorem depApply_ctx (s : State) (who : Option Agent) (c : Nat) {refs : List ByteRef} (words : List Word) (op : DepOp)
    (whole : refs.length = 128) {x : Ctx} (here : ctx? s c = some x) :
    let t := (depApply s who c refs words op).1
    ((depMade s c words op).2.2 = true → launchCode s c (words.drop 8) = 0 →
      ev .gangStart c ∈ t.owed ∧ ctx? t c = some { x with succs := x.succs ++ [words.drop 8] }) ∧
      ((depMade s c words op).2.2 = false → ctx? t c = some x) := by
  intro t
  obtain ⟨u, v, -, -, ctxs, ended⟩ := depApply_ends s who c words (List.getElem?_eq_getElem (by omega : 8 < refs.length)) op
  have stands : ctx? v c = some x := by rw [ctx?, ctxs]; exact here
  have left : t = _ := ended
  rw [left]
  refine ⟨fun fires taken => ?_, fun quiet => ?_⟩
  · rw [fires, taken]
    refine ⟨List.mem_append_right _ (List.mem_singleton.mpr rfl), ?_⟩
    change ctx? (modCtx v c _) c = _
    rw [ctx_modCtx, if_pos rfl, stands]
    rfl
  · rw [quiet]
    exact stands

/-! ### GLAUNCH -/

/-- The doublewords that the issuing agent reads at some bytes. -/
def refWords (u : State) (l : List ByteRef) : List Word :=
  (chunksOf 8 l.length (bytesOf u l)).map (fun x => BitVec.ofNat 64 (leNat x))

theorem accessRefs_length (s : State) (g : BitVec 3) (off : Word) (n : Nat) : (accessRefs s g off n).length = n := by
  simp [accessRefs, span]

section
variable {s : State} {d a : Reg} {g : BitVec 3}

/-- The four words as the model gives them. -/
theorem exec_glaunch (s : State) (d a : Reg) (g : BitVec 3) : exec (.glaunch d a g) s = execGlaunch d a g s := rfl
theorem exec_gbar (s : State) (d : Reg) : exec (.gbar d) s = execGbar d s := rfl
theorem exec_wdkick (s : State) : exec .wdkick s = execWdkick s := rfl
theorem exec_wdset (s : State) (d a : Reg) : exec (.wdset d a) s = execWdset d a s := rfl

theorem glaunch_ill (ill : taskWordOk s [d, a] = false) : exec (.glaunch d a g) s = .next (takeIll s) :=
  (exec_glaunch s d a g).trans (issue_ill ill _)

variable (ok : taskWordOk s [d, a] = true)
include ok

theorem glaunch_cause {x : Cause} (cause : scalarCause s g (reg s a) 64 0 64 = some x) :
    exec (.glaunch d a g) s = .next (takeCause s x) := by
  refine (exec_glaunch s d a g).trans ((issue_ok ok _).trans (congrArg _ ?_))
  dsimp only
  rw [cause]

variable (free : scalarCause s g (reg s a) 64 0 64 = none)
include free

theorem glaunch_waits (waits : releaseWaits s 4 = true ∨
    (accessRefs s g (reg s a) 64).any (fun r => mustWait s s.cur s.stores r.kind false [] none) = true) :
    exec (.glaunch d a g) s = .next (waitHere s) := by
  refine (exec_glaunch s d a g).trans ((issue_ok ok _).trans (congrArg _ ?_))
  dsimp only
  rw [free]
  exact if_pos (Bool.or_eq_true_iff.mpr waits)

variable (turn : ¬(releaseWaits s 4 = true ∨
  (accessRefs s g (reg s a) 64).any (fun r => mustWait s s.cur s.stores r.kind false [] none) = true))
include turn

theorem glaunch_poisoned (bad : (underRefs s (accessRefs s g (reg s a) 64)).any (poisoned s) = true) :
    exec (.glaunch d a g) s = .next (takeTrap s 5 0 0) := by
  refine (exec_glaunch s d a g).trans ((issue_ok ok _).trans (congrArg _ ?_))
  dsimp only
  rw [free]
  exact (if_neg (mt Bool.or_eq_true_iff.mp turn)).trans (if_pos bad)

/-- What a read of some bytes leaves of the caches and of the readers of queued writes. -/
def readThrough (s : State) (l : List ByteRef) : State := noteReads (touchLoad (served s l) s.cur l .none) s.cur (underRefs s l)

omit ok free turn in
theorem readThrough_caches (l : List ByteRef) : CachesOnly (served s l) (readThrough s l) :=
  (touchLoad_lines ..).cachesOnly.trans (noteReads_caches ..)

omit ok free turn in
theorem readThrough_homes (l : List ByteRef) : HomesOnly s (readThrough s l) :=
  (served_homes s l).trans (readThrough_caches l).homesOnly

omit ok free turn in
theorem readThrough_bytes (l : List ByteRef) : bytesOf (readThrough s l) l = bytesOf (served s l) l := by
  have caches := readThrough_caches (s := s) l
  have same := caches.homesOnly.sameAgents
  rw [bytesOf, bytesOf, same.cur, same.myDie]
  exact List.map_congr_left fun r _ => caches.readRef ..

theorem glaunch_reads (clean : (underRefs s (accessRefs s g (reg s a) 64)).any (poisoned s) = false) :
    exec (.glaunch d a g) s = .next (
      let u := readThrough s (accessRefs s g (reg s a) 64)
      let r := deviceLaunch u (myCtx u) ((chunksOf 8 64 (bytesOf u (accessRefs s g (reg s a) 64))).map (fun b => BitVec.ofNat 64 (leNat b)))
      advance (setReg r.1 d (BitVec.ofNat 64 r.2))) := by
  refine (exec_glaunch s d a g).trans ((issue_ok ok _).trans (congrArg _ ?_))
  dsimp only
  rw [free]
  exact (if_neg (mt Bool.or_eq_true_iff.mp turn)).trans (if_neg (Bool.eq_false_iff.mp clean))

theorem glaunch_launches (clean : (underRefs s (accessRefs s g (reg s a) 64)).any (poisoned s) = false) :
    exec (.glaunch d a g) s = .next (
      let r := deviceLaunch (readThrough s (accessRefs s g (reg s a) 64)) (myCtx s)
        (refWords (served s (accessRefs s g (reg s a) 64)) (accessRefs s g (reg s a) 64))
      advance (setReg r.1 d (BitVec.ofNat 64 r.2))) := by
  have ctx := (readThrough_homes (s := s) (accessRefs s g (reg s a) 64)).sameAgents.myCtx
  have words : (chunksOf 8 64 (bytesOf (readThrough s (accessRefs s g (reg s a) 64)) (accessRefs s g (reg s a) 64))).map
      (fun b => BitVec.ofNat 64 (leNat b)) = refWords (served s (accessRefs s g (reg s a) 64)) (accessRefs s g (reg s a) 64) := by
    rw [refWords, accessRefs_length, readThrough_bytes]
  rw [glaunch_reads ok free turn clean]
  dsimp only
  rw [words, ctx]

end

/-! ### The watchdog words and GBAR -/

theorem modGang_only (s : State) (c g : Nat) (f : Gang → Gang) : SameAgents s (modGang s c g f) ∧ SameBytes s (modGang s c g f) := by
  unfold modGang
  refine ⟨(modCtx_written ..).homes.sameAgents, ?_⟩
  generalize (fun x : Ctx => _) = h
  obtain ⟨ctxs, only⟩ := modCtx_only s c h
  rw [only]
  exact sameBytes_of rfl rfl rfl

theorem taskWordOk_thread {s : State} {rs : List Reg} (ok : taskWordOk s rs = true) : onRet s = false := by
  simp only [taskWordOk, admits, Bool.and_eq_true, Bool.false_or, Bool.not_eq_true'] at ok
  exact ok.1.2

section
variable {s : State} {d a : Reg}

theorem wdkick_kicks (ok : taskWordOk s [] = true) : ∃ t, exec .wdkick s = .next t ∧ BytesKept s t ∧
    Retired s (modGang s (myCtx s) (myTask s).gid (fun y => { y with wdCount := 0 })) t (.next s) := by
  obtain ⟨agents, bytes⟩ := modGang_only s (myCtx s) (myTask s).gid (fun y => { y with wdCount := 0 })
  exact ⟨_, (exec_wdkick s).trans (issue_ok ok _), bytes.bytesKept.trans (advance_nothing _).2, advance_retired agents⟩

theorem wdset_sets (ok : taskWordOk s [d, a] = true) : ∃ t, exec (.wdset d a) s = .next t ∧ BytesKept s t ∧
    Retired s (modGang s (myCtx s) (myTask s).gid (fun y => { y with wdCount := 0, wdt := ((reg s a).extractLsb' 0 32).toNat })) t
      (.write s d (BitVec.ofNat 64 (myGang s).wdt)) := by
  obtain ⟨agents, bytes⟩ := modGang_only s (myCtx s) (myTask s).gid
    (fun y => { y with wdCount := 0, wdt := ((reg s a).extractLsb' 0 32).toNat })
  have sets : exec (.wdset d a) s = .next (advance (setReg (modGang s (myCtx s) (myTask s).gid
      (fun y => { y with wdCount := 0, wdt := ((reg s a).extractLsb' 0 32).toNat })) d (BitVec.ofNat 64 (myGang s).wdt))) := by
    rw [← field_eq]
    exact (exec_wdset s d a).trans (issue_ok ok _)
  exact ⟨_, sets, advance_setReg_of agents bytes d _⟩

theorem gbar_ill (ill : taskWordOk s [d] = false ∨ ((my s).arrival = none ∧ 1 < (myTask s).strands)) :
    exec (.gbar d) s = .next (takeIll s) := by
  refine (exec_gbar s d).trans (issue_ill ?_ _)
  rcases ill with ill | ⟨fresh, many⟩
  · rw [ill, Bool.false_and]
  · rw [fresh, decide_eq_false (Nat.not_le.mpr many)]
    simp

section
variable (ok : taskWordOk s [d] = true) (counts : (my s).arrival ≠ none ∨ (myTask s).strands ≤ 1)
include ok counts

theorem gbar_issues : (taskWordOk s [d] && ((my s).arrival.isSome || decide ((myTask s).strands ≤ 1))) = true := by
  rw [ok, Bool.true_and, Bool.or_eq_true, Option.isSome_iff_ne_none, decide_eq_true_eq]
  exact counts

theorem gbar_arrived {p : Nat} (arrived : (my s).arrival = some p) : exec (.gbar d) s = .next (gbarWait s d p) := by
  refine (exec_gbar s d).trans ((issue_ok (gbar_issues ok counts) _).trans (congrArg _ ?_))
  dsimp only
  rw [arrived]

theorem gbar_held (fresh : (my s).arrival = none) (held : releaseWaits s 4 = true) : exec (.gbar d) s = .next (waitHere s) := by
  refine (exec_gbar s d).trans ((issue_ok (gbar_issues ok counts) _).trans (congrArg _ ?_))
  dsimp only
  rw [fresh]
  exact if_pos held

theorem gbar_arrives (fresh : (my s).arrival = none) (free : releaseWaits s 4 = false) :
    exec (.gbar d) s = .next (gbarWait (modGang (modMy s (fun x => { x with arrival := some (myGang s).gen })) (myCtx s) (myTask s).gid
      (fun y => completeBarrier { y with arrivals := y.arrivals + 1 })) d (myGang s).gen) := by
  have ctx : myCtx (modMy s (fun x => { x with arrival := some (myGang s).gen })) = myCtx s := by rw [myCtx, my_modMy]; rfl
  have job : myTask (modMy s (fun x => { x with arrival := some (myGang s).gen })) = myTask s := by rw [myTask, my_modMy]; rfl
  refine (exec_gbar s d).trans ((issue_ok (gbar_issues ok counts) _).trans (congrArg _ ?_))
  dsimp only
  rw [fresh]
  refine (if_neg (Bool.eq_false_iff.mp free)).trans ?_
  rw [ctx, job]

theorem gbar_passes {p : Nat} (arrived : (my s).arrival = some p) (passed : p < (myGang s).gen) :
    ∃ t, exec (.gbar d) s = .next t ∧ BytesKept s t ∧
      Retired s s t { reg := some (d, BitVec.ofNat 64 (myGang s).gen), seg := none, pc := pcOf s + 8
                      thread := fun x => { x with arrival := none } } := by
  refine ⟨_, (gbar_arrived ok counts arrived).trans (congrArg _ (if_pos passed)), ?_,
    advance_setReg_modMy_retired d _ _ (fun _ => ⟨rfl, rfl⟩) (taskWordOk_thread ok)⟩
  exact (sameBytes_of (by simp) (by simp) (by simp)).bytesKept

end
end

/-! ### The counter words -/

/-- Whether an operation comes with a release (R313). -/
def depReleases : DepOp → Bool
  | .init => false
  | _ => true

section
variable (s : State) (a : Reg) (g : BitVec 3)

/-- The bytes of a counter, and their locations. -/
def depRefs : List ByteRef := accessRefs s g (reg s a) 128
def depLocs : List Nat := (depRefs s a g).map (·.loc)

/-- Whether a word on a counter waits for its turn (R23, R80, R102). -/
def depWaits (o : DepOp) : Prop :=
  (depReleases o = true ∧ releaseWaits s 4 = true) ∨
    mustWait s s.cur s.stores (byteRef s (myCtx s) ((seg s g).base.toNat + (reg s a).toNat)).kind true (depLocs s a g) none = true ∨
    inQueue s (myDie s) (depLocs s a g) = true ∨
    ((accessRefs s g (reg s a) 64).take 1).all (fun r => atomicUnitLive s r.loc) = false

/-- The same as the model computes it. -/
def depHeld (o : DepOp) : Bool :=
  (match o with
    | .init => mustWait s s.cur s.stores (byteRef s (myCtx s) ((seg s g).base.toNat + (reg s a).toNat)).kind true (depLocs s a g) none
    | _ => releaseWaits s 4 ||
      mustWait s s.cur s.stores (byteRef s (myCtx s) ((seg s g).base.toNat + (reg s a).toNat)).kind true (depLocs s a g) none) ||
    inQueue s (myDie s) (depLocs s a g) || !((depLocs s a g).take 1).all (atomicUnitLive s)

theorem depHeld_iff (o : DepOp) : depHeld s a g o = true ↔ depWaits s a g o := by
  have live : ((depLocs s a g).take 1).all (atomicUnitLive s) =
      ((accessRefs s g (reg s a) 64).take 1).all (fun r => atomicUnitLive s r.loc) := rfl
  unfold depHeld depWaits
  rw [live]
  cases o <;> simp [depReleases, or_assoc]

/-- An operation of the issuing agent on the counter at some bytes. -/
def depAt (u : State) (l : List ByteRef) (o : DepOp) : State × Nat × Nat :=
  depApply u (some u.cur) (myCtx u) l ((chunksOf 8 128 (bytesOf u l)).map (fun b => BitVec.ofNat 64 (leNat b))) o

/-- How a word on a counter ends, the state and the results of its operation given. -/
def depEnd (d : Reg) (o : DepOp) (r : State × Nat × Nat) : State :=
  match o with
  | .init => advance (setReg r.1 d 0)
  | _ =>
    if r.1.defer then
      owe (setCond r.1 (.awaiting (.atomic d (BitVec.ofNat 64 r.2.1) (BitVec.ofNat 64 r.2.2) false false
        ((seg s g).base.toNat + (reg s a).toNat) r.1.time []))) [evA .atomicResponse r.1.cur]
    else advance (setReg r.1 d (BitVec.ofNat 64 r.2.1))

/-- What an operation of the issuing agent makes of a counter. -/
def depRun (o : DepOp) : State × Nat × Nat :=
  depApply (recalled s (depLocs s a g)) (some s.cur) (myCtx s) (depRefs s a g) (refWords (recalled s (depLocs s a g)) (depRefs s a g)) o

end

section
variable {s : State} {op : State → DepOp} {d : Reg} {rs : List Reg} {a : Reg} {g : BitVec 3}

theorem depWord_ill (ill : admits s false (d :: a :: rs) = false) : depWord op d rs a g s = .next (takeIll s) := issue_ill ill _

variable (ok : admits s false (d :: a :: rs) = true)
include ok

theorem depWord_cause {x : Cause} (cause : scalarCause s g (reg s a) 128 2 128 = some x) :
    depWord op d rs a g s = .next (takeCause s x) := by
  refine (issue_ok ok _).trans (congrArg _ ?_)
  dsimp only
  rw [cause]

variable (free : scalarCause s g (reg s a) 128 2 128 = none)
include free

theorem depWord_issued : depWord op d rs a g s = .next (
    if depHeld s a g (op s) then waitHere s
    else if (depLocs s a g).any (poisoned s) then takeTrap s 5 0 0
    else depEnd s a g d (op s) (depAt (recalled s (depLocs s a g)) (depRefs s a g) (op s))) := by
  refine (issue_ok ok _).trans (congrArg _ ?_)
  dsimp only
  rw [free]
  generalize op s = o
  cases o <;> rfl

theorem depWord_waits (waits : depWaits s a g (op s)) : depWord op d rs a g s = .next (waitHere s) :=
  (depWord_issued ok free).trans (congrArg _ (if_pos ((depHeld_iff ..).mpr waits)))

variable (turn : ¬depWaits s a g (op s))
include turn

theorem depWord_poisoned (bad : (depLocs s a g).any (poisoned s) = true) : depWord op d rs a g s = .next (takeTrap s 5 0 0) :=
  (depWord_issued ok free).trans (congrArg _ ((if_neg (mt (depHeld_iff ..).mp turn)).trans (if_pos bad)))

variable (clean : (depLocs s a g).any (poisoned s) = false)
include clean

theorem depWord_runs : depWord op d rs a g s = .next (depEnd s a g d (op s) (depRun s a g (op s))) := by
  have same := (recalled_spec s (depLocs s a g)).1.sameAgents
  have run : depAt (recalled s (depLocs s a g)) (depRefs s a g) (op s) = depRun s a g (op s) := by
    rw [depAt, depRun, same.cur, same.myCtx, refWords, depRefs, accessRefs_length]
  rw [depWord_issued ok free, if_neg (mt (depHeld_iff ..).mp turn), if_neg (Bool.eq_false_iff.mp clean), run]

end

/-- DEPARM and DEPSIG end in their response, at once or outstanding (R103). -/
theorem depEnd_atomic {s : State} {d a : Reg} {g : BitVec 3} {o : DepOp} (releases : depReleases o = true) :
    (s.defer = false → depEnd s a g d o (depRun s a g o) =
      advance (setReg (depRun s a g o).1 d (BitVec.ofNat 64 (depRun s a g o).2.1))) ∧
    (s.defer = true → depEnd s a g d o (depRun s a g o) = owe (setCond (depRun s a g o).1 (.awaiting (.atomic d
      (BitVec.ofNat 64 (depRun s a g o).2.1) (BitVec.ofNat 64 (depRun s a g o).2.2) false false ((seg s g).base.toNat + (reg s a).toNat)
      (depRun s a g o).1.time []))) [evA .atomicResponse s.cur]) := by
  have homes : HomesOnly s (depRun s a g o).1 :=
    (recalled_spec s (depLocs s a g)).1.trans (depApply_homes _ _ _ _ _ (accessRefs_length ..))
  have cur := homes.sameAgents.cur
  have defer : (depRun s a g o).1.defer = s.defer := by
    unfold HomesOnly at homes
    rw [homes]
  generalize depRun s a g o = r at cur defer ⊢
  have ends : depEnd s a g d o r = if r.1.defer then owe (setCond r.1 (.awaiting (.atomic d (BitVec.ofNat 64 r.2.1)
      (BitVec.ofNat 64 r.2.2) false false ((seg s g).base.toNat + (reg s a).toNat) r.1.time []))) [evA .atomicResponse r.1.cur]
      else advance (setReg r.1 d (BitVec.ofNat 64 r.2.1)) := by
    cases o with
    | init => exact absurd releases Bool.false_ne_true
    | arm x => rfl
    | sig => rfl
  rw [ends, cur, defer]
  exact ⟨fun now => by rw [now]; rfl, fun later => by rw [later]; rfl⟩

/-- The three words on counters, their operations and registers. -/
theorem counter_forms {s : State} {d a b : Reg} {g : BitVec 3} {p : Instr × Bool × List Reg}
    (h : p ∈ [(Instr.depinit d a g, false, [d, a]), (.deparm d a b g, true, [d, a, b]), (.depsig d a g, true, [d, a])]) :
    ∃ op rs, exec p.1 s = depWord op d rs a g s ∧ p.2.1 = depReleases (op s) ∧ p.2.2 = d :: a :: rs := by
  simp only [List.mem_cons, List.not_mem_nil, or_false] at h
  rcases h with rfl | rfl | rfl
  · exact ⟨fun _ => .init, [], rfl, rfl, rfl⟩
  · exact ⟨fun s => .arm (reg s b).toNat, [b], rfl, rfl, rfl⟩
  · exact ⟨fun _ => .sig, [], rfl, rfl, rfl⟩

/-! ### The obligation -/

/-- Settles O31, by what an operation makes of a counter's doubleword and of its home, by the entry that the gang table takes, and by the
turns of the words. -/
theorem gangAndCounterWords : Obligations.GangAndCounterWords := by
  unfold Obligations.GangAndCounterWords
  refine ⟨fun s d a b g => ⟨fun ill => ⟨glaunch_ill ill, (exec_wdset s d a).trans (issue_ill ill _)⟩,
      fun ill => (exec_wdkick s).trans (issue_ill ill _), gbar_ill, fun ok => ⟨fun x => glaunch_cause ok, fun free =>
        ⟨glaunch_waits ok free, fun turn => glaunch_poisoned ok free turn⟩⟩, fun p hp => ?_⟩,
    fun s c r x here idle => ⟨deviceLaunch_refused, fun good => ⟨fun full => deviceLaunch_full here idle good (freeGid_none full), fun g inside free first =>
      deviceLaunch_enters here idle good (freeGid_first inside free first)⟩⟩,
    fun s who c refs words op x whole once _ here => ?_, fun s d a b g => ⟨fun ok free quiet first clean => ?_, fun ok counts =>
      ⟨fun p => gbar_passes ok counts, fun p arrived later => (gbar_arrived ok counts arrived).trans (congrArg _ (if_neg (Nat.not_lt.mpr later))),
        gbar_arrives ok counts, gbar_held ok counts⟩, wdkick_kicks, wdset_sets, fun ok free order queue live clean => ?_⟩,
    fun w x check => ⟨depStep_init w check, depStep_invalid w check x, depStep_sig check, fun valid => depStep_armed check valid x,
      fun valid free => ⟨depStep_wide check valid free, depStep_unchecked check valid free, fun small good => ?_⟩⟩⟩
  · obtain ⟨op, rs, word, releases, regs⟩ := counter_forms (s := s) hp
    rw [word, releases, regs]
    exact ⟨depWord_ill, fun ok => ⟨fun x => depWord_cause ok, fun free => ⟨depWord_waits ok free, depWord_poisoned ok free⟩⟩⟩
  · obtain ⟨doubleword, refuse, rest⟩ := depApply_bytes s who c words op whole
    obtain ⟨fires, quiet⟩ := depApply_ctx s who c words op whole here
    refine ⟨?_, doubleword once, refuse, rest, fires, quiet⟩
    rw [← field_eq]
    rfl
  · refine glaunch_launches ok free (fun waits => ?_) clean
    rw [quiet, first] at waits
    exact waits.elim Bool.false_ne_true Bool.false_ne_true
  · have turn (o : DepOp) (quiet : depReleases o = true → releaseWaits s 4 = false) : ¬depWaits s a g o := by
      rintro (⟨releases, waits⟩ | waits | waits | waits)
      · exact Bool.false_ne_true ((quiet releases).symm.trans waits)
      · exact Bool.false_ne_true (order.symm.trans waits)
      · exact Bool.false_ne_true (queue.symm.trans waits)
      · exact Bool.false_ne_true (waits.symm.trans live)
    have fewer : admits s false [d, a] = true := admits_of_subset ok fun r hr => by
      simp only [List.mem_cons, List.not_mem_nil, or_false] at hr ⊢
      tauto
    refine ⟨depWord_runs (op := fun _ => .init) fewer free (turn _ nofun) clean, fun quiet => ?_⟩
    have armed := depWord_runs (op := fun s => .arm (reg s b).toNat) ok free (turn _ fun _ => quiet) clean
    have signalled := depWord_runs (op := fun _ => .sig) fewer free (turn _ fun _ => quiet) clean
    obtain ⟨armNow, armLater⟩ := depEnd_atomic (s := s) (d := d) (a := a) (g := g) (o := .arm (reg s b).toNat) rfl
    obtain ⟨sigNow, sigLater⟩ := depEnd_atomic (s := s) (d := d) (a := a) (g := g) (o := .sig) rfl
    exact ⟨fun now => ⟨armed.trans (congrArg _ (armNow now)), signalled.trans (congrArg _ (sigNow now))⟩,
      fun later => ⟨armed.trans (congrArg _ (armLater later)), signalled.trans (congrArg _ (sigLater later))⟩⟩
  · subst good
    exact depStep_arm valid free small

end Sys2Proof.Machine
end

section
/-! RESULT. Element-wise integer words and compares (O39). -/

namespace Sys2Proof.Machine

/-! ### The bits of an element and its integer -/

/-- An element's integer and its bits are congruent: the sign takes away a power of two (R56). -/
theorem intOf_modEq (fmt a : Nat) : intOf fmt a ≡ a [ZMOD (2 ^ cbits fmt : Nat)] := by
  unfold intOf
  dsimp only
  split
  · exact Int.sub_modulus_modEq_iff.mpr rfl
  · rfl

theorem wrap_congr {c : Nat} {x y : Int} (h : x ≡ y [ZMOD (2 ^ c : Nat)]) : wrap c x = wrap c y := congrArg Int.toNat h

theorem wrap_natCast (c n : Nat) : wrap c n = n % 2 ^ c := by
  unfold wrap
  rw [← Int.natCast_mod, Int.toNat_natCast]

section
variable {fmt a b : Nat}

theorem wrap_intOf (ha : a < 2 ^ cbits fmt) : wrap (cbits fmt) (intOf fmt a) = a := by
  rw [wrap_congr (intOf_modEq fmt a), wrap_natCast, Nat.mod_eq_of_lt ha]

theorem intOf_eq_zero (hb : b < 2 ^ cbits fmt) : intOf fmt b = 0 ↔ b = 0 := by
  refine ⟨fun zero => ?_, fun zero => ?_⟩
  · rw [← wrap_intOf hb, zero]
    exact wrap_natCast _ 0
  · subst zero
    simp [intOf]

theorem onInts_add_eq : onInts (fun x y => x + y) fmt a b = (a + b) % 2 ^ cbits fmt := by
  rw [onInts, wrap_congr ((intOf_modEq fmt a).add (intOf_modEq fmt b)), ← Nat.cast_add, wrap_natCast]

theorem onInts_mul_eq : onInts (fun x y => x * y) fmt a b = a * b % 2 ^ cbits fmt := by
  rw [onInts, wrap_congr ((intOf_modEq fmt a).mul (intOf_modEq fmt b)), ← Nat.cast_mul, wrap_natCast]

theorem onInts_sub_eq (hb : b < 2 ^ cbits fmt) : onInts (fun x y => x - y) fmt a b = (a + (2 ^ cbits fmt - b)) % 2 ^ cbits fmt := by
  have turn : (a : Int) - b ≡ ((a + (2 ^ cbits fmt - b) : Nat) : Int) [ZMOD (2 ^ cbits fmt : Nat)] := by
    rw [Nat.cast_add, Nat.cast_sub hb.le, ← add_sub_assoc, add_sub_right_comm]
    exact Int.modEq_add_modulus_iff.mpr rfl
  rw [onInts, wrap_congr (((intOf_modEq fmt a).sub (intOf_modEq fmt b)).trans turn), wrap_natCast]

/-- Minus one has every bit set. -/
theorem wrap_neg_one (c : Nat) : wrap c (-1) = 2 ^ c - 1 := by
  have pos : 0 < 2 ^ c := Nat.two_pow_pos c
  have turn : (-1 : Int) ≡ ((2 ^ c - 1 : Nat) : Int) [ZMOD (2 ^ c : Nat)] := by
    rw [Nat.cast_sub pos, Int.sub_eq_add_neg, add_comm]
    exact Int.modEq_add_modulus_iff.mpr rfl
  rw [wrap_congr turn, wrap_natCast, Nat.mod_eq_of_lt (by omega)]

theorem onInts_div_eq (hb : b < 2 ^ cbits fmt) : onInts (fun x y => if y = 0 then -1 else x.tdiv y) fmt a b =
    if b = 0 then 2 ^ cbits fmt - 1 else wrap (cbits fmt) ((intOf fmt a).tdiv (intOf fmt b)) := by
  unfold onInts
  simp only [intOf_eq_zero hb]
  split
  · exact wrap_neg_one _
  · rfl

theorem onInts_rem_eq (ha : a < 2 ^ cbits fmt) (hb : b < 2 ^ cbits fmt) : onInts (fun x y => if y = 0 then x else x.tmod y) fmt a b =
    if b = 0 then a else wrap (cbits fmt) ((intOf fmt a).tmod (intOf fmt b)) := by
  unfold onInts
  simp only [intOf_eq_zero hb]
  split
  · exact wrap_intOf ha
  · rfl

theorem onInts_min_eq (ha : a < 2 ^ cbits fmt) (hb : b < 2 ^ cbits fmt) :
    onInts (fun x y => min x y) fmt a b = if intOf fmt b < intOf fmt a then b else a := by
  unfold onInts
  dsimp only
  rw [min_comm, min_def_lt, apply_ite (wrap _), wrap_intOf ha, wrap_intOf hb]

theorem onInts_max_eq (ha : a < 2 ^ cbits fmt) (hb : b < 2 ^ cbits fmt) :
    onInts (fun x y => max x y) fmt a b = if intOf fmt a < intOf fmt b then b else a := by
  unfold onInts
  dsimp only
  rw [max_def_lt, apply_ite (wrap _), wrap_intOf ha, wrap_intOf hb]

end

/-! ### The forms -/

/-- A word of the integer family, whose result on elements of its format is as given. -/
def IntWord (f : VFields) (vs : List VReg) (put : Nat → List (Nat × Nat) → Thread → Thread) (i : Instr) (q : Nat → Nat → Nat) : Prop :=
  ∃ r, (∀ s, exec i s = vecInt f vs r put s) ∧
    ∀ a b, a < 2 ^ cbits f.fmt.toNat → b < 2 ^ cbits f.fmt.toNat → r f.fmt.toNat a b = q a b

theorem vecIntForms_word {f : VFields} {p : Instr × (Nat → Nat → Nat)} (h : p ∈ vecIntForms f) :
    IntWord f [f.vd, f.va, f.vb] (putVd f) p.1 p.2 := by
  simp only [vecIntForms, List.mem_cons, List.not_mem_nil, or_false] at h
  rcases h with rfl | rfl | rfl | rfl | rfl | rfl | rfl | rfl | rfl | rfl | rfl | rfl | rfl | rfl | rfl | rfl
  · exact ⟨onInts (fun x y => x + y), fun _ => rfl, fun _ _ _ _ => onInts_add_eq⟩
  · exact ⟨onInts (fun x y => x - y), fun _ => rfl, fun _ _ _ hb => onInts_sub_eq hb⟩
  · exact ⟨onInts (fun x y => x * y), fun _ => rfl, fun _ _ _ _ => onInts_mul_eq⟩
  · exact ⟨fun k a b => wrap (cbits k) (intOf k a * intOf k b / (2 ^ cbits k : Nat)), fun _ => rfl, fun _ _ _ _ => rfl⟩
  · exact ⟨onInts (fun x y => if y = 0 then -1 else x.tdiv y), fun _ => rfl, fun _ _ _ hb => onInts_div_eq hb⟩
  · exact ⟨onInts (fun x y => if y = 0 then x else x.tmod y), fun _ => rfl, fun _ _ ha hb => onInts_rem_eq ha hb⟩
  · exact ⟨fun _ a b => a &&& b, fun _ => rfl, fun _ _ _ _ => rfl⟩
  · exact ⟨fun _ a b => a ||| b, fun _ => rfl, fun _ _ _ _ => rfl⟩
  · exact ⟨fun _ a b => a ^^^ b, fun _ => rfl, fun _ _ _ _ => rfl⟩
  · exact ⟨fun k a b => a * 2 ^ shiftOf k b % 2 ^ cbits k, fun _ => rfl, fun _ _ _ _ => rfl⟩
  · exact ⟨fun k a b => a / 2 ^ shiftOf k b, fun _ => rfl, fun _ _ _ _ => rfl⟩
  · exact ⟨fun k a b => wrap (cbits k) (signedOf (cbits k) a / (2 ^ shiftOf k b : Nat)), fun _ => rfl, fun _ _ _ _ => rfl⟩
  · exact ⟨onInts (fun x y => min x y), fun _ => rfl, fun _ _ ha hb => onInts_min_eq ha hb⟩
  · exact ⟨onInts (fun x y => max x y), fun _ => rfl, fun _ _ ha hb => onInts_max_eq ha hb⟩
  · exact ⟨onIntsSat (fun x y => x + y), fun _ => rfl, fun _ _ _ _ => rfl⟩
  · exact ⟨onIntsSat (fun x y => x - y), fun _ => rfl, fun _ _ _ _ => rfl⟩

theorem vecIntCompares_word {f : VFields} {p : Instr × (Nat → Nat → Bool)} (h : p ∈ vecIntCompares f) :
    IntWord f [f.va, f.vb] (putMd f) p.1 (fun a b => if p.2 a b then 1 else 0) := by
  simp only [vecIntCompares, List.mem_cons, List.not_mem_nil, or_false] at h
  rcases h with rfl | rfl
  · exact ⟨fun _ a b => if a = b then 1 else 0, fun _ => rfl, fun _ _ _ _ => by simp only [decide_eq_true_eq]⟩
  · exact ⟨fun k a b => if intOf k a < intOf k b then 1 else 0, fun _ => rfl, fun _ _ _ _ => by simp only [decide_eq_true_eq]⟩

theorem operandB_lt (s : State) (f : VFields) (e : Nat) : operandB s f e < 2 ^ cbits f.fmt.toNat := by
  unfold operandB
  split
  · exact Nat.mod_lt _ (Nat.two_pow_pos _)
  · exact elem_lt ..

section
variable {s : State} {f : VFields} {vs : List VReg} {put : Nat → List (Nat × Nat) → Thread → Thread} {i : Instr} {q : Nat → Nat → Nat}

theorem IntWord.ill (word : IntWord f vs put i q) (ill : vecIllegal s true [f.s]) : exec i s = .next (takeIll s) := by
  obtain ⟨r, run, -⟩ := word
  exact (run s).trans (issueV_ill vs ill _)

/-- A word of the family that nothing stops: its active elements take their results. -/
theorem IntWord.goes (word : IntWord f vs put i q) (goes : VecGoes s true [f.s] vs) :
    exec i s = .next (advance (modMy s (put f.fmt.toNat ((actives (my s) f).map (fun e =>
      (e, q (elem (my s) f.va f.fmt.toNat e) (operandB s f e))))))) := by
  obtain ⟨r, run, result⟩ := word
  rw [run, vecInt, issueV_goes goes]
  simp only [result _ _ (elem_lt ..) (operandB_lt ..)]

end

/-- Settles O39, by the word that the forms share and the element-wise results as bits. -/
theorem vectorInteger : Obligations.VectorInteger := by
  intro s f a b
  refine ⟨fun goes p hp => ⟨_, (vecIntForms_word hp).goes goes, ?_⟩, fun goes small p hp => ⟨_, (vecIntCompares_word hp).goes goes, ?_⟩,
    fun ill => ⟨fun p hp => (vecIntForms_word hp).ill ill, fun p hp => (vecIntCompares_word hp).ill ill⟩⟩
  · exact advance_putElems_wrote s f.fmt.toNat f.vd _ id (fun _ => ⟨rfl, rfl⟩) goes.onRet
  · have bits : ((actives (my s) f).map (fun e => (e, if p.2 (a e) (b e) then 1 else 0))).map (fun q => (q.1, q.2 == 1)) =
        (actives (my s) f).map (fun e => (e, p.2 (a e) (b e))) := by
      rw [List.map_map]
      refine List.map_congr_left fun e _ => ?_
      cases h : p.2 (a e) (b e) <;> simp [h]
    unfold putMd
    rw [bits]
    exact advance_putCompare_wrote f.fmt.toNat f.vd small _ id (fun _ => ⟨rfl, rfl⟩) goes.onRet

end Sys2Proof.Machine
end

section
/-! SUPPORT. Entries of a scale register written (R223), and words that change their thread's record, by what the change is where they
issue. -/

namespace Sys2Proof.Machine

/-! ### Scale registers -/

theorem vector_toList_getD_set {α : Type} {n m : Nat} (v : Vector α n) (b d : α) (hm : m < n) (k : Nat) :
    (v.set! m b).toList.getD k d = if k = m then b else v.toList.getD k d := by
  simp only [List.getD_eq_getElem?_getD, Vector.set!_eq_setIfInBounds, Vector.toList_setIfInBounds, List.getElem?_set]
  by_cases h : k = m
  · subst h
    simp [hm]
  · simp [h, Ne.symm h]

/-- One entry written: it reads as the value, and every other entry as before. -/
theorem scEntry_putSc (x : Thread) {k : Nat} (hk : k < 4) (b : Nat) (v : BitVec 16) (j c : Nat) :
    scEntry (putSc x k b v) j c = if j = k ∧ c = b then v else scEntry x j c := by
  unfold scEntry putSc
  dsimp only
  rw [vector_toList_getD_set _ _ _ hk]
  by_cases hj : j = k
  · subst hj
    rw [if_pos rfl]
    split
    · simp only [kget, kfind_kdel, true_and]
      split <;> simp [*]
    · simp only [kget_kset, true_and]
  · rw [if_neg hj, if_neg (fun h => hj h.1)]

/-- The entries of some blocks written to a scale register. -/
def putEntries (k : Nat) (entry : Nat → BitVec 16) (bs : List Nat) (x : Thread) : Thread :=
  bs.foldl (fun x b => putSc x k b (entry b)) x

/-- Writing entries changes only the scale registers. -/
theorem putEntries_eq (k : Nat) (entry : Nat → BitVec 16) (bs : List Nat) (x : Thread) :
    putEntries k entry bs x = { x with sc := (putEntries k entry bs x).sc } := by
  induction bs generalizing x with
  | nil => rfl
  | cons b bs ih => exact ih (putSc x k b (entry b))

theorem putEntries_keeps (k : Nat) (entry : Nat → BitVec 16) (bs : List Nat) (x : Thread) :
    (putEntries k entry bs x).hart = x.hart ∧ (putEntries k entry bs x).instret = x.instret := by
  rw [putEntries_eq]
  exact ⟨rfl, rfl⟩

theorem scEntry_putEntries {k : Nat} (hk : k < 4) (entry : Nat → BitVec 16) (bs : List Nat) (x : Thread) (j c : Nat) :
    scEntry (putEntries k entry bs x) j c = if j = k ∧ c ∈ bs then entry c else scEntry x j c := by
  induction bs generalizing x with
  | nil => simp [putEntries]
  | cons b bs ih =>
    have rest := ih (putSc x k b (entry b))
    rw [scEntry_putSc x hk] at rest
    refine rest.trans ?_
    by_cases hc : c = b <;> by_cases hj : j = k <;> simp [hc, hj]

/-- A record whose scale registers are those of another with entries written: what writing them makes of the other, and how they read. -/
theorem entries_written {x y : Thread} {k : Nat} (hk : k < 4) {entry : Nat → BitVec 16} {bs : List Nat}
    (written : y.sc = (putEntries k entry bs x).sc) :
    putEntries k entry bs x = { x with sc := y.sc } ∧
      ∀ j c, scEntry y j c = if j = k ∧ c ∈ bs then entry c else scEntry x j c := by
  refine ⟨?_, fun j c => ?_⟩
  · rw [written]
    exact putEntries_eq ..
  · rw [← scEntry_putEntries hk, scEntry, written]
    rfl

/-! ### The record of a thread whose word has retired -/

theorem Retired.own_mine {s u t : State} {f : Thread → Thread} (h : Retired s u t (.own s f)) (thread : onRet s = false) :
    my t = { f (my s) with hart := hart t, instret := (my s).instret + 1, cond := .ready } := by
  have mine := h.mine
  rw [cur_eq_thread thread] at mine
  exact mine

/-- What a word makes of its thread's record matters only for the record that it finds. -/
theorem Retired.own_congr {s u t : State} {f g : Thread → Thread} (h : Retired s u t (.own s f)) (same : f (my s) = g (my s)) :
    Retired s u t (.own s g) := by
  obtain ⟨rest, threads, rets, mine, ret_, regs, segs, pc⟩ := h
  refine ⟨rest, threads, rets, ?_, ret_, regs, segs, pc⟩
  rw [mine]
  simp only [Effect.own, same]

theorem VecWrote.congr {s u t : State} {vd : VReg} {fmt : Nat} {l : List (Nat × Nat)} {f g : Thread → Thread}
    (h : VecWrote s u t vd fmt l f) (same : f (my s) = g (my s)) : VecWrote s u t vd fmt l g := by
  obtain ⟨retired, set, kept⟩ := h
  exact ⟨retired.own_congr (congrArg (fun x : Thread => { x with slots := (my t).slots }) same), same ▸ set, kept⟩

end Sys2Proof.Machine
end

section
/-! RESULT. Conversions, quantisation and block exponents (O41). -/

namespace Sys2Proof.Machine

/-- The two ends of a floating word that writes elements and changes its thread's record by `g` beside. -/
theorem floatEnd_putElems {s : State} (thread : onRet s = false) (vd : VReg) (fmt : Nat) (l : List (Nat × Nat)) (fl : Flags)
    (g : Thread → Thread) (keeps : ∀ x, (g x).hart = x.hart ∧ (g x).instret = x.instret) {i : Instr}
    (run : exec i s = .next (floatEnd s fl (fun u => advance (modMy u (fun x => putElems fmt vd (g x) l))))) :
    (enabledOf (my s) &&& fl = 0 → ∃ t, exec i s = .next t ∧ VecWrote s s t vd fmt l (fun x => g (addFlags x fl))) ∧
    (enabledOf (my s) &&& fl ≠ 0 → exec i s = .next (takeTrap (modMy s (addFlags · fl)) 0xA fl 0)) := by
  rw [run]
  refine ⟨fun quiet => ?_, fun raised => congrArg _ (floatEnd_traps raised _)⟩
  rw [floatEnd_quiet quiet, modMy_modMy]
  exact ⟨_, rfl, advance_putElems_wrote s fmt vd l (fun x => g (addFlags x fl)) (fun x => keeps (addFlags x fl)) thread⟩

section
variable {s : State} {f : VFields} (goes : VecGoes s true [] [f.vd, f.va])
include goes

theorem execVdeq_unrounded (reserved : rndAdmits (my s) f.rnd = false) : execVdeq f s = .next (takeIll s) := by
  unfold execVdeq
  rw [issueV_goes goes, rndV, reserved]
  rfl

theorem execVcvt_unrounded (reserved : rndAdmits (my s) f.rnd = false)
    (wide : narrows (f.ext.extractLsb' 0 5).toNat f.fmt.toNat = false) : execVcvt f s = .next (takeIll s) := by
  have refused : (!rndV s f (narrows (f.ext.extractLsb' 0 5).toNat f.fmt.toNat)) = true := by
    rw [rndV, wide, reserved]
    rfl
  unfold execVcvt
  rw [issueV_goes goes]
  dsimp only
  rw [refused]
  rfl

end

/-- The active elements of a conversion between two formats (R213). -/
def convertedElems (s : State) (f : VFields) (src : Nat) : List Nat :=
  activeIn (my s) f f.fmt.toNat ((my s).vl * min (perSlot f.fmt.toNat) (perSlot src))

/-- VCVT's results and the thread with its generators stepped. -/
def cvtResults (s : State) (f : VFields) : List (Nat × Nat × Flags) × Thread :=
  convertAll (rndOf (my s) f.rnd == 4) (modeOf (rndOf (my s) f.rnd)) f.fmt.toNat
    (fun m e => convert (f.ext.extractLsb' 0 5).toNat f.fmt.toNat (f.ext.getLsbD 5) m (elem (my s) f.va (f.ext.extractLsb' 0 5).toNat e))
    (convertedElems s f (f.ext.extractLsb' 0 5).toNat) (my s)

/-- VQUANT's results, their flags, and the thread with its generators stepped and its scale register written. -/
def quantResults (s : State) (f : VFields) : List (Nat × Nat) × Flags × Thread :=
  quantAll f f.vb.toNat (rndOf (my s) f.rnd == 4) (modeOf (rndOf (my s) f.rnd)) (my s) (convertedElems s f f.ext.toNat) (my s)

/-- VDEQ's results. -/
def deqResults (s : State) (f : VFields) : List (Nat × Flags) :=
  (convertedElems s f f.ext.toNat).map (fun e =>
    let ent := scEntry (my s) f.vb.toNat (e / 16)
    fcvt (fmtOf f.fmt.toNat) (modeOf (rndOf (my s) f.rnd))
      (sxVal f.ext.toNat (ent.extractLsb' 0 8).toNat (ent.extractLsb' 8 8).toNat (e % 16) (elem (my s) f.va f.ext.toNat e)))

section
variable {s : State} {f : VFields} (goes : VecGoes s true [] [f.vd, f.va])
include goes

theorem execVcvt_rounds (rounds : narrows (f.ext.extractLsb' 0 5).toNat f.fmt.toNat = true ∨ rndAdmits (my s) f.rnd = true) :
    execVcvt f s = .next (floatEnd s (flagsOf ((cvtResults s f).1.map (·.2))) (fun u => advance (modMy u (fun x =>
      putElems f.fmt.toNat f.vd { x with slots := (cvtResults s f).2.slots } ((cvtResults s f).1.map (fun p => (p.1, p.2.1))))))) := by
  have admitted : (!rndV s f (narrows (f.ext.extractLsb' 0 5).toNat f.fmt.toNat)) = false := by
    rcases rounds with narrow | free
    · rw [rndV, narrow]
      rfl
    · rw [rndV, free, Bool.or_true]
      rfl
  unfold execVcvt
  rw [issueV_goes goes]
  dsimp only
  rw [admitted]
  rfl

theorem execVquant_quantises :
    execVquant f s = .next (floatEnd s (quantResults s f).2.1 (fun u => advance (modMy u (fun x =>
      putElems f.fmt.toNat f.vd { x with slots := (quantResults s f).2.2.slots, sc := (quantResults s f).2.2.sc } (quantResults s f).1)))) := by
  unfold execVquant
  rw [issueV_goes goes]
  rfl

theorem execVdeq_rounds (rounds : rndAdmits (my s) f.rnd = true) :
    execVdeq f s = .next (floatEnd s (flagsOf (deqResults s f)) (fun u => advance (modMy u (fun x =>
      putElems f.fmt.toNat f.vd x ((convertedElems s f f.ext.toNat).zip ((deqResults s f).map (·.1))))))) := by
  unfold execVdeq
  rw [issueV_goes goes, rndV, rounds]
  rfl

end

/-! ### Block exponents -/

/-- The entry that VMAXEXP gives a block (R242). -/
def maxexpEntry (s : State) (f : VFields) (b : Nat) : BitVec 16 :=
  blockEntry (((actives (my s) f).filter (fun e => e / 16 == b)).map (fun e =>
    (e % 16, fdecode (fmtOf f.fmt.toNat) (elem (my s) f.va f.fmt.toNat e))))

theorem execVmaxexp_goes {s : State} {f : VFields} (goes : VecGoes s true [] [f.va]) :
    execVmaxexp f s = .next (advance (modMy s (putEntries f.vd.toNat (maxexpEntry s f)
      (List.range ((numElems (my s) f.fmt.toNat + 15) / 16))))) := by
  unfold execVmaxexp
  rw [issueV_goes goes]
  rfl

/-- A word that writes entries of a scale register, and nothing else. -/
theorem advance_putEntries {s : State} (thread : onRet s = false) {k : Nat} (hk : k < 4) (entry : Nat → BitVec 16) (bs : List Nat) :
    let t := advance (modMy s (putEntries k entry bs))
    ChangedOwn s t (fun x => { x with sc := (my t).sc }) ∧
      ∀ j c, scEntry (my t) j c = if j = k ∧ c ∈ bs then entry c else scEntry (my s) j c := by
  intro t
  obtain ⟨retired, kept⟩ := advance_modMy_changed s (putEntries k entry bs) (putEntries_keeps k entry bs)
  have written : (my t).sc = (putEntries k entry bs (my s)).sc := by rw [retired.own_mine thread]
  obtain ⟨same, entries⟩ := entries_written hk written
  exact ⟨⟨retired.own_congr same, kept⟩, entries⟩

section
variable (s : State) (f : VFields)

theorem exec_vcvt : exec (.vcvt f) s = execVcvt f s := rfl
theorem exec_vquant : exec (.vquant f) s = execVquant f s := rfl
theorem exec_vdeq : exec (.vdeq f) s = execVdeq f s := rfl
theorem exec_vmaxexp : exec (.vmaxexp f) s = execVmaxexp f s := rfl

end

/-- Settles O41, by the two ends of the words that write elements and the entries of a scale register after VMAXEXP. -/
theorem vectorConversions : Obligations.VectorConversions := by
  refine ⟨fun s f => ⟨fun ill i hi => ?_, fun goes reserved => ⟨execVdeq_unrounded goes reserved, execVcvt_unrounded goes reserved⟩⟩,
    fun s f => ⟨fun goes => ⟨fun rounds => ?_, ?_, fun rounds => ?_⟩, fun goes small => ?_⟩⟩
  · simp only [List.mem_cons, List.not_mem_nil, or_false] at hi
    rcases hi with rfl | rfl | rfl | rfl
    exacts [(exec_vcvt s f).trans (issueV_ill _ ill _), (exec_vquant s f).trans (issueV_ill _ ill _),
      (exec_vdeq s f).trans (issueV_ill _ ill _), (exec_vmaxexp s f).trans (issueV_ill _ ill _)]
  · exact floatEnd_putElems goes.onRet f.vd _ _ _ (fun x => { x with slots := (cvtResults s f).2.slots }) (fun _ => ⟨rfl, rfl⟩)
      ((exec_vcvt s f).trans (execVcvt_rounds goes rounds))
  · exact floatEnd_putElems goes.onRet f.vd _ _ _ (fun x => { x with slots := (quantResults s f).2.2.slots, sc := (quantResults s f).2.2.sc })
      (fun _ => ⟨rfl, rfl⟩) ((exec_vquant s f).trans (execVquant_quantises goes))
  · exact floatEnd_putElems goes.onRet f.vd _ _ _ id (fun _ => ⟨rfl, rfl⟩) ((exec_vdeq s f).trans (execVdeq_rounds goes rounds))
  · obtain ⟨changed, entries⟩ := advance_putEntries goes.onRet small (maxexpEntry s f)
      (List.range ((numElems (my s) f.fmt.toNat + 15) / 16))
    refine ⟨_, (exec_vmaxexp s f).trans (execVmaxexp_goes goes), changed, fun k b _ => ?_⟩
    simp only [entries, List.mem_range]
    rfl

end Sys2Proof.Machine
end

section
/-! SUPPORT. The paths of vector loads and stores in every form: with or without alignment, and with what a load writes beside its
elements at acceptance (R184, R205). -/

namespace Sys2Proof.Machine

/-! ### No element -/

/-- An access of no element has no cause. -/
theorem vecCause_nil (s : State) (sg : BitVec 3) (acc n : Nat) (al : Bool) : vecCause s sg acc n al [] = none := by
  cases al <;> rfl

theorem served_nil (s : State) : served s [] = s := served_native (fun _ h => absurd h List.not_mem_nil)

theorem vecLoadReady_nil (s : State) (sg : BitVec 3) (n : Nat) (al : Bool) : VecLoadReady s sg n al [] :=
  ⟨vecCause_nil .., rfl, rfl⟩

/-! ### Loads -/

section
variable {s : State} {sg : BitVec 3} {n : Nat} {al : Bool} {offs : List Nat} {hint : Hint} {vd : VReg} {fmt : Nat}
variable {put : List (List Byte) → List (Nat × Nat)} {side : List (List Byte) → Thread → Thread}

theorem vecLoad_takes {c : Cause} (h : vecCause s sg 0 n al offs = some c) :
    vecLoad s sg n al hint vd fmt offs put side = takeCause s c := by
  unfold vecLoad
  rw [h]

theorem vecLoad_holds (cause : vecCause s sg 0 n al offs = none)
    (first : ((offs.map (elemRefs s sg n)).flatten).any (fun r => mustWait s s.cur s.stores r.kind false [] none) = true) :
    vecLoad s sg n al hint vd fmt offs put side = waitHere s := by
  unfold vecLoad
  rw [cause]
  exact if_pos first

theorem vecLoad_integ (cause : vecCause s sg 0 n al offs = none)
    (order : ((offs.map (elemRefs s sg n)).flatten).any (fun r => mustWait s s.cur s.stores r.kind false [] none) = false)
    (bad : (underRefs s (offs.map (elemRefs s sg n)).flatten).any (poisoned s) = true) :
    vecLoad s sg n al hint vd fmt offs put side = takeTrap s 5 0 0 := by
  unfold vecLoad
  rw [cause]
  exact (if_neg (Bool.eq_false_iff.mp order)).trans (if_pos bad)

/-- A vector load that nothing stops: what it writes beside its elements is written, and its elements at once or as they arrive. -/
theorem vecLoad_accepted (h : VecLoadReady s sg n al offs) :
    vecLoad s sg n al hint vd fmt offs put side =
      if s.defer && !(put (loadedBytes s sg n offs)).isEmpty then
        owe (advance (modMy (afterRead s hint (offs.map (elemRefs s sg n)).flatten) (fun x =>
          { side (loadedBytes s sg n offs) x with vloads := (side (loadedBytes s sg n offs) x).vloads ++
            [{ vd := vd.toNat, fmt := fmt, elems := put (loadedBytes s sg n offs) }] }))) [ev .vectorLoadArrival (me s)]
      else advance (modMy (afterRead s hint (offs.map (elemRefs s sg n)).flatten)
        (fun x => putElems fmt vd (side (loadedBytes s sg n offs) x) (put (loadedBytes s sg n offs)))) := by
  have homes := afterRead_homes s hint (offs.map (elemRefs s sg n)).flatten
  have late : (afterRead s hint (offs.map (elemRefs s sg n)).flatten).defer = s.defer := by
    unfold HomesOnly at homes
    rw [homes]
  have self := homes.sameAgents.me
  have run : vecLoad s sg n al hint vd fmt offs put side =
      (let u := modMy (afterRead s hint (offs.map (elemRefs s sg n)).flatten) (side (loadedBytes s sg n offs))
       if u.defer && !(put (loadedBytes s sg n offs)).isEmpty then
         owe (advance (modMy u (fun x => { x with vloads := x.vloads ++
           [{ vd := vd.toNat, fmt := fmt, elems := put (loadedBytes s sg n offs) }] }))) [ev .vectorLoadArrival (me u)]
       else advance (modMy u (fun x => putElems fmt vd x (put (loadedBytes s sg n offs))))) := by
    unfold vecLoad
    rw [h.cause]
    exact (if_neg (Bool.eq_false_iff.mp h.order)).trans (if_neg (Bool.eq_false_iff.mp h.clean))
  rw [run]
  dsimp only
  rw [modMy_modMy, modMy_modMy, modMy_defer, late, me_modMy, self]

/-- A load whose values come at once writes its elements and what it writes beside. -/
theorem vecLoad_writes (h : VecLoadGoes s sg n al offs) (thread : onRet s = false)
    (keeps : ∀ x, (side (loadedBytes s sg n offs) x).hart = x.hart ∧ (side (loadedBytes s sg n offs) x).instret = x.instret) :
    ∃ u, CachesOnly (served s (offs.map (elemRefs s sg n)).flatten) u ∧
      VecWrote s u (vecLoad s sg n al hint vd fmt offs put side) vd fmt (put (loadedBytes s sg n offs)) (side (loadedBytes s sg n offs)) := by
  have same := (afterRead_homes s hint (offs.map (elemRefs s sg n)).flatten).sameAgents
  rw [vecLoad_accepted h.toVecLoadReady, h.answered]
  refine ⟨_, afterRead_caches .., VecWrote.of_same same (advance_putElems_wrote _ fmt vd _ _ keeps ?_)⟩
  unfold onRet at thread ⊢
  rw [same.cur]
  exact thread

/-- A load whose response stays outstanding retires, what it writes beside its elements written (R184). -/
theorem vecLoad_leaves (h : VecLoadReady s sg n al offs) (late : s.defer = true) (some_ : put (loadedBytes s sg n offs) ≠ [])
    (keeps : ∀ x, (side (loadedBytes s sg n offs) x).hart = x.hart ∧ (side (loadedBytes s sg n offs) x).instret = x.instret) :
    ∃ u, CachesOnly (served s (offs.map (elemRefs s sg n)).flatten) u ∧
      BytesKept (served s (offs.map (elemRefs s sg n)).flatten) (vecLoad s sg n al hint vd fmt offs put side) ∧
      Retired s { u with owed := u.owed ++ [ev .vectorLoadArrival (me s)] } (vecLoad s sg n al hint vd fmt offs put side)
        (.own s (fun x => { side (loadedBytes s sg n offs) x with vloads := (side (loadedBytes s sg n offs) x).vloads ++
          [{ vd := vd.toNat, fmt := fmt, elems := put (loadedBytes s sg n offs) }] })) := by
  have caches := afterRead_caches s hint (offs.map (elemRefs s sg n)).flatten
  have same := (afterRead_homes s hint (offs.map (elemRefs s sg n)).flatten).sameAgents
  rw [vecLoad_accepted h, if_pos (by simpa [late] using some_)]
  obtain ⟨retired, kept⟩ := owe_advance_modMy same (fun x => { side (loadedBytes s sg n offs) x with
    vloads := (side (loadedBytes s sg n offs) x).vloads ++ [{ vd := vd.toNat, fmt := fmt, elems := put (loadedBytes s sg n offs) }] })
    keeps [ev .vectorLoadArrival (me s)]
  exact ⟨_, caches, caches.bytesKept.trans kept, retired⟩

end

/-! ### Stores -/

section
variable {s : State} {sg : BitVec 3} {n : Nat} {al : Bool} {hint : Hint} {items : List (Nat × List Byte)}

theorem vecStore_takes {c : Cause} (h : vecCause s sg 1 n al (items.map (·.1)) = some c) : vecStore s sg n al hint items = takeCause s c := by
  unfold vecStore
  rw [h]

/-- A vector store that no cause stops is accepted: the bytes of its elements, in their order (R87, R205). -/
theorem vecStore_accepted (h : vecCause s sg 1 n al (items.map (·.1)) = none) :
    ∃ u, StoreAccepted s u (vecStore s sg n al hint items)
      (((items.flatMap (fun p => (elemRefs s sg n p.1).zip p.2)).filter (fun x => x.1.has)).map (fun x => (x.1.loc, x.2))) := by
  unfold vecStore
  rw [h]
  dsimp only
  generalize items.flatMap (fun p => (elemRefs s sg n p.1).zip p.2) = bytes
  have accepted := advance_acceptPieces (countRefused_written s (myCtx s) bytes)
    ((vectorPieces s (bytes.filter (fun x => x.1.has))).map (pieceStore s s.cur none hint))
    (fun p hp => by obtain ⟨x, -, rfl⟩ := List.mem_map.mp hp; rfl)
  rw [pieces_locs, vectorPieces_flatten] at accepted
  exact ⟨_, accepted⟩

/-- A vector store of no element is accepted without a piece. -/
theorem vecStore_nil : StoreAccepted s (acceptPieces s s.cur []) (vecStore s sg n al hint []) [] := by
  have run : vecStore s sg n al hint [] = advance (acceptPieces s s.cur []) := by
    unfold vecStore
    rw [List.map_nil, vecCause_nil]
    rfl
  rw [run]
  exact advance_acceptPieces (.refl s) [] (fun _ h => absurd h List.not_mem_nil)

end

end Sys2Proof.Machine
end

section
/-! RESULT. Loads and stores of the window and of SX blocks (O37). -/

namespace Sys2Proof.Machine

/-! ### The window -/

/-- What a word that moves the strip's slots through the window comes to (R207): `done` where nothing stops it. -/
def windowStep (s : State) (off : Word) (acc : Nat) (done : State) : State :=
  if (my s).vl = 0 then advance s else
  match windowCause s off (4 * (my s).vl) 4 acc with
  | some c => takeCause s c
  | none => done

section
variable {s : State} {off : Word} {acc : Nat} {done : State}

theorem windowStep_empty (empty : (my s).vl = 0) : windowStep s off acc done = advance s := if_pos empty

theorem windowStep_fits (some_ : (my s).vl ≠ 0) (fits : off.toNat + 4 * (my s).vl ≤ (lspWindow s).2) (aligned : off.toNat % 4 = 0) :
    windowStep s off acc done = done := by
  rw [windowStep, if_neg some_, windowCause, if_neg (Nat.not_lt.mpr fits), if_neg (not_not.mpr aligned)]

theorem windowStep_unaligned (some_ : (my s).vl ≠ 0) (fits : off.toNat + 4 * (my s).vl ≤ (lspWindow s).2) (unaligned : off.toNat % 4 ≠ 0) :
    windowStep s off acc done = takeTrap s 3 (acc * 128) off := by
  rw [windowStep, if_neg some_, windowCause, if_neg (Nat.not_lt.mpr fits), if_pos unaligned]
  rfl

theorem windowStep_outside (some_ : (my s).vl ≠ 0) (outside : ¬off.toNat + 4 * (my s).vl ≤ (lspWindow s).2) :
    windowStep s off acc done = takeTrap s 2 (acc * 128) off := by
  rw [windowStep, if_neg some_, windowCause, if_pos (Nat.not_le.mp outside)]
  simp [takeCause, segvInfo]

end

section
variable {s : State} {f : VFields}

/-- VLDL where nothing stops it. -/
def windowLoaded (s : State) (f : VFields) : State :=
  advance (modMy s (fun x => putElems 0 f.vd x ((List.range (my s).vl).zip (readWindow s (reg s f.s).toNat (my s).vl))))

/-- VSTL where nothing stops it. -/
def windowStored (s : State) (f : VFields) : State :=
  advance (writeWindow s (reg s f.s).toNat ((List.range (my s).vl).map (elem (my s) f.vc 0)))

theorem exec_vldl (s : State) (f : VFields) : exec (.vldl f) s = execVldl f s := rfl
theorem exec_vstl (s : State) (f : VFields) : exec (.vstl f) s = execVstl f s := rfl

theorem vldl_goes (goes : VecGoes s true [f.s] [f.vd]) : exec (.vldl f) s = .next (windowStep s (reg s f.s) 0 (windowLoaded s f)) := by
  rw [exec_vldl, execVldl, issueV_goes goes]
  rfl

theorem vstl_goes (goes : VecGoes s true [f.s] [f.vc]) : exec (.vstl f) s = .next (windowStep s (reg s f.s) 1 (windowStored s f)) := by
  rw [exec_vstl, execVstl, issueV_goes goes]
  rfl

theorem windowStored_accepted (s : State) (f : VFields) :
    let bytes := (List.range (my s).vl).flatMap (fun j => leBytes 4 (elem (my s) f.vc 0 j))
    ∃ u, StoreAccepted s u (windowStored s f) ((span ((lspWindow s).1 + (reg s f.s).toNat) bytes.length).zip bytes) := by
  intro bytes
  obtain ⟨ps, mine, pieces, locs⟩ := writeWindow_spec s (reg s f.s).toNat ((List.range (my s).vl).map (elem (my s) f.vc 0))
  rw [List.flatMap_map] at locs
  have accepted := advance_acceptPieces (.refl s) ps mine
  rw [locs, ← pieces] at accepted
  exact ⟨_, accepted⟩

end

/-! ### Blocks -/

theorem strideOff_nat (s : State) (f : VFields) (n e : Nat) : strideOff s f n e = ((reg s f.s).toNat + e * n) % 2 ^ 64 := by
  unfold strideOff wrapOff
  rw [← Nat.cast_mul, ← Nat.cast_add, wrap_natCast]

/-- The offsets of the blocks of a strip (R208). -/
def blockOffs (s : State) (f : VFields) : List Nat :=
  (sxBlocks (my s) f.fmt.toNat).map (fun b => ((reg s f.s).toNat + b * sxBytes f.fmt.toNat) % 2 ^ 64)

/-- The bytes of the blocks of a strip in memory. -/
def blockRefs (s : State) (f : VFields) : List ByteRef := ((blockOffs s f).map (elemRefs s (extSeg f) (sxBytes f.fmt.toNat))).flatten

/-- The bytes that VLDSX reads, those of each block apart. -/
def readBlocks (s : State) (f : VFields) : List (List Byte) := loadedBytes s (extSeg f) (sxBytes f.fmt.toNat) (blockOffs s f)

/-- The elements of a strip's blocks, from the blocks' bytes. -/
def blockElems (s : State) (f : VFields) (l : List (List Byte)) : List (Nat × Nat) :=
  ((sxBlocks (my s) f.fmt.toNat).zip l).flatMap (fun p => sxElems f.fmt.toNat p.1 p.2)

/-- What VLDSX writes beside its elements: the blocks' entries. -/
def blockSide (s : State) (f : VFields) (l : List (List Byte)) (x : Thread) : Thread :=
  ((sxBlocks (my s) f.fmt.toNat).zip l).foldl (fun x p => putSc x f.va.toNat p.1 (sxScale p.2)) x

theorem exec_vldsx (s : State) (f : VFields) : exec (.vldsx f) s = execVldsx f s := rfl
theorem exec_vstsx (s : State) (f : VFields) : exec (.vstsx f) s = execVstsx f s := rfl

theorem vldsx_goes {s : State} {f : VFields} (goes : VecGoes s true [f.s] [f.vd]) : exec (.vldsx f) s =
    .next (vecLoad s (extSeg f) (sxBytes f.fmt.toNat) false (extHint f) f.vd f.fmt.toNat (blockOffs s f) (blockElems s f) (blockSide s f)) := by
  have offs : (sxBlocks (my s) f.fmt.toNat).map (strideOff s f (sxBytes f.fmt.toNat)) = blockOffs s f :=
    List.map_congr_left fun b _ => strideOff_nat ..
  rw [exec_vldsx, execVldsx, issueV_goes goes]
  dsimp only
  rw [offs]
  rfl

/-- Two bytes as a word of 16 bits, the higher one first. -/
theorem append_eq_ofNat (high low : Byte) : (high ++ low : BitVec 16) = BitVec.ofNat 16 (low.toNat + 256 * high.toNat) := by
  have small := low.isLt
  have large := high.isLt
  have value : (high ++ low : BitVec 16).toNat = high.toNat * 2 ^ 8 + low.toNat := by
    rw [← Nat.shiftLeft_eq, Nat.shiftLeft_add_eq_or_of_lt small]
    exact BitVec.toNat_append high low
  apply BitVec.eq_of_toNat_eq
  rw [value, BitVec.toNat_ofNat]
  omega

/-- The entry of a block is the number of its first two bytes. -/
theorem sxScale_eq : ∀ bytes : List Byte, sxScale bytes = BitVec.ofNat 16 (leNat (bytes.take 2))
  | [] => rfl
  | [a] => append_eq_ofNat 0 a
  | a :: b :: _ => append_eq_ofNat b a

/-- A block packed: the bytes of its entry, then those of its elements' bits in order (R64, Table 3.2). -/
theorem sxPack_span (fmt : Nat) (ent : BitVec 16) (v : Nat → Nat) (b : Nat) :
    sxPack fmt ent ((span (16 * b) 16).map v) = leBytes 2 ent.toNat ++ leBytes (2 * (sxM fmt + 1))
      (((List.range 16).map (fun i => v (16 * b + i) % 2 ^ (sxM fmt + 1) * 2 ^ (i * (sxM fmt + 1)))).sum) := by
  have low : ent.extractLsb' 0 8 = BitVec.ofNat 8 ent.toNat := BitVec.eq_of_toNat_eq (by simp)
  have high : ent.extractLsb' 8 8 = BitVec.ofNat 8 (ent.toNat / 256) := BitVec.eq_of_toNat_eq (by simp [Nat.shiftRight_eq_div_pow])
  have places : (List.range 16).map (fun i => ((span (16 * b) 16).map v).getD i 0 % 2 ^ (sxM fmt + 1) * 2 ^ (i * (sxM fmt + 1))) =
      (List.range 16).map (fun i => v (16 * b + i) % 2 ^ (sxM fmt + 1) * 2 ^ (i * (sxM fmt + 1))) := by
    refine List.map_congr_left fun i hi => ?_
    have place : ((span (16 * b) 16).map v).getD i 0 = v (16 * b + i) := by
      simp [span, List.getD_eq_getElem?_getD, List.mem_range.mp hi]
    rw [place]
  unfold sxPack
  dsimp only
  rw [places, low, high]
  rfl

section
variable (s : State) (f : VFields)

/-- The bytes of block `b` as VLDSX reads them. -/
def blockBytes (b : Nat) : List Byte :=
  bytesOf (served s (blockRefs s f)) (elemRefs s (extSeg f) (sxBytes f.fmt.toNat) (((reg s f.s).toNat + b * sxBytes f.fmt.toNat) % 2 ^ 64))

/-- The entry of block `b` as VLDSX reads it. -/
def loadedEntry (b : Nat) : BitVec 16 := BitVec.ofNat 16 (leNat ((blockBytes s f b).take 2))

theorem readBlocks_eq : readBlocks s f = (sxBlocks (my s) f.fmt.toNat).map (blockBytes s f) := by
  unfold readBlocks loadedBytes
  conv_lhs => rw [blockOffs]
  rw [List.map_map, List.map_map]
  rfl

theorem blockSide_loaded :
    blockSide s f (readBlocks s f) = putEntries f.va.toNat (loadedEntry s f) (sxBlocks (my s) f.fmt.toNat) := by
  funext x
  rw [readBlocks_eq, blockSide, ← List.map_prod_left_eq_zip, List.foldl_map, putEntries]
  simp only [sxScale_eq]
  rfl

/-- The elements of the blocks that VLDSX reads. -/
theorem blockElems_loaded : blockElems s f (readBlocks s f) =
    ((sxBlocks (my s) f.fmt.toNat).zip ((blockOffs s f).map (fun o =>
      bytesOf (served s (blockRefs s f)) (elemRefs s (extSeg f) (sxBytes f.fmt.toNat) o)))).flatMap (fun p => sxElems f.fmt.toNat p.1 p.2) := by
  unfold blockElems readBlocks loadedBytes
  rw [List.map_map]
  rfl

/-- The bytes of block `b` as VSTSX stores them (R64, Table 3.2). -/
def packedBlock (b : Nat) : List Byte :=
  leBytes 2 (scEntry (my s) f.va.toNat b).toNat ++ leBytes (2 * (sxM f.fmt.toNat + 1))
    (((List.range 16).map (fun i => elem (my s) f.vc f.fmt.toNat (16 * b + i) % 2 ^ (sxM f.fmt.toNat + 1) *
      2 ^ (i * (sxM f.fmt.toNat + 1)))).sum)

/-- The blocks that VSTSX stores, each at its offset. -/
def storedBlocks : List (Nat × List Byte) :=
  (sxBlocks (my s) f.fmt.toNat).map (fun b => (((reg s f.s).toNat + b * sxBytes f.fmt.toNat) % 2 ^ 64, packedBlock s f b))

theorem storedBlocks_offs : (storedBlocks s f).map (·.1) = blockOffs s f := by
  unfold storedBlocks
  rw [List.map_map]
  rfl

theorem storedBlocks_bytes : (storedBlocks s f).flatMap (fun p => (elemRefs s (extSeg f) (sxBytes f.fmt.toNat) p.1).zip p.2) =
    ((sxBlocks (my s) f.fmt.toNat).zip (blockOffs s f)).flatMap (fun p =>
      (elemRefs s (extSeg f) (sxBytes f.fmt.toNat) p.2).zip (packedBlock s f p.1)) := by
  rw [storedBlocks, blockOffs, ← List.map_prod_left_eq_zip, List.flatMap_map, List.flatMap_map]

end

section
variable {s : State} {f : VFields}

theorem vstsx_goes (goes : VecGoes s true [f.s] [f.vc]) : exec (.vstsx f) s =
    .next (vecStore s (extSeg f) (sxBytes f.fmt.toNat) false (extHint f) (storedBlocks s f)) := by
  rw [exec_vstsx, execVstsx, issueV_goes goes]
  dsimp only
  simp only [strideOff_nat, sxPack_span]
  rfl

theorem blockOffs_empty (empty : (my s).vl = 0) : blockOffs s f = [] := by simp [blockOffs, sxBlocks, numElems, empty]

theorem storedBlocks_empty (empty : (my s).vl = 0) : storedBlocks s f = [] := by simp [storedBlocks, sxBlocks, numElems, empty]

/-- A strip with a block has elements to load. -/
theorem blockElems_ne_nil (some_ : sxBlocks (my s) f.fmt.toNat ≠ []) : blockElems s f (readBlocks s f) ≠ [] := by
  obtain ⟨b, hb⟩ := List.exists_mem_of_ne_nil _ some_
  rw [readBlocks_eq, blockElems, ← List.map_prod_left_eq_zip, List.flatMap_map]
  exact List.ne_nil_of_mem (List.mem_flatMap.mpr ⟨b, hb, List.mem_map.mpr ⟨0, by simp, rfl⟩⟩)

theorem blockSide_keeps (x : Thread) :
    (blockSide s f (readBlocks s f) x).hart = x.hart ∧ (blockSide s f (readBlocks s f) x).instret = x.instret := by
  rw [blockSide_loaded]
  exact putEntries_keeps ..

/-- The path of VLDSX. -/
def blockLoad (s : State) (f : VFields) : State :=
  vecLoad s (extSeg f) (sxBytes f.fmt.toNat) false (extHint f) f.vd f.fmt.toNat (blockOffs s f) (blockElems s f) (blockSide s f)

/-- The entries of the strip's blocks have been read, and no other entry has changed. -/
def EntriesRead (s t : State) (f : VFields) : Prop :=
  ∀ k b, k < 4 → scEntry (my t) k b =
    if k = f.va.toNat ∧ b ∈ sxBlocks (my s) f.fmt.toNat then loadedEntry s f b else scEntry (my s) k b

theorem blockLoad_writes (goes : VecGoes s true [f.s] [f.vd]) (ready : VecLoadGoes s (extSeg f) (sxBytes f.fmt.toNat) false (blockOffs s f))
    (small : f.va.toNat < 4) :
    ∃ u, CachesOnly (served s (blockRefs s f)) u ∧
      VecWrote s u (blockLoad s f) f.vd f.fmt.toNat (blockElems s f (readBlocks s f)) (fun x => { x with sc := (my (blockLoad s f)).sc }) ∧
      EntriesRead s (blockLoad s f) f := by
  obtain ⟨u, caches, wrote⟩ := vecLoad_writes (hint := extHint f) (vd := f.vd) (fmt := f.fmt.toNat) (put := blockElems s f)
    (side := blockSide s f) ready goes.onRet blockSide_keeps
  change VecWrote s u (blockLoad s f) f.vd f.fmt.toNat (blockElems s f (readBlocks s f)) (blockSide s f (readBlocks s f)) at wrote
  rw [blockSide_loaded] at wrote
  have retired := wrote.1
  have written : (my (blockLoad s f)).sc = (putEntries f.va.toNat (loadedEntry s f) (sxBlocks (my s) f.fmt.toNat) (my s)).sc := by
    rw [retired.own_mine goes.onRet]
  obtain ⟨same, entries⟩ := entries_written small written
  exact ⟨u, caches, wrote.congr same, fun k b _ => entries k b⟩

theorem blockLoad_leaves (goes : VecGoes s true [f.s] [f.vd]) (ready : VecLoadReady s (extSeg f) (sxBytes f.fmt.toNat) false (blockOffs s f))
    (small : f.va.toNat < 4) (late : s.defer = true) (some_ : sxBlocks (my s) f.fmt.toNat ≠ []) :
    ∃ u, CachesOnly (served s (blockRefs s f)) u ∧ BytesKept (served s (blockRefs s f)) (blockLoad s f) ∧
      Retired s { u with owed := u.owed ++ [ev .vectorLoadArrival (me s)] } (blockLoad s f) (.own s (fun x => { x with
        sc := (my (blockLoad s f)).sc
        vloads := x.vloads ++ [{ vd := f.vd.toNat, fmt := f.fmt.toNat, elems := blockElems s f (readBlocks s f) }] })) ∧
      EntriesRead s (blockLoad s f) f := by
  obtain ⟨u, caches, kept, retired⟩ := vecLoad_leaves (hint := extHint f) (vd := f.vd) (fmt := f.fmt.toNat) (put := blockElems s f)
    (side := blockSide s f) ready late (blockElems_ne_nil some_) blockSide_keeps
  change Retired s _ (blockLoad s f) (.own s (fun x => { blockSide s f (readBlocks s f) x with
    vloads := (blockSide s f (readBlocks s f) x).vloads ++
      [{ vd := f.vd.toNat, fmt := f.fmt.toNat, elems := blockElems s f (readBlocks s f) }] })) at retired
  rw [blockSide_loaded] at retired
  have written : (my (blockLoad s f)).sc = (putEntries f.va.toNat (loadedEntry s f) (sxBlocks (my s) f.fmt.toNat) (my s)).sc := by
    rw [retired.own_mine goes.onRet]
  obtain ⟨same, entries⟩ := entries_written small written
  refine ⟨u, caches, kept, retired.own_congr ?_, fun k b _ => entries k b⟩
  dsimp only
  rw [same]

/-- With VL = 0 no block is read. -/
theorem blockLoad_empty (empty : (my s).vl = 0) :
    ∃ u, CachesOnly s u ∧ Retired s u (blockLoad s f) (.next s) ∧ BytesKept s (blockLoad s f) := by
  have offs : blockOffs s f = [] := blockOffs_empty empty
  have elems : blockElems s f (loadedBytes s (extSeg f) (sxBytes f.fmt.toNat) []) = [] := by simp [blockElems, sxBlocks, numElems, empty]
  have caches := afterRead_caches s (extHint f) []
  rw [served_nil] at caches
  have run : blockLoad s f = advance (modMy (afterRead s (extHint f) []) id) := by
    have side : blockSide s f (loadedBytes s (extSeg f) (sxBytes f.fmt.toNat) []) = id := by
      funext x
      simp [blockSide, sxBlocks, numElems, empty]
    unfold blockLoad
    rw [offs, vecLoad_accepted (vecLoadReady_nil ..), elems, side, List.isEmpty_nil, Bool.not_true, Bool.and_false]
    rfl
  rw [run]
  obtain ⟨retired, kept⟩ := advance_modMy_changed (afterRead s (extHint f) []) id (fun _ => ⟨rfl, rfl⟩)
  exact ⟨_, caches, retired.of_same caches.sameAgents, caches.bytesKept.trans kept⟩

end

/-- Settles O37, by the window's step, and by the paths of vector loads and stores over whole blocks. -/
theorem windowAndBlockWords : Obligations.WindowAndBlockWords := by
  refine ⟨fun s f ill i hi => ?_, fun s f => ?_, fun s f => ?_⟩
  · simp only [List.mem_cons, List.not_mem_nil, or_false] at hi
    rcases hi with rfl | rfl | rfl | rfl
    exacts [(exec_vldl s f).trans (issueV_ill _ ill _), (exec_vstl s f).trans (issueV_ill _ ill _),
      (exec_vldsx s f).trans (issueV_ill _ ill _), (exec_vstsx s f).trans (issueV_ill _ ill _)]
  · intro vl off lo fits ws bytes
    have next := advance_nothing s
    refine ⟨fun goes empty => ?_, fun goes empty => ?_, fun goes some_ => ?_, fun goes some_ => ?_⟩
    · exact ⟨_, (vldl_goes goes).trans (congrArg _ (windowStep_empty empty)), next⟩
    · exact ⟨_, (vstl_goes goes).trans (congrArg _ (windowStep_empty empty)), next⟩
    · rw [vldl_goes goes]
      refine ⟨fun inside aligned => ⟨_, congrArg _ (windowStep_fits some_ inside aligned), ?_⟩,
        fun inside unaligned => congrArg _ (windowStep_unaligned some_ inside unaligned),
        fun outside => congrArg _ (windowStep_outside some_ outside)⟩
      exact advance_putElems_wrote s 0 f.vd _ id (fun _ => ⟨rfl, rfl⟩) goes.onRet
    · rw [vstl_goes goes]
      refine ⟨fun inside aligned => ?_, fun inside unaligned => congrArg _ (windowStep_unaligned some_ inside unaligned),
        fun outside => congrArg _ (windowStep_outside some_ outside)⟩
      obtain ⟨u, accepted⟩ := windowStored_accepted s f
      exact ⟨u, _, congrArg _ (windowStep_fits some_ inside aligned), accepted⟩
  · intro fmt w n bs offs all b read l ent
    have elems : blockElems s f (loadedBytes s (extSeg f) n offs) = l := blockElems_loaded s f
    refine ⟨fun goes ready small => ?_, fun goes ready small late some_ => ?_, fun goes cause => ⟨fun first => ?_, fun order bad => ?_⟩,
      fun goes empty _ => ?_, fun goes empty => ?_, fun goes c stops => ?_, fun goes c stops => ?_, fun goes free => ?_⟩
    · obtain ⟨u, caches, wrote, entries⟩ := blockLoad_writes goes ready small
      rw [← elems]
      exact ⟨u, _, vldsx_goes goes, caches, wrote, entries⟩
    · obtain ⟨u, caches, kept, retired, entries⟩ := blockLoad_leaves goes ready small late some_
      rw [← elems]
      exact ⟨u, _, vldsx_goes goes, caches, kept, retired, entries⟩
    · exact (vldsx_goes goes).trans (congrArg _ (vecLoad_holds cause first))
    · exact (vldsx_goes goes).trans (congrArg _ (vecLoad_integ cause order bad))
    · obtain ⟨u, caches, retired, kept⟩ := blockLoad_empty (f := f) empty
      exact ⟨u, _, vldsx_goes goes, caches, retired, kept⟩
    · refine ⟨_, vstsx_goes goes, ?_⟩
      rw [storedBlocks_empty empty]
      exact vecStore_nil
    · exact (vldsx_goes goes).trans (congrArg _ (vecLoad_takes stops))
    · exact (vstsx_goes goes).trans (congrArg _ (vecStore_takes ((congrArg _ (storedBlocks_offs s f)).trans stops)))
    · intro block bytes
      obtain ⟨u, accepted⟩ := vecStore_accepted (hint := extHint f) ((congrArg _ (storedBlocks_offs s f)).trans free)
      rw [storedBlocks_bytes] at accepted
      exact ⟨u, _, vstsx_goes goes, accepted⟩

end Sys2Proof.Machine
end

section
/-! RESULT. Element-wise vector stores (O36). -/

namespace Sys2Proof.Machine

theorem vecMemForms_store {f : VFields} {p : Instr × Instr × List Reg × List VReg × (State → Bool) × (State → Nat → Nat → Nat)}
    (h : p ∈ vecMemForms f) (s : State) : exec p.2.1 s = storeForm f p.2.2.1 p.2.2.2.1 p.2.2.2.2.1 p.2.2.2.2.2 s := by
  simp only [vecMemForms, List.mem_cons, List.not_mem_nil, or_false] at h
  rcases h with rfl | rfl | rfl | rfl <;> rfl

section
variable {s : State} {f : VFields} {rs : List Reg} {vs : List VReg} {ok : State → Bool} {off : State → Nat → Nat → Nat}

/-- The active elements that a form stores, each at its offset. -/
def storedItems (s : State) (f : VFields) (off : State → Nat → Nat → Nat) : List (Nat × List Byte) :=
  (actives (my s) f).map (fun e =>
    (off s (cbits f.fmt.toNat / 8) e, leBytes (cbits f.fmt.toNat / 8) (elem (my s) f.vc f.fmt.toNat e)))

theorem storedItems_offs (s : State) (f : VFields) (off : State → Nat → Nat → Nat) : (storedItems s f off).map (·.1) = (actives (my s) f).map (off s (cbits f.fmt.toNat / 8)) := by
  unfold storedItems
  rw [List.map_map]
  rfl

theorem storeForm_misfit (goes : VecGoes s true rs (f.vc :: vs)) (misfit : ok s = false) :
    storeForm f rs vs ok off s = .next (takeIll s) := by
  unfold storeForm
  rw [issueV_goes goes, misfit]
  rfl

theorem storeForm_goes (goes : VecGoes s true rs (f.vc :: vs)) (fits : ok s = true) : storeForm f rs vs ok off s =
    .next (vecStore s (extSeg f) (cbits f.fmt.toNat / 8) true (extHint f) (storedItems s f off)) := by
  unfold storeForm
  rw [issueV_goes goes, fits]
  rfl

end

/-- Settles O36, by the path of a vector store over the active elements. -/
theorem vectorStores : Obligations.VectorStores := by
  intro s f p hp
  rw [vecMemForms_store hp]
  refine ⟨fun ill => issueV_ill _ ill _, fun goes => ?_⟩
  intro w es off bytes put
  refine ⟨fun fits free => ?_, fun c fits stops => ?_, storeForm_misfit goes⟩
  · obtain ⟨u, accepted⟩ := vecStore_accepted (hint := extHint f) ((congrArg _ (storedItems_offs s f p.2.2.2.2.2)).trans free)
    rw [storedItems, List.flatMap_map] at accepted
    exact ⟨u, _, storeForm_goes goes fits, accepted⟩
  · rw [storeForm_goes goes fits]
    exact congrArg _ (vecStore_takes ((congrArg _ (storedItems_offs s f p.2.2.2.2.2)).trans stops))

end Sys2Proof.Machine
end

section
/-! RESULT. The service of scope misses (O55). -/

namespace Sys2Proof.Machine

/-! ### A message that an idle service context takes -/

/-- The core's queue once a message has left it, and one more has come in from the router (R94, R133). -/
def missTaken (u : State) (k : Nat) (m : ScopeMsg) : State := fromRouter (modCore u k (fun x => { x with smq := x.smq.erase m })) k

/-- The handler of the service context started with a message (R133). -/
def missHandled (v : State) (k : Nat) (m : ScopeMsg) (x : Ctx) : State :=
  pushTrace (setThr (modCore v k (fun c => { c with serving := some m })) (k * 17 + 16) (handlerThread x m.ctx m v.time)) k
    { time := v.time, kind := 7, code := m.needed, ctx := m.ctx, hw := 16, pc := x.smvec, data := BitVec.ofNat 64 m.cva }

section
variable {s : State} {m : ScopeMsg} (idle : (core s s.msg.a).serving = none) (next : nextMiss (fromRouter s s.msg.a) s.msg.a = some m)
include idle next

theorem scopeMiss_unknown (unknown : ctx? (fromRouter s s.msg.a) m.ctx = none) :
    exec .scopeMissMessage s = .next (owe (missTaken (fromRouter s s.msg.a) s.msg.a m) [ev .scopeMissMessage s.msg.a]) := by
  change execScopeMissMessage s = _
  unfold execScopeMissMessage
  simp only [idle, next, unknown, Option.isSome_none, Bool.false_eq_true, if_false, missTaken]

variable {x : Ctx} (known : ctx? (fromRouter s s.msg.a) m.ctx = some x)
include known

theorem scopeMiss_drops (gone : x.frozen ≠ none ∨ boundTo (fromRouter s s.msg.a) s.msg.a m.ctx = []) :
    exec .scopeMissMessage s = .next (owe (missTaken (fromRouter s s.msg.a) s.msg.a m) [ev .scopeMissMessage s.msg.a]) := by
  have drops : (x.frozen.isSome || (boundTo (fromRouter s s.msg.a) s.msg.a m.ctx).isEmpty) = true := by
    simpa [Option.isSome_iff_ne_none] using gone
  change execScopeMissMessage s = _
  unfold execScopeMissMessage
  simp only [idle, next, known, drops, Option.isSome_none, Bool.false_eq_true, if_false, if_true, missTaken]

variable (live : x.frozen = none) (bound : boundTo (fromRouter s s.msg.a) s.msg.a m.ctx ≠ [])
include live bound

/-- Without a handler, the core repairs the miss itself (R95). -/
theorem scopeMiss_repairs (bare : x.smvec = 0) {r : Repair} (outcome : repairMiss (missTaken (fromRouter s s.msg.a) s.msg.a m) s.msg.a m = r) :
    exec .scopeMissMessage s = .next (match r with
      | .done v => owe v [ev .scopeMissMessage s.msg.a]
      | .delay => owe (fileReport (fromRouter s s.msg.a) m.ctx (m.cva / 4096)) [ev .scopeMissMessage s.msg.a]
      | .wait => owe (fromRouter s s.msg.a) [ev .scopeMissMessage s.msg.a]) := by
  have stays : (x.frozen.isSome || (boundTo (fromRouter s s.msg.a) s.msg.a m.ctx).isEmpty) = false := by simp [live, bound]
  unfold missTaken at outcome
  change execScopeMissMessage s = _
  unfold execScopeMissMessage
  simp only [idle, next, known, stays, bare, outcome, Option.isSome_none, Bool.false_eq_true, if_false, if_true]
  cases r <;> rfl

theorem scopeMiss_handles (handler : x.smvec ≠ 0) :
    exec .scopeMissMessage s = .next (missHandled (missTaken (fromRouter s s.msg.a) s.msg.a m) s.msg.a m x) := by
  have stays : (x.frozen.isSome || (boundTo (fromRouter s s.msg.a) s.msg.a m.ctx).isEmpty) = false := by simp [live, bound]
  change execScopeMissMessage s = _
  unfold execScopeMissMessage
  simp only [idle, next, known, stays, handler, Option.isSome_none, Bool.false_eq_true, if_false, missHandled, missTaken, setThr_time]
  generalize fromRouter (modCore _ _ _) _ = v
  rfl

end

/-! ### What the handler finds -/

theorem fromRouter_threads (s : State) (k : Nat) : (fromRouter s k).threads = s.threads := by
  unfold fromRouter
  split
  · rfl
  · split <;> rfl

theorem fromRouter_time (s : State) (k : Nat) : (fromRouter s k).time = s.time := by
  unfold fromRouter
  split
  · rfl
  · split <;> rfl

theorem missTaken_threads (u : State) (k : Nat) (m : ScopeMsg) : (missTaken u k m).threads = u.threads := fromRouter_threads _ k

theorem missTaken_time (u : State) (k : Nat) (m : ScopeMsg) : (missTaken u k m).time = u.time := fromRouter_time _ k

section
variable (x : Ctx) (c : Nat) (m : ScopeMsg) (time : Nat)

/-- The thread of the handler but for its registers. -/
theorem handlerThread_eq : handlerThread x c m time =
    { Thread.start with hart := (handlerThread x c m time).hart, ctx := c, status := 3, started := time } := rfl

/-- The handler's entry and its arguments in s1 to s3. -/
theorem handlerThread_args :
    (handlerThread x c m time).hart.pc = x.smvec ∧ (handlerThread x c m time).hart.get 1 = BitVec.ofNat 64 m.cva ∧
      (handlerThread x c m time).hart.get 2 = BitVec.ofNat 64 m.needed ∧
      (handlerThread x c m time).hart.get 3 = BitVec.ofNat 64 m.markScope := by
  unfold handlerThread
  simp [Hart.get_set]

/-- The handler's segments: the data heap in g0, every address in g7. -/
theorem handlerThread_segs :
    (handlerThread x c m time).hart.segs[0] = x.heap ∧
      (handlerThread x c m time).hart.segs[7] =
        { base := 0, limit := BitVec.allOnes 48, r := true, w := true, x := false, v := true } := by
  unfold handlerThread
  simp

end

theorem missHandled_serving (v : State) (k : Nat) (m : ScopeMsg) (x : Ctx) : (core (missHandled v k m x) k).serving = some m := by
  unfold missHandled pushTrace
  rw [core_modCore, if_pos rfl]
  change (core (modCore v k (fun c => { c with serving := some m })) k).serving = some m
  rw [core_modCore, if_pos rfl]

theorem missHandled_threads (v : State) (k : Nat) (m : ScopeMsg) (x : Ctx) :
    (missHandled v k m x).threads = kset v.threads (k * 17 + 16) (handlerThread x m.ctx m v.time) := rfl

/-- An acquire that was held may issue again (R93). -/
theorem acquireReissue_waits {s : State} {g : Nat} (held : condOf s s.msg.agent = .heldAcquire g) :
    exec .acquireReissue s = .next { setCond { s with cur := s.msg.agent } .waiting with cur := s.cur } := by
  change execAcquireReissue s = _
  unfold execAcquireReissue
  simp only [held]
  rfl

/-- Settles O55, by what becomes of the message that an idle service context takes. -/
theorem scopeMisses : Obligations.ScopeMisses := by
  intro s k u
  refine ⟨fun g => acquireReissue_waits, fun m idle next => ⟨scopeMiss_unknown idle next, fun x known => ⟨scopeMiss_drops idle next known, ?_, ?_⟩⟩⟩
  · intro live bound bare
    have repairs := @scopeMiss_repairs s m idle next x known live bound bare
    exact ⟨fun v => repairs (r := .done v), repairs (r := .delay), repairs (r := .wait)⟩
  · intro live bound handler
    have time : (missTaken u k m).time = s.time := (missTaken_time u k m).trans (fromRouter_time s k)
    have threads : (missTaken u k m).threads = s.threads := (missTaken_threads u k m).trans (fromRouter_threads s k)
    obtain ⟨pc, cva, needed, scope⟩ := handlerThread_args x m.ctx m s.time
    obtain ⟨heap, all⟩ := handlerThread_segs x m.ctx m s.time
    refine ⟨_, handlerThread x m.ctx m s.time, scopeMiss_handles idle next known live bound handler, missHandled_serving .., ?_,
      handlerThread_eq .., pc, cva, needed, scope, heap, all, fun n ne => ?_⟩
    · rw [missHandled_threads, kfind_kset_self, time]
    · rw [missHandled_threads, kfind_kset_ne _ _ ne, threads]

end Sys2Proof.Machine
end

section
/-! SUPPORT. Writes that reach their homes one after another: what each leaves there, and that a later one takes nothing from an earlier
one (R90, R97, R272). -/

namespace Sys2Proof.Machine

theorem lastWrite_eq_none_iff {l : List (Nat × Byte)} {loc : Nat} : lastWrite l loc = none ↔ loc ∉ l.map (·.1) := by
  refine ⟨fun h inside => ?_, lastWrite_none⟩
  obtain ⟨p, hp, rfl⟩ := List.mem_map.mp inside
  unfold lastWrite at h
  rw [Option.map_eq_none_iff, List.find?_eq_none] at h
  exact h p (List.mem_reverse.mpr hp) (by simp)

theorem lastWrite_mem {l : List (Nat × Byte)} {loc : Nat} {b : Byte} (h : lastWrite l loc = some b) : loc ∈ l.map (·.1) := by
  by_contra away
  rw [lastWrite_none away] at h
  cases h

/-- Writes have reached their homes: each location holds the last byte given it, which no die holds an older one of, and no other
location has changed but those brought home. -/
structure AtHomes (s u : State) (l : List (Nat × Byte)) : Prop where
  homes : HomesOnly s u
  stores : u.stores = s.stores
  given : ∀ loc b, lastWrite l loc = some b → u.mem.get loc = b ∧ (offPart loc = false → ∀ d, uoqRead u d loc = none)
  kept : ∀ loc, lastWrite l loc = none → ¬BroughtHome s (l.map (·.1)) loc →
    u.mem.get loc = s.mem.get loc ∧ ∀ d, uoqRead u d loc = uoqRead s d loc
  ahead : NoneAhead s u

section
variable {s t u : State} {l r : List (Nat × Byte)}

theorem PutHome.atHomes (h : PutHome s u l) : AtHomes s u l := by
  obtain ⟨⟨r, brought, wrote⟩, gone⟩ := h
  refine ⟨wrote.homes, wrote.stores, fun loc b last => ⟨?_, fun here d => gone d loc (lastWrite_mem last) here⟩, fun loc none_ home => ?_,
    wrote.noneAhead⟩
  · rw [wrote.mem, Memory.get_setAll, lastWrite_append, last]
    rfl
  · have off : loc ∉ (r ++ l).map (·.1) := by
      rw [List.map_append, List.mem_append]
      rintro (inside | inside)
      · obtain ⟨q, hq, rfl⟩ := List.mem_map.mp inside
        exact home (brought q hq)
      · exact lastWrite_eq_none_iff.mp none_ inside
    exact ⟨wrote.mem_off off, fun d => wrote.uoq_off d off⟩

theorem AtHomes.refl (s : State) : AtHomes s s [] := (PutHome.none (.refl s)).atHomes

/-- A location that holds a byte given it is brought home by nothing. -/
theorem AtHomes.given_home (h : AtHomes s u l) {loc : Nat} {b : Byte} (given : lastWrite l loc = some b) (locs : List Nat) :
    ¬BroughtHome u locs loc :=
  fun ⟨_, here, d, held⟩ => held ((h.given loc b given).2 here d)

/-- Writes that reach their homes after others. -/
theorem AtHomes.trans (h : AtHomes s t l) (k : AtHomes t u r) : AtHomes s u (l ++ r) := by
  refine ⟨h.homes.trans k.homes, k.stores.trans h.stores, fun loc b given => ?_, fun loc none_ home => ?_, h.ahead.trans k.ahead⟩
  · rw [lastWrite_append] at given
    cases later : lastWrite r loc with
    | some c =>
      rw [later] at given
      cases given
      exact k.given loc _ later
    | none =>
      rw [later] at given
      obtain ⟨mem, gone⟩ := h.given loc b given
      obtain ⟨memKept, heldKept⟩ := k.kept loc later (h.given_home given _)
      exact ⟨memKept.trans mem, fun here d => (heldKept d).trans (gone here d)⟩
  · rw [lastWrite_append, Option.or_eq_none_iff] at none_
    have first : ¬BroughtHome s (l.map (·.1)) loc := fun b => home (broughtHome_mono b fun x hx => by
      rw [List.map_append]; exact List.mem_append_left _ hx)
    have second : ¬BroughtHome t (r.map (·.1)) loc := fun b => home (broughtHome_mono (h.ahead.broughtHome h.homes b) fun x hx => by
      rw [List.map_append]; exact List.mem_append_right _ hx)
    obtain ⟨mem₁, held₁⟩ := h.kept loc none_.2 first
    obtain ⟨mem₂, held₂⟩ := k.kept loc none_.1 second
    exact ⟨mem₂.trans mem₁, fun d => (held₂ d).trans (held₁ d)⟩

/-- Writes that reach their homes by the steps of a fold. -/
theorem AtHomes.foldl {α : Type} (f : State → α → State) (w : α → List (Nat × Byte)) (step : ∀ s x, AtHomes s (f s x) (w x)) :
    ∀ (l : List α) (s : State), AtHomes s (l.foldl f s) (l.flatMap w)
  | [], s => .refl s
  | x :: r, s => (step s x).trans (AtHomes.foldl f w step r (f s x))

end

theorem landBytes_puts (s : State) (l : List (Nat × Byte)) : PutHome s (landBytes s l) l := by
  obtain ⟨r, brought, wrote, gone⟩ := landBytes_spec s l
  exact ⟨⟨r, brought, wrote⟩, gone⟩

end Sys2Proof.Machine
end

section
/-! RESULT. Accesses from the host and from peers (O58). -/

namespace Sys2Proof.Machine

/-! ### Writes from outside -/

/-- One granule's bytes from outside written at their homes. -/
def outsideGroup (tn kind : Nat) (s : State) : List (ByteRef × Byte) → State
  | [] => s
  | (r, b) :: rest =>
    let g := (r, b) :: rest
    let pa := nativePa s r.loc
    let logged := if offPart r.loc || inPools r.loc then s else logArrival s tn kind r.loc (pa / 256) (pa % 256) g.length none
    putCovers (ownLines (landBytes logged (g.map (fun p => (p.1.loc, p.2)))) (.thread 0) false (g.map (fun p => p.1.loc)) r.cva .none true)
      (g.map (fun p => p.1.loc)) [] false

theorem outsideWrite_eq (s : State) (tn kind : Nat) (l : List (ByteRef × Byte)) :
    outsideWrite s tn kind l = (byGranule s (l.filter (fun p => p.1.has))).foldl (outsideGroup tn kind) s := by
  unfold outsideWrite
  congr 1
  funext u g
  cases g <;> rfl

/-- The bytes of one granule that come from outside have reached their homes. -/
theorem outsideGroup_atHomes (tn kind : Nat) (s : State) (g : List (ByteRef × Byte)) :
    AtHomes s (outsideGroup tn kind s g) (g.map (fun p => (p.1.loc, p.2))) := by
  cases g with
  | nil => exact .refl s
  | cons p rest =>
    have logged : Written s (if offPart p.1.loc || inPools p.1.loc then s
        else logArrival s tn kind p.1.loc (nativePa s p.1.loc / 256) (nativePa s p.1.loc % 256) (p :: rest).length none) [] := by
      split
      · exact .refl s
      · exact logArrival_written ..
    exact (((landBytes_puts _ _).before logged).after (ownLines_written ..)).after (putCovers_written ..) |>.atHomes

/-- The bytes that come from outside have reached their homes. -/
theorem outsideWrite_atHomes (s : State) (tn kind : Nat) (l : List (ByteRef × Byte)) :
    AtHomes s (outsideWrite s tn kind l) ((l.filter (fun p => p.1.has)).map (fun p => (p.1.loc, p.2))) := by
  have landed := AtHomes.foldl (outsideGroup tn kind) (fun g => g.map (fun p => (p.1.loc, p.2))) (outsideGroup_atHomes tn kind)
    (byGranule s (l.filter (fun p => p.1.has))) s
  rwa [← outsideWrite_eq, ← List.map_flatMap, byGranule, List.flatMap_id', cutWhere_flatten] at landed

/-! ### Lines that no die owns -/

/-- No die's L2 holds a line dirty. -/
def LineClean (s : State) (n : Nat) : Prop := ∀ d, ∀ q ∈ (die s d).l2, ∀ x ∈ q.2, x.line = n → x.dirty = false

theorem LineClean.not_owned {s : State} {pa : Nat} (h : LineClean s (pa / 128)) (d : Nat) : l2Owns s d pa = false := by
  unfold l2Owns inSet kget
  split
  · next x found =>
    have same : x.line = pa / 128 := by simpa using List.find?_some found
    have held := List.mem_of_find?_eq_some found
    cases set : kfind (die s d).l2 (l2Set pa) with
    | none => rw [set] at held; cases held
    | some ways =>
      rw [set] at held
      exact h d _ (kfind_mem set) x held same
  · rfl

theorem die_recallLine (s : State) (pa d : Nat) : die (recallLine s pa) d = { die s d with
    l2 := (die s d).l2.map (fun q => (q.1, q.2.map (fun x => if x.line = pa / 128 then { x with dirty := false } else x))) } :=
  die_mapDies s (fun _ x => { x with
    l2 := x.l2.map (fun q => (q.1, q.2.map (fun x => if x.line = pa / 128 then { x with dirty := false } else x))) }) d rfl

/-- A line recalled is held dirty nowhere, and no other line becomes dirty. -/
theorem recallLine_clean {s : State} {pa n : Nat} (h : pa / 128 = n ∨ LineClean s n) : LineClean (recallLine s pa) n := by
  intro d q hq x hx same
  rw [die_recallLine] at hq
  obtain ⟨p, hp, rfl⟩ := List.mem_map.mp hq
  obtain ⟨y, hy, rfl⟩ := List.mem_map.mp hx
  by_cases recalled : y.line = pa / 128
  · rw [if_pos recalled]
  · rw [if_neg recalled] at same ⊢
    exact (h.resolve_left fun e => recalled (same.trans e.symm)) d p hp y hy same

/-- Lines recalled one after another are held dirty nowhere. -/
theorem recallLines_clean {n : Nat} : ∀ (lines : List Nat) (s : State), (n ∈ lines ∨ LineClean s n) →
    LineClean (lines.foldl (fun s n => recallLine s (n * 128)) s) n
  | [], _, h => h.resolve_left List.not_mem_nil
  | m :: rest, s, h => recallLines_clean rest _ (by
    by_cases later : n ∈ rest
    · exact .inl later
    · refine .inr (recallLine_clean ?_)
      rcases h with h | h
      · exact .inl (by rcases List.mem_cons.mp h with rfl | h
                       · omega
                       · exact absurd h later)
      · exact .inr h)

/-! ### Reads from outside -/

/-- The state in which bytes are read from outside: what dies held of them for themselves has come home, and so have dirty lines. -/
def readOutside (s : State) (refs : List ByteRef) : State :=
  let u := recalled s (underRefs s refs)
  (linesOf u ((underRefs u refs).filter (fun l => !offPart l))).foldl (fun s n => recallLine s (n * 128)) u

theorem outsideRead_eq (s : State) (refs : List ByteRef) :
    outsideRead s refs = modKeeper (readOutside s refs) (fun k => { k with reply := refs.map (readShared (readOutside s refs) 4) }) := rfl

theorem readOutside_lines (s : State) (refs : List ByteRef) : LinesOnly (recalled s (underRefs s refs)) (readOutside s refs) :=
  LinesOnly.foldl _ (fun _ _ => recallLine_lines ..) _ _

theorem LinesOnly.readShared {s u : State} (h : LinesOnly s u) (d : Nat) (b : ByteRef) : readShared u d b = readShared s d b := by
  have shared : Machine.sharedLoc u d = Machine.sharedLoc s d := funext fun loc => h.sameBytes.sharedLoc d loc
  have decoded (n i j : Nat) : decodeElem u (Machine.sharedLoc u d) n i j = decodeElem s (Machine.sharedLoc s d) n i j := by
    rw [shared, h.rest]
    rfl
  unfold Machine.readShared
  split
  · exact congrFun shared _
  · rw [decoded]
  · rfl

theorem outsideRead_reply (s : State) (refs : List ByteRef) :
    (outsideRead s refs).keeper.reply = refs.map (readShared (recalled s (underRefs s refs)) 4) :=
  List.map_congr_left fun b _ => (readOutside_lines s refs).readShared 4 b

theorem outsideRead_mem (s : State) (refs : List ByteRef) : (outsideRead s refs).mem = (recalled s (underRefs s refs)).mem :=
  (readOutside_lines s refs).mem

theorem outsideRead_agents (s : State) (refs : List ByteRef) : SameAgents s (outsideRead s refs) := by
  have back := (recalled_spec s (underRefs s refs)).1.sameAgents
  have lines := (readOutside_lines s refs).sameAgents
  exact ⟨lines.cur.trans back.cur, lines.threads.trans back.threads, lines.rets.trans back.rets⟩

theorem outsideRead_ctxs (s : State) (refs : List ByteRef) : (outsideRead s refs).ctxs = s.ctxs :=
  (readOutside_lines s refs).ctxs.trans (recallUo_ctxs ..)

theorem recallUo_peerHeld (s : State) (f : Nat → Bool) (locs : List Nat) : (recallUo s f locs).peerHeld = s.peerHeld := by
  have put (u : State) (l : List (Nat × Byte)) : (putBytes u l).peerHeld = u.peerHeld := by
    unfold putBytes
    dsimp only
    split
    · rfl
    · exact foldl_keeps (f := fun (s : State) (p : Nat × Byte) => unpoison s p.1) State.peerHeld
        (fun s p => by unfold unpoison; dsimp only; split <;> rfl) _ _
  unfold recallUo
  dsimp only
  split
  · rfl
  · exact put ..

theorem outsideRead_peerHeld (s : State) (refs : List ByteRef) : (outsideRead s refs).peerHeld = s.peerHeld := by
  have lines := (readOutside_lines s refs).rest
  have same : (readOutside s refs).peerHeld = (recalled s (underRefs s refs)).peerHeld := by rw [lines]
  exact same.trans (recallUo_peerHeld ..)

theorem nativePa_of {s u : State} (h : u.regions = s.regions) (loc : Nat) : nativePa u loc = nativePa s loc := by
  unfold nativePa
  rw [h]

/-- Of what is read from outside no die owns the line any more. -/
theorem outsideRead_owned {s : State} {refs : List ByteRef} {r : ByteRef} {loc n : Nat} (hr : r ∈ refs) (at_ : r.at_ = .byte loc)
    (here : offPart loc = false) (cached : inPools (nativePa s loc) = false) (line : nativePa s loc / 128 = n / 128) (d : Nat) :
    l2Owns (outsideRead s refs) d n = false := by
  have regions : (recalled s (underRefs s refs)).regions = s.regions := (recalled_spec s (underRefs s refs)).1.regions
  have under : loc ∈ underRefs (recalled s (underRefs s refs)) refs := List.mem_flatMap.mpr ⟨r, hr, by rw [at_]; exact List.mem_singleton_self loc⟩
  have clean : LineClean (readOutside s refs) (n / 128) := by
    refine recallLines_clean _ _ (.inl ?_)
    rw [linesOf, List.mem_dedup, List.mem_map]
    refine ⟨nativePa s loc, List.mem_filter.mpr ⟨?_, by simp [cached]⟩, line⟩
    rw [← nativePa_of regions]
    exact List.mem_map_of_mem (List.mem_filter.mpr ⟨under, by simp [here]⟩)
  exact clean.not_owned d

/-! ### Pages reported -/

/-- What reports of some pages leave in their context: the pages that stood there and those, each with its step owed (R122, R367). -/
structure Filed (s u : State) (c : Nat) (x : Ctx) (pages : List Nat) : Prop where
  ctx : ∃ y, ctx? u c = some y ∧ ∀ page, page ∈ y.reports ↔ page ∈ x.reports ∨ page ∈ pages
  mem : u.mem = s.mem
  owed : ∃ l, u.owed = s.owed ++ l ∧ ∀ page ∈ pages, page ∉ x.reports → ev .pageReport c page ∈ l

theorem fileReport_filed {s : State} {c page : Nat} {x : Ctx} (known : ctx? s c = some x) : Filed s (fileReport s c page) c x [page] := by
  unfold fileReport
  rw [known]
  dsimp only
  split
  · next stands =>
    have stands : page ∈ x.reports := by simpa using stands
    refine ⟨⟨x, known, fun q => ⟨.inl, ?_⟩⟩, rfl, [], (List.append_nil _).symm, fun q hq fresh => ?_⟩
    · rintro (h | h)
      · exact h
      · exact List.mem_singleton.mp h ▸ stands
    · exact absurd (List.mem_singleton.mp hq ▸ stands) fresh
  · refine ⟨⟨{ x with reports := x.reports ++ [page] }, ?_, fun q => by simp⟩, modCtx_mem .., [ev .pageReport c page], ?_, fun q hq _ => ?_⟩
    · change ctx? (modCtx s c _) c = _
      rw [ctx_modCtx, if_pos rfl, known]
      rfl
    · rw [owe_owed, modCtx_owed]
    · rw [List.mem_singleton.mp hq]
      exact List.mem_singleton_self _

theorem filed_nil {s : State} {c : Nat} {x : Ctx} (known : ctx? s c = some x) : Filed s s c x [] :=
  ⟨⟨x, known, fun _ => by simp⟩, rfl, [], (List.append_nil _).symm, fun _ h => absurd h List.not_mem_nil⟩

theorem fileReports_filed (c : Nat) : ∀ (pages : List Nat) {s : State} {x : Ctx}, ctx? s c = some x →
    Filed s (pages.foldl (fun s p => fileReport s c p) s) c x pages
  | [], _, _, known => filed_nil known
  | page :: rest, s, x, known => by
    obtain ⟨⟨y, filed, reports⟩, mem, l, owed, told⟩ := fileReport_filed (page := page) known
    obtain ⟨⟨z, filed', reports'⟩, mem', l', owed', told'⟩ := fileReports_filed c rest filed
    refine ⟨⟨z, filed', fun q => ?_⟩, mem'.trans mem, l ++ l', ?_, fun q hq fresh => ?_⟩
    · rw [reports', reports]
      simp [or_assoc]
    · rw [List.foldl_cons, owed', owed, List.append_assoc]
    · by_cases first : q ∈ [page]
      · exact List.mem_append_left _ (told q first fresh)
      · have later : q ∈ rest := (List.mem_cons.mp hq).resolve_left fun e => first (List.mem_singleton.mpr e)
        exact List.mem_append_right _ (told' q later fun h => ((reports q).mp h).elim fresh first)

/-- The pages that a host access meets absent. -/
def absentPages (l : List HostByte) : List Nat := (l.filterMap (fun x => match x with | .absent p => some p | _ => none)).dedup

theorem mem_absentPages {l : List HostByte} {page : Nat} : page ∈ absentPages l ↔ .absent page ∈ l := by
  rw [absentPages, List.mem_dedup, List.mem_filterMap]
  constructor
  · rintro ⟨x, hx, e⟩
    cases x <;> cases e
    exact hx
  · exact fun h => ⟨_, h, rfl⟩

theorem hostReports_filed {s : State} {c : Nat} {x : Ctx} (l : List HostByte) (known : ctx? s c = some x) :
    Filed s (hostReports s c l) c x (absentPages l) := fileReports_filed c _ known

/-! ### The host -/

/-- Whether a host access of a byte is refused, or meets an absent page. -/
def HostByte.lost : HostByte → Bool
  | .ok _ => false
  | _ => true

theorem HostByte.lost_iff (x : HostByte) : x.lost = true ↔ ∀ r, x ≠ .ok r := by
  cases x with
  | ok r => exact ⟨fun h => absurd h Bool.false_ne_true, fun h => absurd rfl (h r)⟩
  | absent p => exact ⟨fun _ _ => nofun, fun _ => rfl⟩
  | denied => exact ⟨fun _ _ => nofun, fun _ => rfl⟩

theorem anyLost_of {l : List HostByte} (h : ∃ x ∈ l, ∀ r, x ≠ .ok r) : l.any HostByte.lost = true := by
  obtain ⟨x, hx, bad⟩ := h
  exact List.any_eq_true.mpr ⟨x, hx, x.lost_iff.mpr bad⟩

theorem anyLost_ok (refs : List ByteRef) : (refs.map HostByte.ok).any HostByte.lost = false := by
  rw [List.any_map]
  exact List.any_eq_false.mpr fun _ _ => Bool.false_ne_true

/-- The bytes that the host's access reaches, with those it writes. -/
def hostOks (l : List HostByte) (bytes : List Byte) : List (ByteRef × Byte) :=
  (l.zip bytes).filterMap (fun p => match p.1 with | .ok r => some (r, p.2) | _ => none)

theorem hostOks_map (refs : List ByteRef) (bytes : List Byte) : hostOks (refs.map .ok) bytes = refs.zip bytes := by
  unfold hostOks
  rw [List.zip_map_left, List.filterMap_map]
  exact List.filterMap_some

section
variable {s : State}

theorem hostWrite_eq (live : ctx? s s.msg.a ≠ none) : exec .hostWrite s = .next (
    if ((span s.msg.b s.msg.bytes.length).map (hostByte s s.msg.a 1)).any HostByte.lost then
      hostReports (countErr (outsideWrite s (tenantOf s s.msg.a) 4
        (hostOks ((span s.msg.b s.msg.bytes.length).map (hostByte s s.msg.a 1)) s.msg.bytes)) s.msg.a 9) s.msg.a
        ((span s.msg.b s.msg.bytes.length).map (hostByte s s.msg.a 1))
    else outsideWrite s (tenantOf s s.msg.a) 4
      (hostOks ((span s.msg.b s.msg.bytes.length).map (hostByte s s.msg.a 1)) s.msg.bytes)) :=
  if_neg (by simpa using live)

theorem hostRead_bar (bar : s.msg.flag = true) : exec .hostRead s =
    .next (modKeeper s (fun k => { k with reply := barRead s s.msg.a s.msg.b s.msg.c s.msg.d })) := if_pos bar

variable (memory : s.msg.flag = false)
include memory

theorem hostRead_gone (gone : ctx? s s.msg.a = none) : exec .hostRead s = .next s :=
  (if_neg (Bool.eq_false_iff.mp memory)).trans (if_pos (by rw [gone]; rfl))

theorem hostRead_aborts (live : ctx? s s.msg.a ≠ none) (lost : ((span s.msg.b s.msg.c).map (hostByte s s.msg.a 0)).any HostByte.lost = true) :
    exec .hostRead s = .next (hostReports (countErr (modKeeper s (fun k => { k with aborts := k.aborts + 1 })) s.msg.a 9) s.msg.a
      ((span s.msg.b s.msg.c).map (hostByte s s.msg.a 0))) :=
  (if_neg (Bool.eq_false_iff.mp memory)).trans ((if_neg (by simpa using live)).trans (if_pos lost))

theorem hostRead_reads (live : ctx? s s.msg.a ≠ none) {refs : List ByteRef}
    (there : (span s.msg.b s.msg.c).map (hostByte s s.msg.a 0) = refs.map .ok) : exec .hostRead s = .next (outsideRead s refs) := by
  refine (if_neg (Bool.eq_false_iff.mp memory)).trans ((if_neg (by simpa using live)).trans ((if_neg ?_).trans ?_))
  · rw [there]
    exact Bool.eq_false_iff.mp (anyLost_ok refs)
  · rw [there, List.filterMap_map]
    exact congrArg (fun l => Host.Outcome.next (outsideRead s l)) List.filterMap_some

end

/-! ### Peers -/

/-- What the operator has exported to the peer that asks: the window that its message names (R352). -/
def peerWindow (s : State) : Option (Nat × Nat) :=
  (kfind s.keeper.peers s.msg.a).bind (fun p => if s.msg.b < 16 then p.windows[s.msg.b]? else none)

/-- The bytes of a peer's access from the base of its window. -/
def peerRefs (s : State) (base : Nat) : List ByteRef :=
  (span (base + s.msg.c) s.msg.bytes.length).map (fun pa => { cva := pa, pa := pa, kind := 0, at_ := place s pa })

/-- The tenant whose arrival log a peer's write enters. -/
def peerTenant (s : State) (refs : List ByteRef) : Nat :=
  match refs with
  | r :: _ => (match ownerOf s r.pa with | some c => tenantOf s c | none => 16)
  | [] => 16

section
variable {s : State}

theorem peerAccess_none (ask : peerWindow s = none) : exec .peerAccess s = .next s := by
  change execPeerAccess s = _
  unfold peerWindow at ask
  unfold execPeerAccess
  simp only [ask]

variable {base size : Nat} (ask : peerWindow s = some (base, size))
include ask

theorem peerAccess_beyond (beyond : size < s.msg.c + s.msg.bytes.length) : exec .peerAccess s = .next s := by
  change execPeerAccess s = _
  unfold peerWindow at ask
  unfold execPeerAccess
  simp only [ask]
  exact if_pos beyond

theorem peerAccess_bare (bare : ∃ r ∈ peerRefs s base, r.has = false) : exec .peerAccess s = .next s := by
  have bare : (peerRefs s base).any (fun r => !r.has) = true := List.any_eq_true.mpr (bare.imp fun r h => ⟨h.1, by rw [h.2]; rfl⟩)
  change execPeerAccess s = _
  unfold peerWindow at ask
  unfold execPeerAccess
  simp only [ask]
  split
  · rfl
  · exact if_pos bare

variable (inside : s.msg.c + s.msg.bytes.length ≤ size) (there : ∀ r ∈ peerRefs s base, r.has = true)
include inside there

/-- A peer's access within its window, of bytes that have places: it writes, or it reads where no mark holds its acquire. -/
theorem peerAccess_inside : exec .peerAccess s = .next (
    if s.msg.flag then outsideWrite s (peerTenant s (peerRefs s base)) 5 ((peerRefs s base).zip s.msg.bytes)
    else match (if s.msg.e = 1 then peerMiss s ((peerRefs s base).map (·.loc)) else none) with
      | some (g, m) => holdPeer s g m
      | none => outsideRead s (peerRefs s base)) := by
  have there : (peerRefs s base).any (fun r => !r.has) = false := List.any_eq_false.mpr fun r h => by rw [there r h]; decide
  unfold peerWindow at ask
  change execPeerAccess s = _
  unfold execPeerAccess
  simp only [ask]
  refine (if_neg (Nat.not_lt.mpr inside)).trans ((if_neg (Bool.eq_false_iff.mp there)).trans ?_)
  cases s.msg.flag with
  | true => rfl
  | false =>
    change (match (if s.msg.e = 1 then peerMiss s ((peerRefs s base).map (·.loc)) else none) with
      | some (g, m) => Host.Outcome.next (holdPeer s g m)
      | none => .next (outsideRead s (peerRefs s base))) = _
    split <;> rfl

end

/-- A granule on which a peer's acquire is held: a release left a mark there that is narrower than .w (R93). -/
def NarrowMark (s : State) (loc : Nat) : Prop := ∃ m, kfind s.marks (granule s loc) = some m ∧ m.scope < 6

theorem peerMiss_none {s : State} {locs : List Nat} (wide : ∀ loc ∈ locs, ¬NarrowMark s loc) : peerMiss s locs = none := by
  unfold peerMiss
  rw [List.findSome?_eq_none_iff]
  intro loc hl
  split
  · next m found => exact if_neg fun narrow => wide loc hl ⟨m, found, narrow⟩
  · rfl

theorem peerMiss_some {s : State} {locs : List Nat} {g : Nat} {m : Mark} (miss : peerMiss s locs = some (g, m)) :
    ∃ loc ∈ locs, NarrowMark s loc ∧ g = granule s loc := by
  obtain ⟨loc, hl, found⟩ := List.exists_of_findSome?_eq_some miss
  refine ⟨loc, hl, ?_⟩
  cases marked : kfind s.marks (granule s loc) with
  | none => rw [marked] at found; cases found
  | some mark =>
    rw [marked] at found
    by_cases narrow : mark.scope < 6
    · cases (if_pos narrow).symm.trans found
      exact ⟨⟨m, marked, narrow⟩, rfl⟩
    · cases (if_neg narrow).symm.trans found

theorem peerMiss_narrow {s : State} {locs : List Nat} (narrow : ∃ loc ∈ locs, NarrowMark s loc) : peerMiss s locs ≠ none := by
  obtain ⟨loc, hl, m, marked, small⟩ := narrow
  intro miss
  unfold peerMiss at miss
  rw [List.findSome?_eq_none_iff] at miss
  have := miss loc hl
  rw [marked] at this
  simp [small] at this

theorem sendMiss_rest (s : State) (g : Nat) (m : Mark) : ∃ cores router owed,
    sendMiss s g m = { s with cores := cores, router := router, owed := owed } := by
  unfold sendMiss
  dsimp only
  split <;> exact ⟨_, _, _, rfl⟩

/-- A peer's acquire that is held leaves all but the messages as it was. -/
theorem holdPeer_rest (s : State) (g : Nat) (m : Mark) : (holdPeer s g m).peerHeld = s.peerHeld ++ [(g, s.msg)] ∧
    (holdPeer s g m).keeper = s.keeper ∧ (holdPeer s g m).mem = s.mem := by
  unfold holdPeer
  dsimp only
  split
  · exact ⟨rfl, rfl, rfl⟩
  · obtain ⟨cores, router, owed, sent⟩ := sendMiss_rest { s with peerHeld := s.peerHeld ++ [(g, s.msg)] } g m
    rw [sent]
    exact ⟨rfl, rfl, rfl⟩

/-! ### The obligation -/

/-- Settles O58, by the writes and reads that an access from outside makes at the homes. -/
theorem outsideAccesses : Obligations.OutsideAccesses := by
  intro s
  refine ⟨?_, ?_, fun tn kind l => ?_, fun c l x known => ?_⟩
  · refine ⟨fun gone => ⟨if_pos (by rw [gone]; rfl), fun memory => hostRead_gone memory gone⟩, hostRead_bar, fun live => ⟨⟨fun refs there => ?_, fun lost => ?_⟩,
      fun refs memory there => ?_, fun memory lost => hostRead_aborts memory live (anyLost_of lost)⟩⟩
    · rw [hostWrite_eq live, there, anyLost_ok, hostOks_map]
      rfl
    · rw [hostWrite_eq live, anyLost_of lost]
      rfl
    · exact ⟨_, hostRead_reads memory live there, outsideRead_reply .., outsideRead_mem .., (outsideRead_agents s refs).threads,
        outsideRead_ctxs .., fun d n ⟨r, hr, loc, at_, here, cached, line⟩ => outsideRead_owned hr at_ here cached line d⟩
  · refine ⟨peerAccess_none, fun base size ask => peerAccess_beyond ask, fun base size ask => peerAccess_bare ask,
      fun base size ask inside there => ?_⟩
    have run := peerAccess_inside ask inside there
    refine ⟨fun write => ⟨_, run.trans (congrArg _ (if_pos write))⟩, fun read => ?_⟩
    replace run := run.trans (congrArg _ (if_neg (Bool.eq_false_iff.mp read)))
    refine ⟨fun free => ?_, fun acquires narrow => ?_⟩
    · have miss : (if s.msg.e = 1 then peerMiss s ((peerRefs s base).map (·.loc)) else none) = none := by
        split
        · next acquires =>
          refine peerMiss_none fun loc hl => ?_
          obtain ⟨r, hr, rfl⟩ := List.mem_map.mp hl
          exact free.resolve_left (fun other => other acquires) r hr
        · rfl
      rw [miss] at run
      exact ⟨_, run, outsideRead_reply .., outsideRead_mem .., outsideRead_peerHeld ..⟩
    · obtain ⟨r, hr, marked⟩ := narrow
      rw [if_pos acquires] at run
      cases miss : peerMiss s ((peerRefs s base).map (·.loc)) with
      | none => exact absurd miss (peerMiss_narrow ⟨r.loc, List.mem_map_of_mem hr, marked⟩)
      | some p =>
        obtain ⟨g, m⟩ := p
        rw [miss] at run
        obtain ⟨loc, hl, held, rfl⟩ := peerMiss_some miss
        obtain ⟨q, hq, rfl⟩ := List.mem_map.mp hl
        obtain ⟨waits, keeper, mem⟩ := holdPeer_rest s (granule s q.loc) m
        exact ⟨_, run, ⟨q, hq, held, waits⟩, keeper, mem⟩
  · have landed := outsideWrite_atHomes s tn kind l
    exact ⟨landed.homes, landed.stores, landed.given, fun loc none_ home => (landed.kept loc none_ home).1⟩
  · obtain ⟨⟨y, filed, reports⟩, mem, more, owed, told⟩ := hostReports_filed l known
    refine ⟨y, filed, mem, fun page => ?_, fun page absent fresh => ?_⟩
    · rw [reports, mem_absentPages]
    · rw [owed]
      exact List.mem_append_right _ (told page (mem_absentPages.mpr absent) fresh)

end Sys2Proof.Machine
end

section
/-! SUPPORT. Exactly what dies give up of the writes that they hold for themselves (R91, R97, R272), and what a performed store leaves at
its homes and in the queues of its die (R272, R274). -/

namespace Sys2Proof.Machine

/-! ### What dies give up -/

/-- The bytes that the dies which `f` picks hold for themselves in the granules of some locations, in the order in which they come home. -/
def givenUp (s : State) (f : Nat → Bool) (locs : List Nat) : List (Nat × Byte) :=
  ((s.dies.map (·.1)).dedup.filter f).flatMap (fun d =>
    (die s d).uoq.flatMap (fun w => w.locs.filter (fun q => sharesGranule s locs q.1 && !offPart q.1)))

/-- A die that has given up what it held of some granules, where `f` picks it. -/
def givesUp (s : State) (f : Nat → Bool) (locs : List Nat) (d : Nat) (x : Die) : Die :=
  if f d then { x with uoq := x.uoq.map (fun w => { w with
    locs := w.locs.filter (fun q => !(sharesGranule s locs q.1 && !offPart q.1)) }) } else x

theorem unpoison_rest (s : State) (loc : Nat) : ∃ poison, unpoison s loc = { s with poison := poison } := by
  unfold unpoison
  dsimp only
  split <;> exact ⟨_, rfl⟩

theorem putBytes_rest (s : State) (l : List (Nat × Byte)) :
    ∃ poison, putBytes s l = { s with mem := s.mem.setAll l, poison := poison } := by
  have each (l : List (Nat × Byte)) (u : State) : ∃ poison, l.foldl (fun s p => unpoison s p.1) u = { u with poison := poison } := by
    induction l generalizing u with
    | nil => exact ⟨_, rfl⟩
    | cons p r ih =>
      obtain ⟨_, first⟩ := unpoison_rest u p.1
      obtain ⟨_, rest⟩ := ih (unpoison u p.1)
      rw [List.foldl_cons, rest, first]
      exact ⟨_, rfl⟩
  unfold putBytes
  dsimp only
  split
  · exact ⟨_, rfl⟩
  · exact each l _

/-- A recall puts what is given up into memory, and takes it from the dies. -/
theorem recallUo_rest (s : State) (f : Nat → Bool) (locs : List Nat) : ∃ poison, recallUo s f locs = { s with
    mem := s.mem.setAll (givenUp s f locs)
    dies := if (givenUp s f locs).isEmpty then s.dies else s.dies.map (fun p => (p.1, givesUp s f locs p.1 p.2))
    poison := poison } := by
  have run : recallUo s f locs = if (givenUp s f locs).isEmpty then s
      else putBytes { s with dies := s.dies.map (fun p => (p.1, givesUp s f locs p.1 p.2)) } (givenUp s f locs) := rfl
  rw [run]
  by_cases none_ : (givenUp s f locs).isEmpty = true
  · simp only [none_, if_true]
    rw [List.isEmpty_iff.mp none_]
    exact ⟨_, rfl⟩
  · simp only [none_]
    exact putBytes_rest _ _

theorem recallUo_mem (s : State) (f : Nat → Bool) (locs : List Nat) : (recallUo s f locs).mem = s.mem.setAll (givenUp s f locs) := by
  obtain ⟨_, run⟩ := recallUo_rest s f locs
  rw [run]

theorem recallUo_dies (s : State) (f : Nat → Bool) (locs : List Nat) : (recallUo s f locs).dies =
    if (givenUp s f locs).isEmpty then s.dies else s.dies.map (fun p => (p.1, givesUp s f locs p.1 p.2)) := by
  obtain ⟨_, run⟩ := recallUo_rest s f locs
  rw [run]

/-! ### A store performed -/

section
variable (s : State) (p : PStore)

/-- The bytes of a store with a home in the package, and those of host or peer memory. -/
def PStore.here : List (Nat × Byte) := p.locs.filter (fun q => !offPart q.1)
def PStore.away : List (Nat × Byte) := p.locs.filter (fun q => offPart q.1)

/-- The state in which a performed store's bytes have reached their homes, before the others enter the queues of its die. -/
def storeLanded : State :=
  ownLines (landBytes (logStore s p (p.here.map (·.1))) p.here) p.agent p.copy (p.here.map (·.1)) p.cva p.hint p.view

theorem storeLanded_puts : PutHome s (storeLanded s p) p.here :=
  ((landBytes_puts _ _).before (logStore_written ..)).after (ownLines_written ..)

theorem performStore_enqueued : Written (enqueue (storeLanded s p) p p.away) (performStore s p) [] := by
  unfold performStore
  dsimp only
  split
  · split
    · exact putCovers_written ..
    · exact (putCovers_written ..).trans (releaseMark_written ..)
  · exact putCovers_written ..

theorem performStore_uoqRead (d loc : Nat) : uoqRead (performStore s p) d loc = uoqRead (storeLanded s p) d loc := by
  obtain ⟨-, -, -, uoq, -⟩ := enqueue_spec (storeLanded s p) p p.away
  rw [(performStore_enqueued s p).uoq_off d List.not_mem_nil, uoqRead_of (uoq d)]

theorem performStore_memory : (performStore s p).mem = (storeLanded s p).mem := by
  obtain ⟨-, -, mem, -⟩ := enqueue_spec (storeLanded s p) p p.away
  rw [(performStore_enqueued s p).mem, mem]
  rfl

/-- A performed store's bytes have reached their homes (R272). -/
theorem performStore_atHomes : AtHomes s (performStore s p) p.here := by
  have landed := (storeLanded_puts s p).atHomes
  obtain ⟨homes, stores, -⟩ := enqueue_spec (storeLanded s p) p p.away
  have rest := performStore_enqueued s p
  refine ⟨landed.homes.trans (homes.trans rest.homes), rest.stores.trans (stores.trans landed.stores), fun loc b last => ?_,
    fun loc none_ home => ?_, fun d loc => ?_⟩
  · obtain ⟨mem, gone⟩ := landed.given loc b last
    exact ⟨by rw [performStore_memory, mem], fun here d => by rw [performStore_uoqRead, gone here d]⟩
  · obtain ⟨mem, held⟩ := landed.kept loc none_ home
    exact ⟨by rw [performStore_memory, mem], fun d => by rw [performStore_uoqRead, held d]⟩
  · rw [performStore_uoqRead]
    exact landed.ahead d loc

/-- The bytes of a store that enter a queue of its die, as one write, where there are any. -/
def PStore.tail (peer : Bool) : List (List (Nat × Byte)) :=
  match p.locs.filter (fun q => offPart q.1 && (q.1 / 2 ^ 40 % 64 != 0) == peer) with | [] => [] | l => [l]

theorem withEntry_locs (u : State) (peer : Bool) (q : List QWrite) :
    (withEntry u p p.away peer q).map (·.locs) = q.map (·.locs) ++ p.tail peer := by
  have side : p.away.filter (fun w => (w.1 / 2 ^ 40 % 64 != 0) == peer) =
      p.locs.filter (fun q => offPart q.1 && (q.1 / 2 ^ 40 % 64 != 0) == peer) := by
    rw [PStore.away, List.filter_filter]
    simp only [Bool.and_comm]
  unfold withEntry PStore.tail
  rw [side]
  cases p.locs.filter (fun q => offPart q.1 && (q.1 / 2 ^ 40 % 64 != 0) == peer) with
  | nil => exact (List.append_nil _).symm
  | cons x r => exact List.map_append

/-- What a performed store has added to the queues of its die; the queues of other dies are as they were (R274). -/
theorem performStore_queues :
    (die (performStore s p) (dieOfCore (agentCore p.agent))).hostq.map (·.locs) =
        (die s (dieOfCore (agentCore p.agent))).hostq.map (·.locs) ++ p.tail false ∧
      (die (performStore s p) (dieOfCore (agentCore p.agent))).peerq.map (·.locs) =
        (die s (dieOfCore (agentCore p.agent))).peerq.map (·.locs) ++ p.tail true ∧
      ∀ k, k ≠ dieOfCore (agentCore p.agent) →
        (die (performStore s p) k).hostq = (die s k).hostq ∧ (die (performStore s p) k).peerq = (die s k).peerq := by
  obtain ⟨_, -, landed⟩ := (storeLanded_puts s p).wrote
  obtain ⟨-, -, -, -, others, hostq, peerq⟩ := enqueue_spec (storeLanded s p) p p.away
  have rest := performStore_enqueued s p
  refine ⟨?_, ?_, fun k other => ⟨?_, ?_⟩⟩
  · rw [rest.hostq, hostq, withEntry_locs, landed.hostq]
  · rw [rest.peerq, peerq, withEntry_locs, landed.peerq]
  · rw [rest.hostq, others k other, landed.hostq]
  · rw [rest.peerq, others k other, landed.peerq]

end

/-- What everyone reads of a location of the package is what a die holds of it for itself, or memory. -/
theorem sharedLoc_here {s : State} {loc : Nat} (here : offPart loc = false) (d : Nat) :
    sharedLoc s d loc = (uoqRead s d loc).getD (s.mem.get loc) := by
  rw [sharedLoc_eq, here]
  rfl

/-- A location that holds a byte given it is read so by everyone. -/
theorem AtHomes.shared {s u : State} {l : List (Nat × Byte)} (h : AtHomes s u l) {loc : Nat} {b : Byte}
    (given : lastWrite l loc = some b) (here : offPart loc = false) (d : Nat) : sharedLoc u d loc = b := by
  obtain ⟨mem, gone⟩ := h.given loc b given
  rw [sharedLoc_here here, gone here d, mem]
  rfl

/-- Of the bytes of a store that have a home in the package, each lies there. -/
theorem PStore.here_offPart {p : PStore} {loc : Nat} {b : Byte} (last : lastWrite p.here loc = some b) : offPart loc = false := by
  obtain ⟨q, hq, rfl⟩ := List.mem_map.mp (lastWrite_mem last)
  simpa using (List.mem_filter.mp hq).2

/-! ### What bytes depend on -/

theorem underRefs_of {s u : State} (h : u.regions = s.regions) (l : List ByteRef) : underRefs u l = underRefs s l := by
  have places (p : Place) : p.under u = p.under s := by
    unfold Place.under scaleLocs
    rw [h]
  unfold underRefs
  simp only [places]

theorem nonNative_of {s u : State} (h : u.regions = s.regions) (pa : Nat) : nonNative u pa = nonNative s pa := by
  unfold nonNative
  rw [h]

end Sys2Proof.Machine
end

section
/-! RESULT. Responses that reach an agent later (O54). -/

namespace Sys2Proof.Machine

/-! ### What bytes depend on -/

theorem acqLocs_of {s u : State} (h : u.regions = s.regions) (l : List ByteRef) : acqLocs u l = acqLocs s l := underRefs_of h _

theorem noteReads_rest (s : State) (a : Agent) (locs : List Nat) : ∃ dies, noteReads s a locs = { s with dies := dies } := by
  unfold noteReads
  dsimp only
  split <;> exact ⟨_, rfl⟩

/-! ### Responses -/

/-- What a response does to its agent's word, given what it makes of the state in which that agent's word is looked at. -/
theorem respond_of {s v : State} {a : Agent} {f : State → State} (h : f { s with cur := a } = v) : respond s a f = respond s a (fun _ => v) := by
  subst h
  rfl

section
variable {s : State} {acq : Bool} {refs : List ByteRef} {fin : State → List Byte → State}

/-- Bytes that nothing holds, with what their reading leaves (R85, R93, R282). -/
theorem readBytes_reads (free : (if acq then missOf s s.cur (acqLocs s refs) else none) = none)
    (clean : (underRefs s refs).any (poisoned s) = false) : readBytes s acq refs fin =
      fin (if acq then joinOps (noteReads (served s refs) s.cur (underRefs s refs)) s.cur (coversAt s (acqLocs s refs))
        else noteReads (served s refs) s.cur (underRefs s refs)) (bytesOf (served s refs) refs) := by
  have agents := served_agents s refs
  have regions : (served s refs).regions = s.regions := (served_homes s refs).regions
  have covers : coversAt (served s refs) (acqLocs s refs) = coversAt s (acqLocs s refs) := coversAt_recalled ..
  obtain ⟨dies, noted⟩ := noteReads_rest (served s refs) (served s refs).cur (underRefs s refs)
  have joined : coversAt (noteReads (served s refs) (served s refs).cur (underRefs s refs))
      (acqLocs (noteReads (served s refs) (served s refs).cur (underRefs s refs)) refs) = coversAt s (acqLocs s refs) := by
    rw [noted, acqLocs_of (s := s) (by exact regions)]
    exact covers
  have cur : (noteReads (served s refs) (served s refs).cur (underRefs s refs)).cur = s.cur := by
    rw [noted]
    exact agents.cur
  unfold readBytes
  dsimp only
  rw [free]
  dsimp only
  rw [if_neg (Bool.eq_false_iff.mp clean), joined, cur, agents.cur]
  unfold bytesOf
  rw [agents.cur]

variable (s) in
/-- What becomes of a load's bytes as they arrive. -/
theorem loadArrives_spec (sg cva : Nat) (pas : List Nat) (acq : Bool) (fin : State → List Byte → State) :
    let refs := latchedRefs s (myCtx s) cva (if acq then 1 else 2) pas
    let gone := refs.find? (fun r => r.pa / 2 ^ 46 == 1 && !r.has)
    let miss := if acq then missOf s s.cur (acqLocs s refs) else none
    (∀ r, gone = some r → loadArrives s sg cva pas acq fin = takeTrap s 2 (segvInfo 3 sg 0) (BitVec.ofNat 64 r.cva)) ∧
    (gone = none → ∀ g m, miss = some (g, m) → Held s (loadArrives s sg cva pas acq fin) g m) ∧
    (gone = none → miss = none → (underRefs s refs).any (poisoned s) = true → loadArrives s sg cva pas acq fin = takeTrap s 5 0 0) ∧
    (gone = none → miss = none → (underRefs s refs).any (poisoned s) = false → loadArrives s sg cva pas acq fin =
      fin (if acq then joinOps (noteReads (served s refs) s.cur (underRefs s refs)) s.cur (coversAt s (acqLocs s refs))
        else noteReads (served s refs) s.cur (underRefs s refs)) (bytesOf (served s refs) refs)) := by
  intro refs gone miss
  have there (free : gone = none) : loadArrives s sg cva pas acq fin = readBytes s acq refs fin := by
    unfold loadArrives
    change (match gone with | some r => takeTrap s 2 (segvInfo 3 sg 0) (BitVec.ofNat 64 r.cva) | none => readBytes s acq refs fin) = _
    rw [free]
  refine ⟨fun r lost => ?_, fun free g m held => ?_, fun free unmarked bad => ?_, fun free unmarked clean => ?_⟩
  · unfold loadArrives
    change (match gone with | some r => takeTrap s 2 (segvInfo 3 sg 0) (BitVec.ofNat 64 r.cva) | none => readBytes s acq refs fin) = _
    rw [lost]
  · have acquires : acq = true := by
      by_contra plain
      exact absurd ((if_neg plain).symm.trans held) (by simp)
    rw [there free, readBytes_held acquires ((if_pos acquires).symm.trans held)]
    exact holdAcquire_held s g m
  · rw [there free]
    exact readBytes_poisoned (fun acquires => (if_pos acquires).symm.trans unmarked) bad
  · rw [there free]
    exact readBytes_reads unmarked clean

end

section
variable {s : State} (there : hasAgent s s.msg.agent = true)
include there

theorem loadResponse_load {d : Reg} {sg cva : Nat} {pas : List Nat} {sext acq : Bool}
    (waits : condOf s s.msg.agent = .awaiting (.load d sg cva pas sext acq)) :
    exec .loadResponse s = .next (respond s s.msg.agent (fun s => loadArrives s sg cva pas acq (loadDone d sext))) := by
  change execLoadResponse s = _
  unfold execLoadResponse
  simp only [there, waits, Bool.not_true, Bool.false_eq_true, if_false]

theorem loadResponse_segld {g : BitVec 3} {sg cva : Nat} {off : Word} {pas : List Nat}
    (waits : condOf s s.msg.agent = .awaiting (.segld g sg off cva pas)) :
    exec .loadResponse s = .next (respond s s.msg.agent (fun s => loadArrives s sg cva pas false (segldDone g sg off))) := by
  change execLoadResponse s = _
  unfold execLoadResponse
  simp only [there, waits, Bool.not_true, Bool.false_eq_true, if_false]

end

/-! ### Atomics and matrix words -/

section
variable {s : State} (there : hasAgent s s.msg.agent = true)
include there

theorem atomicResponse_atomic {d : Reg} {v old : Word} {cas wide : Bool} {tval time : Nat} {join : List Nat}
    (waits : condOf s s.msg.agent = .awaiting (.atomic d v old cas wide tval time join)) :
    exec .atomicResponse s = .next (respond s s.msg.agent (fun u => if s.msg.flag = true then
        takeTrap (logOutcome u s.msg.agent (byteRef u (myCtx u) tval).loc tval cas false wide time old) 6 0 (BitVec.ofNat 64 tval)
      else advance (setReg (joinOps u u.cur join) d v))) := by
  change execAtomicResponse s = _
  unfold execAtomicResponse
  simp only [there, waits, Bool.not_true, Bool.false_eq_true, if_false]

section
variable {vd fmt : Nat} {olds : List (Nat × Nat × BitVec 32)} {time : Nat}
  (waits : condOf s s.msg.agent = .awaiting (.vamo vd fmt olds time))
include waits

theorem atomicResponse_vamo (none_ : lostElems olds s.msg.nats = []) :
    exec .atomicResponse s = .next (respond s s.msg.agent (vamoDone vd fmt olds)) := by
  change execAtomicResponse s = _
  unfold execAtomicResponse
  simp only [there, waits, none_, Bool.not_true, Bool.false_eq_true, if_false]

/-- A vector atomic that has lost responses: each is logged, and the lowest takes ATOMLOST (R209). -/
theorem atomicResponse_vamo_lost {cva : Nat} {v : BitVec 32} {rest : List (Nat × BitVec 32)}
    (lost : lostElems olds s.msg.nats = (cva, v) :: rest) :
    exec .atomicResponse s = .next (respond s s.msg.agent (fun u =>
      takeTrap (((cva, v) :: rest).foldl (fun (u : State) (p : Nat × BitVec 32) =>
        logOutcome u s.msg.agent (byteRef u (myCtx u) p.1).loc p.1 false true false time (p.2.signExtend 64)) u) 6 0
          (BitVec.ofNat 64 cva))) := by
  change execAtomicResponse s = _
  unfold execAtomicResponse
  simp only [there, waits, lost, Bool.not_true, Bool.false_eq_true, if_false]

end

end

theorem lostElems_none {olds : List (Nat × Nat × BitVec 32)} {lost : List Nat} (none_ : ∀ p ∈ olds, p.1 ∉ lost) : lostElems olds lost = [] := by
  unfold lostElems
  rw [List.map_eq_nil_iff, List.filter_eq_nil_iff]
  intro p hp inside
  exact none_ p hp (List.contains_iff_mem.mp inside)

section
variable {s : State} {t : Nat} {w : MatWord} {rest : List MatWord} (queue : (thr s t).mqueue = w :: rest)
include queue

/-- A matrix word of a gang that is owed lanes waits for them (R239). -/
theorem completeMat_owed (live : (thr s t).dead = false) (lost : (thr s t).lost ≠ []) (bound : frozenCtx s (thr s t).ctx = false) :
    completeMat s t = owe s [ev .matrixWordComplete t] := by
  have owed : (thr s t).lost.isEmpty = false := List.isEmpty_eq_false_iff.mpr lost
  unfold completeMat
  rw [queue]
  dsimp only
  simp only [live, bound, owed, Bool.and_false, Bool.or_self, Bool.false_eq_true, if_false, Bool.not_false, Bool.and_self, if_true]

/-- A matrix word of a gang whose state is lost commits nothing (R132, R189). -/
theorem completeMat_dead (dead : (thr s t).dead = true) :
    completeMat s t = modThr s t (fun x => { x with mqueue := rest, cond := if w.long then .waiting else x.cond }) := by
  unfold completeMat
  rw [queue]
  dsimp only
  simp only [dead, Bool.true_or, if_true]

end

/-! ### Writes that stay within their die, and leave it -/

theorem logAgent_dies (s : State) (a : Agent) (kind loc cva n : Nat) : (logAgent s a kind loc cva n).dies = s.dies := by
  unfold logAgent logArrival
  simp only
  split <;> rfl

theorem logStore_dies (s : State) (p : PStore) (locs : List Nat) : (logStore s p locs).dies = s.dies := by
  have each (l : List (Nat × Nat × Nat)) (u : State) :
      (l.foldl (fun s r => logAgent s p.agent 0 r.1 r.2.1 r.2.2) u).dies = u.dies := by
    induction l generalizing u with
    | nil => rfl
    | cons x r ih => rw [List.foldl_cons, ih, logAgent_dies]
  unfold logStore
  split
  · rfl
  · split
    · exact logAgent_dies ..
    · split
      · rfl
      · exact each _ _

theorem putCovers_dies (s : State) (locs ops : List Nat) (seq : Bool) : (putCovers s locs ops seq).dies = s.dies := by
  unfold putCovers
  split <;> rfl

/-- A store that stays within its die waits there, with what other dies held of its granules come home first (R91, R97). -/
theorem performInDie_spec (s : State) (l : List PStore) (p : PStore) (own : p.copy = false) :
    let u := performInDie { s with stores := l } p
    let d := dieOfCore (agentCore p.agent)
    let r := recallUo s (· != d) (p.locs.map (·.1))
    ∃ w : QWrite, u.mem = r.mem ∧ u.stores = l ∧ (die u d).uoq = (die r d).uoq ++ [w] ∧ w.locs = p.locs ∧ w.writer = some p.agent ∧
      (∀ k, k ≠ d → (die u k).uoq = (die r k).uoq) ∧ (.storeAcknowledged, { Msg.empty with a := d, flag := true }) ∈ u.owed := by
  intro u d r
  let q := recallUo { s with stores := l } (· != d) (p.locs.map (·.1))
  let v := ownLines (logStore q p (p.locs.map (·.1))) p.agent false (p.locs.map (·.1)) p.cva p.hint false
  let t := putCovers v (p.locs.map (·.1)) [] false
  let w : QWrite := { p.entry v p.locs with agents := [] }
  have lines : LinesOnly (logStore q p (p.locs.map (·.1))) v := ownLines_lines ..
  have wrote : Written q t [] := ((logStore_written ..).trans lines.written).trans (putCovers_written ..)
  have mem : q.mem = r.mem := (recallUo_mem ..).trans (recallUo_mem s ..).symm
  have dies : q.dies = r.dies := (recallUo_dies ..).trans (recallUo_dies s ..).symm
  have stores : q.stores = l := by
    obtain ⟨_, rest⟩ := recallUo_rest { s with stores := l } (· != d) (p.locs.map (·.1))
    rw [show q = _ from rest]
  have held (k : Nat) : (die t k).uoq = (die r k).uoq := by
    have same : (die t k).uoq = (die v k).uoq := by
      unfold die
      rw [putCovers_dies]
    have logged : (die (logStore q p (p.locs.map (·.1))) k).uoq = (die r k).uoq := by
      unfold die
      rw [logStore_dies, dies]
    rw [same, lines.dies k, ← logged]
  have run : u = owe (modDie t d (fun x => { x with uoq := x.uoq ++ [w] }))
      [(.storeAcknowledged, { Msg.empty with a := d, flag := true })] := rfl
  have waits (k : Nat) : die u k = if k = d then { die t d with uoq := (die t d).uoq ++ [w] } else die t k := by
    rw [run]
    exact die_modDie t d k (fun x => { x with uoq := x.uoq ++ [w] })
  refine ⟨w, ?_, ?_, ?_, rfl, if_neg (by rw [own]; exact Bool.false_ne_true),
    fun k other => ?_, ?_⟩
  · rw [run]
    exact wrote.mem.trans mem
  · rw [run, owe_stores, modDie_stores, wrote.stores, stores]
  · rw [waits, if_pos rfl, ← held d]
  · rw [waits, if_neg other, held k]
  · rw [run]
    exact List.mem_append_right _ (List.mem_singleton.mpr rfl)

theorem staysInDie_own {p : PStore} (stays : staysInDie p = true) : p.copy = false := by
  unfold staysInDie at stays
  simp only [Bool.and_eq_true, Bool.not_eq_true'] at stays
  obtain ⟨⟨⟨-, own⟩, -⟩, -⟩ := stays
  simpa using own

/-! ### Stores acknowledged -/

section
variable {s : State} {i : Nat} {p : PStore} (plain : s.msg.flag = false) (kth : kthStore s s.msg.agent s.msg.a = some i)

include plain kth in
theorem storeAcknowledged_waits (held : mayPerform s i = false) : exec .storeAcknowledged s =
    .next (owe s [(.storeAcknowledged, { Msg.empty with agent := s.msg.agent, a := s.msg.a })]) := by
  change execStoreAcknowledged s = _
  unfold execStoreAcknowledged
  simp only [plain, kth, held, Bool.false_eq_true, if_false, Bool.not_false, if_true]

include plain kth in
theorem storeAcknowledged_performs (found : s.stores[i]? = some p) (may : mayPerform s i = true) :
    exec .storeAcknowledged s = .next (if s.msg.b = 1 ∧ staysInDie p = true then
      performInDie { s with stores := s.stores.eraseIdx i } p else performAt s i) := by
  change execStoreAcknowledged s = _
  unfold execStoreAcknowledged
  simp only [plain, kth, may, found, Bool.false_eq_true, if_false, Bool.not_true, Bool.and_eq_true, decide_eq_true_eq]
  split <;> rfl

/-- A store performed at its homes, its bytes for host and peer memory at the tail of its die's queues (R272, R274). -/
theorem performAt_atHomes (found : s.stores[i]? = some p) :
    let u := performAt s i
    let d := dieOfCore (agentCore p.agent)
    u.stores = s.stores.eraseIdx i ∧ (∀ loc b, lastWrite p.here loc = some b → u.mem.get loc = b ∧ ∀ k, sharedLoc u k loc = b) ∧
      (∀ loc, lastWrite p.here loc = none → ¬BroughtHome s (p.here.map (·.1)) loc → u.mem.get loc = s.mem.get loc) ∧
      (die u d).hostq.map (·.locs) = (die s d).hostq.map (·.locs) ++ p.tail false ∧
      (die u d).peerq.map (·.locs) = (die s d).peerq.map (·.locs) ++ p.tail true ∧
      ∀ k, k ≠ d → (die u k).hostq = (die s k).hostq ∧ (die u k).peerq = (die s k).peerq := by
  intro u d
  have run : u = performStore { s with stores := s.stores.eraseIdx i } p := by
    change performAt s i = _
    unfold performAt
    rw [found]
  rw [run]
  have homes := performStore_atHomes { s with stores := s.stores.eraseIdx i } p
  exact ⟨homes.stores, fun loc b last => ⟨(homes.given loc b last).1, homes.shared last (PStore.here_offPart last)⟩,
    fun loc none_ home => (homes.kept loc none_ home).1, performStore_queues ..⟩

end

section
variable {s : State} {w : QWrite} (leaves : s.msg.flag = true) (found : (die s s.msg.a).uoq[s.msg.b]? = some w)
include leaves found

theorem storeAcknowledged_queued : exec .storeAcknowledged s = .next (if mayLeave s s.msg.a s.msg.b = true then leaveDie s s.msg.a s.msg.b
    else owe s [(.storeAcknowledged, { Msg.empty with a := s.msg.a, flag := true })]) := by
  have some_ : (die s s.msg.a).uoq.isEmpty = false := by
    cases queue : (die s s.msg.a).uoq with
    | nil => rw [queue] at found; cases found
    | cons => rfl
  change execStoreAcknowledged s = _
  unfold execStoreAcknowledged
  simp only [leaves, some_, if_true, Bool.false_eq_true, if_false]
  split <;> rfl

omit leaves in
/-- A write that leaves its die: its bytes reach memory, and its die holds them no more (R91). -/
theorem leaveDie_spec : let u := leaveDie s s.msg.a s.msg.b
    u.mem = s.mem.setAll w.locs ∧ (die u s.msg.a).uoq = (die s s.msg.a).uoq.eraseIdx s.msg.b ∧
      u = { s with mem := u.mem, dies := u.dies, poison := u.poison } := by
  intro u
  let t := modDie s s.msg.a (fun x => { x with uoq := x.uoq.eraseIdx s.msg.b })
  have run : u = putBytes t w.locs := by
    change leaveDie s s.msg.a s.msg.b = _
    unfold leaveDie
    rw [found]
  obtain ⟨_, put⟩ := putBytes_rest t w.locs
  rw [run, put]
  refine ⟨rfl, ?_, rfl⟩
  change (die t s.msg.a).uoq = _
  rw [die_modDie, if_pos rfl]

end

section
variable {s : State} {sg cva : Nat} {pas : List Nat} {acq : Bool} {fin : State → List Byte → State}

/-- What a load's response does to its agent. -/
theorem loadResponse_arrives
    (run : exec .loadResponse s = .next (respond s s.msg.agent (fun u => loadArrives u sg cva pas acq fin))) :
    let a := s.msg.agent
    let sa : State := { s with cur := a }
    let refs := latchedRefs sa (myCtx sa) cva (if acq then 1 else 2) pas
    let gone := refs.find? (fun r => r.pa / 2 ^ 46 == 1 && !r.has)
    let miss := if acq then missOf sa a (acqLocs sa refs) else none
    let locs := underRefs sa refs
    let b := served sa refs
    (∀ r, gone = some r →
      exec .loadResponse s = .next (respond s a (takeTrap · 2 (segvInfo 3 sg 0) (BitVec.ofNat 64 r.cva)))) ∧
    (gone = none → ∀ g m, miss = some (g, m) → ∃ t, Held sa t g m ∧ exec .loadResponse s = .next (respond s a (fun _ => t))) ∧
    (gone = none → miss = none → locs.any (poisoned sa) = true → exec .loadResponse s = .next (respond s a (takeTrap · 5 0 0))) ∧
    (gone = none → miss = none → locs.any (poisoned sa) = false → exec .loadResponse s = .next (respond s a (fun _ =>
      fin (if acq then joinOps (noteReads b a locs) a (coversAt sa (acqLocs sa refs)) else noteReads b a locs) (bytesOf b refs)))) := by
  intro a sa refs gone miss locs b
  obtain ⟨lost, held, poison, read⟩ := loadArrives_spec sa sg cva pas acq fin
  refine ⟨fun r none_ => ?_, fun there g m missed => ⟨_, held there g m missed, run.trans (congrArg Host.Outcome.next (respond_of rfl))⟩,
    fun there free bad => ?_, fun there free clean => ?_⟩
  · rw [run, respond_of (lost r none_)]
    rfl
  · rw [run, respond_of (poison there free bad)]
    rfl
  · rw [run, respond_of (read there free clean)]

end

/-- Settles O54, by the response of each word, and by what each performed write leaves at its homes and in its queues. -/
theorem responses : Obligations.Responses := by
  intro s a as sa arrives
  refine ⟨fun there => ⟨fun d sg cva pas sext acq waits => loadResponse_arrives (loadResponse_load there waits),
      fun g sg off cva pas waits => loadResponse_arrives (acq := false) (loadResponse_segld there waits),
      fun d v old cas wide tval time join waits => ⟨fun kept => ?_, fun lost => ?_⟩,
      fun vd fmt olds time waits => ⟨fun none_ => ?_, fun cva v rest lost => ?_⟩⟩,
    fun l rest queue => ?_, fun there => ⟨if_pos there, fun w rest queue => ⟨fun live owed bound => ?_, fun dead => ?_⟩⟩,
    fun lo n waits => ⟨fun frozen => ?_, fun free => ⟨fun bound done_ => ?_, fun busy => ?_⟩⟩,
    fun i p plain kth found => ⟨storeAcknowledged_waits plain kth, fun may away => ⟨?_, performAt_atHomes found⟩, fun may b stays => ?_⟩,
    fun w leaves found => ⟨fun may => ⟨_, ?_, leaveDie_spec found⟩, fun held => ?_⟩, fun w rest queue => ?_⟩
  · rw [atomicResponse_atomic there waits]
    simp only [kept, Bool.false_eq_true, if_false]
    rfl
  · rw [atomicResponse_atomic there waits]
    simp only [lost, if_true]
    rfl
  · exact atomicResponse_vamo there waits (lostElems_none none_)
  · exact atomicResponse_vamo_lost there waits lost
  · change execVectorLoadArrival s = _
    unfold execVectorLoadArrival
    dsimp only
    rw [queue]
  · exact (if_pos there).trans (congrArg Host.Outcome.next (respond_of (completeMat_owed (s := { s with cur := .thread s.msg.a }) queue live owed bound)))
  · exact (if_pos there).trans (congrArg Host.Outcome.next (respond_of (completeMat_dead (s := { s with cur := .thread s.msg.a }) queue dead)))
  · change execPginvComplete s = _
    unfold execPginvComplete
    simp only [waits, frozen, if_true]
  · change execPginvComplete s = _
    unfold execPginvComplete
    simp only [waits, free, bound, done_, Bool.not_true, Bool.or_self, Bool.false_eq_true, if_false]
    rfl
  · have wait : (!boundHere s s.msg.a || pginvBusy s (thr s s.msg.a).ctx lo n) = true := by
      rcases busy with away | busy
      · rw [away]; rfl
      · rw [busy, Bool.or_true]
    change execPginvComplete s = _
    unfold execPginvComplete
    simp only [waits, free, wait, Bool.false_eq_true, if_false, if_true]
  · rw [storeAcknowledged_performs plain kth found may, if_neg away]
  · obtain ⟨w, waits⟩ := performInDie_spec s (s.stores.eraseIdx i) p (staysInDie_own stays)
    exact ⟨_, w, (storeAcknowledged_performs plain kth found may).trans (by rw [if_pos ⟨b, stays⟩]), waits⟩
  · rw [storeAcknowledged_queued leaves found, if_pos may]
  · rw [storeAcknowledged_queued leaves found, held]
    rfl
  · change execHostWriteQueueDrain s = _
    unfold execHostWriteQueueDrain
    dsimp only
    rw [queue]
    dsimp only
    split
    · rfl
    · rw [countErr_mem]
      rfl

end Sys2Proof.Machine
end

section
/-! SUPPORT. An engine that reads through caches or puts cells into its array changes only what caches and arrays hold, and what dies
give up of the writes that they hold for themselves does not depend on either (R97, R105, R272, R281). -/

namespace Sys2Proof.Machine

/-! ### Keys of the dies -/

theorem dedup_filter {α : Type} [DecidableEq α] (p : α → Bool) (l : List α) : (l.filter p).dedup = l.dedup.filter p := by
  induction l with
  | nil => rfl
  | cons x r ih =>
    by_cases inside : x ∈ r
    · rw [List.dedup_cons_of_mem inside, ← ih, List.filter_cons]
      split
      · next picked => exact List.dedup_cons_of_mem (List.mem_filter.mpr ⟨inside, picked⟩)
      · rfl
    · have off : x ∉ r.filter p := fun h => inside (List.mem_filter.mp h).1
      rw [List.dedup_cons_of_notMem inside, List.filter_cons, List.filter_cons]
      split
      · rw [List.dedup_cons_of_notMem off, ih]
      · exact ih

/-- A list of keys that has gained keys, the others as they were. -/
def KeysGrow (l m : List Nat) : Prop := (m.filter (l.contains ·)).dedup = l.dedup

theorem KeysGrow.refl (l : List Nat) : KeysGrow l l := by
  unfold KeysGrow
  rw [List.filter_eq_self.mpr fun x hx => List.contains_iff_mem.mpr hx]

theorem KeysGrow.subset {l m : List Nat} (h : KeysGrow l m) {x : Nat} (hx : x ∈ l) : x ∈ m := by
  have := List.mem_dedup.mpr hx
  rw [← show (m.filter (l.contains ·)).dedup = l.dedup from h, List.mem_dedup, List.mem_filter] at this
  exact this.1

theorem KeysGrow.trans {l m n : List Nat} (h : KeysGrow l m) (k : KeysGrow m n) : KeysGrow l n := by
  have nested : n.filter (l.contains ·) = (n.filter (m.contains ·)).filter (l.contains ·) := by
    rw [List.filter_filter]
    refine List.filter_congr fun x _ => ?_
    by_cases hx : x ∈ l
    · rw [List.contains_iff_mem.mpr hx, List.contains_iff_mem.mpr (h.subset hx)]
      rfl
    · rw [Bool.eq_false_iff.mpr (mt List.contains_iff_mem.mp hx)]
      rfl
  unfold KeysGrow at *
  rw [nested, dedup_filter, k, ← dedup_filter, h]

theorem KeysGrow.insert {a b : List Nat} {k : Nat} (fresh : k ∉ a) : KeysGrow (a ++ b) (a ++ k :: b) := by
  have kept (c : List Nat) (h : ∀ x ∈ c, x ∈ a ++ b) : c.filter ((a ++ b).contains ·) = c :=
    List.filter_eq_self.mpr fun x hx => List.contains_iff_mem.mpr (h x hx)
  have left := kept a fun x hx => List.mem_append_left _ hx
  have right := kept b fun x hx => List.mem_append_right _ hx
  unfold KeysGrow
  rw [List.filter_append, List.filter_cons, left, right]
  by_cases inside : k ∈ b
  · rw [if_pos (List.contains_iff_mem.mpr (List.mem_append_right _ inside)), List.dedup_append, List.dedup_append,
      List.dedup_cons_of_mem inside]
  · rw [if_neg (mt List.contains_iff_mem.mp (by simp [fresh, inside]))]

theorem kset_keys {α : Type} (k : Nat) (v : α) : ∀ m : KMap α, (kset m k v).map (·.1) = m.map (·.1) ∨
    ∃ a b, m.map (·.1) = a ++ b ∧ (kset m k v).map (·.1) = a ++ k :: b ∧ k ∉ a
  | [] => .inr ⟨[], [], rfl, rfl, List.not_mem_nil⟩
  | (i, w) :: r => by
    unfold kset
    split
    · exact .inr ⟨[], _, rfl, rfl, List.not_mem_nil⟩
    · split
      · next e => exact .inl (by rw [e]; rfl)
      · next other =>
        rcases kset_keys k v r with same | ⟨a, b, old, new, fresh⟩
        · exact .inl (by rw [List.map_cons, List.map_cons, same])
        · exact .inr ⟨i :: a, b, by rw [List.map_cons, old]; rfl, by rw [List.map_cons, new]; rfl,
            List.not_mem_cons_of_ne_of_not_mem other fresh⟩

theorem kset_grows {α : Type} (m : KMap α) (k : Nat) (v : α) : KeysGrow (m.map (·.1)) ((kset m k v).map (·.1)) := by
  rcases kset_keys k v m with same | ⟨a, b, old, new, fresh⟩
  · rw [same]
    exact .refl _
  · rw [old, new]
    exact .insert fresh

theorem kfind_off {α : Type} {k : Nat} : ∀ {m : KMap α}, k ∉ m.map (·.1) → kfind m k = none
  | [], _ => rfl
  | (i, v) :: r, h => by
    unfold kfind
    rw [if_neg (fun same : i = k => h (same ▸ List.mem_cons_self)), kfind_off (fun inside => h (List.mem_cons_of_mem _ inside))]

/-! ### States alike for engines -/

/-- Two states differ at most in the lines that caches hold, in the sampling arrays, and in dies about which nothing is recorded. -/
structure Alike (s t : State) : Prop where
  rest : t = { s with local1 := t.local1, dies := t.dies, llc := t.llc }
  dies : ∀ k, die t k = { die s k with l2 := (die t k).l2, sa := (die t k).sa }
  keys : KeysGrow (s.dies.map (·.1)) (t.dies.map (·.1))

section
variable {s t u : State}

theorem Alike.refl (s : State) : Alike s s := ⟨rfl, fun _ => rfl, .refl _⟩

theorem Alike.trans (h : Alike s t) (k : Alike t u) : Alike s u :=
  ⟨by rw [k.rest, h.rest], fun d => by rw [k.dies d, h.dies d], h.keys.trans k.keys⟩

theorem Alike.uoq (h : Alike s t) (d : Nat) : (die t d).uoq = (die s d).uoq := by rw [h.dies d]

theorem Alike.sameBytes (h : Alike s t) : SameBytes s t :=
  ⟨by rw [h.rest], by rw [h.rest], fun d => by rw [h.dies d], fun d => by rw [h.dies d], fun d => by rw [h.dies d]⟩

theorem Alike.sharedLoc (h : Alike s t) (d : Nat) : sharedLoc t d = sharedLoc s d := funext fun loc => h.sameBytes.sharedLoc d loc

theorem Alike.readShared (h : Alike s t) (d : Nat) (b : ByteRef) : readShared t d b = readShared s d b := by
  have decoded (n i j : Nat) : decodeElem t (Machine.sharedLoc t d) n i j = decodeElem s (Machine.sharedLoc s d) n i j := by
    rw [h.sharedLoc, h.rest]
    rfl
  unfold Machine.readShared
  split
  · rw [h.sharedLoc]
  · rw [decoded]
  · rfl

theorem Alike.byteRef (h : Alike s t) (c cva : Nat) : byteRef t c cva = byteRef s c cva := by
  rw [h.rest]
  rfl

theorem Alike.nonNative (h : Alike s t) (pa : Nat) : nonNative t pa = nonNative s pa := by
  rw [h.rest]
  rfl

theorem Alike.underRefs (h : Alike s t) (l : List ByteRef) : underRefs t l = underRefs s l := by
  rw [h.rest]
  rfl

theorem Alike.sharesGranule (h : Alike s t) (locs : List Nat) (loc : Nat) : sharesGranule t locs loc = sharesGranule s locs loc := by
  rw [h.rest]
  rfl

theorem modDie_alike (s : State) (d : Nat) (f : Die → Die) (keeps : ∀ x, f x = { x with l2 := (f x).l2, sa := (f x).sa }) :
    Alike s (modDie s d f) :=
  ⟨rfl, fun k => by
    rw [die_modDie]
    split
    · next e => rw [e]; exact keeps _
    · rfl, kset_grows ..⟩

theorem modSa_alike (s : State) (d : Nat) (f : SArray → SArray) : Alike s (modSa s d f) := modDie_alike s d _ fun _ => rfl

theorem LinesOnly.alike (h : LinesOnly s t) (keys : KeysGrow (s.dies.map (·.1)) (t.dies.map (·.1))) : Alike s t :=
  ⟨h.rest, fun d => by rw [h.dies d], keys⟩

theorem Alike.foldl {α : Type} (f : State → α → State) (h : ∀ s x, Alike s (f s x)) : ∀ (l : List α) (s : State), Alike s (l.foldl f s)
  | [], s => .refl s
  | x :: r, s => (h s x).trans (Alike.foldl f h r (f s x))

theorem cleanL2_alike (s : State) (f : Nat → Bool) (n : Nat) : Alike s (cleanL2 s f n) :=
  (cleanL2_lines s f n).alike (by
    unfold cleanL2
    rw [List.map_map]
    exact .refl _)

theorem recallLine_alike (s : State) (pa : Nat) : Alike s (recallLine s pa) :=
  (cleanL2_alike s _ _).trans ((llcTouch_lines ..).alike (.refl _))

theorem l2Access_alike (s : State) (d : Nat) (tag : Option RetReg) (pa : Nat) (h : Hint) (b : Bool) : Alike s (l2Access s d tag pa h b) := by
  have home : Alike s (llcTouch (cleanL2 s (· != d) (pa / 128)) pa h) := (cleanL2_alike s _ _).trans ((llcTouch_lines ..).alike (.refl _))
  unfold l2Access
  simp only
  split
  · exact modDie_alike _ _ _ fun _ => rfl
  · split
    · exact home
    · have filled (l : List Way) := home.trans (modDie_alike _ d (fun y => { y with l2 := kset y.l2 (l2Set pa) l }) fun _ => rfl)
      split
      · exact (filled _).trans ((dropLocal_lines ..).alike (.refl _))
      · exact filled _

/-- An engine's reads change only the lines that caches hold (R281). -/
theorem touchEngine_alike (s : State) (d : Nat) (refs : List ByteRef) : Alike s (touchEngine s d refs) :=
  (Alike.foldl _ (fun _ _ => l2Access_alike ..) _ _).trans (Alike.foldl _ (fun _ _ => recallLine_alike ..) _ _)

/-! ### What comes home -/

theorem die_off {d : Nat} (off : d ∉ s.dies.map (·.1)) : die s d = Die.reset := by
  unfold die kget
  rw [kfind_off off]
  rfl

theorem Alike.givenUp (h : Alike s t) (f : Nat → Bool) (locs : List Nat) : givenUp t f locs = givenUp s f locs := by
  let g (d : Nat) : List (Nat × Byte) := (die s d).uoq.flatMap (fun w => w.locs.filter (fun q => Machine.sharesGranule s locs q.1 && !offPart q.1))
  have fresh (l : List Nat) : l.flatMap g = (l.filter ((s.dies.map (·.1)).contains ·)).flatMap g := by
    induction l with
    | nil => rfl
    | cons d r ih =>
      rw [List.filter_cons, List.flatMap_cons, ih]
      split
      · exact List.flatMap_cons.symm
      · next off =>
        have none_ : g d = [] := by
          change (die s d).uoq.flatMap _ = []
          rw [die_off (mt List.contains_iff_mem.mpr off)]
          rfl
        rw [none_]
        rfl
  have same : Machine.givenUp t f locs = ((t.dies.map (·.1)).dedup.filter f).flatMap g := by
    unfold Machine.givenUp
    refine congrArg (List.flatMap · _) (funext fun d => ?_)
    rw [h.uoq d]
    simp only [h.sharesGranule]
    rfl
  rw [same, fresh, ← dedup_filter, ← dedup_filter, List.filter_filter]
  simp only [Bool.and_comm]
  rw [← List.filter_filter, dedup_filter, h.keys]
  rfl

theorem die_recallUo (s : State) (f : Nat → Bool) (locs : List Nat) (d : Nat) : die (recallUo s f locs) d =
    if (givenUp s f locs).isEmpty then die s d else givesUp s f locs d (die s d) := by
  unfold die
  rw [recallUo_dies]
  split
  · rfl
  · exact die_mapDies s (givesUp s f locs) d (by unfold givesUp; split <;> rfl)

theorem recallUo_keys (s : State) (f : Nat → Bool) (locs : List Nat) : (recallUo s f locs).dies.map (·.1) = s.dies.map (·.1) := by
  rw [recallUo_dies]
  split
  · rfl
  · rw [List.map_map]
    rfl

/-- What a write makes of memory and its poison marks does not depend on what caches and dies hold. -/
theorem putBytes_of (s : State) (x : KMap (List Way)) (y : KMap Die) (z : KMap (List Nat)) (l : List (Nat × Byte)) :
    putBytes { s with local1 := x, dies := y, llc := z } l = { putBytes s l with local1 := x, dies := y, llc := z } := by
  have marks (l : List (Nat × Byte)) (u : State) : l.foldl (fun s p => unpoison s p.1) { u with local1 := x, dies := y, llc := z } =
      { l.foldl (fun s p => unpoison s p.1) u with local1 := x, dies := y, llc := z } := by
    induction l generalizing u with
    | nil => rfl
    | cons p r ih =>
      have first : unpoison { u with local1 := x, dies := y, llc := z } p.1 = { unpoison u p.1 with local1 := x, dies := y, llc := z } := by
        have same : granule { u with local1 := x, dies := y, llc := z } p.1 = granule u p.1 := rfl
        unfold unpoison
        dsimp only
        rw [same]
        cases kfind u.poison (granule u p.1) <;> rfl
      rw [List.foldl_cons, List.foldl_cons, first, ih]
  unfold putBytes
  dsimp only
  split
  · rfl
  · exact marks l { s with mem := s.mem.setAll l }

theorem Alike.givesUp (h : Alike s t) (f : Nat → Bool) (locs : List Nat) (d : Nat) (x : Die) : givesUp t f locs d x = givesUp s f locs d x := by
  rw [h.rest]
  rfl

/-- What a die gives up depends on nothing of it but the writes that it holds for itself. -/
theorem givesUp_of (s : State) (f : Nat → Bool) (locs : List Nat) (d : Nat) (x : Die) (l : KMap (List Way)) (a : SArray) :
    givesUp s f locs d { x with l2 := l, sa := a } = { givesUp s f locs d x with l2 := l, sa := a } := by
  unfold Machine.givesUp
  split <;> rfl

theorem Alike.recallUo (h : Alike s t) (f : Nat → Bool) (locs : List Nat) : Alike (recallUo s f locs) (recallUo t f locs) := by
  have same := h.givenUp f locs
  have run (u : State) : Machine.recallUo u f locs = if (Machine.givenUp u f locs).isEmpty then u
      else putBytes { u with dies := u.dies.map (fun p => (p.1, Machine.givesUp u f locs p.1 p.2)) } (Machine.givenUp u f locs) := rfl
  refine ⟨?_, fun d => ?_, ?_⟩
  · rw [run s, run t, same]
    split
    · exact h.rest
    · have put := putBytes_of { s with dies := s.dies.map (fun p => (p.1, Machine.givesUp s f locs p.1 p.2)) } t.local1
        (t.dies.map (fun p => (p.1, Machine.givesUp t f locs p.1 p.2))) t.llc (Machine.givenUp s f locs)
      have start : ({ t with dies := t.dies.map (fun p => (p.1, Machine.givesUp t f locs p.1 p.2)) } : State) =
          { s with local1 := t.local1, dies := t.dies.map (fun p => (p.1, Machine.givesUp t f locs p.1 p.2)), llc := t.llc } := by
        generalize t.dies.map (fun p => (p.1, Machine.givesUp t f locs p.1 p.2)) = y
        rw [h.rest]
      rw [start, put]
  · rw [die_recallUo, die_recallUo, same]
    split
    · exact h.dies d
    · rw [h.givesUp, h.dies d, givesUp_of]
  · rw [recallUo_keys, recallUo_keys]
    exact h.keys

theorem Alike.served (h : Alike s t) (refs : List ByteRef) : Alike (served s refs) (served t refs) := by
  unfold Machine.served
  simp only [h.nonNative, h.underRefs]
  exact h.recallUo ..

end

end Sys2Proof.Machine
end

section
/-! RESULT. The steps by which an array runs its queue (O49). -/

namespace Sys2Proof.Machine

/-! ### The queue -/

/-- The command at the head of what is left of a queue is owed its step (R329). -/
def headOwed (u : State) (d : Nat) (rest : List SaCmd) : State :=
  match rest with
  | [] => u
  | c :: _ => owe u [(c.event, { Msg.empty with a := d, flag := true })]

section
variable (s : State) (d : Nat)

theorem modSa_const (f : SArray → SArray) : modSa s d f = modSa s d (fun _ => f (die s d).sa) := rfl

theorem modSa_modSa (f g : SArray → SArray) : modSa (modSa s d f) d g = modSa s d (fun x => g (f x)) := by
  have at_d : die (modSa s d f) d = { die s d with sa := f (die s d).sa } := by
    rw [die_modSa, if_pos rfl]
  rw [modSa, modDie, at_d]
  unfold modSa modDie
  rw [kset_kset]

theorem modSa_headOwed (rest : List SaCmd) (f : SArray → SArray) : modSa (headOwed s d rest) d f = headOwed (modSa s d f) d rest := by
  cases rest <;> rfl

theorem oweHead_modSa (f : SArray → SArray) : oweHead (modSa s d f) d = headOwed (modSa s d f) d (f (die s d).sa).queue := by
  have at_d : (die (modSa s d f) d).sa = f (die s d).sa := by
    rw [die_modSa, if_pos rfl]
  exact congrArg (fun a => headOwed (modSa s d f) d a.queue) at_d

variable {s d}

/-- The command at the head of the queue gone, its array as the step that follows makes it. -/
theorem popCmd_modSa {c : SaCmd} {rest : List SaCmd} (queue : (die s d).sa.queue = c :: rest) (f : SArray → SArray) :
    modSa (popCmd s d) d f = headOwed (modSa s d (fun _ => f { (die s d).sa with queue := rest })) d rest := by
  have left : (die s d).sa.queue.drop 1 = rest := by rw [queue]; rfl
  unfold popCmd
  rw [oweHead_modSa, modSa_headOwed, modSa_modSa, left, modSa_const, left]

theorem popCmd_eq {c : SaCmd} {rest : List SaCmd} (queue : (die s d).sa.queue = c :: rest) :
    popCmd s d = headOwed (modSa s d (fun _ => { (die s d).sa with queue := rest })) d rest := by
  have left : (die s d).sa.queue.drop 1 = rest := by rw [queue]; rfl
  unfold popCmd
  rw [oweHead_modSa, left, modSa_const, left]

end

/-! ### Sweeps -/

theorem sweepCells_queue (a0 : SArray) : ∀ (l : List (Nat × Cell)) (a : SArray) (n : Nat), (sweepCells a0 n l a).1.queue = a.queue
  | [], _, _ => rfl
  | (i, c) :: r, a, n => by
    unfold sweepCells
    dsimp only
    rw [sweepCells_queue a0 r]
    rfl

theorem sweepColours_queue : ∀ (l : List Nat) (a : SArray) (n : Nat), (sweepColours l a n).1.queue = a.queue
  | [], _, _ => rfl
  | k :: r, a, n => by
    unfold sweepColours
    dsimp only
    rw [sweepColours_queue r, sweepCells_queue]

/-! ### Cells loaded -/

theorem SArray.cell_put (a : SArray) (i j : Nat) (c : Cell) : (a.put i c).cell j = if j = i then c else a.cell j := kget_kset ..

theorem SArray.cell_of {a b : SArray} (seed : b.seed = a.seed) (cells : b.cells = a.cells) (i : Nat) : b.cell i = a.cell i := by
  unfold SArray.cell
  rw [seed, cells]

section
variable {s t : State} (h : Alike s t)
include h

theorem Alike.saByte (d c : Nat) (v : Bool) (cva : Nat) : saByte t d c v cva = saByte s d c v cva := by
  have page : xlate t c cva = xlate s c cva := by rw [h.rest]; rfl
  have denies (x : Xlate) : denied t 0 x = denied s 0 x := by rw [h.rest]; rfl
  have marked (b : ByteRef) : (b.at_.under t).any (poisoned t) = (b.at_.under s).any (poisoned s) := by rw [h.rest]; rfl
  unfold Machine.saByte
  simp only [page, denies, marked, h.byteRef, h.readShared]

theorem Alike.saBytes (d c : Nat) (v : Bool) (lo n : Nat) : saBytes t d c v lo n = saBytes s d c v lo n := by
  have bytes : Machine.saByte t d c v = Machine.saByte s d c v := funext (h.saByte d c v)
  unfold Machine.saBytes
  rw [bytes]

theorem Alike.cellRefs (d c : Nat) (g : Seg) (roff toff : Nat) : cellRefs t d c g roff toff = cellRefs s d c g roff toff := by
  have byte : Machine.byteRef t c = Machine.byteRef s c := funext (h.byteRef c)
  have read : Machine.readShared t d = Machine.readShared s d := funext (h.readShared d)
  unfold Machine.cellRefs
  rw [byte, read]

theorem Alike.cellServed (d c : Nat) (g : Seg) (roff toff : Nat) : Alike (cellServed s d c g roff toff) (cellServed t d c g roff toff) := by
  have once := h.served (Machine.cellRefs s d c g roff toff)
  unfold Machine.cellServed
  dsimp only
  rw [h.cellRefs, once.cellRefs]
  exact once.served _

theorem Alike.loadCell {d i : Nat} (cell : (die t d).sa.cell i = (die s d).sa.cell i) (roff toff nent : Nat) (g : Seg) (c : Nat) :
    loadCell t d i roff toff nent g c = loadCell s d i roff toff nent g c := by
  unfold Machine.loadCell
  simp only [h.saBytes, cell]

end

theorem cellServed_sa (s : State) (d c : Nat) (g : Seg) (roff toff k : Nat) : (die (cellServed s d c g roff toff) k).sa = (die s k).sa :=
  (served_sa ..).trans (served_sa ..)

theorem cellsServed_sa (s : State) (d c : Nat) (g : Seg) (roff toff k : Nat) : ∀ n, (die (cellsServed s d c g roff toff n) k).sa = (die s k).sa
  | 0 => rfl
  | n + 1 => (cellServed_sa ..).trans (cellsServed_sa s d c g roff toff k n)

section
variable (s : State) (d c : Nat) (g : Seg) (first roff toff nent : Nat)

/-- Cell `j` of a load, as it is read once what it needs has come home (R105, R325). -/
def nextCell (j : Nat) : Except SaByte Cell :=
  loadCell (cellsServed s d c g roff toff (j + 1)) d (first + j) (roff + 8 * j) toff nent g c

/-- The cells of an array once the first `n` of a load have entered it. -/
def LoadedCells (n : Nat) (b : SArray) : Prop := ∀ i, b.cell i =
  if first ≤ i ∧ i < first + n then (match nextCell s d c g first roff toff nent (i - first) with | .ok x => x | .error _ => (die s d).sa.cell i)
  else (die s d).sa.cell i

/-- A load under way: `n` cells have entered the array, and nothing but caches has changed beside what has come home. -/
structure Loading (n : Nat) (home t : State) : Prop where
  alike : Alike home t
  others : ∀ k, k ≠ d → (die t k).sa = (die s k).sa
  array : (die t d).sa = { (die s d).sa with cells := (die t d).sa.cells }
  cells : LoadedCells s d c g first roff toff nent n (die t d).sa

variable {s d c g first roff toff nent}

theorem loading_start : Loading s d c g first roff toff nent 0 s s :=
  ⟨.refl s, fun _ _ => rfl, rfl, fun i => (if_neg (by omega)).symm⟩

section
variable {n : Nat} {home t : State} (h : Loading s d c g first roff toff nent n home t)
include h

/-- What the next cell needs comes home. -/
theorem Loading.served (off : Nat) :
    Loading s d c g first roff toff nent n (cellServed home d c g off toff) (cellServed t d c g off toff) := by
  have same (k : Nat) := cellServed_sa t d c g off toff k
  exact ⟨h.alike.cellServed .., fun k other => (same k).trans (h.others k other), by rw [same]; exact h.array, by rw [same]; exact h.cells⟩

theorem Loading.cell_next : (die t d).sa.cell (first + n) = (die s d).sa.cell (first + n) :=
  (h.cells _).trans (if_neg (by omega))

/-- A cell read enters the array. -/
theorem Loading.put {x : Cell} (read : nextCell s d c g first roff toff nent n = .ok x) (refs : List ByteRef) :
    Loading s d c g first roff toff nent (n + 1) home (modSa (touchEngine t d refs) d (·.put (first + n) x)) := by
  have lines := touchEngine_lines t d refs
  have same (k : Nat) : (die (touchEngine t d refs) k).sa = (die t k).sa := by rw [lines.dies k]
  have at_d : (die (modSa (touchEngine t d refs) d (·.put (first + n) x)) d).sa = (die t d).sa.put (first + n) x := by
    rw [die_modSa, if_pos rfl, ← same d]
  refine ⟨(h.alike.trans (touchEngine_alike ..)).trans (modSa_alike ..), fun k other => ?_, ?_, ?_⟩
  · rw [die_modSa, if_neg other, same, h.others k other]
  · rw [at_d, h.array]
    rfl
  · intro i
    rw [at_d, SArray.cell_put, h.cells i]
    by_cases here : i = first + n
    · subst here
      rw [if_pos rfl, if_pos ⟨Nat.le_add_right .., by omega⟩, Nat.add_sub_cancel_left, read]
    · rw [if_neg here]
      by_cases inside : first ≤ i ∧ i < first + n
      · rw [if_pos inside, if_pos ⟨inside.1, by omega⟩]
      · rw [if_neg inside, if_neg (by omega)]

/-- Whatever the step then makes of the array, the rest of the state differs from what came home in caches alone. -/
theorem Loading.caches (arrays : ∀ k, (die home k).sa = (die s k).sa) : ∃ u, CachesOnly home u ∧
    ∀ f, modSa t d f = modSa u d (fun _ => f (die t d).sa) := by
  refine ⟨modSa t d (fun _ => (die home d).sa), ⟨?_, fun k => ?_⟩, fun f => ?_⟩
  · exact (h.alike.trans (modSa_alike ..)).rest
  · have alike := (h.alike.trans (modSa_alike t d (fun _ => (die home d).sa))).dies k
    have array : (die (modSa t d (fun _ => (die home d).sa)) k).sa = (die home k).sa := by
      rw [die_modSa]
      split
      · next e => rw [e]
      · next other => rw [h.others k other, arrays]
    rw [alike]
    exact ⟨rfl, array, rfl, rfl, rfl⟩
  · rw [modSa_modSa]
    rfl

end

/-- The next cell of a load is read as it is once what it needs has come home. -/
theorem Loading.reads {n : Nat} {t : State} (h : Loading s d c g first roff toff nent n (cellsServed s d c g roff toff n) t) :
    loadCell (cellServed t d c g (roff + 8 * n) toff) d (first + n) (roff + 8 * n) toff nent g c =
      nextCell s d c g first roff toff nent n :=
  (h.served (roff + 8 * n)).alike.loadCell ((h.served (roff + 8 * n)).cell_next.trans (by rw [cellServed_sa, cellsServed_sa])) ..

theorem loadCells_all : ∀ (n m : Nat) (t : State), Loading s d c g first roff toff nent m (cellsServed s d c g roff toff m) t →
    (∀ j, m ≤ j → j < m + n → ∃ x, nextCell s d c g first roff toff nent j = .ok x) →
    ∃ u, loadCells d g c toff nent n (first + m) (roff + 8 * m) t = (u, none) ∧
      Loading s d c g first roff toff nent (m + n) (cellsServed s d c g roff toff (m + n)) u
  | 0, m, t, h, _ => ⟨t, rfl, h⟩
  | n + 1, m, t, h, ok => by
    obtain ⟨x, read⟩ := ok m (Nat.le_refl m) (by omega)
    obtain ⟨u, run, loading⟩ := loadCells_all n (m + 1) _ ((h.served (roff + 8 * m)).put read _) (fun j lo hi => ok j (by omega) (by omega))
    refine ⟨u, ?_, by rw [show m + (n + 1) = m + 1 + n by omega]; exact loading⟩
    unfold loadCells
    simp only [h.reads, read]
    exact run

theorem loadCells_stops {k : Nat} {e : SaByte} (stop : nextCell s d c g first roff toff nent k = .error e) :
    ∀ (n m : Nat) (t : State), Loading s d c g first roff toff nent m (cellsServed s d c g roff toff m) t →
    m ≤ k → k < m + n → (∀ j, m ≤ j → j < k → ∃ x, nextCell s d c g first roff toff nent j = .ok x) →
    ∃ u, loadCells d g c toff nent n (first + m) (roff + 8 * m) t = (u, some (e, first + k, roff + 8 * k)) ∧
      Loading s d c g first roff toff nent k (cellsServed s d c g roff toff (k + 1)) u
  | 0, m, t, _, lo, hi, _ => absurd hi (by omega)
  | n + 1, m, t, h, lo, hi, ok => by
    by_cases here : m = k
    · subst here
      refine ⟨_, ?_, h.served (roff + 8 * m)⟩
      unfold loadCells
      simp only [h.reads, stop]
    · obtain ⟨x, read⟩ := ok m (Nat.le_refl m) (by omega)
      obtain ⟨u, run, loading⟩ := loadCells_stops stop n (m + 1) _ ((h.served (roff + 8 * m)).put read _) (by omega) (by omega)
        (fun j lo hi => ok j (by omega) hi)
      refine ⟨u, ?_, loading⟩
      unfold loadCells
      simp only [h.reads, read]
      exact run

end

/-! ### The steps -/

section
variable {s : State} {rest : List SaCmd}

/-- While a fault stands, each command is discarded (R330). -/
theorem exec_discards {c : SaCmd} (queue : (die s s.msg.a).sa.queue = c :: rest) (fault : (die s s.msg.a).sa.fault = true) :
    exec c.event s = .next (popCmd s s.msg.a) := by
  cases c with
  | load =>
    change execSaloadRun s = _
    unfold execSaloadRun
    simp only [queue, fault, if_true]
  | seed =>
    change execSaseedRun s = _
    unfold execSaseedRun
    simp only [queue, fault, if_true]
  | beta =>
    change execSabetaRun s = _
    unfold execSabetaRun
    simp only [queue, fault, if_true]
  | sweep =>
    change execSweep s = _
    unfold execSweep
    simp only [queue, fault, Bool.true_or, if_true]

theorem entropyOk_popCmd (s : State) (d : Nat) : entropyOk (popCmd s d) d = entropyOk s d := by
  unfold popCmd oweHead
  split <;> rfl

variable (sound : (die s s.msg.a).sa.fault = false)
include sound

theorem exec_beta {b : BitVec 16} (queue : (die s s.msg.a).sa.queue = .beta b :: rest) :
    exec .sabetaRun s = .next (headOwed (modSa s s.msg.a (fun _ => { (die s s.msg.a).sa with queue := rest, beta := b })) s.msg.a rest) := by
  have run : exec .sabetaRun s = .next (modSa (popCmd s s.msg.a) s.msg.a (fun a => { a with beta := b })) := by
    change execSabetaRun s = _
    unfold execSabetaRun
    simp only [queue, sound, Bool.false_eq_true, if_false]
  rw [run, popCmd_modSa queue]

/-- The generators seeded, and the source of entropy tested (R322, R329). -/
theorem exec_seed {g : BitVec 16} {phys : Bool} (queue : (die s s.msg.a).sa.queue = .seed g phys :: rest) :
    let a := (die s s.msg.a).sa
    let b : SArray := { a with queue := rest, seed := g, cells := a.cells.map (fun p => (p.1, { p.2 with gen := genOf g p.1 })) }
    exec .saseedRun s = .next (headOwed (modSa s s.msg.a (fun _ => if phys = true ∧ entropyOk s s.msg.a = false then
        { b with mode := false, fault := true, fkind := 9, fcell := 0, faddr := 0 } else { b with mode := phys })) s.msg.a rest) := by
  intro a b
  have run : exec .saseedRun s = .next (modSa (popCmd s s.msg.a) s.msg.a (fun x =>
      let x := { x with seed := g, mode := phys, cells := x.cells.map (fun p => (p.1, { p.2 with gen := genOf g p.1 })) }
      if phys && !entropyOk (popCmd s s.msg.a) s.msg.a then { x.fail 9 0 0 with mode := false } else x)) := by
    change execSaseedRun s = _
    unfold execSaseedRun
    simp only [queue, sound, Bool.false_eq_true, if_false]
  rw [run, popCmd_modSa queue, entropyOk_popCmd]
  simp only [Bool.and_eq_true, Bool.not_eq_true']
  rfl

section
variable {n k : Nat} (queue : (die s s.msg.a).sa.queue = .sweep n k :: rest)
include queue

omit sound in
theorem exec_sweep_none (none_ : n = 0) :
    exec .sweep s = .next (headOwed (modSa s s.msg.a (fun _ => { (die s s.msg.a).sa with queue := rest })) s.msg.a rest) := by
  rw [← popCmd_eq queue]
  change execSweep s = _
  unfold execSweep
  simp only [queue, none_, beq_self_eq_true, Bool.or_true, if_true]

/-- A source that fails its test before a sweep in physical mode (R322). -/
theorem exec_sweep_fails (some_ : n ≠ 0) (first : k = 0) (phys : (die s s.msg.a).sa.mode = true) (fails : s.msg.flag = false) :
    exec .sweep s = .next (owe (headOwed (modSa s s.msg.a (fun _ => { (die s s.msg.a).sa with
      queue := rest, fault := true, fkind := 9, fcell := 0, faddr := 0 })) s.msg.a rest) [ev .unitError (saRec s.msg.a) 1]) := by
  have run : exec .sweep s = .next (owe (modSa (popCmd s s.msg.a) s.msg.a (·.fail 9 0 0)) [ev .unitError (saRec s.msg.a) 1]) := by
    change execSweep s = _
    unfold execSweep
    simp only [queue, sound, beq_eq_false_iff_ne.mpr some_, first, phys, fails, beq_self_eq_true, Bool.or_self, Bool.false_eq_true,
      if_false, Bool.not_false, Bool.and_self, if_true]
  rw [run, popCmd_modSa queue]
  rfl

/-- The colours that a step of a sweep runs, and where the command then stands (R321, R337). -/
theorem exec_sweep_runs (some_ : n ≠ 0) (goes : k ≠ 0 ∨ (die s s.msg.a).sa.mode = false ∨ s.msg.flag = true) :
    let a := (die s s.msg.a).sa
    let j := if s.msg.b = 0 then 8 - k else min s.msg.b (8 - k)
    let r := sweepColours (span k j) a s.free
    let put (b : SArray) (rest : List SaCmd) : State :=
      headOwed { modSa s s.msg.a (fun _ => { b with queue := rest }) with free := r.2 } s.msg.a rest
    exec .sweep s = .next (if k + j < 8 then put r.1 (.sweep n (k + j) :: rest)
      else if n = 1 then put (sweepCounts r.1) rest else put (sweepCounts r.1) (.sweep (n - 1) 0 :: rest)) := by
  intro a j r put
  have test : (k == 0 && (die s s.msg.a).sa.mode && !s.msg.flag) = false := by
    rcases goes with later | own | passed
    · rw [beq_eq_false_iff_ne.mpr later]; rfl
    · rw [own, Bool.and_false]; rfl
    · rw [passed]; exact Bool.and_false _
  let stands (b : SArray) : State := { modSa s s.msg.a (fun _ => b) with free := r.2 }
  have stand (b : SArray) (rest : List SaCmd) : oweHead (stands { b with queue := rest }) s.msg.a = put b rest := by
    have at_d : (die (stands { b with queue := rest }) s.msg.a).sa = { b with queue := rest } :=
      (congrArg Die.sa (die_modSa s s.msg.a s.msg.a (fun _ => { b with queue := rest }))).trans (by rw [if_pos rfl])
    unfold oweHead
    rw [at_d]
    rfl
  have run : exec .sweep s = .next (if k + j < 8 then oweHead (stands { r.1 with queue := .sweep n (k + j) :: rest }) s.msg.a
      else if n = 1 then popCmd (stands (sweepCounts r.1)) s.msg.a
      else oweHead (stands { sweepCounts r.1 with queue := .sweep (n - 1) 0 :: rest }) s.msg.a) := by
    change execSweep s = _
    unfold execSweep
    simp only [queue, sound, beq_eq_false_iff_ne.mpr some_, test, Bool.or_self, Bool.false_eq_true, if_false]
    by_cases on : k + j < 8
    · exact (if_pos on).trans (congrArg Host.Outcome.next (if_pos on)).symm
    · refine (if_neg on).trans (Eq.trans ?_ (congrArg Host.Outcome.next (if_neg on)).symm)
      by_cases one : n = 1
      · exact (if_pos one).trans (congrArg Host.Outcome.next (if_pos one)).symm
      · exact (if_neg one).trans (congrArg Host.Outcome.next (if_neg one)).symm
  have popped : popCmd (stands (sweepCounts r.1)) s.msg.a = put (sweepCounts r.1) rest := by
    have at_d : (die (stands (sweepCounts r.1)) s.msg.a).sa = sweepCounts r.1 :=
      (congrArg Die.sa (die_modSa s s.msg.a s.msg.a (fun _ => sweepCounts r.1))).trans (by rw [if_pos rfl])
    have left : (die (stands (sweepCounts r.1)) s.msg.a).sa.queue = .sweep n k :: rest := by
      rw [at_d]
      exact (sweepColours_queue ..).trans queue
    have again (f : SArray → SArray) : modSa (stands (sweepCounts r.1)) s.msg.a f =
        { modSa (modSa s s.msg.a (fun _ => sweepCounts r.1)) s.msg.a f with free := r.2 } := rfl
    rw [popCmd_eq left, at_d, again, modSa_modSa]
  rw [run, popped, stand, stand]

end

end

/-! ### Loads -/

section
variable {s u : State} {first count roff toff nent c : Nat} {g : Seg} {rest : List SaCmd} (sound : (die s s.msg.a).sa.fault = false)
  (queue : (die s s.msg.a).sa.queue = .load first count roff toff nent g c :: rest)
include sound queue

theorem exec_load_all (run : loadCells s.msg.a g c toff nent count first roff s = (u, none)) :
    exec .saloadRun s = .next (popCmd u s.msg.a) := by
  change execSaloadRun s = _
  unfold execSaloadRun
  simp only [queue, sound, Bool.false_eq_true, if_false, run]

theorem exec_load_delay {cva i off : Nat} (run : loadCells s.msg.a g c toff nent count first roff s = (u, some (.delay cva, i, off))) :
    exec .saloadRun s = .next (owe (fileReport (modSa u s.msg.a (fun a => { a with
      queue := .load i (first + count - i) off toff nent g c :: rest })) c (cva / 4096)) [ev .saloadRun s.msg.a]) := by
  change execSaloadRun s = _
  unfold execSaloadRun
  simp only [queue, sound, Bool.false_eq_true, if_false, run]

theorem exec_load_bad {k cva i off : Nat} (run : loadCells s.msg.a g c toff nent count first roff s = (u, some (.bad k cva, i, off))) :
    exec .saloadRun s = .next (modSa (popCmd u s.msg.a) s.msg.a (·.fail k i cva)) := by
  change execSaloadRun s = _
  unfold execSaloadRun
  simp only [queue, sound, Bool.false_eq_true, if_false, run]

end

theorem LoadedCells.of {s : State} {d c : Nat} {g : Seg} {first roff toff nent n : Nat} {a b : SArray}
    (h : LoadedCells s d c g first roff toff nent n a) (seed : b.seed = a.seed) (cells : b.cells = a.cells) :
    LoadedCells s d c g first roff toff nent n b :=
  fun i => (SArray.cell_of seed cells i).trans (h i)

theorem SArray.fields_of_cells {a x : SArray} (h : x = { a with cells := x.cells }) : x.seed = a.seed ∧ x.queue = a.queue ∧
    (∀ q, ({ x with queue := q } : SArray) = { a with queue := q, cells := x.cells }) := by
  generalize x.cells = cells at h
  subst h
  exact ⟨rfl, rfl, fun _ => rfl⟩

section
variable {s : State} {first count roff toff nent c : Nat} {g : Seg} {rest : List SaCmd} (sound : (die s s.msg.a).sa.fault = false)
  (queue : (die s s.msg.a).sa.queue = .load first count roff toff nent g c :: rest)
include sound queue

/-- A load whose cells can all be read (R325). -/
theorem exec_load_ends (ok : ∀ j, j < count → ∃ x, nextCell s s.msg.a c g first roff toff nent j = .ok x) :
    ∃ u b, CachesOnly (cellsServed s s.msg.a c g roff toff count) u ∧ LoadedCells s s.msg.a c g first roff toff nent count b ∧
      b = { (die s s.msg.a).sa with queue := rest, cells := b.cells } ∧
      exec .saloadRun s = .next (headOwed (modSa u s.msg.a (fun _ => b)) s.msg.a rest) := by
  obtain ⟨t, ran, loading⟩ := loadCells_all count 0 s loading_start (fun j _ hi => ok j (by omega))
  rw [Nat.zero_add] at loading
  obtain ⟨u, caches, put⟩ := loading.caches (fun k => cellsServed_sa ..)
  obtain ⟨seed, left, fields⟩ := SArray.fields_of_cells loading.array
  refine ⟨u, { (die s s.msg.a).sa with queue := rest, cells := (die t s.msg.a).sa.cells }, caches,
    loading.cells.of seed.symm rfl, rfl, ?_⟩
  rw [exec_load_all sound queue ran, popCmd_eq (left.trans queue), put, fields]

section
variable {n : Nat} (inside : n < count) (ok : ∀ j, j < n → ∃ x, nextCell s s.msg.a c g first roff toff nent j = .ok x)
include inside ok

/-- A load that meets a page that is not present goes on from that cell (R330). -/
theorem exec_load_delayed {cva : Nat} (stop : nextCell s s.msg.a c g first roff toff nent n = .error (.delay cva)) :
    ∃ u b, CachesOnly (cellsServed s s.msg.a c g roff toff (n + 1)) u ∧ LoadedCells s s.msg.a c g first roff toff nent n b ∧
      b = { (die s s.msg.a).sa with
        queue := .load (first + n) (count - n) (roff + 8 * n) toff nent g c :: rest, cells := b.cells } ∧
      exec .saloadRun s = .next (owe (fileReport (modSa u s.msg.a (fun _ => b)) c (cva / 4096)) [ev .saloadRun s.msg.a]) := by
  obtain ⟨t, ran, loading⟩ := loadCells_stops stop count 0 s loading_start (Nat.zero_le n) (by omega) (fun j _ hi => ok j hi)
  obtain ⟨u, caches, put⟩ := loading.caches (fun k => cellsServed_sa ..)
  obtain ⟨seed, -, fields⟩ := SArray.fields_of_cells loading.array
  refine ⟨u, { (die s s.msg.a).sa with
    queue := .load (first + n) (count - n) (roff + 8 * n) toff nent g c :: rest, cells := (die t s.msg.a).sa.cells }, caches,
    loading.cells.of seed.symm rfl, rfl, ?_⟩
  rw [exec_load_delay sound queue ran, put, fields, Nat.add_sub_add_left]

/-- A load that fails leaves the failing cell and those above it as they were (R330). -/
theorem exec_load_fails {k cva : Nat} (stop : nextCell s s.msg.a c g first roff toff nent n = .error (.bad k cva)) :
    ∃ u b, CachesOnly (cellsServed s s.msg.a c g roff toff (n + 1)) u ∧ LoadedCells s s.msg.a c g first roff toff nent n b ∧
      b = { (die s s.msg.a).sa with
        queue := rest, cells := b.cells, fault := true, fkind := k, fcell := first + n, faddr := cva } ∧
      exec .saloadRun s = .next (headOwed (modSa u s.msg.a (fun _ => b)) s.msg.a rest) := by
  obtain ⟨t, ran, loading⟩ := loadCells_stops stop count 0 s loading_start (Nat.zero_le n) (by omega) (fun j _ hi => ok j hi)
  obtain ⟨u, caches, put⟩ := loading.caches (fun k => cellsServed_sa ..)
  obtain ⟨seed, left, fields⟩ := SArray.fields_of_cells loading.array
  refine ⟨u, { (die s s.msg.a).sa with
    queue := rest, cells := (die t s.msg.a).sa.cells, fault := true, fkind := k, fcell := first + n, faddr := cva }, caches,
    loading.cells.of seed.symm rfl, rfl, ?_⟩
  rw [exec_load_bad sound queue ran, popCmd_modSa (left.trans queue), put, fields]
  rfl

end

end

/-- Settles O49, by the step of each command: what it makes of the array, and which command is owed its step behind it. -/
theorem samplingEvents : Obligations.SamplingEvents := by
  intro s d a run next becomes
  have nexts (u : State) (rest : List SaCmd) : next u rest = headOwed u d rest := by
    cases rest with
    | nil => rfl
    | cons c r => cases c <;> rfl
  have events (c : SaCmd) : (run c).1 = c.event := by
    cases c <;> rfl
  clear_value next
  obtain rfl : next = fun u rest => headOwed u d rest := funext₂ nexts
  refine ⟨fun c rest queue fault => ?_, fun b rest queue sound => exec_beta sound queue,
    fun g phys rest queue sound => ⟨fun good => ?_, fun physical fails => ?_⟩,
    fun n k rest queue sound => ⟨exec_sweep_none queue, exec_sweep_fails sound queue,
      fun some_ goes => ⟨fun on => ?_, fun ends one => ?_, fun ends more => ?_⟩⟩,
    fun first count roff toff nent g c rest queue sound => ?_⟩
  · refine (congrArg (exec · s) (events c)).trans ?_
    rw [exec_discards queue fault, popCmd_eq queue]
  · refine (exec_seed sound queue).trans (congrArg (fun b => Host.Outcome.next (headOwed (modSa s d (fun _ => b)) d rest)) (if_neg ?_))
    rintro ⟨physical, fails⟩
    rcases good with own | tested
    · rw [own] at physical; cases physical
    · rw [tested] at fails; cases fails
  · exact (exec_seed sound queue).trans
      (congrArg (fun b => Host.Outcome.next (headOwed (modSa s d (fun _ => b)) d rest)) (if_pos ⟨physical, fails⟩))
  · exact (exec_sweep_runs sound queue some_ goes).trans (congrArg Host.Outcome.next (if_pos on))
  · exact (exec_sweep_runs sound queue some_ goes).trans (congrArg Host.Outcome.next ((if_neg (by omega)).trans (if_pos one)))
  · exact (exec_sweep_runs sound queue some_ goes).trans (congrArg Host.Outcome.next ((if_neg (by omega)).trans (if_neg more)))
  · intro home cellAt loaded
    have enters {n : Nat} {b : SArray} (h : LoadedCells s d c g first roff toff nent n b) : loaded n b := by
      intro i
      rw [h i]
      by_cases inside : first ≤ i ∧ i < first + n
      · rw [if_pos inside, if_pos inside]
        have same : nextCell s d c g first roff toff nent (i - first) = cellAt (i - first) := rfl
        generalize nextCell s d c g first roff toff nent (i - first) = x at same
        subst same
        cases cellAt (i - first) <;> rfl
      · rw [if_neg inside, if_neg inside]
    refine ⟨fun ok => ?_, fun n inside ok => ⟨fun cva stop => ?_, fun k cva stop => ?_⟩⟩
    · obtain ⟨u, b, caches, cells, array, run⟩ := exec_load_ends sound queue ok
      exact ⟨u, b, caches, enters cells, array, run⟩
    · obtain ⟨u, b, caches, cells, array, run⟩ := exec_load_delayed sound queue inside ok stop
      exact ⟨u, b, caches, enters cells, array, run⟩
    · obtain ⟨u, b, caches, cells, array, run⟩ := exec_load_fails sound queue inside ok stop
      exact ⟨u, b, caches, enters cells, array, run⟩

end Sys2Proof.Machine
end

section
/-! SUPPORT. The bytes that a chunk of a copy moves (R251, R252, R254): what each destination location then holds, and that no other
changes. -/

namespace Sys2Proof.Machine

/-! ### Writes that are performed, as a die reads them -/

/-- Writes have been performed by agents of die `d`: each location reads there as the last byte given it, and no other has changed but
those brought home. -/
structure Performed (d : Nat) (s u : State) (l : List (Nat × Byte)) : Prop where
  homes : HomesOnly s u
  ahead : NoneAhead s u
  given : ∀ loc b, lastWrite l loc = some b → sharedLoc u d loc = b
  kept : ∀ e loc, lastWrite l loc = none → ¬BroughtHome s (l.map (·.1)) loc → sharedLoc u e loc = sharedLoc s e loc
  settled : ∀ loc b, lastWrite l loc = some b → ∀ locs, ¬BroughtHome u locs loc

theorem performStore_performed (s : State) (p : PStore) : Performed (dieOfCore (agentCore p.agent)) s (performStore s p) p.locs := by
  obtain ⟨homes, -, ahead, given, kept, settled⟩ := performStore_spec s p
  exact ⟨homes, ahead, given, fun e loc none_ => kept e loc (lastWrite_eq_none_iff.mp none_), settled⟩

section
variable {d : Nat} {s t u : State} {l r : List (Nat × Byte)}

theorem Performed.refl (d : Nat) (s : State) : Performed d s s [] :=
  ⟨.refl s, (Written.refl s).noneAhead, fun _ _ h => (nomatch h), fun _ _ _ _ => rfl, fun _ _ h => (nomatch h)⟩

theorem Performed.trans (h : Performed d s t l) (k : Performed d t u r) : Performed d s u (l ++ r) := by
  refine ⟨h.homes.trans k.homes, h.ahead.trans k.ahead, fun loc b given => ?_, fun e loc none_ home => ?_, fun loc b given locs home => ?_⟩
  · rw [lastWrite_append] at given
    cases later : lastWrite r loc with
    | some c =>
      rw [later] at given
      cases given
      exact k.given loc _ later
    | none =>
      rw [later] at given
      exact (k.kept d loc later (h.settled loc b given _)).trans (h.given loc b given)
  · rw [lastWrite_append, Option.or_eq_none_iff] at none_
    have first : ¬BroughtHome s (l.map (·.1)) loc := fun b => home (broughtHome_mono b fun x hx => by
      rw [List.map_append]; exact List.mem_append_left _ hx)
    have second : ¬BroughtHome t (r.map (·.1)) loc := fun b => home (broughtHome_mono (h.ahead.broughtHome h.homes b) fun x hx => by
      rw [List.map_append]; exact List.mem_append_right _ hx)
    exact (k.kept e loc none_.1 second).trans (h.kept e loc none_.2 first)
  · rw [lastWrite_append] at given
    cases later : lastWrite r loc with
    | some c => exact k.settled loc c later locs home
    | none =>
      rw [later] at given
      exact h.settled loc b given locs (k.ahead.broughtHome k.homes home)

/-- Writes performed by the steps of a fold. -/
theorem Performed.foldl {α : Type} (f : State → α → State) (w : α → List (Nat × Byte)) (step : ∀ s x, Performed d s (f s x) (w x)) :
    ∀ (l : List α) (s : State), Performed d s (l.foldl f s) (l.flatMap w)
  | [], s => .refl d s
  | x :: r, s => (step s x).trans (Performed.foldl f w step r (f s x))

end

/-! ### What reads leave -/

/-- What reads of some bytes bring home leaves every other location as it is (R97, R105). -/
theorem served_kept {s : State} {refs : List ByteRef} {loc : Nat}
    (home : ¬BroughtHome s (underRefs s (refs.filter (fun r => nonNative s r.pa))) loc) :
    (served s refs).mem.get loc = s.mem.get loc ∧ ∀ e, sharedLoc (served s refs) e loc = sharedLoc s e loc := by
  obtain ⟨l, brought, wrote, -⟩ := recallUo_spec s (fun _ => true) (underRefs s (refs.filter (fun r => nonNative s r.pa)))
  have off : loc ∉ l.map (·.1) := by
    intro inside
    obtain ⟨q, hq, rfl⟩ := List.mem_map.mp inside
    exact home (brought q hq)
  exact ⟨wrote.mem_off off, fun e => wrote.sharedLoc_off e loc off⟩

theorem served_ahead (s : State) (refs : List ByteRef) : NoneAhead s (served s refs) := by
  obtain ⟨_, -, wrote, -⟩ := recallUo_spec s (fun _ => true) (underRefs s (refs.filter (fun r => nonNative s r.pa)))
  exact wrote.noneAhead

theorem served_broughtHome {s : State} {refs : List ByteRef} {locs : List Nat} {loc : Nat} (h : BroughtHome (served s refs) locs loc) :
    BroughtHome s locs loc :=
  (served_ahead s refs).broughtHome (served_homes s refs) h

theorem Alike.broughtHome {s t : State} (h : Alike s t) {locs : List Nat} {loc : Nat} (b : BroughtHome t locs loc) : BroughtHome s locs loc := by
  obtain ⟨shares, here, d, held⟩ := b
  exact ⟨by rw [← h.sharesGranule]; exact shares, here, d, by rw [← uoqRead_of (h.uoq d)]; exact held⟩

/-! ### A chunk's writes -/

/-- The bytes that stream bytes with a place bring to their destinations, as die `d` reads their sources. -/
def moved (s : State) (d : Nat) (w : List (ByteRef × ByteRef)) : List (Nat × Byte) :=
  (w.filter (·.1.has)).map (fun x => (x.1.loc, readShared s d x.2))

theorem moved_keys (s : State) (d : Nat) (w : List (ByteRef × ByteRef)) : (moved s d w).map (·.1) = (w.filter (·.1.has)).map (·.1.loc) := by
  unfold moved
  rw [List.map_map]
  rfl

/-- Where several stream bytes reach one location, the highest stands (R251). -/
theorem lastWrite_moved {s : State} {d : Nat} {w : List (ByteRef × ByteRef)} {j : Nat} {x : ByteRef × ByteRef} (found : w[j]? = some x)
    (has : x.1.has = true) (last : ∀ (i : Nat) (y : ByteRef × ByteRef), j < i → w[i]? = some y → y.1.has = true → y.1.loc ≠ x.1.loc) :
    lastWrite (moved s d w) x.1.loc = some (readShared s d x.2) := by
  obtain ⟨inside, rfl⟩ := List.getElem?_eq_some_iff.mp found
  have split : w = w.take j ++ w[j] :: w.drop (j + 1) := by
    rw [List.cons_getElem_drop_succ, List.take_append_drop]
  have later : lastWrite (moved s d (w.drop (j + 1))) w[j].1.loc = none := by
    refine lastWrite_none fun h => ?_
    rw [moved_keys] at h
    obtain ⟨y, hy, same⟩ := List.mem_map.mp h
    obtain ⟨hy, placed⟩ := List.mem_filter.mp hy
    obtain ⟨i, hi⟩ := List.mem_iff_getElem?.mp hy
    rw [List.getElem?_drop] at hi
    exact last _ y (by omega) hi placed same
  have cut : moved s d w = moved s d (w.take j) ++ (w[j].1.loc, readShared s d w[j].2) :: moved s d (w.drop (j + 1)) := by
    conv_lhs => rw [split]
    unfold moved
    rw [List.filter_append, List.filter_cons, if_pos has, List.map_append, List.map_cons]
  rw [cut, List.append_cons, lastWrite_append, later, lastWrite_append, lastWrite_single, if_pos rfl]
  rfl

/-- A piece of a chunk, as the store that an engine performs (R98, R254). -/
def copyPiece (s : State) (a : Agent) (l : List (ByteRef × Byte)) : PStore := { pieceStore s a none .none l with copy := true }

/-- The state in which a chunk's bytes are ready to be written: its sources have been read (R254). -/
def streamRead (s : State) (p : Nat) (c : Copy) (w : List (ByteRef × ByteRef)) : State :=
  countRefused (touchEngine (served s (w.map (·.2))) (p / 24) (w.map (·.2))) c.ctx
    (w.map (fun x => (x.1, readShared (served s (w.map (·.2))) (p / 24) x.2)))

section
variable {s t : State} (alike : Alike s t) (p : Nat) (c : Copy) (w : List (ByteRef × ByteRef))
include alike

theorem streamRead_kept (loc : Nat) : (streamRead t p c w).mem.get loc = (served s (w.map (·.2))).mem.get loc ∧
    ∀ e, sharedLoc (streamRead t p c w) e loc = sharedLoc (served s (w.map (·.2))) e loc := by
  have read := (alike.served (w.map (·.2))).trans (touchEngine_alike _ (p / 24) (w.map (·.2)))
  have counted := countRefused_written (touchEngine (served t (w.map (·.2))) (p / 24) (w.map (·.2))) c.ctx
    (w.map (fun x => (x.1, readShared (served t (w.map (·.2))) (p / 24) x.2)))
  exact ⟨(counted.mem_off List.not_mem_nil).trans (by rw [read.sameBytes.mem]),
    fun e => (counted.sharedLoc_off e loc List.not_mem_nil).trans (by rw [read.sharedLoc])⟩

theorem streamRead_broughtHome {locs : List Nat} {loc : Nat} (h : BroughtHome (streamRead t p c w) locs loc) :
    BroughtHome (served s (w.map (·.2))) locs loc := by
  have read := (alike.served (w.map (·.2))).trans (touchEngine_alike _ (p / 24) (w.map (·.2)))
  exact read.broughtHome ((countRefused_written ..).broughtHome h)

/-- What a chunk's writes do to memory and to what dies read. -/
theorem writeStream_moves :
    let b := served s (w.map (·.2))
    let u := writeStream t p c w
    let put := moved b (p / 24) w
    (∀ loc x, lastWrite put loc = some x →
      (offPart loc = false → u.mem.get loc = x ∧ ∀ e, sharedLoc u e loc = x) ∧
        sharedLoc u (dieOfCore (agentCore c.issuer)) loc = x) ∧
    ∀ loc, lastWrite put loc = none → ¬BroughtHome b (put.map (·.1)) loc →
      u.mem.get loc = b.mem.get loc ∧ ∀ e, sharedLoc u e loc = sharedLoc b e loc := by
  intro b u put
  let v := streamRead t p c w
  let bytes := w.map (fun x => (x.1, readShared (served t (w.map (·.2))) (p / 24) x.2))
  let pieces := vectorPieces v (bytes.filter (fun x => x.1.has))
  let step (y : State) (l : List (ByteRef × Byte)) : State := performStore y (copyPiece v c.issuer l)
  have locs : pieces.flatMap (fun l => (copyPiece v c.issuer l).locs) = put := by
    have cut : pieces.flatMap (fun l => (copyPiece v c.issuer l).locs) = pieces.flatten.map (fun q => (q.1.loc, q.2)) := by
      rw [List.map_flatten, List.flatMap_def]
      rfl
    rw [cut, vectorPieces_flatten]
    change ((w.map _).filter _).map _ = (w.filter _).map _
    rw [List.filter_map, List.map_map]
    refine List.map_congr_left fun x _ => ?_
    exact congrArg (Prod.mk x.1.loc) ((alike.served (w.map (·.2))).readShared (p / 24) x.2)
  have homes : AtHomes v (pieces.foldl step v) (put.filter (fun q => !offPart q.1)) := by
    rw [← locs, List.filter_flatMap]
    exact AtHomes.foldl step (fun l => (copyPiece v c.issuer l).here) (fun y l => performStore_atHomes y (copyPiece v c.issuer l)) pieces v
  have own : Performed (dieOfCore (agentCore c.issuer)) v (pieces.foldl step v) put := by
    rw [← locs]
    exact Performed.foldl step (fun l => (copyPiece v c.issuer l).locs) (fun y l => performStore_performed y (copyPiece v c.issuer l)) pieces v
  have run : u = { pieces.foldl step v with nextId := (pieces.foldl step v).nextId + 1 } := rfl
  have shared (e : Nat) : sharedLoc u e = sharedLoc (pieces.foldl step v) e := by rw [run]; rfl
  have mem : u.mem = (pieces.foldl step v).mem := by rw [run]
  refine ⟨fun loc x last => ⟨fun here => ?_, ?_⟩, fun loc none_ home => ?_⟩
  · have given : lastWrite (put.filter (fun q => !offPart q.1)) loc = some x := by
      rw [lastWrite_filter put (fun l => !offPart l), here]
      exact last
    exact ⟨by rw [mem]; exact (homes.given loc x given).1, fun e => by rw [shared]; exact homes.shared given here e⟩
  · rw [shared]
    exact own.given loc x last
  · have spared : ¬BroughtHome v (put.map (·.1)) loc := fun h => home (streamRead_broughtHome alike p c w h)
    have off : lastWrite (put.filter (fun q => !offPart q.1)) loc = none := by
      rw [lastWrite_filter put (fun l => !offPart l), none_, ite_self]
    obtain ⟨memRead, sharedRead⟩ := streamRead_kept alike p c w loc
    refine ⟨?_, fun e => ?_⟩
    · rw [mem, (homes.kept loc off fun h => spared (broughtHome_mono h fun x hx => ?_)).1]
      · exact memRead
      · exact (List.filter_sublist.map _).subset hx
    · rw [shared, own.kept e loc none_ spared]
      exact sharedRead e

end

/-! ### A chunk written -/

theorem underRefs_mono {s : State} {l r : List ByteRef} (h : ∀ x ∈ l, x ∈ r) {loc : Nat} (inside : loc ∈ underRefs s l) : loc ∈ underRefs s r := by
  obtain ⟨x, hx, under⟩ := List.mem_flatMap.mp inside
  exact List.mem_flatMap.mpr ⟨x, h x hx, under⟩

theorem standing_sublist (s : State) (c : Copy) (k : Nat) (l : List (ByteRef × ByteRef)) : (standing s c k l).Sublist l := by
  unfold standing
  dsimp only
  split
  · exact List.Sublist.refl l
  · exact List.filter_sublist

/-- A stream byte that is not written any more gives way to one of a chunk above (R254). -/
theorem standing_or {s : State} {c : Copy} {k : Nat} {l : List (ByteRef × ByteRef)} {x : ByteRef × ByteRef} (hx : x ∈ l) :
    x ∈ standing s c k l ∨ (x.1.has = true ∧ ∃ j ∈ c.doneAbove k, x.1.loc ∈ chunkDests s c j) := by
  unfold standing
  dsimp only
  split
  · exact .inl hx
  · by_cases over_ : (x.1.has && ((c.doneAbove k).flatMap (chunkDests s c)).contains x.1.loc) = true
    · obtain ⟨has, above⟩ := Bool.and_eq_true_iff.mp over_
      exact .inr ⟨has, List.mem_flatMap.mp (List.contains_iff_mem.mp above)⟩
    · exact .inl (List.mem_filter.mpr ⟨hx, by rw [Bool.eq_false_iff.mpr over_]; rfl⟩)

/-- What a chunk that has met no fault leaves (R251, R252, R254). -/
theorem writeChunk_moves (s : State) (p : Nat) (c : Copy) (k : Nat) (l : List (ByteRef × ByteRef)) :
    let idx := c.indexRefs s (c.chunkBytes k)
    let home := served s idx
    let w := standing s c k l
    let b := served home (w.map (·.2))
    let u := writeChunk s p c k l
    let dests := (w.filter (·.1.has)).map (·.1.loc)
    let near := underRefs s ((idx ++ w.map (·.2)).filter (fun r => nonNative s r.pa)) ++ dests
    (∀ (j : Nat) (x : ByteRef × ByteRef), w[j]? = some x → x.1.has = true →
      (∀ (i : Nat) (y : ByteRef × ByteRef), j < i → w[i]? = some y → y.1.has = true → y.1.loc ≠ x.1.loc) →
      let v := readShared b (p / 24) x.2
      (offPart x.1.loc = false → u.mem.get x.1.loc = v ∧ ∀ e, sharedLoc u e x.1.loc = v) ∧
        (offPart x.1.loc = true → sharedLoc u (dieOfCore (agentCore c.issuer)) x.1.loc = v)) ∧
    ∀ loc, loc ∉ dests → ¬BroughtHome s near loc → u.mem.get loc = s.mem.get loc ∧ ∀ e, sharedLoc u e loc = sharedLoc s e loc := by
  intro idx home w b u dests near
  obtain ⟨given, kept⟩ := writeStream_moves (touchEngine_alike home (p / 24) idx) p c w
  refine ⟨fun j x found has last => ?_, fun loc off spared => ?_⟩
  · obtain ⟨here, own⟩ := given x.1.loc _ (lastWrite_moved found has last)
    exact ⟨here, fun _ => own⟩
  · have regions : home.regions = s.regions := (served_homes s idx).regions
    have first : ¬BroughtHome s (underRefs s (idx.filter (fun r => nonNative s r.pa))) loc := fun h => spared (broughtHome_mono h fun x hx =>
      List.mem_append_left _ (underRefs_mono (fun r hr => by
        rw [List.filter_append]; exact List.mem_append_left _ hr) hx))
    have second : ¬BroughtHome home (underRefs home ((w.map (·.2)).filter (fun r => nonNative home r.pa))) loc := by
      simp only [underRefs_of regions, nonNative_of regions]
      exact fun h => spared (broughtHome_mono (served_broughtHome h) fun x hx =>
        List.mem_append_left _ (underRefs_mono (fun r hr => by
          rw [List.filter_append]; exact List.mem_append_right _ hr) hx))
    have third : ¬BroughtHome b ((moved b (p / 24) w).map (·.1)) loc := by
      rw [moved_keys]
      exact fun h => spared (broughtHome_mono (served_broughtHome (served_broughtHome h)) fun x hx => List.mem_append_right _ hx)
    have none_ : lastWrite (moved b (p / 24) w) loc = none := lastWrite_none (by rw [moved_keys]; exact off)
    obtain ⟨mem₁, shared₁⟩ := served_kept first
    obtain ⟨mem₂, shared₂⟩ := served_kept second
    obtain ⟨mem₃, shared₃⟩ := kept loc none_ third
    exact ⟨mem₃.trans (mem₂.trans mem₁), fun e => (shared₃ e).trans ((shared₂ e).trans (shared₁ e))⟩

end Sys2Proof.Machine
end

section
/-! SUPPORT. Where a copy's stream bytes come from and go (R251, R252). -/

namespace Sys2Proof.Machine

theorem off64_nat (n : Nat) : off64 (n : Int) = n % 2 ^ 64 := by
  unfold off64
  rw [← Int.natCast_mod, Int.toNat_natCast]

section
variable {s : State} {c : Copy}

/-- A side's byte is resolved as translation gives it, or it is delayed or faults. -/
theorem sideByte_cases (s : State) (c : Copy) (dst : Bool) (g : Seg) (off : Nat) :
    sideByte s c dst g off = .inr (byteRef s c.ctx (g.base.toNat + off)) ∨
      ∃ y, sideByte s c dst g off = .inl y ∧ ∀ d a, y ≠ .ok d a := by
  unfold sideByte
  dsimp only
  split
  · exact .inr ⟨_, rfl, fun _ _ h => (nomatch h)⟩
  · exact .inr ⟨_, rfl, fun _ _ h => (nomatch h)⟩
  · exact .inr ⟨_, rfl, fun _ _ h => (nomatch h)⟩
  · next pa kind code w r _ =>
    generalize (inRegions pa && !g.v) = barred, denied s (if dst then 1 else 0) (.page pa kind code w r) = refused,
      (!dst && ((byteRef s c.ctx (g.base.toNat + off)).at_.under s).any (poisoned s)) = lost
    cases barred with
    | true => exact .inr ⟨_, rfl, fun _ _ h => (nomatch h)⟩
    | false =>
      cases refused with
      | true => exact .inr ⟨_, rfl, fun _ _ h => (nomatch h)⟩
      | false =>
        cases lost with
        | true => exact .inr ⟨_, rfl, fun _ _ h => (nomatch h)⟩
        | false => exact .inl rfl

theorem sideByte_inr {dst : Bool} {g : Seg} {off : Nat} {b : ByteRef} (h : sideByte s c dst g off = .inr b) :
    b = byteRef s c.ctx (g.base.toNat + off) := by
  rcases sideByte_cases s c dst g off with found | ⟨y, other, -⟩
  · rw [h] at found
    exact Sum.inr.inj found
  · rw [h] at other
    cases other

/-- A side that is not resolved gives no byte. -/
theorem sideByte_inl {dst : Bool} {g : Seg} {off : Nat} {d a : ByteRef} : sideByte s c dst g off ≠ .inl (.ok d a) := by
  intro h
  rcases sideByte_cases s c dst g off with found | ⟨y, other, lost⟩
  · rw [h] at found
    cases found
  · rw [h] at other
    exact lost d a (Sum.inl.inj other).symm

theorem bothSides_ok {doff aoff : Nat} {d a : ByteRef} (h : bothSides s c doff aoff = .ok d a) :
    d = byteRef s c.ctx (c.dsegv.base.toNat + doff) ∧ a = byteRef s c.ctx (c.asegv.base.toNat + aoff) := by
  unfold bothSides at h
  split at h
  · next source => rw [h] at source; exact absurd source sideByte_inl
  · next source =>
    split at h
    · next dest => rw [h] at dest; exact absurd dest sideByte_inl
    · next dest =>
      cases h
      exact ⟨sideByte_inr dest, sideByte_inr source⟩

variable {t : Nat} {d a : ByteRef}

/-- The sides of a stream byte of a copy that is no gather. -/
theorem streamByte_ok (h : streamByte s c t = .ok d a) (plain : c.op ≠ 3) : (c.op = 2 → c.rejected = false) ∧
    d = byteRef s c.ctx (c.dsegv.base.toNat + (c.offs t).1) ∧ a = byteRef s c.ctx (c.asegv.base.toNat + (c.offs t).2) := by
  unfold streamByte at h
  rw [if_neg plain] at h
  split at h
  · cases h
  · next sound =>
    refine ⟨fun window => ?_, bothSides_ok h⟩
    rw [window] at sound
    simpa using sound

/-- A gather's stream byte: its index entry gives its source (R251). -/
theorem gatherByte_ok (h : gatherByte s c t = .ok d a) :
    let entry := (span ((c.opN 2 + 4 * (t / 2 ^ c.opN 1)) % 2 ^ 64) 4).map (fun o => byteRef s c.ctx (c.asegv.base.toNat + o))
    let index := leNat (entry.map (readShared s (dieOfCore (c.thread / 17))))
    d = byteRef s c.ctx (c.dsegv.base.toNat + (c.doff.toNat + t) % 2 ^ 64) ∧
      a = byteRef s c.ctx (c.asegv.base.toNat + ((c.aoff.toNat + index) % 2 ^ 64 + t % 2 ^ c.opN 1)) := by
  intro entry index
  have start : off64 (c.opN 2 + 4 * ((t : Int) / (2 ^ c.opN 1 : Nat))) = (c.opN 2 + 4 * (t / 2 ^ c.opN 1)) % 2 ^ 64 := by
    rw [← off64_nat]
    push_cast
    rfl
  unfold gatherByte at h
  dsimp only at h
  rw [start] at h
  split at h
  · next x found =>
    obtain ⟨o, -, side⟩ := List.mem_map.mp (List.mem_of_find?_eq_some found)
    rw [h] at side
    exact absurd side sideByte_inl
  · next none_ =>
    have resolved (o : Nat) (ho : o ∈ span ((c.opN 2 + 4 * (t / 2 ^ c.opN 1)) % 2 ^ 64) 4) :
        sideByte s c false c.asegv o = .inr (byteRef s c.ctx (c.asegv.base.toNat + o)) := by
      rcases sideByte_cases s c false c.asegv o with found | ⟨y, lost, -⟩
      · exact found
      · exfalso
        generalize found : List.find? _ _ = z at none_
        cases z with
        | none =>
          have free := List.find?_eq_none.mp found _ (List.mem_map_of_mem ho)
          rw [lost] at free
          exact free rfl
        | some z =>
          cases z with
          | inl x => exact none_ x rfl
          | inr b => exact absurd (List.find?_some found) Bool.false_ne_true
    have read (f : StreamByte ⊕ ByteRef → Byte) (reads : ∀ b, f (.inr b) = readShared s (dieOfCore (c.thread / 17)) b) :
        ((span ((c.opN 2 + 4 * (t / 2 ^ c.opN 1)) % 2 ^ 64) 4).map (sideByte s c false c.asegv)).map f =
          entry.map (readShared s (dieOfCore (c.thread / 17))) := by
      rw [List.map_map, List.map_map]
      exact List.map_congr_left fun o ho => (congrArg f (resolved o ho)).trans (reads _)
    rw [read _ (fun _ => rfl)] at h
    split at h
    · cases h
    · split at h
      · cases h
      · rw [← Int.natCast_add, ← Int.natCast_add, off64_nat, off64_nat] at h
        exact bothSides_ok h

/-- Whose window runs no further than its pitch, its stream goes row by row (R252). -/
theorem winElem_rows {r : Region} {k : Nat} (fits : (c.window.2.2.2 : Int) ≤ c.opI 3 / r.e) :
    c.winElem 0 r k = (k / c.window.2.2.2, k % c.window.2.2.2,
      (k / c.window.2.2.2 : Nat) * c.opI 3 + (k % c.window.2.2.2 : Nat) * r.e) := by
  have pair : streamPair (c.opI 3 / r.e) c.window.2.2.1 c.window.2.2.2 k = (k / c.window.2.2.2, k % c.window.2.2.2) := by
    unfold streamPair
    rw [if_pos (.inl fits)]
  unfold Copy.winElem
  dsimp only
  rw [pair]
  rfl

/-- The offsets of a stream byte of a window in a region's row-major view (R252). -/
theorem windowOffs_rows {r : Region} (geom : c.geom = some (0, r)) (sound : c.rejected = false)
    (fits : (c.window.2.2.2 : Int) ≤ c.opI 3 / r.e) (t : Nat) :
    let i := t / r.e / c.window.2.2.2
    let j := t / r.e % c.window.2.2.2
    c.windowOffs t = (off64 ((c.regSide.2.toNat + r.viewOff 0 (c.window.1 + i) (c.window.2.1 + j) + t % r.e : Nat) : Int),
      off64 (((if c.fromRegion then c.doff else c.aoff).toNat : Int) + i * c.opI 3 + (j * r.e + t % r.e : Nat))) := by
  intro i j
  unfold Copy.windowOffs
  dsimp only
  rw [geom]
  dsimp only
  simp only [sound, Bool.false_eq_true, if_false, winElem_rows fits]
  refine Prod.ext rfl (congrArg off64 ?_)
  change (_ : Int) + ((i : Nat) * c.opI 3 + (j : Nat) * (r.e : Int)) + _ = _
  rw [Int.natCast_add, Int.natCast_mul]
  ring

/-- The sides of a window's stream byte: its element of the region, and its place on the linear side (R252). -/
theorem streamByte_window (h : streamByte s c t = .ok d a) (window : c.op = 2) {r : Region} (geom : c.geom = some (0, r))
    (fits : (c.window.2.2.2 : Int) ≤ c.opI 3 / r.e) :
    let i := t / r.e / c.window.2.2.2
    let j := t / r.e % c.window.2.2.2
    let g := off64 ((c.regSide.2.toNat + r.viewOff 0 (c.window.1 + i) (c.window.2.1 + j) + t % r.e : Nat) : Int)
    let lin (off : Word) := off64 ((off.toNat : Int) + i * c.opI 3 + (j * r.e + t % r.e : Nat))
    (c.fromRegion = true →
      d = byteRef s c.ctx (c.dsegv.base.toNat + lin c.doff) ∧ a = byteRef s c.ctx (c.asegv.base.toNat + g)) ∧
    (c.fromRegion = false →
      d = byteRef s c.ctx (c.dsegv.base.toNat + g) ∧ a = byteRef s c.ctx (c.asegv.base.toNat + lin c.aoff)) := by
  intro i j g lin
  obtain ⟨sound, dst, src⟩ := streamByte_ok h (by rw [window]; decide)
  have offs : c.offs t = if c.fromRegion then ((c.windowOffs t).2, (c.windowOffs t).1) else ((c.windowOffs t).1, (c.windowOffs t).2) := by
    unfold Copy.offs
    rw [window]
    rfl
  have sides := windowOffs_rows geom (sound window) fits t
  refine ⟨fun from_ => ?_, fun to_ => ?_⟩
  · rw [offs, if_pos from_, sides, if_pos from_] at dst src
    exact ⟨dst, src⟩
  · have off : ¬c.fromRegion = true := by rw [to_]; exact Bool.false_ne_true
    rw [offs, if_neg off, sides, if_neg off] at dst src
    exact ⟨dst, src⟩

/-- The sides of a plain copy's stream byte (R251). -/
theorem streamByte_line (h : streamByte s c t = .ok d a) (line : c.op = 0) :
    d = byteRef s c.ctx (c.dsegv.base.toNat + off64 (c.doff.toNat + t)) ∧
      a = byteRef s c.ctx (c.asegv.base.toNat + off64 (c.aoff.toNat + t)) := by
  obtain ⟨-, sides⟩ := streamByte_ok h (by rw [line]; decide)
  have offs : c.offs t = (off64 (c.doff.toNat + t), off64 (c.aoff.toNat + t)) := by
    unfold Copy.offs
    rw [line]
    rfl
  rw [offs] at sides
  exact sides

/-- The sides of a two-dimensional copy's stream byte (R251). -/
theorem streamByte_rows (h : streamByte s c t = .ok d a) (rows : c.op = 1) :
    d = byteRef s c.ctx (c.dsegv.base.toNat + off64 (c.doff.toNat + (t / c.opN 0 : Nat) * c.opI 3 + (t % c.opN 0 : Nat))) ∧
      a = byteRef s c.ctx (c.asegv.base.toNat + off64 (c.aoff.toNat + (t / c.opN 0 : Nat) * c.opI 2 + (t % c.opN 0 : Nat))) := by
  obtain ⟨-, sides⟩ := streamByte_ok h (by rw [rows]; decide)
  have offs : c.offs t = (off64 (c.doff.toNat + (t / c.opN 0 : Nat) * c.opI 3 + (t % c.opN 0 : Nat)),
      off64 (c.aoff.toNat + (t / c.opN 0 : Nat) * c.opI 2 + (t % c.opN 0 : Nat))) := by
    unfold Copy.offs
    rw [rows]
    rfl
  rw [offs] at sides
  exact sides

end

end Sys2Proof.Machine
end

section
/-! SUPPORT. The threads and Retrievers that a page wakes (R122, R269): what each is then, and what their cores' traces record. -/

namespace Sys2Proof.Machine

/-! ### Threads woken -/

/-- The address of a page on which a word is parked. -/
def parkedCva (page : Nat) (x : Cond) : Option Nat :=
  match x with
  | .parkedPage cva => if cva / 4096 = page then some cva else none
  | _ => none

theorem parkedCva_some {page cva : Nat} {x : Cond} : parkedCva page x = some cva ↔ x = .parkedPage cva ∧ cva / 4096 = page := by
  unfold parkedCva
  split
  · next a =>
    rw [Option.ite_none_right_eq_some]
    constructor
    · rintro ⟨on, e⟩
      cases e
      exact ⟨rfl, on⟩
    · rintro ⟨e, on⟩
      cases e
      exact ⟨on, rfl⟩
  · next away => exact ⟨fun h => (nomatch h), fun h => absurd h.1 (away cva)⟩

/-- What a wake writes into a core's trace. -/
def wakeEntry (s : State) (c code : Nat) (p : Nat × Nat) : TraceEntry :=
  { time := s.time, kind := 4, code := code, ctx := c, hw := hwOf p.1, pc := (thr s p.1).hart.pc, data := BitVec.ofNat 64 p.2 }

/-- A thread woken: its word is to issue again. -/
def wakeThread (c code : Nat) (lost : Option Nat) (s : State) (p : Nat × Nat) : State :=
  pushTrace (setThr s p.1 { thr s p.1 with cond := .waiting, noPage := lost }) (coreOf p.1) (wakeEntry s c code p)

section
variable (c code : Nat) (lost : Option Nat)

theorem wakeThread_rest (s : State) (p : Nat × Nat) : wakeThread c code lost s p =
    { s with threads := (wakeThread c code lost s p).threads, cores := (wakeThread c code lost s p).cores } := rfl

theorem wakeThread_threads (s : State) (p : Nat × Nat) : (wakeThread c code lost s p).threads =
    kset s.threads p.1 { thr s p.1 with cond := .waiting, noPage := lost } := rfl

theorem core_wakeThread (s : State) (p : Nat × Nat) (k : Nat) : core (wakeThread c code lost s p) k =
    if k = coreOf p.1 then { core s k with trace := (wakeEntry s c code p :: (core s k).trace).take 256 } else core s k := by
  have pushed := core_modCore (setThr s p.1 { thr s p.1 with cond := .waiting, noPage := lost }) (coreOf p.1) k
    (fun x => { x with trace := (wakeEntry s c code p :: x.trace).take 256 })
  refine Eq.trans (by rfl) (pushed.trans ?_)
  split
  · next e => rw [e]; rfl
  · rfl

theorem wakeThreads_rest : ∀ (l : List (Nat × Nat)) (s : State), ∃ threads cores,
    l.foldl (wakeThread c code lost) s = { s with threads := threads, cores := cores }
  | [], s => ⟨s.threads, s.cores, rfl⟩
  | p :: r, s => by
    obtain ⟨threads, cores, rest⟩ := wakeThreads_rest r (wakeThread c code lost s p)
    exact ⟨threads, cores, by rw [List.foldl_cons, rest, wakeThread_rest]⟩

/-- What the waking of some threads makes of each. -/
theorem wakeThreads_threads (n : Nat) : ∀ (l : List (Nat × Nat)) (s : State), kfind (l.foldl (wakeThread c code lost) s).threads n =
    if n ∈ l.map (·.1) then some { thr s n with cond := .waiting, noPage := lost } else kfind s.threads n
  | [], s => by simp
  | p :: r, s => by
    have first : kfind (wakeThread c code lost s p).threads n =
        if n = p.1 then some { thr s n with cond := .waiting, noPage := lost } else kfind s.threads n := by
      rw [wakeThread_threads, kfind_kset]
      split
      · next e => rw [e]
      · rfl
    have woken (found : n ≠ p.1) : thr (wakeThread c code lost s p) n = thr s n := by
      unfold thr kget
      rw [first, if_neg found]
    rw [List.foldl_cons, wakeThreads_threads n r]
    by_cases later : n ∈ r.map (·.1)
    · rw [if_pos later, if_pos (by rw [List.map_cons]; exact List.mem_cons_of_mem _ later)]
      by_cases here : n = p.1
      · have : thr (wakeThread c code lost s p) n = { thr s n with cond := .waiting, noPage := lost } := by
          conv_lhs => unfold thr kget
          rw [first, if_pos here]
          rfl
        rw [this]
      · rw [woken here]
    · rw [if_neg later, first]
      by_cases here : n = p.1
      · rw [if_pos here, if_pos (by rw [List.map_cons, here]; exact List.mem_cons_self)]
      · rw [if_neg here, if_neg (by rw [List.map_cons]; exact List.not_mem_cons_of_ne_of_not_mem here later)]

theorem wakeThreads_pc (n : Nat) (l : List (Nat × Nat)) (s : State) : (thr (l.foldl (wakeThread c code lost) s) n).hart = (thr s n).hart := by
  unfold thr kget
  rw [wakeThreads_threads]
  split <;> rfl

theorem wakeThreads_core (k : Nat) : ∀ (l : List (Nat × Nat)) (s : State), core (l.foldl (wakeThread c code lost) s) k =
    { core s k with trace := (core (l.foldl (wakeThread c code lost) s) k).trace }
  | [], s => rfl
  | p :: r, s => by
    rw [List.foldl_cons, wakeThreads_core k r, core_wakeThread]
    split <;> rfl

theorem wakeThreads_core_off (k : Nat) : ∀ (l : List (Nat × Nat)) (s : State), (∀ p ∈ l, coreOf p.1 ≠ k) →
    core (l.foldl (wakeThread c code lost) s) k = core s k
  | [], _, _ => rfl
  | p :: r, s, off => by
    rw [List.foldl_cons, wakeThreads_core_off k r _ (fun q hq => off q (List.mem_cons_of_mem _ hq)), core_wakeThread,
      if_neg (off p List.mem_cons_self).symm]

/-- What a core's trace holds stays while there is room for what is pushed. -/
theorem wakeThreads_trace (k : Nat) (e : TraceEntry) : ∀ (l : List (Nat × Nat)) (s : State) (j : Nat), e ∈ (core s k).trace.take j →
    j + (l.filter (fun p => coreOf p.1 == k)).length ≤ 256 → e ∈ (core (l.foldl (wakeThread c code lost) s) k).trace
  | [], _, _, inside, _ => List.mem_of_mem_take inside
  | p :: r, s, j, inside, room => by
    rw [List.foldl_cons]
    by_cases here : coreOf p.1 = k
    · rw [List.filter_cons, if_pos (by simpa using here), List.length_cons] at room
      refine wakeThreads_trace k e r _ (j + 1) ?_ (by omega)
      rw [core_wakeThread, if_pos here.symm]
      dsimp only
      rw [List.take_take, Nat.min_eq_left (by omega), List.take_succ_cons]
      exact List.mem_cons_of_mem _ inside
    · rw [List.filter_cons, if_neg (by simpa using here)] at room
      refine wakeThreads_trace k e r _ j ?_ room
      rw [core_wakeThread, if_neg (Ne.symm here)]
      exact inside

/-- No more threads than a core has share its trace. -/
theorem coreOf_count {l : List (Nat × Nat)} (distinct : (l.map (·.1)).Nodup) (k : Nat) : (l.filter (fun p => coreOf p.1 == k)).length ≤ 17 := by
  have own : ((l.filter (fun p => coreOf p.1 == k)).map (·.1)).Nodup := distinct.sublist (List.filter_sublist.map _)
  have near : (l.filter (fun p => coreOf p.1 == k)).map (·.1) ⊆ span (17 * k) 17 := by
    intro n hn
    obtain ⟨p, hp, rfl⟩ := List.mem_map.mp hn
    have on : p.1 / 17 = k := by simpa [coreOf] using (List.mem_filter.mp hp).2
    exact mem_span.mpr (by omega)
  simpa [span] using (own.subperm near).length_le

/-- Each thread woken stands in its core's trace (R122). -/
theorem wakeThreads_entry {l : List (Nat × Nat)} (distinct : (l.map (·.1)).Nodup) (s : State) {p : Nat × Nat} (hp : p ∈ l) :
    ∃ e ∈ (core (l.foldl (wakeThread c code lost) s) (coreOf p.1)).trace,
      e.kind = 4 ∧ e.code = code ∧ e.hw = hwOf p.1 ∧ e.pc = (thr s p.1).hart.pc := by
  obtain ⟨a, b, rfl⟩ := List.append_of_mem hp
  let u := a.foldl (wakeThread c code lost) s
  have room := coreOf_count distinct (coreOf p.1)
  rw [List.filter_append, List.filter_cons, if_pos (by simp), List.length_append, List.length_cons] at room
  refine ⟨wakeEntry u c code p, ?_, rfl, rfl, rfl, congrArg (·.pc) (wakeThreads_pc c code lost p.1 a s)⟩
  rw [List.foldl_append, List.foldl_cons]
  refine wakeThreads_trace c code lost _ _ b _ 1 ?_ (by omega)
  rw [core_wakeThread, if_pos rfl]
  exact List.mem_cons_self

end

/-! ### Retrievers woken -/

/-- A Retriever woken: its word is to issue again. -/
def wakeRet (lost : Option Nat) (s : State) (n : Nat) : State := modRet s n (fun x => { x with cond := .waiting, noPage := lost })

section
variable (lost : Option Nat)

theorem wakeRets_rest : ∀ (l : List Nat) (s : State), ∃ rets, l.foldl (wakeRet lost) s = { s with rets := rets }
  | [], s => ⟨s.rets, rfl⟩
  | n :: r, s => by
    obtain ⟨rets, rest⟩ := wakeRets_rest r (wakeRet lost s n)
    exact ⟨rets, rest⟩

theorem wakeRets_rets (n : Nat) : ∀ (l : List Nat) (s : State), kfind (l.foldl (wakeRet lost) s).rets n =
    if n ∈ l then some { ret s n with cond := .waiting, noPage := lost } else kfind s.rets n
  | [], s => by simp
  | m :: r, s => by
    have first : kfind (wakeRet lost s m).rets n =
        if n = m then some { ret s n with cond := .waiting, noPage := lost } else kfind s.rets n := by
      change kfind (kset s.rets m { ret s m with cond := .waiting, noPage := lost }) n = _
      rw [kfind_kset]
      split
      · next e => rw [e]
      · rfl
    have same (found : n ≠ m) : ret (wakeRet lost s m) n = ret s n := by
      unfold ret kget
      rw [first, if_neg found]
    rw [List.foldl_cons, wakeRets_rets n r]
    by_cases later : n ∈ r
    · rw [if_pos later, if_pos (List.mem_cons_of_mem _ later)]
      by_cases here : n = m
      · have : ret (wakeRet lost s m) n = { ret s n with cond := .waiting, noPage := lost } := by
          conv_lhs => unfold ret kget
          rw [first, if_pos here]
          rfl
        rw [this]
      · rw [same here]
    · rw [if_neg later, first]
      by_cases here : n = m
      · rw [if_pos here, if_pos (by rw [here]; exact List.mem_cons_self)]
      · rw [if_neg here, if_neg (List.not_mem_cons_of_ne_of_not_mem here later)]

end

/-! ### Who is woken -/

theorem keys_filterMap_sublist {α β : Type} {f : Nat × α → Option (Nat × β)} (keeps : ∀ p q, f p = some q → q.1 = p.1) :
    ∀ l : KMap α, ((l.filterMap f).map (·.1)).Sublist (l.map (·.1))
  | [] => .slnil
  | p :: r => by
    rw [List.filterMap_cons]
    cases e : f p with
    | none => exact (keys_filterMap_sublist keeps r).cons _
    | some q =>
      dsimp only
      rw [List.map_cons, List.map_cons, keeps p q e]
      exact (keys_filterMap_sublist keeps r).cons_cons _

theorem krising_nodup {α : Type} {m : KMap α} (rising : krising m = true) : (m.map (·.1)).Nodup :=
  ((krising_iff m).mp rising).imp Nat.ne_of_lt

/-- The threads of a context that are parked on a page, each with its address. -/
def parkedThreads (s : State) (c page : Nat) : List (Nat × Nat) :=
  s.threads.filterMap (fun p => if p.2.ctx = c then (parkedCva page p.2.cond).map (fun cva => (p.1, cva)) else none)

/-- The Retrievers of a context that are parked on a page. -/
def parkedRets (s : State) (c page : Nat) : List Nat :=
  (s.rets.filter (fun r => (parkedCva page r.2.cond).isSome && match r.2.owner with | some t => (thr s t).ctx == c | none => false)).map (·.1)

section
variable {s : State} {c page : Nat}

theorem parkedThreads_nodup (rising : krising s.threads = true) : ((parkedThreads s c page).map (·.1)).Nodup := by
  refine (krising_nodup rising).sublist (keys_filterMap_sublist (fun p q h => ?_) _)
  rw [Option.ite_none_right_eq_some] at h
  obtain ⟨cva, -, rfl⟩ := Option.map_eq_some_iff.mp h.2
  rfl

theorem mem_parkedThreads {n : Nat} {x : Thread} (rising : krising s.threads = true) (found : kfind s.threads n = some x) :
    n ∈ (parkedThreads s c page).map (·.1) ↔ x.ctx = c ∧ ∃ cva, x.cond = .parkedPage cva ∧ cva / 4096 = page := by
  constructor
  · intro h
    obtain ⟨q, hq, rfl⟩ := List.mem_map.mp h
    obtain ⟨p, hp, e⟩ := List.mem_filterMap.mp hq
    obtain ⟨own, e⟩ := Option.ite_none_right_eq_some.mp e
    obtain ⟨cva, parked, rfl⟩ := Option.map_eq_some_iff.mp e
    have same := kfind_of_mem rising (show (p.1, p.2) ∈ s.threads from hp)
    rw [found] at same
    cases same
    exact ⟨own, cva, parkedCva_some.mp parked⟩
  · rintro ⟨own, cva, parked⟩
    refine List.mem_map.mpr ⟨(n, cva), List.mem_filterMap.mpr ⟨(n, x), kfind_mem found, ?_⟩, rfl⟩
    rw [if_pos own, parkedCva_some.mpr parked]
    rfl

theorem mem_parkedThreads_found {n : Nat} (h : n ∈ (parkedThreads s c page).map (·.1)) : ∃ x, (n, x) ∈ s.threads ∧ x.ctx = c ∧
    ∃ cva, x.cond = .parkedPage cva ∧ cva / 4096 = page := by
  obtain ⟨q, hq, rfl⟩ := List.mem_map.mp h
  obtain ⟨p, hp, e⟩ := List.mem_filterMap.mp hq
  obtain ⟨own, e⟩ := Option.ite_none_right_eq_some.mp e
  obtain ⟨cva, parked, rfl⟩ := Option.map_eq_some_iff.mp e
  exact ⟨p.2, hp, own, cva, parkedCva_some.mp parked⟩

theorem mem_parkedRets_found {n : Nat} (h : n ∈ parkedRets s c page) : ∃ r, (n, r) ∈ s.rets ∧
    (∃ cva, r.cond = .parkedPage cva ∧ cva / 4096 = page) ∧ ∃ o, r.owner = some o ∧ (thr s o).ctx = c := by
  obtain ⟨q, hq, rfl⟩ := List.mem_map.mp h
  obtain ⟨hq, parked⟩ := List.mem_filter.mp hq
  obtain ⟨parked, own⟩ := Bool.and_eq_true_iff.mp parked
  obtain ⟨cva, parked⟩ := Option.isSome_iff_exists.mp parked
  refine ⟨q.2, hq, ⟨cva, parkedCva_some.mp parked⟩, ?_⟩
  cases owner : q.2.owner with
  | none => rw [owner] at own; cases own
  | some o =>
    rw [owner] at own
    exact ⟨o, rfl, beq_iff_eq.mp own⟩

theorem mem_parkedRets {n : Nat} {r : Retriever} (rising : krising s.rets = true) (found : kfind s.rets n = some r) :
    n ∈ parkedRets s c page ↔ (∃ cva, r.cond = .parkedPage cva ∧ cva / 4096 = page) ∧ ∃ o, r.owner = some o ∧ (thr s o).ctx = c := by
  constructor
  · intro h
    obtain ⟨q, hq, mine⟩ := mem_parkedRets_found h
    have same := kfind_of_mem rising hq
    rw [found] at same
    cases same
    exact mine
  · rintro ⟨⟨cva, parked⟩, o, owner, own⟩
    refine List.mem_map.mpr ⟨(n, r), List.mem_filter.mpr ⟨kfind_mem found, ?_⟩, rfl⟩
    rw [parkedCva_some.mpr parked, owner]
    exact beq_iff_eq.mpr own

end

/-! ### The message -/

section
variable {s : State}

theorem wakeMessage_frozen (frozen : frozenCtx s s.msg.a = true) : exec .wakeMessage s = .next s := by
  change execWakeMessage s = _
  unfold execWakeMessage
  simp only [frozen, if_true]

/-- The state that a wake leaves. -/
def pageWake (s : State) : State :=
  let lost := if s.msg.c = 2 then some s.msg.b else none
  (parkedRets s s.msg.a s.msg.b).foldl (wakeRet lost) ((parkedThreads s s.msg.a s.msg.b).foldl (wakeThread s.msg.a s.msg.c lost) s)

theorem wakeMessage_runs (free : frozenCtx s s.msg.a = false) : exec .wakeMessage s = .next (pageWake s) := by
  change execWakeMessage s = _
  unfold execWakeMessage
  simp only [free, Bool.false_eq_true, if_false]
  unfold pageWake parkedRets
  rw [List.foldl_map]
  rfl

theorem pageWake_rest (s : State) : pageWake s = { s with threads := (pageWake s).threads, rets := (pageWake s).rets, cores := (pageWake s).cores } := by
  unfold pageWake
  dsimp only
  obtain ⟨threads, cores, first⟩ := wakeThreads_rest s.msg.a s.msg.c (if s.msg.c = 2 then some s.msg.b else none)
    (parkedThreads s s.msg.a s.msg.b) s
  obtain ⟨rets, second⟩ := wakeRets_rest (if s.msg.c = 2 then some s.msg.b else none) (parkedRets s s.msg.a s.msg.b)
    { s with threads := threads, cores := cores }
  rw [first, second]

/-- The word that a wake keeps a failure for (R122). -/
def wakeLost (s : State) : Option Nat := if s.msg.c = 2 then some s.msg.b else none

/-- The state once the threads are woken. -/
def threadsWoken (s : State) : State := (parkedThreads s s.msg.a s.msg.b).foldl (wakeThread s.msg.a s.msg.c (wakeLost s)) s

theorem pageWake_threads (s : State) : (pageWake s).threads = (threadsWoken s).threads ∧ (pageWake s).cores = (threadsWoken s).cores := by
  obtain ⟨rets, second⟩ := wakeRets_rest (wakeLost s) (parkedRets s s.msg.a s.msg.b) (threadsWoken s)
  have run : pageWake s = { threadsWoken s with rets := rets } := second
  rw [run]
  exact ⟨rfl, rfl⟩

theorem kfind_pageWake (s : State) (n : Nat) : kfind (pageWake s).threads n =
    if n ∈ (parkedThreads s s.msg.a s.msg.b).map (·.1) then some { thr s n with cond := .waiting, noPage := wakeLost s }
    else kfind s.threads n := by
  rw [(pageWake_threads s).1]
  exact wakeThreads_threads ..

theorem core_pageWake (s : State) (k : Nat) : core (pageWake s) k = core (threadsWoken s) k := by
  unfold core
  rw [(pageWake_threads s).2]

theorem kfind_pageWake_rets (s : State) (n : Nat) : kfind (pageWake s).rets n =
    if n ∈ parkedRets s s.msg.a s.msg.b then some { ret s n with cond := .waiting, noPage := wakeLost s } else kfind s.rets n := by
  obtain ⟨_, _, first⟩ := wakeThreads_rest s.msg.a s.msg.c (wakeLost s) (parkedThreads s s.msg.a s.msg.b) s
  have rets : (threadsWoken s).rets = s.rets := by
    rw [show threadsWoken s = _ from first]
  have same : ret (threadsWoken s) n = ret s n := by
    unfold ret
    rw [rets]
  rw [show pageWake s = _ from rfl, ← same, ← rets]
  exact wakeRets_rets ..

/-- Every thread parked on the page issues its word again, and its core's trace says so (R122). -/
theorem pageWake_wakes (rising : krising s.threads = true) :
    (∀ n, kfind s.threads n = none → kfind (pageWake s).threads n = none) ∧
    (∀ n x, kfind s.threads n = some x →
      (x.ctx = s.msg.a ∧ (∃ cva, x.cond = .parkedPage cva ∧ cva / 4096 = s.msg.b) →
        kfind (pageWake s).threads n = some { x with cond := .waiting, noPage := wakeLost s } ∧
        ∃ e ∈ (core (pageWake s) (coreOf n)).trace, e.kind = 4 ∧ e.code = s.msg.c ∧ e.hw = hwOf n ∧ e.pc = x.hart.pc) ∧
      (¬(x.ctx = s.msg.a ∧ ∃ cva, x.cond = .parkedPage cva ∧ cva / 4096 = s.msg.b) → kfind (pageWake s).threads n = some x)) ∧
    (∀ k, core (pageWake s) k = { core s k with trace := (core (pageWake s) k).trace }) ∧
    ∀ k, (∀ n x, kfind s.threads n = some x → coreOf n = k →
      ¬(x.ctx = s.msg.a ∧ ∃ cva, x.cond = .parkedPage cva ∧ cva / 4096 = s.msg.b)) → core (pageWake s) k = core s k := by
  refine ⟨fun n none_ => ?_, fun n x found => ⟨fun mine => ⟨?_, ?_⟩, fun other => ?_⟩, fun k => ?_, fun k off => ?_⟩
  · rw [kfind_pageWake, if_neg, none_]
    intro inside
    obtain ⟨x, hx, -⟩ := mem_parkedThreads_found inside
    rw [kfind_of_mem rising hx] at none_
    cases none_
  · have same : thr s n = x := by
      unfold thr kget
      rw [found]
      rfl
    rw [kfind_pageWake, if_pos ((mem_parkedThreads rising found).mpr mine), same]
  · obtain ⟨p, hp, rfl⟩ := List.mem_map.mp ((mem_parkedThreads rising found).mpr mine)
    obtain ⟨e, inside, kind, code, hw, pc⟩ := wakeThreads_entry s.msg.a s.msg.c (wakeLost s) (parkedThreads_nodup rising) s hp
    refine ⟨e, ?_, kind, code, hw, pc.trans ?_⟩
    · rw [core_pageWake]
      exact inside
    · unfold thr kget
      rw [found]
      rfl
  · rw [kfind_pageWake, if_neg (mt (mem_parkedThreads rising found).mp other), found]
  · rw [core_pageWake]
    exact wakeThreads_core ..
  · rw [core_pageWake]
    refine wakeThreads_core_off _ _ _ k _ _ fun p hp on => ?_
    obtain ⟨x, hx, mine⟩ := mem_parkedThreads_found (List.mem_map_of_mem hp)
    exact off p.1 x (kfind_of_mem rising hx) on mine

/-- Every Retriever that waits on the page for its thread issues its word again. -/
theorem pageWake_wakesRets (rising : krising s.rets = true) :
    (∀ n, kfind s.rets n = none → kfind (pageWake s).rets n = none) ∧
    ∀ n r, kfind s.rets n = some r →
      let mine : Prop := (∃ cva, r.cond = .parkedPage cva ∧ cva / 4096 = s.msg.b) ∧ ∃ o, r.owner = some o ∧ (thr s o).ctx = s.msg.a
      (mine → kfind (pageWake s).rets n = some { r with cond := .waiting, noPage := wakeLost s }) ∧
        (¬mine → kfind (pageWake s).rets n = some r) := by
  refine ⟨fun n none_ => ?_, fun n r found => ⟨fun mine => ?_, fun other => ?_⟩⟩
  · rw [kfind_pageWake_rets, if_neg, none_]
    intro inside
    obtain ⟨x, hx, -⟩ := mem_parkedRets_found inside
    rw [kfind_of_mem rising hx] at none_
    cases none_
  · have same : ret s n = r := by
      unfold ret kget
      rw [found]
      rfl
    rw [kfind_pageWake_rets, if_pos ((mem_parkedRets rising found).mpr mine), same]
  · rw [kfind_pageWake_rets, if_neg (mt (mem_parkedRets rising found).mp other), found]

end

end Sys2Proof.Machine
end

section
/-! RESULT. The copy engine and the pager (O56). -/

namespace Sys2Proof.Machine

/-! ### Chunks -/

/-- The bytes of a stream that are resolved on both sides. -/
def resolved (l : List StreamByte) : List (ByteRef × ByteRef) := l.filterMap (fun x => match x with | .ok d a => some (d, a) | _ => none)

theorem mem_resolved {l : List StreamByte} {x : ByteRef × ByteRef} : x ∈ resolved l ↔ .ok x.1 x.2 ∈ l := by
  unfold resolved
  rw [List.mem_filterMap]
  constructor
  · rintro ⟨y, hy, e⟩
    cases y with
    | ok d a => cases e; exact hy
    | delay => cases e
    | bad => cases e
  · exact fun h => ⟨_, h, rfl⟩

/-- Whether a stream byte is resolved on both sides. -/
def StreamByte.isOk : StreamByte → Bool
  | .ok _ _ => true
  | _ => false

theorem resolved_length (f : Nat → StreamByte) (l : List Nat) : (resolved (l.map f)).length = (l.filter (fun t => (f t).isOk)).length := by
  induction l with
  | nil => rfl
  | cons t r ih =>
    unfold resolved at *
    rw [List.map_cons, List.filterMap_cons, List.filter_cons]
    cases f t with
    | ok => exact congrArg (· + 1) ih
    | delay => exact ih
    | bad => exact ih

section
variable {s : State} {c : Copy} {k : Nat}

theorem judgeChunk_ok {l : List (ByteRef × ByteRef)} (h : judgeChunk s c k = .ok l) : l = resolved (chunkStream s c k) ∧
    ∀ x ∈ chunkStream s c k, ∃ d a, x = .ok d a := by
  unfold judgeChunk at h
  dsimp only at h
  split at h
  · cases h
  · next there =>
    split at h
    · cases h
    · next sound =>
      refine ⟨(ChunkState.ok.inj h).symm, fun x hx => ?_⟩
      have here := List.findSome?_eq_none_iff.mp there x hx
      have good := List.findSome?_eq_none_iff.mp sound x hx
      cases x with
      | ok d a => exact ⟨d, a, rfl⟩
      | delay => cases here
      | bad => cases good

end

theorem find_fresh {c : Copy} {k : Nat} (fresh : ∀ w ∈ c.wrote, w.1 ≠ k) : c.wrote.find? (fun w => w.1 == k) = none :=
  List.find?_eq_none.mpr fun w hw => by simpa using fresh w hw

theorem any_fresh {c : Copy} {k : Nat} (fresh : ∀ w ∈ c.wrote, w.1 ≠ k) : c.wrote.any (fun w => w.1 == k) = false :=
  List.any_eq_false.mpr fun w hw => by simpa using fresh w hw

/-- A chunk whose bytes have been written. -/
theorem chunkWritten_eq (t : State) (p id k op n : Nat) (c : Copy) : chunkWritten t p id k op n c =
    if opQueued t op = true then
      owe (modCopy t p id (fun y => if ∃ w ∈ y.wrote, w.1 = k then y else { y with wrote := y.wrote ++ [(k, op, n)] }))
        [ev .chunkDone p id k]
    else endChunk (arriveBytes t p c n) p id k := by
  have noted (y : Copy) : (y.wrote.any (fun w => w.1 == k) = true) = ∃ w ∈ y.wrote, w.1 = k := by
    simp only [List.any_eq_true, beq_iff_eq]
  unfold chunkWritten
  simp only [noted]

section
variable {s : State}

theorem chunk_gone (gone : findCopy s s.msg.a s.msg.b = none) : exec .chunkDone s = .next s ∧ exec .chunkFault s = .next s := by
  constructor
  · change execChunkDone s = _
    unfold execChunkDone
    simp only [gone]
  · change execChunkFault s = _
    unfold execChunkFault
    simp only [gone]

variable {c : Copy} (found : findCopy s s.msg.a s.msg.b = some c)
include found

theorem chunk_over (over_ : s.msg.c ∉ c.live) : exec .chunkDone s = .next s ∧ exec .chunkFault s = .next s := by
  have off : c.live.contains s.msg.c = false := by
    simpa using over_
  constructor
  · change execChunkDone s = _
    unfold execChunkDone
    simp only [found, off, Bool.not_false, if_true]
  · change execChunkFault s = _
    unfold execChunkFault
    simp only [found, off, Bool.not_false, Bool.true_or, if_true]

variable (live : s.msg.c ∈ c.live)
include live

/-- A chunk whose bytes wait in a write queue (R99). -/
theorem chunk_wrote {op n : Nat} (wrote : c.wrote.find? (fun w => w.1 == s.msg.c) = some (s.msg.c, op, n)) :
    exec .chunkDone s = .next (chunkWritten s s.msg.a s.msg.b s.msg.c op n c) ∧ exec .chunkFault s = .next s := by
  have some_ : c.wrote.any (fun w => w.1 == s.msg.c) = true := List.any_eq_true.mpr ⟨_, List.mem_of_find?_eq_some wrote, beq_self_eq_true _⟩
  constructor
  · change execChunkDone s = _
    unfold execChunkDone
    simp only [found, List.contains_iff_mem.mpr live, wrote, Bool.not_true, Bool.false_eq_true, if_false]
  · change execChunkFault s = _
    unfold execChunkFault
    simp only [found, List.contains_iff_mem.mpr live, some_, Bool.not_true, Bool.false_or, if_true]

variable (fresh : ∀ w ∈ c.wrote, w.1 ≠ s.msg.c)
include fresh

/-- A chunk that has met no fault is performed (R254). -/
theorem chunkDone_ok {l : List (ByteRef × ByteRef)} (judged : judgeChunk s c s.msg.c = .ok l) : exec .chunkDone s =
    .next (chunkWritten (writeChunk s s.msg.a c s.msg.c l) s.msg.a s.msg.b s.msg.c s.nextId (c.chunkBytes s.msg.c).length c) := by
  change execChunkDone s = _
  unfold execChunkDone
  simp only [found, List.contains_iff_mem.mpr live, find_fresh fresh, judged, Bool.not_true, Bool.false_eq_true, if_false]

/-- A chunk that meets a page that is not present waits for it (R254). -/
theorem chunkDone_delay {a : Nat} (judged : judgeChunk s c s.msg.c = .delay a) : exec .chunkDone s =
    .next (fileReport (owe s [ev .chunkDone s.msg.a s.msg.b s.msg.c]) c.ctx (a / 4096)) := by
  change execChunkDone s = _
  unfold execChunkDone
  simp only [found, List.contains_iff_mem.mpr live, find_fresh fresh, judged, Bool.not_true, Bool.false_eq_true, if_false]

theorem chunkDone_bad {side : Bool} {kind a : Nat} (judged : judgeChunk s c s.msg.c = .bad side kind a) : exec .chunkDone s =
    .next (owe s [ev .chunkFault s.msg.a s.msg.b s.msg.c]) := by
  change execChunkDone s = _
  unfold execChunkDone
  simp only [found, List.contains_iff_mem.mpr live, find_fresh fresh, judged, Bool.not_true, Bool.false_eq_true, if_false]

omit found live fresh in
/-- The fault of a chunk: its own, or its source's data error where the message says so (R255). -/
def faultOf (s : State) (c : Copy) (k : Nat) : Option (Nat × Bool × Nat) :=
  match judgeChunk s c k with
  | .bad side kind a => some (kind, side, a)
  | .ok ((_, a) :: _) => if s.msg.flag then some (7, false, a.cva) else none
  | _ => none

theorem chunkFault_none (none_ : faultOf s c s.msg.c = none) :
    exec .chunkFault s = .next (if s.msg.flag then s else owe s [ev .chunkDone s.msg.a s.msg.b s.msg.c]) := by
  change execChunkFault s = _
  unfold execChunkFault
  simp only [found, List.contains_iff_mem.mpr live, any_fresh fresh, Bool.not_true, Bool.or_self, Bool.false_eq_true, if_false]
  change (match faultOf s c s.msg.c with | none => _ | some (kind, side, a) => _) = _
  rw [none_]

theorem chunkFault_some {kind a : Nat} {side : Bool} (some_ : faultOf s c s.msg.c = some (kind, side, a)) :
    let oks := resolved (chunkStream s c s.msg.c)
    let part := (oks.zipIdx.filter (fun x => Config.mixed (s.free + x.2))).map (·.1)
    exec .chunkFault s = .next (chunkWritten (modCopy (writeChunk { s with free := s.free + oks.length } s.msg.a c s.msg.c part)
      s.msg.a s.msg.b (fun c => { c with bad := c.bad ++ [(s.msg.c, kind, side, a)] })) s.msg.a s.msg.b s.msg.c s.nextId part.length c) := by
  intro oks part
  change execChunkFault s = _
  unfold execChunkFault
  simp only [found, List.contains_iff_mem.mpr live, any_fresh fresh, Bool.not_true, Bool.or_self, Bool.false_eq_true, if_false]
  change (match faultOf s c s.msg.c with | none => _ | some (kind, side, a) => _) = _
  rw [some_]
  rfl

end

/-! ### Pages reported -/

/-- What a page brought in ends with: its report leaves the list, and its waiters are woken (R269). -/
def pageWoken (u : State) (c page code : Nat) : State :=
  owe (modCtx u c (fun x => { x with reports := x.reports.filter (· != page) })) [ev .wakeMessage c page code]

section
variable {s : State}

theorem pageReport_unfiled (none_ : ∀ x, ctx? s s.msg.a = some x → s.msg.b ∉ x.reports) : exec .pageReport s = .next s := by
  change execPageReport s = _
  unfold execPageReport
  cases found : ctx? s s.msg.a with
  | none => simp only [found, Bool.not_false, if_true]
  | some x =>
    have off : x.reports.contains s.msg.b = false := by
      simpa using none_ x found
    simp only [found, off, Bool.not_false, if_true]

variable {x : Ctx} (found : ctx? s s.msg.a = some x) (filed : s.msg.b ∈ x.reports)
include found filed

theorem pageReport_unmapped (none_ : (pageEntry s s.msg.a s.msg.b).getLsbD 0 = false) :
    exec .pageReport s = .next (pageWoken s s.msg.a s.msg.b 2) := by
  change execPageReport s = _
  unfold execPageReport
  simp only [found, List.contains_iff_mem.mpr filed, none_, Bool.not_true, Bool.not_false, Bool.false_eq_true, if_false, if_true]
  rfl

theorem pageReport_present (mapped : (pageEntry s s.msg.a s.msg.b).getLsbD 0 = true)
    (present : (pageEntry s s.msg.a s.msg.b).getLsbD 1 = true) : exec .pageReport s =
      .next (pageWoken (bringAhead s.msg.a (aheadOf s s.msg.a s.msg.b) (s.msg.b + 1) s) s.msg.a s.msg.b 0) := by
  change execPageReport s = _
  unfold execPageReport
  simp only [found, List.contains_iff_mem.mpr filed, mapped, present, Bool.not_true, Bool.false_eq_true, if_false, if_true]
  rfl

section
variable (mapped : (pageEntry s s.msg.a s.msg.b).getLsbD 0 = true) (absent : (pageEntry s s.msg.a s.msg.b).getLsbD 1 = false)
include mapped absent

theorem pageReport_brought {u : State} {code : Nat} (brought : bringPage s s.msg.a s.msg.b s.msg.flag = some (u, code)) :
    exec .pageReport s = .next (pageWoken (if code = 0 then bringAhead s.msg.a (aheadOf u s.msg.a s.msg.b) (s.msg.b + 1) u else u)
      s.msg.a s.msg.b code) := by
  change execPageReport s = _
  unfold execPageReport
  simp only [found, List.contains_iff_mem.mpr filed, mapped, absent, brought, Bool.not_true, Bool.false_eq_true, if_false]
  rfl

theorem pageReport_waits (none_ : bringPage s s.msg.a s.msg.b s.msg.flag = none) :
    exec .pageReport s = .next (owe s [ev .pageReport s.msg.a s.msg.b]) := by
  change execPageReport s = _
  unfold execPageReport
  simp only [found, List.contains_iff_mem.mpr filed, mapped, absent, none_, Bool.not_true, Bool.false_eq_true, if_false]

end

end

/-! ### Code pages -/

section
variable {s : State} {c k : Nat} {x : Ctx} {i : Image} (found : ctx? s c = some x) (image : kfind x.images k = some i) (sound : i.bad = false)
  (aligned : x.heap.base.toNat % 4096 = 0) (inside : k * 4096 < x.heap.limit.toNat)
include found image sound aligned inside

/-- A page of code that is not present, its digest checked (R160). -/
theorem bringPage_code (err : Bool) : bringPage s c (x.heap.base.toNat / 4096 + k) err =
    if err || !imageOk i then some (failPage s c k i, 5)
    else (fillPage s c (x.heap.base.toNat / 4096 + k) (patchedPage i k)).map (fun t => (t, 0)) := by
  have within : x.heap.base.toNat ≤ (x.heap.base.toNat / 4096 + k) * 4096 ∧
      (x.heap.base.toNat / 4096 + k) * 4096 < x.heap.base.toNat + x.heap.limit.toNat := by
    omega
  unfold bringPage
  simp only [found, if_pos within, Nat.add_sub_cancel_left, image, sound, Bool.false_eq_true, if_false]

/-- A page whose image is lost stays unmapped, and its object is tainted (R160). -/
theorem bringPage_code_fails {err : Bool} (fails : err = true ∨ sha256 i.bytes ≠ i.digest) :
    ∃ t, bringPage s c (x.heap.base.toNat / 4096 + k) err = some (t, 5) ∧ t.pt = s.pt ∧
      ∃ y, ctx? t c = some y ∧ i.obj ∈ y.tainted ∧ (∀ o ∈ x.tainted, o ∈ y.tainted) ∧ kfind y.images k = some { i with bad := true } := by
  have lost : (err || !imageOk i) = true := by
    rcases fails with bad | differs
    · rw [bad, Bool.true_or]
    · rw [imageOk, beq_eq_false_iff_ne.mpr differs, Bool.not_false, Bool.or_true]
  refine ⟨failPage s c k i, by rw [bringPage_code found image sound aligned inside, if_pos lost], modCtx_pt .., ?_⟩
  unfold failPage
  rw [ctx_modCtx, if_pos rfl, found]
  refine ⟨_, rfl, ?_, fun o ho => ?_, kfind_kset_self ..⟩
  · dsimp only
    split
    · next there => exact List.contains_iff_mem.mp there
    · exact List.mem_cons_self
  · dsimp only
    split
    · exact ho
    · exact List.mem_cons_of_mem _ ho

/-- A page whose digest matches enters memory with its relocations applied (R160). -/
theorem bringPage_code_matches (same : sha256 i.bytes = i.digest) : bringPage s c (x.heap.base.toNat / 4096 + k) false =
    (fillPage s c (x.heap.base.toNat / 4096 + k) (patchedPage i k)).map (fun t => (t, 0)) := by
  rw [bringPage_code found image sound aligned inside, if_neg]
  rw [imageOk, same, beq_self_eq_true]
  exact Bool.false_ne_true

end

/-! ### A chunk judged -/

theorem resolved_all : ∀ {l : List StreamByte}, (∀ x ∈ l, ∃ d a, x = .ok d a) → (resolved l).map (fun x => .ok x.1 x.2) = l
  | [], _ => rfl
  | x :: r, all => by
    obtain ⟨d, a, rfl⟩ := all x List.mem_cons_self
    exact congrArg (StreamByte.ok d a :: ·) (resolved_all fun y hy => all y (List.mem_cons_of_mem _ hy))

section
variable {s : State} {c : Copy} {k : Nat} {l : List (ByteRef × ByteRef)} (h : judgeChunk s c k = .ok l)
include h

theorem judgeChunk_stream : l.map (fun x => .ok x.1 x.2) = chunkStream s c k := by
  obtain ⟨rfl, all⟩ := judgeChunk_ok h
  exact resolved_all all

theorem judgeChunk_length : l.length = min 4096 (c.len - 4096 * k) := by
  have same := congrArg List.length (judgeChunk_stream h)
  rw [List.length_map, chunkStream, List.length_map, Copy.chunkBytes, span_length] at same
  exact same

theorem judgeChunk_byte {j : Nat} {x : ByteRef × ByteRef} (found : l[j]? = some x) :
    streamByte (served s (c.indexRefs s (c.chunkBytes k))) c (4096 * k + j) = .ok x.1 x.2 := by
  have inside : j < min 4096 (c.len - 4096 * k) := by
    rw [← judgeChunk_length h]
    exact (List.getElem?_eq_some_iff.mp found).1
  have same := congrArg (·[j]?) (judgeChunk_stream h)
  simp only [chunkStream, List.getElem?_map, found, Copy.chunkBytes, span, List.getElem?_range inside, Option.map_some,
    Option.some.injEq] at same
  exact same.symm

end

/-! ### A chunk that faults -/

section
variable {s : State} {c : Copy}

theorem faultOf_eq {kind a : Nat} {side : Bool} (fault : judgeChunk s c s.msg.c = .bad side kind a ∨ s.msg.flag = true ∧ kind = 7 ∧ side = false ∧
    ∃ d x l, judgeChunk s c s.msg.c = .ok ((d, x) :: l) ∧ a = x.cva) : faultOf s c s.msg.c = some (kind, side, a) := by
  unfold faultOf
  rcases fault with own | ⟨flag, rfl, rfl, d, x, l, judged, rfl⟩
  · rw [own]
  · rw [judged]
    exact if_pos flag

theorem faultOf_none (sound : ∀ side kind a, judgeChunk s c s.msg.c ≠ .bad side kind a)
    (spared : s.msg.flag = true → judgeChunk s c s.msg.c = .ok [] ∨ ∃ a, judgeChunk s c s.msg.c = .delay a) :
    faultOf s c s.msg.c = none := by
  unfold faultOf
  cases judged : judgeChunk s c s.msg.c with
  | bad side kind a => exact absurd judged (sound side kind a)
  | delay a => rfl
  | ok l =>
    cases l with
    | nil => rfl
    | cons x l =>
      refine if_neg fun flag => ?_
      rcases spared flag with none_ | ⟨a, delayed⟩
      · rw [judged] at none_; cases none_
      · rw [judged] at delayed; cases delayed

theorem mem_part {k n : Nat} {x : ByteRef × ByteRef}
    (hx : x ∈ ((resolved (chunkStream s c k)).zipIdx.filter (fun x => Config.mixed (n + x.2))).map (·.1)) :
    ∃ t ∈ c.chunkBytes k, streamByte (served s (c.indexRefs s (c.chunkBytes k))) c t = .ok x.1 x.2 := by
  obtain ⟨y, hy, rfl⟩ := List.mem_map.mp hx
  have inside := List.fst_mem_of_mem_zipIdx (List.mem_filter.mp hy).1
  obtain ⟨t, ht, e⟩ := List.mem_map.mp (mem_resolved.mp inside)
  exact ⟨t, ht, e⟩

end

section
variable {s : State} {c : Copy} (found : findCopy s s.msg.a s.msg.b = some c) (live : s.msg.c ∈ c.live) (fresh : ∀ w ∈ c.wrote, w.1 ≠ s.msg.c)
include found live fresh

/-- A chunk at fault: of its other bytes some have been written (R255; log 9). -/
theorem chunkFault_faults {kind a : Nat} {side : Bool} (fault : judgeChunk s c s.msg.c = .bad side kind a ∨
    s.msg.flag = true ∧ kind = 7 ∧ side = false ∧ ∃ d x l, judgeChunk s c s.msg.c = .ok ((d, x) :: l) ∧ a = x.cva) :
    ∃ part, (∀ x ∈ part, ∃ t ∈ c.chunkBytes s.msg.c,
        streamByte (served s (c.indexRefs s (c.chunkBytes s.msg.c))) c t = .ok x.1 x.2) ∧
      exec .chunkFault s = .next (chunkWritten (modCopy (writeChunk { s with free := s.free + ((c.chunkBytes s.msg.c).filter (fun t =>
        (streamByte (served s (c.indexRefs s (c.chunkBytes s.msg.c))) c t).isOk)).length } s.msg.a c s.msg.c part)
        s.msg.a s.msg.b (fun c => { c with bad := c.bad ++ [(s.msg.c, kind, side, a)] })) s.msg.a s.msg.b s.msg.c s.nextId part.length c) :=
  ⟨_, fun _ => mem_part, by
    rw [chunkFault_some found live fresh (faultOf_eq fault), ← resolved_length]
    rfl⟩

theorem chunkFault_sound (sound : ∀ side kind a, judgeChunk s c s.msg.c ≠ .bad side kind a) :
    (s.msg.flag = false → exec .chunkFault s = .next (owe s [ev .chunkDone s.msg.a s.msg.b s.msg.c])) ∧
      (s.msg.flag = true → (judgeChunk s c s.msg.c = .ok [] ∨ ∃ a, judgeChunk s c s.msg.c = .delay a) → exec .chunkFault s = .next s) := by
  refine ⟨fun off => ?_, fun on spared => ?_⟩
  · rw [chunkFault_none found live fresh (faultOf_none sound fun on => absurd (on.symm.trans off) Bool.noConfusion), off]
    rfl
  · rw [chunkFault_none found live fresh (faultOf_none sound fun _ => spared), on]
    rfl

end

/-- Settles O56, by the step of each chunk and page, by what a chunk's writes leave where they go, and by the offsets of a stream byte. -/
theorem copyEngineAndPager : Obligations.CopyEngineAndPager := by
  refine ⟨fun s => ⟨chunk_gone, fun c found => chunk_over found, fun c found live => ⟨fun op n wrote => ?_, fun fresh => ?_⟩, ?_, ?_⟩,
    fun s c k x i found image sound aligned inside => ⟨fun err => bringPage_code_fails found image sound aligned inside,
      bringPage_code_matches found image sound aligned inside⟩,
    fun s p c k l judged => ?_, fun s c t x ok => ⟨streamByte_line ok, streamByte_rows ok, fun window r geom => ?_, fun gather => ?_⟩⟩
  · obtain ⟨done_, fault⟩ := chunk_wrote found live wrote
    exact ⟨done_.trans (congrArg _ (chunkWritten_eq ..)), fault⟩
  · refine ⟨fun l judged => (chunkDone_ok found live fresh judged).trans (congrArg _ (chunkWritten_eq ..)),
      fun a => chunkDone_delay found live fresh, fun side kind a => chunkDone_bad found live fresh, fun side kind a fault => ?_,
      chunkFault_sound found live fresh⟩
    · obtain ⟨part, read, run⟩ := chunkFault_faults found live fresh fault
      exact ⟨part, read, run.trans (congrArg _ (chunkWritten_eq ..))⟩
  · refine ⟨pageReport_unfiled, fun x found filed => ⟨pageReport_unmapped found filed, pageReport_present found filed,
      fun mapped absent => ⟨fun u code => pageReport_brought found filed mapped absent, pageReport_waits found filed mapped absent⟩⟩⟩
  · exact ⟨wakeMessage_frozen, fun free => ⟨pageWake s, wakeMessage_runs free, pageWake_rest s, pageWake_wakes, pageWake_wakesRets⟩⟩
  · obtain ⟨given, kept⟩ := writeChunk_moves s p c k l
    exact ⟨judgeChunk_length judged, fun j x => judgeChunk_byte judged, standing_sublist s c k l, fun x => standing_or, given, kept⟩
  · exact streamByte_window ok window geom
  · refine gatherByte_ok (Eq.trans ?_ ok)
    unfold streamByte
    rw [if_pos gather]

end Sys2Proof.Machine
end
